-- ==== Sys2Proof/Word.lean ====
section
/-! DEFINITION. The word types of the machine and their plainest arithmetic. -/

namespace Sys2Proof

/-- A 32-bit word: a general register, an address, an instruction. -/
abbrev Word := BitVec 32

/-- A 16-bit halfword. -/
abbrev Half := BitVec 16

/-- A byte, the smallest addressable unit (20_memory.md R1000). -/
abbrev Byte := BitVec 8

/-- A 64-bit doubleword. -/
abbrev Dword := BitVec 64

/-- A one-bit field read as a truth value. -/
abbrev isSet (b : BitVec 1) : Bool := b == 1#1

/-- A truth value as a one-bit field. -/
abbrev bit (b : Bool) : BitVec 1 := BitVec.ofBool b

end Sys2Proof
end

