-- ==== Sys2Proof/Config.lean ====
section
/-! DEFINITION. What an implementation fixes: static pins of 92_eei_decisions.md D6 that the spec gives no value, the
identification registers that are the same in every build, and the free values (log 3). The build options of D1 and D2 are
`State.build`. -/

namespace Sys2Proof.Config

/-- A free value: nothing is known of it. It is applied to the counter `draws` of the state, so that each draw is
independent of every other (D4(a), D5, D25; log 3). -/
opaque freeWord : Nat → Word

/-- What an L1 or L2 array holds after a reset that leaves its valid bits alone without retention (R2208): for each line
its set, way, tag, NS bit, dirty bits, policy and data, all free. -/
opaque freeArray : Nat → List (Nat × Nat × BitVec 26 × Bool × BitVec 4 × BitVec 2 × BitVec 512)

/-- DBGROMADDR[31:12] and DBGROMADDRV (R797, D6; log 4): the implementation decides. -/
opaque dbgromaddr : BitVec 20
opaque dbgromaddrv : Bool

/-- DBGSELFADDR[31:12] and DBGSELFADDRV (R797, D6; log 4): the implementation decides. -/
opaque dbgselfaddr : BitVec 20
opaque dbgselfaddrv : Bool

/-- RETAIN_L1D and RETAIN_L2 (63_pmu_power.md R2195, R2197; log 37): whether the data cache RAMs keep their contents while the
core has no power. The first implies the second. -/
opaque retainL1d : Bool
opaque retainL2Alone : Bool
def retainL2 : Bool := retainL1d || retainL2Alone

/-- SILICONID[31:0] (R183, D6; log 4): the implementation decides. -/
opaque siliconid : Word

/-- The revision and manufacturer revision fields of the peripheral identification registers of the debug unit (0), the ETM
(1) and the CTI (2) in a revision rnpm other than r3p2, for which alone the spec prints them (17_debug_management.md R785,
90_conflicts.md C23). -/
opaque peripheralRevision (component major minor : Nat) : BitVec 8

/-- The identification registers that are the same in every build (11_cp15_id.md R157 to R185). -/
def ctr : Word := 0x82048004
def tcmtr : Word := 0x00000000
def tlbtr : Word := 0x00202001
def mpidr : Word := 0x00000000
def idPfr0 : Word := 0x00001131
def idPfr1 : Word := 0x00000011
def idAfr0 : Word := 0x00000000
def idMmfr0 : Word := 0x01100003
def idMmfr1 : Word := 0x20000000
def idMmfr2 : Word := 0x01202000
def idMmfr3 : Word := 0x00000211
def idIsar0 : Word := 0x00101111
def idIsar1 : Word := 0x13112111
def idIsar2 : Word := 0x21232031
def idIsar3 : Word := 0x11112131
def idIsar4 : Word := 0x00011142

/-- NEON/VFP identification registers (18_neon_vfp_state.md R845). -/
def mvfr0 : Word := 0x11110222
def mvfr1 : Word := 0x00011111

end Sys2Proof.Config
end

