-- ==== Sys2Proof/Syntax.lean ====
section
/-! DEFINITION. The abstract syntax: one constructor per row of spec/opcode_table.json, in its order; the arguments are the fields of the row, most significant first, each a bit vector of the width of the field. -/

namespace Sys2Proof

/-- The instructions of the opcode table. Register fields are register numbers, `cond` is the condition field of R1353,
`sf` the set-flags bit, `p`, `u`, `w` the index, up and write-back bits; the class rows that name no fields keep the bits
the row leaves open as they stand. -/
inductive Instr where
  /-- CPS (R1778). -/
  | cps (imod : BitVec 2) (m : BitVec 1) (a : BitVec 1) (i : BitVec 1) (f : BitVec 1) (mode : BitVec 5)
  /-- SETEND (R1779). -/
  | setend (e : BitVec 1)
  /-- PLI__immediate__literal (R1726). -/
  | pliImm (u : BitVec 1) (rn : BitVec 4) (imm12 : BitVec 12)
  /-- PLI__register (R1726). -/
  | pliReg (u : BitVec 1) (rn : BitVec 4) (imm5 : BitVec 5) (typ : BitVec 2) (rm : BitVec 4)
  /-- PLD__immediate__literal (R1725). -/
  | pldImm (u : BitVec 1) (rn : BitVec 4) (imm12 : BitVec 12)
  /-- PLD__register (R1725). -/
  | pldReg (u : BitVec 1) (rn : BitVec 4) (imm5 : BitVec 5) (typ : BitVec 2) (rm : BitVec 4)
  /-- PLDW__immediate (R1727). -/
  | pldwImm (u : BitVec 1) (rn : BitVec 4) (imm12 : BitVec 12)
  /-- PLDW__register (R1727). -/
  | pldwReg (u : BitVec 1) (rn : BitVec 4) (imm5 : BitVec 5) (typ : BitVec 2) (rm : BitVec 4)
  /-- unallocated_memory_hint__executes_as_NOP (R1369). -/
  | memHintImm (u : BitVec 1) (lo : BitVec 20)
  /-- unallocated_memory_hint__executes_as_NOP (R1369). -/
  | memHintReg (u : BitVec 1) (mid : BitVec 15) (lo : BitVec 4)
  /-- CLREX (R1740). -/
  | clrex
  /-- DSB (R1796). -/
  | dsb (opt : BitVec 4)
  /-- DMB (R1795). -/
  | dmb (opt : BitVec 4)
  /-- ISB (R1797). -/
  | isb (opt : BitVec 4)
  /-- SRS (R1780). -/
  | srs (p : BitVec 1) (u : BitVec 1) (w : BitVec 1) (mode : BitVec 5)
  /-- RFE (R1781). -/
  | rfe (p : BitVec 1) (u : BitVec 1) (w : BitVec 1) (rn : BitVec 4)
  /-- BLX__immediate (R1763). -/
  | blxImm (h : BitVec 1) (imm24 : BitVec 24)
  /-- Advanced_SIMD_data-processing__class (R1591). -/
  | asimdData (bits : BitVec 25)
  /-- Advanced_SIMD_element_and_structure_load_store__class (R1591). -/
  | asimdLoadStore (hi : BitVec 3) (lo : BitVec 20)
  /-- LDC2__STC2__MCRR2__MRRC2__any_coprocessor (R1802). -/
  | coproc2LoadStore (bits : BitVec 25)
  /-- CDP2__MCR2__MRC2__any_coprocessor (R1802). -/
  | coproc2Reg (bits : BitVec 24)
  /-- unallocated_word_with_cond___0b1111 (R1369). -/
  | uncondOther (bits : BitVec 28)
  /-- MRS (R1775). -/
  | mrs (cond : BitVec 4) (r : BitVec 1) (rd : BitVec 4)
  /-- MSR__register__CPSR (R1776). -/
  | msrCpsrReg (cond : BitVec 4) (fieldMask : BitVec 4) (rn : BitVec 4)
  /-- MSR__register__SPSR (R1777). -/
  | msrSpsrReg (cond : BitVec 4) (fieldMask : BitVec 4) (rn : BitVec 4)
  /-- BX (R1764). -/
  | bx (cond : BitVec 4) (rm : BitVec 4)
  /-- BXJ (R1765). -/
  | bxj (cond : BitVec 4) (rm : BitVec 4)
  /-- BLX__register (R1766). -/
  | blxReg (cond : BitVec 4) (rm : BitVec 4)
  /-- CLZ (R1634). -/
  | clz (cond : BitVec 4) (rd : BitVec 4) (rm : BitVec 4)
  /-- QADD (R2440). -/
  | qadd (cond : BitVec 4) (rn : BitVec 4) (rd : BitVec 4) (rm : BitVec 4)
  /-- QSUB (R2441). -/
  | qsub (cond : BitVec 4) (rn : BitVec 4) (rd : BitVec 4) (rm : BitVec 4)
  /-- QDADD (R2442). -/
  | qdadd (cond : BitVec 4) (rn : BitVec 4) (rd : BitVec 4) (rm : BitVec 4)
  /-- QDSUB (R2443). -/
  | qdsub (cond : BitVec 4) (rn : BitVec 4) (rd : BitVec 4) (rm : BitVec 4)
  /-- BKPT (R1772). -/
  | bkpt (cond : BitVec 4) (imm12 : BitVec 12) (imm4 : BitVec 4)
  /-- SMC (R1771). -/
  | smc (cond : BitVec 4) (imm4 : BitVec 4)
  /-- SMLABB (R1671). -/
  | smlabb (cond : BitVec 4) (rd : BitVec 4) (ra : BitVec 4) (rm : BitVec 4) (rn : BitVec 4)
  /-- SMLABT (R1671). -/
  | smlabt (cond : BitVec 4) (rd : BitVec 4) (ra : BitVec 4) (rm : BitVec 4) (rn : BitVec 4)
  /-- SMLATB (R1671). -/
  | smlatb (cond : BitVec 4) (rd : BitVec 4) (ra : BitVec 4) (rm : BitVec 4) (rn : BitVec 4)
  /-- SMLATT (R1671). -/
  | smlatt (cond : BitVec 4) (rd : BitVec 4) (ra : BitVec 4) (rm : BitVec 4) (rn : BitVec 4)
  /-- SMLAWB (R1673). -/
  | smlawb (cond : BitVec 4) (rd : BitVec 4) (ra : BitVec 4) (rm : BitVec 4) (rn : BitVec 4)
  /-- SMLAWT (R1673). -/
  | smlawt (cond : BitVec 4) (rd : BitVec 4) (ra : BitVec 4) (rm : BitVec 4) (rn : BitVec 4)
  /-- SMULWB (R1672). -/
  | smulwb (cond : BitVec 4) (rd : BitVec 4) (rm : BitVec 4) (rn : BitVec 4)
  /-- SMULWT (R1672). -/
  | smulwt (cond : BitVec 4) (rd : BitVec 4) (rm : BitVec 4) (rn : BitVec 4)
  /-- SMLALBB (R1674). -/
  | smlalbb (cond : BitVec 4) (rdHi : BitVec 4) (rdLo : BitVec 4) (rm : BitVec 4) (rn : BitVec 4)
  /-- SMLALBT (R1674). -/
  | smlalbt (cond : BitVec 4) (rdHi : BitVec 4) (rdLo : BitVec 4) (rm : BitVec 4) (rn : BitVec 4)
  /-- SMLALTB (R1674). -/
  | smlaltb (cond : BitVec 4) (rdHi : BitVec 4) (rdLo : BitVec 4) (rm : BitVec 4) (rn : BitVec 4)
  /-- SMLALTT (R1674). -/
  | smlaltt (cond : BitVec 4) (rdHi : BitVec 4) (rdLo : BitVec 4) (rm : BitVec 4) (rn : BitVec 4)
  /-- SMULBB (R1670). -/
  | smulbb (cond : BitVec 4) (rd : BitVec 4) (rm : BitVec 4) (rn : BitVec 4)
  /-- SMULBT (R1670). -/
  | smulbt (cond : BitVec 4) (rd : BitVec 4) (rm : BitVec 4) (rn : BitVec 4)
  /-- SMULTB (R1670). -/
  | smultb (cond : BitVec 4) (rd : BitVec 4) (rm : BitVec 4) (rn : BitVec 4)
  /-- SMULTT (R1670). -/
  | smultt (cond : BitVec 4) (rd : BitVec 4) (rm : BitVec 4) (rn : BitVec 4)
  /-- SWP (R1730). -/
  | swp (cond : BitVec 4) (rn : BitVec 4) (rt : BitVec 4) (rt2 : BitVec 4)
  /-- SWPB (R1731). -/
  | swpb (cond : BitVec 4) (rn : BitVec 4) (rt : BitVec 4) (rt2 : BitVec 4)
  /-- LDREX (R1732). -/
  | ldrex (cond : BitVec 4) (rn : BitVec 4) (rt : BitVec 4)
  /-- LDREXD (R1735). -/
  | ldrexd (cond : BitVec 4) (rn : BitVec 4) (rt : BitVec 4)
  /-- LDREXB (R1733). -/
  | ldrexb (cond : BitVec 4) (rn : BitVec 4) (rt : BitVec 4)
  /-- LDREXH (R1734). -/
  | ldrexh (cond : BitVec 4) (rn : BitVec 4) (rt : BitVec 4)
  /-- STREX (R1736). -/
  | strex (cond : BitVec 4) (rn : BitVec 4) (rd : BitVec 4) (rt : BitVec 4)
  /-- STREXD (R1739). -/
  | strexd (cond : BitVec 4) (rn : BitVec 4) (rd : BitVec 4) (rt : BitVec 4)
  /-- STREXB (R1737). -/
  | strexb (cond : BitVec 4) (rn : BitVec 4) (rd : BitVec 4) (rt : BitVec 4)
  /-- STREXH (R1738). -/
  | strexh (cond : BitVec 4) (rn : BitVec 4) (rd : BitVec 4) (rt : BitVec 4)
  /-- MUL (R1662). -/
  | mul (cond : BitVec 4) (sf : BitVec 1) (rd : BitVec 4) (rm : BitVec 4) (rn : BitVec 4)
  /-- MLA (R1663). -/
  | mla (cond : BitVec 4) (sf : BitVec 1) (rd : BitVec 4) (ra : BitVec 4) (rm : BitVec 4) (rn : BitVec 4)
  /-- UMAAL (R1667). -/
  | umaal (cond : BitVec 4) (rdHi : BitVec 4) (rdLo : BitVec 4) (rm : BitVec 4) (rn : BitVec 4)
  /-- MLS (R1664). -/
  | mls (cond : BitVec 4) (rd : BitVec 4) (ra : BitVec 4) (rm : BitVec 4) (rn : BitVec 4)
  /-- UMULL (R1665). -/
  | umull (cond : BitVec 4) (sf : BitVec 1) (rdHi : BitVec 4) (rdLo : BitVec 4) (rm : BitVec 4) (rn : BitVec 4)
  /-- UMLAL (R1666). -/
  | umlal (cond : BitVec 4) (sf : BitVec 1) (rdHi : BitVec 4) (rdLo : BitVec 4) (rm : BitVec 4) (rn : BitVec 4)
  /-- SMULL (R1668). -/
  | smull (cond : BitVec 4) (sf : BitVec 1) (rdHi : BitVec 4) (rdLo : BitVec 4) (rm : BitVec 4) (rn : BitVec 4)
  /-- SMLAL (R1669). -/
  | smlal (cond : BitVec 4) (sf : BitVec 1) (rdHi : BitVec 4) (rdLo : BitVec 4) (rm : BitVec 4) (rn : BitVec 4)
  /-- STRHT__immediate (R1710). -/
  | strhtImm (cond : BitVec 4) (u : BitVec 1) (rn : BitVec 4) (rt : BitVec 4) (imm4H : BitVec 4) (imm4L : BitVec 4)
  /-- STRHT__register (R1710). -/
  | strhtReg (cond : BitVec 4) (u : BitVec 1) (rn : BitVec 4) (rt : BitVec 4) (rm : BitVec 4)
  /-- LDRHT__immediate (R1709). -/
  | ldrhtImm (cond : BitVec 4) (u : BitVec 1) (rn : BitVec 4) (rt : BitVec 4) (imm4H : BitVec 4) (imm4L : BitVec 4)
  /-- LDRHT__register (R1709). -/
  | ldrhtReg (cond : BitVec 4) (u : BitVec 1) (rn : BitVec 4) (rt : BitVec 4) (rm : BitVec 4)
  /-- LDRSBT__immediate (R1711). -/
  | ldrsbtImm (cond : BitVec 4) (u : BitVec 1) (rn : BitVec 4) (rt : BitVec 4) (imm4H : BitVec 4) (imm4L : BitVec 4)
  /-- LDRSBT__register (R1711). -/
  | ldrsbtReg (cond : BitVec 4) (u : BitVec 1) (rn : BitVec 4) (rt : BitVec 4) (rm : BitVec 4)
  /-- LDRSHT__immediate (R1712). -/
  | ldrshtImm (cond : BitVec 4) (u : BitVec 1) (rn : BitVec 4) (rt : BitVec 4) (imm4H : BitVec 4) (imm4L : BitVec 4)
  /-- LDRSHT__register (R1712). -/
  | ldrshtReg (cond : BitVec 4) (u : BitVec 1) (rn : BitVec 4) (rt : BitVec 4) (rm : BitVec 4)
  /-- STRH__immediate__literal (R1700). -/
  | strhImm (cond : BitVec 4) (p : BitVec 1) (u : BitVec 1) (w : BitVec 1) (rn : BitVec 4) (rt : BitVec 4) (imm4H : BitVec 4) (imm4L : BitVec 4)
  /-- STRH__register (R1700). -/
  | strhReg (cond : BitVec 4) (p : BitVec 1) (u : BitVec 1) (w : BitVec 1) (rn : BitVec 4) (rt : BitVec 4) (rm : BitVec 4)
  /-- LDRH__immediate__literal (R1699). -/
  | ldrhImm (cond : BitVec 4) (p : BitVec 1) (u : BitVec 1) (w : BitVec 1) (rn : BitVec 4) (rt : BitVec 4) (imm4H : BitVec 4) (imm4L : BitVec 4)
  /-- LDRH__register (R1699). -/
  | ldrhReg (cond : BitVec 4) (p : BitVec 1) (u : BitVec 1) (w : BitVec 1) (rn : BitVec 4) (rt : BitVec 4) (rm : BitVec 4)
  /-- LDRSB__immediate__literal (R1701). -/
  | ldrsbImm (cond : BitVec 4) (p : BitVec 1) (u : BitVec 1) (w : BitVec 1) (rn : BitVec 4) (rt : BitVec 4) (imm4H : BitVec 4) (imm4L : BitVec 4)
  /-- LDRSB__register (R1701). -/
  | ldrsbReg (cond : BitVec 4) (p : BitVec 1) (u : BitVec 1) (w : BitVec 1) (rn : BitVec 4) (rt : BitVec 4) (rm : BitVec 4)
  /-- LDRSH__immediate__literal (R1702). -/
  | ldrshImm (cond : BitVec 4) (p : BitVec 1) (u : BitVec 1) (w : BitVec 1) (rn : BitVec 4) (rt : BitVec 4) (imm4H : BitVec 4) (imm4L : BitVec 4)
  /-- LDRSH__register (R1702). -/
  | ldrshReg (cond : BitVec 4) (p : BitVec 1) (u : BitVec 1) (w : BitVec 1) (rn : BitVec 4) (rt : BitVec 4) (rm : BitVec 4)
  /-- LDRD__immediate__literal (R1703). -/
  | ldrdImm (cond : BitVec 4) (p : BitVec 1) (u : BitVec 1) (w : BitVec 1) (rn : BitVec 4) (rt : BitVec 4) (imm4H : BitVec 4) (imm4L : BitVec 4)
  /-- LDRD__register (R1703). -/
  | ldrdReg (cond : BitVec 4) (p : BitVec 1) (u : BitVec 1) (w : BitVec 1) (rn : BitVec 4) (rt : BitVec 4) (rm : BitVec 4)
  /-- STRD__immediate__literal (R1704). -/
  | strdImm (cond : BitVec 4) (p : BitVec 1) (u : BitVec 1) (w : BitVec 1) (rn : BitVec 4) (rt : BitVec 4) (imm4H : BitVec 4) (imm4L : BitVec 4)
  /-- STRD__register (R1704). -/
  | strdReg (cond : BitVec 4) (p : BitVec 1) (u : BitVec 1) (w : BitVec 1) (rn : BitVec 4) (rt : BitVec 4) (rm : BitVec 4)
  /-- MOVW (R1631). -/
  | movw (cond : BitVec 4) (imm4 : BitVec 4) (rd : BitVec 4) (imm12 : BitVec 12)
  /-- MOVT (R1632). -/
  | movt (cond : BitVec 4) (imm4 : BitVec 4) (rd : BitVec 4) (imm12 : BitVec 12)
  /-- NOP (R1785). -/
  | nop (cond : BitVec 4)
  /-- YIELD (R1786). -/
  | yield (cond : BitVec 4)
  /-- WFE (R1787). -/
  | wfe (cond : BitVec 4)
  /-- WFI (R1788). -/
  | wfi (cond : BitVec 4)
  /-- SEV (R1789). -/
  | sev (cond : BitVec 4)
  /-- DBG (R1790). -/
  | dbg (cond : BitVec 4) (opt : BitVec 4)
  /-- unallocated_hint__executes_as_NOP (R1791). -/
  | hintOther (cond : BitVec 4) (hint8 : BitVec 8)
  /-- MSR__immediate__CPSR (R1776). -/
  | msrCpsrImm (cond : BitVec 4) (fieldMask : BitVec 4) (imm12 : BitVec 12)
  /-- MSR__immediate__SPSR (R1777). -/
  | msrSpsrImm (cond : BitVec 4) (fieldMask : BitVec 4) (imm12 : BitVec 12)
  /-- AND__immediate (R1610). -/
  | andImm (cond : BitVec 4) (sf : BitVec 1) (rn : BitVec 4) (rd : BitVec 4) (imm12 : BitVec 12)
  /-- AND__register (R1610). -/
  | andReg (cond : BitVec 4) (sf : BitVec 1) (rn : BitVec 4) (rd : BitVec 4) (imm5 : BitVec 5) (typ : BitVec 2) (rm : BitVec 4)
  /-- AND__register-shifted_register (R1610). -/
  | andRsr (cond : BitVec 4) (sf : BitVec 1) (rn : BitVec 4) (rd : BitVec 4) (rs : BitVec 4) (typ : BitVec 2) (rm : BitVec 4)
  /-- EOR__immediate (R1611). -/
  | eorImm (cond : BitVec 4) (sf : BitVec 1) (rn : BitVec 4) (rd : BitVec 4) (imm12 : BitVec 12)
  /-- EOR__register (R1611). -/
  | eorReg (cond : BitVec 4) (sf : BitVec 1) (rn : BitVec 4) (rd : BitVec 4) (imm5 : BitVec 5) (typ : BitVec 2) (rm : BitVec 4)
  /-- EOR__register-shifted_register (R1611). -/
  | eorRsr (cond : BitVec 4) (sf : BitVec 1) (rn : BitVec 4) (rd : BitVec 4) (rs : BitVec 4) (typ : BitVec 2) (rm : BitVec 4)
  /-- SUB__immediate (R1612). -/
  | subImm (cond : BitVec 4) (sf : BitVec 1) (rn : BitVec 4) (rd : BitVec 4) (imm12 : BitVec 12)
  /-- SUB__register (R1612). -/
  | subReg (cond : BitVec 4) (sf : BitVec 1) (rn : BitVec 4) (rd : BitVec 4) (imm5 : BitVec 5) (typ : BitVec 2) (rm : BitVec 4)
  /-- SUB__register-shifted_register (R1612). -/
  | subRsr (cond : BitVec 4) (sf : BitVec 1) (rn : BitVec 4) (rd : BitVec 4) (rs : BitVec 4) (typ : BitVec 2) (rm : BitVec 4)
  /-- RSB__immediate (R1613). -/
  | rsbImm (cond : BitVec 4) (sf : BitVec 1) (rn : BitVec 4) (rd : BitVec 4) (imm12 : BitVec 12)
  /-- RSB__register (R1613). -/
  | rsbReg (cond : BitVec 4) (sf : BitVec 1) (rn : BitVec 4) (rd : BitVec 4) (imm5 : BitVec 5) (typ : BitVec 2) (rm : BitVec 4)
  /-- RSB__register-shifted_register (R1613). -/
  | rsbRsr (cond : BitVec 4) (sf : BitVec 1) (rn : BitVec 4) (rd : BitVec 4) (rs : BitVec 4) (typ : BitVec 2) (rm : BitVec 4)
  /-- ADD__immediate (R1614). -/
  | addImm (cond : BitVec 4) (sf : BitVec 1) (rn : BitVec 4) (rd : BitVec 4) (imm12 : BitVec 12)
  /-- ADD__register (R1614). -/
  | addReg (cond : BitVec 4) (sf : BitVec 1) (rn : BitVec 4) (rd : BitVec 4) (imm5 : BitVec 5) (typ : BitVec 2) (rm : BitVec 4)
  /-- ADD__register-shifted_register (R1614). -/
  | addRsr (cond : BitVec 4) (sf : BitVec 1) (rn : BitVec 4) (rd : BitVec 4) (rs : BitVec 4) (typ : BitVec 2) (rm : BitVec 4)
  /-- ADC__immediate (R1615). -/
  | adcImm (cond : BitVec 4) (sf : BitVec 1) (rn : BitVec 4) (rd : BitVec 4) (imm12 : BitVec 12)
  /-- ADC__register (R1615). -/
  | adcReg (cond : BitVec 4) (sf : BitVec 1) (rn : BitVec 4) (rd : BitVec 4) (imm5 : BitVec 5) (typ : BitVec 2) (rm : BitVec 4)
  /-- ADC__register-shifted_register (R1615). -/
  | adcRsr (cond : BitVec 4) (sf : BitVec 1) (rn : BitVec 4) (rd : BitVec 4) (rs : BitVec 4) (typ : BitVec 2) (rm : BitVec 4)
  /-- SBC__immediate (R1616). -/
  | sbcImm (cond : BitVec 4) (sf : BitVec 1) (rn : BitVec 4) (rd : BitVec 4) (imm12 : BitVec 12)
  /-- SBC__register (R1616). -/
  | sbcReg (cond : BitVec 4) (sf : BitVec 1) (rn : BitVec 4) (rd : BitVec 4) (imm5 : BitVec 5) (typ : BitVec 2) (rm : BitVec 4)
  /-- SBC__register-shifted_register (R1616). -/
  | sbcRsr (cond : BitVec 4) (sf : BitVec 1) (rn : BitVec 4) (rd : BitVec 4) (rs : BitVec 4) (typ : BitVec 2) (rm : BitVec 4)
  /-- RSC__immediate (R1617). -/
  | rscImm (cond : BitVec 4) (sf : BitVec 1) (rn : BitVec 4) (rd : BitVec 4) (imm12 : BitVec 12)
  /-- RSC__register (R1617). -/
  | rscReg (cond : BitVec 4) (sf : BitVec 1) (rn : BitVec 4) (rd : BitVec 4) (imm5 : BitVec 5) (typ : BitVec 2) (rm : BitVec 4)
  /-- RSC__register-shifted_register (R1617). -/
  | rscRsr (cond : BitVec 4) (sf : BitVec 1) (rn : BitVec 4) (rd : BitVec 4) (rs : BitVec 4) (typ : BitVec 2) (rm : BitVec 4)
  /-- TST__immediate (R1618). -/
  | tstImm (cond : BitVec 4) (rn : BitVec 4) (imm12 : BitVec 12)
  /-- TST__register (R1618). -/
  | tstReg (cond : BitVec 4) (rn : BitVec 4) (imm5 : BitVec 5) (typ : BitVec 2) (rm : BitVec 4)
  /-- TST__register-shifted_register (R1618). -/
  | tstRsr (cond : BitVec 4) (rn : BitVec 4) (rs : BitVec 4) (typ : BitVec 2) (rm : BitVec 4)
  /-- TEQ__immediate (R1619). -/
  | teqImm (cond : BitVec 4) (rn : BitVec 4) (imm12 : BitVec 12)
  /-- TEQ__register (R1619). -/
  | teqReg (cond : BitVec 4) (rn : BitVec 4) (imm5 : BitVec 5) (typ : BitVec 2) (rm : BitVec 4)
  /-- TEQ__register-shifted_register (R1619). -/
  | teqRsr (cond : BitVec 4) (rn : BitVec 4) (rs : BitVec 4) (typ : BitVec 2) (rm : BitVec 4)
  /-- CMP__immediate (R1620). -/
  | cmpImm (cond : BitVec 4) (rn : BitVec 4) (imm12 : BitVec 12)
  /-- CMP__register (R1620). -/
  | cmpReg (cond : BitVec 4) (rn : BitVec 4) (imm5 : BitVec 5) (typ : BitVec 2) (rm : BitVec 4)
  /-- CMP__register-shifted_register (R1620). -/
  | cmpRsr (cond : BitVec 4) (rn : BitVec 4) (rs : BitVec 4) (typ : BitVec 2) (rm : BitVec 4)
  /-- CMN__immediate (R1621). -/
  | cmnImm (cond : BitVec 4) (rn : BitVec 4) (imm12 : BitVec 12)
  /-- CMN__register (R1621). -/
  | cmnReg (cond : BitVec 4) (rn : BitVec 4) (imm5 : BitVec 5) (typ : BitVec 2) (rm : BitVec 4)
  /-- CMN__register-shifted_register (R1621). -/
  | cmnRsr (cond : BitVec 4) (rn : BitVec 4) (rs : BitVec 4) (typ : BitVec 2) (rm : BitVec 4)
  /-- ORR__immediate (R1622). -/
  | orrImm (cond : BitVec 4) (sf : BitVec 1) (rn : BitVec 4) (rd : BitVec 4) (imm12 : BitVec 12)
  /-- ORR__register (R1622). -/
  | orrReg (cond : BitVec 4) (sf : BitVec 1) (rn : BitVec 4) (rd : BitVec 4) (imm5 : BitVec 5) (typ : BitVec 2) (rm : BitVec 4)
  /-- ORR__register-shifted_register (R1622). -/
  | orrRsr (cond : BitVec 4) (sf : BitVec 1) (rn : BitVec 4) (rd : BitVec 4) (rs : BitVec 4) (typ : BitVec 2) (rm : BitVec 4)
  /-- MOV__immediate (R1623). -/
  | movImm (cond : BitVec 4) (sf : BitVec 1) (rd : BitVec 4) (imm12 : BitVec 12)
  /-- MOV__register (R1623). -/
  | movReg (cond : BitVec 4) (sf : BitVec 1) (rd : BitVec 4) (imm5 : BitVec 5) (typ : BitVec 2) (rm : BitVec 4)
  /-- MOV__register-shifted_register (R1623). -/
  | movRsr (cond : BitVec 4) (sf : BitVec 1) (rd : BitVec 4) (rs : BitVec 4) (typ : BitVec 2) (rm : BitVec 4)
  /-- BIC__immediate (R1624). -/
  | bicImm (cond : BitVec 4) (sf : BitVec 1) (rn : BitVec 4) (rd : BitVec 4) (imm12 : BitVec 12)
  /-- BIC__register (R1624). -/
  | bicReg (cond : BitVec 4) (sf : BitVec 1) (rn : BitVec 4) (rd : BitVec 4) (imm5 : BitVec 5) (typ : BitVec 2) (rm : BitVec 4)
  /-- BIC__register-shifted_register (R1624). -/
  | bicRsr (cond : BitVec 4) (sf : BitVec 1) (rn : BitVec 4) (rd : BitVec 4) (rs : BitVec 4) (typ : BitVec 2) (rm : BitVec 4)
  /-- MVN__immediate (R1625). -/
  | mvnImm (cond : BitVec 4) (sf : BitVec 1) (rd : BitVec 4) (imm12 : BitVec 12)
  /-- MVN__register (R1625). -/
  | mvnReg (cond : BitVec 4) (sf : BitVec 1) (rd : BitVec 4) (imm5 : BitVec 5) (typ : BitVec 2) (rm : BitVec 4)
  /-- MVN__register-shifted_register (R1625). -/
  | mvnRsr (cond : BitVec 4) (sf : BitVec 1) (rd : BitVec 4) (rs : BitVec 4) (typ : BitVec 2) (rm : BitVec 4)
  /-- LSL__immediate (R1626, second name of MOV (register)). -/
  | lslImm (cond : BitVec 4) (sf : BitVec 1) (rd : BitVec 4) (imm5 : BitVec 5) (rm : BitVec 4)
  /-- LSL__register (R1626, second name of MOV (register-shifted register)). -/
  | lslReg (cond : BitVec 4) (sf : BitVec 1) (rd : BitVec 4) (rs : BitVec 4) (rm : BitVec 4)
  /-- LSR__immediate (R1627, second name of MOV (register)). -/
  | lsrImm (cond : BitVec 4) (sf : BitVec 1) (rd : BitVec 4) (imm5 : BitVec 5) (rm : BitVec 4)
  /-- LSR__register (R1627, second name of MOV (register-shifted register)). -/
  | lsrReg (cond : BitVec 4) (sf : BitVec 1) (rd : BitVec 4) (rs : BitVec 4) (rm : BitVec 4)
  /-- ASR__immediate (R1628, second name of MOV (register)). -/
  | asrImm (cond : BitVec 4) (sf : BitVec 1) (rd : BitVec 4) (imm5 : BitVec 5) (rm : BitVec 4)
  /-- ASR__register (R1628, second name of MOV (register-shifted register)). -/
  | asrReg (cond : BitVec 4) (sf : BitVec 1) (rd : BitVec 4) (rs : BitVec 4) (rm : BitVec 4)
  /-- ROR__immediate (R1629, second name of MOV (register)). -/
  | rorImm (cond : BitVec 4) (sf : BitVec 1) (rd : BitVec 4) (imm5 : BitVec 5) (rm : BitVec 4)
  /-- ROR__register (R1629, second name of MOV (register-shifted register)). -/
  | rorReg (cond : BitVec 4) (sf : BitVec 1) (rd : BitVec 4) (rs : BitVec 4) (rm : BitVec 4)
  /-- RRX (R1630, second name of MOV (register)). -/
  | rrx (cond : BitVec 4) (sf : BitVec 1) (rd : BitVec 4) (rm : BitVec 4)
  /-- ADR__add_form (R1633, second name of ADD (immediate)). -/
  | adrAdd (cond : BitVec 4) (rd : BitVec 4) (imm12 : BitVec 12)
  /-- ADR__subtract_form (R1633, second name of SUB (immediate)). -/
  | adrSub (cond : BitVec 4) (rd : BitVec 4) (imm12 : BitVec 12)
  /-- LDRT__immediate (R1705). -/
  | ldrtImm (cond : BitVec 4) (u : BitVec 1) (rn : BitVec 4) (rt : BitVec 4) (imm12 : BitVec 12)
  /-- LDRT__register (R1705). -/
  | ldrtReg (cond : BitVec 4) (u : BitVec 1) (rn : BitVec 4) (rt : BitVec 4) (imm5 : BitVec 5) (typ : BitVec 2) (rm : BitVec 4)
  /-- STRT__immediate (R1706). -/
  | strtImm (cond : BitVec 4) (u : BitVec 1) (rn : BitVec 4) (rt : BitVec 4) (imm12 : BitVec 12)
  /-- STRT__register (R1706). -/
  | strtReg (cond : BitVec 4) (u : BitVec 1) (rn : BitVec 4) (rt : BitVec 4) (imm5 : BitVec 5) (typ : BitVec 2) (rm : BitVec 4)
  /-- LDRBT__immediate (R1707). -/
  | ldrbtImm (cond : BitVec 4) (u : BitVec 1) (rn : BitVec 4) (rt : BitVec 4) (imm12 : BitVec 12)
  /-- LDRBT__register (R1707). -/
  | ldrbtReg (cond : BitVec 4) (u : BitVec 1) (rn : BitVec 4) (rt : BitVec 4) (imm5 : BitVec 5) (typ : BitVec 2) (rm : BitVec 4)
  /-- STRBT__immediate (R1708). -/
  | strbtImm (cond : BitVec 4) (u : BitVec 1) (rn : BitVec 4) (rt : BitVec 4) (imm12 : BitVec 12)
  /-- STRBT__register (R1708). -/
  | strbtReg (cond : BitVec 4) (u : BitVec 1) (rn : BitVec 4) (rt : BitVec 4) (imm5 : BitVec 5) (typ : BitVec 2) (rm : BitVec 4)
  /-- LDR__immediate__literal (R1695). -/
  | ldrImm (cond : BitVec 4) (p : BitVec 1) (u : BitVec 1) (w : BitVec 1) (rn : BitVec 4) (rt : BitVec 4) (imm12 : BitVec 12)
  /-- LDR__register (R1695). -/
  | ldrReg (cond : BitVec 4) (p : BitVec 1) (u : BitVec 1) (w : BitVec 1) (rn : BitVec 4) (rt : BitVec 4) (imm5 : BitVec 5) (typ : BitVec 2) (rm : BitVec 4)
  /-- STR__immediate__literal (R1696). -/
  | strImm (cond : BitVec 4) (p : BitVec 1) (u : BitVec 1) (w : BitVec 1) (rn : BitVec 4) (rt : BitVec 4) (imm12 : BitVec 12)
  /-- STR__register (R1696). -/
  | strReg (cond : BitVec 4) (p : BitVec 1) (u : BitVec 1) (w : BitVec 1) (rn : BitVec 4) (rt : BitVec 4) (imm5 : BitVec 5) (typ : BitVec 2) (rm : BitVec 4)
  /-- LDRB__immediate__literal (R1697). -/
  | ldrbImm (cond : BitVec 4) (p : BitVec 1) (u : BitVec 1) (w : BitVec 1) (rn : BitVec 4) (rt : BitVec 4) (imm12 : BitVec 12)
  /-- LDRB__register (R1697). -/
  | ldrbReg (cond : BitVec 4) (p : BitVec 1) (u : BitVec 1) (w : BitVec 1) (rn : BitVec 4) (rt : BitVec 4) (imm5 : BitVec 5) (typ : BitVec 2) (rm : BitVec 4)
  /-- STRB__immediate__literal (R1698). -/
  | strbImm (cond : BitVec 4) (p : BitVec 1) (u : BitVec 1) (w : BitVec 1) (rn : BitVec 4) (rt : BitVec 4) (imm12 : BitVec 12)
  /-- STRB__register (R1698). -/
  | strbReg (cond : BitVec 4) (p : BitVec 1) (u : BitVec 1) (w : BitVec 1) (rn : BitVec 4) (rt : BitVec 4) (imm5 : BitVec 5) (typ : BitVec 2) (rm : BitVec 4)
  /-- SADD16 (R2446). -/
  | sadd16 (cond : BitVec 4) (rn : BitVec 4) (rd : BitVec 4) (rm : BitVec 4)
  /-- SASX (R2447). -/
  | sasx (cond : BitVec 4) (rn : BitVec 4) (rd : BitVec 4) (rm : BitVec 4)
  /-- SSAX (R2448). -/
  | ssax (cond : BitVec 4) (rn : BitVec 4) (rd : BitVec 4) (rm : BitVec 4)
  /-- SSUB16 (R2449). -/
  | ssub16 (cond : BitVec 4) (rn : BitVec 4) (rd : BitVec 4) (rm : BitVec 4)
  /-- SADD8 (R2450). -/
  | sadd8 (cond : BitVec 4) (rn : BitVec 4) (rd : BitVec 4) (rm : BitVec 4)
  /-- SSUB8 (R2451). -/
  | ssub8 (cond : BitVec 4) (rn : BitVec 4) (rd : BitVec 4) (rm : BitVec 4)
  /-- QADD16 (R2452). -/
  | qadd16 (cond : BitVec 4) (rn : BitVec 4) (rd : BitVec 4) (rm : BitVec 4)
  /-- QASX (R2453). -/
  | qasx (cond : BitVec 4) (rn : BitVec 4) (rd : BitVec 4) (rm : BitVec 4)
  /-- QSAX (R2454). -/
  | qsax (cond : BitVec 4) (rn : BitVec 4) (rd : BitVec 4) (rm : BitVec 4)
  /-- QSUB16 (R2455). -/
  | qsub16 (cond : BitVec 4) (rn : BitVec 4) (rd : BitVec 4) (rm : BitVec 4)
  /-- QADD8 (R2456). -/
  | qadd8 (cond : BitVec 4) (rn : BitVec 4) (rd : BitVec 4) (rm : BitVec 4)
  /-- QSUB8 (R2457). -/
  | qsub8 (cond : BitVec 4) (rn : BitVec 4) (rd : BitVec 4) (rm : BitVec 4)
  /-- SHADD16 (R2458). -/
  | shadd16 (cond : BitVec 4) (rn : BitVec 4) (rd : BitVec 4) (rm : BitVec 4)
  /-- SHASX (R2459). -/
  | shasx (cond : BitVec 4) (rn : BitVec 4) (rd : BitVec 4) (rm : BitVec 4)
  /-- SHSAX (R2460). -/
  | shsax (cond : BitVec 4) (rn : BitVec 4) (rd : BitVec 4) (rm : BitVec 4)
  /-- SHSUB16 (R2461). -/
  | shsub16 (cond : BitVec 4) (rn : BitVec 4) (rd : BitVec 4) (rm : BitVec 4)
  /-- SHADD8 (R2462). -/
  | shadd8 (cond : BitVec 4) (rn : BitVec 4) (rd : BitVec 4) (rm : BitVec 4)
  /-- SHSUB8 (R2463). -/
  | shsub8 (cond : BitVec 4) (rn : BitVec 4) (rd : BitVec 4) (rm : BitVec 4)
  /-- UADD16 (R2464). -/
  | uadd16 (cond : BitVec 4) (rn : BitVec 4) (rd : BitVec 4) (rm : BitVec 4)
  /-- UASX (R2465). -/
  | uasx (cond : BitVec 4) (rn : BitVec 4) (rd : BitVec 4) (rm : BitVec 4)
  /-- USAX (R2466). -/
  | usax (cond : BitVec 4) (rn : BitVec 4) (rd : BitVec 4) (rm : BitVec 4)
  /-- USUB16 (R2467). -/
  | usub16 (cond : BitVec 4) (rn : BitVec 4) (rd : BitVec 4) (rm : BitVec 4)
  /-- UADD8 (R2468). -/
  | uadd8 (cond : BitVec 4) (rn : BitVec 4) (rd : BitVec 4) (rm : BitVec 4)
  /-- USUB8 (R2469). -/
  | usub8 (cond : BitVec 4) (rn : BitVec 4) (rd : BitVec 4) (rm : BitVec 4)
  /-- UQADD16 (R2470). -/
  | uqadd16 (cond : BitVec 4) (rn : BitVec 4) (rd : BitVec 4) (rm : BitVec 4)
  /-- UQASX (R2471). -/
  | uqasx (cond : BitVec 4) (rn : BitVec 4) (rd : BitVec 4) (rm : BitVec 4)
  /-- UQSAX (R2472). -/
  | uqsax (cond : BitVec 4) (rn : BitVec 4) (rd : BitVec 4) (rm : BitVec 4)
  /-- UQSUB16 (R2473). -/
  | uqsub16 (cond : BitVec 4) (rn : BitVec 4) (rd : BitVec 4) (rm : BitVec 4)
  /-- UQADD8 (R2474). -/
  | uqadd8 (cond : BitVec 4) (rn : BitVec 4) (rd : BitVec 4) (rm : BitVec 4)
  /-- UQSUB8 (R2475). -/
  | uqsub8 (cond : BitVec 4) (rn : BitVec 4) (rd : BitVec 4) (rm : BitVec 4)
  /-- UHADD16 (R2476). -/
  | uhadd16 (cond : BitVec 4) (rn : BitVec 4) (rd : BitVec 4) (rm : BitVec 4)
  /-- UHASX (R2477). -/
  | uhasx (cond : BitVec 4) (rn : BitVec 4) (rd : BitVec 4) (rm : BitVec 4)
  /-- UHSAX (R2478). -/
  | uhsax (cond : BitVec 4) (rn : BitVec 4) (rd : BitVec 4) (rm : BitVec 4)
  /-- UHSUB16 (R2479). -/
  | uhsub16 (cond : BitVec 4) (rn : BitVec 4) (rd : BitVec 4) (rm : BitVec 4)
  /-- UHADD8 (R2480). -/
  | uhadd8 (cond : BitVec 4) (rn : BitVec 4) (rd : BitVec 4) (rm : BitVec 4)
  /-- UHSUB8 (R2481). -/
  | uhsub8 (cond : BitVec 4) (rn : BitVec 4) (rd : BitVec 4) (rm : BitVec 4)
  /-- PKHBT (R2420). -/
  | pkhbt (cond : BitVec 4) (rn : BitVec 4) (rd : BitVec 4) (imm5 : BitVec 5) (rm : BitVec 4)
  /-- PKHTB (R2421). -/
  | pkhtb (cond : BitVec 4) (rn : BitVec 4) (rd : BitVec 4) (imm5 : BitVec 5) (rm : BitVec 4)
  /-- SEL (R2415). -/
  | sel (cond : BitVec 4) (rn : BitVec 4) (rd : BitVec 4) (rm : BitVec 4)
  /-- SSAT (R2416). -/
  | ssat (cond : BitVec 4) (satImm : BitVec 5) (rd : BitVec 4) (imm5 : BitVec 5) (sh : BitVec 1) (rn : BitVec 4)
  /-- USAT (R2417). -/
  | usat (cond : BitVec 4) (satImm : BitVec 5) (rd : BitVec 4) (imm5 : BitVec 5) (sh : BitVec 1) (rn : BitVec 4)
  /-- SSAT16 (R2418). -/
  | ssat16 (cond : BitVec 4) (satImm : BitVec 4) (rd : BitVec 4) (rn : BitVec 4)
  /-- USAT16 (R2419). -/
  | usat16 (cond : BitVec 4) (satImm : BitVec 4) (rd : BitVec 4) (rn : BitVec 4)
  /-- SXTB16 (R2427). -/
  | sxtb16 (cond : BitVec 4) (rd : BitVec 4) (rotate : BitVec 2) (rm : BitVec 4)
  /-- SXTAB16 (R2433). -/
  | sxtab16 (cond : BitVec 4) (rn : BitVec 4) (rd : BitVec 4) (rotate : BitVec 2) (rm : BitVec 4)
  /-- SXTB (R2425). -/
  | sxtb (cond : BitVec 4) (rd : BitVec 4) (rotate : BitVec 2) (rm : BitVec 4)
  /-- SXTAB (R2431). -/
  | sxtab (cond : BitVec 4) (rn : BitVec 4) (rd : BitVec 4) (rotate : BitVec 2) (rm : BitVec 4)
  /-- SXTH (R2426). -/
  | sxth (cond : BitVec 4) (rd : BitVec 4) (rotate : BitVec 2) (rm : BitVec 4)
  /-- SXTAH (R2432). -/
  | sxtah (cond : BitVec 4) (rn : BitVec 4) (rd : BitVec 4) (rotate : BitVec 2) (rm : BitVec 4)
  /-- UXTB16 (R2430). -/
  | uxtb16 (cond : BitVec 4) (rd : BitVec 4) (rotate : BitVec 2) (rm : BitVec 4)
  /-- UXTAB16 (R2436). -/
  | uxtab16 (cond : BitVec 4) (rn : BitVec 4) (rd : BitVec 4) (rotate : BitVec 2) (rm : BitVec 4)
  /-- UXTB (R2428). -/
  | uxtb (cond : BitVec 4) (rd : BitVec 4) (rotate : BitVec 2) (rm : BitVec 4)
  /-- UXTAB (R2434). -/
  | uxtab (cond : BitVec 4) (rn : BitVec 4) (rd : BitVec 4) (rotate : BitVec 2) (rm : BitVec 4)
  /-- UXTH (R2429). -/
  | uxth (cond : BitVec 4) (rd : BitVec 4) (rotate : BitVec 2) (rm : BitVec 4)
  /-- UXTAH (R2435). -/
  | uxtah (cond : BitVec 4) (rn : BitVec 4) (rd : BitVec 4) (rotate : BitVec 2) (rm : BitVec 4)
  /-- REV (R2405). -/
  | rev (cond : BitVec 4) (rd : BitVec 4) (rm : BitVec 4)
  /-- REV16 (R2406). -/
  | rev16 (cond : BitVec 4) (rd : BitVec 4) (rm : BitVec 4)
  /-- RBIT (R2408). -/
  | rbit (cond : BitVec 4) (rd : BitVec 4) (rm : BitVec 4)
  /-- REVSH (R2407). -/
  | revsh (cond : BitVec 4) (rd : BitVec 4) (rm : BitVec 4)
  /-- SMUAD (R1675). -/
  | smuad (cond : BitVec 4) (rd : BitVec 4) (rm : BitVec 4) (rn : BitVec 4)
  /-- SMUSD (R1676). -/
  | smusd (cond : BitVec 4) (rd : BitVec 4) (rm : BitVec 4) (rn : BitVec 4)
  /-- SMUADX (R1675). -/
  | smuadx (cond : BitVec 4) (rd : BitVec 4) (rm : BitVec 4) (rn : BitVec 4)
  /-- SMUSDX (R1676). -/
  | smusdx (cond : BitVec 4) (rd : BitVec 4) (rm : BitVec 4) (rn : BitVec 4)
  /-- SMLAD (R1677). -/
  | smlad (cond : BitVec 4) (rd : BitVec 4) (ra : BitVec 4) (rm : BitVec 4) (rn : BitVec 4)
  /-- SMLSD (R1678). -/
  | smlsd (cond : BitVec 4) (rd : BitVec 4) (ra : BitVec 4) (rm : BitVec 4) (rn : BitVec 4)
  /-- SMLALD (R1679). -/
  | smlald (cond : BitVec 4) (rdHi : BitVec 4) (rdLo : BitVec 4) (rm : BitVec 4) (rn : BitVec 4)
  /-- SMLSLD (R1680). -/
  | smlsld (cond : BitVec 4) (rdHi : BitVec 4) (rdLo : BitVec 4) (rm : BitVec 4) (rn : BitVec 4)
  /-- SMLADX (R1677). -/
  | smladx (cond : BitVec 4) (rd : BitVec 4) (ra : BitVec 4) (rm : BitVec 4) (rn : BitVec 4)
  /-- SMLSDX (R1678). -/
  | smlsdx (cond : BitVec 4) (rd : BitVec 4) (ra : BitVec 4) (rm : BitVec 4) (rn : BitVec 4)
  /-- SMLALDX (R1679). -/
  | smlaldx (cond : BitVec 4) (rdHi : BitVec 4) (rdLo : BitVec 4) (rm : BitVec 4) (rn : BitVec 4)
  /-- SMLSLDX (R1680). -/
  | smlsldx (cond : BitVec 4) (rdHi : BitVec 4) (rdLo : BitVec 4) (rm : BitVec 4) (rn : BitVec 4)
  /-- SMMUL (R1681). -/
  | smmul (cond : BitVec 4) (rd : BitVec 4) (rm : BitVec 4) (rn : BitVec 4)
  /-- SMMULR (R1681). -/
  | smmulr (cond : BitVec 4) (rd : BitVec 4) (rm : BitVec 4) (rn : BitVec 4)
  /-- SMMLA (R1682). -/
  | smmla (cond : BitVec 4) (rd : BitVec 4) (ra : BitVec 4) (rm : BitVec 4) (rn : BitVec 4)
  /-- SMMLS (R1683). -/
  | smmls (cond : BitVec 4) (rd : BitVec 4) (ra : BitVec 4) (rm : BitVec 4) (rn : BitVec 4)
  /-- SMMLAR (R1682). -/
  | smmlar (cond : BitVec 4) (rd : BitVec 4) (ra : BitVec 4) (rm : BitVec 4) (rn : BitVec 4)
  /-- SMMLSR (R1683). -/
  | smmlsr (cond : BitVec 4) (rd : BitVec 4) (ra : BitVec 4) (rm : BitVec 4) (rn : BitVec 4)
  /-- USAD8 (R2485). -/
  | usad8 (cond : BitVec 4) (rd : BitVec 4) (rm : BitVec 4) (rn : BitVec 4)
  /-- USADA8 (R2486). -/
  | usada8 (cond : BitVec 4) (rd : BitVec 4) (ra : BitVec 4) (rm : BitVec 4) (rn : BitVec 4)
  /-- SBFX (R2412). -/
  | sbfx (cond : BitVec 4) (widthm1 : BitVec 5) (rd : BitVec 4) (lsb : BitVec 5) (rn : BitVec 4)
  /-- UBFX (R2413). -/
  | ubfx (cond : BitVec 4) (widthm1 : BitVec 5) (rd : BitVec 4) (lsb : BitVec 5) (rn : BitVec 4)
  /-- BFC (R2410). -/
  | bfc (cond : BitVec 4) (msb : BitVec 5) (rd : BitVec 4) (lsb : BitVec 5)
  /-- BFI (R2411). -/
  | bfi (cond : BitVec 4) (msb : BitVec 5) (rd : BitVec 4) (lsb : BitVec 5) (rn : BitVec 4)
  /-- UDF (R1773). -/
  | udf (cond : BitVec 4) (imm12 : BitVec 12) (imm4 : BitVec 4)
  /-- POP__two_or_more_registers (R1717, second name of LDM). -/
  | popMulti (cond : BitVec 4) (regs : BitVec 16)
  /-- PUSH__two_or_more_registers (R1717, second name of STM). -/
  | pushMulti (cond : BitVec 4) (regs : BitVec 16)
  /-- LDM (R1715). -/
  | ldm (cond : BitVec 4) (p : BitVec 1) (u : BitVec 1) (w : BitVec 1) (rn : BitVec 4) (regs : BitVec 16)
  /-- STM (R1716). -/
  | stm (cond : BitVec 4) (p : BitVec 1) (u : BitVec 1) (w : BitVec 1) (rn : BitVec 4) (regs : BitVec 16)
  /-- LDM__exception_return (R1719). -/
  | ldmExcRet (cond : BitVec 4) (p : BitVec 1) (u : BitVec 1) (w : BitVec 1) (rn : BitVec 4) (regs : BitVec 15)
  /-- LDM__user_registers (R1718). -/
  | ldmUser (cond : BitVec 4) (p : BitVec 1) (u : BitVec 1) (rn : BitVec 4) (regs : BitVec 15)
  /-- STM__user_registers (R1720). -/
  | stmUser (cond : BitVec 4) (p : BitVec 1) (u : BitVec 1) (rn : BitVec 4) (regs : BitVec 16)
  /-- B (R1761). -/
  | b (cond : BitVec 4) (imm24 : BitVec 24)
  /-- BL (R1762). -/
  | bl (cond : BitVec 4) (imm24 : BitVec 24)
  /-- SVC (R1770). -/
  | svc (cond : BitVec 4) (imm24 : BitVec 24)
  /-- MRC_p14__0__PC__c0__c1__0__DSCR_flags_to_CPSR (R1559). -/
  | mrcDscrFlags (cond : BitVec 4)
  /-- MRC_p14__0___Rt___c0__c0__0__DIDR (R1555). -/
  | mrcDidr (cond : BitVec 4) (rt : BitVec 4)
  /-- MRC_p14__0___Rt___c1__c0__0__DRAR (R1556). -/
  | mrcDrar (cond : BitVec 4) (rt : BitVec 4)
  /-- MRC_p14__0___Rt___c2__c0__0__DSAR (R1557). -/
  | mrcDsar (cond : BitVec 4) (rt : BitVec 4)
  /-- MRC_p14__0___Rt___c0__c1__0__DSCR (R1558). -/
  | mrcDscr (cond : BitVec 4) (rt : BitVec 4)
  /-- MRC_p14__0___Rt___c0__c5__0__DTR_read__DTRRX (R1560). -/
  | mrcDtr (cond : BitVec 4) (rt : BitVec 4)
  /-- MCR_p14__0___Rt___c0__c5__0__DTR_write__DTRTX (R1561). -/
  | mcrDtr (cond : BitVec 4) (rt : BitVec 4)
  /-- MRC_p14__6___Rt___c0__c0__0__TEECR (R1565). -/
  | mrcTeecr (cond : BitVec 4) (rt : BitVec 4)
  /-- MCR_p14__6___Rt___c0__c0__0__TEECR (R1566). -/
  | mcrTeecr (cond : BitVec 4) (rt : BitVec 4)
  /-- MRC_p14__6___Rt___c1__c0__0__TEEHBR (R1567). -/
  | mrcTeehbr (cond : BitVec 4) (rt : BitVec 4)
  /-- MCR_p14__6___Rt___c1__c0__0__TEEHBR (R1568). -/
  | mcrTeehbr (cond : BitVec 4) (rt : BitVec 4)
  /-- MRC_p14__7___Rt___c0__c0__0__JIDR (R1570). -/
  | mrcJidr (cond : BitVec 4) (rt : BitVec 4)
  /-- MRC_p14__7___Rt___c1__c0__0__JOSCR (R1571). -/
  | mrcJoscr (cond : BitVec 4) (rt : BitVec 4)
  /-- MCR_p14__7___Rt___c1__c0__0__JOSCR (R1572). -/
  | mcrJoscr (cond : BitVec 4) (rt : BitVec 4)
  /-- MRC_p14__7___Rt___c2__c0__0__JMCR (R1573). -/
  | mrcJmcr (cond : BitVec 4) (rt : BitVec 4)
  /-- MCR_p14__7___Rt___c2__c0__0__JMCR (R1574). -/
  | mcrJmcr (cond : BitVec 4) (rt : BitVec 4)
  /-- LDC_p14__c5___addressing_mode___memory_to_DTR (R1562). -/
  | ldcDtr (cond : BitVec 4) (p : BitVec 1) (u : BitVec 1) (w : BitVec 1) (rn : BitVec 4) (imm8 : BitVec 8)
  /-- STC_p14__c5___addressing_mode___DTR_to_memory (R1562). -/
  | stcDtr (cond : BitVec 4) (p : BitVec 1) (u : BitVec 1) (w : BitVec 1) (rn : BitVec 4) (imm8 : BitVec 8)
  /-- MRC_MCR_p14__0__any_other__CRn__CRm__opc2 (R1563). -/
  | p14DebugOther (cond : BitVec 4) (l : BitVec 1) (cRn : BitVec 4) (rt : BitVec 4) (opc2 : BitVec 3) (cRm : BitVec 4)
  /-- MRC_MCR_p14__6__any_other (R1569). -/
  | p14TeeOther (cond : BitVec 4) (l : BitVec 1) (cRn : BitVec 4) (rt : BitVec 4) (opc2 : BitVec 3) (cRm : BitVec 4)
  /-- MRC_MCR_p14__any_other_opc1_or_tuple (R1550). -/
  | p14Other (cond : BitVec 4) (opc1 : BitVec 3) (l : BitVec 1) (cRn : BitVec 4) (rt : BitVec 4) (opc2 : BitVec 3) (cRm : BitVec 4)
  /-- VMRS_APSR_nzcv__FPSCR__FMSTAT (R1585). -/
  | fmstat (cond : BitVec 4)
  /-- VMRS__Rt___FPSID (R1582). -/
  | vmrsFpsid (cond : BitVec 4) (rt : BitVec 4)
  /-- VMSR_FPSID___Rt (R1583). -/
  | vmsrFpsid (cond : BitVec 4) (rt : BitVec 4)
  /-- VMRS__Rt___FPSCR (R1584). -/
  | vmrsFpscr (cond : BitVec 4) (rt : BitVec 4)
  /-- VMSR_FPSCR___Rt (R1586). -/
  | vmsrFpscr (cond : BitVec 4) (rt : BitVec 4)
  /-- VMRS__Rt___MVFR1 (R1587). -/
  | vmrsMvfr1 (cond : BitVec 4) (rt : BitVec 4)
  /-- VMSR_MVFR1___Rt (R1587). -/
  | vmsrMvfr1 (cond : BitVec 4) (rt : BitVec 4)
  /-- VMRS__Rt___MVFR0 (R1588). -/
  | vmrsMvfr0 (cond : BitVec 4) (rt : BitVec 4)
  /-- VMSR_MVFR0___Rt (R1588). -/
  | vmsrMvfr0 (cond : BitVec 4) (rt : BitVec 4)
  /-- VMRS__Rt___FPEXC (R1589). -/
  | vmrsFpexc (cond : BitVec 4) (rt : BitVec 4)
  /-- VMSR_FPEXC___Rt (R1590). -/
  | vmsrFpexc (cond : BitVec 4) (rt : BitVec 4)
  /-- VMRS_VMSR__any_other__reg__value (R1580). -/
  | vfpSysOther (cond : BitVec 4) (l : BitVec 1) (reg : BitVec 4) (rt : BitVec 4)
  /-- VFP_data-processing__class (R1591). -/
  | vfpData (cond : BitVec 4) (hi : BitVec 12) (mid : BitVec 4) (lo : BitVec 4)
  /-- core_to_extension_register_transfers_other_than_VMRS_VMS (R1591). -/
  | vfpTransfer (cond : BitVec 4) (hi : BitVec 12) (mid : BitVec 4) (lo : BitVec 4)
  /-- extension_register_load_store_and_64-bit_transfers__VLDR (R1591). -/
  | vfpLoadStore (cond : BitVec 4) (hi : BitVec 13) (lo : BitVec 9)
  /-- MRC_p15__0___Rt___c0__c0__0__MIDR (R1459). -/
  | mrcMidr (cond : BitVec 4) (rt : BitVec 4)
  /-- MRC_p15__0___Rt___c0__c0__4__MIDR (R1459). -/
  | mrcMidr4 (cond : BitVec 4) (rt : BitVec 4)
  /-- MRC_p15__0___Rt___c0__c0__6__MIDR (R1459). -/
  | mrcMidr6 (cond : BitVec 4) (rt : BitVec 4)
  /-- MRC_p15__0___Rt___c0__c0__7__MIDR (R1459). -/
  | mrcMidr7 (cond : BitVec 4) (rt : BitVec 4)
  /-- MRC_p15__0___Rt___c0__c0__1__CTR (R1460). -/
  | mrcCtr (cond : BitVec 4) (rt : BitVec 4)
  /-- MRC_p15__0___Rt___c0__c0__2__TCMTR (R1461). -/
  | mrcTcmtr (cond : BitVec 4) (rt : BitVec 4)
  /-- MRC_p15__0___Rt___c0__c0__3__TLBTR (R1462). -/
  | mrcTlbtr (cond : BitVec 4) (rt : BitVec 4)
  /-- MRC_p15__0___Rt___c0__c0__5__MPIDR (R1463). -/
  | mrcMpidr (cond : BitVec 4) (rt : BitVec 4)
  /-- MRC_p15__0___Rt___c0__c1__0__ID_PFR0 (R1464). -/
  | mrcIdPfr0 (cond : BitVec 4) (rt : BitVec 4)
  /-- MRC_p15__0___Rt___c0__c1__1__ID_PFR1 (R1465). -/
  | mrcIdPfr1 (cond : BitVec 4) (rt : BitVec 4)
  /-- MRC_p15__0___Rt___c0__c1__2__ID_DFR0 (R1466). -/
  | mrcIdDfr0 (cond : BitVec 4) (rt : BitVec 4)
  /-- MRC_p15__0___Rt___c0__c1__3__ID_AFR0 (R1467). -/
  | mrcIdAfr0 (cond : BitVec 4) (rt : BitVec 4)
  /-- MRC_p15__0___Rt___c0__c1__4__ID_MMFR0 (R1468). -/
  | mrcIdMmfr0 (cond : BitVec 4) (rt : BitVec 4)
  /-- MRC_p15__0___Rt___c0__c1__5__ID_MMFR1 (R1469). -/
  | mrcIdMmfr1 (cond : BitVec 4) (rt : BitVec 4)
  /-- MRC_p15__0___Rt___c0__c1__6__ID_MMFR2 (R1470). -/
  | mrcIdMmfr2 (cond : BitVec 4) (rt : BitVec 4)
  /-- MRC_p15__0___Rt___c0__c1__7__ID_MMFR3 (R1471). -/
  | mrcIdMmfr3 (cond : BitVec 4) (rt : BitVec 4)
  /-- MRC_p15__0___Rt___c0__c2__0__ID_ISAR0 (R1472). -/
  | mrcIdIsar0 (cond : BitVec 4) (rt : BitVec 4)
  /-- MRC_p15__0___Rt___c0__c2__1__ID_ISAR1 (R1473). -/
  | mrcIdIsar1 (cond : BitVec 4) (rt : BitVec 4)
  /-- MRC_p15__0___Rt___c0__c2__2__ID_ISAR2 (R1474). -/
  | mrcIdIsar2 (cond : BitVec 4) (rt : BitVec 4)
  /-- MRC_p15__0___Rt___c0__c2__3__ID_ISAR3 (R1475). -/
  | mrcIdIsar3 (cond : BitVec 4) (rt : BitVec 4)
  /-- MRC_p15__0___Rt___c0__c2__4__ID_ISAR4 (R1476). -/
  | mrcIdIsar4 (cond : BitVec 4) (rt : BitVec 4)
  /-- MRC_p15__0___Rt___c0__c2__5__ID_ISAR5_to_ID_ISAR7 (R1477). -/
  | mrcIdIsar5 (cond : BitVec 4) (rt : BitVec 4)
  /-- MRC_p15__0___Rt___c0__c2__6__ID_ISAR5_to_ID_ISAR7 (R1477). -/
  | mrcIdIsar6 (cond : BitVec 4) (rt : BitVec 4)
  /-- MRC_p15__0___Rt___c0__c2__7__ID_ISAR5_to_ID_ISAR7 (R1477). -/
  | mrcIdIsar7 (cond : BitVec 4) (rt : BitVec 4)
  /-- MRC_p15__0___Rt___c0__c3_to_c7__0_to_7__Reserved_Feature (R1478). -/
  | mrcFeatureReserved (cond : BitVec 4) (rt : BitVec 4) (opc2 : BitVec 3) (cRm : BitVec 4)
  /-- MRC_p15__1___Rt___c0__c0__0__CCSIDR (R1479). -/
  | mrcCcsidr (cond : BitVec 4) (rt : BitVec 4)
  /-- MRC_p15__1___Rt___c0__c0__1__CLIDR (R1480). -/
  | mrcClidr (cond : BitVec 4) (rt : BitVec 4)
  /-- MRC_p15__1___Rt___c0__c0__7__Silicon_ID (R1481). -/
  | mrcSiliconId (cond : BitVec 4) (rt : BitVec 4)
  /-- MRC_p15__2___Rt___c0__c0__0__CSSELR (R1482). -/
  | mrcCsselr (cond : BitVec 4) (rt : BitVec 4)
  /-- MCR_p15__2___Rt___c0__c0__0__CSSELR (R1482). -/
  | mcrCsselr (cond : BitVec 4) (rt : BitVec 4)
  /-- MRC_p15__0___Rt___c1__c0__0__SCTLR (R1483). -/
  | mrcSctlr (cond : BitVec 4) (rt : BitVec 4)
  /-- MCR_p15__0___Rt___c1__c0__0__SCTLR (R1483). -/
  | mcrSctlr (cond : BitVec 4) (rt : BitVec 4)
  /-- MRC_p15__0___Rt___c1__c0__1__ACTLR (R1484). -/
  | mrcActlr (cond : BitVec 4) (rt : BitVec 4)
  /-- MCR_p15__0___Rt___c1__c0__1__ACTLR (R1484). -/
  | mcrActlr (cond : BitVec 4) (rt : BitVec 4)
  /-- MRC_p15__0___Rt___c1__c0__2__CPACR (R1485). -/
  | mrcCpacr (cond : BitVec 4) (rt : BitVec 4)
  /-- MCR_p15__0___Rt___c1__c0__2__CPACR (R1485). -/
  | mcrCpacr (cond : BitVec 4) (rt : BitVec 4)
  /-- MRC_p15__0___Rt___c1__c1__0__SCR (R1486). -/
  | mrcScr (cond : BitVec 4) (rt : BitVec 4)
  /-- MCR_p15__0___Rt___c1__c1__0__SCR (R1486). -/
  | mcrScr (cond : BitVec 4) (rt : BitVec 4)
  /-- MRC_p15__0___Rt___c1__c1__1__SDER (R1487). -/
  | mrcSder (cond : BitVec 4) (rt : BitVec 4)
  /-- MCR_p15__0___Rt___c1__c1__1__SDER (R1487). -/
  | mcrSder (cond : BitVec 4) (rt : BitVec 4)
  /-- MRC_p15__0___Rt___c1__c1__2__NSACR (R1488). -/
  | mrcNsacr (cond : BitVec 4) (rt : BitVec 4)
  /-- MCR_p15__0___Rt___c1__c1__2__NSACR (R1488). -/
  | mcrNsacr (cond : BitVec 4) (rt : BitVec 4)
  /-- MRC_p15__0___Rt___c2__c0__0__TTBR0 (R1489). -/
  | mrcTtbr0 (cond : BitVec 4) (rt : BitVec 4)
  /-- MCR_p15__0___Rt___c2__c0__0__TTBR0 (R1489). -/
  | mcrTtbr0 (cond : BitVec 4) (rt : BitVec 4)
  /-- MRC_p15__0___Rt___c2__c0__1__TTBR1 (R1490). -/
  | mrcTtbr1 (cond : BitVec 4) (rt : BitVec 4)
  /-- MCR_p15__0___Rt___c2__c0__1__TTBR1 (R1490). -/
  | mcrTtbr1 (cond : BitVec 4) (rt : BitVec 4)
  /-- MRC_p15__0___Rt___c2__c0__2__TTBCR (R1491). -/
  | mrcTtbcr (cond : BitVec 4) (rt : BitVec 4)
  /-- MCR_p15__0___Rt___c2__c0__2__TTBCR (R1491). -/
  | mcrTtbcr (cond : BitVec 4) (rt : BitVec 4)
  /-- MRC_p15__0___Rt___c3__c0__0__DACR (R1492). -/
  | mrcDacr (cond : BitVec 4) (rt : BitVec 4)
  /-- MCR_p15__0___Rt___c3__c0__0__DACR (R1492). -/
  | mcrDacr (cond : BitVec 4) (rt : BitVec 4)
  /-- MRC_p15__0___Rt___c5__c0__0__DFSR (R1493). -/
  | mrcDfsr (cond : BitVec 4) (rt : BitVec 4)
  /-- MCR_p15__0___Rt___c5__c0__0__DFSR (R1493). -/
  | mcrDfsr (cond : BitVec 4) (rt : BitVec 4)
  /-- MRC_p15__0___Rt___c5__c0__1__IFSR (R1494). -/
  | mrcIfsr (cond : BitVec 4) (rt : BitVec 4)
  /-- MCR_p15__0___Rt___c5__c0__1__IFSR (R1494). -/
  | mcrIfsr (cond : BitVec 4) (rt : BitVec 4)
  /-- MRC_p15__0___Rt___c5__c1__0__ADFSR (R1495). -/
  | mrcAdfsr (cond : BitVec 4) (rt : BitVec 4)
  /-- MCR_p15__0___Rt___c5__c1__0__ADFSR (R1495). -/
  | mcrAdfsr (cond : BitVec 4) (rt : BitVec 4)
  /-- MRC_p15__0___Rt___c5__c1__1__AIFSR (R1496). -/
  | mrcAifsr (cond : BitVec 4) (rt : BitVec 4)
  /-- MCR_p15__0___Rt___c5__c1__1__AIFSR (R1496). -/
  | mcrAifsr (cond : BitVec 4) (rt : BitVec 4)
  /-- MRC_p15__0___Rt___c6__c0__0__DFAR (R1497). -/
  | mrcDfar (cond : BitVec 4) (rt : BitVec 4)
  /-- MCR_p15__0___Rt___c6__c0__0__DFAR (R1497). -/
  | mcrDfar (cond : BitVec 4) (rt : BitVec 4)
  /-- MRC_p15__0___Rt___c6__c0__2__IFAR (R1498). -/
  | mrcIfar (cond : BitVec 4) (rt : BitVec 4)
  /-- MCR_p15__0___Rt___c6__c0__2__IFAR (R1498). -/
  | mcrIfar (cond : BitVec 4) (rt : BitVec 4)
  /-- MCR_p15__0___Rt___c7__c0__4__NOP__c7__c0__4 (R1499). -/
  | mcrWfiNop (cond : BitVec 4) (rt : BitVec 4)
  /-- MRC_p15__0___Rt___c7__c4__0__PAR (R1500). -/
  | mrcPar (cond : BitVec 4) (rt : BitVec 4)
  /-- MCR_p15__0___Rt___c7__c4__0__PAR (R1500). -/
  | mcrPar (cond : BitVec 4) (rt : BitVec 4)
  /-- MCR_p15__0___Rt___c7__c5__0__ICIALLU (R1501). -/
  | mcrIciallu (cond : BitVec 4) (rt : BitVec 4)
  /-- MCR_p15__0___Rt___c7__c5__1__ICIMVAU (R1502). -/
  | mcrIcimvau (cond : BitVec 4) (rt : BitVec 4)
  /-- MCR_p15__0___Rt___c7__c5__4__ISB_operation__Flush_Prefet (R1503). -/
  | mcrIsb (cond : BitVec 4) (rt : BitVec 4)
  /-- MCR_p15__0___Rt___c7__c5__6__BPIALL (R1504). -/
  | mcrBpiall (cond : BitVec 4) (rt : BitVec 4)
  /-- MCR_p15__0___Rt___c7__c5__7__BPIMVA (R1505). -/
  | mcrBpimva (cond : BitVec 4) (rt : BitVec 4)
  /-- MCR_p15__0___Rt___c7__c6__1__DCIMVAC (R1506). -/
  | mcrDcimvac (cond : BitVec 4) (rt : BitVec 4)
  /-- MCR_p15__0___Rt___c7__c6__2__DCISW (R1507). -/
  | mcrDcisw (cond : BitVec 4) (rt : BitVec 4)
  /-- MCR_p15__0___Rt___c7__c8__0__VA_to_PA__current_state (R1508). -/
  | mcrVaPaCurPrivRead (cond : BitVec 4) (rt : BitVec 4)
  /-- MCR_p15__0___Rt___c7__c8__1__VA_to_PA__current_state (R1508). -/
  | mcrVaPaCurPrivWrite (cond : BitVec 4) (rt : BitVec 4)
  /-- MCR_p15__0___Rt___c7__c8__2__VA_to_PA__current_state (R1508). -/
  | mcrVaPaCurUserRead (cond : BitVec 4) (rt : BitVec 4)
  /-- MCR_p15__0___Rt___c7__c8__3__VA_to_PA__current_state (R1508). -/
  | mcrVaPaCurUserWrite (cond : BitVec 4) (rt : BitVec 4)
  /-- MCR_p15__0___Rt___c7__c8__4__VA_to_PA__other_state (R1509). -/
  | mcrVaPaOthPrivRead (cond : BitVec 4) (rt : BitVec 4)
  /-- MCR_p15__0___Rt___c7__c8__5__VA_to_PA__other_state (R1509). -/
  | mcrVaPaOthPrivWrite (cond : BitVec 4) (rt : BitVec 4)
  /-- MCR_p15__0___Rt___c7__c8__6__VA_to_PA__other_state (R1509). -/
  | mcrVaPaOthUserRead (cond : BitVec 4) (rt : BitVec 4)
  /-- MCR_p15__0___Rt___c7__c8__7__VA_to_PA__other_state (R1509). -/
  | mcrVaPaOthUserWrite (cond : BitVec 4) (rt : BitVec 4)
  /-- MCR_p15__0___Rt___c7__c10__1__DCCMVAC (R1510). -/
  | mcrDccmvac (cond : BitVec 4) (rt : BitVec 4)
  /-- MCR_p15__0___Rt___c7__c10__2__DCCSW (R1511). -/
  | mcrDccsw (cond : BitVec 4) (rt : BitVec 4)
  /-- MCR_p15__0___Rt___c7__c10__4__DSB_operation (R1512). -/
  | mcrDsb (cond : BitVec 4) (rt : BitVec 4)
  /-- MCR_p15__0___Rt___c7__c10__5__DMB_operation (R1513). -/
  | mcrDmb (cond : BitVec 4) (rt : BitVec 4)
  /-- MCR_p15__0___Rt___c7__c11__1__DCCMVAU (R1514). -/
  | mcrDccmvau (cond : BitVec 4) (rt : BitVec 4)
  /-- MCR_p15__0___Rt___c7__c14__1__DCCIMVAC (R1515). -/
  | mcrDccimvac (cond : BitVec 4) (rt : BitVec 4)
  /-- MCR_p15__0___Rt___c7__c14__2__DCCISW (R1516). -/
  | mcrDccisw (cond : BitVec 4) (rt : BitVec 4)
  /-- MCR_p15__0___Rt___c8__c5__0__ITLBIALL (R1517). -/
  | mcrItlbiall (cond : BitVec 4) (rt : BitVec 4)
  /-- MCR_p15__0___Rt___c8__c5__1__ITLBIMVA (R1518). -/
  | mcrItlbimva (cond : BitVec 4) (rt : BitVec 4)
  /-- MCR_p15__0___Rt___c8__c5__2__ITLBIASID (R1519). -/
  | mcrItlbiasid (cond : BitVec 4) (rt : BitVec 4)
  /-- MCR_p15__0___Rt___c8__c6__0__DTLBIALL (R1520). -/
  | mcrDtlbiall (cond : BitVec 4) (rt : BitVec 4)
  /-- MCR_p15__0___Rt___c8__c6__1__DTLBIMVA (R1521). -/
  | mcrDtlbimva (cond : BitVec 4) (rt : BitVec 4)
  /-- MCR_p15__0___Rt___c8__c6__2__DTLBIASID (R1522). -/
  | mcrDtlbiasid (cond : BitVec 4) (rt : BitVec 4)
  /-- MCR_p15__0___Rt___c8__c7__0__TLBIALL (R1523). -/
  | mcrTlbiall (cond : BitVec 4) (rt : BitVec 4)
  /-- MCR_p15__0___Rt___c8__c7__1__TLBIMVA (R1524). -/
  | mcrTlbimva (cond : BitVec 4) (rt : BitVec 4)
  /-- MCR_p15__0___Rt___c8__c7__2__TLBIASID (R1525). -/
  | mcrTlbiasid (cond : BitVec 4) (rt : BitVec 4)
  /-- MRC_p15__0___Rt___c9__c12__0__PMNC (R1526). -/
  | mrcPmnc (cond : BitVec 4) (rt : BitVec 4)
  /-- MCR_p15__0___Rt___c9__c12__0__PMNC (R1526). -/
  | mcrPmnc (cond : BitVec 4) (rt : BitVec 4)
  /-- MRC_p15__0___Rt___c9__c12__1__CNTENS (R1527). -/
  | mrcCntens (cond : BitVec 4) (rt : BitVec 4)
  /-- MCR_p15__0___Rt___c9__c12__1__CNTENS (R1527). -/
  | mcrCntens (cond : BitVec 4) (rt : BitVec 4)
  /-- MRC_p15__0___Rt___c9__c12__2__CNTENC (R1528). -/
  | mrcCntenc (cond : BitVec 4) (rt : BitVec 4)
  /-- MCR_p15__0___Rt___c9__c12__2__CNTENC (R1528). -/
  | mcrCntenc (cond : BitVec 4) (rt : BitVec 4)
  /-- MRC_p15__0___Rt___c9__c12__3__FLAG (R1529). -/
  | mrcFlag (cond : BitVec 4) (rt : BitVec 4)
  /-- MCR_p15__0___Rt___c9__c12__3__FLAG (R1529). -/
  | mcrFlag (cond : BitVec 4) (rt : BitVec 4)
  /-- MRC_p15__0___Rt___c9__c12__4__SWINCR (R1530). -/
  | mrcSwincr (cond : BitVec 4) (rt : BitVec 4)
  /-- MCR_p15__0___Rt___c9__c12__4__SWINCR (R1530). -/
  | mcrSwincr (cond : BitVec 4) (rt : BitVec 4)
  /-- MRC_p15__0___Rt___c9__c12__5__PMNXSEL (R1531). -/
  | mrcPmnxsel (cond : BitVec 4) (rt : BitVec 4)
  /-- MCR_p15__0___Rt___c9__c12__5__PMNXSEL (R1531). -/
  | mcrPmnxsel (cond : BitVec 4) (rt : BitVec 4)
  /-- MRC_p15__0___Rt___c9__c13__0__CCNT (R1532). -/
  | mrcCcnt (cond : BitVec 4) (rt : BitVec 4)
  /-- MCR_p15__0___Rt___c9__c13__0__CCNT (R1532). -/
  | mcrCcnt (cond : BitVec 4) (rt : BitVec 4)
  /-- MRC_p15__0___Rt___c9__c13__1__EVTSEL (R1533). -/
  | mrcEvtsel (cond : BitVec 4) (rt : BitVec 4)
  /-- MCR_p15__0___Rt___c9__c13__1__EVTSEL (R1533). -/
  | mcrEvtsel (cond : BitVec 4) (rt : BitVec 4)
  /-- MRC_p15__0___Rt___c9__c13__2__PMCNT (R1534). -/
  | mrcPmcnt (cond : BitVec 4) (rt : BitVec 4)
  /-- MCR_p15__0___Rt___c9__c13__2__PMCNT (R1534). -/
  | mcrPmcnt (cond : BitVec 4) (rt : BitVec 4)
  /-- MRC_p15__0___Rt___c9__c14__0__USEREN (R1535). -/
  | mrcUseren (cond : BitVec 4) (rt : BitVec 4)
  /-- MCR_p15__0___Rt___c9__c14__0__USEREN (R1535). -/
  | mcrUseren (cond : BitVec 4) (rt : BitVec 4)
  /-- MRC_p15__0___Rt___c9__c14__1__INTENS (R1536). -/
  | mrcIntens (cond : BitVec 4) (rt : BitVec 4)
  /-- MCR_p15__0___Rt___c9__c14__1__INTENS (R1536). -/
  | mcrIntens (cond : BitVec 4) (rt : BitVec 4)
  /-- MRC_p15__0___Rt___c9__c14__2__INTENC (R1537). -/
  | mrcIntenc (cond : BitVec 4) (rt : BitVec 4)
  /-- MCR_p15__0___Rt___c9__c14__2__INTENC (R1537). -/
  | mcrIntenc (cond : BitVec 4) (rt : BitVec 4)
  /-- MRC_p15__1___Rt___c9__c0__0__L2_Cache_Lockdown_Register (R1538). -/
  | mrcL2Lock (cond : BitVec 4) (rt : BitVec 4)
  /-- MCR_p15__1___Rt___c9__c0__0__L2_Cache_Lockdown_Register (R1538). -/
  | mcrL2Lock (cond : BitVec 4) (rt : BitVec 4)
  /-- MRC_p15__1___Rt___c9__c0__2__L2_Cache_Auxiliary_Control (R1539). -/
  | mrcL2Aux (cond : BitVec 4) (rt : BitVec 4)
  /-- MCR_p15__1___Rt___c9__c0__2__L2_Cache_Auxiliary_Control (R1539). -/
  | mcrL2Aux (cond : BitVec 4) (rt : BitVec 4)
  /-- MRC_p15__0___Rt___c10__c0__0__Data_TLB_Lockdown_Register (R2500). -/
  | mrcDtlbLock (cond : BitVec 4) (rt : BitVec 4)
  /-- MCR_p15__0___Rt___c10__c0__0__Data_TLB_Lockdown_Register (R2500). -/
  | mcrDtlbLock (cond : BitVec 4) (rt : BitVec 4)
  /-- MRC_p15__0___Rt___c10__c0__1__Instruction_TLB_Lockdown_R (R2501). -/
  | mrcItlbLock (cond : BitVec 4) (rt : BitVec 4)
  /-- MCR_p15__0___Rt___c10__c0__1__Instruction_TLB_Lockdown_R (R2501). -/
  | mcrItlbLock (cond : BitVec 4) (rt : BitVec 4)
  /-- MCR_p15__0___Rt___c10__c1__0__Data_TLB_preload (R2502). -/
  | mcrDtlbPreload (cond : BitVec 4) (rt : BitVec 4)
  /-- MCR_p15__0___Rt___c10__c1__1__Instruction_TLB_preload (R2503). -/
  | mcrItlbPreload (cond : BitVec 4) (rt : BitVec 4)
  /-- MRC_p15__0___Rt___c10__c2__0__PRRR (R2504). -/
  | mrcPrrr (cond : BitVec 4) (rt : BitVec 4)
  /-- MCR_p15__0___Rt___c10__c2__0__PRRR (R2504). -/
  | mcrPrrr (cond : BitVec 4) (rt : BitVec 4)
  /-- MRC_p15__0___Rt___c10__c2__1__NMRR (R2505). -/
  | mrcNmrr (cond : BitVec 4) (rt : BitVec 4)
  /-- MCR_p15__0___Rt___c10__c2__1__NMRR (R2505). -/
  | mcrNmrr (cond : BitVec 4) (rt : BitVec 4)
  /-- MRC_p15__0___Rt___c11__c0__0__PLE_Identification_and_Sta (R2506). -/
  | mrcPleIdPresent (cond : BitVec 4) (rt : BitVec 4)
  /-- MRC_p15__0___Rt___c11__c0__1__PLE_Identification_and_Sta (R2506). -/
  | mrcPleIdReserved (cond : BitVec 4) (rt : BitVec 4)
  /-- MRC_p15__0___Rt___c11__c0__2__PLE_Identification_and_Sta (R2506). -/
  | mrcPleIdRunning (cond : BitVec 4) (rt : BitVec 4)
  /-- MRC_p15__0___Rt___c11__c0__3__PLE_Identification_and_Sta (R2506). -/
  | mrcPleIdInterrupting (cond : BitVec 4) (rt : BitVec 4)
  /-- MRC_p15__0___Rt___c11__c1__0__PLE_User_Accessibility_Reg (R2507). -/
  | mrcPleUser (cond : BitVec 4) (rt : BitVec 4)
  /-- MCR_p15__0___Rt___c11__c1__0__PLE_User_Accessibility_Reg (R2507). -/
  | mcrPleUser (cond : BitVec 4) (rt : BitVec 4)
  /-- MRC_p15__0___Rt___c11__c2__0__PLE_Channel_Number_Registe (R2508). -/
  | mrcPleChannel (cond : BitVec 4) (rt : BitVec 4)
  /-- MCR_p15__0___Rt___c11__c2__0__PLE_Channel_Number_Registe (R2508). -/
  | mcrPleChannel (cond : BitVec 4) (rt : BitVec 4)
  /-- MCR_p15__0___Rt___c11__c3__0__PLE_Stop_command (R2509). -/
  | mcrPleStop (cond : BitVec 4) (rt : BitVec 4)
  /-- MCR_p15__0___Rt___c11__c3__1__PLE_Start_command (R2510). -/
  | mcrPleStart (cond : BitVec 4) (rt : BitVec 4)
  /-- MCR_p15__0___Rt___c11__c3__2__PLE_Clear_command (R2511). -/
  | mcrPleClear (cond : BitVec 4) (rt : BitVec 4)
  /-- MRC_p15__0___Rt___c11__c4__0__PLE_Control_Register (R2512). -/
  | mrcPleControl (cond : BitVec 4) (rt : BitVec 4)
  /-- MCR_p15__0___Rt___c11__c4__0__PLE_Control_Register (R2512). -/
  | mcrPleControl (cond : BitVec 4) (rt : BitVec 4)
  /-- MRC_p15__0___Rt___c11__c5__0__PLE_Internal_Start_Address (R2513). -/
  | mrcPleStartAddr (cond : BitVec 4) (rt : BitVec 4)
  /-- MCR_p15__0___Rt___c11__c5__0__PLE_Internal_Start_Address (R2513). -/
  | mcrPleStartAddr (cond : BitVec 4) (rt : BitVec 4)
  /-- MRC_p15__0___Rt___c11__c7__0__PLE_Internal_End_Address_R (R2514). -/
  | mrcPleEndAddr (cond : BitVec 4) (rt : BitVec 4)
  /-- MCR_p15__0___Rt___c11__c7__0__PLE_Internal_End_Address_R (R2514). -/
  | mcrPleEndAddr (cond : BitVec 4) (rt : BitVec 4)
  /-- MRC_p15__0___Rt___c11__c8__0__PLE_Channel_Status_Registe (R2515). -/
  | mrcPleStatus (cond : BitVec 4) (rt : BitVec 4)
  /-- MRC_p15__0___Rt___c11__c15__0__PLE_Context_ID_Register (R2516). -/
  | mrcPleContext (cond : BitVec 4) (rt : BitVec 4)
  /-- MCR_p15__0___Rt___c11__c15__0__PLE_Context_ID_Register (R2516). -/
  | mcrPleContext (cond : BitVec 4) (rt : BitVec 4)
  /-- MRC_p15__0___Rt___c12__c0__0__VBAR (R2517). -/
  | mrcVbar (cond : BitVec 4) (rt : BitVec 4)
  /-- MCR_p15__0___Rt___c12__c0__0__VBAR (R2517). -/
  | mcrVbar (cond : BitVec 4) (rt : BitVec 4)
  /-- MRC_p15__0___Rt___c12__c0__1__MVBAR (R2518). -/
  | mrcMvbar (cond : BitVec 4) (rt : BitVec 4)
  /-- MCR_p15__0___Rt___c12__c0__1__MVBAR (R2518). -/
  | mcrMvbar (cond : BitVec 4) (rt : BitVec 4)
  /-- MRC_p15__0___Rt___c12__c1__0__ISR (R2519). -/
  | mrcIsr (cond : BitVec 4) (rt : BitVec 4)
  /-- MRC_p15__0___Rt___c13__c0__0__FCSE_PID_Register (R2520). -/
  | mrcFcse (cond : BitVec 4) (rt : BitVec 4)
  /-- MCR_p15__0___Rt___c13__c0__0__FCSE_PID_Register (R2520). -/
  | mcrFcse (cond : BitVec 4) (rt : BitVec 4)
  /-- MRC_p15__0___Rt___c13__c0__1__CONTEXTIDR (R2521). -/
  | mrcContextidr (cond : BitVec 4) (rt : BitVec 4)
  /-- MCR_p15__0___Rt___c13__c0__1__CONTEXTIDR (R2521). -/
  | mcrContextidr (cond : BitVec 4) (rt : BitVec 4)
  /-- MRC_p15__0___Rt___c13__c0__2__TPIDRURW (R2522). -/
  | mrcTpidrurw (cond : BitVec 4) (rt : BitVec 4)
  /-- MCR_p15__0___Rt___c13__c0__2__TPIDRURW (R2522). -/
  | mcrTpidrurw (cond : BitVec 4) (rt : BitVec 4)
  /-- MRC_p15__0___Rt___c13__c0__3__TPIDRURO (R2523). -/
  | mrcTpidruro (cond : BitVec 4) (rt : BitVec 4)
  /-- MCR_p15__0___Rt___c13__c0__3__TPIDRURO (R2523). -/
  | mcrTpidruro (cond : BitVec 4) (rt : BitVec 4)
  /-- MRC_p15__0___Rt___c13__c0__4__TPIDRPRW (R2524). -/
  | mrcTpidrprw (cond : BitVec 4) (rt : BitVec 4)
  /-- MCR_p15__0___Rt___c13__c0__4__TPIDRPRW (R2524). -/
  | mcrTpidrprw (cond : BitVec 4) (rt : BitVec 4)
  /-- MRC_p15__0___Rt___c15__c0__0__D-L1_Data_0_Register (R2525). -/
  | mrcDl1Data0 (cond : BitVec 4) (rt : BitVec 4)
  /-- MCR_p15__0___Rt___c15__c0__0__D-L1_Data_0_Register (R2525). -/
  | mcrDl1Data0 (cond : BitVec 4) (rt : BitVec 4)
  /-- MRC_p15__0___Rt___c15__c0__1__D-L1_Data_1_Register (R2526). -/
  | mrcDl1Data1 (cond : BitVec 4) (rt : BitVec 4)
  /-- MCR_p15__0___Rt___c15__c0__1__D-L1_Data_1_Register (R2526). -/
  | mcrDl1Data1 (cond : BitVec 4) (rt : BitVec 4)
  /-- MCR_p15__0___Rt___c15__c0__2__D-TLB_CAM_write_operation (R2527). -/
  | mcrDtlbCamWrite (cond : BitVec 4) (rt : BitVec 4)
  /-- MCR_p15__0___Rt___c15__c0__3__D-TLB_ATTR_write_operation (R2528). -/
  | mcrDtlbAttrWrite (cond : BitVec 4) (rt : BitVec 4)
  /-- MCR_p15__0___Rt___c15__c0__4__D-TLB_PA_write_operation (R2529). -/
  | mcrDtlbPaWrite (cond : BitVec 4) (rt : BitVec 4)
  /-- MCR_p15__0___Rt___c15__c0__5__D-HVAB_write_operation (R2530). -/
  | mcrDhvabWrite (cond : BitVec 4) (rt : BitVec 4)
  /-- MCR_p15__0___Rt___c15__c0__6__D-Tag_write_operation (R2531). -/
  | mcrDtagWrite (cond : BitVec 4) (rt : BitVec 4)
  /-- MCR_p15__0___Rt___c15__c0__7__D-Data_write_operation (R2532). -/
  | mcrDdataWrite (cond : BitVec 4) (rt : BitVec 4)
  /-- MCR_p15__0___Rt___c15__c2__2__D-TLB_CAM_read_operation (R2533). -/
  | mcrDtlbCamRead (cond : BitVec 4) (rt : BitVec 4)
  /-- MCR_p15__0___Rt___c15__c2__3__D-TLB_ATTR_read_operation (R2534). -/
  | mcrDtlbAttrRead (cond : BitVec 4) (rt : BitVec 4)
  /-- MCR_p15__0___Rt___c15__c2__4__D-TLB_PA_read_operation (R2535). -/
  | mcrDtlbPaRead (cond : BitVec 4) (rt : BitVec 4)
  /-- MCR_p15__0___Rt___c15__c2__5__D-HVAB_read_operation (R2536). -/
  | mcrDhvabRead (cond : BitVec 4) (rt : BitVec 4)
  /-- MCR_p15__0___Rt___c15__c2__6__D-Tag_read_operation (R2537). -/
  | mcrDtagRead (cond : BitVec 4) (rt : BitVec 4)
  /-- MCR_p15__0___Rt___c15__c2__7__D-Data_read_operation (R2538). -/
  | mcrDdataRead (cond : BitVec 4) (rt : BitVec 4)
  /-- MRC_p15__0___Rt___c15__c1__0__I-L1_Data_0_Register (R2539). -/
  | mrcIl1Data0 (cond : BitVec 4) (rt : BitVec 4)
  /-- MCR_p15__0___Rt___c15__c1__0__I-L1_Data_0_Register (R2539). -/
  | mcrIl1Data0 (cond : BitVec 4) (rt : BitVec 4)
  /-- MRC_p15__0___Rt___c15__c1__1__I-L1_Data_1_Register (R2540). -/
  | mrcIl1Data1 (cond : BitVec 4) (rt : BitVec 4)
  /-- MCR_p15__0___Rt___c15__c1__1__I-L1_Data_1_Register (R2540). -/
  | mcrIl1Data1 (cond : BitVec 4) (rt : BitVec 4)
  /-- MCR_p15__0___Rt___c15__c1__2__I-TLB_CAM_write_operation (R2541). -/
  | mcrItlbCamWrite (cond : BitVec 4) (rt : BitVec 4)
  /-- MCR_p15__0___Rt___c15__c1__3__I-TLB_ATTR_write_operation (R2542). -/
  | mcrItlbAttrWrite (cond : BitVec 4) (rt : BitVec 4)
  /-- MCR_p15__0___Rt___c15__c1__4__I-TLB_PA_write_operation (R2543). -/
  | mcrItlbPaWrite (cond : BitVec 4) (rt : BitVec 4)
  /-- MCR_p15__0___Rt___c15__c1__5__I-HVAB_write_operation (R2544). -/
  | mcrIhvabWrite (cond : BitVec 4) (rt : BitVec 4)
  /-- MCR_p15__0___Rt___c15__c1__6__I-Tag_write_operation (R2545). -/
  | mcrItagWrite (cond : BitVec 4) (rt : BitVec 4)
  /-- MCR_p15__0___Rt___c15__c1__7__I-Data_write_operation (R2546). -/
  | mcrIdataWrite (cond : BitVec 4) (rt : BitVec 4)
  /-- MCR_p15__0___Rt___c15__c3__2__I-TLB_CAM_read_operation (R2547). -/
  | mcrItlbCamRead (cond : BitVec 4) (rt : BitVec 4)
  /-- MCR_p15__0___Rt___c15__c3__3__I-TLB_ATTR_read_operation (R2548). -/
  | mcrItlbAttrRead (cond : BitVec 4) (rt : BitVec 4)
  /-- MCR_p15__0___Rt___c15__c3__4__I-TLB_PA_read_operation (R2549). -/
  | mcrItlbPaRead (cond : BitVec 4) (rt : BitVec 4)
  /-- MCR_p15__0___Rt___c15__c3__5__I-HVAB_read_operation (R2550). -/
  | mcrIhvabRead (cond : BitVec 4) (rt : BitVec 4)
  /-- MCR_p15__0___Rt___c15__c3__6__I-Tag_read_operation (R2551). -/
  | mcrItagRead (cond : BitVec 4) (rt : BitVec 4)
  /-- MCR_p15__0___Rt___c15__c3__7__I-Data_read_operation (R2552). -/
  | mcrIdataRead (cond : BitVec 4) (rt : BitVec 4)
  /-- MCR_p15__0___Rt___c15__c5__2__GHB_write_operation (R2553). -/
  | mcrGhbWrite (cond : BitVec 4) (rt : BitVec 4)
  /-- MCR_p15__0___Rt___c15__c5__3__BTB_write_operation (R2554). -/
  | mcrBtbWrite (cond : BitVec 4) (rt : BitVec 4)
  /-- MCR_p15__0___Rt___c15__c7__2__GHB_read_operation (R2555). -/
  | mcrGhbRead (cond : BitVec 4) (rt : BitVec 4)
  /-- MCR_p15__0___Rt___c15__c7__3__BTB_read_operation (R2556). -/
  | mcrBtbRead (cond : BitVec 4) (rt : BitVec 4)
  /-- MRC_p15__0___Rt___c15__c8__0__L2_Data_0_Register (R2557). -/
  | mrcL2Data0 (cond : BitVec 4) (rt : BitVec 4)
  /-- MCR_p15__0___Rt___c15__c8__0__L2_Data_0_Register (R2557). -/
  | mcrL2Data0 (cond : BitVec 4) (rt : BitVec 4)
  /-- MRC_p15__0___Rt___c15__c8__1__L2_Data_1_Register (R2558). -/
  | mrcL2Data1 (cond : BitVec 4) (rt : BitVec 4)
  /-- MCR_p15__0___Rt___c15__c8__1__L2_Data_1_Register (R2558). -/
  | mcrL2Data1 (cond : BitVec 4) (rt : BitVec 4)
  /-- MCR_p15__0___Rt___c15__c8__2__L2_tag_and_valid_write_ope (R2559). -/
  | mcrL2TagWrite (cond : BitVec 4) (rt : BitVec 4)
  /-- MCR_p15__0___Rt___c15__c8__3__L2_data_and_dirty_write_op (R2560). -/
  | mcrL2DataWrite (cond : BitVec 4) (rt : BitVec 4)
  /-- MCR_p15__0___Rt___c15__c8__4__L2_parity_and_ECC_write_op (R2561). -/
  | mcrL2ParityWrite (cond : BitVec 4) (rt : BitVec 4)
  /-- MRC_p15__0___Rt___c15__c8__5__L2_Data_2_Register (R2562). -/
  | mrcL2Data2 (cond : BitVec 4) (rt : BitVec 4)
  /-- MCR_p15__0___Rt___c15__c8__5__L2_Data_2_Register (R2562). -/
  | mcrL2Data2 (cond : BitVec 4) (rt : BitVec 4)
  /-- MCR_p15__0___Rt___c15__c9__2__L2_tag_and_valid_read_oper (R2563). -/
  | mcrL2TagRead (cond : BitVec 4) (rt : BitVec 4)
  /-- MCR_p15__0___Rt___c15__c9__3__L2_data_and_dirty_read_ope (R2564). -/
  | mcrL2DataRead (cond : BitVec 4) (rt : BitVec 4)
  /-- MCR_p15__0___Rt___c15__c9__4__L2_parity_and_ECC_read_ope (R2565). -/
  | mcrL2ParityRead (cond : BitVec 4) (rt : BitVec 4)
  /-- MRC_MCR_p15__any_other_tuple_or_direction (R1457). -/
  | p15Other (cond : BitVec 4) (opc1 : BitVec 3) (l : BitVec 1) (cRn : BitVec 4) (rt : BitVec 4) (opc2 : BitVec 3) (cRm : BitVec 4)
  /-- MCR__any_other_coprocessor (R1800). -/
  | mcrOther (cond : BitVec 4) (opc1 : BitVec 3) (cRn : BitVec 4) (rt : BitVec 4) (coproc : BitVec 4) (opc2 : BitVec 3) (cRm : BitVec 4)
  /-- MRC__any_other_coprocessor (R1801). -/
  | mrcOther (cond : BitVec 4) (opc1 : BitVec 3) (cRn : BitVec 4) (rt : BitVec 4) (coproc : BitVec 4) (opc2 : BitVec 3) (cRm : BitVec 4)
  /-- CDP__any_coprocessor (R1802). -/
  | cdpAny (cond : BitVec 4) (opc1 : BitVec 4) (cRn : BitVec 4) (cRd : BitVec 4) (coproc : BitVec 4) (opc2 : BitVec 3) (cRm : BitVec 4)
  /-- MCRR__any_coprocessor (R1802). -/
  | mcrrAny (cond : BitVec 4) (rt2 : BitVec 4) (rt : BitVec 4) (coproc : BitVec 4) (opc1 : BitVec 4) (cRm : BitVec 4)
  /-- MRRC__any_coprocessor (R1802). -/
  | mrrcAny (cond : BitVec 4) (rt2 : BitVec 4) (rt : BitVec 4) (coproc : BitVec 4) (opc1 : BitVec 4) (cRm : BitVec 4)
  /-- LDC__STC__any_other_coprocessor_or_register (R1802). -/
  | ldcStcOther (cond : BitVec 4) (p : BitVec 1) (u : BitVec 1) (d : BitVec 1) (w : BitVec 1) (l : BitVec 1) (rn : BitVec 4) (cRd : BitVec 4) (coproc : BitVec 4) (imm8 : BitVec 8)
  deriving DecidableEq, Repr

end Sys2Proof
end

