-- ==== Sys2Proof/Machine/State.lean ====
section
/-! DEFINITION. The state of the machine, plain data: every register and every piece of state the spec names
(INVENTORY.md lists them with their rules), the reasons a step can stop, and the state after reset. -/

namespace Sys2Proof.Machine

/-- The eight processor modes (10_state.md R53). -/
inductive Mode where
  | usr | fiq | irq | svc | mon | abt | und | sys
  deriving DecidableEq, Repr

/-- Where the spec gives an instruction or an event no effect at all: it calls the outcome Unpredictable (D4(c)). Every
constructor is safe: hardware goes on where the model stops. -/
inductive Fault where
  /-- The decoder: a should-be-zero or should-be-one field of the layout is broken (R1386). Safe. -/
  | shouldBeField
  /-- A meaning: operand registers or values its rule calls Unpredictable (R1386). Safe. -/
  | operands
  /-- A write of CPSR.M with a value that is no mode (R56), or a step in such a state. Safe. -/
  | illegalMode
  /-- A write of the PC with bits [1:0] = 0b10 (R63). Safe. -/
  | pcAlignment
  /-- An exception return that would restore J = 1 with T = 0 (D4(e)). Safe. -/
  | jazelleState
  /-- A system register access the tables call Unpredictable (R1452, D4(c)). Safe. -/
  | systemRegister
  /-- Two entries of one TLB match a request (R1105). Safe. -/
  | tlbMultipleMatch
  /-- The memory configuration is changed while a preload channel runs (R1197). Safe. -/
  | preloadReconfigured
  /-- An instruction the debugger may not run in debug state (R2085 to R2096). Safe. -/
  | debugInstruction
  /-- An APB access or host action with Unpredictable results (R654, R677, D4(c)). Safe. -/
  | hostAction
  /-- An instruction between an MSR or CPS that leaves Monitor mode with SCR.NS set and the next ISB or exception entry or
  return (R2011). Safe. -/
  | monitorExit
  deriving DecidableEq, Repr

/-- What the spec leaves out of the machine it describes. Every constructor is safe. -/
inductive Refusal where
  /-- Dispatch: an instruction that has no meaning yet. Safe. -/
  | notModelled (mnemonic : String)
  /-- A step with CPSR.T = 1: Thumb and ThumbEE encodings are not supplied (D15). Safe. -/
  | thumbState
  /-- A NEON or VFP instruction other than VMRS and VMSR, when the unit is enabled (D15, R1395). Safe. -/
  | neonVfpInstruction
  /-- A CP15 c15 operation that writes a cache or TLB array (D22, R571). Safe. -/
  | arrayWrite
  deriving DecidableEq, Repr

/-- The product revisions whose identification values the manual gives (00_scope.md R2, D1). -/
inductive Revision where
  | r1p1 | r1p2 | r1p3 | r1p7 | r2p0 | r2p1 | r2p2 | r2p3 | r2p5 | r2p6 | r3p0 | r3p1 | r3p2
  deriving DecidableEq, Repr

/-- The configurable sizes of each L1 cache (00_scope.md R9 `L1_SIZE`). -/
inductive L1Size where
  | k16 | k32
  deriving DecidableEq, Repr

/-- The configurable sizes of the L2 cache (00_scope.md R9 `L2_SIZE`). -/
inductive L2Size where
  | k0 | k128 | k256 | k512 | k1024
  deriving DecidableEq, Repr

/-- Where the core's loads and stores reach the APB port (92_eei_decisions.md D7; R650): the 4KB-aligned physical bases
of the debug, ETM and CTI register files, none where a file is not mapped, and what becomes of a User mode access
(`APB_USER_ACCESS`, R653): an external abort, or nothing. -/
structure ApbMap where
  debugBase : Option (BitVec 20)
  etmBase : Option (BitVec 20)
  ctiBase : Option (BitVec 20)
  userAborts : Bool
  deriving DecidableEq, Repr

/-- What building the processor into a system fixes: the OPEN parameters of 00_scope.md R2, R9 and 92_eei_decisions.md D1,
D2, D7, D21. `exclGranule` is EXCL_GRANULE_LOG2, the size of the granule of the exclusive monitor as a power of two of bytes
(20_memory.md R1060). No step changes them. -/
structure Build where
  revision : Revision
  l1Size : L1Size
  l2Size : L2Size
  l2Parity : Bool
  hasEtm : Bool
  hasNeon : Bool
  apb : ApbMap
  exclGranule : Nat
  deriving DecidableEq, Repr

/-- Cacheability at one level (20_memory.md R1031, R1032). -/
inductive CachePolicy where
  | nonCacheable
  | writeBackAllocate
  | writeThrough
  | writeBack
  deriving DecidableEq, Repr

/-- The three memory types (20_memory.md R1030). -/
inductive MemType where
  | stronglyOrdered
  | device
  | normal
  deriving DecidableEq, Repr

/-- The attributes of an access. -/
structure MemAttrs where
  typ : MemType
  shareable : Bool
  inner : CachePolicy
  outer : CachePolicy
  deriving DecidableEq, Repr

/-- The page sizes of a TLB entry (21_mmu.md R1104). -/
inductive PageSize where
  | small | large | sec | supersec
  deriving DecidableEq, Repr

/-- A TLB entry (21_mmu.md R1104). `sectionLevel` says which fault codes a check on the entry reports; `afe` is SCTLR.AFE as
it was when the entry was made, by which its permissions are read (70_reset_and_hazards.md R2241 H3). -/
structure TlbEntry where
  locked : Bool
  mva : BitVec 20
  size : PageSize
  asid : BitVec 8
  glob : Bool
  secure : Bool
  pa : BitVec 20
  ns : Bool
  domain : BitVec 4
  ap : BitVec 3
  xn : Bool
  afe : Bool
  sectionLevel : Bool
  attrs : MemAttrs
  deriving DecidableEq, Repr

/-- A valid cache line (22_caches.md R1150): where it sits, the physical line address PA[31:6] with its security, one
dirty bit per quadword (all four together in the L1 data cache), its outer policy, and its 64 bytes, byte 0 lowest. -/
structure CacheLine where
  set : Nat
  way : Nat
  tag : BitVec 26
  ns : Bool
  dirty : BitVec 4
  outer : CachePolicy
  data : BitVec 512
  deriving DecidableEq, Repr

/-- A range of physical addresses at which the platform answers an error (D13): DECERR, or SLVERR when `slave`. -/
structure BusRegion where
  lo : Nat
  hi : Nat
  ns : Bool
  slave : Bool
  onRead : Bool
  onWrite : Bool
  deriving DecidableEq, Repr

/-- A byte of physical memory, as another bus master writes it. -/
structure BusByte where
  ns : Bool
  pa : Word
  value : Byte
  deriving DecidableEq, Repr

/-- A byte of a late store: where it lies, and what it held before. -/
structure LateByte where
  ns : Bool
  pa : Word
  old : Byte
  new : Byte
  deriving DecidableEq, Repr

/-- How far a late store has come: the table walker may not see it yet; the table walker sees it; a DSB has completed it, and
the next flush of the pipeline makes the instruction side see it too (20_memory.md R1041, R1043). -/
inductive LateStage where
  | pending | arrived | complete
  deriving DecidableEq, Repr

/-- MODEL: a store of this core to the L2 cache or to memory, or another change there, that some observer inside the core may
not see yet (20_memory.md R1041, R1043; log 50): its bytes, which are seen together or not at all (R1046), whether it may
still be gathered into an L2 line (R1168), whether external memory has it, and the number of DMBs since. -/
structure Late where
  bytes : List LateByte
  stage : LateStage
  gathers : Bool
  onBus : Bool
  fences : Nat
  deriving DecidableEq, Repr

/-- The kinds of imprecise abort (60_exceptions.md R1938): external with its SD bit, or parity. -/
inductive AbortKind where
  | external (slave : Bool)
  | parity
  deriving DecidableEq, Repr

/-- The tag of the local exclusive monitor in its exclusive state (20_memory.md R1060, D21): the space, and the physical
address without the bits inside a granule. -/
structure ExclTag where
  ns : Bool
  granule : Word
  deriving DecidableEq, Repr

/-- One copy of the CP15 registers that are banked between the Secure and the Nonsecure state. -/
structure Banked where
  csselr : Word
  sctlr : Word
  l2en : Bool
  ttbr0 : Word
  ttbr1 : Word
  ttbcr : Word
  dacr : Word
  dfsr : Word
  ifsr : Word
  dfar : Word
  ifar : Word
  par : Word
  prrr : Word
  nmrr : Word
  vbar : Word
  fcse : Word
  contextidr : Word
  tpidrurw : Word
  tpidruro : Word
  tpidrprw : Word
  deriving DecidableEq, Repr

/-- The CP15 registers of which there is one copy, and TEECR and TEEHBR of CP14. -/
structure SysRegs where
  teecr : Word
  teehbr : Word
  scr : Word
  sder : Word
  nsacr : Word
  cpacr : Word
  actlr : Word
  /-- CPEXIST[13:0] as the last reset sampled it (12_cp15_control.md R261). -/
  cpexist : BitVec 14
  mvbar : Word
  l2lock : Word
  l2aux : Word
  dtlbLock : Word
  itlbLock : Word
  dl1d0 : Word
  dl1d1 : Word
  il1d0 : Word
  il1d1 : Word
  l2d0 : Word
  l2d1 : Word
  l2d2 : Word
  deriving DecidableEq, Repr

/-- The performance monitor (13_cp15_maint_pmu.md R400 to R412). -/
structure Pmu where
  pmnc : Word
  cnten : Word
  flag : Word
  inten : Word
  useren : Word
  pmnxsel : Word
  ccnt : Word
  pmcnt : Vector Word 4
  evtsel : Vector Word 4
  deriving DecidableEq, Repr

/-- The translation of the 4KB page that a preload channel is transferring (22_caches.md R1193): its frame, its NS
attribute, the policy the L2 cache observes. -/
structure PlePage where
  frame : BitVec 20
  ns : Bool
  outer : CachePolicy
  deriving DecidableEq, Repr

/-- One preload engine channel (14_cp15_tlb_ple_misc.md R496 to R506; 22_caches.md R1191 to R1194). `secure` is the state
that started the transfer; the completion interrupts, one of each side, stand until they are cleared. -/
structure PleChannel where
  control : Word
  start : Word
  endr : Word
  ctxid : Word
  status : Word
  secure : Bool
  irqSecure : Bool
  irqNonsecure : Bool
  errIrq : Bool
  page : Option PlePage
  deriving DecidableEq, Repr

/-- The preload engine. -/
structure Ple where
  userAcc : Word
  chanSel : Word
  chan : Vector PleChannel 2
  deriving DecidableEq, Repr

/-- The NEON/VFP system registers and register bank (18_neon_vfp_state.md R835, R845), and whether the unit has power
and is out of reset (D27). -/
structure Vfp where
  fpscr : Word
  fpexc : Word
  d : Vector Dword 32
  neonUp : Bool
  deriving DecidableEq, Repr

/-- How far the OSSRR sequence has got (16_debug_registers.md R702): at its beginning, where the length is read, or at an
entry of a sequence of reads or of writes; `reading 0` may still become either. -/
inductive OsSaveSeq where
  | start
  | reading (next : Nat)
  | writing (next : Nat)
  deriving DecidableEq, Repr

/-- The debug unit (16_debug_registers.md, 17_debug_management.md). `apbData` and `apbErr` are what the last APB access
answered (PRDATA, PSLVERR; R790); `dscrRead` says that the APB port has read DSCR (R664). -/
structure Debug where
  dscr : Word
  dscrRead : Bool
  rxFullL : Bool
  txFullL : Bool
  instrComplL : Bool
  instrCompl : Bool
  dtrrx : Word
  dtrtx : Word
  wfar : Word
  vcr : Word
  ecr : Word
  dsccr : Word
  itr : Word
  bvr : Vector Word 6
  bcr : Vector Word 6
  wvr : Vector Word 2
  wcr : Vector Word 2
  osLock : Bool
  osSave : OsSaveSeq
  prcr : Word
  prsr : Word
  swLock : Bool
  claim : BitVec 8
  itctrl : Word
  itIoc : Word
  itEoc : Word
  haltReq : Bool
  osUnlockReq : Bool
  restartReq : Bool
  restartPc : Option Word
  apbData : Word
  apbErr : Bool
  deriving DecidableEq, Repr

/-- The cross trigger interface (19_etm_cti.md R942 to R962). -/
structure Cti where
  glben : Bool
  appset : BitVec 4
  inen : Vector (BitVec 4) 9
  outen : Vector (BitVec 4) 9
  gate : BitVec 4
  asicctl : BitVec 6
  outLatch : BitVec 9
  pulse : BitVec 9
  raw : BitVec 9
  dbgEntry : Bool
  /-- Trigger inputs that integration mode keeps asserted until ITTRIGINACK acknowledges them (R962). -/
  inHeld : BitVec 9
  itctrl : Word
  itTriginAck : BitVec 9
  itChout : BitVec 4
  itTrigout : BitVec 9
  claim : BitVec 4
  swLock : Bool
  deriving DecidableEq, Repr

/-- What the integration registers of the ETM hold (19_etm_cti.md R909): whether it is in integration mode, and what ITMISCOUT
and ITTRIGGER drive on EXTOUT and TRIGGER. -/
structure Etm where
  integration : Bool
  extout : BitVec 2
  trigger : Bool
  deriving DecidableEq, Repr

/-- The pins that a reset samples (70_reset_and_hazards.md R2210; D6). -/
structure Straps where
  vinithi : Bool
  cfgte : Bool
  cfgend0 : Bool
  cfgnmfi : Bool
  l1rstdisable : Bool
  l2rstdisable : Bool
  dbgoslockinit : Bool
  cpexist : BitVec 14
  secmonouten : Bool
  a64n128 : Bool
  deriving DecidableEq, Repr

/-- Input pins, true when asserted (23_axi_signals.md R1296, R1297; D6): nIRQ and nFIQ LOW, the others HIGH; `chin` and
`etmOut` are the CTI inputs from the channel interface and the ETM (EXTOUT[0], EXTOUT[1], TRIGGER); `coreUp` and `debugUp`
are the power of the integer core and of the debug domain (63_pmu_power.md R2191; D27). -/
structure Pins where
  irq : Bool
  fiq : Bool
  cp15sdisable : Bool
  dbgen : Bool
  niden : Bool
  spiden : Bool
  spniden : Bool
  edbgrq : Bool
  dbgnoclkstop : Bool
  dbgpwrdwnreq : Bool
  clkstopreq : Bool
  chin : BitVec 4
  etmOut : BitVec 3
  coreUp : Bool
  debugUp : Bool
  straps : Straps
  deriving DecidableEq, Repr

/-- Whether the core runs (63_pmu_power.md R2163, R2185). -/
inductive RunState where
  | running
  | standby
  | clockStopped
  deriving DecidableEq, Repr

/-- The three register files of the APB port (R790). -/
inductive ApbSelect where
  | dbg | cti | etm
  deriving DecidableEq, Repr

/-- The cache arrays. -/
inductive CacheName where
  | l1i | l1d | l2
  deriving DecidableEq, Repr

/-- Why the L2 cache reads a line for the core but for a data access (22_caches.md R1157): an instruction fetch, or the
first-level or second-level descriptor of a table walk. -/
inductive L2Cause where
  | fetch | firstLevel | secondLevel
  deriving DecidableEq, Repr

/-- What an agent other than the core can do between two instructions (log 5): the platform (pins, resets, errors,
other bus masters), the debugger, the caches and TLBs on their own (D18), the preload engine, and units without timing
(D17). `run` lets the core execute one instruction. -/
inductive HostEvent where
  | run
  | setPins (p : Pins)
  | powerOnReset
  | softReset
  | debugReset
  | neonReset
  | setNeon (up : Bool)
  | setBus (regions : List BusRegion)
  | busWrite (ns : Bool) (pa : Word) (b : Byte)
  | injectAbort (slave : Bool)
  | injectParity (l2 : Bool)
  | abortArrives
  | storeArrives (n : Nat)
  | globalMonitor (refuses : Bool)
  | fetchParity (l2 : Bool)
  | walkParity (secondLevel : Bool)
  | within (writes : List (List BusByte))
  | gatherLine (va : Word) (way : Fin 8)
  | allocateL2 (cause : L2Cause) (va : Word) (way : Fin 8)
  | clearExclusive
  | dropTlb (data : Bool) (index : Fin 32)
  | fillTlb (data : Bool) (va : Word)
  | allocate (c : CacheName) (va : Word) (way : Fin 8)
  | dropClean (c : CacheName) (set : Nat) (way : Nat)
  | evict (c : CacheName) (set : Nat) (way : Nat)
  | pleTurn (channel : Fin 2)
  | pleParity (channel : Fin 2)
  | apbRead (sel : ApbSelect) (external : Bool) (reg : BitVec 10)
  | apbWrite (sel : ApbSelect) (external : Bool) (reg : BitVec 10) (data : Word)
  | countEvent (event : BitVec 8) (times : Word)
  deriving DecidableEq, Repr

/-- The whole machine. -/
structure State where
  /-- The OPEN parameters of the build and of the platform (D1, D2, D7); no step changes them. -/
  build : Build
  /-- The 32 physical registers r0 to r14 of all banks (R50); `Machine/Ops.lean` says which is which. -/
  gpr : Vector Word 32
  /-- The address of the instruction being executed (R60). -/
  pc : Word
  cpsr : Word
  /-- SPSR_fiq, _irq, _svc, _mon, _abt, _und (R50), in this order. -/
  spsr : Vector Word 6
  sys : SysRegs
  sec : Banked
  nsec : Banked
  pmu : Pmu
  ple : Ple
  vfp : Vfp
  /-- Physical memory: the key of a byte is its address, plus 2^32 in the Nonsecure space (R1000, log 14). -/
  mem : List Host.Cell
  bus : List BusRegion
  itlb : Vector (Option TlbEntry) 32
  dtlb : Vector (Option TlbEntry) 32
  l1i : List CacheLine
  l1d : List CacheLine
  l2 : List CacheLine
  excl : Option ExclTag
  /-- The global monitor of the platform refuses shareable store-exclusives (20_memory.md R1063, D7), a host input. -/
  exclRefused : Bool
  dbg : Debug
  cti : Cti
  etm : Etm
  pins : Pins
  run : RunState
  /-- Held in internal reset by PRCR[2] (R705). -/
  held : Bool
  abortPending : Option AbortKind
  /-- The error response behind `abortPending` has not come in yet: it does when the platform says so, and by the next DSB at
  the latest (R1937, D20). -/
  abortHeld : Bool
  /-- An MSR or CPS has left Monitor mode with SCR.NS set, and neither an ISB nor an exception entry or return followed
  (R2011). -/
  monitorLeft : Bool
  /-- The next instruction fetch from that cache (`true` the L2 cache, else the L1 instruction cache) meets a parity or ECC
  error (R1185, R1186), a host input. -/
  parityNext : Option Bool
  /-- The L2 cache read of the next descriptor of that level (`true` the second) meets a parity or ECC error (21_mmu.md R1134),
  a host input. -/
  walkParityNext : Option Bool
  /-- MODEL: stores that the table walker or the instruction side may not see yet, the latest first (log 50). -/
  late : List Late
  /-- MODEL: what other bus masters write between the accesses of the instruction to come, one entry for each gap
  (20_memory.md R1046, log 51). -/
  gaps : List (List BusByte)
  /-- MODEL: which of the exactly counted performance events 0x00 to 0x0F (R409) the instruction in progress has made,
  one bit each; cleared when they are counted. -/
  happened : BitVec 16
  /-- MODEL: the number of free values drawn so far (log 3). -/
  draws : Nat
  /-- MODEL: what other agents still do, in order (log 5); empty, the core runs. -/
  schedule : List HostEvent
  deriving DecidableEq, Repr

/-- The banked CP15 registers after a power-on or soft reset with straps `p`
(R2210, R2212); the ones without a stated value hold 0 (log 1). -/
def Banked.reset (p : Straps) : Banked where
  csselr := 0
  sctlr := 0x00C50078 ||| (bit p.cfgte).setWidth 32 <<< 30 ||| (bit p.cfgnmfi).setWidth 32 <<< 27
    ||| (bit p.cfgend0).setWidth 32 <<< 25 ||| (bit p.vinithi).setWidth 32 <<< 13
  l2en := true
  ttbr0 := 0
  ttbr1 := 0
  ttbcr := 0
  dacr := 0
  dfsr := 0
  ifsr := 0
  dfar := 0
  ifar := 0
  par := 0
  prrr := 0x00098AA4
  nmrr := 0x44E048E0
  vbar := 0
  fcse := 0
  contextidr := 0
  tpidrurw := 0
  tpidruro := 0
  tpidrprw := 0

/-- The other system registers after a power-on or soft reset with straps `p` (R2212); the ones without a stated value hold
0 (log 1). The L2 Cache Auxiliary Control Register holds the printed value in every build, though D2 calls it a function of the
build, which is not given (DESIGN CHOICE, log 4). -/
def SysRegs.reset (p : Straps) : SysRegs where
  teecr := 0
  teehbr := 0
  scr := 0
  sder := 0
  nsacr := 0
  cpacr := 0
  actlr := 0
  cpexist := p.cpexist
  mvbar := 0
  l2lock := 0
  l2aux := 0x00000042
  dtlbLock := 0
  itlbLock := 0
  dl1d0 := 0
  dl1d1 := 0
  il1d0 := 0
  il1d1 := 0
  l2d0 := 0
  l2d1 := 0
  l2d2 := 0

/-- The performance monitor after a power-on or soft reset (R2212). -/
def Pmu.reset : Pmu where
  pmnc := 0x41002000
  cnten := 0
  flag := 0
  inten := 0
  useren := 0
  pmnxsel := 0
  ccnt := 0
  pmcnt := Vector.replicate 4 0
  evtsel := Vector.replicate 4 0

/-- A preload channel after a power-on or soft reset: idle (R2212). -/
def PleChannel.reset : PleChannel where
  control := 0
  start := 0
  endr := 0
  ctxid := 0
  status := 0
  secure := false
  irqSecure := false
  irqNonsecure := false
  errIrq := false
  page := none

/-- The preload engine after a power-on or soft reset (R2212). -/
def Ple.reset : Ple where
  userAcc := 0
  chanSel := 0
  chan := Vector.replicate 2 PleChannel.reset

/-- The NEON/VFP unit after a reset of its domain (R2214). -/
def Vfp.reset : Vfp where
  fpscr := 0
  fpexc := 0
  d := Vector.replicate 32 0
  neonUp := true

/-- The debug unit after a power-on reset (R2213); registers without a stated value hold 0 (log 1). -/
def Debug.reset (p : Straps) : Debug where
  dscr := 0x00000002
  dscrRead := false
  rxFullL := false
  txFullL := false
  instrComplL := false
  instrCompl := false
  dtrrx := 0
  dtrtx := 0
  wfar := 0
  vcr := 0
  ecr := 0
  dsccr := 0
  itr := 0
  bvr := Vector.replicate 6 0
  bcr := Vector.replicate 6 0
  wvr := Vector.replicate 2 0
  wcr := Vector.replicate 2 0
  osLock := p.dbgoslockinit
  osSave := .start
  prcr := 0
  prsr := 0x00000002
  swLock := true
  claim := 0
  itctrl := 0
  itIoc := 0
  itEoc := 0
  haltReq := false
  osUnlockReq := false
  restartReq := false
  restartPc := none
  apbData := 0
  apbErr := false

/-- The cross trigger interface after a power-on or debug reset (R2215, R949). -/
def Cti.reset : Cti where
  glben := false
  appset := 0
  inen := Vector.replicate 9 0
  outen := Vector.replicate 9 0
  gate := 0xF
  asicctl := 0
  outLatch := 0
  pulse := 0
  raw := 0
  dbgEntry := false
  inHeld := 0
  itctrl := 0
  itTriginAck := 0
  itChout := 0
  itTrigout := 0
  claim := 0
  swLock := true

/-- The ETM's integration registers after a reset (R2215; log 20). -/
def Etm.reset : Etm where
  integration := false
  extout := 0
  trigger := false

/-- Every strap LOW but those of the default configuration (log 4): CPEXIST[11:10] = 0b11 for NEON (R261) and A64n128 for the
64-bit AXI interface (R1275). -/
def Straps.low : Straps where
  vinithi := false
  cfgte := false
  cfgend0 := false
  cfgnmfi := false
  l1rstdisable := false
  l2rstdisable := false
  dbgoslockinit := false
  cpexist := 0b00110000000000
  secmonouten := false
  a64n128 := true

/-- The default build (D1, D2) on a platform that maps no APB file into the core's space (D7; log 4, log 15). -/
def Build.default : Build where
  revision := .r3p2
  l1Size := .k32
  l2Size := .k256
  l2Parity := false
  hasEtm := true
  hasNeon := true
  apb := ⟨none, none, none, true⟩
  exclGranule := 3

/-- Every input pin inactive (log 19). -/
def Pins.idle : Pins where
  irq := false
  fiq := false
  cp15sdisable := false
  dbgen := false
  niden := false
  spiden := false
  spniden := false
  edbgrq := false
  dbgnoclkstop := false
  dbgpwrdwnreq := false
  clkstopreq := false
  chin := 0
  etmOut := 0
  coreUp := true
  debugUp := true
  straps := Straps.low

/-- CPSR after reset: Supervisor mode, A, I and F set, J clear, T and E from the straps (R98); the other bits are
indeterminate and hold 0 (log 1). -/
def cpsrReset (p : Straps) : Word :=
  0x000001D3 ||| (bit p.cfgte).setWidth 32 <<< 5 ||| (bit p.cfgend0).setWidth 32 <<< 9

/-- The reset vector (R98, R1910). -/
def resetVector (p : Straps) : Word := if p.vinithi then 0xFFFF0000 else 0x00000000

/-- The machine of build `k` right after a power-on reset with straps `p` (70_reset_and_hazards.md R2212 to R2217): nothing
in memory is listed, every TLB is empty, no other pin is asserted, no other agent has anything to do. The caches are empty
too, also where L1RSTDISABLE or L2RSTDISABLE is HIGH and the spec calls their contents arbitrary (D5): DESIGN CHOICE, log 37;
the reset events of `Machine/Agents.lean` give them free contents. -/
def State.resetWith (k : Build) (p : Straps) : State where
  build := k
  gpr := Vector.replicate 32 0
  pc := resetVector p
  cpsr := cpsrReset p
  spsr := Vector.replicate 6 0
  sys := SysRegs.reset p
  sec := Banked.reset p
  nsec := Banked.reset p
  pmu := Pmu.reset
  ple := Ple.reset
  vfp := Vfp.reset
  mem := []
  bus := []
  itlb := Vector.replicate 32 none
  dtlb := Vector.replicate 32 none
  l1i := []
  l1d := []
  l2 := []
  excl := none
  exclRefused := false
  dbg := Debug.reset p
  cti := Cti.reset
  etm := Etm.reset
  pins := { Pins.idle with straps := p }
  run := .running
  held := false
  abortPending := none
  abortHeld := false
  monitorLeft := false
  parityNext := none
  walkParityNext := none
  late := []
  gaps := []
  happened := 0
  draws := 0
  schedule := []

/-- The machine of the default build right after a power-on reset with the default straps (log 4). -/
def State.reset : State := State.resetWith Build.default Straps.low

end Sys2Proof.Machine
end

