-- ==== Sys2Proof/Machine/Identity.lean ====
section
/-! DEFINITION. What follows from the build: revisions, cache sizes, and the identification registers that report them
(00_scope.md R2, R3, R9; 11_cp15_id.md R169, R182, R184; 16_debug_registers.md R655). -/

namespace Sys2Proof.Machine

/-- Major revision n of rnpm. -/
def Revision.major : Revision → Nat
  | .r1p1 | .r1p2 | .r1p3 | .r1p7 => 1
  | .r2p0 | .r2p1 | .r2p2 | .r2p3 | .r2p5 | .r2p6 => 2
  | .r3p0 | .r3p1 | .r3p2 => 3

/-- Minor revision m of rnpm. -/
def Revision.minor : Revision → Nat
  | .r1p1 | .r2p1 | .r3p1 => 1
  | .r1p2 | .r2p2 | .r3p2 => 2
  | .r1p3 | .r2p3 => 3
  | .r2p5 => 5
  | .r2p6 => 6
  | .r1p7 => 7
  | .r2p0 | .r3p0 => 0

/-- MIDR (R2). -/
def Revision.midr (r : Revision) : Word := 0x410FC080 ||| (BitVec.ofNat 32 r.major <<< 20) ||| BitVec.ofNat 32 r.minor

/-- FPSID, in the row of R2 for the revision (log 52). -/
def Revision.fpsid (r : Revision) : Word := 0x410330C0 ||| BitVec.ofNat 32 r.major

/-- DIDR (R655): MIDR[23:20] and MIDR[3:0] below the constant fields. -/
def Revision.didr (r : Revision) : Word := 0x15141000 ||| (BitVec.ofNat 32 r.major <<< 4) ||| BitVec.ofNat 32 r.minor

/-- CLKSTOPREQ and ACTLR[19] exist from r2p0 (R3(b)). -/
def Revision.clockStop (r : Revision) : Bool := 2 ≤ r.major

/-- From r3p0 ACTLR[20] exists, and the preload engine cleans and invalidates with DT = 1 (R3(c)); CTI trigger input 0 is a
pulse on debug entry, before that the level DBGTRIGGER, and trigger output 0 is cleared by software (19_etm_cti.md R945;
R3(d) names r3p1 for the input: log 52). -/
def Revision.third (r : Revision) : Bool := r.major == 3

/-- The number of sets of an L1 cache, as a power of two (22_caches.md R1150). -/
def L1Size.log2Sets : L1Size → Nat
  | .k16 => 6
  | .k32 => 7

def L1Size.sets (z : L1Size) : Nat := 2 ^ z.log2Sets

/-- The number of sets of the L2 cache, as a power of two (R1150); without an L2 cache 0. -/
def L2Size.log2Sets : L2Size → Nat
  | .k0 => 0
  | .k128 => 8
  | .k256 => 9
  | .k512 => 10
  | .k1024 => 11

def L2Size.sets (z : L2Size) : Nat := 2 ^ z.log2Sets

/-- There is an L2 cache (R1153). -/
def Build.hasL2 (k : Build) : Bool := k.l2Size != .k0

/-- CCSIDR of the L1 data cache (R184). -/
def L1Size.ccsidrData : L1Size → Word
  | .k16 => 0xE007E01A
  | .k32 => 0xE00FE01A

/-- CCSIDR of the L1 instruction cache (R184). -/
def L1Size.ccsidrInstr : L1Size → Word
  | .k16 => 0x2007E01A
  | .k32 => 0x200FE01A

/-- CCSIDR of the L2 cache (R184). -/
def L2Size.ccsidr : L2Size → Word
  | .k0 => 0xF0000000
  | .k128 => 0xF01FE03A
  | .k256 => 0xF03FE03A
  | .k512 => 0xF07FE03A
  | .k1024 => 0xF0FFE03A

/-- CLIDR (R182). -/
def Build.clidr (k : Build) : Word := if k.hasL2 then 0x0A000023 else 0x0A000003

/-- ID_DFR0 (R169). -/
def Build.idDfr0 (k : Build) : Word := if k.hasEtm then 0x00010400 else 0x00000400

/-- Peripheral ID2 and ID3 of a component (17_debug_management.md R785): the fields that go with the revision as printed for
r3p2, free in other revisions. -/
def Revision.peripheral (r : Revision) (component : Nat) : BitVec 8 :=
  if r = .r3p2 then 0x62 else Config.peripheralRevision component r.major r.minor

def Revision.pid2 (r : Revision) (component : Nat) : Word := ((r.peripheral component).extractLsb' 4 4 ++ 0xB#4).setWidth 32
def Revision.pid3 (r : Revision) (component : Nat) : Word := ((r.peripheral component).extractLsb' 0 4 ++ 0#4).setWidth 32

end Sys2Proof.Machine
end

