-- ==== Sys2Proof/Machine/Ops.lean ====
section
/-! DEFINITION. The named operations over the registers, the status registers and physical memory; taking an exception,
and the return from one. -/

namespace Sys2Proof.Machine

/-! ## Bit fields -/

/-- `w` with the field of `v`'s width at bit `lo` replaced by `v`. -/
def setBits {n : Nat} (w : Word) (lo : Nat) (v : BitVec n) : Word :=
  (w &&& ~~~((BitVec.allOnes n).setWidth 32 <<< lo)) ||| (v.setWidth 32 <<< lo)

/-- `w` with bit `i` replaced by `b`. -/
def setBit (w : Word) (i : Nat) (b : Bool) : Word := setBits w i (bit b)

/-- `old` with the bits of `mask` taken from `v`. -/
def mergeBits (old v mask : Word) : Word := (old &&& ~~~mask) ||| (v &&& mask)

/-! ## Modes and security (10_state.md R53, R55) -/

def Mode.bits : Mode → BitVec 5
  | .usr => 0b10000
  | .fiq => 0b10001
  | .irq => 0b10010
  | .svc => 0b10011
  | .mon => 0b10110
  | .abt => 0b10111
  | .und => 0b11011
  | .sys => 0b11111

/-- The mode a value of CPSR.M selects; none for the values R56 excludes. -/
def Mode.ofBits (m : BitVec 5) : Option Mode :=
  match m.toNat with
  | 16 => some .usr
  | 17 => some .fiq
  | 18 => some .irq
  | 19 => some .svc
  | 22 => some .mon
  | 23 => some .abt
  | 27 => some .und
  | 31 => some .sys
  | _ => none

/-- The bank that holds r13 and r14 of a mode. -/
def Mode.bankNo : Mode → Nat
  | .usr => 0
  | .sys => 0
  | .fiq => 1
  | .irq => 2
  | .svc => 3
  | .abt => 4
  | .und => 5
  | .mon => 6

/-- Which SPSR a mode has, in the order of `State.spsr`; none in User and System mode. -/
def Mode.spsrNo : Mode → Option (Fin 6)
  | .usr => none
  | .sys => none
  | .fiq => some 0
  | .irq => some 1
  | .svc => some 2
  | .mon => some 3
  | .abt => some 4
  | .und => some 5

/-- The mode in which the core runs. A value that is no mode counts as User mode; no step leads to one (R56). -/
def State.mode (s : State) : Mode := (Mode.ofBits (s.cpsr.extractLsb' 0 5)).getD .usr

/-- A privileged mode (R53). -/
def State.privileged (s : State) : Bool := s.mode != .usr

/-- The Secure state (R55). -/
def State.secure (s : State) : Bool := !s.sys.scr.getLsbD 0 || s.mode == .mon

/-- The banked CP15 registers of a security state. -/
def State.bank (s : State) (secure : Bool) : Banked := if secure then s.sec else s.nsec

def State.setBank (s : State) (secure : Bool) (b : Banked) : State :=
  if secure then { s with sec := b } else { s with nsec := b }

/-- The banked registers in force for the core's own accesses. -/
def State.cur (s : State) : Banked := s.bank s.secure

/-- In debug state (62_debug_events.md R2080). -/
def State.halted (s : State) : Bool := s.dbg.dscr.getLsbD 0

/-! ## Free values (log 3) and performance events (R409) -/

/-- The next free value; `drawn` uses it up. -/
def State.draw (s : State) : Word := Config.freeWord s.draws

def State.drawn (s : State) : State := { s with draws := s.draws + 1 }

/-- Record that one of the events 0x00 to 0x0F has happened. Events 0x01 and 0x02, which the model does not count exactly, mark
an instruction that does not retire: 0x01 where it took a precise abort, so that it is open whether it counts for 0x06 to 0x08
(63_pmu_power.md R2153), 0x02 where it was Undefined. -/
def State.note (s : State) (event : Nat) : State :=
  { s with happened := s.happened ||| BitVec.twoPow 16 event }

/-! ## General registers -/

/-- Where register `n` of mode `m` is kept (R53): r0 to r7, r8 to r12, r8 to r12 of FIQ, then the seven r13 and the
seven r14. Register 15 is not kept there. -/
def physReg (m : Mode) (n : BitVec 4) : Fin 32 :=
  let k := n.toNat
  if k < 8 then Fin.ofNat 32 k
  else if k < 13 then Fin.ofNat 32 (if m = .fiq then k + 5 else k)
  else if k = 13 then Fin.ofNat 32 (18 + m.bankNo)
  else Fin.ofNat 32 (25 + m.bankNo)

/-- Register `n` of mode `m`, for `n` below 15. -/
def State.regOf (s : State) (m : Mode) (n : BitVec 4) : Word := s.gpr[physReg m n]

def State.setRegOf (s : State) (m : Mode) (n : BitVec 4) (v : Word) : State :=
  { s with gpr := s.gpr.set (physReg m n) v (physReg m n).isLt }

/-- Register `n` as an operand: r15 reads as the address of the instruction plus 8 (R61). -/
def State.reg (s : State) (n : BitVec 4) : Word := if n = 15 then s.pc + 8 else s.regOf s.mode n

/-- Write register `n` below 15 in the current mode; writes of r15 are branches, and this one does nothing. -/
def State.setReg (s : State) (n : BitVec 4) (v : Word) : State := if n = 15 then s else s.setRegOf s.mode n v

/-- The SPSR of the current mode; none in User and System mode (R53). -/
def State.spsr? (s : State) : Option Word := s.mode.spsrNo.map fun i => s.spsr[i]

def State.setSpsr (s : State) (m : Mode) (v : Word) : State :=
  match m.spsrNo with
  | none => s
  | some i => { s with spsr := s.spsr.set i v i.isLt }

/-! ## The program counter -/

/-- Go on to the next ARM instruction (R62). In debug state the pc is frozen (62_debug_events.md R2083). -/
def State.advance (s : State) : State := if s.halted then s else { s with pc := s.pc + 4 }

/-- A branch that stays in ARM state (42_data_processing.md R1603 BranchWritePC); event 0x0C. -/
def State.branchTo (s : State) (target : Word) : State := { s.note 0x0C with pc := target &&& 0xFFFFFFFC }

/-- The mask of an instruction address in the current state. -/
def State.pcMask (s : State) : Word := if s.cpsr.getLsbD 5 then 0xFFFFFFFE else 0xFFFFFFFC

/-- In debug state a write of the PC is where a restart begins, and reads of r15 are open (62_debug_events.md R2083). -/
def State.setRestart (s : State) (v : Word) : State :=
  { s.drawn with pc := s.draw, dbg := { s.dbg with restartPc := some (v &&& s.pcMask) } }

/-- An instruction other than a data-processing instruction or a load writes its result to r15 (R63): a branch, in debug state
a restart address. -/
def State.writePC (s : State) (v : Word) : State := if s.halted then s.setRestart v else s.branchTo v

/-- A branch that may change to Thumb state (R63, R1603 BXWritePC). -/
def bxTo (s : State) (target : Word) : Host.Outcome State Fault Refusal :=
  if target.getLsbD 0 then
    .next { s.note 0x0C with pc := target &&& 0xFFFFFFFE, cpsr := setBit s.cpsr 5 true }
  else if target.getLsbD 1 then .fault .pcAlignment
  else .next { s.note 0x0C with pc := target }

/-! ## Physical memory (20_memory.md R1000) -/

/-- The key of a byte in `State.mem` (log 14). -/
def memKey (ns : Bool) (pa : Word) : Nat := pa.toNat + if ns then 2 ^ 32 else 0

/-- What a byte that is not listed reads as (log 2). -/
def unlistedByte : Byte := 0

/-- The byte at a key. -/
def memRead : List Host.Cell → Nat → Byte
  | [], _ => unlistedByte
  | (k, b) :: m, key => if k = key then b else memRead m key

/-- Store a byte, keeping the canonical form: keys rising, no entry that equals an unlisted byte. -/
def memWrite : List Host.Cell → Nat → Byte → List Host.Cell
  | [], key, v => if v = unlistedByte then [] else [(key, v)]
  | (k, b) :: m, key, v =>
    if key < k then (if v = unlistedByte then (k, b) :: m else (key, v) :: (k, b) :: m)
    else if key = k then (if v = unlistedByte then m else (key, v) :: m)
    else (k, b) :: memWrite m key v

/-- The canonical form, for keys from `lo` on. -/
def Memory.wfFrom : Nat → List Host.Cell → Bool
  | _, [] => true
  | lo, (k, b) :: m => decide (lo ≤ k) && b != unlistedByte && Memory.wfFrom (k + 1) m

/-- The canonical form of `State.mem`: keys strictly rising, no entry equal to what an unlisted byte reads as. -/
def Memory.wf (m : List Host.Cell) : Bool := Memory.wfFrom 0 m

/-! ## Late stores (20_memory.md R1041, R1043; log 50) -/

/-- A late store reaches the table walker. -/
def Late.arrived (l : Late) : Late :=
  { l with stage := if l.stage = .pending then .arrived else l.stage, gathers := false }

/-- A late store is complete. -/
def Late.completed (l : Late) : Late := { l with stage := .complete, gathers := false }

/-- A Strongly ordered access is complete after the stores before it (R1041). -/
def State.drainStores (s : State) : State := { s with late := s.late.map Late.arrived }

/-- A DSB completes the stores before it (R1041, R1043); the error responses to accesses before it have come in
(60_exceptions.md R1937). -/
def State.completed (s : State) : State := { s with late := s.late.map Late.completed, abortHeld := false }

/-- The late stores after a flush of the pipeline: what complete ones have replaced is fetched anew (R1043). -/
def State.unflushed (s : State) : List Late := s.late.filter fun l => l.stage != .complete

/-! ## Debug state and debug permission (17_debug_management.md R800; 62_debug_events.md) -/

/-- Invasive debug is permitted in the current state and mode (R800). -/
def State.invasivePermitted (s : State) : Bool :=
  s.pins.dbgen && (!s.secure || s.pins.spiden || (s.mode == .usr && s.sys.sder.getLsbD 0))

/-- Noninvasive debug is permitted in the current state and mode (R800). -/
def State.noninvasivePermitted (s : State) : Bool :=
  (s.pins.dbgen || s.pins.niden) &&
    (!s.secure || s.pins.spiden || s.pins.spniden || (s.mode == .usr && s.sys.sder.getLsbD 1))

/-- What a software debug event other than BKPT leads to. -/
inductive DebugResponse where
  | ignored | halts | raises
  deriving DecidableEq, Repr

/-- Table 12-52 with the permission of R2054. -/
def State.debugResponse (s : State) : DebugResponse :=
  if !s.invasivePermitted then .ignored
  else if s.dbg.dscr.getLsbD 14 then .halts
  else if s.dbg.dscr.getLsbD 15 then .raises
  else .ignored

/-- Record why a debug event happened (DSCR[5:2], R665). -/
def State.setEntry (s : State) (code : BitVec 4) : State :=
  { s with dbg := { s.dbg with dscr := setBits s.dbg.dscr 2 code } }

/-- Enter debug state (R2081, R2085, R2053): after an implicit DSB, no register but those of the debug unit changes. The cross
trigger interface sees the entry (19_etm_cti.md R942), which before r3 clears its request (R945). `pc` is kept so that r15 reads
as R2082 says, 4 beyond a Thumb instruction. The core's clock runs again in debug state; with CLKSTOPREQ HIGH it stays acknowledged
(63_pmu_power.md R2185). -/
def State.enterDebug (s : State) (code : BitVec 4) : State :=
  let dscr := setBit (setBit (setBits s.dbg.dscr 2 code) 0 true) 19 true
  { s.completed with
    dbg := { s.dbg with
      dscr := dscr, instrCompl := true, haltReq := false, osUnlockReq := false, restartPc := none }
    cti := { s.cti with
      dbgEntry := true
      outLatch := if s.build.revision.third then s.cti.outLatch else s.cti.outLatch &&& 0x100 }
    pc := if s.cpsr.getLsbD 5 then s.pc - 4 else s.pc
    run := if s.run = .clockStopped then .clockStopped else .running }

/-! ## Taking an exception (60_exceptions.md R1905 to R1912) -/

/-- The exceptions other than Reset. -/
inductive Exc where
  | undefined | svc | smc | prefetchAbort | dataAbort | irq | fiq
  deriving DecidableEq, Repr

/-- The mode entered when the exception is not routed to Monitor mode (R1900). -/
def Exc.mode : Exc → Mode
  | .undefined => .und
  | .svc => .svc
  | .smc => .mon
  | .prefetchAbort => .abt
  | .dataAbort => .abt
  | .irq => .irq
  | .fiq => .fiq

/-- The vector offset (R1900). -/
def Exc.offset : Exc → Word
  | .undefined => 0x04
  | .svc => 0x08
  | .smc => 0x08
  | .prefetchAbort => 0x0C
  | .dataAbort => 0x10
  | .irq => 0x18
  | .fiq => 0x1C

/-- The exceptions whose entry sets CPSR.A in any mode (R1905 step 7). -/
def Exc.setsA : Exc → Bool
  | .undefined => false
  | .svc => false
  | .smc => false
  | .prefetchAbort => true
  | .dataAbort => true
  | .irq => true
  | .fiq => true

/-- CPSR after an entry to mode `tm` (R1905 steps 4 and 7), where `sctlr` is the copy of the state entered. -/
def entryCpsr (cpsr : Word) (tm : Mode) (setA setF : Bool) (sctlr : Word) : Word :=
  let c := setBits cpsr 0 tm.bits
  let c := setBit c 7 true
  let c := if setF then setBit c 6 true else c
  let c := if setA then setBit c 8 true else c
  let c := setBit c 5 (sctlr.getLsbD 30)
  let c := setBit c 24 false
  let c := setBit c 9 (sctlr.getLsbD 25)
  setBits (setBits c 10 (0 : BitVec 6)) 25 (0 : BitVec 2)

/-- The vector base of R1910 for an exception other than Reset: `b` holds the registers of the state entered. -/
def vectorBase (s : State) (tm : Mode) (b : Banked) : Word :=
  if tm = .mon then s.sys.mvbar &&& 0xFFFFFFE0
  else if b.sctlr.getLsbD 13 then 0xFFFF0000
  else b.vbar &&& 0xFFFFFFE0

/-- Take exception `x`, routed to Monitor mode or not, with link value `link` (R1905, R1906, R1910). The pipeline is flushed
(70_reset_and_hazards.md R2240). -/
def takeException (x : Exc) (routed : Bool) (link : Word) (s : State) : State :=
  let tm := if routed then Mode.mon else x.mode
  let scr := if s.mode = .mon then setBit s.sys.scr 0 false else s.sys.scr
  let toSecure := tm == .mon || !scr.getLsbD 0
  let b := s.bank toSecure
  let mon := tm == .mon
  let s' := (s.setSpsr tm s.cpsr).setRegOf tm 14 link
  { s'.note 0x09 with
    cpsr := entryCpsr s.cpsr tm (x.setsA || mon) (x == .fiq || mon) b.sctlr
    sys := { s.sys with scr := scr }
    pc := vectorBase s tm b + x.offset
    late := s.unflushed
    monitorLeft := false }

/-- The Undefined Instruction exception (R1930). In debug state only DSCR[8] is set (62_debug_events.md R2096). -/
def takeUndefined (s : State) : State :=
  if s.halted then { s.note 0x02 with dbg := { s.dbg with dscr := setBit s.dbg.dscr 8 true } }
  else takeException .undefined false (s.pc + 4) (s.note 0x02)

/-- Supervisor Call (R1927); ignored in debug state (R2096). -/
def takeSvc (s : State) : State := if s.halted then s else takeException .svc false (s.pc + 4) s

/-- Secure Monitor Call (R1928); ignored in debug state (R2096). -/
def takeSmc (s : State) : State := if s.halted then s else takeException .smc true (s.pc + 4) s

/-! ## Aborts (60_exceptions.md R1935 to R1946) -/

/-- What an abort reports: the modified virtual address, whether the access was a write, the status code {[10],[3:0]},
the domain where it is defined, whether the cause is external (and then DECERR or SLVERR). `maint` marks an
instruction-side maintenance operation (R1945), `watch` a watchpoint (R2056), for which the other fields say nothing. -/
structure Abort where
  mva : Word
  write : Bool
  status : BitVec 5
  domain : Option (BitVec 4)
  external : Bool
  slave : Bool
  maint : Bool
  watch : Bool
  deriving DecidableEq, Repr

/-- A fault status register value (R1940, R1941). -/
def faultStatus (status : BitVec 5) (write slave : Bool) (domain : BitVec 4) : Word :=
  0#19 ++ bit slave ++ bit write ++ status.extractLsb' 4 1 ++ 0#2 ++ domain ++ status.extractLsb' 0 4

/-- An abort goes to Monitor mode when its cause is external and SCR.EA is set (R1912). -/
def State.abortRouted (s : State) (a : Abort) : Bool := a.external && s.sys.scr.getLsbD 3

/-- Write DFSR and DFAR (and IFSR for an instruction-side maintenance operation) of R1940, R1945, R1946. -/
def recordDataFault (a : Abort) (s : State) : State :=
  let secure := s.abortRouted a || s.secure
  let b := s.bank secure
  let domain := a.domain.getD (s.draw.setWidth 4)
  let code := if a.maint then 0b00100 else a.status
  let ifsr := if a.maint then faultStatus a.status false a.slave 0 else b.ifsr
  s.drawn.setBank secure
    { b with dfsr := faultStatus code a.write (a.slave && !a.maint) domain, dfar := a.mva, ifsr := ifsr }

/-- A watchpoint event (62_debug_events.md R2056, R2072, R2075, R2081): a precise Data Abort, or debug state. The instruction
that it cancels counts for the performance monitor as one that took a precise abort, also where debug state is entered
(log 21). -/
def takeWatchpoint (write : Bool) (s : State) : State :=
  let s' := { s.note 0x01 with dbg := { s.dbg with wfar := s.pc + 8 } }
  match s.debugResponse with
  | .ignored => s
  | .halts => s'.enterDebug 0b1010
  | .raises =>
    let b := s.bank s.secure
    let s' := (s'.setEntry 0b1010).drawn.drawn.setBank s.secure
      { b with dfsr := faultStatus 0b00010 write false (s.draw.setWidth 4), dfar := s.drawn.draw }
    takeException .dataAbort false (s.pc + 8) s'

/-- A precise Data Abort (R1936, R1940). In debug state the fault registers and DSCR[6] are written and nothing else
happens (62_debug_events.md R2096). -/
def takeDataAbort (a : Abort) (s : State) : State :=
  if a.watch then takeWatchpoint a.write s
  else
    let s' := recordDataFault a s
    if s.halted then { s'.note 0x01 with dbg := { s'.dbg with dscr := setBit s'.dbg.dscr 6 true } }
    else takeException .dataAbort (s.abortRouted a) (s.pc + 8) (s'.note 0x01)

/-- A Prefetch Abort (R1931, R1941). -/
def takePrefetchAbort (a : Abort) (s : State) : State :=
  let secure := s.abortRouted a || s.secure
  let b := s.bank secure
  takeException .prefetchAbort (s.abortRouted a) (s.pc + 4)
    ((s.note 0x01).setBank secure { b with ifsr := faultStatus a.status false a.slave 0, ifar := a.mva &&& 0xFFFFFFFE })

/-- The Prefetch Abort of a debug event: IFSR says debug event, IFAR holds a free value but for bit [0] (62_debug_events.md R2070,
R2075). For the performance monitor the instruction has taken a precise abort (log 21). -/
def takeDebugException (code : BitVec 4) (s : State) : State :=
  let b := s.cur
  takeException .prefetchAbort false (s.pc + 4)
    (((s.note 0x01).setEntry code).drawn.setBank s.secure { b with
      ifsr := faultStatus 0b00010 false false 0, ifar := s.draw &&& 0xFFFFFFFE })

/-- A pending imprecise abort is taken (R1937, R1943, R1944): RW, Domain and DFAR hold free values. -/
def takeImpreciseAbort (k : AbortKind) (s : State) : State :=
  let routed := match k with
    | .external _ => s.sys.scr.getLsbD 3
    | .parity => false
  let slave := match k with
    | .external sd => sd
    | .parity => false
  let code : BitVec 5 := match k with
    | .external _ => 0b10110
    | .parity => 0b11000
  let secure := routed || s.secure
  let b := s.bank secure
  let v := s.draw
  let s' := s.drawn.drawn.setBank secure
    { b with dfsr := faultStatus code (v.getLsbD 11) slave (v.extractLsb' 4 4), dfar := s.drawn.draw }
  takeException .dataAbort routed (s.pc + 8) { s' with abortPending := none, abortHeld := false }

/-- An imprecise abort becomes pending; when its error response comes in is open (R1937). One that already is keeps one of the
two types (R1938, D20). In debug state it only sets DSCR[7] (62_debug_events.md R2096, R2098). -/
def State.pendAbort (s : State) (k : AbortKind) : State :=
  if s.halted then { s with dbg := { s.dbg with dscr := setBit s.dbg.dscr 7 true } }
  else match s.abortPending with
    | none => { s.drawn with abortPending := some k, abortHeld := s.draw.getLsbD 1 }
    | some old => { s.drawn with abortPending := some (if s.draw.getLsbD 0 then k else old) }

/-! ## Writes of CPSR by instructions (10_state.md R73 to R77) -/

/-- DBGEN and SPIDEN, which rules the debugger's rights in Secure state. -/
def State.secureDebug (s : State) : Bool := s.pins.dbgen && s.pins.spiden

/-- The privileged bits of CPSR may be written: in a privileged mode, and in debug state also from User mode unless
Secure debug is off (62_debug_events.md R2089). -/
def State.mayWritePrivileged (s : State) : Bool :=
  s.privileged || (s.halted && (!s.secure || s.secureDebug))

/-- CPSR.M may be written with Monitor mode (R77; in debug state R2089). -/
def State.mayEnterMonitor (s : State) : Bool :=
  s.secure || (s.halted && s.secureDebug)

/-- CPSR.A may be written (R73); in debug state the table of R2089 permits it. -/
def State.mayWriteA (s : State) : Bool := s.secure || s.sys.scr.getLsbD 5 || s.halted

/-- CPSR.F may be given the value `v` (R74). -/
def State.mayWriteF (s : State) (v : Bool) : Bool :=
  (s.secure || s.sys.scr.getLsbD 4 || s.halted) && (!s.cur.sctlr.getLsbD 27 || !v)

/-- What CPSR.M becomes when an instruction writes `m` to it: Monitor mode from a state that may not enter it leaves it
as it was (R77, D9), a value that is no mode is Unpredictable (R56). -/
def State.newModeBits (s : State) (m : BitVec 5) : Option (BitVec 5) :=
  match Mode.ofBits m with
  | none => none
  | some .mon => some (if s.mayEnterMonitor then m else s.cpsr.extractLsb' 0 5)
  | some _ => some m

/-- An MSR or CPS that leaves Monitor mode with SCR.NS set: the instructions up to the next ISB or exception entry or return
are Unpredictable (61_security_privilege.md R2011). -/
def State.afterModeChange (before s : State) : State :=
  if before.mode = .mon ∧ s.mode ≠ .mon ∧ s.sys.scr.getLsbD 0 ∧ !s.halted then { s with monitorLeft := true } else s

/-- An ISB flushes the pipeline (20_memory.md R1043), and a change from Monitor mode is complete (R2011). -/
def State.synchronized (s : State) : State := { s with late := s.unflushed, monitorLeft := false }

/-! ## Return from an exception (60_exceptions.md R1915, R1916) -/

/-- A value for CPSR with the execution state bits that ARM state has: with T clear, J and IT are clear too (10_state.md R52,
R68, R69). -/
def stateBits (c : Word) : Word := if c.getLsbD 5 then c else c &&& 0xF8FF03FF

/-- CPSR as an exception return writes it from the source word `v`, once M is decided. -/
def returnCpsr (s : State) (v : Word) (m : BitVec 5) : Word :=
  let c := setBits (stateBits v) 0 m
  let c := if s.mayWriteA then c else setBit c 8 (s.cpsr.getLsbD 8)
  let f := v.getLsbD 6
  if (s.secure || s.sys.scr.getLsbD 4) && (!s.cur.sctlr.getLsbD 27 || !f || s.cpsr.getLsbD 6) then c
  else setBit c 6 (s.cpsr.getLsbD 6)

/-- Return from an exception with the saved status `v` to `target`; events 0x0A and 0x0C. The pipeline is flushed
(70_reset_and_hazards.md R2240). -/
def exceptionReturn (s : State) (v target : Word) : Host.Outcome State Fault Refusal :=
  match s.newModeBits (v.extractLsb' 0 5) with
  | none => .fault .illegalMode
  | some m =>
    if v.getLsbD 24 && !v.getLsbD 5 then .fault .jazelleState
    else
      let mask : Word := if v.getLsbD 5 then 0xFFFFFFFE else 0xFFFFFFFC
      .next { (s.note 0x0A).note 0x0C with
        cpsr := returnCpsr s v m, pc := target &&& mask, late := s.unflushed, monitorLeft := false }

end Sys2Proof.Machine
end

