-- ==== Sys2Proof/Machine/Caches.lean ====
section
/-! DEFINITION. Physical accesses of one byte through the caches and the bus (22_caches.md R1150 to R1161). -/

namespace Sys2Proof.Machine

/-- Which caches an access may use, whether they hold its stores back (R1155, R1160, R1161), and whether stores that fill a
whole line may make an L2 line of it (R1168). -/
structure Route where
  l1 : Bool
  l2 : Bool
  l1Back : Bool
  l2Back : Bool
  gathers : Bool
  deriving DecidableEq, Repr

def CachePolicy.cacheable : CachePolicy → Bool
  | .nonCacheable => false
  | _ => true

def CachePolicy.back : CachePolicy → Bool
  | .writeBack => true
  | .writeBackAllocate => true
  | _ => false

/-- Cacheability as two bits encode it (20_memory.md R1031, R1032). -/
def policyOf (f : BitVec 2) : CachePolicy :=
  match f.toNat with
  | 0 => .nonCacheable
  | 1 => .writeBackAllocate
  | 2 => .writeThrough
  | _ => .writeBack

/-- The policy the L2 cache observes (L2 Auxiliary Control bit [16], R1161). -/
def State.l2Policy (s : State) (a : MemAttrs) : CachePolicy := if s.sys.l2aux.getLsbD 16 then a.inner else a.outer

/-- Normal memory that is not shareable may be cached (20_memory.md R1030, R1158). -/
def MemAttrs.cached (a : MemAttrs) : Bool := a.typ == .normal && !a.shareable

/-- The L2 cache of a security state is enabled (R1155); a build without one has none to enable (R1153). -/
def State.l2OnIn (s : State) (secure : Bool) : Bool :=
  s.build.hasL2 && (s.bank secure).sctlr.getLsbD 2 && (s.bank secure).l2en

/-- The L2 cache is enabled for the core's own accesses. -/
def State.l2On (s : State) : Bool := s.l2OnIn s.secure

/-- A store sequence that fills a line may allocate it in L2 without an external read: write-back write-allocate memory, and
neither write allocate disable [22] nor write allocate delay disable [24] set (R1168, 13_cp15_maint_pmu.md R435). -/
def State.gathersStores (s : State) (a : MemAttrs) : Bool :=
  s.l2Policy a == .writeBackAllocate && !s.sys.l2aux.getLsbD 22 && !s.sys.l2aux.getLsbD 24

/-- Debug state with DSCCR[2] = 0 makes every store write-through (62_debug_events.md R2107). -/
def State.forcesThrough (s : State) : Bool := s.halted && !s.dbg.dsccr.getLsbD 2

/-- The route of a data access. -/
def State.dataRoute (s : State) (a : MemAttrs) : Route where
  l1 := s.cur.sctlr.getLsbD 2 && a.cached && a.inner.cacheable
  l2 := s.l2On && a.cached && (s.l2Policy a).cacheable
  l1Back := a.inner.back && !s.forcesThrough
  l2Back := (s.l2Policy a).back && !s.forcesThrough
  gathers := s.gathersStores a && !s.forcesThrough

/-- The route of an instruction fetch; `l1` is the L1 instruction cache (R1155, R1160). -/
def State.fetchRoute (s : State) (a : MemAttrs) : Route where
  l1 := s.cur.sctlr.getLsbD 12 && a.cached && a.inner.cacheable
  l2 := s.l2On && a.cached && (s.l2Policy a).cacheable
  l1Back := false
  l2Back := false
  gathers := false

/-! ## Lines -/

def lineTag (pa : Word) : BitVec 26 := pa.extractLsb' 6 26
def lineOffset (pa : Word) : Nat := (pa.extractLsb' 0 6).toNat

/-- The set an address selects in an L1 cache, and in the L2 cache (R1150). -/
def State.l1Set (s : State) (a : Word) : Nat := (lineTag a).toNat % s.build.l1Size.sets
def State.l2Set (s : State) (pa : Word) : Nat := (lineTag pa).toNat % s.build.l2Size.sets

/-- The line of a set that holds a physical address. -/
def findLine (c : List CacheLine) (set : Nat) (ns : Bool) (pa : Word) : Option CacheLine :=
  c.find? fun l => l.set == set && l.tag == lineTag pa && l.ns == ns

def CacheLine.byte (l : CacheLine) (off : Nat) : Byte := l.data.extractLsb' (8 * off) 8

/-- `l` with one byte stored; with `back` its quadword becomes dirty. -/
def CacheLine.store (l : CacheLine) (off : Nat) (b : Byte) (dirty : BitVec 4) : CacheLine :=
  { l with
    data := (l.data &&& ~~~(0xFF#512 <<< (8 * off))) ||| (b.setWidth 512 <<< (8 * off))
    dirty := l.dirty ||| dirty }

/-- A line of a cache with `sets` sets and `ways` ways whose contents are free. -/
def freeLine (sets ways : Nat) (x : Nat × Nat × BitVec 26 × Bool × BitVec 4 × BitVec 2 × BitVec 512) : CacheLine :=
  let (set, way, tag, ns, dirty, policy, data) := x
  ⟨set % sets, way % ways, tag, ns, dirty, policyOf policy, data⟩

/-- A cache array of which the spec says nothing: free contents. -/
def freeArray (sets ways : Nat) (draw : Nat) : List CacheLine := (Config.freeArray draw).map (freeLine sets ways)

/-- After a parity or ECC error in the L1 data cache or the L2 cache both are unpredictable (R1185, R1186). -/
def State.corrupted (s : State) : State :=
  { s.drawn with
    l1d := freeArray s.build.l1Size.sets 4 (3 * s.draws + 1)
    l2 := if s.build.hasL2 then freeArray s.build.l2Size.sets 8 (3 * s.draws + 2) else [] }

/-- Change the line of a set that holds a physical address. -/
def updateLine (c : List CacheLine) (set : Nat) (ns : Bool) (pa : Word) (f : CacheLine → CacheLine) : List CacheLine :=
  c.map fun l => if l.set == set && l.tag == lineTag pa && l.ns == ns then f l else l

/-! ## The bus (D13; log 15) -/

/-- The register file and the register that a physical address selects, where the platform maps one there
(16_debug_registers.md R650, D7). -/
def apbTarget (m : ApbMap) (pa : Word) : Option (ApbSelect × Nat) :=
  let page := pa.extractLsb' 12 20
  let reg := (pa.extractLsb' 2 10).toNat
  if m.debugBase = some page then some (.dbg, reg)
  else if m.ctiBase = some page then some (.cti, reg)
  else if m.etmBase = some page then some (.etm, reg)
  else none

/-- The error the platform answers to an external access, with its kind: true for SLVERR. The APB port takes nothing but loads
and stores of at most a word (`Machine/Access.lean`) and answers SLVERR to all else (log 15). -/
def busError (s : State) (ns : Bool) (pa : Word) (write : Bool) : Option Bool :=
  if (apbTarget s.build.apb pa).isSome then some true
  else (s.bus.find? fun r =>
    r.ns == ns && decide (r.lo ≤ pa.toNat) && decide (pa.toNat ≤ r.hi) && (if write then r.onWrite else r.onRead)).map
      (·.slave)

/-! ## One byte -/

/-- What a read finds: the byte, and whether it came from the bus. -/
structure Found where
  value : Byte
  external : Bool
  deriving DecidableEq, Repr

/-- The byte at L2 or in external memory. -/
def belowL1 (s : State) (l2 : Bool) (ns : Bool) (pa : Word) : Found :=
  match (if l2 then findLine s.l2 (s.l2Set pa) ns pa else none) with
  | some l => ⟨l.byte (lineOffset pa), false⟩
  | none => ⟨memRead s.mem (memKey ns pa), true⟩

/-- Read one byte on the data side: the innermost enabled cache that holds the line, else memory (R1150). -/
def readByte (s : State) (r : Route) (ns : Bool) (pa : Word) : Found :=
  match (if r.l1 then findLine s.l1d (s.l1Set pa) ns pa else none) with
  | some l => ⟨l.byte (lineOffset pa), false⟩
  | none => belowL1 s r.l2 ns pa

/-! ## Stores that other observers may not see yet (20_memory.md R1041, R1043; log 50) -/

/-- What a late store found at an address, if it wrote there. -/
def Late.found (l : Late) (ns : Bool) (pa : Word) : Option LateByte := l.bytes.find? fun b => b.ns == ns && b.pa == pa

/-- What an observer sees at an address where memory and the caches hold `b`, if it misses the late stores that a test selects,
which sees their places from the earliest on: what the latest store it does not miss has left. -/
def seenByte (misses : Nat → Late → Bool) (ns : Bool) (pa : Word) : List Late → Byte → Byte
  | [], b => b
  | l :: ls, b =>
    match l.found ns pa with
    | none => seenByte misses ns pa ls b
    | some w => if misses ls.length l then seenByte misses ns pa ls w.old else b

/-- The stores that the table walker misses (R1041). -/
def walkerMisses (_ : Nat) (l : Late) : Bool := l.stage == .pending

/-- A free choice among the late stores, the earliest first: what a fetch for execution misses (R1043), or what a reset loses. -/
def State.lateChoice (s : State) (i : Nat) (_ : Late) : Bool := (Config.freeWord (s.draws + i)).getLsbD 0

/-- The free values of that choice are used up. -/
def State.lateChosen (s : State) : State := { s with draws := s.draws + s.late.length }

/-- The bytes change together, late for some observer, if one could tell or the store may be gathered. -/
def State.makeLate (s : State) (bytes : List LateByte) (stage : LateStage) (gathers onBus : Bool) : State :=
  if !gathers && bytes.all fun b => b.old == b.new then s
  else { s with late := ⟨bytes, stage, gathers, onBus, 0⟩ :: s.late }

/-- Late store `n` reaches the table walker, unless a DMB keeps it behind one that has not (R1041). -/
def State.storeArrives (n : Nat) (s : State) : State :=
  { s with late := s.late.modify n fun l =>
      if s.late.any fun k => k.stage == .pending && decide (l.fences < k.fences) then l else l.arrived }

/-- A DMB ends the gathering of the stores before it (R1168), which reach memory before those after it (R1041). -/
def State.fenceStores (s : State) : State :=
  { s with late := s.late.map fun l => { l with gathers := false, fences := l.fences + 1 } }

/-- Read one byte below L1 for the table walker, which misses the stores that have not arrived. -/
def walkByte (s : State) (l2 : Bool) (ns : Bool) (pa : Word) : Found :=
  let f := belowL1 s l2 ns pa
  { f with value := seenByte walkerMisses ns pa s.late f.value }

/-- Read one byte on the instruction side: the L1 instruction cache is indexed by the virtual address (R1172). -/
def fetchByte (s : State) (r : Route) (va : Word) (ns : Bool) (pa : Word) : Found :=
  match (if r.l1 then findLine s.l1i (s.l1Set va) ns pa else none) with
  | some l => ⟨l.byte (lineOffset pa), false⟩
  | none => belowL1 s r.l2 ns pa

/-- Read one byte for execution: the prefetch buffer may still hold what a late store has replaced. -/
def prefetched (s : State) (r : Route) (va : Word) (ns : Bool) (pa : Word) : Found :=
  let f := fetchByte s r va ns pa
  { f with value := seenByte s.lateChoice ns pa s.late f.value }

/-- The address of byte `i` of a line. -/
def CacheLine.addr (l : CacheLine) (i : Nat) : Word := (l.tag ++ 0#6) + BitVec.ofNat 32 i

/-- Record where what the instruction side finds below L1 at the addresses of a line has become another value between
`before` and `s`: the prefetch buffer may still hold the old one (R1043). -/
def fetchChanged (l : CacheLine) (before s : State) : State :=
  s.makeLate ((List.range 64).map fun i =>
    ⟨l.ns, l.addr i, (belowL1 before before.l2On l.ns (l.addr i)).value, (belowL1 s s.l2On l.ns (l.addr i)).value⟩)
    .arrived false false

/-- Drop the lines of the L1 instruction cache that a test selects; the prefetch buffer may still hold their bytes. -/
def dropL1i (gone : CacheLine → Bool) (s : State) : State :=
  (s.l1i.filter gone).foldl (fun s l => s.makeLate ((List.range 64).map fun i =>
    ⟨l.ns, l.addr i, l.byte i, (belowL1 s s.l2On l.ns (l.addr i)).value⟩) .arrived false false)
    { s with l1i := s.l1i.filter fun l => !gone l }

/-- Where a write stops: in the L1 data cache, in the L2 cache, or on the bus. -/
inductive Reach where
  | l1 | l2 | bus
  deriving DecidableEq, Repr

/-- The innermost cache that holds a written line back keeps the write; else it goes on to the bus (R1160). -/
def writeReach (s : State) (r : Route) (ns : Bool) (pa : Word) : Reach :=
  if r.l1 && r.l1Back && (findLine s.l1d (s.l1Set pa) ns pa).isSome then .l1
  else if r.l2 && r.l2Back && (findLine s.l2 (s.l2Set pa) ns pa).isSome then .l2
  else .bus

/-- Write one byte in the L1 data cache, if it holds the line. -/
def writeL1 (s : State) (back : Bool) (ns : Bool) (pa : Word) (b : Byte) : State :=
  { s with l1d := updateLine s.l1d (s.l1Set pa) ns pa fun l => l.store (lineOffset pa) b (if back then 0xF else 0) }

/-- Write one byte in the L2 cache, if it holds the line; dirty bits are per quadword (R1154). -/
def writeL2 (s : State) (back : Bool) (ns : Bool) (pa : Word) (b : Byte) : State :=
  { s with l2 := updateLine s.l2 (s.l2Set pa) ns pa fun l =>
      l.store (lineOffset pa) b (if back then 1#4 <<< (lineOffset pa / 16) else 0) }

/-- Write one byte in external memory, seen by all at once. -/
def writeMem (s : State) (ns : Bool) (pa : Word) (b : Byte) : State :=
  { s with mem := memWrite s.mem (memKey ns pa) b }

/-- Write one byte on the data side: it updates each cache of the route that holds the line, down to where it stops
(R1160). -/
def writeByte (s : State) (r : Route) (ns : Bool) (pa : Word) (b : Byte) : State :=
  let reach := writeReach s r ns pa
  let s1 := if r.l1 then writeL1 s r.l1Back ns pa b else s
  let s2 := if r.l2 && reach != .l1 then writeL2 s1 r.l2Back ns pa b else s1
  if reach == .bus then writeMem s2 ns pa b else s2

/-- Another bus master writes a byte of memory: a fetch may still have the old one in the prefetch buffer (R1043). -/
def busWrite (s : State) (w : BusByte) : State :=
  writeMem (s.makeLate [⟨w.ns, w.pa, memRead s.mem (memKey w.ns w.pa), w.value⟩] .arrived false false) w.ns w.pa w.value

/-- Put back a byte of a store as an observer sees it who misses the late stores a test selects: in the L2 cache where it holds
the line, and in memory if that has the store. -/
def undoByte (misses : Nat → Late → Bool) (onBus : Bool) (s : State) (b : LateByte) : State :=
  let seen := seenByte misses b.ns b.pa s.late
  let t := if onBus then writeMem s b.ns b.pa (seen (memRead s.mem (memKey b.ns b.pa))) else s
  { t with l2 := updateLine t.l2 (t.l2Set b.pa) b.ns b.pa fun l =>
      l.store (lineOffset b.pa) (seen (l.byte (lineOffset b.pa))) 0 }

/-- A reset comes before stores that are on their way: a free choice of those that have not arrived is lost
(70_reset_and_hazards.md R2216; log 50). -/
def State.loseStores (s : State) : State :=
  let misses (i : Nat) (l : Late) : Bool := walkerMisses i l && s.lateChoice i l
  ((s.late.filter (walkerMisses 0)).foldl (fun t l => l.bytes.foldl (undoByte misses l.onBus) t) s).lateChosen

/-- What other bus masters write between two accesses of one instruction (R1046). -/
def State.gap (s : State) : State :=
  match s.gaps with
  | [] => s
  | ws :: more => { ws.foldl busWrite s with gaps := more }

/-! ## Bytes and words (20_memory.md R1003) -/

/-- The word whose bytes, least significant first, are these. -/
def fromLE : List Byte → Word
  | [] => 0
  | b :: bs => b.setWidth 32 ||| (fromLE bs <<< 8)

/-- The low `n` bytes of a word, least significant first. -/
def toLE : Nat → Word → List Byte
  | 0, _ => []
  | n + 1, w => w.setWidth 8 :: toLE n (w >>> 8)

/-- A value from the bytes at rising addresses, in the byte order `big`. -/
def assemble (big : Bool) (bytes : List Byte) : Word := fromLE (if big then bytes.reverse else bytes)

/-- The bytes at rising addresses of an `n`-byte value. -/
def disassemble (big : Bool) (n : Nat) (v : Word) : List Byte := if big then (toLE n v).reverse else toLE n v

end Sys2Proof.Machine
end

