-- ==== Sys2Proof/Machine/Flags.lean ====
section
/-! DEFINITION. The condition field and every flag computation: N, Z, C, V, the sticky Q flag and GE[3:0]. -/

namespace Sys2Proof.Machine

def State.flagN (s : State) : Bool := s.cpsr.getLsbD 31
def State.flagZ (s : State) : Bool := s.cpsr.getLsbD 30
def State.flagC (s : State) : Bool := s.cpsr.getLsbD 29
def State.flagV (s : State) : Bool := s.cpsr.getLsbD 28

/-- ConditionPassed (30_encoding.md R1353); 0b1111 is no condition, the instructions that have it are unconditional. -/
def condPassed (cond : BitVec 4) (s : State) : Bool :=
  match cond.toNat with
  | 0 => s.flagZ
  | 1 => !s.flagZ
  | 2 => s.flagC
  | 3 => !s.flagC
  | 4 => s.flagN
  | 5 => !s.flagN
  | 6 => s.flagV
  | 7 => !s.flagV
  | 8 => s.flagC && !s.flagZ
  | 9 => !s.flagC || s.flagZ
  | 10 => s.flagN == s.flagV
  | 11 => s.flagN != s.flagV
  | 12 => !s.flagZ && s.flagN == s.flagV
  | 13 => s.flagZ || s.flagN != s.flagV
  | _ => true

/-- An instruction whose condition fails only advances the pc (R1353). -/
def onCond (cond : BitVec 4) (s : State) (effect : Host.Outcome State Fault Refusal) : Host.Outcome State Fault Refusal :=
  if condPassed cond s then effect else .next s.advance

/-- AddWithCarry (42_data_processing.md R1601): the result, the carry out and the signed overflow. -/
def addWithCarry (x y : Word) (c : Bool) : Word × Bool × Bool :=
  let usum := x.toNat + y.toNat + c.toNat
  let ssum := x.toInt + y.toInt + c.toNat
  let r := BitVec.ofNat 32 usum
  (r, r.toNat != usum, r.toInt != ssum)

/-- Write N, Z, C and V. -/
def State.setNZCV (s : State) (n z c v : Bool) : State :=
  { s with cpsr := setBits s.cpsr 28 (bit n ++ bit z ++ bit c ++ bit v) }

/-- Write N and Z. -/
def State.setNZ (s : State) (n z : Bool) : State := { s with cpsr := setBits s.cpsr 30 (bit n ++ bit z) }

/-- Write N and Z from a result, C and V as given (R1604). -/
def State.setArithFlags (s : State) (r : Word) (c v : Bool) : State := s.setNZCV r.msb (r == 0) c v

/-- Set the sticky Q flag if `sat`, else leave it (10_state.md R67; 47_media_instructions.md R2403). -/
def State.stickyQ (s : State) (sat : Bool) : State := if sat then { s with cpsr := setBit s.cpsr 27 true } else s

/-- Write GE[3:0] (10_state.md R71). -/
def State.setGE (s : State) (ge : BitVec 4) : State := { s with cpsr := setBits s.cpsr 16 ge }

def State.ge (s : State) : BitVec 4 := s.cpsr.extractLsb' 16 4

/-- SignedSatQ (47_media_instructions.md R2401): the saturated integer and whether it saturated. -/
def signedSatQ (i : Int) (n : Nat) : Int × Bool :=
  if 2 ^ (n - 1) - 1 < i then (2 ^ (n - 1) - 1, true)
  else if i < -2 ^ (n - 1) then (-2 ^ (n - 1), true)
  else (i, false)

/-- UnsignedSatQ (R2401). -/
def unsignedSatQ (i : Int) (n : Nat) : Int × Bool :=
  if 2 ^ n - 1 < i then (2 ^ n - 1, true)
  else if i < 0 then (0, true)
  else (i, false)

/-- The integer does not fit a signed word (43_multiply.md R1661). -/
def overflows32 (r : Int) : Bool := r < -2 ^ 31 || 2 ^ 31 - 1 < r

end Sys2Proof.Machine
end

