-- ==== Sys2Proof/Machine/Cp15.lean ====
section
/-! DEFINITION. The CP15 registers: who may reach them, and what reading and writing them does (40_cp15_instructions.md,
48_cp15_instructions_c10_c15.md; the registers themselves in 11_cp15_id.md to 14_cp15_tlb_ple_misc.md). -/

namespace Sys2Proof.Machine

/-! ## Access rights (R1451 to R1454; 62_debug_events.md R2091) -/

/-- The right to privileged registers: a privileged mode, or in debug state the right to enter one. -/
def State.sysPriv (s : State) : Bool := s.mayWritePrivileged

/-- The right to registers that admit User mode. In debug state a debugger without rights in Secure User mode has none to them
either: Table 12-56 (62_debug_events.md R2091) lists banked, restricted and configurable registers only, and that it closes
common ones too is the model's choice (DESIGN CHOICE, log 60). -/
def State.sysUser (s : State) : Bool := !s.halted || s.sysPriv

/-- The right to registers of the Secure state. -/
def State.sysSecure (s : State) : Bool := s.sysPriv && s.secure

/-- The copy of a banked register an access reaches is the Secure one (11_cp15_id.md R152). -/
def State.copySecure (s : State) : Bool := !s.sys.scr.getLsbD 0

/-- The banked registers an access reaches. -/
def State.copy (s : State) : Banked := s.bank s.copySecure

def State.setCopy (s : State) (b : Banked) : State := s.setBank s.copySecure b

/-- The pin CP15SDISABLE leaves the copy open to writes (11_cp15_id.md R155). -/
def State.pinOpen (s : State) : Bool := !(s.pins.cp15sdisable && s.copySecure)

/-- A privileged access that a bit of NSACR opens to the Nonsecure state (R1454). -/
def State.sysGated (s : State) (nsacrBit : Nat) : Bool := s.sysPriv && (s.secure || s.sys.nsacr.getLsbD nsacrBit)

/-- The register that an MRC writes: r15 stands for the flags N, Z, C and V (R1452). -/
def State.receive (s : State) (rt : BitVec 4) (v : Word) : State :=
  if rt = 15 then s.setNZCV (v.getLsbD 31) (v.getLsbD 30) (v.getLsbD 29) (v.getLsbD 28) else s.setReg rt v

/-- An MRC: the value, or the Undefined Instruction exception (R1451). -/
def readSys (cond rt : BitVec 4) (ok : Bool) (v : Word) (s : State) : Host.Outcome State Fault Refusal :=
  onCond cond s (.next (if ok then (s.receive rt v).advance else takeUndefined s))

/-- An MCR with an effect of any kind; r15 as the source is Unpredictable (R1452). -/
def withSys (cond rt : BitVec 4) (ok : Bool) (s : State) (effect : Word → Host.Outcome State Fault Refusal) :
    Host.Outcome State Fault Refusal :=
  onCond cond s (if ok then (if rt = 15 then .fault .operands else effect (s.reg rt)) else .next (takeUndefined s))

/-- An MCR that changes the state and goes on. -/
def writeSys (cond rt : BitVec 4) (ok : Bool) (s : State) (effect : Word → State) :
    Host.Outcome State Fault Refusal :=
  withSys cond rt ok s fun v => .next (effect v).advance

/-! ## The preload engine while it runs (22_caches.md R1197) -/

def PleChannel.running (c : PleChannel) : Bool := c.status.extractLsb' 0 2 == 0b10

/-- Some channel runs. -/
def State.pleRuns (s : State) : Bool := s.ple.chan[0].running || s.ple.chan[1].running

/-- A change of the memory configuration is Unpredictable while a channel runs. -/
def unlessPle (changes : Bool) (s : State) (effect : Host.Outcome State Fault Refusal) :
    Host.Outcome State Fault Refusal :=
  if changes && s.pleRuns then .fault .preloadReconfigured else effect

/-! ## Views and writes of registers with fixed or reserved bits -/

/-- The writable bits of SCTLR (12_cp15_control.md R251). -/
def sctlrMask : Word := 0x72003807

/-- SCTLR after a write: NMFI and the reserved bits stay. -/
def sctlrWrite (old v : Word) : Word := (old &&& ~~~sctlrMask) ||| (v &&& sctlrMask)

/-- ACTLR as it is read (12_cp15_control.md R255, R257): L2EN from the copy, the reset-disable pins in the Secure state
only. -/
def actlrView (s : State) : Word :=
  let pins : Word := if s.secure then
    (bit s.pins.straps.l2rstdisable).setWidth 32 <<< 31 ||| (bit s.pins.straps.l1rstdisable).setWidth 32 <<< 30 else 0
  (s.sys.actlr &&& 0x3FFFFFFD) ||| (bit s.copy.l2en).setWidth 32 <<< 1 ||| pins

/-- The bits of ACTLR that a Secure write stores (R255); bit [20] exists from r3p0 (00_scope.md R3(c)). -/
def actlrMask (k : Build) : Word := if k.revision.third then 0x001FFFF9 else 0x000FFFF9

/-- ACTLR written; a Nonsecure write reaches L2EN only. -/
def actlrWrite (v : Word) (s : State) : State :=
  let s' := s.setCopy { s.copy with l2en := v.getLsbD 1 }
  if s.secure then { s' with sys := { s'.sys with actlr := v &&& actlrMask s.build } } else s'

/-- Coprocessor `n` exists: CPEXIST[n] was HIGH at the last reset, and 10 and 11 only in a build with NEON (R261). -/
def State.coprocExists (s : State) (n : Nat) : Bool := s.sys.cpexist.getLsbD n && (s.build.hasNeon || (n != 10 && n != 11))

/-- The fields of CPACR an access reaches: those of existing coprocessors, in the Nonsecure state as NSACR opens them (R259
to R261). -/
def cpacrMask (s : State) : Word :=
  (List.range 14).foldl (fun m n =>
    if s.coprocExists n && (s.secure || s.sys.nsacr.getLsbD n) then m ||| (3#32 <<< (2 * n)) else m) 0

/-- The bits of NSACR that can be set: PLE, TL, CL, and those of existing coprocessors (R266; 00_scope.md R11, D2). -/
def nsacrMask (s : State) : Word :=
  (List.range 14).foldl (fun m n => if s.coprocExists n then m ||| (1#32 <<< n) else m) 0x00070000

/-- CCSIDR for the cache CSSELR selects (11_cp15_id.md R184). -/
def ccsidr (k : Build) (csselr : Word) : Word :=
  match (csselr.extractLsb' 0 4).toNat with
  | 0 => k.l1Size.ccsidrData
  | 1 => k.l1Size.ccsidrInstr
  | 2 => k.l2Size.ccsidr
  | _ => 0

/-- The bits of the L2 Cache Auxiliary Control Register that a write stores: [21] only in a build with parity or ECC
(13_cp15_maint_pmu.md R435, R436). -/
def l2auxMask (k : Build) : Word := if k.l2Parity then 0x3BE101CF else 0x3BC101CF

/-- PAR as it is read: the reserved bits of the layout that bit 0 chooses read as zero (13_cp15_maint_pmu.md R366). -/
def parView (v : Word) : Word := if v.getLsbD 0 then v &&& 0x0000007F else v &&& 0xFFFFF3FF

/-- ISR: the pending imprecise abort, from the access on (60_exceptions.md R1938), and the interrupt pins
(14_cp15_tlb_ple_misc.md R524). -/
def isrView (s : State) : Word :=
  (bit s.abortPending.isSome ++ bit s.pins.irq ++ bit s.pins.fiq ++ 0#6).setWidth 32

/-! ## Identification registers (c0) -/

/-- MRC of MIDR (R1459). -/
def execMrcMidr (cond : BitVec 4) (rt : BitVec 4) (s : State) : Host.Outcome State Fault Refusal :=
  readSys cond rt s.sysPriv s.build.revision.midr s

/-- MRC of MIDR, opcode 4 (R1459). -/
def execMrcMidr4 (cond : BitVec 4) (rt : BitVec 4) (s : State) : Host.Outcome State Fault Refusal :=
  readSys cond rt s.sysPriv s.build.revision.midr s

/-- MRC of MIDR, opcode 6 (R1459). -/
def execMrcMidr6 (cond : BitVec 4) (rt : BitVec 4) (s : State) : Host.Outcome State Fault Refusal :=
  readSys cond rt s.sysPriv s.build.revision.midr s

/-- MRC of MIDR, opcode 7 (R1459). -/
def execMrcMidr7 (cond : BitVec 4) (rt : BitVec 4) (s : State) : Host.Outcome State Fault Refusal :=
  readSys cond rt s.sysPriv s.build.revision.midr s

/-- MRC of CTR (R1460). -/
def execMrcCtr (cond : BitVec 4) (rt : BitVec 4) (s : State) : Host.Outcome State Fault Refusal :=
  readSys cond rt s.sysPriv Config.ctr s

/-- MRC of TCMTR (R1461). -/
def execMrcTcmtr (cond : BitVec 4) (rt : BitVec 4) (s : State) : Host.Outcome State Fault Refusal :=
  readSys cond rt s.sysPriv Config.tcmtr s

/-- MRC of TLBTR (R1462). -/
def execMrcTlbtr (cond : BitVec 4) (rt : BitVec 4) (s : State) : Host.Outcome State Fault Refusal :=
  readSys cond rt s.sysPriv Config.tlbtr s

/-- MRC of MPIDR (R1463). -/
def execMrcMpidr (cond : BitVec 4) (rt : BitVec 4) (s : State) : Host.Outcome State Fault Refusal :=
  readSys cond rt s.sysPriv Config.mpidr s

/-- MRC of ID_PFR0 (R1464). -/
def execMrcIdPfr0 (cond : BitVec 4) (rt : BitVec 4) (s : State) : Host.Outcome State Fault Refusal :=
  readSys cond rt s.sysPriv Config.idPfr0 s

/-- MRC of ID_PFR1 (R1465). -/
def execMrcIdPfr1 (cond : BitVec 4) (rt : BitVec 4) (s : State) : Host.Outcome State Fault Refusal :=
  readSys cond rt s.sysPriv Config.idPfr1 s

/-- MRC of ID_DFR0 (R1466). -/
def execMrcIdDfr0 (cond : BitVec 4) (rt : BitVec 4) (s : State) : Host.Outcome State Fault Refusal :=
  readSys cond rt s.sysPriv s.build.idDfr0 s

/-- MRC of ID_AFR0 (R1467). -/
def execMrcIdAfr0 (cond : BitVec 4) (rt : BitVec 4) (s : State) : Host.Outcome State Fault Refusal :=
  readSys cond rt s.sysPriv Config.idAfr0 s

/-- MRC of ID_MMFR0 (R1468). -/
def execMrcIdMmfr0 (cond : BitVec 4) (rt : BitVec 4) (s : State) : Host.Outcome State Fault Refusal :=
  readSys cond rt s.sysPriv Config.idMmfr0 s

/-- MRC of ID_MMFR1 (R1469). -/
def execMrcIdMmfr1 (cond : BitVec 4) (rt : BitVec 4) (s : State) : Host.Outcome State Fault Refusal :=
  readSys cond rt s.sysPriv Config.idMmfr1 s

/-- MRC of ID_MMFR2 (R1470). -/
def execMrcIdMmfr2 (cond : BitVec 4) (rt : BitVec 4) (s : State) : Host.Outcome State Fault Refusal :=
  readSys cond rt s.sysPriv Config.idMmfr2 s

/-- MRC of ID_MMFR3 (R1471). -/
def execMrcIdMmfr3 (cond : BitVec 4) (rt : BitVec 4) (s : State) : Host.Outcome State Fault Refusal :=
  readSys cond rt s.sysPriv Config.idMmfr3 s

/-- MRC of ID_ISAR0 (R1472). -/
def execMrcIdIsar0 (cond : BitVec 4) (rt : BitVec 4) (s : State) : Host.Outcome State Fault Refusal :=
  readSys cond rt s.sysPriv Config.idIsar0 s

/-- MRC of ID_ISAR1 (R1473). -/
def execMrcIdIsar1 (cond : BitVec 4) (rt : BitVec 4) (s : State) : Host.Outcome State Fault Refusal :=
  readSys cond rt s.sysPriv Config.idIsar1 s

/-- MRC of ID_ISAR2 (R1474). -/
def execMrcIdIsar2 (cond : BitVec 4) (rt : BitVec 4) (s : State) : Host.Outcome State Fault Refusal :=
  readSys cond rt s.sysPriv Config.idIsar2 s

/-- MRC of ID_ISAR3 (R1475). -/
def execMrcIdIsar3 (cond : BitVec 4) (rt : BitVec 4) (s : State) : Host.Outcome State Fault Refusal :=
  readSys cond rt s.sysPriv Config.idIsar3 s

/-- MRC of ID_ISAR4 (R1476). -/
def execMrcIdIsar4 (cond : BitVec 4) (rt : BitVec 4) (s : State) : Host.Outcome State Fault Refusal :=
  readSys cond rt s.sysPriv Config.idIsar4 s

/-- MRC of ID_ISAR5: zero (R1477). -/
def execMrcIdIsar5 (cond : BitVec 4) (rt : BitVec 4) (s : State) : Host.Outcome State Fault Refusal :=
  readSys cond rt s.sysPriv 0 s

/-- MRC of ID_ISAR6: zero (R1477). -/
def execMrcIdIsar6 (cond : BitVec 4) (rt : BitVec 4) (s : State) : Host.Outcome State Fault Refusal :=
  readSys cond rt s.sysPriv 0 s

/-- MRC of ID_ISAR7: zero (R1477). -/
def execMrcIdIsar7 (cond : BitVec 4) (rt : BitVec 4) (s : State) : Host.Outcome State Fault Refusal :=
  readSys cond rt s.sysPriv 0 s

/-- MRC of a reserved feature register: zero (R1478). -/
def execMrcFeatureReserved (cond : BitVec 4) (rt : BitVec 4) (_opc2 : BitVec 3) (_cRm : BitVec 4) (s : State) : Host.Outcome State Fault Refusal :=
  readSys cond rt s.sysPriv 0 s

/-- MRC of CCSIDR (R1479). -/
def execMrcCcsidr (cond : BitVec 4) (rt : BitVec 4) (s : State) : Host.Outcome State Fault Refusal :=
  readSys cond rt s.sysPriv (ccsidr s.build s.copy.csselr) s

/-- MRC of CLIDR (R1480). -/
def execMrcClidr (cond : BitVec 4) (rt : BitVec 4) (s : State) : Host.Outcome State Fault Refusal :=
  readSys cond rt s.sysPriv s.build.clidr s

/-- MRC of the Silicon ID Register (R1481): bits [15:8] read as zero (11_cp15_id.md R183). -/
def execMrcSiliconId (cond : BitVec 4) (rt : BitVec 4) (s : State) : Host.Outcome State Fault Refusal :=
  readSys cond rt s.sysPriv (Config.siliconid &&& 0xFFFF00FF) s

/-- MRC of CSSELR (R1482). -/
def execMrcCsselr (cond : BitVec 4) (rt : BitVec 4) (s : State) : Host.Outcome State Fault Refusal :=
  readSys cond rt s.sysPriv s.copy.csselr s

/-- MCR of CSSELR (R1482). -/
def execMcrCsselr (cond : BitVec 4) (rt : BitVec 4) (s : State) : Host.Outcome State Fault Refusal :=
  writeSys cond rt s.sysPriv s fun v => s.setCopy { s.copy with csselr := v &&& 0xF }

/-! ## Control registers (c1 to c3) -/

/-- MRC of SCTLR (R1483). -/
def execMrcSctlr (cond : BitVec 4) (rt : BitVec 4) (s : State) : Host.Outcome State Fault Refusal :=
  readSys cond rt s.sysPriv s.copy.sctlr s

/-- MCR of SCTLR (R1483); changing M or clearing C, which turns the L2 cache off, is for when the preload engine is at rest
(22_caches.md R1155, R1197). -/
def execMcrSctlr (cond : BitVec 4) (rt : BitVec 4) (s : State) : Host.Outcome State Fault Refusal :=
  withSys cond rt (s.sysPriv && s.pinOpen) s fun v =>
    let new := sctlrWrite s.copy.sctlr v
    unlessPle (new.getLsbD 0 != s.copy.sctlr.getLsbD 0 || (s.copy.sctlr.getLsbD 2 && !new.getLsbD 2)) s (.next (s.setCopy { s.copy with sctlr := new }).advance)

/-- MRC of ACTLR (R1484). -/
def execMrcActlr (cond : BitVec 4) (rt : BitVec 4) (s : State) : Host.Outcome State Fault Refusal :=
  readSys cond rt s.sysPriv (actlrView s) s

/-- MCR of ACTLR (R1484). -/
def execMcrActlr (cond : BitVec 4) (rt : BitVec 4) (s : State) : Host.Outcome State Fault Refusal :=
  withSys cond rt s.sysPriv s fun v =>
    unlessPle (s.copy.l2en && !v.getLsbD 1) s (.next (actlrWrite v s).advance)

/-- MRC of CPACR (R1485). -/
def execMrcCpacr (cond : BitVec 4) (rt : BitVec 4) (s : State) : Host.Outcome State Fault Refusal :=
  readSys cond rt s.sysPriv (s.sys.cpacr &&& cpacrMask s) s

/-- MCR of CPACR (R1485). -/
def execMcrCpacr (cond : BitVec 4) (rt : BitVec 4) (s : State) : Host.Outcome State Fault Refusal :=
  writeSys cond rt s.sysPriv s fun v => { s with sys := { s.sys with cpacr := (s.sys.cpacr &&& ~~~cpacrMask s) ||| (v &&& cpacrMask s) } }

/-- MRC of SCR (R1486; the fields of 12_cp15_control.md R262, log 17). -/
def execMrcScr (cond : BitVec 4) (rt : BitVec 4) (s : State) : Host.Outcome State Fault Refusal :=
  readSys cond rt s.sysSecure s.sys.scr s

/-- MCR of SCR (R1486; the fields of 12_cp15_control.md R262, log 17). -/
def execMcrScr (cond : BitVec 4) (rt : BitVec 4) (s : State) : Host.Outcome State Fault Refusal :=
  writeSys cond rt s.sysSecure s fun v => { s with sys := { s.sys with scr := v &&& 0x3F } }

/-- MRC of SDER (R1487). -/
def execMrcSder (cond : BitVec 4) (rt : BitVec 4) (s : State) : Host.Outcome State Fault Refusal :=
  readSys cond rt s.sysSecure s.sys.sder s

/-- MCR of SDER (R1487). -/
def execMcrSder (cond : BitVec 4) (rt : BitVec 4) (s : State) : Host.Outcome State Fault Refusal :=
  writeSys cond rt s.sysSecure s fun v => { s with sys := { s.sys with sder := v &&& 0x3 } }

/-- MRC of NSACR (R1488). -/
def execMrcNsacr (cond : BitVec 4) (rt : BitVec 4) (s : State) : Host.Outcome State Fault Refusal :=
  readSys cond rt s.sysPriv s.sys.nsacr s

/-- MCR of NSACR (R1488). -/
def execMcrNsacr (cond : BitVec 4) (rt : BitVec 4) (s : State) : Host.Outcome State Fault Refusal :=
  writeSys cond rt s.sysSecure s fun v => { s with sys := { s.sys with nsacr := v &&& nsacrMask s } }

/-- MRC of TTBR0 (R1489). -/
def execMrcTtbr0 (cond : BitVec 4) (rt : BitVec 4) (s : State) : Host.Outcome State Fault Refusal :=
  readSys cond rt s.sysPriv s.copy.ttbr0 s

/-- MCR of TTBR0 (R1489). -/
def execMcrTtbr0 (cond : BitVec 4) (rt : BitVec 4) (s : State) : Host.Outcome State Fault Refusal :=
  writeSys cond rt (s.sysPriv && s.pinOpen) s fun v => s.setCopy { s.copy with ttbr0 := v &&& 0xFFFFFF9B }

/-- MRC of TTBR1 (R1490). -/
def execMrcTtbr1 (cond : BitVec 4) (rt : BitVec 4) (s : State) : Host.Outcome State Fault Refusal :=
  readSys cond rt s.sysPriv s.copy.ttbr1 s

/-- MCR of TTBR1 (R1490). -/
def execMcrTtbr1 (cond : BitVec 4) (rt : BitVec 4) (s : State) : Host.Outcome State Fault Refusal :=
  writeSys cond rt s.sysPriv s fun v => s.setCopy { s.copy with ttbr1 := v &&& 0xFFFFC01B }

/-- MRC of TTBCR (R1491). -/
def execMrcTtbcr (cond : BitVec 4) (rt : BitVec 4) (s : State) : Host.Outcome State Fault Refusal :=
  readSys cond rt s.sysPriv s.copy.ttbcr s

/-- MCR of TTBCR (R1491). -/
def execMcrTtbcr (cond : BitVec 4) (rt : BitVec 4) (s : State) : Host.Outcome State Fault Refusal :=
  writeSys cond rt (s.sysPriv && s.pinOpen) s fun v => s.setCopy { s.copy with ttbcr := v &&& 0x37 }

/-- MRC of DACR (R1492). -/
def execMrcDacr (cond : BitVec 4) (rt : BitVec 4) (s : State) : Host.Outcome State Fault Refusal :=
  readSys cond rt s.sysPriv s.copy.dacr s

/-- MCR of DACR (R1492). -/
def execMcrDacr (cond : BitVec 4) (rt : BitVec 4) (s : State) : Host.Outcome State Fault Refusal :=
  writeSys cond rt (s.sysPriv && s.pinOpen) s fun v => s.setCopy { s.copy with dacr := v }

/-! ## Fault registers (c5, c6) -/

/-- MRC of DFSR (R1493). -/
def execMrcDfsr (cond : BitVec 4) (rt : BitVec 4) (s : State) : Host.Outcome State Fault Refusal :=
  readSys cond rt s.sysPriv s.copy.dfsr s

/-- MCR of DFSR (R1493). -/
def execMcrDfsr (cond : BitVec 4) (rt : BitVec 4) (s : State) : Host.Outcome State Fault Refusal :=
  writeSys cond rt s.sysPriv s fun v => s.setCopy { s.copy with dfsr := v &&& 0x1CFF }

/-- MRC of IFSR (R1494). -/
def execMrcIfsr (cond : BitVec 4) (rt : BitVec 4) (s : State) : Host.Outcome State Fault Refusal :=
  readSys cond rt s.sysPriv s.copy.ifsr s

/-- MCR of IFSR (R1494). -/
def execMcrIfsr (cond : BitVec 4) (rt : BitVec 4) (s : State) : Host.Outcome State Fault Refusal :=
  writeSys cond rt s.sysPriv s fun v => s.setCopy { s.copy with ifsr := v &&& 0x140F }

/-- MRC of ADFSR: zero (R1495). -/
def execMrcAdfsr (cond : BitVec 4) (rt : BitVec 4) (s : State) : Host.Outcome State Fault Refusal :=
  readSys cond rt s.sysPriv 0 s

/-- MCR of ADFSR: no effect (R1495). -/
def execMcrAdfsr (cond : BitVec 4) (rt : BitVec 4) (s : State) : Host.Outcome State Fault Refusal :=
  writeSys cond rt s.sysPriv s fun _ => s

/-- MRC of AIFSR: zero (R1496). -/
def execMrcAifsr (cond : BitVec 4) (rt : BitVec 4) (s : State) : Host.Outcome State Fault Refusal :=
  readSys cond rt s.sysPriv 0 s

/-- MCR of AIFSR: no effect (R1496). -/
def execMcrAifsr (cond : BitVec 4) (rt : BitVec 4) (s : State) : Host.Outcome State Fault Refusal :=
  writeSys cond rt s.sysPriv s fun _ => s

/-- MRC of DFAR (R1497). -/
def execMrcDfar (cond : BitVec 4) (rt : BitVec 4) (s : State) : Host.Outcome State Fault Refusal :=
  readSys cond rt s.sysPriv s.copy.dfar s

/-- MCR of DFAR (R1497). -/
def execMcrDfar (cond : BitVec 4) (rt : BitVec 4) (s : State) : Host.Outcome State Fault Refusal :=
  writeSys cond rt s.sysPriv s fun v => s.setCopy { s.copy with dfar := v }

/-- MRC of IFAR (R1498). -/
def execMrcIfar (cond : BitVec 4) (rt : BitVec 4) (s : State) : Host.Outcome State Fault Refusal :=
  readSys cond rt s.sysPriv s.copy.ifar s

/-- MCR of IFAR (R1498). -/
def execMcrIfar (cond : BitVec 4) (rt : BitVec 4) (s : State) : Host.Outcome State Fault Refusal :=
  writeSys cond rt s.sysPriv s fun v => s.setCopy { s.copy with ifar := v &&& 0xFFFFFFFE }

/-! ## PAR (c7), the L2 registers (c9), the remap registers and the TLB lockdown registers (c10) -/

/-- MRC of PAR (R1500). -/
def execMrcPar (cond : BitVec 4) (rt : BitVec 4) (s : State) : Host.Outcome State Fault Refusal :=
  readSys cond rt s.sysPriv (parView s.copy.par) s

/-- MCR of PAR (R1500). -/
def execMcrPar (cond : BitVec 4) (rt : BitVec 4) (s : State) : Host.Outcome State Fault Refusal :=
  writeSys cond rt s.sysPriv s fun v => s.setCopy { s.copy with par := v }

/-- MRC of the L2 Cache Lockdown Register (R1538). -/
def execMrcL2Lock (cond : BitVec 4) (rt : BitVec 4) (s : State) : Host.Outcome State Fault Refusal :=
  readSys cond rt (s.sysGated 16) s.sys.l2lock s

/-- MCR of the L2 Cache Lockdown Register (R1538). -/
def execMcrL2Lock (cond : BitVec 4) (rt : BitVec 4) (s : State) : Host.Outcome State Fault Refusal :=
  writeSys cond rt (s.sysGated 16) s fun v => { s with sys := { s.sys with l2lock := v &&& 0xFF } }

/-- MRC of the L2 Cache Auxiliary Control Register (R1539). -/
def execMrcL2Aux (cond : BitVec 4) (rt : BitVec 4) (s : State) : Host.Outcome State Fault Refusal :=
  readSys cond rt s.sysPriv s.sys.l2aux s

/-- MCR of the L2 Cache Auxiliary Control Register (R1539). -/
def execMcrL2Aux (cond : BitVec 4) (rt : BitVec 4) (s : State) : Host.Outcome State Fault Refusal :=
  writeSys cond rt s.sysSecure s fun v => { s with sys := { s.sys with l2aux := v &&& l2auxMask s.build } }

/-- MRC of the Data TLB Lockdown Register (R2500). -/
def execMrcDtlbLock (cond : BitVec 4) (rt : BitVec 4) (s : State) : Host.Outcome State Fault Refusal :=
  readSys cond rt (s.sysGated 17) s.sys.dtlbLock s

/-- MCR of the Data TLB Lockdown Register (R2500). -/
def execMcrDtlbLock (cond : BitVec 4) (rt : BitVec 4) (s : State) : Host.Outcome State Fault Refusal :=
  writeSys cond rt (s.sysGated 17) s fun v => { s with sys := { s.sys with dtlbLock := v &&& 0xFFC00001 } }

/-- MRC of the Instruction TLB Lockdown Register (R2501). -/
def execMrcItlbLock (cond : BitVec 4) (rt : BitVec 4) (s : State) : Host.Outcome State Fault Refusal :=
  readSys cond rt (s.sysGated 17) s.sys.itlbLock s

/-- MCR of the Instruction TLB Lockdown Register (R2501). -/
def execMcrItlbLock (cond : BitVec 4) (rt : BitVec 4) (s : State) : Host.Outcome State Fault Refusal :=
  writeSys cond rt (s.sysGated 17) s fun v => { s with sys := { s.sys with itlbLock := v &&& 0xFFC00001 } }

/-- MRC of PRRR (R2504). -/
def execMrcPrrr (cond : BitVec 4) (rt : BitVec 4) (s : State) : Host.Outcome State Fault Refusal :=
  readSys cond rt s.sysPriv s.copy.prrr s

/-- MCR of PRRR (R2504); 22_caches.md R1197 while the preload engine runs. -/
def execMcrPrrr (cond : BitVec 4) (rt : BitVec 4) (s : State) : Host.Outcome State Fault Refusal :=
  withSys cond rt (s.sysPriv && s.pinOpen) s fun v =>
    unlessPle (v &&& 0xFFFFF != s.copy.prrr) s (.next (s.setCopy { s.copy with prrr := v &&& 0xFFFFF }).advance)

/-- MRC of NMRR (R2505). -/
def execMrcNmrr (cond : BitVec 4) (rt : BitVec 4) (s : State) : Host.Outcome State Fault Refusal :=
  readSys cond rt s.sysPriv s.copy.nmrr s

/-- MCR of NMRR (R2505); 22_caches.md R1197 while the preload engine runs. -/
def execMcrNmrr (cond : BitVec 4) (rt : BitVec 4) (s : State) : Host.Outcome State Fault Refusal :=
  withSys cond rt (s.sysPriv && s.pinOpen) s fun v =>
    unlessPle (v != s.copy.nmrr) s (.next (s.setCopy { s.copy with nmrr := v }).advance)

/-! ## Vector bases, interrupt status (c12), process identifiers (c13) -/

/-- MRC of VBAR (R2517). -/
def execMrcVbar (cond : BitVec 4) (rt : BitVec 4) (s : State) : Host.Outcome State Fault Refusal :=
  readSys cond rt s.sysPriv s.copy.vbar s

/-- MCR of VBAR (R2517). -/
def execMcrVbar (cond : BitVec 4) (rt : BitVec 4) (s : State) : Host.Outcome State Fault Refusal :=
  writeSys cond rt (s.sysPriv && s.pinOpen) s fun v => s.setCopy { s.copy with vbar := v &&& 0xFFFFFFE0 }

/-- MRC of MVBAR (R2518). -/
def execMrcMvbar (cond : BitVec 4) (rt : BitVec 4) (s : State) : Host.Outcome State Fault Refusal :=
  readSys cond rt s.sysSecure s.sys.mvbar s

/-- MCR of MVBAR (R2518). -/
def execMcrMvbar (cond : BitVec 4) (rt : BitVec 4) (s : State) : Host.Outcome State Fault Refusal :=
  writeSys cond rt (s.sysSecure && !s.pins.cp15sdisable) s fun v => { s with sys := { s.sys with mvbar := v &&& 0xFFFFFFE0 } }

/-- MRC of ISR (R2519). -/
def execMrcIsr (cond : BitVec 4) (rt : BitVec 4) (s : State) : Host.Outcome State Fault Refusal :=
  readSys cond rt s.sysPriv (isrView s) s

/-- MRC of the FCSE PID Register (R2520). -/
def execMrcFcse (cond : BitVec 4) (rt : BitVec 4) (s : State) : Host.Outcome State Fault Refusal :=
  readSys cond rt s.sysPriv s.copy.fcse s

/-- MCR of the FCSE PID Register (R2520). -/
def execMcrFcse (cond : BitVec 4) (rt : BitVec 4) (s : State) : Host.Outcome State Fault Refusal :=
  writeSys cond rt (s.sysPriv && s.pinOpen) s fun v => s.setCopy { s.copy with fcse := v &&& 0xFE000000 }

/-- MRC of CONTEXTIDR (R2521). -/
def execMrcContextidr (cond : BitVec 4) (rt : BitVec 4) (s : State) : Host.Outcome State Fault Refusal :=
  readSys cond rt s.sysPriv s.copy.contextidr s

/-- MCR of CONTEXTIDR (R2521); event 0x0B. -/
def execMcrContextidr (cond : BitVec 4) (rt : BitVec 4) (s : State) : Host.Outcome State Fault Refusal :=
  withSys cond rt s.sysPriv s fun v =>
    unlessPle (v != s.copy.contextidr) s
      (.next ((s.note 0x0B).setCopy { s.copy with contextidr := v }).advance)

/-- MRC of TPIDRURW (R2522). -/
def execMrcTpidrurw (cond : BitVec 4) (rt : BitVec 4) (s : State) : Host.Outcome State Fault Refusal :=
  readSys cond rt s.sysUser s.copy.tpidrurw s

/-- MCR of TPIDRURW (R2522). -/
def execMcrTpidrurw (cond : BitVec 4) (rt : BitVec 4) (s : State) : Host.Outcome State Fault Refusal :=
  writeSys cond rt s.sysUser s fun v => s.setCopy { s.copy with tpidrurw := v }

/-- MRC of TPIDRURO (R2523). -/
def execMrcTpidruro (cond : BitVec 4) (rt : BitVec 4) (s : State) : Host.Outcome State Fault Refusal :=
  readSys cond rt s.sysUser s.copy.tpidruro s

/-- MCR of TPIDRURO (R2523). -/
def execMcrTpidruro (cond : BitVec 4) (rt : BitVec 4) (s : State) : Host.Outcome State Fault Refusal :=
  writeSys cond rt s.sysPriv s fun v => s.setCopy { s.copy with tpidruro := v }

/-- MRC of TPIDRPRW (R2524). -/
def execMrcTpidrprw (cond : BitVec 4) (rt : BitVec 4) (s : State) : Host.Outcome State Fault Refusal :=
  readSys cond rt s.sysPriv s.copy.tpidrprw s

/-- MCR of TPIDRPRW (R2524). -/
def execMcrTpidrprw (cond : BitVec 4) (rt : BitVec 4) (s : State) : Host.Outcome State Fault Refusal :=
  writeSys cond rt s.sysPriv s fun v => s.setCopy { s.copy with tpidrprw := v }

/-- Any other CP15 access (R1457): Undefined. -/
def execP15Other (cond : BitVec 4) (_opc1 : BitVec 3) (_l : BitVec 1) (_cRn : BitVec 4) (_rt : BitVec 4) (_opc2 : BitVec 3) (_cRm : BitVec 4) (s : State) : Host.Outcome State Fault Refusal :=
  onCond cond s (.next (takeUndefined s))

end Sys2Proof.Machine
end

