-- ==== Sys2Proof/Machine/Pmu.lean ====
section
/-! DEFINITION. The performance monitor: its registers (40_cp15_instructions.md R1526 to R1537) and what it counts
(13_cp15_maint_pmu.md R399 to R422; 63_pmu_power.md R2153). -/

namespace Sys2Proof.Machine

/-! ## Counting -/

/-- Event counter `n` counts (R411): never in debug state (62_debug_events.md R2094). -/
def State.counterOn (s : State) (n : Fin 4) : Bool :=
  s.pmu.pmnc.getLsbD 0 && s.pmu.cnten.getLsbD n && s.noninvasivePermitted && !s.halted

/-- The cycle counter counts (R407, R411). -/
def State.ccntOn (s : State) : Bool :=
  s.pmu.pmnc.getLsbD 0 && s.pmu.cnten.getLsbD 31 && (s.noninvasivePermitted || !s.pmu.pmnc.getLsbD 5) && !s.halted

/-- Add to counter `n`; past 2^32 its overflow flag is set (R410). -/
def Pmu.add (p : Pmu) (n : Fin 4) (amount : Word) : Pmu :=
  { p with
    pmcnt := p.pmcnt.set n (p.pmcnt[n] + amount) n.isLt
    flag := if 2 ^ 32 ≤ p.pmcnt[n].toNat + amount.toNat then setBit p.flag n true else p.flag }

/-- Add to the cycle counter; `wraps` says that it went round once more than the amount shows. -/
def Pmu.addCycles (p : Pmu) (amount : Word) (wraps : Bool) : Pmu :=
  { p with
    ccnt := p.ccnt + amount
    flag := if wraps ∨ 2 ^ 32 ≤ p.ccnt.toNat + amount.toNat then setBit p.flag 31 true else p.flag }

/-- Add to every counter that a test selects. -/
def Pmu.addWhere (p : Pmu) (amount : Word) (test : Fin 4 → Bool) : Pmu :=
  (List.finRange 4).foldl (fun p n => if test n then p.add n amount else p) p

/-- The interrupt output nPMUIRQ is asserted (R412). -/
def Pmu.irq (p : Pmu) : Bool := p.flag &&& p.inten &&& 0x8000000F != 0

/-- The events whose counts the model leaves to their units (R409). -/
def openEvent (e : BitVec 8) : Bool :=
  (1 ≤ e && e ≤ 5) || (0x10 ≤ e && e ≤ 0x12) || (0x40 ≤ e && e ≤ 0x5A) || (0x70 ≤ e && e ≤ 0x72)

/-- An event can be made now: with an instruction (63_pmu_power.md R2153), so not in a low-power state; one of the external inputs
PMUEXTIN[1:0] with DBGEN HIGH only (19_etm_cti.md R965). -/
def State.makesEvent (s : State) (e : BitVec 8) : Bool := s.run == .running && (e < 0x70 || s.pins.dbgen)

/-- Some unit makes an event a number of times. -/
def countOpenEvent (e : BitVec 8) (times : Word) (s : State) : State :=
  { s with pmu := s.pmu.addWhere times fun n =>
      openEvent e && s.makesEvent e && s.counterOn n && s.pmu.evtsel[n].setWidth 8 == e }

/-- The exactly counted events of a step (R2153), one bit each: an instruction that took a precise abort, a Prefetch Abort
before it was executed among them, may or may not count as a read, as a write and as an instruction (log 21). -/
def eventsMade (instruction : Bool) (s : State) : BitVec 16 :=
  let m := s.happened &&& 0xFEC0
  if s.happened.getLsbD 1 then
    (m &&& 0xFE3F) ||| (s.draw.setWidth 16 &&& (if instruction then 0x01C0 else 0x0100))
  else if instruction then m ||| 0x0100 else m

/-- Count a step: the settings before it decide what counts (log 21), and CCNT advances by a free amount (log 10). -/
def countStep (before : State) (instruction : Bool) (s : State) : State :=
  let m := eventsMade instruction s
  let p := s.pmu.addWhere 1 fun n =>
    before.counterOn n && before.pmu.evtsel[n] &&& 0xF0 == 0 && m.getLsbD (before.pmu.evtsel[n].extractLsb' 0 4).toNat
  let p := if before.ccntOn then p.addCycles s.drawn.draw (s.drawn.drawn.draw.getLsbD 0) else p
  { s.drawn.drawn.drawn with pmu := p, happened := 0 }

/-! ## The registers -/

/-- The right to the counting registers: privileged, or User mode with USEREN.EN (R399, R420). -/
def State.pmuOpen (s : State) : Bool := s.sysPriv || (s.sysUser && s.pmu.useren.getLsbD 0)

/-- The counter PMNXSEL selects; none for a value above 3 (R406). -/
def pmuSelected (s : State) : Option (Fin 4) :=
  let k := (s.pmu.pmnxsel.extractLsb' 0 5).toNat
  if h : k < 4 then some ⟨k, h⟩ else none

/-- An MRC whose value may be open. -/
def readSysMaybe (cond rt : BitVec 4) (ok : Bool) (v : Option Word) (s : State) : Host.Outcome State Fault Refusal :=
  match v with
  | some w => readSys cond rt ok w s
  | none => onCond cond s (.next (if ok then (s.drawn.receive rt s.draw).advance else takeUndefined s))

/-- PMNC written (R400). -/
def pmncWrite (v : Word) (p : Pmu) : Pmu :=
  { p with
    pmnc := 0x41002000 ||| (v &&& 0x39)
    ccnt := if v.getLsbD 2 then 0 else p.ccnt
    pmcnt := if v.getLsbD 1 then Vector.replicate 4 0 else p.pmcnt }

/-- SWINCR written: the named counters that count event 0x00 (R405). -/
def swincrWrite (v : Word) (s : State) : Pmu :=
  s.pmu.addWhere 1 fun n => v.getLsbD n && s.counterOn n && s.pmu.evtsel[n].setWidth 8 == 0#8

/-- A change of the selected counter's registers; none is selected, none changes (R406: the write is ignored). -/
def onSelected (s : State) (f : Fin 4 → Pmu) : State :=
  match pmuSelected s with
  | none => s
  | some n => { s with pmu := f n }

/-- MRC of PMNC (R1526). -/
def execMrcPmnc (cond : BitVec 4) (rt : BitVec 4) (s : State) : Host.Outcome State Fault Refusal :=
  readSys cond rt s.pmuOpen s.pmu.pmnc s

/-- MCR of PMNC (R1526). -/
def execMcrPmnc (cond : BitVec 4) (rt : BitVec 4) (s : State) : Host.Outcome State Fault Refusal :=
  writeSys cond rt s.pmuOpen s fun v => { s with pmu := pmncWrite v s.pmu }

/-- MRC of CNTENS (R1527). -/
def execMrcCntens (cond : BitVec 4) (rt : BitVec 4) (s : State) : Host.Outcome State Fault Refusal :=
  readSys cond rt s.pmuOpen s.pmu.cnten s

/-- MCR of CNTENS (R1527). -/
def execMcrCntens (cond : BitVec 4) (rt : BitVec 4) (s : State) : Host.Outcome State Fault Refusal :=
  writeSys cond rt s.pmuOpen s fun v => { s with pmu := { s.pmu with cnten := s.pmu.cnten ||| (v &&& 0x8000000F) } }

/-- MRC of CNTENC (R1528). -/
def execMrcCntenc (cond : BitVec 4) (rt : BitVec 4) (s : State) : Host.Outcome State Fault Refusal :=
  readSys cond rt s.pmuOpen s.pmu.cnten s

/-- MCR of CNTENC (R1528). -/
def execMcrCntenc (cond : BitVec 4) (rt : BitVec 4) (s : State) : Host.Outcome State Fault Refusal :=
  writeSys cond rt s.pmuOpen s fun v => { s with pmu := { s.pmu with cnten := s.pmu.cnten &&& ~~~(v &&& 0x8000000F) } }

/-- MRC of FLAG (R1529). -/
def execMrcFlag (cond : BitVec 4) (rt : BitVec 4) (s : State) : Host.Outcome State Fault Refusal :=
  readSys cond rt s.pmuOpen s.pmu.flag s

/-- MCR of FLAG (R1529): ones clear. -/
def execMcrFlag (cond : BitVec 4) (rt : BitVec 4) (s : State) : Host.Outcome State Fault Refusal :=
  writeSys cond rt s.pmuOpen s fun v => { s with pmu := { s.pmu with flag := s.pmu.flag &&& ~~~(v &&& 0x8000000F) } }

/-- MRC of SWINCR: zero (R1530). -/
def execMrcSwincr (cond : BitVec 4) (rt : BitVec 4) (s : State) : Host.Outcome State Fault Refusal :=
  readSys cond rt s.pmuOpen 0 s

/-- MCR of SWINCR (R1530). -/
def execMcrSwincr (cond : BitVec 4) (rt : BitVec 4) (s : State) : Host.Outcome State Fault Refusal :=
  writeSys cond rt s.pmuOpen s fun v => { s with pmu := swincrWrite v s }

/-- MRC of PMNXSEL (R1531). -/
def execMrcPmnxsel (cond : BitVec 4) (rt : BitVec 4) (s : State) : Host.Outcome State Fault Refusal :=
  readSys cond rt s.pmuOpen s.pmu.pmnxsel s

/-- MCR of PMNXSEL (R1531). -/
def execMcrPmnxsel (cond : BitVec 4) (rt : BitVec 4) (s : State) : Host.Outcome State Fault Refusal :=
  writeSys cond rt s.pmuOpen s fun v => { s with pmu := { s.pmu with pmnxsel := v &&& 0x1F } }

/-- MRC of CCNT (R1532). -/
def execMrcCcnt (cond : BitVec 4) (rt : BitVec 4) (s : State) : Host.Outcome State Fault Refusal :=
  readSys cond rt s.pmuOpen s.pmu.ccnt s

/-- MCR of CCNT (R1532): Unpredictable while the counter is enabled. -/
def execMcrCcnt (cond : BitVec 4) (rt : BitVec 4) (s : State) : Host.Outcome State Fault Refusal :=
  withSys cond rt s.pmuOpen s fun v =>
    if s.pmu.pmnc.getLsbD 0 && s.pmu.cnten.getLsbD 31 then .fault .systemRegister
    else .next { s with pmu := { s.pmu with ccnt := v } }.advance

/-- MRC of EVTSEL (R1533). -/
def execMrcEvtsel (cond : BitVec 4) (rt : BitVec 4) (s : State) : Host.Outcome State Fault Refusal :=
  readSysMaybe cond rt s.pmuOpen ((pmuSelected s).map fun n => s.pmu.evtsel[n]) s

/-- MCR of EVTSEL (R1533). -/
def execMcrEvtsel (cond : BitVec 4) (rt : BitVec 4) (s : State) : Host.Outcome State Fault Refusal :=
  writeSys cond rt s.pmuOpen s fun v => onSelected s fun n =>
    { s.pmu with evtsel := s.pmu.evtsel.set n (v &&& 0xFF) n.isLt }

/-- MRC of PMCNT (R1534). -/
def execMrcPmcnt (cond : BitVec 4) (rt : BitVec 4) (s : State) : Host.Outcome State Fault Refusal :=
  readSysMaybe cond rt s.pmuOpen ((pmuSelected s).map fun n => s.pmu.pmcnt[n]) s

/-- MCR of PMCNT (R1534). -/
def execMcrPmcnt (cond : BitVec 4) (rt : BitVec 4) (s : State) : Host.Outcome State Fault Refusal :=
  writeSys cond rt s.pmuOpen s fun v => onSelected s fun n =>
    { s.pmu with pmcnt := s.pmu.pmcnt.set n v n.isLt }

/-- MRC of USEREN, in any mode (R1535). -/
def execMrcUseren (cond : BitVec 4) (rt : BitVec 4) (s : State) : Host.Outcome State Fault Refusal :=
  readSys cond rt s.sysUser s.pmu.useren s

/-- MCR of USEREN (R1535). -/
def execMcrUseren (cond : BitVec 4) (rt : BitVec 4) (s : State) : Host.Outcome State Fault Refusal :=
  writeSys cond rt s.sysPriv s fun v => { s with pmu := { s.pmu with useren := v &&& 1 } }

/-- MRC of INTENS (R1536). -/
def execMrcIntens (cond : BitVec 4) (rt : BitVec 4) (s : State) : Host.Outcome State Fault Refusal :=
  readSys cond rt s.sysPriv s.pmu.inten s

/-- MCR of INTENS (R1536). -/
def execMcrIntens (cond : BitVec 4) (rt : BitVec 4) (s : State) : Host.Outcome State Fault Refusal :=
  writeSys cond rt s.sysPriv s fun v => { s with pmu := { s.pmu with inten := s.pmu.inten ||| (v &&& 0x8000000F) } }

/-- MRC of INTENC (R1537). -/
def execMrcIntenc (cond : BitVec 4) (rt : BitVec 4) (s : State) : Host.Outcome State Fault Refusal :=
  readSys cond rt s.sysPriv s.pmu.inten s

/-- MCR of INTENC (R1537). -/
def execMcrIntenc (cond : BitVec 4) (rt : BitVec 4) (s : State) : Host.Outcome State Fault Refusal :=
  writeSys cond rt s.sysPriv s fun v => { s with pmu := { s.pmu with inten := s.pmu.inten &&& ~~~(v &&& 0x8000000F) } }

end Sys2Proof.Machine
end

