-- ==== Sys2Proof/Machine/Cti.lean ====
section
/-! DEFINITION. The cross trigger interface: its triggers and channels, and its registers (19_etm_cti.md R940 to R967). -/

namespace Sys2Proof.Machine

/-- The debug unit is in integration mode (17_debug_management.md R768). -/
def State.debugIntegration (s : State) : Bool := s.dbg.itctrl.getLsbD 0

/-- The CTI is in integration mode (R949, R962). -/
def State.ctiIntegration (s : State) : Bool := s.cti.itctrl.getLsbD 0

/-- An output of the debug unit to the CTI: in integration mode a bit of ITCTRL-IOC (17_debug_management.md R765). -/
def State.toCti (s : State) (i : Nat) (functional : Bool) : Bool :=
  if s.debugIntegration then s.dbg.itIoc.getLsbD i else functional

/-- DBGACK (17_debug_management.md R792; DSCR[10], 16_debug_registers.md R660), as the debug unit makes it. -/
def State.dbgack (s : State) : Bool := s.halted || s.dbg.dscr.getLsbD 10

/-- Debug entry: a pulse in r3, before that the level DBGTRIGGER (R945). -/
def State.debugEntry (s : State) : Bool := if s.build.revision.third then s.cti.dbgEntry else s.dbgack

/-- The outputs EXTOUT[0], EXTOUT[1] and TRIGGER of the ETM, which a build without one lacks: in integration mode what ITMISCOUT
and ITTRIGGER drive (R909, R962), else inputs of the model. -/
def State.etmOutputs (s : State) : BitVec 3 :=
  if !s.build.hasEtm then 0
  else if s.etm.integration then bit s.etm.trigger ++ s.etm.extout
  else s.pins.etmOut

/-- Noninvasive debug is enabled: without it no trigger input is active (R942, R965). -/
def State.ctiOpen (s : State) : Bool := s.pins.dbgen || s.pins.niden

/-- The nine trigger inputs as they stand; none is active without noninvasive debug (R945, R965). Those of the core are
inactive while it has no power, the three of the ETM are not (63_pmu_power.md R2190). -/
def ctiLive (s : State) : BitVec 9 :=
  let etm := s.etmOutputs
  if s.ctiOpen then
    0#2 ++ etm.extractLsb' 2 1 ++ bit (s.toCti 2 (s.pins.coreUp && !s.dbg.dscr.getLsbD 29))
      ++ bit (s.toCti 1 (s.pins.coreUp && s.dbg.dscr.getLsbD 30)) ++ etm.extractLsb' 0 2
      ++ bit (s.toCti 3 (s.pins.coreUp && s.pmu.irq)) ++ bit (s.toCti 5 (s.pins.coreUp && s.debugEntry))
  else 0

/-- The trigger inputs; in integration mode one stays asserted until ITTRIGINACK acknowledges it (R962), while noninvasive debug
is enabled (R942). -/
def ctiTrigIn (s : State) : BitVec 9 :=
  if s.ctiIntegration && s.ctiOpen then ctiLive s ||| (s.cti.inHeld &&& ~~~s.cti.itTriginAck) else ctiLive s

/-- The channels the CTI itself drives (R942); `pulse` is what CTIAPPPULSE adds. -/
def ctiLocal (pulse : BitVec 4) (s : State) : BitVec 4 :=
  let fromInputs := (List.finRange 9).foldl (fun (r : BitVec 4) (i : Fin 9) =>
    if (ctiTrigIn s).getLsbD i then r ||| s.cti.inen[i] else r) 0
  if s.cti.glben then fromInputs ||| s.cti.appset ||| pulse else 0

/-- The channels, with those of the channel interface. -/
def ctiChannels (pulse : BitVec 4) (s : State) : BitVec 4 :=
  ctiLocal pulse s ||| (if s.cti.glben then s.pins.chin else 0)

/-- The trigger outputs before latching and edge detection. -/
def ctiRaw (pulse : BitVec 4) (s : State) : BitVec 9 :=
  (List.finRange 9).foldl (fun (r : BitVec 9) (j : Fin 9) =>
    if ctiChannels pulse s &&& s.cti.outen[j] != 0 then r ||| BitVec.twoPow 9 j else r) 0

/-- The CTI sees its inputs once (R942): outputs 0 and 8 are latched, 1 to 6 pulse where ASICCTL asks for edges, and
output 7, DBGRESTART, asks a halted core to restart; integration mode drives it from ITTRIGOUT (R962). The debug entry
pulse is over. -/
def ctiTick (pulse : BitVec 4) (s : State) : State :=
  let raw := ctiRaw pulse s
  { s with
    cti := { s.cti with
      raw := raw
      pulse := raw &&& ~~~s.cti.raw &&& (0#2 ++ s.cti.asicctl ++ 0#1)
      outLatch := s.cti.outLatch ||| (raw &&& 0x101)
      dbgEntry := false
      inHeld := if s.ctiIntegration then ctiTrigIn s else 0 }
    dbg := { s.dbg with restartReq := s.dbg.restartReq || ((if s.ctiIntegration then s.cti.itTrigout else raw).getLsbD 7 && s.halted) } }

/-- The trigger outputs (R942, R965); in integration mode ITTRIGOUT (R962), which drives outputs 1 to 6 also while DBGEN is LOW:
R962 and R965 do not say which goes before the other (DESIGN CHOICE, log 45). -/
def ctiTrigOut (s : State) : BitVec 9 :=
  let edges : BitVec 9 := 0#2 ++ s.cti.asicctl ++ 0#1
  let level := (s.cti.raw &&& ~~~edges) ||| (s.cti.pulse &&& edges)
  let level := if s.pins.dbgen then level else level &&& 0x181
  if s.ctiIntegration then s.cti.itTrigout else (level &&& 0x0FE) ||| (s.cti.outLatch &&& 0x101)

/-- The CTI asks the core to halt (R945, trigger output 0). -/
def State.ctiHalt (s : State) : Bool := (if s.ctiIntegration then s.cti.itTrigout else s.cti.outLatch).getLsbD 0

/-- The acknowledge inputs CTTRIGOUTACK as ITTRIGOUTACK reads them in integration mode (R962, Table 15-23): [7] DBGRESTARTED,
[0] DBGACK, from the debug unit. The functional level of DBGRESTARTED, which no rule gives, is DSCR[1], the core has restarted
(DESIGN CHOICE, log 45); the rule gives the register no use outside that mode, where it reads as its reset value. -/
def ctiTrigOutAck (s : State) : BitVec 9 :=
  if s.ctiIntegration then
    0#1 ++ bit (s.toCti 4 (s.dbg.dscr.getLsbD 1)) ++ 0#6 ++ bit (s.toCti 0 s.dbgack)
  else 0

/-- The key of the lock access registers (17_debug_management.md R775). -/
def lockKey : Word := 0xC5ACCE55

/-- A lock status register (R776). -/
def lockStatus (locked external : Bool) : Word := if external then 0 else if locked then 3 else 1

/-- What an APB read of CTI register `reg` returns (R949 to R967); reserved offsets and write-only registers other than
those give a free value or zero. ITTRIGIN and ITCHIN read the live inputs also outside integration mode, where R962 only says
not to use them (DESIGN CHOICE, log 45). -/
def ctiRead (reg : Nat) (external : Bool) (s : State) : Word :=
  if 8 ≤ reg ∧ reg < 17 then (s.cti.inen[Fin.ofNat 9 (reg - 8)]).setWidth 32
  else if 40 ≤ reg ∧ reg < 49 then (s.cti.outen[Fin.ofNat 9 (reg - 40)]).setWidth 32
  else match reg with
    | 0 => (bit s.cti.glben).setWidth 32
    | 4 => s.draw
    | 5 => s.cti.appset.setWidth 32
    | 7 => s.draw
    | 76 => (ctiTrigIn s).setWidth 32
    | 77 => (ctiTrigOut s).setWidth 32
    | 78 => s.pins.chin.setWidth 32
    | 79 => (if s.ctiIntegration then s.cti.itChout else ctiLocal 0 s &&& s.cti.gate).setWidth 32
    | 80 => s.cti.gate.setWidth 32
    | 81 => s.cti.asicctl.setWidth 32
    | 952 => s.draw
    | 953 => s.draw
    | 954 => s.draw
    | 956 => (ctiTrigOutAck s).setWidth 32
    | 957 => s.pins.chin.setWidth 32
    | 958 => (ctiTrigIn s).setWidth 32
    | 960 => s.cti.itctrl
    | 1000 => 0xF
    | 1001 => s.cti.claim.setWidth 32
    | 1004 => s.draw
    | 1005 => lockStatus s.cti.swLock external
    | 1006 => 0xA ||| (bit (s.pins.dbgen || s.pins.niden)).setWidth 32 <<< 2 ||| (bit s.pins.dbgen).setWidth 32
    | 1010 => 0x40900
    | 1011 => 0x14
    | 1012 => 0x04
    | 1016 => 0x22
    | 1017 => 0xB9
    | 1018 => s.build.revision.pid2 2
    | 1019 => s.build.revision.pid3 2
    | 1020 => 0x0D
    | 1021 => 0x90
    | 1022 => 0x05
    | 1023 => 0xB1
    | _ => 0

/-- The bits of CTIINTACK: [0] only from r3 on (R951). -/
def Build.ctiAckMask (k : Build) : BitVec 9 := if k.revision.third then 0x101 else 0x100

/-- The CTI with register `reg` written; read-only and reserved offsets ignore the write. -/
def ctiStore (k : Build) (reg : Nat) (v : Word) (c : Cti) : Cti :=
  if 8 ≤ reg ∧ reg < 17 then
    { c with inen := c.inen.set (Fin.ofNat 9 (reg - 8)) (v.setWidth 4) (Fin.ofNat 9 (reg - 8)).isLt }
  else if 40 ≤ reg ∧ reg < 49 then
    { c with outen := c.outen.set (Fin.ofNat 9 (reg - 40)) (v.setWidth 4) (Fin.ofNat 9 (reg - 40)).isLt }
  else match reg with
    | 0 => { c with glben := v.getLsbD 0 }
    | 4 => { c with outLatch := c.outLatch &&& ~~~(v.setWidth 9 &&& k.ctiAckMask) }
    | 5 => { c with appset := c.appset ||| v.setWidth 4 }
    | 6 => { c with appset := c.appset &&& ~~~v.setWidth 4 }
    | 80 => { c with gate := v.setWidth 4 }
    | 81 => { c with asicctl := v.setWidth 6 }
    | 952 => { c with itTriginAck := v.setWidth 9 }
    | 953 => { c with itChout := v.setWidth 4 }
    | 954 => { c with itTrigout := v.setWidth 9 }
    | 960 => { c with itctrl := v &&& 1 }
    | 1000 => { c with claim := c.claim ||| v.setWidth 4 }
    | 1001 => { c with claim := c.claim &&& ~~~v.setWidth 4 }
    | _ => c

/-- The CTI with register `reg` written, after it has seen its inputs. -/
def ctiWritten (reg : Nat) (v : Word) (s : State) : State :=
  ctiTick (if reg = 7 then v.setWidth 4 else 0) { s with cti := ctiStore s.build reg v s.cti }

/-- An APB write of CTI register `reg`: none where it withdraws the debug request before DBGACK, which is Unpredictable
(17_debug_management.md R792, 62_debug_events.md R2053). The software lock is set and cleared, and obeyed, only by accesses
that do not come from the debugger (17_debug_management.md R775). -/
def ctiWrite (reg : Nat) (external : Bool) (v : Word) (s : State) : Option State :=
  if reg = 1004 then
    some (if external then s else { s with cti := { s.cti with swLock := v != lockKey } })
  else if s.cti.swLock && !external then some s
  else
    let t := ctiWritten reg v s
    if s.ctiHalt && !t.ctiHalt && s.pins.dbgen && !s.dbgack then none else some t

end Sys2Proof.Machine
end

