-- ==== Sys2Proof/Machine/DebugRegs.lean ====
section
/-! DEFINITION. The registers of the debug unit as the APB port sees them, the locks, and save and restore
(16_debug_registers.md, 17_debug_management.md). -/

namespace Sys2Proof.Machine

/-- What an access to a register of the debug unit leads to: a next state, one in which the processor is to execute the
instruction in the ITR (R664), or behaviour the spec calls Unpredictable. -/
inductive Port where
  | next (s : State)
  | issue (s : State)
  | stop
  deriving DecidableEq, Repr

/-- Change the state it leads to. -/
def Port.map (p : Port) (f : State → State) : Port :=
  match p with
  | .next s => .next (f s)
  | .issue s => .issue (f s)
  | .stop => .stop

/-! ## DSCR as it is read (16_debug_registers.md R660) -/

/-- The bits of DSCR that are stored: the flags DTRRXfull and DTRTXfull among them. -/
def dscrStored : Word := 0x6238FDFF

/-- DSCR but for the latched flags [27], [26], [24]. -/
def dscrView (s : State) : Word :=
  let d := s.dbg.dscr &&& dscrStored
  let d := if s.pins.dbgen then d else d &&& 0xFFFF3FFF
  let d := setBit d 18 !s.secure
  let d := setBit d 17 !((s.pins.niden || s.pins.dbgen) && (s.pins.spniden || s.pins.spiden))
  setBit d 16 !s.secureDebug

/-! ## Register contents -/

/-- DSCR as the APB port reads it: the live flags in the places of the latched ones (R663). -/
def dscrByApb (s : State) : Word :=
  let d := setBit (setBit (dscrView s) 27 (s.dbg.dscr.getLsbD 30)) 26 (s.dbg.dscr.getLsbD 29)
  setBit d 24 s.dbg.instrCompl ||| (s.draw &&& 0x00C00200)

/-- A read of DSCR by the APB port copies the flags into the latches (R663). -/
def State.latchFlags (s : State) : State :=
  { s with dbg := { s.dbg with
      rxFullL := s.dbg.dscr.getLsbD 30, txFullL := s.dbg.dscr.getLsbD 29, instrComplL := s.dbg.instrCompl
      dscrRead := true } }

/-- Replace the bits of DSCR under a mask. -/
def dscrMerge (mask v : Word) (s : State) : State :=
  { s with dbg := { s.dbg with dscr := mergeBits s.dbg.dscr v mask } }

/-- Write DSCR (R660). -/
def dscrWrite (v : Word) (s : State) : State := dscrMerge 0x0030FC3C v s

/-- The bits of a breakpoint control register that exist (R682). -/
def bcrMask (n : Fin 6) : Word := if n.val < 4 then 0x1F5FC1E7 else 0x1F7FC1E7

/-- Write BCRn (R682). -/
def bcrWrite (n : Fin 6) (v : Word) (s : State) : State :=
  { s with dbg := { s.dbg with bcr := s.dbg.bcr.set n (v &&& bcrMask n) n.isLt } }

/-- Write BVRn (R680). -/
def bvrWrite (n : Fin 6) (v : Word) (s : State) : State :=
  { s with dbg := { s.dbg with bvr := s.dbg.bvr.set n (if n.val < 4 then v &&& 0xFFFFFFFC else v) n.isLt } }

/-- Write WVRn (R690). -/
def wvrWrite (n : Fin 2) (v : Word) (s : State) : State :=
  { s with dbg := { s.dbg with wvr := s.dbg.wvr.set n (v &&& 0xFFFFFFFC) n.isLt } }

/-- Write WCRn (R692). -/
def wcrWrite (n : Fin 2) (v : Word) (s : State) : State :=
  { s with dbg := { s.dbg with wcr := s.dbg.wcr.set n (v &&& 0x1F1FDFFF) n.isLt } }

/-! ## Save and restore (R702) -/

/-- Entry `k` of the sequence, counted from 0. DSCR carries the latched flags (R663). -/
def savedWord (k : Nat) (s : State) : Word :=
  let d := s.dbg
  if k < 2 then d.wcr[Fin.ofNat 2 (1 - k)]
  else if k < 4 then d.wvr[Fin.ofNat 2 (3 - k)]
  else if k < 10 then d.bcr[Fin.ofNat 6 (9 - k)]
  else if k < 16 then d.bvr[Fin.ofNat 6 (15 - k)]
  else match k with
    | 16 => d.dtrtx
    | 17 =>
      let v := setBit (setBit (dscrView s) 27 d.rxFullL) 26 d.txFullL
      setBit v 24 d.instrComplL ||| (s.draw &&& 0x00C00200)
    | 18 => d.dtrrx
    | 19 => d.dsccr
    | 20 => d.vcr
    | _ => d.wfar

/-- Restore entry `k`: the writable bits, and of DSCR also bits [30:29] and [27:26]. -/
def restoreWord (k : Nat) (v : Word) (s : State) : State :=
  if k < 2 then wcrWrite (Fin.ofNat 2 (1 - k)) v s
  else if k < 4 then wvrWrite (Fin.ofNat 2 (3 - k)) v s
  else if k < 10 then bcrWrite (Fin.ofNat 6 (9 - k)) v s
  else if k < 16 then bvrWrite (Fin.ofNat 6 (15 - k)) v s
  else match k with
    | 16 => { s with dbg := { s.dbg with dtrtx := v } }
    | 17 =>
      let t := dscrMerge 0x6030FC3C v s
      { t with dbg := { t.dbg with rxFullL := v.getLsbD 27, txFullL := v.getLsbD 26 } }
    | 18 => { s with dbg := { s.dbg with dtrrx := v } }
    | 19 => { s with dbg := { s.dbg with dsccr := v &&& 0x5 } }
    | 20 => { s with dbg := { s.dbg with vcr := v &&& 0xDE00DCDF } }
    | _ => { s with dbg := { s.dbg with wfar := v &&& 0xFFFFFFFE } }

/-- The sequence with its position moved. -/
def State.osAt (s : State) (q : OsSaveSeq) : State := { s with dbg := { s.dbg with osSave := q } }

/-- A read of OSSRR: the length first, then the entries; any other use is Unpredictable. -/
def ossrrRead (s : State) : Option (Word × State) :=
  match s.dbg.osSave with
  | .start => some (22, s.osAt (.reading 0))
  | .reading k => if k < 22 then some (savedWord k s, s.osAt (.reading (k + 1))) else none
  | .writing _ => none

/-- A write of OSSRR. -/
def ossrrWrite (v : Word) (s : State) : Port :=
  match s.dbg.osSave with
  | .start => .stop
  | .reading k => if k = 0 then .next (restoreWord 0 v (s.osAt (.writing 1))) else .stop
  | .writing k => if k < 22 then .next (restoreWord k v (s.osAt (.writing (k + 1)))) else .stop

/-! ## Reads and writes by register number (R650, R760) -/

/-- The identification registers 832 to 853 (R761). -/
def idRegister (b : Build) (k : Nat) : Word :=
  match k with
  | 0 => b.revision.midr
  | 1 => Config.ctr
  | 3 => Config.tlbtr
  | 4 => b.revision.midr
  | 6 => b.revision.midr
  | 7 => b.revision.midr
  | 8 => Config.idPfr0
  | 9 => Config.idPfr1
  | 10 => b.idDfr0
  | 11 => Config.idAfr0
  | 12 => Config.idMmfr0
  | 13 => Config.idMmfr1
  | 14 => Config.idMmfr2
  | 15 => Config.idMmfr3
  | 16 => Config.idIsar0
  | 17 => Config.idIsar1
  | 18 => Config.idIsar2
  | 19 => Config.idIsar3
  | 20 => Config.idIsar4
  | _ => 0

/-- The debug request and restart inputs from the CTI and the interrupt pins, as ITCTRL-IS reads them (R767). The rule speaks of
integration mode only; outside it the register reads the same inputs: DESIGN CHOICE, log 48. -/
def integrationInputs (s : State) : Word :=
  0#20 ++ (ctiTrigOut s).extractLsb' 7 1 ++ bit s.ctiHalt ++ (ctiTrigOut s).extractLsb' 5 2 ++ 0#5
    ++ bit s.pins.fiq ++ bit s.pins.irq ++ bit s.pins.edbgrq

/-- AUTHSTATUS (R780). -/
def authStatus (s : State) : Word :=
  let p := s.pins
  let any := p.dbgen || p.niden
  0#24 ++ 1#1 ++ bit (any && (p.spiden || p.spniden)) ++ 1#1 ++ bit (p.dbgen && p.spiden) ++ 1#1 ++ bit any
    ++ 1#1 ++ bit p.dbgen

/-- What a register reads as, OSSRR apart: write-only registers give free values, reserved ones zero. -/
def debugView (reg : Nat) (external : Bool) (s : State) : Word :=
  let d := s.dbg
  if 64 ≤ reg ∧ reg < 70 then d.bvr[Fin.ofNat 6 (reg - 64)]
  else if 80 ≤ reg ∧ reg < 86 then d.bcr[Fin.ofNat 6 (reg - 80)]
  else if 96 ≤ reg ∧ reg < 98 then d.wvr[Fin.ofNat 2 (reg - 96)]
  else if 112 ≤ reg ∧ reg < 114 then d.wcr[Fin.ofNat 2 (reg - 112)]
  else if 832 ≤ reg ∧ reg < 854 then idRegister s.build (reg - 832)
  else match reg with
    | 0 => s.build.revision.didr
    | 6 => d.wfar ||| (s.draw &&& 1)
    | 7 => d.vcr
    | 9 => d.ecr
    | 10 => d.dsccr
    | 32 => d.dtrrx
    | 33 => s.draw
    | 34 => dscrByApb s
    | 35 => if d.dscr.extractLsb' 20 2 = 0 ∧ !d.txFullL then s.draw else d.dtrtx
    | 36 => s.draw &&& 0xC
    | 192 => s.draw
    | 193 => 1 ||| (bit d.osLock).setWidth 32 <<< 1
    | 196 => d.prcr
    | 197 => 0#28 ++ d.prsr.extractLsb' 3 1 ++ bit (s.held || !s.pins.coreUp) ++ d.prsr.extractLsb' 1 1 ++ bit (!s.pins.dbgpwrdwnreq)
    | 957 => d.itIoc
    | 958 => d.itEoc
    | 959 => integrationInputs s
    | 960 => d.itctrl
    | 1000 => 0xFF
    | 1001 => d.claim.setWidth 32
    | 1004 => s.draw
    | 1005 => lockStatus d.swLock external
    | 1006 => authStatus s
    | 1011 => 0x15
    | 1012 => 0x04
    | 1016 => 0x08
    | 1017 => 0xBC
    | 1018 => s.build.revision.pid2 0
    | 1019 => s.build.revision.pid3 0
    | 1020 => 0x0D
    | 1021 => 0x90
    | 1022 => 0x05
    | 1023 => 0xB1
    | _ => 0

/-- Offsets at which there is no register (R650, R760). -/
def debugReserved (reg : Nat) : Bool :=
  !((64 ≤ reg && reg < 70) || (80 ≤ reg && reg < 86) || (96 ≤ reg && reg < 98) || (112 ≤ reg && reg < 114)
    || (832 ≤ reg && reg < 854) || (957 ≤ reg && reg < 961) || 1010 ≤ reg
    || [0, 6, 7, 9, 10, 32, 33, 34, 35, 36, 192, 193, 194, 196, 197, 1000, 1001, 1004, 1005, 1006].contains reg)

/-- The DTR access mode (R664). -/
def State.dtrMode (s : State) : Nat := (s.dbg.dscr.extractLsb' 20 2).toNat

/-- An access to the DTR or the ITR that R664 calls Unpredictable: in the reserved mode, and in Nonblocking or Fast mode where
the debugger has not read DSCR (log 40). -/
def State.dtrBlind (s : State) : Bool := s.dtrMode == 3 || (s.dtrMode != 1 && !s.dbg.dscrRead)

/-- InstrCompl and its latch are cleared (R663). -/
def State.instrStarts (s : State) : State := { s with dbg := { s.dbg with instrCompl := false, instrComplL := false } }

/-- In Fast mode an access to the DTR that succeeds clears InstrCompl and its latch, and issues the instruction in the ITR
again (R663, R664); nothing is issued outside debug state or with DSCR[13] = 0 (log 40). -/
def fastIssue (s : State) : Port :=
  if s.dtrMode != 2 then .next s
  else if s.halted && s.dbg.dscr.getLsbD 13 then .issue s.instrStarts
  else .next s.instrStarts

/-- What a read does beside giving the value (R663, R664, R706). -/
def debugReadEffect (reg : Nat) (s : State) : Port :=
  match reg with
  | 34 => .next s.latchFlags
  | 35 =>
    if s.dtrBlind then .stop
    else if s.dtrMode = 0 && !s.dbg.txFullL then .next s
    else fastIssue { s with dbg := { s.dbg with dscr := setBit s.dbg.dscr 29 false, txFullL := false } }
  | 197 => .next { s with dbg := { s.dbg with prsr := s.dbg.prsr &&& ~~~0xA } }
  | _ => .next s

/-- Write OSLAR (R700): the key locks and starts the save sequence; any other value unlocks, and may be caught (R675). -/
def oslarWrite (v : Word) (s : State) : State :=
  if v = lockKey then { s with dbg := { s.dbg with osLock := true, osSave := .start } }
  else { s with dbg := { s.dbg with
      osLock := false
      osUnlockReq := s.dbg.osUnlockReq || (s.dbg.osLock && s.dbg.ecr.getLsbD 0 && !s.halted) } }

/-- Write DRCR (R678). -/
def drcrWrite (v : Word) (s : State) : State :=
  let d := if v.getLsbD 3 then setBit s.dbg.dscr 25 false else s.dbg.dscr
  let d := if v.getLsbD 2 then setBits d 6 (0 : BitVec 3) else d
  { s with dbg := { s.dbg with
      dscr := d
      restartReq := s.dbg.restartReq || (v.getLsbD 1 && s.halted)
      haltReq := s.dbg.haltReq || (v.getLsbD 0 && !s.halted) } }

/-- Write PRCR (R705): clearing bit 2 lets a core that is held in reset run. -/
def prcrWrite (v : Word) (s : State) : State :=
  { s with dbg := { s.dbg with prcr := v &&& 0x5 }, held := s.held && v.getLsbD 2 }

/-- Write DTRRX (R664, R668). -/
def dtrrxWrite (v : Word) (s : State) : Port :=
  if s.dtrBlind then .stop
  else if s.dtrMode = 0 && s.dbg.rxFullL then .next s
  else fastIssue { s with dbg := { s.dbg with dtrrx := v, dscr := setBit s.dbg.dscr 30 true, rxFullL := true } }

/-- Write ITR (R664, R677). -/
def itrWrite (v : Word) (s : State) : Port :=
  if !s.halted || !s.dbg.dscr.getLsbD 13 || s.dtrBlind then .stop
  else if s.dtrMode = 0 && !s.dbg.instrComplL then .next s
  else
    let s' := { s with dbg := { s.dbg with itr := v } }
    if s.dtrMode = 2 then .next s' else .issue s'.instrStarts

/-- Write a register; read-only and reserved ones ignore it. -/
def debugWrite (reg : Nat) (v : Word) (s : State) : Port :=
  if 64 ≤ reg ∧ reg < 70 then .next (bvrWrite (Fin.ofNat 6 (reg - 64)) v s)
  else if 80 ≤ reg ∧ reg < 86 then .next (bcrWrite (Fin.ofNat 6 (reg - 80)) v s)
  else if 96 ≤ reg ∧ reg < 98 then .next (wvrWrite (Fin.ofNat 2 (reg - 96)) v s)
  else if 112 ≤ reg ∧ reg < 114 then .next (wcrWrite (Fin.ofNat 2 (reg - 112)) v s)
  else match reg with
    | 6 => .next { s with dbg := { s.dbg with wfar := v &&& 0xFFFFFFFE } }
    | 7 => .next { s with dbg := { s.dbg with vcr := v &&& 0xDE00DCDF } }
    | 9 => .next { s with dbg := { s.dbg with ecr := v &&& 0x1 } }
    | 10 => .next { s with dbg := { s.dbg with dsccr := v &&& 0x5 } }
    | 32 => dtrrxWrite v s
    | 33 => itrWrite v s
    | 34 => .next (dscrWrite v s)
    | 35 => .next { s with dbg := { s.dbg with dtrtx := v } }
    | 36 => .next (drcrWrite v s)
    | 192 => .next (oslarWrite v s)
    | 194 => ossrrWrite v s
    | 196 => .next (prcrWrite v s)
    | 957 => .next { s with dbg := { s.dbg with itIoc := v &&& 0x3F } }
    | 958 => .next { s with dbg := { s.dbg with itEoc := v &&& 0xFF } }
    | 960 => .next { s with dbg := { s.dbg with itctrl := v &&& 1 } }
    | 1000 => .next { s with dbg := { s.dbg with claim := s.dbg.claim ||| v.setWidth 8 } }
    | 1001 => .next { s with dbg := { s.dbg with claim := s.dbg.claim &&& ~~~v.setWidth 8 } }
    | _ => .next s

end Sys2Proof.Machine
end

