-- ==== Sys2Proof/Machine/Apb.lean ====
section
/-! DEFINITION. The APB port: who may reach which register, what an access answers, and which accesses wait
(16_debug_registers.md R653, R654, R664; 17_debug_management.md R790; 19_etm_cti.md R903). -/

namespace Sys2Proof.Machine

/-- How the port treats an access (R654): `either` answers an error or not, a free choice, and has no effect (R653); `open`
either answers an error without effect or lets the access through with a free value, a free choice again. -/
inductive ApbAnswer where
  | ok | error | either | open | unpredictable
  deriving DecidableEq, Repr

/-- Tables 12-6 and 12-7, and reserved offsets while a lock is set (R653). An access to OSSRR with the OS lock clear or the core
without power is refused (R702); the other states that Table 12-7 marks UNP answer in either way (93_implementation_defined.md
section 4). -/
def debugAnswer (reg : Nat) (s : State) : ApbAnswer :=
  let down := s.pins.dbgpwrdwnreq
  let sticky := s.dbg.prsr.getLsbD 1
  if debugReserved reg && (s.dbg.osLock || s.dbg.swLock) && !down && !sticky then .either
  else if [0, 9, 36, 193, 196, 197].contains reg || 961 ≤ reg then .ok
  else if reg = 192 then (if down then .open else .ok)
  else if reg = 194 then
    if !s.dbg.osLock || !s.pins.coreUp then .unpredictable else if down || sticky then .open else .ok
  else if down || sticky || s.dbg.osLock then .error
  else .ok

/-- Table 12-8 for the CTI, which has no OS lock. -/
def traceAnswer (reg : Nat) (s : State) : ApbAnswer :=
  if s.pins.dbgpwrdwnreq && reg < 961 then .error else .ok

/-- The ETM and the CTI answer in a build with an ETM only (17_debug_management.md R790). -/
def ApbSelect.present (sel : ApbSelect) (k : Build) : Bool := sel == .dbg || k.hasEtm

/-- The access is answered: PRDATA and PSLVERR. -/
def State.apbDone (s : State) (data : Word) (err : Bool) : State :=
  { s with dbg := { s.dbg with apbData := data, apbErr := err } }

/-- An answer that carries a free value. -/
def State.apbOpen (s : State) (err : Bool) : State := s.drawn.apbDone s.draw err

/-- A read of a debug register that is let through; with the software lock set, one that does not come from the debugger
changes nothing (R653). -/
def debugReadOk (reg : Nat) (external : Bool) (s : State) : Port :=
  let quiet := s.dbg.swLock && !external
  if reg = 194 then
    match ossrrRead s with
    | none => .stop
    | some (v, s') => .next ((if quiet then s else s').drawn.apbDone v false)
  else
    let v := debugView reg external s
    (if quiet then .next s.drawn else debugReadEffect reg s.drawn).map fun t => t.apbDone v false

/-- A read of a debug register. -/
def debugRead (reg : Nat) (external : Bool) (s : State) : Port :=
  match debugAnswer reg s with
  | .ok => debugReadOk reg external s
  | .error => .next (s.apbOpen true)
  | .either => .next (s.drawn.apbOpen (s.draw.getLsbD 0))
  | .open =>
    if s.draw.getLsbD 0 then .next (s.drawn.apbOpen true)
    else (debugReadOk reg external s.drawn).map fun t => t.apbOpen false
  | .unpredictable => .stop

/-- A write of a debug register that is let through: the software lock and LOCKACCESS are for accesses that do not come
from the debugger (17_debug_management.md R775). -/
def debugWriteOk (reg : Nat) (external : Bool) (v : Word) (s : State) : Port :=
  if reg = 1004 then .next (if external then s else { s with dbg := { s.dbg with swLock := v != lockKey } })
  else if s.dbg.swLock && !external then .next s
  else debugWrite reg v s

/-- A write to a debug register, which ignores the value where it is answered by an error. -/
def debugStore (reg : Nat) (external : Bool) (v : Word) (s : State) : Port :=
  match debugAnswer reg s with
  | .ok => (debugWriteOk reg external v s).map fun t => t.apbDone s.dbg.apbData false
  | .error => .next (s.apbDone s.dbg.apbData true)
  | .either => .next (s.drawn.apbDone s.dbg.apbData (s.draw.getLsbD 0))
  | .open =>
    if s.draw.getLsbD 0 then .next (s.drawn.apbDone s.dbg.apbData true)
    else (debugWriteOk reg external v s.drawn).map fun t => t.apbDone s.dbg.apbData false
  | .unpredictable => .stop

/-- The ETM registers whose contents the spec gives (19_etm_cti.md R903 to R909): the identification, and of the integration
test registers ITMISCIN, which reads DBGACK and EXTIN, and ITATBCTR2, whose two inputs are free. Three points are the model's
(log 20): offset 0xF00 is the Integration Mode Control Register (PRESUMED, as in the debug unit and the CTI); ITMISCIN and
ITATBCTR2 answer also where its bit [0] is clear, and ITMISCIN[4] is the functional DBGACK in every mode of the debug unit
(DESIGN CHOICE). -/
def etmRead (reg : Nat) (s : State) : Option Word :=
  match reg with
  | 952 => some (0#27 ++ bit s.dbgack ++ (ctiTrigOut s).extractLsb' 1 4)
  | 956 => some (s.draw &&& 3)
  | 960 => some ((bit s.etm.integration).setWidth 32)
  | 1 => some 0x8D294024
  | 121 => some 0x410CF236
  | 122 => some 0x0000898A
  | 1012 => some 0x04
  | 1013 => some 0
  | 1014 => some 0
  | 1015 => some 0
  | 1016 => some 0x21
  | 1017 => some 0xB9
  | 1018 => some (s.build.revision.pid2 1)
  | 1019 => some (s.build.revision.pid3 1)
  | 1020 => some 0x0D
  | 1021 => some 0x90
  | 1022 => some 0x05
  | 1023 => some 0xB1
  | _ => none

/-- Whether an access to an ETM register answers an error (Table 12-8): the management registers and OSLSR never; with
DBGPWRDWNREQ every register but OSLAR, OSSRR and PDSR. The rest hangs on the ETM's own OS lock, which is opaque state like
every register of the ETM the spec does not describe (log 20): a free choice. -/
def etmError (reg : Nat) (s : State) : Bool :=
  if 961 ≤ reg ∨ reg = 193 then false
  else if s.pins.dbgpwrdwnreq && !([192, 194, 197].contains reg) then true
  else if !s.pins.dbgpwrdwnreq && reg == 192 then false
  else s.draw.getLsbD 0

/-- The ETM with register `reg` written: its integration mode, ITMISCOUT and ITTRIGGER (R909); the rest is opaque (log 20). -/
def etmStore (reg : Nat) (v : Word) (e : Etm) : Etm :=
  match reg with
  | 951 => { e with extout := v.setWidth 2 }
  | 954 => { e with trigger := v.getLsbD 0 }
  | 960 => { e with integration := v.getLsbD 0 }
  | _ => e

/-- An APB read. The ETM is a pure observer: its registers change nothing else (19_etm_cti.md R900). -/
def apbRead (sel : ApbSelect) (external : Bool) (reg : Nat) (s : State) : Port :=
  if !sel.present s.build then .stop
  else match sel with
  | .dbg => debugRead reg external s
  | .cti =>
    if traceAnswer reg s = .error then .next (s.apbOpen true)
    else .next (s.drawn.apbDone (ctiRead reg external s) false)
  | .etm =>
    match etmRead reg s.drawn with
    | some v => .next (if etmError reg s then s.drawn.drawn.apbOpen true else s.drawn.drawn.apbDone v false)
    | none => .next (s.drawn.apbOpen (etmError reg s))

/-- An APB write. -/
def apbWrite (sel : ApbSelect) (external : Bool) (reg : Nat) (v : Word) (s : State) : Port :=
  if !sel.present s.build then .stop
  else match sel with
  | .dbg => debugStore reg external v s
  | .cti =>
    if traceAnswer reg s = .error then .next (s.apbDone s.dbg.apbData true)
    else match ctiWrite reg external v s with
      | some t => .next (t.apbDone s.dbg.apbData false)
      | none => .stop
  | .etm =>
    let t := if etmError reg s then s else { s with etm := etmStore reg v s.etm }
    .next (t.drawn.apbDone s.dbg.apbData (etmError reg s))

/-! ## Accesses that wait -/

/-- The registers of the debug power domain, which answer whatever the core's clock does (R650). Of the RAZ offsets to which
17_debug_management.md R760 gives no domain, 854 to 956 count as the core's and 1002, 1003 and 1007 to 1009 as the debug
domain's (DESIGN CHOICE, log 48). -/
def debugDomain (reg : Nat) : Bool :=
  [0, 9, 36, 192, 193, 196, 197].contains reg || (832 ≤ reg && reg < 854) || 961 ≤ reg

/-- The core's clock is off, in a core that has power: accesses outside the debug power domain get no response
(63_pmu_power.md R2161, R2164). -/
def State.clockOff (s : State) : Bool := s.pins.coreUp && s.run != .running && !s.pins.dbgnoclkstop

/-- Stall and Fast mode make an access to the DTR or the ITR wait for its flag (R664); a write of the ITR that is Unpredictable
(R677) does not wait. -/
def flagWait (reg : Nat) (write : Bool) (s : State) : Bool :=
  let mode := (s.dbg.dscr.extractLsb' 20 2).toNat
  (mode == 1 || mode == 2) &&
    ((write && reg == 32 && s.dbg.dscr.getLsbD 30) || (!write && reg == 35 && !s.dbg.dscr.getLsbD 29)
      || (write && reg == 33 && s.halted && s.dbg.dscr.getLsbD 13 && !s.dbg.instrCompl))

/-- An access to a debug register waits: only one the port lets through can. -/
def debugWaits (reg : Nat) (external write : Bool) (s : State) : Bool :=
  (s.clockOff && !debugDomain reg) ||
    (debugAnswer reg s == .ok && !(s.dbg.swLock && !external) && flagWait reg write s)

/-- An access to a register of one of the three files waits. -/
def apbWaits (sel : ApbSelect) (reg : Nat) (external write : Bool) (s : State) : Bool :=
  match sel with
  | .dbg => debugWaits reg external write s
  | _ => s.clockOff

/-- An event that cannot be served yet. -/
def waits (e : HostEvent) (s : State) : Bool :=
  match e with
  | .apbRead sel external reg => apbWaits sel reg.toNat external false s
  | .apbWrite sel external reg _ => apbWaits sel reg.toNat external true s
  | _ => false

/-! ## Accesses by the core itself (R650, R653; 92_eei_decisions.md D7; log 15) -/

/-- A load (`none`) or a store of a word by the core reaches the port: the access is not the debugger's, so the software lock
holds; a User mode access is stopped by the system, which answers an error or ignores it (R653). Behaviour the spec calls
Unpredictable, an access that would wait for the core itself and one that would issue the ITR end in `stop`. -/
def apbCore (sel : ApbSelect) (reg : Nat) (priv : Bool) (write : Option Word) (s : State) : Port :=
  if !priv then .next (s.apbOpen s.build.apb.userAborts)
  else if apbWaits sel reg false write.isSome s || !s.pins.debugUp then .stop
  else
    match (match write with
      | none => apbRead sel false reg s
      | some v => apbWrite sel false reg v s) with
    | .next t => .next t
    | _ => .stop

end Sys2Proof.Machine
end

