-- ==== Sys2Proof/Machine/Mmu.lean ====
section
/-! DEFINITION. Address translation: the TLBs, the table walk and the checks (21_mmu.md). -/

namespace Sys2Proof.Machine

/-- The outcome of an operation that may take a precise abort or meet behaviour the spec calls Unpredictable. -/
inductive Acc (α : Type) where
  | ok (a : α) (s : State)
  | abort (i : Abort) (s : State)
  | stop (f : Fault)
  deriving DecidableEq, Repr

/-- Go on with the value. -/
def Acc.bind {α β : Type} (x : Acc α) (f : α → State → Acc β) : Acc β :=
  match x with
  | .ok a s => f a s
  | .abort i s => .abort i s
  | .stop e => .stop e

/-- Read, Write or Fetch (R1100). -/
inductive XKind where
  | read | write | fetch
  deriving DecidableEq, Repr

/-- A translated address. -/
structure Phys where
  ns : Bool
  pa : Word
  attrs : MemAttrs
  deriving DecidableEq, Repr

/-- The modified virtual address (14_cp15_tlb_ple_misc.md R541). -/
def mvaOf (b : Banked) (va : Word) : Word :=
  if va.extractLsb' 25 7 = 0 then b.fcse.extractLsb' 25 7 ++ va.extractLsb' 0 25 else va

/-! ## Attributes of memory (20_memory.md R1031, R1032) -/

def strongAttrs : MemAttrs := ⟨.stronglyOrdered, true, .nonCacheable, .nonCacheable⟩
def deviceAttrs (shared : Bool) : MemAttrs := ⟨.device, shared, .nonCacheable, .nonCacheable⟩

/-- One of the defined types, chosen by a free value, for a reserved encoding (R1031, D4; log 3). -/
def freeAttrs (sh : Bool) (free : Word) : MemAttrs :=
  match (free.extractLsb' 0 2).toNat with
  | 0 => strongAttrs
  | 1 => deviceAttrs (free.getLsbD 2)
  | _ => ⟨.normal, sh, policyOf (free.extractLsb' 3 2), policyOf (free.extractLsb' 5 2)⟩

/-- TEX, C, B and S without remapping (R1031); the reserved TEX = 0b001, C = 1, B = 0 is Strongly ordered
(93_implementation_defined.md section 1). -/
def plainAttrs (tex : BitVec 3) (c b sh : Bool) (free : Word) : MemAttrs :=
  if tex.getLsbD 2 then ⟨.normal, sh, policyOf (bit c ++ bit b), policyOf (tex.extractLsb' 0 2)⟩
  else match tex.toNat, c, b with
    | 0, false, false => strongAttrs
    | 0, false, true => deviceAttrs true
    | 0, true, false => ⟨.normal, sh, .writeThrough, .writeThrough⟩
    | 0, true, true => ⟨.normal, sh, .writeBack, .writeBack⟩
    | 1, false, false => ⟨.normal, sh, .nonCacheable, .nonCacheable⟩
    | 1, true, false => strongAttrs
    | 1, true, true => ⟨.normal, sh, .writeBackAllocate, .writeBackAllocate⟩
    | 2, false, false => deviceAttrs false
    | _, _, _ => freeAttrs sh free

/-- TEX[0], C, B and S through PRRR and NMRR (R1032). -/
def remapAttrs (prrr nmrr : Word) (tex : BitVec 3) (c b sh : Bool) : MemAttrs :=
  let n := (tex.extractLsb' 0 1 ++ bit c ++ bit b).toNat
  match (prrr.extractLsb' (2 * n) 2).toNat with
  | 0 => strongAttrs
  | 1 => deviceAttrs (prrr.getLsbD (if sh then 17 else 16))
  | _ => ⟨.normal, prrr.getLsbD (if sh then 19 else 18), policyOf (nmrr.extractLsb' (2 * n) 2),
      policyOf (nmrr.extractLsb' (16 + 2 * n) 2)⟩

def attrsOf (k : Banked) (tex : BitVec 3) (c b sh : Bool) (free : Word) : MemAttrs :=
  if k.sctlr.getLsbD 28 then remapAttrs k.prrr k.nmrr tex c b sh else plainAttrs tex c b sh free

/-! ## The TLBs (R1104 to R1106) -/

/-- How many low address bits a page size covers. -/
def PageSize.bits : PageSize → Nat
  | .small => 12
  | .large => 16
  | .sec => 20
  | .supersec => 24

/-- A TLB entry matches a request (R1105). -/
def TlbEntry.matches (e : TlbEntry) (mva : Word) (asid : BitVec 8) (secure : Bool) : Bool :=
  (e.mva ++ 0#12) >>> e.size.bits == mva >>> e.size.bits && e.secure == secure && (e.glob || e.asid == asid)

/-- The entries of a TLB that match. -/
def tlbHits (tlb : Vector (Option TlbEntry) 32) (mva : Word) (asid : BitVec 8) (secure : Bool) : List TlbEntry :=
  tlb.toList.filterMap fun e => e.bind fun e => if e.matches mva asid secure then some e else none

/-- The output address of an entry (R1105). -/
def TlbEntry.output (e : TlbEntry) (mva : Word) : Word :=
  ((e.pa ++ 0#12) >>> e.size.bits <<< e.size.bits) ||| (mva &&& ((1#32 <<< e.size.bits) - 1))

/-- The TLB Lockdown Register after an allocation: Victim advances, wrapping from 31 to Base (R1106, R471). -/
def nextVictim (lock : Word) : Word :=
  let v := lock.extractLsb' 22 5
  setBits lock 22 (if v = 31 then lock.extractLsb' 27 5 else v + 1)

/-- A walk may make a locked entry: P is set, and the walk is Secure or NSACR.TL lets the Nonsecure state lock (R471,
12_cp15_control.md R266). -/
def State.locksTlb (s : State) (lock : Word) (secure : Bool) : Bool := lock.getLsbD 0 && (secure || s.sys.nsacr.getLsbD 17)

/-- Write an entry at Victim of the instruction or data TLB (R1106). -/
def allocateTlb (data : Bool) (e : TlbEntry) (s : State) : State :=
  if data then
    let i : Fin 32 := Fin.ofNat 32 (s.sys.dtlbLock.extractLsb' 22 5).toNat
    { s with
      dtlb := s.dtlb.set i (some { e with locked := s.locksTlb s.sys.dtlbLock e.secure }) i.isLt
      sys := { s.sys with dtlbLock := nextVictim s.sys.dtlbLock } }
  else
    let i : Fin 32 := Fin.ofNat 32 (s.sys.itlbLock.extractLsb' 22 5).toNat
    { s with
      itlb := s.itlb.set i (some { e with locked := s.locksTlb s.sys.itlbLock e.secure }) i.isLt
      sys := { s.sys with itlbLock := nextVictim s.sys.itlbLock } }

/-! ## The walk (R1110 to R1120) -/

/-- Why a translation fails: the status code, the domain where it is defined, an external cause and its kind. -/
structure TFault where
  status : BitVec 5
  domain : Option (BitVec 4)
  external : Bool
  slave : Bool
  deriving DecidableEq, Repr

/-- A fault that is not external. -/
def TFault.mmu (status : BitVec 5) (domain : Option (BitVec 4)) : TFault := ⟨status, domain, false, false⟩

/-- The abort a failed translation makes. -/
def TFault.abort (t : TFault) (mva : Word) (write : Bool) : Abort :=
  ⟨mva, write, t.status, t.domain, t.external, t.slave, false, false⟩

/-- The attributes of the translation tables, as TTBR gives them (R1113); C says no more of the inner policy than whether it is
cacheable. -/
def tableAttrs (ttbr : Word) : MemAttrs :=
  ⟨.normal, ttbr.getLsbD 1, if ttbr.getLsbD 0 then .writeThrough else .nonCacheable, policyOf (ttbr.extractLsb' 3 2)⟩

/-- The route of a walk read: never the L1 cache; the L2 cache as TTBR says (R1113). -/
def walkRoute (s : State) (secure : Bool) (ttbr : Word) : Bool :=
  s.l2OnIn secure && (tableAttrs ttbr).cached && (s.l2Policy (tableAttrs ttbr)).cacheable

/-- The L2 cache reports parity or ECC errors (R1134; 13_cp15_maint_pmu.md R435, R436). -/
def State.l2Checked (s : State) : Bool := s.build.l2Parity && s.sys.l2aux.getLsbD 21

/-- A parity or ECC error in the L2 cache (`l2`), or in an L1 cache, is reported (R1185, R1186; 60_exceptions.md R1944). -/
def State.parityReported (s : State) (l2 : Bool) : Bool := if l2 then s.l2Checked else s.sys.actlr.getLsbD 3

/-- What meets the descriptor read of a level: the kind of a bus error, or a parity error. -/
inductive WalkError where
  | bus (slave : Bool)
  | parity
  deriving DecidableEq, Repr

/-- A descriptor read (R1113, R1133, R1134): the word, or the error. A parity error is one of the L2 cache. -/
def walkRead (s : State) (secure : Bool) (ttbr : Word) (second ns : Bool) (pa : Word) : Except WalkError Word :=
  let l2 := walkRoute s secure ttbr
  let found := (List.range 4).map fun i => walkByte s l2 ns (pa + BitVec.ofNat 32 i)
  if found.any (·.external) then
    match busError s ns pa false with
    | some slave => .error (.bus slave)
    | none => .ok (assemble ((s.bank secure).sctlr.getLsbD 25) (found.map (·.value)))
  else if s.l2Checked && s.walkParityNext == some second then .error .parity
  else .ok (assemble ((s.bank secure).sctlr.getLsbD 25) (found.map (·.value)))

/-- How a walk ends that meets an error at a level: an external abort or a parity error on translation (R1133, R1134). -/
def WalkError.fault (e : WalkError) (second : Bool) : TFault :=
  match e with
  | .bus slave => ⟨if second then 0b01110 else 0b01100, none, true, slave⟩
  | .parity => .mmu (if second then 0b11110 else 0b11100) none

/-- TTBR1 rather than TTBR0 translates the address (12_cp15_control.md R275). -/
def usesTtbr1 (ttbcr mva : Word) : Bool :=
  let n := (ttbcr.extractLsb' 0 3).toNat
  n != 0 && mva >>> (32 - n) != 0

/-- The address of the first-level descriptor (R1112). -/
def l1Address (b : Banked) (mva : Word) : Word :=
  let index := (mva >>> 20) <<< 2
  if usesTtbr1 b.ttbcr mva then (b.ttbr1 &&& 0xFFFFC000) ||| index
  else
    let n := (b.ttbcr.extractLsb' 0 3).toNat
    (b.ttbr0 >>> (14 - n) <<< (14 - n)) ||| index

/-- The access flag check on a descriptor (R1125). -/
def accessFlagFault (b : Banked) (ap : BitVec 3) : Bool := b.sctlr.getLsbD 29 && !ap.getLsbD 0

/-- The entry a section or supersection descriptor makes (R1115, R1120). -/
def sectionEntry (s : State) (secure : Bool) (mva d : Word) : Except TFault TlbEntry :=
  let b := s.bank secure
  let super := d.getLsbD 18
  let ap : BitVec 3 := d.extractLsb' 15 1 ++ d.extractLsb' 10 2
  let domain : BitVec 4 := if super then 0 else d.extractLsb' 5 4
  if accessFlagFault b ap then .error (.mmu 0b00011 (some domain))
  else .ok {
    locked := false
    mva := mva.extractLsb' 12 20
    size := if super then .supersec else .sec
    asid := b.contextidr.extractLsb' 0 8
    glob := !d.getLsbD 17
    secure := secure
    pa := d.extractLsb' 12 20
    ns := !secure || d.getLsbD 19
    domain := domain
    ap := ap
    xn := d.getLsbD 4
    afe := b.sctlr.getLsbD 29
    sectionLevel := true
    attrs := attrsOf b (d.extractLsb' 12 3) (d.getLsbD 3) (d.getLsbD 2) (d.getLsbD 16) s.draw }

/-- The entry a second-level descriptor makes (R1117, R1120), below the first-level descriptor `d1`. -/
def pageEntry (s : State) (secure : Bool) (mva d1 d : Word) : Except TFault TlbEntry :=
  let b := s.bank secure
  let domain : BitVec 4 := d1.extractLsb' 5 4
  let small := d.getLsbD 1
  let ap : BitVec 3 := d.extractLsb' 9 1 ++ d.extractLsb' 4 2
  let tex : BitVec 3 := if small then d.extractLsb' 6 3 else d.extractLsb' 12 3
  if d.extractLsb' 0 2 = 0 then .error (.mmu 0b00111 (some domain))
  else if accessFlagFault b ap then .error (.mmu 0b00110 (some domain))
  else .ok {
    locked := false
    mva := mva.extractLsb' 12 20
    size := if small then .small else .large
    asid := b.contextidr.extractLsb' 0 8
    glob := !d.getLsbD 11
    secure := secure
    pa := d.extractLsb' 12 20
    ns := !secure || d1.getLsbD 3
    domain := domain
    ap := ap
    xn := if small then d.getLsbD 0 else d.getLsbD 15
    afe := b.sctlr.getLsbD 29
    sectionLevel := false
    attrs := attrsOf b tex (d.getLsbD 3) (d.getLsbD 2) (d.getLsbD 10) s.draw }

/-- The address of the second-level descriptor below a first-level one (R1116). -/
def l2Address (d mva : Word) : Word := (d &&& 0xFFFFFC00) ||| ((mva.extractLsb' 12 8).setWidth 32 <<< 2)

/-- The translation table base that a modified virtual address selects (R1112). -/
def ttbrOf (b : Banked) (mva : Word) : Word := if usesTtbr1 b.ttbcr mva then b.ttbr1 else b.ttbr0

/-- Walks from that base are disabled (TTBCR.PD0, PD1). -/
def walkOff (b : Banked) (mva : Word) : Bool := b.ttbcr.getLsbD (if usesTtbr1 b.ttbcr mva then 5 else 4)

/-- Where the walk for an address reads its descriptor of a level, when it does. -/
def walkPlace (s : State) (secure second : Bool) (mva : Word) : Option Phys :=
  let b := s.bank secure
  let ttbr := ttbrOf b mva
  if !b.sctlr.getLsbD 0 || walkOff b mva then none
  else if !second then some ⟨!secure, l1Address b mva, tableAttrs ttbr⟩
  else match walkRead s secure ttbr false (!secure) (l1Address b mva) with
    | .error _ => none
    | .ok d =>
      if d.extractLsb' 0 2 = 1 then some ⟨!secure || d.getLsbD 3, l2Address d mva, tableAttrs ttbr⟩ else none

/-- The table walk for a modified virtual address in a security state (R1110 to R1120, checks 2 to 7 of R1135); the next free value
settles reserved attributes. -/
def walk (s : State) (secure : Bool) (mva : Word) : Except TFault TlbEntry :=
  let b := s.bank secure
  let ttbr := ttbrOf b mva
  if walkOff b mva then .error (.mmu 0b00101 none)
  else match walkRead s secure ttbr false (!secure) (l1Address b mva) with
    | .error e => .error (e.fault false)
    | .ok d =>
      match (d.extractLsb' 0 2).toNat with
      | 1 =>
        match walkRead s secure ttbr true (!secure || d.getLsbD 3) (l2Address d mva) with
        | .error e => .error (e.fault true)
        | .ok d2 => pageEntry s secure mva d d2
      | 2 => sectionEntry s secure mva d
      | _ => .error (.mmu 0b00101 none)

/-- What a walk that fails leaves: a parity error is used up, and leaves the caches unpredictable (R1186). -/
def walkFailed (t : TFault) (s : State) : State :=
  if t.status = 0b11100 ∨ t.status = 0b11110 then { s.corrupted with walkParityNext := none } else s

/-! ## The checks (R1130, R1132) -/

/-- What a permission field lets an access do. -/
inductive Perm where
  | none | readOnly | readWrite
  deriving DecidableEq, Repr

/-- The permission table (R1132). -/
def permOf (afe : Bool) (ap : BitVec 3) (priv : Bool) : Perm :=
  let ap := if afe then ap ||| 1 else ap
  match ap.toNat, priv with
  | 1, true => .readWrite
  | 2, true => .readWrite
  | 2, false => .readOnly
  | 3, _ => .readWrite
  | 5, true => .readOnly
  | 6, _ => .readOnly
  | 7, _ => .readOnly
  | _, _ => .none

/-- The domain and permission checks on an entry (R1130, R1132), whose permissions mean what they meant when it was made
(70_reset_and_hazards.md R2241 H3); none means the access may go on. -/
def checkEntry (b : Banked) (e : TlbEntry) (priv : Bool) (kind : XKind) : Option TFault :=
  let d := (b.dacr >>> (2 * e.domain.toNat)).extractLsb' 0 2
  let perm := permOf e.afe e.ap priv
  let bad : Bool := match kind with
    | .write => perm != .readWrite
    | .read => perm == .none
    | .fetch => perm == .none || e.xn
  if d = 0 ∨ d = 2 then some (.mmu (if e.sectionLevel then 0b01001 else 0b01011) (some e.domain))
  else if d = 3 then none
  else if bad then some (.mmu (if e.sectionLevel then 0b01101 else 0b01111) (some e.domain))
  else none

/-! ## Translation (R1100, R1101) -/

/-- The address with the MMU off (R1101). -/
def flat (s : State) (secure : Bool) (kind : XKind) (mva : Word) : Phys :=
  let attrs := match kind with
    | .fetch =>
      let p : CachePolicy := if (s.bank secure).sctlr.getLsbD 12 then .writeThrough else .nonCacheable
      ⟨.normal, false, p, p⟩
    | _ => strongAttrs
  ⟨!secure, mva, attrs⟩

/-- The TLB entry for an address: one that matches, or what the walk finds, allocated (R1100, R1105, R1106). -/
def lookup (s : State) (secure : Bool) (kind : XKind) (mva : Word) : Acc TlbEntry :=
  let data := kind != .fetch
  let asid : BitVec 8 := (s.bank secure).contextidr.extractLsb' 0 8
  match tlbHits (if data then s.dtlb else s.itlb) mva asid secure with
  | [e] => .ok e s
  | [] =>
    match walk s secure mva with
    | .error t => .abort (t.abort mva (kind == .write)) (walkFailed t s)
    | .ok e => .ok e (allocateTlb data e s).drawn
  | _ => .stop .tlbMultipleMatch

/-- Translate a modified virtual address for an access (R1100). -/
def translate (s : State) (secure priv : Bool) (kind : XKind) (mva : Word) : Acc Phys :=
  if !(s.bank secure).sctlr.getLsbD 0 then .ok (flat s secure kind mva) s
  else (lookup s secure kind mva).bind fun e s' =>
    match checkEntry (s.bank secure) e priv kind with
    | some t => .abort (t.abort mva (kind == .write)) s'
    | none => .ok ⟨e.ns, e.output mva, e.attrs⟩ s'

end Sys2Proof.Machine
end

