-- ==== Sys2Proof/Machine/Watch.lean ====
section
/-! DEFINITION. Which software debug events the breakpoint, vector catch and watchpoint registers make (16_debug_registers.md
R672 to R693; 62_debug_events.md R2051). Where the registers are programmed in a way the spec calls Unpredictable or
reserved the event is a free choice: none (log 23). -/

namespace Sys2Proof.Machine

/-- An address mask field: 2^k - 1 (R682, R692). -/
def maskOf (k : BitVec 5) : Word := (1#32 <<< k.toNat) - 1

/-- Some of the listed conditions is a free choice, else they are joined by `or`. -/
def anyMaybe (l : List (Option Bool)) : Option Bool :=
  if l.contains (some true) then some true
  else if l.contains none then none
  else some false

/-- The security condition of BCR[15:14] and WCR[15:14]; 0b11 is reserved. -/
def ssacOk (f : BitVec 2) (s : State) : Option Bool :=
  match f.toNat with
  | 0 => some true
  | 1 => some !s.secure
  | 2 => some s.secure
  | _ => none

/-- The mode condition of BCR[2:1] (R682). -/
def bcrModeOk (f : BitVec 2) (s : State) : Bool :=
  match f.toNat with
  | 0 => s.mode == .usr || s.mode == .sys || s.mode == .svc
  | 1 => s.privileged
  | 2 => s.mode == .usr
  | _ => true

/-- BVR of pair `n` equals CONTEXTIDR (R685). -/
def contextHit (n : Fin 6) (s : State) : Bool := s.dbg.bvr[n] == s.cur.contextidr

/-- The linked context pair `l`: whether it matches; a pair that is not set up for linked context matching is a free
choice, one that is disabled never matches (R682, R683, R2051). -/
def linkedHit (l : BitVec 4) (self : Nat) (s : State) : Option Bool :=
  if l ≠ 4 ∧ l ≠ 5 ∨ l.toNat = self then none
  else
    let n : Fin 6 := if l = 4 then 4 else 5
    let c := s.dbg.bcr[n]
    if c.extractLsb' 20 3 ≠ 0b011 ∨ c.extractLsb' 5 4 ≠ 0xF ∨ c.extractLsb' 14 2 ≠ 0 ∨ c.extractLsb' 1 2 ≠ 3
        ∨ c.extractLsb' 24 5 ≠ 0 then none
    else some (c.getLsbD 0 && contextHit n s)

/-- The breakpoint match function for the instruction at `a` (R685), a virtual address as R651 has it (log 55). -/
def breakpointHit (n : Fin 6) (a : Word) (s : State) : Option Bool :=
  let c := s.dbg.bcr[n]
  let v := s.dbg.bvr[n]
  let meaning := (c.extractLsb' 20 3).toNat
  let mask := maskOf (c.extractLsb' 24 5)
  let bas := c.extractLsb' 5 4
  if !c.getLsbD 0 || meaning == 3 then some false
  else if 6 ≤ meaning then none
  else if mask ≠ 0 ∧ (mask = 1 ∨ mask = 3 ∨ bas ≠ 0xF ∨ v &&& mask ≠ 0 ∨ meaning = 2) then none
  else if meaning = 2 ∧ bas ≠ 0xF then none
  else if bas.getLsbD 0 != bas.getLsbD 1 || bas.getLsbD 2 != bas.getLsbD 3 then none
  else
    let iva := (a &&& ~~~3#32 &&& ~~~mask) == (v &&& ~~~3#32 &&& ~~~mask) && bas != 0
    match ssacOk (c.extractLsb' 14 2) s with
    | none => none
    | some ok =>
      if !(ok && bcrModeOk (c.extractLsb' 1 2) s) then some false
      else match meaning with
        | 0 => some iva
        | 4 => some !iva
        | 2 => some (contextHit n s)
        | 1 => if iva then linkedHit (c.extractLsb' 16 4) n s else some false
        | _ => if iva then some false else linkedHit (c.extractLsb' 16 4) n s

/-- Some breakpoint pair matches the instruction at `a`. -/
def breakpointEvent (a : Word) (s : State) : Option Bool :=
  anyMaybe ((List.finRange 6).map fun n => breakpointHit n a s)

/-- The vector address of VCR bit `b`, when the bit has one and its security condition holds (R672). -/
def vectorOf (b : Nat) (s : State) : Option Word :=
  let off : Word := BitVec.ofNat 32 (4 * (b % 8))
  let base (v : Banked) : Word := if v.sctlr.getLsbD 13 then 0xFFFF0000 else v.vbar &&& 0xFFFFFFE0
  if b = 0 then
    if s.secure then some (if s.sec.sctlr.getLsbD 13 then 0xFFFF0000 else 0) else none
  else if b % 8 = 5 ∨ b % 8 = 0 then none
  else if b < 8 then (if s.secure then some (base s.sec + off) else none)
  else if 10 ≤ b ∧ b < 16 then (if s.secure then some ((s.sys.mvbar &&& 0xFFFFFFE0) + off) else none)
  else if 25 ≤ b ∧ b < 32 then (if s.secure then none else some (base s.nsec + off))
  else none

/-- A vector catch event for the instruction at `a` (R672): Prefetch and Data Abort vectors are not caught in Monitor
debug-mode. -/
def vectorCatchEvent (a : Word) (s : State) : Bool :=
  (List.range 32).any fun b =>
    s.dbg.vcr.getLsbD b && vectorOf b s == some a &&
      !(s.debugResponse == .raises && (b % 8 == 3 || b % 8 == 4))

/-- One data access, as the watchpoints see it: its virtual address (R651, log 55), size in bytes, whether it loads and stores (SWP
does both), its privilege. -/
structure Touch where
  va : Word
  size : Nat
  loads : Bool
  stores : Bool
  priv : Bool

/-- The watchpoint match function (R693). -/
def watchpointHit (n : Fin 2) (t : Touch) (s : State) : Option Bool :=
  let c := s.dbg.wcr[n]
  let v := s.dbg.wvr[n]
  let mask := maskOf (c.extractLsb' 24 5)
  let bas := c.extractLsb' 5 8
  let ls := (c.extractLsb' 3 2).toNat
  let pr := (c.extractLsb' 1 2).toNat
  if !c.getLsbD 0 then some false
  else if ls = 0 ∨ pr = 0 then none
  else if mask ≠ 0 ∧ (mask = 1 ∨ mask = 3 ∨ bas ≠ 0xFF ∨ v &&& mask ≠ 0) then none
  else if v.getLsbD 2 && bas.extractLsb' 4 4 != 0 then none
  else match ssacOk (c.extractLsb' 14 2) s with
    | none => none
    | some ok =>
      let kind := (t.loads && (ls == 1 || ls == 3)) || (t.stores && (ls == 2 || ls == 3))
      let priv := pr == 3 || (pr == 1 && t.priv) || (pr == 2 && !t.priv)
      let base := v &&& ~~~3#32
      let touched := (List.range t.size).any fun i =>
        let a := t.va + BitVec.ofNat 32 i
        if mask ≠ 0 then (a &&& ~~~mask) == (v &&& ~~~mask)
        else (List.range 8).any fun k => bas.getLsbD k && a == base + BitVec.ofNat 32 k
      if !(ok && kind && priv && touched) then some false
      else if c.getLsbD 20 then linkedHit (c.extractLsb' 16 4) 6 s
      else some true

/-- Whether an access makes a watchpoint event that is acted on: never in debug state, nor where the event would be
ignored (R2052, R2054, R2080). -/
def watchEvent (t : Touch) (s : State) : Option Bool :=
  if s.halted || s.debugResponse == .ignored then some false
  else anyMaybe ((List.finRange 2).map fun n => watchpointHit n t s)

/-- A free choice settled by a free value. -/
def settle (m : Option Bool) (s : State) : Bool × State :=
  match m with
  | some b => (b, s)
  | none => (s.draw.getLsbD 0, s.drawn)

end Sys2Proof.Machine
end

