-- ==== Sys2Proof/Machine/Access.lean ====
section
/-! DEFINITION. One data access and the instruction fetch, from the virtual address to memory (20_memory.md R1002, R1003,
R1010 to R1014, R1045, R1070). -/

namespace Sys2Proof.Machine

/-- An access: its size in bytes (1, 2 or 4; 8 for a doubleword exclusive), the alignment it needs whatever SCTLR.A is, its
privilege, whether an external abort on it is precise on any memory (R1942), and whether a watchpoint sees it as a load or a
store (SWP is both). -/
structure Req where
  size : Nat
  align : Nat
  priv : Bool
  precise : Bool
  loads : Bool
  stores : Bool
  deriving DecidableEq, Repr

/-- The alignment fault (R1012); the domain is not defined. -/
def alignmentAbort (mva : Word) (write : Bool) : Abort := ⟨mva, write, 0b00001, none, false, false, false, false⟩

/-- An access is misaligned by SCTLR.A or by what its instruction needs (R1012, R1013). -/
def misaligned (s : State) (q : Req) (va : Word) : Bool :=
  (s.cur.sctlr.getLsbD 1 && va.toNat % q.size != 0) || va.toNat % q.align != 0

/-- The translated bytes of an access: those below `split` lie behind `first`, the others, on the next page, behind
`second` (R1010). -/
structure Span where
  first : Phys
  second : Phys
  split : Nat
  deriving DecidableEq, Repr

/-- Where byte `i` lies. -/
def Span.at (p : Span) (i : Nat) : Phys :=
  if i < p.split then { p.first with pa := p.first.pa + BitVec.ofNat 32 i }
  else { p.second with pa := p.second.pa + BitVec.ofNat 32 (i - p.split) }

/-- Translate the bytes of an access, page by page. -/
def span (s : State) (priv : Bool) (kind : XKind) (va : Word) (n : Nat) : Acc Span :=
  let low := va.toNat % 4096
  (translate s s.secure priv kind (mvaOf s.cur va)).bind fun p s1 =>
    if low + n ≤ 4096 then .ok ⟨p, p, n⟩ s1
    else
      let k := 4096 - low
      (translate s1 s1.secure priv kind (mvaOf s1.cur (va + BitVec.ofNat 32 k))).bind fun p2 s2 => .ok ⟨p, p2, k⟩ s2

/-- An access to Strongly ordered or Device memory that is not a multiple of its size (R1014). -/
def deviceMisaligned (p : Span) (n : Nat) (va : Word) : Bool :=
  va.toNat % n != 0 && (p.first.attrs.typ != .normal || p.second.attrs.typ != .normal)

/-- Steps 1 to 5 of R1045: alignment, translation, alignment on Strongly ordered and Device memory. -/
def prepare (q : Req) (kind : XKind) (va : Word) (s : State) : Acc Span :=
  let write := kind == .write
  if misaligned s q va then .abort (alignmentAbort (mvaOf s.cur va) write) s
  else (span s q.priv kind va q.size).bind fun p s1 =>
    if deviceMisaligned p q.size va then .abort (alignmentAbort (mvaOf s.cur va) write) s1
    else .ok p s1

/-- The precise external abort of an access (R1942). -/
def externalAbort (mva : Word) (write slave : Bool) : Abort := ⟨mva, write, 0b01000, none, true, slave, false, false⟩

/-- The watchpoint abort (62_debug_events.md R2056). -/
def watchAbort (mva : Word) (write : Bool) : Abort := ⟨mva, write, 0b00010, none, false, false, false, true⟩

/-- What an access of `n` bytes reads, byte by byte. -/
def readSpan (s : State) (p : Span) (n : Nat) : List Found :=
  (List.range n).map fun i => readByte s (s.dataRoute (p.at i).attrs) (p.at i).ns (p.at i).pa

/-- The bus error of a read, if it needs the bus. -/
def readError (s : State) (p : Span) (n : Nat) : Option Bool :=
  (List.range n).findSome? fun i =>
    if (readByte s (s.dataRoute (p.at i).attrs) (p.at i).ns (p.at i).pa).external then
      busError s (p.at i).ns (p.at i).pa false
    else none

/-- The bus error of a write, if it reaches the bus. -/
def writeError (s : State) (p : Span) (n : Nat) : Option Bool :=
  (List.range n).findSome? fun i =>
    if writeReach s (s.dataRoute (p.at i).attrs) (p.at i).ns (p.at i).pa = .bus then
      busError s (p.at i).ns (p.at i).pa true
    else none

/-- Store the bytes of an access, from byte `i` on. -/
def writeSpan (p : Span) : Nat → List Byte → State → State
  | _, [], s => s
  | i, b :: bs, s => writeSpan p (i + 1) bs (writeByte s (s.dataRoute (p.at i).attrs) (p.at i).ns (p.at i).pa b)

/-- The bytes of an access from byte `i` on, with what they replace below L1. -/
def lateBytes (s : State) (l2 : Bool) (p : Span) : Nat → List Byte → List LateByte
  | _, [] => []
  | i, b :: bs =>
    ⟨(p.at i).ns, (p.at i).pa, (belowL1 s l2 (p.at i).ns (p.at i).pa).value, b⟩ :: lateBytes s l2 p (i + 1) bs

/-- A store of bytes that lie in one line, from byte `i` of an access on, is late, all of it together (20_memory.md R1041,
R1046), where it goes beyond the L1 data cache; `rejected` by the bus it may still be gathered (22_caches.md R1168). -/
def lateStore (p : Span) (i : Nat) (bytes : List Byte) (rejected : Bool) (s : State) : State :=
  let r := s.dataRoute (p.at i).attrs
  let reach := writeReach s r (p.at i).ns (p.at i).pa
  let gathers := r.l2 && r.gathers && reach == .bus
  if reach = .l1 ∨ (rejected && !gathers) then s
  else s.makeLate (lateBytes s r.l2 p i bytes) .pending gathers (reach == .bus && !rejected)

/-- The same for each byte of an unaligned access that memory rejects. -/
def lateLoose (p : Span) : Nat → List Byte → State → State
  | _, [], s => s
  | i, b :: bs, s => lateLoose p (i + 1) bs (lateStore p i [b] true s)

/-- The `n` bytes that an unaligned access reads from byte `i` on, each by an access of its own between which other bus
masters may write (R1010, R1046). -/
def readLoose (p : Span) : Nat → Nat → State → List Byte × State
  | _, 0, s => ([], s)
  | i, n + 1, s =>
    let b := (readByte s (s.dataRoute (p.at i).attrs) (p.at i).ns (p.at i).pa).value
    let (bs, t) := readLoose p (i + 1) n (if n = 0 then s else s.gap)
    (b :: bs, t)

/-- Store the bytes of an unaligned access, from byte `i` on, each by an access of its own (R1010, R1046). -/
def writeLoose (p : Span) : Nat → List Byte → State → State
  | _, [], s => s
  | i, b :: bs, s =>
    let t := writeSpan p i [b] (lateStore p i [b] false s)
    writeLoose p (i + 1) bs (if bs = [] then t else t.gap)

/-- What a whole access reads, and stores: at once when it is aligned (R1046). -/
def readWhole (va : Word) (p : Span) (n : Nat) (s : State) : List Byte × State :=
  if va.toNat % n = 0 then ((readSpan s p n).map (·.value), s) else readLoose p 0 n s

def writeWhole (va : Word) (p : Span) (n : Nat) (bytes : List Byte) (s : State) : State :=
  if va.toNat % n = 0 then writeSpan p 0 bytes (lateStore p 0 bytes false s) else writeLoose p 0 bytes s

/-- A whole access that memory rejects changes nothing there (R1937); it may still be gathered. -/
def rejectWhole (va : Word) (p : Span) (n : Nat) (bytes : List Byte) (s : State) : State :=
  if va.toNat % n = 0 then lateStore p 0 bytes true s else lateLoose p 0 bytes s

/-- An external abort on this access is precise (R1942). -/
def preciseError (q : Req) (p : Span) : Bool := q.precise || p.first.attrs.typ == .stronglyOrdered

/-- A Strongly ordered access completes the stores before it (R1041). -/
def State.ordered (s : State) (p : Span) : State := if p.first.attrs.typ = .stronglyOrdered then s.drainStores else s

/-- Record events 0x06, 0x07 and 0x0F (R409). -/
def noteAccess (event : Nat) (n : Nat) (va : Word) (s : State) : State :=
  if va.toNat % n = 0 then s.note event else (s.note event).note 0x0F

/-- The watchpoint check, made once the access can no longer take a precise abort (R2056). -/
def watchGate (q : Req) (va : Word) (s : State) : Bool × State :=
  settle (watchEvent ⟨va, q.size, q.loads, q.stores, q.priv⟩ s) s

/-- The free bytes an access with an imprecise error reads (R1937); `n` is at most 8. -/
def freeBytes (n : Nat) (s : State) : List Byte := (toLE 4 s.draw ++ toLE 4 s.drawn.draw).take n

/-! ## The APB port as a place in memory (16_debug_registers.md R650, D7; log 15) -/

/-- The register file and the register that an access to the bus within one word selects. -/
def apbAccess (va : Word) (p : Span) (n : Nat) (onBus : Bool) (s : State) : Option (ApbSelect × Nat) :=
  if onBus && n ≤ 4 && va.toNat % n = 0 then apbTarget s.build.apb p.first.pa else none

/-- The `n` bytes of a word that lie at an address. -/
def laneBytes (pa : Word) (n : Nat) (w : Word) : List Byte := ((toLE 4 w).drop (pa.toNat % 4)).take n

/-- The word that carries bytes at an address; the port takes words only, and its other bytes are free. -/
def laneWord (pa : Word) (bytes : List Byte) (free : Word) : Word :=
  fromLE ((toLE 4 free).take (pa.toNat % 4) ++ bytes ++ (toLE 4 free).drop (pa.toNat % 4 + bytes.length))

/-- A load from the port, once the watchpoints have been looked at. -/
def readApb (q : Req) (va : Word) (p : Span) (sel : ApbSelect) (reg : Nat) (s : State) : Acc (List Byte) :=
  let mva := mvaOf s.cur va
  let (hit, s1) := watchGate q va s
  match apbCore sel reg q.priv none s1 with
  | .next t =>
    if t.dbg.apbErr && preciseError q p then .abort (externalAbort mva false true) t
    else if hit then .abort (watchAbort mva false) (if t.dbg.apbErr then t.pendAbort (.external true) else t)
    else if t.dbg.apbErr then
      .ok (freeBytes q.size t) (noteAccess 0x06 q.size va ((t.drawn.drawn.pendAbort (.external true)).ordered p))
    else .ok (laneBytes p.first.pa q.size t.dbg.apbData) (noteAccess 0x06 q.size va (t.ordered p))
  | _ => .stop .hostAction

/-- A store to the port; a watchpoint cancels it. -/
def writeApb (q : Req) (va : Word) (bytes : List Byte) (p : Span) (sel : ApbSelect) (reg : Nat) (s : State) : Acc Unit :=
  let mva := mvaOf s.cur va
  let (hit, s1) := watchGate q va s
  match apbCore sel reg q.priv (some (laneWord p.first.pa bytes s1.draw)) s1.drawn with
  | .next t =>
    if t.dbg.apbErr && preciseError q p then .abort (externalAbort mva true true) t
    else if hit then .abort (watchAbort mva true) s1
    else .ok () (noteAccess 0x07 q.size va ((if t.dbg.apbErr then t.pendAbort (.external true) else t).ordered p))
  | _ => if hit then .abort (watchAbort mva true) s1 else .stop .hostAction

/-! ## Steps 3 and 6 of R1045 -/

/-- A read of memory: the bytes at rising addresses. -/
def readMemory (q : Req) (va : Word) (p : Span) (s : State) : Acc (List Byte) :=
  let mva := mvaOf s.cur va
  match readError s p q.size with
  | some slave =>
    if preciseError q p then .abort (externalAbort mva false slave) s
    else
      let (hit, s') := watchGate q va (s.drawn.drawn.pendAbort (.external slave))
      if hit then .abort (watchAbort mva false) s' else .ok (freeBytes q.size s) (noteAccess 0x06 q.size va (s'.ordered p))
  | none =>
    let (hit, s') := watchGate q va s
    if hit then .abort (watchAbort mva false) s'
    else
      let (bytes, t) := readWhole va p q.size s'
      .ok bytes (noteAccess 0x06 q.size va (t.ordered p))

/-- A read. -/
def readBytes (q : Req) (va : Word) (p : Span) (s : State) : Acc (List Byte) :=
  match apbAccess va p q.size (readByte s (s.dataRoute p.first.attrs) p.first.ns p.first.pa).external s with
  | some (sel, reg) => readApb q va p sel reg s
  | none => readMemory q va p s

/-- Read the value of a translated access, in the byte order of CPSR.E. -/
def readAt (q : Req) (va : Word) (p : Span) (s : State) : Acc Word :=
  (readBytes q va p s).bind fun bytes s' => .ok (assemble (s.cpsr.getLsbD 9) bytes) s'

/-- Read `q.size` bytes at a virtual address; narrower values come zero-extended. -/
def readData (q : Req) (va : Word) (s : State) : Acc Word :=
  (prepare q .read va s).bind fun p s1 => readAt q va p s1

/-- A write of memory. One whose error is imprecise may or may not change memory (R1937), and one that a precise external
abort meets likewise; a watchpoint cancels it. -/
def writeMemory (q : Req) (va : Word) (bytes : List Byte) (p : Span) (s : State) : Acc Unit :=
  let mva := mvaOf s.cur va
  match writeError s p q.size with
  | some slave =>
    if preciseError q p then
      .abort (externalAbort mva true slave) (if s.draw.getLsbD 0 then writeWhole va p q.size bytes s.drawn else s.drawn)
    else
      let (hit, s1) := watchGate q va (s.pendAbort (.external slave))
      if hit then .abort (watchAbort mva true) s1
      else .ok () (noteAccess 0x07 q.size va
        ((if s1.draw.getLsbD 0 then writeWhole va p q.size bytes s1.drawn else rejectWhole va p q.size bytes s1.drawn).ordered p))
  | none =>
    let (hit, s1) := watchGate q va s
    if hit then .abort (watchAbort mva true) s1
    else .ok () (noteAccess 0x07 q.size va ((writeWhole va p q.size bytes s1).ordered p))

/-- A write. -/
def writeBytes (q : Req) (va : Word) (bytes : List Byte) (p : Span) (s : State) : Acc Unit :=
  match apbAccess va p q.size (writeReach s (s.dataRoute p.first.attrs) p.first.ns p.first.pa == .bus) s with
  | some (sel, reg) => writeApb q va bytes p sel reg s
  | none => writeMemory q va bytes p s

/-- Write the low `q.size` bytes of `v` by a translated access, in the byte order of CPSR.E. -/
def writeAt (q : Req) (va v : Word) (p : Span) (s : State) : Acc Unit :=
  writeBytes q va (disassemble (s.cpsr.getLsbD 9) q.size v) p s

/-- Write the low `q.size` bytes of `v` at a virtual address. -/
def writeData (q : Req) (va v : Word) (s : State) : Acc Unit :=
  (prepare q .write va s).bind fun p s1 => writeAt q va v p s1

/-- What an access leads to: the rest of the instruction, or the Data Abort. -/
def finish {α : Type} (x : Acc α) (f : α → State → Host.Outcome State Fault Refusal) : Host.Outcome State Fault Refusal :=
  match x with
  | .ok a s => f a s
  | .abort i s => .next (takeDataAbort i s)
  | .stop e => .fault e

/-! ## The fetch (R1002, R1021, R1931) -/

/-- Fetch the ARM instruction at `va`: always little-endian, checked as a Fetch in the current state and mode. The prefetch
buffer may hold bytes that stores have replaced (R1043). -/
def fetchWord (va : Word) (s : State) : Acc Word :=
  (translate s s.secure s.privileged .fetch (mvaOf s.cur va)).bind fun p s1 =>
    let r := s1.fetchRoute p.attrs
    let found := (List.range 4).map fun i => prefetched s1 r (va + BitVec.ofNat 32 i) p.ns (p.pa + BitVec.ofNat 32 i)
    match (if found.any (·.external) then busError s1 p.ns p.pa false else none) with
    | some slave => .abort (externalAbort (mvaOf s.cur va) false slave) s1
    | none => .ok (fromLE (found.map (·.value))) s1.lateChosen

end Sys2Proof.Machine
end

