-- ==== Sys2Proof/Machine/CacheOps.lean ====
section
/-! DEFINITION. What moves cache contents: writing lines back, cleaning, invalidating, allocating (22_caches.md R1150,
R1154, R1160, R1182). Instructions use the first half, other agents all of it (log 6). -/

namespace Sys2Proof.Machine

/-- The 64 bytes of a line, byte 0 lowest. -/
def packLine (f : Nat → Byte) : BitVec 512 :=
  (List.range 64).foldl (fun d i => d ||| ((f i).setWidth 512 <<< (8 * i))) 0

/-- The line in a set and way. -/
def lineAt (c : List CacheLine) (set way : Nat) : Option CacheLine := c.find? fun l => l.set == set && l.way == way

/-- The cache without the line in a set and way. -/
def dropLine (c : List CacheLine) (set way : Nat) : List CacheLine := c.filter fun l => !(l.set == set && l.way == way)

/-- The cache with the line in a set and way clean. -/
def markClean (c : List CacheLine) (set way : Nat) : List CacheLine :=
  c.map fun l => if l.set == set && l.way == way then { l with dirty := 0 } else l

/-- Store the listed bytes of a line in external memory. -/
def storeBytes (l : CacheLine) (bytes : List Nat) (s : State) : State :=
  bytes.foldl (fun s i => writeMem s l.ns (l.addr i) (l.byte i)) s

/-- Write the quadwords `quads` of a line to external memory (R1154). On a bus error, whose kind it gives, memory may or
may not change. -/
def putBack (l : CacheLine) (quads : BitVec 4) (s : State) : State × Option Bool :=
  let bytes := (List.range 64).filter fun i => quads.getLsbD (i / 16)
  match bytes.findSome? fun i => busError s l.ns (l.addr i) true with
  | none => (storeBytes l bytes s, none)
  | some slave => (if s.draw.getLsbD 0 then storeBytes l bytes s.drawn else s.drawn, some slave)

/-- Write a line back for the core: a bus error is an imprecise external abort (60_exceptions.md R1943). -/
def writeBack (l : CacheLine) (quads : BitVec 4) (s : State) : State :=
  match putBack l quads s with
  | (s', none) => fetchChanged l s s'
  | (s', some slave) => (fetchChanged l s s').pendAbort (.external slave)

/-! ## Cleaning and invalidating -/

/-- Clean the L2 line in a set and way: its dirty quadwords go to external memory. -/
def cleanL2 (set way : Nat) (s : State) : State :=
  match lineAt s.l2 set way with
  | none => s
  | some l =>
    let s' := if l.dirty = 0 then s else writeBack l l.dirty s
    { s' with l2 := markClean s'.l2 set way }

/-- Way `way` of the L2 cache is locked (13_cp15_maint_pmu.md R430). -/
def State.wayLocked (s : State) (way : Nat) : Bool := s.sys.l2lock.getLsbD way

/-- Put a line in its set and way of the L2 cache, whose previous occupant is written back. -/
def installL2 (l : CacheLine) (s : State) : State :=
  let s' := cleanL2 l.set l.way s
  fetchChanged l s' { s' with l2 := l :: dropLine s'.l2 l.set l.way }

/-- Give the L2 line for the address of a line of L1 its data. -/
def updateL2 (l : CacheLine) (s : State) : State :=
  fetchChanged l s { s with l2 := updateLine s.l2 (s.l2Set (l.addr 0)) l.ns (l.addr 0) fun m =>
    { m with data := l.data, dirty := if l.outer.back then 0xF else m.dirty } }

/-- Where a line of the L1 data cache goes when it is cleaned or replaced (R1182): with L2EN set (of its two copies that of the
state the core is in, also where no access causes the eviction and whatever space the line is of: DESIGN CHOICE, log 6) to the
L2 line for the same address, and through it to memory when the memory is not write-back; to a free choice of an unlocked L2 way or of
memory when L2 has no such line; with L2EN clear, without an L2 cache, and where the L2 cache does not cache the memory
(R1158), to memory. -/
def castOut (l : CacheLine) (s : State) : State :=
  let pa := l.addr 0
  if !s.cur.l2en || !s.build.hasL2 || !l.outer.cacheable then writeBack l 0xF s
  else match findLine s.l2 (s.l2Set pa) l.ns pa with
    | some _ => if l.outer.back then updateL2 l s else writeBack l 0xF (updateL2 l s)
    | none =>
      let way := (s.draw.extractLsb' 0 3).toNat
      if s.draw.getLsbD 3 && !s.wayLocked way then
        let s' := installL2 { l with set := s.l2Set pa, way := way, dirty := if l.outer.back then 0xF else 0 } s.drawn
        if l.outer.back then s' else writeBack l 0xF s'
      else writeBack l 0xF s.drawn

/-- Clean the L1 data cache line in a set and way. -/
def cleanL1d (set way : Nat) (s : State) : State :=
  match lineAt s.l1d set way with
  | none => s
  | some l =>
    let s' := if l.dirty = 0 then s else castOut l s
    { s' with l1d := markClean s'.l1d set way }

/-- Invalidate the L1 data cache line in a set and way, without writing it back. -/
def invalidateL1d (set way : Nat) (s : State) : State := { s with l1d := dropLine s.l1d set way }

/-- Invalidate the L2 line in a set and way, without writing it back. -/
def invalidateL2 (set way : Nat) (s : State) : State := { s with l2 := dropLine s.l2 set way }

/-- Apply an operation on a set and way to the L1 data cache line that holds a physical address, if one does. -/
def onL1d (f : Nat → Nat → State → State) (p : Phys) (s : State) : State :=
  match findLine s.l1d (s.l1Set p.pa) p.ns p.pa with
  | none => s
  | some l => f l.set l.way s

/-- The same for the L2 cache. -/
def onL2 (f : Nat → Nat → State → State) (p : Phys) (s : State) : State :=
  match findLine s.l2 (s.l2Set p.pa) p.ns p.pa with
  | none => s
  | some l => f l.set l.way s

/-! ## Allocation, by other agents -/

/-- The bytes of a line as external memory holds them. -/
def memLine (s : State) (ns : Bool) (pa : Word) : BitVec 512 :=
  let base := pa &&& 0xFFFFFFC0
  packLine fun i => memRead s.mem (memKey ns (base + BitVec.ofNat 32 i))

/-- The bytes of a line as an L1 cache sees them: from L2 if it is on and holds the line, else from memory. -/
def lineBelowL1 (s : State) (l2 : Bool) (ns : Bool) (pa : Word) : BitVec 512 :=
  let base := pa &&& 0xFFFFFFC0
  packLine fun i => (belowL1 s l2 ns (base + BitVec.ofNat 32 i)).value

/-- The same on the instruction side, which like the table walker misses the stores that have not arrived (R1043). -/
def lineFetched (s : State) (l2 : Bool) (ns : Bool) (pa : Word) : BitVec 512 :=
  let base := pa &&& 0xFFFFFFC0
  packLine fun i => (walkByte s l2 ns (base + BitVec.ofNat 32 i)).value

/-- External memory answers an error somewhere in a line. -/
def lineError (s : State) (ns : Bool) (pa : Word) : Option Bool :=
  (List.range 64).findSome? fun i => busError s ns ((pa &&& 0xFFFFFFC0) + BitVec.ofNat 32 i) false

/-- A line that L1 takes comes from L2, or from external memory without an error. -/
def lineReadable (s : State) (l2 : Bool) (ns : Bool) (pa : Word) : Bool :=
  (l2 && (findLine s.l2 (s.l2Set pa) ns pa).isSome) || (lineError s ns pa).isNone

/-- A clean line for a physical address. -/
def freshLine (s : State) (set way : Nat) (p : Phys) (data : BitVec 512) : CacheLine :=
  ⟨set, way, lineTag p.pa, p.ns, 0, s.l2Policy p.attrs, data⟩

/-- Fill a way of the L1 instruction cache; the previous occupant is dropped. -/
def fillL1i (set way : Nat) (p : Phys) (r : Route) (s : State) : State :=
  let s' := dropL1i (fun l => l.set == set && l.way == way) s
  { s' with l1i := freshLine s set way p (lineFetched s r.l2 p.ns p.pa) :: s'.l1i }

/-- Fill a way of the L1 data cache; a dirty previous occupant is cast out. -/
def fillL1d (way : Nat) (p : Phys) (r : Route) (s : State) : State :=
  let set := s.l1Set p.pa
  let s' := cleanL1d set way s
  { s' with l1d := freshLine s set way p (lineBelowL1 s' r.l2 p.ns p.pa) :: dropLine s'.l1d set way }

/-- Fill a way of the L2 cache from external memory; dirty quadwords of the previous occupant are written back. -/
def fillL2 (way : Nat) (p : Phys) (s : State) : State :=
  let set := s.l2Set p.pa
  let s' := cleanL2 set way s
  installL2 (freshLine s set way p (memLine s' p.ns p.pa)) s'

/-- In debug state with DSCCR[0] clear the L1 data cache and the L2 cache make no linefill, and the L2 cache no eviction
(62_debug_events.md R2106); which evictions from L1 still occur hangs on a hash of the virtual addresses that the spec does not
give, so they stay possible. -/
def State.cachesFrozen (s : State) : Bool := s.halted && !s.dbg.dsccr.getLsbD 0

/-- With ACTLR.ASA clear a speculative read of the instruction side, a walk included, does not reach external memory
(20_memory.md R1042): every external access is answered by an error. Instructions are fetched for execution from the line
of the pc only. -/
def State.confined (s : State) (va : Word) : State :=
  if s.sys.actlr.getLsbD 4 || lineTag va == lineTag s.pc then s
  else { s with bus := [⟨0, 2 ^ 32, false, true, true, true⟩, ⟨0, 2 ^ 32, true, true, true, true⟩] }

/-- A cache allocates on the instruction side: L1 with `l1`, else L2. -/
def allocateFetch (l1 : Bool) (va : Word) (way : Nat) (s : State) : State :=
  match translate s s.secure s.privileged .fetch (mvaOf s.cur va) with
  | .stop _ => s
  | .abort _ _ => s
  | .ok p s1 =>
    let r := s1.fetchRoute p.attrs
    if l1 then
      if r.l1 && (findLine s1.l1i (s1.l1Set va) p.ns p.pa).isNone && lineReadable s1 r.l2 p.ns p.pa then
        fillL1i (s1.l1Set va) (way % 4) p r s1
      else s1
    else if r.l2 && !s1.wayLocked way && (findLine s1.l2 (s1.l2Set p.pa) p.ns p.pa).isNone && (lineError s1 p.ns p.pa).isNone then
      fillL2 way p s1
    else s1

/-- A cache allocates on the data side: L1 with `l1`, else L2. -/
def allocateData (l1 : Bool) (va : Word) (way : Nat) (s : State) : State :=
  match translate s s.secure s.privileged .read (mvaOf s.cur va) with
  | .stop _ => s
  | .abort _ _ => s
  | .ok p s1 =>
    let r := s1.dataRoute p.attrs
    if l1 then
      if r.l1 && (findLine s1.l1d (s1.l1Set p.pa) p.ns p.pa).isNone && lineReadable s1 r.l2 p.ns p.pa then
        fillL1d (way % 4) p r s1
      else s1
    else if r.l2 && !s1.wayLocked way && (findLine s1.l2 (s1.l2Set p.pa) p.ns p.pa).isNone && (lineError s1 p.ns p.pa).isNone then
      fillL2 way p s1
    else s1

/-- Work on the instruction side, confined to the caches where R1042 has it so. No fetch occurs in debug state (R2106). -/
def confine (va : Word) (f : State → State) (s : State) : State :=
  if s.halted then s else { f (s.confined va) with bus := s.bus }

/-- The cache allocates the line at a virtual address of the current regime, if the rules let it (R1150): nothing happens
where the translation fails or finds memory that is not cached, where the bus answers an error, where the line is held
already, and in a locked way of L2. The TLB may be filled on the way. -/
def allocate (c : CacheName) (va : Word) (way : Nat) (s : State) : State :=
  match c with
  | .l1i => confine va (allocateFetch true va way) s
  | .l1d => if s.cachesFrozen then s else allocateData true va way s
  | .l2 => if s.cachesFrozen then s else allocateData false va way s

/-- The L2 cache allocates the line of a descriptor that the walk for an address reads (R1157). -/
def allocateWalk (second : Bool) (va : Word) (way : Nat) (s : State) : State :=
  match walkPlace s s.secure second (mvaOf s.cur va) with
  | none => s
  | some p =>
    if walkRoute s s.secure (ttbrOf s.cur (mvaOf s.cur va)) && !s.wayLocked way
        && (findLine s.l2 (s.l2Set p.pa) p.ns p.pa).isNone && (lineError s p.ns p.pa).isNone then fillL2 way p s
    else s

/-- The L2 cache allocates a line for an instruction fetch or a walk (R1157). -/
def allocateL2 (cause : L2Cause) (va : Word) (way : Nat) (s : State) : State :=
  if s.cachesFrozen then s
  else match cause with
    | .fetch => confine va (allocateFetch false va way) s
    | .firstLevel => allocateWalk false va way s
    | .secondLevel => allocateWalk true va way s

/-- The stores to an address that may still be gathered, the latest first. -/
def State.gathered (s : State) (ns : Bool) (pa : Word) : List LateByte :=
  ((s.late.filter fun l => (l.found ns pa).isSome).takeWhile (·.gathers)).filterMap fun l => l.found ns pa

/-- The late store writes in the line of a physical address. -/
def Late.inLine (l : Late) (p : Phys) : Bool := l.bytes.any fun b => b.ns == p.ns && lineTag b.pa == lineTag p.pa

/-- Memory as it was before the stores to a line that are gathered, which memory does not get. Where it would have rejected
them, the error comes at the eviction. -/
def takeBack (p : Phys) (s : State) : State :=
  let pa (i : Nat) : Word := (p.pa &&& 0xFFFFFFC0) + BitVec.ofNat 32 i
  let old (i : Nat) : Byte := ((s.gathered p.ns (pa i)).getLast?.map (·.old)).getD 0
  let s1 := (List.range 64).foldl (fun t i => writeMem t p.ns (pa i) (old i)) s
  let rejected := (List.range 64).any fun i => (busError s p.ns (pa i) true).isSome
  { s1 with
    late := s1.late.map fun l => if l.inLine p then { l with gathers := false, onBus := false } else l
    abortPending := if rejected && s.abortHeld then none else s.abortPending
    abortHeld := s.abortHeld && !rejected }

/-- A store sequence that has written a whole line makes an L2 line of it without reading external memory (R1168): memory has
none of the stores. -/
def gatherLine (va : Word) (way : Nat) (s : State) : State :=
  match translate s s.secure s.privileged .write (mvaOf s.cur va) with
  | .stop _ => s
  | .abort _ _ => s
  | .ok p s1 =>
    let stores (i : Nat) : List LateByte := s1.gathered p.ns ((p.pa &&& 0xFFFFFFC0) + BitVec.ofNat 32 i)
    if !s1.cachesFrozen && (s1.dataRoute p.attrs).l2 && !s1.wayLocked way && (findLine s1.l2 (s1.l2Set p.pa) p.ns p.pa).isNone
        && (List.range 64).all fun i => stores i != [] then
      let line := { freshLine s1 (s1.l2Set p.pa) way p (packLine fun i => ((stores i).head?.map (·.new)).getD 0) with dirty := 0xF }
      let s2 := cleanL2 line.set way (takeBack p s1)
      { s2 with l2 := line :: dropLine s2.l2 line.set way }
    else s1

/-- A cache drops a clean line. -/
def dropIfClean (c : CacheName) (set way : Nat) (s : State) : State :=
  let clean (m : List CacheLine) : Bool := (lineAt m set way).any fun l => l.dirty == 0
  match c with
  | .l1i => dropL1i (fun l => l.set == set && l.way == way) s
  | .l1d => if clean s.l1d then invalidateL1d set way s else s
  | .l2 => if clean s.l2 then invalidateL2 set way s else s

/-- A cache writes a dirty line to the next level and keeps it, clean. -/
def evict (c : CacheName) (set way : Nat) (s : State) : State :=
  match c with
  | .l1i => s
  | .l1d => cleanL1d set way s
  | .l2 => if s.cachesFrozen then s else cleanL2 set way s

end Sys2Proof.Machine
end

