-- ==== Sys2Proof/WellFormed.lean ====
section
/-! DEFINITION. Well-formed instructions: the operand values that the row of an instruction admits and that no earlier row of the table claims. -/

namespace Sys2Proof

/-- The fields that select a register in an MRC or MCR word (R1370), as one number: opc1, L, CRn, CRm, opc2. -/
def transferKey (opc1 : BitVec 3) (l : BitVec 1) (cRn cRm : BitVec 4) (opc2 : BitVec 3) : BitVec 15 :=
  opc1 ++ l ++ cRn ++ cRm ++ opc2

/-- The MRC and MCR tuples of CP14 that have a row of their own (41_cp14_vfp_sysreg_instructions.md R1555 to R1574). -/
def p14Keys : List (BitVec 15) :=
    [0x0800, 0x0880, 0x0900, 0x0808, 0x0828, 0x0028, 0x6800, 0x6000, 0x6880, 0x6080, 0x7800, 0x7880] ++
    [0x7080, 0x7900, 0x7100]

/-- The MRC and MCR tuples of CP15 that have a row of their own (TRM Table 3-3; 40_cp15_instructions.md, 48_cp15_instructions_c10_c15.md). -/
def p15Keys : List (BitVec 15) :=
    [0x0800, 0x0804, 0x0806, 0x0807, 0x0801, 0x0802, 0x0803, 0x0805, 0x0808, 0x0809, 0x080A, 0x080B] ++
    [0x080C, 0x080D, 0x080E, 0x080F, 0x0810, 0x0811, 0x0812, 0x0813, 0x0814, 0x0815, 0x0816, 0x0817] ++
    [0x1800, 0x1801, 0x1807, 0x2800, 0x2000, 0x0880, 0x0080, 0x0881, 0x0081, 0x0882, 0x0082, 0x0888] ++
    [0x0088, 0x0889, 0x0089, 0x088A, 0x008A, 0x0900, 0x0100, 0x0901, 0x0101, 0x0902, 0x0102, 0x0980] ++
    [0x0180, 0x0A80, 0x0280, 0x0A81, 0x0281, 0x0A88, 0x0288, 0x0A89, 0x0289, 0x0B00, 0x0300, 0x0B02] ++
    [0x0302, 0x0384, 0x0BA0, 0x03A0, 0x03A8, 0x03A9, 0x03AC, 0x03AE, 0x03AF, 0x03B1, 0x03B2, 0x03C0] ++
    [0x03C1, 0x03C2, 0x03C3, 0x03C4, 0x03C5, 0x03C6, 0x03C7, 0x03D1, 0x03D2, 0x03D4, 0x03D5, 0x03D9] ++
    [0x03F1, 0x03F2, 0x0428, 0x0429, 0x042A, 0x0430, 0x0431, 0x0432, 0x0438, 0x0439, 0x043A, 0x0CE0] ++
    [0x04E0, 0x0CE1, 0x04E1, 0x0CE2, 0x04E2, 0x0CE3, 0x04E3, 0x0CE4, 0x04E4, 0x0CE5, 0x04E5, 0x0CE8] ++
    [0x04E8, 0x0CE9, 0x04E9, 0x0CEA, 0x04EA, 0x0CF0, 0x04F0, 0x0CF1, 0x04F1, 0x0CF2, 0x04F2, 0x1C80] ++
    [0x1480, 0x1C82, 0x1482, 0x0D00, 0x0500, 0x0D01, 0x0501, 0x0508, 0x0509, 0x0D10, 0x0510, 0x0D11] ++
    [0x0511, 0x0D80, 0x0D81, 0x0D82, 0x0D83, 0x0D88, 0x0588, 0x0D90, 0x0590, 0x0598, 0x0599, 0x059A] ++
    [0x0DA0, 0x05A0, 0x0DA8, 0x05A8, 0x0DB8, 0x05B8, 0x0DC0, 0x0DF8, 0x05F8, 0x0E00, 0x0600, 0x0E01] ++
    [0x0601, 0x0E08, 0x0E80, 0x0680, 0x0E81, 0x0681, 0x0E82, 0x0682, 0x0E83, 0x0683, 0x0E84, 0x0684] ++
    [0x0F80, 0x0780, 0x0F81, 0x0781, 0x0782, 0x0783, 0x0784, 0x0785, 0x0786, 0x0787, 0x0792, 0x0793] ++
    [0x0794, 0x0795, 0x0796, 0x0797, 0x0F88, 0x0788, 0x0F89, 0x0789, 0x078A, 0x078B, 0x078C, 0x078D] ++
    [0x078E, 0x078F, 0x079A, 0x079B, 0x079C, 0x079D, 0x079E, 0x079F, 0x07AA, 0x07AB, 0x07BA, 0x07BB] ++
    [0x0FC0, 0x07C0, 0x0FC1, 0x07C1, 0x07C2, 0x07C3, 0x07C4, 0x0FC5, 0x07C5, 0x07CA, 0x07CB, 0x07CC]

/-- Coprocessors 10 and 11 are the NEON/VFP unit (10_state.md R51). -/
def vfpCoproc (c : BitVec 4) : Bool := c == 10 || c == 11

/-- The coprocessors the processor has: 10, 11, 14 and 15 (10_state.md R51). -/
def systemCoproc (c : BitVec 4) : Bool := c == 10 || c == 11 || c == 14 || c == 15

/-- The fixed bits of the named patterns of the unconditional space (R1369), as mask and value of bits [27:0]. -/
def uncondPatterns : List (BitVec 28 × BitVec 28) :=
    [(0xFF10020, 0x1000000), (0xFFF0000, 0x1010000), (0xF700000, 0x4500000), (0xF700010, 0x6500000)] ++
    [(0xF700000, 0x5500000), (0xF700010, 0x7500000), (0xF700000, 0x5100000), (0xF700010, 0x7100000)] ++
    [(0xF700000, 0x4100000), (0xF700010, 0x6100000), (0xFF000F0, 0x5700010), (0xFF000F0, 0x5700040)] ++
    [(0xFF000F0, 0x5700050), (0xFF000F0, 0x5700060), (0xE500000, 0x8400000), (0xE500000, 0x8100000)] ++
    [(0xE000000, 0xA000000), (0xE000000, 0x2000000), (0xF100000, 0x4000000), (0xE000000, 0xC000000)] ++
    [(0xF000000, 0xE000000)]

/-- Whether bits [27:0] of an unconditional word belong to a named pattern of R1369. -/
def uncondClaimed (bits : BitVec 28) : Bool :=
  uncondPatterns.any fun q => bits &&& q.1 == q.2

/-- The operand values a row admits: `cond` is not 0b1111 (R1353), the constraints of the row, and for a row that takes
what others leave, that no other row takes the word. -/
def Instr.wf : Instr → Bool
  | .cps _ _ _ _ _ _ => true
  | .setend _ => true
  | .pliImm _ _ _ => true
  | .pliReg _ _ _ _ _ => true
  | .pldImm _ _ _ => true
  | .pldReg _ _ _ _ _ => true
  | .pldwImm _ _ _ => true
  | .pldwReg _ _ _ _ _ => true
  | .memHintImm _ _ => true
  | .memHintReg _ _ _ => true
  | .clrex => true
  | .dsb _ => true
  | .dmb _ => true
  | .isb _ => true
  | .srs _ _ _ _ => true
  | .rfe _ _ _ _ => true
  | .blxImm _ _ => true
  | .asimdData _ => true
  | .asimdLoadStore _ _ => true
  | .coproc2LoadStore _ => true
  | .coproc2Reg _ => true
  | .uncondOther bits => !uncondClaimed bits
  | .mrs cond _ _ => cond != 15
  | .msrCpsrReg cond _ _ => cond != 15
  | .msrSpsrReg cond _ _ => cond != 15
  | .bx cond _ => cond != 15
  | .bxj cond _ => cond != 15
  | .blxReg cond _ => cond != 15
  | .clz cond _ _ => cond != 15
  | .qadd cond _ _ _ => cond != 15
  | .qsub cond _ _ _ => cond != 15
  | .qdadd cond _ _ _ => cond != 15
  | .qdsub cond _ _ _ => cond != 15
  | .bkpt cond _ _ => cond != 15
  | .smc cond _ => cond != 15
  | .smlabb cond _ _ _ _ => cond != 15
  | .smlabt cond _ _ _ _ => cond != 15
  | .smlatb cond _ _ _ _ => cond != 15
  | .smlatt cond _ _ _ _ => cond != 15
  | .smlawb cond _ _ _ _ => cond != 15
  | .smlawt cond _ _ _ _ => cond != 15
  | .smulwb cond _ _ _ => cond != 15
  | .smulwt cond _ _ _ => cond != 15
  | .smlalbb cond _ _ _ _ => cond != 15
  | .smlalbt cond _ _ _ _ => cond != 15
  | .smlaltb cond _ _ _ _ => cond != 15
  | .smlaltt cond _ _ _ _ => cond != 15
  | .smulbb cond _ _ _ => cond != 15
  | .smulbt cond _ _ _ => cond != 15
  | .smultb cond _ _ _ => cond != 15
  | .smultt cond _ _ _ => cond != 15
  | .swp cond _ _ _ => cond != 15
  | .swpb cond _ _ _ => cond != 15
  | .ldrex cond _ _ => cond != 15
  | .ldrexd cond _ _ => cond != 15
  | .ldrexb cond _ _ => cond != 15
  | .ldrexh cond _ _ => cond != 15
  | .strex cond _ _ _ => cond != 15
  | .strexd cond _ _ _ => cond != 15
  | .strexb cond _ _ _ => cond != 15
  | .strexh cond _ _ _ => cond != 15
  | .mul cond _ _ _ _ => cond != 15
  | .mla cond _ _ _ _ _ => cond != 15
  | .umaal cond _ _ _ _ => cond != 15
  | .mls cond _ _ _ _ => cond != 15
  | .umull cond _ _ _ _ _ => cond != 15
  | .umlal cond _ _ _ _ _ => cond != 15
  | .smull cond _ _ _ _ _ => cond != 15
  | .smlal cond _ _ _ _ _ => cond != 15
  | .strhtImm cond _ _ _ _ _ => cond != 15
  | .strhtReg cond _ _ _ _ => cond != 15
  | .ldrhtImm cond _ _ _ _ _ => cond != 15
  | .ldrhtReg cond _ _ _ _ => cond != 15
  | .ldrsbtImm cond _ _ _ _ _ => cond != 15
  | .ldrsbtReg cond _ _ _ _ => cond != 15
  | .ldrshtImm cond _ _ _ _ _ => cond != 15
  | .ldrshtReg cond _ _ _ _ => cond != 15
  | .strhImm cond p _ w _ _ _ _ => cond != 15 && !(p == 0 && w == 1)
  | .strhReg cond p _ w _ _ _ => cond != 15 && !(p == 0 && w == 1)
  | .ldrhImm cond p _ w _ _ _ _ => cond != 15 && !(p == 0 && w == 1)
  | .ldrhReg cond p _ w _ _ _ => cond != 15 && !(p == 0 && w == 1)
  | .ldrsbImm cond p _ w _ _ _ _ => cond != 15 && !(p == 0 && w == 1)
  | .ldrsbReg cond p _ w _ _ _ => cond != 15 && !(p == 0 && w == 1)
  | .ldrshImm cond p _ w _ _ _ _ => cond != 15 && !(p == 0 && w == 1)
  | .ldrshReg cond p _ w _ _ _ => cond != 15 && !(p == 0 && w == 1)
  | .ldrdImm cond p _ w _ _ _ _ => cond != 15 && !(p == 0 && w == 1)
  | .ldrdReg cond p _ w _ _ _ => cond != 15 && !(p == 0 && w == 1)
  | .strdImm cond p _ w _ _ _ _ => cond != 15 && !(p == 0 && w == 1)
  | .strdReg cond p _ w _ _ _ => cond != 15 && !(p == 0 && w == 1)
  | .movw cond _ _ _ => cond != 15
  | .movt cond _ _ _ => cond != 15
  | .nop cond => cond != 15
  | .yield cond => cond != 15
  | .wfe cond => cond != 15
  | .wfi cond => cond != 15
  | .sev cond => cond != 15
  | .dbg cond _ => cond != 15
  | .hintOther cond hint8 => cond != 15 && !(hint8 == 0 || hint8 == 1 || hint8 == 2 || hint8 == 3 || hint8 == 4 || BitVec.ule 0xF0 hint8)
  | .msrCpsrImm cond fieldMask _ => cond != 15 && fieldMask != 0
  | .msrSpsrImm cond _ _ => cond != 15
  | .andImm cond _ _ _ _ => cond != 15
  | .andReg cond _ _ _ _ _ _ => cond != 15
  | .andRsr cond _ _ _ _ _ _ => cond != 15
  | .eorImm cond _ _ _ _ => cond != 15
  | .eorReg cond _ _ _ _ _ _ => cond != 15
  | .eorRsr cond _ _ _ _ _ _ => cond != 15
  | .subImm cond _ _ _ _ => cond != 15
  | .subReg cond _ _ _ _ _ _ => cond != 15
  | .subRsr cond _ _ _ _ _ _ => cond != 15
  | .rsbImm cond _ _ _ _ => cond != 15
  | .rsbReg cond _ _ _ _ _ _ => cond != 15
  | .rsbRsr cond _ _ _ _ _ _ => cond != 15
  | .addImm cond _ _ _ _ => cond != 15
  | .addReg cond _ _ _ _ _ _ => cond != 15
  | .addRsr cond _ _ _ _ _ _ => cond != 15
  | .adcImm cond _ _ _ _ => cond != 15
  | .adcReg cond _ _ _ _ _ _ => cond != 15
  | .adcRsr cond _ _ _ _ _ _ => cond != 15
  | .sbcImm cond _ _ _ _ => cond != 15
  | .sbcReg cond _ _ _ _ _ _ => cond != 15
  | .sbcRsr cond _ _ _ _ _ _ => cond != 15
  | .rscImm cond _ _ _ _ => cond != 15
  | .rscReg cond _ _ _ _ _ _ => cond != 15
  | .rscRsr cond _ _ _ _ _ _ => cond != 15
  | .tstImm cond _ _ => cond != 15
  | .tstReg cond _ _ _ _ => cond != 15
  | .tstRsr cond _ _ _ _ => cond != 15
  | .teqImm cond _ _ => cond != 15
  | .teqReg cond _ _ _ _ => cond != 15
  | .teqRsr cond _ _ _ _ => cond != 15
  | .cmpImm cond _ _ => cond != 15
  | .cmpReg cond _ _ _ _ => cond != 15
  | .cmpRsr cond _ _ _ _ => cond != 15
  | .cmnImm cond _ _ => cond != 15
  | .cmnReg cond _ _ _ _ => cond != 15
  | .cmnRsr cond _ _ _ _ => cond != 15
  | .orrImm cond _ _ _ _ => cond != 15
  | .orrReg cond _ _ _ _ _ _ => cond != 15
  | .orrRsr cond _ _ _ _ _ _ => cond != 15
  | .movImm cond _ _ _ => cond != 15
  | .movReg cond _ _ _ _ _ => cond != 15
  | .movRsr cond _ _ _ _ _ => cond != 15
  | .bicImm cond _ _ _ _ => cond != 15
  | .bicReg cond _ _ _ _ _ _ => cond != 15
  | .bicRsr cond _ _ _ _ _ _ => cond != 15
  | .mvnImm cond _ _ _ => cond != 15
  | .mvnReg cond _ _ _ _ _ => cond != 15
  | .mvnRsr cond _ _ _ _ _ => cond != 15
  | .lslImm cond _ _ imm5 _ => cond != 15 && imm5 != 0
  | .lslReg cond _ _ _ _ => cond != 15
  | .lsrImm cond _ _ _ _ => cond != 15
  | .lsrReg cond _ _ _ _ => cond != 15
  | .asrImm cond _ _ _ _ => cond != 15
  | .asrReg cond _ _ _ _ => cond != 15
  | .rorImm cond _ _ imm5 _ => cond != 15 && imm5 != 0
  | .rorReg cond _ _ _ _ => cond != 15
  | .rrx cond _ _ _ => cond != 15
  | .adrAdd cond _ _ => cond != 15
  | .adrSub cond _ _ => cond != 15
  | .ldrtImm cond _ _ _ _ => cond != 15
  | .ldrtReg cond _ _ _ _ _ _ => cond != 15
  | .strtImm cond _ _ _ _ => cond != 15
  | .strtReg cond _ _ _ _ _ _ => cond != 15
  | .ldrbtImm cond _ _ _ _ => cond != 15
  | .ldrbtReg cond _ _ _ _ _ _ => cond != 15
  | .strbtImm cond _ _ _ _ => cond != 15
  | .strbtReg cond _ _ _ _ _ _ => cond != 15
  | .ldrImm cond p _ w _ _ _ => cond != 15 && !(p == 0 && w == 1)
  | .ldrReg cond p _ w _ _ _ _ _ => cond != 15 && !(p == 0 && w == 1)
  | .strImm cond p _ w _ _ _ => cond != 15 && !(p == 0 && w == 1)
  | .strReg cond p _ w _ _ _ _ _ => cond != 15 && !(p == 0 && w == 1)
  | .ldrbImm cond p _ w _ _ _ => cond != 15 && !(p == 0 && w == 1)
  | .ldrbReg cond p _ w _ _ _ _ _ => cond != 15 && !(p == 0 && w == 1)
  | .strbImm cond p _ w _ _ _ => cond != 15 && !(p == 0 && w == 1)
  | .strbReg cond p _ w _ _ _ _ _ => cond != 15 && !(p == 0 && w == 1)
  | .sadd16 cond _ _ _ => cond != 15
  | .sasx cond _ _ _ => cond != 15
  | .ssax cond _ _ _ => cond != 15
  | .ssub16 cond _ _ _ => cond != 15
  | .sadd8 cond _ _ _ => cond != 15
  | .ssub8 cond _ _ _ => cond != 15
  | .qadd16 cond _ _ _ => cond != 15
  | .qasx cond _ _ _ => cond != 15
  | .qsax cond _ _ _ => cond != 15
  | .qsub16 cond _ _ _ => cond != 15
  | .qadd8 cond _ _ _ => cond != 15
  | .qsub8 cond _ _ _ => cond != 15
  | .shadd16 cond _ _ _ => cond != 15
  | .shasx cond _ _ _ => cond != 15
  | .shsax cond _ _ _ => cond != 15
  | .shsub16 cond _ _ _ => cond != 15
  | .shadd8 cond _ _ _ => cond != 15
  | .shsub8 cond _ _ _ => cond != 15
  | .uadd16 cond _ _ _ => cond != 15
  | .uasx cond _ _ _ => cond != 15
  | .usax cond _ _ _ => cond != 15
  | .usub16 cond _ _ _ => cond != 15
  | .uadd8 cond _ _ _ => cond != 15
  | .usub8 cond _ _ _ => cond != 15
  | .uqadd16 cond _ _ _ => cond != 15
  | .uqasx cond _ _ _ => cond != 15
  | .uqsax cond _ _ _ => cond != 15
  | .uqsub16 cond _ _ _ => cond != 15
  | .uqadd8 cond _ _ _ => cond != 15
  | .uqsub8 cond _ _ _ => cond != 15
  | .uhadd16 cond _ _ _ => cond != 15
  | .uhasx cond _ _ _ => cond != 15
  | .uhsax cond _ _ _ => cond != 15
  | .uhsub16 cond _ _ _ => cond != 15
  | .uhadd8 cond _ _ _ => cond != 15
  | .uhsub8 cond _ _ _ => cond != 15
  | .pkhbt cond _ _ _ _ => cond != 15
  | .pkhtb cond _ _ _ _ => cond != 15
  | .sel cond _ _ _ => cond != 15
  | .ssat cond _ _ _ _ _ => cond != 15
  | .usat cond _ _ _ _ _ => cond != 15
  | .ssat16 cond _ _ _ => cond != 15
  | .usat16 cond _ _ _ => cond != 15
  | .sxtb16 cond _ _ _ => cond != 15
  | .sxtab16 cond rn _ _ _ => cond != 15 && rn != 15
  | .sxtb cond _ _ _ => cond != 15
  | .sxtab cond rn _ _ _ => cond != 15 && rn != 15
  | .sxth cond _ _ _ => cond != 15
  | .sxtah cond rn _ _ _ => cond != 15 && rn != 15
  | .uxtb16 cond _ _ _ => cond != 15
  | .uxtab16 cond rn _ _ _ => cond != 15 && rn != 15
  | .uxtb cond _ _ _ => cond != 15
  | .uxtab cond rn _ _ _ => cond != 15 && rn != 15
  | .uxth cond _ _ _ => cond != 15
  | .uxtah cond rn _ _ _ => cond != 15 && rn != 15
  | .rev cond _ _ => cond != 15
  | .rev16 cond _ _ => cond != 15
  | .rbit cond _ _ => cond != 15
  | .revsh cond _ _ => cond != 15
  | .smuad cond _ _ _ => cond != 15
  | .smusd cond _ _ _ => cond != 15
  | .smuadx cond _ _ _ => cond != 15
  | .smusdx cond _ _ _ => cond != 15
  | .smlad cond _ ra _ _ => cond != 15 && ra != 15
  | .smlsd cond _ ra _ _ => cond != 15 && ra != 15
  | .smlald cond _ _ _ _ => cond != 15
  | .smlsld cond _ _ _ _ => cond != 15
  | .smladx cond _ ra _ _ => cond != 15 && ra != 15
  | .smlsdx cond _ ra _ _ => cond != 15 && ra != 15
  | .smlaldx cond _ _ _ _ => cond != 15
  | .smlsldx cond _ _ _ _ => cond != 15
  | .smmul cond _ _ _ => cond != 15
  | .smmulr cond _ _ _ => cond != 15
  | .smmla cond _ ra _ _ => cond != 15 && ra != 15
  | .smmls cond _ _ _ _ => cond != 15
  | .smmlar cond _ ra _ _ => cond != 15 && ra != 15
  | .smmlsr cond _ _ _ _ => cond != 15
  | .usad8 cond _ _ _ => cond != 15
  | .usada8 cond _ ra _ _ => cond != 15 && ra != 15
  | .sbfx cond _ _ _ _ => cond != 15
  | .ubfx cond _ _ _ _ => cond != 15
  | .bfc cond _ _ _ => cond != 15
  | .bfi cond _ _ _ rn => cond != 15 && rn != 15
  | .udf cond _ _ => cond != 15
  | .popMulti cond _ => cond != 15
  | .pushMulti cond _ => cond != 15
  | .ldm cond _ _ _ _ _ => cond != 15
  | .stm cond _ _ _ _ _ => cond != 15
  | .ldmExcRet cond _ _ _ _ _ => cond != 15
  | .ldmUser cond _ _ _ _ => cond != 15
  | .stmUser cond _ _ _ _ => cond != 15
  | .b cond _ => cond != 15
  | .bl cond _ => cond != 15
  | .svc cond _ => cond != 15
  | .mrcDscrFlags cond => cond != 15
  | .mrcDidr cond _ => cond != 15
  | .mrcDrar cond _ => cond != 15
  | .mrcDsar cond _ => cond != 15
  | .mrcDscr cond rt => cond != 15 && rt != 15
  | .mrcDtr cond _ => cond != 15
  | .mcrDtr cond _ => cond != 15
  | .mrcTeecr cond _ => cond != 15
  | .mcrTeecr cond _ => cond != 15
  | .mrcTeehbr cond _ => cond != 15
  | .mcrTeehbr cond _ => cond != 15
  | .mrcJidr cond _ => cond != 15
  | .mrcJoscr cond _ => cond != 15
  | .mcrJoscr cond _ => cond != 15
  | .mrcJmcr cond _ => cond != 15
  | .mcrJmcr cond _ => cond != 15
  | .ldcDtr cond p u w _ _ => cond != 15 && !(p == 0 && u == 0 && w == 0)
  | .stcDtr cond p u w _ _ => cond != 15 && !(p == 0 && u == 0 && w == 0)
  | .p14DebugOther cond l cRn _ opc2 cRm => cond != 15 && !p14Keys.contains (transferKey 0 l cRn cRm opc2)
  | .p14TeeOther cond l cRn _ opc2 cRm => cond != 15 && !p14Keys.contains (transferKey 6 l cRn cRm opc2)
  | .p14Other cond opc1 l cRn _ opc2 cRm => cond != 15 && opc1 != 0 && opc1 != 6 && !p14Keys.contains (transferKey opc1 l cRn cRm opc2)
  | .fmstat cond => cond != 15
  | .vmrsFpsid cond _ => cond != 15
  | .vmsrFpsid cond _ => cond != 15
  | .vmrsFpscr cond rt => cond != 15 && rt != 15
  | .vmsrFpscr cond _ => cond != 15
  | .vmrsMvfr1 cond _ => cond != 15
  | .vmsrMvfr1 cond _ => cond != 15
  | .vmrsMvfr0 cond _ => cond != 15
  | .vmsrMvfr0 cond _ => cond != 15
  | .vmrsFpexc cond _ => cond != 15
  | .vmsrFpexc cond _ => cond != 15
  | .vfpSysOther cond _ reg _ => cond != 15 && !(reg == 0 || reg == 1 || reg == 6 || reg == 7 || reg == 8)
  | .vfpData cond _ _ _ => cond != 15
  | .vfpTransfer cond hi mid _ => cond != 15 && !((hi &&& 0xE00) == 0xE00 && (mid &&& 8) == 0)
  | .vfpLoadStore cond _ _ => cond != 15
  | .mrcMidr cond _ => cond != 15
  | .mrcMidr4 cond _ => cond != 15
  | .mrcMidr6 cond _ => cond != 15
  | .mrcMidr7 cond _ => cond != 15
  | .mrcCtr cond _ => cond != 15
  | .mrcTcmtr cond _ => cond != 15
  | .mrcTlbtr cond _ => cond != 15
  | .mrcMpidr cond _ => cond != 15
  | .mrcIdPfr0 cond _ => cond != 15
  | .mrcIdPfr1 cond _ => cond != 15
  | .mrcIdDfr0 cond _ => cond != 15
  | .mrcIdAfr0 cond _ => cond != 15
  | .mrcIdMmfr0 cond _ => cond != 15
  | .mrcIdMmfr1 cond _ => cond != 15
  | .mrcIdMmfr2 cond _ => cond != 15
  | .mrcIdMmfr3 cond _ => cond != 15
  | .mrcIdIsar0 cond _ => cond != 15
  | .mrcIdIsar1 cond _ => cond != 15
  | .mrcIdIsar2 cond _ => cond != 15
  | .mrcIdIsar3 cond _ => cond != 15
  | .mrcIdIsar4 cond _ => cond != 15
  | .mrcIdIsar5 cond _ => cond != 15
  | .mrcIdIsar6 cond _ => cond != 15
  | .mrcIdIsar7 cond _ => cond != 15
  | .mrcFeatureReserved cond _ _ cRm => cond != 15 && BitVec.ule 3 cRm && BitVec.ule cRm 7
  | .mrcCcsidr cond _ => cond != 15
  | .mrcClidr cond _ => cond != 15
  | .mrcSiliconId cond _ => cond != 15
  | .mrcCsselr cond _ => cond != 15
  | .mcrCsselr cond _ => cond != 15
  | .mrcSctlr cond _ => cond != 15
  | .mcrSctlr cond _ => cond != 15
  | .mrcActlr cond _ => cond != 15
  | .mcrActlr cond _ => cond != 15
  | .mrcCpacr cond _ => cond != 15
  | .mcrCpacr cond _ => cond != 15
  | .mrcScr cond _ => cond != 15
  | .mcrScr cond _ => cond != 15
  | .mrcSder cond _ => cond != 15
  | .mcrSder cond _ => cond != 15
  | .mrcNsacr cond _ => cond != 15
  | .mcrNsacr cond _ => cond != 15
  | .mrcTtbr0 cond _ => cond != 15
  | .mcrTtbr0 cond _ => cond != 15
  | .mrcTtbr1 cond _ => cond != 15
  | .mcrTtbr1 cond _ => cond != 15
  | .mrcTtbcr cond _ => cond != 15
  | .mcrTtbcr cond _ => cond != 15
  | .mrcDacr cond _ => cond != 15
  | .mcrDacr cond _ => cond != 15
  | .mrcDfsr cond _ => cond != 15
  | .mcrDfsr cond _ => cond != 15
  | .mrcIfsr cond _ => cond != 15
  | .mcrIfsr cond _ => cond != 15
  | .mrcAdfsr cond _ => cond != 15
  | .mcrAdfsr cond _ => cond != 15
  | .mrcAifsr cond _ => cond != 15
  | .mcrAifsr cond _ => cond != 15
  | .mrcDfar cond _ => cond != 15
  | .mcrDfar cond _ => cond != 15
  | .mrcIfar cond _ => cond != 15
  | .mcrIfar cond _ => cond != 15
  | .mcrWfiNop cond _ => cond != 15
  | .mrcPar cond _ => cond != 15
  | .mcrPar cond _ => cond != 15
  | .mcrIciallu cond _ => cond != 15
  | .mcrIcimvau cond _ => cond != 15
  | .mcrIsb cond _ => cond != 15
  | .mcrBpiall cond _ => cond != 15
  | .mcrBpimva cond _ => cond != 15
  | .mcrDcimvac cond _ => cond != 15
  | .mcrDcisw cond _ => cond != 15
  | .mcrVaPaCurPrivRead cond _ => cond != 15
  | .mcrVaPaCurPrivWrite cond _ => cond != 15
  | .mcrVaPaCurUserRead cond _ => cond != 15
  | .mcrVaPaCurUserWrite cond _ => cond != 15
  | .mcrVaPaOthPrivRead cond _ => cond != 15
  | .mcrVaPaOthPrivWrite cond _ => cond != 15
  | .mcrVaPaOthUserRead cond _ => cond != 15
  | .mcrVaPaOthUserWrite cond _ => cond != 15
  | .mcrDccmvac cond _ => cond != 15
  | .mcrDccsw cond _ => cond != 15
  | .mcrDsb cond _ => cond != 15
  | .mcrDmb cond _ => cond != 15
  | .mcrDccmvau cond _ => cond != 15
  | .mcrDccimvac cond _ => cond != 15
  | .mcrDccisw cond _ => cond != 15
  | .mcrItlbiall cond _ => cond != 15
  | .mcrItlbimva cond _ => cond != 15
  | .mcrItlbiasid cond _ => cond != 15
  | .mcrDtlbiall cond _ => cond != 15
  | .mcrDtlbimva cond _ => cond != 15
  | .mcrDtlbiasid cond _ => cond != 15
  | .mcrTlbiall cond _ => cond != 15
  | .mcrTlbimva cond _ => cond != 15
  | .mcrTlbiasid cond _ => cond != 15
  | .mrcPmnc cond _ => cond != 15
  | .mcrPmnc cond _ => cond != 15
  | .mrcCntens cond _ => cond != 15
  | .mcrCntens cond _ => cond != 15
  | .mrcCntenc cond _ => cond != 15
  | .mcrCntenc cond _ => cond != 15
  | .mrcFlag cond _ => cond != 15
  | .mcrFlag cond _ => cond != 15
  | .mrcSwincr cond _ => cond != 15
  | .mcrSwincr cond _ => cond != 15
  | .mrcPmnxsel cond _ => cond != 15
  | .mcrPmnxsel cond _ => cond != 15
  | .mrcCcnt cond _ => cond != 15
  | .mcrCcnt cond _ => cond != 15
  | .mrcEvtsel cond _ => cond != 15
  | .mcrEvtsel cond _ => cond != 15
  | .mrcPmcnt cond _ => cond != 15
  | .mcrPmcnt cond _ => cond != 15
  | .mrcUseren cond _ => cond != 15
  | .mcrUseren cond _ => cond != 15
  | .mrcIntens cond _ => cond != 15
  | .mcrIntens cond _ => cond != 15
  | .mrcIntenc cond _ => cond != 15
  | .mcrIntenc cond _ => cond != 15
  | .mrcL2Lock cond _ => cond != 15
  | .mcrL2Lock cond _ => cond != 15
  | .mrcL2Aux cond _ => cond != 15
  | .mcrL2Aux cond _ => cond != 15
  | .mrcDtlbLock cond _ => cond != 15
  | .mcrDtlbLock cond _ => cond != 15
  | .mrcItlbLock cond _ => cond != 15
  | .mcrItlbLock cond _ => cond != 15
  | .mcrDtlbPreload cond _ => cond != 15
  | .mcrItlbPreload cond _ => cond != 15
  | .mrcPrrr cond _ => cond != 15
  | .mcrPrrr cond _ => cond != 15
  | .mrcNmrr cond _ => cond != 15
  | .mcrNmrr cond _ => cond != 15
  | .mrcPleIdPresent cond _ => cond != 15
  | .mrcPleIdReserved cond _ => cond != 15
  | .mrcPleIdRunning cond _ => cond != 15
  | .mrcPleIdInterrupting cond _ => cond != 15
  | .mrcPleUser cond _ => cond != 15
  | .mcrPleUser cond _ => cond != 15
  | .mrcPleChannel cond _ => cond != 15
  | .mcrPleChannel cond _ => cond != 15
  | .mcrPleStop cond _ => cond != 15
  | .mcrPleStart cond _ => cond != 15
  | .mcrPleClear cond _ => cond != 15
  | .mrcPleControl cond _ => cond != 15
  | .mcrPleControl cond _ => cond != 15
  | .mrcPleStartAddr cond _ => cond != 15
  | .mcrPleStartAddr cond _ => cond != 15
  | .mrcPleEndAddr cond _ => cond != 15
  | .mcrPleEndAddr cond _ => cond != 15
  | .mrcPleStatus cond _ => cond != 15
  | .mrcPleContext cond _ => cond != 15
  | .mcrPleContext cond _ => cond != 15
  | .mrcVbar cond _ => cond != 15
  | .mcrVbar cond _ => cond != 15
  | .mrcMvbar cond _ => cond != 15
  | .mcrMvbar cond _ => cond != 15
  | .mrcIsr cond _ => cond != 15
  | .mrcFcse cond _ => cond != 15
  | .mcrFcse cond _ => cond != 15
  | .mrcContextidr cond _ => cond != 15
  | .mcrContextidr cond _ => cond != 15
  | .mrcTpidrurw cond _ => cond != 15
  | .mcrTpidrurw cond _ => cond != 15
  | .mrcTpidruro cond _ => cond != 15
  | .mcrTpidruro cond _ => cond != 15
  | .mrcTpidrprw cond _ => cond != 15
  | .mcrTpidrprw cond _ => cond != 15
  | .mrcDl1Data0 cond _ => cond != 15
  | .mcrDl1Data0 cond _ => cond != 15
  | .mrcDl1Data1 cond _ => cond != 15
  | .mcrDl1Data1 cond _ => cond != 15
  | .mcrDtlbCamWrite cond _ => cond != 15
  | .mcrDtlbAttrWrite cond _ => cond != 15
  | .mcrDtlbPaWrite cond _ => cond != 15
  | .mcrDhvabWrite cond _ => cond != 15
  | .mcrDtagWrite cond _ => cond != 15
  | .mcrDdataWrite cond _ => cond != 15
  | .mcrDtlbCamRead cond _ => cond != 15
  | .mcrDtlbAttrRead cond _ => cond != 15
  | .mcrDtlbPaRead cond _ => cond != 15
  | .mcrDhvabRead cond _ => cond != 15
  | .mcrDtagRead cond _ => cond != 15
  | .mcrDdataRead cond _ => cond != 15
  | .mrcIl1Data0 cond _ => cond != 15
  | .mcrIl1Data0 cond _ => cond != 15
  | .mrcIl1Data1 cond _ => cond != 15
  | .mcrIl1Data1 cond _ => cond != 15
  | .mcrItlbCamWrite cond _ => cond != 15
  | .mcrItlbAttrWrite cond _ => cond != 15
  | .mcrItlbPaWrite cond _ => cond != 15
  | .mcrIhvabWrite cond _ => cond != 15
  | .mcrItagWrite cond _ => cond != 15
  | .mcrIdataWrite cond _ => cond != 15
  | .mcrItlbCamRead cond _ => cond != 15
  | .mcrItlbAttrRead cond _ => cond != 15
  | .mcrItlbPaRead cond _ => cond != 15
  | .mcrIhvabRead cond _ => cond != 15
  | .mcrItagRead cond _ => cond != 15
  | .mcrIdataRead cond _ => cond != 15
  | .mcrGhbWrite cond _ => cond != 15
  | .mcrBtbWrite cond _ => cond != 15
  | .mcrGhbRead cond _ => cond != 15
  | .mcrBtbRead cond _ => cond != 15
  | .mrcL2Data0 cond _ => cond != 15
  | .mcrL2Data0 cond _ => cond != 15
  | .mrcL2Data1 cond _ => cond != 15
  | .mcrL2Data1 cond _ => cond != 15
  | .mcrL2TagWrite cond _ => cond != 15
  | .mcrL2DataWrite cond _ => cond != 15
  | .mcrL2ParityWrite cond _ => cond != 15
  | .mrcL2Data2 cond _ => cond != 15
  | .mcrL2Data2 cond _ => cond != 15
  | .mcrL2TagRead cond _ => cond != 15
  | .mcrL2DataRead cond _ => cond != 15
  | .mcrL2ParityRead cond _ => cond != 15
  | .p15Other cond opc1 l cRn _ opc2 cRm => cond != 15 && !p15Keys.contains (transferKey opc1 l cRn cRm opc2) && !(opc1 == 0 && l == 1 && cRn == 0 && BitVec.ule 3 cRm && BitVec.ule cRm 7)
  | .mcrOther cond _ _ _ coproc _ _ => cond != 15 && !systemCoproc coproc
  | .mrcOther cond _ _ _ coproc _ _ => cond != 15 && !systemCoproc coproc
  | .cdpAny cond _ _ _ coproc _ _ => cond != 15 && !vfpCoproc coproc
  | .mcrrAny cond _ _ coproc _ _ => cond != 15 && !vfpCoproc coproc
  | .mrrcAny cond _ _ coproc _ _ => cond != 15 && !vfpCoproc coproc
  | .ldcStcOther cond p u d w _ _ cRd coproc _ => cond != 15 && !vfpCoproc coproc && !(p == 0 && u == 0 && d == 1 && w == 0) && !(coproc == 14 && cRd == 5 && d == 0 && !(p == 0 && u == 0 && w == 0))

/-- The proposition that an instruction is well-formed. -/
abbrev Instr.WellFormed (i : Instr) : Prop := i.wf = true

end Sys2Proof
end

