-- ==== Sys2Proof/Decode.lean ====
section
/-! DEFINITION. Decoding of A32 words (30_encoding.md R1351 to R1386), total on any word and any bytes, and the encoder written from the same table. -/

namespace Sys2Proof

noncomputable section

/-- Why a word is no instruction: `undefined` matches no layout (R1385), `shouldBe` breaks a should-be-zero or
should-be-one field of its layout, which is Unpredictable (R1386). -/
inductive DecodeReject where
  | undefined
  | shouldBe
  deriving DecidableEq, Repr

/-- Bits [lo + n - 1 : lo] of a word. -/
def bits (w : Word) (lo n : Nat) : BitVec n := w.extractLsb' lo n

/-- One layout: the fixed bits as mask and pattern, the should-be-zero and should-be-one bits, the constraint of the
row, and the instruction its fields make. -/
structure Row where
  mask : Word
  pat : Word
  sbz : Word
  sbo : Word
  ok : Word → Bool
  build : Word → Instr

/-- Whether the layout claims the word. -/
def Row.hits (r : Row) (w : Word) : Bool := w &&& r.mask == r.pat && r.ok w

/-- The instruction of a word the layout claims. -/
def Row.read (r : Row) (w : Word) : Except DecodeReject Instr :=
  if w &&& r.sbz != 0 || ~~~w &&& r.sbo != 0 then .error .shouldBe else .ok (r.build w)

/-- The first layout of a list that claims the word. -/
def readRows (rows : List Row) (w : Word) : Except DecodeReject Instr :=
  match rows.find? (fun r => r.hits w) with
  | some r => r.read w
  | none => .error .undefined

/-- One register transfer of CP14 or CP15: its tuple and the instruction its condition and register make. -/
structure Transfer where
  key : BitVec 15
  build : BitVec 4 → BitVec 4 → Instr

/-- The tuple of a register transfer word. -/
def wordKey (w : Word) : BitVec 15 :=
  transferKey (bits w 21 3) (bits w 20 1) (bits w 16 4) (bits w 0 4) (bits w 5 3)

/-- The unconditional space (R1369). -/
def rowsUncond : List Row :=
  [⟨0xFFF10020, 0xF1000000, 0x0000FE00, 0x00000000, fun _ => true, fun w => .cps (bits w 18 2) (bits w 17 1) (bits w 8 1) (bits w 7 1) (bits w 6 1) (bits w 0 5)⟩,
   ⟨0xFFFF0000, 0xF1010000, 0x0000FDFF, 0x00000000, fun _ => true, fun w => .setend (bits w 9 1)⟩,
   ⟨0xFF700000, 0xF4500000, 0x00000000, 0x0000F000, fun _ => true, fun w => .pliImm (bits w 23 1) (bits w 16 4) (bits w 0 12)⟩,
   ⟨0xFF700010, 0xF6500000, 0x00000000, 0x0000F000, fun _ => true, fun w => .pliReg (bits w 23 1) (bits w 16 4) (bits w 7 5) (bits w 5 2) (bits w 0 4)⟩,
   ⟨0xFF700000, 0xF5500000, 0x00000000, 0x0000F000, fun _ => true, fun w => .pldImm (bits w 23 1) (bits w 16 4) (bits w 0 12)⟩,
   ⟨0xFF700010, 0xF7500000, 0x00000000, 0x0000F000, fun _ => true, fun w => .pldReg (bits w 23 1) (bits w 16 4) (bits w 7 5) (bits w 5 2) (bits w 0 4)⟩,
   ⟨0xFF700000, 0xF5100000, 0x00000000, 0x0000F000, fun _ => true, fun w => .pldwImm (bits w 23 1) (bits w 16 4) (bits w 0 12)⟩,
   ⟨0xFF700010, 0xF7100000, 0x00000000, 0x0000F000, fun _ => true, fun w => .pldwReg (bits w 23 1) (bits w 16 4) (bits w 7 5) (bits w 5 2) (bits w 0 4)⟩] ++
  [⟨0xFF700000, 0xF4100000, 0x00000000, 0x00000000, fun _ => true, fun w => .memHintImm (bits w 23 1) (bits w 0 20)⟩,
   ⟨0xFF700010, 0xF6100000, 0x00000000, 0x00000000, fun _ => true, fun w => .memHintReg (bits w 23 1) (bits w 5 15) (bits w 0 4)⟩,
   ⟨0xFFF000F0, 0xF5700010, 0x00000F00, 0x000FF00F, fun _ => true, fun _ => .clrex⟩,
   ⟨0xFFF000F0, 0xF5700040, 0x00000F00, 0x000FF000, fun _ => true, fun w => .dsb (bits w 0 4)⟩,
   ⟨0xFFF000F0, 0xF5700050, 0x00000F00, 0x000FF000, fun _ => true, fun w => .dmb (bits w 0 4)⟩,
   ⟨0xFFF000F0, 0xF5700060, 0x00000F00, 0x000FF000, fun _ => true, fun w => .isb (bits w 0 4)⟩,
   ⟨0xFE500000, 0xF8400000, 0x0002FAE0, 0x000D0500, fun _ => true, fun w => .srs (bits w 24 1) (bits w 23 1) (bits w 21 1) (bits w 0 5)⟩,
   ⟨0xFE500000, 0xF8100000, 0x0000F5FF, 0x00000A00, fun _ => true, fun w => .rfe (bits w 24 1) (bits w 23 1) (bits w 21 1) (bits w 16 4)⟩] ++
  [⟨0xFE000000, 0xFA000000, 0x00000000, 0x00000000, fun _ => true, fun w => .blxImm (bits w 24 1) (bits w 0 24)⟩,
   ⟨0xFE000000, 0xF2000000, 0x00000000, 0x00000000, fun _ => true, fun w => .asimdData (bits w 0 25)⟩,
   ⟨0xFF100000, 0xF4000000, 0x00000000, 0x00000000, fun _ => true, fun w => .asimdLoadStore (bits w 21 3) (bits w 0 20)⟩,
   ⟨0xFE000000, 0xFC000000, 0x00000000, 0x00000000, fun _ => true, fun w => .coproc2LoadStore (bits w 0 25)⟩,
   ⟨0xFF000000, 0xFE000000, 0x00000000, 0x00000000, fun _ => true, fun w => .coproc2Reg (bits w 0 24)⟩,
   ⟨0xF0000000, 0xF0000000, 0x00000000, 0x00000000, fun _ => true, fun w => .uncondOther (bits w 0 28)⟩]

/-- Bits [27:25] = 000: data processing with register operands, multiplies, miscellaneous and extra load/store words. -/
def rows0 : List Row :=
  [⟨0x0FB000F0, 0x01000000, 0x00000F0F, 0x000F0000, fun _ => true, fun w => .mrs (bits w 28 4) (bits w 22 1) (bits w 12 4)⟩,
   ⟨0x0FF000F0, 0x01200000, 0x00000F00, 0x0000F000, fun _ => true, fun w => .msrCpsrReg (bits w 28 4) (bits w 16 4) (bits w 0 4)⟩,
   ⟨0x0FF000F0, 0x01600000, 0x00000F00, 0x0000F000, fun _ => true, fun w => .msrSpsrReg (bits w 28 4) (bits w 16 4) (bits w 0 4)⟩,
   ⟨0x0FF000F0, 0x01200010, 0x00000000, 0x000FFF00, fun _ => true, fun w => .bx (bits w 28 4) (bits w 0 4)⟩,
   ⟨0x0FF000F0, 0x01200020, 0x00000000, 0x000FFF00, fun _ => true, fun w => .bxj (bits w 28 4) (bits w 0 4)⟩,
   ⟨0x0FF000F0, 0x01200030, 0x00000000, 0x000FFF00, fun _ => true, fun w => .blxReg (bits w 28 4) (bits w 0 4)⟩,
   ⟨0x0FF000F0, 0x01600010, 0x00000000, 0x000F0F00, fun _ => true, fun w => .clz (bits w 28 4) (bits w 12 4) (bits w 0 4)⟩,
   ⟨0x0FF000F0, 0x01000050, 0x00000F00, 0x00000000, fun _ => true, fun w => .qadd (bits w 28 4) (bits w 16 4) (bits w 12 4) (bits w 0 4)⟩] ++
  [⟨0x0FF000F0, 0x01200050, 0x00000F00, 0x00000000, fun _ => true, fun w => .qsub (bits w 28 4) (bits w 16 4) (bits w 12 4) (bits w 0 4)⟩,
   ⟨0x0FF000F0, 0x01400050, 0x00000F00, 0x00000000, fun _ => true, fun w => .qdadd (bits w 28 4) (bits w 16 4) (bits w 12 4) (bits w 0 4)⟩,
   ⟨0x0FF000F0, 0x01600050, 0x00000F00, 0x00000000, fun _ => true, fun w => .qdsub (bits w 28 4) (bits w 16 4) (bits w 12 4) (bits w 0 4)⟩,
   ⟨0x0FF000F0, 0x01200070, 0x00000000, 0x00000000, fun _ => true, fun w => .bkpt (bits w 28 4) (bits w 8 12) (bits w 0 4)⟩,
   ⟨0x0FF000F0, 0x01600070, 0x000FFF00, 0x00000000, fun _ => true, fun w => .smc (bits w 28 4) (bits w 0 4)⟩,
   ⟨0x0FF000F0, 0x01000080, 0x00000000, 0x00000000, fun _ => true, fun w => .smlabb (bits w 28 4) (bits w 16 4) (bits w 12 4) (bits w 8 4) (bits w 0 4)⟩,
   ⟨0x0FF000F0, 0x010000C0, 0x00000000, 0x00000000, fun _ => true, fun w => .smlabt (bits w 28 4) (bits w 16 4) (bits w 12 4) (bits w 8 4) (bits w 0 4)⟩,
   ⟨0x0FF000F0, 0x010000A0, 0x00000000, 0x00000000, fun _ => true, fun w => .smlatb (bits w 28 4) (bits w 16 4) (bits w 12 4) (bits w 8 4) (bits w 0 4)⟩] ++
  [⟨0x0FF000F0, 0x010000E0, 0x00000000, 0x00000000, fun _ => true, fun w => .smlatt (bits w 28 4) (bits w 16 4) (bits w 12 4) (bits w 8 4) (bits w 0 4)⟩,
   ⟨0x0FF000F0, 0x01200080, 0x00000000, 0x00000000, fun _ => true, fun w => .smlawb (bits w 28 4) (bits w 16 4) (bits w 12 4) (bits w 8 4) (bits w 0 4)⟩,
   ⟨0x0FF000F0, 0x012000C0, 0x00000000, 0x00000000, fun _ => true, fun w => .smlawt (bits w 28 4) (bits w 16 4) (bits w 12 4) (bits w 8 4) (bits w 0 4)⟩,
   ⟨0x0FF000F0, 0x012000A0, 0x0000F000, 0x00000000, fun _ => true, fun w => .smulwb (bits w 28 4) (bits w 16 4) (bits w 8 4) (bits w 0 4)⟩,
   ⟨0x0FF000F0, 0x012000E0, 0x0000F000, 0x00000000, fun _ => true, fun w => .smulwt (bits w 28 4) (bits w 16 4) (bits w 8 4) (bits w 0 4)⟩,
   ⟨0x0FF000F0, 0x01400080, 0x00000000, 0x00000000, fun _ => true, fun w => .smlalbb (bits w 28 4) (bits w 16 4) (bits w 12 4) (bits w 8 4) (bits w 0 4)⟩,
   ⟨0x0FF000F0, 0x014000C0, 0x00000000, 0x00000000, fun _ => true, fun w => .smlalbt (bits w 28 4) (bits w 16 4) (bits w 12 4) (bits w 8 4) (bits w 0 4)⟩,
   ⟨0x0FF000F0, 0x014000A0, 0x00000000, 0x00000000, fun _ => true, fun w => .smlaltb (bits w 28 4) (bits w 16 4) (bits w 12 4) (bits w 8 4) (bits w 0 4)⟩] ++
  [⟨0x0FF000F0, 0x014000E0, 0x00000000, 0x00000000, fun _ => true, fun w => .smlaltt (bits w 28 4) (bits w 16 4) (bits w 12 4) (bits w 8 4) (bits w 0 4)⟩,
   ⟨0x0FF000F0, 0x01600080, 0x0000F000, 0x00000000, fun _ => true, fun w => .smulbb (bits w 28 4) (bits w 16 4) (bits w 8 4) (bits w 0 4)⟩,
   ⟨0x0FF000F0, 0x016000C0, 0x0000F000, 0x00000000, fun _ => true, fun w => .smulbt (bits w 28 4) (bits w 16 4) (bits w 8 4) (bits w 0 4)⟩,
   ⟨0x0FF000F0, 0x016000A0, 0x0000F000, 0x00000000, fun _ => true, fun w => .smultb (bits w 28 4) (bits w 16 4) (bits w 8 4) (bits w 0 4)⟩,
   ⟨0x0FF000F0, 0x016000E0, 0x0000F000, 0x00000000, fun _ => true, fun w => .smultt (bits w 28 4) (bits w 16 4) (bits w 8 4) (bits w 0 4)⟩,
   ⟨0x0FF000F0, 0x01000090, 0x00000F00, 0x00000000, fun _ => true, fun w => .swp (bits w 28 4) (bits w 16 4) (bits w 12 4) (bits w 0 4)⟩,
   ⟨0x0FF000F0, 0x01400090, 0x00000F00, 0x00000000, fun _ => true, fun w => .swpb (bits w 28 4) (bits w 16 4) (bits w 12 4) (bits w 0 4)⟩,
   ⟨0x0FF000F0, 0x01900090, 0x00000000, 0x00000F0F, fun _ => true, fun w => .ldrex (bits w 28 4) (bits w 16 4) (bits w 12 4)⟩] ++
  [⟨0x0FF000F0, 0x01B00090, 0x00000000, 0x00000F0F, fun _ => true, fun w => .ldrexd (bits w 28 4) (bits w 16 4) (bits w 12 4)⟩,
   ⟨0x0FF000F0, 0x01D00090, 0x00000000, 0x00000F0F, fun _ => true, fun w => .ldrexb (bits w 28 4) (bits w 16 4) (bits w 12 4)⟩,
   ⟨0x0FF000F0, 0x01F00090, 0x00000000, 0x00000F0F, fun _ => true, fun w => .ldrexh (bits w 28 4) (bits w 16 4) (bits w 12 4)⟩,
   ⟨0x0FF000F0, 0x01800090, 0x00000000, 0x00000F00, fun _ => true, fun w => .strex (bits w 28 4) (bits w 16 4) (bits w 12 4) (bits w 0 4)⟩,
   ⟨0x0FF000F0, 0x01A00090, 0x00000000, 0x00000F00, fun _ => true, fun w => .strexd (bits w 28 4) (bits w 16 4) (bits w 12 4) (bits w 0 4)⟩,
   ⟨0x0FF000F0, 0x01C00090, 0x00000000, 0x00000F00, fun _ => true, fun w => .strexb (bits w 28 4) (bits w 16 4) (bits w 12 4) (bits w 0 4)⟩,
   ⟨0x0FF000F0, 0x01E00090, 0x00000000, 0x00000F00, fun _ => true, fun w => .strexh (bits w 28 4) (bits w 16 4) (bits w 12 4) (bits w 0 4)⟩,
   ⟨0x0FE000F0, 0x00000090, 0x0000F000, 0x00000000, fun _ => true, fun w => .mul (bits w 28 4) (bits w 20 1) (bits w 16 4) (bits w 8 4) (bits w 0 4)⟩] ++
  [⟨0x0FE000F0, 0x00200090, 0x00000000, 0x00000000, fun _ => true, fun w => .mla (bits w 28 4) (bits w 20 1) (bits w 16 4) (bits w 12 4) (bits w 8 4) (bits w 0 4)⟩,
   ⟨0x0FF000F0, 0x00400090, 0x00000000, 0x00000000, fun _ => true, fun w => .umaal (bits w 28 4) (bits w 16 4) (bits w 12 4) (bits w 8 4) (bits w 0 4)⟩,
   ⟨0x0FF000F0, 0x00600090, 0x00000000, 0x00000000, fun _ => true, fun w => .mls (bits w 28 4) (bits w 16 4) (bits w 12 4) (bits w 8 4) (bits w 0 4)⟩,
   ⟨0x0FE000F0, 0x00800090, 0x00000000, 0x00000000, fun _ => true, fun w => .umull (bits w 28 4) (bits w 20 1) (bits w 16 4) (bits w 12 4) (bits w 8 4) (bits w 0 4)⟩,
   ⟨0x0FE000F0, 0x00A00090, 0x00000000, 0x00000000, fun _ => true, fun w => .umlal (bits w 28 4) (bits w 20 1) (bits w 16 4) (bits w 12 4) (bits w 8 4) (bits w 0 4)⟩,
   ⟨0x0FE000F0, 0x00C00090, 0x00000000, 0x00000000, fun _ => true, fun w => .smull (bits w 28 4) (bits w 20 1) (bits w 16 4) (bits w 12 4) (bits w 8 4) (bits w 0 4)⟩,
   ⟨0x0FE000F0, 0x00E00090, 0x00000000, 0x00000000, fun _ => true, fun w => .smlal (bits w 28 4) (bits w 20 1) (bits w 16 4) (bits w 12 4) (bits w 8 4) (bits w 0 4)⟩,
   ⟨0x0F7000F0, 0x006000B0, 0x00000000, 0x00000000, fun _ => true, fun w => .strhtImm (bits w 28 4) (bits w 23 1) (bits w 16 4) (bits w 12 4) (bits w 8 4) (bits w 0 4)⟩] ++
  [⟨0x0F7000F0, 0x002000B0, 0x00000F00, 0x00000000, fun _ => true, fun w => .strhtReg (bits w 28 4) (bits w 23 1) (bits w 16 4) (bits w 12 4) (bits w 0 4)⟩,
   ⟨0x0F7000F0, 0x007000B0, 0x00000000, 0x00000000, fun _ => true, fun w => .ldrhtImm (bits w 28 4) (bits w 23 1) (bits w 16 4) (bits w 12 4) (bits w 8 4) (bits w 0 4)⟩,
   ⟨0x0F7000F0, 0x003000B0, 0x00000F00, 0x00000000, fun _ => true, fun w => .ldrhtReg (bits w 28 4) (bits w 23 1) (bits w 16 4) (bits w 12 4) (bits w 0 4)⟩,
   ⟨0x0F7000F0, 0x007000D0, 0x00000000, 0x00000000, fun _ => true, fun w => .ldrsbtImm (bits w 28 4) (bits w 23 1) (bits w 16 4) (bits w 12 4) (bits w 8 4) (bits w 0 4)⟩,
   ⟨0x0F7000F0, 0x003000D0, 0x00000F00, 0x00000000, fun _ => true, fun w => .ldrsbtReg (bits w 28 4) (bits w 23 1) (bits w 16 4) (bits w 12 4) (bits w 0 4)⟩,
   ⟨0x0F7000F0, 0x007000F0, 0x00000000, 0x00000000, fun _ => true, fun w => .ldrshtImm (bits w 28 4) (bits w 23 1) (bits w 16 4) (bits w 12 4) (bits w 8 4) (bits w 0 4)⟩,
   ⟨0x0F7000F0, 0x003000F0, 0x00000F00, 0x00000000, fun _ => true, fun w => .ldrshtReg (bits w 28 4) (bits w 23 1) (bits w 16 4) (bits w 12 4) (bits w 0 4)⟩,
   ⟨0x0E5000F0, 0x004000B0, 0x00000000, 0x00000000, fun w => !(bits w 24 1 == 0 && bits w 21 1 == 1), fun w => .strhImm (bits w 28 4) (bits w 24 1) (bits w 23 1) (bits w 21 1) (bits w 16 4) (bits w 12 4) (bits w 8 4) (bits w 0 4)⟩] ++
  [⟨0x0E5000F0, 0x000000B0, 0x00000F00, 0x00000000, fun w => !(bits w 24 1 == 0 && bits w 21 1 == 1), fun w => .strhReg (bits w 28 4) (bits w 24 1) (bits w 23 1) (bits w 21 1) (bits w 16 4) (bits w 12 4) (bits w 0 4)⟩,
   ⟨0x0E5000F0, 0x005000B0, 0x00000000, 0x00000000, fun w => !(bits w 24 1 == 0 && bits w 21 1 == 1), fun w => .ldrhImm (bits w 28 4) (bits w 24 1) (bits w 23 1) (bits w 21 1) (bits w 16 4) (bits w 12 4) (bits w 8 4) (bits w 0 4)⟩,
   ⟨0x0E5000F0, 0x001000B0, 0x00000F00, 0x00000000, fun w => !(bits w 24 1 == 0 && bits w 21 1 == 1), fun w => .ldrhReg (bits w 28 4) (bits w 24 1) (bits w 23 1) (bits w 21 1) (bits w 16 4) (bits w 12 4) (bits w 0 4)⟩,
   ⟨0x0E5000F0, 0x005000D0, 0x00000000, 0x00000000, fun w => !(bits w 24 1 == 0 && bits w 21 1 == 1), fun w => .ldrsbImm (bits w 28 4) (bits w 24 1) (bits w 23 1) (bits w 21 1) (bits w 16 4) (bits w 12 4) (bits w 8 4) (bits w 0 4)⟩,
   ⟨0x0E5000F0, 0x001000D0, 0x00000F00, 0x00000000, fun w => !(bits w 24 1 == 0 && bits w 21 1 == 1), fun w => .ldrsbReg (bits w 28 4) (bits w 24 1) (bits w 23 1) (bits w 21 1) (bits w 16 4) (bits w 12 4) (bits w 0 4)⟩,
   ⟨0x0E5000F0, 0x005000F0, 0x00000000, 0x00000000, fun w => !(bits w 24 1 == 0 && bits w 21 1 == 1), fun w => .ldrshImm (bits w 28 4) (bits w 24 1) (bits w 23 1) (bits w 21 1) (bits w 16 4) (bits w 12 4) (bits w 8 4) (bits w 0 4)⟩,
   ⟨0x0E5000F0, 0x001000F0, 0x00000F00, 0x00000000, fun w => !(bits w 24 1 == 0 && bits w 21 1 == 1), fun w => .ldrshReg (bits w 28 4) (bits w 24 1) (bits w 23 1) (bits w 21 1) (bits w 16 4) (bits w 12 4) (bits w 0 4)⟩,
   ⟨0x0E5000F0, 0x004000D0, 0x00000000, 0x00000000, fun w => !(bits w 24 1 == 0 && bits w 21 1 == 1), fun w => .ldrdImm (bits w 28 4) (bits w 24 1) (bits w 23 1) (bits w 21 1) (bits w 16 4) (bits w 12 4) (bits w 8 4) (bits w 0 4)⟩] ++
  [⟨0x0E5000F0, 0x000000D0, 0x00000F00, 0x00000000, fun w => !(bits w 24 1 == 0 && bits w 21 1 == 1), fun w => .ldrdReg (bits w 28 4) (bits w 24 1) (bits w 23 1) (bits w 21 1) (bits w 16 4) (bits w 12 4) (bits w 0 4)⟩,
   ⟨0x0E5000F0, 0x004000F0, 0x00000000, 0x00000000, fun w => !(bits w 24 1 == 0 && bits w 21 1 == 1), fun w => .strdImm (bits w 28 4) (bits w 24 1) (bits w 23 1) (bits w 21 1) (bits w 16 4) (bits w 12 4) (bits w 8 4) (bits w 0 4)⟩,
   ⟨0x0E5000F0, 0x000000F0, 0x00000F00, 0x00000000, fun w => !(bits w 24 1 == 0 && bits w 21 1 == 1), fun w => .strdReg (bits w 28 4) (bits w 24 1) (bits w 23 1) (bits w 21 1) (bits w 16 4) (bits w 12 4) (bits w 0 4)⟩,
   ⟨0x0FE00010, 0x00000000, 0x00000000, 0x00000000, fun _ => true, fun w => .andReg (bits w 28 4) (bits w 20 1) (bits w 16 4) (bits w 12 4) (bits w 7 5) (bits w 5 2) (bits w 0 4)⟩,
   ⟨0x0FE00090, 0x00000010, 0x00000000, 0x00000000, fun _ => true, fun w => .andRsr (bits w 28 4) (bits w 20 1) (bits w 16 4) (bits w 12 4) (bits w 8 4) (bits w 5 2) (bits w 0 4)⟩,
   ⟨0x0FE00010, 0x00200000, 0x00000000, 0x00000000, fun _ => true, fun w => .eorReg (bits w 28 4) (bits w 20 1) (bits w 16 4) (bits w 12 4) (bits w 7 5) (bits w 5 2) (bits w 0 4)⟩,
   ⟨0x0FE00090, 0x00200010, 0x00000000, 0x00000000, fun _ => true, fun w => .eorRsr (bits w 28 4) (bits w 20 1) (bits w 16 4) (bits w 12 4) (bits w 8 4) (bits w 5 2) (bits w 0 4)⟩,
   ⟨0x0FE00010, 0x00400000, 0x00000000, 0x00000000, fun _ => true, fun w => .subReg (bits w 28 4) (bits w 20 1) (bits w 16 4) (bits w 12 4) (bits w 7 5) (bits w 5 2) (bits w 0 4)⟩] ++
  [⟨0x0FE00090, 0x00400010, 0x00000000, 0x00000000, fun _ => true, fun w => .subRsr (bits w 28 4) (bits w 20 1) (bits w 16 4) (bits w 12 4) (bits w 8 4) (bits w 5 2) (bits w 0 4)⟩,
   ⟨0x0FE00010, 0x00600000, 0x00000000, 0x00000000, fun _ => true, fun w => .rsbReg (bits w 28 4) (bits w 20 1) (bits w 16 4) (bits w 12 4) (bits w 7 5) (bits w 5 2) (bits w 0 4)⟩,
   ⟨0x0FE00090, 0x00600010, 0x00000000, 0x00000000, fun _ => true, fun w => .rsbRsr (bits w 28 4) (bits w 20 1) (bits w 16 4) (bits w 12 4) (bits w 8 4) (bits w 5 2) (bits w 0 4)⟩,
   ⟨0x0FE00010, 0x00800000, 0x00000000, 0x00000000, fun _ => true, fun w => .addReg (bits w 28 4) (bits w 20 1) (bits w 16 4) (bits w 12 4) (bits w 7 5) (bits w 5 2) (bits w 0 4)⟩,
   ⟨0x0FE00090, 0x00800010, 0x00000000, 0x00000000, fun _ => true, fun w => .addRsr (bits w 28 4) (bits w 20 1) (bits w 16 4) (bits w 12 4) (bits w 8 4) (bits w 5 2) (bits w 0 4)⟩,
   ⟨0x0FE00010, 0x00A00000, 0x00000000, 0x00000000, fun _ => true, fun w => .adcReg (bits w 28 4) (bits w 20 1) (bits w 16 4) (bits w 12 4) (bits w 7 5) (bits w 5 2) (bits w 0 4)⟩,
   ⟨0x0FE00090, 0x00A00010, 0x00000000, 0x00000000, fun _ => true, fun w => .adcRsr (bits w 28 4) (bits w 20 1) (bits w 16 4) (bits w 12 4) (bits w 8 4) (bits w 5 2) (bits w 0 4)⟩,
   ⟨0x0FE00010, 0x00C00000, 0x00000000, 0x00000000, fun _ => true, fun w => .sbcReg (bits w 28 4) (bits w 20 1) (bits w 16 4) (bits w 12 4) (bits w 7 5) (bits w 5 2) (bits w 0 4)⟩] ++
  [⟨0x0FE00090, 0x00C00010, 0x00000000, 0x00000000, fun _ => true, fun w => .sbcRsr (bits w 28 4) (bits w 20 1) (bits w 16 4) (bits w 12 4) (bits w 8 4) (bits w 5 2) (bits w 0 4)⟩,
   ⟨0x0FE00010, 0x00E00000, 0x00000000, 0x00000000, fun _ => true, fun w => .rscReg (bits w 28 4) (bits w 20 1) (bits w 16 4) (bits w 12 4) (bits w 7 5) (bits w 5 2) (bits w 0 4)⟩,
   ⟨0x0FE00090, 0x00E00010, 0x00000000, 0x00000000, fun _ => true, fun w => .rscRsr (bits w 28 4) (bits w 20 1) (bits w 16 4) (bits w 12 4) (bits w 8 4) (bits w 5 2) (bits w 0 4)⟩,
   ⟨0x0FF00010, 0x01100000, 0x0000F000, 0x00000000, fun _ => true, fun w => .tstReg (bits w 28 4) (bits w 16 4) (bits w 7 5) (bits w 5 2) (bits w 0 4)⟩,
   ⟨0x0FF00090, 0x01100010, 0x0000F000, 0x00000000, fun _ => true, fun w => .tstRsr (bits w 28 4) (bits w 16 4) (bits w 8 4) (bits w 5 2) (bits w 0 4)⟩,
   ⟨0x0FF00010, 0x01300000, 0x0000F000, 0x00000000, fun _ => true, fun w => .teqReg (bits w 28 4) (bits w 16 4) (bits w 7 5) (bits w 5 2) (bits w 0 4)⟩,
   ⟨0x0FF00090, 0x01300010, 0x0000F000, 0x00000000, fun _ => true, fun w => .teqRsr (bits w 28 4) (bits w 16 4) (bits w 8 4) (bits w 5 2) (bits w 0 4)⟩,
   ⟨0x0FF00010, 0x01500000, 0x0000F000, 0x00000000, fun _ => true, fun w => .cmpReg (bits w 28 4) (bits w 16 4) (bits w 7 5) (bits w 5 2) (bits w 0 4)⟩] ++
  [⟨0x0FF00090, 0x01500010, 0x0000F000, 0x00000000, fun _ => true, fun w => .cmpRsr (bits w 28 4) (bits w 16 4) (bits w 8 4) (bits w 5 2) (bits w 0 4)⟩,
   ⟨0x0FF00010, 0x01700000, 0x0000F000, 0x00000000, fun _ => true, fun w => .cmnReg (bits w 28 4) (bits w 16 4) (bits w 7 5) (bits w 5 2) (bits w 0 4)⟩,
   ⟨0x0FF00090, 0x01700010, 0x0000F000, 0x00000000, fun _ => true, fun w => .cmnRsr (bits w 28 4) (bits w 16 4) (bits w 8 4) (bits w 5 2) (bits w 0 4)⟩,
   ⟨0x0FE00010, 0x01800000, 0x00000000, 0x00000000, fun _ => true, fun w => .orrReg (bits w 28 4) (bits w 20 1) (bits w 16 4) (bits w 12 4) (bits w 7 5) (bits w 5 2) (bits w 0 4)⟩,
   ⟨0x0FE00090, 0x01800010, 0x00000000, 0x00000000, fun _ => true, fun w => .orrRsr (bits w 28 4) (bits w 20 1) (bits w 16 4) (bits w 12 4) (bits w 8 4) (bits w 5 2) (bits w 0 4)⟩,
   ⟨0x0FE00010, 0x01A00000, 0x000F0000, 0x00000000, fun _ => true, fun w => .movReg (bits w 28 4) (bits w 20 1) (bits w 12 4) (bits w 7 5) (bits w 5 2) (bits w 0 4)⟩,
   ⟨0x0FE00090, 0x01A00010, 0x000F0000, 0x00000000, fun _ => true, fun w => .movRsr (bits w 28 4) (bits w 20 1) (bits w 12 4) (bits w 8 4) (bits w 5 2) (bits w 0 4)⟩,
   ⟨0x0FE00010, 0x01C00000, 0x00000000, 0x00000000, fun _ => true, fun w => .bicReg (bits w 28 4) (bits w 20 1) (bits w 16 4) (bits w 12 4) (bits w 7 5) (bits w 5 2) (bits w 0 4)⟩] ++
  [⟨0x0FE00090, 0x01C00010, 0x00000000, 0x00000000, fun _ => true, fun w => .bicRsr (bits w 28 4) (bits w 20 1) (bits w 16 4) (bits w 12 4) (bits w 8 4) (bits w 5 2) (bits w 0 4)⟩,
   ⟨0x0FE00010, 0x01E00000, 0x000F0000, 0x00000000, fun _ => true, fun w => .mvnReg (bits w 28 4) (bits w 20 1) (bits w 12 4) (bits w 7 5) (bits w 5 2) (bits w 0 4)⟩,
   ⟨0x0FE00090, 0x01E00010, 0x000F0000, 0x00000000, fun _ => true, fun w => .mvnRsr (bits w 28 4) (bits w 20 1) (bits w 12 4) (bits w 8 4) (bits w 5 2) (bits w 0 4)⟩]

/-- Bits [27:25] = 001: data processing with an immediate, 16-bit moves, status register writes, hints. -/
def rows1 : List Row :=
  [⟨0x0FF00000, 0x03000000, 0x00000000, 0x00000000, fun _ => true, fun w => .movw (bits w 28 4) (bits w 16 4) (bits w 12 4) (bits w 0 12)⟩,
   ⟨0x0FF00000, 0x03400000, 0x00000000, 0x00000000, fun _ => true, fun w => .movt (bits w 28 4) (bits w 16 4) (bits w 12 4) (bits w 0 12)⟩,
   ⟨0x0FFF00FF, 0x03200000, 0x00000F00, 0x0000F000, fun _ => true, fun w => .nop (bits w 28 4)⟩,
   ⟨0x0FFF00FF, 0x03200001, 0x00000F00, 0x0000F000, fun _ => true, fun w => .yield (bits w 28 4)⟩,
   ⟨0x0FFF00FF, 0x03200002, 0x00000F00, 0x0000F000, fun _ => true, fun w => .wfe (bits w 28 4)⟩,
   ⟨0x0FFF00FF, 0x03200003, 0x00000F00, 0x0000F000, fun _ => true, fun w => .wfi (bits w 28 4)⟩,
   ⟨0x0FFF00FF, 0x03200004, 0x00000F00, 0x0000F000, fun _ => true, fun w => .sev (bits w 28 4)⟩,
   ⟨0x0FFF00F0, 0x032000F0, 0x00000F00, 0x0000F000, fun _ => true, fun w => .dbg (bits w 28 4) (bits w 0 4)⟩] ++
  [⟨0x0FFF0000, 0x03200000, 0x00000F00, 0x0000F000, fun _ => true, fun w => .hintOther (bits w 28 4) (bits w 0 8)⟩,
   ⟨0x0FF00000, 0x03200000, 0x00000000, 0x0000F000, fun w => bits w 16 4 != 0, fun w => .msrCpsrImm (bits w 28 4) (bits w 16 4) (bits w 0 12)⟩,
   ⟨0x0FF00000, 0x03600000, 0x00000000, 0x0000F000, fun _ => true, fun w => .msrSpsrImm (bits w 28 4) (bits w 16 4) (bits w 0 12)⟩,
   ⟨0x0FE00000, 0x02000000, 0x00000000, 0x00000000, fun _ => true, fun w => .andImm (bits w 28 4) (bits w 20 1) (bits w 16 4) (bits w 12 4) (bits w 0 12)⟩,
   ⟨0x0FE00000, 0x02200000, 0x00000000, 0x00000000, fun _ => true, fun w => .eorImm (bits w 28 4) (bits w 20 1) (bits w 16 4) (bits w 12 4) (bits w 0 12)⟩,
   ⟨0x0FE00000, 0x02400000, 0x00000000, 0x00000000, fun _ => true, fun w => .subImm (bits w 28 4) (bits w 20 1) (bits w 16 4) (bits w 12 4) (bits w 0 12)⟩,
   ⟨0x0FE00000, 0x02600000, 0x00000000, 0x00000000, fun _ => true, fun w => .rsbImm (bits w 28 4) (bits w 20 1) (bits w 16 4) (bits w 12 4) (bits w 0 12)⟩,
   ⟨0x0FE00000, 0x02800000, 0x00000000, 0x00000000, fun _ => true, fun w => .addImm (bits w 28 4) (bits w 20 1) (bits w 16 4) (bits w 12 4) (bits w 0 12)⟩] ++
  [⟨0x0FE00000, 0x02A00000, 0x00000000, 0x00000000, fun _ => true, fun w => .adcImm (bits w 28 4) (bits w 20 1) (bits w 16 4) (bits w 12 4) (bits w 0 12)⟩,
   ⟨0x0FE00000, 0x02C00000, 0x00000000, 0x00000000, fun _ => true, fun w => .sbcImm (bits w 28 4) (bits w 20 1) (bits w 16 4) (bits w 12 4) (bits w 0 12)⟩,
   ⟨0x0FE00000, 0x02E00000, 0x00000000, 0x00000000, fun _ => true, fun w => .rscImm (bits w 28 4) (bits w 20 1) (bits w 16 4) (bits w 12 4) (bits w 0 12)⟩,
   ⟨0x0FF00000, 0x03100000, 0x0000F000, 0x00000000, fun _ => true, fun w => .tstImm (bits w 28 4) (bits w 16 4) (bits w 0 12)⟩,
   ⟨0x0FF00000, 0x03300000, 0x0000F000, 0x00000000, fun _ => true, fun w => .teqImm (bits w 28 4) (bits w 16 4) (bits w 0 12)⟩,
   ⟨0x0FF00000, 0x03500000, 0x0000F000, 0x00000000, fun _ => true, fun w => .cmpImm (bits w 28 4) (bits w 16 4) (bits w 0 12)⟩,
   ⟨0x0FF00000, 0x03700000, 0x0000F000, 0x00000000, fun _ => true, fun w => .cmnImm (bits w 28 4) (bits w 16 4) (bits w 0 12)⟩,
   ⟨0x0FE00000, 0x03800000, 0x00000000, 0x00000000, fun _ => true, fun w => .orrImm (bits w 28 4) (bits w 20 1) (bits w 16 4) (bits w 12 4) (bits w 0 12)⟩] ++
  [⟨0x0FE00000, 0x03A00000, 0x000F0000, 0x00000000, fun _ => true, fun w => .movImm (bits w 28 4) (bits w 20 1) (bits w 12 4) (bits w 0 12)⟩,
   ⟨0x0FE00000, 0x03C00000, 0x00000000, 0x00000000, fun _ => true, fun w => .bicImm (bits w 28 4) (bits w 20 1) (bits w 16 4) (bits w 12 4) (bits w 0 12)⟩,
   ⟨0x0FE00000, 0x03E00000, 0x000F0000, 0x00000000, fun _ => true, fun w => .mvnImm (bits w 28 4) (bits w 20 1) (bits w 12 4) (bits w 0 12)⟩]

/-- Bits [27:25] = 010: load/store with an immediate offset. -/
def rows2 : List Row :=
  [⟨0x0F700000, 0x04300000, 0x00000000, 0x00000000, fun _ => true, fun w => .ldrtImm (bits w 28 4) (bits w 23 1) (bits w 16 4) (bits w 12 4) (bits w 0 12)⟩,
   ⟨0x0F700000, 0x04200000, 0x00000000, 0x00000000, fun _ => true, fun w => .strtImm (bits w 28 4) (bits w 23 1) (bits w 16 4) (bits w 12 4) (bits w 0 12)⟩,
   ⟨0x0F700000, 0x04700000, 0x00000000, 0x00000000, fun _ => true, fun w => .ldrbtImm (bits w 28 4) (bits w 23 1) (bits w 16 4) (bits w 12 4) (bits w 0 12)⟩,
   ⟨0x0F700000, 0x04600000, 0x00000000, 0x00000000, fun _ => true, fun w => .strbtImm (bits w 28 4) (bits w 23 1) (bits w 16 4) (bits w 12 4) (bits w 0 12)⟩,
   ⟨0x0E500000, 0x04100000, 0x00000000, 0x00000000, fun w => !(bits w 24 1 == 0 && bits w 21 1 == 1), fun w => .ldrImm (bits w 28 4) (bits w 24 1) (bits w 23 1) (bits w 21 1) (bits w 16 4) (bits w 12 4) (bits w 0 12)⟩,
   ⟨0x0E500000, 0x04000000, 0x00000000, 0x00000000, fun w => !(bits w 24 1 == 0 && bits w 21 1 == 1), fun w => .strImm (bits w 28 4) (bits w 24 1) (bits w 23 1) (bits w 21 1) (bits w 16 4) (bits w 12 4) (bits w 0 12)⟩,
   ⟨0x0E500000, 0x04500000, 0x00000000, 0x00000000, fun w => !(bits w 24 1 == 0 && bits w 21 1 == 1), fun w => .ldrbImm (bits w 28 4) (bits w 24 1) (bits w 23 1) (bits w 21 1) (bits w 16 4) (bits w 12 4) (bits w 0 12)⟩,
   ⟨0x0E500000, 0x04400000, 0x00000000, 0x00000000, fun w => !(bits w 24 1 == 0 && bits w 21 1 == 1), fun w => .strbImm (bits w 28 4) (bits w 24 1) (bits w 23 1) (bits w 21 1) (bits w 16 4) (bits w 12 4) (bits w 0 12)⟩]

/-- Bits [27:25] = 011: load/store with a register offset, media instructions. -/
def rows3 : List Row :=
  [⟨0x0F700010, 0x06300000, 0x00000000, 0x00000000, fun _ => true, fun w => .ldrtReg (bits w 28 4) (bits w 23 1) (bits w 16 4) (bits w 12 4) (bits w 7 5) (bits w 5 2) (bits w 0 4)⟩,
   ⟨0x0F700010, 0x06200000, 0x00000000, 0x00000000, fun _ => true, fun w => .strtReg (bits w 28 4) (bits w 23 1) (bits w 16 4) (bits w 12 4) (bits w 7 5) (bits w 5 2) (bits w 0 4)⟩,
   ⟨0x0F700010, 0x06700000, 0x00000000, 0x00000000, fun _ => true, fun w => .ldrbtReg (bits w 28 4) (bits w 23 1) (bits w 16 4) (bits w 12 4) (bits w 7 5) (bits w 5 2) (bits w 0 4)⟩,
   ⟨0x0F700010, 0x06600000, 0x00000000, 0x00000000, fun _ => true, fun w => .strbtReg (bits w 28 4) (bits w 23 1) (bits w 16 4) (bits w 12 4) (bits w 7 5) (bits w 5 2) (bits w 0 4)⟩,
   ⟨0x0E500010, 0x06100000, 0x00000000, 0x00000000, fun w => !(bits w 24 1 == 0 && bits w 21 1 == 1), fun w => .ldrReg (bits w 28 4) (bits w 24 1) (bits w 23 1) (bits w 21 1) (bits w 16 4) (bits w 12 4) (bits w 7 5) (bits w 5 2) (bits w 0 4)⟩,
   ⟨0x0E500010, 0x06000000, 0x00000000, 0x00000000, fun w => !(bits w 24 1 == 0 && bits w 21 1 == 1), fun w => .strReg (bits w 28 4) (bits w 24 1) (bits w 23 1) (bits w 21 1) (bits w 16 4) (bits w 12 4) (bits w 7 5) (bits w 5 2) (bits w 0 4)⟩,
   ⟨0x0E500010, 0x06500000, 0x00000000, 0x00000000, fun w => !(bits w 24 1 == 0 && bits w 21 1 == 1), fun w => .ldrbReg (bits w 28 4) (bits w 24 1) (bits w 23 1) (bits w 21 1) (bits w 16 4) (bits w 12 4) (bits w 7 5) (bits w 5 2) (bits w 0 4)⟩,
   ⟨0x0E500010, 0x06400000, 0x00000000, 0x00000000, fun w => !(bits w 24 1 == 0 && bits w 21 1 == 1), fun w => .strbReg (bits w 28 4) (bits w 24 1) (bits w 23 1) (bits w 21 1) (bits w 16 4) (bits w 12 4) (bits w 7 5) (bits w 5 2) (bits w 0 4)⟩] ++
  [⟨0x0FF000F0, 0x06100010, 0x00000000, 0x00000F00, fun _ => true, fun w => .sadd16 (bits w 28 4) (bits w 16 4) (bits w 12 4) (bits w 0 4)⟩,
   ⟨0x0FF000F0, 0x06100030, 0x00000000, 0x00000F00, fun _ => true, fun w => .sasx (bits w 28 4) (bits w 16 4) (bits w 12 4) (bits w 0 4)⟩,
   ⟨0x0FF000F0, 0x06100050, 0x00000000, 0x00000F00, fun _ => true, fun w => .ssax (bits w 28 4) (bits w 16 4) (bits w 12 4) (bits w 0 4)⟩,
   ⟨0x0FF000F0, 0x06100070, 0x00000000, 0x00000F00, fun _ => true, fun w => .ssub16 (bits w 28 4) (bits w 16 4) (bits w 12 4) (bits w 0 4)⟩,
   ⟨0x0FF000F0, 0x06100090, 0x00000000, 0x00000F00, fun _ => true, fun w => .sadd8 (bits w 28 4) (bits w 16 4) (bits w 12 4) (bits w 0 4)⟩,
   ⟨0x0FF000F0, 0x061000F0, 0x00000000, 0x00000F00, fun _ => true, fun w => .ssub8 (bits w 28 4) (bits w 16 4) (bits w 12 4) (bits w 0 4)⟩,
   ⟨0x0FF000F0, 0x06200010, 0x00000000, 0x00000F00, fun _ => true, fun w => .qadd16 (bits w 28 4) (bits w 16 4) (bits w 12 4) (bits w 0 4)⟩,
   ⟨0x0FF000F0, 0x06200030, 0x00000000, 0x00000F00, fun _ => true, fun w => .qasx (bits w 28 4) (bits w 16 4) (bits w 12 4) (bits w 0 4)⟩] ++
  [⟨0x0FF000F0, 0x06200050, 0x00000000, 0x00000F00, fun _ => true, fun w => .qsax (bits w 28 4) (bits w 16 4) (bits w 12 4) (bits w 0 4)⟩,
   ⟨0x0FF000F0, 0x06200070, 0x00000000, 0x00000F00, fun _ => true, fun w => .qsub16 (bits w 28 4) (bits w 16 4) (bits w 12 4) (bits w 0 4)⟩,
   ⟨0x0FF000F0, 0x06200090, 0x00000000, 0x00000F00, fun _ => true, fun w => .qadd8 (bits w 28 4) (bits w 16 4) (bits w 12 4) (bits w 0 4)⟩,
   ⟨0x0FF000F0, 0x062000F0, 0x00000000, 0x00000F00, fun _ => true, fun w => .qsub8 (bits w 28 4) (bits w 16 4) (bits w 12 4) (bits w 0 4)⟩,
   ⟨0x0FF000F0, 0x06300010, 0x00000000, 0x00000F00, fun _ => true, fun w => .shadd16 (bits w 28 4) (bits w 16 4) (bits w 12 4) (bits w 0 4)⟩,
   ⟨0x0FF000F0, 0x06300030, 0x00000000, 0x00000F00, fun _ => true, fun w => .shasx (bits w 28 4) (bits w 16 4) (bits w 12 4) (bits w 0 4)⟩,
   ⟨0x0FF000F0, 0x06300050, 0x00000000, 0x00000F00, fun _ => true, fun w => .shsax (bits w 28 4) (bits w 16 4) (bits w 12 4) (bits w 0 4)⟩,
   ⟨0x0FF000F0, 0x06300070, 0x00000000, 0x00000F00, fun _ => true, fun w => .shsub16 (bits w 28 4) (bits w 16 4) (bits w 12 4) (bits w 0 4)⟩] ++
  [⟨0x0FF000F0, 0x06300090, 0x00000000, 0x00000F00, fun _ => true, fun w => .shadd8 (bits w 28 4) (bits w 16 4) (bits w 12 4) (bits w 0 4)⟩,
   ⟨0x0FF000F0, 0x063000F0, 0x00000000, 0x00000F00, fun _ => true, fun w => .shsub8 (bits w 28 4) (bits w 16 4) (bits w 12 4) (bits w 0 4)⟩,
   ⟨0x0FF000F0, 0x06500010, 0x00000000, 0x00000F00, fun _ => true, fun w => .uadd16 (bits w 28 4) (bits w 16 4) (bits w 12 4) (bits w 0 4)⟩,
   ⟨0x0FF000F0, 0x06500030, 0x00000000, 0x00000F00, fun _ => true, fun w => .uasx (bits w 28 4) (bits w 16 4) (bits w 12 4) (bits w 0 4)⟩,
   ⟨0x0FF000F0, 0x06500050, 0x00000000, 0x00000F00, fun _ => true, fun w => .usax (bits w 28 4) (bits w 16 4) (bits w 12 4) (bits w 0 4)⟩,
   ⟨0x0FF000F0, 0x06500070, 0x00000000, 0x00000F00, fun _ => true, fun w => .usub16 (bits w 28 4) (bits w 16 4) (bits w 12 4) (bits w 0 4)⟩,
   ⟨0x0FF000F0, 0x06500090, 0x00000000, 0x00000F00, fun _ => true, fun w => .uadd8 (bits w 28 4) (bits w 16 4) (bits w 12 4) (bits w 0 4)⟩,
   ⟨0x0FF000F0, 0x065000F0, 0x00000000, 0x00000F00, fun _ => true, fun w => .usub8 (bits w 28 4) (bits w 16 4) (bits w 12 4) (bits w 0 4)⟩] ++
  [⟨0x0FF000F0, 0x06600010, 0x00000000, 0x00000F00, fun _ => true, fun w => .uqadd16 (bits w 28 4) (bits w 16 4) (bits w 12 4) (bits w 0 4)⟩,
   ⟨0x0FF000F0, 0x06600030, 0x00000000, 0x00000F00, fun _ => true, fun w => .uqasx (bits w 28 4) (bits w 16 4) (bits w 12 4) (bits w 0 4)⟩,
   ⟨0x0FF000F0, 0x06600050, 0x00000000, 0x00000F00, fun _ => true, fun w => .uqsax (bits w 28 4) (bits w 16 4) (bits w 12 4) (bits w 0 4)⟩,
   ⟨0x0FF000F0, 0x06600070, 0x00000000, 0x00000F00, fun _ => true, fun w => .uqsub16 (bits w 28 4) (bits w 16 4) (bits w 12 4) (bits w 0 4)⟩,
   ⟨0x0FF000F0, 0x06600090, 0x00000000, 0x00000F00, fun _ => true, fun w => .uqadd8 (bits w 28 4) (bits w 16 4) (bits w 12 4) (bits w 0 4)⟩,
   ⟨0x0FF000F0, 0x066000F0, 0x00000000, 0x00000F00, fun _ => true, fun w => .uqsub8 (bits w 28 4) (bits w 16 4) (bits w 12 4) (bits w 0 4)⟩,
   ⟨0x0FF000F0, 0x06700010, 0x00000000, 0x00000F00, fun _ => true, fun w => .uhadd16 (bits w 28 4) (bits w 16 4) (bits w 12 4) (bits w 0 4)⟩,
   ⟨0x0FF000F0, 0x06700030, 0x00000000, 0x00000F00, fun _ => true, fun w => .uhasx (bits w 28 4) (bits w 16 4) (bits w 12 4) (bits w 0 4)⟩] ++
  [⟨0x0FF000F0, 0x06700050, 0x00000000, 0x00000F00, fun _ => true, fun w => .uhsax (bits w 28 4) (bits w 16 4) (bits w 12 4) (bits w 0 4)⟩,
   ⟨0x0FF000F0, 0x06700070, 0x00000000, 0x00000F00, fun _ => true, fun w => .uhsub16 (bits w 28 4) (bits w 16 4) (bits w 12 4) (bits w 0 4)⟩,
   ⟨0x0FF000F0, 0x06700090, 0x00000000, 0x00000F00, fun _ => true, fun w => .uhadd8 (bits w 28 4) (bits w 16 4) (bits w 12 4) (bits w 0 4)⟩,
   ⟨0x0FF000F0, 0x067000F0, 0x00000000, 0x00000F00, fun _ => true, fun w => .uhsub8 (bits w 28 4) (bits w 16 4) (bits w 12 4) (bits w 0 4)⟩,
   ⟨0x0FF00070, 0x06800010, 0x00000000, 0x00000000, fun _ => true, fun w => .pkhbt (bits w 28 4) (bits w 16 4) (bits w 12 4) (bits w 7 5) (bits w 0 4)⟩,
   ⟨0x0FF00070, 0x06800050, 0x00000000, 0x00000000, fun _ => true, fun w => .pkhtb (bits w 28 4) (bits w 16 4) (bits w 12 4) (bits w 7 5) (bits w 0 4)⟩,
   ⟨0x0FF000F0, 0x068000B0, 0x00000000, 0x00000F00, fun _ => true, fun w => .sel (bits w 28 4) (bits w 16 4) (bits w 12 4) (bits w 0 4)⟩,
   ⟨0x0FE00030, 0x06A00010, 0x00000000, 0x00000000, fun _ => true, fun w => .ssat (bits w 28 4) (bits w 16 5) (bits w 12 4) (bits w 7 5) (bits w 6 1) (bits w 0 4)⟩] ++
  [⟨0x0FE00030, 0x06E00010, 0x00000000, 0x00000000, fun _ => true, fun w => .usat (bits w 28 4) (bits w 16 5) (bits w 12 4) (bits w 7 5) (bits w 6 1) (bits w 0 4)⟩,
   ⟨0x0FF000F0, 0x06A00030, 0x00000000, 0x00000F00, fun _ => true, fun w => .ssat16 (bits w 28 4) (bits w 16 4) (bits w 12 4) (bits w 0 4)⟩,
   ⟨0x0FF000F0, 0x06E00030, 0x00000000, 0x00000F00, fun _ => true, fun w => .usat16 (bits w 28 4) (bits w 16 4) (bits w 12 4) (bits w 0 4)⟩,
   ⟨0x0FFF00F0, 0x068F0070, 0x00000300, 0x00000000, fun _ => true, fun w => .sxtb16 (bits w 28 4) (bits w 12 4) (bits w 10 2) (bits w 0 4)⟩,
   ⟨0x0FF000F0, 0x06800070, 0x00000300, 0x00000000, fun w => bits w 16 4 != 15, fun w => .sxtab16 (bits w 28 4) (bits w 16 4) (bits w 12 4) (bits w 10 2) (bits w 0 4)⟩,
   ⟨0x0FFF00F0, 0x06AF0070, 0x00000300, 0x00000000, fun _ => true, fun w => .sxtb (bits w 28 4) (bits w 12 4) (bits w 10 2) (bits w 0 4)⟩,
   ⟨0x0FF000F0, 0x06A00070, 0x00000300, 0x00000000, fun w => bits w 16 4 != 15, fun w => .sxtab (bits w 28 4) (bits w 16 4) (bits w 12 4) (bits w 10 2) (bits w 0 4)⟩,
   ⟨0x0FFF00F0, 0x06BF0070, 0x00000300, 0x00000000, fun _ => true, fun w => .sxth (bits w 28 4) (bits w 12 4) (bits w 10 2) (bits w 0 4)⟩] ++
  [⟨0x0FF000F0, 0x06B00070, 0x00000300, 0x00000000, fun w => bits w 16 4 != 15, fun w => .sxtah (bits w 28 4) (bits w 16 4) (bits w 12 4) (bits w 10 2) (bits w 0 4)⟩,
   ⟨0x0FFF00F0, 0x06CF0070, 0x00000300, 0x00000000, fun _ => true, fun w => .uxtb16 (bits w 28 4) (bits w 12 4) (bits w 10 2) (bits w 0 4)⟩,
   ⟨0x0FF000F0, 0x06C00070, 0x00000300, 0x00000000, fun w => bits w 16 4 != 15, fun w => .uxtab16 (bits w 28 4) (bits w 16 4) (bits w 12 4) (bits w 10 2) (bits w 0 4)⟩,
   ⟨0x0FFF00F0, 0x06EF0070, 0x00000300, 0x00000000, fun _ => true, fun w => .uxtb (bits w 28 4) (bits w 12 4) (bits w 10 2) (bits w 0 4)⟩,
   ⟨0x0FF000F0, 0x06E00070, 0x00000300, 0x00000000, fun w => bits w 16 4 != 15, fun w => .uxtab (bits w 28 4) (bits w 16 4) (bits w 12 4) (bits w 10 2) (bits w 0 4)⟩,
   ⟨0x0FFF00F0, 0x06FF0070, 0x00000300, 0x00000000, fun _ => true, fun w => .uxth (bits w 28 4) (bits w 12 4) (bits w 10 2) (bits w 0 4)⟩,
   ⟨0x0FF000F0, 0x06F00070, 0x00000300, 0x00000000, fun w => bits w 16 4 != 15, fun w => .uxtah (bits w 28 4) (bits w 16 4) (bits w 12 4) (bits w 10 2) (bits w 0 4)⟩,
   ⟨0x0FF000F0, 0x06B00030, 0x00000000, 0x000F0F00, fun _ => true, fun w => .rev (bits w 28 4) (bits w 12 4) (bits w 0 4)⟩] ++
  [⟨0x0FF000F0, 0x06B000B0, 0x00000000, 0x000F0F00, fun _ => true, fun w => .rev16 (bits w 28 4) (bits w 12 4) (bits w 0 4)⟩,
   ⟨0x0FF000F0, 0x06F00030, 0x00000000, 0x000F0F00, fun _ => true, fun w => .rbit (bits w 28 4) (bits w 12 4) (bits w 0 4)⟩,
   ⟨0x0FF000F0, 0x06F000B0, 0x00000000, 0x000F0F00, fun _ => true, fun w => .revsh (bits w 28 4) (bits w 12 4) (bits w 0 4)⟩,
   ⟨0x0FF0F0F0, 0x0700F010, 0x00000000, 0x00000000, fun _ => true, fun w => .smuad (bits w 28 4) (bits w 16 4) (bits w 8 4) (bits w 0 4)⟩,
   ⟨0x0FF0F0F0, 0x0700F050, 0x00000000, 0x00000000, fun _ => true, fun w => .smusd (bits w 28 4) (bits w 16 4) (bits w 8 4) (bits w 0 4)⟩,
   ⟨0x0FF0F0F0, 0x0700F030, 0x00000000, 0x00000000, fun _ => true, fun w => .smuadx (bits w 28 4) (bits w 16 4) (bits w 8 4) (bits w 0 4)⟩,
   ⟨0x0FF0F0F0, 0x0700F070, 0x00000000, 0x00000000, fun _ => true, fun w => .smusdx (bits w 28 4) (bits w 16 4) (bits w 8 4) (bits w 0 4)⟩,
   ⟨0x0FF000F0, 0x07000010, 0x00000000, 0x00000000, fun w => bits w 12 4 != 15, fun w => .smlad (bits w 28 4) (bits w 16 4) (bits w 12 4) (bits w 8 4) (bits w 0 4)⟩] ++
  [⟨0x0FF000F0, 0x07000050, 0x00000000, 0x00000000, fun w => bits w 12 4 != 15, fun w => .smlsd (bits w 28 4) (bits w 16 4) (bits w 12 4) (bits w 8 4) (bits w 0 4)⟩,
   ⟨0x0FF000F0, 0x07400010, 0x00000000, 0x00000000, fun _ => true, fun w => .smlald (bits w 28 4) (bits w 16 4) (bits w 12 4) (bits w 8 4) (bits w 0 4)⟩,
   ⟨0x0FF000F0, 0x07400050, 0x00000000, 0x00000000, fun _ => true, fun w => .smlsld (bits w 28 4) (bits w 16 4) (bits w 12 4) (bits w 8 4) (bits w 0 4)⟩,
   ⟨0x0FF000F0, 0x07000030, 0x00000000, 0x00000000, fun w => bits w 12 4 != 15, fun w => .smladx (bits w 28 4) (bits w 16 4) (bits w 12 4) (bits w 8 4) (bits w 0 4)⟩,
   ⟨0x0FF000F0, 0x07000070, 0x00000000, 0x00000000, fun w => bits w 12 4 != 15, fun w => .smlsdx (bits w 28 4) (bits w 16 4) (bits w 12 4) (bits w 8 4) (bits w 0 4)⟩,
   ⟨0x0FF000F0, 0x07400030, 0x00000000, 0x00000000, fun _ => true, fun w => .smlaldx (bits w 28 4) (bits w 16 4) (bits w 12 4) (bits w 8 4) (bits w 0 4)⟩,
   ⟨0x0FF000F0, 0x07400070, 0x00000000, 0x00000000, fun _ => true, fun w => .smlsldx (bits w 28 4) (bits w 16 4) (bits w 12 4) (bits w 8 4) (bits w 0 4)⟩,
   ⟨0x0FF0F0F0, 0x0750F010, 0x00000000, 0x00000000, fun _ => true, fun w => .smmul (bits w 28 4) (bits w 16 4) (bits w 8 4) (bits w 0 4)⟩] ++
  [⟨0x0FF0F0F0, 0x0750F030, 0x00000000, 0x00000000, fun _ => true, fun w => .smmulr (bits w 28 4) (bits w 16 4) (bits w 8 4) (bits w 0 4)⟩,
   ⟨0x0FF000F0, 0x07500010, 0x00000000, 0x00000000, fun w => bits w 12 4 != 15, fun w => .smmla (bits w 28 4) (bits w 16 4) (bits w 12 4) (bits w 8 4) (bits w 0 4)⟩,
   ⟨0x0FF000F0, 0x075000D0, 0x00000000, 0x00000000, fun _ => true, fun w => .smmls (bits w 28 4) (bits w 16 4) (bits w 12 4) (bits w 8 4) (bits w 0 4)⟩,
   ⟨0x0FF000F0, 0x07500030, 0x00000000, 0x00000000, fun w => bits w 12 4 != 15, fun w => .smmlar (bits w 28 4) (bits w 16 4) (bits w 12 4) (bits w 8 4) (bits w 0 4)⟩,
   ⟨0x0FF000F0, 0x075000F0, 0x00000000, 0x00000000, fun _ => true, fun w => .smmlsr (bits w 28 4) (bits w 16 4) (bits w 12 4) (bits w 8 4) (bits w 0 4)⟩,
   ⟨0x0FF0F0F0, 0x0780F010, 0x00000000, 0x00000000, fun _ => true, fun w => .usad8 (bits w 28 4) (bits w 16 4) (bits w 8 4) (bits w 0 4)⟩,
   ⟨0x0FF000F0, 0x07800010, 0x00000000, 0x00000000, fun w => bits w 12 4 != 15, fun w => .usada8 (bits w 28 4) (bits w 16 4) (bits w 12 4) (bits w 8 4) (bits w 0 4)⟩,
   ⟨0x0FE00070, 0x07A00050, 0x00000000, 0x00000000, fun _ => true, fun w => .sbfx (bits w 28 4) (bits w 16 5) (bits w 12 4) (bits w 7 5) (bits w 0 4)⟩] ++
  [⟨0x0FE00070, 0x07E00050, 0x00000000, 0x00000000, fun _ => true, fun w => .ubfx (bits w 28 4) (bits w 16 5) (bits w 12 4) (bits w 7 5) (bits w 0 4)⟩,
   ⟨0x0FE0007F, 0x07C0001F, 0x00000000, 0x00000000, fun _ => true, fun w => .bfc (bits w 28 4) (bits w 16 5) (bits w 12 4) (bits w 7 5)⟩,
   ⟨0x0FE00070, 0x07C00010, 0x00000000, 0x00000000, fun w => bits w 0 4 != 15, fun w => .bfi (bits w 28 4) (bits w 16 5) (bits w 12 4) (bits w 7 5) (bits w 0 4)⟩,
   ⟨0x0FF000F0, 0x07F000F0, 0x00000000, 0x00000000, fun _ => true, fun w => .udf (bits w 28 4) (bits w 8 12) (bits w 0 4)⟩]

/-- Bits [27:25] = 100: load/store multiple. -/
def rows4 : List Row :=
  [⟨0x0E500000, 0x08100000, 0x00000000, 0x00000000, fun _ => true, fun w => .ldm (bits w 28 4) (bits w 24 1) (bits w 23 1) (bits w 21 1) (bits w 16 4) (bits w 0 16)⟩,
   ⟨0x0E500000, 0x08000000, 0x00000000, 0x00000000, fun _ => true, fun w => .stm (bits w 28 4) (bits w 24 1) (bits w 23 1) (bits w 21 1) (bits w 16 4) (bits w 0 16)⟩,
   ⟨0x0E508000, 0x08508000, 0x00000000, 0x00000000, fun _ => true, fun w => .ldmExcRet (bits w 28 4) (bits w 24 1) (bits w 23 1) (bits w 21 1) (bits w 16 4) (bits w 0 15)⟩,
   ⟨0x0E508000, 0x08500000, 0x00200000, 0x00000000, fun _ => true, fun w => .ldmUser (bits w 28 4) (bits w 24 1) (bits w 23 1) (bits w 16 4) (bits w 0 15)⟩,
   ⟨0x0E500000, 0x08400000, 0x00200000, 0x00000000, fun _ => true, fun w => .stmUser (bits w 28 4) (bits w 24 1) (bits w 23 1) (bits w 16 4) (bits w 0 16)⟩]

/-- Bits [27:25] = 101: branches. -/
def rows5 : List Row :=
  [⟨0x0F000000, 0x0A000000, 0x00000000, 0x00000000, fun _ => true, fun w => .b (bits w 28 4) (bits w 0 24)⟩,
   ⟨0x0F000000, 0x0B000000, 0x00000000, 0x00000000, fun _ => true, fun w => .bl (bits w 28 4) (bits w 0 24)⟩]

/-- Bits [27:25] = 110: coprocessor load/store and 64-bit transfers. -/
def rows6 : List Row :=
  [⟨0x0E50FF00, 0x0C105E00, 0x00000000, 0x00000000, fun w => !(bits w 23 2 == 0 && bits w 21 1 == 0), fun w => .ldcDtr (bits w 28 4) (bits w 24 1) (bits w 23 1) (bits w 21 1) (bits w 16 4) (bits w 0 8)⟩,
   ⟨0x0E50FF00, 0x0C005E00, 0x00000000, 0x00000000, fun w => !(bits w 23 2 == 0 && bits w 21 1 == 0), fun w => .stcDtr (bits w 28 4) (bits w 24 1) (bits w 23 1) (bits w 21 1) (bits w 16 4) (bits w 0 8)⟩,
   ⟨0x0E000E00, 0x0C000A00, 0x00000000, 0x00000000, fun _ => true, fun w => .vfpLoadStore (bits w 28 4) (bits w 12 13) (bits w 0 9)⟩,
   ⟨0x0FF00000, 0x0C400000, 0x00000000, 0x00000000, fun _ => true, fun w => .mcrrAny (bits w 28 4) (bits w 16 4) (bits w 12 4) (bits w 8 4) (bits w 4 4) (bits w 0 4)⟩,
   ⟨0x0FF00000, 0x0C500000, 0x00000000, 0x00000000, fun _ => true, fun w => .mrrcAny (bits w 28 4) (bits w 16 4) (bits w 12 4) (bits w 8 4) (bits w 4 4) (bits w 0 4)⟩,
   ⟨0x0E000000, 0x0C000000, 0x00000000, 0x00000000, fun _ => true, fun w => .ldcStcOther (bits w 28 4) (bits w 24 1) (bits w 23 1) (bits w 22 1) (bits w 21 1) (bits w 20 1) (bits w 16 4) (bits w 12 4) (bits w 8 4) (bits w 0 8)⟩]

/-- Bits [27:24] = 1110: coprocessor words that are no MRC or MCR of CP14 or CP15. -/
def rows7 : List Row :=
  [⟨0x0FFFFF10, 0x0EF1FA10, 0x000000EF, 0x00000000, fun _ => true, fun w => .fmstat (bits w 28 4)⟩,
   ⟨0x0FFF0F10, 0x0EF00A10, 0x000000EF, 0x00000000, fun _ => true, fun w => .vmrsFpsid (bits w 28 4) (bits w 12 4)⟩,
   ⟨0x0FFF0F10, 0x0EE00A10, 0x000000EF, 0x00000000, fun _ => true, fun w => .vmsrFpsid (bits w 28 4) (bits w 12 4)⟩,
   ⟨0x0FFF0F10, 0x0EF10A10, 0x000000EF, 0x00000000, fun _ => true, fun w => .vmrsFpscr (bits w 28 4) (bits w 12 4)⟩,
   ⟨0x0FFF0F10, 0x0EE10A10, 0x000000EF, 0x00000000, fun _ => true, fun w => .vmsrFpscr (bits w 28 4) (bits w 12 4)⟩,
   ⟨0x0FFF0F10, 0x0EF60A10, 0x000000EF, 0x00000000, fun _ => true, fun w => .vmrsMvfr1 (bits w 28 4) (bits w 12 4)⟩,
   ⟨0x0FFF0F10, 0x0EE60A10, 0x000000EF, 0x00000000, fun _ => true, fun w => .vmsrMvfr1 (bits w 28 4) (bits w 12 4)⟩,
   ⟨0x0FFF0F10, 0x0EF70A10, 0x000000EF, 0x00000000, fun _ => true, fun w => .vmrsMvfr0 (bits w 28 4) (bits w 12 4)⟩] ++
  [⟨0x0FFF0F10, 0x0EE70A10, 0x000000EF, 0x00000000, fun _ => true, fun w => .vmsrMvfr0 (bits w 28 4) (bits w 12 4)⟩,
   ⟨0x0FFF0F10, 0x0EF80A10, 0x000000EF, 0x00000000, fun _ => true, fun w => .vmrsFpexc (bits w 28 4) (bits w 12 4)⟩,
   ⟨0x0FFF0F10, 0x0EE80A10, 0x000000EF, 0x00000000, fun _ => true, fun w => .vmsrFpexc (bits w 28 4) (bits w 12 4)⟩,
   ⟨0x0FE00F10, 0x0EE00A10, 0x000000EF, 0x00000000, fun _ => true, fun w => .vfpSysOther (bits w 28 4) (bits w 20 1) (bits w 16 4) (bits w 12 4)⟩,
   ⟨0x0F000E10, 0x0E000A00, 0x00000000, 0x00000000, fun _ => true, fun w => .vfpData (bits w 28 4) (bits w 12 12) (bits w 5 4) (bits w 0 4)⟩,
   ⟨0x0F000E10, 0x0E000A10, 0x00000000, 0x00000000, fun _ => true, fun w => .vfpTransfer (bits w 28 4) (bits w 12 12) (bits w 5 4) (bits w 0 4)⟩,
   ⟨0x0F100010, 0x0E000010, 0x00000000, 0x00000000, fun _ => true, fun w => .mcrOther (bits w 28 4) (bits w 21 3) (bits w 16 4) (bits w 12 4) (bits w 8 4) (bits w 5 3) (bits w 0 4)⟩,
   ⟨0x0F100010, 0x0E100010, 0x00000000, 0x00000000, fun _ => true, fun w => .mrcOther (bits w 28 4) (bits w 21 3) (bits w 16 4) (bits w 12 4) (bits w 8 4) (bits w 5 3) (bits w 0 4)⟩] ++
  [⟨0x0F000010, 0x0E000000, 0x00000000, 0x00000000, fun _ => true, fun w => .cdpAny (bits w 28 4) (bits w 20 4) (bits w 16 4) (bits w 12 4) (bits w 8 4) (bits w 5 3) (bits w 0 4)⟩]

/-- Bits [27:24] = 1111 (R1366). -/
def rowsSvc : List Row :=
  [⟨0x0F000000, 0x0F000000, 0x00000000, 0x00000000, fun _ => true, fun w => .svc (bits w 28 4) (bits w 0 24)⟩]

/-- The CP14 transfers that have a row of their own, by transferKey. -/
def p14Table : List Transfer :=
  [⟨0x0800, .mrcDidr⟩,
   ⟨0x0880, .mrcDrar⟩,
   ⟨0x0900, .mrcDsar⟩,
   ⟨0x0808, .mrcDscr⟩,
   ⟨0x0828, .mrcDtr⟩,
   ⟨0x0028, .mcrDtr⟩,
   ⟨0x6800, .mrcTeecr⟩,
   ⟨0x6000, .mcrTeecr⟩] ++
  [⟨0x6880, .mrcTeehbr⟩,
   ⟨0x6080, .mcrTeehbr⟩,
   ⟨0x7800, .mrcJidr⟩,
   ⟨0x7880, .mrcJoscr⟩,
   ⟨0x7080, .mcrJoscr⟩,
   ⟨0x7900, .mrcJmcr⟩,
   ⟨0x7100, .mcrJmcr⟩]

/-- The CP15 transfers that have a row of their own, by transferKey. -/
def p15Table : List Transfer :=
  [⟨0x0800, .mrcMidr⟩,
   ⟨0x0804, .mrcMidr4⟩,
   ⟨0x0806, .mrcMidr6⟩,
   ⟨0x0807, .mrcMidr7⟩,
   ⟨0x0801, .mrcCtr⟩,
   ⟨0x0802, .mrcTcmtr⟩,
   ⟨0x0803, .mrcTlbtr⟩,
   ⟨0x0805, .mrcMpidr⟩] ++
  [⟨0x0808, .mrcIdPfr0⟩,
   ⟨0x0809, .mrcIdPfr1⟩,
   ⟨0x080A, .mrcIdDfr0⟩,
   ⟨0x080B, .mrcIdAfr0⟩,
   ⟨0x080C, .mrcIdMmfr0⟩,
   ⟨0x080D, .mrcIdMmfr1⟩,
   ⟨0x080E, .mrcIdMmfr2⟩,
   ⟨0x080F, .mrcIdMmfr3⟩] ++
  [⟨0x0810, .mrcIdIsar0⟩,
   ⟨0x0811, .mrcIdIsar1⟩,
   ⟨0x0812, .mrcIdIsar2⟩,
   ⟨0x0813, .mrcIdIsar3⟩,
   ⟨0x0814, .mrcIdIsar4⟩,
   ⟨0x0815, .mrcIdIsar5⟩,
   ⟨0x0816, .mrcIdIsar6⟩,
   ⟨0x0817, .mrcIdIsar7⟩] ++
  [⟨0x1800, .mrcCcsidr⟩,
   ⟨0x1801, .mrcClidr⟩,
   ⟨0x1807, .mrcSiliconId⟩,
   ⟨0x2800, .mrcCsselr⟩,
   ⟨0x2000, .mcrCsselr⟩,
   ⟨0x0880, .mrcSctlr⟩,
   ⟨0x0080, .mcrSctlr⟩,
   ⟨0x0881, .mrcActlr⟩] ++
  [⟨0x0081, .mcrActlr⟩,
   ⟨0x0882, .mrcCpacr⟩,
   ⟨0x0082, .mcrCpacr⟩,
   ⟨0x0888, .mrcScr⟩,
   ⟨0x0088, .mcrScr⟩,
   ⟨0x0889, .mrcSder⟩,
   ⟨0x0089, .mcrSder⟩,
   ⟨0x088A, .mrcNsacr⟩] ++
  [⟨0x008A, .mcrNsacr⟩,
   ⟨0x0900, .mrcTtbr0⟩,
   ⟨0x0100, .mcrTtbr0⟩,
   ⟨0x0901, .mrcTtbr1⟩,
   ⟨0x0101, .mcrTtbr1⟩,
   ⟨0x0902, .mrcTtbcr⟩,
   ⟨0x0102, .mcrTtbcr⟩,
   ⟨0x0980, .mrcDacr⟩] ++
  [⟨0x0180, .mcrDacr⟩,
   ⟨0x0A80, .mrcDfsr⟩,
   ⟨0x0280, .mcrDfsr⟩,
   ⟨0x0A81, .mrcIfsr⟩,
   ⟨0x0281, .mcrIfsr⟩,
   ⟨0x0A88, .mrcAdfsr⟩,
   ⟨0x0288, .mcrAdfsr⟩,
   ⟨0x0A89, .mrcAifsr⟩] ++
  [⟨0x0289, .mcrAifsr⟩,
   ⟨0x0B00, .mrcDfar⟩,
   ⟨0x0300, .mcrDfar⟩,
   ⟨0x0B02, .mrcIfar⟩,
   ⟨0x0302, .mcrIfar⟩,
   ⟨0x0384, .mcrWfiNop⟩,
   ⟨0x0BA0, .mrcPar⟩,
   ⟨0x03A0, .mcrPar⟩] ++
  [⟨0x03A8, .mcrIciallu⟩,
   ⟨0x03A9, .mcrIcimvau⟩,
   ⟨0x03AC, .mcrIsb⟩,
   ⟨0x03AE, .mcrBpiall⟩,
   ⟨0x03AF, .mcrBpimva⟩,
   ⟨0x03B1, .mcrDcimvac⟩,
   ⟨0x03B2, .mcrDcisw⟩,
   ⟨0x03C0, .mcrVaPaCurPrivRead⟩] ++
  [⟨0x03C1, .mcrVaPaCurPrivWrite⟩,
   ⟨0x03C2, .mcrVaPaCurUserRead⟩,
   ⟨0x03C3, .mcrVaPaCurUserWrite⟩,
   ⟨0x03C4, .mcrVaPaOthPrivRead⟩,
   ⟨0x03C5, .mcrVaPaOthPrivWrite⟩,
   ⟨0x03C6, .mcrVaPaOthUserRead⟩,
   ⟨0x03C7, .mcrVaPaOthUserWrite⟩,
   ⟨0x03D1, .mcrDccmvac⟩] ++
  [⟨0x03D2, .mcrDccsw⟩,
   ⟨0x03D4, .mcrDsb⟩,
   ⟨0x03D5, .mcrDmb⟩,
   ⟨0x03D9, .mcrDccmvau⟩,
   ⟨0x03F1, .mcrDccimvac⟩,
   ⟨0x03F2, .mcrDccisw⟩,
   ⟨0x0428, .mcrItlbiall⟩,
   ⟨0x0429, .mcrItlbimva⟩] ++
  [⟨0x042A, .mcrItlbiasid⟩,
   ⟨0x0430, .mcrDtlbiall⟩,
   ⟨0x0431, .mcrDtlbimva⟩,
   ⟨0x0432, .mcrDtlbiasid⟩,
   ⟨0x0438, .mcrTlbiall⟩,
   ⟨0x0439, .mcrTlbimva⟩,
   ⟨0x043A, .mcrTlbiasid⟩,
   ⟨0x0CE0, .mrcPmnc⟩] ++
  [⟨0x04E0, .mcrPmnc⟩,
   ⟨0x0CE1, .mrcCntens⟩,
   ⟨0x04E1, .mcrCntens⟩,
   ⟨0x0CE2, .mrcCntenc⟩,
   ⟨0x04E2, .mcrCntenc⟩,
   ⟨0x0CE3, .mrcFlag⟩,
   ⟨0x04E3, .mcrFlag⟩,
   ⟨0x0CE4, .mrcSwincr⟩] ++
  [⟨0x04E4, .mcrSwincr⟩,
   ⟨0x0CE5, .mrcPmnxsel⟩,
   ⟨0x04E5, .mcrPmnxsel⟩,
   ⟨0x0CE8, .mrcCcnt⟩,
   ⟨0x04E8, .mcrCcnt⟩,
   ⟨0x0CE9, .mrcEvtsel⟩,
   ⟨0x04E9, .mcrEvtsel⟩,
   ⟨0x0CEA, .mrcPmcnt⟩] ++
  [⟨0x04EA, .mcrPmcnt⟩,
   ⟨0x0CF0, .mrcUseren⟩,
   ⟨0x04F0, .mcrUseren⟩,
   ⟨0x0CF1, .mrcIntens⟩,
   ⟨0x04F1, .mcrIntens⟩,
   ⟨0x0CF2, .mrcIntenc⟩,
   ⟨0x04F2, .mcrIntenc⟩,
   ⟨0x1C80, .mrcL2Lock⟩] ++
  [⟨0x1480, .mcrL2Lock⟩,
   ⟨0x1C82, .mrcL2Aux⟩,
   ⟨0x1482, .mcrL2Aux⟩,
   ⟨0x0D00, .mrcDtlbLock⟩,
   ⟨0x0500, .mcrDtlbLock⟩,
   ⟨0x0D01, .mrcItlbLock⟩,
   ⟨0x0501, .mcrItlbLock⟩,
   ⟨0x0508, .mcrDtlbPreload⟩] ++
  [⟨0x0509, .mcrItlbPreload⟩,
   ⟨0x0D10, .mrcPrrr⟩,
   ⟨0x0510, .mcrPrrr⟩,
   ⟨0x0D11, .mrcNmrr⟩,
   ⟨0x0511, .mcrNmrr⟩,
   ⟨0x0D80, .mrcPleIdPresent⟩,
   ⟨0x0D81, .mrcPleIdReserved⟩,
   ⟨0x0D82, .mrcPleIdRunning⟩] ++
  [⟨0x0D83, .mrcPleIdInterrupting⟩,
   ⟨0x0D88, .mrcPleUser⟩,
   ⟨0x0588, .mcrPleUser⟩,
   ⟨0x0D90, .mrcPleChannel⟩,
   ⟨0x0590, .mcrPleChannel⟩,
   ⟨0x0598, .mcrPleStop⟩,
   ⟨0x0599, .mcrPleStart⟩,
   ⟨0x059A, .mcrPleClear⟩] ++
  [⟨0x0DA0, .mrcPleControl⟩,
   ⟨0x05A0, .mcrPleControl⟩,
   ⟨0x0DA8, .mrcPleStartAddr⟩,
   ⟨0x05A8, .mcrPleStartAddr⟩,
   ⟨0x0DB8, .mrcPleEndAddr⟩,
   ⟨0x05B8, .mcrPleEndAddr⟩,
   ⟨0x0DC0, .mrcPleStatus⟩,
   ⟨0x0DF8, .mrcPleContext⟩] ++
  [⟨0x05F8, .mcrPleContext⟩,
   ⟨0x0E00, .mrcVbar⟩,
   ⟨0x0600, .mcrVbar⟩,
   ⟨0x0E01, .mrcMvbar⟩,
   ⟨0x0601, .mcrMvbar⟩,
   ⟨0x0E08, .mrcIsr⟩,
   ⟨0x0E80, .mrcFcse⟩,
   ⟨0x0680, .mcrFcse⟩] ++
  [⟨0x0E81, .mrcContextidr⟩,
   ⟨0x0681, .mcrContextidr⟩,
   ⟨0x0E82, .mrcTpidrurw⟩,
   ⟨0x0682, .mcrTpidrurw⟩,
   ⟨0x0E83, .mrcTpidruro⟩,
   ⟨0x0683, .mcrTpidruro⟩,
   ⟨0x0E84, .mrcTpidrprw⟩,
   ⟨0x0684, .mcrTpidrprw⟩] ++
  [⟨0x0F80, .mrcDl1Data0⟩,
   ⟨0x0780, .mcrDl1Data0⟩,
   ⟨0x0F81, .mrcDl1Data1⟩,
   ⟨0x0781, .mcrDl1Data1⟩,
   ⟨0x0782, .mcrDtlbCamWrite⟩,
   ⟨0x0783, .mcrDtlbAttrWrite⟩,
   ⟨0x0784, .mcrDtlbPaWrite⟩,
   ⟨0x0785, .mcrDhvabWrite⟩] ++
  [⟨0x0786, .mcrDtagWrite⟩,
   ⟨0x0787, .mcrDdataWrite⟩,
   ⟨0x0792, .mcrDtlbCamRead⟩,
   ⟨0x0793, .mcrDtlbAttrRead⟩,
   ⟨0x0794, .mcrDtlbPaRead⟩,
   ⟨0x0795, .mcrDhvabRead⟩,
   ⟨0x0796, .mcrDtagRead⟩,
   ⟨0x0797, .mcrDdataRead⟩] ++
  [⟨0x0F88, .mrcIl1Data0⟩,
   ⟨0x0788, .mcrIl1Data0⟩,
   ⟨0x0F89, .mrcIl1Data1⟩,
   ⟨0x0789, .mcrIl1Data1⟩,
   ⟨0x078A, .mcrItlbCamWrite⟩,
   ⟨0x078B, .mcrItlbAttrWrite⟩,
   ⟨0x078C, .mcrItlbPaWrite⟩,
   ⟨0x078D, .mcrIhvabWrite⟩] ++
  [⟨0x078E, .mcrItagWrite⟩,
   ⟨0x078F, .mcrIdataWrite⟩,
   ⟨0x079A, .mcrItlbCamRead⟩,
   ⟨0x079B, .mcrItlbAttrRead⟩,
   ⟨0x079C, .mcrItlbPaRead⟩,
   ⟨0x079D, .mcrIhvabRead⟩,
   ⟨0x079E, .mcrItagRead⟩,
   ⟨0x079F, .mcrIdataRead⟩] ++
  [⟨0x07AA, .mcrGhbWrite⟩,
   ⟨0x07AB, .mcrBtbWrite⟩,
   ⟨0x07BA, .mcrGhbRead⟩,
   ⟨0x07BB, .mcrBtbRead⟩,
   ⟨0x0FC0, .mrcL2Data0⟩,
   ⟨0x07C0, .mcrL2Data0⟩,
   ⟨0x0FC1, .mrcL2Data1⟩,
   ⟨0x07C1, .mcrL2Data1⟩] ++
  [⟨0x07C2, .mcrL2TagWrite⟩,
   ⟨0x07C3, .mcrL2DataWrite⟩,
   ⟨0x07C4, .mcrL2ParityWrite⟩,
   ⟨0x0FC5, .mrcL2Data2⟩,
   ⟨0x07C5, .mcrL2Data2⟩,
   ⟨0x07CA, .mcrL2TagRead⟩,
   ⟨0x07CB, .mcrL2DataRead⟩,
   ⟨0x07CC, .mcrL2ParityRead⟩]

/-- An MRC or MCR word of CP14 (R1370, 41_cp14_vfp_sysreg_instructions.md). -/
def readP14 (w : Word) : Instr :=
  match p14Table.find? (fun t => t.key == wordKey w) with
  | some t =>
    if w &&& 0x0FFFFFFF == 0x0E10FE11 then .mrcDscrFlags (bits w 28 4) else t.build (bits w 28 4) (bits w 12 4)
  | none =>
    if bits w 21 3 == 0 then .p14DebugOther (bits w 28 4) (bits w 20 1) (bits w 16 4) (bits w 12 4) (bits w 5 3) (bits w 0 4)
    else if bits w 21 3 == 6 then .p14TeeOther (bits w 28 4) (bits w 20 1) (bits w 16 4) (bits w 12 4) (bits w 5 3) (bits w 0 4)
    else .p14Other (bits w 28 4) (bits w 21 3) (bits w 20 1) (bits w 16 4) (bits w 12 4) (bits w 5 3) (bits w 0 4)

/-- An MRC or MCR word of CP15 (R1370, TRM Table 3-3). -/
def readP15 (w : Word) : Instr :=
  match p15Table.find? (fun t => t.key == wordKey w) with
  | some t => t.build (bits w 28 4) (bits w 12 4)
  | none =>
    if bits w 16 4 == 0 && bits w 20 4 == 1 && BitVec.ule 3 (bits w 0 4) && BitVec.ule (bits w 0 4) 7 then
      .mrcFeatureReserved (bits w 28 4) (bits w 12 4) (bits w 5 3) (bits w 0 4)
    else .p15Other (bits w 28 4) (bits w 21 3) (bits w 20 1) (bits w 16 4) (bits w 12 4) (bits w 5 3) (bits w 0 4)

/-- The instruction of a word (R1351 to R1374), or why it is none. -/
def decodeWord (w : Word) : Except DecodeReject Instr :=
  if bits w 28 4 == 15 then readRows rowsUncond w
  else match (bits w 25 3).toNat with
    | 0 => readRows rows0 w
    | 1 => readRows rows1 w
    | 2 => readRows rows2 w
    | 3 => readRows rows3 w
    | 4 => readRows rows4 w
    | 5 => readRows rows5 w
    | 6 => readRows rows6 w
    | _ =>
      if bits w 24 1 == 1 then readRows rowsSvc w
      else if bits w 4 1 == 1 && bits w 8 4 == 14 then .ok (readP14 w)
      else if bits w 4 1 == 1 && bits w 8 4 == 15 then .ok (readP15 w)
      else readRows rows7 w

/-- The word whose byte at the lowest address is `b0`: instructions are little-endian (R1351). -/
def wordOfBytes (b0 b1 b2 b3 : Byte) : Word := b3 ++ b2 ++ b1 ++ b0

/-- Decoding of the bytes at an address: the instruction and the bytes after it, or why there is none; fewer than four
bytes make no instruction. -/
def decodeBytes : List Byte → Except DecodeReject (Instr × List Byte)
  | b0 :: b1 :: b2 :: b3 :: rest => (decodeWord (wordOfBytes b0 b1 b2 b3)).map (·, rest)
  | _ => .error .undefined

/-- A field placed at bit `lo` of a word. -/
def put {n : Nat} (f : BitVec n) (lo : Nat) : Word := f.setWidth 32 <<< lo

/-- The word of an instruction: its fixed bits (should-be-one bits set, should-be-zero bits clear) and its fields. -/
def encode : Instr → Word
  | .cps imod m a i f mode => 0xF1000000#32 ||| put imod 18 ||| put m 17 ||| put a 8 ||| put i 7 ||| put f 6 ||| put mode 0
  | .setend e => 0xF1010000#32 ||| put e 9
  | .pliImm u rn imm12 => 0xF450F000#32 ||| put u 23 ||| put rn 16 ||| put imm12 0
  | .pliReg u rn imm5 typ rm => 0xF650F000#32 ||| put u 23 ||| put rn 16 ||| put imm5 7 ||| put typ 5 ||| put rm 0
  | .pldImm u rn imm12 => 0xF550F000#32 ||| put u 23 ||| put rn 16 ||| put imm12 0
  | .pldReg u rn imm5 typ rm => 0xF750F000#32 ||| put u 23 ||| put rn 16 ||| put imm5 7 ||| put typ 5 ||| put rm 0
  | .pldwImm u rn imm12 => 0xF510F000#32 ||| put u 23 ||| put rn 16 ||| put imm12 0
  | .pldwReg u rn imm5 typ rm => 0xF710F000#32 ||| put u 23 ||| put rn 16 ||| put imm5 7 ||| put typ 5 ||| put rm 0
  | .memHintImm u lo => 0xF4100000#32 ||| put u 23 ||| put lo 0
  | .memHintReg u mid lo => 0xF6100000#32 ||| put u 23 ||| put mid 5 ||| put lo 0
  | .clrex => 0xF57FF01F#32
  | .dsb opt => 0xF57FF040#32 ||| put opt 0
  | .dmb opt => 0xF57FF050#32 ||| put opt 0
  | .isb opt => 0xF57FF060#32 ||| put opt 0
  | .srs p u w mode => 0xF84D0500#32 ||| put p 24 ||| put u 23 ||| put w 21 ||| put mode 0
  | .rfe p u w rn => 0xF8100A00#32 ||| put p 24 ||| put u 23 ||| put w 21 ||| put rn 16
  | .blxImm h imm24 => 0xFA000000#32 ||| put h 24 ||| put imm24 0
  | .asimdData bits => 0xF2000000#32 ||| put bits 0
  | .asimdLoadStore hi lo => 0xF4000000#32 ||| put hi 21 ||| put lo 0
  | .coproc2LoadStore bits => 0xFC000000#32 ||| put bits 0
  | .coproc2Reg bits => 0xFE000000#32 ||| put bits 0
  | .uncondOther bits => 0xF0000000#32 ||| put bits 0
  | .mrs cond r rd => 0x010F0000#32 ||| put cond 28 ||| put r 22 ||| put rd 12
  | .msrCpsrReg cond fieldMask rn => 0x0120F000#32 ||| put cond 28 ||| put fieldMask 16 ||| put rn 0
  | .msrSpsrReg cond fieldMask rn => 0x0160F000#32 ||| put cond 28 ||| put fieldMask 16 ||| put rn 0
  | .bx cond rm => 0x012FFF10#32 ||| put cond 28 ||| put rm 0
  | .bxj cond rm => 0x012FFF20#32 ||| put cond 28 ||| put rm 0
  | .blxReg cond rm => 0x012FFF30#32 ||| put cond 28 ||| put rm 0
  | .clz cond rd rm => 0x016F0F10#32 ||| put cond 28 ||| put rd 12 ||| put rm 0
  | .qadd cond rn rd rm => 0x01000050#32 ||| put cond 28 ||| put rn 16 ||| put rd 12 ||| put rm 0
  | .qsub cond rn rd rm => 0x01200050#32 ||| put cond 28 ||| put rn 16 ||| put rd 12 ||| put rm 0
  | .qdadd cond rn rd rm => 0x01400050#32 ||| put cond 28 ||| put rn 16 ||| put rd 12 ||| put rm 0
  | .qdsub cond rn rd rm => 0x01600050#32 ||| put cond 28 ||| put rn 16 ||| put rd 12 ||| put rm 0
  | .bkpt cond imm12 imm4 => 0x01200070#32 ||| put cond 28 ||| put imm12 8 ||| put imm4 0
  | .smc cond imm4 => 0x01600070#32 ||| put cond 28 ||| put imm4 0
  | .smlabb cond rd ra rm rn => 0x01000080#32 ||| put cond 28 ||| put rd 16 ||| put ra 12 ||| put rm 8 ||| put rn 0
  | .smlabt cond rd ra rm rn => 0x010000C0#32 ||| put cond 28 ||| put rd 16 ||| put ra 12 ||| put rm 8 ||| put rn 0
  | .smlatb cond rd ra rm rn => 0x010000A0#32 ||| put cond 28 ||| put rd 16 ||| put ra 12 ||| put rm 8 ||| put rn 0
  | .smlatt cond rd ra rm rn => 0x010000E0#32 ||| put cond 28 ||| put rd 16 ||| put ra 12 ||| put rm 8 ||| put rn 0
  | .smlawb cond rd ra rm rn => 0x01200080#32 ||| put cond 28 ||| put rd 16 ||| put ra 12 ||| put rm 8 ||| put rn 0
  | .smlawt cond rd ra rm rn => 0x012000C0#32 ||| put cond 28 ||| put rd 16 ||| put ra 12 ||| put rm 8 ||| put rn 0
  | .smulwb cond rd rm rn => 0x012000A0#32 ||| put cond 28 ||| put rd 16 ||| put rm 8 ||| put rn 0
  | .smulwt cond rd rm rn => 0x012000E0#32 ||| put cond 28 ||| put rd 16 ||| put rm 8 ||| put rn 0
  | .smlalbb cond rdHi rdLo rm rn => 0x01400080#32 ||| put cond 28 ||| put rdHi 16 ||| put rdLo 12 ||| put rm 8 ||| put rn 0
  | .smlalbt cond rdHi rdLo rm rn => 0x014000C0#32 ||| put cond 28 ||| put rdHi 16 ||| put rdLo 12 ||| put rm 8 ||| put rn 0
  | .smlaltb cond rdHi rdLo rm rn => 0x014000A0#32 ||| put cond 28 ||| put rdHi 16 ||| put rdLo 12 ||| put rm 8 ||| put rn 0
  | .smlaltt cond rdHi rdLo rm rn => 0x014000E0#32 ||| put cond 28 ||| put rdHi 16 ||| put rdLo 12 ||| put rm 8 ||| put rn 0
  | .smulbb cond rd rm rn => 0x01600080#32 ||| put cond 28 ||| put rd 16 ||| put rm 8 ||| put rn 0
  | .smulbt cond rd rm rn => 0x016000C0#32 ||| put cond 28 ||| put rd 16 ||| put rm 8 ||| put rn 0
  | .smultb cond rd rm rn => 0x016000A0#32 ||| put cond 28 ||| put rd 16 ||| put rm 8 ||| put rn 0
  | .smultt cond rd rm rn => 0x016000E0#32 ||| put cond 28 ||| put rd 16 ||| put rm 8 ||| put rn 0
  | .swp cond rn rt rt2 => 0x01000090#32 ||| put cond 28 ||| put rn 16 ||| put rt 12 ||| put rt2 0
  | .swpb cond rn rt rt2 => 0x01400090#32 ||| put cond 28 ||| put rn 16 ||| put rt 12 ||| put rt2 0
  | .ldrex cond rn rt => 0x01900F9F#32 ||| put cond 28 ||| put rn 16 ||| put rt 12
  | .ldrexd cond rn rt => 0x01B00F9F#32 ||| put cond 28 ||| put rn 16 ||| put rt 12
  | .ldrexb cond rn rt => 0x01D00F9F#32 ||| put cond 28 ||| put rn 16 ||| put rt 12
  | .ldrexh cond rn rt => 0x01F00F9F#32 ||| put cond 28 ||| put rn 16 ||| put rt 12
  | .strex cond rn rd rt => 0x01800F90#32 ||| put cond 28 ||| put rn 16 ||| put rd 12 ||| put rt 0
  | .strexd cond rn rd rt => 0x01A00F90#32 ||| put cond 28 ||| put rn 16 ||| put rd 12 ||| put rt 0
  | .strexb cond rn rd rt => 0x01C00F90#32 ||| put cond 28 ||| put rn 16 ||| put rd 12 ||| put rt 0
  | .strexh cond rn rd rt => 0x01E00F90#32 ||| put cond 28 ||| put rn 16 ||| put rd 12 ||| put rt 0
  | .mul cond sf rd rm rn => 0x00000090#32 ||| put cond 28 ||| put sf 20 ||| put rd 16 ||| put rm 8 ||| put rn 0
  | .mla cond sf rd ra rm rn => 0x00200090#32 ||| put cond 28 ||| put sf 20 ||| put rd 16 ||| put ra 12 ||| put rm 8 ||| put rn 0
  | .umaal cond rdHi rdLo rm rn => 0x00400090#32 ||| put cond 28 ||| put rdHi 16 ||| put rdLo 12 ||| put rm 8 ||| put rn 0
  | .mls cond rd ra rm rn => 0x00600090#32 ||| put cond 28 ||| put rd 16 ||| put ra 12 ||| put rm 8 ||| put rn 0
  | .umull cond sf rdHi rdLo rm rn => 0x00800090#32 ||| put cond 28 ||| put sf 20 ||| put rdHi 16 ||| put rdLo 12 ||| put rm 8 ||| put rn 0
  | .umlal cond sf rdHi rdLo rm rn => 0x00A00090#32 ||| put cond 28 ||| put sf 20 ||| put rdHi 16 ||| put rdLo 12 ||| put rm 8 ||| put rn 0
  | .smull cond sf rdHi rdLo rm rn => 0x00C00090#32 ||| put cond 28 ||| put sf 20 ||| put rdHi 16 ||| put rdLo 12 ||| put rm 8 ||| put rn 0
  | .smlal cond sf rdHi rdLo rm rn => 0x00E00090#32 ||| put cond 28 ||| put sf 20 ||| put rdHi 16 ||| put rdLo 12 ||| put rm 8 ||| put rn 0
  | .strhtImm cond u rn rt imm4H imm4L => 0x006000B0#32 ||| put cond 28 ||| put u 23 ||| put rn 16 ||| put rt 12 ||| put imm4H 8 ||| put imm4L 0
  | .strhtReg cond u rn rt rm => 0x002000B0#32 ||| put cond 28 ||| put u 23 ||| put rn 16 ||| put rt 12 ||| put rm 0
  | .ldrhtImm cond u rn rt imm4H imm4L => 0x007000B0#32 ||| put cond 28 ||| put u 23 ||| put rn 16 ||| put rt 12 ||| put imm4H 8 ||| put imm4L 0
  | .ldrhtReg cond u rn rt rm => 0x003000B0#32 ||| put cond 28 ||| put u 23 ||| put rn 16 ||| put rt 12 ||| put rm 0
  | .ldrsbtImm cond u rn rt imm4H imm4L => 0x007000D0#32 ||| put cond 28 ||| put u 23 ||| put rn 16 ||| put rt 12 ||| put imm4H 8 ||| put imm4L 0
  | .ldrsbtReg cond u rn rt rm => 0x003000D0#32 ||| put cond 28 ||| put u 23 ||| put rn 16 ||| put rt 12 ||| put rm 0
  | .ldrshtImm cond u rn rt imm4H imm4L => 0x007000F0#32 ||| put cond 28 ||| put u 23 ||| put rn 16 ||| put rt 12 ||| put imm4H 8 ||| put imm4L 0
  | .ldrshtReg cond u rn rt rm => 0x003000F0#32 ||| put cond 28 ||| put u 23 ||| put rn 16 ||| put rt 12 ||| put rm 0
  | .strhImm cond p u w rn rt imm4H imm4L => 0x004000B0#32 ||| put cond 28 ||| put p 24 ||| put u 23 ||| put w 21 ||| put rn 16 ||| put rt 12 ||| put imm4H 8 ||| put imm4L 0
  | .strhReg cond p u w rn rt rm => 0x000000B0#32 ||| put cond 28 ||| put p 24 ||| put u 23 ||| put w 21 ||| put rn 16 ||| put rt 12 ||| put rm 0
  | .ldrhImm cond p u w rn rt imm4H imm4L => 0x005000B0#32 ||| put cond 28 ||| put p 24 ||| put u 23 ||| put w 21 ||| put rn 16 ||| put rt 12 ||| put imm4H 8 ||| put imm4L 0
  | .ldrhReg cond p u w rn rt rm => 0x001000B0#32 ||| put cond 28 ||| put p 24 ||| put u 23 ||| put w 21 ||| put rn 16 ||| put rt 12 ||| put rm 0
  | .ldrsbImm cond p u w rn rt imm4H imm4L => 0x005000D0#32 ||| put cond 28 ||| put p 24 ||| put u 23 ||| put w 21 ||| put rn 16 ||| put rt 12 ||| put imm4H 8 ||| put imm4L 0
  | .ldrsbReg cond p u w rn rt rm => 0x001000D0#32 ||| put cond 28 ||| put p 24 ||| put u 23 ||| put w 21 ||| put rn 16 ||| put rt 12 ||| put rm 0
  | .ldrshImm cond p u w rn rt imm4H imm4L => 0x005000F0#32 ||| put cond 28 ||| put p 24 ||| put u 23 ||| put w 21 ||| put rn 16 ||| put rt 12 ||| put imm4H 8 ||| put imm4L 0
  | .ldrshReg cond p u w rn rt rm => 0x001000F0#32 ||| put cond 28 ||| put p 24 ||| put u 23 ||| put w 21 ||| put rn 16 ||| put rt 12 ||| put rm 0
  | .ldrdImm cond p u w rn rt imm4H imm4L => 0x004000D0#32 ||| put cond 28 ||| put p 24 ||| put u 23 ||| put w 21 ||| put rn 16 ||| put rt 12 ||| put imm4H 8 ||| put imm4L 0
  | .ldrdReg cond p u w rn rt rm => 0x000000D0#32 ||| put cond 28 ||| put p 24 ||| put u 23 ||| put w 21 ||| put rn 16 ||| put rt 12 ||| put rm 0
  | .strdImm cond p u w rn rt imm4H imm4L => 0x004000F0#32 ||| put cond 28 ||| put p 24 ||| put u 23 ||| put w 21 ||| put rn 16 ||| put rt 12 ||| put imm4H 8 ||| put imm4L 0
  | .strdReg cond p u w rn rt rm => 0x000000F0#32 ||| put cond 28 ||| put p 24 ||| put u 23 ||| put w 21 ||| put rn 16 ||| put rt 12 ||| put rm 0
  | .movw cond imm4 rd imm12 => 0x03000000#32 ||| put cond 28 ||| put imm4 16 ||| put rd 12 ||| put imm12 0
  | .movt cond imm4 rd imm12 => 0x03400000#32 ||| put cond 28 ||| put imm4 16 ||| put rd 12 ||| put imm12 0
  | .nop cond => 0x0320F000#32 ||| put cond 28
  | .yield cond => 0x0320F001#32 ||| put cond 28
  | .wfe cond => 0x0320F002#32 ||| put cond 28
  | .wfi cond => 0x0320F003#32 ||| put cond 28
  | .sev cond => 0x0320F004#32 ||| put cond 28
  | .dbg cond opt => 0x0320F0F0#32 ||| put cond 28 ||| put opt 0
  | .hintOther cond hint8 => 0x0320F000#32 ||| put cond 28 ||| put hint8 0
  | .msrCpsrImm cond fieldMask imm12 => 0x0320F000#32 ||| put cond 28 ||| put fieldMask 16 ||| put imm12 0
  | .msrSpsrImm cond fieldMask imm12 => 0x0360F000#32 ||| put cond 28 ||| put fieldMask 16 ||| put imm12 0
  | .andImm cond sf rn rd imm12 => 0x02000000#32 ||| put cond 28 ||| put sf 20 ||| put rn 16 ||| put rd 12 ||| put imm12 0
  | .andReg cond sf rn rd imm5 typ rm => 0x00000000#32 ||| put cond 28 ||| put sf 20 ||| put rn 16 ||| put rd 12 ||| put imm5 7 ||| put typ 5 ||| put rm 0
  | .andRsr cond sf rn rd rs typ rm => 0x00000010#32 ||| put cond 28 ||| put sf 20 ||| put rn 16 ||| put rd 12 ||| put rs 8 ||| put typ 5 ||| put rm 0
  | .eorImm cond sf rn rd imm12 => 0x02200000#32 ||| put cond 28 ||| put sf 20 ||| put rn 16 ||| put rd 12 ||| put imm12 0
  | .eorReg cond sf rn rd imm5 typ rm => 0x00200000#32 ||| put cond 28 ||| put sf 20 ||| put rn 16 ||| put rd 12 ||| put imm5 7 ||| put typ 5 ||| put rm 0
  | .eorRsr cond sf rn rd rs typ rm => 0x00200010#32 ||| put cond 28 ||| put sf 20 ||| put rn 16 ||| put rd 12 ||| put rs 8 ||| put typ 5 ||| put rm 0
  | .subImm cond sf rn rd imm12 => 0x02400000#32 ||| put cond 28 ||| put sf 20 ||| put rn 16 ||| put rd 12 ||| put imm12 0
  | .subReg cond sf rn rd imm5 typ rm => 0x00400000#32 ||| put cond 28 ||| put sf 20 ||| put rn 16 ||| put rd 12 ||| put imm5 7 ||| put typ 5 ||| put rm 0
  | .subRsr cond sf rn rd rs typ rm => 0x00400010#32 ||| put cond 28 ||| put sf 20 ||| put rn 16 ||| put rd 12 ||| put rs 8 ||| put typ 5 ||| put rm 0
  | .rsbImm cond sf rn rd imm12 => 0x02600000#32 ||| put cond 28 ||| put sf 20 ||| put rn 16 ||| put rd 12 ||| put imm12 0
  | .rsbReg cond sf rn rd imm5 typ rm => 0x00600000#32 ||| put cond 28 ||| put sf 20 ||| put rn 16 ||| put rd 12 ||| put imm5 7 ||| put typ 5 ||| put rm 0
  | .rsbRsr cond sf rn rd rs typ rm => 0x00600010#32 ||| put cond 28 ||| put sf 20 ||| put rn 16 ||| put rd 12 ||| put rs 8 ||| put typ 5 ||| put rm 0
  | .addImm cond sf rn rd imm12 => 0x02800000#32 ||| put cond 28 ||| put sf 20 ||| put rn 16 ||| put rd 12 ||| put imm12 0
  | .addReg cond sf rn rd imm5 typ rm => 0x00800000#32 ||| put cond 28 ||| put sf 20 ||| put rn 16 ||| put rd 12 ||| put imm5 7 ||| put typ 5 ||| put rm 0
  | .addRsr cond sf rn rd rs typ rm => 0x00800010#32 ||| put cond 28 ||| put sf 20 ||| put rn 16 ||| put rd 12 ||| put rs 8 ||| put typ 5 ||| put rm 0
  | .adcImm cond sf rn rd imm12 => 0x02A00000#32 ||| put cond 28 ||| put sf 20 ||| put rn 16 ||| put rd 12 ||| put imm12 0
  | .adcReg cond sf rn rd imm5 typ rm => 0x00A00000#32 ||| put cond 28 ||| put sf 20 ||| put rn 16 ||| put rd 12 ||| put imm5 7 ||| put typ 5 ||| put rm 0
  | .adcRsr cond sf rn rd rs typ rm => 0x00A00010#32 ||| put cond 28 ||| put sf 20 ||| put rn 16 ||| put rd 12 ||| put rs 8 ||| put typ 5 ||| put rm 0
  | .sbcImm cond sf rn rd imm12 => 0x02C00000#32 ||| put cond 28 ||| put sf 20 ||| put rn 16 ||| put rd 12 ||| put imm12 0
  | .sbcReg cond sf rn rd imm5 typ rm => 0x00C00000#32 ||| put cond 28 ||| put sf 20 ||| put rn 16 ||| put rd 12 ||| put imm5 7 ||| put typ 5 ||| put rm 0
  | .sbcRsr cond sf rn rd rs typ rm => 0x00C00010#32 ||| put cond 28 ||| put sf 20 ||| put rn 16 ||| put rd 12 ||| put rs 8 ||| put typ 5 ||| put rm 0
  | .rscImm cond sf rn rd imm12 => 0x02E00000#32 ||| put cond 28 ||| put sf 20 ||| put rn 16 ||| put rd 12 ||| put imm12 0
  | .rscReg cond sf rn rd imm5 typ rm => 0x00E00000#32 ||| put cond 28 ||| put sf 20 ||| put rn 16 ||| put rd 12 ||| put imm5 7 ||| put typ 5 ||| put rm 0
  | .rscRsr cond sf rn rd rs typ rm => 0x00E00010#32 ||| put cond 28 ||| put sf 20 ||| put rn 16 ||| put rd 12 ||| put rs 8 ||| put typ 5 ||| put rm 0
  | .tstImm cond rn imm12 => 0x03100000#32 ||| put cond 28 ||| put rn 16 ||| put imm12 0
  | .tstReg cond rn imm5 typ rm => 0x01100000#32 ||| put cond 28 ||| put rn 16 ||| put imm5 7 ||| put typ 5 ||| put rm 0
  | .tstRsr cond rn rs typ rm => 0x01100010#32 ||| put cond 28 ||| put rn 16 ||| put rs 8 ||| put typ 5 ||| put rm 0
  | .teqImm cond rn imm12 => 0x03300000#32 ||| put cond 28 ||| put rn 16 ||| put imm12 0
  | .teqReg cond rn imm5 typ rm => 0x01300000#32 ||| put cond 28 ||| put rn 16 ||| put imm5 7 ||| put typ 5 ||| put rm 0
  | .teqRsr cond rn rs typ rm => 0x01300010#32 ||| put cond 28 ||| put rn 16 ||| put rs 8 ||| put typ 5 ||| put rm 0
  | .cmpImm cond rn imm12 => 0x03500000#32 ||| put cond 28 ||| put rn 16 ||| put imm12 0
  | .cmpReg cond rn imm5 typ rm => 0x01500000#32 ||| put cond 28 ||| put rn 16 ||| put imm5 7 ||| put typ 5 ||| put rm 0
  | .cmpRsr cond rn rs typ rm => 0x01500010#32 ||| put cond 28 ||| put rn 16 ||| put rs 8 ||| put typ 5 ||| put rm 0
  | .cmnImm cond rn imm12 => 0x03700000#32 ||| put cond 28 ||| put rn 16 ||| put imm12 0
  | .cmnReg cond rn imm5 typ rm => 0x01700000#32 ||| put cond 28 ||| put rn 16 ||| put imm5 7 ||| put typ 5 ||| put rm 0
  | .cmnRsr cond rn rs typ rm => 0x01700010#32 ||| put cond 28 ||| put rn 16 ||| put rs 8 ||| put typ 5 ||| put rm 0
  | .orrImm cond sf rn rd imm12 => 0x03800000#32 ||| put cond 28 ||| put sf 20 ||| put rn 16 ||| put rd 12 ||| put imm12 0
  | .orrReg cond sf rn rd imm5 typ rm => 0x01800000#32 ||| put cond 28 ||| put sf 20 ||| put rn 16 ||| put rd 12 ||| put imm5 7 ||| put typ 5 ||| put rm 0
  | .orrRsr cond sf rn rd rs typ rm => 0x01800010#32 ||| put cond 28 ||| put sf 20 ||| put rn 16 ||| put rd 12 ||| put rs 8 ||| put typ 5 ||| put rm 0
  | .movImm cond sf rd imm12 => 0x03A00000#32 ||| put cond 28 ||| put sf 20 ||| put rd 12 ||| put imm12 0
  | .movReg cond sf rd imm5 typ rm => 0x01A00000#32 ||| put cond 28 ||| put sf 20 ||| put rd 12 ||| put imm5 7 ||| put typ 5 ||| put rm 0
  | .movRsr cond sf rd rs typ rm => 0x01A00010#32 ||| put cond 28 ||| put sf 20 ||| put rd 12 ||| put rs 8 ||| put typ 5 ||| put rm 0
  | .bicImm cond sf rn rd imm12 => 0x03C00000#32 ||| put cond 28 ||| put sf 20 ||| put rn 16 ||| put rd 12 ||| put imm12 0
  | .bicReg cond sf rn rd imm5 typ rm => 0x01C00000#32 ||| put cond 28 ||| put sf 20 ||| put rn 16 ||| put rd 12 ||| put imm5 7 ||| put typ 5 ||| put rm 0
  | .bicRsr cond sf rn rd rs typ rm => 0x01C00010#32 ||| put cond 28 ||| put sf 20 ||| put rn 16 ||| put rd 12 ||| put rs 8 ||| put typ 5 ||| put rm 0
  | .mvnImm cond sf rd imm12 => 0x03E00000#32 ||| put cond 28 ||| put sf 20 ||| put rd 12 ||| put imm12 0
  | .mvnReg cond sf rd imm5 typ rm => 0x01E00000#32 ||| put cond 28 ||| put sf 20 ||| put rd 12 ||| put imm5 7 ||| put typ 5 ||| put rm 0
  | .mvnRsr cond sf rd rs typ rm => 0x01E00010#32 ||| put cond 28 ||| put sf 20 ||| put rd 12 ||| put rs 8 ||| put typ 5 ||| put rm 0
  | .lslImm cond sf rd imm5 rm => 0x01A00000#32 ||| put cond 28 ||| put sf 20 ||| put rd 12 ||| put imm5 7 ||| put rm 0
  | .lslReg cond sf rd rs rm => 0x01A00010#32 ||| put cond 28 ||| put sf 20 ||| put rd 12 ||| put rs 8 ||| put rm 0
  | .lsrImm cond sf rd imm5 rm => 0x01A00020#32 ||| put cond 28 ||| put sf 20 ||| put rd 12 ||| put imm5 7 ||| put rm 0
  | .lsrReg cond sf rd rs rm => 0x01A00030#32 ||| put cond 28 ||| put sf 20 ||| put rd 12 ||| put rs 8 ||| put rm 0
  | .asrImm cond sf rd imm5 rm => 0x01A00040#32 ||| put cond 28 ||| put sf 20 ||| put rd 12 ||| put imm5 7 ||| put rm 0
  | .asrReg cond sf rd rs rm => 0x01A00050#32 ||| put cond 28 ||| put sf 20 ||| put rd 12 ||| put rs 8 ||| put rm 0
  | .rorImm cond sf rd imm5 rm => 0x01A00060#32 ||| put cond 28 ||| put sf 20 ||| put rd 12 ||| put imm5 7 ||| put rm 0
  | .rorReg cond sf rd rs rm => 0x01A00070#32 ||| put cond 28 ||| put sf 20 ||| put rd 12 ||| put rs 8 ||| put rm 0
  | .rrx cond sf rd rm => 0x01A00060#32 ||| put cond 28 ||| put sf 20 ||| put rd 12 ||| put rm 0
  | .adrAdd cond rd imm12 => 0x028F0000#32 ||| put cond 28 ||| put rd 12 ||| put imm12 0
  | .adrSub cond rd imm12 => 0x024F0000#32 ||| put cond 28 ||| put rd 12 ||| put imm12 0
  | .ldrtImm cond u rn rt imm12 => 0x04300000#32 ||| put cond 28 ||| put u 23 ||| put rn 16 ||| put rt 12 ||| put imm12 0
  | .ldrtReg cond u rn rt imm5 typ rm => 0x06300000#32 ||| put cond 28 ||| put u 23 ||| put rn 16 ||| put rt 12 ||| put imm5 7 ||| put typ 5 ||| put rm 0
  | .strtImm cond u rn rt imm12 => 0x04200000#32 ||| put cond 28 ||| put u 23 ||| put rn 16 ||| put rt 12 ||| put imm12 0
  | .strtReg cond u rn rt imm5 typ rm => 0x06200000#32 ||| put cond 28 ||| put u 23 ||| put rn 16 ||| put rt 12 ||| put imm5 7 ||| put typ 5 ||| put rm 0
  | .ldrbtImm cond u rn rt imm12 => 0x04700000#32 ||| put cond 28 ||| put u 23 ||| put rn 16 ||| put rt 12 ||| put imm12 0
  | .ldrbtReg cond u rn rt imm5 typ rm => 0x06700000#32 ||| put cond 28 ||| put u 23 ||| put rn 16 ||| put rt 12 ||| put imm5 7 ||| put typ 5 ||| put rm 0
  | .strbtImm cond u rn rt imm12 => 0x04600000#32 ||| put cond 28 ||| put u 23 ||| put rn 16 ||| put rt 12 ||| put imm12 0
  | .strbtReg cond u rn rt imm5 typ rm => 0x06600000#32 ||| put cond 28 ||| put u 23 ||| put rn 16 ||| put rt 12 ||| put imm5 7 ||| put typ 5 ||| put rm 0
  | .ldrImm cond p u w rn rt imm12 => 0x04100000#32 ||| put cond 28 ||| put p 24 ||| put u 23 ||| put w 21 ||| put rn 16 ||| put rt 12 ||| put imm12 0
  | .ldrReg cond p u w rn rt imm5 typ rm => 0x06100000#32 ||| put cond 28 ||| put p 24 ||| put u 23 ||| put w 21 ||| put rn 16 ||| put rt 12 ||| put imm5 7 ||| put typ 5 ||| put rm 0
  | .strImm cond p u w rn rt imm12 => 0x04000000#32 ||| put cond 28 ||| put p 24 ||| put u 23 ||| put w 21 ||| put rn 16 ||| put rt 12 ||| put imm12 0
  | .strReg cond p u w rn rt imm5 typ rm => 0x06000000#32 ||| put cond 28 ||| put p 24 ||| put u 23 ||| put w 21 ||| put rn 16 ||| put rt 12 ||| put imm5 7 ||| put typ 5 ||| put rm 0
  | .ldrbImm cond p u w rn rt imm12 => 0x04500000#32 ||| put cond 28 ||| put p 24 ||| put u 23 ||| put w 21 ||| put rn 16 ||| put rt 12 ||| put imm12 0
  | .ldrbReg cond p u w rn rt imm5 typ rm => 0x06500000#32 ||| put cond 28 ||| put p 24 ||| put u 23 ||| put w 21 ||| put rn 16 ||| put rt 12 ||| put imm5 7 ||| put typ 5 ||| put rm 0
  | .strbImm cond p u w rn rt imm12 => 0x04400000#32 ||| put cond 28 ||| put p 24 ||| put u 23 ||| put w 21 ||| put rn 16 ||| put rt 12 ||| put imm12 0
  | .strbReg cond p u w rn rt imm5 typ rm => 0x06400000#32 ||| put cond 28 ||| put p 24 ||| put u 23 ||| put w 21 ||| put rn 16 ||| put rt 12 ||| put imm5 7 ||| put typ 5 ||| put rm 0
  | .sadd16 cond rn rd rm => 0x06100F10#32 ||| put cond 28 ||| put rn 16 ||| put rd 12 ||| put rm 0
  | .sasx cond rn rd rm => 0x06100F30#32 ||| put cond 28 ||| put rn 16 ||| put rd 12 ||| put rm 0
  | .ssax cond rn rd rm => 0x06100F50#32 ||| put cond 28 ||| put rn 16 ||| put rd 12 ||| put rm 0
  | .ssub16 cond rn rd rm => 0x06100F70#32 ||| put cond 28 ||| put rn 16 ||| put rd 12 ||| put rm 0
  | .sadd8 cond rn rd rm => 0x06100F90#32 ||| put cond 28 ||| put rn 16 ||| put rd 12 ||| put rm 0
  | .ssub8 cond rn rd rm => 0x06100FF0#32 ||| put cond 28 ||| put rn 16 ||| put rd 12 ||| put rm 0
  | .qadd16 cond rn rd rm => 0x06200F10#32 ||| put cond 28 ||| put rn 16 ||| put rd 12 ||| put rm 0
  | .qasx cond rn rd rm => 0x06200F30#32 ||| put cond 28 ||| put rn 16 ||| put rd 12 ||| put rm 0
  | .qsax cond rn rd rm => 0x06200F50#32 ||| put cond 28 ||| put rn 16 ||| put rd 12 ||| put rm 0
  | .qsub16 cond rn rd rm => 0x06200F70#32 ||| put cond 28 ||| put rn 16 ||| put rd 12 ||| put rm 0
  | .qadd8 cond rn rd rm => 0x06200F90#32 ||| put cond 28 ||| put rn 16 ||| put rd 12 ||| put rm 0
  | .qsub8 cond rn rd rm => 0x06200FF0#32 ||| put cond 28 ||| put rn 16 ||| put rd 12 ||| put rm 0
  | .shadd16 cond rn rd rm => 0x06300F10#32 ||| put cond 28 ||| put rn 16 ||| put rd 12 ||| put rm 0
  | .shasx cond rn rd rm => 0x06300F30#32 ||| put cond 28 ||| put rn 16 ||| put rd 12 ||| put rm 0
  | .shsax cond rn rd rm => 0x06300F50#32 ||| put cond 28 ||| put rn 16 ||| put rd 12 ||| put rm 0
  | .shsub16 cond rn rd rm => 0x06300F70#32 ||| put cond 28 ||| put rn 16 ||| put rd 12 ||| put rm 0
  | .shadd8 cond rn rd rm => 0x06300F90#32 ||| put cond 28 ||| put rn 16 ||| put rd 12 ||| put rm 0
  | .shsub8 cond rn rd rm => 0x06300FF0#32 ||| put cond 28 ||| put rn 16 ||| put rd 12 ||| put rm 0
  | .uadd16 cond rn rd rm => 0x06500F10#32 ||| put cond 28 ||| put rn 16 ||| put rd 12 ||| put rm 0
  | .uasx cond rn rd rm => 0x06500F30#32 ||| put cond 28 ||| put rn 16 ||| put rd 12 ||| put rm 0
  | .usax cond rn rd rm => 0x06500F50#32 ||| put cond 28 ||| put rn 16 ||| put rd 12 ||| put rm 0
  | .usub16 cond rn rd rm => 0x06500F70#32 ||| put cond 28 ||| put rn 16 ||| put rd 12 ||| put rm 0
  | .uadd8 cond rn rd rm => 0x06500F90#32 ||| put cond 28 ||| put rn 16 ||| put rd 12 ||| put rm 0
  | .usub8 cond rn rd rm => 0x06500FF0#32 ||| put cond 28 ||| put rn 16 ||| put rd 12 ||| put rm 0
  | .uqadd16 cond rn rd rm => 0x06600F10#32 ||| put cond 28 ||| put rn 16 ||| put rd 12 ||| put rm 0
  | .uqasx cond rn rd rm => 0x06600F30#32 ||| put cond 28 ||| put rn 16 ||| put rd 12 ||| put rm 0
  | .uqsax cond rn rd rm => 0x06600F50#32 ||| put cond 28 ||| put rn 16 ||| put rd 12 ||| put rm 0
  | .uqsub16 cond rn rd rm => 0x06600F70#32 ||| put cond 28 ||| put rn 16 ||| put rd 12 ||| put rm 0
  | .uqadd8 cond rn rd rm => 0x06600F90#32 ||| put cond 28 ||| put rn 16 ||| put rd 12 ||| put rm 0
  | .uqsub8 cond rn rd rm => 0x06600FF0#32 ||| put cond 28 ||| put rn 16 ||| put rd 12 ||| put rm 0
  | .uhadd16 cond rn rd rm => 0x06700F10#32 ||| put cond 28 ||| put rn 16 ||| put rd 12 ||| put rm 0
  | .uhasx cond rn rd rm => 0x06700F30#32 ||| put cond 28 ||| put rn 16 ||| put rd 12 ||| put rm 0
  | .uhsax cond rn rd rm => 0x06700F50#32 ||| put cond 28 ||| put rn 16 ||| put rd 12 ||| put rm 0
  | .uhsub16 cond rn rd rm => 0x06700F70#32 ||| put cond 28 ||| put rn 16 ||| put rd 12 ||| put rm 0
  | .uhadd8 cond rn rd rm => 0x06700F90#32 ||| put cond 28 ||| put rn 16 ||| put rd 12 ||| put rm 0
  | .uhsub8 cond rn rd rm => 0x06700FF0#32 ||| put cond 28 ||| put rn 16 ||| put rd 12 ||| put rm 0
  | .pkhbt cond rn rd imm5 rm => 0x06800010#32 ||| put cond 28 ||| put rn 16 ||| put rd 12 ||| put imm5 7 ||| put rm 0
  | .pkhtb cond rn rd imm5 rm => 0x06800050#32 ||| put cond 28 ||| put rn 16 ||| put rd 12 ||| put imm5 7 ||| put rm 0
  | .sel cond rn rd rm => 0x06800FB0#32 ||| put cond 28 ||| put rn 16 ||| put rd 12 ||| put rm 0
  | .ssat cond satImm rd imm5 sh rn => 0x06A00010#32 ||| put cond 28 ||| put satImm 16 ||| put rd 12 ||| put imm5 7 ||| put sh 6 ||| put rn 0
  | .usat cond satImm rd imm5 sh rn => 0x06E00010#32 ||| put cond 28 ||| put satImm 16 ||| put rd 12 ||| put imm5 7 ||| put sh 6 ||| put rn 0
  | .ssat16 cond satImm rd rn => 0x06A00F30#32 ||| put cond 28 ||| put satImm 16 ||| put rd 12 ||| put rn 0
  | .usat16 cond satImm rd rn => 0x06E00F30#32 ||| put cond 28 ||| put satImm 16 ||| put rd 12 ||| put rn 0
  | .sxtb16 cond rd rotate rm => 0x068F0070#32 ||| put cond 28 ||| put rd 12 ||| put rotate 10 ||| put rm 0
  | .sxtab16 cond rn rd rotate rm => 0x06800070#32 ||| put cond 28 ||| put rn 16 ||| put rd 12 ||| put rotate 10 ||| put rm 0
  | .sxtb cond rd rotate rm => 0x06AF0070#32 ||| put cond 28 ||| put rd 12 ||| put rotate 10 ||| put rm 0
  | .sxtab cond rn rd rotate rm => 0x06A00070#32 ||| put cond 28 ||| put rn 16 ||| put rd 12 ||| put rotate 10 ||| put rm 0
  | .sxth cond rd rotate rm => 0x06BF0070#32 ||| put cond 28 ||| put rd 12 ||| put rotate 10 ||| put rm 0
  | .sxtah cond rn rd rotate rm => 0x06B00070#32 ||| put cond 28 ||| put rn 16 ||| put rd 12 ||| put rotate 10 ||| put rm 0
  | .uxtb16 cond rd rotate rm => 0x06CF0070#32 ||| put cond 28 ||| put rd 12 ||| put rotate 10 ||| put rm 0
  | .uxtab16 cond rn rd rotate rm => 0x06C00070#32 ||| put cond 28 ||| put rn 16 ||| put rd 12 ||| put rotate 10 ||| put rm 0
  | .uxtb cond rd rotate rm => 0x06EF0070#32 ||| put cond 28 ||| put rd 12 ||| put rotate 10 ||| put rm 0
  | .uxtab cond rn rd rotate rm => 0x06E00070#32 ||| put cond 28 ||| put rn 16 ||| put rd 12 ||| put rotate 10 ||| put rm 0
  | .uxth cond rd rotate rm => 0x06FF0070#32 ||| put cond 28 ||| put rd 12 ||| put rotate 10 ||| put rm 0
  | .uxtah cond rn rd rotate rm => 0x06F00070#32 ||| put cond 28 ||| put rn 16 ||| put rd 12 ||| put rotate 10 ||| put rm 0
  | .rev cond rd rm => 0x06BF0F30#32 ||| put cond 28 ||| put rd 12 ||| put rm 0
  | .rev16 cond rd rm => 0x06BF0FB0#32 ||| put cond 28 ||| put rd 12 ||| put rm 0
  | .rbit cond rd rm => 0x06FF0F30#32 ||| put cond 28 ||| put rd 12 ||| put rm 0
  | .revsh cond rd rm => 0x06FF0FB0#32 ||| put cond 28 ||| put rd 12 ||| put rm 0
  | .smuad cond rd rm rn => 0x0700F010#32 ||| put cond 28 ||| put rd 16 ||| put rm 8 ||| put rn 0
  | .smusd cond rd rm rn => 0x0700F050#32 ||| put cond 28 ||| put rd 16 ||| put rm 8 ||| put rn 0
  | .smuadx cond rd rm rn => 0x0700F030#32 ||| put cond 28 ||| put rd 16 ||| put rm 8 ||| put rn 0
  | .smusdx cond rd rm rn => 0x0700F070#32 ||| put cond 28 ||| put rd 16 ||| put rm 8 ||| put rn 0
  | .smlad cond rd ra rm rn => 0x07000010#32 ||| put cond 28 ||| put rd 16 ||| put ra 12 ||| put rm 8 ||| put rn 0
  | .smlsd cond rd ra rm rn => 0x07000050#32 ||| put cond 28 ||| put rd 16 ||| put ra 12 ||| put rm 8 ||| put rn 0
  | .smlald cond rdHi rdLo rm rn => 0x07400010#32 ||| put cond 28 ||| put rdHi 16 ||| put rdLo 12 ||| put rm 8 ||| put rn 0
  | .smlsld cond rdHi rdLo rm rn => 0x07400050#32 ||| put cond 28 ||| put rdHi 16 ||| put rdLo 12 ||| put rm 8 ||| put rn 0
  | .smladx cond rd ra rm rn => 0x07000030#32 ||| put cond 28 ||| put rd 16 ||| put ra 12 ||| put rm 8 ||| put rn 0
  | .smlsdx cond rd ra rm rn => 0x07000070#32 ||| put cond 28 ||| put rd 16 ||| put ra 12 ||| put rm 8 ||| put rn 0
  | .smlaldx cond rdHi rdLo rm rn => 0x07400030#32 ||| put cond 28 ||| put rdHi 16 ||| put rdLo 12 ||| put rm 8 ||| put rn 0
  | .smlsldx cond rdHi rdLo rm rn => 0x07400070#32 ||| put cond 28 ||| put rdHi 16 ||| put rdLo 12 ||| put rm 8 ||| put rn 0
  | .smmul cond rd rm rn => 0x0750F010#32 ||| put cond 28 ||| put rd 16 ||| put rm 8 ||| put rn 0
  | .smmulr cond rd rm rn => 0x0750F030#32 ||| put cond 28 ||| put rd 16 ||| put rm 8 ||| put rn 0
  | .smmla cond rd ra rm rn => 0x07500010#32 ||| put cond 28 ||| put rd 16 ||| put ra 12 ||| put rm 8 ||| put rn 0
  | .smmls cond rd ra rm rn => 0x075000D0#32 ||| put cond 28 ||| put rd 16 ||| put ra 12 ||| put rm 8 ||| put rn 0
  | .smmlar cond rd ra rm rn => 0x07500030#32 ||| put cond 28 ||| put rd 16 ||| put ra 12 ||| put rm 8 ||| put rn 0
  | .smmlsr cond rd ra rm rn => 0x075000F0#32 ||| put cond 28 ||| put rd 16 ||| put ra 12 ||| put rm 8 ||| put rn 0
  | .usad8 cond rd rm rn => 0x0780F010#32 ||| put cond 28 ||| put rd 16 ||| put rm 8 ||| put rn 0
  | .usada8 cond rd ra rm rn => 0x07800010#32 ||| put cond 28 ||| put rd 16 ||| put ra 12 ||| put rm 8 ||| put rn 0
  | .sbfx cond widthm1 rd lsb rn => 0x07A00050#32 ||| put cond 28 ||| put widthm1 16 ||| put rd 12 ||| put lsb 7 ||| put rn 0
  | .ubfx cond widthm1 rd lsb rn => 0x07E00050#32 ||| put cond 28 ||| put widthm1 16 ||| put rd 12 ||| put lsb 7 ||| put rn 0
  | .bfc cond msb rd lsb => 0x07C0001F#32 ||| put cond 28 ||| put msb 16 ||| put rd 12 ||| put lsb 7
  | .bfi cond msb rd lsb rn => 0x07C00010#32 ||| put cond 28 ||| put msb 16 ||| put rd 12 ||| put lsb 7 ||| put rn 0
  | .udf cond imm12 imm4 => 0x07F000F0#32 ||| put cond 28 ||| put imm12 8 ||| put imm4 0
  | .popMulti cond regs => 0x08BD0000#32 ||| put cond 28 ||| put regs 0
  | .pushMulti cond regs => 0x092D0000#32 ||| put cond 28 ||| put regs 0
  | .ldm cond p u w rn regs => 0x08100000#32 ||| put cond 28 ||| put p 24 ||| put u 23 ||| put w 21 ||| put rn 16 ||| put regs 0
  | .stm cond p u w rn regs => 0x08000000#32 ||| put cond 28 ||| put p 24 ||| put u 23 ||| put w 21 ||| put rn 16 ||| put regs 0
  | .ldmExcRet cond p u w rn regs => 0x08508000#32 ||| put cond 28 ||| put p 24 ||| put u 23 ||| put w 21 ||| put rn 16 ||| put regs 0
  | .ldmUser cond p u rn regs => 0x08500000#32 ||| put cond 28 ||| put p 24 ||| put u 23 ||| put rn 16 ||| put regs 0
  | .stmUser cond p u rn regs => 0x08400000#32 ||| put cond 28 ||| put p 24 ||| put u 23 ||| put rn 16 ||| put regs 0
  | .b cond imm24 => 0x0A000000#32 ||| put cond 28 ||| put imm24 0
  | .bl cond imm24 => 0x0B000000#32 ||| put cond 28 ||| put imm24 0
  | .svc cond imm24 => 0x0F000000#32 ||| put cond 28 ||| put imm24 0
  | .mrcDscrFlags cond => 0x0E10FE11#32 ||| put cond 28
  | .mrcDidr cond rt => 0x0E100E10#32 ||| put cond 28 ||| put rt 12
  | .mrcDrar cond rt => 0x0E110E10#32 ||| put cond 28 ||| put rt 12
  | .mrcDsar cond rt => 0x0E120E10#32 ||| put cond 28 ||| put rt 12
  | .mrcDscr cond rt => 0x0E100E11#32 ||| put cond 28 ||| put rt 12
  | .mrcDtr cond rt => 0x0E100E15#32 ||| put cond 28 ||| put rt 12
  | .mcrDtr cond rt => 0x0E000E15#32 ||| put cond 28 ||| put rt 12
  | .mrcTeecr cond rt => 0x0ED00E10#32 ||| put cond 28 ||| put rt 12
  | .mcrTeecr cond rt => 0x0EC00E10#32 ||| put cond 28 ||| put rt 12
  | .mrcTeehbr cond rt => 0x0ED10E10#32 ||| put cond 28 ||| put rt 12
  | .mcrTeehbr cond rt => 0x0EC10E10#32 ||| put cond 28 ||| put rt 12
  | .mrcJidr cond rt => 0x0EF00E10#32 ||| put cond 28 ||| put rt 12
  | .mrcJoscr cond rt => 0x0EF10E10#32 ||| put cond 28 ||| put rt 12
  | .mcrJoscr cond rt => 0x0EE10E10#32 ||| put cond 28 ||| put rt 12
  | .mrcJmcr cond rt => 0x0EF20E10#32 ||| put cond 28 ||| put rt 12
  | .mcrJmcr cond rt => 0x0EE20E10#32 ||| put cond 28 ||| put rt 12
  | .ldcDtr cond p u w rn imm8 => 0x0C105E00#32 ||| put cond 28 ||| put p 24 ||| put u 23 ||| put w 21 ||| put rn 16 ||| put imm8 0
  | .stcDtr cond p u w rn imm8 => 0x0C005E00#32 ||| put cond 28 ||| put p 24 ||| put u 23 ||| put w 21 ||| put rn 16 ||| put imm8 0
  | .p14DebugOther cond l cRn rt opc2 cRm => 0x0E000E10#32 ||| put cond 28 ||| put l 20 ||| put cRn 16 ||| put rt 12 ||| put opc2 5 ||| put cRm 0
  | .p14TeeOther cond l cRn rt opc2 cRm => 0x0EC00E10#32 ||| put cond 28 ||| put l 20 ||| put cRn 16 ||| put rt 12 ||| put opc2 5 ||| put cRm 0
  | .p14Other cond opc1 l cRn rt opc2 cRm => 0x0E000E10#32 ||| put cond 28 ||| put opc1 21 ||| put l 20 ||| put cRn 16 ||| put rt 12 ||| put opc2 5 ||| put cRm 0
  | .fmstat cond => 0x0EF1FA10#32 ||| put cond 28
  | .vmrsFpsid cond rt => 0x0EF00A10#32 ||| put cond 28 ||| put rt 12
  | .vmsrFpsid cond rt => 0x0EE00A10#32 ||| put cond 28 ||| put rt 12
  | .vmrsFpscr cond rt => 0x0EF10A10#32 ||| put cond 28 ||| put rt 12
  | .vmsrFpscr cond rt => 0x0EE10A10#32 ||| put cond 28 ||| put rt 12
  | .vmrsMvfr1 cond rt => 0x0EF60A10#32 ||| put cond 28 ||| put rt 12
  | .vmsrMvfr1 cond rt => 0x0EE60A10#32 ||| put cond 28 ||| put rt 12
  | .vmrsMvfr0 cond rt => 0x0EF70A10#32 ||| put cond 28 ||| put rt 12
  | .vmsrMvfr0 cond rt => 0x0EE70A10#32 ||| put cond 28 ||| put rt 12
  | .vmrsFpexc cond rt => 0x0EF80A10#32 ||| put cond 28 ||| put rt 12
  | .vmsrFpexc cond rt => 0x0EE80A10#32 ||| put cond 28 ||| put rt 12
  | .vfpSysOther cond l reg rt => 0x0EE00A10#32 ||| put cond 28 ||| put l 20 ||| put reg 16 ||| put rt 12
  | .vfpData cond hi mid lo => 0x0E000A00#32 ||| put cond 28 ||| put hi 12 ||| put mid 5 ||| put lo 0
  | .vfpTransfer cond hi mid lo => 0x0E000A10#32 ||| put cond 28 ||| put hi 12 ||| put mid 5 ||| put lo 0
  | .vfpLoadStore cond hi lo => 0x0C000A00#32 ||| put cond 28 ||| put hi 12 ||| put lo 0
  | .mrcMidr cond rt => 0x0E100F10#32 ||| put cond 28 ||| put rt 12
  | .mrcMidr4 cond rt => 0x0E100F90#32 ||| put cond 28 ||| put rt 12
  | .mrcMidr6 cond rt => 0x0E100FD0#32 ||| put cond 28 ||| put rt 12
  | .mrcMidr7 cond rt => 0x0E100FF0#32 ||| put cond 28 ||| put rt 12
  | .mrcCtr cond rt => 0x0E100F30#32 ||| put cond 28 ||| put rt 12
  | .mrcTcmtr cond rt => 0x0E100F50#32 ||| put cond 28 ||| put rt 12
  | .mrcTlbtr cond rt => 0x0E100F70#32 ||| put cond 28 ||| put rt 12
  | .mrcMpidr cond rt => 0x0E100FB0#32 ||| put cond 28 ||| put rt 12
  | .mrcIdPfr0 cond rt => 0x0E100F11#32 ||| put cond 28 ||| put rt 12
  | .mrcIdPfr1 cond rt => 0x0E100F31#32 ||| put cond 28 ||| put rt 12
  | .mrcIdDfr0 cond rt => 0x0E100F51#32 ||| put cond 28 ||| put rt 12
  | .mrcIdAfr0 cond rt => 0x0E100F71#32 ||| put cond 28 ||| put rt 12
  | .mrcIdMmfr0 cond rt => 0x0E100F91#32 ||| put cond 28 ||| put rt 12
  | .mrcIdMmfr1 cond rt => 0x0E100FB1#32 ||| put cond 28 ||| put rt 12
  | .mrcIdMmfr2 cond rt => 0x0E100FD1#32 ||| put cond 28 ||| put rt 12
  | .mrcIdMmfr3 cond rt => 0x0E100FF1#32 ||| put cond 28 ||| put rt 12
  | .mrcIdIsar0 cond rt => 0x0E100F12#32 ||| put cond 28 ||| put rt 12
  | .mrcIdIsar1 cond rt => 0x0E100F32#32 ||| put cond 28 ||| put rt 12
  | .mrcIdIsar2 cond rt => 0x0E100F52#32 ||| put cond 28 ||| put rt 12
  | .mrcIdIsar3 cond rt => 0x0E100F72#32 ||| put cond 28 ||| put rt 12
  | .mrcIdIsar4 cond rt => 0x0E100F92#32 ||| put cond 28 ||| put rt 12
  | .mrcIdIsar5 cond rt => 0x0E100FB2#32 ||| put cond 28 ||| put rt 12
  | .mrcIdIsar6 cond rt => 0x0E100FD2#32 ||| put cond 28 ||| put rt 12
  | .mrcIdIsar7 cond rt => 0x0E100FF2#32 ||| put cond 28 ||| put rt 12
  | .mrcFeatureReserved cond rt opc2 cRm => 0x0E100F10#32 ||| put cond 28 ||| put rt 12 ||| put opc2 5 ||| put cRm 0
  | .mrcCcsidr cond rt => 0x0E300F10#32 ||| put cond 28 ||| put rt 12
  | .mrcClidr cond rt => 0x0E300F30#32 ||| put cond 28 ||| put rt 12
  | .mrcSiliconId cond rt => 0x0E300FF0#32 ||| put cond 28 ||| put rt 12
  | .mrcCsselr cond rt => 0x0E500F10#32 ||| put cond 28 ||| put rt 12
  | .mcrCsselr cond rt => 0x0E400F10#32 ||| put cond 28 ||| put rt 12
  | .mrcSctlr cond rt => 0x0E110F10#32 ||| put cond 28 ||| put rt 12
  | .mcrSctlr cond rt => 0x0E010F10#32 ||| put cond 28 ||| put rt 12
  | .mrcActlr cond rt => 0x0E110F30#32 ||| put cond 28 ||| put rt 12
  | .mcrActlr cond rt => 0x0E010F30#32 ||| put cond 28 ||| put rt 12
  | .mrcCpacr cond rt => 0x0E110F50#32 ||| put cond 28 ||| put rt 12
  | .mcrCpacr cond rt => 0x0E010F50#32 ||| put cond 28 ||| put rt 12
  | .mrcScr cond rt => 0x0E110F11#32 ||| put cond 28 ||| put rt 12
  | .mcrScr cond rt => 0x0E010F11#32 ||| put cond 28 ||| put rt 12
  | .mrcSder cond rt => 0x0E110F31#32 ||| put cond 28 ||| put rt 12
  | .mcrSder cond rt => 0x0E010F31#32 ||| put cond 28 ||| put rt 12
  | .mrcNsacr cond rt => 0x0E110F51#32 ||| put cond 28 ||| put rt 12
  | .mcrNsacr cond rt => 0x0E010F51#32 ||| put cond 28 ||| put rt 12
  | .mrcTtbr0 cond rt => 0x0E120F10#32 ||| put cond 28 ||| put rt 12
  | .mcrTtbr0 cond rt => 0x0E020F10#32 ||| put cond 28 ||| put rt 12
  | .mrcTtbr1 cond rt => 0x0E120F30#32 ||| put cond 28 ||| put rt 12
  | .mcrTtbr1 cond rt => 0x0E020F30#32 ||| put cond 28 ||| put rt 12
  | .mrcTtbcr cond rt => 0x0E120F50#32 ||| put cond 28 ||| put rt 12
  | .mcrTtbcr cond rt => 0x0E020F50#32 ||| put cond 28 ||| put rt 12
  | .mrcDacr cond rt => 0x0E130F10#32 ||| put cond 28 ||| put rt 12
  | .mcrDacr cond rt => 0x0E030F10#32 ||| put cond 28 ||| put rt 12
  | .mrcDfsr cond rt => 0x0E150F10#32 ||| put cond 28 ||| put rt 12
  | .mcrDfsr cond rt => 0x0E050F10#32 ||| put cond 28 ||| put rt 12
  | .mrcIfsr cond rt => 0x0E150F30#32 ||| put cond 28 ||| put rt 12
  | .mcrIfsr cond rt => 0x0E050F30#32 ||| put cond 28 ||| put rt 12
  | .mrcAdfsr cond rt => 0x0E150F11#32 ||| put cond 28 ||| put rt 12
  | .mcrAdfsr cond rt => 0x0E050F11#32 ||| put cond 28 ||| put rt 12
  | .mrcAifsr cond rt => 0x0E150F31#32 ||| put cond 28 ||| put rt 12
  | .mcrAifsr cond rt => 0x0E050F31#32 ||| put cond 28 ||| put rt 12
  | .mrcDfar cond rt => 0x0E160F10#32 ||| put cond 28 ||| put rt 12
  | .mcrDfar cond rt => 0x0E060F10#32 ||| put cond 28 ||| put rt 12
  | .mrcIfar cond rt => 0x0E160F50#32 ||| put cond 28 ||| put rt 12
  | .mcrIfar cond rt => 0x0E060F50#32 ||| put cond 28 ||| put rt 12
  | .mcrWfiNop cond rt => 0x0E070F90#32 ||| put cond 28 ||| put rt 12
  | .mrcPar cond rt => 0x0E170F14#32 ||| put cond 28 ||| put rt 12
  | .mcrPar cond rt => 0x0E070F14#32 ||| put cond 28 ||| put rt 12
  | .mcrIciallu cond rt => 0x0E070F15#32 ||| put cond 28 ||| put rt 12
  | .mcrIcimvau cond rt => 0x0E070F35#32 ||| put cond 28 ||| put rt 12
  | .mcrIsb cond rt => 0x0E070F95#32 ||| put cond 28 ||| put rt 12
  | .mcrBpiall cond rt => 0x0E070FD5#32 ||| put cond 28 ||| put rt 12
  | .mcrBpimva cond rt => 0x0E070FF5#32 ||| put cond 28 ||| put rt 12
  | .mcrDcimvac cond rt => 0x0E070F36#32 ||| put cond 28 ||| put rt 12
  | .mcrDcisw cond rt => 0x0E070F56#32 ||| put cond 28 ||| put rt 12
  | .mcrVaPaCurPrivRead cond rt => 0x0E070F18#32 ||| put cond 28 ||| put rt 12
  | .mcrVaPaCurPrivWrite cond rt => 0x0E070F38#32 ||| put cond 28 ||| put rt 12
  | .mcrVaPaCurUserRead cond rt => 0x0E070F58#32 ||| put cond 28 ||| put rt 12
  | .mcrVaPaCurUserWrite cond rt => 0x0E070F78#32 ||| put cond 28 ||| put rt 12
  | .mcrVaPaOthPrivRead cond rt => 0x0E070F98#32 ||| put cond 28 ||| put rt 12
  | .mcrVaPaOthPrivWrite cond rt => 0x0E070FB8#32 ||| put cond 28 ||| put rt 12
  | .mcrVaPaOthUserRead cond rt => 0x0E070FD8#32 ||| put cond 28 ||| put rt 12
  | .mcrVaPaOthUserWrite cond rt => 0x0E070FF8#32 ||| put cond 28 ||| put rt 12
  | .mcrDccmvac cond rt => 0x0E070F3A#32 ||| put cond 28 ||| put rt 12
  | .mcrDccsw cond rt => 0x0E070F5A#32 ||| put cond 28 ||| put rt 12
  | .mcrDsb cond rt => 0x0E070F9A#32 ||| put cond 28 ||| put rt 12
  | .mcrDmb cond rt => 0x0E070FBA#32 ||| put cond 28 ||| put rt 12
  | .mcrDccmvau cond rt => 0x0E070F3B#32 ||| put cond 28 ||| put rt 12
  | .mcrDccimvac cond rt => 0x0E070F3E#32 ||| put cond 28 ||| put rt 12
  | .mcrDccisw cond rt => 0x0E070F5E#32 ||| put cond 28 ||| put rt 12
  | .mcrItlbiall cond rt => 0x0E080F15#32 ||| put cond 28 ||| put rt 12
  | .mcrItlbimva cond rt => 0x0E080F35#32 ||| put cond 28 ||| put rt 12
  | .mcrItlbiasid cond rt => 0x0E080F55#32 ||| put cond 28 ||| put rt 12
  | .mcrDtlbiall cond rt => 0x0E080F16#32 ||| put cond 28 ||| put rt 12
  | .mcrDtlbimva cond rt => 0x0E080F36#32 ||| put cond 28 ||| put rt 12
  | .mcrDtlbiasid cond rt => 0x0E080F56#32 ||| put cond 28 ||| put rt 12
  | .mcrTlbiall cond rt => 0x0E080F17#32 ||| put cond 28 ||| put rt 12
  | .mcrTlbimva cond rt => 0x0E080F37#32 ||| put cond 28 ||| put rt 12
  | .mcrTlbiasid cond rt => 0x0E080F57#32 ||| put cond 28 ||| put rt 12
  | .mrcPmnc cond rt => 0x0E190F1C#32 ||| put cond 28 ||| put rt 12
  | .mcrPmnc cond rt => 0x0E090F1C#32 ||| put cond 28 ||| put rt 12
  | .mrcCntens cond rt => 0x0E190F3C#32 ||| put cond 28 ||| put rt 12
  | .mcrCntens cond rt => 0x0E090F3C#32 ||| put cond 28 ||| put rt 12
  | .mrcCntenc cond rt => 0x0E190F5C#32 ||| put cond 28 ||| put rt 12
  | .mcrCntenc cond rt => 0x0E090F5C#32 ||| put cond 28 ||| put rt 12
  | .mrcFlag cond rt => 0x0E190F7C#32 ||| put cond 28 ||| put rt 12
  | .mcrFlag cond rt => 0x0E090F7C#32 ||| put cond 28 ||| put rt 12
  | .mrcSwincr cond rt => 0x0E190F9C#32 ||| put cond 28 ||| put rt 12
  | .mcrSwincr cond rt => 0x0E090F9C#32 ||| put cond 28 ||| put rt 12
  | .mrcPmnxsel cond rt => 0x0E190FBC#32 ||| put cond 28 ||| put rt 12
  | .mcrPmnxsel cond rt => 0x0E090FBC#32 ||| put cond 28 ||| put rt 12
  | .mrcCcnt cond rt => 0x0E190F1D#32 ||| put cond 28 ||| put rt 12
  | .mcrCcnt cond rt => 0x0E090F1D#32 ||| put cond 28 ||| put rt 12
  | .mrcEvtsel cond rt => 0x0E190F3D#32 ||| put cond 28 ||| put rt 12
  | .mcrEvtsel cond rt => 0x0E090F3D#32 ||| put cond 28 ||| put rt 12
  | .mrcPmcnt cond rt => 0x0E190F5D#32 ||| put cond 28 ||| put rt 12
  | .mcrPmcnt cond rt => 0x0E090F5D#32 ||| put cond 28 ||| put rt 12
  | .mrcUseren cond rt => 0x0E190F1E#32 ||| put cond 28 ||| put rt 12
  | .mcrUseren cond rt => 0x0E090F1E#32 ||| put cond 28 ||| put rt 12
  | .mrcIntens cond rt => 0x0E190F3E#32 ||| put cond 28 ||| put rt 12
  | .mcrIntens cond rt => 0x0E090F3E#32 ||| put cond 28 ||| put rt 12
  | .mrcIntenc cond rt => 0x0E190F5E#32 ||| put cond 28 ||| put rt 12
  | .mcrIntenc cond rt => 0x0E090F5E#32 ||| put cond 28 ||| put rt 12
  | .mrcL2Lock cond rt => 0x0E390F10#32 ||| put cond 28 ||| put rt 12
  | .mcrL2Lock cond rt => 0x0E290F10#32 ||| put cond 28 ||| put rt 12
  | .mrcL2Aux cond rt => 0x0E390F50#32 ||| put cond 28 ||| put rt 12
  | .mcrL2Aux cond rt => 0x0E290F50#32 ||| put cond 28 ||| put rt 12
  | .mrcDtlbLock cond rt => 0x0E1A0F10#32 ||| put cond 28 ||| put rt 12
  | .mcrDtlbLock cond rt => 0x0E0A0F10#32 ||| put cond 28 ||| put rt 12
  | .mrcItlbLock cond rt => 0x0E1A0F30#32 ||| put cond 28 ||| put rt 12
  | .mcrItlbLock cond rt => 0x0E0A0F30#32 ||| put cond 28 ||| put rt 12
  | .mcrDtlbPreload cond rt => 0x0E0A0F11#32 ||| put cond 28 ||| put rt 12
  | .mcrItlbPreload cond rt => 0x0E0A0F31#32 ||| put cond 28 ||| put rt 12
  | .mrcPrrr cond rt => 0x0E1A0F12#32 ||| put cond 28 ||| put rt 12
  | .mcrPrrr cond rt => 0x0E0A0F12#32 ||| put cond 28 ||| put rt 12
  | .mrcNmrr cond rt => 0x0E1A0F32#32 ||| put cond 28 ||| put rt 12
  | .mcrNmrr cond rt => 0x0E0A0F32#32 ||| put cond 28 ||| put rt 12
  | .mrcPleIdPresent cond rt => 0x0E1B0F10#32 ||| put cond 28 ||| put rt 12
  | .mrcPleIdReserved cond rt => 0x0E1B0F30#32 ||| put cond 28 ||| put rt 12
  | .mrcPleIdRunning cond rt => 0x0E1B0F50#32 ||| put cond 28 ||| put rt 12
  | .mrcPleIdInterrupting cond rt => 0x0E1B0F70#32 ||| put cond 28 ||| put rt 12
  | .mrcPleUser cond rt => 0x0E1B0F11#32 ||| put cond 28 ||| put rt 12
  | .mcrPleUser cond rt => 0x0E0B0F11#32 ||| put cond 28 ||| put rt 12
  | .mrcPleChannel cond rt => 0x0E1B0F12#32 ||| put cond 28 ||| put rt 12
  | .mcrPleChannel cond rt => 0x0E0B0F12#32 ||| put cond 28 ||| put rt 12
  | .mcrPleStop cond rt => 0x0E0B0F13#32 ||| put cond 28 ||| put rt 12
  | .mcrPleStart cond rt => 0x0E0B0F33#32 ||| put cond 28 ||| put rt 12
  | .mcrPleClear cond rt => 0x0E0B0F53#32 ||| put cond 28 ||| put rt 12
  | .mrcPleControl cond rt => 0x0E1B0F14#32 ||| put cond 28 ||| put rt 12
  | .mcrPleControl cond rt => 0x0E0B0F14#32 ||| put cond 28 ||| put rt 12
  | .mrcPleStartAddr cond rt => 0x0E1B0F15#32 ||| put cond 28 ||| put rt 12
  | .mcrPleStartAddr cond rt => 0x0E0B0F15#32 ||| put cond 28 ||| put rt 12
  | .mrcPleEndAddr cond rt => 0x0E1B0F17#32 ||| put cond 28 ||| put rt 12
  | .mcrPleEndAddr cond rt => 0x0E0B0F17#32 ||| put cond 28 ||| put rt 12
  | .mrcPleStatus cond rt => 0x0E1B0F18#32 ||| put cond 28 ||| put rt 12
  | .mrcPleContext cond rt => 0x0E1B0F1F#32 ||| put cond 28 ||| put rt 12
  | .mcrPleContext cond rt => 0x0E0B0F1F#32 ||| put cond 28 ||| put rt 12
  | .mrcVbar cond rt => 0x0E1C0F10#32 ||| put cond 28 ||| put rt 12
  | .mcrVbar cond rt => 0x0E0C0F10#32 ||| put cond 28 ||| put rt 12
  | .mrcMvbar cond rt => 0x0E1C0F30#32 ||| put cond 28 ||| put rt 12
  | .mcrMvbar cond rt => 0x0E0C0F30#32 ||| put cond 28 ||| put rt 12
  | .mrcIsr cond rt => 0x0E1C0F11#32 ||| put cond 28 ||| put rt 12
  | .mrcFcse cond rt => 0x0E1D0F10#32 ||| put cond 28 ||| put rt 12
  | .mcrFcse cond rt => 0x0E0D0F10#32 ||| put cond 28 ||| put rt 12
  | .mrcContextidr cond rt => 0x0E1D0F30#32 ||| put cond 28 ||| put rt 12
  | .mcrContextidr cond rt => 0x0E0D0F30#32 ||| put cond 28 ||| put rt 12
  | .mrcTpidrurw cond rt => 0x0E1D0F50#32 ||| put cond 28 ||| put rt 12
  | .mcrTpidrurw cond rt => 0x0E0D0F50#32 ||| put cond 28 ||| put rt 12
  | .mrcTpidruro cond rt => 0x0E1D0F70#32 ||| put cond 28 ||| put rt 12
  | .mcrTpidruro cond rt => 0x0E0D0F70#32 ||| put cond 28 ||| put rt 12
  | .mrcTpidrprw cond rt => 0x0E1D0F90#32 ||| put cond 28 ||| put rt 12
  | .mcrTpidrprw cond rt => 0x0E0D0F90#32 ||| put cond 28 ||| put rt 12
  | .mrcDl1Data0 cond rt => 0x0E1F0F10#32 ||| put cond 28 ||| put rt 12
  | .mcrDl1Data0 cond rt => 0x0E0F0F10#32 ||| put cond 28 ||| put rt 12
  | .mrcDl1Data1 cond rt => 0x0E1F0F30#32 ||| put cond 28 ||| put rt 12
  | .mcrDl1Data1 cond rt => 0x0E0F0F30#32 ||| put cond 28 ||| put rt 12
  | .mcrDtlbCamWrite cond rt => 0x0E0F0F50#32 ||| put cond 28 ||| put rt 12
  | .mcrDtlbAttrWrite cond rt => 0x0E0F0F70#32 ||| put cond 28 ||| put rt 12
  | .mcrDtlbPaWrite cond rt => 0x0E0F0F90#32 ||| put cond 28 ||| put rt 12
  | .mcrDhvabWrite cond rt => 0x0E0F0FB0#32 ||| put cond 28 ||| put rt 12
  | .mcrDtagWrite cond rt => 0x0E0F0FD0#32 ||| put cond 28 ||| put rt 12
  | .mcrDdataWrite cond rt => 0x0E0F0FF0#32 ||| put cond 28 ||| put rt 12
  | .mcrDtlbCamRead cond rt => 0x0E0F0F52#32 ||| put cond 28 ||| put rt 12
  | .mcrDtlbAttrRead cond rt => 0x0E0F0F72#32 ||| put cond 28 ||| put rt 12
  | .mcrDtlbPaRead cond rt => 0x0E0F0F92#32 ||| put cond 28 ||| put rt 12
  | .mcrDhvabRead cond rt => 0x0E0F0FB2#32 ||| put cond 28 ||| put rt 12
  | .mcrDtagRead cond rt => 0x0E0F0FD2#32 ||| put cond 28 ||| put rt 12
  | .mcrDdataRead cond rt => 0x0E0F0FF2#32 ||| put cond 28 ||| put rt 12
  | .mrcIl1Data0 cond rt => 0x0E1F0F11#32 ||| put cond 28 ||| put rt 12
  | .mcrIl1Data0 cond rt => 0x0E0F0F11#32 ||| put cond 28 ||| put rt 12
  | .mrcIl1Data1 cond rt => 0x0E1F0F31#32 ||| put cond 28 ||| put rt 12
  | .mcrIl1Data1 cond rt => 0x0E0F0F31#32 ||| put cond 28 ||| put rt 12
  | .mcrItlbCamWrite cond rt => 0x0E0F0F51#32 ||| put cond 28 ||| put rt 12
  | .mcrItlbAttrWrite cond rt => 0x0E0F0F71#32 ||| put cond 28 ||| put rt 12
  | .mcrItlbPaWrite cond rt => 0x0E0F0F91#32 ||| put cond 28 ||| put rt 12
  | .mcrIhvabWrite cond rt => 0x0E0F0FB1#32 ||| put cond 28 ||| put rt 12
  | .mcrItagWrite cond rt => 0x0E0F0FD1#32 ||| put cond 28 ||| put rt 12
  | .mcrIdataWrite cond rt => 0x0E0F0FF1#32 ||| put cond 28 ||| put rt 12
  | .mcrItlbCamRead cond rt => 0x0E0F0F53#32 ||| put cond 28 ||| put rt 12
  | .mcrItlbAttrRead cond rt => 0x0E0F0F73#32 ||| put cond 28 ||| put rt 12
  | .mcrItlbPaRead cond rt => 0x0E0F0F93#32 ||| put cond 28 ||| put rt 12
  | .mcrIhvabRead cond rt => 0x0E0F0FB3#32 ||| put cond 28 ||| put rt 12
  | .mcrItagRead cond rt => 0x0E0F0FD3#32 ||| put cond 28 ||| put rt 12
  | .mcrIdataRead cond rt => 0x0E0F0FF3#32 ||| put cond 28 ||| put rt 12
  | .mcrGhbWrite cond rt => 0x0E0F0F55#32 ||| put cond 28 ||| put rt 12
  | .mcrBtbWrite cond rt => 0x0E0F0F75#32 ||| put cond 28 ||| put rt 12
  | .mcrGhbRead cond rt => 0x0E0F0F57#32 ||| put cond 28 ||| put rt 12
  | .mcrBtbRead cond rt => 0x0E0F0F77#32 ||| put cond 28 ||| put rt 12
  | .mrcL2Data0 cond rt => 0x0E1F0F18#32 ||| put cond 28 ||| put rt 12
  | .mcrL2Data0 cond rt => 0x0E0F0F18#32 ||| put cond 28 ||| put rt 12
  | .mrcL2Data1 cond rt => 0x0E1F0F38#32 ||| put cond 28 ||| put rt 12
  | .mcrL2Data1 cond rt => 0x0E0F0F38#32 ||| put cond 28 ||| put rt 12
  | .mcrL2TagWrite cond rt => 0x0E0F0F58#32 ||| put cond 28 ||| put rt 12
  | .mcrL2DataWrite cond rt => 0x0E0F0F78#32 ||| put cond 28 ||| put rt 12
  | .mcrL2ParityWrite cond rt => 0x0E0F0F98#32 ||| put cond 28 ||| put rt 12
  | .mrcL2Data2 cond rt => 0x0E1F0FB8#32 ||| put cond 28 ||| put rt 12
  | .mcrL2Data2 cond rt => 0x0E0F0FB8#32 ||| put cond 28 ||| put rt 12
  | .mcrL2TagRead cond rt => 0x0E0F0F59#32 ||| put cond 28 ||| put rt 12
  | .mcrL2DataRead cond rt => 0x0E0F0F79#32 ||| put cond 28 ||| put rt 12
  | .mcrL2ParityRead cond rt => 0x0E0F0F99#32 ||| put cond 28 ||| put rt 12
  | .p15Other cond opc1 l cRn rt opc2 cRm => 0x0E000F10#32 ||| put cond 28 ||| put opc1 21 ||| put l 20 ||| put cRn 16 ||| put rt 12 ||| put opc2 5 ||| put cRm 0
  | .mcrOther cond opc1 cRn rt coproc opc2 cRm => 0x0E000010#32 ||| put cond 28 ||| put opc1 21 ||| put cRn 16 ||| put rt 12 ||| put coproc 8 ||| put opc2 5 ||| put cRm 0
  | .mrcOther cond opc1 cRn rt coproc opc2 cRm => 0x0E100010#32 ||| put cond 28 ||| put opc1 21 ||| put cRn 16 ||| put rt 12 ||| put coproc 8 ||| put opc2 5 ||| put cRm 0
  | .cdpAny cond opc1 cRn cRd coproc opc2 cRm => 0x0E000000#32 ||| put cond 28 ||| put opc1 20 ||| put cRn 16 ||| put cRd 12 ||| put coproc 8 ||| put opc2 5 ||| put cRm 0
  | .mcrrAny cond rt2 rt coproc opc1 cRm => 0x0C400000#32 ||| put cond 28 ||| put rt2 16 ||| put rt 12 ||| put coproc 8 ||| put opc1 4 ||| put cRm 0
  | .mrrcAny cond rt2 rt coproc opc1 cRm => 0x0C500000#32 ||| put cond 28 ||| put rt2 16 ||| put rt 12 ||| put coproc 8 ||| put opc1 4 ||| put cRm 0
  | .ldcStcOther cond p u d w l rn cRd coproc imm8 => 0x0C000000#32 ||| put cond 28 ||| put p 24 ||| put u 23 ||| put d 22 ||| put w 21 ||| put l 20 ||| put rn 16 ||| put cRd 12 ||| put coproc 8 ||| put imm8 0

/-- The core instruction a second name stands for (R1391; PUSH and POP R1362); every other instruction itself. -/
def Instr.canonical : Instr → Instr
  | .cps imod m a i f mode => .cps imod m a i f mode
  | .setend e => .setend e
  | .pliImm u rn imm12 => .pliImm u rn imm12
  | .pliReg u rn imm5 typ rm => .pliReg u rn imm5 typ rm
  | .pldImm u rn imm12 => .pldImm u rn imm12
  | .pldReg u rn imm5 typ rm => .pldReg u rn imm5 typ rm
  | .pldwImm u rn imm12 => .pldwImm u rn imm12
  | .pldwReg u rn imm5 typ rm => .pldwReg u rn imm5 typ rm
  | .memHintImm u lo => .memHintImm u lo
  | .memHintReg u mid lo => .memHintReg u mid lo
  | .clrex => .clrex
  | .dsb opt => .dsb opt
  | .dmb opt => .dmb opt
  | .isb opt => .isb opt
  | .srs p u w mode => .srs p u w mode
  | .rfe p u w rn => .rfe p u w rn
  | .blxImm h imm24 => .blxImm h imm24
  | .asimdData bits => .asimdData bits
  | .asimdLoadStore hi lo => .asimdLoadStore hi lo
  | .coproc2LoadStore bits => .coproc2LoadStore bits
  | .coproc2Reg bits => .coproc2Reg bits
  | .uncondOther bits => .uncondOther bits
  | .mrs cond r rd => .mrs cond r rd
  | .msrCpsrReg cond fieldMask rn => .msrCpsrReg cond fieldMask rn
  | .msrSpsrReg cond fieldMask rn => .msrSpsrReg cond fieldMask rn
  | .bx cond rm => .bx cond rm
  | .bxj cond rm => .bxj cond rm
  | .blxReg cond rm => .blxReg cond rm
  | .clz cond rd rm => .clz cond rd rm
  | .qadd cond rn rd rm => .qadd cond rn rd rm
  | .qsub cond rn rd rm => .qsub cond rn rd rm
  | .qdadd cond rn rd rm => .qdadd cond rn rd rm
  | .qdsub cond rn rd rm => .qdsub cond rn rd rm
  | .bkpt cond imm12 imm4 => .bkpt cond imm12 imm4
  | .smc cond imm4 => .smc cond imm4
  | .smlabb cond rd ra rm rn => .smlabb cond rd ra rm rn
  | .smlabt cond rd ra rm rn => .smlabt cond rd ra rm rn
  | .smlatb cond rd ra rm rn => .smlatb cond rd ra rm rn
  | .smlatt cond rd ra rm rn => .smlatt cond rd ra rm rn
  | .smlawb cond rd ra rm rn => .smlawb cond rd ra rm rn
  | .smlawt cond rd ra rm rn => .smlawt cond rd ra rm rn
  | .smulwb cond rd rm rn => .smulwb cond rd rm rn
  | .smulwt cond rd rm rn => .smulwt cond rd rm rn
  | .smlalbb cond rdHi rdLo rm rn => .smlalbb cond rdHi rdLo rm rn
  | .smlalbt cond rdHi rdLo rm rn => .smlalbt cond rdHi rdLo rm rn
  | .smlaltb cond rdHi rdLo rm rn => .smlaltb cond rdHi rdLo rm rn
  | .smlaltt cond rdHi rdLo rm rn => .smlaltt cond rdHi rdLo rm rn
  | .smulbb cond rd rm rn => .smulbb cond rd rm rn
  | .smulbt cond rd rm rn => .smulbt cond rd rm rn
  | .smultb cond rd rm rn => .smultb cond rd rm rn
  | .smultt cond rd rm rn => .smultt cond rd rm rn
  | .swp cond rn rt rt2 => .swp cond rn rt rt2
  | .swpb cond rn rt rt2 => .swpb cond rn rt rt2
  | .ldrex cond rn rt => .ldrex cond rn rt
  | .ldrexd cond rn rt => .ldrexd cond rn rt
  | .ldrexb cond rn rt => .ldrexb cond rn rt
  | .ldrexh cond rn rt => .ldrexh cond rn rt
  | .strex cond rn rd rt => .strex cond rn rd rt
  | .strexd cond rn rd rt => .strexd cond rn rd rt
  | .strexb cond rn rd rt => .strexb cond rn rd rt
  | .strexh cond rn rd rt => .strexh cond rn rd rt
  | .mul cond sf rd rm rn => .mul cond sf rd rm rn
  | .mla cond sf rd ra rm rn => .mla cond sf rd ra rm rn
  | .umaal cond rdHi rdLo rm rn => .umaal cond rdHi rdLo rm rn
  | .mls cond rd ra rm rn => .mls cond rd ra rm rn
  | .umull cond sf rdHi rdLo rm rn => .umull cond sf rdHi rdLo rm rn
  | .umlal cond sf rdHi rdLo rm rn => .umlal cond sf rdHi rdLo rm rn
  | .smull cond sf rdHi rdLo rm rn => .smull cond sf rdHi rdLo rm rn
  | .smlal cond sf rdHi rdLo rm rn => .smlal cond sf rdHi rdLo rm rn
  | .strhtImm cond u rn rt imm4H imm4L => .strhtImm cond u rn rt imm4H imm4L
  | .strhtReg cond u rn rt rm => .strhtReg cond u rn rt rm
  | .ldrhtImm cond u rn rt imm4H imm4L => .ldrhtImm cond u rn rt imm4H imm4L
  | .ldrhtReg cond u rn rt rm => .ldrhtReg cond u rn rt rm
  | .ldrsbtImm cond u rn rt imm4H imm4L => .ldrsbtImm cond u rn rt imm4H imm4L
  | .ldrsbtReg cond u rn rt rm => .ldrsbtReg cond u rn rt rm
  | .ldrshtImm cond u rn rt imm4H imm4L => .ldrshtImm cond u rn rt imm4H imm4L
  | .ldrshtReg cond u rn rt rm => .ldrshtReg cond u rn rt rm
  | .strhImm cond p u w rn rt imm4H imm4L => .strhImm cond p u w rn rt imm4H imm4L
  | .strhReg cond p u w rn rt rm => .strhReg cond p u w rn rt rm
  | .ldrhImm cond p u w rn rt imm4H imm4L => .ldrhImm cond p u w rn rt imm4H imm4L
  | .ldrhReg cond p u w rn rt rm => .ldrhReg cond p u w rn rt rm
  | .ldrsbImm cond p u w rn rt imm4H imm4L => .ldrsbImm cond p u w rn rt imm4H imm4L
  | .ldrsbReg cond p u w rn rt rm => .ldrsbReg cond p u w rn rt rm
  | .ldrshImm cond p u w rn rt imm4H imm4L => .ldrshImm cond p u w rn rt imm4H imm4L
  | .ldrshReg cond p u w rn rt rm => .ldrshReg cond p u w rn rt rm
  | .ldrdImm cond p u w rn rt imm4H imm4L => .ldrdImm cond p u w rn rt imm4H imm4L
  | .ldrdReg cond p u w rn rt rm => .ldrdReg cond p u w rn rt rm
  | .strdImm cond p u w rn rt imm4H imm4L => .strdImm cond p u w rn rt imm4H imm4L
  | .strdReg cond p u w rn rt rm => .strdReg cond p u w rn rt rm
  | .movw cond imm4 rd imm12 => .movw cond imm4 rd imm12
  | .movt cond imm4 rd imm12 => .movt cond imm4 rd imm12
  | .nop cond => .nop cond
  | .yield cond => .yield cond
  | .wfe cond => .wfe cond
  | .wfi cond => .wfi cond
  | .sev cond => .sev cond
  | .dbg cond opt => .dbg cond opt
  | .hintOther cond hint8 => .hintOther cond hint8
  | .msrCpsrImm cond fieldMask imm12 => .msrCpsrImm cond fieldMask imm12
  | .msrSpsrImm cond fieldMask imm12 => .msrSpsrImm cond fieldMask imm12
  | .andImm cond sf rn rd imm12 => .andImm cond sf rn rd imm12
  | .andReg cond sf rn rd imm5 typ rm => .andReg cond sf rn rd imm5 typ rm
  | .andRsr cond sf rn rd rs typ rm => .andRsr cond sf rn rd rs typ rm
  | .eorImm cond sf rn rd imm12 => .eorImm cond sf rn rd imm12
  | .eorReg cond sf rn rd imm5 typ rm => .eorReg cond sf rn rd imm5 typ rm
  | .eorRsr cond sf rn rd rs typ rm => .eorRsr cond sf rn rd rs typ rm
  | .subImm cond sf rn rd imm12 => .subImm cond sf rn rd imm12
  | .subReg cond sf rn rd imm5 typ rm => .subReg cond sf rn rd imm5 typ rm
  | .subRsr cond sf rn rd rs typ rm => .subRsr cond sf rn rd rs typ rm
  | .rsbImm cond sf rn rd imm12 => .rsbImm cond sf rn rd imm12
  | .rsbReg cond sf rn rd imm5 typ rm => .rsbReg cond sf rn rd imm5 typ rm
  | .rsbRsr cond sf rn rd rs typ rm => .rsbRsr cond sf rn rd rs typ rm
  | .addImm cond sf rn rd imm12 => .addImm cond sf rn rd imm12
  | .addReg cond sf rn rd imm5 typ rm => .addReg cond sf rn rd imm5 typ rm
  | .addRsr cond sf rn rd rs typ rm => .addRsr cond sf rn rd rs typ rm
  | .adcImm cond sf rn rd imm12 => .adcImm cond sf rn rd imm12
  | .adcReg cond sf rn rd imm5 typ rm => .adcReg cond sf rn rd imm5 typ rm
  | .adcRsr cond sf rn rd rs typ rm => .adcRsr cond sf rn rd rs typ rm
  | .sbcImm cond sf rn rd imm12 => .sbcImm cond sf rn rd imm12
  | .sbcReg cond sf rn rd imm5 typ rm => .sbcReg cond sf rn rd imm5 typ rm
  | .sbcRsr cond sf rn rd rs typ rm => .sbcRsr cond sf rn rd rs typ rm
  | .rscImm cond sf rn rd imm12 => .rscImm cond sf rn rd imm12
  | .rscReg cond sf rn rd imm5 typ rm => .rscReg cond sf rn rd imm5 typ rm
  | .rscRsr cond sf rn rd rs typ rm => .rscRsr cond sf rn rd rs typ rm
  | .tstImm cond rn imm12 => .tstImm cond rn imm12
  | .tstReg cond rn imm5 typ rm => .tstReg cond rn imm5 typ rm
  | .tstRsr cond rn rs typ rm => .tstRsr cond rn rs typ rm
  | .teqImm cond rn imm12 => .teqImm cond rn imm12
  | .teqReg cond rn imm5 typ rm => .teqReg cond rn imm5 typ rm
  | .teqRsr cond rn rs typ rm => .teqRsr cond rn rs typ rm
  | .cmpImm cond rn imm12 => .cmpImm cond rn imm12
  | .cmpReg cond rn imm5 typ rm => .cmpReg cond rn imm5 typ rm
  | .cmpRsr cond rn rs typ rm => .cmpRsr cond rn rs typ rm
  | .cmnImm cond rn imm12 => .cmnImm cond rn imm12
  | .cmnReg cond rn imm5 typ rm => .cmnReg cond rn imm5 typ rm
  | .cmnRsr cond rn rs typ rm => .cmnRsr cond rn rs typ rm
  | .orrImm cond sf rn rd imm12 => .orrImm cond sf rn rd imm12
  | .orrReg cond sf rn rd imm5 typ rm => .orrReg cond sf rn rd imm5 typ rm
  | .orrRsr cond sf rn rd rs typ rm => .orrRsr cond sf rn rd rs typ rm
  | .movImm cond sf rd imm12 => .movImm cond sf rd imm12
  | .movReg cond sf rd imm5 typ rm => .movReg cond sf rd imm5 typ rm
  | .movRsr cond sf rd rs typ rm => .movRsr cond sf rd rs typ rm
  | .bicImm cond sf rn rd imm12 => .bicImm cond sf rn rd imm12
  | .bicReg cond sf rn rd imm5 typ rm => .bicReg cond sf rn rd imm5 typ rm
  | .bicRsr cond sf rn rd rs typ rm => .bicRsr cond sf rn rd rs typ rm
  | .mvnImm cond sf rd imm12 => .mvnImm cond sf rd imm12
  | .mvnReg cond sf rd imm5 typ rm => .mvnReg cond sf rd imm5 typ rm
  | .mvnRsr cond sf rd rs typ rm => .mvnRsr cond sf rd rs typ rm
  | .lslImm cond sf rd imm5 rm => .movReg cond sf rd imm5 0 rm
  | .lslReg cond sf rd rs rm => .movRsr cond sf rd rs 0 rm
  | .lsrImm cond sf rd imm5 rm => .movReg cond sf rd imm5 1 rm
  | .lsrReg cond sf rd rs rm => .movRsr cond sf rd rs 1 rm
  | .asrImm cond sf rd imm5 rm => .movReg cond sf rd imm5 2 rm
  | .asrReg cond sf rd rs rm => .movRsr cond sf rd rs 2 rm
  | .rorImm cond sf rd imm5 rm => .movReg cond sf rd imm5 3 rm
  | .rorReg cond sf rd rs rm => .movRsr cond sf rd rs 3 rm
  | .rrx cond sf rd rm => .movReg cond sf rd 0 3 rm
  | .adrAdd cond rd imm12 => .addImm cond 0 15 rd imm12
  | .adrSub cond rd imm12 => .subImm cond 0 15 rd imm12
  | .ldrtImm cond u rn rt imm12 => .ldrtImm cond u rn rt imm12
  | .ldrtReg cond u rn rt imm5 typ rm => .ldrtReg cond u rn rt imm5 typ rm
  | .strtImm cond u rn rt imm12 => .strtImm cond u rn rt imm12
  | .strtReg cond u rn rt imm5 typ rm => .strtReg cond u rn rt imm5 typ rm
  | .ldrbtImm cond u rn rt imm12 => .ldrbtImm cond u rn rt imm12
  | .ldrbtReg cond u rn rt imm5 typ rm => .ldrbtReg cond u rn rt imm5 typ rm
  | .strbtImm cond u rn rt imm12 => .strbtImm cond u rn rt imm12
  | .strbtReg cond u rn rt imm5 typ rm => .strbtReg cond u rn rt imm5 typ rm
  | .ldrImm cond p u w rn rt imm12 => .ldrImm cond p u w rn rt imm12
  | .ldrReg cond p u w rn rt imm5 typ rm => .ldrReg cond p u w rn rt imm5 typ rm
  | .strImm cond p u w rn rt imm12 => .strImm cond p u w rn rt imm12
  | .strReg cond p u w rn rt imm5 typ rm => .strReg cond p u w rn rt imm5 typ rm
  | .ldrbImm cond p u w rn rt imm12 => .ldrbImm cond p u w rn rt imm12
  | .ldrbReg cond p u w rn rt imm5 typ rm => .ldrbReg cond p u w rn rt imm5 typ rm
  | .strbImm cond p u w rn rt imm12 => .strbImm cond p u w rn rt imm12
  | .strbReg cond p u w rn rt imm5 typ rm => .strbReg cond p u w rn rt imm5 typ rm
  | .sadd16 cond rn rd rm => .sadd16 cond rn rd rm
  | .sasx cond rn rd rm => .sasx cond rn rd rm
  | .ssax cond rn rd rm => .ssax cond rn rd rm
  | .ssub16 cond rn rd rm => .ssub16 cond rn rd rm
  | .sadd8 cond rn rd rm => .sadd8 cond rn rd rm
  | .ssub8 cond rn rd rm => .ssub8 cond rn rd rm
  | .qadd16 cond rn rd rm => .qadd16 cond rn rd rm
  | .qasx cond rn rd rm => .qasx cond rn rd rm
  | .qsax cond rn rd rm => .qsax cond rn rd rm
  | .qsub16 cond rn rd rm => .qsub16 cond rn rd rm
  | .qadd8 cond rn rd rm => .qadd8 cond rn rd rm
  | .qsub8 cond rn rd rm => .qsub8 cond rn rd rm
  | .shadd16 cond rn rd rm => .shadd16 cond rn rd rm
  | .shasx cond rn rd rm => .shasx cond rn rd rm
  | .shsax cond rn rd rm => .shsax cond rn rd rm
  | .shsub16 cond rn rd rm => .shsub16 cond rn rd rm
  | .shadd8 cond rn rd rm => .shadd8 cond rn rd rm
  | .shsub8 cond rn rd rm => .shsub8 cond rn rd rm
  | .uadd16 cond rn rd rm => .uadd16 cond rn rd rm
  | .uasx cond rn rd rm => .uasx cond rn rd rm
  | .usax cond rn rd rm => .usax cond rn rd rm
  | .usub16 cond rn rd rm => .usub16 cond rn rd rm
  | .uadd8 cond rn rd rm => .uadd8 cond rn rd rm
  | .usub8 cond rn rd rm => .usub8 cond rn rd rm
  | .uqadd16 cond rn rd rm => .uqadd16 cond rn rd rm
  | .uqasx cond rn rd rm => .uqasx cond rn rd rm
  | .uqsax cond rn rd rm => .uqsax cond rn rd rm
  | .uqsub16 cond rn rd rm => .uqsub16 cond rn rd rm
  | .uqadd8 cond rn rd rm => .uqadd8 cond rn rd rm
  | .uqsub8 cond rn rd rm => .uqsub8 cond rn rd rm
  | .uhadd16 cond rn rd rm => .uhadd16 cond rn rd rm
  | .uhasx cond rn rd rm => .uhasx cond rn rd rm
  | .uhsax cond rn rd rm => .uhsax cond rn rd rm
  | .uhsub16 cond rn rd rm => .uhsub16 cond rn rd rm
  | .uhadd8 cond rn rd rm => .uhadd8 cond rn rd rm
  | .uhsub8 cond rn rd rm => .uhsub8 cond rn rd rm
  | .pkhbt cond rn rd imm5 rm => .pkhbt cond rn rd imm5 rm
  | .pkhtb cond rn rd imm5 rm => .pkhtb cond rn rd imm5 rm
  | .sel cond rn rd rm => .sel cond rn rd rm
  | .ssat cond satImm rd imm5 sh rn => .ssat cond satImm rd imm5 sh rn
  | .usat cond satImm rd imm5 sh rn => .usat cond satImm rd imm5 sh rn
  | .ssat16 cond satImm rd rn => .ssat16 cond satImm rd rn
  | .usat16 cond satImm rd rn => .usat16 cond satImm rd rn
  | .sxtb16 cond rd rotate rm => .sxtb16 cond rd rotate rm
  | .sxtab16 cond rn rd rotate rm => .sxtab16 cond rn rd rotate rm
  | .sxtb cond rd rotate rm => .sxtb cond rd rotate rm
  | .sxtab cond rn rd rotate rm => .sxtab cond rn rd rotate rm
  | .sxth cond rd rotate rm => .sxth cond rd rotate rm
  | .sxtah cond rn rd rotate rm => .sxtah cond rn rd rotate rm
  | .uxtb16 cond rd rotate rm => .uxtb16 cond rd rotate rm
  | .uxtab16 cond rn rd rotate rm => .uxtab16 cond rn rd rotate rm
  | .uxtb cond rd rotate rm => .uxtb cond rd rotate rm
  | .uxtab cond rn rd rotate rm => .uxtab cond rn rd rotate rm
  | .uxth cond rd rotate rm => .uxth cond rd rotate rm
  | .uxtah cond rn rd rotate rm => .uxtah cond rn rd rotate rm
  | .rev cond rd rm => .rev cond rd rm
  | .rev16 cond rd rm => .rev16 cond rd rm
  | .rbit cond rd rm => .rbit cond rd rm
  | .revsh cond rd rm => .revsh cond rd rm
  | .smuad cond rd rm rn => .smuad cond rd rm rn
  | .smusd cond rd rm rn => .smusd cond rd rm rn
  | .smuadx cond rd rm rn => .smuadx cond rd rm rn
  | .smusdx cond rd rm rn => .smusdx cond rd rm rn
  | .smlad cond rd ra rm rn => .smlad cond rd ra rm rn
  | .smlsd cond rd ra rm rn => .smlsd cond rd ra rm rn
  | .smlald cond rdHi rdLo rm rn => .smlald cond rdHi rdLo rm rn
  | .smlsld cond rdHi rdLo rm rn => .smlsld cond rdHi rdLo rm rn
  | .smladx cond rd ra rm rn => .smladx cond rd ra rm rn
  | .smlsdx cond rd ra rm rn => .smlsdx cond rd ra rm rn
  | .smlaldx cond rdHi rdLo rm rn => .smlaldx cond rdHi rdLo rm rn
  | .smlsldx cond rdHi rdLo rm rn => .smlsldx cond rdHi rdLo rm rn
  | .smmul cond rd rm rn => .smmul cond rd rm rn
  | .smmulr cond rd rm rn => .smmulr cond rd rm rn
  | .smmla cond rd ra rm rn => .smmla cond rd ra rm rn
  | .smmls cond rd ra rm rn => .smmls cond rd ra rm rn
  | .smmlar cond rd ra rm rn => .smmlar cond rd ra rm rn
  | .smmlsr cond rd ra rm rn => .smmlsr cond rd ra rm rn
  | .usad8 cond rd rm rn => .usad8 cond rd rm rn
  | .usada8 cond rd ra rm rn => .usada8 cond rd ra rm rn
  | .sbfx cond widthm1 rd lsb rn => .sbfx cond widthm1 rd lsb rn
  | .ubfx cond widthm1 rd lsb rn => .ubfx cond widthm1 rd lsb rn
  | .bfc cond msb rd lsb => .bfc cond msb rd lsb
  | .bfi cond msb rd lsb rn => .bfi cond msb rd lsb rn
  | .udf cond imm12 imm4 => .udf cond imm12 imm4
  | .popMulti cond regs => .ldm cond 0 1 1 13 regs
  | .pushMulti cond regs => .stm cond 1 0 1 13 regs
  | .ldm cond p u w rn regs => .ldm cond p u w rn regs
  | .stm cond p u w rn regs => .stm cond p u w rn regs
  | .ldmExcRet cond p u w rn regs => .ldmExcRet cond p u w rn regs
  | .ldmUser cond p u rn regs => .ldmUser cond p u rn regs
  | .stmUser cond p u rn regs => .stmUser cond p u rn regs
  | .b cond imm24 => .b cond imm24
  | .bl cond imm24 => .bl cond imm24
  | .svc cond imm24 => .svc cond imm24
  | .mrcDscrFlags cond => .mrcDscrFlags cond
  | .mrcDidr cond rt => .mrcDidr cond rt
  | .mrcDrar cond rt => .mrcDrar cond rt
  | .mrcDsar cond rt => .mrcDsar cond rt
  | .mrcDscr cond rt => .mrcDscr cond rt
  | .mrcDtr cond rt => .mrcDtr cond rt
  | .mcrDtr cond rt => .mcrDtr cond rt
  | .mrcTeecr cond rt => .mrcTeecr cond rt
  | .mcrTeecr cond rt => .mcrTeecr cond rt
  | .mrcTeehbr cond rt => .mrcTeehbr cond rt
  | .mcrTeehbr cond rt => .mcrTeehbr cond rt
  | .mrcJidr cond rt => .mrcJidr cond rt
  | .mrcJoscr cond rt => .mrcJoscr cond rt
  | .mcrJoscr cond rt => .mcrJoscr cond rt
  | .mrcJmcr cond rt => .mrcJmcr cond rt
  | .mcrJmcr cond rt => .mcrJmcr cond rt
  | .ldcDtr cond p u w rn imm8 => .ldcDtr cond p u w rn imm8
  | .stcDtr cond p u w rn imm8 => .stcDtr cond p u w rn imm8
  | .p14DebugOther cond l cRn rt opc2 cRm => .p14DebugOther cond l cRn rt opc2 cRm
  | .p14TeeOther cond l cRn rt opc2 cRm => .p14TeeOther cond l cRn rt opc2 cRm
  | .p14Other cond opc1 l cRn rt opc2 cRm => .p14Other cond opc1 l cRn rt opc2 cRm
  | .fmstat cond => .fmstat cond
  | .vmrsFpsid cond rt => .vmrsFpsid cond rt
  | .vmsrFpsid cond rt => .vmsrFpsid cond rt
  | .vmrsFpscr cond rt => .vmrsFpscr cond rt
  | .vmsrFpscr cond rt => .vmsrFpscr cond rt
  | .vmrsMvfr1 cond rt => .vmrsMvfr1 cond rt
  | .vmsrMvfr1 cond rt => .vmsrMvfr1 cond rt
  | .vmrsMvfr0 cond rt => .vmrsMvfr0 cond rt
  | .vmsrMvfr0 cond rt => .vmsrMvfr0 cond rt
  | .vmrsFpexc cond rt => .vmrsFpexc cond rt
  | .vmsrFpexc cond rt => .vmsrFpexc cond rt
  | .vfpSysOther cond l reg rt => .vfpSysOther cond l reg rt
  | .vfpData cond hi mid lo => .vfpData cond hi mid lo
  | .vfpTransfer cond hi mid lo => .vfpTransfer cond hi mid lo
  | .vfpLoadStore cond hi lo => .vfpLoadStore cond hi lo
  | .mrcMidr cond rt => .mrcMidr cond rt
  | .mrcMidr4 cond rt => .mrcMidr4 cond rt
  | .mrcMidr6 cond rt => .mrcMidr6 cond rt
  | .mrcMidr7 cond rt => .mrcMidr7 cond rt
  | .mrcCtr cond rt => .mrcCtr cond rt
  | .mrcTcmtr cond rt => .mrcTcmtr cond rt
  | .mrcTlbtr cond rt => .mrcTlbtr cond rt
  | .mrcMpidr cond rt => .mrcMpidr cond rt
  | .mrcIdPfr0 cond rt => .mrcIdPfr0 cond rt
  | .mrcIdPfr1 cond rt => .mrcIdPfr1 cond rt
  | .mrcIdDfr0 cond rt => .mrcIdDfr0 cond rt
  | .mrcIdAfr0 cond rt => .mrcIdAfr0 cond rt
  | .mrcIdMmfr0 cond rt => .mrcIdMmfr0 cond rt
  | .mrcIdMmfr1 cond rt => .mrcIdMmfr1 cond rt
  | .mrcIdMmfr2 cond rt => .mrcIdMmfr2 cond rt
  | .mrcIdMmfr3 cond rt => .mrcIdMmfr3 cond rt
  | .mrcIdIsar0 cond rt => .mrcIdIsar0 cond rt
  | .mrcIdIsar1 cond rt => .mrcIdIsar1 cond rt
  | .mrcIdIsar2 cond rt => .mrcIdIsar2 cond rt
  | .mrcIdIsar3 cond rt => .mrcIdIsar3 cond rt
  | .mrcIdIsar4 cond rt => .mrcIdIsar4 cond rt
  | .mrcIdIsar5 cond rt => .mrcIdIsar5 cond rt
  | .mrcIdIsar6 cond rt => .mrcIdIsar6 cond rt
  | .mrcIdIsar7 cond rt => .mrcIdIsar7 cond rt
  | .mrcFeatureReserved cond rt opc2 cRm => .mrcFeatureReserved cond rt opc2 cRm
  | .mrcCcsidr cond rt => .mrcCcsidr cond rt
  | .mrcClidr cond rt => .mrcClidr cond rt
  | .mrcSiliconId cond rt => .mrcSiliconId cond rt
  | .mrcCsselr cond rt => .mrcCsselr cond rt
  | .mcrCsselr cond rt => .mcrCsselr cond rt
  | .mrcSctlr cond rt => .mrcSctlr cond rt
  | .mcrSctlr cond rt => .mcrSctlr cond rt
  | .mrcActlr cond rt => .mrcActlr cond rt
  | .mcrActlr cond rt => .mcrActlr cond rt
  | .mrcCpacr cond rt => .mrcCpacr cond rt
  | .mcrCpacr cond rt => .mcrCpacr cond rt
  | .mrcScr cond rt => .mrcScr cond rt
  | .mcrScr cond rt => .mcrScr cond rt
  | .mrcSder cond rt => .mrcSder cond rt
  | .mcrSder cond rt => .mcrSder cond rt
  | .mrcNsacr cond rt => .mrcNsacr cond rt
  | .mcrNsacr cond rt => .mcrNsacr cond rt
  | .mrcTtbr0 cond rt => .mrcTtbr0 cond rt
  | .mcrTtbr0 cond rt => .mcrTtbr0 cond rt
  | .mrcTtbr1 cond rt => .mrcTtbr1 cond rt
  | .mcrTtbr1 cond rt => .mcrTtbr1 cond rt
  | .mrcTtbcr cond rt => .mrcTtbcr cond rt
  | .mcrTtbcr cond rt => .mcrTtbcr cond rt
  | .mrcDacr cond rt => .mrcDacr cond rt
  | .mcrDacr cond rt => .mcrDacr cond rt
  | .mrcDfsr cond rt => .mrcDfsr cond rt
  | .mcrDfsr cond rt => .mcrDfsr cond rt
  | .mrcIfsr cond rt => .mrcIfsr cond rt
  | .mcrIfsr cond rt => .mcrIfsr cond rt
  | .mrcAdfsr cond rt => .mrcAdfsr cond rt
  | .mcrAdfsr cond rt => .mcrAdfsr cond rt
  | .mrcAifsr cond rt => .mrcAifsr cond rt
  | .mcrAifsr cond rt => .mcrAifsr cond rt
  | .mrcDfar cond rt => .mrcDfar cond rt
  | .mcrDfar cond rt => .mcrDfar cond rt
  | .mrcIfar cond rt => .mrcIfar cond rt
  | .mcrIfar cond rt => .mcrIfar cond rt
  | .mcrWfiNop cond rt => .mcrWfiNop cond rt
  | .mrcPar cond rt => .mrcPar cond rt
  | .mcrPar cond rt => .mcrPar cond rt
  | .mcrIciallu cond rt => .mcrIciallu cond rt
  | .mcrIcimvau cond rt => .mcrIcimvau cond rt
  | .mcrIsb cond rt => .mcrIsb cond rt
  | .mcrBpiall cond rt => .mcrBpiall cond rt
  | .mcrBpimva cond rt => .mcrBpimva cond rt
  | .mcrDcimvac cond rt => .mcrDcimvac cond rt
  | .mcrDcisw cond rt => .mcrDcisw cond rt
  | .mcrVaPaCurPrivRead cond rt => .mcrVaPaCurPrivRead cond rt
  | .mcrVaPaCurPrivWrite cond rt => .mcrVaPaCurPrivWrite cond rt
  | .mcrVaPaCurUserRead cond rt => .mcrVaPaCurUserRead cond rt
  | .mcrVaPaCurUserWrite cond rt => .mcrVaPaCurUserWrite cond rt
  | .mcrVaPaOthPrivRead cond rt => .mcrVaPaOthPrivRead cond rt
  | .mcrVaPaOthPrivWrite cond rt => .mcrVaPaOthPrivWrite cond rt
  | .mcrVaPaOthUserRead cond rt => .mcrVaPaOthUserRead cond rt
  | .mcrVaPaOthUserWrite cond rt => .mcrVaPaOthUserWrite cond rt
  | .mcrDccmvac cond rt => .mcrDccmvac cond rt
  | .mcrDccsw cond rt => .mcrDccsw cond rt
  | .mcrDsb cond rt => .mcrDsb cond rt
  | .mcrDmb cond rt => .mcrDmb cond rt
  | .mcrDccmvau cond rt => .mcrDccmvau cond rt
  | .mcrDccimvac cond rt => .mcrDccimvac cond rt
  | .mcrDccisw cond rt => .mcrDccisw cond rt
  | .mcrItlbiall cond rt => .mcrItlbiall cond rt
  | .mcrItlbimva cond rt => .mcrItlbimva cond rt
  | .mcrItlbiasid cond rt => .mcrItlbiasid cond rt
  | .mcrDtlbiall cond rt => .mcrDtlbiall cond rt
  | .mcrDtlbimva cond rt => .mcrDtlbimva cond rt
  | .mcrDtlbiasid cond rt => .mcrDtlbiasid cond rt
  | .mcrTlbiall cond rt => .mcrTlbiall cond rt
  | .mcrTlbimva cond rt => .mcrTlbimva cond rt
  | .mcrTlbiasid cond rt => .mcrTlbiasid cond rt
  | .mrcPmnc cond rt => .mrcPmnc cond rt
  | .mcrPmnc cond rt => .mcrPmnc cond rt
  | .mrcCntens cond rt => .mrcCntens cond rt
  | .mcrCntens cond rt => .mcrCntens cond rt
  | .mrcCntenc cond rt => .mrcCntenc cond rt
  | .mcrCntenc cond rt => .mcrCntenc cond rt
  | .mrcFlag cond rt => .mrcFlag cond rt
  | .mcrFlag cond rt => .mcrFlag cond rt
  | .mrcSwincr cond rt => .mrcSwincr cond rt
  | .mcrSwincr cond rt => .mcrSwincr cond rt
  | .mrcPmnxsel cond rt => .mrcPmnxsel cond rt
  | .mcrPmnxsel cond rt => .mcrPmnxsel cond rt
  | .mrcCcnt cond rt => .mrcCcnt cond rt
  | .mcrCcnt cond rt => .mcrCcnt cond rt
  | .mrcEvtsel cond rt => .mrcEvtsel cond rt
  | .mcrEvtsel cond rt => .mcrEvtsel cond rt
  | .mrcPmcnt cond rt => .mrcPmcnt cond rt
  | .mcrPmcnt cond rt => .mcrPmcnt cond rt
  | .mrcUseren cond rt => .mrcUseren cond rt
  | .mcrUseren cond rt => .mcrUseren cond rt
  | .mrcIntens cond rt => .mrcIntens cond rt
  | .mcrIntens cond rt => .mcrIntens cond rt
  | .mrcIntenc cond rt => .mrcIntenc cond rt
  | .mcrIntenc cond rt => .mcrIntenc cond rt
  | .mrcL2Lock cond rt => .mrcL2Lock cond rt
  | .mcrL2Lock cond rt => .mcrL2Lock cond rt
  | .mrcL2Aux cond rt => .mrcL2Aux cond rt
  | .mcrL2Aux cond rt => .mcrL2Aux cond rt
  | .mrcDtlbLock cond rt => .mrcDtlbLock cond rt
  | .mcrDtlbLock cond rt => .mcrDtlbLock cond rt
  | .mrcItlbLock cond rt => .mrcItlbLock cond rt
  | .mcrItlbLock cond rt => .mcrItlbLock cond rt
  | .mcrDtlbPreload cond rt => .mcrDtlbPreload cond rt
  | .mcrItlbPreload cond rt => .mcrItlbPreload cond rt
  | .mrcPrrr cond rt => .mrcPrrr cond rt
  | .mcrPrrr cond rt => .mcrPrrr cond rt
  | .mrcNmrr cond rt => .mrcNmrr cond rt
  | .mcrNmrr cond rt => .mcrNmrr cond rt
  | .mrcPleIdPresent cond rt => .mrcPleIdPresent cond rt
  | .mrcPleIdReserved cond rt => .mrcPleIdReserved cond rt
  | .mrcPleIdRunning cond rt => .mrcPleIdRunning cond rt
  | .mrcPleIdInterrupting cond rt => .mrcPleIdInterrupting cond rt
  | .mrcPleUser cond rt => .mrcPleUser cond rt
  | .mcrPleUser cond rt => .mcrPleUser cond rt
  | .mrcPleChannel cond rt => .mrcPleChannel cond rt
  | .mcrPleChannel cond rt => .mcrPleChannel cond rt
  | .mcrPleStop cond rt => .mcrPleStop cond rt
  | .mcrPleStart cond rt => .mcrPleStart cond rt
  | .mcrPleClear cond rt => .mcrPleClear cond rt
  | .mrcPleControl cond rt => .mrcPleControl cond rt
  | .mcrPleControl cond rt => .mcrPleControl cond rt
  | .mrcPleStartAddr cond rt => .mrcPleStartAddr cond rt
  | .mcrPleStartAddr cond rt => .mcrPleStartAddr cond rt
  | .mrcPleEndAddr cond rt => .mrcPleEndAddr cond rt
  | .mcrPleEndAddr cond rt => .mcrPleEndAddr cond rt
  | .mrcPleStatus cond rt => .mrcPleStatus cond rt
  | .mrcPleContext cond rt => .mrcPleContext cond rt
  | .mcrPleContext cond rt => .mcrPleContext cond rt
  | .mrcVbar cond rt => .mrcVbar cond rt
  | .mcrVbar cond rt => .mcrVbar cond rt
  | .mrcMvbar cond rt => .mrcMvbar cond rt
  | .mcrMvbar cond rt => .mcrMvbar cond rt
  | .mrcIsr cond rt => .mrcIsr cond rt
  | .mrcFcse cond rt => .mrcFcse cond rt
  | .mcrFcse cond rt => .mcrFcse cond rt
  | .mrcContextidr cond rt => .mrcContextidr cond rt
  | .mcrContextidr cond rt => .mcrContextidr cond rt
  | .mrcTpidrurw cond rt => .mrcTpidrurw cond rt
  | .mcrTpidrurw cond rt => .mcrTpidrurw cond rt
  | .mrcTpidruro cond rt => .mrcTpidruro cond rt
  | .mcrTpidruro cond rt => .mcrTpidruro cond rt
  | .mrcTpidrprw cond rt => .mrcTpidrprw cond rt
  | .mcrTpidrprw cond rt => .mcrTpidrprw cond rt
  | .mrcDl1Data0 cond rt => .mrcDl1Data0 cond rt
  | .mcrDl1Data0 cond rt => .mcrDl1Data0 cond rt
  | .mrcDl1Data1 cond rt => .mrcDl1Data1 cond rt
  | .mcrDl1Data1 cond rt => .mcrDl1Data1 cond rt
  | .mcrDtlbCamWrite cond rt => .mcrDtlbCamWrite cond rt
  | .mcrDtlbAttrWrite cond rt => .mcrDtlbAttrWrite cond rt
  | .mcrDtlbPaWrite cond rt => .mcrDtlbPaWrite cond rt
  | .mcrDhvabWrite cond rt => .mcrDhvabWrite cond rt
  | .mcrDtagWrite cond rt => .mcrDtagWrite cond rt
  | .mcrDdataWrite cond rt => .mcrDdataWrite cond rt
  | .mcrDtlbCamRead cond rt => .mcrDtlbCamRead cond rt
  | .mcrDtlbAttrRead cond rt => .mcrDtlbAttrRead cond rt
  | .mcrDtlbPaRead cond rt => .mcrDtlbPaRead cond rt
  | .mcrDhvabRead cond rt => .mcrDhvabRead cond rt
  | .mcrDtagRead cond rt => .mcrDtagRead cond rt
  | .mcrDdataRead cond rt => .mcrDdataRead cond rt
  | .mrcIl1Data0 cond rt => .mrcIl1Data0 cond rt
  | .mcrIl1Data0 cond rt => .mcrIl1Data0 cond rt
  | .mrcIl1Data1 cond rt => .mrcIl1Data1 cond rt
  | .mcrIl1Data1 cond rt => .mcrIl1Data1 cond rt
  | .mcrItlbCamWrite cond rt => .mcrItlbCamWrite cond rt
  | .mcrItlbAttrWrite cond rt => .mcrItlbAttrWrite cond rt
  | .mcrItlbPaWrite cond rt => .mcrItlbPaWrite cond rt
  | .mcrIhvabWrite cond rt => .mcrIhvabWrite cond rt
  | .mcrItagWrite cond rt => .mcrItagWrite cond rt
  | .mcrIdataWrite cond rt => .mcrIdataWrite cond rt
  | .mcrItlbCamRead cond rt => .mcrItlbCamRead cond rt
  | .mcrItlbAttrRead cond rt => .mcrItlbAttrRead cond rt
  | .mcrItlbPaRead cond rt => .mcrItlbPaRead cond rt
  | .mcrIhvabRead cond rt => .mcrIhvabRead cond rt
  | .mcrItagRead cond rt => .mcrItagRead cond rt
  | .mcrIdataRead cond rt => .mcrIdataRead cond rt
  | .mcrGhbWrite cond rt => .mcrGhbWrite cond rt
  | .mcrBtbWrite cond rt => .mcrBtbWrite cond rt
  | .mcrGhbRead cond rt => .mcrGhbRead cond rt
  | .mcrBtbRead cond rt => .mcrBtbRead cond rt
  | .mrcL2Data0 cond rt => .mrcL2Data0 cond rt
  | .mcrL2Data0 cond rt => .mcrL2Data0 cond rt
  | .mrcL2Data1 cond rt => .mrcL2Data1 cond rt
  | .mcrL2Data1 cond rt => .mcrL2Data1 cond rt
  | .mcrL2TagWrite cond rt => .mcrL2TagWrite cond rt
  | .mcrL2DataWrite cond rt => .mcrL2DataWrite cond rt
  | .mcrL2ParityWrite cond rt => .mcrL2ParityWrite cond rt
  | .mrcL2Data2 cond rt => .mrcL2Data2 cond rt
  | .mcrL2Data2 cond rt => .mcrL2Data2 cond rt
  | .mcrL2TagRead cond rt => .mcrL2TagRead cond rt
  | .mcrL2DataRead cond rt => .mcrL2DataRead cond rt
  | .mcrL2ParityRead cond rt => .mcrL2ParityRead cond rt
  | .p15Other cond opc1 l cRn rt opc2 cRm => .p15Other cond opc1 l cRn rt opc2 cRm
  | .mcrOther cond opc1 cRn rt coproc opc2 cRm => .mcrOther cond opc1 cRn rt coproc opc2 cRm
  | .mrcOther cond opc1 cRn rt coproc opc2 cRm => .mrcOther cond opc1 cRn rt coproc opc2 cRm
  | .cdpAny cond opc1 cRn cRd coproc opc2 cRm => .cdpAny cond opc1 cRn cRd coproc opc2 cRm
  | .mcrrAny cond rt2 rt coproc opc1 cRm => .mcrrAny cond rt2 rt coproc opc1 cRm
  | .mrrcAny cond rt2 rt coproc opc1 cRm => .mrrcAny cond rt2 rt coproc opc1 cRm
  | .ldcStcOther cond p u d w l rn cRd coproc imm8 => .ldcStcOther cond p u d w l rn cRd coproc imm8

/-- The decoder's answer for an opcode-table word `w` of `nbits` bits, laid out in memory as the hardware stores it. -/
def decodeTableWord (nbits w : Nat) : Option Instr :=
  let v : Word := BitVec.ofNat 32 (w % 2 ^ nbits)
  match decodeBytes [bits v 0 8, bits v 8 8, bits v 16 8, bits v 24 8] with
  | .ok (i, _) => some i
  | .error _ => none

end

end Sys2Proof
end

