-- ==== Sys2Proof/Machine/Operands.lean ====
section
/-! DEFINITION. Every operand form: the shifter operand of data processing, and the offsets and addresses of loads and
stores. -/

namespace Sys2Proof.Machine

/-! ## Registers an instruction may not name -/

/-- r15 in a register that the instruction may not name it in is Unpredictable (30_encoding.md R1386). -/
def unlessPC (regs : List (BitVec 4)) (effect : Host.Outcome State Fault Refusal) : Host.Outcome State Fault Refusal :=
  if regs.contains 15 then .fault .operands else effect

/-! ## Shifts (42_data_processing.md R1601); each gives the result and the carry out -/

/-- LSL_C, for n at least 1. -/
def lslC (x : Word) (n : Nat) : Word × Bool := (x <<< n, n ≤ 32 && x.getLsbD (32 - n))

/-- LSR_C, for n at least 1. -/
def lsrC (x : Word) (n : Nat) : Word × Bool := (x >>> n, x.getLsbD (n - 1))

/-- ASR_C, for n at least 1. -/
def asrC (x : Word) (n : Nat) : Word × Bool := (x.sshiftRight n, if n ≤ 32 then x.getLsbD (n - 1) else x.msb)

/-- ROR_C, for n at least 1. -/
def rorC (x : Word) (n : Nat) : Word × Bool := ((x.rotateRight n), (x.rotateRight n).msb)

/-- RRX_C. -/
def rrxC (x : Word) (c : Bool) : Word × Bool := (bit c ++ x.extractLsb' 1 31, x.getLsbD 0)

/-- Shift_C for the kinds 00 LSL, 01 LSR, 10 ASR, 11 ROR; an amount of 0 leaves value and carry as they are. -/
def shiftC (x : Word) (typ : BitVec 2) (n : Nat) (c : Bool) : Word × Bool :=
  if n = 0 then (x, c)
  else match typ.toNat with
    | 0 => lslC x n
    | 1 => lsrC x n
    | 2 => asrC x n
    | _ => rorC x n

/-- Shift by an immediate: DecodeImmShift (30_encoding.md R1357), where 0 means 32 for LSR and ASR and RRX for ROR. -/
def immShiftC (x : Word) (typ : BitVec 2) (imm5 : BitVec 5) (c : Bool) : Word × Bool :=
  if imm5 = 0 then
    match typ.toNat with
    | 0 => (x, c)
    | 1 => lsrC x 32
    | 2 => asrC x 32
    | _ => rrxC x c
  else shiftC x typ imm5.toNat c

/-- ARMExpandImm_C (30_encoding.md R1358). -/
def expandImmC (imm12 : BitVec 12) (c : Bool) : Word × Bool :=
  let rot := 2 * (imm12.extractLsb' 8 4).toNat
  let v := ((imm12.extractLsb' 0 8).setWidth 32).rotateRight rot
  (v, if rot = 0 then c else v.msb)

/-! ## The shifter operand (42_data_processing.md R1602) -/

def opImm (imm12 : BitVec 12) (s : State) : Word × Bool := expandImmC imm12 s.flagC

def opReg (imm5 : BitVec 5) (typ : BitVec 2) (rm : BitVec 4) (s : State) : Word × Bool :=
  immShiftC (s.reg rm) typ imm5 s.flagC

def opRsr (rs : BitVec 4) (typ : BitVec 2) (rm : BitVec 4) (s : State) : Word × Bool :=
  shiftC (s.reg rm) typ ((s.reg rs).extractLsb' 0 8).toNat s.flagC

/-! ## Addresses (44_load_store.md R1690) -/

/-- Base plus or minus an offset, as U says. -/
def plusMinus (u : BitVec 1) (base offset : Word) : Word := if u = 1 then base + offset else base - offset

/-- The register offset of the word and byte forms, shifted by an immediate. -/
def offsetReg (imm5 : BitVec 5) (typ : BitVec 2) (rm : BitVec 4) (s : State) : Word :=
  (immShiftC (s.reg rm) typ imm5 s.flagC).1

/-- The 8-bit split immediate of the halfword and doubleword forms. -/
def splitImm (hi lo : BitVec 4) : Word := (hi ++ lo).setWidth 32

end Sys2Proof.Machine
end

