-- ==== Sys2Proof/Machine/LoadStore.lean ====
section
/-! DEFINITION. Loads and stores: single, unprivileged, doubleword, multiple, swap and exclusive (44_load_store.md). -/

namespace Sys2Proof.Machine

/-! ## Addressing (R1691, R1693) -/

/-- The address of an access: the base itself when P = 0 (post-indexed). -/
def effAddress (p u : BitVec 1) (rn : BitVec 4) (off : Word) (s : State) : Word :=
  if p = 1 then plusMinus u (s.reg rn) off else s.reg rn

/-- The base is written back: pre-indexed with W = 1, and every post-indexed form. -/
def writesBack (p w : BitVec 1) : Bool := p = 0 || w = 1

/-- Write the base back, if the form does. -/
def backBase (p u w : BitVec 1) (rn : BitVec 4) (off : Word) (s : State) : State :=
  if writesBack p w then s.setReg rn (plusMinus u (s.reg rn) off) else s

/-- Write-back to r15 or to a transferred register is Unpredictable (R1693). -/
def baseClash (p w : BitVec 1) (rn : BitVec 4) (transferred : List (BitVec 4)) : Bool :=
  writesBack p w && (rn == 15 || transferred.contains rn)

/-- An ordinary access of `size` bytes: it needs no alignment of its own. -/
def plainReq (size : Nat) (priv write : Bool) : Req := ⟨size, 1, priv, false, !write, write⟩

/-- An access that must be naturally aligned (20_memory.md R1013). -/
def alignedReq (size : Nat) (priv write : Bool) : Req := ⟨size, size, priv, false, !write, write⟩

/-! ## Single registers (R1695 to R1702, R1705 to R1712) -/

/-- Loads of a register other than r15: the value is narrowed by `ext`. -/
def loadReg (size : Nat) (ext : Word → Word) (priv : Bool) (p u w : BitVec 1) (rn rt : BitVec 4) (off : Word)
    (s : State) : Host.Outcome State Fault Refusal :=
  if rt = 15 ∨ baseClash p w rn [rt] then .fault .operands
  else finish (readData (plainReq size priv false) (effAddress p u rn off s) s) fun v s' =>
    .next ((backBase p u w rn off s').setReg rt (ext v)).advance

/-- The stack pointers from which R409 lists a load of the PC as a procedure return, event 0x0E: r13 and r9. The list is read as
complete (log 57). -/
def noteLoadReturn (form : Bool) (rn : BitVec 4) (s : State) : State :=
  if form && (rn == 13 || rn == 9) then s.note 0x0E else s

/-- LDR: with r15 as the destination the value is a branch target (R1603 LoadWritePC), the address must be
word-aligned, and an external abort is precise; `ret` is the form that may count as a procedure return. -/
def loadWord (ret : Bool) (p u w : BitVec 1) (rn rt : BitVec 4) (off : Word) (s : State) : Host.Outcome State Fault Refusal :=
  if rt = 15 then
    if baseClash p w rn [rt] ∨ effAddress p u rn off s &&& 3 ≠ 0 then .fault .operands
    else finish (readData { plainReq 4 s.privileged false with precise := true } (effAddress p u rn off s) s) fun v s' =>
      bxTo (noteLoadReturn ret rn (backBase p u w rn off s')) v
  else loadReg 4 id s.privileged p u w rn rt off s

/-- Stores of the low `size` bytes of a register. -/
def storeReg (size : Nat) (pcOk priv : Bool) (p u w : BitVec 1) (rn rt : BitVec 4) (off : Word) (s : State) :
    Host.Outcome State Fault Refusal :=
  if (rt = 15 ∧ !pcOk) ∨ baseClash p w rn [rt] then .fault .operands
  else finish (writeData (plainReq size priv true) (effAddress p u rn off s) (s.reg rt) s) fun _ s' =>
    .next (backBase p u w rn off s').advance

/-- The sign extensions of LDRSB and LDRSH. -/
def signByte (v : Word) : Word := (v.setWidth 8).signExtend 32
def signHalf (v : Word) : Word := (v.setWidth 16).signExtend 32

/-- r15 as an offset register is Unpredictable (R1693). -/
def unlessPCOffset (rm : BitVec 4) (effect : Host.Outcome State Fault Refusal) : Host.Outcome State Fault Refusal :=
  if rm = 15 then .fault .operands else effect

/-! ## Doublewords (R1703, R1704) -/

/-- LDRD and STRD need an even Rt other than r14 (R1693). -/
def badPair (rt : BitVec 4) : Bool := rt.getLsbD 0 || rt == 14

/-- The first word of LDRD and STRD: word-aligned, doubleword-aligned when SCTLR.A is set (20_memory.md R1013). -/
def pairReq (write : Bool) (s : State) : Req :=
  { alignedReq 4 s.privileged write with align := if s.cur.sctlr.getLsbD 1 then 8 else 4 }

/-- The registers a load of several registers had read when an access aborted: each but the base and r15 holds its old or
its new value (60_exceptions.md R1936, D25). -/
def partialLoad (m : Mode) (base : BitVec 4) : List (BitVec 4 × Word) → Word → State → State
  | [], _, s => s
  | (r, v) :: l, pick, s =>
    partialLoad m base l pick
      (if physReg m r ≠ physReg s.mode base ∧ r ≠ 15 ∧ pick.getLsbD r.toNat then s.setRegOf m r v else s)

/-- LDRD: two accesses, between which other bus masters may write (20_memory.md R1046). -/
def loadPair (p u w : BitVec 1) (rn rt : BitVec 4) (off : Word) (s : State) : Host.Outcome State Fault Refusal :=
  if badPair rt ∨ baseClash p w rn [rt, rt + 1] then .fault .operands
  else
    let a := effAddress p u rn off s
    finish (readData (pairReq false s) a s) fun v1 s1 =>
      match readData (alignedReq 4 s.privileged false) (a + 4) s1.gap with
      | .ok v2 s2 => .next (((backBase p u w rn off s2).setReg rt v1).setReg (rt + 1) v2).advance
      | .abort i s2 => .next (takeDataAbort i (partialLoad s2.mode rn [(rt, v1)] s2.draw s2.drawn))
      | .stop e => .fault e

/-- STRD: two accesses. -/
def storePair (p u w : BitVec 1) (rn rt : BitVec 4) (off : Word) (s : State) : Host.Outcome State Fault Refusal :=
  if badPair rt ∨ baseClash p w rn [rt, rt + 1] then .fault .operands
  else
    let a := effAddress p u rn off s
    finish (writeData (pairReq true s) a (s.reg rt) s) fun _ s1 =>
      finish (writeData (alignedReq 4 s.privileged true) (a + 4) (s.reg (rt + 1)) s1.gap) fun _ s2 =>
        .next (backBase p u w rn off s2).advance

/-! ## Multiple registers (R1715 to R1720) -/

/-- The registers of a list, lowest first. -/
def regList {n : Nat} (regs : BitVec n) : List (BitVec 4) :=
  ((List.range n).filter fun i => regs.getLsbD i).map (BitVec.ofNat 4)

/-- The lowest address of the block. -/
def blockStart (p u : BitVec 1) (base : Word) (n : Nat) : Word :=
  let size := BitVec.ofNat 32 (4 * n)
  if u = 1 then (if p = 1 then base + 4 else base)
  else if p = 1 then base - size else base - size + 4

/-- What the base becomes with write-back. -/
def blockEnd (u : BitVec 1) (base : Word) (n : Nat) : Word := plusMinus u base (BitVec.ofNat 32 (4 * n))

/-- Load words at rising addresses, other bus masters writing between them (20_memory.md R1046): what was read, and how it
ended. -/
def loadWords (q : Req) : List (BitVec 4) → Word → State → List (BitVec 4 × Word) × Acc Unit
  | [], _, s => ([], .ok () s)
  | r :: rs, a, s =>
    match readData q a s with
    | .ok v s1 =>
      match loadWords q rs (a + 4) (if rs = [] then s1 else s1.gap) with
      | (l, x) => ((r, v) :: l, x)
    | .abort i s1 => ([], .abort i s1)
    | .stop e => ([], .stop e)

/-- Store the registers of mode `m` at rising addresses; r15 is stored as the address of the instruction plus 8. -/
def storeWords (q : Req) (m : Mode) : List (BitVec 4) → Word → State → Acc Unit
  | [], _, s => .ok () s
  | r :: rs, a, s =>
    (writeData q a (if r = 15 then s.pc + 8 else s.regOf m r) s).bind fun _ s1 =>
      storeWords q m rs (a + 4) (if rs = [] then s1 else s1.gap)

/-- Write the loaded registers of mode `m`, r15 apart. -/
def setLoaded (m : Mode) : List (BitVec 4 × Word) → State → State
  | [], s => s
  | (r, v) :: l, s => setLoaded m l (if r = 15 then s else s.setRegOf m r v)

/-- The value loaded for r15. -/
def loadedPC (l : List (BitVec 4 × Word)) : Option Word := (l.find? fun x => x.1 == 15).map (·.2)

/-- A load of several registers of mode `m`; `k` says what follows from the value for r15, in the state with every other
register written. -/
def loadBlock (m : Mode) (p u w : BitVec 1) (rn : BitVec 4) (list : List (BitVec 4)) (s : State)
    (k : Option Word → State → Host.Outcome State Fault Refusal) : Host.Outcome State Fault Refusal :=
  if list = [] ∨ rn = 15 ∨ (w = 1 ∧ list.contains rn) then .fault .operands
  else
    let q := { alignedReq 4 s.privileged false with precise := list.contains 15 }
    let base := s.reg rn
    let (l, x) := loadWords q list (blockStart p u base list.length) s
    match x with
    | .ok _ s1 =>
      k (loadedPC l) (if w = 1 then (setLoaded m l s1).setReg rn (blockEnd u base list.length) else setLoaded m l s1)
    | .abort i s1 => .next (takeDataAbort i (partialLoad m rn l s1.draw s1.drawn))
    | .stop e => .fault e

/-- LDM and POP: a value for r15 is a branch target; LDMIA with write-back may count as a procedure return (R409). -/
def loadMultiple (p u w : BitVec 1) (rn : BitVec 4) (regs : BitVec 16) (s : State) :
    Host.Outcome State Fault Refusal :=
  loadBlock s.mode p u w rn (regList regs) s fun pc s' =>
    match pc with
    | some v => bxTo (noteLoadReturn (p == 0 && u == 1 && w == 1) rn s') v
    | none => .next s'.advance

/-- A store of several registers of mode `m`. With write-back the base may be in the list only as its lowest register. -/
def storeMultiple (m : Mode) (p u w : BitVec 1) (rn : BitVec 4) (regs : BitVec 16) (s : State) :
    Host.Outcome State Fault Refusal :=
  let list := regList regs
  if list = [] ∨ rn = 15 ∨ (w = 1 ∧ list.tail.contains rn) then .fault .operands
  else
    let base := s.reg rn
    finish (storeWords (alignedReq 4 s.privileged true) m list (blockStart p u base list.length) s) fun _ s1 =>
      .next (if w = 1 then s1.setReg rn (blockEnd u base list.length) else s1).advance

/-- The forms with the S bit need a mode that has an SPSR (R1718 to R1720). -/
def unlessUserSystem (s : State) (effect : Host.Outcome State Fault Refusal) : Host.Outcome State Fault Refusal :=
  if s.mode = .usr ∨ s.mode = .sys then .fault .operands else effect

/-! ## Swap (R1730, R1731) -/

/-- A swap treats memory that is not cacheable as Strongly ordered (20_memory.md R1066). -/
def swapAttrs (a : MemAttrs) : MemAttrs :=
  if a.cached && (a.inner.cacheable || a.outer.cacheable) then a else strongAttrs

/-- The place of a swap, which is aligned. -/
def swapSpan (p : Span) : Span := { p with
  first := { p.first with attrs := swapAttrs p.first.attrs }, second := { p.second with attrs := swapAttrs p.second.attrs } }

/-- Read, then write to the same address; an abort of either leaves register and memory as they are. Both permissions are
checked before the read; the write adds no watchpoint event of its own. -/
def swapData (size : Nat) (rn rt rt2 : BitVec 4) (s : State) : Host.Outcome State Fault Refusal :=
  if [rn, rt, rt2].contains 15 ∨ rn = rt ∨ rn = rt2 then .fault .operands
  else
    let a := s.reg rn
    let q : Req := ⟨size, size, s.privileged, true, true, true⟩
    let qw : Req := ⟨size, size, s.privileged, false, false, false⟩
    finish ((prepare q .read a s).bind fun p0 s1 =>
        (prepare qw .write a s1).bind fun _ s2 =>
          let p := swapSpan p0
          (readAt q a p s2).bind fun v s3 =>
            match writeError s3 p size with
            | some slave =>
              if preciseError qw p && (apbAccess a p size true s3).isNone then
                .abort (externalAbort (mvaOf s3.cur a) true slave) s3
              else (writeAt qw a (s.reg rt2) p s3).bind fun _ s4 => .ok v s4
            | none => (writeAt qw a (s.reg rt2) p s3).bind fun _ s4 => .ok v s4) fun v s4 =>
      .next (s4.setReg rt v).advance

/-! ## Exclusive access (20_memory.md R1060 to R1063) -/

/-- The tag of a physical access: its granule (R1060, D21). -/
def exclTag (k : Build) (p : Span) : ExclTag := ⟨p.first.ns, p.first.pa >>> k.exclGranule⟩

/-- A load-exclusive; after an external abort the monitor may be in either state (R1061). -/
def loadExclusive (size : Nat) (a : Word) (s : State) : Acc (List Byte) :=
  let q := alignedReq size s.privileged false
  (prepare q .read a s).bind fun p s1 =>
    match readBytes q a p s1 with
    | .ok v s2 => .ok v { s2 with excl := some (exclTag s.build p) }
    | .abort i s2 =>
      if i.external && s2.draw.getLsbD 0 then .abort i { s2.drawn with excl := some (exclTag s.build p) } else .abort i s2.drawn
    | .stop e => .stop e

/-- LDREX, LDREXB and LDREXH. -/
def loadExReg (size : Nat) (rn rt : BitVec 4) (s : State) : Host.Outcome State Fault Refusal :=
  unlessPC [rt] (finish (loadExclusive size (s.reg rn) s) fun bytes s' =>
    .next (s'.setReg rt (assemble (s.cpsr.getLsbD 9) bytes)).advance)

/-- The status of a store-exclusive that was issued in `s` and has led to `t` (R1063): 0, but 1 where the memory is shareable
and the write response is an error, not EXOKAY. -/
def exclStatus (a : Word) (p : Span) (size : Nat) (s t : State) : Word :=
  let failed := match apbAccess a p size (writeReach s (s.dataRoute p.first.attrs) p.first.ns p.first.pa == .bus) s with
    | some _ => t.dbg.apbErr
    | none => (writeError s p size).isSome
  if p.first.attrs.shareable && failed then 1 else 0

/-- The write of a store-exclusive that the local monitor lets pass, and its status: to shareable memory it may be refused by
the global monitor of the platform, which then stores nothing (R1063, D7; log 29). -/
def exclusiveWrite (q : Req) (a : Word) (bytes : List Byte) (p : Span) (s : State) : Acc Word :=
  if p.first.attrs.shareable && s.exclRefused && (writeError s p q.size).isNone then
    let (hit, t) := watchGate q a s
    if hit then .abort (watchAbort (mvaOf s.cur a) true) t else .ok 1 { t.ordered p with excl := none }
  else (writeBytes q a bytes p s).bind fun _ t => .ok (exclStatus a p q.size s t) { t with excl := none }

/-- A store-exclusive: the status, 0 when the store was made. One that fails because the monitor is open makes no walk, no fault
and no watchpoint event (R1063). A misaligned one takes the alignment fault before any translation fault (21_mmu.md R1135), but
none where the tag differs (44_load_store.md R1736; log 29). -/
def storeExclusive (size : Nat) (a : Word) (bytes : List Byte) (s : State) : Acc Word :=
  match s.excl with
  | none => .ok 1 s
  | some t =>
    let q := alignedReq size s.privileged true
    match translate s s.secure s.privileged .write (mvaOf s.cur a) with
    | .ok ph s1 =>
      let p : Span := ⟨ph, ph, size⟩
      if t ≠ exclTag s.build p then .ok 1 { s1 with excl := none }
      else if misaligned s q a then .abort (alignmentAbort (mvaOf s.cur a) true) s
      else exclusiveWrite q a bytes p s1
    | .abort i s1 => if misaligned s q a then .abort (alignmentAbort (mvaOf s.cur a) true) s else .abort i s1
    | .stop e => .stop e

/-- The status goes to Rd; to r15 it is a branch, as R63 has it of any instruction (log 58). -/
def writeStatus (rd : BitVec 4) (v : Word) (s : State) : State := if rd = 15 then s.writePC v else (s.setReg rd v).advance

/-- STREX, STREXB and STREXH. -/
def storeExReg (size : Nat) (rn rd rt : BitVec 4) (s : State) : Host.Outcome State Fault Refusal :=
  if rt = 15 ∨ rd = rn ∨ rd = rt then .fault .operands
  else finish (storeExclusive size (s.reg rn) (disassemble (s.cpsr.getLsbD 9) size (s.reg rt)) s) fun v s' =>
    .next (writeStatus rd v s')

/-- LDR, immediate offset (R1695). -/
def execLdrImm (cond : BitVec 4) (p : BitVec 1) (u : BitVec 1) (w : BitVec 1) (rn : BitVec 4) (rt : BitVec 4) (imm12 : BitVec 12) (s : State) : Host.Outcome State Fault Refusal :=
  onCond cond s (loadWord (p == 0) p u w rn rt (imm12.setWidth 32) s)

/-- LDR, shifted register offset (R1695). -/
def execLdrReg (cond : BitVec 4) (p : BitVec 1) (u : BitVec 1) (w : BitVec 1) (rn : BitVec 4) (rt : BitVec 4) (imm5 : BitVec 5) (typ : BitVec 2) (rm : BitVec 4) (s : State) : Host.Outcome State Fault Refusal :=
  onCond cond s (unlessPCOffset rm (loadWord false p u w rn rt (offsetReg imm5 typ rm s) s))

/-- STR, immediate offset (R1696). -/
def execStrImm (cond : BitVec 4) (p : BitVec 1) (u : BitVec 1) (w : BitVec 1) (rn : BitVec 4) (rt : BitVec 4) (imm12 : BitVec 12) (s : State) : Host.Outcome State Fault Refusal :=
  onCond cond s (storeReg 4 true s.privileged p u w rn rt (imm12.setWidth 32) s)

/-- STR, shifted register offset (R1696). -/
def execStrReg (cond : BitVec 4) (p : BitVec 1) (u : BitVec 1) (w : BitVec 1) (rn : BitVec 4) (rt : BitVec 4) (imm5 : BitVec 5) (typ : BitVec 2) (rm : BitVec 4) (s : State) : Host.Outcome State Fault Refusal :=
  onCond cond s (unlessPCOffset rm (storeReg 4 true s.privileged p u w rn rt (offsetReg imm5 typ rm s) s))

/-- LDRB, immediate offset (R1697). -/
def execLdrbImm (cond : BitVec 4) (p : BitVec 1) (u : BitVec 1) (w : BitVec 1) (rn : BitVec 4) (rt : BitVec 4) (imm12 : BitVec 12) (s : State) : Host.Outcome State Fault Refusal :=
  onCond cond s (loadReg 1 id s.privileged p u w rn rt (imm12.setWidth 32) s)

/-- LDRB, shifted register offset (R1697). -/
def execLdrbReg (cond : BitVec 4) (p : BitVec 1) (u : BitVec 1) (w : BitVec 1) (rn : BitVec 4) (rt : BitVec 4) (imm5 : BitVec 5) (typ : BitVec 2) (rm : BitVec 4) (s : State) : Host.Outcome State Fault Refusal :=
  onCond cond s (unlessPCOffset rm (loadReg 1 id s.privileged p u w rn rt (offsetReg imm5 typ rm s) s))

/-- STRB, immediate offset (R1698). -/
def execStrbImm (cond : BitVec 4) (p : BitVec 1) (u : BitVec 1) (w : BitVec 1) (rn : BitVec 4) (rt : BitVec 4) (imm12 : BitVec 12) (s : State) : Host.Outcome State Fault Refusal :=
  onCond cond s (storeReg 1 false s.privileged p u w rn rt (imm12.setWidth 32) s)

/-- STRB, shifted register offset (R1698). -/
def execStrbReg (cond : BitVec 4) (p : BitVec 1) (u : BitVec 1) (w : BitVec 1) (rn : BitVec 4) (rt : BitVec 4) (imm5 : BitVec 5) (typ : BitVec 2) (rm : BitVec 4) (s : State) : Host.Outcome State Fault Refusal :=
  onCond cond s (unlessPCOffset rm (storeReg 1 false s.privileged p u w rn rt (offsetReg imm5 typ rm s) s))

/-- LDRT, immediate offset (R1705). Checked with User permissions. -/
def execLdrtImm (cond : BitVec 4) (u : BitVec 1) (rn : BitVec 4) (rt : BitVec 4) (imm12 : BitVec 12) (s : State) : Host.Outcome State Fault Refusal :=
  onCond cond s (loadReg 4 id false 0 u 1 rn rt (imm12.setWidth 32) s)

/-- LDRT, shifted register offset (R1705). Checked with User permissions. -/
def execLdrtReg (cond : BitVec 4) (u : BitVec 1) (rn : BitVec 4) (rt : BitVec 4) (imm5 : BitVec 5) (typ : BitVec 2) (rm : BitVec 4) (s : State) : Host.Outcome State Fault Refusal :=
  onCond cond s (unlessPCOffset rm (loadReg 4 id false 0 u 1 rn rt (offsetReg imm5 typ rm s) s))

/-- STRT, immediate offset (R1706). Checked with User permissions. -/
def execStrtImm (cond : BitVec 4) (u : BitVec 1) (rn : BitVec 4) (rt : BitVec 4) (imm12 : BitVec 12) (s : State) : Host.Outcome State Fault Refusal :=
  onCond cond s (storeReg 4 false false 0 u 1 rn rt (imm12.setWidth 32) s)

/-- STRT, shifted register offset (R1706). Checked with User permissions. -/
def execStrtReg (cond : BitVec 4) (u : BitVec 1) (rn : BitVec 4) (rt : BitVec 4) (imm5 : BitVec 5) (typ : BitVec 2) (rm : BitVec 4) (s : State) : Host.Outcome State Fault Refusal :=
  onCond cond s (unlessPCOffset rm (storeReg 4 false false 0 u 1 rn rt (offsetReg imm5 typ rm s) s))

/-- LDRBT, immediate offset (R1707). Checked with User permissions. -/
def execLdrbtImm (cond : BitVec 4) (u : BitVec 1) (rn : BitVec 4) (rt : BitVec 4) (imm12 : BitVec 12) (s : State) : Host.Outcome State Fault Refusal :=
  onCond cond s (loadReg 1 id false 0 u 1 rn rt (imm12.setWidth 32) s)

/-- LDRBT, shifted register offset (R1707). Checked with User permissions. -/
def execLdrbtReg (cond : BitVec 4) (u : BitVec 1) (rn : BitVec 4) (rt : BitVec 4) (imm5 : BitVec 5) (typ : BitVec 2) (rm : BitVec 4) (s : State) : Host.Outcome State Fault Refusal :=
  onCond cond s (unlessPCOffset rm (loadReg 1 id false 0 u 1 rn rt (offsetReg imm5 typ rm s) s))

/-- STRBT, immediate offset (R1708). Checked with User permissions. -/
def execStrbtImm (cond : BitVec 4) (u : BitVec 1) (rn : BitVec 4) (rt : BitVec 4) (imm12 : BitVec 12) (s : State) : Host.Outcome State Fault Refusal :=
  onCond cond s (storeReg 1 false false 0 u 1 rn rt (imm12.setWidth 32) s)

/-- STRBT, shifted register offset (R1708). Checked with User permissions. -/
def execStrbtReg (cond : BitVec 4) (u : BitVec 1) (rn : BitVec 4) (rt : BitVec 4) (imm5 : BitVec 5) (typ : BitVec 2) (rm : BitVec 4) (s : State) : Host.Outcome State Fault Refusal :=
  onCond cond s (unlessPCOffset rm (storeReg 1 false false 0 u 1 rn rt (offsetReg imm5 typ rm s) s))

/-- LDRH, immediate offset (R1699). -/
def execLdrhImm (cond : BitVec 4) (p : BitVec 1) (u : BitVec 1) (w : BitVec 1) (rn : BitVec 4) (rt : BitVec 4) (imm4H : BitVec 4) (imm4L : BitVec 4) (s : State) : Host.Outcome State Fault Refusal :=
  onCond cond s (loadReg 2 id s.privileged p u w rn rt (splitImm imm4H imm4L) s)

/-- LDRH, register offset (R1699). -/
def execLdrhReg (cond : BitVec 4) (p : BitVec 1) (u : BitVec 1) (w : BitVec 1) (rn : BitVec 4) (rt : BitVec 4) (rm : BitVec 4) (s : State) : Host.Outcome State Fault Refusal :=
  onCond cond s (unlessPCOffset rm (loadReg 2 id s.privileged p u w rn rt (s.reg rm) s))

/-- STRH, immediate offset (R1700). -/
def execStrhImm (cond : BitVec 4) (p : BitVec 1) (u : BitVec 1) (w : BitVec 1) (rn : BitVec 4) (rt : BitVec 4) (imm4H : BitVec 4) (imm4L : BitVec 4) (s : State) : Host.Outcome State Fault Refusal :=
  onCond cond s (storeReg 2 false s.privileged p u w rn rt (splitImm imm4H imm4L) s)

/-- STRH, register offset (R1700). -/
def execStrhReg (cond : BitVec 4) (p : BitVec 1) (u : BitVec 1) (w : BitVec 1) (rn : BitVec 4) (rt : BitVec 4) (rm : BitVec 4) (s : State) : Host.Outcome State Fault Refusal :=
  onCond cond s (unlessPCOffset rm (storeReg 2 false s.privileged p u w rn rt (s.reg rm) s))

/-- LDRSB, immediate offset (R1701). -/
def execLdrsbImm (cond : BitVec 4) (p : BitVec 1) (u : BitVec 1) (w : BitVec 1) (rn : BitVec 4) (rt : BitVec 4) (imm4H : BitVec 4) (imm4L : BitVec 4) (s : State) : Host.Outcome State Fault Refusal :=
  onCond cond s (loadReg 1 signByte s.privileged p u w rn rt (splitImm imm4H imm4L) s)

/-- LDRSB, register offset (R1701). -/
def execLdrsbReg (cond : BitVec 4) (p : BitVec 1) (u : BitVec 1) (w : BitVec 1) (rn : BitVec 4) (rt : BitVec 4) (rm : BitVec 4) (s : State) : Host.Outcome State Fault Refusal :=
  onCond cond s (unlessPCOffset rm (loadReg 1 signByte s.privileged p u w rn rt (s.reg rm) s))

/-- LDRSH, immediate offset (R1702). -/
def execLdrshImm (cond : BitVec 4) (p : BitVec 1) (u : BitVec 1) (w : BitVec 1) (rn : BitVec 4) (rt : BitVec 4) (imm4H : BitVec 4) (imm4L : BitVec 4) (s : State) : Host.Outcome State Fault Refusal :=
  onCond cond s (loadReg 2 signHalf s.privileged p u w rn rt (splitImm imm4H imm4L) s)

/-- LDRSH, register offset (R1702). -/
def execLdrshReg (cond : BitVec 4) (p : BitVec 1) (u : BitVec 1) (w : BitVec 1) (rn : BitVec 4) (rt : BitVec 4) (rm : BitVec 4) (s : State) : Host.Outcome State Fault Refusal :=
  onCond cond s (unlessPCOffset rm (loadReg 2 signHalf s.privileged p u w rn rt (s.reg rm) s))

/-- LDRD, immediate offset (R1703). -/
def execLdrdImm (cond : BitVec 4) (p : BitVec 1) (u : BitVec 1) (w : BitVec 1) (rn : BitVec 4) (rt : BitVec 4) (imm4H : BitVec 4) (imm4L : BitVec 4) (s : State) : Host.Outcome State Fault Refusal :=
  onCond cond s (loadPair p u w rn rt (splitImm imm4H imm4L) s)

/-- LDRD, register offset (R1703): Rm must not be loaded. -/
def execLdrdReg (cond : BitVec 4) (p : BitVec 1) (u : BitVec 1) (w : BitVec 1) (rn : BitVec 4) (rt : BitVec 4) (rm : BitVec 4) (s : State) : Host.Outcome State Fault Refusal :=
  onCond cond s (if rm = 15 ∨ rm = rt ∨ rm = rt + 1 then .fault .operands else loadPair p u w rn rt (s.reg rm) s)

/-- STRD, immediate offset (R1704). -/
def execStrdImm (cond : BitVec 4) (p : BitVec 1) (u : BitVec 1) (w : BitVec 1) (rn : BitVec 4) (rt : BitVec 4) (imm4H : BitVec 4) (imm4L : BitVec 4) (s : State) : Host.Outcome State Fault Refusal :=
  onCond cond s (storePair p u w rn rt (splitImm imm4H imm4L) s)

/-- STRD, register offset (R1704). -/
def execStrdReg (cond : BitVec 4) (p : BitVec 1) (u : BitVec 1) (w : BitVec 1) (rn : BitVec 4) (rt : BitVec 4) (rm : BitVec 4) (s : State) : Host.Outcome State Fault Refusal :=
  onCond cond s (unlessPCOffset rm (storePair p u w rn rt (s.reg rm) s))

/-- LDRHT, immediate offset (R1709). Checked with User permissions. -/
def execLdrhtImm (cond : BitVec 4) (u : BitVec 1) (rn : BitVec 4) (rt : BitVec 4) (imm4H : BitVec 4) (imm4L : BitVec 4) (s : State) : Host.Outcome State Fault Refusal :=
  onCond cond s (loadReg 2 id false 0 u 1 rn rt (splitImm imm4H imm4L) s)

/-- LDRHT, register offset (R1709). Checked with User permissions. -/
def execLdrhtReg (cond : BitVec 4) (u : BitVec 1) (rn : BitVec 4) (rt : BitVec 4) (rm : BitVec 4) (s : State) : Host.Outcome State Fault Refusal :=
  onCond cond s (unlessPCOffset rm (loadReg 2 id false 0 u 1 rn rt (s.reg rm) s))

/-- STRHT, immediate offset (R1710). Checked with User permissions. -/
def execStrhtImm (cond : BitVec 4) (u : BitVec 1) (rn : BitVec 4) (rt : BitVec 4) (imm4H : BitVec 4) (imm4L : BitVec 4) (s : State) : Host.Outcome State Fault Refusal :=
  onCond cond s (storeReg 2 false false 0 u 1 rn rt (splitImm imm4H imm4L) s)

/-- STRHT, register offset (R1710). Checked with User permissions. -/
def execStrhtReg (cond : BitVec 4) (u : BitVec 1) (rn : BitVec 4) (rt : BitVec 4) (rm : BitVec 4) (s : State) : Host.Outcome State Fault Refusal :=
  onCond cond s (unlessPCOffset rm (storeReg 2 false false 0 u 1 rn rt (s.reg rm) s))

/-- LDRSBT, immediate offset (R1711). Checked with User permissions. -/
def execLdrsbtImm (cond : BitVec 4) (u : BitVec 1) (rn : BitVec 4) (rt : BitVec 4) (imm4H : BitVec 4) (imm4L : BitVec 4) (s : State) : Host.Outcome State Fault Refusal :=
  onCond cond s (loadReg 1 signByte false 0 u 1 rn rt (splitImm imm4H imm4L) s)

/-- LDRSBT, register offset (R1711). Checked with User permissions. -/
def execLdrsbtReg (cond : BitVec 4) (u : BitVec 1) (rn : BitVec 4) (rt : BitVec 4) (rm : BitVec 4) (s : State) : Host.Outcome State Fault Refusal :=
  onCond cond s (unlessPCOffset rm (loadReg 1 signByte false 0 u 1 rn rt (s.reg rm) s))

/-- LDRSHT, immediate offset (R1712). Checked with User permissions. -/
def execLdrshtImm (cond : BitVec 4) (u : BitVec 1) (rn : BitVec 4) (rt : BitVec 4) (imm4H : BitVec 4) (imm4L : BitVec 4) (s : State) : Host.Outcome State Fault Refusal :=
  onCond cond s (loadReg 2 signHalf false 0 u 1 rn rt (splitImm imm4H imm4L) s)

/-- LDRSHT, register offset (R1712). Checked with User permissions. -/
def execLdrshtReg (cond : BitVec 4) (u : BitVec 1) (rn : BitVec 4) (rt : BitVec 4) (rm : BitVec 4) (s : State) : Host.Outcome State Fault Refusal :=
  onCond cond s (unlessPCOffset rm (loadReg 2 signHalf false 0 u 1 rn rt (s.reg rm) s))

/-- LDM (R1715). -/
def execLdm (cond : BitVec 4) (p : BitVec 1) (u : BitVec 1) (w : BitVec 1) (rn : BitVec 4) (regs : BitVec 16) (s : State) : Host.Outcome State Fault Refusal :=
  onCond cond s (loadMultiple p u w rn regs s)

/-- STM (R1716). -/
def execStm (cond : BitVec 4) (p : BitVec 1) (u : BitVec 1) (w : BitVec 1) (rn : BitVec 4) (regs : BitVec 16) (s : State) : Host.Outcome State Fault Refusal :=
  onCond cond s (storeMultiple s.mode p u w rn regs s)

/-- POP of two or more registers (R1717): LDMIA sp!. -/
def execPopMulti (cond : BitVec 4) (regs : BitVec 16) (s : State) : Host.Outcome State Fault Refusal :=
  onCond cond s (loadMultiple 0 1 1 13 regs s)

/-- PUSH of two or more registers (R1717): STMDB sp!. -/
def execPushMulti (cond : BitVec 4) (regs : BitVec 16) (s : State) : Host.Outcome State Fault Refusal :=
  onCond cond s (storeMultiple s.mode 1 0 1 13 regs s)

/-- LDM of the User-mode registers (R1718). -/
def execLdmUser (cond : BitVec 4) (p : BitVec 1) (u : BitVec 1) (rn : BitVec 4) (regs : BitVec 15) (s : State) : Host.Outcome State Fault Refusal :=
  onCond cond s (unlessUserSystem s (loadBlock .usr p u 0 rn (regList regs) s fun _ s' => .next s'.advance))

/-- LDM with exception return (R1719): CPSR comes from the SPSR of the mode. -/
def execLdmExcRet (cond : BitVec 4) (p : BitVec 1) (u : BitVec 1) (w : BitVec 1) (rn : BitVec 4) (regs : BitVec 15) (s : State) : Host.Outcome State Fault Refusal :=
  onCond cond s (match s.spsr? with
    | none => .fault .operands
    | some spsr => loadBlock s.mode p u w rn (regList (1#1 ++ regs)) s fun pc s' =>
        exceptionReturn s' spsr (pc.getD 0))

/-- STM of the User-mode registers (R1720). -/
def execStmUser (cond : BitVec 4) (p : BitVec 1) (u : BitVec 1) (rn : BitVec 4) (regs : BitVec 16) (s : State) : Host.Outcome State Fault Refusal :=
  onCond cond s (unlessUserSystem s (storeMultiple .usr p u 0 rn regs s))

/-- SWP (R1730). -/
def execSwp (cond : BitVec 4) (rn : BitVec 4) (rt : BitVec 4) (rt2 : BitVec 4) (s : State) : Host.Outcome State Fault Refusal :=
  onCond cond s (swapData 4 rn rt rt2 s)

/-- SWPB (R1731). -/
def execSwpb (cond : BitVec 4) (rn : BitVec 4) (rt : BitVec 4) (rt2 : BitVec 4) (s : State) : Host.Outcome State Fault Refusal :=
  onCond cond s (swapData 1 rn rt rt2 s)

/-- LDREX (R1732). -/
def execLdrex (cond : BitVec 4) (rn : BitVec 4) (rt : BitVec 4) (s : State) : Host.Outcome State Fault Refusal :=
  onCond cond s (loadExReg 4 rn rt s)

/-- LDREXB (R1733). -/
def execLdrexb (cond : BitVec 4) (rn : BitVec 4) (rt : BitVec 4) (s : State) : Host.Outcome State Fault Refusal :=
  onCond cond s (loadExReg 1 rn rt s)

/-- LDREXH (R1734). -/
def execLdrexh (cond : BitVec 4) (rn : BitVec 4) (rt : BitVec 4) (s : State) : Host.Outcome State Fault Refusal :=
  onCond cond s (loadExReg 2 rn rt s)

/-- LDREXD (R1735): Rt from the lower address, Rt + 1 from the higher. -/
def execLdrexd (cond : BitVec 4) (rn : BitVec 4) (rt : BitVec 4) (s : State) : Host.Outcome State Fault Refusal :=
  onCond cond s (if badPair rt then .fault .operands
    else finish (loadExclusive 8 (s.reg rn) s) fun bytes s' =>
      .next ((s'.setReg rt (assemble (s.cpsr.getLsbD 9) (bytes.take 4))).setReg (rt + 1)
        (assemble (s.cpsr.getLsbD 9) (bytes.drop 4))).advance)

/-- STREX (R1736). -/
def execStrex (cond : BitVec 4) (rn : BitVec 4) (rd : BitVec 4) (rt : BitVec 4) (s : State) : Host.Outcome State Fault Refusal :=
  onCond cond s (storeExReg 4 rn rd rt s)

/-- STREXB (R1737). -/
def execStrexb (cond : BitVec 4) (rn : BitVec 4) (rd : BitVec 4) (rt : BitVec 4) (s : State) : Host.Outcome State Fault Refusal :=
  onCond cond s (storeExReg 1 rn rd rt s)

/-- STREXH (R1738). -/
def execStrexh (cond : BitVec 4) (rn : BitVec 4) (rd : BitVec 4) (rt : BitVec 4) (s : State) : Host.Outcome State Fault Refusal :=
  onCond cond s (storeExReg 2 rn rd rt s)

/-- STREXD (R1739). -/
def execStrexd (cond : BitVec 4) (rn : BitVec 4) (rd : BitVec 4) (rt : BitVec 4) (s : State) : Host.Outcome State Fault Refusal :=
  onCond cond s (if badPair rt ∨ rd = rn ∨ rd = rt ∨ rd = rt + 1 then .fault .operands
    else
      let e := s.cpsr.getLsbD 9
      finish (storeExclusive 8 (s.reg rn) (disassemble e 4 (s.reg rt) ++ disassemble e 4 (s.reg (rt + 1))) s) fun v s' =>
        .next (writeStatus rd v s'))

/-- CLREX (R1740): the monitor becomes open. -/
def execClrex (s : State) : Host.Outcome State Fault Refusal :=
  .next { s with excl := none }.advance

/-- PLI, immediate (R1726): no effect. -/
def execPliImm (_u : BitVec 1) (_rn : BitVec 4) (_imm12 : BitVec 12) (s : State) : Host.Outcome State Fault Refusal :=
  .next s.advance

/-- PLI, register (R1726): no effect. With Rm = 15, which
R1693 lists as Unpredictable and R1725 to R1727 give no effect to look at, it is the same: DESIGN CHOICE, log 59. -/
def execPliReg (_u : BitVec 1) (_rn : BitVec 4) (_imm5 : BitVec 5) (_typ : BitVec 2) (_rm : BitVec 4) (s : State) : Host.Outcome State Fault Refusal :=
  .next s.advance

/-- PLD, immediate (R1725): no architectural effect; an allocation in L2 is a scheduled event. -/
def execPldImm (_u : BitVec 1) (_rn : BitVec 4) (_imm12 : BitVec 12) (s : State) : Host.Outcome State Fault Refusal :=
  .next s.advance

/-- PLD, register (R1725): no architectural effect; an allocation in L2 is a scheduled event. With Rm = 15, which
R1693 lists as Unpredictable and R1725 to R1727 give no effect to look at, it is the same: DESIGN CHOICE, log 59. -/
def execPldReg (_u : BitVec 1) (_rn : BitVec 4) (_imm5 : BitVec 5) (_typ : BitVec 2) (_rm : BitVec 4) (s : State) : Host.Outcome State Fault Refusal :=
  .next s.advance

/-- PLDW, immediate (R1727): no effect. -/
def execPldwImm (_u : BitVec 1) (_rn : BitVec 4) (_imm12 : BitVec 12) (s : State) : Host.Outcome State Fault Refusal :=
  .next s.advance

/-- PLDW, register (R1727): no effect. With Rm = 15, which
R1693 lists as Unpredictable and R1725 to R1727 give no effect to look at, it is the same: DESIGN CHOICE, log 59. -/
def execPldwReg (_u : BitVec 1) (_rn : BitVec 4) (_imm5 : BitVec 5) (_typ : BitVec 2) (_rm : BitVec 4) (s : State) : Host.Outcome State Fault Refusal :=
  .next s.advance

/-- Unallocated memory hint, immediate form (R1386): no effect. -/
def execMemHintImm (_u : BitVec 1) (_lo : BitVec 20) (s : State) : Host.Outcome State Fault Refusal :=
  .next s.advance

/-- Unallocated memory hint, register form (R1386): no effect. -/
def execMemHintReg (_u : BitVec 1) (_mid : BitVec 15) (_lo : BitVec 4) (s : State) : Host.Outcome State Fault Refusal :=
  .next s.advance

end Sys2Proof.Machine
end

