-- ==== Sys2Proof/Machine/Coprocessor.lean ====
section
/-! DEFINITION. Coprocessor 14, the NEON/VFP system registers, and the classes of words of absent coprocessors and of
instruction sets the spec does not supply (41_cp14_vfp_sysreg_instructions.md; 45_branch_system.md R1800 to R1803;
46_other_isa.md R1857 to R1862). -/

namespace Sys2Proof.Machine

/-! ## CP14 (R1550 to R1574) -/

/-- DSCR read by CP14: the latched flags and the unused bits [23:22] and [9] are free values (R1558, R660). -/
def dscrByCp14 (s : State) : Word := dscrView s ||| (s.draw &&& 0x0DC00200)

/-- The debug registers may be used (R1551). -/
def State.p14Open (s : State) : Bool := s.halted || s.privileged || !s.dbg.dscr.getLsbD 12

/-- The value of DTRRX: any, unless DTRRXfull is set (R1560). -/
def dtrRead (s : State) : Word := if s.dbg.dscr.getLsbD 30 then s.dbg.dtrrx else s.draw

/-- DTRRX has been read. -/
def State.dtrTaken (s : State) : State := { s with dbg := { s.dbg with dscr := setBit s.dbg.dscr 30 false } }

/-- DTRTX written (R1561). -/
def State.dtrGiven (s : State) (v : Word) : State :=
  { s with dbg := { s.dbg with dtrtx := v, dscr := setBit s.dbg.dscr 29 true } }

/-- A debug address register: an address and two valid bits (R1556, R1557). -/
def debugAddress (a : BitVec 20) (valid : Bool) : Word := a ++ 0#10 ++ bit valid ++ bit valid

/-- The address of LDC and STC (R1562): the base itself when P = 0. As a base r15 is the address of the instruction plus 8,
which is word-aligned but for an instruction that the ITR issues in a debug state entered from Thumb state; there it is not
rounded down (R1562 does not say that it is), and the access takes the Alignment fault: DESIGN CHOICE, log 54. -/
def dtrAddress (p u : BitVec 1) (rn : BitVec 4) (imm8 : BitVec 8) (s : State) : Word :=
  effAddress p u rn ((imm8 ++ 0#2).setWidth 32) s

/-- Write-back of LDC and STC. -/
def dtrBack (u w : BitVec 1) (rn : BitVec 4) (imm8 : BitVec 8) (s : State) : State :=
  if w = 1 then s.setReg rn (plusMinus u (s.reg rn) ((imm8 ++ 0#2).setWidth 32)) else s

/-- LDC and STC to the DTR, once they may go on; write-back to r15 is Unpredictable (44_load_store.md R1693). -/
def withDtr (cond : BitVec 4) (w : BitVec 1) (rn : BitVec 4) (s : State) (effect : Host.Outcome State Fault Refusal) :
    Host.Outcome State Fault Refusal :=
  onCond cond s (
    if !s.p14Open then .next (takeUndefined s)
    else if w = 1 ∧ rn = 15 then .fault .operands
    else effect)

/-! ## The gate of coprocessors 10 and 11 (45_branch_system.md R1803) -/

/-- A CPACR field lets an instruction through; the reserved value 0b10 does not (12_cp15_control.md R259). -/
def cpacrAdmits (f : BitVec 2) (s : State) : Bool := f == 0b11 || (f == 0b01 && s.privileged)

/-- The build has the unit, which is up (D27), and CPACR and NSACR admit NEON and VFP. -/
def State.vfpOpen (s : State) : Bool :=
  s.build.hasNeon && s.vfp.neonUp && cpacrAdmits (s.sys.cpacr.extractLsb' 20 2) s && cpacrAdmits (s.sys.cpacr.extractLsb' 22 2) s &&
    (s.secure || (s.sys.nsacr.getLsbD 10 && s.sys.nsacr.getLsbD 11))

/-- FPEXC.EN. -/
def State.vfpEnabled (s : State) : Bool := s.vfp.fpexc.getLsbD 30

/-- VMRS: r15 as the destination is Unpredictable but for FMSTAT. -/
def readVfp (cond rt : BitVec 4) (ok : Bool) (v : Word) (s : State) : Host.Outcome State Fault Refusal :=
  onCond cond s (
    if !(s.vfpOpen && ok) then .next (takeUndefined s)
    else if rt = 15 then .fault .operands
    else .next (s.setReg rt v).advance)

/-- VMSR. -/
def writeVfp (cond rt : BitVec 4) (ok : Bool) (s : State) (effect : Word → State) : Host.Outcome State Fault Refusal :=
  onCond cond s (
    if !(s.vfpOpen && ok) then .next (takeUndefined s)
    else if rt = 15 then .fault .operands
    else .next (effect (s.reg rt)).advance)

/-- The gates of the VMRS or VMSR that names register `reg`: FPSCR needs FPEXC.EN, FPSID, MVFR0, MVFR1 and FPEXC a privileged
mode (R1803, 18_neon_vfp_state.md R846). -/
def State.vfpRegOpen (s : State) (reg : BitVec 4) : Bool :=
  s.vfpOpen && (if [0, 6, 7, 8].contains reg then s.privileged else s.vfpEnabled)

/-- NEON and VFP instructions other than VMRS and VMSR: Undefined behind a closed gate, else the spec does not supply
them (46_other_isa.md R1857, R1862; D15). -/
def neonVfp (s : State) : Host.Outcome State Fault Refusal :=
  if s.vfpOpen && s.vfpEnabled then .refused .neonVfpInstruction else .next (takeUndefined s)

/-- MRC of DSCR to the flags (R1559). -/
def execMrcDscrFlags (cond : BitVec 4) (s : State) : Host.Outcome State Fault Refusal :=
  readSys cond 15 s.p14Open (dscrView s) s

/-- MRC of DIDR (R1555). -/
def execMrcDidr (cond : BitVec 4) (rt : BitVec 4) (s : State) : Host.Outcome State Fault Refusal :=
  readSys cond rt s.p14Open s.build.revision.didr s

/-- MRC of DRAR (R1556). -/
def execMrcDrar (cond : BitVec 4) (rt : BitVec 4) (s : State) : Host.Outcome State Fault Refusal :=
  readSys cond rt s.p14Open (debugAddress Config.dbgromaddr Config.dbgromaddrv) s

/-- MRC of DSAR (R1557). -/
def execMrcDsar (cond : BitVec 4) (rt : BitVec 4) (s : State) : Host.Outcome State Fault Refusal :=
  readSys cond rt s.p14Open (debugAddress Config.dbgselfaddr Config.dbgselfaddrv) s

/-- MRC of DSCR (R1558). -/
def execMrcDscr (cond : BitVec 4) (rt : BitVec 4) (s : State) : Host.Outcome State Fault Refusal :=
  onCond cond s (.next (if s.p14Open then (s.drawn.receive rt (dscrByCp14 s)).advance else takeUndefined s))

/-- MRC of the DTR: DTRRX (R1560). -/
def execMrcDtr (cond : BitVec 4) (rt : BitVec 4) (s : State) : Host.Outcome State Fault Refusal :=
  onCond cond s (.next (
    if s.p14Open then (s.drawn.dtrTaken.receive rt (dtrRead s)).advance else takeUndefined s))

/-- MCR of the DTR: DTRTX (R1561). -/
def execMcrDtr (cond : BitVec 4) (rt : BitVec 4) (s : State) : Host.Outcome State Fault Refusal :=
  writeSys cond rt s.p14Open s fun v => s.dtrGiven v

/-- MRC of TEECR (R1565). -/
def execMrcTeecr (cond : BitVec 4) (rt : BitVec 4) (s : State) : Host.Outcome State Fault Refusal :=
  readSys cond rt s.sysUser s.sys.teecr s

/-- MCR of TEECR (R1566). -/
def execMcrTeecr (cond : BitVec 4) (rt : BitVec 4) (s : State) : Host.Outcome State Fault Refusal :=
  writeSys cond rt s.sysPriv s fun v => { s with sys := { s.sys with teecr := v &&& 1 } }

/-- MRC of TEEHBR (R1567). -/
def execMrcTeehbr (cond : BitVec 4) (rt : BitVec 4) (s : State) : Host.Outcome State Fault Refusal :=
  readSys cond rt (s.sysPriv || (s.sysUser && !s.sys.teecr.getLsbD 0)) s.sys.teehbr s

/-- MCR of TEEHBR (R1568). -/
def execMcrTeehbr (cond : BitVec 4) (rt : BitVec 4) (s : State) : Host.Outcome State Fault Refusal :=
  writeSys cond rt (s.sysPriv || (s.sysUser && !s.sys.teecr.getLsbD 0)) s fun v => { s with sys := { s.sys with teehbr := v &&& 0xFFFFFFFC } }

/-- MRC of JIDR: zero (R1570). -/
def execMrcJidr (cond : BitVec 4) (rt : BitVec 4) (s : State) : Host.Outcome State Fault Refusal :=
  readSys cond rt s.sysUser 0 s

/-- MRC of JOSCR: zero (R1571). -/
def execMrcJoscr (cond : BitVec 4) (rt : BitVec 4) (s : State) : Host.Outcome State Fault Refusal :=
  readSys cond rt s.sysPriv 0 s

/-- MCR of JOSCR: no effect (R1572). -/
def execMcrJoscr (cond : BitVec 4) (rt : BitVec 4) (s : State) : Host.Outcome State Fault Refusal :=
  writeSys cond rt s.sysPriv s fun _ => s

/-- MRC of JMCR: zero; Undefined in User mode (R1573). -/
def execMrcJmcr (cond : BitVec 4) (rt : BitVec 4) (s : State) : Host.Outcome State Fault Refusal :=
  readSys cond rt s.sysPriv 0 s

/-- MCR of JMCR: no effect (R1574). -/
def execMcrJmcr (cond : BitVec 4) (rt : BitVec 4) (s : State) : Host.Outcome State Fault Refusal :=
  writeSys cond rt s.sysUser s fun _ => s

/-- LDC p14, c5: memory to DTRTX (R1562). -/
def execLdcDtr (cond : BitVec 4) (p : BitVec 1) (u : BitVec 1) (w : BitVec 1) (rn : BitVec 4) (imm8 : BitVec 8) (s : State) : Host.Outcome State Fault Refusal :=
  withDtr cond w rn s (
    finish (readData (alignedReq 4 s.privileged false) (dtrAddress p u rn imm8 s) s) fun v s' =>
      .next ((dtrBack u w rn imm8 s').dtrGiven v).advance)

/-- STC p14, c5: DTRRX to memory (R1562). -/
def execStcDtr (cond : BitVec 4) (p : BitVec 1) (u : BitVec 1) (w : BitVec 1) (rn : BitVec 4) (imm8 : BitVec 8) (s : State) : Host.Outcome State Fault Refusal :=
  withDtr cond w rn s (
    finish (writeData (alignedReq 4 s.privileged true) (dtrAddress p u rn imm8 s) (dtrRead s) s.drawn) fun _ s' =>
      .next (dtrBack u w rn imm8 s').dtrTaken.advance)

/-- Any other CP14 debug register transfer: Undefined (R1563). -/
def execP14DebugOther (cond : BitVec 4) (_l : BitVec 1) (_cRn : BitVec 4) (_rt : BitVec 4) (_opc2 : BitVec 3) (_cRm : BitVec 4) (s : State) : Host.Outcome State Fault Refusal :=
  onCond cond s (.next (takeUndefined s))

/-- Any other ThumbEE register transfer: Undefined (R1569). -/
def execP14TeeOther (cond : BitVec 4) (_l : BitVec 1) (_cRn : BitVec 4) (_rt : BitVec 4) (_opc2 : BitVec 3) (_cRm : BitVec 4) (s : State) : Host.Outcome State Fault Refusal :=
  onCond cond s (.next (takeUndefined s))

/-- Any other CP14 register transfer: Undefined (R1550). -/
def execP14Other (cond : BitVec 4) (_opc1 : BitVec 3) (_l : BitVec 1) (_cRn : BitVec 4) (_rt : BitVec 4) (_opc2 : BitVec 3) (_cRm : BitVec 4) (s : State) : Host.Outcome State Fault Refusal :=
  onCond cond s (.next (takeUndefined s))

/-! ## NEON/VFP system registers (R1580 to R1590) -/

/-- VMRS of the FPSCR flags, FMSTAT (R1585). -/
def execFmstat (cond : BitVec 4) (s : State) : Host.Outcome State Fault Refusal :=
  onCond cond s (.next (
    if s.vfpOpen && s.vfpEnabled then (s.receive 15 s.vfp.fpscr).advance else takeUndefined s))

/-- VMRS of FPSID (R1582). -/
def execVmrsFpsid (cond : BitVec 4) (rt : BitVec 4) (s : State) : Host.Outcome State Fault Refusal :=
  readVfp cond rt s.privileged s.build.revision.fpsid s

/-- VMSR of FPSID: no effect (R1583). -/
def execVmsrFpsid (cond : BitVec 4) (rt : BitVec 4) (s : State) : Host.Outcome State Fault Refusal :=
  writeVfp cond rt s.privileged s fun _ => s

/-- VMRS of FPSCR (R1584). -/
def execVmrsFpscr (cond : BitVec 4) (rt : BitVec 4) (s : State) : Host.Outcome State Fault Refusal :=
  readVfp cond rt s.vfpEnabled s.vfp.fpscr s

/-- VMSR of FPSCR (R1586). -/
def execVmsrFpscr (cond : BitVec 4) (rt : BitVec 4) (s : State) : Host.Outcome State Fault Refusal :=
  writeVfp cond rt s.vfpEnabled s fun v => { s with vfp := { s.vfp with fpscr := v &&& 0xFFFF60FF } }

/-- VMRS of MVFR1 (R1587). -/
def execVmrsMvfr1 (cond : BitVec 4) (rt : BitVec 4) (s : State) : Host.Outcome State Fault Refusal :=
  readVfp cond rt s.privileged Config.mvfr1 s

/-- VMSR of MVFR1: no effect (R1587). -/
def execVmsrMvfr1 (cond : BitVec 4) (rt : BitVec 4) (s : State) : Host.Outcome State Fault Refusal :=
  writeVfp cond rt s.privileged s fun _ => s

/-- VMRS of MVFR0 (R1588). -/
def execVmrsMvfr0 (cond : BitVec 4) (rt : BitVec 4) (s : State) : Host.Outcome State Fault Refusal :=
  readVfp cond rt s.privileged Config.mvfr0 s

/-- VMSR of MVFR0: no effect (R1588). -/
def execVmsrMvfr0 (cond : BitVec 4) (rt : BitVec 4) (s : State) : Host.Outcome State Fault Refusal :=
  writeVfp cond rt s.privileged s fun _ => s

/-- VMRS of FPEXC (R1589). -/
def execVmrsFpexc (cond : BitVec 4) (rt : BitVec 4) (s : State) : Host.Outcome State Fault Refusal :=
  readVfp cond rt s.privileged s.vfp.fpexc s

/-- VMSR of FPEXC: EN only (R1590). -/
def execVmsrFpexc (cond : BitVec 4) (rt : BitVec 4) (s : State) : Host.Outcome State Fault Refusal :=
  writeVfp cond rt s.privileged s fun v => { s with vfp := { s.vfp with fpexc := v &&& 0x40000000 } }

/-- VMRS and VMSR of any other register: Undefined (R1580). -/
def execVfpSysOther (cond : BitVec 4) (_l : BitVec 1) (_reg : BitVec 4) (_rt : BitVec 4) (s : State) : Host.Outcome State Fault Refusal :=
  onCond cond s (.next (takeUndefined s))

/-! ## Classes of words -/

/-- Advanced SIMD data processing (46_other_isa.md R1857). -/
def execAsimdData (_bits : BitVec 25) (s : State) : Host.Outcome State Fault Refusal :=
  neonVfp s

/-- Advanced SIMD element and structure loads and stores (R1857). -/
def execAsimdLoadStore (_hi : BitVec 3) (_lo : BitVec 20) (s : State) : Host.Outcome State Fault Refusal :=
  neonVfp s

/-- VFP data processing (R1862). -/
def execVfpData (cond : BitVec 4) (_hi : BitVec 12) (_mid : BitVec 4) (_lo : BitVec 4) (s : State) : Host.Outcome State Fault Refusal :=
  onCond cond s (neonVfp s)

/-- Transfers between core and extension registers (R1862). -/
def execVfpTransfer (cond : BitVec 4) (_hi : BitVec 12) (_mid : BitVec 4) (_lo : BitVec 4) (s : State) : Host.Outcome State Fault Refusal :=
  onCond cond s (neonVfp s)

/-- Extension register loads, stores and 64-bit transfers (R1862). -/
def execVfpLoadStore (cond : BitVec 4) (_hi : BitVec 13) (_lo : BitVec 9) (s : State) : Host.Outcome State Fault Refusal :=
  onCond cond s (neonVfp s)

/-- LDC2, STC2, MCRR2 and MRRC2: Undefined (45_branch_system.md R1802). -/
def execCoproc2LoadStore (_bits : BitVec 25) (s : State) : Host.Outcome State Fault Refusal :=
  .next (takeUndefined s)

/-- CDP2, MCR2 and MRC2: Undefined (R1802). -/
def execCoproc2Reg (_bits : BitVec 24) (s : State) : Host.Outcome State Fault Refusal :=
  .next (takeUndefined s)

/-- An unallocated unconditional word: Undefined (30_encoding.md R1385). -/
def execUncondOther (_bits : BitVec 28) (s : State) : Host.Outcome State Fault Refusal :=
  .next (takeUndefined s)

/-- MCR to another coprocessor: Undefined (45_branch_system.md R1800). -/
def execMcrOther (cond : BitVec 4) (_opc1 : BitVec 3) (_cRn : BitVec 4) (_rt : BitVec 4) (_coproc : BitVec 4) (_opc2 : BitVec 3) (_cRm : BitVec 4) (s : State) : Host.Outcome State Fault Refusal :=
  onCond cond s (.next (takeUndefined s))

/-- MRC from another coprocessor: Undefined (R1801). -/
def execMrcOther (cond : BitVec 4) (_opc1 : BitVec 3) (_cRn : BitVec 4) (_rt : BitVec 4) (_coproc : BitVec 4) (_opc2 : BitVec 3) (_cRm : BitVec 4) (s : State) : Host.Outcome State Fault Refusal :=
  onCond cond s (.next (takeUndefined s))

/-- CDP to another coprocessor: Undefined (R1802). -/
def execCdpAny (cond : BitVec 4) (_opc1 : BitVec 4) (_cRn : BitVec 4) (_cRd : BitVec 4) (_coproc : BitVec 4) (_opc2 : BitVec 3) (_cRm : BitVec 4) (s : State) : Host.Outcome State Fault Refusal :=
  onCond cond s (.next (takeUndefined s))

/-- MCRR: Undefined (R1802). -/
def execMcrrAny (cond : BitVec 4) (_rt2 : BitVec 4) (_rt : BitVec 4) (_coproc : BitVec 4) (_opc1 : BitVec 4) (_cRm : BitVec 4) (s : State) : Host.Outcome State Fault Refusal :=
  onCond cond s (.next (takeUndefined s))

/-- MRRC: Undefined (R1802). -/
def execMrrcAny (cond : BitVec 4) (_rt2 : BitVec 4) (_rt : BitVec 4) (_coproc : BitVec 4) (_opc1 : BitVec 4) (_cRm : BitVec 4) (s : State) : Host.Outcome State Fault Refusal :=
  onCond cond s (.next (takeUndefined s))

/-- LDC and STC of another coprocessor or register: Undefined (R1802). -/
def execLdcStcOther (cond : BitVec 4) (_p : BitVec 1) (_u : BitVec 1) (_d : BitVec 1) (_w : BitVec 1) (_l : BitVec 1) (_rn : BitVec 4) (_cRd : BitVec 4) (_coproc : BitVec 4) (_imm8 : BitVec 8) (s : State) : Host.Outcome State Fault Refusal :=
  onCond cond s (.next (takeUndefined s))

end Sys2Proof.Machine
end

