-- ==== Sys2Proof/Machine/ArrayOps.lean ====
section
/-! DEFINITION. CP15 c15: the data registers and the array operations (48_cp15_instructions_c10_c15.md R2525 to R2565;
15_cp15_c15.md R570 to R602). -/

namespace Sys2Proof.Machine

/-- The right to c15: Secure privileged, with CP15SDISABLE LOW, for reads and writes (11_cp15_id.md R155, R160). -/
def State.arrayOpen (s : State) : Bool := s.sysSecure && !s.pins.cp15sdisable

/-- An array write changes RAM behind the maintenance rules: the spec has the model refuse it (15_cp15_c15.md R571). -/
def arrayWrite (cond rt : BitVec 4) (s : State) : Host.Outcome State Fault Refusal :=
  withSys cond rt s.arrayOpen s fun _ => .refused .arrayWrite

/-- An array read loads data registers with any values (R571). -/
def arrayRead (cond rt : BitVec 4) (s : State) (load : Word → Word → Word → SysRegs) :
    Host.Outcome State Fault Refusal :=
  writeSys cond rt s.arrayOpen s fun _ =>
    let s1 := s.drawn
    let s2 := s1.drawn
    { s2.drawn with sys := load s.draw s1.draw s2.draw }

/-- MRC of the D-L1 Data 0 Register (R2525). -/
def execMrcDl1Data0 (cond : BitVec 4) (rt : BitVec 4) (s : State) : Host.Outcome State Fault Refusal :=
  readSys cond rt s.arrayOpen s.sys.dl1d0 s

/-- MCR of the D-L1 Data 0 Register (R2525). -/
def execMcrDl1Data0 (cond : BitVec 4) (rt : BitVec 4) (s : State) : Host.Outcome State Fault Refusal :=
  writeSys cond rt s.arrayOpen s fun v => { s with sys := { s.sys with dl1d0 := v } }

/-- MRC of the D-L1 Data 1 Register (R2526). -/
def execMrcDl1Data1 (cond : BitVec 4) (rt : BitVec 4) (s : State) : Host.Outcome State Fault Refusal :=
  readSys cond rt s.arrayOpen s.sys.dl1d1 s

/-- MCR of the D-L1 Data 1 Register (R2526). -/
def execMcrDl1Data1 (cond : BitVec 4) (rt : BitVec 4) (s : State) : Host.Outcome State Fault Refusal :=
  writeSys cond rt s.arrayOpen s fun v => { s with sys := { s.sys with dl1d1 := v } }

/-- D-TLB CAM write operation (R2527). -/
def execMcrDtlbCamWrite (cond : BitVec 4) (rt : BitVec 4) (s : State) : Host.Outcome State Fault Refusal :=
  arrayWrite cond rt s

/-- D-TLB ATTR write operation (R2528). -/
def execMcrDtlbAttrWrite (cond : BitVec 4) (rt : BitVec 4) (s : State) : Host.Outcome State Fault Refusal :=
  arrayWrite cond rt s

/-- D-TLB PA write operation (R2529). -/
def execMcrDtlbPaWrite (cond : BitVec 4) (rt : BitVec 4) (s : State) : Host.Outcome State Fault Refusal :=
  arrayWrite cond rt s

/-- D-HVAB write operation (R2530). -/
def execMcrDhvabWrite (cond : BitVec 4) (rt : BitVec 4) (s : State) : Host.Outcome State Fault Refusal :=
  arrayWrite cond rt s

/-- D-Tag write operation (R2531). -/
def execMcrDtagWrite (cond : BitVec 4) (rt : BitVec 4) (s : State) : Host.Outcome State Fault Refusal :=
  arrayWrite cond rt s

/-- D-Data write operation (R2532). -/
def execMcrDdataWrite (cond : BitVec 4) (rt : BitVec 4) (s : State) : Host.Outcome State Fault Refusal :=
  arrayWrite cond rt s

/-- D-TLB CAM read operation (R2533). -/
def execMcrDtlbCamRead (cond : BitVec 4) (rt : BitVec 4) (s : State) : Host.Outcome State Fault Refusal :=
  arrayRead cond rt s fun a b _ => { s.sys with dl1d0 := a, dl1d1 := b }

/-- D-TLB ATTR read operation (R2534). Data 1 becomes free too, where R570 uses Data 0 only: DESIGN CHOICE, log 24. -/
def execMcrDtlbAttrRead (cond : BitVec 4) (rt : BitVec 4) (s : State) : Host.Outcome State Fault Refusal :=
  arrayRead cond rt s fun a b _ => { s.sys with dl1d0 := a, dl1d1 := b }

/-- D-TLB PA read operation (R2535). Data 1 becomes free too, where R570 uses Data 0 only: DESIGN CHOICE, log 24. -/
def execMcrDtlbPaRead (cond : BitVec 4) (rt : BitVec 4) (s : State) : Host.Outcome State Fault Refusal :=
  arrayRead cond rt s fun a b _ => { s.sys with dl1d0 := a, dl1d1 := b }

/-- D-HVAB read operation (R2536). Data 1 becomes free too, where R570 uses Data 0 only: DESIGN CHOICE, log 24. -/
def execMcrDhvabRead (cond : BitVec 4) (rt : BitVec 4) (s : State) : Host.Outcome State Fault Refusal :=
  arrayRead cond rt s fun a b _ => { s.sys with dl1d0 := a, dl1d1 := b }

/-- D-Tag read operation (R2537). Data 1 becomes free too, where R570 uses Data 0 only: DESIGN CHOICE, log 24. -/
def execMcrDtagRead (cond : BitVec 4) (rt : BitVec 4) (s : State) : Host.Outcome State Fault Refusal :=
  arrayRead cond rt s fun a b _ => { s.sys with dl1d0 := a, dl1d1 := b }

/-- D-Data read operation (R2538). -/
def execMcrDdataRead (cond : BitVec 4) (rt : BitVec 4) (s : State) : Host.Outcome State Fault Refusal :=
  arrayRead cond rt s fun a b _ => { s.sys with dl1d0 := a, dl1d1 := b }

/-- MRC of the I-L1 Data 0 Register (R2539). -/
def execMrcIl1Data0 (cond : BitVec 4) (rt : BitVec 4) (s : State) : Host.Outcome State Fault Refusal :=
  readSys cond rt s.arrayOpen s.sys.il1d0 s

/-- MCR of the I-L1 Data 0 Register (R2539). -/
def execMcrIl1Data0 (cond : BitVec 4) (rt : BitVec 4) (s : State) : Host.Outcome State Fault Refusal :=
  writeSys cond rt s.arrayOpen s fun v => { s with sys := { s.sys with il1d0 := v } }

/-- MRC of the I-L1 Data 1 Register (R2540). -/
def execMrcIl1Data1 (cond : BitVec 4) (rt : BitVec 4) (s : State) : Host.Outcome State Fault Refusal :=
  readSys cond rt s.arrayOpen s.sys.il1d1 s

/-- MCR of the I-L1 Data 1 Register (R2540). -/
def execMcrIl1Data1 (cond : BitVec 4) (rt : BitVec 4) (s : State) : Host.Outcome State Fault Refusal :=
  writeSys cond rt s.arrayOpen s fun v => { s with sys := { s.sys with il1d1 := v } }

/-- I-TLB CAM write operation (R2541). -/
def execMcrItlbCamWrite (cond : BitVec 4) (rt : BitVec 4) (s : State) : Host.Outcome State Fault Refusal :=
  arrayWrite cond rt s

/-- I-TLB ATTR write operation (R2542). -/
def execMcrItlbAttrWrite (cond : BitVec 4) (rt : BitVec 4) (s : State) : Host.Outcome State Fault Refusal :=
  arrayWrite cond rt s

/-- I-TLB PA write operation (R2543). -/
def execMcrItlbPaWrite (cond : BitVec 4) (rt : BitVec 4) (s : State) : Host.Outcome State Fault Refusal :=
  arrayWrite cond rt s

/-- I-HVAB write operation (R2544). -/
def execMcrIhvabWrite (cond : BitVec 4) (rt : BitVec 4) (s : State) : Host.Outcome State Fault Refusal :=
  arrayWrite cond rt s

/-- I-Tag write operation (R2545). -/
def execMcrItagWrite (cond : BitVec 4) (rt : BitVec 4) (s : State) : Host.Outcome State Fault Refusal :=
  arrayWrite cond rt s

/-- I-Data write operation (R2546). -/
def execMcrIdataWrite (cond : BitVec 4) (rt : BitVec 4) (s : State) : Host.Outcome State Fault Refusal :=
  arrayWrite cond rt s

/-- I-TLB CAM read operation (R2547). -/
def execMcrItlbCamRead (cond : BitVec 4) (rt : BitVec 4) (s : State) : Host.Outcome State Fault Refusal :=
  arrayRead cond rt s fun a b _ => { s.sys with il1d0 := a, il1d1 := b }

/-- I-TLB ATTR read operation (R2548). Data 1 becomes free too, where R570 uses Data 0 only: DESIGN CHOICE, log 24. -/
def execMcrItlbAttrRead (cond : BitVec 4) (rt : BitVec 4) (s : State) : Host.Outcome State Fault Refusal :=
  arrayRead cond rt s fun a b _ => { s.sys with il1d0 := a, il1d1 := b }

/-- I-TLB PA read operation (R2549). Data 1 becomes free too, where R570 uses Data 0 only: DESIGN CHOICE, log 24. -/
def execMcrItlbPaRead (cond : BitVec 4) (rt : BitVec 4) (s : State) : Host.Outcome State Fault Refusal :=
  arrayRead cond rt s fun a b _ => { s.sys with il1d0 := a, il1d1 := b }

/-- I-HVAB read operation (R2550). Data 1 becomes free too, where R570 uses Data 0 only: DESIGN CHOICE, log 24. -/
def execMcrIhvabRead (cond : BitVec 4) (rt : BitVec 4) (s : State) : Host.Outcome State Fault Refusal :=
  arrayRead cond rt s fun a b _ => { s.sys with il1d0 := a, il1d1 := b }

/-- I-Tag read operation (R2551). Data 1 becomes free too, where R570 uses Data 0 only: DESIGN CHOICE, log 24. -/
def execMcrItagRead (cond : BitVec 4) (rt : BitVec 4) (s : State) : Host.Outcome State Fault Refusal :=
  arrayRead cond rt s fun a b _ => { s.sys with il1d0 := a, il1d1 := b }

/-- I-Data read operation (R2552). -/
def execMcrIdataRead (cond : BitVec 4) (rt : BitVec 4) (s : State) : Host.Outcome State Fault Refusal :=
  arrayRead cond rt s fun a b _ => { s.sys with il1d0 := a, il1d1 := b }

/-- GHB write operation: no state is held (R2553). -/
def execMcrGhbWrite (cond : BitVec 4) (rt : BitVec 4) (s : State) : Host.Outcome State Fault Refusal :=
  writeSys cond rt s.arrayOpen s fun _ => s

/-- BTB write operation: no state is held (R2554). -/
def execMcrBtbWrite (cond : BitVec 4) (rt : BitVec 4) (s : State) : Host.Outcome State Fault Refusal :=
  writeSys cond rt s.arrayOpen s fun _ => s

/-- GHB read operation (R2555). -/
def execMcrGhbRead (cond : BitVec 4) (rt : BitVec 4) (s : State) : Host.Outcome State Fault Refusal :=
  arrayRead cond rt s fun a _ _ => { s.sys with il1d0 := a }

/-- BTB read operation (R2556). -/
def execMcrBtbRead (cond : BitVec 4) (rt : BitVec 4) (s : State) : Host.Outcome State Fault Refusal :=
  arrayRead cond rt s fun a b _ => { s.sys with il1d0 := a, il1d1 := b }

/-- MRC of the L2 Data 0 Register (R2557). -/
def execMrcL2Data0 (cond : BitVec 4) (rt : BitVec 4) (s : State) : Host.Outcome State Fault Refusal :=
  readSys cond rt s.arrayOpen s.sys.l2d0 s

/-- MCR of the L2 Data 0 Register (R2557). -/
def execMcrL2Data0 (cond : BitVec 4) (rt : BitVec 4) (s : State) : Host.Outcome State Fault Refusal :=
  writeSys cond rt s.arrayOpen s fun v => { s with sys := { s.sys with l2d0 := v } }

/-- MRC of the L2 Data 1 Register (R2558). -/
def execMrcL2Data1 (cond : BitVec 4) (rt : BitVec 4) (s : State) : Host.Outcome State Fault Refusal :=
  readSys cond rt s.arrayOpen s.sys.l2d1 s

/-- MCR of the L2 Data 1 Register (R2558). -/
def execMcrL2Data1 (cond : BitVec 4) (rt : BitVec 4) (s : State) : Host.Outcome State Fault Refusal :=
  writeSys cond rt s.arrayOpen s fun v => { s with sys := { s.sys with l2d1 := v } }

/-- L2 tag and valid write operation (R2559). -/
def execMcrL2TagWrite (cond : BitVec 4) (rt : BitVec 4) (s : State) : Host.Outcome State Fault Refusal :=
  arrayWrite cond rt s

/-- L2 data and dirty write operation (R2560). -/
def execMcrL2DataWrite (cond : BitVec 4) (rt : BitVec 4) (s : State) : Host.Outcome State Fault Refusal :=
  arrayWrite cond rt s

/-- L2 parity and ECC write operation (R2561). -/
def execMcrL2ParityWrite (cond : BitVec 4) (rt : BitVec 4) (s : State) : Host.Outcome State Fault Refusal :=
  arrayWrite cond rt s

/-- MRC of the L2 Data 2 Register (R2562). -/
def execMrcL2Data2 (cond : BitVec 4) (rt : BitVec 4) (s : State) : Host.Outcome State Fault Refusal :=
  readSys cond rt s.arrayOpen s.sys.l2d2 s

/-- MCR of the L2 Data 2 Register (R2562). -/
def execMcrL2Data2 (cond : BitVec 4) (rt : BitVec 4) (s : State) : Host.Outcome State Fault Refusal :=
  writeSys cond rt s.arrayOpen s fun v => { s with sys := { s.sys with l2d2 := v } }

/-- L2 tag and valid read operation (R2563). Data 1 and 2 become free too, where R595 gives them no data: DESIGN CHOICE, log 24. -/
def execMcrL2TagRead (cond : BitVec 4) (rt : BitVec 4) (s : State) : Host.Outcome State Fault Refusal :=
  arrayRead cond rt s fun a b c => { s.sys with l2d0 := a, l2d1 := b, l2d2 := c }

/-- L2 data and dirty read operation (R2564). -/
def execMcrL2DataRead (cond : BitVec 4) (rt : BitVec 4) (s : State) : Host.Outcome State Fault Refusal :=
  arrayRead cond rt s fun a b c => { s.sys with l2d0 := a, l2d1 := b, l2d2 := c }

/-- L2 parity and ECC read operation (R2565). Data 1 and 2 become free too, where R595 gives them no data: DESIGN CHOICE, log 24. -/
def execMcrL2ParityRead (cond : BitVec 4) (rt : BitVec 4) (s : State) : Host.Outcome State Fault Refusal :=
  arrayRead cond rt s fun a b c => { s.sys with l2d0 := a, l2d1 := b, l2d2 := c }

end Sys2Proof.Machine
end

