-- ==== Sys2Proof/Machine/Branch.lean ====
section
/-! DEFINITION. Branches, and the instructions that take an exception (45_branch_system.md R1760 to R1773). -/

namespace Sys2Proof.Machine

/-- The target of an immediate branch: a word offset, the halfword bit `h` of BLX below it (R1761, R1763). -/
def branchTarget (imm24 : BitVec 24) (h : BitVec 1) (s : State) : Word :=
  s.pc + 8 + (imm24 ++ h ++ 0#1).signExtend 32

/-- Write the return address, the next instruction, to r14 of the current mode. -/
def State.link (s : State) : State := s.setReg 14 (s.pc + 4)

/-- BX r14 counts as a procedure return (13_cp15_maint_pmu.md R409 event 0x0E). -/
def noteReturn (rm : BitVec 4) (s : State) : State := if rm = 14 then s.note 0x0E else s

/-- A breakpoint instruction (60_exceptions.md R1932): debug state in Halting debug-mode, else the Prefetch Abort of a
debug event, also where debug is disabled or not permitted. In debug state it is ignored (62_debug_events.md R2096). -/
def takeBkpt (s : State) : State :=
  if s.halted then s
  else match s.debugResponse with
    | .halts => s.enterDebug 0b0011
    | .raises => takeDebugException 0b0011 s
    | .ignored => takeDebugException 0b0011 s

/-- B (R1761). Event 0x0D counts it taken or not. -/
def execB (cond : BitVec 4) (imm24 : BitVec 24) (s : State) : Host.Outcome State Fault Refusal :=
  onCond cond (s.note 0x0D) (.next ((s.note 0x0D).branchTo (branchTarget imm24 0 s)))

/-- BL (R1762). -/
def execBl (cond : BitVec 4) (imm24 : BitVec 24) (s : State) : Host.Outcome State Fault Refusal :=
  onCond cond (s.note 0x0D) (.next ((s.note 0x0D).link.branchTo (branchTarget imm24 0 s)))

/-- BLX, immediate (R1763): to Thumb state. -/
def execBlxImm (h : BitVec 1) (imm24 : BitVec 24) (s : State) : Host.Outcome State Fault Refusal :=
  .next { ((s.note 0x0D).note 0x0C).link with
    pc := branchTarget imm24 h s, cpsr := setBit s.cpsr 5 true }

/-- BX (R1764). -/
def execBx (cond : BitVec 4) (rm : BitVec 4) (s : State) : Host.Outcome State Fault Refusal :=
  onCond cond s (bxTo (noteReturn rm s) (s.reg rm))

/-- BXJ (R1765): BX, without Jazelle. BXJ r14 counts as a procedure return like BX r14, which R409 names without it: DESIGN
CHOICE, log 57. -/
def execBxj (cond : BitVec 4) (rm : BitVec 4) (s : State) : Host.Outcome State Fault Refusal :=
  onCond cond s (unlessPC [rm] (bxTo (noteReturn rm s) (s.reg rm)))

/-- BLX, register (R1766): the target is read before r14 is written. -/
def execBlxReg (cond : BitVec 4) (rm : BitVec 4) (s : State) : Host.Outcome State Fault Refusal :=
  onCond cond s (unlessPC [rm] (bxTo s.link (s.reg rm)))

/-- SVC (R1770; 60_exceptions.md R1927). -/
def execSvc (cond : BitVec 4) (_imm24 : BitVec 24) (s : State) : Host.Outcome State Fault Refusal :=
  onCond cond s (.next (takeSvc s))

/-- SMC (R1771; 60_exceptions.md R1928): Undefined in User mode; ignored in debug state in any mode (62_debug_events.md
R2096). -/
def execSmc (cond : BitVec 4) (_imm4 : BitVec 4) (s : State) : Host.Outcome State Fault Refusal :=
  onCond cond s (.next (if s.privileged || s.halted then takeSmc s else takeUndefined s))

/-- BKPT (R1772): a condition other than always is Unpredictable. -/
def execBkpt (cond : BitVec 4) (_imm12 : BitVec 12) (_imm4 : BitVec 4) (s : State) : Host.Outcome State Fault Refusal :=
  if cond = 0b1110 then .next (takeBkpt s) else .fault .operands

/-- UDF (R1773): the Undefined Instruction exception. -/
def execUdf (cond : BitVec 4) (_imm12 : BitVec 12) (_imm4 : BitVec 4) (s : State) : Host.Outcome State Fault Refusal :=
  onCond cond s (.next (takeUndefined s))

end Sys2Proof.Machine
end

