-- ==== Sys2Proof/Machine/DataProcessing.lean ====
section
/-! DEFINITION. The data-processing instructions (42_data_processing.md). -/

namespace Sys2Proof.Machine

/-- The sixteen operations (R1610 to R1625). -/
inductive AluOp where
  | and | eor | sub | rsb | add | adc | sbc | rsc | tst | teq | cmp | cmn | orr | mov | bic | mvn
  deriving DecidableEq, Repr

/-- The result, C and V of an operation on `x` and the shifter operand: the logical operations take C from the shifter
and leave V (R1604). -/
def aluResult (op : AluOp) (x : Word) (operand : Word × Bool) (s : State) : Word × Bool × Bool :=
  let y := operand.1
  match op with
  | .and => (x &&& y, operand.2, s.flagV)
  | .eor => (x ^^^ y, operand.2, s.flagV)
  | .sub => addWithCarry x (~~~y) true
  | .rsb => addWithCarry (~~~x) y true
  | .add => addWithCarry x y false
  | .adc => addWithCarry x y s.flagC
  | .sbc => addWithCarry x (~~~y) s.flagC
  | .rsc => addWithCarry (~~~x) y s.flagC
  | .tst => (x &&& y, operand.2, s.flagV)
  | .teq => (x ^^^ y, operand.2, s.flagV)
  | .cmp => addWithCarry x (~~~y) true
  | .cmn => addWithCarry x y false
  | .orr => (x ||| y, operand.2, s.flagV)
  | .mov => (y, operand.2, s.flagV)
  | .bic => (x &&& ~~~y, operand.2, s.flagV)
  | .mvn => (~~~y, operand.2, s.flagV)

/-- ALUWritePC (R1603). In debug state bit 0 must equal CPSR.T, and the value is where a restart begins
(62_debug_events.md R2083). -/
def aluWritePC (s : State) (v : Word) : Host.Outcome State Fault Refusal :=
  if s.halted then
    if v.getLsbD 0 = s.cpsr.getLsbD 5 then .next (s.setRestart v) else .fault .debugInstruction
  else bxTo s v

/-- An exception return by a data-processing instruction (R1645): there must be an SPSR. -/
def aluReturn (s : State) (v : Word) : Host.Outcome State Fault Refusal :=
  match s.spsr? with
  | none => .fault .operands
  | some p => exceptionReturn s p v

/-- Write a result and, with S set, the flags (R1604); r15 as the destination is R1640 or R1645. -/
def aluWrite (sf : BitVec 1) (rd : BitVec 4) (res : Word × Bool × Bool) (s : State) :
    Host.Outcome State Fault Refusal :=
  if rd = 15 then (if sf = 1 then aluReturn s res.1 else aluWritePC s res.1)
  else if sf = 1 then .next ((s.setReg rd res.1).setArithFlags res.1 res.2.1 res.2.2).advance
  else .next (s.setReg rd res.1).advance

/-- An operation without a destination writes the flags only (R1618 to R1621). -/
def aluTest (res : Word × Bool × Bool) (s : State) : Host.Outcome State Fault Refusal :=
  .next (s.setArithFlags res.1 res.2.1 res.2.2).advance

/-- An operation with a destination, on a register and a shifter operand. -/
def dataOp (op : AluOp) (sf : BitVec 1) (rn rd : BitVec 4) (operand : Word × Bool) (s : State) :
    Host.Outcome State Fault Refusal :=
  aluWrite sf rd (aluResult op (s.reg rn) operand s) s

/-- An operation without a first register operand: MOV and MVN. -/
def moveOp (op : AluOp) (sf : BitVec 1) (rd : BitVec 4) (operand : Word × Bool) (s : State) :
    Host.Outcome State Fault Refusal :=
  aluWrite sf rd (aluResult op 0 operand s) s

/-- A comparison. -/
def testOp (op : AluOp) (rn : BitVec 4) (operand : Word × Bool) (s : State) : Host.Outcome State Fault Refusal :=
  aluTest (aluResult op (s.reg rn) operand s) s

/-- `MOV pc, lr` counts as a procedure return (13_cp15_maint_pmu.md R409, event 0x0E). -/
def noteMovReturn (sf : BitVec 1) (rd : BitVec 4) (imm5 : BitVec 5) (typ : BitVec 2) (rm : BitVec 4) (s : State) :
    State :=
  if sf = 0 ∧ rd = 15 ∧ imm5 = 0 ∧ typ = 0 ∧ rm = 14 then s.note 0x0E else s

/-- AND, bitwise and, with an immediate (R1610). -/
def execAndImm (cond : BitVec 4) (sf : BitVec 1) (rn : BitVec 4) (rd : BitVec 4) (imm12 : BitVec 12) (s : State) : Host.Outcome State Fault Refusal :=
  onCond cond s (dataOp .and sf rn rd (opImm imm12 s) s)

/-- AND with a register shifted by an immediate (R1610). -/
def execAndReg (cond : BitVec 4) (sf : BitVec 1) (rn : BitVec 4) (rd : BitVec 4) (imm5 : BitVec 5) (typ : BitVec 2) (rm : BitVec 4) (s : State) : Host.Outcome State Fault Refusal :=
  onCond cond s (dataOp .and sf rn rd (opReg imm5 typ rm s) s)

/-- AND with a register shifted by a register (R1610, R1602). -/
def execAndRsr (cond : BitVec 4) (sf : BitVec 1) (rn : BitVec 4) (rd : BitVec 4) (rs : BitVec 4) (typ : BitVec 2) (rm : BitVec 4) (s : State) : Host.Outcome State Fault Refusal :=
  onCond cond s (unlessPC [rn, rs, rm] (dataOp .and sf rn rd (opRsr rs typ rm s) s))

/-- EOR, exclusive or, with an immediate (R1611). -/
def execEorImm (cond : BitVec 4) (sf : BitVec 1) (rn : BitVec 4) (rd : BitVec 4) (imm12 : BitVec 12) (s : State) : Host.Outcome State Fault Refusal :=
  onCond cond s (dataOp .eor sf rn rd (opImm imm12 s) s)

/-- EOR with a register shifted by an immediate (R1611). -/
def execEorReg (cond : BitVec 4) (sf : BitVec 1) (rn : BitVec 4) (rd : BitVec 4) (imm5 : BitVec 5) (typ : BitVec 2) (rm : BitVec 4) (s : State) : Host.Outcome State Fault Refusal :=
  onCond cond s (dataOp .eor sf rn rd (opReg imm5 typ rm s) s)

/-- EOR with a register shifted by a register (R1611, R1602). -/
def execEorRsr (cond : BitVec 4) (sf : BitVec 1) (rn : BitVec 4) (rd : BitVec 4) (rs : BitVec 4) (typ : BitVec 2) (rm : BitVec 4) (s : State) : Host.Outcome State Fault Refusal :=
  onCond cond s (unlessPC [rn, rs, rm] (dataOp .eor sf rn rd (opRsr rs typ rm s) s))

/-- SUB, subtract, with an immediate (R1612). -/
def execSubImm (cond : BitVec 4) (sf : BitVec 1) (rn : BitVec 4) (rd : BitVec 4) (imm12 : BitVec 12) (s : State) : Host.Outcome State Fault Refusal :=
  onCond cond s (dataOp .sub sf rn rd (opImm imm12 s) s)

/-- SUB with a register shifted by an immediate (R1612). -/
def execSubReg (cond : BitVec 4) (sf : BitVec 1) (rn : BitVec 4) (rd : BitVec 4) (imm5 : BitVec 5) (typ : BitVec 2) (rm : BitVec 4) (s : State) : Host.Outcome State Fault Refusal :=
  onCond cond s (dataOp .sub sf rn rd (opReg imm5 typ rm s) s)

/-- SUB with a register shifted by a register (R1612, R1602). -/
def execSubRsr (cond : BitVec 4) (sf : BitVec 1) (rn : BitVec 4) (rd : BitVec 4) (rs : BitVec 4) (typ : BitVec 2) (rm : BitVec 4) (s : State) : Host.Outcome State Fault Refusal :=
  onCond cond s (unlessPC [rn, rs, rm] (dataOp .sub sf rn rd (opRsr rs typ rm s) s))

/-- RSB, reverse subtract, with an immediate (R1613). -/
def execRsbImm (cond : BitVec 4) (sf : BitVec 1) (rn : BitVec 4) (rd : BitVec 4) (imm12 : BitVec 12) (s : State) : Host.Outcome State Fault Refusal :=
  onCond cond s (dataOp .rsb sf rn rd (opImm imm12 s) s)

/-- RSB with a register shifted by an immediate (R1613). -/
def execRsbReg (cond : BitVec 4) (sf : BitVec 1) (rn : BitVec 4) (rd : BitVec 4) (imm5 : BitVec 5) (typ : BitVec 2) (rm : BitVec 4) (s : State) : Host.Outcome State Fault Refusal :=
  onCond cond s (dataOp .rsb sf rn rd (opReg imm5 typ rm s) s)

/-- RSB with a register shifted by a register (R1613, R1602). -/
def execRsbRsr (cond : BitVec 4) (sf : BitVec 1) (rn : BitVec 4) (rd : BitVec 4) (rs : BitVec 4) (typ : BitVec 2) (rm : BitVec 4) (s : State) : Host.Outcome State Fault Refusal :=
  onCond cond s (unlessPC [rn, rs, rm] (dataOp .rsb sf rn rd (opRsr rs typ rm s) s))

/-- ADD, add, with an immediate (R1614). -/
def execAddImm (cond : BitVec 4) (sf : BitVec 1) (rn : BitVec 4) (rd : BitVec 4) (imm12 : BitVec 12) (s : State) : Host.Outcome State Fault Refusal :=
  onCond cond s (dataOp .add sf rn rd (opImm imm12 s) s)

/-- ADD with a register shifted by an immediate (R1614). -/
def execAddReg (cond : BitVec 4) (sf : BitVec 1) (rn : BitVec 4) (rd : BitVec 4) (imm5 : BitVec 5) (typ : BitVec 2) (rm : BitVec 4) (s : State) : Host.Outcome State Fault Refusal :=
  onCond cond s (dataOp .add sf rn rd (opReg imm5 typ rm s) s)

/-- ADD with a register shifted by a register (R1614, R1602). -/
def execAddRsr (cond : BitVec 4) (sf : BitVec 1) (rn : BitVec 4) (rd : BitVec 4) (rs : BitVec 4) (typ : BitVec 2) (rm : BitVec 4) (s : State) : Host.Outcome State Fault Refusal :=
  onCond cond s (unlessPC [rn, rs, rm] (dataOp .add sf rn rd (opRsr rs typ rm s) s))

/-- ADC, add with carry, with an immediate (R1615). -/
def execAdcImm (cond : BitVec 4) (sf : BitVec 1) (rn : BitVec 4) (rd : BitVec 4) (imm12 : BitVec 12) (s : State) : Host.Outcome State Fault Refusal :=
  onCond cond s (dataOp .adc sf rn rd (opImm imm12 s) s)

/-- ADC with a register shifted by an immediate (R1615). -/
def execAdcReg (cond : BitVec 4) (sf : BitVec 1) (rn : BitVec 4) (rd : BitVec 4) (imm5 : BitVec 5) (typ : BitVec 2) (rm : BitVec 4) (s : State) : Host.Outcome State Fault Refusal :=
  onCond cond s (dataOp .adc sf rn rd (opReg imm5 typ rm s) s)

/-- ADC with a register shifted by a register (R1615, R1602). -/
def execAdcRsr (cond : BitVec 4) (sf : BitVec 1) (rn : BitVec 4) (rd : BitVec 4) (rs : BitVec 4) (typ : BitVec 2) (rm : BitVec 4) (s : State) : Host.Outcome State Fault Refusal :=
  onCond cond s (unlessPC [rn, rs, rm] (dataOp .adc sf rn rd (opRsr rs typ rm s) s))

/-- SBC, subtract with carry, with an immediate (R1616). -/
def execSbcImm (cond : BitVec 4) (sf : BitVec 1) (rn : BitVec 4) (rd : BitVec 4) (imm12 : BitVec 12) (s : State) : Host.Outcome State Fault Refusal :=
  onCond cond s (dataOp .sbc sf rn rd (opImm imm12 s) s)

/-- SBC with a register shifted by an immediate (R1616). -/
def execSbcReg (cond : BitVec 4) (sf : BitVec 1) (rn : BitVec 4) (rd : BitVec 4) (imm5 : BitVec 5) (typ : BitVec 2) (rm : BitVec 4) (s : State) : Host.Outcome State Fault Refusal :=
  onCond cond s (dataOp .sbc sf rn rd (opReg imm5 typ rm s) s)

/-- SBC with a register shifted by a register (R1616, R1602). -/
def execSbcRsr (cond : BitVec 4) (sf : BitVec 1) (rn : BitVec 4) (rd : BitVec 4) (rs : BitVec 4) (typ : BitVec 2) (rm : BitVec 4) (s : State) : Host.Outcome State Fault Refusal :=
  onCond cond s (unlessPC [rn, rs, rm] (dataOp .sbc sf rn rd (opRsr rs typ rm s) s))

/-- RSC, reverse subtract with carry, with an immediate (R1617). -/
def execRscImm (cond : BitVec 4) (sf : BitVec 1) (rn : BitVec 4) (rd : BitVec 4) (imm12 : BitVec 12) (s : State) : Host.Outcome State Fault Refusal :=
  onCond cond s (dataOp .rsc sf rn rd (opImm imm12 s) s)

/-- RSC with a register shifted by an immediate (R1617). -/
def execRscReg (cond : BitVec 4) (sf : BitVec 1) (rn : BitVec 4) (rd : BitVec 4) (imm5 : BitVec 5) (typ : BitVec 2) (rm : BitVec 4) (s : State) : Host.Outcome State Fault Refusal :=
  onCond cond s (dataOp .rsc sf rn rd (opReg imm5 typ rm s) s)

/-- RSC with a register shifted by a register (R1617, R1602). -/
def execRscRsr (cond : BitVec 4) (sf : BitVec 1) (rn : BitVec 4) (rd : BitVec 4) (rs : BitVec 4) (typ : BitVec 2) (rm : BitVec 4) (s : State) : Host.Outcome State Fault Refusal :=
  onCond cond s (unlessPC [rn, rs, rm] (dataOp .rsc sf rn rd (opRsr rs typ rm s) s))

/-- TST, test bits, with an immediate (R1618). -/
def execTstImm (cond : BitVec 4) (rn : BitVec 4) (imm12 : BitVec 12) (s : State) : Host.Outcome State Fault Refusal :=
  onCond cond s (testOp .tst rn (opImm imm12 s) s)

/-- TST with a register shifted by an immediate (R1618). -/
def execTstReg (cond : BitVec 4) (rn : BitVec 4) (imm5 : BitVec 5) (typ : BitVec 2) (rm : BitVec 4) (s : State) : Host.Outcome State Fault Refusal :=
  onCond cond s (testOp .tst rn (opReg imm5 typ rm s) s)

/-- TST with a register shifted by a register (R1618, R1602). -/
def execTstRsr (cond : BitVec 4) (rn : BitVec 4) (rs : BitVec 4) (typ : BitVec 2) (rm : BitVec 4) (s : State) : Host.Outcome State Fault Refusal :=
  onCond cond s (unlessPC [rn, rs, rm] (testOp .tst rn (opRsr rs typ rm s) s))

/-- TEQ, test equality, with an immediate (R1619). -/
def execTeqImm (cond : BitVec 4) (rn : BitVec 4) (imm12 : BitVec 12) (s : State) : Host.Outcome State Fault Refusal :=
  onCond cond s (testOp .teq rn (opImm imm12 s) s)

/-- TEQ with a register shifted by an immediate (R1619). -/
def execTeqReg (cond : BitVec 4) (rn : BitVec 4) (imm5 : BitVec 5) (typ : BitVec 2) (rm : BitVec 4) (s : State) : Host.Outcome State Fault Refusal :=
  onCond cond s (testOp .teq rn (opReg imm5 typ rm s) s)

/-- TEQ with a register shifted by a register (R1619, R1602). -/
def execTeqRsr (cond : BitVec 4) (rn : BitVec 4) (rs : BitVec 4) (typ : BitVec 2) (rm : BitVec 4) (s : State) : Host.Outcome State Fault Refusal :=
  onCond cond s (unlessPC [rn, rs, rm] (testOp .teq rn (opRsr rs typ rm s) s))

/-- CMP, compare, with an immediate (R1620). -/
def execCmpImm (cond : BitVec 4) (rn : BitVec 4) (imm12 : BitVec 12) (s : State) : Host.Outcome State Fault Refusal :=
  onCond cond s (testOp .cmp rn (opImm imm12 s) s)

/-- CMP with a register shifted by an immediate (R1620). -/
def execCmpReg (cond : BitVec 4) (rn : BitVec 4) (imm5 : BitVec 5) (typ : BitVec 2) (rm : BitVec 4) (s : State) : Host.Outcome State Fault Refusal :=
  onCond cond s (testOp .cmp rn (opReg imm5 typ rm s) s)

/-- CMP with a register shifted by a register (R1620, R1602). -/
def execCmpRsr (cond : BitVec 4) (rn : BitVec 4) (rs : BitVec 4) (typ : BitVec 2) (rm : BitVec 4) (s : State) : Host.Outcome State Fault Refusal :=
  onCond cond s (unlessPC [rn, rs, rm] (testOp .cmp rn (opRsr rs typ rm s) s))

/-- CMN, compare negated, with an immediate (R1621). -/
def execCmnImm (cond : BitVec 4) (rn : BitVec 4) (imm12 : BitVec 12) (s : State) : Host.Outcome State Fault Refusal :=
  onCond cond s (testOp .cmn rn (opImm imm12 s) s)

/-- CMN with a register shifted by an immediate (R1621). -/
def execCmnReg (cond : BitVec 4) (rn : BitVec 4) (imm5 : BitVec 5) (typ : BitVec 2) (rm : BitVec 4) (s : State) : Host.Outcome State Fault Refusal :=
  onCond cond s (testOp .cmn rn (opReg imm5 typ rm s) s)

/-- CMN with a register shifted by a register (R1621, R1602). -/
def execCmnRsr (cond : BitVec 4) (rn : BitVec 4) (rs : BitVec 4) (typ : BitVec 2) (rm : BitVec 4) (s : State) : Host.Outcome State Fault Refusal :=
  onCond cond s (unlessPC [rn, rs, rm] (testOp .cmn rn (opRsr rs typ rm s) s))

/-- ORR, or, with an immediate (R1622). -/
def execOrrImm (cond : BitVec 4) (sf : BitVec 1) (rn : BitVec 4) (rd : BitVec 4) (imm12 : BitVec 12) (s : State) : Host.Outcome State Fault Refusal :=
  onCond cond s (dataOp .orr sf rn rd (opImm imm12 s) s)

/-- ORR with a register shifted by an immediate (R1622). -/
def execOrrReg (cond : BitVec 4) (sf : BitVec 1) (rn : BitVec 4) (rd : BitVec 4) (imm5 : BitVec 5) (typ : BitVec 2) (rm : BitVec 4) (s : State) : Host.Outcome State Fault Refusal :=
  onCond cond s (dataOp .orr sf rn rd (opReg imm5 typ rm s) s)

/-- ORR with a register shifted by a register (R1622, R1602). -/
def execOrrRsr (cond : BitVec 4) (sf : BitVec 1) (rn : BitVec 4) (rd : BitVec 4) (rs : BitVec 4) (typ : BitVec 2) (rm : BitVec 4) (s : State) : Host.Outcome State Fault Refusal :=
  onCond cond s (unlessPC [rn, rs, rm] (dataOp .orr sf rn rd (opRsr rs typ rm s) s))

/-- MOV, move, with an immediate (R1623). -/
def execMovImm (cond : BitVec 4) (sf : BitVec 1) (rd : BitVec 4) (imm12 : BitVec 12) (s : State) : Host.Outcome State Fault Refusal :=
  onCond cond s (moveOp .mov sf rd (opImm imm12 s) s)

/-- MOV with a register shifted by an immediate (R1623). -/
def execMovReg (cond : BitVec 4) (sf : BitVec 1) (rd : BitVec 4) (imm5 : BitVec 5) (typ : BitVec 2) (rm : BitVec 4) (s : State) : Host.Outcome State Fault Refusal :=
  onCond cond s (moveOp .mov sf rd (opReg imm5 typ rm s) (noteMovReturn sf rd imm5 typ rm s))

/-- MOV with a register shifted by a register (R1623, R1602). -/
def execMovRsr (cond : BitVec 4) (sf : BitVec 1) (rd : BitVec 4) (rs : BitVec 4) (typ : BitVec 2) (rm : BitVec 4) (s : State) : Host.Outcome State Fault Refusal :=
  onCond cond s (unlessPC [rs, rm] (moveOp .mov sf rd (opRsr rs typ rm s) s))

/-- BIC, bit clear, with an immediate (R1624). -/
def execBicImm (cond : BitVec 4) (sf : BitVec 1) (rn : BitVec 4) (rd : BitVec 4) (imm12 : BitVec 12) (s : State) : Host.Outcome State Fault Refusal :=
  onCond cond s (dataOp .bic sf rn rd (opImm imm12 s) s)

/-- BIC with a register shifted by an immediate (R1624). -/
def execBicReg (cond : BitVec 4) (sf : BitVec 1) (rn : BitVec 4) (rd : BitVec 4) (imm5 : BitVec 5) (typ : BitVec 2) (rm : BitVec 4) (s : State) : Host.Outcome State Fault Refusal :=
  onCond cond s (dataOp .bic sf rn rd (opReg imm5 typ rm s) s)

/-- BIC with a register shifted by a register (R1624, R1602). -/
def execBicRsr (cond : BitVec 4) (sf : BitVec 1) (rn : BitVec 4) (rd : BitVec 4) (rs : BitVec 4) (typ : BitVec 2) (rm : BitVec 4) (s : State) : Host.Outcome State Fault Refusal :=
  onCond cond s (unlessPC [rn, rs, rm] (dataOp .bic sf rn rd (opRsr rs typ rm s) s))

/-- MVN, move not, with an immediate (R1625). -/
def execMvnImm (cond : BitVec 4) (sf : BitVec 1) (rd : BitVec 4) (imm12 : BitVec 12) (s : State) : Host.Outcome State Fault Refusal :=
  onCond cond s (moveOp .mvn sf rd (opImm imm12 s) s)

/-- MVN with a register shifted by an immediate (R1625). -/
def execMvnReg (cond : BitVec 4) (sf : BitVec 1) (rd : BitVec 4) (imm5 : BitVec 5) (typ : BitVec 2) (rm : BitVec 4) (s : State) : Host.Outcome State Fault Refusal :=
  onCond cond s (moveOp .mvn sf rd (opReg imm5 typ rm s) s)

/-- MVN with a register shifted by a register (R1625, R1602). -/
def execMvnRsr (cond : BitVec 4) (sf : BitVec 1) (rd : BitVec 4) (rs : BitVec 4) (typ : BitVec 2) (rm : BitVec 4) (s : State) : Host.Outcome State Fault Refusal :=
  onCond cond s (unlessPC [rs, rm] (moveOp .mvn sf rd (opRsr rs typ rm s) s))

/-- LSL by an immediate, another name of MOV (R1626). -/
def execLslImm (cond : BitVec 4) (sf : BitVec 1) (rd : BitVec 4) (imm5 : BitVec 5) (rm : BitVec 4) (s : State) : Host.Outcome State Fault Refusal :=
  onCond cond s (moveOp .mov sf rd (opReg imm5 0 rm s) s)

/-- LSL by a register, another name of MOV (R1626). -/
def execLslReg (cond : BitVec 4) (sf : BitVec 1) (rd : BitVec 4) (rs : BitVec 4) (rm : BitVec 4) (s : State) : Host.Outcome State Fault Refusal :=
  onCond cond s (unlessPC [rs, rm] (moveOp .mov sf rd (opRsr rs 0 rm s) s))

/-- LSR by an immediate, another name of MOV (R1627). -/
def execLsrImm (cond : BitVec 4) (sf : BitVec 1) (rd : BitVec 4) (imm5 : BitVec 5) (rm : BitVec 4) (s : State) : Host.Outcome State Fault Refusal :=
  onCond cond s (moveOp .mov sf rd (opReg imm5 1 rm s) s)

/-- LSR by a register, another name of MOV (R1627). -/
def execLsrReg (cond : BitVec 4) (sf : BitVec 1) (rd : BitVec 4) (rs : BitVec 4) (rm : BitVec 4) (s : State) : Host.Outcome State Fault Refusal :=
  onCond cond s (unlessPC [rs, rm] (moveOp .mov sf rd (opRsr rs 1 rm s) s))

/-- ASR by an immediate, another name of MOV (R1628). -/
def execAsrImm (cond : BitVec 4) (sf : BitVec 1) (rd : BitVec 4) (imm5 : BitVec 5) (rm : BitVec 4) (s : State) : Host.Outcome State Fault Refusal :=
  onCond cond s (moveOp .mov sf rd (opReg imm5 2 rm s) s)

/-- ASR by a register, another name of MOV (R1628). -/
def execAsrReg (cond : BitVec 4) (sf : BitVec 1) (rd : BitVec 4) (rs : BitVec 4) (rm : BitVec 4) (s : State) : Host.Outcome State Fault Refusal :=
  onCond cond s (unlessPC [rs, rm] (moveOp .mov sf rd (opRsr rs 2 rm s) s))

/-- ROR by an immediate, another name of MOV (R1629). -/
def execRorImm (cond : BitVec 4) (sf : BitVec 1) (rd : BitVec 4) (imm5 : BitVec 5) (rm : BitVec 4) (s : State) : Host.Outcome State Fault Refusal :=
  onCond cond s (moveOp .mov sf rd (opReg imm5 3 rm s) s)

/-- ROR by a register, another name of MOV (R1629). -/
def execRorReg (cond : BitVec 4) (sf : BitVec 1) (rd : BitVec 4) (rs : BitVec 4) (rm : BitVec 4) (s : State) : Host.Outcome State Fault Refusal :=
  onCond cond s (unlessPC [rs, rm] (moveOp .mov sf rd (opRsr rs 3 rm s) s))

/-- RRX, another name of MOV (R1630). -/
def execRrx (cond : BitVec 4) (sf : BitVec 1) (rd : BitVec 4) (rm : BitVec 4) (s : State) : Host.Outcome State Fault Refusal :=
  onCond cond s (moveOp .mov sf rd (opReg 0 3 rm s) s)

/-- ADR of a later address, another name of ADD (R1633). -/
def execAdrAdd (cond : BitVec 4) (rd : BitVec 4) (imm12 : BitVec 12) (s : State) : Host.Outcome State Fault Refusal :=
  onCond cond s (dataOp .add 0 15 rd (opImm imm12 s) s)

/-- ADR of an earlier address, another name of SUB (R1633). -/
def execAdrSub (cond : BitVec 4) (rd : BitVec 4) (imm12 : BitVec 12) (s : State) : Host.Outcome State Fault Refusal :=
  onCond cond s (dataOp .sub 0 15 rd (opImm imm12 s) s)

/-- MOVW (R1631). -/
def execMovw (cond : BitVec 4) (imm4 : BitVec 4) (rd : BitVec 4) (imm12 : BitVec 12) (s : State) : Host.Outcome State Fault Refusal :=
  onCond cond s (unlessPC [rd] (.next (s.setReg rd ((imm4 ++ imm12).setWidth 32)).advance))

/-- MOVT (R1632). -/
def execMovt (cond : BitVec 4) (imm4 : BitVec 4) (rd : BitVec 4) (imm12 : BitVec 12) (s : State) : Host.Outcome State Fault Refusal :=
  onCond cond s (unlessPC [rd] (.next (s.setReg rd (imm4 ++ imm12 ++ (s.reg rd).extractLsb' 0 16)).advance))

/-- How many of the top bits of a word, from bit `n - 1` down, are zero before the first one. -/
def leadingZeros : Nat → Word → Nat
  | 0, _ => 0
  | n + 1, w => if w.getLsbD n then 0 else leadingZeros n w + 1

/-- CLZ (R1634). -/
def execClz (cond : BitVec 4) (rd : BitVec 4) (rm : BitVec 4) (s : State) : Host.Outcome State Fault Refusal :=
  onCond cond s (unlessPC [rd, rm] (.next (s.setReg rd (BitVec.ofNat 32 (leadingZeros 32 (s.reg rm)))).advance))

end Sys2Proof.Machine
end

