-- ==== Sys2Proof/Machine/Maintenance.lean ====
section
/-! DEFINITION. CP15 operations: cache, TLB and branch predictor maintenance, barriers, address translation and TLB preload
(40_cp15_instructions.md R1499 to R1525, 48_cp15_instructions_c10_c15.md R2502, R2503; 13_cp15_maint_pmu.md,
14_cp15_tlb_ple_misc.md). -/

namespace Sys2Proof.Machine

/-! ## Operations by address (13_cp15_maint_pmu.md R356 to R361; 21_mmu.md R1136) -/

/-- The physical address of an MVA, on the data side and without a permission or domain check. -/
def maintAddress (mva : Word) (s : State) : Acc Phys :=
  if !s.cur.sctlr.getLsbD 0 then .ok (flat s s.secure .read mva) s
  else (lookup s s.secure .read mva).bind fun e s' => .ok ⟨e.ns, e.output mva, e.attrs⟩ s'

/-- The abort of an operation by address: RW is open (60_exceptions.md R1940; log 18); `maint` marks the
instruction side (R1945). -/
def maintAbort (maint : Bool) (a : Abort) (s : State) : State :=
  takeDataAbort { a with write := s.draw.getLsbD 0, maint := maint } s.drawn

/-- An operation on the line of an MVA. -/
def byAddress (maint : Bool) (op : Phys → State → State) (mva : Word) (s : State) : Host.Outcome State Fault Refusal :=
  match maintAddress mva s with
  | .stop e => .fault e
  | .abort a s' => .next (maintAbort maint a s')
  | .ok p s' => .next (op p s').advance

/-- Invalidate the L1 instruction cache line of an address: the cache is indexed by the virtual address. -/
def invalidateL1iAt (mva : Word) (p : Phys) (s : State) : State :=
  dropL1i (fun l => l.set == s.l1Set mva && l.tag == lineTag p.pa && l.ns == p.ns) s

/-- Clean to the point of coherency: L1, then L2. -/
def cleanToPoC (p : Phys) (s : State) : State := onL2 cleanL2 p (onL1d cleanL1d p s)

/-- Invalidate in both data caches. -/
def invalidateToPoC (p : Phys) (s : State) : State := onL2 invalidateL2 p (onL1d invalidateL1d p s)

/-! ## Operations by set and way (13_cp15_maint_pmu.md R354, R358, R360, R365) -/

/-- What an operation by set and way does to the line it selects. -/
structure SetWayOp where
  clean : Bool
  invalidate : Bool

/-- In the Nonsecure state an invalidation of a Secure line cleans it too (22_caches.md R1150). -/
def SetWayOp.cleans (op : SetWayOp) (line : Option CacheLine) (s : State) : Bool :=
  op.clean || (!s.secure && line.any fun l => !l.ns)

/-- Level 0 selects the L1 data cache, level 1 the L2 cache; at other levels there is no cache. The width of the set field is that
of the cache (R365). -/
def bySetWay (op : SetWayOp) (v : Word) (s : State) : State :=
  match (v.extractLsb' 1 3).toNat with
  | 0 =>
    let set := (v >>> 6).toNat % s.build.l1Size.sets
    let way := (v.extractLsb' 30 2).toNat
    let s1 := if op.cleans (lineAt s.l1d set way) s then cleanL1d set way s else s
    if op.invalidate then invalidateL1d set way s1 else s1
  | 1 =>
    let set := (v >>> 6).toNat % s.build.l2Size.sets
    let way := (v.extractLsb' 29 3).toNat
    let s1 := if op.cleans (lineAt s.l2 set way) s then cleanL2 set way s else s
    if op.invalidate then invalidateL2 set way s1 else s1
  | _ => s

/-! ## TLB maintenance (13_cp15_maint_pmu.md R380 to R382) -/

/-- Remove the entries of a TLB that a test selects. -/
def flushTlb (tlb : Vector (Option TlbEntry) 32) (gone : TlbEntry → Bool) : Vector (Option TlbEntry) 32 :=
  tlb.map fun e => e.filter fun e => !gone e

/-- Remove entries of the instruction TLB, of the data TLB, or of both. -/
def flushTlbs (instr data : Bool) (gone : TlbEntry → Bool) (s : State) : State :=
  { s with
    itlb := if instr then flushTlb s.itlb gone else s.itlb
    dtlb := if data then flushTlb s.dtlb gone else s.dtlb }

/-- The unlocked entries of the state of the access. -/
def goneAll (s : State) (e : TlbEntry) : Bool := e.secure == s.secure && !e.locked

/-- The entries that cover an MVA and are global or have the ASID, locked or not. -/
def goneMva (v : Word) (s : State) (e : TlbEntry) : Bool := e.matches (v &&& 0xFFFFF000) (v.extractLsb' 0 8) s.secure

/-- The entries of an ASID that are not global, locked or not. -/
def goneAsid (v : Word) (s : State) (e : TlbEntry) : Bool :=
  e.secure == s.secure && !e.glob && e.asid == v.extractLsb' 0 8

/-! ## Translation by instruction (13_cp15_maint_pmu.md R366 to R370) -/

/-- PAR[6:4]: the memory type or the inner attributes. -/
def parInner (a : MemAttrs) : BitVec 3 :=
  match a.typ, a.inner with
  | .stronglyOrdered, _ => 0b001
  | .device, _ => 0b011
  | .normal, .nonCacheable => 0b000
  | .normal, .writeBackAllocate => 0b101
  | .normal, .writeThrough => 0b110
  | .normal, .writeBack => 0b111

/-- PAR[3:2]: the outer attributes. -/
def parOuter (a : MemAttrs) : BitVec 2 :=
  match a.outer with
  | .nonCacheable => 0b00
  | .writeBackAllocate => 0b01
  | .writeThrough => 0b10
  | .writeBack => 0b11

/-- PAR after a successful translation. -/
def parOk (pa : Word) (ns super : Bool) (a : MemAttrs) : Word :=
  (if super then pa.extractLsb' 24 8 ++ 0#12 else pa.extractLsb' 12 20) ++ 0#2 ++ bit ns ++ 0#1 ++ bit a.shareable
    ++ parInner a ++ parOuter a ++ bit super ++ 0#1

/-- PAR after a failed one. -/
def parFail (t : TFault) : Word := 0#25 ++ bit t.slave ++ t.status ++ 1#1

/-- The translation of a virtual address: PAR, or the external abort of the walk, whose DFSR.RW is the kind of access that the
operation asks about: DESIGN CHOICE, log 18 (the spec is silent). -/
def translateForPar (s : State) (secure priv : Bool) (kind : XKind) (va : Word) : Acc Word :=
  let b := s.bank secure
  let mva := mvaOf b va
  if !b.sctlr.getLsbD 0 then
    let p := flat s secure kind mva
    .ok (parOk p.pa p.ns false p.attrs) s
  else match lookup s secure kind mva with
    | .stop e => .stop e
    | .abort a s' =>
      if a.external then .abort { a with mva := va } s' else .ok (parFail ⟨a.status, a.domain, false, false⟩) s'
    | .ok e s' =>
      match checkEntry b e priv kind with
      | some t => .ok (parFail t) s'
      | none => .ok (parOk (e.output mva) e.ns (e.size == .supersec) e.attrs) s'

/-- The VA to PA operations: the regime of the current state, or with `other` the Nonsecure one, where PAR[9] is open. -/
def vaToPa (other priv : Bool) (kind : XKind) (va : Word) (s : State) : Host.Outcome State Fault Refusal :=
  match translateForPar s (s.secure && !other) priv kind va with
  | .stop e => .fault e
  | .abort a s' => .next (takeDataAbort a s')
  | .ok par s' =>
    let par := if other && !par.getLsbD 0 then setBit par 9 (s'.draw.getLsbD 0) else par
    .next (s'.drawn.setBank s.secure { s'.bank s.secure with par := par }).advance

/-! ## TLB preload (14_cp15_tlb_ple_misc.md R473, R474) -/

/-- Bring the translation of a virtual address into a TLB; a NOP with the MMU off. Where the data side aborts, DFSR.RW is that of a
read: DESIGN CHOICE, log 18 (R1940 does not name the operation). -/
def preloadTlb (data : Bool) (va : Word) (s : State) : Host.Outcome State Fault Refusal :=
  if !s.cur.sctlr.getLsbD 0 then .next s.advance
  else match lookup s s.secure (if data then .read else .fetch) (mvaOf s.cur va) with
    | .stop e => .fault e
    | .ok _ s' => .next s'.advance
    | .abort a s' => .next (if data then takeDataAbort a s' else maintAbort true { a with mva := va } s')

/-- MCR c7, c0, 4: a NOP (R1499). -/
def execMcrWfiNop (cond : BitVec 4) (rt : BitVec 4) (s : State) : Host.Outcome State Fault Refusal :=
  writeSys cond rt s.sysPriv s fun _ => s

/-- ICIALLU (R1501); in debug state in any mode (62_debug_events.md R2107). -/
def execMcrIciallu (cond : BitVec 4) (rt : BitVec 4) (s : State) : Host.Outcome State Fault Refusal :=
  writeSys cond rt (s.sysPriv || s.halted) s fun _ => dropL1i (fun _ => true) s

/-- ICIMVAU (R1502); in debug state in any mode (62_debug_events.md R2107). -/
def execMcrIcimvau (cond : BitVec 4) (rt : BitVec 4) (s : State) : Host.Outcome State Fault Refusal :=
  withSys cond rt (s.sysPriv || s.halted) s fun v => byAddress true (invalidateL1iAt v) v s

/-- ISB as an MCR (R1503; logs 8, 50). -/
def execMcrIsb (cond : BitVec 4) (rt : BitVec 4) (s : State) : Host.Outcome State Fault Refusal :=
  writeSys cond rt true s fun _ => s.synchronized

/-- BPIALL (R1504): the branch predictor is not held; in debug state in any mode (62_debug_events.md R2107). -/
def execMcrBpiall (cond : BitVec 4) (rt : BitVec 4) (s : State) : Host.Outcome State Fault Refusal :=
  writeSys cond rt (s.sysPriv || s.halted) s fun _ => s

/-- BPIMVA (R1505): the branch predictor is not held. In debug state it is admitted in any mode: R2107 (62_debug_events.md)
speaks of one 'Flush Branch Target Buffer instruction', and whether BPIMVA is meant beside BPIALL is open: DESIGN CHOICE,
log 56. -/
def execMcrBpimva (cond : BitVec 4) (rt : BitVec 4) (s : State) : Host.Outcome State Fault Refusal :=
  writeSys cond rt (s.sysPriv || s.halted) s fun _ => s

/-- DCIMVAC (R1506). -/
def execMcrDcimvac (cond : BitVec 4) (rt : BitVec 4) (s : State) : Host.Outcome State Fault Refusal :=
  withSys cond rt s.sysPriv s fun v => byAddress false invalidateToPoC v s

/-- DCISW (R1507). -/
def execMcrDcisw (cond : BitVec 4) (rt : BitVec 4) (s : State) : Host.Outcome State Fault Refusal :=
  writeSys cond rt s.sysPriv s fun v => bySetWay ⟨false, true⟩ v s

/-- VA to PA, current state, privileged read (R1508). -/
def execMcrVaPaCurPrivRead (cond : BitVec 4) (rt : BitVec 4) (s : State) : Host.Outcome State Fault Refusal :=
  withSys cond rt s.sysPriv s fun v => vaToPa false true .read v s

/-- VA to PA, current state, privileged write (R1508). -/
def execMcrVaPaCurPrivWrite (cond : BitVec 4) (rt : BitVec 4) (s : State) : Host.Outcome State Fault Refusal :=
  withSys cond rt s.sysPriv s fun v => vaToPa false true .write v s

/-- VA to PA, current state, User read (R1508). -/
def execMcrVaPaCurUserRead (cond : BitVec 4) (rt : BitVec 4) (s : State) : Host.Outcome State Fault Refusal :=
  withSys cond rt s.sysPriv s fun v => vaToPa false false .read v s

/-- VA to PA, current state, User write (R1508). -/
def execMcrVaPaCurUserWrite (cond : BitVec 4) (rt : BitVec 4) (s : State) : Host.Outcome State Fault Refusal :=
  withSys cond rt s.sysPriv s fun v => vaToPa false false .write v s

/-- VA to PA, other state, privileged read (R1509). -/
def execMcrVaPaOthPrivRead (cond : BitVec 4) (rt : BitVec 4) (s : State) : Host.Outcome State Fault Refusal :=
  withSys cond rt s.sysSecure s fun v => vaToPa true true .read v s

/-- VA to PA, other state, privileged write (R1509). -/
def execMcrVaPaOthPrivWrite (cond : BitVec 4) (rt : BitVec 4) (s : State) : Host.Outcome State Fault Refusal :=
  withSys cond rt s.sysSecure s fun v => vaToPa true true .write v s

/-- VA to PA, other state, User read (R1509). -/
def execMcrVaPaOthUserRead (cond : BitVec 4) (rt : BitVec 4) (s : State) : Host.Outcome State Fault Refusal :=
  withSys cond rt s.sysSecure s fun v => vaToPa true false .read v s

/-- VA to PA, other state, User write (R1509). -/
def execMcrVaPaOthUserWrite (cond : BitVec 4) (rt : BitVec 4) (s : State) : Host.Outcome State Fault Refusal :=
  withSys cond rt s.sysSecure s fun v => vaToPa true false .write v s

/-- DCCMVAC (R1510). -/
def execMcrDccmvac (cond : BitVec 4) (rt : BitVec 4) (s : State) : Host.Outcome State Fault Refusal :=
  withSys cond rt s.sysPriv s fun v => byAddress false cleanToPoC v s

/-- DCCSW (R1511). -/
def execMcrDccsw (cond : BitVec 4) (rt : BitVec 4) (s : State) : Host.Outcome State Fault Refusal :=
  writeSys cond rt s.sysPriv s fun v => bySetWay ⟨true, false⟩ v s

/-- DSB as an MCR (R1512; log 50). -/
def execMcrDsb (cond : BitVec 4) (rt : BitVec 4) (s : State) : Host.Outcome State Fault Refusal :=
  writeSys cond rt true s fun _ => s.completed

/-- DMB as an MCR (R1513; logs 9, 50). -/
def execMcrDmb (cond : BitVec 4) (rt : BitVec 4) (s : State) : Host.Outcome State Fault Refusal :=
  writeSys cond rt true s fun _ => s.fenceStores

/-- DCCMVAU (R1514). -/
def execMcrDccmvau (cond : BitVec 4) (rt : BitVec 4) (s : State) : Host.Outcome State Fault Refusal :=
  withSys cond rt s.sysPriv s fun v => byAddress false (onL1d cleanL1d) v s

/-- DCCIMVAC (R1515). -/
def execMcrDccimvac (cond : BitVec 4) (rt : BitVec 4) (s : State) : Host.Outcome State Fault Refusal :=
  withSys cond rt s.sysPriv s fun v => byAddress false (fun p s => invalidateToPoC p (cleanToPoC p s)) v s

/-- DCCISW (R1516). -/
def execMcrDccisw (cond : BitVec 4) (rt : BitVec 4) (s : State) : Host.Outcome State Fault Refusal :=
  writeSys cond rt s.sysPriv s fun v => bySetWay ⟨true, true⟩ v s

/-- ITLBIALL (R1517). -/
def execMcrItlbiall (cond : BitVec 4) (rt : BitVec 4) (s : State) : Host.Outcome State Fault Refusal :=
  writeSys cond rt s.sysPriv s fun _ => flushTlbs true false (goneAll s) s

/-- ITLBIMVA (R1518). -/
def execMcrItlbimva (cond : BitVec 4) (rt : BitVec 4) (s : State) : Host.Outcome State Fault Refusal :=
  writeSys cond rt s.sysPriv s fun v => flushTlbs true false (goneMva v s) s

/-- ITLBIASID (R1519). -/
def execMcrItlbiasid (cond : BitVec 4) (rt : BitVec 4) (s : State) : Host.Outcome State Fault Refusal :=
  writeSys cond rt s.sysPriv s fun v => flushTlbs true false (goneAsid v s) s

/-- DTLBIALL (R1520). -/
def execMcrDtlbiall (cond : BitVec 4) (rt : BitVec 4) (s : State) : Host.Outcome State Fault Refusal :=
  writeSys cond rt s.sysPriv s fun _ => flushTlbs false true (goneAll s) s

/-- DTLBIMVA (R1521). -/
def execMcrDtlbimva (cond : BitVec 4) (rt : BitVec 4) (s : State) : Host.Outcome State Fault Refusal :=
  writeSys cond rt s.sysPriv s fun v => flushTlbs false true (goneMva v s) s

/-- DTLBIASID (R1522). -/
def execMcrDtlbiasid (cond : BitVec 4) (rt : BitVec 4) (s : State) : Host.Outcome State Fault Refusal :=
  writeSys cond rt s.sysPriv s fun v => flushTlbs false true (goneAsid v s) s

/-- TLBIALL (R1523). -/
def execMcrTlbiall (cond : BitVec 4) (rt : BitVec 4) (s : State) : Host.Outcome State Fault Refusal :=
  writeSys cond rt s.sysPriv s fun _ => flushTlbs true true (goneAll s) s

/-- TLBIMVA (R1524). -/
def execMcrTlbimva (cond : BitVec 4) (rt : BitVec 4) (s : State) : Host.Outcome State Fault Refusal :=
  writeSys cond rt s.sysPriv s fun v => flushTlbs true true (goneMva v s) s

/-- TLBIASID (R1525). -/
def execMcrTlbiasid (cond : BitVec 4) (rt : BitVec 4) (s : State) : Host.Outcome State Fault Refusal :=
  writeSys cond rt s.sysPriv s fun v => flushTlbs true true (goneAsid v s) s

/-- Data TLB preload (R2502). -/
def execMcrDtlbPreload (cond : BitVec 4) (rt : BitVec 4) (s : State) : Host.Outcome State Fault Refusal :=
  withSys cond rt (s.sysGated 17) s fun v => preloadTlb true v s

/-- Instruction TLB preload (R2503). -/
def execMcrItlbPreload (cond : BitVec 4) (rt : BitVec 4) (s : State) : Host.Outcome State Fault Refusal :=
  withSys cond rt (s.sysGated 17) s fun v => preloadTlb false v s

end Sys2Proof.Machine
end

