-- ==== Sys2Proof/Machine/Media.lean ====
section
/-! DEFINITION. The media instructions (47_media_instructions.md). They name no r15 (R2402), change no memory and of CPSR
only Q (R2403) and GE (R2445). -/

namespace Sys2Proof.Machine

/-- Write the result of a media instruction. -/
def mediaWrite (regs : List (BitVec 4)) (rd : BitVec 4) (v : Word) (s : State) : Host.Outcome State Fault Refusal :=
  unlessPC (rd :: regs) (.next (s.setReg rd v).advance)

/-- Write a saturated result and set Q if it saturated (R2403). -/
def satWrite (regs : List (BitVec 4)) (rd : BitVec 4) (v : Word) (sat : Bool) (s : State) :
    Host.Outcome State Fault Refusal :=
  unlessPC (rd :: regs) (.next ((s.setReg rd v).stickyQ sat).advance)

def byteOf (w : Word) (i : Nat) : Byte := w.extractLsb' (8 * i) 8
def halfOf (w : Word) (i : Nat) : Half := w.extractLsb' (16 * i) 16

/-- The word of the fields, the first one lowest, each `n` bits wide. -/
def packFields (n : Nat) : List Int → Word
  | [] => 0
  | e :: es => (BitVec.ofInt n e).setWidth 32 ||| (packFields n es <<< n)

/-! ## Reversal -/

/-- A word with its bytes reversed (R2405). -/
def revBytes (w : Word) : Word := byteOf w 0 ++ byteOf w 1 ++ byteOf w 2 ++ byteOf w 3

/-- A word with the bytes of each halfword exchanged (R2406). -/
def revHalves (w : Word) : Word := byteOf w 2 ++ byteOf w 3 ++ byteOf w 0 ++ byteOf w 1

/-- The low halfword, its bytes exchanged, sign-extended (R2407). -/
def revSigned (w : Word) : Word := (byteOf w 0 ++ byteOf w 1).signExtend 32

/-! ## Bit fields -/

/-- The mask of the bits from `lsb` to `msb`. -/
def fieldMask (msb lsb : BitVec 5) : Word := ((BitVec.allOnes 32) <<< lsb.toNat) &&& ((BitVec.allOnes 32) >>> (31 - msb.toNat))

/-- Insert the low bits of `v` at bits `msb` to `lsb` of the destination; `msb` below `lsb` is Unpredictable (R2411). -/
def insertField (regs : List (BitVec 4)) (msb : BitVec 5) (rd : BitVec 4) (lsb : BitVec 5) (v : Word) (s : State) :
    Host.Outcome State Fault Refusal :=
  if msb < lsb then .fault .operands
  else
    let m := fieldMask msb lsb
    mediaWrite regs rd ((s.reg rd &&& ~~~m) ||| ((v <<< lsb.toNat) &&& m)) s

/-- A field of `width - 1 = widthm1` from bit `lsb`, extended; past bit 31 it is Unpredictable (R2412). -/
def extractField (signed : Bool) (widthm1 : BitVec 5) (rd : BitVec 4) (lsb : BitVec 5) (rn : BitVec 4) (s : State) :
    Host.Outcome State Fault Refusal :=
  if 31 < lsb.toNat + widthm1.toNat then .fault .operands
  else
    let f := (s.reg rn).extractLsb' lsb.toNat (widthm1.toNat + 1)
    mediaWrite [rn] rd (if signed then f.signExtend 32 else f.setWidth 32) s

/-! ## Extension (R2424) -/

/-- The register operand of an extension, rotated by 0, 8, 16 or 24. -/
def rotated (rm : BitVec 4) (rotate : BitVec 2) (s : State) : Word := (s.reg rm).rotateRight (8 * rotate.toNat)

/-- Extend a field to a word. -/
def extend {n : Nat} (signed : Bool) (f : BitVec n) : Word := if signed then f.signExtend 32 else f.setWidth 32

/-- Extend bytes 0 and 2 to halfwords and add them to the halfwords of `acc`, each modulo 2^16. -/
def extendAdd16 (signed : Bool) (acc w : Word) : Word :=
  let e (b : Byte) : Half := if signed then b.signExtend 16 else b.setWidth 16
  (halfOf acc 1 + e (byteOf w 2)) ++ (halfOf acc 0 + e (byteOf w 0))

/-! ## Saturation -/

/-- The operand of SSAT and USAT: LSL by imm5, or ASR by imm5 where 0 means 32 (R2416). -/
def satOperand (rn : BitVec 4) (imm5 : BitVec 5) (sh : BitVec 1) (s : State) : Int :=
  ((immShiftC (s.reg rn) (if sh = 1 then 2 else 0) imm5 false).1).toInt

/-- Saturate both halfwords (R2418, R2419). -/
def sat16 (f : Int → Int × Bool) (w : Word) : Word × Bool :=
  let lo := f (halfOf w 0).toInt
  let hi := f (halfOf w 1).toInt
  (packFields 16 [lo.1, hi.1], lo.2 || hi.2)

/-! ## Parallel addition and subtraction (R2445) -/

inductive ParOp where
  | add16 | asx | sax | sub16 | add8 | sub8
  deriving DecidableEq, Repr

inductive ParKind where
  | s | q | sh | u | uq | uh
  deriving DecidableEq, Repr

def ParOp.width : ParOp → Nat
  | .add8 => 8
  | .sub8 => 8
  | _ => 16

def ParKind.signed : ParKind → Bool
  | .s => true
  | .q => true
  | .sh => true
  | _ => false

/-- For each element, lowest first: its field of A, its field of B, whether it subtracts. -/
def ParOp.terms : ParOp → List (Nat × Nat × Bool)
  | .add16 => [(0, 0, false), (1, 1, false)]
  | .asx => [(0, 1, true), (1, 0, false)]
  | .sax => [(0, 1, false), (1, 0, true)]
  | .sub16 => [(0, 0, true), (1, 1, true)]
  | .add8 => [(0, 0, false), (1, 1, false), (2, 2, false), (3, 3, false)]
  | .sub8 => [(0, 0, true), (1, 1, true), (2, 2, true), (3, 3, true)]

/-- A field of an operand, read as signed or unsigned. -/
def parField (signed : Bool) (n i : Nat) (w : Word) : Int :=
  let f := w.extractLsb' (n * i) n
  if signed then f.toInt else f.toNat

/-- The exact element results, each with whether it is a subtraction. -/
def parElements (k : ParKind) (op : ParOp) (a b : Word) : List (Int × Bool) :=
  op.terms.map fun t =>
    let x := parField k.signed op.width t.1 a
    let y := parField k.signed op.width t.2.1 b
    (if t.2.2 then x - y else x + y, t.2.2)

/-- The stored value of an element, as an integer that is then reduced to its field. -/
def parStored (k : ParKind) (n : Nat) (e : Int) : Int :=
  match k with
  | .s => e
  | .u => e
  | .q => (signedSatQ e n).1
  | .uq => (unsignedSatQ e n).1
  | .sh => e / 2
  | .uh => e / 2

/-- The GE bit of an element (10_state.md R71). -/
def parGE (k : ParKind) (n : Nat) (e : Int × Bool) : Bool :=
  if k.signed || e.2 then decide (0 ≤ e.1) else decide (2 ^ n ≤ e.1)

/-- The four GE bits: one for each byte, or two for each halfword. -/
def parGEs (k : ParKind) (op : ParOp) (es : List (Int × Bool)) : BitVec 4 :=
  let g (i : Nat) : BitVec 1 := bit ((es[i]?.map (parGE k op.width)).getD false)
  if op.width = 8 then g 3 ++ g 2 ++ g 1 ++ g 0 else g 1 ++ g 1 ++ g 0 ++ g 0

/-- A parallel addition or subtraction: the S and U kinds also write GE. -/
def parallel (k : ParKind) (op : ParOp) (rn rd rm : BitVec 4) (s : State) : Host.Outcome State Fault Refusal :=
  let es := parElements k op (s.reg rn) (s.reg rm)
  let v := packFields op.width (es.map fun e => parStored k op.width e.1)
  let s' := s.setReg rd v
  unlessPC [rd, rn, rm] (.next (if k = .s ∨ k = .u then s'.setGE (parGEs k op es) else s').advance)

/-- The sum of the absolute differences of the bytes (R2485). -/
def sumAbsDiff (a b : Word) : Nat :=
  ((List.range 4).map fun i => (((byteOf a i).toNat : Int) - (byteOf b i).toNat).natAbs).sum

/-- Bit `i` of GE chooses the byte (R2415). -/
def selectBytes (ge : BitVec 4) (a b : Word) : Word :=
  let f (i : Nat) : Byte := if ge.getLsbD i then byteOf a i else byteOf b i
  f 3 ++ f 2 ++ f 1 ++ f 0

/-- REV (R2405). -/
def execRev (cond : BitVec 4) (rd : BitVec 4) (rm : BitVec 4) (s : State) : Host.Outcome State Fault Refusal :=
  onCond cond s (mediaWrite [rm] rd (revBytes (s.reg rm)) s)

/-- REV16 (R2406). -/
def execRev16 (cond : BitVec 4) (rd : BitVec 4) (rm : BitVec 4) (s : State) : Host.Outcome State Fault Refusal :=
  onCond cond s (mediaWrite [rm] rd (revHalves (s.reg rm)) s)

/-- REVSH (R2407). -/
def execRevsh (cond : BitVec 4) (rd : BitVec 4) (rm : BitVec 4) (s : State) : Host.Outcome State Fault Refusal :=
  onCond cond s (mediaWrite [rm] rd (revSigned (s.reg rm)) s)

/-- RBIT (R2408). -/
def execRbit (cond : BitVec 4) (rd : BitVec 4) (rm : BitVec 4) (s : State) : Host.Outcome State Fault Refusal :=
  onCond cond s (mediaWrite [rm] rd (s.reg rm).reverse s)

/-- BFC (R2410). -/
def execBfc (cond : BitVec 4) (msb : BitVec 5) (rd : BitVec 4) (lsb : BitVec 5) (s : State) : Host.Outcome State Fault Refusal :=
  onCond cond s (insertField [] msb rd lsb 0 s)

/-- BFI (R2411). -/
def execBfi (cond : BitVec 4) (msb : BitVec 5) (rd : BitVec 4) (lsb : BitVec 5) (rn : BitVec 4) (s : State) : Host.Outcome State Fault Refusal :=
  onCond cond s (insertField [rn] msb rd lsb (s.reg rn) s)

/-- SBFX (R2412). -/
def execSbfx (cond : BitVec 4) (widthm1 : BitVec 5) (rd : BitVec 4) (lsb : BitVec 5) (rn : BitVec 4) (s : State) : Host.Outcome State Fault Refusal :=
  onCond cond s (extractField true widthm1 rd lsb rn s)

/-- UBFX (R2413). -/
def execUbfx (cond : BitVec 4) (widthm1 : BitVec 5) (rd : BitVec 4) (lsb : BitVec 5) (rn : BitVec 4) (s : State) : Host.Outcome State Fault Refusal :=
  onCond cond s (extractField false widthm1 rd lsb rn s)

/-- SEL (R2415). -/
def execSel (cond : BitVec 4) (rn : BitVec 4) (rd : BitVec 4) (rm : BitVec 4) (s : State) : Host.Outcome State Fault Refusal :=
  onCond cond s (mediaWrite [rn, rm] rd (selectBytes s.ge (s.reg rn) (s.reg rm)) s)

/-- SSAT (R2416). -/
def execSsat (cond : BitVec 4) (satImm : BitVec 5) (rd : BitVec 4) (imm5 : BitVec 5) (sh : BitVec 1) (rn : BitVec 4) (s : State) : Host.Outcome State Fault Refusal :=
  let r := signedSatQ (satOperand rn imm5 sh s) (satImm.toNat + 1)
  onCond cond s (satWrite [rn] rd (BitVec.ofInt 32 r.1) r.2 s)

/-- USAT (R2417). -/
def execUsat (cond : BitVec 4) (satImm : BitVec 5) (rd : BitVec 4) (imm5 : BitVec 5) (sh : BitVec 1) (rn : BitVec 4) (s : State) : Host.Outcome State Fault Refusal :=
  let r := unsignedSatQ (satOperand rn imm5 sh s) satImm.toNat
  onCond cond s (satWrite [rn] rd (BitVec.ofInt 32 r.1) r.2 s)

/-- SSAT16 (R2418). -/
def execSsat16 (cond : BitVec 4) (satImm : BitVec 4) (rd : BitVec 4) (rn : BitVec 4) (s : State) : Host.Outcome State Fault Refusal :=
  let r := sat16 (signedSatQ · (satImm.toNat + 1)) (s.reg rn)
  onCond cond s (satWrite [rn] rd r.1 r.2 s)

/-- USAT16 (R2419). -/
def execUsat16 (cond : BitVec 4) (satImm : BitVec 4) (rd : BitVec 4) (rn : BitVec 4) (s : State) : Host.Outcome State Fault Refusal :=
  let r := sat16 (unsignedSatQ · satImm.toNat) (s.reg rn)
  onCond cond s (satWrite [rn] rd r.1 r.2 s)

/-- PKHBT (R2420). -/
def execPkhbt (cond : BitVec 4) (rn : BitVec 4) (rd : BitVec 4) (imm5 : BitVec 5) (rm : BitVec 4) (s : State) : Host.Outcome State Fault Refusal :=
  onCond cond s (mediaWrite [rn, rm] rd (halfOf (s.reg rm <<< imm5.toNat) 1 ++ halfOf (s.reg rn) 0) s)

/-- PKHTB (R2421): an immediate of 0 means ASR by 32. -/
def execPkhtb (cond : BitVec 4) (rn : BitVec 4) (rd : BitVec 4) (imm5 : BitVec 5) (rm : BitVec 4) (s : State) : Host.Outcome State Fault Refusal :=
  onCond cond s (mediaWrite [rn, rm] rd (halfOf (s.reg rn) 1 ++ halfOf (immShiftC (s.reg rm) 2 imm5 false).1 0) s)

/-- SXTB (R2425). -/
def execSxtb (cond : BitVec 4) (rd : BitVec 4) (rotate : BitVec 2) (rm : BitVec 4) (s : State) : Host.Outcome State Fault Refusal :=
  onCond cond s (mediaWrite [rm] rd (extend true (byteOf (rotated rm rotate s) 0)) s)

/-- SXTH (R2426). -/
def execSxth (cond : BitVec 4) (rd : BitVec 4) (rotate : BitVec 2) (rm : BitVec 4) (s : State) : Host.Outcome State Fault Refusal :=
  onCond cond s (mediaWrite [rm] rd (extend true (halfOf (rotated rm rotate s) 0)) s)

/-- SXTB16 (R2427). -/
def execSxtb16 (cond : BitVec 4) (rd : BitVec 4) (rotate : BitVec 2) (rm : BitVec 4) (s : State) : Host.Outcome State Fault Refusal :=
  onCond cond s (mediaWrite [rm] rd (extendAdd16 true 0 (rotated rm rotate s)) s)

/-- SXTAB (R2431). -/
def execSxtab (cond : BitVec 4) (rn : BitVec 4) (rd : BitVec 4) (rotate : BitVec 2) (rm : BitVec 4) (s : State) : Host.Outcome State Fault Refusal :=
  onCond cond s (mediaWrite [rn, rm] rd (s.reg rn + extend true (byteOf (rotated rm rotate s) 0)) s)

/-- SXTAH (R2432). -/
def execSxtah (cond : BitVec 4) (rn : BitVec 4) (rd : BitVec 4) (rotate : BitVec 2) (rm : BitVec 4) (s : State) : Host.Outcome State Fault Refusal :=
  onCond cond s (mediaWrite [rn, rm] rd (s.reg rn + extend true (halfOf (rotated rm rotate s) 0)) s)

/-- SXTAB16 (R2433). -/
def execSxtab16 (cond : BitVec 4) (rn : BitVec 4) (rd : BitVec 4) (rotate : BitVec 2) (rm : BitVec 4) (s : State) : Host.Outcome State Fault Refusal :=
  onCond cond s (mediaWrite [rn, rm] rd (extendAdd16 true (s.reg rn) (rotated rm rotate s)) s)

/-- UXTB (R2428). -/
def execUxtb (cond : BitVec 4) (rd : BitVec 4) (rotate : BitVec 2) (rm : BitVec 4) (s : State) : Host.Outcome State Fault Refusal :=
  onCond cond s (mediaWrite [rm] rd (extend false (byteOf (rotated rm rotate s) 0)) s)

/-- UXTH (R2429). -/
def execUxth (cond : BitVec 4) (rd : BitVec 4) (rotate : BitVec 2) (rm : BitVec 4) (s : State) : Host.Outcome State Fault Refusal :=
  onCond cond s (mediaWrite [rm] rd (extend false (halfOf (rotated rm rotate s) 0)) s)

/-- UXTB16 (R2430). -/
def execUxtb16 (cond : BitVec 4) (rd : BitVec 4) (rotate : BitVec 2) (rm : BitVec 4) (s : State) : Host.Outcome State Fault Refusal :=
  onCond cond s (mediaWrite [rm] rd (extendAdd16 false 0 (rotated rm rotate s)) s)

/-- UXTAB (R2434). -/
def execUxtab (cond : BitVec 4) (rn : BitVec 4) (rd : BitVec 4) (rotate : BitVec 2) (rm : BitVec 4) (s : State) : Host.Outcome State Fault Refusal :=
  onCond cond s (mediaWrite [rn, rm] rd (s.reg rn + extend false (byteOf (rotated rm rotate s) 0)) s)

/-- UXTAH (R2435). -/
def execUxtah (cond : BitVec 4) (rn : BitVec 4) (rd : BitVec 4) (rotate : BitVec 2) (rm : BitVec 4) (s : State) : Host.Outcome State Fault Refusal :=
  onCond cond s (mediaWrite [rn, rm] rd (s.reg rn + extend false (halfOf (rotated rm rotate s) 0)) s)

/-- UXTAB16 (R2436). -/
def execUxtab16 (cond : BitVec 4) (rn : BitVec 4) (rd : BitVec 4) (rotate : BitVec 2) (rm : BitVec 4) (s : State) : Host.Outcome State Fault Refusal :=
  onCond cond s (mediaWrite [rn, rm] rd (extendAdd16 false (s.reg rn) (rotated rm rotate s)) s)

/-- QADD (R2440): the first source is Rm. -/
def execQadd (cond : BitVec 4) (rn : BitVec 4) (rd : BitVec 4) (rm : BitVec 4) (s : State) : Host.Outcome State Fault Refusal :=
  let r := signedSatQ ((s.reg rm).toInt + (s.reg rn).toInt) 32
  onCond cond s (satWrite [rn, rm] rd (BitVec.ofInt 32 r.1) r.2 s)

/-- QSUB (R2441). -/
def execQsub (cond : BitVec 4) (rn : BitVec 4) (rd : BitVec 4) (rm : BitVec 4) (s : State) : Host.Outcome State Fault Refusal :=
  let r := signedSatQ ((s.reg rm).toInt - (s.reg rn).toInt) 32
  onCond cond s (satWrite [rn, rm] rd (BitVec.ofInt 32 r.1) r.2 s)

/-- QDADD (R2442). -/
def execQdadd (cond : BitVec 4) (rn : BitVec 4) (rd : BitVec 4) (rm : BitVec 4) (s : State) : Host.Outcome State Fault Refusal :=
  let d := signedSatQ (2 * (s.reg rn).toInt) 32
  let r := signedSatQ ((s.reg rm).toInt + d.1) 32
  onCond cond s (satWrite [rn, rm] rd (BitVec.ofInt 32 r.1) (d.2 || r.2) s)

/-- QDSUB (R2443). -/
def execQdsub (cond : BitVec 4) (rn : BitVec 4) (rd : BitVec 4) (rm : BitVec 4) (s : State) : Host.Outcome State Fault Refusal :=
  let d := signedSatQ (2 * (s.reg rn).toInt) 32
  let r := signedSatQ ((s.reg rm).toInt - d.1) 32
  onCond cond s (satWrite [rn, rm] rd (BitVec.ofInt 32 r.1) (d.2 || r.2) s)

/-- SADD16 (R2446). -/
def execSadd16 (cond : BitVec 4) (rn : BitVec 4) (rd : BitVec 4) (rm : BitVec 4) (s : State) : Host.Outcome State Fault Refusal :=
  onCond cond s (parallel .s .add16 rn rd rm s)

/-- SASX (R2447). -/
def execSasx (cond : BitVec 4) (rn : BitVec 4) (rd : BitVec 4) (rm : BitVec 4) (s : State) : Host.Outcome State Fault Refusal :=
  onCond cond s (parallel .s .asx rn rd rm s)

/-- SSAX (R2448). -/
def execSsax (cond : BitVec 4) (rn : BitVec 4) (rd : BitVec 4) (rm : BitVec 4) (s : State) : Host.Outcome State Fault Refusal :=
  onCond cond s (parallel .s .sax rn rd rm s)

/-- SSUB16 (R2449). -/
def execSsub16 (cond : BitVec 4) (rn : BitVec 4) (rd : BitVec 4) (rm : BitVec 4) (s : State) : Host.Outcome State Fault Refusal :=
  onCond cond s (parallel .s .sub16 rn rd rm s)

/-- SADD8 (R2450). -/
def execSadd8 (cond : BitVec 4) (rn : BitVec 4) (rd : BitVec 4) (rm : BitVec 4) (s : State) : Host.Outcome State Fault Refusal :=
  onCond cond s (parallel .s .add8 rn rd rm s)

/-- SSUB8 (R2451). -/
def execSsub8 (cond : BitVec 4) (rn : BitVec 4) (rd : BitVec 4) (rm : BitVec 4) (s : State) : Host.Outcome State Fault Refusal :=
  onCond cond s (parallel .s .sub8 rn rd rm s)

/-- QADD16 (R2452). -/
def execQadd16 (cond : BitVec 4) (rn : BitVec 4) (rd : BitVec 4) (rm : BitVec 4) (s : State) : Host.Outcome State Fault Refusal :=
  onCond cond s (parallel .q .add16 rn rd rm s)

/-- QASX (R2453). -/
def execQasx (cond : BitVec 4) (rn : BitVec 4) (rd : BitVec 4) (rm : BitVec 4) (s : State) : Host.Outcome State Fault Refusal :=
  onCond cond s (parallel .q .asx rn rd rm s)

/-- QSAX (R2454). -/
def execQsax (cond : BitVec 4) (rn : BitVec 4) (rd : BitVec 4) (rm : BitVec 4) (s : State) : Host.Outcome State Fault Refusal :=
  onCond cond s (parallel .q .sax rn rd rm s)

/-- QSUB16 (R2455). -/
def execQsub16 (cond : BitVec 4) (rn : BitVec 4) (rd : BitVec 4) (rm : BitVec 4) (s : State) : Host.Outcome State Fault Refusal :=
  onCond cond s (parallel .q .sub16 rn rd rm s)

/-- QADD8 (R2456). -/
def execQadd8 (cond : BitVec 4) (rn : BitVec 4) (rd : BitVec 4) (rm : BitVec 4) (s : State) : Host.Outcome State Fault Refusal :=
  onCond cond s (parallel .q .add8 rn rd rm s)

/-- QSUB8 (R2457). -/
def execQsub8 (cond : BitVec 4) (rn : BitVec 4) (rd : BitVec 4) (rm : BitVec 4) (s : State) : Host.Outcome State Fault Refusal :=
  onCond cond s (parallel .q .sub8 rn rd rm s)

/-- SHADD16 (R2458). -/
def execShadd16 (cond : BitVec 4) (rn : BitVec 4) (rd : BitVec 4) (rm : BitVec 4) (s : State) : Host.Outcome State Fault Refusal :=
  onCond cond s (parallel .sh .add16 rn rd rm s)

/-- SHASX (R2459). -/
def execShasx (cond : BitVec 4) (rn : BitVec 4) (rd : BitVec 4) (rm : BitVec 4) (s : State) : Host.Outcome State Fault Refusal :=
  onCond cond s (parallel .sh .asx rn rd rm s)

/-- SHSAX (R2460). -/
def execShsax (cond : BitVec 4) (rn : BitVec 4) (rd : BitVec 4) (rm : BitVec 4) (s : State) : Host.Outcome State Fault Refusal :=
  onCond cond s (parallel .sh .sax rn rd rm s)

/-- SHSUB16 (R2461). -/
def execShsub16 (cond : BitVec 4) (rn : BitVec 4) (rd : BitVec 4) (rm : BitVec 4) (s : State) : Host.Outcome State Fault Refusal :=
  onCond cond s (parallel .sh .sub16 rn rd rm s)

/-- SHADD8 (R2462). -/
def execShadd8 (cond : BitVec 4) (rn : BitVec 4) (rd : BitVec 4) (rm : BitVec 4) (s : State) : Host.Outcome State Fault Refusal :=
  onCond cond s (parallel .sh .add8 rn rd rm s)

/-- SHSUB8 (R2463). -/
def execShsub8 (cond : BitVec 4) (rn : BitVec 4) (rd : BitVec 4) (rm : BitVec 4) (s : State) : Host.Outcome State Fault Refusal :=
  onCond cond s (parallel .sh .sub8 rn rd rm s)

/-- UADD16 (R2464). -/
def execUadd16 (cond : BitVec 4) (rn : BitVec 4) (rd : BitVec 4) (rm : BitVec 4) (s : State) : Host.Outcome State Fault Refusal :=
  onCond cond s (parallel .u .add16 rn rd rm s)

/-- UASX (R2465). -/
def execUasx (cond : BitVec 4) (rn : BitVec 4) (rd : BitVec 4) (rm : BitVec 4) (s : State) : Host.Outcome State Fault Refusal :=
  onCond cond s (parallel .u .asx rn rd rm s)

/-- USAX (R2466). -/
def execUsax (cond : BitVec 4) (rn : BitVec 4) (rd : BitVec 4) (rm : BitVec 4) (s : State) : Host.Outcome State Fault Refusal :=
  onCond cond s (parallel .u .sax rn rd rm s)

/-- USUB16 (R2467). -/
def execUsub16 (cond : BitVec 4) (rn : BitVec 4) (rd : BitVec 4) (rm : BitVec 4) (s : State) : Host.Outcome State Fault Refusal :=
  onCond cond s (parallel .u .sub16 rn rd rm s)

/-- UADD8 (R2468). -/
def execUadd8 (cond : BitVec 4) (rn : BitVec 4) (rd : BitVec 4) (rm : BitVec 4) (s : State) : Host.Outcome State Fault Refusal :=
  onCond cond s (parallel .u .add8 rn rd rm s)

/-- USUB8 (R2469). -/
def execUsub8 (cond : BitVec 4) (rn : BitVec 4) (rd : BitVec 4) (rm : BitVec 4) (s : State) : Host.Outcome State Fault Refusal :=
  onCond cond s (parallel .u .sub8 rn rd rm s)

/-- UQADD16 (R2470). -/
def execUqadd16 (cond : BitVec 4) (rn : BitVec 4) (rd : BitVec 4) (rm : BitVec 4) (s : State) : Host.Outcome State Fault Refusal :=
  onCond cond s (parallel .uq .add16 rn rd rm s)

/-- UQASX (R2471). -/
def execUqasx (cond : BitVec 4) (rn : BitVec 4) (rd : BitVec 4) (rm : BitVec 4) (s : State) : Host.Outcome State Fault Refusal :=
  onCond cond s (parallel .uq .asx rn rd rm s)

/-- UQSAX (R2472). -/
def execUqsax (cond : BitVec 4) (rn : BitVec 4) (rd : BitVec 4) (rm : BitVec 4) (s : State) : Host.Outcome State Fault Refusal :=
  onCond cond s (parallel .uq .sax rn rd rm s)

/-- UQSUB16 (R2473). -/
def execUqsub16 (cond : BitVec 4) (rn : BitVec 4) (rd : BitVec 4) (rm : BitVec 4) (s : State) : Host.Outcome State Fault Refusal :=
  onCond cond s (parallel .uq .sub16 rn rd rm s)

/-- UQADD8 (R2474). -/
def execUqadd8 (cond : BitVec 4) (rn : BitVec 4) (rd : BitVec 4) (rm : BitVec 4) (s : State) : Host.Outcome State Fault Refusal :=
  onCond cond s (parallel .uq .add8 rn rd rm s)

/-- UQSUB8 (R2475). -/
def execUqsub8 (cond : BitVec 4) (rn : BitVec 4) (rd : BitVec 4) (rm : BitVec 4) (s : State) : Host.Outcome State Fault Refusal :=
  onCond cond s (parallel .uq .sub8 rn rd rm s)

/-- UHADD16 (R2476). -/
def execUhadd16 (cond : BitVec 4) (rn : BitVec 4) (rd : BitVec 4) (rm : BitVec 4) (s : State) : Host.Outcome State Fault Refusal :=
  onCond cond s (parallel .uh .add16 rn rd rm s)

/-- UHASX (R2477). -/
def execUhasx (cond : BitVec 4) (rn : BitVec 4) (rd : BitVec 4) (rm : BitVec 4) (s : State) : Host.Outcome State Fault Refusal :=
  onCond cond s (parallel .uh .asx rn rd rm s)

/-- UHSAX (R2478). -/
def execUhsax (cond : BitVec 4) (rn : BitVec 4) (rd : BitVec 4) (rm : BitVec 4) (s : State) : Host.Outcome State Fault Refusal :=
  onCond cond s (parallel .uh .sax rn rd rm s)

/-- UHSUB16 (R2479). -/
def execUhsub16 (cond : BitVec 4) (rn : BitVec 4) (rd : BitVec 4) (rm : BitVec 4) (s : State) : Host.Outcome State Fault Refusal :=
  onCond cond s (parallel .uh .sub16 rn rd rm s)

/-- UHADD8 (R2480). -/
def execUhadd8 (cond : BitVec 4) (rn : BitVec 4) (rd : BitVec 4) (rm : BitVec 4) (s : State) : Host.Outcome State Fault Refusal :=
  onCond cond s (parallel .uh .add8 rn rd rm s)

/-- UHSUB8 (R2481). -/
def execUhsub8 (cond : BitVec 4) (rn : BitVec 4) (rd : BitVec 4) (rm : BitVec 4) (s : State) : Host.Outcome State Fault Refusal :=
  onCond cond s (parallel .uh .sub8 rn rd rm s)

/-- USAD8 (R2485). -/
def execUsad8 (cond : BitVec 4) (rd : BitVec 4) (rm : BitVec 4) (rn : BitVec 4) (s : State) : Host.Outcome State Fault Refusal :=
  onCond cond s (mediaWrite [rm, rn] rd (BitVec.ofNat 32 (sumAbsDiff (s.reg rn) (s.reg rm))) s)

/-- USADA8 (R2486). -/
def execUsada8 (cond : BitVec 4) (rd : BitVec 4) (ra : BitVec 4) (rm : BitVec 4) (rn : BitVec 4) (s : State) : Host.Outcome State Fault Refusal :=
  onCond cond s (mediaWrite [ra, rm, rn] rd (s.reg ra + BitVec.ofNat 32 (sumAbsDiff (s.reg rn) (s.reg rm))) s)

end Sys2Proof.Machine
end

