-- ==== Sys2Proof/Machine/Multiply.lean ====
section
/-! DEFINITION. The multiply instructions (43_multiply.md). Products are computed as unbounded integers and reduced once;
r15 in any register field is Unpredictable (R1661). -/

namespace Sys2Proof.Machine

/-- The bottom (false) or top (true) halfword, read as signed. -/
def halfInt (w : Word) (top : Bool) : Int := (w.extractLsb' (if top then 16 else 0) 16).toInt

/-- The 64-bit value of a register pair. -/
def pairOf (hi lo : BitVec 4) (s : State) : Dword := s.reg hi ++ s.reg lo

/-- Write a 32-bit result. -/
def mulWrite (rd : BitVec 4) (r : Int) (s : State) : State := s.setReg rd (BitVec.ofInt 32 r)

/-- Write a 32-bit result and, with S set, N and Z (R1662). -/
def mulWriteS (sf : BitVec 1) (rd : BitVec 4) (r : Int) (s : State) : State :=
  let v := BitVec.ofInt 32 r
  if sf = 1 then (mulWrite rd r s).setNZ v.msb (v == 0) else mulWrite rd r s

/-- Write a 32-bit accumulation and set Q when it overflows (R1671). -/
def mulWriteQ (rd : BitVec 4) (r : Int) (s : State) : State := (mulWrite rd r s).stickyQ (overflows32 r)

/-- Write a 64-bit result to a register pair. -/
def longWrite (hi lo : BitVec 4) (r : Int) (s : State) : State :=
  let v := BitVec.ofInt 64 r
  (s.setReg lo (v.extractLsb' 0 32)).setReg hi (v.extractLsb' 32 32)

/-- Write a 64-bit result and, with S set, N and Z (R1665). -/
def longWriteS (sf : BitVec 1) (hi lo : BitVec 4) (r : Int) (s : State) : State :=
  let v := BitVec.ofInt 64 r
  if sf = 1 then (longWrite hi lo r s).setNZ v.msb (v == 0) else longWrite hi lo r s

/-- A long multiply names two different destination registers (R1661). -/
def longOp (hi lo rm rn : BitVec 4) (s' : State) : Host.Outcome State Fault Refusal :=
  if hi = lo then .fault .operands else unlessPC [hi, lo, rm, rn] (.next s'.advance)

/-- The halfword product of R1670 and R1671. -/
def halfProduct (rn rm : BitVec 4) (x y : Bool) (s : State) : Int := halfInt (s.reg rn) x * halfInt (s.reg rm) y

/-- The word by halfword product of R1672, its low 16 bits dropped. -/
def wordHalfProduct (rn rm : BitVec 4) (y : Bool) (s : State) : Int :=
  ((s.reg rn).toInt * halfInt (s.reg rm) y) / 2 ^ 16

/-- The second operand of the dual multiplies, its halves exchanged by X. -/
def dualOperand (rm : BitVec 4) (x : Bool) (s : State) : Word := if x then (s.reg rm).rotateRight 16 else s.reg rm

/-- The two products of the dual multiplies. -/
def dualLow (rn rm : BitVec 4) (x : Bool) (s : State) : Int :=
  halfInt (s.reg rn) false * halfInt (dualOperand rm x s) false

def dualHigh (rn rm : BitVec 4) (x : Bool) (s : State) : Int :=
  halfInt (s.reg rn) true * halfInt (dualOperand rm x s) true

/-- The most significant word of a 64-bit result, rounded when `r` is set (R1681). -/
def topWord (p : Int) (r : Bool) : Int := (if r then p + 0x80000000 else p) / 2 ^ 32

def signedProduct (rn rm : BitVec 4) (s : State) : Int := (s.reg rn).toInt * (s.reg rm).toInt

def unsignedProduct (rn rm : BitVec 4) (s : State) : Int := (s.reg rn).toNat * (s.reg rm).toNat

/-- The accumulator of the most significant word multiplies. -/
def topAcc (ra : BitVec 4) (s : State) : Int := (s.reg ra).toInt * 2 ^ 32

/-- MUL (R1662). -/
def execMul (cond : BitVec 4) (sf : BitVec 1) (rd : BitVec 4) (rm : BitVec 4) (rn : BitVec 4) (s : State) : Host.Outcome State Fault Refusal :=
  onCond cond s (unlessPC [rd, rm, rn] (.next (mulWriteS sf rd (unsignedProduct rn rm s) s).advance))

/-- MLA (R1663). -/
def execMla (cond : BitVec 4) (sf : BitVec 1) (rd : BitVec 4) (ra : BitVec 4) (rm : BitVec 4) (rn : BitVec 4) (s : State) : Host.Outcome State Fault Refusal :=
  onCond cond s (unlessPC [rd, ra, rm, rn] (.next (mulWriteS sf rd (unsignedProduct rn rm s + (s.reg ra).toNat) s).advance))

/-- MLS (R1664). -/
def execMls (cond : BitVec 4) (rd : BitVec 4) (ra : BitVec 4) (rm : BitVec 4) (rn : BitVec 4) (s : State) : Host.Outcome State Fault Refusal :=
  onCond cond s (unlessPC [rd, ra, rm, rn] (.next (mulWrite rd ((s.reg ra).toNat - unsignedProduct rn rm s) s).advance))

/-- UMULL (R1665). -/
def execUmull (cond : BitVec 4) (sf : BitVec 1) (rdHi : BitVec 4) (rdLo : BitVec 4) (rm : BitVec 4) (rn : BitVec 4) (s : State) : Host.Outcome State Fault Refusal :=
  onCond cond s (longOp rdHi rdLo rm rn (longWriteS sf rdHi rdLo (unsignedProduct rn rm s) s))

/-- UMLAL (R1666). -/
def execUmlal (cond : BitVec 4) (sf : BitVec 1) (rdHi : BitVec 4) (rdLo : BitVec 4) (rm : BitVec 4) (rn : BitVec 4) (s : State) : Host.Outcome State Fault Refusal :=
  onCond cond s (longOp rdHi rdLo rm rn (longWriteS sf rdHi rdLo (unsignedProduct rn rm s + (pairOf rdHi rdLo s).toNat) s))

/-- UMAAL (R1667). -/
def execUmaal (cond : BitVec 4) (rdHi : BitVec 4) (rdLo : BitVec 4) (rm : BitVec 4) (rn : BitVec 4) (s : State) : Host.Outcome State Fault Refusal :=
  onCond cond s (longOp rdHi rdLo rm rn (longWrite rdHi rdLo (unsignedProduct rn rm s + (s.reg rdHi).toNat + (s.reg rdLo).toNat) s))

/-- SMULL (R1668). -/
def execSmull (cond : BitVec 4) (sf : BitVec 1) (rdHi : BitVec 4) (rdLo : BitVec 4) (rm : BitVec 4) (rn : BitVec 4) (s : State) : Host.Outcome State Fault Refusal :=
  onCond cond s (longOp rdHi rdLo rm rn (longWriteS sf rdHi rdLo (signedProduct rn rm s) s))

/-- SMLAL (R1669). -/
def execSmlal (cond : BitVec 4) (sf : BitVec 1) (rdHi : BitVec 4) (rdLo : BitVec 4) (rm : BitVec 4) (rn : BitVec 4) (s : State) : Host.Outcome State Fault Refusal :=
  onCond cond s (longOp rdHi rdLo rm rn (longWriteS sf rdHi rdLo (signedProduct rn rm s + (pairOf rdHi rdLo s).toInt) s))

/-- SMULBB (R1670). -/
def execSmulbb (cond : BitVec 4) (rd : BitVec 4) (rm : BitVec 4) (rn : BitVec 4) (s : State) : Host.Outcome State Fault Refusal :=
  onCond cond s (unlessPC [rd, rm, rn] (.next (mulWrite rd (halfProduct rn rm false false s) s).advance))

/-- SMLABB (R1671). -/
def execSmlabb (cond : BitVec 4) (rd : BitVec 4) (ra : BitVec 4) (rm : BitVec 4) (rn : BitVec 4) (s : State) : Host.Outcome State Fault Refusal :=
  onCond cond s (unlessPC [rd, ra, rm, rn] (.next (mulWriteQ rd (halfProduct rn rm false false s + (s.reg ra).toInt) s).advance))

/-- SMLALBB (R1674). -/
def execSmlalbb (cond : BitVec 4) (rdHi : BitVec 4) (rdLo : BitVec 4) (rm : BitVec 4) (rn : BitVec 4) (s : State) : Host.Outcome State Fault Refusal :=
  onCond cond s (longOp rdHi rdLo rm rn (longWrite rdHi rdLo (halfProduct rn rm false false s + (pairOf rdHi rdLo s).toInt) s))

/-- SMULBT (R1670). -/
def execSmulbt (cond : BitVec 4) (rd : BitVec 4) (rm : BitVec 4) (rn : BitVec 4) (s : State) : Host.Outcome State Fault Refusal :=
  onCond cond s (unlessPC [rd, rm, rn] (.next (mulWrite rd (halfProduct rn rm false true s) s).advance))

/-- SMLABT (R1671). -/
def execSmlabt (cond : BitVec 4) (rd : BitVec 4) (ra : BitVec 4) (rm : BitVec 4) (rn : BitVec 4) (s : State) : Host.Outcome State Fault Refusal :=
  onCond cond s (unlessPC [rd, ra, rm, rn] (.next (mulWriteQ rd (halfProduct rn rm false true s + (s.reg ra).toInt) s).advance))

/-- SMLALBT (R1674). -/
def execSmlalbt (cond : BitVec 4) (rdHi : BitVec 4) (rdLo : BitVec 4) (rm : BitVec 4) (rn : BitVec 4) (s : State) : Host.Outcome State Fault Refusal :=
  onCond cond s (longOp rdHi rdLo rm rn (longWrite rdHi rdLo (halfProduct rn rm false true s + (pairOf rdHi rdLo s).toInt) s))

/-- SMULTB (R1670). -/
def execSmultb (cond : BitVec 4) (rd : BitVec 4) (rm : BitVec 4) (rn : BitVec 4) (s : State) : Host.Outcome State Fault Refusal :=
  onCond cond s (unlessPC [rd, rm, rn] (.next (mulWrite rd (halfProduct rn rm true false s) s).advance))

/-- SMLATB (R1671). -/
def execSmlatb (cond : BitVec 4) (rd : BitVec 4) (ra : BitVec 4) (rm : BitVec 4) (rn : BitVec 4) (s : State) : Host.Outcome State Fault Refusal :=
  onCond cond s (unlessPC [rd, ra, rm, rn] (.next (mulWriteQ rd (halfProduct rn rm true false s + (s.reg ra).toInt) s).advance))

/-- SMLALTB (R1674). -/
def execSmlaltb (cond : BitVec 4) (rdHi : BitVec 4) (rdLo : BitVec 4) (rm : BitVec 4) (rn : BitVec 4) (s : State) : Host.Outcome State Fault Refusal :=
  onCond cond s (longOp rdHi rdLo rm rn (longWrite rdHi rdLo (halfProduct rn rm true false s + (pairOf rdHi rdLo s).toInt) s))

/-- SMULTT (R1670). -/
def execSmultt (cond : BitVec 4) (rd : BitVec 4) (rm : BitVec 4) (rn : BitVec 4) (s : State) : Host.Outcome State Fault Refusal :=
  onCond cond s (unlessPC [rd, rm, rn] (.next (mulWrite rd (halfProduct rn rm true true s) s).advance))

/-- SMLATT (R1671). -/
def execSmlatt (cond : BitVec 4) (rd : BitVec 4) (ra : BitVec 4) (rm : BitVec 4) (rn : BitVec 4) (s : State) : Host.Outcome State Fault Refusal :=
  onCond cond s (unlessPC [rd, ra, rm, rn] (.next (mulWriteQ rd (halfProduct rn rm true true s + (s.reg ra).toInt) s).advance))

/-- SMLALTT (R1674). -/
def execSmlaltt (cond : BitVec 4) (rdHi : BitVec 4) (rdLo : BitVec 4) (rm : BitVec 4) (rn : BitVec 4) (s : State) : Host.Outcome State Fault Refusal :=
  onCond cond s (longOp rdHi rdLo rm rn (longWrite rdHi rdLo (halfProduct rn rm true true s + (pairOf rdHi rdLo s).toInt) s))

/-- SMULWB (R1672). -/
def execSmulwb (cond : BitVec 4) (rd : BitVec 4) (rm : BitVec 4) (rn : BitVec 4) (s : State) : Host.Outcome State Fault Refusal :=
  onCond cond s (unlessPC [rd, rm, rn] (.next (mulWrite rd (wordHalfProduct rn rm false s) s).advance))

/-- SMLAWB (R1673). -/
def execSmlawb (cond : BitVec 4) (rd : BitVec 4) (ra : BitVec 4) (rm : BitVec 4) (rn : BitVec 4) (s : State) : Host.Outcome State Fault Refusal :=
  onCond cond s (unlessPC [rd, ra, rm, rn] (.next (mulWriteQ rd (wordHalfProduct rn rm false s + (s.reg ra).toInt) s).advance))

/-- SMULWT (R1672). -/
def execSmulwt (cond : BitVec 4) (rd : BitVec 4) (rm : BitVec 4) (rn : BitVec 4) (s : State) : Host.Outcome State Fault Refusal :=
  onCond cond s (unlessPC [rd, rm, rn] (.next (mulWrite rd (wordHalfProduct rn rm true s) s).advance))

/-- SMLAWT (R1673). -/
def execSmlawt (cond : BitVec 4) (rd : BitVec 4) (ra : BitVec 4) (rm : BitVec 4) (rn : BitVec 4) (s : State) : Host.Outcome State Fault Refusal :=
  onCond cond s (unlessPC [rd, ra, rm, rn] (.next (mulWriteQ rd (wordHalfProduct rn rm true s + (s.reg ra).toInt) s).advance))

/-- SMUAD (R1675). -/
def execSmuad (cond : BitVec 4) (rd : BitVec 4) (rm : BitVec 4) (rn : BitVec 4) (s : State) : Host.Outcome State Fault Refusal :=
  onCond cond s (unlessPC [rd, rm, rn] (.next (mulWriteQ rd (dualLow rn rm false s + dualHigh rn rm false s) s).advance))

/-- SMUSD (R1676). -/
def execSmusd (cond : BitVec 4) (rd : BitVec 4) (rm : BitVec 4) (rn : BitVec 4) (s : State) : Host.Outcome State Fault Refusal :=
  onCond cond s (unlessPC [rd, rm, rn] (.next (mulWrite rd (dualLow rn rm false s - dualHigh rn rm false s) s).advance))

/-- SMLAD (R1677). -/
def execSmlad (cond : BitVec 4) (rd : BitVec 4) (ra : BitVec 4) (rm : BitVec 4) (rn : BitVec 4) (s : State) : Host.Outcome State Fault Refusal :=
  onCond cond s (unlessPC [rd, ra, rm, rn] (.next (mulWriteQ rd (dualLow rn rm false s + dualHigh rn rm false s + (s.reg ra).toInt) s).advance))

/-- SMLSD (R1678). -/
def execSmlsd (cond : BitVec 4) (rd : BitVec 4) (ra : BitVec 4) (rm : BitVec 4) (rn : BitVec 4) (s : State) : Host.Outcome State Fault Refusal :=
  onCond cond s (unlessPC [rd, ra, rm, rn] (.next (mulWriteQ rd (dualLow rn rm false s - dualHigh rn rm false s + (s.reg ra).toInt) s).advance))

/-- SMLALD (R1679). -/
def execSmlald (cond : BitVec 4) (rdHi : BitVec 4) (rdLo : BitVec 4) (rm : BitVec 4) (rn : BitVec 4) (s : State) : Host.Outcome State Fault Refusal :=
  onCond cond s (longOp rdHi rdLo rm rn (longWrite rdHi rdLo (dualLow rn rm false s + dualHigh rn rm false s + (pairOf rdHi rdLo s).toInt) s))

/-- SMLSLD (R1680). -/
def execSmlsld (cond : BitVec 4) (rdHi : BitVec 4) (rdLo : BitVec 4) (rm : BitVec 4) (rn : BitVec 4) (s : State) : Host.Outcome State Fault Refusal :=
  onCond cond s (longOp rdHi rdLo rm rn (longWrite rdHi rdLo (dualLow rn rm false s - dualHigh rn rm false s + (pairOf rdHi rdLo s).toInt) s))

/-- SMUADX (R1675). -/
def execSmuadx (cond : BitVec 4) (rd : BitVec 4) (rm : BitVec 4) (rn : BitVec 4) (s : State) : Host.Outcome State Fault Refusal :=
  onCond cond s (unlessPC [rd, rm, rn] (.next (mulWriteQ rd (dualLow rn rm true s + dualHigh rn rm true s) s).advance))

/-- SMUSDX (R1676). -/
def execSmusdx (cond : BitVec 4) (rd : BitVec 4) (rm : BitVec 4) (rn : BitVec 4) (s : State) : Host.Outcome State Fault Refusal :=
  onCond cond s (unlessPC [rd, rm, rn] (.next (mulWrite rd (dualLow rn rm true s - dualHigh rn rm true s) s).advance))

/-- SMLADX (R1677). -/
def execSmladx (cond : BitVec 4) (rd : BitVec 4) (ra : BitVec 4) (rm : BitVec 4) (rn : BitVec 4) (s : State) : Host.Outcome State Fault Refusal :=
  onCond cond s (unlessPC [rd, ra, rm, rn] (.next (mulWriteQ rd (dualLow rn rm true s + dualHigh rn rm true s + (s.reg ra).toInt) s).advance))

/-- SMLSDX (R1678). -/
def execSmlsdx (cond : BitVec 4) (rd : BitVec 4) (ra : BitVec 4) (rm : BitVec 4) (rn : BitVec 4) (s : State) : Host.Outcome State Fault Refusal :=
  onCond cond s (unlessPC [rd, ra, rm, rn] (.next (mulWriteQ rd (dualLow rn rm true s - dualHigh rn rm true s + (s.reg ra).toInt) s).advance))

/-- SMLALDX (R1679). -/
def execSmlaldx (cond : BitVec 4) (rdHi : BitVec 4) (rdLo : BitVec 4) (rm : BitVec 4) (rn : BitVec 4) (s : State) : Host.Outcome State Fault Refusal :=
  onCond cond s (longOp rdHi rdLo rm rn (longWrite rdHi rdLo (dualLow rn rm true s + dualHigh rn rm true s + (pairOf rdHi rdLo s).toInt) s))

/-- SMLSLDX (R1680). -/
def execSmlsldx (cond : BitVec 4) (rdHi : BitVec 4) (rdLo : BitVec 4) (rm : BitVec 4) (rn : BitVec 4) (s : State) : Host.Outcome State Fault Refusal :=
  onCond cond s (longOp rdHi rdLo rm rn (longWrite rdHi rdLo (dualLow rn rm true s - dualHigh rn rm true s + (pairOf rdHi rdLo s).toInt) s))

/-- SMMUL (R1681). -/
def execSmmul (cond : BitVec 4) (rd : BitVec 4) (rm : BitVec 4) (rn : BitVec 4) (s : State) : Host.Outcome State Fault Refusal :=
  onCond cond s (unlessPC [rd, rm, rn] (.next (mulWrite rd (topWord (signedProduct rn rm s) false) s).advance))

/-- SMMLA (R1682). -/
def execSmmla (cond : BitVec 4) (rd : BitVec 4) (ra : BitVec 4) (rm : BitVec 4) (rn : BitVec 4) (s : State) : Host.Outcome State Fault Refusal :=
  onCond cond s (unlessPC [rd, ra, rm, rn] (.next (mulWrite rd (topWord (topAcc ra s + signedProduct rn rm s) false) s).advance))

/-- SMMLS (R1683). -/
def execSmmls (cond : BitVec 4) (rd : BitVec 4) (ra : BitVec 4) (rm : BitVec 4) (rn : BitVec 4) (s : State) : Host.Outcome State Fault Refusal :=
  onCond cond s (unlessPC [rd, ra, rm, rn] (.next (mulWrite rd (topWord (topAcc ra s - signedProduct rn rm s) false) s).advance))

/-- SMMULR (R1681). -/
def execSmmulr (cond : BitVec 4) (rd : BitVec 4) (rm : BitVec 4) (rn : BitVec 4) (s : State) : Host.Outcome State Fault Refusal :=
  onCond cond s (unlessPC [rd, rm, rn] (.next (mulWrite rd (topWord (signedProduct rn rm s) true) s).advance))

/-- SMMLAR (R1682). -/
def execSmmlar (cond : BitVec 4) (rd : BitVec 4) (ra : BitVec 4) (rm : BitVec 4) (rn : BitVec 4) (s : State) : Host.Outcome State Fault Refusal :=
  onCond cond s (unlessPC [rd, ra, rm, rn] (.next (mulWrite rd (topWord (topAcc ra s + signedProduct rn rm s) true) s).advance))

/-- SMMLSR (R1683). -/
def execSmmlsr (cond : BitVec 4) (rd : BitVec 4) (ra : BitVec 4) (rm : BitVec 4) (rn : BitVec 4) (s : State) : Host.Outcome State Fault Refusal :=
  onCond cond s (unlessPC [rd, ra, rm, rn] (.next (mulWrite rd (topWord (topAcc ra s - signedProduct rn rm s) true) s).advance))

end Sys2Proof.Machine
end

