-- ==== Sys2Proof/Machine/Ple.lean ====
section
/-! DEFINITION. The L2 preload engine: its registers and commands (48_cp15_instructions_c10_c15.md R2506 to R2516;
14_cp15_tlb_ple_misc.md R489 to R507) and one turn of a running channel (22_caches.md R1190 to R1199). -/

namespace Sys2Proof.Machine

/-- The channel the Channel Number Register selects. -/
def State.pleSel (s : State) : Fin 2 := if s.ple.chanSel.getLsbD 0 then 1 else 0

/-- The selected channel. -/
def State.pleChan (s : State) : PleChannel := s.ple.chan[s.pleSel]

def State.setPle (s : State) (c : Fin 2) (ch : PleChannel) : State :=
  { s with ple := { s.ple with chan := s.ple.chan.set c ch c.isLt } }

def State.setPleChan (s : State) (ch : PleChannel) : State := s.setPle s.pleSel ch

/-- The U bit of a channel (R492). -/
def State.pleUser (s : State) (c : Fin 2) : Bool := s.ple.userAcc.getLsbD c

/-- The right to the registers of the selected channel: privileged, or User mode with its U bit; NSACR.PLE closes all of
them to the Nonsecure state (R489). -/
def State.pleOpen (s : State) (user : Bool) : Bool :=
  (s.secure || s.sys.nsacr.getLsbD 18) && (s.sysPriv || (s.sysUser && user))

/-- The channel is idle, or complete or in error. -/
def PleChannel.idle (c : PleChannel) : Bool := c.status.extractLsb' 0 2 == 0

/-- The Start command (R497): from idle to running; the state of the command becomes that of the channel. Without an L2 cache it
does nothing (R502). -/
def pleStart (s : State) : State :=
  let c := s.pleChan
  if c.idle && s.build.hasL2 then s.setPleChan { c with status := 0b10, secure := s.secure, page := none } else s

/-- The completion interrupt, if it is enabled, of the side that started the transfer (R1194). -/
def PleChannel.signal (c : PleChannel) : PleChannel :=
  { c with
    irqSecure := c.irqSecure || (c.control.getLsbD 29 && c.secure)
    irqNonsecure := c.irqNonsecure || (c.control.getLsbD 29 && !c.secure) }

/-- The Stop command (R497, R498): from running to idle, with the completion interrupt if it is enabled. -/
def pleStop (s : State) : State :=
  let c := s.pleChan
  if c.running then s.setPleChan { c.signal with status := 0, page := none } else s

/-- The Clear command (R497, R1194): not while running; idle, and every interrupt of the channel deasserted, also the one that a
Stop has left in an idle channel (R498; log 34). -/
def pleClear (s : State) : State :=
  let c := s.pleChan
  if c.running then s else s.setPleChan { c with status := 0, irqSecure := false, irqNonsecure := false, errIrq := false }

/-- The Control Register written (R498, R499): not while running; UM is forced by the U bit. -/
def pleControl (v : Word) (s : State) : State :=
  let c := s.pleChan
  if c.running then s
  else s.setPleChan { c with control := setBit (v &&& 0x70000007) 26 (s.pleUser s.pleSel || v.getLsbD 26) }

/-- What a write of the start or end address stores: while the channel runs their contents are open (R497). -/
def pleStored (v : Word) (s : State) : Word := if s.pleChan.running then s.draw else v

/-- What a read of the start or end address gives. -/
def pleSeen (v : Word) (s : State) : Option Word := if s.pleChan.running then none else some v

/-! ## One turn of a running channel -/

/-- The completion of a transfer (R1194). -/
def PleChannel.complete (c : PleChannel) : PleChannel := { c.signal with status := 0b11, page := none }

/-- The end of a transfer by a fault (R1193): the error code is 1, FSR[12], FSR[10], FSR[3:0]. -/
def PleChannel.fail (c : PleChannel) (user slave : Bool) (status : BitVec 5) (va : Word) : PleChannel :=
  { c with
    status := (1#1 ++ bit slave ++ status ++ 0b11#2).setWidth 32
    start := va
    page := none
    errIrq := c.errIrq || user || c.control.getLsbD 28 }

/-- The state whose translation tables and control registers a channel uses: that of its Start command (R1193), but the
Nonsecure one while NSACR.PLE is set (12_cp15_control.md R266; log 53). -/
def pleTables (c : PleChannel) (s : State) : Bool := c.secure && !s.sys.nsacr.getLsbD 18

/-- The translation of the page a channel comes to (R1193, R1195): none ends the transfer as complete. -/
def plePage (c : PleChannel) (va : Word) (s : State) : Except TFault (Option PlePage) :=
  let b := s.bank (pleTables c s)
  let mva := mvaOf b va
  if !b.sctlr.getLsbD 0 then .ok none
  else match walk s (pleTables c s) mva with
    | .error t => .error t
    | .ok e =>
      match checkEntry b e (!c.control.getLsbD 26) .read with
      | some t => .error t
      | none =>
        let policy := s.l2Policy e.attrs
        .ok (if e.attrs.cached && policy.cacheable then some ⟨(e.output mva).extractLsb' 12 20, e.ns, policy⟩ else none)

/-- Remove the L2 line in a set and way, its dirty quadwords written back; a bus error is the channel's own. -/
def pleRemove (set way : Nat) (s : State) : State × Option Bool :=
  match lineAt s.l2 set way with
  | none => (s, none)
  | some l =>
    let (s1, err) := if l.dirty = 0 then (s, none) else putBack l l.dirty s
    ({ s1 with l2 := dropLine s1.l2 set way }, err)

/-- Clean the L2 line in a set and way and keep it: a transfer out of L2 before r3p0 (00_scope.md R3(c)). -/
def pleClean (set way : Nat) (s : State) : State × Option Bool :=
  match lineAt s.l2 set way with
  | none => (s, none)
  | some l =>
    let (s1, err) := if l.dirty = 0 then (s, none) else putBack l l.dirty s
    ({ s1 with l2 := markClean s1.l2 set way }, err)

/-- Transfer one line (R1191, R1192): into way WY, unless some way holds it; or out of whichever way holds it. -/
def pleLine (c : PleChannel) (page : PlePage) (pa : Word) (s : State) : State × Option Bool :=
  let set := s.l2Set pa
  let way := (c.control.extractLsb' 0 3).toNat
  match findLine s.l2 set page.ns pa with
  | some l =>
    if !c.control.getLsbD 30 then (s, none)
    else if s.build.revision.third then pleRemove set l.way s
    else pleClean set l.way s
  | none =>
    if c.control.getLsbD 30 then (s, none)
    else match lineError s page.ns pa with
      | some slave => (s, some slave)
      | none =>
        let (s1, err) := pleRemove set way s
        match err with
        | some slave => (s1, some slave)
        | none =>
          ({ s1 with l2 := ⟨set, way, lineTag pa, page.ns, 0, page.outer, memLine s1 page.ns pa⟩ :: s1.l2 }, none)

/-- The Lines field: bits [N:6] of the end address register, where N goes with the size of the L2 cache (R502). A value above the
stated maximum, the lines of a way, is transferred as it stands: DESIGN CHOICE, log 34 (R1191 does not say what it does). -/
def pleLinesMask (k : Build) : Word := (1#32 <<< (k.l2Size.log2Sets + 7)) - 64

/-- The lines a channel has still to transfer. -/
def PleChannel.lines (c : PleChannel) : Nat := (c.endr >>> 6).toNat

/-- The transfer of a line needs a linefill or an eviction of the L2 cache. -/
def pleMoves (c : PleChannel) (page : PlePage) (pa : Word) (s : State) : Bool :=
  (findLine s.l2 (s.l2Set pa) page.ns pa).isSome == c.control.getLsbD 30

/-- The line of a channel on a translated page, and the step to the next. A transfer that needs a linefill or an eviction waits
while debug state forbids them (62_debug_events.md R2080, R2106). -/
def plePageTurn (i : Fin 2) (c : PleChannel) (page : PlePage) (s : State) : State :=
  let va := c.start &&& 0xFFFFFFC0
  let pa := page.frame ++ va.extractLsb' 0 12
  let left := c.lines - 1
  if s.cachesFrozen && pleMoves c page pa s then s.setPle i { c with page := some page }
  else
  let (s1, err) := pleLine c page pa s
  match err with
  | some slave => s1.setPle i (c.fail (s.pleUser i) slave 0b10110 va)
  | none =>
    let next := va + 64
    let c' := { c with
      start := next
      endr := BitVec.ofNat 32 (64 * left)
      page := if next.extractLsb' 0 12 = 0 then none else some page }
    s1.setPle i (if left = 0 then c'.complete else c')

/-- One turn of channel `i`: it takes none unless it runs and the core is not in a low-power state (R1196). -/
def pleTurn (i : Fin 2) (s : State) : State :=
  let c := s.ple.chan[i]
  if !c.running || s.run != .running then s
  else if c.lines = 0 then s.setPle i c.complete
  else match c.page with
    | some page => plePageTurn i c page s
    | none =>
      let va := c.start &&& 0xFFFFFFC0
      match plePage c va s with
      | .error t => (walkFailed t s.drawn).setPle i (c.fail (s.pleUser i) t.slave t.status va)
      | .ok none => s.drawn.setPle i c.complete
      | .ok (some page) => plePageTurn i c page s.drawn

/-- A parity or ECC error on channel `i`'s own linefill or write-back in the L2 cache (R1193): it ends the transfer with the code
of an imprecise parity error where the L2 cache reports such errors, and leaves the caches unpredictable (R1186). -/
def pleParity (i : Fin 2) (s : State) : State :=
  let c := s.ple.chan[i]
  if !c.running || s.run != .running || !s.build.l2Parity then s
  else if s.l2Checked then s.corrupted.setPle i (c.fail (s.pleUser i) false 0b11000 (c.start &&& 0xFFFFFFC0))
  else s.corrupted

/-! ## The interrupts (R1194) -/

def Ple.anyChan (p : Ple) (f : PleChannel → Bool) : Bool := f p.chan[0] || f p.chan[1]

/-- A Secure transfer has signalled its completion. -/
def Ple.secureIrq (p : Ple) : Bool := p.anyChan fun c => c.irqSecure

/-- A Nonsecure transfer has signalled its completion. -/
def Ple.nonsecureIrq (p : Ple) : Bool := p.anyChan fun c => c.irqNonsecure

/-- A transfer has signalled an error. -/
def Ple.errorIrq (p : Ple) : Bool := p.anyChan fun c => c.errIrq

/-- A channel signals an interrupt of any kind. -/
def PleChannel.interrupting (c : PleChannel) : Bool := c.irqSecure || c.irqNonsecure || c.errIrq

/-! ## The registers -/

/-- MRC of the channels present: both (R2506). -/
def execMrcPleIdPresent (cond : BitVec 4) (rt : BitVec 4) (s : State) : Host.Outcome State Fault Refusal :=
  readSys cond rt (s.sysGated 18) 3 s

/-- MRC of the reserved PLE identification register: zero (R2506). -/
def execMrcPleIdReserved (cond : BitVec 4) (rt : BitVec 4) (s : State) : Host.Outcome State Fault Refusal :=
  readSys cond rt (s.sysGated 18) 0 s

/-- MRC of the channels running (R2506). -/
def execMrcPleIdRunning (cond : BitVec 4) (rt : BitVec 4) (s : State) : Host.Outcome State Fault Refusal :=
  readSys cond rt (s.sysGated 18) ((bit s.ple.chan[1].running ++ bit s.ple.chan[0].running).setWidth 32) s

/-- MRC of the channels interrupting (R2506). -/
def execMrcPleIdInterrupting (cond : BitVec 4) (rt : BitVec 4) (s : State) : Host.Outcome State Fault Refusal :=
  readSys cond rt (s.sysGated 18) ((bit s.ple.chan[1].interrupting ++
    bit s.ple.chan[0].interrupting).setWidth 32) s

/-- MRC of the PLE User Accessibility Register (R2507). -/
def execMrcPleUser (cond : BitVec 4) (rt : BitVec 4) (s : State) : Host.Outcome State Fault Refusal :=
  readSys cond rt (s.sysGated 18) s.ple.userAcc s

/-- MCR of the PLE User Accessibility Register (R2507). -/
def execMcrPleUser (cond : BitVec 4) (rt : BitVec 4) (s : State) : Host.Outcome State Fault Refusal :=
  writeSys cond rt (s.sysGated 18) s fun v => { s with ple := { s.ple with userAcc := v &&& 3 } }

/-- MRC of the PLE Channel Number Register (R2508). -/
def execMrcPleChannel (cond : BitVec 4) (rt : BitVec 4) (s : State) : Host.Outcome State Fault Refusal :=
  readSys cond rt (s.pleOpen (s.pleUser 0 || s.pleUser 1)) s.ple.chanSel s

/-- MCR of the PLE Channel Number Register (R2508). -/
def execMcrPleChannel (cond : BitVec 4) (rt : BitVec 4) (s : State) : Host.Outcome State Fault Refusal :=
  writeSys cond rt (s.pleOpen (s.pleUser 0 || s.pleUser 1)) s fun v => { s with ple := { s.ple with chanSel := v &&& 1 } }

/-- PLE Stop (R2509). -/
def execMcrPleStop (cond : BitVec 4) (rt : BitVec 4) (s : State) : Host.Outcome State Fault Refusal :=
  writeSys cond rt (s.pleOpen (s.pleUser s.pleSel)) s fun _ => pleStop s

/-- PLE Start (R2510). -/
def execMcrPleStart (cond : BitVec 4) (rt : BitVec 4) (s : State) : Host.Outcome State Fault Refusal :=
  writeSys cond rt (s.pleOpen (s.pleUser s.pleSel)) s fun _ => pleStart s

/-- PLE Clear (R2511). -/
def execMcrPleClear (cond : BitVec 4) (rt : BitVec 4) (s : State) : Host.Outcome State Fault Refusal :=
  writeSys cond rt (s.pleOpen (s.pleUser s.pleSel)) s fun _ => pleClear s

/-- MRC of the PLE Control Register (R2512). -/
def execMrcPleControl (cond : BitVec 4) (rt : BitVec 4) (s : State) : Host.Outcome State Fault Refusal :=
  readSys cond rt (s.pleOpen (s.pleUser s.pleSel)) s.pleChan.control s

/-- MCR of the PLE Control Register (R2512). -/
def execMcrPleControl (cond : BitVec 4) (rt : BitVec 4) (s : State) : Host.Outcome State Fault Refusal :=
  writeSys cond rt (s.pleOpen (s.pleUser s.pleSel)) s fun v => pleControl v s

/-- MRC of the PLE Internal Start Address Register (R2513). -/
def execMrcPleStartAddr (cond : BitVec 4) (rt : BitVec 4) (s : State) : Host.Outcome State Fault Refusal :=
  readSysMaybe cond rt (s.pleOpen (s.pleUser s.pleSel)) (pleSeen s.pleChan.start s) s

/-- MCR of the PLE Internal Start Address Register (R2513). -/
def execMcrPleStartAddr (cond : BitVec 4) (rt : BitVec 4) (s : State) : Host.Outcome State Fault Refusal :=
  writeSys cond rt (s.pleOpen (s.pleUser s.pleSel)) s fun v => s.drawn.setPleChan { s.pleChan with start := pleStored v s &&& 0xFFFFFFC0 }

/-- MRC of the PLE Internal End Address Register (R2514). -/
def execMrcPleEndAddr (cond : BitVec 4) (rt : BitVec 4) (s : State) : Host.Outcome State Fault Refusal :=
  readSysMaybe cond rt (s.pleOpen (s.pleUser s.pleSel)) (pleSeen s.pleChan.endr s) s

/-- MCR of the PLE Internal End Address Register (R2514). -/
def execMcrPleEndAddr (cond : BitVec 4) (rt : BitVec 4) (s : State) : Host.Outcome State Fault Refusal :=
  writeSys cond rt (s.pleOpen (s.pleUser s.pleSel)) s fun v => s.drawn.setPleChan { s.pleChan with endr := pleStored v s &&& pleLinesMask s.build }

/-- MRC of the PLE Channel Status Register (R2515). -/
def execMrcPleStatus (cond : BitVec 4) (rt : BitVec 4) (s : State) : Host.Outcome State Fault Refusal :=
  readSys cond rt (s.pleOpen (s.pleUser s.pleSel)) s.pleChan.status s

/-- MRC of the PLE Context ID Register (R2516). -/
def execMrcPleContext (cond : BitVec 4) (rt : BitVec 4) (s : State) : Host.Outcome State Fault Refusal :=
  readSys cond rt (s.sysGated 18) s.pleChan.ctxid s

/-- MCR of the PLE Context ID Register (R2516); 22_caches.md R1197 while the channel runs. -/
def execMcrPleContext (cond : BitVec 4) (rt : BitVec 4) (s : State) : Host.Outcome State Fault Refusal :=
  withSys cond rt (s.sysGated 18) s fun v =>
    unlessPle (v != s.pleChan.ctxid && s.pleChan.running) s (.next (s.setPleChan { s.pleChan with ctxid := v }).advance)

end Sys2Proof.Machine
end

