-- ==== Sys2Proof/Machine/System.lean ====
section
/-! DEFINITION. Status register, mode, hint and barrier instructions (45_branch_system.md R1775 to R1797). -/

namespace Sys2Proof.Machine

/-! ## MRS and MSR -/

/-- The bits of CPSR that MRS returns: outside debug state the execution state bits read as zero (R1775). -/
def mrsMask (s : State) : Word := if s.halted then 0xFFFFFFFF else 0xF8FF03DF

/-- The bits of a field mask: byte `i` for each bit `i`. -/
def byteMask (m : BitVec 4) : Word :=
  (if m.getLsbD 0 then 0xFF else 0) ||| (if m.getLsbD 1 then 0xFF00 else 0) |||
    (if m.getLsbD 2 then 0xFF0000 else 0) ||| (if m.getLsbD 3 then 0xFF000000 else 0)

/-- The bits of CPSR other than M that MSR writes with a field mask (R1776; 10_state.md R73 to R76). In debug state the
execution state bits J, T and IT are written too (62_debug_events.md R2086). -/
def msrMask (m : BitVec 4) (v : Word) (s : State) : Word :=
  let priv := s.mayWritePrivileged
  let allowed : Word := 0xF80F0200 ||| (if s.halted then 0x0700FC20 else 0)
    ||| (if priv && s.mayWriteA then 0x100 else 0)
    ||| (if priv then 0x80 else 0)
    ||| (if priv && s.mayWriteF (v.getLsbD 6) then 0x40 else 0)
  allowed &&& byteMask m

/-- After a write of CPSR in debug state the pc and the restart address are open (62_debug_events.md R2083). -/
def afterCpsrWrite (s : State) : State :=
  if s.halted then { s.drawn with pc := s.draw, dbg := { s.dbg with restartPc := none } } else s

/-- CPSR but for M as MSR writes it; in debug state ARM state comes with J and IT clear (10_state.md R52, R68, R69). -/
def msrValue (m : BitVec 4) (v : Word) (s : State) : Word :=
  let c := mergeBits s.cpsr v (msrMask m v s)
  if s.halted then stateBits c else c

/-- MSR to CPSR (R1776). -/
def writeCpsr (m : BitVec 4) (v : Word) (s : State) : Host.Outcome State Fault Refusal :=
  let c := msrValue m v s
  if m.getLsbD 0 && s.mayWritePrivileged then
    match s.newModeBits (v.extractLsb' 0 5) with
    | none => .fault .illegalMode
    | some mode =>
      .next (afterCpsrWrite (State.afterModeChange s { s with cpsr := setBits c 0 mode })).advance
  else .next (afterCpsrWrite { s with cpsr := c }).advance

/-- MSR to the SPSR of the current mode (R1777): every bit of the chosen bytes. -/
def writeSpsr (m : BitVec 4) (v : Word) (s : State) : Host.Outcome State Fault Refusal :=
  match s.spsr? with
  | none => .fault .operands
  | some old => .next (s.setSpsr s.mode (mergeBits old v (byteMask m))).advance

/-! ## CPS -/

/-- The forms of CPS that R1778 calls Unpredictable. -/
def badCps (imod : BitVec 2) (m a i f : BitVec 1) (mode : BitVec 5) : Bool :=
  let iflags := a ++ i ++ f
  imod == 0b01 || (imod == 0 && m == 0) || (imod.getLsbD 1 && iflags == 0) || (m == 0 && mode != 0) ||
    (!imod.getLsbD 1 && iflags != 0)

/-- CPSR with A, I and F as CPS writes them (R1778). -/
def cpsFlags (imod : BitVec 2) (a i f : BitVec 1) (s : State) : Word :=
  let b := imod.getLsbD 0
  let mask : Word := (if isSet a && s.mayWriteA then 0x100 else 0) ||| (if isSet i then 0x80 else 0)
    ||| (if isSet f && s.mayWriteF b then 0x40 else 0)
  if imod.getLsbD 1 then mergeBits s.cpsr (if b then 0xFFFFFFFF else 0) mask else s.cpsr

/-- The effect of CPS in a privileged mode. -/
def changeState (imod : BitVec 2) (m a i f : BitVec 1) (mode : BitVec 5) (s : State) :
    Host.Outcome State Fault Refusal :=
  let c := cpsFlags imod a i f s
  if m = 1 then
    match s.newModeBits mode with
    | none => .fault .illegalMode
    | some mode' => .next (State.afterModeChange s { s with cpsr := setBits c 0 mode' }).advance
  else .next { s with cpsr := c }.advance

/-! ## SRS and RFE -/

/-- The lower address of the pair (R1780, R1781). -/
def pairAddress (p u : BitVec 1) (base : Word) : Word :=
  (if u = 1 then base else base - 8) + (if p = u then 4 else 0)

/-- The base after write-back. -/
def pairEnd (u : BitVec 1) (base : Word) : Word := if u = 1 then base + 8 else base - 8

/-- Store the return state at the stack pointer of mode `m` (R1780). -/
def storeReturnState (p u w : BitVec 1) (m : Mode) (spsr : Word) (s : State) : Host.Outcome State Fault Refusal :=
  let base := s.regOf m 13
  let a := pairAddress p u base
  let q := alignedReq 4 s.privileged true
  finish (writeData q a (s.reg 14) s) fun _ s1 =>
    finish (writeData q (a + 4) spsr s1.gap) fun _ s2 =>
      .next (if w = 1 then s2.setRegOf m 13 (pairEnd u base) else s2).advance

/-- Load pc and CPSR (R1781); external aborts are precise (60_exceptions.md R1942). -/
def loadReturnState (p u w : BitVec 1) (rn : BitVec 4) (s : State) : Host.Outcome State Fault Refusal :=
  let base := s.reg rn
  let a := pairAddress p u base
  let q := { alignedReq 4 s.privileged false with precise := true }
  finish (readData q a s) fun pc s1 =>
    finish (readData q (a + 4) s1.gap) fun cpsr s2 =>
      exceptionReturn (if w = 1 then s2.setReg rn (pairEnd u base) else s2) cpsr pc

/-- MRS (R1775): r15 is Unpredictable, and so is the SPSR where there is none. -/
def execMrs (cond : BitVec 4) (r : BitVec 1) (rd : BitVec 4) (s : State) : Host.Outcome State Fault Refusal :=
  onCond cond s (
    if rd = 15 then .fault .operands
    else if r = 0 then .next (s.setReg rd (s.cpsr &&& mrsMask s)).advance
    else match s.spsr? with
      | none => .fault .operands
      | some v => .next (s.setReg rd v).advance)

/-- MSR, register, to CPSR (R1776). -/
def execMsrCpsrReg (cond : BitVec 4) (fieldMask : BitVec 4) (rn : BitVec 4) (s : State) : Host.Outcome State Fault Refusal :=
  onCond cond s (if rn = 15 ∨ fieldMask = 0 then .fault .operands else writeCpsr fieldMask (s.reg rn) s)

/-- MSR, register, to the SPSR (R1777). The operand limits that R1776 states for CPSR are not R1777's: r15 and an empty mask
are executed (log 58). -/
def execMsrSpsrReg (cond : BitVec 4) (fieldMask : BitVec 4) (rn : BitVec 4) (s : State) : Host.Outcome State Fault Refusal :=
  onCond cond s (writeSpsr fieldMask (s.reg rn) s)

/-- MSR, immediate, to CPSR (R1776). -/
def execMsrCpsrImm (cond : BitVec 4) (fieldMask : BitVec 4) (imm12 : BitVec 12) (s : State) : Host.Outcome State Fault Refusal :=
  onCond cond s (writeCpsr fieldMask (expandImmC imm12 false).1 s)

/-- MSR, immediate, to the SPSR (R1777). -/
def execMsrSpsrImm (cond : BitVec 4) (fieldMask : BitVec 4) (imm12 : BitVec 12) (s : State) : Host.Outcome State Fault Refusal :=
  onCond cond s (writeSpsr fieldMask (expandImmC imm12 false).1 s)

/-- CPS (R1778): no effect in User mode. -/
def execCps (imod : BitVec 2) (m : BitVec 1) (a : BitVec 1) (i : BitVec 1) (f : BitVec 1) (mode : BitVec 5) (s : State) : Host.Outcome State Fault Refusal :=
  if badCps imod m a i f mode then .fault .operands
  else if s.privileged then changeState imod m a i f mode s
  else .next s.advance

/-- SETEND (R1779). -/
def execSetend (e : BitVec 1) (s : State) : Host.Outcome State Fault Refusal :=
  .next { s with cpsr := setBit s.cpsr 9 (isSet e) }.advance

/-- SRS (R1780). -/
def execSrs (p : BitVec 1) (u : BitVec 1) (w : BitVec 1) (mode : BitVec 5) (s : State) : Host.Outcome State Fault Refusal :=
  match s.spsr?, Mode.ofBits mode with
  | some spsr, some m => if m = .mon ∧ !s.secure then .fault .operands else storeReturnState p u w m spsr s
  | _, _ => .fault .operands

/-- RFE (R1781). -/
def execRfe (p : BitVec 1) (u : BitVec 1) (w : BitVec 1) (rn : BitVec 4) (s : State) : Host.Outcome State Fault Refusal :=
  if rn = 15 ∨ !s.privileged then .fault .operands else loadReturnState p u w rn s

/-- NOP (R1785). -/
def execNop (cond : BitVec 4) (s : State) : Host.Outcome State Fault Refusal :=
  onCond cond s (.next s.advance)

/-- YIELD: a NOP (R1786). -/
def execYield (cond : BitVec 4) (s : State) : Host.Outcome State Fault Refusal :=
  onCond cond s (.next s.advance)

/-- WFE: a NOP (R1787). -/
def execWfe (cond : BitVec 4) (s : State) : Host.Outcome State Fault Refusal :=
  onCond cond s (.next s.advance)

/-- SEV: a NOP (R1789). -/
def execSev (cond : BitVec 4) (s : State) : Host.Outcome State Fault Refusal :=
  onCond cond s (.next s.advance)

/-- DBG: a NOP (R1790). -/
def execDbg (cond : BitVec 4) (_opt : BitVec 4) (s : State) : Host.Outcome State Fault Refusal :=
  onCond cond s (.next s.advance)

/-- An unallocated hint: a NOP (R1791). -/
def execHintOther (cond : BitVec 4) (_hint8 : BitVec 8) (s : State) : Host.Outcome State Fault Refusal :=
  onCond cond s (.next s.advance)

/-- WFI (R1788; 63_pmu_power.md R2163): unless ACTLR.WFINOP is set every access is completed
(R2162) and the core stands by, its pc at the next instruction. In debug state it does nothing (log 31). -/
def execWfi (cond : BitVec 4) (s : State) : Host.Outcome State Fault Refusal :=
  onCond cond s (if s.sys.actlr.getLsbD 8 ∨ s.halted then .next s.advance else .next { s.completed with run := .standby }.advance)

/-- DSB: the stores before it are complete (R1796; log 50). -/
def execDsb (_opt : BitVec 4) (s : State) : Host.Outcome State Fault Refusal :=
  .next s.completed.advance

/-- DMB: accesses are in order already (log 9); it ends the gathering of stores, and orders when the table walker sees them
(R1795; log 50). -/
def execDmb (_opt : BitVec 4) (s : State) : Host.Outcome State Fault Refusal :=
  .next s.fenceStores.advance

/-- ISB: every change of a register is in effect already (log 8); what completed stores have replaced is fetched anew
(R1797; log 50). -/
def execIsb (_opt : BitVec 4) (s : State) : Host.Outcome State Fault Refusal :=
  .next s.synchronized.advance

end Sys2Proof.Machine
end

