-- ==== Sys2Proof/Machine/Dispatch.lean ====
section
/-! DEFINITION. The meaning of every instruction: one arm per constructor, each one direct call. -/

namespace Sys2Proof.Machine

/-- The effect of an instruction: its condition test, its effect, the advance of the pc. -/
def exec (i : Instr) (s : State) : Host.Outcome State Fault Refusal :=
  match i with
  | .cps imod m a ib f mode => Sys2Proof.Machine.execCps imod m a ib f mode s
  | .setend e => Sys2Proof.Machine.execSetend e s
  | .pliImm u rn imm12 => Sys2Proof.Machine.execPliImm u rn imm12 s
  | .pliReg u rn imm5 typ rm => Sys2Proof.Machine.execPliReg u rn imm5 typ rm s
  | .pldImm u rn imm12 => Sys2Proof.Machine.execPldImm u rn imm12 s
  | .pldReg u rn imm5 typ rm => Sys2Proof.Machine.execPldReg u rn imm5 typ rm s
  | .pldwImm u rn imm12 => Sys2Proof.Machine.execPldwImm u rn imm12 s
  | .pldwReg u rn imm5 typ rm => Sys2Proof.Machine.execPldwReg u rn imm5 typ rm s
  | .memHintImm u lo => Sys2Proof.Machine.execMemHintImm u lo s
  | .memHintReg u mid lo => Sys2Proof.Machine.execMemHintReg u mid lo s
  | .clrex => Sys2Proof.Machine.execClrex s
  | .dsb opt => Sys2Proof.Machine.execDsb opt s
  | .dmb opt => Sys2Proof.Machine.execDmb opt s
  | .isb opt => Sys2Proof.Machine.execIsb opt s
  | .srs p u w mode => Sys2Proof.Machine.execSrs p u w mode s
  | .rfe p u w rn => Sys2Proof.Machine.execRfe p u w rn s
  | .blxImm h imm24 => Sys2Proof.Machine.execBlxImm h imm24 s
  | .asimdData bits => Sys2Proof.Machine.execAsimdData bits s
  | .asimdLoadStore hi lo => Sys2Proof.Machine.execAsimdLoadStore hi lo s
  | .coproc2LoadStore bits => Sys2Proof.Machine.execCoproc2LoadStore bits s
  | .coproc2Reg bits => Sys2Proof.Machine.execCoproc2Reg bits s
  | .uncondOther bits => Sys2Proof.Machine.execUncondOther bits s
  | .mrs cond r rd => Sys2Proof.Machine.execMrs cond r rd s
  | .msrCpsrReg cond fieldMask rn => Sys2Proof.Machine.execMsrCpsrReg cond fieldMask rn s
  | .msrSpsrReg cond fieldMask rn => Sys2Proof.Machine.execMsrSpsrReg cond fieldMask rn s
  | .bx cond rm => Sys2Proof.Machine.execBx cond rm s
  | .bxj cond rm => Sys2Proof.Machine.execBxj cond rm s
  | .blxReg cond rm => Sys2Proof.Machine.execBlxReg cond rm s
  | .clz cond rd rm => Sys2Proof.Machine.execClz cond rd rm s
  | .qadd cond rn rd rm => Sys2Proof.Machine.execQadd cond rn rd rm s
  | .qsub cond rn rd rm => Sys2Proof.Machine.execQsub cond rn rd rm s
  | .qdadd cond rn rd rm => Sys2Proof.Machine.execQdadd cond rn rd rm s
  | .qdsub cond rn rd rm => Sys2Proof.Machine.execQdsub cond rn rd rm s
  | .bkpt cond imm12 imm4 => Sys2Proof.Machine.execBkpt cond imm12 imm4 s
  | .smc cond imm4 => Sys2Proof.Machine.execSmc cond imm4 s
  | .smlabb cond rd ra rm rn => Sys2Proof.Machine.execSmlabb cond rd ra rm rn s
  | .smlabt cond rd ra rm rn => Sys2Proof.Machine.execSmlabt cond rd ra rm rn s
  | .smlatb cond rd ra rm rn => Sys2Proof.Machine.execSmlatb cond rd ra rm rn s
  | .smlatt cond rd ra rm rn => Sys2Proof.Machine.execSmlatt cond rd ra rm rn s
  | .smlawb cond rd ra rm rn => Sys2Proof.Machine.execSmlawb cond rd ra rm rn s
  | .smlawt cond rd ra rm rn => Sys2Proof.Machine.execSmlawt cond rd ra rm rn s
  | .smulwb cond rd rm rn => Sys2Proof.Machine.execSmulwb cond rd rm rn s
  | .smulwt cond rd rm rn => Sys2Proof.Machine.execSmulwt cond rd rm rn s
  | .smlalbb cond rdHi rdLo rm rn => Sys2Proof.Machine.execSmlalbb cond rdHi rdLo rm rn s
  | .smlalbt cond rdHi rdLo rm rn => Sys2Proof.Machine.execSmlalbt cond rdHi rdLo rm rn s
  | .smlaltb cond rdHi rdLo rm rn => Sys2Proof.Machine.execSmlaltb cond rdHi rdLo rm rn s
  | .smlaltt cond rdHi rdLo rm rn => Sys2Proof.Machine.execSmlaltt cond rdHi rdLo rm rn s
  | .smulbb cond rd rm rn => Sys2Proof.Machine.execSmulbb cond rd rm rn s
  | .smulbt cond rd rm rn => Sys2Proof.Machine.execSmulbt cond rd rm rn s
  | .smultb cond rd rm rn => Sys2Proof.Machine.execSmultb cond rd rm rn s
  | .smultt cond rd rm rn => Sys2Proof.Machine.execSmultt cond rd rm rn s
  | .swp cond rn rt rt2 => Sys2Proof.Machine.execSwp cond rn rt rt2 s
  | .swpb cond rn rt rt2 => Sys2Proof.Machine.execSwpb cond rn rt rt2 s
  | .ldrex cond rn rt => Sys2Proof.Machine.execLdrex cond rn rt s
  | .ldrexd cond rn rt => Sys2Proof.Machine.execLdrexd cond rn rt s
  | .ldrexb cond rn rt => Sys2Proof.Machine.execLdrexb cond rn rt s
  | .ldrexh cond rn rt => Sys2Proof.Machine.execLdrexh cond rn rt s
  | .strex cond rn rd rt => Sys2Proof.Machine.execStrex cond rn rd rt s
  | .strexd cond rn rd rt => Sys2Proof.Machine.execStrexd cond rn rd rt s
  | .strexb cond rn rd rt => Sys2Proof.Machine.execStrexb cond rn rd rt s
  | .strexh cond rn rd rt => Sys2Proof.Machine.execStrexh cond rn rd rt s
  | .mul cond sf rd rm rn => Sys2Proof.Machine.execMul cond sf rd rm rn s
  | .mla cond sf rd ra rm rn => Sys2Proof.Machine.execMla cond sf rd ra rm rn s
  | .umaal cond rdHi rdLo rm rn => Sys2Proof.Machine.execUmaal cond rdHi rdLo rm rn s
  | .mls cond rd ra rm rn => Sys2Proof.Machine.execMls cond rd ra rm rn s
  | .umull cond sf rdHi rdLo rm rn => Sys2Proof.Machine.execUmull cond sf rdHi rdLo rm rn s
  | .umlal cond sf rdHi rdLo rm rn => Sys2Proof.Machine.execUmlal cond sf rdHi rdLo rm rn s
  | .smull cond sf rdHi rdLo rm rn => Sys2Proof.Machine.execSmull cond sf rdHi rdLo rm rn s
  | .smlal cond sf rdHi rdLo rm rn => Sys2Proof.Machine.execSmlal cond sf rdHi rdLo rm rn s
  | .strhtImm cond u rn rt imm4H imm4L => Sys2Proof.Machine.execStrhtImm cond u rn rt imm4H imm4L s
  | .strhtReg cond u rn rt rm => Sys2Proof.Machine.execStrhtReg cond u rn rt rm s
  | .ldrhtImm cond u rn rt imm4H imm4L => Sys2Proof.Machine.execLdrhtImm cond u rn rt imm4H imm4L s
  | .ldrhtReg cond u rn rt rm => Sys2Proof.Machine.execLdrhtReg cond u rn rt rm s
  | .ldrsbtImm cond u rn rt imm4H imm4L => Sys2Proof.Machine.execLdrsbtImm cond u rn rt imm4H imm4L s
  | .ldrsbtReg cond u rn rt rm => Sys2Proof.Machine.execLdrsbtReg cond u rn rt rm s
  | .ldrshtImm cond u rn rt imm4H imm4L => Sys2Proof.Machine.execLdrshtImm cond u rn rt imm4H imm4L s
  | .ldrshtReg cond u rn rt rm => Sys2Proof.Machine.execLdrshtReg cond u rn rt rm s
  | .strhImm cond p u w rn rt imm4H imm4L => Sys2Proof.Machine.execStrhImm cond p u w rn rt imm4H imm4L s
  | .strhReg cond p u w rn rt rm => Sys2Proof.Machine.execStrhReg cond p u w rn rt rm s
  | .ldrhImm cond p u w rn rt imm4H imm4L => Sys2Proof.Machine.execLdrhImm cond p u w rn rt imm4H imm4L s
  | .ldrhReg cond p u w rn rt rm => Sys2Proof.Machine.execLdrhReg cond p u w rn rt rm s
  | .ldrsbImm cond p u w rn rt imm4H imm4L => Sys2Proof.Machine.execLdrsbImm cond p u w rn rt imm4H imm4L s
  | .ldrsbReg cond p u w rn rt rm => Sys2Proof.Machine.execLdrsbReg cond p u w rn rt rm s
  | .ldrshImm cond p u w rn rt imm4H imm4L => Sys2Proof.Machine.execLdrshImm cond p u w rn rt imm4H imm4L s
  | .ldrshReg cond p u w rn rt rm => Sys2Proof.Machine.execLdrshReg cond p u w rn rt rm s
  | .ldrdImm cond p u w rn rt imm4H imm4L => Sys2Proof.Machine.execLdrdImm cond p u w rn rt imm4H imm4L s
  | .ldrdReg cond p u w rn rt rm => Sys2Proof.Machine.execLdrdReg cond p u w rn rt rm s
  | .strdImm cond p u w rn rt imm4H imm4L => Sys2Proof.Machine.execStrdImm cond p u w rn rt imm4H imm4L s
  | .strdReg cond p u w rn rt rm => Sys2Proof.Machine.execStrdReg cond p u w rn rt rm s
  | .movw cond imm4 rd imm12 => Sys2Proof.Machine.execMovw cond imm4 rd imm12 s
  | .movt cond imm4 rd imm12 => Sys2Proof.Machine.execMovt cond imm4 rd imm12 s
  | .nop cond => Sys2Proof.Machine.execNop cond s
  | .yield cond => Sys2Proof.Machine.execYield cond s
  | .wfe cond => Sys2Proof.Machine.execWfe cond s
  | .wfi cond => Sys2Proof.Machine.execWfi cond s
  | .sev cond => Sys2Proof.Machine.execSev cond s
  | .dbg cond opt => Sys2Proof.Machine.execDbg cond opt s
  | .hintOther cond hint8 => Sys2Proof.Machine.execHintOther cond hint8 s
  | .msrCpsrImm cond fieldMask imm12 => Sys2Proof.Machine.execMsrCpsrImm cond fieldMask imm12 s
  | .msrSpsrImm cond fieldMask imm12 => Sys2Proof.Machine.execMsrSpsrImm cond fieldMask imm12 s
  | .andImm cond sf rn rd imm12 => Sys2Proof.Machine.execAndImm cond sf rn rd imm12 s
  | .andReg cond sf rn rd imm5 typ rm => Sys2Proof.Machine.execAndReg cond sf rn rd imm5 typ rm s
  | .andRsr cond sf rn rd rs typ rm => Sys2Proof.Machine.execAndRsr cond sf rn rd rs typ rm s
  | .eorImm cond sf rn rd imm12 => Sys2Proof.Machine.execEorImm cond sf rn rd imm12 s
  | .eorReg cond sf rn rd imm5 typ rm => Sys2Proof.Machine.execEorReg cond sf rn rd imm5 typ rm s
  | .eorRsr cond sf rn rd rs typ rm => Sys2Proof.Machine.execEorRsr cond sf rn rd rs typ rm s
  | .subImm cond sf rn rd imm12 => Sys2Proof.Machine.execSubImm cond sf rn rd imm12 s
  | .subReg cond sf rn rd imm5 typ rm => Sys2Proof.Machine.execSubReg cond sf rn rd imm5 typ rm s
  | .subRsr cond sf rn rd rs typ rm => Sys2Proof.Machine.execSubRsr cond sf rn rd rs typ rm s
  | .rsbImm cond sf rn rd imm12 => Sys2Proof.Machine.execRsbImm cond sf rn rd imm12 s
  | .rsbReg cond sf rn rd imm5 typ rm => Sys2Proof.Machine.execRsbReg cond sf rn rd imm5 typ rm s
  | .rsbRsr cond sf rn rd rs typ rm => Sys2Proof.Machine.execRsbRsr cond sf rn rd rs typ rm s
  | .addImm cond sf rn rd imm12 => Sys2Proof.Machine.execAddImm cond sf rn rd imm12 s
  | .addReg cond sf rn rd imm5 typ rm => Sys2Proof.Machine.execAddReg cond sf rn rd imm5 typ rm s
  | .addRsr cond sf rn rd rs typ rm => Sys2Proof.Machine.execAddRsr cond sf rn rd rs typ rm s
  | .adcImm cond sf rn rd imm12 => Sys2Proof.Machine.execAdcImm cond sf rn rd imm12 s
  | .adcReg cond sf rn rd imm5 typ rm => Sys2Proof.Machine.execAdcReg cond sf rn rd imm5 typ rm s
  | .adcRsr cond sf rn rd rs typ rm => Sys2Proof.Machine.execAdcRsr cond sf rn rd rs typ rm s
  | .sbcImm cond sf rn rd imm12 => Sys2Proof.Machine.execSbcImm cond sf rn rd imm12 s
  | .sbcReg cond sf rn rd imm5 typ rm => Sys2Proof.Machine.execSbcReg cond sf rn rd imm5 typ rm s
  | .sbcRsr cond sf rn rd rs typ rm => Sys2Proof.Machine.execSbcRsr cond sf rn rd rs typ rm s
  | .rscImm cond sf rn rd imm12 => Sys2Proof.Machine.execRscImm cond sf rn rd imm12 s
  | .rscReg cond sf rn rd imm5 typ rm => Sys2Proof.Machine.execRscReg cond sf rn rd imm5 typ rm s
  | .rscRsr cond sf rn rd rs typ rm => Sys2Proof.Machine.execRscRsr cond sf rn rd rs typ rm s
  | .tstImm cond rn imm12 => Sys2Proof.Machine.execTstImm cond rn imm12 s
  | .tstReg cond rn imm5 typ rm => Sys2Proof.Machine.execTstReg cond rn imm5 typ rm s
  | .tstRsr cond rn rs typ rm => Sys2Proof.Machine.execTstRsr cond rn rs typ rm s
  | .teqImm cond rn imm12 => Sys2Proof.Machine.execTeqImm cond rn imm12 s
  | .teqReg cond rn imm5 typ rm => Sys2Proof.Machine.execTeqReg cond rn imm5 typ rm s
  | .teqRsr cond rn rs typ rm => Sys2Proof.Machine.execTeqRsr cond rn rs typ rm s
  | .cmpImm cond rn imm12 => Sys2Proof.Machine.execCmpImm cond rn imm12 s
  | .cmpReg cond rn imm5 typ rm => Sys2Proof.Machine.execCmpReg cond rn imm5 typ rm s
  | .cmpRsr cond rn rs typ rm => Sys2Proof.Machine.execCmpRsr cond rn rs typ rm s
  | .cmnImm cond rn imm12 => Sys2Proof.Machine.execCmnImm cond rn imm12 s
  | .cmnReg cond rn imm5 typ rm => Sys2Proof.Machine.execCmnReg cond rn imm5 typ rm s
  | .cmnRsr cond rn rs typ rm => Sys2Proof.Machine.execCmnRsr cond rn rs typ rm s
  | .orrImm cond sf rn rd imm12 => Sys2Proof.Machine.execOrrImm cond sf rn rd imm12 s
  | .orrReg cond sf rn rd imm5 typ rm => Sys2Proof.Machine.execOrrReg cond sf rn rd imm5 typ rm s
  | .orrRsr cond sf rn rd rs typ rm => Sys2Proof.Machine.execOrrRsr cond sf rn rd rs typ rm s
  | .movImm cond sf rd imm12 => Sys2Proof.Machine.execMovImm cond sf rd imm12 s
  | .movReg cond sf rd imm5 typ rm => Sys2Proof.Machine.execMovReg cond sf rd imm5 typ rm s
  | .movRsr cond sf rd rs typ rm => Sys2Proof.Machine.execMovRsr cond sf rd rs typ rm s
  | .bicImm cond sf rn rd imm12 => Sys2Proof.Machine.execBicImm cond sf rn rd imm12 s
  | .bicReg cond sf rn rd imm5 typ rm => Sys2Proof.Machine.execBicReg cond sf rn rd imm5 typ rm s
  | .bicRsr cond sf rn rd rs typ rm => Sys2Proof.Machine.execBicRsr cond sf rn rd rs typ rm s
  | .mvnImm cond sf rd imm12 => Sys2Proof.Machine.execMvnImm cond sf rd imm12 s
  | .mvnReg cond sf rd imm5 typ rm => Sys2Proof.Machine.execMvnReg cond sf rd imm5 typ rm s
  | .mvnRsr cond sf rd rs typ rm => Sys2Proof.Machine.execMvnRsr cond sf rd rs typ rm s
  | .lslImm cond sf rd imm5 rm => Sys2Proof.Machine.execLslImm cond sf rd imm5 rm s
  | .lslReg cond sf rd rs rm => Sys2Proof.Machine.execLslReg cond sf rd rs rm s
  | .lsrImm cond sf rd imm5 rm => Sys2Proof.Machine.execLsrImm cond sf rd imm5 rm s
  | .lsrReg cond sf rd rs rm => Sys2Proof.Machine.execLsrReg cond sf rd rs rm s
  | .asrImm cond sf rd imm5 rm => Sys2Proof.Machine.execAsrImm cond sf rd imm5 rm s
  | .asrReg cond sf rd rs rm => Sys2Proof.Machine.execAsrReg cond sf rd rs rm s
  | .rorImm cond sf rd imm5 rm => Sys2Proof.Machine.execRorImm cond sf rd imm5 rm s
  | .rorReg cond sf rd rs rm => Sys2Proof.Machine.execRorReg cond sf rd rs rm s
  | .rrx cond sf rd rm => Sys2Proof.Machine.execRrx cond sf rd rm s
  | .adrAdd cond rd imm12 => Sys2Proof.Machine.execAdrAdd cond rd imm12 s
  | .adrSub cond rd imm12 => Sys2Proof.Machine.execAdrSub cond rd imm12 s
  | .ldrtImm cond u rn rt imm12 => Sys2Proof.Machine.execLdrtImm cond u rn rt imm12 s
  | .ldrtReg cond u rn rt imm5 typ rm => Sys2Proof.Machine.execLdrtReg cond u rn rt imm5 typ rm s
  | .strtImm cond u rn rt imm12 => Sys2Proof.Machine.execStrtImm cond u rn rt imm12 s
  | .strtReg cond u rn rt imm5 typ rm => Sys2Proof.Machine.execStrtReg cond u rn rt imm5 typ rm s
  | .ldrbtImm cond u rn rt imm12 => Sys2Proof.Machine.execLdrbtImm cond u rn rt imm12 s
  | .ldrbtReg cond u rn rt imm5 typ rm => Sys2Proof.Machine.execLdrbtReg cond u rn rt imm5 typ rm s
  | .strbtImm cond u rn rt imm12 => Sys2Proof.Machine.execStrbtImm cond u rn rt imm12 s
  | .strbtReg cond u rn rt imm5 typ rm => Sys2Proof.Machine.execStrbtReg cond u rn rt imm5 typ rm s
  | .ldrImm cond p u w rn rt imm12 => Sys2Proof.Machine.execLdrImm cond p u w rn rt imm12 s
  | .ldrReg cond p u w rn rt imm5 typ rm => Sys2Proof.Machine.execLdrReg cond p u w rn rt imm5 typ rm s
  | .strImm cond p u w rn rt imm12 => Sys2Proof.Machine.execStrImm cond p u w rn rt imm12 s
  | .strReg cond p u w rn rt imm5 typ rm => Sys2Proof.Machine.execStrReg cond p u w rn rt imm5 typ rm s
  | .ldrbImm cond p u w rn rt imm12 => Sys2Proof.Machine.execLdrbImm cond p u w rn rt imm12 s
  | .ldrbReg cond p u w rn rt imm5 typ rm => Sys2Proof.Machine.execLdrbReg cond p u w rn rt imm5 typ rm s
  | .strbImm cond p u w rn rt imm12 => Sys2Proof.Machine.execStrbImm cond p u w rn rt imm12 s
  | .strbReg cond p u w rn rt imm5 typ rm => Sys2Proof.Machine.execStrbReg cond p u w rn rt imm5 typ rm s
  | .sadd16 cond rn rd rm => Sys2Proof.Machine.execSadd16 cond rn rd rm s
  | .sasx cond rn rd rm => Sys2Proof.Machine.execSasx cond rn rd rm s
  | .ssax cond rn rd rm => Sys2Proof.Machine.execSsax cond rn rd rm s
  | .ssub16 cond rn rd rm => Sys2Proof.Machine.execSsub16 cond rn rd rm s
  | .sadd8 cond rn rd rm => Sys2Proof.Machine.execSadd8 cond rn rd rm s
  | .ssub8 cond rn rd rm => Sys2Proof.Machine.execSsub8 cond rn rd rm s
  | .qadd16 cond rn rd rm => Sys2Proof.Machine.execQadd16 cond rn rd rm s
  | .qasx cond rn rd rm => Sys2Proof.Machine.execQasx cond rn rd rm s
  | .qsax cond rn rd rm => Sys2Proof.Machine.execQsax cond rn rd rm s
  | .qsub16 cond rn rd rm => Sys2Proof.Machine.execQsub16 cond rn rd rm s
  | .qadd8 cond rn rd rm => Sys2Proof.Machine.execQadd8 cond rn rd rm s
  | .qsub8 cond rn rd rm => Sys2Proof.Machine.execQsub8 cond rn rd rm s
  | .shadd16 cond rn rd rm => Sys2Proof.Machine.execShadd16 cond rn rd rm s
  | .shasx cond rn rd rm => Sys2Proof.Machine.execShasx cond rn rd rm s
  | .shsax cond rn rd rm => Sys2Proof.Machine.execShsax cond rn rd rm s
  | .shsub16 cond rn rd rm => Sys2Proof.Machine.execShsub16 cond rn rd rm s
  | .shadd8 cond rn rd rm => Sys2Proof.Machine.execShadd8 cond rn rd rm s
  | .shsub8 cond rn rd rm => Sys2Proof.Machine.execShsub8 cond rn rd rm s
  | .uadd16 cond rn rd rm => Sys2Proof.Machine.execUadd16 cond rn rd rm s
  | .uasx cond rn rd rm => Sys2Proof.Machine.execUasx cond rn rd rm s
  | .usax cond rn rd rm => Sys2Proof.Machine.execUsax cond rn rd rm s
  | .usub16 cond rn rd rm => Sys2Proof.Machine.execUsub16 cond rn rd rm s
  | .uadd8 cond rn rd rm => Sys2Proof.Machine.execUadd8 cond rn rd rm s
  | .usub8 cond rn rd rm => Sys2Proof.Machine.execUsub8 cond rn rd rm s
  | .uqadd16 cond rn rd rm => Sys2Proof.Machine.execUqadd16 cond rn rd rm s
  | .uqasx cond rn rd rm => Sys2Proof.Machine.execUqasx cond rn rd rm s
  | .uqsax cond rn rd rm => Sys2Proof.Machine.execUqsax cond rn rd rm s
  | .uqsub16 cond rn rd rm => Sys2Proof.Machine.execUqsub16 cond rn rd rm s
  | .uqadd8 cond rn rd rm => Sys2Proof.Machine.execUqadd8 cond rn rd rm s
  | .uqsub8 cond rn rd rm => Sys2Proof.Machine.execUqsub8 cond rn rd rm s
  | .uhadd16 cond rn rd rm => Sys2Proof.Machine.execUhadd16 cond rn rd rm s
  | .uhasx cond rn rd rm => Sys2Proof.Machine.execUhasx cond rn rd rm s
  | .uhsax cond rn rd rm => Sys2Proof.Machine.execUhsax cond rn rd rm s
  | .uhsub16 cond rn rd rm => Sys2Proof.Machine.execUhsub16 cond rn rd rm s
  | .uhadd8 cond rn rd rm => Sys2Proof.Machine.execUhadd8 cond rn rd rm s
  | .uhsub8 cond rn rd rm => Sys2Proof.Machine.execUhsub8 cond rn rd rm s
  | .pkhbt cond rn rd imm5 rm => Sys2Proof.Machine.execPkhbt cond rn rd imm5 rm s
  | .pkhtb cond rn rd imm5 rm => Sys2Proof.Machine.execPkhtb cond rn rd imm5 rm s
  | .sel cond rn rd rm => Sys2Proof.Machine.execSel cond rn rd rm s
  | .ssat cond satImm rd imm5 sh rn => Sys2Proof.Machine.execSsat cond satImm rd imm5 sh rn s
  | .usat cond satImm rd imm5 sh rn => Sys2Proof.Machine.execUsat cond satImm rd imm5 sh rn s
  | .ssat16 cond satImm rd rn => Sys2Proof.Machine.execSsat16 cond satImm rd rn s
  | .usat16 cond satImm rd rn => Sys2Proof.Machine.execUsat16 cond satImm rd rn s
  | .sxtb16 cond rd rotate rm => Sys2Proof.Machine.execSxtb16 cond rd rotate rm s
  | .sxtab16 cond rn rd rotate rm => Sys2Proof.Machine.execSxtab16 cond rn rd rotate rm s
  | .sxtb cond rd rotate rm => Sys2Proof.Machine.execSxtb cond rd rotate rm s
  | .sxtab cond rn rd rotate rm => Sys2Proof.Machine.execSxtab cond rn rd rotate rm s
  | .sxth cond rd rotate rm => Sys2Proof.Machine.execSxth cond rd rotate rm s
  | .sxtah cond rn rd rotate rm => Sys2Proof.Machine.execSxtah cond rn rd rotate rm s
  | .uxtb16 cond rd rotate rm => Sys2Proof.Machine.execUxtb16 cond rd rotate rm s
  | .uxtab16 cond rn rd rotate rm => Sys2Proof.Machine.execUxtab16 cond rn rd rotate rm s
  | .uxtb cond rd rotate rm => Sys2Proof.Machine.execUxtb cond rd rotate rm s
  | .uxtab cond rn rd rotate rm => Sys2Proof.Machine.execUxtab cond rn rd rotate rm s
  | .uxth cond rd rotate rm => Sys2Proof.Machine.execUxth cond rd rotate rm s
  | .uxtah cond rn rd rotate rm => Sys2Proof.Machine.execUxtah cond rn rd rotate rm s
  | .rev cond rd rm => Sys2Proof.Machine.execRev cond rd rm s
  | .rev16 cond rd rm => Sys2Proof.Machine.execRev16 cond rd rm s
  | .rbit cond rd rm => Sys2Proof.Machine.execRbit cond rd rm s
  | .revsh cond rd rm => Sys2Proof.Machine.execRevsh cond rd rm s
  | .smuad cond rd rm rn => Sys2Proof.Machine.execSmuad cond rd rm rn s
  | .smusd cond rd rm rn => Sys2Proof.Machine.execSmusd cond rd rm rn s
  | .smuadx cond rd rm rn => Sys2Proof.Machine.execSmuadx cond rd rm rn s
  | .smusdx cond rd rm rn => Sys2Proof.Machine.execSmusdx cond rd rm rn s
  | .smlad cond rd ra rm rn => Sys2Proof.Machine.execSmlad cond rd ra rm rn s
  | .smlsd cond rd ra rm rn => Sys2Proof.Machine.execSmlsd cond rd ra rm rn s
  | .smlald cond rdHi rdLo rm rn => Sys2Proof.Machine.execSmlald cond rdHi rdLo rm rn s
  | .smlsld cond rdHi rdLo rm rn => Sys2Proof.Machine.execSmlsld cond rdHi rdLo rm rn s
  | .smladx cond rd ra rm rn => Sys2Proof.Machine.execSmladx cond rd ra rm rn s
  | .smlsdx cond rd ra rm rn => Sys2Proof.Machine.execSmlsdx cond rd ra rm rn s
  | .smlaldx cond rdHi rdLo rm rn => Sys2Proof.Machine.execSmlaldx cond rdHi rdLo rm rn s
  | .smlsldx cond rdHi rdLo rm rn => Sys2Proof.Machine.execSmlsldx cond rdHi rdLo rm rn s
  | .smmul cond rd rm rn => Sys2Proof.Machine.execSmmul cond rd rm rn s
  | .smmulr cond rd rm rn => Sys2Proof.Machine.execSmmulr cond rd rm rn s
  | .smmla cond rd ra rm rn => Sys2Proof.Machine.execSmmla cond rd ra rm rn s
  | .smmls cond rd ra rm rn => Sys2Proof.Machine.execSmmls cond rd ra rm rn s
  | .smmlar cond rd ra rm rn => Sys2Proof.Machine.execSmmlar cond rd ra rm rn s
  | .smmlsr cond rd ra rm rn => Sys2Proof.Machine.execSmmlsr cond rd ra rm rn s
  | .usad8 cond rd rm rn => Sys2Proof.Machine.execUsad8 cond rd rm rn s
  | .usada8 cond rd ra rm rn => Sys2Proof.Machine.execUsada8 cond rd ra rm rn s
  | .sbfx cond widthm1 rd lsb rn => Sys2Proof.Machine.execSbfx cond widthm1 rd lsb rn s
  | .ubfx cond widthm1 rd lsb rn => Sys2Proof.Machine.execUbfx cond widthm1 rd lsb rn s
  | .bfc cond msb rd lsb => Sys2Proof.Machine.execBfc cond msb rd lsb s
  | .bfi cond msb rd lsb rn => Sys2Proof.Machine.execBfi cond msb rd lsb rn s
  | .udf cond imm12 imm4 => Sys2Proof.Machine.execUdf cond imm12 imm4 s
  | .popMulti cond regs => Sys2Proof.Machine.execPopMulti cond regs s
  | .pushMulti cond regs => Sys2Proof.Machine.execPushMulti cond regs s
  | .ldm cond p u w rn regs => Sys2Proof.Machine.execLdm cond p u w rn regs s
  | .stm cond p u w rn regs => Sys2Proof.Machine.execStm cond p u w rn regs s
  | .ldmExcRet cond p u w rn regs => Sys2Proof.Machine.execLdmExcRet cond p u w rn regs s
  | .ldmUser cond p u rn regs => Sys2Proof.Machine.execLdmUser cond p u rn regs s
  | .stmUser cond p u rn regs => Sys2Proof.Machine.execStmUser cond p u rn regs s
  | .b cond imm24 => Sys2Proof.Machine.execB cond imm24 s
  | .bl cond imm24 => Sys2Proof.Machine.execBl cond imm24 s
  | .svc cond imm24 => Sys2Proof.Machine.execSvc cond imm24 s
  | .mrcDscrFlags cond => Sys2Proof.Machine.execMrcDscrFlags cond s
  | .mrcDidr cond rt => Sys2Proof.Machine.execMrcDidr cond rt s
  | .mrcDrar cond rt => Sys2Proof.Machine.execMrcDrar cond rt s
  | .mrcDsar cond rt => Sys2Proof.Machine.execMrcDsar cond rt s
  | .mrcDscr cond rt => Sys2Proof.Machine.execMrcDscr cond rt s
  | .mrcDtr cond rt => Sys2Proof.Machine.execMrcDtr cond rt s
  | .mcrDtr cond rt => Sys2Proof.Machine.execMcrDtr cond rt s
  | .mrcTeecr cond rt => Sys2Proof.Machine.execMrcTeecr cond rt s
  | .mcrTeecr cond rt => Sys2Proof.Machine.execMcrTeecr cond rt s
  | .mrcTeehbr cond rt => Sys2Proof.Machine.execMrcTeehbr cond rt s
  | .mcrTeehbr cond rt => Sys2Proof.Machine.execMcrTeehbr cond rt s
  | .mrcJidr cond rt => Sys2Proof.Machine.execMrcJidr cond rt s
  | .mrcJoscr cond rt => Sys2Proof.Machine.execMrcJoscr cond rt s
  | .mcrJoscr cond rt => Sys2Proof.Machine.execMcrJoscr cond rt s
  | .mrcJmcr cond rt => Sys2Proof.Machine.execMrcJmcr cond rt s
  | .mcrJmcr cond rt => Sys2Proof.Machine.execMcrJmcr cond rt s
  | .ldcDtr cond p u w rn imm8 => Sys2Proof.Machine.execLdcDtr cond p u w rn imm8 s
  | .stcDtr cond p u w rn imm8 => Sys2Proof.Machine.execStcDtr cond p u w rn imm8 s
  | .p14DebugOther cond l cRn rt opc2 cRm => Sys2Proof.Machine.execP14DebugOther cond l cRn rt opc2 cRm s
  | .p14TeeOther cond l cRn rt opc2 cRm => Sys2Proof.Machine.execP14TeeOther cond l cRn rt opc2 cRm s
  | .p14Other cond opc1 l cRn rt opc2 cRm => Sys2Proof.Machine.execP14Other cond opc1 l cRn rt opc2 cRm s
  | .fmstat cond => Sys2Proof.Machine.execFmstat cond s
  | .vmrsFpsid cond rt => Sys2Proof.Machine.execVmrsFpsid cond rt s
  | .vmsrFpsid cond rt => Sys2Proof.Machine.execVmsrFpsid cond rt s
  | .vmrsFpscr cond rt => Sys2Proof.Machine.execVmrsFpscr cond rt s
  | .vmsrFpscr cond rt => Sys2Proof.Machine.execVmsrFpscr cond rt s
  | .vmrsMvfr1 cond rt => Sys2Proof.Machine.execVmrsMvfr1 cond rt s
  | .vmsrMvfr1 cond rt => Sys2Proof.Machine.execVmsrMvfr1 cond rt s
  | .vmrsMvfr0 cond rt => Sys2Proof.Machine.execVmrsMvfr0 cond rt s
  | .vmsrMvfr0 cond rt => Sys2Proof.Machine.execVmsrMvfr0 cond rt s
  | .vmrsFpexc cond rt => Sys2Proof.Machine.execVmrsFpexc cond rt s
  | .vmsrFpexc cond rt => Sys2Proof.Machine.execVmsrFpexc cond rt s
  | .vfpSysOther cond l reg rt => Sys2Proof.Machine.execVfpSysOther cond l reg rt s
  | .vfpData cond hi mid lo => Sys2Proof.Machine.execVfpData cond hi mid lo s
  | .vfpTransfer cond hi mid lo => Sys2Proof.Machine.execVfpTransfer cond hi mid lo s
  | .vfpLoadStore cond hi lo => Sys2Proof.Machine.execVfpLoadStore cond hi lo s
  | .mrcMidr cond rt => Sys2Proof.Machine.execMrcMidr cond rt s
  | .mrcMidr4 cond rt => Sys2Proof.Machine.execMrcMidr4 cond rt s
  | .mrcMidr6 cond rt => Sys2Proof.Machine.execMrcMidr6 cond rt s
  | .mrcMidr7 cond rt => Sys2Proof.Machine.execMrcMidr7 cond rt s
  | .mrcCtr cond rt => Sys2Proof.Machine.execMrcCtr cond rt s
  | .mrcTcmtr cond rt => Sys2Proof.Machine.execMrcTcmtr cond rt s
  | .mrcTlbtr cond rt => Sys2Proof.Machine.execMrcTlbtr cond rt s
  | .mrcMpidr cond rt => Sys2Proof.Machine.execMrcMpidr cond rt s
  | .mrcIdPfr0 cond rt => Sys2Proof.Machine.execMrcIdPfr0 cond rt s
  | .mrcIdPfr1 cond rt => Sys2Proof.Machine.execMrcIdPfr1 cond rt s
  | .mrcIdDfr0 cond rt => Sys2Proof.Machine.execMrcIdDfr0 cond rt s
  | .mrcIdAfr0 cond rt => Sys2Proof.Machine.execMrcIdAfr0 cond rt s
  | .mrcIdMmfr0 cond rt => Sys2Proof.Machine.execMrcIdMmfr0 cond rt s
  | .mrcIdMmfr1 cond rt => Sys2Proof.Machine.execMrcIdMmfr1 cond rt s
  | .mrcIdMmfr2 cond rt => Sys2Proof.Machine.execMrcIdMmfr2 cond rt s
  | .mrcIdMmfr3 cond rt => Sys2Proof.Machine.execMrcIdMmfr3 cond rt s
  | .mrcIdIsar0 cond rt => Sys2Proof.Machine.execMrcIdIsar0 cond rt s
  | .mrcIdIsar1 cond rt => Sys2Proof.Machine.execMrcIdIsar1 cond rt s
  | .mrcIdIsar2 cond rt => Sys2Proof.Machine.execMrcIdIsar2 cond rt s
  | .mrcIdIsar3 cond rt => Sys2Proof.Machine.execMrcIdIsar3 cond rt s
  | .mrcIdIsar4 cond rt => Sys2Proof.Machine.execMrcIdIsar4 cond rt s
  | .mrcIdIsar5 cond rt => Sys2Proof.Machine.execMrcIdIsar5 cond rt s
  | .mrcIdIsar6 cond rt => Sys2Proof.Machine.execMrcIdIsar6 cond rt s
  | .mrcIdIsar7 cond rt => Sys2Proof.Machine.execMrcIdIsar7 cond rt s
  | .mrcFeatureReserved cond rt opc2 cRm => Sys2Proof.Machine.execMrcFeatureReserved cond rt opc2 cRm s
  | .mrcCcsidr cond rt => Sys2Proof.Machine.execMrcCcsidr cond rt s
  | .mrcClidr cond rt => Sys2Proof.Machine.execMrcClidr cond rt s
  | .mrcSiliconId cond rt => Sys2Proof.Machine.execMrcSiliconId cond rt s
  | .mrcCsselr cond rt => Sys2Proof.Machine.execMrcCsselr cond rt s
  | .mcrCsselr cond rt => Sys2Proof.Machine.execMcrCsselr cond rt s
  | .mrcSctlr cond rt => Sys2Proof.Machine.execMrcSctlr cond rt s
  | .mcrSctlr cond rt => Sys2Proof.Machine.execMcrSctlr cond rt s
  | .mrcActlr cond rt => Sys2Proof.Machine.execMrcActlr cond rt s
  | .mcrActlr cond rt => Sys2Proof.Machine.execMcrActlr cond rt s
  | .mrcCpacr cond rt => Sys2Proof.Machine.execMrcCpacr cond rt s
  | .mcrCpacr cond rt => Sys2Proof.Machine.execMcrCpacr cond rt s
  | .mrcScr cond rt => Sys2Proof.Machine.execMrcScr cond rt s
  | .mcrScr cond rt => Sys2Proof.Machine.execMcrScr cond rt s
  | .mrcSder cond rt => Sys2Proof.Machine.execMrcSder cond rt s
  | .mcrSder cond rt => Sys2Proof.Machine.execMcrSder cond rt s
  | .mrcNsacr cond rt => Sys2Proof.Machine.execMrcNsacr cond rt s
  | .mcrNsacr cond rt => Sys2Proof.Machine.execMcrNsacr cond rt s
  | .mrcTtbr0 cond rt => Sys2Proof.Machine.execMrcTtbr0 cond rt s
  | .mcrTtbr0 cond rt => Sys2Proof.Machine.execMcrTtbr0 cond rt s
  | .mrcTtbr1 cond rt => Sys2Proof.Machine.execMrcTtbr1 cond rt s
  | .mcrTtbr1 cond rt => Sys2Proof.Machine.execMcrTtbr1 cond rt s
  | .mrcTtbcr cond rt => Sys2Proof.Machine.execMrcTtbcr cond rt s
  | .mcrTtbcr cond rt => Sys2Proof.Machine.execMcrTtbcr cond rt s
  | .mrcDacr cond rt => Sys2Proof.Machine.execMrcDacr cond rt s
  | .mcrDacr cond rt => Sys2Proof.Machine.execMcrDacr cond rt s
  | .mrcDfsr cond rt => Sys2Proof.Machine.execMrcDfsr cond rt s
  | .mcrDfsr cond rt => Sys2Proof.Machine.execMcrDfsr cond rt s
  | .mrcIfsr cond rt => Sys2Proof.Machine.execMrcIfsr cond rt s
  | .mcrIfsr cond rt => Sys2Proof.Machine.execMcrIfsr cond rt s
  | .mrcAdfsr cond rt => Sys2Proof.Machine.execMrcAdfsr cond rt s
  | .mcrAdfsr cond rt => Sys2Proof.Machine.execMcrAdfsr cond rt s
  | .mrcAifsr cond rt => Sys2Proof.Machine.execMrcAifsr cond rt s
  | .mcrAifsr cond rt => Sys2Proof.Machine.execMcrAifsr cond rt s
  | .mrcDfar cond rt => Sys2Proof.Machine.execMrcDfar cond rt s
  | .mcrDfar cond rt => Sys2Proof.Machine.execMcrDfar cond rt s
  | .mrcIfar cond rt => Sys2Proof.Machine.execMrcIfar cond rt s
  | .mcrIfar cond rt => Sys2Proof.Machine.execMcrIfar cond rt s
  | .mcrWfiNop cond rt => Sys2Proof.Machine.execMcrWfiNop cond rt s
  | .mrcPar cond rt => Sys2Proof.Machine.execMrcPar cond rt s
  | .mcrPar cond rt => Sys2Proof.Machine.execMcrPar cond rt s
  | .mcrIciallu cond rt => Sys2Proof.Machine.execMcrIciallu cond rt s
  | .mcrIcimvau cond rt => Sys2Proof.Machine.execMcrIcimvau cond rt s
  | .mcrIsb cond rt => Sys2Proof.Machine.execMcrIsb cond rt s
  | .mcrBpiall cond rt => Sys2Proof.Machine.execMcrBpiall cond rt s
  | .mcrBpimva cond rt => Sys2Proof.Machine.execMcrBpimva cond rt s
  | .mcrDcimvac cond rt => Sys2Proof.Machine.execMcrDcimvac cond rt s
  | .mcrDcisw cond rt => Sys2Proof.Machine.execMcrDcisw cond rt s
  | .mcrVaPaCurPrivRead cond rt => Sys2Proof.Machine.execMcrVaPaCurPrivRead cond rt s
  | .mcrVaPaCurPrivWrite cond rt => Sys2Proof.Machine.execMcrVaPaCurPrivWrite cond rt s
  | .mcrVaPaCurUserRead cond rt => Sys2Proof.Machine.execMcrVaPaCurUserRead cond rt s
  | .mcrVaPaCurUserWrite cond rt => Sys2Proof.Machine.execMcrVaPaCurUserWrite cond rt s
  | .mcrVaPaOthPrivRead cond rt => Sys2Proof.Machine.execMcrVaPaOthPrivRead cond rt s
  | .mcrVaPaOthPrivWrite cond rt => Sys2Proof.Machine.execMcrVaPaOthPrivWrite cond rt s
  | .mcrVaPaOthUserRead cond rt => Sys2Proof.Machine.execMcrVaPaOthUserRead cond rt s
  | .mcrVaPaOthUserWrite cond rt => Sys2Proof.Machine.execMcrVaPaOthUserWrite cond rt s
  | .mcrDccmvac cond rt => Sys2Proof.Machine.execMcrDccmvac cond rt s
  | .mcrDccsw cond rt => Sys2Proof.Machine.execMcrDccsw cond rt s
  | .mcrDsb cond rt => Sys2Proof.Machine.execMcrDsb cond rt s
  | .mcrDmb cond rt => Sys2Proof.Machine.execMcrDmb cond rt s
  | .mcrDccmvau cond rt => Sys2Proof.Machine.execMcrDccmvau cond rt s
  | .mcrDccimvac cond rt => Sys2Proof.Machine.execMcrDccimvac cond rt s
  | .mcrDccisw cond rt => Sys2Proof.Machine.execMcrDccisw cond rt s
  | .mcrItlbiall cond rt => Sys2Proof.Machine.execMcrItlbiall cond rt s
  | .mcrItlbimva cond rt => Sys2Proof.Machine.execMcrItlbimva cond rt s
  | .mcrItlbiasid cond rt => Sys2Proof.Machine.execMcrItlbiasid cond rt s
  | .mcrDtlbiall cond rt => Sys2Proof.Machine.execMcrDtlbiall cond rt s
  | .mcrDtlbimva cond rt => Sys2Proof.Machine.execMcrDtlbimva cond rt s
  | .mcrDtlbiasid cond rt => Sys2Proof.Machine.execMcrDtlbiasid cond rt s
  | .mcrTlbiall cond rt => Sys2Proof.Machine.execMcrTlbiall cond rt s
  | .mcrTlbimva cond rt => Sys2Proof.Machine.execMcrTlbimva cond rt s
  | .mcrTlbiasid cond rt => Sys2Proof.Machine.execMcrTlbiasid cond rt s
  | .mrcPmnc cond rt => Sys2Proof.Machine.execMrcPmnc cond rt s
  | .mcrPmnc cond rt => Sys2Proof.Machine.execMcrPmnc cond rt s
  | .mrcCntens cond rt => Sys2Proof.Machine.execMrcCntens cond rt s
  | .mcrCntens cond rt => Sys2Proof.Machine.execMcrCntens cond rt s
  | .mrcCntenc cond rt => Sys2Proof.Machine.execMrcCntenc cond rt s
  | .mcrCntenc cond rt => Sys2Proof.Machine.execMcrCntenc cond rt s
  | .mrcFlag cond rt => Sys2Proof.Machine.execMrcFlag cond rt s
  | .mcrFlag cond rt => Sys2Proof.Machine.execMcrFlag cond rt s
  | .mrcSwincr cond rt => Sys2Proof.Machine.execMrcSwincr cond rt s
  | .mcrSwincr cond rt => Sys2Proof.Machine.execMcrSwincr cond rt s
  | .mrcPmnxsel cond rt => Sys2Proof.Machine.execMrcPmnxsel cond rt s
  | .mcrPmnxsel cond rt => Sys2Proof.Machine.execMcrPmnxsel cond rt s
  | .mrcCcnt cond rt => Sys2Proof.Machine.execMrcCcnt cond rt s
  | .mcrCcnt cond rt => Sys2Proof.Machine.execMcrCcnt cond rt s
  | .mrcEvtsel cond rt => Sys2Proof.Machine.execMrcEvtsel cond rt s
  | .mcrEvtsel cond rt => Sys2Proof.Machine.execMcrEvtsel cond rt s
  | .mrcPmcnt cond rt => Sys2Proof.Machine.execMrcPmcnt cond rt s
  | .mcrPmcnt cond rt => Sys2Proof.Machine.execMcrPmcnt cond rt s
  | .mrcUseren cond rt => Sys2Proof.Machine.execMrcUseren cond rt s
  | .mcrUseren cond rt => Sys2Proof.Machine.execMcrUseren cond rt s
  | .mrcIntens cond rt => Sys2Proof.Machine.execMrcIntens cond rt s
  | .mcrIntens cond rt => Sys2Proof.Machine.execMcrIntens cond rt s
  | .mrcIntenc cond rt => Sys2Proof.Machine.execMrcIntenc cond rt s
  | .mcrIntenc cond rt => Sys2Proof.Machine.execMcrIntenc cond rt s
  | .mrcL2Lock cond rt => Sys2Proof.Machine.execMrcL2Lock cond rt s
  | .mcrL2Lock cond rt => Sys2Proof.Machine.execMcrL2Lock cond rt s
  | .mrcL2Aux cond rt => Sys2Proof.Machine.execMrcL2Aux cond rt s
  | .mcrL2Aux cond rt => Sys2Proof.Machine.execMcrL2Aux cond rt s
  | .mrcDtlbLock cond rt => Sys2Proof.Machine.execMrcDtlbLock cond rt s
  | .mcrDtlbLock cond rt => Sys2Proof.Machine.execMcrDtlbLock cond rt s
  | .mrcItlbLock cond rt => Sys2Proof.Machine.execMrcItlbLock cond rt s
  | .mcrItlbLock cond rt => Sys2Proof.Machine.execMcrItlbLock cond rt s
  | .mcrDtlbPreload cond rt => Sys2Proof.Machine.execMcrDtlbPreload cond rt s
  | .mcrItlbPreload cond rt => Sys2Proof.Machine.execMcrItlbPreload cond rt s
  | .mrcPrrr cond rt => Sys2Proof.Machine.execMrcPrrr cond rt s
  | .mcrPrrr cond rt => Sys2Proof.Machine.execMcrPrrr cond rt s
  | .mrcNmrr cond rt => Sys2Proof.Machine.execMrcNmrr cond rt s
  | .mcrNmrr cond rt => Sys2Proof.Machine.execMcrNmrr cond rt s
  | .mrcPleIdPresent cond rt => Sys2Proof.Machine.execMrcPleIdPresent cond rt s
  | .mrcPleIdReserved cond rt => Sys2Proof.Machine.execMrcPleIdReserved cond rt s
  | .mrcPleIdRunning cond rt => Sys2Proof.Machine.execMrcPleIdRunning cond rt s
  | .mrcPleIdInterrupting cond rt => Sys2Proof.Machine.execMrcPleIdInterrupting cond rt s
  | .mrcPleUser cond rt => Sys2Proof.Machine.execMrcPleUser cond rt s
  | .mcrPleUser cond rt => Sys2Proof.Machine.execMcrPleUser cond rt s
  | .mrcPleChannel cond rt => Sys2Proof.Machine.execMrcPleChannel cond rt s
  | .mcrPleChannel cond rt => Sys2Proof.Machine.execMcrPleChannel cond rt s
  | .mcrPleStop cond rt => Sys2Proof.Machine.execMcrPleStop cond rt s
  | .mcrPleStart cond rt => Sys2Proof.Machine.execMcrPleStart cond rt s
  | .mcrPleClear cond rt => Sys2Proof.Machine.execMcrPleClear cond rt s
  | .mrcPleControl cond rt => Sys2Proof.Machine.execMrcPleControl cond rt s
  | .mcrPleControl cond rt => Sys2Proof.Machine.execMcrPleControl cond rt s
  | .mrcPleStartAddr cond rt => Sys2Proof.Machine.execMrcPleStartAddr cond rt s
  | .mcrPleStartAddr cond rt => Sys2Proof.Machine.execMcrPleStartAddr cond rt s
  | .mrcPleEndAddr cond rt => Sys2Proof.Machine.execMrcPleEndAddr cond rt s
  | .mcrPleEndAddr cond rt => Sys2Proof.Machine.execMcrPleEndAddr cond rt s
  | .mrcPleStatus cond rt => Sys2Proof.Machine.execMrcPleStatus cond rt s
  | .mrcPleContext cond rt => Sys2Proof.Machine.execMrcPleContext cond rt s
  | .mcrPleContext cond rt => Sys2Proof.Machine.execMcrPleContext cond rt s
  | .mrcVbar cond rt => Sys2Proof.Machine.execMrcVbar cond rt s
  | .mcrVbar cond rt => Sys2Proof.Machine.execMcrVbar cond rt s
  | .mrcMvbar cond rt => Sys2Proof.Machine.execMrcMvbar cond rt s
  | .mcrMvbar cond rt => Sys2Proof.Machine.execMcrMvbar cond rt s
  | .mrcIsr cond rt => Sys2Proof.Machine.execMrcIsr cond rt s
  | .mrcFcse cond rt => Sys2Proof.Machine.execMrcFcse cond rt s
  | .mcrFcse cond rt => Sys2Proof.Machine.execMcrFcse cond rt s
  | .mrcContextidr cond rt => Sys2Proof.Machine.execMrcContextidr cond rt s
  | .mcrContextidr cond rt => Sys2Proof.Machine.execMcrContextidr cond rt s
  | .mrcTpidrurw cond rt => Sys2Proof.Machine.execMrcTpidrurw cond rt s
  | .mcrTpidrurw cond rt => Sys2Proof.Machine.execMcrTpidrurw cond rt s
  | .mrcTpidruro cond rt => Sys2Proof.Machine.execMrcTpidruro cond rt s
  | .mcrTpidruro cond rt => Sys2Proof.Machine.execMcrTpidruro cond rt s
  | .mrcTpidrprw cond rt => Sys2Proof.Machine.execMrcTpidrprw cond rt s
  | .mcrTpidrprw cond rt => Sys2Proof.Machine.execMcrTpidrprw cond rt s
  | .mrcDl1Data0 cond rt => Sys2Proof.Machine.execMrcDl1Data0 cond rt s
  | .mcrDl1Data0 cond rt => Sys2Proof.Machine.execMcrDl1Data0 cond rt s
  | .mrcDl1Data1 cond rt => Sys2Proof.Machine.execMrcDl1Data1 cond rt s
  | .mcrDl1Data1 cond rt => Sys2Proof.Machine.execMcrDl1Data1 cond rt s
  | .mcrDtlbCamWrite cond rt => Sys2Proof.Machine.execMcrDtlbCamWrite cond rt s
  | .mcrDtlbAttrWrite cond rt => Sys2Proof.Machine.execMcrDtlbAttrWrite cond rt s
  | .mcrDtlbPaWrite cond rt => Sys2Proof.Machine.execMcrDtlbPaWrite cond rt s
  | .mcrDhvabWrite cond rt => Sys2Proof.Machine.execMcrDhvabWrite cond rt s
  | .mcrDtagWrite cond rt => Sys2Proof.Machine.execMcrDtagWrite cond rt s
  | .mcrDdataWrite cond rt => Sys2Proof.Machine.execMcrDdataWrite cond rt s
  | .mcrDtlbCamRead cond rt => Sys2Proof.Machine.execMcrDtlbCamRead cond rt s
  | .mcrDtlbAttrRead cond rt => Sys2Proof.Machine.execMcrDtlbAttrRead cond rt s
  | .mcrDtlbPaRead cond rt => Sys2Proof.Machine.execMcrDtlbPaRead cond rt s
  | .mcrDhvabRead cond rt => Sys2Proof.Machine.execMcrDhvabRead cond rt s
  | .mcrDtagRead cond rt => Sys2Proof.Machine.execMcrDtagRead cond rt s
  | .mcrDdataRead cond rt => Sys2Proof.Machine.execMcrDdataRead cond rt s
  | .mrcIl1Data0 cond rt => Sys2Proof.Machine.execMrcIl1Data0 cond rt s
  | .mcrIl1Data0 cond rt => Sys2Proof.Machine.execMcrIl1Data0 cond rt s
  | .mrcIl1Data1 cond rt => Sys2Proof.Machine.execMrcIl1Data1 cond rt s
  | .mcrIl1Data1 cond rt => Sys2Proof.Machine.execMcrIl1Data1 cond rt s
  | .mcrItlbCamWrite cond rt => Sys2Proof.Machine.execMcrItlbCamWrite cond rt s
  | .mcrItlbAttrWrite cond rt => Sys2Proof.Machine.execMcrItlbAttrWrite cond rt s
  | .mcrItlbPaWrite cond rt => Sys2Proof.Machine.execMcrItlbPaWrite cond rt s
  | .mcrIhvabWrite cond rt => Sys2Proof.Machine.execMcrIhvabWrite cond rt s
  | .mcrItagWrite cond rt => Sys2Proof.Machine.execMcrItagWrite cond rt s
  | .mcrIdataWrite cond rt => Sys2Proof.Machine.execMcrIdataWrite cond rt s
  | .mcrItlbCamRead cond rt => Sys2Proof.Machine.execMcrItlbCamRead cond rt s
  | .mcrItlbAttrRead cond rt => Sys2Proof.Machine.execMcrItlbAttrRead cond rt s
  | .mcrItlbPaRead cond rt => Sys2Proof.Machine.execMcrItlbPaRead cond rt s
  | .mcrIhvabRead cond rt => Sys2Proof.Machine.execMcrIhvabRead cond rt s
  | .mcrItagRead cond rt => Sys2Proof.Machine.execMcrItagRead cond rt s
  | .mcrIdataRead cond rt => Sys2Proof.Machine.execMcrIdataRead cond rt s
  | .mcrGhbWrite cond rt => Sys2Proof.Machine.execMcrGhbWrite cond rt s
  | .mcrBtbWrite cond rt => Sys2Proof.Machine.execMcrBtbWrite cond rt s
  | .mcrGhbRead cond rt => Sys2Proof.Machine.execMcrGhbRead cond rt s
  | .mcrBtbRead cond rt => Sys2Proof.Machine.execMcrBtbRead cond rt s
  | .mrcL2Data0 cond rt => Sys2Proof.Machine.execMrcL2Data0 cond rt s
  | .mcrL2Data0 cond rt => Sys2Proof.Machine.execMcrL2Data0 cond rt s
  | .mrcL2Data1 cond rt => Sys2Proof.Machine.execMrcL2Data1 cond rt s
  | .mcrL2Data1 cond rt => Sys2Proof.Machine.execMcrL2Data1 cond rt s
  | .mcrL2TagWrite cond rt => Sys2Proof.Machine.execMcrL2TagWrite cond rt s
  | .mcrL2DataWrite cond rt => Sys2Proof.Machine.execMcrL2DataWrite cond rt s
  | .mcrL2ParityWrite cond rt => Sys2Proof.Machine.execMcrL2ParityWrite cond rt s
  | .mrcL2Data2 cond rt => Sys2Proof.Machine.execMrcL2Data2 cond rt s
  | .mcrL2Data2 cond rt => Sys2Proof.Machine.execMcrL2Data2 cond rt s
  | .mcrL2TagRead cond rt => Sys2Proof.Machine.execMcrL2TagRead cond rt s
  | .mcrL2DataRead cond rt => Sys2Proof.Machine.execMcrL2DataRead cond rt s
  | .mcrL2ParityRead cond rt => Sys2Proof.Machine.execMcrL2ParityRead cond rt s
  | .p15Other cond opc1 l cRn rt opc2 cRm => Sys2Proof.Machine.execP15Other cond opc1 l cRn rt opc2 cRm s
  | .mcrOther cond opc1 cRn rt coproc opc2 cRm => Sys2Proof.Machine.execMcrOther cond opc1 cRn rt coproc opc2 cRm s
  | .mrcOther cond opc1 cRn rt coproc opc2 cRm => Sys2Proof.Machine.execMrcOther cond opc1 cRn rt coproc opc2 cRm s
  | .cdpAny cond opc1 cRn cRd coproc opc2 cRm => Sys2Proof.Machine.execCdpAny cond opc1 cRn cRd coproc opc2 cRm s
  | .mcrrAny cond rt2 rt coproc opc1 cRm => Sys2Proof.Machine.execMcrrAny cond rt2 rt coproc opc1 cRm s
  | .mrrcAny cond rt2 rt coproc opc1 cRm => Sys2Proof.Machine.execMrrcAny cond rt2 rt coproc opc1 cRm s
  | .ldcStcOther cond p u d w l rn cRd coproc imm8 => Sys2Proof.Machine.execLdcStcOther cond p u d w l rn cRd coproc imm8 s

end Sys2Proof.Machine
end

