-- ==== Sys2Proof/Machine/Debug.lean ====
section
/-! DEFINITION. Running one instruction word; instructions issued through the ITR, the accesses of the APB port that issue
them, and leaving debug state (30_encoding.md R1354; 62_debug_events.md). -/

noncomputable section

namespace Sys2Proof.Machine

/-- Go on where an effect gives a next state. -/
def afterwards (o : Host.Outcome State Fault Refusal) (f : State → State) : Host.Outcome State Fault Refusal :=
  match o with
  | .next s => .next (f s)
  | .fault e => .fault e
  | .refused r => .refused r

/-! ## Running one instruction word -/

/-- A VMRS or VMSR word, whatever its should-be-zero bits (41_cp14_vfp_sysreg_instructions.md R1580). -/
def isVfpRegWord (w : Word) : Bool :=
  w.extractLsb' 21 7 == 0b1110111 && w.extractLsb' 8 4 == 0b1010 && w.getLsbD 4

/-- A word that breaks a should-be field is refused (R1386); where it is a VMRS or VMSR behind a closed gate it is Undefined
first (46_other_isa.md R1863). -/
def runShouldBe (w : Word) (s : State) : Host.Outcome State Fault Refusal :=
  if isVfpRegWord w && !s.vfpRegOpen (w.extractLsb' 16 4) then .next (takeUndefined s) else .fault .shouldBeField

/-- Run an ARM instruction word in the order of 30_encoding.md R1354; words without an instruction are Undefined, words
that break a should-be field are refused (R1385, R1386). -/
def runWord (w : Word) (s : State) : Host.Outcome State Fault Refusal :=
  match decodeWord w with
  | .ok i => exec i s
  | .error .undefined => onCond (w.extractLsb' 28 4) s (.next (takeUndefined s))
  | .error .shouldBe => onCond (w.extractLsb' 28 4) s (runShouldBe w s)

/-- A data-processing instruction (or a status) on r15 that R2083 and R2086 call Unpredictable in debug state. -/
def badPcWrite (cond : BitVec 4) (sf : BitVec 1) (rd : BitVec 4) : Bool := rd == 15 && (sf == 1 || cond != 14)

/-- The instructions that are Unpredictable in debug state (R2083, R2085, R2086). -/
def debugForbidden (i : Instr) : Bool :=
  match i with
  | .andImm cond sf _ rd _ => badPcWrite cond sf rd
  | .andReg cond sf _ rd _ _ _ => badPcWrite cond sf rd
  | .andRsr cond sf _ rd _ _ _ => badPcWrite cond sf rd
  | .eorImm cond sf _ rd _ => badPcWrite cond sf rd
  | .eorReg cond sf _ rd _ _ _ => badPcWrite cond sf rd
  | .eorRsr cond sf _ rd _ _ _ => badPcWrite cond sf rd
  | .subImm cond sf _ rd _ => badPcWrite cond sf rd
  | .subReg cond sf _ rd _ _ _ => badPcWrite cond sf rd
  | .subRsr cond sf _ rd _ _ _ => badPcWrite cond sf rd
  | .rsbImm cond sf _ rd _ => badPcWrite cond sf rd
  | .rsbReg cond sf _ rd _ _ _ => badPcWrite cond sf rd
  | .rsbRsr cond sf _ rd _ _ _ => badPcWrite cond sf rd
  | .addImm cond sf _ rd _ => badPcWrite cond sf rd
  | .addReg cond sf _ rd _ _ _ => badPcWrite cond sf rd
  | .addRsr cond sf _ rd _ _ _ => badPcWrite cond sf rd
  | .adcImm cond sf _ rd _ => badPcWrite cond sf rd
  | .adcReg cond sf _ rd _ _ _ => badPcWrite cond sf rd
  | .adcRsr cond sf _ rd _ _ _ => badPcWrite cond sf rd
  | .sbcImm cond sf _ rd _ => badPcWrite cond sf rd
  | .sbcReg cond sf _ rd _ _ _ => badPcWrite cond sf rd
  | .sbcRsr cond sf _ rd _ _ _ => badPcWrite cond sf rd
  | .rscImm cond sf _ rd _ => badPcWrite cond sf rd
  | .rscReg cond sf _ rd _ _ _ => badPcWrite cond sf rd
  | .rscRsr cond sf _ rd _ _ _ => badPcWrite cond sf rd
  | .orrImm cond sf _ rd _ => badPcWrite cond sf rd
  | .orrReg cond sf _ rd _ _ _ => badPcWrite cond sf rd
  | .orrRsr cond sf _ rd _ _ _ => badPcWrite cond sf rd
  | .bicImm cond sf _ rd _ => badPcWrite cond sf rd
  | .bicReg cond sf _ rd _ _ _ => badPcWrite cond sf rd
  | .bicRsr cond sf _ rd _ _ _ => badPcWrite cond sf rd
  | .movImm cond sf rd _ => badPcWrite cond sf rd
  | .movReg cond sf rd _ _ _ => badPcWrite cond sf rd
  | .movRsr cond sf rd _ _ _ => badPcWrite cond sf rd
  | .mvnImm cond sf rd _ => badPcWrite cond sf rd
  | .mvnReg cond sf rd _ _ _ => badPcWrite cond sf rd
  | .mvnRsr cond sf rd _ _ _ => badPcWrite cond sf rd
  | .b _ _ => true
  | .bl _ _ => true
  | .blxImm _ _ => true
  | .blxReg _ _ => true
  | .bx _ _ => true
  | .bxj _ _ => true
  | .setend _ => true
  | .cps _ _ _ _ _ _ => true
  | .rfe _ _ _ _ => true
  | .ldmExcRet _ _ _ _ _ _ => true
  | .ldrImm _ _ _ _ _ rt _ => rt == 15
  | .ldrReg _ _ _ _ _ rt _ _ _ => rt == 15
  | .ldm _ _ _ _ _ regs => regs.getLsbD 15
  | .strex cond _ rd _ => badPcWrite cond 0 rd
  | .strexb cond _ rd _ => badPcWrite cond 0 rd
  | .strexh cond _ rd _ => badPcWrite cond 0 rd
  | .strexd cond _ rd _ => badPcWrite cond 0 rd
  | _ => false

/-- The sticky pipeline advance bit after an instruction: set, unless a precise abort, a watchpoint or an Undefined Instruction
exception cancelled it (16_debug_registers.md R660). -/
def State.advanced (s : State) : State :=
  if s.happened.getLsbD 1 || s.happened.getLsbD 2 then s
  else { s with dbg := { s.dbg with dscr := setBit s.dbg.dscr 25 true } }

/-- The processor executes the instruction in the ITR (R2085); it completes within the access that issued it, whose answer the
port gives. -/
def runItr (s : State) : Host.Outcome State Fault Refusal :=
  let bad := match decodeWord s.dbg.itr with
    | .ok i => debugForbidden i
    | .error _ => false
  if bad then .fault .debugInstruction
  else match runWord s.dbg.itr { s with dbg := { s.dbg with instrCompl := false } } with
    | .next t => .next { t with
        happened := 0
        gaps := []
        dbg := { t.advanced.dbg with
          instrCompl := true
          apbData := s.dbg.apbData
          apbErr := s.dbg.apbErr } }
    | .fault e => .fault e
    | .refused r => .refused r

/-- What an access of the APB port leads to. -/
def servePort (p : Port) : Host.Outcome State Fault Refusal :=
  match p with
  | .next s => .next s
  | .issue s => runItr s
  | .stop => .fault .hostAction

/-- Leaving debug state (R2100): execution goes on where the pc was last written, anywhere if it was not. -/
def leaveDebug (s : State) : State :=
  let d := setBit (setBit (setBit s.dbg.dscr 0 false) 1 true) 19 false
  { s.drawn with
    pc := s.dbg.restartPc.getD s.draw &&& s.pcMask
    dbg := { s.dbg with dscr := d, restartReq := false, restartPc := none } }

end Sys2Proof.Machine

end
end

