-- ==== Sys2Proof/Machine/Outputs.lean ====
section
/-! DEFINITION. The output signals that are functions of the state (23_axi_signals.md R1294, R1296, R1297;
17_debug_management.md R766, R768, R792 to R795), and the S and Q views of the NEON/VFP registers (18_neon_vfp_state.md
R835). -/

namespace Sys2Proof.Machine

/-- Output signals, true when asserted: nDMAEXTERRIRQ, nDMASIRQ, nDMAIRQ, nPMUIRQ and nCTIIRQ when LOW, the others when HIGH. -/
structure Outputs where
  dmaExtErrIrq : Bool
  dmaSirq : Bool
  dmaIrq : Bool
  pmuIrq : Bool
  ctiIrq : Bool
  standbyWfi : Bool
  clkStopAck : Bool
  commTx : Bool
  commRx : Bool
  dbgAck : Bool
  dbgNoPwrDwn : Bool
  dbgPwrDwnAck : Bool
  deriving DecidableEq, Repr

/-- An output of the processor to the system: in integration mode a bit of ITCTRL-EOC (R766, R768). -/
def State.external (s : State) (i : Nat) (functional : Bool) : Bool :=
  if s.debugIntegration then s.dbg.itEoc.getLsbD i else functional

/-- The output signals. DBGPWRDWNACK answers DBGPWRDWNREQ (63_pmu_power.md R2194). -/
def State.outputs (s : State) : Outputs where
  dmaExtErrIrq := s.external 7 s.ple.errorIrq
  dmaSirq := s.external 6 s.ple.secureIrq
  dmaIrq := s.external 5 s.ple.nonsecureIrq
  pmuIrq := s.external 4 s.pmu.irq
  ctiIrq := (ctiTrigOut s).getLsbD 8
  standbyWfi := s.external 3 (s.run == .standby)
  clkStopAck := s.run == .clockStopped
  commTx := s.external 2 !s.dbg.dscr.getLsbD 29
  commRx := s.external 1 (s.dbg.dscr.getLsbD 30)
  dbgAck := s.external 0 s.dbgack
  dbgNoPwrDwn := s.dbg.prcr.getLsbD 0
  dbgPwrDwnAck := s.pins.dbgpwrdwnreq

/-- The S view: S2n is the low half of Dn, S2n + 1 the high half, for D0 to D15. -/
def Vfp.single (v : Vfp) (n : Fin 32) : Word :=
  v.d[n.val / 2].extractLsb' (32 * (n.val % 2)) 32

/-- The Q view: Qn is D2n + 1 above D2n. -/
def Vfp.quad (v : Vfp) (n : Fin 16) : BitVec 128 := v.d[2 * n.val + 1] ++ v.d[2 * n.val]

end Sys2Proof.Machine
end

