-- ==== Sys2Proof/Machine/Agents.lean ====
section
/-! DEFINITION. What the agents outside the core do between two instructions: resets, pins, bus masters, errors, caches,
TLBs, units without timing (70_reset_and_hazards.md R2205 to R2217; 92_eei_decisions.md D6, D13, D16, D18). -/

noncomputable section

namespace Sys2Proof.Machine

/-! ## Resets (R2205) -/

/-- The data cache arrays of L1 and L2 after a reset in which the RAMs are retained or not: cleared, unless L1RSTDISABLE or
L2RSTDISABLE is HIGH; then what they held, or any contents (R2208, 63_pmu_power.md R2195). -/
def l1dAfter (retained : Bool) (s : State) : List CacheLine :=
  if !s.pins.straps.l1rstdisable then [] else if retained then s.l1d
  else freeArray s.build.l1Size.sets 4 (3 * s.draws + 1)

def l2After (retained : Bool) (s : State) : List CacheLine :=
  if !s.pins.straps.l2rstdisable || !s.build.hasL2 then [] else if retained then s.l2
  else freeArray s.build.l2Size.sets 8 (3 * s.draws + 2)

/-- The L1 instruction cache after a reset: cleared, or with L1RSTDISABLE HIGH any contents (R2208). -/
def l1iAfter (s : State) : List CacheLine :=
  if s.pins.straps.l1rstdisable then freeArray s.build.l1Size.sets 4 (3 * s.draws) else []

/-- A power-on reset that follows the loss of stores: every register as `State.reset` has it. The build and the platform are not
reset: memory, bus, pins. PRSR[3] is open (R2213), and so are the arrays that are neither cleared nor retained. -/
def powerOnClean (s : State) : State :=
  let r := State.resetWith s.build s.pins.straps
  { r with
    mem := s.mem
    bus := s.bus
    pins := s.pins
    draws := s.draws + 1
    schedule := s.schedule
    l1i := l1iAfter s
    l1d := l1dAfter Config.retainL1d s
    l2 := l2After Config.retainL2 s
    vfp := { r.vfp with neonUp := s.vfp.neonUp }
    exclRefused := s.exclRefused
    dbg := { r.dbg with prsr := setBit r.dbg.prsr 3 (s.draw.getLsbD 0) } }

/-- A power-on reset; stores on their way may be lost (R2216). -/
def powerOnReset (s : State) : State := powerOnClean s.loseStores

/-- What a reset does to the core, CP15 and NEON (R2212, R2216), with debug unit `d`; the core stays in reset while PRCR[2] is
set (R705). -/
def resetCore (retainL1d retainL2 : Bool) (d : Debug) (s : State) : State :=
  let r := State.resetWith s.build s.pins.straps
  { s with
    gpr := r.gpr
    pc := r.pc
    cpsr := r.cpsr
    spsr := r.spsr
    sys := r.sys
    sec := r.sec
    nsec := r.nsec
    pmu := r.pmu
    ple := r.ple
    vfp := { r.vfp with neonUp := s.vfp.neonUp }
    itlb := r.itlb
    dtlb := r.dtlb
    l1i := l1iAfter s
    l1d := l1dAfter retainL1d s
    l2 := l2After retainL2 s
    draws := s.draws + 1
    excl := none
    dbg := d
    run := .running
    held := s.dbg.prcr.getLsbD 2
    abortPending := none
    abortHeld := false
    monitorLeft := false
    parityNext := none
    walkParityNext := none
    late := []
    gaps := []
    happened := 0 }

/-- What a soft reset does to the debug unit: the status of the core (R660, R706); the rest keeps its contents. -/
def softDebug (d : Debug) : Debug :=
  { d with
    dscr := setBit (setBits d.dscr 0 (0b10 : BitVec 2)) 19 false
    prsr := setBit d.prsr 3 true
    restartReq := false
    restartPc := none }

/-- A soft reset (R2205). The data caches keep what they hold where they are not cleared; stores on their way may be lost
(R2216). -/
def softReset (s : State) : State := resetCore true true (softDebug s.dbg) s.loseStores

/-- What nPORESET alone does to the debug unit (16_debug_registers.md R652, R706): the registers in the core power domain are
reset, those in the debug power domain keep their values (the locks, ECR, PRCR, the claim tags, the
place in the save sequence, a halt request), PRSR[3] is set. -/
def coreDebug (p : Straps) (d : Debug) : Debug :=
  { Debug.reset p with
    ecr := d.ecr
    osLock := d.osLock
    osSave := d.osSave
    prcr := d.prcr
    prsr := setBit d.prsr 3 true
    swLock := d.swLock
    claim := d.claim
    haltReq := d.haltReq
    osUnlockReq := d.osUnlockReq
    apbData := d.apbData
    apbErr := d.apbErr }

/-- The integer core comes up in a debug domain that has had power all along (63_pmu_power.md R2194, R2197): the ETM, whose CLK
domain nPORESET resets (R2215), too. -/
def coreReset (s : State) : State :=
  { resetCore Config.retainL1d Config.retainL2 (coreDebug s.pins.straps s.dbg) s.loseStores with etm := Etm.reset }

/-- A debug reset (R2205, R2213, R2215): the debug unit but for the status of the core, the CTI and the ETM. -/
def debugReset (s : State) : State :=
  let r := Debug.reset s.pins.straps
  { s with
    dbg := { r with
      dscr := setBits r.dscr 0 (s.dbg.dscr.extractLsb' 0 2)
      restartPc := s.dbg.restartPc
      prsr := 0x00000002 }
    cti := Cti.reset
    etm := Etm.reset
    held := false }

/-- While the debug domain has no power it is held in reset (63_pmu_power.md R2193). -/
def debugHeldDown (s : State) : State := if s.pins.debugUp then s else debugReset s

/-- A NEON reset (R2214). -/
def neonReset (s : State) : State := { s with vfp := { Vfp.reset with neonUp := s.vfp.neonUp } }

/-- The NEON domain goes down, or comes up with its reset values (R2207, D27). -/
def setNeon (up : Bool) (s : State) : State :=
  if up && !s.vfp.neonUp then { s with vfp := Vfp.reset } else { s with vfp := { s.vfp with neonUp := up } }

/-! ## Pins -/

/-- The core loses its power: PRSR[1] is set, its low-power state or debug state is over. Its pc shows nowhere until the reset
with which the core comes up; it is kept legal. -/
def coreDown (s : State) : State :=
  { s with
    run := .running
    pc := s.pc &&& s.pcMask
    dbg := { s.dbg with
      prsr := s.dbg.prsr ||| 2
      dscr := setBit (setBits s.dbg.dscr 0 (0b10 : BitVec 2)) 19 false
      restartReq := false
      restartPc := none } }

/-- What a change of the power of the core and of the debug domain does (63_pmu_power.md R2197): when the core comes up a reset
follows, a power-on reset where the debug domain comes up with it; the debug domain has its reset values while it is down and
when it comes up. -/
def powerChange (old : Pins) (s : State) : State :=
  if s.pins.coreUp && !old.coreUp then
    if s.pins.debugUp && old.debugUp then coreReset s else powerOnReset s
  else
    let s1 := if old.coreUp && !s.pins.coreUp then coreDown s else s
    if old.debugUp != s.pins.debugUp then debugReset s1 else s1

/-- Pins the power sequences allow (63_pmu_power.md R2191, R2194): without power to the core the NEON domain is down and
DBGPWRDWNREQ is asserted; power goes after DBGPWRDWNACK. -/
def powerLegal (p : Pins) (s : State) : Bool :=
  p.coreUp || (!s.vfp.neonUp && p.dbgpwrdwnreq && (!s.pins.coreUp || s.outputs.dbgPwrDwnAck))

/-- CLKSTOPREQ acts: from r2p0, unless ACTLR[19] disables it (00_scope.md R3(b); 12_cp15_control.md R255). -/
def State.stopsClock (s : State) : Bool := s.build.revision.clockStop && !s.sys.actlr.getLsbD 19

/-- A change of the pins. EDBGRQ may only fall once it is acknowledged (17_debug_management.md R792), CLKSTOPREQ only
change against CLKSTOPACK (63_pmu_power.md R2185), power only as R2191 has it. -/
def setPins (p : Pins) (s : State) : Host.Outcome State Fault Refusal :=
  let old := s.pins
  let o := s.outputs
  if old.edbgrq && !p.edbgrq && old.dbgen && !o.dbgAck then .fault .hostAction
  else if s.stopsClock && ((old.clkstopreq && !p.clkstopreq && !o.clkStopAck) ||
      (!old.clkstopreq && p.clkstopreq && o.clkStopAck)) then .fault .hostAction
  else if !powerLegal p s then .fault .hostAction
  else .next (powerChange old { s with pins := p })

/-! ## Errors, TLBs -/

/-- A parity or ECC error of the data side, in the L1 data cache or, in a build with L2 parity or ECC, the L2 cache: it leaves
both unpredictable, and is an imprecise abort where that cache reports such errors; else the corrupted value is used
(22_caches.md R1185, R1186; log 42). -/
def injectParity (l2 : Bool) (s : State) : State :=
  if l2 && !s.build.l2Parity then s
  else if s.parityReported l2 then s.corrupted.pendAbort .parity
  else s.corrupted

/-- An unlocked TLB entry disappears (21_mmu.md R1107). -/
def dropTlb (data : Bool) (i : Fin 32) (s : State) : State :=
  let gone (t : Vector (Option TlbEntry) 32) : Vector (Option TlbEntry) 32 :=
    if t[i].any (·.locked) then t else t.set i none i.isLt
  if data then { s with dtlb := gone s.dtlb } else { s with itlb := gone s.itlb }

/-- A TLB takes the entry of a translation that does not fault. -/
def fillWith (kind : XKind) (va : Word) (s : State) : State :=
  match translate s s.secure s.privileged kind (mvaOf s.cur va) with
  | .ok _ s' => s'
  | .abort _ _ => s
  | .stop _ => s

/-- A TLB takes an entry on its own (21_mmu.md R1107); a speculative walk of the instruction side is confined as R1042 has it. -/
def fillTlb (data : Bool) (va : Word) (s : State) : State :=
  if data then fillWith .read va s else confine va (fillWith .fetch va) s

/-! ## Events -/

/-- An access through the APB port. -/
def HostEvent.isApb (e : HostEvent) : Bool :=
  match e with
  | .apbRead _ _ _ => true
  | .apbWrite _ _ _ _ => true
  | _ => false

/-- An event that can happen whether or not the core has power: of the platform's, the bus masters' and the debugger's. -/
def HostEvent.outside (e : HostEvent) : Bool :=
  match e with
  | .run => true
  | .setPins _ => true
  | .debugReset => true
  | .neonReset => true
  | .setBus _ => true
  | .busWrite _ _ _ => true
  | .globalMonitor _ => true
  | e => e.isApb

/-- An event in which the processor itself reads or writes memory, or the answer to one. -/
def HostEvent.usesBus (e : HostEvent) : Bool :=
  match e with
  | .injectAbort _ => true
  | .injectParity _ => true
  | .abortArrives => true
  | .storeArrives _ => true
  | .gatherLine _ _ => true
  | .allocateL2 _ _ _ => true
  | .fillTlb _ _ => true
  | .allocate _ _ _ => true
  | .evict _ _ _ => true
  | _ => false

/-- An event that the power of its domain lets happen (63_pmu_power.md R2191, R2193); in a low-power state the processor and its
AXI interface are idle (R2163, R2185). -/
def HostEvent.possible (e : HostEvent) (s : State) : Bool :=
  (s.pins.coreUp || e.outside) && (s.pins.debugUp || !e.isApb) && (s.run == .running || !e.usesBus)

/-- An event other than `run`. -/
def agentStep (e : HostEvent) (s : State) : Host.Outcome State Fault Refusal :=
  if !e.possible s then .fault .hostAction
  else match e with
  | .run => .next s
  | .setPins p => setPins p s
  | .powerOnReset => .next (powerOnReset s)
  | .softReset => .next (softReset s)
  | .debugReset => .next (debugReset s)
  | .neonReset => .next (neonReset s)
  | .setNeon up => .next (setNeon up s)
  | .setBus regions => .next { s with bus := regions }
  | .busWrite ns pa b => .next (busWrite s ⟨ns, pa, b⟩)
  | .injectAbort slave => .next (s.pendAbort (.external slave))
  | .injectParity l2 => .next (injectParity l2 s)
  | .abortArrives => .next { s with abortHeld := false }
  | .storeArrives n => .next (s.storeArrives n)
  | .globalMonitor refuses => .next { s with exclRefused := refuses }
  | .fetchParity l2 => .next { s with parityNext := some l2 }
  | .walkParity second => .next { s with walkParityNext := some second }
  | .within writes => .next { s with gaps := writes }
  | .gatherLine va way => .next (gatherLine va way s)
  | .allocateL2 cause va way => .next (allocateL2 cause va way s)
  | .clearExclusive => .next { s with excl := none }
  | .dropTlb data i => .next (dropTlb data i s)
  | .fillTlb data va => .next (fillTlb data va s)
  | .allocate c va way => .next (allocate c va way s)
  | .dropClean c set way => .next (dropIfClean c set way s)
  | .evict c set way => .next (evict c set way s)
  | .pleTurn c => .next (pleTurn c s)
  | .pleParity c => .next (pleParity c s)
  | .apbRead sel external reg => servePort (apbRead sel external reg.toNat s)
  | .apbWrite sel external reg v => servePort (apbWrite sel external reg.toNat v s)
  | .countEvent e times => .next (countOpenEvent e times s)

end Sys2Proof.Machine

end
end

