-- ==== Sys2Proof/Machine/Run.lean ====
section
/-! DEFINITION. One step of the core: low-power states, debug events, interrupts, the fetch, and the instruction
(30_encoding.md R1354; 60_exceptions.md R1950, R1951; 62_debug_events.md R2055; 63_pmu_power.md R2164, R2186). -/

noncomputable section

namespace Sys2Proof.Machine

/-! ## Debug events before an instruction -/

/-- The halting debug events that may be taken now, by their codes of entry (R2053, R2054, R665); none while the debug
domain has no power (63_pmu_power.md R2193). -/
def haltCauses (s : State) : List (BitVec 4) :=
  if s.invasivePermitted && s.pins.debugUp then
    (if s.dbg.haltReq then [0b0000] else []) ++ (if s.pins.edbgrq || s.ctiHalt then [0b0100] else [])
      ++ (if s.dbg.osUnlockReq then [0b1000] else [])
  else []

/-- The breakpoint and vector catch events on the instruction at `pc` (R2051, R2052). -/
def softCauses (s : State) : List (BitVec 4) × State :=
  if s.debugResponse = .ignored then ([], s)
  else
    let (hit, s') := settle (breakpointEvent s.pc s) s
    ((if hit then [0b0001] else []) ++ (if vectorCatchEvent s.pc s then [0b0101] else []), s')

/-- A free choice among causes of one priority (R2055). -/
def chooseCause (first : BitVec 4) (others : List (BitVec 4)) (s : State) : BitVec 4 × State :=
  if others = [] then (first, s)
  else ((first :: others).getD (s.draw.toNat % (others.length + 1)) first, s.drawn)

/-- A debug event is taken: software events in Monitor debug-mode as a debug exception, all others by entering debug
state (R2052). -/
def takeDebugEvent (cause : BitVec 4) (s : State) : State :=
  if (cause = 0b0001 ∨ cause = 0b0101) ∧ s.debugResponse = .raises then countStep s false (takeDebugException cause s)
  else s.enterDebug cause

/-! ## Interrupts -/

/-- FIQ is requested and not masked (60_exceptions.md R1922; 16_debug_registers.md R660 bit 11). -/
def State.fiqDue (s : State) : Bool := s.pins.fiq && !s.cpsr.getLsbD 6 && !s.dbg.dscr.getLsbD 11

/-- IRQ is requested and not masked (R1923). -/
def State.irqDue (s : State) : Bool := s.pins.irq && !s.cpsr.getLsbD 7 && !s.dbg.dscr.getLsbD 11

/-- FIQ, to Monitor mode when SCR.FIQ is set (R1912). -/
def takeFiq (s : State) : State := takeException .fiq (s.sys.scr.getLsbD 2) (s.pc + 4) s

/-- IRQ, to Monitor mode when SCR.IRQ is set (R1912). -/
def takeIrq (s : State) : State := takeException .irq (s.sys.scr.getLsbD 1) (s.pc + 4) s

/-- The imprecise abort that may be taken now (R1938): its error response has come in (R1937). -/
def State.abortDue (s : State) : Option AbortKind := if s.cpsr.getLsbD 8 || s.abortHeld then none else s.abortPending

/-! ## The instruction -/

/-- The cache that the fetch reads: `true` the L2 cache, `false` the L1 instruction cache. -/
def fetchHits (va : Word) (s : State) : Option Bool :=
  match translate s s.secure s.privileged .fetch (mvaOf s.cur va) with
  | .ok p s1 =>
    let r := s1.fetchRoute p.attrs
    if r.l1 && (findLine s1.l1i (s1.l1Set va) p.ns p.pa).isSome then some false
    else if r.l2 && (findLine s1.l2 (s1.l2Set p.pa) p.ns p.pa).isSome then some true
    else none
  | .abort _ _ => none
  | .stop _ => none

/-- The state after a parity or ECC error on a fetch: one in the L2 cache leaves the caches unpredictable (R1186). -/
def fetchSpoilt (l2 : Bool) (s : State) : State :=
  let s' := { s with parityNext := none }
  if l2 then s'.corrupted else s'

/-- The fetch, with the parity or ECC error that the cache it reads meets (22_caches.md R1185, R1186): reported as a Prefetch Abort
at the address of the 64-bit fetch (R1941) where that cache reports such errors, else the word is corrupted. -/
def fetchChecked (va : Word) (s : State) : Acc Word :=
  (fetchWord va s).bind fun w s1 =>
    match s.parityNext with
    | none => .ok w s1
    | some l2 =>
      if fetchHits va s ≠ some l2 ∨ (l2 && !s.build.l2Parity) then .ok w s1
      else if s.parityReported l2 then
        .abort ⟨mvaOf s.cur va &&& 0xFFFFFFF8, false, 0b11001, none, false, false, false, false⟩ (fetchSpoilt l2 s1)
      else .ok s1.draw (fetchSpoilt l2 s1.drawn)

/-- After an instruction: what the performance monitor counts by the settings of the state `before` it. -/
def retire (before : State) (s : State) : State := countStep before true { s.advanced with gaps := [] }

/-- The fetched instruction is executed. Between an MSR or CPS that left Monitor mode with SCR.NS set and the next ISB or
exception entry or return, what instructions do is Unpredictable (61_security_privilege.md R2011). -/
def execute (w : Word) (s : State) : Host.Outcome State Fault Refusal :=
  match runWord w s with
  | .next t => if s.monitorLeft && t.monitorLeft then .fault .monitorExit else .next (retire s t)
  | .fault e => .fault e
  | .refused r => .refused r

/-- Fetch and execute the instruction at `pc`. A Prefetch Abort comes before an imprecise abort (R1950); on the same
instruction as a breakpoint or a vector catch, either is taken (91_not_in_source.md). -/
def fetchStep (s : State) : Host.Outcome State Fault Refusal :=
  let (causes, s0) := softCauses s
  match causes, fetchChecked s0.pc s0 with
  | [], .stop e => .fault e
  | [], .abort a s1 => .next (countStep s1 false (takePrefetchAbort a s1))
  | [], .ok w s1 =>
    match s1.abortDue with
    | some k => .next (countStep s1 false (takeImpreciseAbort k s1))
    | none => execute w s1
  | c :: cs, .abort a s1 =>
    if s1.draw.getLsbD 0 then .next (countStep s1 false (takePrefetchAbort a s1.drawn))
    else .next (takeDebugEvent (chooseCause c cs s1.drawn).1 (chooseCause c cs s1.drawn).2)
  | c :: cs, _ => .next (takeDebugEvent (chooseCause c cs s0).1 (chooseCause c cs s0).2)

/-- The next instruction boundary of a running core: a halting debug event, FIQ, IRQ, then the instruction. In Thumb
state the spec supplies no instructions (D15), and exceptions only; there is no state with J set and T clear (10_state.md
R52). -/
def boundary (s : State) : Host.Outcome State Fault Refusal :=
  match haltCauses s with
  | c :: cs =>
    let (soft, s1) := if s.cpsr.getLsbD 5 then ([], s) else softCauses s
    let (cause, s2) := chooseCause c (cs ++ soft) s1
    .next (takeDebugEvent cause s2)
  | [] =>
    if s.fiqDue then .next (countStep s false (takeFiq s))
    else if s.irqDue then .next (countStep s false (takeIrq s))
    else if s.cpsr.getLsbD 5 then
      match s.abortDue with
      | some k => .next (countStep s false (takeImpreciseAbort k s))
      | none => .refused .thumbState
    else if s.cpsr.getLsbD 24 then .fault .jazelleState
    else fetchStep s

/-! ## Run states -/

/-- A core in standby wakes for FIQ, IRQ and, with DBGNOCLKSTOP HIGH, a halting debug event (63_pmu_power.md R2164). An interrupt
input wakes it also while DSCR[11] disables the interrupts, of which R2164 and D19 do not speak: DESIGN CHOICE, log 31. -/
def State.wakes (s : State) : Bool :=
  s.pins.irq || s.pins.fiq || (s.pins.dbgnoclkstop && haltCauses s != [])

/-- One step of the core, apart from the CTI: without power or held in reset it does nothing, in debug state it waits for a
restart. The low-power state of CLKSTOPREQ ends when that goes LOW, and not before (R2185). -/
def coreTurn (s : State) : Host.Outcome State Fault Refusal :=
  if s.held || !s.pins.coreUp then .next s
  else if s.run = .clockStopped ∧ !s.pins.clkstopreq then .next { s with run := .running }
  else if s.halted then .next (if s.dbg.restartReq then leaveDebug s else s)
  else match s.run with
    | .standby => .next (if s.wakes then { s with run := .running } else s)
    | .clockStopped =>
      match (if s.pins.dbgnoclkstop then haltCauses s else []) with
      | [] => .next s
      | c :: cs => .next ((chooseCause c cs s).2.enterDebug (chooseCause c cs s).1)
    | .running =>
      if s.dbg.dscr.getLsbD 13 then .fault .hostAction
      else if s.pins.clkstopreq && s.stopsClock then .next { s.completed with run := .clockStopped }
      else boundary s

/-- The CTI sees its inputs, unless its clock is off (63_pmu_power.md R2164); a debug domain without power stays in reset. -/
def settleDebug (s : State) : State := debugHeldDown (if s.clockOff then s else ctiTick 0 s)

/-- One step of the core, then the CTI sees its inputs. -/
def coreStep (s : State) : Host.Outcome State Fault Refusal := afterwards (coreTurn s) settleDebug

/-- An event of another agent, then the CTI sees its inputs. -/
def hostStep (e : HostEvent) (s : State) : Host.Outcome State Fault Refusal :=
  if e = .run then coreStep s else afterwards (agentStep e s) settleDebug

/-- One step: the first event of the schedule, or the core when there is none. While an APB access waits, the next event
that is no APB access goes before it, or the core does (log 5). -/
def oneStep (s : State) : Host.Outcome State Fault Refusal :=
  match s.schedule with
  | [] => coreStep s
  | e :: rest =>
    if waits e s then
      match rest with
      | f :: more =>
        if f.isApb then coreStep s else hostStep f { s with schedule := e :: more }
      | [] => coreStep s
    else hostStep e { s with schedule := rest }

/-! ## Placing an instruction where it is fetched -/

/-- Store one byte of an instruction: in memory, and in the caches the fetch reads. -/
def placeByte (r : Route) (va : Word) (p : Phys) (i : Nat) (b : Byte) (s : State) : State :=
  let pa := p.pa + BitVec.ofNat 32 i
  let put (l : CacheLine) : CacheLine := l.store (lineOffset pa) b 0
  { writeMem s p.ns pa b with
    l1i := if r.l1 then updateLine s.l1i (s.l1Set (va + BitVec.ofNat 32 i)) p.ns pa put else s.l1i
    l2 := if r.l2 then updateLine s.l2 (s.l2Set pa) p.ns pa put else s.l2
    late := s.late.filter fun l => (l.found p.ns pa).isNone }

/-- Store an instruction word where the next fetch reads it; other agents have nothing to do. -/
def placeWord (w : Word) (s : State) : State :=
  match translate s s.secure s.privileged .fetch (mvaOf s.cur s.pc) with
  | .ok p _ =>
    let r := s.fetchRoute p.attrs
    let put (i : Nat) : State → State := placeByte r s.pc p i (w.extractLsb' (8 * i) 8)
    { (put 3 (put 2 (put 1 (put 0 s)))) with schedule := [] }
  | .abort _ _ => s
  | .stop _ => s

end Sys2Proof.Machine

end
end

