-- ==== Sys2Proof/Machine/Step.lean ====
section
/-! DEFINITION. The step function of the machine. -/

noncomputable section

namespace Sys2Proof.Machine

/-- One step of the machine (`Machine/Run.lean`). -/
def step (s : State) : Host.Outcome State Fault Refusal := oneStep s

/-- `s` with the instruction whose bits are the low `nbits` of `w` stored where the next step fetches it, and nothing left
for other agents to do first (log 12). -/
def State.withFetchWord (s : State) (nbits w : Nat) : State := placeWord (BitVec.ofNat 32 (w % 2 ^ nbits)) s

end Sys2Proof.Machine

end
end

