-- ==== Sys2Proof/Safety.lean ====
section
/-! DEFINITION. The terms the statements use: what a step leaves, invariants of the machine, results of instructions in
plain integers, and the states in which memory is reached directly. -/

noncomputable section

namespace Sys2Proof.Safety

open Sys2Proof.Machine

/-! ## States and invariants -/

/-- The low five bits of CPSR are a mode (10_state.md R53, R56). -/
def LegalMode (s : State) : Prop := (Mode.ofBits (s.cpsr.extractLsb' 0 5)).isSome = true

/-- Outside debug state the pc is a word address in ARM state, a halfword address in Thumb state (10_state.md R60,
R63). -/
def PcAligned (s : State) : Prop :=
  s.halted = false →
    (s.cpsr.getLsbD 5 = false → s.pc.extractLsb' 0 2 = 0) ∧ (s.cpsr.getLsbD 5 = true → s.pc.getLsbD 0 = false)

/-- What every step keeps: memory in its canonical form, a legal mode, an aligned pc. -/
structure Inv (s : State) : Prop where
  memory : Memory.wf s.mem = true
  mode : LegalMode s
  pc : PcAligned s

/-- A step that is safe: it gives a next state. -/
def StepsSafely (s : State) : Prop := ∃ t, step s = .next t

/-- Execution of an instruction gives a next state. -/
def Completes (i : Instr) (s : State) : Prop := ∃ t, exec i s = .next t

/-! ## What an instruction leaves -/

/-- The pc after an instruction that is no branch; it is frozen in debug state (62_debug_events.md R2083). -/
def nextPc (s : State) : Word := if s.halted then s.pc else s.pc + 4

/-- The registers with register `n` of the current mode holding `v`. -/
def withReg (s : State) (n : BitVec 4) (v : Word) : Vector Word 32 :=
  s.gpr.set (physReg s.mode n) v (physReg s.mode n).isLt

/-- The registers with two of the current mode changed, `n` before `m`. -/
def withRegs (s : State) (n : BitVec 4) (v : Word) (m : BitVec 4) (u : Word) : Vector Word 32 :=
  (withReg s n v).set (physReg s.mode m) u (physReg s.mode m).isLt

/-- CPSR with N, Z, C and V replaced. -/
def flagged (c : Word) (n z cf v : Bool) : Word := bit n ++ bit z ++ bit cf ++ bit v ++ c.extractLsb' 0 28

/-- CPSR with Q replaced. -/
def withQ (c : Word) (q : Bool) : Word := c.extractLsb' 28 4 ++ bit q ++ c.extractLsb' 0 27

/-- CPSR with GE replaced. -/
def withGE (c : Word) (ge : BitVec 4) : Word := c.extractLsb' 20 12 ++ ge ++ c.extractLsb' 0 16

/-- An instruction that only goes on to the next one. -/
def skipped (s : State) : State := { s with pc := nextPc s }

/-- An instruction that writes one register. -/
def wrote (s : State) (rd : BitVec 4) (v : Word) : State := { s with gpr := withReg s rd v, pc := nextPc s }

/-- An instruction that writes one register and CPSR. -/
def wroteC (s : State) (rd : BitVec 4) (v c : Word) : State :=
  { s with gpr := withReg s rd v, cpsr := c, pc := nextPc s }

/-- An instruction that writes a pair of registers, `lo` and `hi`. -/
def wrotePair (s : State) (hi lo : BitVec 4) (v : Dword) : State :=
  { s with gpr := withRegs s lo (v.extractLsb' 0 32) hi (v.extractLsb' 32 32), pc := nextPc s }

/-- The condition field of an instruction that tests it before anything else (30_encoding.md R1353); BKPT and the
unconditional instructions have none. -/
def condOf (w : Word) : BitVec 4 := w.extractLsb' 28 4

/-! ## Stores that not every observer sees yet (20_memory.md R1041, R1043; log 50) -/

/-- The late stores as a Strongly ordered access leaves them: the table walker sees all of them (R1041). -/
def arrivedLate (s : State) : List Late :=
  s.late.map fun l => { l with stage := if l.stage = .pending then .arrived else l.stage, gathers := false }

/-- The late stores as a DSB leaves them: complete, so that at most the instruction side may not see one yet. -/
def completedLate (s : State) : List Late := s.late.map fun l => { l with stage := .complete, gathers := false }

/-- The late stores as a flush of the pipeline leaves them: the instruction side sees those that are complete (R1043). -/
def flushedLate (s : State) : List Late := s.late.filter fun l => l.stage != .complete

/-- The table walker sees every store among these. -/
def Arrived (late : List Late) : Prop := ∀ l ∈ late, l.stage ≠ .pending ∧ l.gathers = false

/-- `late` holds beside the late stores of `s` only changes that the table walker sees. -/
def LateBeside (s : State) (late : List Late) : Prop := ∀ l ∈ late, l ∈ s.late ∨ l.stage = .arrived ∧ l.gathers = false

/-! ## Results in integers (42_data_processing.md R1601) -/

/-- Whether an operation subtracts. -/
def subtracts : AluOp → Bool
  | .sub => true
  | .rsb => true
  | .sbc => true
  | .rsc => true
  | .cmp => true
  | _ => false

/-- The exact result of an arithmetic operation on integers, `c` being the carry flag; none for a logical one. -/
def exact (op : AluOp) (x y : Int) (c : Bool) : Option Int :=
  let k : Int := if c then 1 else 0
  match op with
  | .add => some (x + y)
  | .cmn => some (x + y)
  | .adc => some (x + y + k)
  | .sub => some (x - y)
  | .cmp => some (x - y)
  | .sbc => some (x - y - (1 - k))
  | .rsb => some (y - x)
  | .rsc => some (y - x - (1 - k))
  | _ => none

/-- The result of a logical operation. -/
def logical (op : AluOp) (x y : Word) : Word :=
  match op with
  | .and => x &&& y
  | .tst => x &&& y
  | .eor => x ^^^ y
  | .teq => x ^^^ y
  | .orr => x ||| y
  | .bic => x &&& ~~~y
  | .mvn => ~~~y
  | _ => y

/-- The result of an operation on `x` and the shifter operand `y`. -/
def resultOf (op : AluOp) (x y : Word) (c : Bool) : Word :=
  match exact op x.toInt y.toInt c with
  | some r => BitVec.ofInt 32 r
  | none => logical op x y

/-- C after an operation: for an addition whether the unsigned sum passes 2^32, for a subtraction whether nothing is
borrowed, for a logical operation the carry `sc` of the shifter. -/
def carryOf (op : AluOp) (x y : Word) (c sc : Bool) : Bool :=
  match exact op x.toNat y.toNat c with
  | some r => if subtracts op then decide (0 ≤ r) else decide (2 ^ 32 ≤ r)
  | none => sc

/-- V after an operation: whether the signed result does not fit 32 bits; a logical operation leaves it. -/
def overflowOf (op : AluOp) (x y : Word) (c v : Bool) : Bool :=
  match exact op x.toInt y.toInt c with
  | some r => decide (r < -2 ^ 31) || decide (2 ^ 31 ≤ r)
  | none => v

/-- CPSR after an operation that sets the flags (R1604). -/
def aluCpsr (op : AluOp) (x : Word) (o : Word × Bool) (s : State) : Word :=
  let r := resultOf op x o.1 s.flagC
  flagged s.cpsr r.msb (decide (r = 0)) (carryOf op x o.1 s.flagC o.2) (overflowOf op x o.1 s.flagC s.flagV)

/-- The state after a data-processing instruction with a destination below 15. -/
def aluDone (op : AluOp) (sf : BitVec 1) (x : Word) (o : Word × Bool) (rd : BitVec 4) (s : State) : State :=
  wroteC s rd (resultOf op x o.1 s.flagC) (if sf = 1 then aluCpsr op x o s else s.cpsr)

/-! ## The data-processing instructions by form (30_encoding.md R1360, R1361) -/

/-- The instructions with a destination and an immediate; MOV and MVN have no first operand. -/
def dataImm : List (AluOp × (BitVec 4 → BitVec 1 → BitVec 4 → BitVec 4 → BitVec 12 → Instr)) :=
  [(.and, .andImm), (.eor, .eorImm), (.sub, .subImm), (.rsb, .rsbImm),
   (.add, .addImm), (.adc, .adcImm), (.sbc, .sbcImm), (.rsc, .rscImm),
   (.orr, .orrImm), (.bic, .bicImm), (.mov, fun cond sf _ rd imm12 => .movImm cond sf rd imm12), (.mvn, fun cond sf _ rd imm12 => .mvnImm cond sf rd imm12)]

/-- The instructions with a destination and a register shifted by an immediate. -/
def dataReg : List (AluOp × (BitVec 4 → BitVec 1 → BitVec 4 → BitVec 4 → BitVec 5 → BitVec 2 → BitVec 4 → Instr)) :=
  [(.and, .andReg), (.eor, .eorReg), (.sub, .subReg), (.rsb, .rsbReg),
   (.add, .addReg), (.adc, .adcReg), (.sbc, .sbcReg), (.rsc, .rscReg),
   (.orr, .orrReg), (.bic, .bicReg), (.mov, fun cond sf _ rd imm5 typ rm => .movReg cond sf rd imm5 typ rm), (.mvn, fun cond sf _ rd imm5 typ rm => .mvnReg cond sf rd imm5 typ rm)]

/-- The instructions with a destination and a register shifted by a register. -/
def dataRsr : List (AluOp × (BitVec 4 → BitVec 1 → BitVec 4 → BitVec 4 → BitVec 4 → BitVec 2 → BitVec 4 → Instr)) :=
  [(.and, .andRsr), (.eor, .eorRsr), (.sub, .subRsr), (.rsb, .rsbRsr),
   (.add, .addRsr), (.adc, .adcRsr), (.sbc, .sbcRsr), (.rsc, .rscRsr),
   (.orr, .orrRsr), (.bic, .bicRsr), (.mov, fun cond sf _ rd rs typ rm => .movRsr cond sf rd rs typ rm), (.mvn, fun cond sf _ rd rs typ rm => .mvnRsr cond sf rd rs typ rm)]

/-- The comparisons with an immediate. -/
def testImm : List (AluOp × (BitVec 4 → BitVec 4 → BitVec 12 → Instr)) :=
  [(.tst, .tstImm), (.teq, .teqImm), (.cmp, .cmpImm), (.cmn, .cmnImm)]

/-- The comparisons with a register shifted by an immediate. -/
def testReg : List (AluOp × (BitVec 4 → BitVec 4 → BitVec 5 → BitVec 2 → BitVec 4 → Instr)) :=
  [(.tst, .tstReg), (.teq, .teqReg), (.cmp, .cmpReg), (.cmn, .cmnReg)]

/-- The comparisons with a register shifted by a register. -/
def testRsr : List (AluOp × (BitVec 4 → BitVec 4 → BitVec 4 → BitVec 2 → BitVec 4 → Instr)) :=
  [(.tst, .tstRsr), (.teq, .teqRsr), (.cmp, .cmpRsr), (.cmn, .cmnRsr)]

/-- The shift instructions by an immediate, with the two bits of their kind. -/
def shiftImm : List (BitVec 2 × (BitVec 4 → BitVec 1 → BitVec 4 → BitVec 5 → BitVec 4 → Instr)) :=
  [(0, .lslImm), (1, .lsrImm), (2, .asrImm), (3, .rorImm)]

/-- The shift instructions by a register. -/
def shiftRsr : List (BitVec 2 × (BitVec 4 → BitVec 1 → BitVec 4 → BitVec 4 → BitVec 4 → Instr)) :=
  [(0, .lslReg), (1, .lsrReg), (2, .asrReg), (3, .rorReg)]

/-! ## Multiplication in integers (43_multiply.md R1661) -/

/-- The bottom halfword, signed. -/
def lo16 (w : Word) : Int := (w.extractLsb' 0 16).toInt

/-- The top halfword, signed. -/
def hi16 (w : Word) : Int := (w.extractLsb' 16 16).toInt

/-- The multiplies of two registers that leave the flags (R1670, R1672, R1676, R1681), with the integer they reduce. -/
def mulPlain : List ((Word → Word → Int) × (BitVec 4 → BitVec 4 → BitVec 4 → BitVec 4 → Instr)) :=
  [(fun n m => lo16 n * lo16 m, .smulbb), (fun n m => lo16 n * hi16 m, .smulbt),
   (fun n m => hi16 n * lo16 m, .smultb), (fun n m => hi16 n * hi16 m, .smultt),
   (fun n m => n.toInt * lo16 m / 2 ^ 16, .smulwb), (fun n m => n.toInt * hi16 m / 2 ^ 16, .smulwt),
   (fun n m => lo16 n * lo16 m - hi16 n * hi16 m, .smusd), (fun n m => lo16 n * hi16 m - hi16 n * lo16 m, .smusdx),
   (fun n m => n.toInt * m.toInt / 2 ^ 32, .smmul), (fun n m => (n.toInt * m.toInt + 2 ^ 31) / 2 ^ 32, .smmulr)]

/-- The multiplies with an accumulator that leave the flags (R1664, R1682, R1683). -/
def mulAcc : List ((Word → Word → Word → Int) × (BitVec 4 → BitVec 4 → BitVec 4 → BitVec 4 → BitVec 4 → Instr)) :=
  [(fun n m a => a.toNat - n.toNat * m.toNat, .mls),
   (fun n m a => (a.toInt * 2 ^ 32 + n.toInt * m.toInt) / 2 ^ 32, .smmla),
   (fun n m a => (a.toInt * 2 ^ 32 - n.toInt * m.toInt) / 2 ^ 32, .smmls),
   (fun n m a => (a.toInt * 2 ^ 32 + n.toInt * m.toInt + 2 ^ 31) / 2 ^ 32, .smmlar),
   (fun n m a => (a.toInt * 2 ^ 32 - n.toInt * m.toInt + 2 ^ 31) / 2 ^ 32, .smmlsr)]

/-- The dual multiplies without an accumulator that set Q on overflow (R1675). -/
def mulQ : List ((Word → Word → Int) × (BitVec 4 → BitVec 4 → BitVec 4 → BitVec 4 → Instr)) :=
  [(fun n m => lo16 n * lo16 m + hi16 n * hi16 m, .smuad), (fun n m => lo16 n * hi16 m + hi16 n * lo16 m, .smuadx)]

/-- The multiplies with an accumulator that set Q on overflow (R1671, R1673, R1677, R1678). -/
def mulAccQ : List ((Word → Word → Word → Int) × (BitVec 4 → BitVec 4 → BitVec 4 → BitVec 4 → BitVec 4 → Instr)) :=
  [(fun n m a => lo16 n * lo16 m + a.toInt, .smlabb), (fun n m a => lo16 n * hi16 m + a.toInt, .smlabt),
   (fun n m a => hi16 n * lo16 m + a.toInt, .smlatb), (fun n m a => hi16 n * hi16 m + a.toInt, .smlatt),
   (fun n m a => n.toInt * lo16 m / 2 ^ 16 + a.toInt, .smlawb), (fun n m a => n.toInt * hi16 m / 2 ^ 16 + a.toInt, .smlawt),
   (fun n m a => lo16 n * lo16 m + hi16 n * hi16 m + a.toInt, .smlad),
   (fun n m a => lo16 n * hi16 m + hi16 n * lo16 m + a.toInt, .smladx),
   (fun n m a => lo16 n * lo16 m - hi16 n * hi16 m + a.toInt, .smlsd),
   (fun n m a => lo16 n * hi16 m - hi16 n * lo16 m + a.toInt, .smlsdx)]

/-- The multiplies with a 64-bit accumulator that leave the flags (R1667, R1674, R1679, R1680). -/
def mulLong : List ((Word → Word → Dword → Int) × (BitVec 4 → BitVec 4 → BitVec 4 → BitVec 4 → BitVec 4 → Instr)) :=
  [(fun n m a => n.toNat * m.toNat + (a.extractLsb' 32 32).toNat + (a.extractLsb' 0 32).toNat, .umaal),
   (fun n m a => lo16 n * lo16 m + a.toInt, .smlalbb), (fun n m a => lo16 n * hi16 m + a.toInt, .smlalbt),
   (fun n m a => hi16 n * lo16 m + a.toInt, .smlaltb), (fun n m a => hi16 n * hi16 m + a.toInt, .smlaltt),
   (fun n m a => lo16 n * lo16 m + hi16 n * hi16 m + a.toInt, .smlald),
   (fun n m a => lo16 n * hi16 m + hi16 n * lo16 m + a.toInt, .smlaldx),
   (fun n m a => lo16 n * lo16 m - hi16 n * hi16 m + a.toInt, .smlsld),
   (fun n m a => lo16 n * hi16 m - hi16 n * lo16 m + a.toInt, .smlsldx)]

/-- The long multiplies that can set N and Z (R1665, R1666, R1668, R1669). -/
def mulLongS :
    List ((Word → Word → Dword → Int) × (BitVec 4 → BitVec 1 → BitVec 4 → BitVec 4 → BitVec 4 → BitVec 4 → Instr)) :=
  [(fun n m _ => n.toNat * m.toNat, .umull), (fun n m a => n.toNat * m.toNat + a.toNat, .umlal),
   (fun n m _ => n.toInt * m.toInt, .smull), (fun n m a => n.toInt * m.toInt + a.toInt, .smlal)]

/-- CPSR with N and Z replaced, if `sf` is set. -/
def withNZ (sf : BitVec 1) (c : Word) (n z : Bool) : Word := if sf = 1 then flagged c n z (c.getLsbD 29) (c.getLsbD 28) else c

/-- CPSR with Q set if the integer does not fit a signed word. -/
def withOverflow (c : Word) (r : Int) : Word := withQ c (c.getLsbD 27 || decide (r < -2 ^ 31 ∨ 2 ^ 31 ≤ r))

/-! ## Media results (47_media_instructions.md) -/

/-- An integer clamped to a range. -/
def clamp (lo hi i : Int) : Int := max lo (min hi i)

/-- The parallel additions and subtractions: how an element is stored, its width, and for each element, lowest first, the
fields of the two operands and whether it subtracts (R2445 to R2481). -/
def parallels : List ((ParKind × Nat × List (Nat × Nat × Bool)) × (BitVec 4 → BitVec 4 → BitVec 4 → BitVec 4 → Instr)) :=
  let add16 := [(0, 0, false), (1, 1, false)]
  let asx := [(0, 1, true), (1, 0, false)]
  let sax := [(0, 1, false), (1, 0, true)]
  let sub16 := [(0, 0, true), (1, 1, true)]
  let add8 := [(0, 0, false), (1, 1, false), (2, 2, false), (3, 3, false)]
  let sub8 := [(0, 0, true), (1, 1, true), (2, 2, true), (3, 3, true)]
  [((.s, 16, add16), .sadd16), ((.s, 16, asx), .sasx), ((.s, 16, sax), .ssax),
   ((.s, 16, sub16), .ssub16), ((.s, 8, add8), .sadd8), ((.s, 8, sub8), .ssub8),
   ((.q, 16, add16), .qadd16), ((.q, 16, asx), .qasx), ((.q, 16, sax), .qsax),
   ((.q, 16, sub16), .qsub16), ((.q, 8, add8), .qadd8), ((.q, 8, sub8), .qsub8),
   ((.sh, 16, add16), .shadd16), ((.sh, 16, asx), .shasx), ((.sh, 16, sax), .shsax),
   ((.sh, 16, sub16), .shsub16), ((.sh, 8, add8), .shadd8), ((.sh, 8, sub8), .shsub8),
   ((.u, 16, add16), .uadd16), ((.u, 16, asx), .uasx), ((.u, 16, sax), .usax),
   ((.u, 16, sub16), .usub16), ((.u, 8, add8), .uadd8), ((.u, 8, sub8), .usub8),
   ((.uq, 16, add16), .uqadd16), ((.uq, 16, asx), .uqasx), ((.uq, 16, sax), .uqsax),
   ((.uq, 16, sub16), .uqsub16), ((.uq, 8, add8), .uqadd8), ((.uq, 8, sub8), .uqsub8),
   ((.uh, 16, add16), .uhadd16), ((.uh, 16, asx), .uhasx), ((.uh, 16, sax), .uhsax),
   ((.uh, 16, sub16), .uhsub16), ((.uh, 8, add8), .uhadd8), ((.uh, 8, sub8), .uhsub8)]

/-- The exact value of an element. -/
def laneExact (k : ParKind) (n : Nat) (t : Nat × Nat × Bool) (a b : Word) : Int :=
  let field (i : Nat) (w : Word) : Int :=
    if k = .s ∨ k = .q ∨ k = .sh then (w.extractLsb' (n * i) n).toInt else (w.extractLsb' (n * i) n).toNat
  if t.2.2 then field t.1 a - field t.2.1 b else field t.1 a + field t.2.1 b

/-- The value of an element as it is stored, modulo its width: as it is, clamped, or halved. -/
def laneStored (k : ParKind) (n : Nat) (e : Int) : Int :=
  match k with
  | .s => e
  | .u => e
  | .q => clamp (-2 ^ (n - 1)) (2 ^ (n - 1) - 1) e
  | .uq => clamp 0 (2 ^ n - 1) e
  | .sh => e / 2
  | .uh => e / 2

/-- The GE bits of an element: at least zero, or for an unsigned sum at least 2^n. -/
def laneGE (k : ParKind) (n : Nat) (t : Nat × Nat × Bool) (e : Int) : Bool :=
  if k = .u ∧ t.2.2 = false then decide (2 ^ n ≤ e) else decide (0 ≤ e)

/-- A byte or halfword of a word rotated right by a multiple of 8 (R2424). -/
def turned (w : Word) (rotate : BitVec 2) : Word := w.rotateRight (8 * rotate.toNat)

/-- A halfword above a halfword, each the sum of a halfword of `a` and a byte of `w` extended by `e`. -/
def twoSums (e : Byte → Half) (a w : Word) : Word :=
  (a.extractLsb' 16 16 + e (w.extractLsb' 16 8)) ++ (a.extractLsb' 0 16 + e (w.extractLsb' 0 8))

/-- The extensions without an addend (R2425 to R2430). -/
def extends1 : List ((Word → Word) × (BitVec 4 → BitVec 4 → BitVec 2 → BitVec 4 → Instr)) :=
  [(fun w => (w.extractLsb' 0 8).signExtend 32, .sxtb), (fun w => (w.extractLsb' 0 16).signExtend 32, .sxth),
   (fun w => twoSums (·.signExtend 16) 0 w, .sxtb16), (fun w => (w.extractLsb' 0 8).setWidth 32, .uxtb),
   (fun w => (w.extractLsb' 0 16).setWidth 32, .uxth), (fun w => twoSums (·.setWidth 16) 0 w, .uxtb16)]

/-- The extensions with an addend (R2431 to R2436). -/
def extends2 : List ((Word → Word → Word) × (BitVec 4 → BitVec 4 → BitVec 4 → BitVec 2 → BitVec 4 → Instr)) :=
  [(fun a w => a + (w.extractLsb' 0 8).signExtend 32, .sxtab), (fun a w => a + (w.extractLsb' 0 16).signExtend 32, .sxtah),
   (fun a w => twoSums (·.signExtend 16) a w, .sxtab16), (fun a w => a + (w.extractLsb' 0 8).setWidth 32, .uxtab),
   (fun a w => a + (w.extractLsb' 0 16).setWidth 32, .uxtah), (fun a w => twoSums (·.setWidth 16) a w, .uxtab16)]

/-- The reversals, with where bit `i` of the result comes from (R2405, R2406, R2408). -/
def reversals : List ((Nat → Nat) × (BitVec 4 → BitVec 4 → BitVec 4 → Instr)) :=
  [(fun i => 8 * (3 - i / 8) + i % 8, .rev), (fun i => if i / 8 % 2 = 0 then i + 8 else i - 8, .rev16),
   (fun i => 31 - i, .rbit)]

/-- The saturating additions: the integer from Rm and the integer that Rn stands for (R2440 to R2443). -/
def saturating : List ((Int → Int → Int) × Bool × (BitVec 4 → BitVec 4 → BitVec 4 → BitVec 4 → Instr)) :=
  [(fun m n => m + n, false, .qadd), (fun m n => m - n, false, .qsub),
   (fun m n => m + n, true, .qdadd), (fun m n => m - n, true, .qdsub)]

/-- The sum of the absolute differences of the bytes of two words (R2485). -/
def byteDistance (a b : Word) : Nat :=
  ((List.range 4).map fun i => ((a.extractLsb' (8 * i) 8).toNat - (b.extractLsb' (8 * i) 8).toNat : Int).natAbs).sum

/-- An integer clamped to the signed words. -/
def clamp32 (i : Int) : Int := clamp (-2 ^ 31) (2 ^ 31 - 1) i

/-! ## Branches, exception entry and return -/

/-- A branch that can change to Thumb state (42_data_processing.md R1603 BXWritePC). -/
def interworked (s : State) (v : Word) : Host.Outcome State Fault Refusal :=
  if v.getLsbD 0 then .next { s with
    pc := v &&& 0xFFFFFFFE, cpsr := s.cpsr ||| 0x20, happened := s.happened ||| BitVec.twoPow 16 0x0C }
  else if v.getLsbD 1 then .fault .pcAlignment
  else .next { s with pc := v, happened := s.happened ||| BitVec.twoPow 16 0x0C }

/-- A branch that stays in ARM state. -/
def jumped (s : State) (v : Word) : State :=
  { s with pc := v &&& 0xFFFFFFFC, happened := s.happened ||| BitVec.twoPow 16 0x0C }

/-- The bits of CPSR that are zero in ARM state: J and IT (10_state.md R52, R68, R69). -/
def thumbOnly (i : Nat) : Bool := (10 ≤ i && i < 16) || (24 ≤ i && i < 27)

/-- `t` is `s` after a return from an exception with the saved status `v` to `target` (60_exceptions.md R1916). -/
structure Returned (s t : State) (v target : Word) : Prop where
  rest : t = { s with
    cpsr := t.cpsr
    late := flushedLate s
    monitorLeft := false
    pc := target &&& (if v.getLsbD 5 then 0xFFFFFFFE else 0xFFFFFFFC)
    happened := s.happened ||| BitVec.twoPow 16 0x0A ||| BitVec.twoPow 16 0x0C }
  others : ∀ i < 32, 5 ≤ i → i ≠ 6 → i ≠ 8 → t.cpsr.getLsbD i = (v.getLsbD i && (v.getLsbD 5 || !thumbOnly i))
  mode : t.cpsr.extractLsb' 0 5 =
    if Mode.ofBits (v.extractLsb' 0 5) = some .mon ∧ s.secure = false then s.cpsr.extractLsb' 0 5
    else v.extractLsb' 0 5
  aBit : t.cpsr.getLsbD 8 = if s.secure ∨ s.sys.scr.getLsbD 5 then v.getLsbD 8 else s.cpsr.getLsbD 8
  fBit : t.cpsr.getLsbD 6 =
    if (s.secure ∨ s.sys.scr.getLsbD 4) ∧ (s.cur.sctlr.getLsbD 27 → v.getLsbD 6 → s.cpsr.getLsbD 6) then v.getLsbD 6
    else s.cpsr.getLsbD 6

/-- A saved status that an exception return can restore: its mode is one, and it does not name Jazelle state. -/
def Restorable (v : Word) : Prop :=
  (Mode.ofBits (v.extractLsb' 0 5)).isSome = true ∧ (v.getLsbD 24 = true → v.getLsbD 5 = true)

/-- The CP15 copy of the security state in which an exception to mode `m` is handled (60_exceptions.md R1905). -/
def enteredBank (s : State) (m : Mode) : Banked :=
  if m = .mon ∨ s.mode = .mon ∨ s.sys.scr.getLsbD 0 = false then s.sec else s.nsec

/-- Where the vectors of an exception to mode `m` begin (R1910). -/
def enteredBase (s : State) (m : Mode) : Word :=
  if m = .mon then s.sys.mvbar &&& 0xFFFFFFE0
  else if (enteredBank s m).sctlr.getLsbD 13 then 0xFFFF0000
  else (enteredBank s m).vbar &&& 0xFFFFFFE0

/-- `t` is `s` after the entry of an exception to mode `m`, with SPSR `k` of that mode: `setA` and `setF` say whether the
masks A and F are set (R1905, R1906, R1907, R1910). -/
structure Entered (s t : State) (m : Mode) (k : Fin 6) (link offset : Word) (setA setF : Bool) : Prop where
  rest : t = { s with
    gpr := s.gpr.set (physReg m 14) link (physReg m 14).isLt
    spsr := s.spsr.set k s.cpsr k.isLt
    cpsr := t.cpsr
    sys := if s.mode = .mon then { s.sys with scr := s.sys.scr &&& 0xFFFFFFFE } else s.sys
    pc := enteredBase s m + offset
    late := flushedLate s
    monitorLeft := false
    happened := s.happened ||| BitVec.twoPow 16 0x09 }
  mode : t.mode = m
  iBit : t.cpsr.getLsbD 7 = true
  fBit : t.cpsr.getLsbD 6 = (setF || s.cpsr.getLsbD 6)
  aBit : t.cpsr.getLsbD 8 = (setA || s.cpsr.getLsbD 8)
  tBit : t.cpsr.getLsbD 5 = (enteredBank s m).sctlr.getLsbD 30
  eBit : t.cpsr.getLsbD 9 = (enteredBank s m).sctlr.getLsbD 25
  jBit : t.cpsr.getLsbD 24 = false
  it : t.cpsr.extractLsb' 10 6 = 0 ∧ t.cpsr.extractLsb' 25 2 = 0
  flags : t.cpsr.extractLsb' 27 5 = s.cpsr.extractLsb' 27 5 ∧ t.cpsr.extractLsb' 16 4 = s.cpsr.extractLsb' 16 4

/-- `t` is `s` after the Undefined Instruction exception (R1930); in debug state only DSCR[8] is set
(62_debug_events.md R2096). Mark 0x02 says that the instruction does not retire (16_debug_registers.md R660). -/
def Undefined (s t : State) : Prop :=
  let marked : State := { s with happened := s.happened ||| BitVec.twoPow 16 0x02 }
  if s.halted then t = { marked with dbg := { s.dbg with dscr := s.dbg.dscr ||| 0x100 } }
  else Entered marked t .und 5 (s.pc + 4) 0x04 false false

/-- Bit `i` of a word rotated right by `n`. -/
def rotatedBit (x : Word) (n i : Nat) : Bool := x.getLsbD ((i + n) % 32)

/-- `o` is `x` shifted by `n` in a kind (00 LSL, 01 LSR, 10 ASR, 11 ROR), with the carry `c` before (R1601). -/
def Shifted (x : Word) (typ : BitVec 2) (n : Nat) (c : Bool) (o : Word × Bool) : Prop :=
  if n = 0 then o = (x, c)
  else if typ = 0 then o = (BitVec.ofNat 32 (x.toNat * 2 ^ n), decide (x.toNat * 2 ^ n / 2 ^ 32 % 2 = 1))
  else if typ = 1 then o = (BitVec.ofNat 32 (x.toNat / 2 ^ n), decide (x.toNat / 2 ^ (n - 1) % 2 = 1))
  else if typ = 2 then o = (BitVec.ofInt 32 (x.toInt / 2 ^ n), decide (x.toInt / 2 ^ (n - 1) % 2 = 1))
  else (∀ i < 32, o.1.getLsbD i = rotatedBit x n i) ∧ o.2 = o.1.msb

/-! ## Memory reached directly -/

/-- The platform maps no debug register file into memory (92_eei_decisions.md D7). -/
def NoPort (s : State) : Prop :=
  s.build.apb.debugBase = none ∧ s.build.apb.etmBase = none ∧ s.build.apb.ctiBase = none

/-- Data accesses reach memory directly: the MMU is off, so that memory is Strongly ordered and no cache takes part
(21_mmu.md R1101), no address answers an error or is a debug register, no debug event can happen,
and no other bus master writes between the accesses of the instruction (20_memory.md R1046). -/
structure Direct (s : State) : Prop where
  mmuOff : s.cur.sctlr.getLsbD 0 = false
  noError : s.bus = []
  noPort : NoPort s
  noDebug : s.pins.dbgen = false
  alone : s.gaps = []

/-- The key of byte `i` of a direct access at `va`. -/
def keyAt (s : State) (va : Word) (i : Nat) : Nat := memKey (!s.secure) (mvaOf s.cur va + BitVec.ofNat 32 i)

/-- The number of a list of bytes, least significant first. -/
def numberLE : List Byte → Nat
  | [] => 0
  | b :: bs => b.toNat + 256 * numberLE bs

/-- The bytes at `va`, lowest address first. -/
def bytesAt (s : State) (va : Word) (n : Nat) : List Byte := (List.range n).map fun i => memRead s.mem (keyAt s va i)

/-- The number a direct load of `n` bytes at `va` finds, in the byte order of CPSR.E (20_memory.md R1003). -/
def numberAt (s : State) (va : Word) (n : Nat) : Nat :=
  numberLE (if s.cpsr.getLsbD 9 then (bytesAt s va n).reverse else bytesAt s va n)

/-- The word a direct load of `n` bytes at `va` gives, zero-extended. -/
def loadAt (s : State) (va : Word) (n : Nat) : Word := BitVec.ofNat 32 (numberAt s va n)

/-- `m` is the memory of `s` with the low `n` bytes of `v` stored at `va`, in the byte order of CPSR.E: every other byte
reads as before. -/
def Stored (s : State) (va : Word) (n : Nat) (v : Word) (m : List Host.Cell) : Prop :=
  (∀ i < n, memRead m (keyAt s va i) =
    v.extractLsb' (8 * (if s.cpsr.getLsbD 9 then n - 1 - i else i)) 8) ∧
  (∀ k, (∀ i < n, k ≠ keyAt s va i) → memRead m k = memRead s.mem k) ∧
  Memory.wf m = true

/-- A load or store has happened: performance event 6 or 7 (13_cp15_maint_pmu.md R409). -/
def seen (s : State) (event : Nat) : BitVec 16 := s.happened ||| BitVec.twoPow 16 event

/-! ## Loads and stores (44_load_store.md R1690, R1691) -/

/-- The operand fields of a load or store of one register. -/
structure LsFields where
  cond : BitVec 4
  p : BitVec 1
  u : BitVec 1
  w : BitVec 1
  rn : BitVec 4
  rt : BitVec 4
  imm12 : BitVec 12
  imm5 : BitVec 5
  typ : BitVec 2
  rm : BitVec 4
  imm4H : BitVec 4
  imm4L : BitVec 4

/-- Where the offset of a form comes from: imm12, a shifted register, imm4H:imm4L, or a register. -/
inductive OffsetKind where
  | imm12 | shifted | split | plain
  deriving DecidableEq

/-- A load or store of one register: its bytes, its offset, whether it is checked with User permissions (and is then
post-indexed), and its instruction. -/
structure LsForm where
  size : Nat
  offset : OffsetKind
  user : Bool
  make : LsFields → Instr

def LsFields.offset (o : LsFields) (k : OffsetKind) (s : State) : Word :=
  match k with
  | .imm12 => o.imm12.setWidth 32
  | .shifted => (opReg o.imm5 o.typ o.rm s).1
  | .split => (o.imm4H ++ o.imm4L).setWidth 32
  | .plain => s.reg o.rm

/-- The form writes its base back: pre-indexed with W set, or post-indexed. -/
def LsForm.back (f : LsForm) (o : LsFields) : Bool := f.user || o.p = 0 || o.w = 1

/-- The base plus or minus the offset. -/
def LsForm.moved (f : LsForm) (o : LsFields) (s : State) : Word :=
  if o.u = 1 then s.reg o.rn + o.offset f.offset s else s.reg o.rn - o.offset f.offset s

/-- The address of the access: post-indexed forms use the base as it is. -/
def LsForm.address (f : LsForm) (o : LsFields) (s : State) : Word :=
  if f.user || o.p = 0 then s.reg o.rn else f.moved o s

/-- The registers with the base written back, where the form does. -/
def LsForm.regs (f : LsForm) (o : LsFields) (s : State) : Vector Word 32 :=
  if f.back o then withReg s o.rn (f.moved o s) else s.gpr

/-- The operands the form allows (R1693): no r15 as an offset register, and a base that is written back is neither r15
nor a register `transferred`. -/
def LsForm.allows (f : LsForm) (o : LsFields) (transferred : List (BitVec 4)) : Prop :=
  (f.offset = .shifted ∨ f.offset = .plain → o.rm ≠ 15) ∧ (f.back o = true → o.rn ≠ 15 ∧ o.rn ∉ transferred)

/-- The loads, with what they make of the bytes (R1695, R1697, R1699, R1701, R1702, R1705, R1707, R1709, R1711,
R1712). -/
def loads : List ((Word → Word) × LsForm) :=
  let byte (v : Word) : Word := (v.extractLsb' 0 8).signExtend 32
  let half (v : Word) : Word := (v.extractLsb' 0 16).signExtend 32
  [(id, ⟨4, .imm12, false, fun o => .ldrImm o.cond o.p o.u o.w o.rn o.rt o.imm12⟩),
   (id, ⟨4, .shifted, false, fun o => .ldrReg o.cond o.p o.u o.w o.rn o.rt o.imm5 o.typ o.rm⟩),
   (id, ⟨1, .imm12, false, fun o => .ldrbImm o.cond o.p o.u o.w o.rn o.rt o.imm12⟩),
   (id, ⟨1, .shifted, false, fun o => .ldrbReg o.cond o.p o.u o.w o.rn o.rt o.imm5 o.typ o.rm⟩),
   (id, ⟨2, .split, false, fun o => .ldrhImm o.cond o.p o.u o.w o.rn o.rt o.imm4H o.imm4L⟩),
   (id, ⟨2, .plain, false, fun o => .ldrhReg o.cond o.p o.u o.w o.rn o.rt o.rm⟩),
   (byte, ⟨1, .split, false, fun o => .ldrsbImm o.cond o.p o.u o.w o.rn o.rt o.imm4H o.imm4L⟩),
   (byte, ⟨1, .plain, false, fun o => .ldrsbReg o.cond o.p o.u o.w o.rn o.rt o.rm⟩),
   (half, ⟨2, .split, false, fun o => .ldrshImm o.cond o.p o.u o.w o.rn o.rt o.imm4H o.imm4L⟩),
   (half, ⟨2, .plain, false, fun o => .ldrshReg o.cond o.p o.u o.w o.rn o.rt o.rm⟩),
   (id, ⟨4, .imm12, true, fun o => .ldrtImm o.cond o.u o.rn o.rt o.imm12⟩),
   (id, ⟨4, .shifted, true, fun o => .ldrtReg o.cond o.u o.rn o.rt o.imm5 o.typ o.rm⟩),
   (id, ⟨1, .imm12, true, fun o => .ldrbtImm o.cond o.u o.rn o.rt o.imm12⟩),
   (id, ⟨1, .shifted, true, fun o => .ldrbtReg o.cond o.u o.rn o.rt o.imm5 o.typ o.rm⟩),
   (id, ⟨2, .split, true, fun o => .ldrhtImm o.cond o.u o.rn o.rt o.imm4H o.imm4L⟩),
   (id, ⟨2, .plain, true, fun o => .ldrhtReg o.cond o.u o.rn o.rt o.rm⟩),
   (byte, ⟨1, .split, true, fun o => .ldrsbtImm o.cond o.u o.rn o.rt o.imm4H o.imm4L⟩),
   (byte, ⟨1, .plain, true, fun o => .ldrsbtReg o.cond o.u o.rn o.rt o.rm⟩),
   (half, ⟨2, .split, true, fun o => .ldrshtImm o.cond o.u o.rn o.rt o.imm4H o.imm4L⟩),
   (half, ⟨2, .plain, true, fun o => .ldrshtReg o.cond o.u o.rn o.rt o.rm⟩)]

/-- The stores (R1696, R1698, R1700, R1706, R1708, R1710). -/
def stores : List LsForm :=
  [⟨4, .imm12, false, fun o => .strImm o.cond o.p o.u o.w o.rn o.rt o.imm12⟩,
   ⟨4, .shifted, false, fun o => .strReg o.cond o.p o.u o.w o.rn o.rt o.imm5 o.typ o.rm⟩,
   ⟨1, .imm12, false, fun o => .strbImm o.cond o.p o.u o.w o.rn o.rt o.imm12⟩,
   ⟨1, .shifted, false, fun o => .strbReg o.cond o.p o.u o.w o.rn o.rt o.imm5 o.typ o.rm⟩,
   ⟨2, .split, false, fun o => .strhImm o.cond o.p o.u o.w o.rn o.rt o.imm4H o.imm4L⟩,
   ⟨2, .plain, false, fun o => .strhReg o.cond o.p o.u o.w o.rn o.rt o.rm⟩,
   ⟨4, .imm12, true, fun o => .strtImm o.cond o.u o.rn o.rt o.imm12⟩,
   ⟨4, .shifted, true, fun o => .strtReg o.cond o.u o.rn o.rt o.imm5 o.typ o.rm⟩,
   ⟨1, .imm12, true, fun o => .strbtImm o.cond o.u o.rn o.rt o.imm12⟩,
   ⟨1, .shifted, true, fun o => .strbtReg o.cond o.u o.rn o.rt o.imm5 o.typ o.rm⟩,
   ⟨2, .split, true, fun o => .strhtImm o.cond o.u o.rn o.rt o.imm4H o.imm4L⟩,
   ⟨2, .plain, true, fun o => .strhtReg o.cond o.u o.rn o.rt o.rm⟩]

/-- The doubleword loads and stores (R1703, R1704). -/
def loadPairs : List LsForm :=
  [⟨8, .split, false, fun o => .ldrdImm o.cond o.p o.u o.w o.rn o.rt o.imm4H o.imm4L⟩,
   ⟨8, .plain, false, fun o => .ldrdReg o.cond o.p o.u o.w o.rn o.rt o.rm⟩]

def storePairs : List LsForm :=
  [⟨8, .split, false, fun o => .strdImm o.cond o.p o.u o.w o.rn o.rt o.imm4H o.imm4L⟩,
   ⟨8, .plain, false, fun o => .strdReg o.cond o.p o.u o.w o.rn o.rt o.rm⟩]

/-- How many registers of a list lie below register `n`. -/
def below {k : Nat} (regs : BitVec k) (n : Nat) : Nat := ((List.range n).filter fun i => regs.getLsbD i).length

/-- The lowest address of a block of `n` words (R1714). -/
def blockLow (p u : BitVec 1) (base : Word) (n : Nat) : Word :=
  if u = 1 then base + (if p = 1 then 4 else 0)
  else base - BitVec.ofNat 32 (4 * n) + (if p = 1 then 0 else 4)

/-- What the base becomes when it is written back. -/
def blockHigh (u : BitVec 1) (base : Word) (n : Nat) : Word :=
  if u = 1 then base + BitVec.ofNat 32 (4 * n) else base - BitVec.ofNat 32 (4 * n)

/-- The registers of `s`, those of mode `m` in the list loaded from the block at `a`: every other register is as it is
in `g`. -/
def LoadedFrom (s : State) (m : Mode) (regs : BitVec 16) (a : Word) (g g' : Vector Word 32) : Prop :=
  ∀ j : Fin 32,
    (∀ n : BitVec 4, n ≠ 15 → regs.getLsbD n.toNat → physReg m n = j →
      g'[j] = loadAt s (a + BitVec.ofNat 32 (4 * below regs n.toNat)) 4) ∧
    ((∀ n : BitVec 4, n ≠ 15 → regs.getLsbD n.toNat → physReg m n ≠ j) → g'[j] = g[j])

/-- `m'` is the memory of `s` with the listed registers of mode `m` stored at the block at `a`: every other byte is as
before. -/
def StoredAt (s : State) (m : Mode) (regs : BitVec 16) (a : Word) (m' : List Host.Cell) : Prop :=
  (∀ n : BitVec 4, regs.getLsbD n.toNat → ∀ i < 4,
    memRead m' (keyAt s (a + BitVec.ofNat 32 (4 * below regs n.toNat)) i) =
      (if n = 15 then s.pc + 8 else s.regOf m n).extractLsb' (8 * (if s.cpsr.getLsbD 9 then 3 - i else i)) 8) ∧
  (∀ k, (∀ j < below regs 16, ∀ i < 4, k ≠ keyAt s (a + BitVec.ofNat 32 (4 * j)) i) → memRead m' k = memRead s.mem k) ∧
  Memory.wf m' = true

/-- CP15 registers after a precise abort of a data access at the modified virtual address `mva` with status `status`
(60_exceptions.md R1940): DFSR with a domain field that is free here, and DFAR. -/
def faulted (b : Banked) (mva : Word) (write : Bool) (status : BitVec 5) (domain : BitVec 4) : Banked :=
  { b with
    dfsr := 0#20 ++ bit write ++ status.extractLsb' 4 1 ++ 0#2 ++ domain ++ status.extractLsb' 0 4
    dfar := mva }

/-! ## Status registers -/

/-- CPSR.A or F may be given the value `v` in a privileged mode: the Secure state, or SCR.AW or SCR.FW; with SCTLR.NMFI
set F cannot be set (10_state.md R73, R74). -/
def maskWritable (s : State) (bit : Nat) (v : Bool) : Bool :=
  if bit = 8 then s.secure || s.sys.scr.getLsbD 5
  else (s.secure || s.sys.scr.getLsbD 4) && (!s.cur.sctlr.getLsbD 27 || !v)

/-- Whether the next instructions up to an ISB or an exception are those after an exit from Monitor mode with SCR.NS set, once
CPSR is `c` (61_security_privilege.md R2011). -/
def leavesMonitor (s : State) (c : Word) : Bool :=
  s.monitorLeft || (s.mode == .mon && Mode.ofBits (c.extractLsb' 0 5) != some .mon && s.sys.scr.getLsbD 0)

/-- `c` is CPSR after MSR with the byte mask `m` and the value `v`, outside debug state (45_branch_system.md R1776). -/
structure StatusWritten (s : State) (m : BitVec 4) (v c : Word) : Prop where
  flags : ∀ i, 27 ≤ i → i < 32 → c.getLsbD i = if m.getLsbD 3 then v.getLsbD i else s.cpsr.getLsbD i
  ge : ∀ i, 16 ≤ i → i < 20 → c.getLsbD i = if m.getLsbD 2 then v.getLsbD i else s.cpsr.getLsbD i
  eBit : c.getLsbD 9 = if m.getLsbD 1 then v.getLsbD 9 else s.cpsr.getLsbD 9
  aBit : (m.getLsbD 1 = true ∧ s.mode ≠ .usr ∧ maskWritable s 8 (v.getLsbD 8) → c.getLsbD 8 = v.getLsbD 8) ∧
    (¬ (m.getLsbD 1 = true ∧ s.mode ≠ .usr ∧ maskWritable s 8 (v.getLsbD 8)) → c.getLsbD 8 = s.cpsr.getLsbD 8)
  iBit : (m.getLsbD 0 = true ∧ s.mode ≠ .usr → c.getLsbD 7 = v.getLsbD 7) ∧
    (¬ (m.getLsbD 0 = true ∧ s.mode ≠ .usr) → c.getLsbD 7 = s.cpsr.getLsbD 7)
  fBit : (m.getLsbD 0 = true ∧ s.mode ≠ .usr ∧ maskWritable s 6 (v.getLsbD 6) → c.getLsbD 6 = v.getLsbD 6) ∧
    (¬ (m.getLsbD 0 = true ∧ s.mode ≠ .usr ∧ maskWritable s 6 (v.getLsbD 6)) → c.getLsbD 6 = s.cpsr.getLsbD 6)
  mode : c.extractLsb' 0 5 =
    if m.getLsbD 0 = true ∧ s.mode ≠ .usr ∧ ¬ (Mode.ofBits (v.extractLsb' 0 5) = some .mon ∧ s.secure = false)
    then v.extractLsb' 0 5 else s.cpsr.extractLsb' 0 5
  others : ∀ i < 32, i = 5 ∨ 10 ≤ i ∧ i < 16 ∨ 20 ≤ i ∧ i < 27 → c.getLsbD i = s.cpsr.getLsbD i

/-! ## System registers (40_cp15_instructions.md R1451 to R1454) -/

/-- A privileged mode, or in debug state the right to enter one (62_debug_events.md R2089, R2091). -/
def privilegedRight (s : State) : Bool :=
  s.mode != .usr || (s.halted && (!s.secure || (s.pins.dbgen && s.pins.spiden)))

/-- Any mode; in debug state the privileged right. -/
def userRight (s : State) : Bool := !s.halted || privilegedRight s

/-- A privileged mode in the Secure state. -/
def secureRight (s : State) : Bool := privilegedRight s && s.secure

/-- A privileged mode, in the Nonsecure state with bit `n` of NSACR. -/
def nsacrRight (n : Nat) (s : State) : Bool := privilegedRight s && (s.secure || s.sys.nsacr.getLsbD n)

/-- A privileged mode, but no write of the Secure copy while CP15SDISABLE is HIGH (11_cp15_id.md R155). -/
def pinRight (s : State) : Bool := privilegedRight s && !(s.pins.cp15sdisable && !s.sys.scr.getLsbD 0)

/-- The registers of c15: the Secure state with CP15SDISABLE LOW. -/
def arrayRight (s : State) : Bool := secureRight s && !s.pins.cp15sdisable

/-- The counting registers: privileged, or any mode with USEREN.EN (R1453). -/
def countRight (s : State) : Bool := privilegedRight s || (userRight s && s.pmu.useren.getLsbD 0)

/-- TEEHBR: privileged, or any mode with TEECR.XED clear (41_cp14_vfp_sysreg_instructions.md R1567). -/
def teehbrRight (s : State) : Bool := privilegedRight s || (userRight s && !s.sys.teecr.getLsbD 0)

/-- The debug registers of CP14: debug state, a privileged mode, or DSCR[12] clear (R1551). -/
def debugRight (s : State) : Bool := s.halted || s.mode != .usr || !s.dbg.dscr.getLsbD 12

/-- The registers of a preload channel: privileged, or any mode with a U bit among `users`; in the Nonsecure state
NSACR.PLE too. -/
def preloadRight (users : Bool) (s : State) : Bool :=
  (s.secure || s.sys.nsacr.getLsbD 18) && (privilegedRight s || (userRight s && users))

/-- The channel that the Channel Number Register selects. -/
def channelNo (s : State) : Fin 2 := if s.ple.chanSel.getLsbD 0 then 1 else 0

/-- The right to the selected channel, and to the Channel Number Register. -/
def channelRight (s : State) : Bool := preloadRight (s.ple.userAcc.getLsbD (channelNo s)) s
def channelsRight (s : State) : Bool := preloadRight (s.ple.userAcc.getLsbD 0 || s.ple.userAcc.getLsbD 1) s

/-- `r` is the outcome of a read of a system register that gives `v` (R1452): into register `rt`, or for r15 into the
flags; without the right the Undefined Instruction exception. -/
def ReadGives (s : State) (rt : BitVec 4) (right : Bool) (v : Word) (r : Host.Outcome State Fault Refusal) : Prop :=
  (right = true → r = .next
    (if rt = 15 then { skipped s with cpsr := flagged s.cpsr (v.getLsbD 31) (v.getLsbD 30) (v.getLsbD 29) (v.getLsbD 28) }
      else wrote s rt v)) ∧
  (right = false → ∃ t, r = .next t ∧ Undefined s t)

/-- `r` is the outcome of a write of a system register that makes `t v` of the value `v` of register `rt`; r15 is
Unpredictable (R1452). -/
def WriteGives (s : State) (rt : BitVec 4) (right : Bool) (t : Word → State) (r : Host.Outcome State Fault Refusal) : Prop :=
  (right = true → rt ≠ 15 → r = .next { t (s.reg rt) with pc := nextPc s }) ∧
  (right = true → rt = 15 → r = .fault .operands) ∧
  (right = false → ∃ u, r = .next u ∧ Undefined s u)

/-- The copy of the banked registers an access reaches: SCR.NS selects it (11_cp15_id.md R152). -/
def copyOf (s : State) : Banked := if !s.sys.scr.getLsbD 0 then s.sec else s.nsec

/-- That copy changed. -/
def withCopy (f : Word → Banked → Banked) (s : State) (v : Word) : State :=
  if !s.sys.scr.getLsbD 0 then { s with sec := f v s.sec } else { s with nsec := f v s.nsec }

/-- The registers of one copy changed. -/
def withSysRegs (f : Word → SysRegs → SysRegs) (s : State) (v : Word) : State := { s with sys := f v s.sys }

/-- The performance monitor changed. -/
def withPmu (f : Word → Pmu → Pmu) (s : State) (v : Word) : State := { s with pmu := f v s.pmu }

/-- The selected channel changed. -/
def withChannel (f : Word → PleChannel → PleChannel) (s : State) (v : Word) : State :=
  { s with ple := { s.ple with chan := s.ple.chan.set (channelNo s) (f v s.ple.chan[channelNo s]) (channelNo s).isLt } }

/-- MIDR of each product revision (00_scope.md R2). -/
def midrOf : Revision → Word
  | .r1p1 => 0x411FC081 | .r1p2 => 0x411FC082 | .r1p3 => 0x411FC083 | .r1p7 => 0x411FC087
  | .r2p0 => 0x412FC080 | .r2p1 => 0x412FC081 | .r2p2 => 0x412FC082 | .r2p3 => 0x412FC083
  | .r2p5 => 0x412FC085 | .r2p6 => 0x412FC086
  | .r3p0 => 0x413FC080 | .r3p1 => 0x413FC081 | .r3p2 => 0x413FC082

/-- FPSID of each product revision (00_scope.md R2; log 52). -/
def fpsidOf : Revision → Word
  | .r1p1 | .r1p2 | .r1p3 | .r1p7 => 0x410330C1
  | .r2p0 | .r2p1 | .r2p2 | .r2p3 | .r2p5 | .r2p6 => 0x410330C2
  | .r3p0 | .r3p1 | .r3p2 => 0x410330C3

/-- DIDR of each product revision (16_debug_registers.md R655): MIDR[23:20] and MIDR[3:0] in its low byte. -/
def didrOf (r : Revision) : Word := 0x151410#24 ++ (midrOf r).extractLsb' 20 4 ++ (midrOf r).extractLsb' 0 4

/-- The identification registers and their values (11_cp15_id.md R162 to R183). -/
def identification : List ((State → Word) × (BitVec 4 → BitVec 4 → Instr)) :=
  let midr (s : State) : Word := midrOf s.build.revision
  let fixed (v : Word) (_ : State) : Word := v
  [(midr, .mrcMidr), (midr, .mrcMidr4), (midr, .mrcMidr6), (midr, .mrcMidr7),
   (fixed 0x82048004, .mrcCtr), (fixed 0, .mrcTcmtr), (fixed 0x00202001, .mrcTlbtr), (fixed 0, .mrcMpidr),
   (fixed 0x00001131, .mrcIdPfr0), (fixed 0x00000011, .mrcIdPfr1),
   (fun s => if s.build.hasEtm then 0x00010400 else 0x00000400, .mrcIdDfr0), (fixed 0, .mrcIdAfr0),
   (fixed 0x01100003, .mrcIdMmfr0), (fixed 0x20000000, .mrcIdMmfr1), (fixed 0x01202000, .mrcIdMmfr2),
   (fixed 0x00000211, .mrcIdMmfr3),
   (fixed 0x00101111, .mrcIdIsar0), (fixed 0x13112111, .mrcIdIsar1), (fixed 0x21232031, .mrcIdIsar2),
   (fixed 0x11112131, .mrcIdIsar3), (fixed 0x00011142, .mrcIdIsar4), (fixed 0, .mrcIdIsar5), (fixed 0, .mrcIdIsar6),
   (fixed 0, .mrcIdIsar7),
   (fun s => if s.build.l2Size = .k0 then 0x0A000003 else 0x0A000023, .mrcClidr),
   (fixed (Config.siliconid &&& 0xFFFF00FF), .mrcSiliconId)]

/-- The cache size of the cache that CSSELR selects, in each build (11_cp15_id.md R184). -/
def cacheSize (k : Build) (csselr : Word) : Word :=
  if csselr.extractLsb' 0 4 = 0 then (if k.l1Size = .k16 then 0xE007E01A else 0xE00FE01A)
  else if csselr.extractLsb' 0 4 = 1 then (if k.l1Size = .k16 then 0x2007E01A else 0x200FE01A)
  else if csselr.extractLsb' 0 4 = 2 then
    match k.l2Size with
    | .k0 => 0xF0000000
    | .k128 => 0xF01FE03A
    | .k256 => 0xF03FE03A
    | .k512 => 0xF07FE03A
    | .k1024 => 0xF0FFE03A
  else 0

/-- Coprocessor `n` exists: CPEXIST says so, and for NEON the build (00_scope.md R9, R11). -/
def coprocessorThere (s : State) (n : Nat) : Bool :=
  s.sys.cpexist.getLsbD n && (s.build.hasNeon || !(n == 10 || n == 11))

/-- An access reaches the field of CPACR for coprocessor `n`: the coprocessor exists, and in the Nonsecure state NSACR opens it
(12_cp15_control.md R259 to R261). -/
def cpacrField (s : State) (n : Nat) : Bool := coprocessorThere s n && (s.secure || s.sys.nsacr.getLsbD n)

/-- The word with the given bits. -/
def wordOf (f : Nat → Bool) : Word := (List.range 32).foldl (fun w i => if f i then w ||| BitVec.twoPow 32 i else w) 0

/-- The fields of CPACR an access reaches. -/
def cpacrFields (s : State) : Word := wordOf fun i => i < 28 && cpacrField s (i / 2)

/-- The bits of NSACR that can be set: PLE, TL, CL and those of the coprocessors that exist (12_cp15_control.md R266). -/
def nsacrBits (s : State) : Word := wordOf fun i => (16 ≤ i && i < 19) || (i < 14 && coprocessorThere s i)

/-- A debug address register: the address and two bits that say whether it is valid. -/
def validAddress (a : BitVec 20) (valid : Bool) : Word := a ++ 0#10 ++ bit valid ++ bit valid

/-- The system registers that can be read: the right, the value, the instruction. -/
def systemReads : List ((State → Bool) × (State → Word) × (BitVec 4 → BitVec 4 → Instr)) :=
  [(privilegedRight, fun s => cacheSize s.build (copyOf s).csselr, .mrcCcsidr),
   (privilegedRight, fun s => (copyOf s).csselr, .mrcCsselr),
   (privilegedRight, fun s => (copyOf s).sctlr, .mrcSctlr),
   (privilegedRight, fun s => (s.sys.actlr &&& 0x3FFFFFFD) ||| (if (copyOf s).l2en then 0x2 else 0) |||
      (if s.secure && s.pins.straps.l1rstdisable then 0x40000000 else 0) |||
      (if s.secure && s.pins.straps.l2rstdisable then 0x80000000 else 0), .mrcActlr),
   (privilegedRight, fun s => s.sys.cpacr &&& cpacrFields s, .mrcCpacr),
   (secureRight, fun s => s.sys.scr, .mrcScr),
   (secureRight, fun s => s.sys.sder, .mrcSder),
   (privilegedRight, fun s => s.sys.nsacr, .mrcNsacr),
   (privilegedRight, fun s => (copyOf s).ttbr0, .mrcTtbr0),
   (privilegedRight, fun s => (copyOf s).ttbr1, .mrcTtbr1),
   (privilegedRight, fun s => (copyOf s).ttbcr, .mrcTtbcr),
   (privilegedRight, fun s => (copyOf s).dacr, .mrcDacr),
   (privilegedRight, fun s => (copyOf s).dfsr, .mrcDfsr),
   (privilegedRight, fun s => (copyOf s).ifsr, .mrcIfsr),
   (privilegedRight, fun _ => 0, .mrcAdfsr),
   (privilegedRight, fun _ => 0, .mrcAifsr),
   (privilegedRight, fun s => (copyOf s).dfar, .mrcDfar),
   (privilegedRight, fun s => (copyOf s).ifar, .mrcIfar),
   (privilegedRight, fun s => (copyOf s).par &&& if (copyOf s).par.getLsbD 0 then 0x0000007F else 0xFFFFF3FF, .mrcPar),
   (privilegedRight, fun s => (copyOf s).prrr, .mrcPrrr),
   (privilegedRight, fun s => (copyOf s).nmrr, .mrcNmrr),
   (privilegedRight, fun s => (copyOf s).vbar, .mrcVbar),
   (secureRight, fun s => s.sys.mvbar, .mrcMvbar),
   (privilegedRight, fun s => 0#23 ++ bit s.abortPending.isSome ++ bit s.pins.irq ++ bit s.pins.fiq ++ 0#6, .mrcIsr),
   (privilegedRight, fun s => (copyOf s).fcse, .mrcFcse),
   (privilegedRight, fun s => (copyOf s).contextidr, .mrcContextidr),
   (userRight, fun s => (copyOf s).tpidrurw, .mrcTpidrurw),
   (userRight, fun s => (copyOf s).tpidruro, .mrcTpidruro),
   (privilegedRight, fun s => (copyOf s).tpidrprw, .mrcTpidrprw),
   (nsacrRight 16, fun s => s.sys.l2lock, .mrcL2Lock),
   (privilegedRight, fun s => s.sys.l2aux, .mrcL2Aux),
   (nsacrRight 17, fun s => s.sys.dtlbLock, .mrcDtlbLock),
   (nsacrRight 17, fun s => s.sys.itlbLock, .mrcItlbLock)]

/-- The other registers read through CP15 and CP14. -/
def unitReads : List ((State → Bool) × (State → Word) × (BitVec 4 → BitVec 4 → Instr)) :=
  [(countRight, fun s => s.pmu.pmnc, .mrcPmnc),
   (countRight, fun s => s.pmu.cnten, .mrcCntens),
   (countRight, fun s => s.pmu.cnten, .mrcCntenc),
   (countRight, fun s => s.pmu.flag, .mrcFlag),
   (countRight, fun _ => 0, .mrcSwincr),
   (countRight, fun s => s.pmu.pmnxsel, .mrcPmnxsel),
   (countRight, fun s => s.pmu.ccnt, .mrcCcnt),
   (userRight, fun s => s.pmu.useren, .mrcUseren),
   (privilegedRight, fun s => s.pmu.inten, .mrcIntens),
   (privilegedRight, fun s => s.pmu.inten, .mrcIntenc),
   (nsacrRight 18, fun _ => 3, .mrcPleIdPresent),
   (nsacrRight 18, fun _ => 0, .mrcPleIdReserved),
   (nsacrRight 18, fun s => s.ple.userAcc, .mrcPleUser),
   (channelsRight, fun s => s.ple.chanSel, .mrcPleChannel),
   (channelRight, fun s => s.ple.chan[channelNo s].control, .mrcPleControl),
   (channelRight, fun s => s.ple.chan[channelNo s].status, .mrcPleStatus),
   (nsacrRight 18, fun s => s.ple.chan[channelNo s].ctxid, .mrcPleContext),
   (arrayRight, fun s => s.sys.dl1d0, .mrcDl1Data0),
   (arrayRight, fun s => s.sys.dl1d1, .mrcDl1Data1),
   (arrayRight, fun s => s.sys.il1d0, .mrcIl1Data0),
   (arrayRight, fun s => s.sys.il1d1, .mrcIl1Data1),
   (arrayRight, fun s => s.sys.l2d0, .mrcL2Data0),
   (arrayRight, fun s => s.sys.l2d1, .mrcL2Data1),
   (arrayRight, fun s => s.sys.l2d2, .mrcL2Data2),
   (debugRight, fun s => didrOf s.build.revision, .mrcDidr),
   (debugRight, fun _ => validAddress Config.dbgromaddr Config.dbgromaddrv, .mrcDrar),
   (debugRight, fun _ => validAddress Config.dbgselfaddr Config.dbgselfaddrv, .mrcDsar),
   (userRight, fun s => s.sys.teecr, .mrcTeecr),
   (teehbrRight, fun s => s.sys.teehbr, .mrcTeehbr),
   (userRight, fun _ => 0, .mrcJidr),
   (privilegedRight, fun _ => 0, .mrcJoscr),
   (privilegedRight, fun _ => 0, .mrcJmcr)]

/-- What the barriers do beside going on (45_branch_system.md R1795 to R1797; logs 8, 9, 50): an ISB has what completed stores
replaced fetched anew, and ends a change from Monitor mode; a DSB completes the stores before it and the error responses to
them; a DMB ends the gathering of the stores before it, and puts them before later ones. -/
def synchronizes (s : State) : State := { s with late := flushedLate s, monitorLeft := false }
def completes (s : State) : State := { s with late := completedLate s, abortHeld := false }
def separates (s : State) : State :=
  { s with late := s.late.map fun l => { l with gathers := false, fences := l.fences + 1 } }

/-- The system registers that can be written without a further condition: the right, the new state, the instruction. -/
def systemWrites : List ((State → Bool) × (State → Word → State) × (BitVec 4 → BitVec 4 → Instr)) :=
  [(privilegedRight, withCopy fun v b => { b with csselr := v &&& 0xF }, .mcrCsselr),
   (privilegedRight, fun s v => withSysRegs (fun v r =>
      { r with cpacr := (r.cpacr &&& ~~~cpacrFields s) ||| (v &&& cpacrFields s) }) s v, .mcrCpacr),
   (secureRight, withSysRegs fun v r => { r with scr := v &&& 0x3F }, .mcrScr),
   (secureRight, withSysRegs fun v r => { r with sder := v &&& 0x3 }, .mcrSder),
   (secureRight, fun s v => withSysRegs (fun v r => { r with nsacr := v &&& nsacrBits s }) s v, .mcrNsacr),
   (pinRight, withCopy fun v b => { b with ttbr0 := v &&& 0xFFFFFF9B }, .mcrTtbr0),
   (privilegedRight, withCopy fun v b => { b with ttbr1 := v &&& 0xFFFFC01B }, .mcrTtbr1),
   (pinRight, withCopy fun v b => { b with ttbcr := v &&& 0x37 }, .mcrTtbcr),
   (pinRight, withCopy fun v b => { b with dacr := v }, .mcrDacr),
   (privilegedRight, withCopy fun v b => { b with dfsr := v &&& 0x1CFF }, .mcrDfsr),
   (privilegedRight, withCopy fun v b => { b with ifsr := v &&& 0x140F }, .mcrIfsr),
   (privilegedRight, fun s _ => s, .mcrAdfsr),
   (privilegedRight, fun s _ => s, .mcrAifsr),
   (privilegedRight, withCopy fun v b => { b with dfar := v }, .mcrDfar),
   (privilegedRight, withCopy fun v b => { b with ifar := v &&& 0xFFFFFFFE }, .mcrIfar),
   (privilegedRight, withCopy fun v b => { b with par := v }, .mcrPar),
   (pinRight, withCopy fun v b => { b with vbar := v &&& 0xFFFFFFE0 }, .mcrVbar),
   (arrayRight, withSysRegs fun v r => { r with mvbar := v &&& 0xFFFFFFE0 }, .mcrMvbar),
   (pinRight, withCopy fun v b => { b with fcse := v &&& 0xFE000000 }, .mcrFcse),
   (userRight, withCopy fun v b => { b with tpidrurw := v }, .mcrTpidrurw),
   (privilegedRight, withCopy fun v b => { b with tpidruro := v }, .mcrTpidruro),
   (privilegedRight, withCopy fun v b => { b with tpidrprw := v }, .mcrTpidrprw),
   (nsacrRight 16, withSysRegs fun v r => { r with l2lock := v &&& 0xFF }, .mcrL2Lock),
   (secureRight, fun s v => withSysRegs (fun v r =>
      { r with l2aux := v &&& if s.build.l2Parity then 0x3BE101CF else 0x3BC101CF }) s v, .mcrL2Aux),
   (nsacrRight 17, withSysRegs fun v r => { r with dtlbLock := v &&& 0xFFC00001 }, .mcrDtlbLock),
   (nsacrRight 17, withSysRegs fun v r => { r with itlbLock := v &&& 0xFFC00001 }, .mcrItlbLock),
   (privilegedRight, fun s _ => s, .mcrWfiNop),
   (fun _ => true, fun s _ => synchronizes s, .mcrIsb),
   (fun _ => true, fun s _ => completes s, .mcrDsb),
   (fun _ => true, fun s _ => separates s, .mcrDmb),
   (fun s => privilegedRight s || s.halted, fun s _ => s, .mcrBpiall),
   (fun s => privilegedRight s || s.halted, fun s _ => s, .mcrBpimva)]

/-- The other registers written through CP15 and CP14. -/
def unitWrites : List ((State → Bool) × (State → Word → State) × (BitVec 4 → BitVec 4 → Instr)) :=
  [(countRight, withPmu fun v p => { p with
      pmnc := 0x41002000 ||| (v &&& 0x39)
      ccnt := if v.getLsbD 2 then 0 else p.ccnt
      pmcnt := if v.getLsbD 1 then Vector.replicate 4 0 else p.pmcnt }, .mcrPmnc),
   (countRight, withPmu fun v p => { p with cnten := p.cnten ||| (v &&& 0x8000000F) }, .mcrCntens),
   (countRight, withPmu fun v p => { p with cnten := p.cnten &&& ~~~(v &&& 0x8000000F) }, .mcrCntenc),
   (countRight, withPmu fun v p => { p with flag := p.flag &&& ~~~(v &&& 0x8000000F) }, .mcrFlag),
   (countRight, withPmu fun v p => { p with pmnxsel := v &&& 0x1F }, .mcrPmnxsel),
   (privilegedRight, withPmu fun v p => { p with useren := v &&& 1 }, .mcrUseren),
   (privilegedRight, withPmu fun v p => { p with inten := p.inten ||| (v &&& 0x8000000F) }, .mcrIntens),
   (privilegedRight, withPmu fun v p => { p with inten := p.inten &&& ~~~(v &&& 0x8000000F) }, .mcrIntenc),
   (nsacrRight 18, fun s v => { s with ple := { s.ple with userAcc := v &&& 3 } }, .mcrPleUser),
   (channelsRight, fun s v => { s with ple := { s.ple with chanSel := v &&& 1 } }, .mcrPleChannel),
   (arrayRight, withSysRegs fun v r => { r with dl1d0 := v }, .mcrDl1Data0),
   (arrayRight, withSysRegs fun v r => { r with dl1d1 := v }, .mcrDl1Data1),
   (arrayRight, withSysRegs fun v r => { r with il1d0 := v }, .mcrIl1Data0),
   (arrayRight, withSysRegs fun v r => { r with il1d1 := v }, .mcrIl1Data1),
   (arrayRight, withSysRegs fun v r => { r with l2d0 := v }, .mcrL2Data0),
   (arrayRight, withSysRegs fun v r => { r with l2d1 := v }, .mcrL2Data1),
   (arrayRight, withSysRegs fun v r => { r with l2d2 := v }, .mcrL2Data2),
   (arrayRight, fun s _ => s, .mcrGhbWrite),
   (arrayRight, fun s _ => s, .mcrBtbWrite),
   (privilegedRight, withSysRegs fun v r => { r with teecr := v &&& 1 }, .mcrTeecr),
   (teehbrRight, withSysRegs fun v r => { r with teehbr := v &&& 0xFFFFFFFC }, .mcrTeehbr),
   (privilegedRight, fun s _ => s, .mcrJoscr),
   (userRight, fun s _ => s, .mcrJmcr)]

/-- The size of a page, as a power of two of bytes. -/
def pageLog2 : PageSize → Nat
  | .small => 12
  | .large => 16
  | .sec => 20
  | .supersec => 24

/-- The TLB operations: which TLBs they reach, and which entries of the state `s` they remove for the value `v`
(13_cp15_maint_pmu.md R380 to R382). -/
def tlbOperations : List ((Bool × Bool) × (State → Word → TlbEntry → Bool) × (BitVec 4 → BitVec 4 → Instr)) :=
  let all : State → Word → TlbEntry → Bool := fun s _ e => e.secure == s.secure && !e.locked
  let page : State → Word → TlbEntry → Bool := fun s v e =>
    (e.mva ++ 0#12) >>> pageLog2 e.size == (v &&& 0xFFFFF000) >>> pageLog2 e.size && e.secure == s.secure &&
      (e.glob || e.asid == v.extractLsb' 0 8)
  let space : State → Word → TlbEntry → Bool := fun s v e => e.secure == s.secure && !e.glob && e.asid == v.extractLsb' 0 8
  [((true, false), all, .mcrItlbiall), ((true, false), page, .mcrItlbimva), ((true, false), space, .mcrItlbiasid),
   ((false, true), all, .mcrDtlbiall), ((false, true), page, .mcrDtlbimva), ((false, true), space, .mcrDtlbiasid),
   ((true, true), all, .mcrTlbiall), ((true, true), page, .mcrTlbimva), ((true, true), space, .mcrTlbiasid)]

/-- Some preload channel runs. -/
def preloadRuns (s : State) : Bool := s.ple.chan[0].status.extractLsb' 0 2 == 2 || s.ple.chan[1].status.extractLsb' 0 2 == 2

/-- The writes that a running preload channel forbids when they change the memory configuration (22_caches.md R1197): the
right, whether it changes, the new state, the instruction. -/
def guardedWrites :
    List ((State → Bool) × (State → Word → Bool) × (State → Word → State) × (BitVec 4 → BitVec 4 → Instr)) :=
  [(pinRight, fun s v => (copyOf s).sctlr.getLsbD 0 != v.getLsbD 0 || ((copyOf s).sctlr.getLsbD 2 && !v.getLsbD 2),
      withCopy fun v b => { b with sctlr := (b.sctlr &&& 0x8DFFC7F8) ||| (v &&& 0x72003807) }, .mcrSctlr),
   (privilegedRight, fun s v => (copyOf s).l2en && !v.getLsbD 1,
      fun s v =>
        let s' := withCopy (fun v b => { b with l2en := v.getLsbD 1 }) s v
        if s.secure then withSysRegs (fun v r =>
          { r with actlr := v &&& if midrOf s.build.revision &&& 0x00F00000 = 0x00300000 then 0x001FFFF9 else 0x000FFFF9 }) s' v
        else s', .mcrActlr),
   (pinRight, fun s v => v &&& 0xFFFFF != (copyOf s).prrr, withCopy fun v b => { b with prrr := v &&& 0xFFFFF }, .mcrPrrr),
   (pinRight, fun s v => v != (copyOf s).nmrr, withCopy fun v b => { b with nmrr := v }, .mcrNmrr),
   (privilegedRight, fun s v => v != (copyOf s).contextidr,
      fun s v => { withCopy (fun v b => { b with contextidr := v }) s v with happened := seen s 0x0B }, .mcrContextidr),
   (nsacrRight 18, fun s v => v != s.ple.chan[channelNo s].ctxid && s.ple.chan[channelNo s].status.extractLsb' 0 2 == 2,
      withChannel fun v c => { c with ctxid := v }, .mcrPleContext)]

/-- The bits of the Lines field of the internal end address register, for each size of the L2 cache (R502). -/
def linesField : L2Size → Word
  | .k0 => 0x40 | .k128 => 0x7FC0 | .k256 => 0x0000FFC0 | .k512 => 0x1FFC0 | .k1024 => 0x3FFC0

/-- The commands and registers of the selected preload channel that depend on whether it runs
(14_cp15_tlb_ple_misc.md R497 to R502). -/
def channelWrites : List ((State → Word → State) × (BitVec 4 → BitVec 4 → Instr)) :=
  let runs (s : State) : Bool := s.ple.chan[channelNo s].status.extractLsb' 0 2 == 2
  [(fun s v => if s.ple.chan[channelNo s].status.extractLsb' 0 2 = 0 ∧ s.build.l2Size ≠ .k0
      then withChannel (fun _ c => { c with status := 2, secure := s.secure, page := none }) s v else s, .mcrPleStart),
   (fun s v => if runs s
      then withChannel (fun _ c => { c with
        status := 0, page := none
        irqSecure := c.irqSecure || (c.secure && c.control.getLsbD 29)
        irqNonsecure := c.irqNonsecure || (!c.secure && c.control.getLsbD 29) }) s v
      else s, .mcrPleStop),
   (fun s v => if runs s then s
      else withChannel (fun _ c => { c with status := 0, irqSecure := false, irqNonsecure := false, errIrq := false }) s v, .mcrPleClear),
   (fun s v => if runs s then s
      else withChannel (fun v c => { c with
        control := (v &&& 0x70000007) |||
          (if s.ple.userAcc.getLsbD (channelNo s) || v.getLsbD 26 then 0x04000000 else 0) }) s v, .mcrPleControl),
   (fun s v => { withChannel (fun v c => { c with start := v &&& 0xFFFFFFC0 }) s
      (if runs s then Config.freeWord s.draws else v) with draws := s.draws + 1 }, .mcrPleStartAddr),
   (fun s v => { withChannel (fun v c => { c with endr := v &&& linesField s.build.l2Size }) s
      (if runs s then Config.freeWord s.draws else v) with draws := s.draws + 1 }, .mcrPleEndAddr)]

/-- The array reads, with the data registers each loads with three free values (15_cp15_c15.md R571). -/
def arrayReads : List ((SysRegs → Word → Word → Word → SysRegs) × (BitVec 4 → BitVec 4 → Instr)) :=
  let dside (r : SysRegs) (a b _ : Word) : SysRegs := { r with dl1d0 := a, dl1d1 := b }
  let iside (r : SysRegs) (a b _ : Word) : SysRegs := { r with il1d0 := a, il1d1 := b }
  let level2 (r : SysRegs) (a b c : Word) : SysRegs := { r with l2d0 := a, l2d1 := b, l2d2 := c }
  [(dside, .mcrDtlbCamRead), (dside, .mcrDtlbAttrRead), (dside, .mcrDtlbPaRead), (dside, .mcrDhvabRead),
   (dside, .mcrDtagRead), (dside, .mcrDdataRead), (iside, .mcrItlbCamRead), (iside, .mcrItlbAttrRead),
   (iside, .mcrItlbPaRead), (iside, .mcrIhvabRead), (iside, .mcrItagRead), (iside, .mcrIdataRead),
   (fun r a _ _ => { r with il1d0 := a }, .mcrGhbRead), (iside, .mcrBtbRead),
   (level2, .mcrL2TagRead), (level2, .mcrL2DataRead), (level2, .mcrL2ParityRead)]

/-- The array writes (15_cp15_c15.md R571). -/
def arrayWrites : List (BitVec 4 → BitVec 4 → Instr) :=
  [.mcrDtlbCamWrite, .mcrDtlbAttrWrite, .mcrDtlbPaWrite, .mcrDhvabWrite, .mcrDtagWrite, .mcrDdataWrite,
   .mcrItlbCamWrite, .mcrItlbAttrWrite, .mcrItlbPaWrite, .mcrIhvabWrite, .mcrItagWrite, .mcrIdataWrite,
   .mcrL2TagWrite, .mcrL2DataWrite, .mcrL2ParityWrite]

/-! ## Cache maintenance (13_cp15_maint_pmu.md R353 to R361) -/

/-- The line of an L1 data or L2 cache of `sets` sets that holds a physical address. -/
def lineOf (c : List CacheLine) (sets : Nat) (ns : Bool) (pa : Word) : Option CacheLine :=
  c.find? fun l => l.set == pa.toNat / 64 % sets && l.tag == pa.extractLsb' 6 26 && l.ns == ns

/-- The line in a set and way of a cache. -/
def lineIn (c : List CacheLine) (set way : Nat) : Option CacheLine := c.find? fun l => l.set == set && l.way == way

/-- A cache without the line in a set and way. -/
def without (c : List CacheLine) (set way : Nat) : List CacheLine := c.filter fun l => !(l.set == set && l.way == way)

/-- A cache without a line, if there is one. -/
def withoutLine (c : List CacheLine) (l : Option CacheLine) : List CacheLine := l.elim c fun l => without c l.set l.way

/-- A cache with the line in a set and way clean. -/
def cleaned (c : List CacheLine) (set way : Nat) : List CacheLine :=
  c.map fun l => if l.set == set && l.way == way then { l with dirty := 0 } else l

/-- `m` is memory after the quadwords `quads` of the line `l` are written to it: every other byte is as before. -/
def WrittenBack (s : State) (l : CacheLine) (quads : BitVec 4) (m : List Host.Cell) : Prop :=
  let key (i : Nat) : Nat := memKey l.ns ((l.tag ++ 0#6) + BitVec.ofNat 32 i)
  (∀ i < 64, quads.getLsbD (i / 16) = true → memRead m (key i) = l.data.extractLsb' (8 * i) 8) ∧
  (∀ k, (∀ i < 64, quads.getLsbD (i / 16) = true → k ≠ key i) → memRead m k = memRead s.mem k) ∧
  Memory.wf m = true

/-- Every line of a cache is the one in its set and way. -/
def Slots (c : List CacheLine) : Prop := ∀ l ∈ c, lineIn c l.set l.way = some l

/-- The memory of a line is write-back. -/
def isWriteBack (l : CacheLine) : Bool := l.outer == .writeBack || l.outer == .writeBackAllocate

/-- A line that leaves the L1 data cache goes to the L2 cache: the build has one, it is enabled, and it caches the memory of
the line (22_caches.md R1158, R1182). -/
def goesToL2 (s : State) (l : CacheLine) : Bool := s.build.l2Size != .k0 && s.cur.l2en && l.outer != .nonCacheable

/-- The set of the L2 cache for the address of a line. -/
def l2SetOf (s : State) (l : CacheLine) : Nat := l.tag.toNat % s.build.l2Size.sets

/-- A line of the L2 cache holds the address of the line `l`. -/
def sameAddress (s : State) (l k : CacheLine) : Bool := k.set == l2SetOf s l && k.tag == l.tag && k.ns == l.ns

/-- `t` is `s` with the dirty L1 data line `l` written to the L2 cache (R1182). Where that holds the address its line takes the
data; where it does not, memory takes the data or an unlocked way of the L2 cache does, as a free value has it (log 6), and the
line that was in the way is written to memory. Memory that is not write-back takes the data too. -/
def MovedToL2 (s t : State) (l : CacheLine) : Prop :=
  let clean : State := { s with l1d := cleaned s.l1d l.set l.way }
  let through (m0 m : List Host.Cell) : Prop := if isWriteBack l then m = m0 else WrittenBack { s with mem := m0 } l 0xF m
  ∃ m late, LateBeside s late ∧
    if s.l2.any (sameAddress s l) then
      through s.mem m ∧ t = { clean with
        mem := m, late := late
        l2 := s.l2.map fun k => if sameAddress s l k then { k with data := l.data, dirty := if isWriteBack l then 0xF else k.dirty } else k }
    else
      (WrittenBack s l 0xF m ∧ t = { clean with mem := m, late := late, draws := s.draws + 1 }) ∨
      ∃ way < 8, s.sys.l2lock.getLsbD way = false ∧ ∃ m0,
        ((lineIn s.l2 (l2SetOf s l) way).elim (m0 = s.mem) fun k => WrittenBack s k k.dirty m0) ∧ through m0 m ∧
        t = { clean with
          mem := m, late := late, draws := s.draws + 1
          l2 := { l with set := l2SetOf s l, way := way, dirty := if isWriteBack l then 0xF else 0 } :: without s.l2 (l2SetOf s l) way }

/-- `t` is `s` with the L1 data line `l` clean: a dirty line is written to the L2 cache, or to memory. -/
def CleanedL1 (s t : State) (l : CacheLine) : Prop :=
  (l.dirty = 0 → t = { s with l1d := cleaned s.l1d l.set l.way }) ∧
  (l.dirty ≠ 0 → goesToL2 s l = false → ∃ m late, WrittenBack s l 0xF m ∧ LateBeside s late ∧
    t = { s with l1d := cleaned s.l1d l.set l.way, mem := m, late := late }) ∧
  (l.dirty ≠ 0 → goesToL2 s l = true → MovedToL2 s t l)

/-- `t` is `s` with the L2 line `l` clean: its dirty quadwords are written to memory. -/
def CleanedL2 (s t : State) (l : CacheLine) : Prop :=
  ∃ m late, WrittenBack s l l.dirty m ∧ LateBeside s late ∧
    t = { s with l2 := cleaned s.l2 l.set l.way, mem := m, late := late }

/-! ## NEON and VFP (45_branch_system.md R1803) -/

/-- CPACR and NSACR admit coprocessors 10 and 11, and the build has the unit, which is up. -/
def vfpGate (s : State) : Bool :=
  let admits (lo : Nat) : Bool :=
    s.sys.cpacr.extractLsb' lo 2 == 3 || (s.sys.cpacr.extractLsb' lo 2 == 1 && s.mode != .usr)
  s.build.hasNeon && s.vfp.neonUp && admits 20 && admits 22 && (s.secure || (s.sys.nsacr.getLsbD 10 && s.sys.nsacr.getLsbD 11))

/-- FPEXC.EN. -/
def vfpOn (s : State) : Bool := s.vfp.fpexc.getLsbD 30

/-- The NEON/VFP system registers that can be read: the right beside the gate, the value, the instruction. -/
def vfpReads : List ((State → Bool) × (State → Word) × (BitVec 4 → BitVec 4 → Instr)) :=
  [(fun s => s.mode != .usr, fun s => fpsidOf s.build.revision, .vmrsFpsid), (vfpOn, fun s => s.vfp.fpscr, .vmrsFpscr),
   (fun s => s.mode != .usr, fun _ => 0x00011111, .vmrsMvfr1), (fun s => s.mode != .usr, fun _ => 0x11110222, .vmrsMvfr0),
   (fun s => s.mode != .usr, fun s => s.vfp.fpexc, .vmrsFpexc)]

/-- The NEON/VFP system registers that can be written. -/
def vfpWrites : List ((State → Bool) × (State → Word → State) × (BitVec 4 → BitVec 4 → Instr)) :=
  [(fun s => s.mode != .usr, fun s _ => s, .vmsrFpsid),
   (vfpOn, fun s v => { s with vfp := { s.vfp with fpscr := v &&& 0xFFFF60FF } }, .vmsrFpscr),
   (fun s => s.mode != .usr, fun s _ => s, .vmsrMvfr1), (fun s => s.mode != .usr, fun s _ => s, .vmsrMvfr0),
   (fun s => s.mode != .usr, fun s v => { s with vfp := { s.vfp with fpexc := v &&& 0x40000000 } }, .vmsrFpexc)]

/-! ## The whole machine -/

/-- What belongs to the Secure state alone: its copies of the banked CP15 registers, the registers only it can write, and
the registers of Monitor mode (61_security_privilege.md). -/
def secureOnly (s : State) : Banked × List Word :=
  (s.sec, [s.sys.scr, s.sys.sder, s.sys.nsacr, s.sys.mvbar, s.sys.l2aux, s.sys.actlr, s.regOf .mon 13, s.regOf .mon 14,
    s.spsr[3]])

/-- The core takes its own next turn: no other agent has anything to do, no debug event, low-power state or stopped clock
holds it up. -/
structure Turn (s : State) : Prop where
  alone : s.schedule = []
  notHeld : s.held = false
  powered : s.pins.coreUp = true
  notHalted : s.halted = false
  running : s.run = .running
  noItr : s.dbg.dscr.getLsbD 13 = false
  clock : s.pins.clkstopreq = false
  noDebug : s.pins.dbgen = false

/-- An interrupt request, its mask in CPSR, and the interrupts-disable bit of DSCR (R660, R1922, R1923). -/
def due (s : State) (request : Bool) (mask : Nat) : Bool := request && !s.cpsr.getLsbD mask && !s.dbg.dscr.getLsbD 11

/-- What the units around the core do at the end of its step. -/
def settled (before : State) (u : State) : State := settleDebug (countStep before false u)

/-- Whether two modes see the same register `n` below 15 under one name (10_state.md R53). -/
def sameBank (m k : Mode) (n : BitVec 4) : Bool :=
  if n.toNat < 8 then true
  else if n.toNat < 13 then (m == .fiq) == (k == .fiq)
  else m == k || (m == .usr && k == .sys) || (m == .sys && k == .usr)

/-- Whether a permission field lets an access do what it does, AFE being 0 (21_mmu.md R1132). -/
def permits (ap : BitVec 3) (xn priv : Bool) : XKind → Bool
  | .read => if priv then ap != 0 && ap != 4 else ap.getLsbD 1
  | .write => if priv then !ap.getLsbD 2 && ap != 0 else ap == 3
  | .fetch => !xn && if priv then ap != 0 && ap != 4 else ap.getLsbD 1

/-- A TLB holds the entry of the section `d` for the address `mva`, made with AFE 0, where its lockdown register `lock` named
the place (21_mmu.md R1106; 70_reset_and_hazards.md R2241 H3). -/
def HoldsSection (tlb : Vector (Option TlbEntry) 32) (lock d mva : Word) (secure : Bool) : Prop :=
  ∃ e, tlb[(lock.extractLsb' 22 5).toNat]? = some (some e) ∧ e.size = .sec ∧ e.secure = secure ∧
    e.mva = mva.extractLsb' 12 20 ∧ e.pa.extractLsb' 8 12 = d.extractLsb' 20 12 ∧ e.ns = (!secure || d.getLsbD 19) ∧
    e.domain = d.extractLsb' 5 4 ∧ e.ap = d.extractLsb' 15 1 ++ d.extractLsb' 10 2 ∧ e.xn = d.getLsbD 4 ∧ e.afe = false

/-- The VA to PA operations: whether they ask for the other, Nonsecure, state; whether for a privileged access; the access
(13_cp15_maint_pmu.md R366 to R370). -/
def translations : List ((Bool × Bool × XKind) × (BitVec 4 → BitVec 4 → Instr)) :=
  [((false, true, .read), .mcrVaPaCurPrivRead), ((false, true, .write), .mcrVaPaCurPrivWrite),
   ((false, false, .read), .mcrVaPaCurUserRead), ((false, false, .write), .mcrVaPaCurUserWrite),
   ((true, true, .read), .mcrVaPaOthPrivRead), ((true, true, .write), .mcrVaPaOthPrivWrite),
   ((true, false, .read), .mcrVaPaOthUserRead), ((true, false, .write), .mcrVaPaOthUserWrite)]

/-- PAR of the current state holds `v`. -/
def withPar (s : State) (v : Word) : State :=
  if s.secure then { s with sec := { s.sec with par := v } } else { s with nsec := { s.nsec with par := v } }

/-- `t` is `s` but for an allocation in a TLB and one drawn value. -/
def FilledTlb (s t : State) : Prop :=
  t = { s with
    itlb := t.itlb, dtlb := t.dtlb, draws := s.draws + 1
    sys := { s.sys with dtlbLock := t.sys.dtlbLock, itlbLock := t.sys.itlbLock } }

end Sys2Proof.Safety

end
end

