-- ==== Sys2Proof/Certificates/Slice0/Obligations.lean ====
section
/-! DEFINITION. The statements for the provers; OBLIGATIONS.json lists them. The vocabulary is that of `Safety.lean`: `log n`
is the assumption log, notes/assumptions. -/

noncomputable section

open Sys2Proof Sys2Proof.Machine Sys2Proof.Safety

/-- Data processing with an immediate and a destination below r15: result, flags and frame (42_data_processing.md R1604, R1610
to R1625). -/
def Obligations.DataProcessingImmediate : Prop :=
  ∀ f ∈ dataImm, ∀ (cond : BitVec 4) (sf : BitVec 1) (rn rd : BitVec 4) (imm12 : BitVec 12) (s : State),
    rd ≠ 15 → condPassed cond s = true →
    exec (f.2 cond sf rn rd imm12) s = .next (aluDone f.1 sf (s.reg rn) (opImm imm12 s) rd s)

/-- Data processing with a register shifted by a constant (R1602, R1604). -/
def Obligations.DataProcessingShiftedImmediate : Prop :=
  ∀ f ∈ dataReg, ∀ (cond : BitVec 4) (sf : BitVec 1) (rn rd : BitVec 4) (imm5 : BitVec 5) (typ : BitVec 2) (rm : BitVec 4) (s : State),
    rd ≠ 15 → condPassed cond s = true →
    exec (f.2 cond sf rn rd imm5 typ rm) s = .next (aluDone f.1 sf (s.reg rn) (opReg imm5 typ rm s) rd s)

/-- Data processing with a register shifted by a register (R1602, R1604); the fault is the model's answer to Unpredictable
(R1602, R1386, log 7). -/
def Obligations.DataProcessingShiftedRegister : Prop :=
  ∀ f ∈ dataRsr, ∀ (cond : BitVec 4) (sf : BitVec 1) (rn rd rs : BitVec 4) (typ : BitVec 2) (rm : BitVec 4) (s : State),
    condPassed cond s = true →
    (rd ≠ 15 → rn ≠ 15 → rs ≠ 15 → rm ≠ 15 →
      exec (f.2 cond sf rn rd rs typ rm) s = .next (aluDone f.1 sf (s.reg rn) (opRsr rs typ rm s) rd s)) ∧
    (rs = 15 ∨ rm = 15 ∨ (rn = 15 ∧ f.1 ≠ .mov ∧ f.1 ≠ .mvn) → exec (f.2 cond sf rn rd rs typ rm) s = .fault .operands)

/-- The comparisons change the flags and the pc alone (R1618 to R1621). The fault for r15 in the forms shifted by a register is
the model's answer to Unpredictable (R1602, R1386, log 7). -/
def Obligations.Comparisons : Prop :=
  ∀ (cond rn : BitVec 4) (s : State), condPassed cond s = true →
    (∀ f ∈ testImm, ∀ imm12 : BitVec 12, exec (f.2 cond rn imm12) s =
      .next { s with cpsr := aluCpsr f.1 (s.reg rn) (opImm imm12 s) s, pc := nextPc s }) ∧
    (∀ f ∈ testReg, ∀ (imm5 : BitVec 5) (typ : BitVec 2) (rm : BitVec 4), exec (f.2 cond rn imm5 typ rm) s =
      .next { s with cpsr := aluCpsr f.1 (s.reg rn) (opReg imm5 typ rm s) s, pc := nextPc s }) ∧
    (∀ f ∈ testRsr, ∀ (rs : BitVec 4) (typ : BitVec 2) (rm : BitVec 4), exec (f.2 cond rn rs typ rm) s =
      if rn = 15 ∨ rs = 15 ∨ rm = 15 then .fault .operands
      else .next { s with cpsr := aluCpsr f.1 (s.reg rn) (opRsr rs typ rm s) s, pc := nextPc s })

/-- The shifter operand as mathematics (R1601, R1602). -/
def Obligations.ShifterOperands : Prop :=
  ∀ (s : State) (rm rs : BitVec 4) (typ : BitVec 2) (imm5 : BitVec 5) (imm12 : BitVec 12),
    Shifted (s.reg rm) typ ((s.reg rs).toNat % 256) s.flagC (opRsr rs typ rm s) ∧
    (imm5 ≠ 0 → Shifted (s.reg rm) typ imm5.toNat s.flagC (opReg imm5 typ rm s)) ∧
    opReg 0 0 rm s = (s.reg rm, s.flagC) ∧
    Shifted (s.reg rm) 1 32 s.flagC (opReg 0 1 rm s) ∧
    Shifted (s.reg rm) 2 32 s.flagC (opReg 0 2 rm s) ∧
    opReg 0 3 rm s = (bit s.flagC ++ (s.reg rm).extractLsb' 1 31, (s.reg rm).getLsbD 0) ∧
    Shifted ((imm12.extractLsb' 0 8).setWidth 32) 3 (2 * (imm12.extractLsb' 8 4).toNat) s.flagC (opImm imm12 s)

/-- The alias rows have the meaning of the instruction they are another name of (R1626 to R1633, log 16), also for r15 as the
destination; the result for a destination below r15. The fault for r15 as Rs or Rm of the forms shifted by a register is the
model's answer to Unpredictable (R1602, R1640, log 7). -/
def Obligations.ShiftAliases : Prop :=
  ∀ (cond : BitVec 4) (sf : BitVec 1) (rd rm : BitVec 4) (s : State),
    (∀ f ∈ shiftImm, ∀ imm5 : BitVec 5, (f.1 = 0 → imm5 ≠ 0) →
      exec (f.2 cond sf rd imm5 rm) s = exec (.movReg cond sf rd imm5 f.1 rm) s) ∧
    (∀ f ∈ shiftRsr, ∀ rs : BitVec 4, exec (f.2 cond sf rd rs rm) s = exec (.movRsr cond sf rd rs f.1 rm) s) ∧
    exec (.rrx cond sf rd rm) s = exec (.movReg cond sf rd 0 3 rm) s ∧
    (∀ imm12 : BitVec 12, exec (.adrAdd cond rd imm12) s = exec (.addImm cond 0 15 rd imm12) s ∧
      exec (.adrSub cond rd imm12) s = exec (.subImm cond 0 15 rd imm12) s) ∧
    (rd ≠ 15 → condPassed cond s = true →
    (∀ f ∈ shiftImm, ∀ imm5 : BitVec 5,
      exec (f.2 cond sf rd imm5 rm) s = .next (aluDone .mov sf 0 (opReg imm5 f.1 rm s) rd s)) ∧
    (∀ f ∈ shiftRsr, ∀ rs : BitVec 4, exec (f.2 cond sf rd rs rm) s =
      if rs = 15 ∨ rm = 15 then .fault .operands else .next (aluDone .mov sf 0 (opRsr rs f.1 rm s) rd s)) ∧
    exec (.rrx cond sf rd rm) s = .next (aluDone .mov sf 0 (opReg 0 3 rm s) rd s) ∧
    (∀ imm12 : BitVec 12, exec (.adrAdd cond rd imm12) s = .next (wrote s rd (s.pc + 8 + (opImm imm12 s).1)) ∧
      exec (.adrSub cond rd imm12) s = .next (wrote s rd (s.pc + 8 - (opImm imm12 s).1))))

/-- Writing r15 (R1603, R1640, R1645). The event is the model's reading of R409 (log 21), the fault its answer to
Unpredictable (log 7). -/
def Obligations.DataProcessingToPc : Prop :=
  ∀ (cond rn rs rm : BitVec 4) (typ : BitVec 2) (imm5 : BitVec 5) (imm12 : BitVec 12) (s : State),
    condPassed cond s = true → s.halted = false →
    let lr := imm5 = 0 ∧ typ = 0 ∧ rm = 14
    let go (op : AluOp) (o : Word × Bool) := interworked s (resultOf op (s.reg rn) o.1 s.flagC)
    let back (op : AluOp) (o : Word × Bool) (r : Host.Outcome State Fault Refusal) :=
      ∀ p, s.spsr? = some p → Restorable p → ∃ t, r = .next t ∧ Returned s t p (resultOf op (s.reg rn) o.1 s.flagC)
    (∀ f ∈ dataImm, exec (f.2 cond 0 rn 15 imm12) s = go f.1 (opImm imm12 s) ∧
      back f.1 (opImm imm12 s) (exec (f.2 cond 1 rn 15 imm12) s)) ∧
    (∀ f ∈ dataReg, (¬ (f.1 = .mov ∧ lr) → exec (f.2 cond 0 rn 15 imm5 typ rm) s = go f.1 (opReg imm5 typ rm s)) ∧
      back f.1 (opReg imm5 typ rm s) (exec (f.2 cond 1 rn 15 imm5 typ rm) s)) ∧
    (∀ f ∈ dataRsr, rn ≠ 15 → rs ≠ 15 → rm ≠ 15 →
      exec (f.2 cond 0 rn 15 rs typ rm) s = go f.1 (opRsr rs typ rm s) ∧
      back f.1 (opRsr rs typ rm s) (exec (f.2 cond 1 rn 15 rs typ rm) s)) ∧
    exec (.movReg cond 0 15 0 0 14) s = interworked { s with happened := seen s 0x0E } (s.reg 14) ∧
    (s.spsr? = none → ∀ f ∈ dataImm, exec (f.2 cond 1 rn 15 imm12) s = .fault .operands)

/-- MOVW, MOVT and CLZ (R1631, R1632, R1634). The faults for r15 answer Unpredictable (log 7). -/
def Obligations.MoveWideAndCount : Prop :=
  ∀ (cond rd rm imm4 : BitVec 4) (imm12 : BitVec 12) (s : State), condPassed cond s = true →
    (rd ≠ 15 →
    exec (.movw cond imm4 rd imm12) s = .next (wrote s rd ((imm4 ++ imm12).setWidth 32)) ∧
    exec (.movt cond imm4 rd imm12) s = .next (wrote s rd (imm4 ++ imm12 ++ (s.reg rd).extractLsb' 0 16)) ∧
    (rm ≠ 15 → ∃ n : Nat, exec (.clz cond rd rm) s = .next (wrote s rd (BitVec.ofNat 32 n)) ∧ n ≤ 32 ∧
      (∀ i < n, (s.reg rm).getLsbD (31 - i) = false) ∧ (n < 32 → (s.reg rm).getLsbD (31 - n) = true))) ∧
    (rd = 15 ∨ rm = 15 → exec (.clz cond rd rm) s = .fault .operands) ∧
    exec (.movw cond imm4 15 imm12) s = .fault .operands ∧ exec (.movt cond imm4 15 imm12) s = .fault .operands

/-- The multiplies that can set N and Z: their words, results and flags (43_multiply.md R1662, R1663, R1665, R1666, R1668,
R1669). -/
def Obligations.MultiplySettingFlags : Prop :=
  ∀ (cond : BitVec 4) (sf : BitVec 1) (rd ra rm rn : BitVec 4) (s : State),
    encode (.mul cond sf rd rm rn) = cond ++ 0b0000000#7 ++ sf ++ rd ++ 0b0000#4 ++ rm ++ 0b1001#4 ++ rn ∧
    encode (.mla cond sf rd ra rm rn) = cond ++ 0b0000001#7 ++ sf ++ rd ++ ra ++ rm ++ 0b1001#4 ++ rn ∧
    encode (.umull cond sf rd ra rm rn) = cond ++ 0b0000100#7 ++ sf ++ rd ++ ra ++ rm ++ 0b1001#4 ++ rn ∧
    encode (.umlal cond sf rd ra rm rn) = cond ++ 0b0000101#7 ++ sf ++ rd ++ ra ++ rm ++ 0b1001#4 ++ rn ∧
    encode (.smull cond sf rd ra rm rn) = cond ++ 0b0000110#7 ++ sf ++ rd ++ ra ++ rm ++ 0b1001#4 ++ rn ∧
    encode (.smlal cond sf rd ra rm rn) = cond ++ 0b0000111#7 ++ sf ++ rd ++ ra ++ rm ++ 0b1001#4 ++ rn ∧
    (condPassed cond s = true → 15 ∉ [rd, ra, rm, rn] →
    (let v := BitVec.ofNat 32 ((s.reg rn).toNat * (s.reg rm).toNat)
     exec (.mul cond sf rd rm rn) s = .next (wroteC s rd v (withNZ sf s.cpsr v.msb (decide (v = 0))))) ∧
    (let v := BitVec.ofNat 32 ((s.reg rn).toNat * (s.reg rm).toNat + (s.reg ra).toNat)
     exec (.mla cond sf rd ra rm rn) s = .next (wroteC s rd v (withNZ sf s.cpsr v.msb (decide (v = 0))))) ∧
    ∀ f ∈ mulLongS, rd ≠ ra →
      let v := BitVec.ofInt 64 (f.1 (s.reg rn) (s.reg rm) (s.reg rd ++ s.reg ra))
      exec (f.2 cond sf rd ra rm rn) s =
        .next { wrotePair s rd ra v with cpsr := withNZ sf s.cpsr v.msb (decide (v = 0)) })

/-- The multiplies that write no flag (R1664 to R1683). -/
def Obligations.MultiplyLeavingFlags : Prop :=
  ∀ (cond rd ra rm rn : BitVec 4) (s : State), condPassed cond s = true → 15 ∉ [rd, ra, rm, rn] →
    (∀ f ∈ mulPlain, exec (f.2 cond rd rm rn) s = .next (wrote s rd (BitVec.ofInt 32 (f.1 (s.reg rn) (s.reg rm))))) ∧
    (∀ f ∈ mulAcc, exec (f.2 cond rd ra rm rn) s =
      .next (wrote s rd (BitVec.ofInt 32 (f.1 (s.reg rn) (s.reg rm) (s.reg ra))))) ∧
    (∀ f ∈ mulLong, rd ≠ ra → exec (f.2 cond rd ra rm rn) s =
      .next (wrotePair s rd ra (BitVec.ofInt 64 (f.1 (s.reg rn) (s.reg rm) (s.reg rd ++ s.reg ra)))))

/-- The multiplies with the sticky flag Q: their words, results and flag (43_multiply.md R1671, R1673, R1675, R1677, R1678). -/
def Obligations.MultiplySettingQ : Prop :=
  ∀ (cond rd ra rm rn : BitVec 4) (s : State),
    let word (op : BitVec 8) (a k : BitVec 4) : Word := cond ++ op ++ rd ++ a ++ rm ++ k ++ rn
    (encode (.smlabb cond rd ra rm rn) = word 0x10 ra 0b1000 ∧ encode (.smlatb cond rd ra rm rn) = word 0x10 ra 0b1010 ∧
      encode (.smlabt cond rd ra rm rn) = word 0x10 ra 0b1100 ∧ encode (.smlatt cond rd ra rm rn) = word 0x10 ra 0b1110) ∧
    (encode (.smlawb cond rd ra rm rn) = word 0x12 ra 0b1000 ∧ encode (.smlawt cond rd ra rm rn) = word 0x12 ra 0b1100) ∧
    (encode (.smuad cond rd rm rn) = word 0x70 15 0b0001 ∧ encode (.smuadx cond rd rm rn) = word 0x70 15 0b0011) ∧
    (encode (.smlad cond rd ra rm rn) = word 0x70 ra 0b0001 ∧ encode (.smladx cond rd ra rm rn) = word 0x70 ra 0b0011) ∧
    (encode (.smlsd cond rd ra rm rn) = word 0x70 ra 0b0101 ∧ encode (.smlsdx cond rd ra rm rn) = word 0x70 ra 0b0111) ∧
    (condPassed cond s = true → 15 ∉ [rd, ra, rm, rn] →
    (∀ f ∈ mulQ, let r := f.1 (s.reg rn) (s.reg rm)
      exec (f.2 cond rd rm rn) s = .next (wroteC s rd (BitVec.ofInt 32 r) (withOverflow s.cpsr r))) ∧
    (∀ f ∈ mulAccQ, let r := f.1 (s.reg rn) (s.reg rm) (s.reg ra)
      exec (f.2 cond rd ra rm rn) s = .next (wroteC s rd (BitVec.ofInt 32 r) (withOverflow s.cpsr r))))

/-- R1661 calls these Unpredictable; the fault is the model's answer (92_eei_decisions.md D4(c), log 7). -/
def Obligations.MultiplyUnpredictable : Prop :=
  ∀ (cond : BitVec 4) (sf : BitVec 1) (rd ra rm rn : BitVec 4) (s : State), condPassed cond s = true →
    (15 ∈ [rd, rm, rn] →
      exec (.mul cond sf rd rm rn) s = .fault .operands ∧
      (∀ f ∈ mulPlain ++ mulQ, exec (f.2 cond rd rm rn) s = .fault .operands)) ∧
    (15 ∈ [rd, ra, rm, rn] →
      exec (.mla cond sf rd ra rm rn) s = .fault .operands ∧
      (∀ f ∈ mulAcc ++ mulAccQ, exec (f.2 cond rd ra rm rn) s = .fault .operands)) ∧
    (15 ∈ [rd, ra, rm, rn] ∨ rd = ra →
      (∀ f ∈ mulLong, exec (f.2 cond rd ra rm rn) s = .fault .operands) ∧
      (∀ f ∈ mulLongS, exec (f.2 cond sf rd ra rm rn) s = .fault .operands))

/-- Parallel arithmetic (47_media_instructions.md). -/
def Obligations.ParallelArithmetic : Prop :=
  ∀ f ∈ parallels, ∀ (cond rn rd rm : BitVec 4) (s : State), condPassed cond s = true → 15 ∉ [rn, rd, rm] →
    ∃ (v : Word) (ge : BitVec 4),
      exec (f.2 cond rn rd rm) s =
        .next (wroteC s rd v (if f.1.1 = .s ∨ f.1.1 = .u then withGE s.cpsr ge else s.cpsr)) ∧
      ∀ (i : Nat) (t : Nat × Nat × Bool), f.1.2.2[i]? = some t →
        let e := laneExact f.1.1 f.1.2.1 t (s.reg rn) (s.reg rm)
        v.extractLsb' (f.1.2.1 * i) f.1.2.1 = BitVec.ofInt _ (laneStored f.1.1 f.1.2.1 e) ∧
        (f.1.1 = .s ∨ f.1.1 = .u → ∀ b < 4, 8 * b / f.1.2.1 = i → ge.getLsbD b = laneGE f.1.1 f.1.2.1 t e)

/-- Saturation (47_media_instructions.md). -/
def Obligations.SaturatingArithmetic : Prop :=
  ∀ (cond rn rd rm : BitVec 4) (s : State), condPassed cond s = true → 15 ∉ [rn, rd, rm] →
    (∀ f ∈ saturating,
      let n := (s.reg rn).toInt
      let d := if f.2.1 then clamp32 (2 * n) else n
      let r := f.1 (s.reg rm).toInt d
      let q := s.cpsr.getLsbD 27 || decide ((f.2.1 ∧ d ≠ 2 * n) ∨ clamp32 r ≠ r)
      exec (f.2.2 cond rn rd rm) s = .next (wroteC s rd (BitVec.ofInt 32 (clamp32 r)) (withQ s.cpsr q))) ∧
    (∀ (sat imm5 : BitVec 5) (sh : BitVec 1),
      let x := ((immShiftC (s.reg rn) (if sh = 1 then 2 else 0) imm5 false).1).toInt
      let r := clamp (-2 ^ sat.toNat) (2 ^ sat.toNat - 1) x
      let u := clamp 0 (2 ^ sat.toNat - 1) x
      exec (.ssat cond sat rd imm5 sh rn) s =
        .next (wroteC s rd (BitVec.ofInt 32 r) (withQ s.cpsr (s.cpsr.getLsbD 27 || decide (r ≠ x)))) ∧
      exec (.usat cond sat rd imm5 sh rn) s =
        .next (wroteC s rd (BitVec.ofInt 32 u) (withQ s.cpsr (s.cpsr.getLsbD 27 || decide (u ≠ x))))) ∧
    (∀ sat : BitVec 4,
      let halves (f : Int → Int) : Word := BitVec.ofInt 16 (f (hi16 (s.reg rn))) ++ BitVec.ofInt 16 (f (lo16 (s.reg rn)))
      let q (f : Int → Int) : Bool :=
        s.cpsr.getLsbD 27 || decide (f (lo16 (s.reg rn)) ≠ lo16 (s.reg rn) ∨ f (hi16 (s.reg rn)) ≠ hi16 (s.reg rn))
      let g := clamp (-2 ^ sat.toNat) (2 ^ sat.toNat - 1)
      let h := clamp 0 (2 ^ sat.toNat - 1)
      exec (.ssat16 cond sat rd rn) s = .next (wroteC s rd (halves g) (withQ s.cpsr (q g))) ∧
      exec (.usat16 cond sat rd rn) s = .next (wroteC s rd (halves h) (withQ s.cpsr (q h))))

/-- Extension instructions (47_media_instructions.md). -/
def Obligations.Extensions : Prop :=
  ∀ (cond rn rd rm : BitVec 4) (rotate : BitVec 2) (s : State), condPassed cond s = true → rd ≠ 15 → rm ≠ 15 →
    (∀ f ∈ extends1, exec (f.2 cond rd rotate rm) s = .next (wrote s rd (f.1 (turned (s.reg rm) rotate)))) ∧
    (∀ f ∈ extends2, rn ≠ 15 →
      exec (f.2 cond rn rd rotate rm) s = .next (wrote s rd (f.1 (s.reg rn) (turned (s.reg rm) rotate))))

/-- Bit fields (47_media_instructions.md); the faults answer Unpredictable (log 7). -/
def Obligations.BitFields : Prop :=
  ∀ (cond rd rn : BitVec 4) (lsb : BitVec 5) (s : State), condPassed cond s = true → rd ≠ 15 → rn ≠ 15 →
    (∀ msb : BitVec 5, lsb ≤ msb →
      ∃ v w : Word, exec (.bfi cond msb rd lsb rn) s = .next (wrote s rd v) ∧
        exec (.bfc cond msb rd lsb) s = .next (wrote s rd w) ∧
        ∀ i < 32,
          v.getLsbD i = (if lsb.toNat ≤ i ∧ i ≤ msb.toNat then (s.reg rn).getLsbD (i - lsb.toNat) else (s.reg rd).getLsbD i) ∧
          w.getLsbD i = (if lsb.toNat ≤ i ∧ i ≤ msb.toNat then false else (s.reg rd).getLsbD i)) ∧
    (∀ msb : BitVec 5, msb < lsb →
      exec (.bfi cond msb rd lsb rn) s = .fault .operands ∧ exec (.bfc cond msb rd lsb) s = .fault .operands) ∧
    (∀ w : BitVec 5, lsb.toNat + w.toNat < 32 →
      let f := (s.reg rn).toNat / 2 ^ lsb.toNat % 2 ^ (w.toNat + 1)
      exec (.ubfx cond w rd lsb rn) s = .next (wrote s rd (BitVec.ofNat 32 f)) ∧
      exec (.sbfx cond w rd lsb rn) s =
        .next (wrote s rd (BitVec.ofInt 32 (if f < 2 ^ w.toNat then f else f - 2 ^ (w.toNat + 1))))) ∧
    (∀ w : BitVec 5, 32 ≤ lsb.toNat + w.toNat →
      exec (.ubfx cond w rd lsb rn) s = .fault .operands ∧ exec (.sbfx cond w rd lsb rn) s = .fault .operands)

/-- Byte and halfword instructions (47_media_instructions.md). -/
def Obligations.BytesAndHalfwords : Prop :=
  ∀ (cond rn rd rm ra : BitVec 4) (s : State), condPassed cond s = true → 15 ∉ [rn, rd, rm, ra] →
    (∀ f ∈ reversals, ∃ v : Word, exec (f.2 cond rd rm) s = .next (wrote s rd v) ∧
      ∀ i < 32, v.getLsbD i = (s.reg rm).getLsbD (f.1 i)) ∧
    (exec (.revsh cond rd rm) s =
      .next (wrote s rd (((s.reg rm).extractLsb' 0 8 ++ (s.reg rm).extractLsb' 8 8).signExtend 32))) ∧
    (∃ v : Word, exec (.sel cond rn rd rm) s = .next (wrote s rd v) ∧
      ∀ i < 32, v.getLsbD i = if s.cpsr.getLsbD (16 + i / 8) then (s.reg rn).getLsbD i else (s.reg rm).getLsbD i) ∧
    (∀ imm5 : BitVec 5,
      exec (.pkhbt cond rn rd imm5 rm) s =
        .next (wrote s rd ((s.reg rm <<< imm5.toNat).extractLsb' 16 16 ++ (s.reg rn).extractLsb' 0 16)) ∧
      exec (.pkhtb cond rn rd imm5 rm) s =
        .next (wrote s rd ((s.reg rn).extractLsb' 16 16 ++
          ((s.reg rm).sshiftRight (if imm5 = 0 then 32 else imm5.toNat)).extractLsb' 0 16))) ∧
    exec (.usad8 cond rd rm rn) s = .next (wrote s rd (BitVec.ofNat 32 (byteDistance (s.reg rn) (s.reg rm)))) ∧
    exec (.usada8 cond rd ra rm rn) s =
      .next (wrote s rd (s.reg ra + BitVec.ofNat 32 (byteDistance (s.reg rn) (s.reg rm))))

/-- The branches (45_branch_system.md, R1603), outside debug state (62_debug_events.md R2085, R2086). The events are read from
R409 (logs 21, 57). -/
def Obligations.Branches : Prop :=
  ∀ (cond rm : BitVec 4) (imm24 : BitVec 24) (h : BitVec 1) (s : State), condPassed cond s = true → s.halted = false →
    let s1 := { s with happened := seen s 0x0D }
    let linked (s' : State) : State := { s' with gpr := withReg s 14 (s.pc + 4) }
    exec (.b cond imm24) s = .next (jumped s1 (s.pc + 8 + (imm24 ++ 0#2).signExtend 32)) ∧
    exec (.bl cond imm24) s = .next (jumped (linked s1) (s.pc + 8 + (imm24 ++ 0#2).signExtend 32)) ∧
    exec (.blxImm h imm24) s = .next { linked s1 with
      pc := s.pc + 8 + (imm24 ++ h ++ 0#1).signExtend 32, cpsr := s.cpsr ||| 0x20
      happened := s1.happened ||| BitVec.twoPow 16 0x0C } ∧
    exec (.bx cond rm) s = interworked (if rm = 14 then { s with happened := seen s 0x0E } else s) (s.reg rm) ∧
    exec (.bxj cond rm) s = (if rm = 15 then .fault .operands else exec (.bx cond rm) s) ∧
    exec (.blxReg cond rm) s = (if rm = 15 then .fault .operands else interworked (linked s) (s.reg rm))

/-- The condition is tested before anything else (30_encoding.md R1353). That event 0x0D counts an untaken branch is the
model's reading of R409 (log 21). -/
def Obligations.ConditionFails : Prop :=
  ∀ (i : Instr) (s : State), condOf (encode i) ≠ 15 → (∀ c x y, i ≠ .bkpt c x y) → condPassed (condOf (encode i)) s = false →
    ((∃ c x, i = .b c x ∨ i = .bl c x) → exec i s = .next { skipped s with happened := seen s 0x0D }) ∧
    (¬ (∃ c x, i = .b c x ∨ i = .bl c x) → exec i s = .next (skipped s))

/-- Taking SVC, SMC and Undefined Instruction (60_exceptions.md R1905 to R1930). -/
def Obligations.ExceptionCalls : Prop :=
  ∀ (cond imm4 : BitVec 4) (imm12 : BitVec 12) (imm24 : BitVec 24) (s : State),
    condPassed cond s = true → s.halted = false →
    (∃ t, exec (.svc cond imm24) s = .next t ∧ Entered s t .svc 2 (s.pc + 4) 0x08 false false) ∧
    (s.mode ≠ .usr → ∃ t, exec (.smc cond imm4) s = .next t ∧ Entered s t .mon 3 (s.pc + 4) 0x08 true true) ∧
    (s.mode = .usr → ∃ t, exec (.smc cond imm4) s = .next t ∧ Undefined s t) ∧
    (∃ t, exec (.udf cond imm12 imm4) s = .next t ∧ Undefined s t)

/-- BKPT (62_debug_events.md R2052 to R2081; 60_exceptions.md R1932): debug state is entered over a DSB (R2081; log 50). That a
debug exception counts as a precise abort for the performance monitor is log 21; the fault for another condition is the model's
answer to Unpredictable (log 7). -/
def Obligations.Breakpoint : Prop :=
  ∀ (imm4 : BitVec 4) (imm12 : BitVec 12) (s : State), s.halted = false →
    (s.debugResponse = .halts → ∃ t, exec (.bkpt 14 imm12 imm4) s = .next t ∧ t.halted = true ∧
      t.dbg.dscr.extractLsb' 2 4 = 0b0011 ∧ t.gpr = s.gpr ∧ t.cpsr = s.cpsr ∧ t.spsr = s.spsr ∧ t.mem = s.mem ∧
      t.late = completedLate s ∧ t.abortPending = s.abortPending ∧ t.abortHeld = false ∧
      (s.cpsr.getLsbD 5 = false → t.pc = s.pc)) ∧
    (s.debugResponse ≠ .halts →
      let b := { s.cur with ifsr := 0x2, ifar := Config.freeWord s.draws &&& 0xFFFFFFFE }
      ∃ d t, exec (.bkpt 14 imm12 imm4) s = .next t ∧
        Entered { s with
          draws := s.draws + 1
          happened := seen s 0x01
          dbg := { s.dbg with dscr := d }
          sec := if s.secure then b else s.sec
          nsec := if s.secure then s.nsec else b } t .abt 4 (s.pc + 4) 0x0C true false ∧
        d.extractLsb' 2 4 = 0b0011 ∧
        ∀ i < 32, i < 2 ∨ 6 ≤ i → d.getLsbD i = s.dbg.dscr.getLsbD i) ∧
    (∀ cond : BitVec 4, cond ≠ 14 → exec (.bkpt cond imm12 imm4) s = .fault .operands)

/-- Loads (44_load_store.md R1691 to R1712). MMU off, as after reset, so that the load completes the stores before it (log 50);
events by R409 (logs 21, 57). -/
def Obligations.Loads : Prop :=
  ∀ f ∈ loads, ∀ (o : LsFields) (s : State), Direct s → condPassed o.cond s = true → f.2.allows o [o.rt] →
    (f.2.address o s).toNat % f.2.size = 0 →
    let v := f.1 (loadAt s (f.2.address o s) f.2.size)
    let s' := { s with gpr := f.2.regs o s, late := arrivedLate s, happened := seen s 0x06 }
    (o.rt ≠ 15 → exec (f.2.make o) s = .next { s' with gpr := withReg s' o.rt v, pc := nextPc s }) ∧
    (o.rt = 15 → exec (f.2.make o) s =
      if f.2.size = 4 ∧ f.2.user = false then
        interworked (if f.2.offset = .imm12 ∧ o.p = 0 ∧ (o.rn = 13 ∨ o.rn = 9)
          then { s' with happened := s'.happened ||| BitVec.twoPow 16 0x0E } else s') v
      else .fault .operands)

/-- Stores (44_load_store.md R1691 to R1712): which bytes change, and that no other does. A store to Strongly ordered memory is
complete at once (log 50). -/
def Obligations.Stores : Prop :=
  ∀ f ∈ stores, ∀ (o : LsFields) (s : State), Direct s → Memory.wf s.mem = true → condPassed o.cond s = true →
    f.allows o [o.rt] → (f.address o s).toNat % f.size = 0 →
    (o.rt ≠ 15 ∨ f.size = 4 ∧ f.user = false → ∃ m late, Stored s (f.address o s) f.size (s.reg o.rt) m ∧ Arrived late ∧
      exec (f.make o) s = .next { s with
        gpr := f.regs o s, mem := m, late := late, pc := nextPc s, happened := seen s 0x07 }) ∧
    (o.rt = 15 → ¬ (f.size = 4 ∧ f.user = false) → exec (f.make o) s = .fault .operands)

/-- LDRD and STRD (44_load_store.md). -/
def Obligations.Doublewords : Prop :=
  ∀ (o : LsFields) (s : State), Direct s → condPassed o.cond s = true → o.rt.getLsbD 0 = false → o.rt ≠ 14 →
    (∀ f ∈ loadPairs, f.allows o [o.rt, o.rt + 1] → (f.offset = .plain → o.rm ≠ o.rt ∧ o.rm ≠ o.rt + 1) →
      (f.address o s).toNat % (if s.cur.sctlr.getLsbD 1 then 8 else 4) = 0 →
      let s1 := { s with gpr := f.regs o s }
      let s2 := { s1 with gpr := withReg s1 o.rt (loadAt s (f.address o s) 4) }
      exec (f.make o) s = .next { s2 with
        gpr := withReg s2 (o.rt + 1) (loadAt s (f.address o s + 4) 4)
        late := arrivedLate s, pc := nextPc s, happened := seen s 0x06 }) ∧
    (∀ f ∈ storePairs, f.allows o [o.rt, o.rt + 1] → Memory.wf s.mem = true →
      (f.address o s).toNat % (if s.cur.sctlr.getLsbD 1 then 8 else 4) = 0 →
      ∃ m1 m2 late, Stored s (f.address o s) 4 (s.reg o.rt) m1 ∧
        Stored { s with mem := m1 } (f.address o s + 4) 4 (s.reg (o.rt + 1)) m2 ∧ Arrived late ∧
        exec (f.make o) s = .next { s with
          gpr := f.regs o s, mem := m2, late := late, pc := nextPc s, happened := seen s 0x07 })

/-- Block loads (44_load_store.md). The event of a procedure return is that of the forms R409 lists (log 57). -/
def Obligations.LoadMultiple : Prop :=
  ∀ (cond rn : BitVec 4) (p u w : BitVec 1) (regs : BitVec 16) (s : State), Direct s → condPassed cond s = true →
    regs ≠ 0 → rn ≠ 15 →
    let n := below regs 16
    let a := blockLow p u (s.reg rn) n
    a.toNat % 4 = 0 →
    let back := if w = 1 then withReg s rn (blockHigh u (s.reg rn) n) else s.gpr
    (w = 1 → regs.getLsbD rn.toNat = false) →
    let after (g : Vector Word 32) : State := { s with gpr := g, late := arrivedLate s, happened := seen s 0x06 }
    (regs.getLsbD 15 = false → ∃ g, LoadedFrom s s.mode regs a back g ∧
      exec (.ldm cond p u w rn regs) s = .next { after g with pc := nextPc s }) ∧
    (regs.getLsbD 15 = true → ∃ g, LoadedFrom s s.mode regs a back g ∧
      let pc := loadAt s (a + BitVec.ofNat 32 (4 * (n - 1))) 4
      exec (.ldm cond p u w rn regs) s = interworked (if p = 0 ∧ u = 1 ∧ w = 1 ∧ (rn = 13 ∨ rn = 9)
        then { after g with happened := (after g).happened ||| BitVec.twoPow 16 0x0E } else after g) pc ∧
      (s.halted = false → ∀ v, s.spsr? = some v → Restorable v →
        ∃ t, exec (.ldmExcRet cond p u w rn (regs.extractLsb' 0 15)) s = .next t ∧ Returned (after g) t v pc)) ∧
    (s.mode ≠ .usr → s.mode ≠ .sys → regs.getLsbD 15 = false → w = 0 → ∃ g, LoadedFrom s .usr regs a s.gpr g ∧
      exec (.ldmUser cond p u rn (regs.extractLsb' 0 15)) s =
        .next { after g with pc := nextPc s }) ∧
    exec (.popMulti cond regs) s = exec (.ldm cond 0 1 1 13 regs) s

/-- Block stores (44_load_store.md). -/
def Obligations.StoreMultiple : Prop :=
  ∀ (cond rn : BitVec 4) (p u w : BitVec 1) (regs : BitVec 16) (s : State), Direct s → Memory.wf s.mem = true →
    condPassed cond s = true → regs ≠ 0 → rn ≠ 15 → s.cur.fcse.extractLsb' 25 7 = 0 →
    let n := below regs 16
    let a := blockLow p u (s.reg rn) n
    a.toNat % 4 = 0 →
    ((w = 1 → regs.getLsbD rn.toNat = true → below regs rn.toNat = 0) → ∃ m late, StoredAt s s.mode regs a m ∧ Arrived late ∧
      exec (.stm cond p u w rn regs) s = .next { s with
        gpr := if w = 1 then withReg s rn (blockHigh u (s.reg rn) n) else s.gpr
        mem := m, late := late, pc := nextPc s, happened := seen s 0x07 }) ∧
    (s.mode ≠ .usr → s.mode ≠ .sys → ∃ m late, StoredAt s .usr regs a m ∧ Arrived late ∧
      exec (.stmUser cond p u rn regs) s = .next { s with mem := m, late := late, pc := nextPc s, happened := seen s 0x07 }) ∧
    exec (.pushMulti cond regs) s = exec (.stm cond 1 0 1 13 regs) s

/-- SWP and SWPB (44_load_store.md). -/
def Obligations.Swap : Prop :=
  ∀ (cond rn rt rt2 : BitVec 4) (s : State), Direct s → Memory.wf s.mem = true → condPassed cond s = true →
    15 ∉ [rn, rt, rt2] → rn ≠ rt → rn ≠ rt2 →
    let swapped (n : Nat) (r : Host.Outcome State Fault Refusal) := ∃ m late, Stored s (s.reg rn) n (s.reg rt2) m ∧ Arrived late ∧
      r = .next { s with
        gpr := withReg s rt (loadAt s (s.reg rn) n), mem := m, late := late, pc := nextPc s
        happened := seen s 0x06 ||| BitVec.twoPow 16 0x07 }
    ((s.reg rn).toNat % 4 = 0 → swapped 4 (exec (.swp cond rn rt rt2) s)) ∧ swapped 1 (exec (.swpb cond rn rt rt2) s)

/-- The exclusive accesses and the monitors (44_load_store.md R1732 to R1739; 20_memory.md R1060 to R1063, log 29): the granule is
the build's, the local monitor compares it, and the platform's global monitor may refuse the write. The
alignment of a store is checked when the local monitor passes. The status in r15 as a branch is log 58, the faults answer Unpredictable
(R1693, log 7). -/
def Obligations.Exclusives : Prop :=
  ∀ (cond rn rd rt : BitVec 4) (s : State), Direct s → Memory.wf s.mem = true → condPassed cond s = true →
    let a := s.reg rn
    let tag : ExclTag := ⟨!s.secure, mvaOf s.cur a >>> s.build.exclGranule⟩
    let loaded (v : Word) : State :=
      { s with gpr := withReg s rt v, pc := nextPc s, late := arrivedLate s, happened := seen s 0x06, excl := some tag }
    let status (s' : State) (v : Word) : State :=
      if rd = 15 then { jumped s' 0 with excl := none } else { s' with gpr := withReg s rd v, pc := nextPc s, excl := none }
    let stored (n : Nat) (r : Host.Outcome State Fault Refusal) :=
      (s.excl = some tag → a.toNat % n = 0 → s.exclRefused = false → ∃ m late, Stored s a n (s.reg rt) m ∧ Arrived late ∧
        r = .next (status { s with mem := m, late := late, happened := seen s 0x07 } 0)) ∧
      (s.excl = some tag → a.toNat % n = 0 → s.exclRefused = true → r = .next (status { s with late := arrivedLate s } 1)) ∧
      (s.excl ≠ some tag → r = .next (status s 1))
    (rt ≠ 15 →
      (a.toNat % 4 = 0 → exec (.ldrex cond rn rt) s = .next (loaded (loadAt s a 4))) ∧
      exec (.ldrexb cond rn rt) s = .next (loaded (loadAt s a 1)) ∧
      (a.toNat % 2 = 0 → exec (.ldrexh cond rn rt) s = .next (loaded (loadAt s a 2)))) ∧
    (a.toNat % 8 = 0 → rt.getLsbD 0 = false → rt ≠ 14 →
      let s1 := loaded (loadAt s a 4)
      exec (.ldrexd cond rn rt) s = .next { s1 with
        gpr := withReg s1 (rt + 1) (loadAt s (a + 4) 4) }) ∧
    (rt = 15 → ∀ i ∈ [Instr.ldrex cond rn rt, .ldrexb cond rn rt, .ldrexh cond rn rt, .ldrexd cond rn rt, .strex cond rn rd rt,
      .strexb cond rn rd rt, .strexh cond rn rd rt, .strexd cond rn rd rt], exec i s = .fault .operands) ∧
    (rd = rn ∨ rd = rt → ∀ i ∈ [Instr.strex cond rn rd rt, .strexb cond rn rd rt, .strexh cond rn rd rt, .strexd cond rn rd rt],
      exec i s = .fault .operands) ∧
    (rt ≠ 15 → rd ≠ rn → rd ≠ rt → (rd = 15 → s.halted = false) →
      stored 4 (exec (.strex cond rn rd rt) s) ∧
      stored 1 (exec (.strexb cond rn rd rt) s) ∧
      stored 2 (exec (.strexh cond rn rd rt) s) ∧
      (rt.getLsbD 0 = false → rt ≠ 14 → rd ≠ rt + 1 →
        (s.excl = some tag → a.toNat % 8 = 0 → s.exclRefused = false → ∃ m1 m2 late, Stored s a 4 (s.reg rt) m1 ∧
          Stored { s with mem := m1 } (a + 4) 4 (s.reg (rt + 1)) m2 ∧ Arrived late ∧
          exec (.strexd cond rn rd rt) s = .next (status { s with mem := m2, late := late, happened := seen s 0x07 } 0)) ∧
        (s.excl = some tag → a.toNat % 8 = 0 → s.exclRefused = true →
          exec (.strexd cond rn rd rt) s = .next (status { s with late := arrivedLate s } 1)) ∧
        (s.excl ≠ some tag → exec (.strexd cond rn rd rt) s = .next (status s 1))))

/-- The alignment fault of Strongly ordered memory (20_memory.md R1014; 60_exceptions.md R1936, R1940). That the Domain field is
a free value is log 18. -/
def Obligations.AlignmentFaults : Prop :=
  ∀ (o : LsFields) (s : State), Direct s → condPassed o.cond s = true → s.halted = false → o.rt ≠ 15 →
    let aborted (write : Bool) (va : Word) (r : Host.Outcome State Fault Refusal) := ∃ t, r = .next t ∧
      let b := faulted s.cur (mvaOf s.cur va) write 0b00001 ((Config.freeWord s.draws).extractLsb' 0 4)
      Entered { s with
        draws := s.draws + 1
        happened := seen s 0x01
        sec := if s.secure then b else s.sec
        nsec := if s.secure then s.nsec else b } t .abt 4 (s.pc + 8) 0x10 true false
    (∀ f ∈ loads, f.2.allows o [o.rt] → (f.2.address o s).toNat % f.2.size ≠ 0 →
      aborted false (f.2.address o s) (exec (f.2.make o) s)) ∧
    (∀ f ∈ stores, f.allows o [o.rt] → (f.address o s).toNat % f.size ≠ 0 →
      aborted true (f.address o s) (exec (f.make o) s))

/-- Hints and barriers (45_branch_system.md R1785 to R1797; 44_load_store.md R1725 to R1727, R1740). WFE and SEV as NOP is
decision D19 of the spec. The model's choices: what the barriers do beside going on is logs 8, 9 and 50; that PLD allocates no
line of its own is log 6; r15 as the offset register of a preload hint is log 59; WFI in debug state is log 31. -/
def Obligations.Hints : Prop :=
  ∀ (cond rn rm opt : BitVec 4) (hint8 : BitVec 8) (u : BitVec 1) (imm12 : BitVec 12) (imm5 : BitVec 5) (typ : BitVec 2)
      (mid : BitVec 15) (lo : BitVec 20) (lo4 : BitVec 4) (s : State),
    condPassed cond s = true →
    (∀ i ∈ [.nop cond, .yield cond, .wfe cond, .sev cond, .dbg cond opt, .hintOther cond hint8,
        .pliImm u rn imm12, .pliReg u rn imm5 typ rm, .pldImm u rn imm12, .pldReg u rn imm5 typ rm,
        .pldwImm u rn imm12, .pldwReg u rn imm5 typ rm, .memHintImm u lo, .memHintReg u mid lo4],
      exec i s = .next (skipped s)) ∧
    exec (.isb opt) s = .next (skipped (synchronizes s)) ∧
    exec (.dsb opt) s = .next (skipped (completes s)) ∧
    exec (.dmb opt) s = .next (skipped (separates s)) ∧
    exec .clrex s = .next { skipped s with excl := none } ∧
    exec (.wfi cond) s = .next
      (if s.sys.actlr.getLsbD 8 ∨ s.halted then skipped s else { skipped (completes s) with run := .standby })

/-- MRS (45_branch_system.md R1775). The faults answer Unpredictable (log 7). -/
def Obligations.StatusRegisterReads : Prop :=
  ∀ (cond rd : BitVec 4) (s : State), condPassed cond s = true →
    (rd ≠ 15 → exec (.mrs cond 0 rd) s = .next (wrote s rd (s.cpsr &&& if s.halted then 0xFFFFFFFF else 0xF8FF03DF))) ∧
    (∀ v, rd ≠ 15 → s.spsr? = some v → exec (.mrs cond 1 rd) s = .next (wrote s rd v)) ∧
    (s.spsr? = none → exec (.mrs cond 1 rd) s = .fault .operands) ∧
    (∀ r, exec (.mrs cond r 15) s = .fault .operands)

/-- MSR (45_branch_system.md R1776, R1777; 10_state.md R73 to R77). The faults answer Unpredictable (R1776 and R1645, log 7;
an illegal mode, R1776); that R1777 runs with r15 and with an empty mask is log 58; the mark of an exit from Monitor mode is
61_security_privilege.md R2011. -/
def Obligations.StatusRegisterWrites : Prop :=
  ∀ (cond m rn : BitVec 4) (imm12 : BitVec 12) (s : State), condPassed cond s = true → s.halted = false →
    let cpsrDone (v : Word) (r : Host.Outcome State Fault Refusal) :=
      if m.getLsbD 0 = true ∧ s.mode ≠ .usr ∧ Mode.ofBits (v.extractLsb' 0 5) = none then r = .fault .illegalMode
      else ∃ c, r = .next { s with cpsr := c, monitorLeft := leavesMonitor s c, pc := nextPc s } ∧ StatusWritten s m v c
    let spsrDone (v : Word) (r : Host.Outcome State Fault Refusal) :=
      (s.spsr? = none → r = .fault .operands) ∧
      (∀ k, s.mode.spsrNo = some k → ∃ x : Word, r = .next { s with spsr := s.spsr.set k x k.isLt, pc := nextPc s } ∧
        ∀ i < 32, x.getLsbD i = if m.getLsbD (i / 8) then v.getLsbD i else s.spsr[k].getLsbD i)
    (rn ≠ 15 → m ≠ 0 → cpsrDone (s.reg rn) (exec (.msrCpsrReg cond m rn) s)) ∧
    (rn = 15 ∨ m = 0 → exec (.msrCpsrReg cond m rn) s = .fault .operands) ∧
    cpsrDone (opImm imm12 s).1 (exec (.msrCpsrImm cond m imm12) s) ∧
    spsrDone (s.reg rn) (exec (.msrSpsrReg cond m rn) s) ∧
    spsrDone (opImm imm12 s).1 (exec (.msrSpsrImm cond m imm12) s)

/-- CPS and SETEND (45_branch_system.md R1778, R1779). The faults answer Unpredictable (R1778, log 7); the mark of an exit from
Monitor mode is 61_security_privilege.md R2011. -/
def Obligations.ChangeProcessorState : Prop :=
  ∀ (imod : BitVec 2) (m a i f e : BitVec 1) (mode : BitVec 5) (s : State), s.halted = false →
    let sets := imod = 2 ∨ imod = 3
    let bad := imod = 1 ∨ (imod = 0 ∧ m = 0) ∨ (sets ∧ a = 0 ∧ i = 0 ∧ f = 0) ∨ (m = 0 ∧ mode ≠ 0) ∨
      (¬ sets ∧ (a = 1 ∨ i = 1 ∨ f = 1))
    let v : Bool := imod.getLsbD 0
    (bad → exec (.cps imod m a i f mode) s = .fault .operands) ∧
    (¬ bad → s.mode = .usr → exec (.cps imod m a i f mode) s = .next (skipped s)) ∧
    (¬ bad → s.mode ≠ .usr →
      if m = 1 ∧ Mode.ofBits mode = none then exec (.cps imod m a i f mode) s = .fault .illegalMode
      else ∃ c, exec (.cps imod m a i f mode) s = .next { s with
            cpsr := c, monitorLeft := leavesMonitor s c, pc := nextPc s } ∧
        (∀ j < 32, 5 ≤ j → c.getLsbD j =
          if (j = 8 ∧ a = 1 ∧ sets ∧ maskWritable s 8 v) ∨ (j = 7 ∧ i = 1 ∧ sets) ∨
             (j = 6 ∧ f = 1 ∧ sets ∧ maskWritable s 6 v) then v else s.cpsr.getLsbD j) ∧
        c.extractLsb' 0 5 = if m = 1 ∧ ¬ (Mode.ofBits mode = some .mon ∧ s.secure = false) then mode
          else s.cpsr.extractLsb' 0 5) ∧
    (∃ c, exec (.setend e) s = .next { s with cpsr := c, pc := nextPc s } ∧
      c.getLsbD 9 = (e == 1) ∧ ∀ j, j ≠ 9 → c.getLsbD j = s.cpsr.getLsbD j)

/-- SRS and RFE (45_branch_system.md R1780, R1781). The faults answer Unpredictable (log 7). -/
def Obligations.ReturnState : Prop :=
  ∀ (p u w : BitVec 1) (rn : BitVec 4) (mode : BitVec 5) (s : State), Direct s → s.halted = false →
    let low (base : Word) : Word := (if u = 1 then base else base - 8) + (if p = u then 4 else 0)
    let high (base : Word) : Word := if u = 1 then base + 8 else base - 8
    (∀ spsr m, s.spsr? = some spsr → Mode.ofBits mode = some m → (m = .mon → s.secure = true) → Memory.wf s.mem = true →
      (low (s.regOf m 13)).toNat % 4 = 0 →
      ∃ m1 m2 late, Stored s (low (s.regOf m 13)) 4 (s.reg 14) m1 ∧
        Stored { s with mem := m1 } (low (s.regOf m 13) + 4) 4 spsr m2 ∧ Arrived late ∧
        exec (.srs p u w mode) s = .next { s with
          gpr := if w = 1 then s.gpr.set (physReg m 13) (high (s.regOf m 13)) (physReg m 13).isLt else s.gpr
          mem := m2, late := late, pc := nextPc s, happened := seen s 0x07 }) ∧
    (s.spsr? = none ∨ Mode.ofBits mode = none ∨ (Mode.ofBits mode = some .mon ∧ s.secure = false) →
      exec (.srs p u w mode) s = .fault .operands) ∧
    (rn ≠ 15 → s.mode ≠ .usr → (low (s.reg rn)).toNat % 4 = 0 →
      let status := loadAt s (low (s.reg rn) + 4) 4
      Restorable status →
      ∃ t, exec (.rfe p u w rn) s = .next t ∧
        Returned { s with
          gpr := if w = 1 then withReg s rn (high (s.reg rn)) else s.gpr
          late := arrivedLate s, happened := seen s 0x06 } t
          status (loadAt s (low (s.reg rn)) 4)) ∧
    (rn = 15 ∨ s.mode = .usr → exec (.rfe p u w rn) s = .fault .operands)

/-- The identification registers (40_cp15_instructions.md R1459 to R1481), in every build (log 4). -/
def Obligations.IdentificationRegisters : Prop :=
  ∀ (cond rt : BitVec 4) (s : State), condPassed cond s = true →
    (∀ e ∈ identification, ReadGives s rt (privilegedRight s) (e.1 s) (exec (e.2 cond rt) s)) ∧
    (∀ opc2 cRm, ReadGives s rt (privilegedRight s) 0 (exec (.mrcFeatureReserved cond rt opc2 cRm) s))

/-- Reads of the system registers (40_, 41_ and 48_ instruction files; R1451 to R1454). -/
def Obligations.SystemRegisterReads : Prop :=
  ∀ (cond rt : BitVec 4) (s : State), condPassed cond s = true →
    (∀ e ∈ systemReads ++ unitReads, ReadGives s rt (e.1 s) (e.2.1 s) (exec (e.2.2 cond rt) s)) ∧
    (let runs (i : Fin 2) : Bool := s.ple.chan[i].status.extractLsb' 0 2 == 2
     let signals (i : Fin 2) : Bool := s.ple.chan[i].irqSecure || s.ple.chan[i].irqNonsecure || s.ple.chan[i].errIrq
     ReadGives s rt (nsacrRight 18 s) (0#30 ++ bit (runs 1) ++ bit (runs 0)) (exec (.mrcPleIdRunning cond rt) s) ∧
     ReadGives s rt (nsacrRight 18 s) (0#30 ++ bit (signals 1) ++ bit (signals 0)) (exec (.mrcPleIdInterrupting cond rt) s))

/-- Writes of the system registers (40_, 41_ and 48_ instruction files). Which bits are stored is log 17 and log 26 where the
rules differ; what the barriers do beside going on is logs 8, 9 and 50; BPIMVA in debug state is log 56. -/
def Obligations.SystemRegisterWrites : Prop :=
  ∀ (cond rt : BitVec 4) (s : State), condPassed cond s = true →
    ∀ e ∈ systemWrites ++ unitWrites, WriteGives s rt (e.1 s) (e.2.1 s) (exec (e.2.2 cond rt) s)

/-- R1197 calls such a change Unpredictable; the fault is the model's answer (log 32). -/
def Obligations.MemoryConfigurationWrites : Prop :=
  ∀ (cond rt : BitVec 4) (s : State), condPassed cond s = true → ∀ e ∈ guardedWrites,
    (¬ (preloadRuns s = true ∧ e.2.1 s (s.reg rt) = true) →
      WriteGives s rt (e.1 s) (e.2.2.1 s) (exec (e.2.2.2 cond rt) s)) ∧
    (e.1 s = true → rt ≠ 15 → preloadRuns s = true → e.2.1 s (s.reg rt) = true →
      exec (e.2.2.2 cond rt) s = .fault .preloadReconfigured)

/-- The performance monitor registers (13_cp15_maint_pmu.md R400 to R412). -/
def Obligations.PerformanceCounters : Prop :=
  ∀ (cond rt : BitVec 4) (s : State), condPassed cond s = true →
    let drawn : State := { s with draws := s.draws + 1 }
    let free : Word := Config.freeWord s.draws
    let counts (n : Fin 4) : Bool := s.pmu.pmnc.getLsbD 0 && s.pmu.cnten.getLsbD n && !s.halted &&
      (s.pins.dbgen || s.pins.niden) &&
      (!s.secure || s.pins.spiden || s.pins.spniden || (s.mode == .usr && s.sys.sder.getLsbD 1)) &&
      (s.reg rt).getLsbD n
    (∀ n : Fin 4, s.pmu.pmnxsel.extractLsb' 0 5 = BitVec.ofNat 5 n →
      ReadGives s rt (countRight s) s.pmu.evtsel[n] (exec (.mrcEvtsel cond rt) s) ∧
      ReadGives s rt (countRight s) s.pmu.pmcnt[n] (exec (.mrcPmcnt cond rt) s) ∧
      WriteGives s rt (countRight s) (withPmu (fun v p => { p with evtsel := p.evtsel.set n (v &&& 0xFF) n.isLt }) s)
        (exec (.mcrEvtsel cond rt) s) ∧
      WriteGives s rt (countRight s) (withPmu (fun v p => { p with pmcnt := p.pmcnt.set n v n.isLt }) s)
        (exec (.mcrPmcnt cond rt) s)) ∧
    (4 ≤ (s.pmu.pmnxsel.extractLsb' 0 5).toNat →
      (countRight s = true → ReadGives drawn rt true free (exec (.mrcEvtsel cond rt) s) ∧
        ReadGives drawn rt true free (exec (.mrcPmcnt cond rt) s)) ∧
      (countRight s = false → (∃ t, exec (.mrcEvtsel cond rt) s = .next t ∧ Undefined s t) ∧
        ∃ t, exec (.mrcPmcnt cond rt) s = .next t ∧ Undefined s t) ∧
      WriteGives s rt (countRight s) (fun _ => s) (exec (.mcrEvtsel cond rt) s) ∧
      WriteGives s rt (countRight s) (fun _ => s) (exec (.mcrPmcnt cond rt) s)) ∧
    (let on : Bool := s.pmu.pmnc.getLsbD 0 && s.pmu.cnten.getLsbD 31
     (on = false → WriteGives s rt (countRight s) (withPmu (fun v p => { p with ccnt := v }) s) (exec (.mcrCcnt cond rt) s)) ∧
     (on = true → countRight s = true → exec (.mcrCcnt cond rt) s = .fault (if rt = 15 then .operands else .systemRegister)) ∧
     (on = true → countRight s = false → ∃ t, exec (.mcrCcnt cond rt) s = .next t ∧ Undefined s t)) ∧
    (∃ p, WriteGives s rt (countRight s) (fun _ => { s with pmu := p }) (exec (.mcrSwincr cond rt) s) ∧
      p = { s.pmu with pmcnt := p.pmcnt, flag := p.flag } ∧
      (∀ n : Fin 4, let up := counts n && s.pmu.evtsel[n].extractLsb' 0 8 == 0
        p.pmcnt[n] = s.pmu.pmcnt[n] + (if up then 1 else 0) ∧
        p.flag.getLsbD n = (s.pmu.flag.getLsbD n || (up && s.pmu.pmcnt[n] == 0xFFFFFFFF))) ∧
      ∀ i, 4 ≤ i → p.flag.getLsbD i = s.pmu.flag.getLsbD i)

/-- The preload engine registers (14_cp15_tlb_ple_misc.md R490 to R506); what a write while running leaves is a free value
(log 33), and what Stop and Clear do to the interrupts is log 34. -/
def Obligations.PreloadChannels : Prop :=
  ∀ (cond rt : BitVec 4) (s : State), condPassed cond s = true →
    let c := s.ple.chan[channelNo s]
    let runs : Bool := c.status.extractLsb' 0 2 == 2
    (∀ e ∈ channelWrites, WriteGives s rt (channelRight s) (e.1 s) (exec (e.2 cond rt) s)) ∧
    (∀ e ∈ [(c.start, Instr.mrcPleStartAddr cond rt), (c.endr, .mrcPleEndAddr cond rt)],
      (runs = false → ReadGives s rt (channelRight s) e.1 (exec e.2 s)) ∧
      (runs = true → channelRight s = true →
        ReadGives { s with draws := s.draws + 1 } rt true (Config.freeWord s.draws) (exec e.2 s)) ∧
      (runs = true → channelRight s = false → ∃ t, exec e.2 s = .next t ∧ Undefined s t))

/-- TLB maintenance (13_cp15_maint_pmu.md R380 to R382). -/
def Obligations.TlbMaintenance : Prop :=
  ∀ (cond rt : BitVec 4) (s : State), condPassed cond s = true → ∀ e ∈ tlbOperations, ∃ i d,
    WriteGives s rt (privilegedRight s) (fun _ => { s with itlb := i, dtlb := d }) (exec (e.2.2 cond rt) s) ∧
    ∀ n : Fin 32,
      i[n] = (if e.1.1 && s.itlb[n].any (e.2.1 s (s.reg rt)) then none else s.itlb[n]) ∧
      d[n] = (if e.1.2 && s.dtlb[n].any (e.2.1 s (s.reg rt)) then none else s.dtlb[n])

/-- The c15 array operations (15_cp15_c15.md R571, decision D22 of the spec; log 24). -/
def Obligations.ArrayOperations : Prop :=
  ∀ (cond rt : BitVec 4) (s : State), condPassed cond s = true →
    (∀ e ∈ arrayReads, WriteGives s rt (arrayRight s) (fun _ => { s with
        sys := e.1 s.sys (Config.freeWord s.draws) (Config.freeWord (s.draws + 1)) (Config.freeWord (s.draws + 2))
        draws := s.draws + 3 }) (exec (e.2 cond rt) s)) ∧
    (∀ i ∈ arrayWrites,
      (arrayRight s = true → exec (i cond rt) s = if rt = 15 then .fault .operands else .refused .arrayWrite) ∧
      (arrayRight s = false → ∃ t, exec (i cond rt) s = .next t ∧ Undefined s t))

/-- Cache maintenance by address with the MMU off, and of the whole instruction cache (13_cp15_maint_pmu.md R353 to R361;
22_caches.md R1182); the operations on the instruction cache are admitted in debug state in any mode (62_debug_events.md R2107).
The late stores and the free choice of a place are logs 50 and 6. -/
def Obligations.CacheMaintenance : Prop :=
  ∀ (cond rt : BitVec 4) (s : State), condPassed cond s = true →
    let data : List Instr := [.mcrDcimvac cond rt, .mcrDccmvau cond rt, .mcrDccmvac cond rt, .mcrDccimvac cond rt]
    let instr : List Instr := [.mcrIciallu cond rt, .mcrIcimvau cond rt]
    let instrRight : Bool := privilegedRight s || s.halted
    (privilegedRight s = false → ∀ i ∈ data, ∃ t, exec i s = .next t ∧ Undefined s t) ∧
    (privilegedRight s = true → rt = 15 → ∀ i ∈ data, exec i s = .fault .operands) ∧
    (instrRight = false → ∀ i ∈ instr, ∃ t, exec i s = .next t ∧ Undefined s t) ∧
    (instrRight = true → rt = 15 → ∀ i ∈ instr, exec i s = .fault .operands) ∧
    (rt ≠ 15 →
      let v := s.reg rt
      let ns : Bool := !s.secure
      let sets1 := s.build.l1Size.sets
      let sets2 := s.build.l2Size.sets
      (instrRight = true →
        (∃ late, LateBeside s late ∧ exec (.mcrIciallu cond rt) s = .next { skipped s with l1i := [], late := late }) ∧
        (s.cur.sctlr.getLsbD 0 = false → ∃ late, LateBeside s late ∧ exec (.mcrIcimvau cond rt) s = .next { skipped s with
          l1i := s.l1i.filter fun l => !(l.set == v.toNat / 64 % sets1 && l.tag == v.extractLsb' 6 26 && l.ns == ns)
          late := late })) ∧
      (privilegedRight s = true → s.cur.sctlr.getLsbD 0 = false →
        exec (.mcrDcimvac cond rt) s = .next { skipped s with
          l1d := withoutLine s.l1d (lineOf s.l1d sets1 ns v), l2 := withoutLine s.l2 (lineOf s.l2 sets2 ns v) } ∧
        (s.bus = [] → NoPort s → Memory.wf s.mem = true → Slots s.l1d → Slots s.l2 →
          ∃ t u, ((lineOf s.l1d sets1 ns v).elim (t = s) fun l => CleanedL1 s t l) ∧
            ((lineOf t.l2 sets2 ns v).elim (u = t) fun l => CleanedL2 t u l) ∧
            exec (.mcrDccmvau cond rt) s = .next { t with pc := nextPc s } ∧
            exec (.mcrDccmvac cond rt) s = .next { u with pc := nextPc s } ∧
            exec (.mcrDccimvac cond rt) s = .next { u with
              l1d := withoutLine u.l1d (lineOf u.l1d sets1 ns v), l2 := withoutLine u.l2 (lineOf u.l2 sets2 ns v)
              pc := nextPc s })))

/-- Cache maintenance by set and way (13_cp15_maint_pmu.md R354, R358, R360, R365; 22_caches.md R1182): in the Nonsecure state an
invalidation of a Secure line cleans it too (R1150). The late stores and the free choice of a place are logs 50 and 6. -/
def Obligations.SetWayMaintenance : Prop :=
  ∀ (cond rt : BitVec 4) (s : State), condPassed cond s = true →
    let ops : List Instr := [.mcrDcisw cond rt, .mcrDccsw cond rt, .mcrDccisw cond rt]
    (privilegedRight s = false → ∀ i ∈ ops, ∃ t, exec i s = .next t ∧ Undefined s t) ∧
    (privilegedRight s = true → rt = 15 → ∀ i ∈ ops, exec i s = .fault .operands) ∧
    (privilegedRight s = true → rt ≠ 15 → s.bus = [] → NoPort s → Memory.wf s.mem = true →
      let v := s.reg rt
      let level := (v.extractLsb' 1 3).toNat
      let protects (l : CacheLine) : Bool := !s.secure && !l.ns
      (2 ≤ level → ∀ i ∈ ops, exec i s = .next (skipped s)) ∧
      (level = 0 →
        let set := v.toNat / 64 % s.build.l1Size.sets
        let way := (v.extractLsb' 30 2).toNat
        (lineIn s.l1d set way = none → ∀ i ∈ ops, exec i s = .next (skipped s)) ∧
        ∀ l, lineIn s.l1d set way = some l → ∃ t, CleanedL1 s t l ∧
          exec (.mcrDcisw cond rt) s = .next (if protects l then { t with l1d := without t.l1d set way, pc := nextPc s }
            else { skipped s with l1d := without s.l1d set way }) ∧
          exec (.mcrDccsw cond rt) s = .next { t with pc := nextPc s } ∧
          exec (.mcrDccisw cond rt) s = .next { t with l1d := without t.l1d set way, pc := nextPc s }) ∧
      (level = 1 →
        let set := v.toNat / 64 % s.build.l2Size.sets
        let way := (v.extractLsb' 29 3).toNat
        (lineIn s.l2 set way = none → ∀ i ∈ ops, exec i s = .next (skipped s)) ∧
        ∀ l, lineIn s.l2 set way = some l → ∃ t, CleanedL2 s t l ∧
          exec (.mcrDcisw cond rt) s = .next (if protects l then { t with l2 := without t.l2 set way, pc := nextPc s }
            else { skipped s with l2 := without s.l2 set way }) ∧
          exec (.mcrDccsw cond rt) s = .next { t with pc := nextPc s } ∧
          exec (.mcrDccisw cond rt) s = .next { t with l2 := without t.l2 set way, pc := nextPc s }))

/-- Address translation with the MMU off (13_cp15_maint_pmu.md R366 to R370; R1101). The free NS bit is log 18. -/
def Obligations.AddressTranslationOff : Prop :=
  ∀ (cond rt : BitVec 4) (s : State), condPassed cond s = true →
    let par (b : Banked) (ns : Bool) (v : Word) : Word :=
      (mvaOf b v).extractLsb' 12 20 ++ 0#2 ++ bit ns ++ 0#1 ++ 1#1 ++ 0b001#3 ++ 0b00#2 ++ 0#1 ++ 0#1
    (s.cur.sctlr.getLsbD 0 = false →
      (∀ i ∈ [Instr.mcrVaPaCurPrivRead cond rt, .mcrVaPaCurPrivWrite cond rt, .mcrVaPaCurUserRead cond rt,
          .mcrVaPaCurUserWrite cond rt],
        WriteGives s rt (privilegedRight s) (fun v =>
          let s' : State := { s with draws := s.draws + 1 }
          if s.secure then { s' with sec := { s.sec with par := par s.sec false v } }
          else { s' with nsec := { s.nsec with par := par s.nsec true v } }) (exec i s)) ∧
      ∀ i ∈ [Instr.mcrDtlbPreload cond rt, .mcrItlbPreload cond rt],
        WriteGives s rt (nsacrRight 17 s) (fun _ => s) (exec i s)) ∧
    (s.nsec.sctlr.getLsbD 0 = false →
      ∀ i ∈ [Instr.mcrVaPaOthPrivRead cond rt, .mcrVaPaOthPrivWrite cond rt, .mcrVaPaOthUserRead cond rt,
          .mcrVaPaOthUserWrite cond rt],
        WriteGives s rt (secureRight s) (fun v => { s with
          draws := s.draws + 1
          sec := { s.sec with par := par s.nsec ((Config.freeWord s.draws).getLsbD 0) v } }) (exec i s))

/-- The CP14 debug registers (41_cp14_vfp_sysreg_instructions.md R1551 to R1562). The fault for a write-back of r15 answers
Unpredictable (44_load_store.md R1693, decision D4 of the spec, log 7). -/
def Obligations.DebugRegisters : Prop :=
  ∀ (cond rt rn : BitVec 4) (p u w : BitVec 1) (imm8 : BitVec 8) (s : State), condPassed cond s = true →
    let drawn : State := { s with draws := s.draws + 1 }
    let d := s.dbg.dscr
    let received : Word := if d.getLsbD 30 then s.dbg.dtrrx else Config.freeWord s.draws
    let taken : Debug := { s.dbg with dscr := d &&& 0xBFFFFFFF }
    let given (v : Word) : Debug := { s.dbg with dtrtx := v, dscr := d ||| 0x20000000 }
    let offset : Word := (imm8 ++ 0#2).setWidth 32
    let moved : Word := if u = 1 then s.reg rn + offset else s.reg rn - offset
    let va : Word := if p = 1 then moved else s.reg rn
    let regs := if w = 1 then withReg s rn moved else s.gpr
    (debugRight s = true →
      (∃ v, ReadGives drawn rt true v (exec (.mrcDscr cond rt) s) ∧
        (∀ i ∈ [0, 1, 2, 3, 4, 5, 6, 7, 8, 10, 11, 12, 13, 19, 20, 21, 25, 29, 30], v.getLsbD i = d.getLsbD i) ∧
        (∀ i ∈ [14, 15], v.getLsbD i = (d.getLsbD i && s.pins.dbgen)) ∧
        v.getLsbD 16 = !(s.pins.dbgen && s.pins.spiden) ∧ v.getLsbD 18 = !s.secure ∧
        v.getLsbD 17 = !((s.pins.niden || s.pins.dbgen) && (s.pins.spniden || s.pins.spiden)) ∧
        v.getLsbD 28 = false ∧ v.getLsbD 31 = false) ∧
      exec (.mrcDscrFlags cond) s =
        .next { skipped s with cpsr := flagged s.cpsr false (d.getLsbD 30) (d.getLsbD 29) false } ∧
      ReadGives { drawn with dbg := taken } rt true received (exec (.mrcDtr cond rt) s) ∧
      WriteGives s rt true (fun v => { s with dbg := given v }) (exec (.mcrDtr cond rt) s) ∧
      (w = 1 ∧ rn = 15 → exec (.ldcDtr cond p u w rn imm8) s = .fault .operands ∧
        exec (.stcDtr cond p u w rn imm8) s = .fault .operands) ∧
      (¬ (w = 1 ∧ rn = 15) → Direct s → va.toNat % 4 = 0 →
        exec (.ldcDtr cond p u w rn imm8) s = .next { s with
          gpr := regs, dbg := given (loadAt s va 4), late := arrivedLate s, pc := nextPc s, happened := seen s 0x06 } ∧
        (Memory.wf s.mem = true → ∃ m late, Stored s va 4 received m ∧ Arrived late ∧
          exec (.stcDtr cond p u w rn imm8) s = .next { drawn with
            gpr := regs, dbg := taken, mem := m, late := late, pc := nextPc s, happened := seen s 0x07 }))) ∧
    (debugRight s = false → ∀ i ∈ [Instr.mrcDscr cond rt, .mrcDscrFlags cond, .mrcDtr cond rt, .mcrDtr cond rt,
      .ldcDtr cond p u w rn imm8, .stcDtr cond p u w rn imm8], ∃ t, exec i s = .next t ∧ Undefined s t)

/-- The NEON/VFP system registers (41_cp14_vfp_sysreg_instructions.md R1581 to R1590). The gate that comes before the mode and
FPEXC.EN, against the letter of R1581, is log 39; FPSID by revision is log 52. -/
def Obligations.VfpRegisters : Prop :=
  ∀ (cond rt : BitVec 4) (s : State), condPassed cond s = true →
    let outcome (right : Bool) (t : State) (r : Host.Outcome State Fault Refusal) : Prop :=
      (vfpGate s = true → right = true → rt ≠ 15 → r = .next t) ∧
      (vfpGate s = true → right = true → rt = 15 → r = .fault .operands) ∧
      (vfpGate s = false ∨ right = false → ∃ u, r = .next u ∧ Undefined s u)
    encode (.vmrsMvfr1 14 0) = 0xEEF60A10 ∧ encode (.vmsrMvfr1 14 0) = 0xEEE60A10 ∧
    encode (.vmrsMvfr0 14 0) = 0xEEF70A10 ∧ encode (.vmsrMvfr0 14 0) = 0xEEE70A10 ∧
    encode (.vmrsFpexc 14 0) = 0xEEF80A10 ∧
    (∀ e ∈ vfpReads, outcome (e.1 s) (wrote s rt (e.2.1 s)) (exec (e.2.2 cond rt) s)) ∧
    (∀ e ∈ vfpWrites, outcome (e.1 s) { e.2.1 s (s.reg rt) with pc := nextPc s } (exec (e.2.2 cond rt) s)) ∧
    (vfpGate s = true → vfpOn s = true → exec (.fmstat cond) s = .next { skipped s with
      cpsr := flagged s.cpsr (s.vfp.fpscr.getLsbD 31) (s.vfp.fpscr.getLsbD 30) (s.vfp.fpscr.getLsbD 29)
        (s.vfp.fpscr.getLsbD 28) }) ∧
    (vfpGate s = false ∨ vfpOn s = false → ∃ t, exec (.fmstat cond) s = .next t ∧ Undefined s t)

/-- The classes without a meaning of their own (R1591, R1802; decision D15 of the spec, log 25). -/
def Obligations.CoprocessorClasses : Prop :=
  ∀ (cond a b c d e : BitVec 4) (o3 q3 : BitVec 3) (l p u dd w : BitVec 1) (b25 : BitVec 25) (b24 : BitVec 24)
      (b28 : BitVec 28) (b20 : BitVec 20) (b12 : BitVec 12) (b13 : BitVec 13) (b9 : BitVec 9) (b8 : BitVec 8) (s : State),
    condPassed cond s = true →
    (∀ i ∈ [Instr.asimdData b25, .asimdLoadStore o3 b20, .vfpData cond b12 a b, .vfpTransfer cond b12 a b,
        .vfpLoadStore cond b13 b9],
      (vfpGate s = true → vfpOn s = true → exec i s = .refused .neonVfpInstruction) ∧
      (vfpGate s = false ∨ vfpOn s = false → ∃ t, exec i s = .next t ∧ Undefined s t)) ∧
    (∀ i ∈ [Instr.vfpSysOther cond l a b, .p14DebugOther cond l a b o3 c, .p14TeeOther cond l a b o3 c,
        .p14Other cond o3 l a b q3 c, .p15Other cond o3 l a b q3 c, .coproc2LoadStore b25, .coproc2Reg b24,
        .uncondOther b28, .mcrOther cond o3 a b c q3 d, .mrcOther cond o3 a b c q3 d, .cdpAny cond a b c d o3 e,
        .mcrrAny cond a b c d e, .mrrcAny cond a b c d e, .ldcStcOther cond p u dd w l a b c b8],
      ∃ t, exec i s = .next t ∧ Undefined s t)

/-- The reset values the spec gives (70_reset_and_hazards.md R2212 to R2217; 10_state.md R98). -/
def Obligations.ResetValues : Prop :=
  ∀ (k : Build) (p : Straps),
    let s := State.resetWith k p
    s.pc = (if p.vinithi then 0xFFFF0000 else 0) ∧ s.mode = .svc ∧ s.secure = true ∧
    s.cpsr.getLsbD 8 = true ∧ s.cpsr.getLsbD 7 = true ∧ s.cpsr.getLsbD 6 = true ∧ s.cpsr.getLsbD 24 = false ∧
    s.cpsr.getLsbD 5 = p.cfgte ∧ s.cpsr.getLsbD 9 = p.cfgend0 ∧
    s.sys.scr = 0 ∧ s.sys.cpacr = 0 ∧ s.sys.nsacr = 0 ∧ s.sys.sder = 0 ∧ s.sys.l2aux = 0x42 ∧
    (∀ secure, let b := s.bank secure
      b.sctlr &&& ~~~0x4A002000 = 0x00C50078 ∧ b.sctlr.getLsbD 30 = p.cfgte ∧ b.sctlr.getLsbD 27 = p.cfgnmfi ∧
      b.sctlr.getLsbD 25 = p.cfgend0 ∧ b.sctlr.getLsbD 13 = p.vinithi ∧ b.l2en = true ∧
      b.prrr = 0x00098AA4 ∧ b.nmrr = 0x44E048E0 ∧ b.vbar = 0 ∧ b.fcse = 0 ∧ b.par = 0) ∧
    s.pmu.pmnc = 0x41002000 ∧ s.pmu.ccnt = 0 ∧ s.pmu.cnten = 0 ∧ s.pmu.flag = 0 ∧
    s.vfp.fpscr = 0 ∧ s.vfp.fpexc = 0 ∧ s.dbg.dscr = 2 ∧ s.dbg.vcr = 0 ∧ s.dbg.osLock = p.dbgoslockinit ∧
    s.dbg.swLock = true ∧ s.cti.glben = false ∧ s.cti.gate = 0xF ∧ s.ple.userAcc = 0 ∧
    (∀ c : Fin 2, s.ple.chan[c].status = 0) ∧ s.excl = none ∧ s.abortPending = none ∧ s.run = .running ∧
    (∀ i : Fin 32, s.itlb[i] = none ∧ s.dtlb[i] = none)

/-- The invariant of StepKeepsInvariant holds after reset. The canonical form of memory is the model's (log 2, log 14). -/
def Obligations.ResetInvariant : Prop := Inv State.reset ∧ ∀ (k : Build) (p : Straps), Inv (State.resetWith k p)

/-- The invariant of the machine: a mode of R53, the pc alignment of R60; the canonical form of memory is the model's (log 14). -/
def Obligations.StepKeepsInvariant : Prop := ∀ s t : State, Inv s → step s = .next t → Inv t

/-- User mode is left only by exceptions (10_state.md R53, R77; 60_exceptions.md R1905). -/
def Obligations.UserModeEscape : Prop :=
  ∀ (i : Instr) (s t : State), s.mode = .usr → s.halted = false → exec i s = .next t →
    t.mode = .usr ∨ t.spsr? = some s.cpsr

/-- The registers of the Secure state that Nonsecure software cannot write (61_security_privilege.md; 11_cp15_id.md R152,
R154); of memory, TLBs and caches it says nothing. -/
def Obligations.NonsecureIsolation : Prop :=
  ∀ (i : Instr) (s t : State), s.secure = false → s.halted = false → exec i s = .next t → t.secure = false →
    secureOnly t = secureOnly s

/-- Decode and encode agree (30_encoding.md); the alias rows are log 16. -/
def Obligations.RoundTrip : Prop := ∀ i : Instr, i.wf = true → decodeWord (encode i) = .ok i.canonical

/-- Words the spec prints (30_encoding.md R1380; 95_test_vectors.md part 1). -/
def Obligations.DecodeWords : Prop :=
  ∀ e ∈ [((0xE12FFF1E : Word), Instr.bx 14 14), (0xE3500000, .cmpImm 14 0 0), (0xE3A03003, .movImm 14 0 3 3),
      (0x979FF102, .ldrReg 9 1 1 0 15 15 2 0 2), (0x05813000, .strImm 0 1 1 0 1 3 0), (0xE8BD4070, .ldm 14 0 1 1 13 0x4070),
      (0xEB000116, .bl 14 0x116), (0xE10F0000, .mrs 14 0 0), (0xEE070F95, .mcrIsb 14 0), (0xEE100E15, .mrcDtr 14 0),
      (0xECB05E01, .ldcDtr 14 0 1 1 0 1), (0xE0E10392, .smlal 14 0 1 0 3 2)], decodeWord e.1 = .ok e.2

/-- A step of the core runs the decoded instruction. What instructions do between an exit from Monitor mode and the next ISB or
exception is Unpredictable (61_security_privilege.md R2011); the fault is the model's answer (log 7). -/
def Obligations.StepRunsDecoded : Prop :=
  ∀ (i : Instr) (s : State), Turn s → due s s.pins.fiq 6 = false → due s s.pins.irq 7 = false →
    s.cpsr.getLsbD 5 = false → s.cpsr.getLsbD 24 = false →
    (∀ w s1, fetchChecked s.pc s = .ok w s1 → s1.abortDue = none → decodeWord w = .ok i →
      (s1.monitorLeft = false → step s = afterwards (afterwards (exec i s1) (retire s1)) settleDebug) ∧
      (s1.monitorLeft = true → ∀ t, exec i s1 = .next t →
        step s = if t.monitorLeft then .fault .monitorExit else .next (settleDebug (retire s1 t)))) ∧
    (Direct s → s.l1i = [] → s.l2 = [] → s.late = [] → s.abortDue = none → s.monitorLeft = false →
      decodeWord (BitVec.ofNat 32 (numberLE (bytesAt s s.pc 4))) = .ok i →
      step s = afterwards (afterwards (exec i s) (retire s)) settleDebug)

/-- The table of modes and banks (10_state.md R53). -/
def Obligations.BankedRegisters : Prop :=
  ∀ (s : State) (m k : Mode) (n j : BitVec 4) (v : Word),
    (∀ e ∈ [(Mode.usr, 0b10000#5), (.fiq, 0b10001), (.irq, 0b10010), (.svc, 0b10011), (.mon, 0b10110), (.abt, 0b10111),
        (.und, 0b11011), (.sys, 0b11111)], s.cpsr.extractLsb' 0 5 = e.2 → s.mode = e.1) ∧
    (s.privileged = true ↔ s.mode ≠ .usr) ∧ (∀ c, ({ s with cpsr := c } : State).reg 15 = s.reg 15) ∧
    (n ≠ 15 → j ≠ 15 → (s.setRegOf m n v).regOf k j = if n = j ∧ sameBank m k n then v else s.regOf k j) ∧
    (m ≠ .usr → m ≠ .sys → s.mode = m → (s.setSpsr m v).spsr? = some v) ∧
    (s.mode = m → (s.spsr? = none ↔ m = .usr ∨ m = .sys)) ∧
    (s.mode = m → k ≠ m → (s.setSpsr k v).spsr? = s.spsr?)

/-- The memory of the model (20_memory.md R1000, log 2 and log 14). -/
def Obligations.MemoryCanonical : Prop :=
  ∀ m n : List Host.Cell, Memory.wf m = true → Memory.wf n = true →
    ((∀ k, memRead m k = memRead n k) → m = n) ∧
    ∀ (k : Nat) (v : Byte), Memory.wf (memWrite m k v) = true ∧
      (∀ j, memRead (memWrite m k v) j = if j = k then v else memRead m j) ∧
      (memRead n k = v → (∀ j, j ≠ k → memRead n j = memRead m j) → n = memWrite m k v)

/-- Interrupts and the Prefetch Abort (60_exceptions.md R1922, R1923, R1931, R1951). -/
def Obligations.InterruptsAndAborts : Prop :=
  ∀ s : State, Turn s →
    (due s s.pins.fiq 6 = true →
      ∃ u, step s = .next (settled s u) ∧
        (s.sys.scr.getLsbD 2 = false → Entered s u .fiq 0 (s.pc + 4) 0x1C true true) ∧
        (s.sys.scr.getLsbD 2 = true → Entered s u .mon 3 (s.pc + 4) 0x1C true true)) ∧
    (due s s.pins.fiq 6 = false → due s s.pins.irq 7 = true →
      ∃ u, step s = .next (settled s u) ∧
        (s.sys.scr.getLsbD 1 = false → Entered s u .irq 1 (s.pc + 4) 0x18 true false) ∧
        (s.sys.scr.getLsbD 1 = true → Entered s u .mon 3 (s.pc + 4) 0x18 true true)) ∧
    (due s s.pins.fiq 6 = false → due s s.pins.irq 7 = false → s.cpsr.getLsbD 5 = false → s.cpsr.getLsbD 24 = false →
      ∀ a s1, fetchChecked s.pc s = .abort a s1 → s1.abortRouted a = false →
        let b := { s1.cur with ifsr := faultStatus a.status false a.slave 0, ifar := a.mva &&& 0xFFFFFFFE }
        ∃ u, step s = .next (settled s1 u) ∧
          Entered { s1 with
            happened := seen s1 0x01
            sec := if s1.secure then b else s1.sec
            nsec := if s1.secure then s1.nsec else b } u .abt 4 (s1.pc + 4) 0x0C true false)

/-- The walk, the domain check and the permission check of a section (21_mmu.md R1112 to R1135), and the operations that ask for
a translation with the MMU on: the TLB preload makes the entry without a check (14_cp15_tlb_ple_misc.md R473, R474), the VA to PA
operations write PAR (13_cp15_maint_pmu.md R366 to R370). No store is late (log 50); PAR.NS of the other state is free (log 18). -/
def Obligations.SectionTranslation : Prop :=
  ∀ (s : State) (secure priv : Bool) (kind : XKind) (mva : Word),
    let b := s.bank secure
    b.sctlr.getLsbD 0 = true → b.sctlr.getLsbD 2 = false → b.sctlr.getLsbD 25 = false → b.sctlr.getLsbD 29 = false →
    b.ttbcr = 0 → s.bus = [] → NoPort s → s.late = [] →
    tlbHits (if kind = .fetch then s.itlb else s.dtlb) mva (b.contextidr.extractLsb' 0 8) secure = [] →
    let at' (i : Nat) : Byte :=
      memRead s.mem (memKey (!secure) ((b.ttbr0.extractLsb' 14 18 ++ mva.extractLsb' 20 12 ++ 0#2) + BitVec.ofNat 32 i))
    let d : Word := at' 3 ++ at' 2 ++ at' 1 ++ at' 0
    let dom : BitVec 4 := d.extractLsb' 5 4
    let access : BitVec 2 := (b.dacr >>> (2 * dom.toNat)).extractLsb' 0 2
    let permitted : Prop :=
      access = 3 ∨ access = 1 ∧ permits (d.extractLsb' 15 1 ++ d.extractLsb' 10 2) (d.getLsbD 4) priv kind = true
    let pa : Word := d.extractLsb' 20 12 ++ mva.extractLsb' 0 20
    let ns : Bool := !secure || d.getLsbD 19
    let fails (status : BitVec 5) (domain : Option (BitVec 4)) (r : Acc Phys) : Prop :=
      ∃ t, r = .abort ⟨mva, kind == .write, status, domain, false, false, false, false⟩ t ∧ FilledTlb s t
    let r := Machine.translate s secure priv kind mva
    (d.extractLsb' 0 2 = 0 ∨ d.extractLsb' 0 2 = 3 →
      r = .abort ⟨mva, kind == .write, 0b00101, none, false, false, false, false⟩ s) ∧
    (d.extractLsb' 0 2 = 2 → d.getLsbD 18 = false →
      (access = 0 ∨ access = 2 → fails 0b01001 (some dom) r) ∧
      (access = 1 → permits (d.extractLsb' 15 1 ++ d.extractLsb' 10 2) (d.getLsbD 4) priv kind = false →
        fails 0b01101 (some dom) r) ∧
      (permitted → ∃ attrs t, r = .ok ⟨ns, pa, attrs⟩ t ∧ FilledTlb s t)) ∧
    ∀ cond rt : BitVec 4, condPassed cond s = true → rt ≠ 15 → mvaOf b (s.reg rt) = mva →
      (secure = s.secure → nsacrRight 17 s = true → d.extractLsb' 0 2 = 2 → d.getLsbD 18 = false →
        (kind = .read → ∃ t, FilledTlb s t ∧ HoldsSection t.dtlb s.sys.dtlbLock d mva secure ∧
          exec (.mcrDtlbPreload cond rt) s = .next { t with pc := nextPc s }) ∧
        (kind = .fetch → ∃ t, FilledTlb s t ∧ HoldsSection t.itlb s.sys.itlbLock d mva secure ∧
          exec (.mcrItlbPreload cond rt) s = .next { t with pc := nextPc s })) ∧
      ∀ e ∈ translations, e.1.2 = (priv, kind) → secure = (s.secure && !e.1.1) →
        (if e.1.1 then secureRight s else privilegedRight s) = true →
        let done (t : State) (par : Word) : Prop :=
          exec (e.2 cond rt) s = .next { withPar t par with draws := t.draws + 1, pc := nextPc s }
        (d.extractLsb' 0 2 = 0 ∨ d.extractLsb' 0 2 = 3 → done s 0x0B) ∧
        (d.extractLsb' 0 2 = 2 → d.getLsbD 18 = false → ∃ t par, FilledTlb s t ∧ done t par ∧
          (access = 0 ∨ access = 2 → par = 0x13) ∧
          (access = 1 → permits (d.extractLsb' 15 1 ++ d.extractLsb' 10 2) (d.getLsbD 4) priv kind = false → par = 0x1B) ∧
          (permitted → par.extractLsb' 12 20 = pa.extractLsb' 12 20 ∧ par.extractLsb' 0 2 = 0 ∧
            par.getLsbD 9 = if e.1.1 then (Config.freeWord (s.draws + 1)).getLsbD 0 else ns))

end
end

