-- ==== Sys2Proof/Laws/State.lean ====
section
/-! SUPPORT. What each small update of the state leaves in each field. -/

namespace Sys2Proof.Machine

/-! ## `State.drawn` -/

@[simp] theorem State.drawn_gpr (s : State) : (s.drawn).gpr = s.gpr := rfl
@[simp] theorem State.drawn_pc (s : State) : (s.drawn).pc = s.pc := rfl
@[simp] theorem State.drawn_cpsr (s : State) : (s.drawn).cpsr = s.cpsr := rfl
@[simp] theorem State.drawn_spsr (s : State) : (s.drawn).spsr = s.spsr := rfl
@[simp] theorem State.drawn_sys (s : State) : (s.drawn).sys = s.sys := rfl
@[simp] theorem State.drawn_sec (s : State) : (s.drawn).sec = s.sec := rfl
@[simp] theorem State.drawn_nsec (s : State) : (s.drawn).nsec = s.nsec := rfl
@[simp] theorem State.drawn_pmu (s : State) : (s.drawn).pmu = s.pmu := rfl
@[simp] theorem State.drawn_ple (s : State) : (s.drawn).ple = s.ple := rfl
@[simp] theorem State.drawn_vfp (s : State) : (s.drawn).vfp = s.vfp := rfl
@[simp] theorem State.drawn_mem (s : State) : (s.drawn).mem = s.mem := rfl
@[simp] theorem State.drawn_bus (s : State) : (s.drawn).bus = s.bus := rfl
@[simp] theorem State.drawn_itlb (s : State) : (s.drawn).itlb = s.itlb := rfl
@[simp] theorem State.drawn_dtlb (s : State) : (s.drawn).dtlb = s.dtlb := rfl
@[simp] theorem State.drawn_l1i (s : State) : (s.drawn).l1i = s.l1i := rfl
@[simp] theorem State.drawn_l1d (s : State) : (s.drawn).l1d = s.l1d := rfl
@[simp] theorem State.drawn_l2 (s : State) : (s.drawn).l2 = s.l2 := rfl
@[simp] theorem State.drawn_excl (s : State) : (s.drawn).excl = s.excl := rfl
@[simp] theorem State.drawn_exclRefused (s : State) : (s.drawn).exclRefused = s.exclRefused := rfl
@[simp] theorem State.drawn_dbg (s : State) : (s.drawn).dbg = s.dbg := rfl
@[simp] theorem State.drawn_cti (s : State) : (s.drawn).cti = s.cti := rfl
@[simp] theorem State.drawn_etm (s : State) : (s.drawn).etm = s.etm := rfl
@[simp] theorem State.drawn_pins (s : State) : (s.drawn).pins = s.pins := rfl
@[simp] theorem State.drawn_run (s : State) : (s.drawn).run = s.run := rfl
@[simp] theorem State.drawn_held (s : State) : (s.drawn).held = s.held := rfl
@[simp] theorem State.drawn_abortPending (s : State) : (s.drawn).abortPending = s.abortPending := rfl
@[simp] theorem State.drawn_parityNext (s : State) : (s.drawn).parityNext = s.parityNext := rfl
@[simp] theorem State.drawn_build (s : State) : (s.drawn).build = s.build := rfl
@[simp] theorem State.drawn_abortHeld (s : State) : (s.drawn).abortHeld = s.abortHeld := rfl
@[simp] theorem State.drawn_monitorLeft (s : State) : (s.drawn).monitorLeft = s.monitorLeft := rfl
@[simp] theorem State.drawn_walkParityNext (s : State) : (s.drawn).walkParityNext = s.walkParityNext := rfl
@[simp] theorem State.drawn_late (s : State) : (s.drawn).late = s.late := rfl
@[simp] theorem State.drawn_gaps (s : State) : (s.drawn).gaps = s.gaps := rfl
@[simp] theorem State.drawn_happened (s : State) : (s.drawn).happened = s.happened := rfl
@[simp] theorem State.drawn_draws (s : State) : (s.drawn).draws = s.draws + 1 := rfl
@[simp] theorem State.drawn_schedule (s : State) : (s.drawn).schedule = s.schedule := rfl

/-! ## `State.note` -/

@[simp] theorem State.note_gpr (s : State) (e : Nat) : (s.note e).gpr = s.gpr := rfl
@[simp] theorem State.note_pc (s : State) (e : Nat) : (s.note e).pc = s.pc := rfl
@[simp] theorem State.note_cpsr (s : State) (e : Nat) : (s.note e).cpsr = s.cpsr := rfl
@[simp] theorem State.note_spsr (s : State) (e : Nat) : (s.note e).spsr = s.spsr := rfl
@[simp] theorem State.note_sys (s : State) (e : Nat) : (s.note e).sys = s.sys := rfl
@[simp] theorem State.note_sec (s : State) (e : Nat) : (s.note e).sec = s.sec := rfl
@[simp] theorem State.note_nsec (s : State) (e : Nat) : (s.note e).nsec = s.nsec := rfl
@[simp] theorem State.note_pmu (s : State) (e : Nat) : (s.note e).pmu = s.pmu := rfl
@[simp] theorem State.note_ple (s : State) (e : Nat) : (s.note e).ple = s.ple := rfl
@[simp] theorem State.note_vfp (s : State) (e : Nat) : (s.note e).vfp = s.vfp := rfl
@[simp] theorem State.note_mem (s : State) (e : Nat) : (s.note e).mem = s.mem := rfl
@[simp] theorem State.note_bus (s : State) (e : Nat) : (s.note e).bus = s.bus := rfl
@[simp] theorem State.note_itlb (s : State) (e : Nat) : (s.note e).itlb = s.itlb := rfl
@[simp] theorem State.note_dtlb (s : State) (e : Nat) : (s.note e).dtlb = s.dtlb := rfl
@[simp] theorem State.note_l1i (s : State) (e : Nat) : (s.note e).l1i = s.l1i := rfl
@[simp] theorem State.note_l1d (s : State) (e : Nat) : (s.note e).l1d = s.l1d := rfl
@[simp] theorem State.note_l2 (s : State) (e : Nat) : (s.note e).l2 = s.l2 := rfl
@[simp] theorem State.note_excl (s : State) (e : Nat) : (s.note e).excl = s.excl := rfl
@[simp] theorem State.note_exclRefused (s : State) (e : Nat) : (s.note e).exclRefused = s.exclRefused := rfl
@[simp] theorem State.note_dbg (s : State) (e : Nat) : (s.note e).dbg = s.dbg := rfl
@[simp] theorem State.note_cti (s : State) (e : Nat) : (s.note e).cti = s.cti := rfl
@[simp] theorem State.note_etm (s : State) (e : Nat) : (s.note e).etm = s.etm := rfl
@[simp] theorem State.note_pins (s : State) (e : Nat) : (s.note e).pins = s.pins := rfl
@[simp] theorem State.note_run (s : State) (e : Nat) : (s.note e).run = s.run := rfl
@[simp] theorem State.note_held (s : State) (e : Nat) : (s.note e).held = s.held := rfl
@[simp] theorem State.note_abortPending (s : State) (e : Nat) : (s.note e).abortPending = s.abortPending := rfl
@[simp] theorem State.note_parityNext (s : State) (e : Nat) : (s.note e).parityNext = s.parityNext := rfl
@[simp] theorem State.note_build (s : State) (e : Nat) : (s.note e).build = s.build := rfl
@[simp] theorem State.note_abortHeld (s : State) (e : Nat) : (s.note e).abortHeld = s.abortHeld := rfl
@[simp] theorem State.note_monitorLeft (s : State) (e : Nat) : (s.note e).monitorLeft = s.monitorLeft := rfl
@[simp] theorem State.note_walkParityNext (s : State) (e : Nat) : (s.note e).walkParityNext = s.walkParityNext := rfl
@[simp] theorem State.note_late (s : State) (e : Nat) : (s.note e).late = s.late := rfl
@[simp] theorem State.note_gaps (s : State) (e : Nat) : (s.note e).gaps = s.gaps := rfl
@[simp] theorem State.note_happened (s : State) (e : Nat) : (s.note e).happened = s.happened ||| BitVec.twoPow 16 e := rfl
@[simp] theorem State.note_draws (s : State) (e : Nat) : (s.note e).draws = s.draws := rfl
@[simp] theorem State.note_schedule (s : State) (e : Nat) : (s.note e).schedule = s.schedule := rfl

/-! ## `State.setRegOf` -/

@[simp] theorem State.setRegOf_gpr (s : State) (m : Mode) (n : BitVec 4) (v : Word) : (s.setRegOf m n v).gpr = s.gpr.set (physReg m n) v (physReg m n).isLt := rfl
@[simp] theorem State.setRegOf_pc (s : State) (m : Mode) (n : BitVec 4) (v : Word) : (s.setRegOf m n v).pc = s.pc := rfl
@[simp] theorem State.setRegOf_cpsr (s : State) (m : Mode) (n : BitVec 4) (v : Word) : (s.setRegOf m n v).cpsr = s.cpsr := rfl
@[simp] theorem State.setRegOf_spsr (s : State) (m : Mode) (n : BitVec 4) (v : Word) : (s.setRegOf m n v).spsr = s.spsr := rfl
@[simp] theorem State.setRegOf_sys (s : State) (m : Mode) (n : BitVec 4) (v : Word) : (s.setRegOf m n v).sys = s.sys := rfl
@[simp] theorem State.setRegOf_sec (s : State) (m : Mode) (n : BitVec 4) (v : Word) : (s.setRegOf m n v).sec = s.sec := rfl
@[simp] theorem State.setRegOf_nsec (s : State) (m : Mode) (n : BitVec 4) (v : Word) : (s.setRegOf m n v).nsec = s.nsec := rfl
@[simp] theorem State.setRegOf_pmu (s : State) (m : Mode) (n : BitVec 4) (v : Word) : (s.setRegOf m n v).pmu = s.pmu := rfl
@[simp] theorem State.setRegOf_ple (s : State) (m : Mode) (n : BitVec 4) (v : Word) : (s.setRegOf m n v).ple = s.ple := rfl
@[simp] theorem State.setRegOf_vfp (s : State) (m : Mode) (n : BitVec 4) (v : Word) : (s.setRegOf m n v).vfp = s.vfp := rfl
@[simp] theorem State.setRegOf_mem (s : State) (m : Mode) (n : BitVec 4) (v : Word) : (s.setRegOf m n v).mem = s.mem := rfl
@[simp] theorem State.setRegOf_bus (s : State) (m : Mode) (n : BitVec 4) (v : Word) : (s.setRegOf m n v).bus = s.bus := rfl
@[simp] theorem State.setRegOf_itlb (s : State) (m : Mode) (n : BitVec 4) (v : Word) : (s.setRegOf m n v).itlb = s.itlb := rfl
@[simp] theorem State.setRegOf_dtlb (s : State) (m : Mode) (n : BitVec 4) (v : Word) : (s.setRegOf m n v).dtlb = s.dtlb := rfl
@[simp] theorem State.setRegOf_l1i (s : State) (m : Mode) (n : BitVec 4) (v : Word) : (s.setRegOf m n v).l1i = s.l1i := rfl
@[simp] theorem State.setRegOf_l1d (s : State) (m : Mode) (n : BitVec 4) (v : Word) : (s.setRegOf m n v).l1d = s.l1d := rfl
@[simp] theorem State.setRegOf_l2 (s : State) (m : Mode) (n : BitVec 4) (v : Word) : (s.setRegOf m n v).l2 = s.l2 := rfl
@[simp] theorem State.setRegOf_excl (s : State) (m : Mode) (n : BitVec 4) (v : Word) : (s.setRegOf m n v).excl = s.excl := rfl
@[simp] theorem State.setRegOf_exclRefused (s : State) (m : Mode) (n : BitVec 4) (v : Word) : (s.setRegOf m n v).exclRefused = s.exclRefused := rfl
@[simp] theorem State.setRegOf_dbg (s : State) (m : Mode) (n : BitVec 4) (v : Word) : (s.setRegOf m n v).dbg = s.dbg := rfl
@[simp] theorem State.setRegOf_cti (s : State) (m : Mode) (n : BitVec 4) (v : Word) : (s.setRegOf m n v).cti = s.cti := rfl
@[simp] theorem State.setRegOf_etm (s : State) (m : Mode) (n : BitVec 4) (v : Word) : (s.setRegOf m n v).etm = s.etm := rfl
@[simp] theorem State.setRegOf_pins (s : State) (m : Mode) (n : BitVec 4) (v : Word) : (s.setRegOf m n v).pins = s.pins := rfl
@[simp] theorem State.setRegOf_run (s : State) (m : Mode) (n : BitVec 4) (v : Word) : (s.setRegOf m n v).run = s.run := rfl
@[simp] theorem State.setRegOf_held (s : State) (m : Mode) (n : BitVec 4) (v : Word) : (s.setRegOf m n v).held = s.held := rfl
@[simp] theorem State.setRegOf_abortPending (s : State) (m : Mode) (n : BitVec 4) (v : Word) : (s.setRegOf m n v).abortPending = s.abortPending := rfl
@[simp] theorem State.setRegOf_parityNext (s : State) (m : Mode) (n : BitVec 4) (v : Word) : (s.setRegOf m n v).parityNext = s.parityNext := rfl
@[simp] theorem State.setRegOf_build (s : State) (m : Mode) (n : BitVec 4) (v : Word) : (s.setRegOf m n v).build = s.build := rfl
@[simp] theorem State.setRegOf_abortHeld (s : State) (m : Mode) (n : BitVec 4) (v : Word) : (s.setRegOf m n v).abortHeld = s.abortHeld := rfl
@[simp] theorem State.setRegOf_monitorLeft (s : State) (m : Mode) (n : BitVec 4) (v : Word) : (s.setRegOf m n v).monitorLeft = s.monitorLeft := rfl
@[simp] theorem State.setRegOf_walkParityNext (s : State) (m : Mode) (n : BitVec 4) (v : Word) : (s.setRegOf m n v).walkParityNext = s.walkParityNext := rfl
@[simp] theorem State.setRegOf_late (s : State) (m : Mode) (n : BitVec 4) (v : Word) : (s.setRegOf m n v).late = s.late := rfl
@[simp] theorem State.setRegOf_gaps (s : State) (m : Mode) (n : BitVec 4) (v : Word) : (s.setRegOf m n v).gaps = s.gaps := rfl
@[simp] theorem State.setRegOf_happened (s : State) (m : Mode) (n : BitVec 4) (v : Word) : (s.setRegOf m n v).happened = s.happened := rfl
@[simp] theorem State.setRegOf_draws (s : State) (m : Mode) (n : BitVec 4) (v : Word) : (s.setRegOf m n v).draws = s.draws := rfl
@[simp] theorem State.setRegOf_schedule (s : State) (m : Mode) (n : BitVec 4) (v : Word) : (s.setRegOf m n v).schedule = s.schedule := rfl

/-! ## `State.setReg` -/

@[simp] theorem State.setReg_pc (s : State) (n : BitVec 4) (v : Word) : (s.setReg n v).pc = s.pc := by
  unfold State.setReg; split <;> rfl
@[simp] theorem State.setReg_cpsr (s : State) (n : BitVec 4) (v : Word) : (s.setReg n v).cpsr = s.cpsr := by
  unfold State.setReg; split <;> rfl
@[simp] theorem State.setReg_spsr (s : State) (n : BitVec 4) (v : Word) : (s.setReg n v).spsr = s.spsr := by
  unfold State.setReg; split <;> rfl
@[simp] theorem State.setReg_sys (s : State) (n : BitVec 4) (v : Word) : (s.setReg n v).sys = s.sys := by
  unfold State.setReg; split <;> rfl
@[simp] theorem State.setReg_sec (s : State) (n : BitVec 4) (v : Word) : (s.setReg n v).sec = s.sec := by
  unfold State.setReg; split <;> rfl
@[simp] theorem State.setReg_nsec (s : State) (n : BitVec 4) (v : Word) : (s.setReg n v).nsec = s.nsec := by
  unfold State.setReg; split <;> rfl
@[simp] theorem State.setReg_pmu (s : State) (n : BitVec 4) (v : Word) : (s.setReg n v).pmu = s.pmu := by
  unfold State.setReg; split <;> rfl
@[simp] theorem State.setReg_ple (s : State) (n : BitVec 4) (v : Word) : (s.setReg n v).ple = s.ple := by
  unfold State.setReg; split <;> rfl
@[simp] theorem State.setReg_vfp (s : State) (n : BitVec 4) (v : Word) : (s.setReg n v).vfp = s.vfp := by
  unfold State.setReg; split <;> rfl
@[simp] theorem State.setReg_mem (s : State) (n : BitVec 4) (v : Word) : (s.setReg n v).mem = s.mem := by
  unfold State.setReg; split <;> rfl
@[simp] theorem State.setReg_bus (s : State) (n : BitVec 4) (v : Word) : (s.setReg n v).bus = s.bus := by
  unfold State.setReg; split <;> rfl
@[simp] theorem State.setReg_itlb (s : State) (n : BitVec 4) (v : Word) : (s.setReg n v).itlb = s.itlb := by
  unfold State.setReg; split <;> rfl
@[simp] theorem State.setReg_dtlb (s : State) (n : BitVec 4) (v : Word) : (s.setReg n v).dtlb = s.dtlb := by
  unfold State.setReg; split <;> rfl
@[simp] theorem State.setReg_l1i (s : State) (n : BitVec 4) (v : Word) : (s.setReg n v).l1i = s.l1i := by
  unfold State.setReg; split <;> rfl
@[simp] theorem State.setReg_l1d (s : State) (n : BitVec 4) (v : Word) : (s.setReg n v).l1d = s.l1d := by
  unfold State.setReg; split <;> rfl
@[simp] theorem State.setReg_l2 (s : State) (n : BitVec 4) (v : Word) : (s.setReg n v).l2 = s.l2 := by
  unfold State.setReg; split <;> rfl
@[simp] theorem State.setReg_excl (s : State) (n : BitVec 4) (v : Word) : (s.setReg n v).excl = s.excl := by
  unfold State.setReg; split <;> rfl
@[simp] theorem State.setReg_exclRefused (s : State) (n : BitVec 4) (v : Word) : (s.setReg n v).exclRefused = s.exclRefused := by
  unfold State.setReg; split <;> rfl
@[simp] theorem State.setReg_dbg (s : State) (n : BitVec 4) (v : Word) : (s.setReg n v).dbg = s.dbg := by
  unfold State.setReg; split <;> rfl
@[simp] theorem State.setReg_cti (s : State) (n : BitVec 4) (v : Word) : (s.setReg n v).cti = s.cti := by
  unfold State.setReg; split <;> rfl
@[simp] theorem State.setReg_etm (s : State) (n : BitVec 4) (v : Word) : (s.setReg n v).etm = s.etm := by
  unfold State.setReg; split <;> rfl
@[simp] theorem State.setReg_pins (s : State) (n : BitVec 4) (v : Word) : (s.setReg n v).pins = s.pins := by
  unfold State.setReg; split <;> rfl
@[simp] theorem State.setReg_run (s : State) (n : BitVec 4) (v : Word) : (s.setReg n v).run = s.run := by
  unfold State.setReg; split <;> rfl
@[simp] theorem State.setReg_held (s : State) (n : BitVec 4) (v : Word) : (s.setReg n v).held = s.held := by
  unfold State.setReg; split <;> rfl
@[simp] theorem State.setReg_abortPending (s : State) (n : BitVec 4) (v : Word) : (s.setReg n v).abortPending = s.abortPending := by
  unfold State.setReg; split <;> rfl
@[simp] theorem State.setReg_parityNext (s : State) (n : BitVec 4) (v : Word) : (s.setReg n v).parityNext = s.parityNext := by
  unfold State.setReg; split <;> rfl
@[simp] theorem State.setReg_build (s : State) (n : BitVec 4) (v : Word) : (s.setReg n v).build = s.build := by
  unfold State.setReg; split <;> rfl
@[simp] theorem State.setReg_abortHeld (s : State) (n : BitVec 4) (v : Word) : (s.setReg n v).abortHeld = s.abortHeld := by
  unfold State.setReg; split <;> rfl
@[simp] theorem State.setReg_monitorLeft (s : State) (n : BitVec 4) (v : Word) : (s.setReg n v).monitorLeft = s.monitorLeft := by
  unfold State.setReg; split <;> rfl
@[simp] theorem State.setReg_walkParityNext (s : State) (n : BitVec 4) (v : Word) : (s.setReg n v).walkParityNext = s.walkParityNext := by
  unfold State.setReg; split <;> rfl
@[simp] theorem State.setReg_late (s : State) (n : BitVec 4) (v : Word) : (s.setReg n v).late = s.late := by
  unfold State.setReg; split <;> rfl
@[simp] theorem State.setReg_gaps (s : State) (n : BitVec 4) (v : Word) : (s.setReg n v).gaps = s.gaps := by
  unfold State.setReg; split <;> rfl
@[simp] theorem State.setReg_happened (s : State) (n : BitVec 4) (v : Word) : (s.setReg n v).happened = s.happened := by
  unfold State.setReg; split <;> rfl
@[simp] theorem State.setReg_draws (s : State) (n : BitVec 4) (v : Word) : (s.setReg n v).draws = s.draws := by
  unfold State.setReg; split <;> rfl
@[simp] theorem State.setReg_schedule (s : State) (n : BitVec 4) (v : Word) : (s.setReg n v).schedule = s.schedule := by
  unfold State.setReg; split <;> rfl

/-! ## `State.advance` -/

@[simp] theorem State.advance_gpr (s : State) : (s.advance).gpr = s.gpr := by
  unfold State.advance; split <;> rfl
@[simp] theorem State.advance_cpsr (s : State) : (s.advance).cpsr = s.cpsr := by
  unfold State.advance; split <;> rfl
@[simp] theorem State.advance_spsr (s : State) : (s.advance).spsr = s.spsr := by
  unfold State.advance; split <;> rfl
@[simp] theorem State.advance_sys (s : State) : (s.advance).sys = s.sys := by
  unfold State.advance; split <;> rfl
@[simp] theorem State.advance_sec (s : State) : (s.advance).sec = s.sec := by
  unfold State.advance; split <;> rfl
@[simp] theorem State.advance_nsec (s : State) : (s.advance).nsec = s.nsec := by
  unfold State.advance; split <;> rfl
@[simp] theorem State.advance_pmu (s : State) : (s.advance).pmu = s.pmu := by
  unfold State.advance; split <;> rfl
@[simp] theorem State.advance_ple (s : State) : (s.advance).ple = s.ple := by
  unfold State.advance; split <;> rfl
@[simp] theorem State.advance_vfp (s : State) : (s.advance).vfp = s.vfp := by
  unfold State.advance; split <;> rfl
@[simp] theorem State.advance_mem (s : State) : (s.advance).mem = s.mem := by
  unfold State.advance; split <;> rfl
@[simp] theorem State.advance_bus (s : State) : (s.advance).bus = s.bus := by
  unfold State.advance; split <;> rfl
@[simp] theorem State.advance_itlb (s : State) : (s.advance).itlb = s.itlb := by
  unfold State.advance; split <;> rfl
@[simp] theorem State.advance_dtlb (s : State) : (s.advance).dtlb = s.dtlb := by
  unfold State.advance; split <;> rfl
@[simp] theorem State.advance_l1i (s : State) : (s.advance).l1i = s.l1i := by
  unfold State.advance; split <;> rfl
@[simp] theorem State.advance_l1d (s : State) : (s.advance).l1d = s.l1d := by
  unfold State.advance; split <;> rfl
@[simp] theorem State.advance_l2 (s : State) : (s.advance).l2 = s.l2 := by
  unfold State.advance; split <;> rfl
@[simp] theorem State.advance_excl (s : State) : (s.advance).excl = s.excl := by
  unfold State.advance; split <;> rfl
@[simp] theorem State.advance_exclRefused (s : State) : (s.advance).exclRefused = s.exclRefused := by
  unfold State.advance; split <;> rfl
@[simp] theorem State.advance_dbg (s : State) : (s.advance).dbg = s.dbg := by
  unfold State.advance; split <;> rfl
@[simp] theorem State.advance_cti (s : State) : (s.advance).cti = s.cti := by
  unfold State.advance; split <;> rfl
@[simp] theorem State.advance_etm (s : State) : (s.advance).etm = s.etm := by
  unfold State.advance; split <;> rfl
@[simp] theorem State.advance_pins (s : State) : (s.advance).pins = s.pins := by
  unfold State.advance; split <;> rfl
@[simp] theorem State.advance_run (s : State) : (s.advance).run = s.run := by
  unfold State.advance; split <;> rfl
@[simp] theorem State.advance_held (s : State) : (s.advance).held = s.held := by
  unfold State.advance; split <;> rfl
@[simp] theorem State.advance_abortPending (s : State) : (s.advance).abortPending = s.abortPending := by
  unfold State.advance; split <;> rfl
@[simp] theorem State.advance_parityNext (s : State) : (s.advance).parityNext = s.parityNext := by
  unfold State.advance; split <;> rfl
@[simp] theorem State.advance_build (s : State) : (s.advance).build = s.build := by
  unfold State.advance; split <;> rfl
@[simp] theorem State.advance_abortHeld (s : State) : (s.advance).abortHeld = s.abortHeld := by
  unfold State.advance; split <;> rfl
@[simp] theorem State.advance_monitorLeft (s : State) : (s.advance).monitorLeft = s.monitorLeft := by
  unfold State.advance; split <;> rfl
@[simp] theorem State.advance_walkParityNext (s : State) : (s.advance).walkParityNext = s.walkParityNext := by
  unfold State.advance; split <;> rfl
@[simp] theorem State.advance_late (s : State) : (s.advance).late = s.late := by
  unfold State.advance; split <;> rfl
@[simp] theorem State.advance_gaps (s : State) : (s.advance).gaps = s.gaps := by
  unfold State.advance; split <;> rfl
@[simp] theorem State.advance_happened (s : State) : (s.advance).happened = s.happened := by
  unfold State.advance; split <;> rfl
@[simp] theorem State.advance_draws (s : State) : (s.advance).draws = s.draws := by
  unfold State.advance; split <;> rfl
@[simp] theorem State.advance_schedule (s : State) : (s.advance).schedule = s.schedule := by
  unfold State.advance; split <;> rfl

/-! ## `State.setSpsr` -/

@[simp] theorem State.setSpsr_gpr (s : State) (m : Mode) (v : Word) : (s.setSpsr m v).gpr = s.gpr := by
  unfold State.setSpsr; split <;> rfl
@[simp] theorem State.setSpsr_pc (s : State) (m : Mode) (v : Word) : (s.setSpsr m v).pc = s.pc := by
  unfold State.setSpsr; split <;> rfl
@[simp] theorem State.setSpsr_cpsr (s : State) (m : Mode) (v : Word) : (s.setSpsr m v).cpsr = s.cpsr := by
  unfold State.setSpsr; split <;> rfl
@[simp] theorem State.setSpsr_sys (s : State) (m : Mode) (v : Word) : (s.setSpsr m v).sys = s.sys := by
  unfold State.setSpsr; split <;> rfl
@[simp] theorem State.setSpsr_sec (s : State) (m : Mode) (v : Word) : (s.setSpsr m v).sec = s.sec := by
  unfold State.setSpsr; split <;> rfl
@[simp] theorem State.setSpsr_nsec (s : State) (m : Mode) (v : Word) : (s.setSpsr m v).nsec = s.nsec := by
  unfold State.setSpsr; split <;> rfl
@[simp] theorem State.setSpsr_pmu (s : State) (m : Mode) (v : Word) : (s.setSpsr m v).pmu = s.pmu := by
  unfold State.setSpsr; split <;> rfl
@[simp] theorem State.setSpsr_ple (s : State) (m : Mode) (v : Word) : (s.setSpsr m v).ple = s.ple := by
  unfold State.setSpsr; split <;> rfl
@[simp] theorem State.setSpsr_vfp (s : State) (m : Mode) (v : Word) : (s.setSpsr m v).vfp = s.vfp := by
  unfold State.setSpsr; split <;> rfl
@[simp] theorem State.setSpsr_mem (s : State) (m : Mode) (v : Word) : (s.setSpsr m v).mem = s.mem := by
  unfold State.setSpsr; split <;> rfl
@[simp] theorem State.setSpsr_bus (s : State) (m : Mode) (v : Word) : (s.setSpsr m v).bus = s.bus := by
  unfold State.setSpsr; split <;> rfl
@[simp] theorem State.setSpsr_itlb (s : State) (m : Mode) (v : Word) : (s.setSpsr m v).itlb = s.itlb := by
  unfold State.setSpsr; split <;> rfl
@[simp] theorem State.setSpsr_dtlb (s : State) (m : Mode) (v : Word) : (s.setSpsr m v).dtlb = s.dtlb := by
  unfold State.setSpsr; split <;> rfl
@[simp] theorem State.setSpsr_l1i (s : State) (m : Mode) (v : Word) : (s.setSpsr m v).l1i = s.l1i := by
  unfold State.setSpsr; split <;> rfl
@[simp] theorem State.setSpsr_l1d (s : State) (m : Mode) (v : Word) : (s.setSpsr m v).l1d = s.l1d := by
  unfold State.setSpsr; split <;> rfl
@[simp] theorem State.setSpsr_l2 (s : State) (m : Mode) (v : Word) : (s.setSpsr m v).l2 = s.l2 := by
  unfold State.setSpsr; split <;> rfl
@[simp] theorem State.setSpsr_excl (s : State) (m : Mode) (v : Word) : (s.setSpsr m v).excl = s.excl := by
  unfold State.setSpsr; split <;> rfl
@[simp] theorem State.setSpsr_exclRefused (s : State) (m : Mode) (v : Word) : (s.setSpsr m v).exclRefused = s.exclRefused := by
  unfold State.setSpsr; split <;> rfl
@[simp] theorem State.setSpsr_dbg (s : State) (m : Mode) (v : Word) : (s.setSpsr m v).dbg = s.dbg := by
  unfold State.setSpsr; split <;> rfl
@[simp] theorem State.setSpsr_cti (s : State) (m : Mode) (v : Word) : (s.setSpsr m v).cti = s.cti := by
  unfold State.setSpsr; split <;> rfl
@[simp] theorem State.setSpsr_etm (s : State) (m : Mode) (v : Word) : (s.setSpsr m v).etm = s.etm := by
  unfold State.setSpsr; split <;> rfl
@[simp] theorem State.setSpsr_pins (s : State) (m : Mode) (v : Word) : (s.setSpsr m v).pins = s.pins := by
  unfold State.setSpsr; split <;> rfl
@[simp] theorem State.setSpsr_run (s : State) (m : Mode) (v : Word) : (s.setSpsr m v).run = s.run := by
  unfold State.setSpsr; split <;> rfl
@[simp] theorem State.setSpsr_held (s : State) (m : Mode) (v : Word) : (s.setSpsr m v).held = s.held := by
  unfold State.setSpsr; split <;> rfl
@[simp] theorem State.setSpsr_abortPending (s : State) (m : Mode) (v : Word) : (s.setSpsr m v).abortPending = s.abortPending := by
  unfold State.setSpsr; split <;> rfl
@[simp] theorem State.setSpsr_parityNext (s : State) (m : Mode) (v : Word) : (s.setSpsr m v).parityNext = s.parityNext := by
  unfold State.setSpsr; split <;> rfl
@[simp] theorem State.setSpsr_build (s : State) (m : Mode) (v : Word) : (s.setSpsr m v).build = s.build := by
  unfold State.setSpsr; split <;> rfl
@[simp] theorem State.setSpsr_abortHeld (s : State) (m : Mode) (v : Word) : (s.setSpsr m v).abortHeld = s.abortHeld := by
  unfold State.setSpsr; split <;> rfl
@[simp] theorem State.setSpsr_monitorLeft (s : State) (m : Mode) (v : Word) : (s.setSpsr m v).monitorLeft = s.monitorLeft := by
  unfold State.setSpsr; split <;> rfl
@[simp] theorem State.setSpsr_walkParityNext (s : State) (m : Mode) (v : Word) : (s.setSpsr m v).walkParityNext = s.walkParityNext := by
  unfold State.setSpsr; split <;> rfl
@[simp] theorem State.setSpsr_late (s : State) (m : Mode) (v : Word) : (s.setSpsr m v).late = s.late := by
  unfold State.setSpsr; split <;> rfl
@[simp] theorem State.setSpsr_gaps (s : State) (m : Mode) (v : Word) : (s.setSpsr m v).gaps = s.gaps := by
  unfold State.setSpsr; split <;> rfl
@[simp] theorem State.setSpsr_happened (s : State) (m : Mode) (v : Word) : (s.setSpsr m v).happened = s.happened := by
  unfold State.setSpsr; split <;> rfl
@[simp] theorem State.setSpsr_draws (s : State) (m : Mode) (v : Word) : (s.setSpsr m v).draws = s.draws := by
  unfold State.setSpsr; split <;> rfl
@[simp] theorem State.setSpsr_schedule (s : State) (m : Mode) (v : Word) : (s.setSpsr m v).schedule = s.schedule := by
  unfold State.setSpsr; split <;> rfl

/-! ## `State.setBank` -/

@[simp] theorem State.setBank_gpr (s : State) (secure : Bool) (b : Banked) : (s.setBank secure b).gpr = s.gpr := by
  unfold State.setBank; split <;> rfl
@[simp] theorem State.setBank_pc (s : State) (secure : Bool) (b : Banked) : (s.setBank secure b).pc = s.pc := by
  unfold State.setBank; split <;> rfl
@[simp] theorem State.setBank_cpsr (s : State) (secure : Bool) (b : Banked) : (s.setBank secure b).cpsr = s.cpsr := by
  unfold State.setBank; split <;> rfl
@[simp] theorem State.setBank_spsr (s : State) (secure : Bool) (b : Banked) : (s.setBank secure b).spsr = s.spsr := by
  unfold State.setBank; split <;> rfl
@[simp] theorem State.setBank_sys (s : State) (secure : Bool) (b : Banked) : (s.setBank secure b).sys = s.sys := by
  unfold State.setBank; split <;> rfl
@[simp] theorem State.setBank_pmu (s : State) (secure : Bool) (b : Banked) : (s.setBank secure b).pmu = s.pmu := by
  unfold State.setBank; split <;> rfl
@[simp] theorem State.setBank_ple (s : State) (secure : Bool) (b : Banked) : (s.setBank secure b).ple = s.ple := by
  unfold State.setBank; split <;> rfl
@[simp] theorem State.setBank_vfp (s : State) (secure : Bool) (b : Banked) : (s.setBank secure b).vfp = s.vfp := by
  unfold State.setBank; split <;> rfl
@[simp] theorem State.setBank_mem (s : State) (secure : Bool) (b : Banked) : (s.setBank secure b).mem = s.mem := by
  unfold State.setBank; split <;> rfl
@[simp] theorem State.setBank_bus (s : State) (secure : Bool) (b : Banked) : (s.setBank secure b).bus = s.bus := by
  unfold State.setBank; split <;> rfl
@[simp] theorem State.setBank_itlb (s : State) (secure : Bool) (b : Banked) : (s.setBank secure b).itlb = s.itlb := by
  unfold State.setBank; split <;> rfl
@[simp] theorem State.setBank_dtlb (s : State) (secure : Bool) (b : Banked) : (s.setBank secure b).dtlb = s.dtlb := by
  unfold State.setBank; split <;> rfl
@[simp] theorem State.setBank_l1i (s : State) (secure : Bool) (b : Banked) : (s.setBank secure b).l1i = s.l1i := by
  unfold State.setBank; split <;> rfl
@[simp] theorem State.setBank_l1d (s : State) (secure : Bool) (b : Banked) : (s.setBank secure b).l1d = s.l1d := by
  unfold State.setBank; split <;> rfl
@[simp] theorem State.setBank_l2 (s : State) (secure : Bool) (b : Banked) : (s.setBank secure b).l2 = s.l2 := by
  unfold State.setBank; split <;> rfl
@[simp] theorem State.setBank_excl (s : State) (secure : Bool) (b : Banked) : (s.setBank secure b).excl = s.excl := by
  unfold State.setBank; split <;> rfl
@[simp] theorem State.setBank_exclRefused (s : State) (secure : Bool) (b : Banked) : (s.setBank secure b).exclRefused = s.exclRefused := by
  unfold State.setBank; split <;> rfl
@[simp] theorem State.setBank_dbg (s : State) (secure : Bool) (b : Banked) : (s.setBank secure b).dbg = s.dbg := by
  unfold State.setBank; split <;> rfl
@[simp] theorem State.setBank_cti (s : State) (secure : Bool) (b : Banked) : (s.setBank secure b).cti = s.cti := by
  unfold State.setBank; split <;> rfl
@[simp] theorem State.setBank_etm (s : State) (secure : Bool) (b : Banked) : (s.setBank secure b).etm = s.etm := by
  unfold State.setBank; split <;> rfl
@[simp] theorem State.setBank_pins (s : State) (secure : Bool) (b : Banked) : (s.setBank secure b).pins = s.pins := by
  unfold State.setBank; split <;> rfl
@[simp] theorem State.setBank_run (s : State) (secure : Bool) (b : Banked) : (s.setBank secure b).run = s.run := by
  unfold State.setBank; split <;> rfl
@[simp] theorem State.setBank_held (s : State) (secure : Bool) (b : Banked) : (s.setBank secure b).held = s.held := by
  unfold State.setBank; split <;> rfl
@[simp] theorem State.setBank_abortPending (s : State) (secure : Bool) (b : Banked) : (s.setBank secure b).abortPending = s.abortPending := by
  unfold State.setBank; split <;> rfl
@[simp] theorem State.setBank_parityNext (s : State) (secure : Bool) (b : Banked) : (s.setBank secure b).parityNext = s.parityNext := by
  unfold State.setBank; split <;> rfl
@[simp] theorem State.setBank_build (s : State) (secure : Bool) (b : Banked) : (s.setBank secure b).build = s.build := by
  unfold State.setBank; split <;> rfl
@[simp] theorem State.setBank_abortHeld (s : State) (secure : Bool) (b : Banked) : (s.setBank secure b).abortHeld = s.abortHeld := by
  unfold State.setBank; split <;> rfl
@[simp] theorem State.setBank_monitorLeft (s : State) (secure : Bool) (b : Banked) : (s.setBank secure b).monitorLeft = s.monitorLeft := by
  unfold State.setBank; split <;> rfl
@[simp] theorem State.setBank_walkParityNext (s : State) (secure : Bool) (b : Banked) : (s.setBank secure b).walkParityNext = s.walkParityNext := by
  unfold State.setBank; split <;> rfl
@[simp] theorem State.setBank_late (s : State) (secure : Bool) (b : Banked) : (s.setBank secure b).late = s.late := by
  unfold State.setBank; split <;> rfl
@[simp] theorem State.setBank_gaps (s : State) (secure : Bool) (b : Banked) : (s.setBank secure b).gaps = s.gaps := by
  unfold State.setBank; split <;> rfl
@[simp] theorem State.setBank_happened (s : State) (secure : Bool) (b : Banked) : (s.setBank secure b).happened = s.happened := by
  unfold State.setBank; split <;> rfl
@[simp] theorem State.setBank_draws (s : State) (secure : Bool) (b : Banked) : (s.setBank secure b).draws = s.draws := by
  unfold State.setBank; split <;> rfl
@[simp] theorem State.setBank_schedule (s : State) (secure : Bool) (b : Banked) : (s.setBank secure b).schedule = s.schedule := by
  unfold State.setBank; split <;> rfl

/-! ## `State.setCopy` -/

@[simp] theorem State.setCopy_gpr (s : State) (b : Banked) : (s.setCopy b).gpr = s.gpr := State.setBank_gpr s _ b
@[simp] theorem State.setCopy_pc (s : State) (b : Banked) : (s.setCopy b).pc = s.pc := State.setBank_pc s _ b
@[simp] theorem State.setCopy_cpsr (s : State) (b : Banked) : (s.setCopy b).cpsr = s.cpsr := State.setBank_cpsr s _ b
@[simp] theorem State.setCopy_spsr (s : State) (b : Banked) : (s.setCopy b).spsr = s.spsr := State.setBank_spsr s _ b
@[simp] theorem State.setCopy_sys (s : State) (b : Banked) : (s.setCopy b).sys = s.sys := State.setBank_sys s _ b
@[simp] theorem State.setCopy_pmu (s : State) (b : Banked) : (s.setCopy b).pmu = s.pmu := State.setBank_pmu s _ b
@[simp] theorem State.setCopy_ple (s : State) (b : Banked) : (s.setCopy b).ple = s.ple := State.setBank_ple s _ b
@[simp] theorem State.setCopy_vfp (s : State) (b : Banked) : (s.setCopy b).vfp = s.vfp := State.setBank_vfp s _ b
@[simp] theorem State.setCopy_mem (s : State) (b : Banked) : (s.setCopy b).mem = s.mem := State.setBank_mem s _ b
@[simp] theorem State.setCopy_bus (s : State) (b : Banked) : (s.setCopy b).bus = s.bus := State.setBank_bus s _ b
@[simp] theorem State.setCopy_itlb (s : State) (b : Banked) : (s.setCopy b).itlb = s.itlb := State.setBank_itlb s _ b
@[simp] theorem State.setCopy_dtlb (s : State) (b : Banked) : (s.setCopy b).dtlb = s.dtlb := State.setBank_dtlb s _ b
@[simp] theorem State.setCopy_l1i (s : State) (b : Banked) : (s.setCopy b).l1i = s.l1i := State.setBank_l1i s _ b
@[simp] theorem State.setCopy_l1d (s : State) (b : Banked) : (s.setCopy b).l1d = s.l1d := State.setBank_l1d s _ b
@[simp] theorem State.setCopy_l2 (s : State) (b : Banked) : (s.setCopy b).l2 = s.l2 := State.setBank_l2 s _ b
@[simp] theorem State.setCopy_excl (s : State) (b : Banked) : (s.setCopy b).excl = s.excl := State.setBank_excl s _ b
@[simp] theorem State.setCopy_exclRefused (s : State) (b : Banked) : (s.setCopy b).exclRefused = s.exclRefused := State.setBank_exclRefused s _ b
@[simp] theorem State.setCopy_dbg (s : State) (b : Banked) : (s.setCopy b).dbg = s.dbg := State.setBank_dbg s _ b
@[simp] theorem State.setCopy_cti (s : State) (b : Banked) : (s.setCopy b).cti = s.cti := State.setBank_cti s _ b
@[simp] theorem State.setCopy_etm (s : State) (b : Banked) : (s.setCopy b).etm = s.etm := State.setBank_etm s _ b
@[simp] theorem State.setCopy_pins (s : State) (b : Banked) : (s.setCopy b).pins = s.pins := State.setBank_pins s _ b
@[simp] theorem State.setCopy_run (s : State) (b : Banked) : (s.setCopy b).run = s.run := State.setBank_run s _ b
@[simp] theorem State.setCopy_held (s : State) (b : Banked) : (s.setCopy b).held = s.held := State.setBank_held s _ b
@[simp] theorem State.setCopy_abortPending (s : State) (b : Banked) : (s.setCopy b).abortPending = s.abortPending := State.setBank_abortPending s _ b
@[simp] theorem State.setCopy_parityNext (s : State) (b : Banked) : (s.setCopy b).parityNext = s.parityNext := State.setBank_parityNext s _ b
@[simp] theorem State.setCopy_build (s : State) (b : Banked) : (s.setCopy b).build = s.build := State.setBank_build s _ b
@[simp] theorem State.setCopy_abortHeld (s : State) (b : Banked) : (s.setCopy b).abortHeld = s.abortHeld := State.setBank_abortHeld s _ b
@[simp] theorem State.setCopy_monitorLeft (s : State) (b : Banked) : (s.setCopy b).monitorLeft = s.monitorLeft := State.setBank_monitorLeft s _ b
@[simp] theorem State.setCopy_walkParityNext (s : State) (b : Banked) : (s.setCopy b).walkParityNext = s.walkParityNext := State.setBank_walkParityNext s _ b
@[simp] theorem State.setCopy_late (s : State) (b : Banked) : (s.setCopy b).late = s.late := State.setBank_late s _ b
@[simp] theorem State.setCopy_gaps (s : State) (b : Banked) : (s.setCopy b).gaps = s.gaps := State.setBank_gaps s _ b
@[simp] theorem State.setCopy_happened (s : State) (b : Banked) : (s.setCopy b).happened = s.happened := State.setBank_happened s _ b
@[simp] theorem State.setCopy_draws (s : State) (b : Banked) : (s.setCopy b).draws = s.draws := State.setBank_draws s _ b
@[simp] theorem State.setCopy_schedule (s : State) (b : Banked) : (s.setCopy b).schedule = s.schedule := State.setBank_schedule s _ b

/-! ## `State.setEntry` -/

@[simp] theorem State.setEntry_gpr (s : State) (code : BitVec 4) : (s.setEntry code).gpr = s.gpr := rfl
@[simp] theorem State.setEntry_pc (s : State) (code : BitVec 4) : (s.setEntry code).pc = s.pc := rfl
@[simp] theorem State.setEntry_cpsr (s : State) (code : BitVec 4) : (s.setEntry code).cpsr = s.cpsr := rfl
@[simp] theorem State.setEntry_spsr (s : State) (code : BitVec 4) : (s.setEntry code).spsr = s.spsr := rfl
@[simp] theorem State.setEntry_sys (s : State) (code : BitVec 4) : (s.setEntry code).sys = s.sys := rfl
@[simp] theorem State.setEntry_sec (s : State) (code : BitVec 4) : (s.setEntry code).sec = s.sec := rfl
@[simp] theorem State.setEntry_nsec (s : State) (code : BitVec 4) : (s.setEntry code).nsec = s.nsec := rfl
@[simp] theorem State.setEntry_pmu (s : State) (code : BitVec 4) : (s.setEntry code).pmu = s.pmu := rfl
@[simp] theorem State.setEntry_ple (s : State) (code : BitVec 4) : (s.setEntry code).ple = s.ple := rfl
@[simp] theorem State.setEntry_vfp (s : State) (code : BitVec 4) : (s.setEntry code).vfp = s.vfp := rfl
@[simp] theorem State.setEntry_mem (s : State) (code : BitVec 4) : (s.setEntry code).mem = s.mem := rfl
@[simp] theorem State.setEntry_bus (s : State) (code : BitVec 4) : (s.setEntry code).bus = s.bus := rfl
@[simp] theorem State.setEntry_itlb (s : State) (code : BitVec 4) : (s.setEntry code).itlb = s.itlb := rfl
@[simp] theorem State.setEntry_dtlb (s : State) (code : BitVec 4) : (s.setEntry code).dtlb = s.dtlb := rfl
@[simp] theorem State.setEntry_l1i (s : State) (code : BitVec 4) : (s.setEntry code).l1i = s.l1i := rfl
@[simp] theorem State.setEntry_l1d (s : State) (code : BitVec 4) : (s.setEntry code).l1d = s.l1d := rfl
@[simp] theorem State.setEntry_l2 (s : State) (code : BitVec 4) : (s.setEntry code).l2 = s.l2 := rfl
@[simp] theorem State.setEntry_excl (s : State) (code : BitVec 4) : (s.setEntry code).excl = s.excl := rfl
@[simp] theorem State.setEntry_exclRefused (s : State) (code : BitVec 4) : (s.setEntry code).exclRefused = s.exclRefused := rfl
@[simp] theorem State.setEntry_dbg (s : State) (code : BitVec 4) : (s.setEntry code).dbg = { s.dbg with dscr := setBits s.dbg.dscr 2 code } := rfl
@[simp] theorem State.setEntry_cti (s : State) (code : BitVec 4) : (s.setEntry code).cti = s.cti := rfl
@[simp] theorem State.setEntry_etm (s : State) (code : BitVec 4) : (s.setEntry code).etm = s.etm := rfl
@[simp] theorem State.setEntry_pins (s : State) (code : BitVec 4) : (s.setEntry code).pins = s.pins := rfl
@[simp] theorem State.setEntry_run (s : State) (code : BitVec 4) : (s.setEntry code).run = s.run := rfl
@[simp] theorem State.setEntry_held (s : State) (code : BitVec 4) : (s.setEntry code).held = s.held := rfl
@[simp] theorem State.setEntry_abortPending (s : State) (code : BitVec 4) : (s.setEntry code).abortPending = s.abortPending := rfl
@[simp] theorem State.setEntry_parityNext (s : State) (code : BitVec 4) : (s.setEntry code).parityNext = s.parityNext := rfl
@[simp] theorem State.setEntry_build (s : State) (code : BitVec 4) : (s.setEntry code).build = s.build := rfl
@[simp] theorem State.setEntry_abortHeld (s : State) (code : BitVec 4) : (s.setEntry code).abortHeld = s.abortHeld := rfl
@[simp] theorem State.setEntry_monitorLeft (s : State) (code : BitVec 4) : (s.setEntry code).monitorLeft = s.monitorLeft := rfl
@[simp] theorem State.setEntry_walkParityNext (s : State) (code : BitVec 4) : (s.setEntry code).walkParityNext = s.walkParityNext := rfl
@[simp] theorem State.setEntry_late (s : State) (code : BitVec 4) : (s.setEntry code).late = s.late := rfl
@[simp] theorem State.setEntry_gaps (s : State) (code : BitVec 4) : (s.setEntry code).gaps = s.gaps := rfl
@[simp] theorem State.setEntry_happened (s : State) (code : BitVec 4) : (s.setEntry code).happened = s.happened := rfl
@[simp] theorem State.setEntry_draws (s : State) (code : BitVec 4) : (s.setEntry code).draws = s.draws := rfl
@[simp] theorem State.setEntry_schedule (s : State) (code : BitVec 4) : (s.setEntry code).schedule = s.schedule := rfl

/-! ## `State.setNZCV` -/

@[simp] theorem State.setNZCV_gpr (s : State) (n z c v : Bool) : (s.setNZCV n z c v).gpr = s.gpr := rfl
@[simp] theorem State.setNZCV_pc (s : State) (n z c v : Bool) : (s.setNZCV n z c v).pc = s.pc := rfl
@[simp] theorem State.setNZCV_cpsr (s : State) (n z c v : Bool) : (s.setNZCV n z c v).cpsr = setBits s.cpsr 28 (bit n ++ bit z ++ bit c ++ bit v) := rfl
@[simp] theorem State.setNZCV_spsr (s : State) (n z c v : Bool) : (s.setNZCV n z c v).spsr = s.spsr := rfl
@[simp] theorem State.setNZCV_sys (s : State) (n z c v : Bool) : (s.setNZCV n z c v).sys = s.sys := rfl
@[simp] theorem State.setNZCV_sec (s : State) (n z c v : Bool) : (s.setNZCV n z c v).sec = s.sec := rfl
@[simp] theorem State.setNZCV_nsec (s : State) (n z c v : Bool) : (s.setNZCV n z c v).nsec = s.nsec := rfl
@[simp] theorem State.setNZCV_pmu (s : State) (n z c v : Bool) : (s.setNZCV n z c v).pmu = s.pmu := rfl
@[simp] theorem State.setNZCV_ple (s : State) (n z c v : Bool) : (s.setNZCV n z c v).ple = s.ple := rfl
@[simp] theorem State.setNZCV_vfp (s : State) (n z c v : Bool) : (s.setNZCV n z c v).vfp = s.vfp := rfl
@[simp] theorem State.setNZCV_mem (s : State) (n z c v : Bool) : (s.setNZCV n z c v).mem = s.mem := rfl
@[simp] theorem State.setNZCV_bus (s : State) (n z c v : Bool) : (s.setNZCV n z c v).bus = s.bus := rfl
@[simp] theorem State.setNZCV_itlb (s : State) (n z c v : Bool) : (s.setNZCV n z c v).itlb = s.itlb := rfl
@[simp] theorem State.setNZCV_dtlb (s : State) (n z c v : Bool) : (s.setNZCV n z c v).dtlb = s.dtlb := rfl
@[simp] theorem State.setNZCV_l1i (s : State) (n z c v : Bool) : (s.setNZCV n z c v).l1i = s.l1i := rfl
@[simp] theorem State.setNZCV_l1d (s : State) (n z c v : Bool) : (s.setNZCV n z c v).l1d = s.l1d := rfl
@[simp] theorem State.setNZCV_l2 (s : State) (n z c v : Bool) : (s.setNZCV n z c v).l2 = s.l2 := rfl
@[simp] theorem State.setNZCV_excl (s : State) (n z c v : Bool) : (s.setNZCV n z c v).excl = s.excl := rfl
@[simp] theorem State.setNZCV_exclRefused (s : State) (n z c v : Bool) : (s.setNZCV n z c v).exclRefused = s.exclRefused := rfl
@[simp] theorem State.setNZCV_dbg (s : State) (n z c v : Bool) : (s.setNZCV n z c v).dbg = s.dbg := rfl
@[simp] theorem State.setNZCV_cti (s : State) (n z c v : Bool) : (s.setNZCV n z c v).cti = s.cti := rfl
@[simp] theorem State.setNZCV_etm (s : State) (n z c v : Bool) : (s.setNZCV n z c v).etm = s.etm := rfl
@[simp] theorem State.setNZCV_pins (s : State) (n z c v : Bool) : (s.setNZCV n z c v).pins = s.pins := rfl
@[simp] theorem State.setNZCV_run (s : State) (n z c v : Bool) : (s.setNZCV n z c v).run = s.run := rfl
@[simp] theorem State.setNZCV_held (s : State) (n z c v : Bool) : (s.setNZCV n z c v).held = s.held := rfl
@[simp] theorem State.setNZCV_abortPending (s : State) (n z c v : Bool) : (s.setNZCV n z c v).abortPending = s.abortPending := rfl
@[simp] theorem State.setNZCV_parityNext (s : State) (n z c v : Bool) : (s.setNZCV n z c v).parityNext = s.parityNext := rfl
@[simp] theorem State.setNZCV_build (s : State) (n z c v : Bool) : (s.setNZCV n z c v).build = s.build := rfl
@[simp] theorem State.setNZCV_abortHeld (s : State) (n z c v : Bool) : (s.setNZCV n z c v).abortHeld = s.abortHeld := rfl
@[simp] theorem State.setNZCV_monitorLeft (s : State) (n z c v : Bool) : (s.setNZCV n z c v).monitorLeft = s.monitorLeft := rfl
@[simp] theorem State.setNZCV_walkParityNext (s : State) (n z c v : Bool) : (s.setNZCV n z c v).walkParityNext = s.walkParityNext := rfl
@[simp] theorem State.setNZCV_late (s : State) (n z c v : Bool) : (s.setNZCV n z c v).late = s.late := rfl
@[simp] theorem State.setNZCV_gaps (s : State) (n z c v : Bool) : (s.setNZCV n z c v).gaps = s.gaps := rfl
@[simp] theorem State.setNZCV_happened (s : State) (n z c v : Bool) : (s.setNZCV n z c v).happened = s.happened := rfl
@[simp] theorem State.setNZCV_draws (s : State) (n z c v : Bool) : (s.setNZCV n z c v).draws = s.draws := rfl
@[simp] theorem State.setNZCV_schedule (s : State) (n z c v : Bool) : (s.setNZCV n z c v).schedule = s.schedule := rfl

/-! ## `State.setNZ` -/

@[simp] theorem State.setNZ_gpr (s : State) (n z : Bool) : (s.setNZ n z).gpr = s.gpr := rfl
@[simp] theorem State.setNZ_pc (s : State) (n z : Bool) : (s.setNZ n z).pc = s.pc := rfl
@[simp] theorem State.setNZ_cpsr (s : State) (n z : Bool) : (s.setNZ n z).cpsr = setBits s.cpsr 30 (bit n ++ bit z) := rfl
@[simp] theorem State.setNZ_spsr (s : State) (n z : Bool) : (s.setNZ n z).spsr = s.spsr := rfl
@[simp] theorem State.setNZ_sys (s : State) (n z : Bool) : (s.setNZ n z).sys = s.sys := rfl
@[simp] theorem State.setNZ_sec (s : State) (n z : Bool) : (s.setNZ n z).sec = s.sec := rfl
@[simp] theorem State.setNZ_nsec (s : State) (n z : Bool) : (s.setNZ n z).nsec = s.nsec := rfl
@[simp] theorem State.setNZ_pmu (s : State) (n z : Bool) : (s.setNZ n z).pmu = s.pmu := rfl
@[simp] theorem State.setNZ_ple (s : State) (n z : Bool) : (s.setNZ n z).ple = s.ple := rfl
@[simp] theorem State.setNZ_vfp (s : State) (n z : Bool) : (s.setNZ n z).vfp = s.vfp := rfl
@[simp] theorem State.setNZ_mem (s : State) (n z : Bool) : (s.setNZ n z).mem = s.mem := rfl
@[simp] theorem State.setNZ_bus (s : State) (n z : Bool) : (s.setNZ n z).bus = s.bus := rfl
@[simp] theorem State.setNZ_itlb (s : State) (n z : Bool) : (s.setNZ n z).itlb = s.itlb := rfl
@[simp] theorem State.setNZ_dtlb (s : State) (n z : Bool) : (s.setNZ n z).dtlb = s.dtlb := rfl
@[simp] theorem State.setNZ_l1i (s : State) (n z : Bool) : (s.setNZ n z).l1i = s.l1i := rfl
@[simp] theorem State.setNZ_l1d (s : State) (n z : Bool) : (s.setNZ n z).l1d = s.l1d := rfl
@[simp] theorem State.setNZ_l2 (s : State) (n z : Bool) : (s.setNZ n z).l2 = s.l2 := rfl
@[simp] theorem State.setNZ_excl (s : State) (n z : Bool) : (s.setNZ n z).excl = s.excl := rfl
@[simp] theorem State.setNZ_exclRefused (s : State) (n z : Bool) : (s.setNZ n z).exclRefused = s.exclRefused := rfl
@[simp] theorem State.setNZ_dbg (s : State) (n z : Bool) : (s.setNZ n z).dbg = s.dbg := rfl
@[simp] theorem State.setNZ_cti (s : State) (n z : Bool) : (s.setNZ n z).cti = s.cti := rfl
@[simp] theorem State.setNZ_etm (s : State) (n z : Bool) : (s.setNZ n z).etm = s.etm := rfl
@[simp] theorem State.setNZ_pins (s : State) (n z : Bool) : (s.setNZ n z).pins = s.pins := rfl
@[simp] theorem State.setNZ_run (s : State) (n z : Bool) : (s.setNZ n z).run = s.run := rfl
@[simp] theorem State.setNZ_held (s : State) (n z : Bool) : (s.setNZ n z).held = s.held := rfl
@[simp] theorem State.setNZ_abortPending (s : State) (n z : Bool) : (s.setNZ n z).abortPending = s.abortPending := rfl
@[simp] theorem State.setNZ_parityNext (s : State) (n z : Bool) : (s.setNZ n z).parityNext = s.parityNext := rfl
@[simp] theorem State.setNZ_build (s : State) (n z : Bool) : (s.setNZ n z).build = s.build := rfl
@[simp] theorem State.setNZ_abortHeld (s : State) (n z : Bool) : (s.setNZ n z).abortHeld = s.abortHeld := rfl
@[simp] theorem State.setNZ_monitorLeft (s : State) (n z : Bool) : (s.setNZ n z).monitorLeft = s.monitorLeft := rfl
@[simp] theorem State.setNZ_walkParityNext (s : State) (n z : Bool) : (s.setNZ n z).walkParityNext = s.walkParityNext := rfl
@[simp] theorem State.setNZ_late (s : State) (n z : Bool) : (s.setNZ n z).late = s.late := rfl
@[simp] theorem State.setNZ_gaps (s : State) (n z : Bool) : (s.setNZ n z).gaps = s.gaps := rfl
@[simp] theorem State.setNZ_happened (s : State) (n z : Bool) : (s.setNZ n z).happened = s.happened := rfl
@[simp] theorem State.setNZ_draws (s : State) (n z : Bool) : (s.setNZ n z).draws = s.draws := rfl
@[simp] theorem State.setNZ_schedule (s : State) (n z : Bool) : (s.setNZ n z).schedule = s.schedule := rfl

/-! ## `State.setArithFlags` -/

@[simp] theorem State.setArithFlags_gpr (s : State) (r : Word) (c v : Bool) : (s.setArithFlags r c v).gpr = s.gpr := rfl
@[simp] theorem State.setArithFlags_pc (s : State) (r : Word) (c v : Bool) : (s.setArithFlags r c v).pc = s.pc := rfl
@[simp] theorem State.setArithFlags_cpsr (s : State) (r : Word) (c v : Bool) : (s.setArithFlags r c v).cpsr = setBits s.cpsr 28 (bit r.msb ++ bit (r == 0) ++ bit c ++ bit v) := rfl
@[simp] theorem State.setArithFlags_spsr (s : State) (r : Word) (c v : Bool) : (s.setArithFlags r c v).spsr = s.spsr := rfl
@[simp] theorem State.setArithFlags_sys (s : State) (r : Word) (c v : Bool) : (s.setArithFlags r c v).sys = s.sys := rfl
@[simp] theorem State.setArithFlags_sec (s : State) (r : Word) (c v : Bool) : (s.setArithFlags r c v).sec = s.sec := rfl
@[simp] theorem State.setArithFlags_nsec (s : State) (r : Word) (c v : Bool) : (s.setArithFlags r c v).nsec = s.nsec := rfl
@[simp] theorem State.setArithFlags_pmu (s : State) (r : Word) (c v : Bool) : (s.setArithFlags r c v).pmu = s.pmu := rfl
@[simp] theorem State.setArithFlags_ple (s : State) (r : Word) (c v : Bool) : (s.setArithFlags r c v).ple = s.ple := rfl
@[simp] theorem State.setArithFlags_vfp (s : State) (r : Word) (c v : Bool) : (s.setArithFlags r c v).vfp = s.vfp := rfl
@[simp] theorem State.setArithFlags_mem (s : State) (r : Word) (c v : Bool) : (s.setArithFlags r c v).mem = s.mem := rfl
@[simp] theorem State.setArithFlags_bus (s : State) (r : Word) (c v : Bool) : (s.setArithFlags r c v).bus = s.bus := rfl
@[simp] theorem State.setArithFlags_itlb (s : State) (r : Word) (c v : Bool) : (s.setArithFlags r c v).itlb = s.itlb := rfl
@[simp] theorem State.setArithFlags_dtlb (s : State) (r : Word) (c v : Bool) : (s.setArithFlags r c v).dtlb = s.dtlb := rfl
@[simp] theorem State.setArithFlags_l1i (s : State) (r : Word) (c v : Bool) : (s.setArithFlags r c v).l1i = s.l1i := rfl
@[simp] theorem State.setArithFlags_l1d (s : State) (r : Word) (c v : Bool) : (s.setArithFlags r c v).l1d = s.l1d := rfl
@[simp] theorem State.setArithFlags_l2 (s : State) (r : Word) (c v : Bool) : (s.setArithFlags r c v).l2 = s.l2 := rfl
@[simp] theorem State.setArithFlags_excl (s : State) (r : Word) (c v : Bool) : (s.setArithFlags r c v).excl = s.excl := rfl
@[simp] theorem State.setArithFlags_exclRefused (s : State) (r : Word) (c v : Bool) : (s.setArithFlags r c v).exclRefused = s.exclRefused := rfl
@[simp] theorem State.setArithFlags_dbg (s : State) (r : Word) (c v : Bool) : (s.setArithFlags r c v).dbg = s.dbg := rfl
@[simp] theorem State.setArithFlags_cti (s : State) (r : Word) (c v : Bool) : (s.setArithFlags r c v).cti = s.cti := rfl
@[simp] theorem State.setArithFlags_etm (s : State) (r : Word) (c v : Bool) : (s.setArithFlags r c v).etm = s.etm := rfl
@[simp] theorem State.setArithFlags_pins (s : State) (r : Word) (c v : Bool) : (s.setArithFlags r c v).pins = s.pins := rfl
@[simp] theorem State.setArithFlags_run (s : State) (r : Word) (c v : Bool) : (s.setArithFlags r c v).run = s.run := rfl
@[simp] theorem State.setArithFlags_held (s : State) (r : Word) (c v : Bool) : (s.setArithFlags r c v).held = s.held := rfl
@[simp] theorem State.setArithFlags_abortPending (s : State) (r : Word) (c v : Bool) : (s.setArithFlags r c v).abortPending = s.abortPending := rfl
@[simp] theorem State.setArithFlags_parityNext (s : State) (r : Word) (c v : Bool) : (s.setArithFlags r c v).parityNext = s.parityNext := rfl
@[simp] theorem State.setArithFlags_build (s : State) (r : Word) (c v : Bool) : (s.setArithFlags r c v).build = s.build := rfl
@[simp] theorem State.setArithFlags_abortHeld (s : State) (r : Word) (c v : Bool) : (s.setArithFlags r c v).abortHeld = s.abortHeld := rfl
@[simp] theorem State.setArithFlags_monitorLeft (s : State) (r : Word) (c v : Bool) : (s.setArithFlags r c v).monitorLeft = s.monitorLeft := rfl
@[simp] theorem State.setArithFlags_walkParityNext (s : State) (r : Word) (c v : Bool) : (s.setArithFlags r c v).walkParityNext = s.walkParityNext := rfl
@[simp] theorem State.setArithFlags_late (s : State) (r : Word) (c v : Bool) : (s.setArithFlags r c v).late = s.late := rfl
@[simp] theorem State.setArithFlags_gaps (s : State) (r : Word) (c v : Bool) : (s.setArithFlags r c v).gaps = s.gaps := rfl
@[simp] theorem State.setArithFlags_happened (s : State) (r : Word) (c v : Bool) : (s.setArithFlags r c v).happened = s.happened := rfl
@[simp] theorem State.setArithFlags_draws (s : State) (r : Word) (c v : Bool) : (s.setArithFlags r c v).draws = s.draws := rfl
@[simp] theorem State.setArithFlags_schedule (s : State) (r : Word) (c v : Bool) : (s.setArithFlags r c v).schedule = s.schedule := rfl

/-! ## `State.stickyQ` -/

@[simp] theorem State.stickyQ_gpr (s : State) (q : Bool) : (s.stickyQ q).gpr = s.gpr := by
  unfold State.stickyQ; split <;> rfl
@[simp] theorem State.stickyQ_pc (s : State) (q : Bool) : (s.stickyQ q).pc = s.pc := by
  unfold State.stickyQ; split <;> rfl
@[simp] theorem State.stickyQ_spsr (s : State) (q : Bool) : (s.stickyQ q).spsr = s.spsr := by
  unfold State.stickyQ; split <;> rfl
@[simp] theorem State.stickyQ_sys (s : State) (q : Bool) : (s.stickyQ q).sys = s.sys := by
  unfold State.stickyQ; split <;> rfl
@[simp] theorem State.stickyQ_sec (s : State) (q : Bool) : (s.stickyQ q).sec = s.sec := by
  unfold State.stickyQ; split <;> rfl
@[simp] theorem State.stickyQ_nsec (s : State) (q : Bool) : (s.stickyQ q).nsec = s.nsec := by
  unfold State.stickyQ; split <;> rfl
@[simp] theorem State.stickyQ_pmu (s : State) (q : Bool) : (s.stickyQ q).pmu = s.pmu := by
  unfold State.stickyQ; split <;> rfl
@[simp] theorem State.stickyQ_ple (s : State) (q : Bool) : (s.stickyQ q).ple = s.ple := by
  unfold State.stickyQ; split <;> rfl
@[simp] theorem State.stickyQ_vfp (s : State) (q : Bool) : (s.stickyQ q).vfp = s.vfp := by
  unfold State.stickyQ; split <;> rfl
@[simp] theorem State.stickyQ_mem (s : State) (q : Bool) : (s.stickyQ q).mem = s.mem := by
  unfold State.stickyQ; split <;> rfl
@[simp] theorem State.stickyQ_bus (s : State) (q : Bool) : (s.stickyQ q).bus = s.bus := by
  unfold State.stickyQ; split <;> rfl
@[simp] theorem State.stickyQ_itlb (s : State) (q : Bool) : (s.stickyQ q).itlb = s.itlb := by
  unfold State.stickyQ; split <;> rfl
@[simp] theorem State.stickyQ_dtlb (s : State) (q : Bool) : (s.stickyQ q).dtlb = s.dtlb := by
  unfold State.stickyQ; split <;> rfl
@[simp] theorem State.stickyQ_l1i (s : State) (q : Bool) : (s.stickyQ q).l1i = s.l1i := by
  unfold State.stickyQ; split <;> rfl
@[simp] theorem State.stickyQ_l1d (s : State) (q : Bool) : (s.stickyQ q).l1d = s.l1d := by
  unfold State.stickyQ; split <;> rfl
@[simp] theorem State.stickyQ_l2 (s : State) (q : Bool) : (s.stickyQ q).l2 = s.l2 := by
  unfold State.stickyQ; split <;> rfl
@[simp] theorem State.stickyQ_excl (s : State) (q : Bool) : (s.stickyQ q).excl = s.excl := by
  unfold State.stickyQ; split <;> rfl
@[simp] theorem State.stickyQ_exclRefused (s : State) (q : Bool) : (s.stickyQ q).exclRefused = s.exclRefused := by
  unfold State.stickyQ; split <;> rfl
@[simp] theorem State.stickyQ_dbg (s : State) (q : Bool) : (s.stickyQ q).dbg = s.dbg := by
  unfold State.stickyQ; split <;> rfl
@[simp] theorem State.stickyQ_cti (s : State) (q : Bool) : (s.stickyQ q).cti = s.cti := by
  unfold State.stickyQ; split <;> rfl
@[simp] theorem State.stickyQ_etm (s : State) (q : Bool) : (s.stickyQ q).etm = s.etm := by
  unfold State.stickyQ; split <;> rfl
@[simp] theorem State.stickyQ_pins (s : State) (q : Bool) : (s.stickyQ q).pins = s.pins := by
  unfold State.stickyQ; split <;> rfl
@[simp] theorem State.stickyQ_run (s : State) (q : Bool) : (s.stickyQ q).run = s.run := by
  unfold State.stickyQ; split <;> rfl
@[simp] theorem State.stickyQ_held (s : State) (q : Bool) : (s.stickyQ q).held = s.held := by
  unfold State.stickyQ; split <;> rfl
@[simp] theorem State.stickyQ_abortPending (s : State) (q : Bool) : (s.stickyQ q).abortPending = s.abortPending := by
  unfold State.stickyQ; split <;> rfl
@[simp] theorem State.stickyQ_parityNext (s : State) (q : Bool) : (s.stickyQ q).parityNext = s.parityNext := by
  unfold State.stickyQ; split <;> rfl
@[simp] theorem State.stickyQ_build (s : State) (q : Bool) : (s.stickyQ q).build = s.build := by
  unfold State.stickyQ; split <;> rfl
@[simp] theorem State.stickyQ_abortHeld (s : State) (q : Bool) : (s.stickyQ q).abortHeld = s.abortHeld := by
  unfold State.stickyQ; split <;> rfl
@[simp] theorem State.stickyQ_monitorLeft (s : State) (q : Bool) : (s.stickyQ q).monitorLeft = s.monitorLeft := by
  unfold State.stickyQ; split <;> rfl
@[simp] theorem State.stickyQ_walkParityNext (s : State) (q : Bool) : (s.stickyQ q).walkParityNext = s.walkParityNext := by
  unfold State.stickyQ; split <;> rfl
@[simp] theorem State.stickyQ_late (s : State) (q : Bool) : (s.stickyQ q).late = s.late := by
  unfold State.stickyQ; split <;> rfl
@[simp] theorem State.stickyQ_gaps (s : State) (q : Bool) : (s.stickyQ q).gaps = s.gaps := by
  unfold State.stickyQ; split <;> rfl
@[simp] theorem State.stickyQ_happened (s : State) (q : Bool) : (s.stickyQ q).happened = s.happened := by
  unfold State.stickyQ; split <;> rfl
@[simp] theorem State.stickyQ_draws (s : State) (q : Bool) : (s.stickyQ q).draws = s.draws := by
  unfold State.stickyQ; split <;> rfl
@[simp] theorem State.stickyQ_schedule (s : State) (q : Bool) : (s.stickyQ q).schedule = s.schedule := by
  unfold State.stickyQ; split <;> rfl

/-! ## `State.setGE` -/

@[simp] theorem State.setGE_gpr (s : State) (ge : BitVec 4) : (s.setGE ge).gpr = s.gpr := rfl
@[simp] theorem State.setGE_pc (s : State) (ge : BitVec 4) : (s.setGE ge).pc = s.pc := rfl
@[simp] theorem State.setGE_cpsr (s : State) (ge : BitVec 4) : (s.setGE ge).cpsr = setBits s.cpsr 16 ge := rfl
@[simp] theorem State.setGE_spsr (s : State) (ge : BitVec 4) : (s.setGE ge).spsr = s.spsr := rfl
@[simp] theorem State.setGE_sys (s : State) (ge : BitVec 4) : (s.setGE ge).sys = s.sys := rfl
@[simp] theorem State.setGE_sec (s : State) (ge : BitVec 4) : (s.setGE ge).sec = s.sec := rfl
@[simp] theorem State.setGE_nsec (s : State) (ge : BitVec 4) : (s.setGE ge).nsec = s.nsec := rfl
@[simp] theorem State.setGE_pmu (s : State) (ge : BitVec 4) : (s.setGE ge).pmu = s.pmu := rfl
@[simp] theorem State.setGE_ple (s : State) (ge : BitVec 4) : (s.setGE ge).ple = s.ple := rfl
@[simp] theorem State.setGE_vfp (s : State) (ge : BitVec 4) : (s.setGE ge).vfp = s.vfp := rfl
@[simp] theorem State.setGE_mem (s : State) (ge : BitVec 4) : (s.setGE ge).mem = s.mem := rfl
@[simp] theorem State.setGE_bus (s : State) (ge : BitVec 4) : (s.setGE ge).bus = s.bus := rfl
@[simp] theorem State.setGE_itlb (s : State) (ge : BitVec 4) : (s.setGE ge).itlb = s.itlb := rfl
@[simp] theorem State.setGE_dtlb (s : State) (ge : BitVec 4) : (s.setGE ge).dtlb = s.dtlb := rfl
@[simp] theorem State.setGE_l1i (s : State) (ge : BitVec 4) : (s.setGE ge).l1i = s.l1i := rfl
@[simp] theorem State.setGE_l1d (s : State) (ge : BitVec 4) : (s.setGE ge).l1d = s.l1d := rfl
@[simp] theorem State.setGE_l2 (s : State) (ge : BitVec 4) : (s.setGE ge).l2 = s.l2 := rfl
@[simp] theorem State.setGE_excl (s : State) (ge : BitVec 4) : (s.setGE ge).excl = s.excl := rfl
@[simp] theorem State.setGE_exclRefused (s : State) (ge : BitVec 4) : (s.setGE ge).exclRefused = s.exclRefused := rfl
@[simp] theorem State.setGE_dbg (s : State) (ge : BitVec 4) : (s.setGE ge).dbg = s.dbg := rfl
@[simp] theorem State.setGE_cti (s : State) (ge : BitVec 4) : (s.setGE ge).cti = s.cti := rfl
@[simp] theorem State.setGE_etm (s : State) (ge : BitVec 4) : (s.setGE ge).etm = s.etm := rfl
@[simp] theorem State.setGE_pins (s : State) (ge : BitVec 4) : (s.setGE ge).pins = s.pins := rfl
@[simp] theorem State.setGE_run (s : State) (ge : BitVec 4) : (s.setGE ge).run = s.run := rfl
@[simp] theorem State.setGE_held (s : State) (ge : BitVec 4) : (s.setGE ge).held = s.held := rfl
@[simp] theorem State.setGE_abortPending (s : State) (ge : BitVec 4) : (s.setGE ge).abortPending = s.abortPending := rfl
@[simp] theorem State.setGE_parityNext (s : State) (ge : BitVec 4) : (s.setGE ge).parityNext = s.parityNext := rfl
@[simp] theorem State.setGE_build (s : State) (ge : BitVec 4) : (s.setGE ge).build = s.build := rfl
@[simp] theorem State.setGE_abortHeld (s : State) (ge : BitVec 4) : (s.setGE ge).abortHeld = s.abortHeld := rfl
@[simp] theorem State.setGE_monitorLeft (s : State) (ge : BitVec 4) : (s.setGE ge).monitorLeft = s.monitorLeft := rfl
@[simp] theorem State.setGE_walkParityNext (s : State) (ge : BitVec 4) : (s.setGE ge).walkParityNext = s.walkParityNext := rfl
@[simp] theorem State.setGE_late (s : State) (ge : BitVec 4) : (s.setGE ge).late = s.late := rfl
@[simp] theorem State.setGE_gaps (s : State) (ge : BitVec 4) : (s.setGE ge).gaps = s.gaps := rfl
@[simp] theorem State.setGE_happened (s : State) (ge : BitVec 4) : (s.setGE ge).happened = s.happened := rfl
@[simp] theorem State.setGE_draws (s : State) (ge : BitVec 4) : (s.setGE ge).draws = s.draws := rfl
@[simp] theorem State.setGE_schedule (s : State) (ge : BitVec 4) : (s.setGE ge).schedule = s.schedule := rfl

/-! ## `State.branchTo` -/

@[simp] theorem State.branchTo_gpr (s : State) (a : Word) : (s.branchTo a).gpr = s.gpr := rfl
@[simp] theorem State.branchTo_pc (s : State) (a : Word) : (s.branchTo a).pc = a &&& 0xFFFFFFFC := rfl
@[simp] theorem State.branchTo_cpsr (s : State) (a : Word) : (s.branchTo a).cpsr = s.cpsr := rfl
@[simp] theorem State.branchTo_spsr (s : State) (a : Word) : (s.branchTo a).spsr = s.spsr := rfl
@[simp] theorem State.branchTo_sys (s : State) (a : Word) : (s.branchTo a).sys = s.sys := rfl
@[simp] theorem State.branchTo_sec (s : State) (a : Word) : (s.branchTo a).sec = s.sec := rfl
@[simp] theorem State.branchTo_nsec (s : State) (a : Word) : (s.branchTo a).nsec = s.nsec := rfl
@[simp] theorem State.branchTo_pmu (s : State) (a : Word) : (s.branchTo a).pmu = s.pmu := rfl
@[simp] theorem State.branchTo_ple (s : State) (a : Word) : (s.branchTo a).ple = s.ple := rfl
@[simp] theorem State.branchTo_vfp (s : State) (a : Word) : (s.branchTo a).vfp = s.vfp := rfl
@[simp] theorem State.branchTo_mem (s : State) (a : Word) : (s.branchTo a).mem = s.mem := rfl
@[simp] theorem State.branchTo_bus (s : State) (a : Word) : (s.branchTo a).bus = s.bus := rfl
@[simp] theorem State.branchTo_itlb (s : State) (a : Word) : (s.branchTo a).itlb = s.itlb := rfl
@[simp] theorem State.branchTo_dtlb (s : State) (a : Word) : (s.branchTo a).dtlb = s.dtlb := rfl
@[simp] theorem State.branchTo_l1i (s : State) (a : Word) : (s.branchTo a).l1i = s.l1i := rfl
@[simp] theorem State.branchTo_l1d (s : State) (a : Word) : (s.branchTo a).l1d = s.l1d := rfl
@[simp] theorem State.branchTo_l2 (s : State) (a : Word) : (s.branchTo a).l2 = s.l2 := rfl
@[simp] theorem State.branchTo_excl (s : State) (a : Word) : (s.branchTo a).excl = s.excl := rfl
@[simp] theorem State.branchTo_exclRefused (s : State) (a : Word) : (s.branchTo a).exclRefused = s.exclRefused := rfl
@[simp] theorem State.branchTo_dbg (s : State) (a : Word) : (s.branchTo a).dbg = s.dbg := rfl
@[simp] theorem State.branchTo_cti (s : State) (a : Word) : (s.branchTo a).cti = s.cti := rfl
@[simp] theorem State.branchTo_etm (s : State) (a : Word) : (s.branchTo a).etm = s.etm := rfl
@[simp] theorem State.branchTo_pins (s : State) (a : Word) : (s.branchTo a).pins = s.pins := rfl
@[simp] theorem State.branchTo_run (s : State) (a : Word) : (s.branchTo a).run = s.run := rfl
@[simp] theorem State.branchTo_held (s : State) (a : Word) : (s.branchTo a).held = s.held := rfl
@[simp] theorem State.branchTo_abortPending (s : State) (a : Word) : (s.branchTo a).abortPending = s.abortPending := rfl
@[simp] theorem State.branchTo_parityNext (s : State) (a : Word) : (s.branchTo a).parityNext = s.parityNext := rfl
@[simp] theorem State.branchTo_build (s : State) (a : Word) : (s.branchTo a).build = s.build := rfl
@[simp] theorem State.branchTo_abortHeld (s : State) (a : Word) : (s.branchTo a).abortHeld = s.abortHeld := rfl
@[simp] theorem State.branchTo_monitorLeft (s : State) (a : Word) : (s.branchTo a).monitorLeft = s.monitorLeft := rfl
@[simp] theorem State.branchTo_walkParityNext (s : State) (a : Word) : (s.branchTo a).walkParityNext = s.walkParityNext := rfl
@[simp] theorem State.branchTo_late (s : State) (a : Word) : (s.branchTo a).late = s.late := rfl
@[simp] theorem State.branchTo_gaps (s : State) (a : Word) : (s.branchTo a).gaps = s.gaps := rfl
@[simp] theorem State.branchTo_happened (s : State) (a : Word) : (s.branchTo a).happened = s.happened ||| BitVec.twoPow 16 0x0C := rfl
@[simp] theorem State.branchTo_draws (s : State) (a : Word) : (s.branchTo a).draws = s.draws := rfl
@[simp] theorem State.branchTo_schedule (s : State) (a : Word) : (s.branchTo a).schedule = s.schedule := rfl

/-! ## `State.link` -/

@[simp] theorem State.link_pc (s : State) : (s.link).pc = s.pc := State.setReg_pc s 14 _
@[simp] theorem State.link_cpsr (s : State) : (s.link).cpsr = s.cpsr := State.setReg_cpsr s 14 _
@[simp] theorem State.link_spsr (s : State) : (s.link).spsr = s.spsr := State.setReg_spsr s 14 _
@[simp] theorem State.link_sys (s : State) : (s.link).sys = s.sys := State.setReg_sys s 14 _
@[simp] theorem State.link_sec (s : State) : (s.link).sec = s.sec := State.setReg_sec s 14 _
@[simp] theorem State.link_nsec (s : State) : (s.link).nsec = s.nsec := State.setReg_nsec s 14 _
@[simp] theorem State.link_pmu (s : State) : (s.link).pmu = s.pmu := State.setReg_pmu s 14 _
@[simp] theorem State.link_ple (s : State) : (s.link).ple = s.ple := State.setReg_ple s 14 _
@[simp] theorem State.link_vfp (s : State) : (s.link).vfp = s.vfp := State.setReg_vfp s 14 _
@[simp] theorem State.link_mem (s : State) : (s.link).mem = s.mem := State.setReg_mem s 14 _
@[simp] theorem State.link_bus (s : State) : (s.link).bus = s.bus := State.setReg_bus s 14 _
@[simp] theorem State.link_itlb (s : State) : (s.link).itlb = s.itlb := State.setReg_itlb s 14 _
@[simp] theorem State.link_dtlb (s : State) : (s.link).dtlb = s.dtlb := State.setReg_dtlb s 14 _
@[simp] theorem State.link_l1i (s : State) : (s.link).l1i = s.l1i := State.setReg_l1i s 14 _
@[simp] theorem State.link_l1d (s : State) : (s.link).l1d = s.l1d := State.setReg_l1d s 14 _
@[simp] theorem State.link_l2 (s : State) : (s.link).l2 = s.l2 := State.setReg_l2 s 14 _
@[simp] theorem State.link_excl (s : State) : (s.link).excl = s.excl := State.setReg_excl s 14 _
@[simp] theorem State.link_exclRefused (s : State) : (s.link).exclRefused = s.exclRefused := State.setReg_exclRefused s 14 _
@[simp] theorem State.link_dbg (s : State) : (s.link).dbg = s.dbg := State.setReg_dbg s 14 _
@[simp] theorem State.link_cti (s : State) : (s.link).cti = s.cti := State.setReg_cti s 14 _
@[simp] theorem State.link_etm (s : State) : (s.link).etm = s.etm := State.setReg_etm s 14 _
@[simp] theorem State.link_pins (s : State) : (s.link).pins = s.pins := State.setReg_pins s 14 _
@[simp] theorem State.link_run (s : State) : (s.link).run = s.run := State.setReg_run s 14 _
@[simp] theorem State.link_held (s : State) : (s.link).held = s.held := State.setReg_held s 14 _
@[simp] theorem State.link_abortPending (s : State) : (s.link).abortPending = s.abortPending := State.setReg_abortPending s 14 _
@[simp] theorem State.link_parityNext (s : State) : (s.link).parityNext = s.parityNext := State.setReg_parityNext s 14 _
@[simp] theorem State.link_build (s : State) : (s.link).build = s.build := State.setReg_build s 14 _
@[simp] theorem State.link_abortHeld (s : State) : (s.link).abortHeld = s.abortHeld := State.setReg_abortHeld s 14 _
@[simp] theorem State.link_monitorLeft (s : State) : (s.link).monitorLeft = s.monitorLeft := State.setReg_monitorLeft s 14 _
@[simp] theorem State.link_walkParityNext (s : State) : (s.link).walkParityNext = s.walkParityNext := State.setReg_walkParityNext s 14 _
@[simp] theorem State.link_late (s : State) : (s.link).late = s.late := State.setReg_late s 14 _
@[simp] theorem State.link_gaps (s : State) : (s.link).gaps = s.gaps := State.setReg_gaps s 14 _
@[simp] theorem State.link_happened (s : State) : (s.link).happened = s.happened := State.setReg_happened s 14 _
@[simp] theorem State.link_draws (s : State) : (s.link).draws = s.draws := State.setReg_draws s 14 _
@[simp] theorem State.link_schedule (s : State) : (s.link).schedule = s.schedule := State.setReg_schedule s 14 _
/-! ## Whole updates -/

theorem State.advance_running (s : State) (h : s.halted = false) : s.advance = { s with pc := s.pc + 4 } := by
  simp [State.advance, h]

theorem State.advance_halted (s : State) (h : s.halted = true) : s.advance = s := by simp [State.advance, h]

theorem State.setReg_of_ne (s : State) (n : BitVec 4) (v : Word) (h : n ≠ 15) :
    s.setReg n v = { s with gpr := s.gpr.set (physReg s.mode n) v (physReg s.mode n).isLt } := by
  rw [State.setReg, if_neg h, State.setRegOf]

theorem State.reg_of_ne (s : State) (n : BitVec 4) (h : n ≠ 15) : s.reg n = s.gpr[physReg s.mode n] := by
  rw [State.reg, if_neg h, State.regOf]

theorem State.reg_pc (s : State) : s.reg 15 = s.pc + 8 := by simp [State.reg]

@[simp] theorem State.bank_true (s : State) : s.bank true = s.sec := rfl
@[simp] theorem State.bank_false (s : State) : s.bank false = s.nsec := rfl

/-- The mode, the security state and debug state depend on these fields only. -/
theorem State.mode_congr {s t : State} (h : t.cpsr = s.cpsr) : t.mode = s.mode := by simp [State.mode, h]

theorem State.secure_congr {s t : State} (h : t.cpsr = s.cpsr) (h' : t.sys = s.sys) : t.secure = s.secure := by
  simp [State.secure, State.mode_congr h, h']

theorem State.halted_congr {s t : State} (h : t.dbg = s.dbg) : t.halted = s.halted := by simp [State.halted, h]

theorem State.cur_congr {s t : State} (h : t.cpsr = s.cpsr) (h' : t.sys = s.sys) (h1 : t.sec = s.sec)
    (h2 : t.nsec = s.nsec) : t.cur = s.cur := by
  simp [State.cur, State.bank, State.secure_congr h h', h1, h2]

/-- A register is read as it was written, another as before (10_state.md R53). -/
theorem State.regOf_setRegOf (s : State) (m m' : Mode) (n n' : BitVec 4) (v : Word) :
    (s.setRegOf m n v).regOf m' n' = if physReg m n = physReg m' n' then v else s.regOf m' n' := by
  simp only [State.regOf, State.setRegOf]
  by_cases h : physReg m n = physReg m' n'
  · simp [h]
  · have h' : (physReg m n).val ≠ (physReg m' n').val := fun e => h (Fin.ext e)
    simp [h, h']

end Sys2Proof.Machine
end

