-- ==== Sys2Proof/Laws/Memory.lean ====
section
/-! SUPPORT. Physical memory: what a byte reads as after a write, and that every operation keeps the canonical form. -/

namespace Sys2Proof.Machine

/-! ## One byte -/

/-- A canonical list holds no key below its bound. -/
theorem memRead_below : ∀ (m : List Host.Cell) (lo k : Nat), Memory.wfFrom lo m = true → k < lo →
    memRead m k = unlistedByte
  | [], _, _, _, _ => rfl
  | (j, b) :: m, lo, k, h, hk => by
    simp only [Memory.wfFrom, Bool.and_eq_true, decide_eq_true_eq] at h
    rw [memRead, if_neg (by omega)]
    exact memRead_below m (j + 1) k h.2 (by omega)

theorem Memory.wfFrom_mono : ∀ (m : List Host.Cell) (lo lo' : Nat), Memory.wfFrom lo m = true → lo' ≤ lo →
    Memory.wfFrom lo' m = true
  | [], _, _, _, _ => rfl
  | (j, b) :: m, lo, lo', h, hl => by
    simp only [Memory.wfFrom, Bool.and_eq_true, decide_eq_true_eq] at h ⊢
    exact ⟨⟨by omega, h.1.2⟩, h.2⟩

/-- A write keeps the canonical form. -/
theorem memWrite_wfFrom : ∀ (m : List Host.Cell) (lo k : Nat) (v : Byte), Memory.wfFrom lo m = true → lo ≤ k →
    Memory.wfFrom lo (memWrite m k v) = true
  | [], lo, k, v, _, hk => by
    unfold memWrite
    split
    · rfl
    · rename_i h; simp [Memory.wfFrom, hk, h]
  | (j, b) :: m, lo, k, v, h, hk => by
    have h' := h
    simp only [Memory.wfFrom, Bool.and_eq_true, decide_eq_true_eq] at h'
    unfold memWrite
    by_cases h1 : k < j
    · rw [if_pos h1]
      split
      · exact h
      · rename_i hv
        simp only [Memory.wfFrom, Bool.and_eq_true, decide_eq_true_eq, bne_iff_ne, ne_eq]
        exact ⟨⟨hk, hv⟩, ⟨by omega, by simpa using h'.1.2⟩, h'.2⟩
    · rw [if_neg h1]
      by_cases h2 : k = j
      · rw [if_pos h2]
        split
        · exact Memory.wfFrom_mono m (j + 1) lo h'.2 (by omega)
        · rename_i hv
          subst h2
          simp only [Memory.wfFrom, Bool.and_eq_true, decide_eq_true_eq, bne_iff_ne, ne_eq]
          exact ⟨⟨hk, hv⟩, h'.2⟩
      · rw [if_neg h2]
        simp only [Memory.wfFrom, Bool.and_eq_true, decide_eq_true_eq]
        exact ⟨h'.1, memWrite_wfFrom m (j + 1) k v h'.2 (by omega)⟩

theorem memWrite_wf {m : List Host.Cell} (h : Memory.wf m = true) (k : Nat) (v : Byte) :
    Memory.wf (memWrite m k v) = true := memWrite_wfFrom m 0 k v h (Nat.zero_le k)

theorem memRead_memWrite_from : ∀ (m : List Host.Cell) (lo k : Nat) (v : Byte) (k' : Nat), Memory.wfFrom lo m = true →
    memRead (memWrite m k v) k' = if k' = k then v else memRead m k'
  | [], lo, k, v, k', _ => by
    unfold memWrite
    by_cases hv : v = unlistedByte
    · rw [if_pos hv]; split
      · exact hv.symm
      · rfl
    · rw [if_neg hv]
      by_cases hk : k' = k
      · rw [if_pos hk, hk, memRead, if_pos rfl]
      · rw [if_neg hk]; exact if_neg (Ne.symm hk)
  | (j, b) :: m, lo, k, v, k', h => by
    have h' := h
    simp only [Memory.wfFrom, Bool.and_eq_true, decide_eq_true_eq] at h'
    unfold memWrite
    by_cases h1 : k < j
    · rw [if_pos h1]
      by_cases hv : v = unlistedByte
      · rw [if_pos hv]
        by_cases hk : k' = k
        · rw [if_pos hk, hk, memRead, if_neg (by omega), memRead_below m (j + 1) k h'.2 (by omega), hv]
        · rw [if_neg hk]
      · rw [if_neg hv]
        by_cases hk : k' = k
        · rw [if_pos hk, hk, memRead, if_pos rfl]
        · rw [if_neg hk, memRead, if_neg (Ne.symm hk)]
    · rw [if_neg h1]
      by_cases h2 : k = j
      · subst h2
        rw [if_pos rfl]
        by_cases hv : v = unlistedByte
        · rw [if_pos hv]
          by_cases hk : k' = k
          · rw [if_pos hk, hk, memRead_below m (k + 1) k h'.2 (by omega), hv]
          · rw [if_neg hk, memRead, if_neg (Ne.symm hk)]
        · rw [if_neg hv]
          by_cases hk : k' = k
          · rw [if_pos hk, hk, memRead, if_pos rfl]
          · rw [if_neg hk, memRead, if_neg (Ne.symm hk), memRead, if_neg (Ne.symm hk)]
      · rw [if_neg h2]
        by_cases hj : j = k'
        · rw [memRead, if_pos hj, if_neg (by omega), memRead, if_pos hj]
        · rw [memRead, if_neg hj, memRead_memWrite_from m (j + 1) k v k' h'.2, memRead, if_neg hj]

/-- A byte read after a write: the value written, or what it was elsewhere. -/
theorem memRead_memWrite {m : List Host.Cell} (h : Memory.wf m = true) (k : Nat) (v : Byte) (k' : Nat) :
    memRead (memWrite m k v) k' = if k' = k then v else memRead m k' := memRead_memWrite_from m 0 k v k' h

/-! ## Keys -/

theorem memKey_inj {a b : Bool} {x y : Word} (h : memKey a x = memKey b y) : a = b ∧ x = y := by
  have hx := x.isLt
  have hy := y.isLt
  unfold memKey at h
  cases a <;> cases b <;> simp only [Bool.false_eq_true, if_false, if_true] at h
  · exact ⟨rfl, BitVec.eq_of_toNat_eq (by omega)⟩
  · omega
  · omega
  · exact ⟨rfl, BitVec.eq_of_toNat_eq (by omega)⟩

/-! ## The operations that write memory keep the canonical form -/

theorem writeMem_wf {s : State} (h : Memory.wf s.mem = true) (ns : Bool) (pa : Word) (b : Byte) :
    Memory.wf (writeMem s ns pa b).mem = true := memWrite_wf h _ _

@[simp] theorem writeL1_mem (s : State) (back ns : Bool) (pa : Word) (b : Byte) : (writeL1 s back ns pa b).mem = s.mem := rfl

@[simp] theorem writeL2_mem (s : State) (back ns : Bool) (pa : Word) (b : Byte) : (writeL2 s back ns pa b).mem = s.mem := rfl

/-- `t` is `s` but for the record of late stores. -/
def OnlyLate (s t : State) : Prop := t = { s with late := t.late }

theorem OnlyLate.refl (s : State) : OnlyLate s s := rfl

theorem OnlyLate.trans {s t u : State} (h : OnlyLate s t) (k : OnlyLate t u) : OnlyLate s u := by
  unfold OnlyLate at *; rw [k, h]

theorem OnlyLate.mem {s t : State} (h : OnlyLate s t) : t.mem = s.mem := by rw [h]

theorem onlyLate_makeLate (s : State) (bytes : List LateByte) (stage : LateStage) (gathers onBus : Bool) :
    OnlyLate s (s.makeLate bytes stage gathers onBus) := by
  unfold State.makeLate; split <;> rfl

theorem onlyLate_foldl {α : Type} {f : State → α → State} (h : ∀ s a, OnlyLate s (f s a)) :
    ∀ (l : List α) (s : State), OnlyLate s (l.foldl f s)
  | [], s => .refl s
  | a :: l, s => (h s a).trans (onlyLate_foldl h l (f s a))

/-- A store that goes late changes nothing else. -/
theorem onlyLate_lateStore (p : Span) (i : Nat) (bs : List Byte) (rejected : Bool) (s : State) :
    OnlyLate s (lateStore p i bs rejected s) := by
  unfold lateStore; dsimp only; split
  · exact .refl s
  · exact onlyLate_makeLate ..

theorem onlyLate_lateLoose (p : Span) : ∀ (bs : List Byte) (i : Nat) (s : State), OnlyLate s (lateLoose p i bs s)
  | [], _, s => .refl s
  | _ :: bs, i, s => (onlyLate_lateStore p i _ true s).trans (onlyLate_lateLoose p bs (i + 1) _)

theorem onlyLate_rejectWhole (va : Word) (p : Span) (n : Nat) (bs : List Byte) (s : State) :
    OnlyLate s (rejectWhole va p n bs s) := by
  unfold rejectWhole; split
  · exact onlyLate_lateStore ..
  · exact onlyLate_lateLoose ..

theorem onlyLate_fetchChanged (l : CacheLine) (before s : State) : OnlyLate s (fetchChanged l before s) :=
  onlyLate_makeLate s _ _ _ _

/-- Dropping lines of the L1 instruction cache changes that cache and the record of late stores. -/
theorem dropL1i_eq (gone : CacheLine → Bool) (s : State) :
    dropL1i gone s = { s with l1i := s.l1i.filter (fun l => !gone l), late := (dropL1i gone s).late } :=
  onlyLate_foldl (fun s _ => onlyLate_makeLate s _ _ _ _) _
    { s with l1i := s.l1i.filter fun l => !gone l }

/-- With no store late a choice among the late stores uses no free value. -/
theorem lateChosen_nil {s : State} (h : s.late = []) : s.lateChosen = s := by
  cases s; cases h; rfl

/-- A byte written on the data side: memory is as before, or holds that byte. -/
theorem writeByte_mem (s : State) (r : Route) (ns : Bool) (pa : Word) (b : Byte) :
    (writeByte s r ns pa b).mem = if writeReach s r ns pa = .bus then memWrite s.mem (memKey ns pa) b else s.mem := by
  have key (s2 : State) (h : s2.mem = s.mem) :
      (if (writeReach s r ns pa == .bus) = true then writeMem s2 ns pa b else s2).mem =
        if writeReach s r ns pa = .bus then memWrite s.mem (memKey ns pa) b else s.mem := by
    by_cases hr : writeReach s r ns pa = .bus
    · rw [if_pos hr, if_pos (beq_iff_eq.2 hr), writeMem, h]
    · rw [if_neg hr, if_neg (fun hh => hr (beq_iff_eq.1 hh)), h]
  apply key
  split <;> split <;> rfl

theorem writeByte_wf {s : State} (h : Memory.wf s.mem = true) (r : Route) (ns : Bool) (pa : Word) (b : Byte) :
    Memory.wf (writeByte s r ns pa b).mem = true := by
  rw [writeByte_mem]
  split
  · exact memWrite_wf h _ _
  · exact h

/-- What other bus masters write changes memory, the record of late stores and the schedule of gaps. -/
theorem busWrite_eq (s : State) (w : BusByte) :
    busWrite s w = { s with mem := memWrite s.mem (memKey w.ns w.pa) w.value, late := (busWrite s w).late } := by
  have h := onlyLate_makeLate s [⟨w.ns, w.pa, memRead s.mem (memKey w.ns w.pa), w.value⟩] .arrived false false
  unfold busWrite writeMem
  rw [h]

theorem busWrite_wf {s : State} (h : Memory.wf s.mem = true) (w : BusByte) : Memory.wf (busWrite s w).mem = true := by
  rw [busWrite_eq]; exact memWrite_wf h _ _

theorem foldl_busWrite_eq : ∀ (ws : List BusByte) (s : State),
    ws.foldl busWrite s = { s with mem := (ws.foldl busWrite s).mem, late := (ws.foldl busWrite s).late }
  | [], _ => rfl
  | w :: ws, s => by rw [List.foldl_cons, foldl_busWrite_eq ws (busWrite s w), busWrite_eq s w]

theorem foldl_busWrite_wf : ∀ (ws : List BusByte) (s : State), Memory.wf s.mem = true →
    Memory.wf (ws.foldl busWrite s).mem = true
  | [], _, h => h
  | w :: ws, _, h => foldl_busWrite_wf ws _ (busWrite_wf h w)

theorem gap_eq (s : State) : s.gap = { s with mem := s.gap.mem, late := s.gap.late, gaps := s.gap.gaps } := by
  unfold State.gap; split
  · rfl
  · rename_i ws _ _; rw [foldl_busWrite_eq ws s]

theorem gap_wf {s : State} (h : Memory.wf s.mem = true) : Memory.wf s.gap.mem = true := by
  unfold State.gap; split
  · exact h
  · exact foldl_busWrite_wf _ _ h

/-- No other bus master writes in a gap where none is scheduled to. -/
theorem gap_nil {s : State} (h : s.gaps = []) : s.gap = s := by unfold State.gap; rw [h]

theorem writeSpan_wf (p : Span) : ∀ (bs : List Byte) (i : Nat) (s : State), Memory.wf s.mem = true →
    Memory.wf (writeSpan p i bs s).mem = true
  | [], _, _, h => h
  | b :: bs, i, _, h => writeSpan_wf p bs (i + 1) _ (writeByte_wf h _ _ _ b)

/-- Putting back bytes of lost stores changes memory, canonically, and the L2 cache. -/
theorem undoBytes_spec (misses : Nat → Late → Bool) (onBus : Bool) : ∀ (bs : List LateByte) (s : State),
    ∃ m c, bs.foldl (undoByte misses onBus) s = { s with mem := m, l2 := c } ∧ (Memory.wf s.mem = true → Memory.wf m = true)
  | [], s => ⟨s.mem, s.l2, rfl, id⟩
  | b :: bs, s => by
    have h1 : ∃ m c, undoByte misses onBus s b = { s with mem := m, l2 := c } ∧
        (Memory.wf s.mem = true → Memory.wf m = true) := by
      cases onBus
      · exact ⟨s.mem, _, rfl, id⟩
      · exact ⟨_, _, rfl, fun h => memWrite_wf h _ _⟩
    obtain ⟨m, c, h1, h2⟩ := h1
    obtain ⟨m', c', h3, h4⟩ := undoBytes_spec misses onBus bs (undoByte misses onBus s b)
    rw [h1] at h3 h4
    exact ⟨m', c', by rw [List.foldl_cons, h1, h3], fun h => h4 (h2 h)⟩

/-- What a reset loses of the late stores: memory changes, canonically, and the L2 cache. -/
theorem loseStores_spec (s : State) : ∃ m c d, s.loseStores = { s with mem := m, l2 := c, draws := d } ∧
    (Memory.wf s.mem = true → Memory.wf m = true) := by
  have key (misses : Nat → Late → Bool) : ∀ (ls : List Late) (s : State), ∃ m c,
      ls.foldl (fun t l => l.bytes.foldl (undoByte misses l.onBus) t) s = { s with mem := m, l2 := c } ∧
        (Memory.wf s.mem = true → Memory.wf m = true) := fun ls => by
    induction ls with
    | nil => exact fun s => ⟨s.mem, s.l2, rfl, id⟩
    | cons l ls ih =>
      intro s
      obtain ⟨m, c, h1, h2⟩ := undoBytes_spec misses l.onBus l.bytes s
      obtain ⟨m', c', h3, h4⟩ := ih (l.bytes.foldl (undoByte misses l.onBus) s)
      rw [h1] at h3 h4
      exact ⟨m', c', by rw [List.foldl_cons, h1, h3], fun h => h4 (h2 h)⟩
  obtain ⟨m, c, h1, h2⟩ := key (fun i l => walkerMisses i l && s.lateChoice i l) (s.late.filter (walkerMisses 0)) s
  exact ⟨m, c, _, congrArg State.lateChosen h1, h2⟩

/-- Writing a cache line back to memory keeps the canonical form. -/
theorem storeBytes_wf (l : CacheLine) : ∀ (bytes : List Nat) (s : State), Memory.wf s.mem = true →
    Memory.wf (storeBytes l bytes s).mem = true
  | [], _, h => h
  | _ :: bytes, _, h => storeBytes_wf l bytes _ (writeMem_wf h _ _ _)

/-- Memory after reset is canonical. -/
theorem reset_mem_wf : Memory.wf State.reset.mem = true := rfl

end Sys2Proof.Machine
end

