-- ==== Sys2Proof/Laws/Bits.lean ====
section
/-! SUPPORT. Replacing a field of a word: what the other bits and the field read afterwards. -/

namespace Sys2Proof.Machine

theorem getLsbD_setBits {n : Nat} (w : Word) (lo : Nat) (v : BitVec n) (i : Nat) (h : lo + n ≤ 32) :
    (setBits w lo v).getLsbD i = if lo ≤ i ∧ i < lo + n then v.getLsbD (i - lo) else w.getLsbD i := by
  unfold setBits
  by_cases hi : i < 32
  · simp only [BitVec.getLsbD_or, BitVec.getLsbD_and, BitVec.getLsbD_not, BitVec.getLsbD_shiftLeft,
      BitVec.getLsbD_setWidth, BitVec.getLsbD_allOnes, hi, decide_true, Bool.true_and]
    by_cases h1 : lo ≤ i
    · have h2 : ¬ i < lo := by omega
      have h3 : i - lo < 32 := by omega
      by_cases h4 : i < lo + n
      · have h5 : i - lo < n := by omega
        simp [h1, h2, h3, h4, h5]
      · have h5 : ¬ i - lo < n := by omega
        simp [h2, h4, h5, BitVec.getLsbD_of_ge v _ (Nat.not_lt.mp h5)]
    · have h2 : i < lo := by omega
      simp [h1, h2]
  · have h1 : ¬ (lo ≤ i ∧ i < lo + n) := by omega
    rw [if_neg h1, BitVec.getLsbD_of_ge _ _ (Nat.not_lt.mp hi), BitVec.getLsbD_of_ge _ _ (Nat.not_lt.mp hi)]

/-- The field itself. -/
theorem extract_setBits_same {n : Nat} (w : Word) (lo : Nat) (v : BitVec n) (h : lo + n ≤ 32) :
    (setBits w lo v).extractLsb' lo n = v := by
  apply BitVec.eq_of_getLsbD_eq
  intro i hi
  rw [BitVec.getLsbD_extractLsb', getLsbD_setBits _ _ _ _ h, if_pos (by omega)]
  simp [-BitVec.getLsbD_eq_getElem, hi]

/-- A field apart from it. -/
theorem extract_setBits_apart {n : Nat} (w : Word) (lo : Nat) (v : BitVec n) (h : lo + n ≤ 32) (lo' n' : Nat)
    (h' : lo' + n' ≤ lo ∨ lo + n ≤ lo') : (setBits w lo v).extractLsb' lo' n' = w.extractLsb' lo' n' := by
  apply BitVec.eq_of_getLsbD_eq
  intro i hi
  rw [BitVec.getLsbD_extractLsb', BitVec.getLsbD_extractLsb', getLsbD_setBits _ _ _ _ h, if_neg (by omega)]

/-- A bit apart from the field. -/
theorem getLsbD_setBits_apart {n : Nat} (w : Word) (lo : Nat) (v : BitVec n) (h : lo + n ≤ 32) (i : Nat)
    (h' : i < lo ∨ lo + n ≤ i) : (setBits w lo v).getLsbD i = w.getLsbD i := by
  rw [getLsbD_setBits _ _ _ _ h, if_neg (by omega)]

theorem getLsbD_setBit (w : Word) (k : Nat) (b : Bool) (i : Nat) (h : k < 32) :
    (setBit w k b).getLsbD i = if i = k then b else w.getLsbD i := by
  unfold setBit
  rw [getLsbD_setBits _ _ _ _ (by omega)]
  by_cases e : i = k
  · subst e; rw [if_pos (by omega), if_pos rfl]; simp [bit]
  · rw [if_neg (by omega), if_neg e]

/-- A bit of a word with another bit replaced. -/
theorem getLsbD_setBit_ne (w : Word) (k : Nat) (b : Bool) (i : Nat) (h : k < 32) (h' : i ≠ k) :
    (setBit w k b).getLsbD i = w.getLsbD i := by rw [getLsbD_setBit _ _ _ _ h, if_neg h']

theorem getLsbD_setBit_same (w : Word) (k : Nat) (b : Bool) (h : k < 32) : (setBit w k b).getLsbD k = b := by
  rw [getLsbD_setBit _ _ _ _ h, if_pos rfl]

/-- A field apart from a replaced bit. -/
theorem extract_setBit_apart (w : Word) (k : Nat) (b : Bool) (h : k < 32) (lo n : Nat) (h' : lo + n ≤ k ∨ k < lo) :
    (setBit w k b).extractLsb' lo n = w.extractLsb' lo n :=
  extract_setBits_apart w k (bit b) (by omega) lo n (by omega)

/-- A bit of a merge under a mask. -/
theorem getLsbD_mergeBits (old v mask : Word) (i : Nat) : (mergeBits old v mask).getLsbD i = if mask.getLsbD i then v.getLsbD i else old.getLsbD i := by
  unfold mergeBits
  by_cases hi : i < 32
  · simp only [BitVec.getLsbD_or, BitVec.getLsbD_and, BitVec.getLsbD_not, hi, decide_true, Bool.true_and]
    cases mask.getLsbD i <;> simp
  · rw [BitVec.getLsbD_of_ge _ _ (by omega), BitVec.getLsbD_of_ge v _ (by omega), BitVec.getLsbD_of_ge old _ (by omega), ite_self]

end Sys2Proof.Machine
end

