-- ==== Sys2Proof/Laws/Results.lean ====
section
/-! SUPPORT. The shared operations of data processing in plain integers, and the updates of CPSR as whole words. -/

namespace Sys2Proof.Machine

open Sys2Proof.Safety

/-! ## CPSR -/

theorem setBits_flagged (w : Word) (n z c v : Bool) : setBits w 28 (bit n ++ bit z ++ bit c ++ bit v) = flagged w n z c v := by
  unfold flagged
  apply BitVec.eq_of_getLsbD_eq
  intro i hi
  rw [getLsbD_setBits _ _ _ _ (by decide)]
  rw [show (bit n ++ bit z ++ bit c ++ bit v ++ w.extractLsb' 0 28 : BitVec 32).getLsbD i = _ from
    BitVec.getLsbD_append]
  by_cases h : i < 28
  · rw [if_neg (by omega)]; simp [-BitVec.getLsbD_eq_getElem, h]
  · rw [if_pos (by omega)]; simp [-BitVec.getLsbD_eq_getElem, h]

theorem State.setNZCV_eq (s : State) (n z c v : Bool) : s.setNZCV n z c v = { s with cpsr := flagged s.cpsr n z c v } := by
  rw [State.setNZCV, setBits_flagged]

theorem setBits_nz (w : Word) (n z : Bool) :
    setBits w 30 (bit n ++ bit z) = flagged w n z (w.getLsbD 29) (w.getLsbD 28) := by
  rw [← setBits_flagged]
  apply BitVec.eq_of_getLsbD_eq
  intro i hi
  rw [getLsbD_setBits _ _ _ _ (by decide), getLsbD_setBits _ _ _ _ (by decide)]
  by_cases h : i < 28
  · rw [if_neg (by omega), if_neg (by omega)]
  · have : i = 28 ∨ i = 29 ∨ i = 30 ∨ i = 31 := by omega
    have key (n z c v : Bool) :
        (bit n ++ bit z ++ bit c ++ bit v : BitVec 4).getLsbD 0 = v ∧
        (bit n ++ bit z ++ bit c ++ bit v : BitVec 4).getLsbD 1 = c ∧
        (bit n ++ bit z ++ bit c ++ bit v : BitVec 4).getLsbD 2 = z ∧
        (bit n ++ bit z ++ bit c ++ bit v : BitVec 4).getLsbD 3 = n ∧
        (bit n ++ bit z : BitVec 2).getLsbD 0 = z ∧ (bit n ++ bit z : BitVec 2).getLsbD 1 = n := by
      revert n z c v; decide
    obtain ⟨k0, k1, k2, k3, k4, k5⟩ := key n z (w.getLsbD 29) (w.getLsbD 28)
    rcases this with rfl | rfl | rfl | rfl
    · rw [if_neg (by decide), if_pos (by decide)]; exact k0.symm
    · rw [if_neg (by decide), if_pos (by decide)]; exact k1.symm
    · rw [if_pos (by decide), if_pos (by decide)]; exact k4.trans k2.symm
    · rw [if_pos (by decide), if_pos (by decide)]; exact k5.trans k3.symm

theorem setBits_q (w : Word) (q : Bool) : setBit w 27 q = withQ w q := by
  unfold withQ setBit
  apply BitVec.eq_of_getLsbD_eq
  intro i hi
  rw [getLsbD_setBits _ _ _ _ (by decide)]
  rw [show (w.extractLsb' 28 4 ++ bit q ++ w.extractLsb' 0 27 : BitVec 32).getLsbD i = _ from BitVec.getLsbD_append,
    BitVec.getLsbD_append]
  by_cases h : i < 27
  · rw [if_neg (by omega)]; simp [-BitVec.getLsbD_eq_getElem, h]
  · by_cases h2 : i = 27
    · subst h2; simp [-BitVec.getLsbD_eq_getElem]
    · rw [if_neg (by omega)]
      have h3 : ¬ i - 27 < 1 := by omega
      have h4 : i - 27 - 1 < 4 := by omega
      have h5 : 28 + (i - 27 - 1) = i := by omega
      simp [-BitVec.getLsbD_eq_getElem, h, h3, h4, h5]

theorem setBits_ge (w : Word) (ge : BitVec 4) : setBits w 16 ge = withGE w ge := by
  unfold withGE
  apply BitVec.eq_of_getLsbD_eq
  intro i hi
  rw [getLsbD_setBits _ _ _ _ (by decide)]
  rw [show (w.extractLsb' 20 12 ++ ge ++ w.extractLsb' 0 16 : BitVec 32).getLsbD i = _ from BitVec.getLsbD_append,
    BitVec.getLsbD_append]
  by_cases h : i < 16
  · rw [if_neg (by omega)]; simp [-BitVec.getLsbD_eq_getElem, h]
  · by_cases h2 : i < 20
    · have h3 : i - 16 < 4 := by omega
      rw [if_pos (by omega)]; simp [-BitVec.getLsbD_eq_getElem, h, h3]
    · rw [if_neg (by omega)]
      have h3 : ¬ i - 16 < 4 := by omega
      have h4 : i - 16 - 4 < 12 := by omega
      have h5 : 20 + (i - 16 - 4) = i := by omega
      simp [-BitVec.getLsbD_eq_getElem, h, h3, h4, h5]

/-! ## The pc -/

theorem State.advance_eq (s : State) : s.advance = skipped s := by
  by_cases h : s.halted = true <;> simp [State.advance, skipped, nextPc, h]

/-! ## Arithmetic -/

theorem toNat_not (y : Word) : (~~~y).toNat = 2 ^ 32 - 1 - y.toNat := by simp

theorem toInt_not (y : Word) : (~~~y).toInt = -y.toInt - 1 := by
  have h := y.isLt
  have h1 : (~~~y).toNat = 2 ^ 32 - 1 - y.toNat := toNat_not y
  simp only [BitVec.toInt_eq_toNat_cond, h1]
  split <;> split <;> omega

/-- AddWithCarry (42_data_processing.md R1601) says: the sum modulo 2^32, whether the unsigned sum passes 2^32, whether
the signed sum does not fit. -/
theorem addWithCarry_eq (x y : Word) (c : Bool) :
    addWithCarry x y c =
      (BitVec.ofInt 32 (x.toInt + y.toInt + c.toNat), decide (2 ^ 32 ≤ x.toNat + y.toNat + c.toNat),
        decide (x.toInt + y.toInt + c.toNat < -2 ^ 31 ∨ 2 ^ 31 ≤ x.toInt + y.toInt + c.toNat)) := by
  have hx := x.isLt
  have hy := y.isLt
  have hc : c.toNat ≤ 1 := by cases c <;> decide
  have h1 : BitVec.ofNat 32 (x.toNat + y.toNat + c.toNat) = BitVec.ofInt 32 (x.toInt + y.toInt + c.toNat) := by
    apply BitVec.eq_of_toNat_eq
    rw [BitVec.toNat_ofNat, BitVec.toNat_ofInt]
    simp only [BitVec.toInt_eq_toNat_cond]
    split <;> split <;> omega
  simp only [addWithCarry, Prod.mk.injEq]
  refine ⟨h1, ?_, ?_⟩
  · rw [BitVec.toNat_ofNat, Bool.eq_iff_iff]
    simp only [bne_iff_ne, decide_eq_true_eq]
    omega
  · rw [h1, BitVec.toInt_ofInt, Bool.eq_iff_iff]
    simp only [bne_iff_ne, decide_eq_true_eq, Int.bmod]
    omega

/-- The three results of every operation, in integers. -/
theorem aluResult_eq (op : AluOp) (x : Word) (o : Word × Bool) (s : State) :
    aluResult op x o s =
      (resultOf op x o.1 s.flagC, carryOf op x o.1 s.flagC o.2, overflowOf op x o.1 s.flagC s.flagV) := by
  have hx := x.isLt
  have ho := o.1.isLt
  have n1 : (~~~x).toNat = 2 ^ 32 - 1 - x.toNat := toNat_not x
  have n2 : (~~~o.1).toNat = 2 ^ 32 - 1 - o.1.toNat := toNat_not o.1
  have i1 := toInt_not x
  have i2 := toInt_not o.1
  have key (a b : Word) (c : Bool) (r : Int) (cf : Bool) (vf : Bool)
      (hr : a.toInt + b.toInt + c.toNat = r) (hc : decide (2 ^ 32 ≤ a.toNat + b.toNat + c.toNat) = cf)
      (hv : vf = (decide (r < -2 ^ 31) || decide (2 ^ 31 ≤ r))) :
      addWithCarry a b c = (BitVec.ofInt 32 r, cf, vf) := by
    rw [addWithCarry_eq, hr, hc, hv, Bool.decide_or]
  cases op <;> simp only [aluResult, resultOf, carryOf, overflowOf, exact, logical, subtracts, if_true, if_false,
    Bool.false_eq_true]
  all_goals
    refine key _ _ _ _ _ _ ?_ ?_ rfl
  all_goals
    first
    | (rw [i1]; cases s.flagC <;> simp only [Bool.toNat_true, Bool.toNat_false, if_true, if_false, Bool.false_eq_true] <;> omega)
    | (rw [i2]; cases s.flagC <;> simp only [Bool.toNat_true, Bool.toNat_false, if_true, if_false, Bool.false_eq_true] <;> omega)
    | (simp only [Bool.toNat_true, Bool.toNat_false]; omega)
    | (cases s.flagC <;> simp only [Bool.toNat_true, Bool.toNat_false, if_true, if_false, Bool.false_eq_true] <;> omega)
    | (rw [Bool.eq_iff_iff]; cases s.flagC <;> simp only [decide_eq_true_eq, Bool.toNat_true, Bool.toNat_false, if_true, if_false, Bool.false_eq_true] <;> omega)

/-- A data-processing result below r15 is written, with the flags when S is set (R1604). -/
theorem aluWrite_eq (op : AluOp) (sf : BitVec 1) (rd : BitVec 4) (x : Word) (o : Word × Bool) (s : State)
    (h : rd ≠ 15) : aluWrite sf rd (aluResult op x o s) s = .next (aluDone op sf x o rd s) := by
  rw [aluResult_eq, aluWrite, if_neg h]
  have z : (resultOf op x o.1 s.flagC == 0) = decide (resultOf op x o.1 s.flagC = 0) := by
    rw [Bool.eq_iff_iff]; simp
  by_cases hs : sf = 1
  · rw [if_pos hs, State.setArithFlags, State.setNZCV_eq, State.setReg_of_ne _ _ _ h, State.advance_eq, aluDone, if_pos hs,
      aluCpsr, z]
    rfl
  · rw [if_neg hs, State.setReg_of_ne _ _ _ h, State.advance_eq, aluDone, if_neg hs]
    rfl

/-- A comparison writes the flags only. -/
theorem aluTest_eq (op : AluOp) (x : Word) (o : Word × Bool) (s : State) :
    aluTest (aluResult op x o s) s = .next { s with cpsr := aluCpsr op x o s, pc := nextPc s } := by
  have z : (resultOf op x o.1 s.flagC == 0) = decide (resultOf op x o.1 s.flagC = 0) := by
    rw [Bool.eq_iff_iff]; simp
  rw [aluResult_eq, aluTest, State.setArithFlags, State.setNZCV_eq, State.advance_eq, aluCpsr, z]
  rfl

/-- An instruction whose condition holds has its effect. -/
theorem onCond_pass {cond : BitVec 4} {s : State} (h : condPassed cond s = true)
    (effect : Host.Outcome State Fault Refusal) : onCond cond s effect = effect := if_pos h

theorem onCond_fail {cond : BitVec 4} {s : State} (h : condPassed cond s = false)
    (effect : Host.Outcome State Fault Refusal) : onCond cond s effect = .next (skipped s) := by
  rw [onCond, if_neg (by simp [h]), State.advance_eq]

theorem unlessPC_ok {regs : List (BitVec 4)} (h : 15 ∉ regs) (effect : Host.Outcome State Fault Refusal) :
    unlessPC regs effect = effect := if_neg (by simpa using h)

theorem unlessPC_bad {regs : List (BitVec 4)} (h : 15 ∈ regs) (effect : Host.Outcome State Fault Refusal) :
    unlessPC regs effect = .fault .operands := if_pos (by simpa using h)

end Sys2Proof.Machine
end

