-- ==== Sys2Proof/Laws/Access.lean ====
section
/-! SUPPORT. Data accesses that reach memory directly: with the MMU off every access is a list of single bytes. -/

namespace Sys2Proof.Machine

open Sys2Proof.Safety

/-! ## States alike -/

/-- A state that differs only in registers, memory, notes, late stores and free values is as direct. -/
theorem direct_congr {s t : State} (h : Direct s) (h1 : t.cur.sctlr = s.cur.sctlr) (h2 : t.bus = s.bus)
    (h3 : t.pins = s.pins) (h4 : t.build = s.build) (h5 : t.gaps = s.gaps) : Direct t :=
  ⟨h1 ▸ h.mmuOff, h2 ▸ h.noError, by unfold NoPort; rw [h4]; exact h.noPort, h3 ▸ h.noDebug, h5 ▸ h.alone⟩

theorem apbTarget_none {s : State} (h : NoPort s) (pa : Word) : apbTarget s.build.apb pa = none := by
  obtain ⟨h1, h2, h3⟩ := h
  simp [apbTarget, h1, h2, h3]

theorem direct_note {s : State} (h : Direct s) (e : Nat) : Direct (s.note e) := direct_congr h rfl rfl rfl rfl rfl

theorem direct_mem {s : State} (h : Direct s) (m : List Host.Cell) : Direct { s with mem := m } :=
  direct_congr h rfl rfl rfl rfl rfl

theorem direct_late {s : State} (h : Direct s) (l : List Late) : Direct { s with late := l } :=
  direct_congr h rfl rfl rfl rfl rfl

/-- Without DBGEN no debug event is acted on. -/
theorem debugResponse_off {s : State} (h : s.pins.dbgen = false) : s.debugResponse = .ignored := by
  simp [State.debugResponse, State.invasivePermitted, h]

theorem watchGate_off {s : State} (h : s.pins.dbgen = false) (q : Req) (va : Word) : watchGate q va s = (false, s) := by
  simp [watchGate, watchEvent, debugResponse_off h, settle]

/-! ## Translation -/

/-- With the MMU off the address is the modified virtual address (21_mmu.md R1101). -/
theorem translate_off {s : State} (h : s.cur.sctlr.getLsbD 0 = false) (priv : Bool) (kind : XKind) (mva : Word) :
    translate s s.secure priv kind mva = .ok (flat s s.secure kind mva) s := by
  have h' : (s.bank s.secure).sctlr.getLsbD 0 = false := h
  rw [translate, h']; rfl

/-- Where a direct access goes. -/
def directPhys (s : State) (va : Word) : Phys := ⟨!s.secure, mvaOf s.cur va, strongAttrs⟩

def directSpan (s : State) (va : Word) (n : Nat) : Span := ⟨directPhys s va, directPhys s va, n⟩

/-- A naturally aligned access stays within a page. -/
theorem page_fits {va : Word} {n : Nat} (hn : n = 1 ∨ n = 2 ∨ n = 4 ∨ n = 8) (h : va.toNat % n = 0) :
    va.toNat % 4096 + n ≤ 4096 := by
  rcases hn with rfl | rfl | rfl | rfl <;> omega

theorem span_off {s : State} (h : s.cur.sctlr.getLsbD 0 = false) (priv : Bool) {kind : XKind} (hk : kind ≠ .fetch)
    {va : Word} {n : Nat} (hn : va.toNat % 4096 + n ≤ 4096) :
    span s priv kind va n = .ok (directSpan s va n) s := by
  have hf : flat s s.secure kind (mvaOf s.cur va) = directPhys s va := by
    cases kind
    · rfl
    · rfl
    · exact absurd rfl hk
  rw [span, translate_off h, hf]
  show (if va.toNat % 4096 + n ≤ 4096 then _ else _) = _
  rw [if_pos hn]; rfl

/-- An aligned access passes the checks. -/
theorem prepare_off {s : State} (h : s.cur.sctlr.getLsbD 0 = false) (q : Req) {kind : XKind} (hk : kind ≠ .fetch)
    {va : Word} (hn : q.size = 1 ∨ q.size = 2 ∨ q.size = 4 ∨ q.size = 8) (h1 : va.toNat % q.size = 0)
    (h2 : va.toNat % q.align = 0) : prepare q kind va s = .ok (directSpan s va q.size) s := by
  have hm : misaligned s q va = false := by simp [misaligned, h1, h2]
  have hd (p : Span) : deviceMisaligned p q.size va = false := by simp [deviceMisaligned, h1]
  rw [prepare, hm, span_off h _ hk (page_fits hn h1)]
  show (if deviceMisaligned (directSpan s va q.size) q.size va then _ else _) = _
  rw [hd]; rfl

/-- An access that is not aligned to its size is an alignment fault with the MMU off: all memory is Strongly ordered
(20_memory.md R1012, R1014). -/
theorem prepare_misaligned {s : State} (h : s.cur.sctlr.getLsbD 0 = false) (q : Req) {kind : XKind} (hk : kind ≠ .fetch)
    {va : Word} (h1 : va.toNat % q.size ≠ 0) :
    prepare q kind va s = .abort (alignmentAbort (mvaOf s.cur va) (kind == .write)) s := by
  have hf (t : State) (x : Word) (e : t.cur.sctlr.getLsbD 0 = false) :
      (flat t t.secure kind x).attrs.typ = .stronglyOrdered := by
    cases kind
    · rfl
    · rfl
    · exact absurd rfl hk
  rw [prepare]
  split
  · rfl
  · have hd (p : Span) (hp : p.first.attrs.typ = .stronglyOrdered) : deviceMisaligned p q.size va = true := by
      simp [deviceMisaligned, h1, hp]
    rw [span, translate_off h]
    show Acc.bind (if va.toNat % 4096 + q.size ≤ 4096 then _ else _) _ = _
    split
    · show (if deviceMisaligned _ q.size va then _ else _) = _
      rw [hd _ (hf s _ h)]; rfl
    · rw [translate_off h]
      show (if deviceMisaligned _ q.size va then _ else _) = _
      rw [hd _ (hf s _ h)]; rfl

/-! ## One access -/

theorem dataRoute_strong (s : State) : (s.dataRoute strongAttrs).l1 = false ∧ (s.dataRoute strongAttrs).l2 = false := by
  simp [State.dataRoute, MemAttrs.cached, strongAttrs]

theorem directSpan_at (s : State) (va : Word) (n i : Nat) (h : i < n) :
    (directSpan s va n).at i = ⟨!s.secure, mvaOf s.cur va + BitVec.ofNat 32 i, strongAttrs⟩ := by
  rw [Span.at, if_pos (by exact h)]; rfl

theorem readByte_strong (s : State) (ns : Bool) (pa : Word) :
    readByte s (s.dataRoute strongAttrs) ns pa = ⟨memRead s.mem (memKey ns pa), true⟩ := by
  rw [readByte, (dataRoute_strong s).1, (dataRoute_strong s).2]; rfl

theorem readSpan_direct (s t : State) (va : Word) (n : Nat) :
    (readSpan t (directSpan s va n) n).map (·.value) =
      (List.range n).map fun i => memRead t.mem (memKey (!s.secure) (mvaOf s.cur va + BitVec.ofNat 32 i)) := by
  rw [readSpan, List.map_map]
  apply List.map_congr_left
  intro i hi
  rw [Function.comp, directSpan_at _ _ _ _ (List.mem_range.1 hi), readByte_strong]

theorem busError_none {s : State} (h : s.bus = []) (hp : NoPort s) (ns : Bool) (pa : Word) (w : Bool) :
    busError s ns pa w = none := by
  rw [busError, apbTarget_none hp, h]; rfl

theorem readError_none {s : State} (h : s.bus = []) (hp : NoPort s) (p : Span) (n : Nat) : readError s p n = none := by
  rw [readError, List.findSome?_eq_none_iff]
  intro i _
  rw [busError_none h hp]; split <;> rfl

theorem writeError_none {s : State} (h : s.bus = []) (hp : NoPort s) (p : Span) (n : Nat) : writeError s p n = none := by
  rw [writeError, List.findSome?_eq_none_iff]
  intro i _
  rw [busError_none h hp]; split <;> rfl

theorem apbAccess_none {s : State} (hp : NoPort s) (va : Word) (p : Span) (n : Nat) (b : Bool) :
    apbAccess va p n b s = none := by
  rw [apbAccess, apbTarget_none hp]; split <;> rfl

/-- A direct access is Strongly ordered: it completes the stores before it (20_memory.md R1041). -/
theorem ordered_direct (s t : State) (va : Word) (n : Nat) : t.ordered (directSpan s va n) = { t with late := arrivedLate t } :=
  if_pos rfl

theorem noteAccess_aligned (e n : Nat) {va : Word} (h : va.toNat % n = 0) (s : State) : noteAccess e n va s = s.note e :=
  if_pos h

/-- A direct read of bytes. -/
theorem readBytes_direct {s : State} (h : Direct s) (q : Req) {va : Word} (h1 : va.toNat % q.size = 0) :
    readBytes q va (directSpan s va q.size) s =
      .ok (bytesAt s va q.size) { s.note 0x06 with late := arrivedLate s } := by
  rw [readBytes, apbAccess_none h.noPort]
  show readMemory q va (directSpan s va q.size) s = _
  rw [readMemory, readError_none h.noError h.noPort, watchGate_off h.noDebug]
  show Acc.ok (readWhole va (directSpan s va q.size) q.size s).1
    (noteAccess 0x06 q.size va ((readWhole va (directSpan s va q.size) q.size s).2.ordered (directSpan s va q.size))) = _
  rw [readWhole, if_pos h1, noteAccess_aligned _ _ h1, ordered_direct, readSpan_direct]
  rfl

theorem fromLE_eq : ∀ bs : List Byte, fromLE bs = BitVec.ofNat 32 (numberLE bs)
  | [] => rfl
  | b :: bs => by
    rw [fromLE, fromLE_eq bs, numberLE]
    apply BitVec.eq_of_toNat_eq
    have hb := b.isLt
    have e : (b.setWidth 32 ||| (BitVec.ofNat 32 (numberLE bs) <<< 8) : Word) =
        b.setWidth 32 + (BitVec.ofNat 32 (numberLE bs) <<< 8) := by
      rw [BitVec.add_eq_or_of_and_eq_zero]
      apply BitVec.eq_of_getLsbD_eq
      intro i hi
      rw [BitVec.getLsbD_and, BitVec.getLsbD_setWidth, BitVec.getLsbD_shiftLeft, BitVec.getLsbD_zero]
      by_cases h8 : i < 8
      · simp [h8]
      · rw [BitVec.getLsbD_of_ge b i (by omega)]; simp
    rw [e, BitVec.toNat_add, BitVec.toNat_setWidth, BitVec.toNat_shiftLeft, BitVec.toNat_ofNat, BitVec.toNat_ofNat,
      Nat.shiftLeft_eq]
    omega

theorem assemble_eq (big : Bool) (bs : List Byte) :
    assemble big bs = BitVec.ofNat 32 (numberLE (if big then bs.reverse else bs)) := fromLE_eq _

/-- A direct read of a value. -/
theorem readData_direct {s : State} (h : Direct s) (q : Req) {va : Word}
    (hn : q.size = 1 ∨ q.size = 2 ∨ q.size = 4 ∨ q.size = 8) (h1 : va.toNat % q.size = 0) (h2 : va.toNat % q.align = 0) :
    readData q va s = .ok (loadAt s va q.size) { s.note 0x06 with late := arrivedLate s } := by
  rw [readData, prepare_off h.mmuOff q (by decide) hn h1 h2]
  show readAt q va (directSpan s va q.size) s = _
  rw [readAt, readBytes_direct h q h1]
  show Acc.ok (assemble _ _) _ = _
  rw [assemble_eq]; rfl

/-! ## Stores -/

/-- The memory with bytes stored at rising addresses. -/
def storeList (m : List Host.Cell) (key : Nat → Nat) : Nat → List Byte → List Host.Cell
  | _, [] => m
  | i, b :: bs => storeList (memWrite m (key i) b) key (i + 1) bs

theorem writeReach_strong (s : State) (ns : Bool) (pa : Word) :
    writeReach s (s.dataRoute strongAttrs) ns pa = .bus := by
  rw [writeReach, (dataRoute_strong s).1, (dataRoute_strong s).2]; rfl

theorem writeByte_strong (s : State) (ns : Bool) (pa : Word) (b : Byte) :
    writeByte s (s.dataRoute strongAttrs) ns pa b = { s with mem := memWrite s.mem (memKey ns pa) b } := by
  rw [writeByte, writeReach_strong, (dataRoute_strong s).1, (dataRoute_strong s).2]; rfl

theorem writeSpan_direct (s : State) (va : Word) (n : Nat) : ∀ (bs : List Byte) (i : Nat) (t : State), i + bs.length ≤ n →
    writeSpan (directSpan s va n) i bs t =
      { t with mem := storeList t.mem (fun i => memKey (!s.secure) (mvaOf s.cur va + BitVec.ofNat 32 i)) i bs }
  | [], _, _, _ => rfl
  | b :: bs, i, t, h => by
    have hl : i + 1 + bs.length ≤ n := by simp only [List.length_cons] at h; omega
    have e : writeSpan (directSpan s va n) i (b :: bs) t =
        writeSpan (directSpan s va n) (i + 1) bs (writeByte t (t.dataRoute strongAttrs) (!s.secure)
          (mvaOf s.cur va + BitVec.ofNat 32 i) b) := by
      rw [writeSpan, directSpan_at _ _ _ _ (by omega)]
    rw [e, writeSpan_direct s va n bs (i + 1) _ hl, writeByte_strong]
    rfl

theorem storeList_wf (key : Nat → Nat) : ∀ (bs : List Byte) (m : List Host.Cell) (i : Nat), Memory.wf m = true →
    Memory.wf (storeList m key i bs) = true
  | [], _, _, h => h
  | _ :: bs, _, i, h => storeList_wf key bs _ (i + 1) (memWrite_wf h _ _)

/-- A byte elsewhere reads as before. -/
theorem storeList_apart (key : Nat → Nat) : ∀ (bs : List Byte) (m : List Host.Cell) (i k : Nat), Memory.wf m = true →
    (∀ j < bs.length, k ≠ key (i + j)) → memRead (storeList m key i bs) k = memRead m k
  | [], _, _, _, _, _ => rfl
  | b :: bs, m, i, k, h, hk => by
    rw [storeList, storeList_apart key bs _ (i + 1) k (memWrite_wf h _ _), memRead_memWrite h, if_neg]
    · exact hk 0 (Nat.succ_pos _)
    · intro j hj
      have := hk (j + 1) (Nat.succ_lt_succ hj)
      rwa [show i + (j + 1) = i + 1 + j by omega] at this

/-- Each byte stored is read back, where the keys differ. -/
theorem storeList_at (key : Nat → Nat) : ∀ (bs : List Byte) (m : List Host.Cell) (i j : Nat), Memory.wf m = true →
    (∀ a b, a < bs.length → b < bs.length → key (i + a) = key (i + b) → a = b) → (hj : j < bs.length) →
    memRead (storeList m key i bs) (key (i + j)) = bs[j]
  | [], _, _, _, _, _, hj => absurd hj (Nat.not_lt_zero _)
  | b :: bs, m, i, 0, h, hi, _ => by
    rw [storeList, storeList_apart key bs _ (i + 1) _ (memWrite_wf h _ _), memRead_memWrite h, Nat.add_zero, if_pos rfl]; · rfl
    intro j hj e
    have := hi 0 (j + 1) (Nat.succ_pos _) (Nat.succ_lt_succ hj) (by rwa [show i + (j + 1) = i + 1 + j by omega])
    omega
  | b :: bs, m, i, j + 1, h, hi, hj => by
    rw [storeList, show i + (j + 1) = i + 1 + j by omega]
    refine storeList_at key bs _ (i + 1) j (memWrite_wf h _ _) (fun a c ha hc e => ?_) (Nat.lt_of_succ_lt_succ hj)
    have := hi (a + 1) (c + 1) (Nat.succ_lt_succ ha) (Nat.succ_lt_succ hc)
      (by rwa [show i + (a + 1) = i + 1 + a by omega, show i + (c + 1) = i + 1 + c by omega])
    omega

theorem keyAt_inj {s : State} {va : Word} {a b : Nat} (ha : a < 2 ^ 32) (hb : b < 2 ^ 32) (h : keyAt s va a = keyAt s va b) :
    a = b := by
  have e := (memKey_inj h).2
  have e' : BitVec.ofNat 32 a = BitVec.ofNat 32 b := by
    have := congrArg (fun x => x - mvaOf s.cur va) e
    simpa [BitVec.add_comm, BitVec.add_sub_cancel] using this
  have := congrArg BitVec.toNat e'
  rw [BitVec.toNat_ofNat, BitVec.toNat_ofNat, Nat.mod_eq_of_lt ha, Nat.mod_eq_of_lt hb] at this
  exact this

theorem toLE_length : ∀ (n : Nat) (x : Word), (toLE n x).length = n
  | 0, _ => rfl
  | n + 1, x => by rw [toLE, List.length_cons, toLE_length n]

theorem toLE_get : ∀ (n : Nat) (x : Word) (i : Nat) (h : i < (toLE n x).length), (toLE n x)[i] = x.extractLsb' (8 * i) 8
  | 0, _, _, h => absurd h (Nat.not_lt_zero _)
  | n + 1, x, 0, _ => by
    show x.setWidth 8 = _
    apply BitVec.eq_of_getLsbD_eq
    intro i hi
    simp [-BitVec.getLsbD_eq_getElem, hi]
  | n + 1, x, i + 1, h => by
    have h' : i < (toLE n (x >>> 8)).length := by simpa [toLE] using h
    show (toLE n (x >>> 8))[i] = _
    rw [toLE_get n (x >>> 8) i h']
    apply BitVec.eq_of_getLsbD_eq
    intro j hj
    simp only [BitVec.getLsbD_extractLsb', hj, decide_true, Bool.true_and, BitVec.getLsbD_ushiftRight]
    congr 1; omega

theorem disassemble_length (big : Bool) (n : Nat) (v : Word) : (disassemble big n v).length = n := by
  unfold disassemble; split
  · rw [List.length_reverse, toLE_length]
  · exact toLE_length _ _

theorem disassemble_get (big : Bool) (n : Nat) (v : Word) (i : Nat) (h : i < (disassemble big n v).length) :
    (disassemble big n v)[i] = v.extractLsb' (8 * (if big then n - 1 - i else i)) 8 := by
  cases big
  · exact toLE_get n v i (by simpa [disassemble] using h)
  · have e : disassemble true n v = (toLE n v).reverse := rfl
    simp only [e, List.getElem_reverse, toLE_get, toLE_length, if_true]

/-- A value stored directly: its bytes are at the address, every other byte is as before. -/
theorem storeList_stored {s : State} (hw : Memory.wf s.mem = true) (va : Word) {n : Nat} (hn : n ≤ 8) (v : Word) :
    Stored s va n v (storeList s.mem (keyAt s va) 0 (disassemble (s.cpsr.getLsbD 9) n v)) := by
  have hl := disassemble_length (s.cpsr.getLsbD 9) n v
  refine ⟨fun i hi => ?_, fun k hk => ?_, storeList_wf _ _ _ _ hw⟩
  · have := storeList_at (keyAt s va) (disassemble (s.cpsr.getLsbD 9) n v) s.mem 0 i hw
      (fun a b ha hb e => by
        rw [Nat.zero_add, Nat.zero_add] at e
        exact keyAt_inj (by omega) (by omega) e) (by omega)
    rw [Nat.zero_add] at this
    rw [this, disassemble_get]
  · exact storeList_apart _ _ _ _ _ hw (fun j hj => by rw [Nat.zero_add]; exact hk j (by omega))

theorem arrived_arrivedLate (s : State) : Arrived (arrivedLate s) := by
  intro l h
  obtain ⟨k, _, rfl⟩ := List.mem_map.1 h
  refine ⟨?_, rfl⟩
  show (if k.stage = .pending then LateStage.arrived else k.stage) ≠ .pending
  split
  · exact fun e => LateStage.noConfusion e
  · assumption

/-- A direct write of bytes. -/
theorem writeBytes_direct {s : State} (h : Direct s) (q : Req) {va : Word} (bs : List Byte) (hl : bs.length ≤ q.size)
    (h1 : va.toNat % q.size = 0) :
    ∃ late, Arrived late ∧ writeBytes q va bs (directSpan s va q.size) s =
      .ok () ({ s with mem := storeList s.mem (keyAt s va) 0 bs, late := late }.note 0x07) := by
  have hk := onlyLate_lateStore (directSpan s va q.size) 0 bs false s
  refine ⟨_, arrived_arrivedLate (lateStore (directSpan s va q.size) 0 bs false s), ?_⟩
  rw [writeBytes, apbAccess_none h.noPort]
  show writeMemory q va _ (directSpan s va q.size) s = _
  rw [writeMemory, writeError_none h.noError h.noPort, watchGate_off h.noDebug]
  show Acc.ok () (noteAccess 0x07 q.size va
    ((writeWhole va (directSpan s va q.size) q.size bs s).ordered (directSpan s va q.size))) = _
  rw [writeWhole, if_pos h1, noteAccess_aligned _ _ h1, ordered_direct, writeSpan_direct _ _ _ _ _ _ (by omega)]
  generalize lateStore (directSpan s va q.size) 0 bs false s = t at hk ⊢
  rw [hk]
  rfl

/-- A direct write of a value. -/
theorem writeData_direct {s : State} (h : Direct s) (q : Req) {va : Word} (v : Word)
    (hn : q.size = 1 ∨ q.size = 2 ∨ q.size = 4 ∨ q.size = 8) (h1 : va.toNat % q.size = 0) (h2 : va.toNat % q.align = 0) :
    ∃ late, Arrived late ∧ writeData q va v s = .ok ()
      ({ s with mem := storeList s.mem (keyAt s va) 0 (disassemble (s.cpsr.getLsbD 9) q.size v), late := late }.note 0x07) := by
  have hd := disassemble_length (s.cpsr.getLsbD 9) q.size v
  obtain ⟨late, h3, h4⟩ := writeBytes_direct h q (disassemble (s.cpsr.getLsbD 9) q.size v) (le_of_eq hd) h1
  refine ⟨late, h3, ?_⟩
  rw [writeData, prepare_off h.mmuOff q (by decide) hn h1 h2]
  exact h4

end Sys2Proof.Machine
end

