-- ==== Sys2Proof/Laws/Banks.lean ====
section
/-! SUPPORT. Banks of registers and the reset state. -/

noncomputable section

namespace Sys2Proof.Machine

open Safety

/-- CPSR after reset depends on two straps (10_state.md R98). -/
theorem cpsrReset_spec (p : Straps) :
    let c' := cpsrReset p
    Mode.ofBits (c'.extractLsb' 0 5) = some .svc ∧ c'.getLsbD 8 = true ∧ c'.getLsbD 7 = true ∧ c'.getLsbD 6 = true ∧
    c'.getLsbD 24 = false ∧ c'.getLsbD 5 = p.cfgte ∧ c'.getLsbD 9 = p.cfgend0 := by
  unfold cpsrReset
  generalize p.cfgte = a
  generalize p.cfgend0 = b
  revert a b; decide

/-- SCTLR after reset depends on four straps (R2212). -/
theorem sctlrReset_spec (p : Straps) :
    let x := (Banked.reset p).sctlr
    x &&& ~~~0x4A002000 = 0x00C50078 ∧ x.getLsbD 30 = p.cfgte ∧ x.getLsbD 27 = p.cfgnmfi ∧ x.getLsbD 25 = p.cfgend0 ∧
    x.getLsbD 13 = p.vinithi := by
  unfold Banked.reset
  generalize p.cfgte = a
  generalize p.cfgend0 = b
  generalize p.cfgnmfi = c
  generalize p.vinithi = d
  revert a b c d; decide

theorem resetWith_mode (k : Build) (p : Straps) : (State.resetWith k p).mode = .svc := by
  unfold State.mode
  rw [show (State.resetWith k p).cpsr = cpsrReset p from rfl, (cpsrReset_spec p).1]
  rfl

theorem sameBank_iff : ∀ (m k : Mode) (n : BitVec 4), n ≠ 15 → (physReg m n = physReg k n ↔ sameBank m k n = true) := by
  intro m k; cases m <;> cases k <;> decide

theorem physReg_ne : ∀ (m k : Mode) (n j : BitVec 4), n ≠ 15 → j ≠ 15 → n ≠ j → physReg m n ≠ physReg k j := by
  intro m k; cases m <;> cases k <;> decide +kernel

end Sys2Proof.Machine

end
end

