-- ==== Sys2Proof/Laws/Exceptions.lean ====
section
/-! SUPPORT. Taking an exception, returning from one, and branches that can change state: what each leaves, field by
field. -/

namespace Sys2Proof.Machine

open Sys2Proof.Safety

/-- CPSR.T set. -/
theorem setBit_T (w : Word) : setBit w 5 true = w ||| 0x20 := by
  apply BitVec.eq_of_getLsbD_eq; intro i hi
  rw [getLsbD_setBit _ _ _ _ (by decide), BitVec.getLsbD_or]
  by_cases h : i = 5
  · subst h; simp
  · rw [if_neg h]
    have : (0x20 : Word).getLsbD i = false := by
      rw [show (0x20:Word) = BitVec.twoPow 32 5 from rfl, BitVec.getLsbD_twoPow]; simp; omega
    rw [this, Bool.or_false]

/-- BXWritePC (42_data_processing.md R1603). -/
theorem bxTo_eq (s : State) (v : Word) : bxTo s v = interworked s v := by
  unfold bxTo interworked State.note
  rw [setBit_T]

/-- The copy of SCTLR and VBAR that an exception entry uses (60_exceptions.md R1905). -/
theorem bank_entered (m : Mode) (s : State) :
    s.bank (m == .mon || !(if s.mode = .mon then setBit s.sys.scr 0 false else s.sys.scr).getLsbD 0) = enteredBank s m := by
  unfold enteredBank State.bank
  by_cases h1 : m = .mon
  · simp [h1]
  · by_cases h2 : s.mode = .mon
    · rw [if_pos h2, getLsbD_setBit_same _ _ _ (by decide), Bool.not_false, Bool.or_true, if_pos rfl, if_pos (Or.inr (Or.inl h2))]
    · rw [if_neg h2]; cases h : s.sys.scr.getLsbD 0 <;> simp [h1, h2]

/-- SCR.NS cleared. -/
theorem setBit_NS (w : Word) : setBit w 0 false = w &&& 0xFFFFFFFE := by
  apply BitVec.eq_of_getLsbD_eq; intro i hi
  rw [getLsbD_setBit _ _ _ _ (by decide), BitVec.getLsbD_and]
  by_cases h : i = 0
  · subst h; simp
  · rw [if_neg h]
    have : (0xFFFFFFFE : Word).getLsbD i = true := by
      rw [show (0xFFFFFFFE:Word) = ~~~ BitVec.twoPow 32 0 from rfl, BitVec.getLsbD_not, BitVec.getLsbD_twoPow]; simp; omega
    rw [this, Bool.and_true]

/-- Taking an exception, field by field. -/
theorem takeException_eq (x : Exc) (routed : Bool) (m : Mode) (k : Fin 6) (link : Word) (s : State)
    (hm : (if routed then Mode.mon else x.mode) = m) (hk : m.spsrNo = some k) :
    takeException x routed link s = { s with
      gpr := s.gpr.set (physReg m 14) link (physReg m 14).isLt
      spsr := s.spsr.set k s.cpsr k.isLt
      cpsr := entryCpsr s.cpsr m (x.setsA || (m == .mon)) (x == .fiq || (m == .mon)) (enteredBank s m).sctlr
      sys := if s.mode = .mon then { s.sys with scr := s.sys.scr &&& 0xFFFFFFFE } else s.sys
      pc := enteredBase s m + x.offset
      late := s.unflushed
      monitorLeft := false
      happened := s.happened ||| BitVec.twoPow 16 0x09 } := by
  have e : takeException x routed link s = { s with
      gpr := s.gpr.set (physReg m 14) link (physReg m 14).isLt
      spsr := s.spsr.set k s.cpsr k.isLt
      cpsr := entryCpsr s.cpsr m (x.setsA || (m == .mon)) (x == .fiq || (m == .mon)) (s.bank (m == .mon || !(if s.mode = .mon then setBit s.sys.scr 0 false else s.sys.scr).getLsbD 0)).sctlr
      sys := { s.sys with scr := if s.mode = .mon then setBit s.sys.scr 0 false else s.sys.scr }
      pc := vectorBase s m (s.bank (m == .mon || !(if s.mode = .mon then setBit s.sys.scr 0 false else s.sys.scr).getLsbD 0)) + x.offset
      late := s.unflushed
      monitorLeft := false
      happened := s.happened ||| BitVec.twoPow 16 0x09 } := by
    simp only [takeException, hm, State.setSpsr, hk, State.setRegOf, State.note]
  have hs : ({ s.sys with scr := if s.mode = .mon then setBit s.sys.scr 0 false else s.sys.scr } : SysRegs) = if s.mode = .mon then { s.sys with scr := s.sys.scr &&& 0xFFFFFFFE } else s.sys := by
    rw [setBit_NS]; split <;> rfl
  rw [e, hs, bank_entered]
  rfl

/-- Every bit of CPSR after an entry (R1905). -/
theorem entryCpsr_bit (c : Word) (m : Mode) (a f : Bool) (sc : Word) (i : Nat) : (entryCpsr c m a f sc).getLsbD i =
      if i < 5 then m.bits.getLsbD i else if i = 5 then sc.getLsbD 30 else if i = 6 then (f || c.getLsbD 6)
      else if i = 7 then true else if i = 8 then (a || c.getLsbD 8) else if i = 9 then sc.getLsbD 25
      else if i < 16 then false else if i = 24 ∨ i = 25 ∨ i = 26 then false else c.getLsbD i := by
  unfold entryCpsr
  dsimp only
  rw [getLsbD_setBits _ _ _ _ (by decide), getLsbD_setBits _ _ _ _ (by decide), getLsbD_setBit _ _ _ _ (by decide), getLsbD_setBit _ _ _ _ (by decide), getLsbD_setBit _ _ _ _ (by decide)]
  have inner : (if a = true then setBit (if f = true then setBit (setBit (setBits c 0 m.bits) 7 true) 6 true else setBit (setBits c 0 m.bits) 7 true) 8 true else (if f = true then setBit (setBit (setBits c 0 m.bits) 7 true) 6 true else setBit (setBits c 0 m.bits) 7 true)).getLsbD i =
    if i = 8 then (a || c.getLsbD 8) else if i = 6 then (f || c.getLsbD 6) else if i = 7 then true else if i < 5 then m.bits.getLsbD i else c.getLsbD i := by
    cases a <;> cases f <;> simp only [Bool.false_eq_true, if_false, if_true] <;>
    · repeat rw [getLsbD_setBit _ _ _ _ (by decide)]
      rw [getLsbD_setBits _ _ _ _ (by decide)]
      split_ifs <;> first | rfl | omega | simp_all
  rw [inner]
  split_ifs <;> first | rfl | omega | exact BitVec.getLsbD_zero

/-- An exception entry says what `Entered` says. -/
theorem entered (x : Exc) (routed : Bool) (m : Mode) (k : Fin 6) (link : Word) (s : State)
    (hm : (if routed then Mode.mon else x.mode) = m) (hk : m.spsrNo = some k) :
    Entered s (takeException x routed link s) m k link x.offset (x.setsA || (m == .mon)) (x == .fiq || (m == .mon)) := by
  have e := takeException_eq x routed m k link s hm hk
  have c : (takeException x routed link s).cpsr = entryCpsr s.cpsr m (x.setsA || (m == .mon)) (x == .fiq || (m == .mon)) (enteredBank s m).sctlr := by rw [e]
  refine ⟨?_, ?_, ?_, ?_, ?_, ?_, ?_, ?_, ⟨?_, ?_⟩, ?_, ?_⟩
  · rw [c]; exact e
  · have : (takeException x routed link s).cpsr.extractLsb' 0 5 = m.bits := by
      apply BitVec.eq_of_getLsbD_eq; intro i hi
      rw [BitVec.getLsbD_extractLsb', c, entryCpsr_bit, if_pos (by omega)]; simp [-BitVec.getLsbD_eq_getElem, hi]
    rw [State.mode, this]; cases m <;> rfl
  iterate 6 exact (congrArg (BitVec.getLsbD · _) c).trans (entryCpsr_bit _ _ _ _ _ _)
  all_goals
    apply BitVec.eq_of_getLsbD_eq; intro i hi
    rw [BitVec.getLsbD_extractLsb', c, entryCpsr_bit]
    try rw [BitVec.getLsbD_extractLsb']
    split_ifs <;> first | omega | simp [-BitVec.getLsbD_eq_getElem]

/-- The Undefined Instruction exception (R1930). -/
theorem takeUndefined_spec (s : State) : Undefined s (takeUndefined s) := by
  unfold Undefined takeUndefined
  split
  · have : setBit s.dbg.dscr 8 true = s.dbg.dscr ||| 0x100 := by
      apply BitVec.eq_of_getLsbD_eq; intro i hi
      rw [getLsbD_setBit _ _ _ _ (by decide), BitVec.getLsbD_or, show (0x100:Word) = BitVec.twoPow 32 8 from rfl, BitVec.getLsbD_twoPow]
      by_cases h : i = 8
      · subst h; simp
      · rw [if_neg h, decide_eq_false (Ne.symm h)]; simp
    rw [this]; rfl
  · exact entered .undefined false .und 5 _ (s.note 0x02) rfl rfl

/-- Every bit of CPSR that ARM state has is kept, J and IT only in Thumb state (10_state.md R52, R68, R69). -/
theorem stateBits_bit (c : Word) (i : Nat) (hi : i < 32) :
    (stateBits c).getLsbD i = (c.getLsbD i && (c.getLsbD 5 || !thumbOnly i)) := by
  have m : ∀ i < 32, (0xF8FF03FF : Word).getLsbD i = !thumbOnly i := by decide
  unfold stateBits
  split <;> rename_i h
  · rw [h, Bool.true_or, Bool.and_true]
  · have h' : c.getLsbD 5 = false := by simpa using h
    rw [BitVec.getLsbD_and, m i hi, h', Bool.false_or]

/-- A return from an exception with a status it can restore (R1916). -/
theorem exceptionReturn_spec (s : State) (v target : Word) (hh : s.halted = false) (h : Restorable v) :
    ∃ t, exceptionReturn s v target = .next t ∧ Returned s t v target := by
  obtain ⟨h1, h2⟩ := h
  have hj : (v.getLsbD 24 && !v.getLsbD 5) = false := by
    cases a : v.getLsbD 24
    · rfl
    · rw [h2 a]; rfl
  obtain ⟨m, hm⟩ := Option.isSome_iff_exists.1 h1
  have hmon : s.mayEnterMonitor = s.secure := by simp [State.mayEnterMonitor, hh]
  have hn : s.newModeBits (v.extractLsb' 0 5) = some (if Mode.ofBits (v.extractLsb' 0 5) = some .mon ∧ s.secure = false then s.cpsr.extractLsb' 0 5
    else v.extractLsb' 0 5) := by
    unfold State.newModeBits
    rw [hm, hmon]
    cases m <;> simp
    split <;> simp_all
  refine ⟨{ (s.note 0x0A).note 0x0C with
    cpsr := returnCpsr s v (if Mode.ofBits (v.extractLsb' 0 5) = some .mon ∧ s.secure = false then s.cpsr.extractLsb' 0 5
    else v.extractLsb' 0 5)
    pc := target &&& (if v.getLsbD 5 then 0xFFFFFFFE else 0xFFFFFFFC)
    late := s.unflushed
    monitorLeft := false }, ?_, ?_⟩
  · rw [exceptionReturn, hn]
    simp only [hj, Bool.false_eq_true, if_false]
  · generalize hmb : (if Mode.ofBits (v.extractLsb' 0 5) = some .mon ∧ s.secure = false then s.cpsr.extractLsb' 0 5
    else v.extractLsb' 0 5) = mb
    have hA : s.mayWriteA = (s.secure || s.sys.scr.getLsbD 5) := by simp [State.mayWriteA, hh]
    have key (i : Nat) (hi : i < 32) : (returnCpsr s v mb).getLsbD i = if i = 6 then (if (s.secure || s.sys.scr.getLsbD 4) && (!s.cur.sctlr.getLsbD 27 || !v.getLsbD 6 || s.cpsr.getLsbD 6) then v.getLsbD 6 else s.cpsr.getLsbD 6) else if i = 8 then (if (s.secure || s.sys.scr.getLsbD 5) then v.getLsbD 8 else s.cpsr.getLsbD 8) else if i < 5 then mb.getLsbD i else (stateBits v).getLsbD i := by
      have v8 : (stateBits v).getLsbD 8 = v.getLsbD 8 := by rw [stateBits_bit _ _ (by decide)]; simp [thumbOnly]
      have v6 : (stateBits v).getLsbD 6 = v.getLsbD 6 := by rw [stateBits_bit _ _ (by decide)]; simp [thumbOnly]
      unfold returnCpsr
      generalize stateBits v = c at v8 v6 ⊢
      rw [hA]
      simp only []
      split_ifs <;>
      · repeat rw [getLsbD_setBit _ _ _ _ (by decide)]
        rw [getLsbD_setBits _ _ _ _ (by decide)]
        split_ifs <;> first | rfl | omega | simp_all
    refine ⟨rfl, ?_, ?_, ?_, ?_⟩
    · intro i hi h5 h6 h8
      exact (key i hi).trans (by rw [if_neg h6, if_neg h8, if_neg (by omega), stateBits_bit _ _ hi])
    · show (returnCpsr s v mb).extractLsb' 0 5 = _
      rw [hmb]
      apply BitVec.eq_of_getLsbD_eq; intro i hi
      rw [BitVec.getLsbD_extractLsb', key _ (by omega), if_neg (by omega), if_neg (by omega), if_pos (by omega)]
      simp [-BitVec.getLsbD_eq_getElem, hi]
    · refine (key 8 (by decide)).trans ?_
      rw [if_neg (by decide), if_pos rfl]; simp only [Bool.or_eq_true]
    · refine (key 6 (by decide)).trans ?_
      rw [if_pos rfl]
      simp only [Bool.or_eq_true, Bool.and_eq_true, Bool.not_eq_true']
      congr 1
      rw [eq_iff_iff]
      cases v.getLsbD 6 <;> cases s.cpsr.getLsbD 6 <;> cases s.cur.sctlr.getLsbD 27 <;> simp

end Sys2Proof.Machine
end

