-- ==== Sys2Proof/Laws/LoadStore.lean ====
section
/-! SUPPORT. Loads and stores of registers when memory is reached directly, and lists of words. -/

namespace Sys2Proof.Machine

open Sys2Proof.Safety

/-! ## Addressing -/

theorem bit_cases (b : BitVec 1) : b = 0 ∨ b = 1 := by revert b; decide

/-- P as the form has it: the unprivileged forms are post-indexed. -/
def LsForm.pBit (f : LsForm) (o : LsFields) : BitVec 1 := if f.user then 0 else o.p

/-- W as the form has it. -/
def LsForm.wBit (f : LsForm) (o : LsFields) : BitVec 1 := if f.user then 1 else o.w

theorem address_eq (f : LsForm) (o : LsFields) (s : State) :
    f.address o s = effAddress (LsForm.pBit f o) o.u o.rn (o.offset f.offset s) s := by
  unfold LsForm.address effAddress LsForm.pBit LsForm.moved plusMinus
  cases f.user
  · rcases bit_cases o.p with h | h <;> rw [h] <;> rfl
  · rfl

theorem back_eq (f : LsForm) (o : LsFields) : f.back o = writesBack (LsForm.pBit f o) (LsForm.wBit f o) := by
  unfold LsForm.back writesBack LsForm.pBit LsForm.wBit
  cases f.user <;> rfl

/-- The base clash of an allowed form. -/
theorem noClash {f : LsForm} {o : LsFields} {l : List (BitVec 4)} (h : f.allows o l) :
    baseClash (LsForm.pBit f o) (LsForm.wBit f o) o.rn l = false := by
  unfold baseClash
  rw [← back_eq]
  cases hb : f.back o
  · rfl
  · obtain ⟨h1, h2⟩ := h.2 hb
    simp only [Bool.true_and, Bool.or_eq_false_iff, beq_eq_false_iff_ne, ne_eq]
    exact ⟨h1, by simpa using h2⟩

/-- The write-back of the base, in any state that has the registers and the mode of `s`. -/
theorem backBase_eq {f : LsForm} {o : LsFields} {l : List (BitVec 4)} (h : f.allows o l) (s t : State)
    (hg : t.gpr = s.gpr) (hc : t.cpsr = s.cpsr) (hp : t.pc = s.pc) :
    backBase (LsForm.pBit f o) o.u (LsForm.wBit f o) o.rn (o.offset f.offset s) t = { t with gpr := f.regs o s } := by
  unfold backBase LsForm.regs
  rw [← back_eq]
  have hm : t.mode = s.mode := State.mode_congr hc
  have hr : t.reg o.rn = s.reg o.rn := by simp only [State.reg, State.regOf, hg, hm, hp]
  cases hb : f.back o
  · rw [if_neg (by decide), if_neg (by decide), ← hg]
  · rw [if_pos rfl, if_pos rfl, State.setReg_of_ne _ _ _ (h.2 hb).1, hr]
    simp only [withReg, hm, hg]
    rfl

/-! ## One register -/

/-- What a direct load of a register below r15 leaves. -/
theorem loadReg_direct {s : State} (h : Direct s) {f : LsForm} {o : LsFields} (ext : Word → Word) (priv : Bool)
    (hs : f.size = 1 ∨ f.size = 2 ∨ f.size = 4) (hr : o.rt ≠ 15) (ha : f.allows o [o.rt])
    (h1 : (f.address o s).toNat % f.size = 0) :
    loadReg f.size ext priv (LsForm.pBit f o) o.u (LsForm.wBit f o) o.rn o.rt (o.offset f.offset s) s =
      .next { s with
        gpr := withReg { s with gpr := f.regs o s } o.rt (ext (loadAt s (f.address o s) f.size))
        pc := nextPc s, late := arrivedLate s, happened := seen s 0x06 } := by
  have hd := readData_direct h (plainReq f.size priv false) (va := f.address o s) (by tauto) h1
    (show _ % 1 = 0 from Nat.mod_one _)
  rw [loadReg, if_neg (by rw [noClash ha]; simpa using hr), ← address_eq, hd]
  show Host.Outcome.next _ = _
  rw [backBase_eq ha s { s.note 0x06 with late := arrivedLate s } rfl rfl rfl, State.setReg_of_ne _ _ _ hr, State.advance_eq]
  rfl

/-- What a direct store of a register leaves. -/
theorem storeReg_direct {s : State} (h : Direct s) {f : LsForm} {o : LsFields} (pcOk priv : Bool)
    (hs : f.size = 1 ∨ f.size = 2 ∨ f.size = 4) (hr : o.rt = 15 → pcOk = true) (ha : f.allows o [o.rt])
    (h1 : (f.address o s).toNat % f.size = 0) :
    ∃ late, Arrived late ∧
      storeReg f.size pcOk priv (LsForm.pBit f o) o.u (LsForm.wBit f o) o.rn o.rt (o.offset f.offset s) s = .next { s with
        gpr := f.regs o s
        mem := storeList s.mem (keyAt s (f.address o s)) 0 (disassemble (s.cpsr.getLsbD 9) f.size (s.reg o.rt))
        pc := nextPc s, late := late, happened := seen s 0x07 } := by
  obtain ⟨late, hl, hd⟩ := writeData_direct h (plainReq f.size priv true) (va := f.address o s) (s.reg o.rt) (by tauto) h1
    (show _ % 1 = 0 from Nat.mod_one _)
  have hn : ¬ ((o.rt = 15 ∧ (!pcOk) = true) ∨ baseClash (LsForm.pBit f o) (LsForm.wBit f o) o.rn [o.rt] = true) := by
    rw [noClash ha]
    rintro (⟨e, h⟩ | h)
    · rw [hr e] at h; exact absurd h (by decide)
    · exact absurd h (by decide)
  refine ⟨late, hl, ?_⟩
  rw [storeReg, if_neg hn, ← address_eq, hd]
  show Host.Outcome.next _ = _
  rw [backBase_eq ha s _ (by rfl) (by rfl) (by rfl), State.advance_eq]
  rfl

end Sys2Proof.Machine
end

