-- ==== Sys2Proof/Laws/Blocks.lean ====
section
/-! SUPPORT. Block transfers, swaps and exclusive accesses reached directly. -/

noncomputable section

namespace Sys2Proof.Machine

open Safety

theorem unlessOff_ok {rm : BitVec 4} (h : rm ≠ 15) (e) : unlessPCOffset rm e = e := if_neg h

theorem not_mem_rt {rt : BitVec 4} (h0 : rt.getLsbD 0 = false) (h14 : rt ≠ 14) : badPair rt = false ∧ rt ≠ 15 ∧ rt + 1 ≠ 15 := by
  revert h0 h14; revert rt; decide

theorem note_note (s : State) (e : Nat) : (s.note e).note e = s.note e := by
  unfold State.note; simp [BitVec.or_assoc]

theorem aligned4 {va : Word} {n : Nat} (hn : n = 4 ∨ n = 8) (h : va.toNat % n = 0) : va.toNat % 4 = 0 ∧ (va + 4).toNat % 4 = 0 := by
  rw [BitVec.toNat_add]; have : (4 : Word).toNat = 4 := rfl
  rw [this]; rcases hn with rfl | rfl <;> omega

theorem loadAt_congr {s t : State} (h1 : t.mem = s.mem) (h2 : t.cpsr = s.cpsr) (h3 : t.sys = s.sys) (h4 : t.sec = s.sec) (h5 : t.nsec = s.nsec) (va : Word) (n : Nat) : loadAt t va n = loadAt s va n := by
  have hs := State.secure_congr h2 h3
  have hc : t.cur = s.cur := by simp [State.cur, State.bank, hs, h4, h5]
  simp only [loadAt, numberAt, bytesAt, keyAt, h1, h2, hs, hc]

theorem misaligned_read {s : State} (_ : Direct s) (hh : s.halted = false) {α : Type} (x : Acc α) (mva : Word) (write : Bool) (hx : x = .abort (alignmentAbort mva write) s) (k) :
    ∃ t, finish x k = .next t ∧
      Entered { s with
        draws := s.draws + 1
        happened := seen s 0x01
        sec := if s.secure then faulted s.cur mva write 0b00001 ((Config.freeWord s.draws).extractLsb' 0 4) else s.sec
        nsec := if s.secure then s.nsec else faulted s.cur mva write 0b00001 ((Config.freeWord s.draws).extractLsb' 0 4) } t .abt 4 (s.pc + 8) 0x10 true false := by
  subst hx
  refine ⟨_, rfl, ?_⟩
  have hr : s.abortRouted (alignmentAbort mva write) = false := rfl
  have e : (recordDataFault (alignmentAbort mva write) s).note 0x01 = { s with
        draws := s.draws + 1
        happened := seen s 0x01
        sec := if s.secure then faulted s.cur mva write 0b00001 ((Config.freeWord s.draws).extractLsb' 0 4) else s.sec
        nsec := if s.secure then s.nsec else faulted s.cur mva write 0b00001 ((Config.freeWord s.draws).extractLsb' 0 4) } := by
    unfold recordDataFault
    rw [hr]
    have ef : faultStatus 0b00001 write false (s.draw.setWidth 4) = 0#20 ++ bit write ++ (0b00001#5).extractLsb' 4 1 ++ 0#2 ++ (Config.freeWord s.draws).extractLsb' 0 4 ++ (0b00001#5).extractLsb' 0 4 := by
      have : (s.draw.setWidth 4) = (Config.freeWord s.draws).extractLsb' 0 4 := by
        apply BitVec.eq_of_getLsbD_eq; intro i hi; simp [-BitVec.getLsbD_eq_getElem, hi, State.draw]
      rw [this, faultStatus]; rfl
    cases hs : s.secure
    · simp only [alignmentAbort, Bool.false_or, Option.getD, State.cur, hs]; rfl
    · simp only [alignmentAbort, Bool.false_or, Option.getD, State.cur, hs]; rfl
  have := entered .dataAbort false .abt 4 (s.pc + 8) ((recordDataFault (alignmentAbort mva write) s).note 0x01) rfl rfl
  rw [e] at this
  have et : takeDataAbort (alignmentAbort mva write) s = takeException .dataAbort false (s.pc + 8) ((recordDataFault (alignmentAbort mva write) s).note 0x01) := by
    unfold takeDataAbort
    rw [if_neg (show ¬ (alignmentAbort mva write).watch = true from Bool.false_ne_true)]
    dsimp only
    rw [if_neg (by simp [hh]), hr]
  rw [et, e]; exact this

theorem range_filter_get (p : Nat → Bool) (N n : Nat) (hn : n < N) (hp : p n = true) : ((List.range N).filter p)[((List.range n).filter p).length]? = some n := by
  obtain ⟨k, rfl⟩ : ∃ k, N = n + (k + 1) := ⟨N - n - 1, by omega⟩
  rw [List.range_add, List.filter_append, List.getElem?_append_right (Nat.le_refl _), Nat.sub_self, List.range_succ_eq_map, List.map_cons, List.filter_cons_of_pos (by simpa using hp)]
  rfl

theorem regList_get {k : Nat} (regs : BitVec k) (n : Nat) (hn : n < k) (h : regs.getLsbD n = true) : (regList regs)[below regs n]? = some (BitVec.ofNat 4 n) := by
  rw [regList, List.getElem?_map, below, range_filter_get _ _ _ hn h]; rfl

theorem regList_length {k : Nat} (regs : BitVec k) : (regList regs).length = below regs k := by
  rw [regList, List.length_map, below]

theorem mem_regList {regs : BitVec 16} {r : BitVec 4} : r ∈ regList regs ↔ regs.getLsbD r.toNat = true := by
  unfold regList
  simp only [List.mem_map, List.mem_filter, List.mem_range]
  constructor
  · rintro ⟨i, ⟨hi, h⟩, rfl⟩; rw [BitVec.toNat_ofNat, Nat.mod_eq_of_lt hi]; exact h
  · intro h; exact ⟨r.toNat, ⟨r.isLt, h⟩, by simp⟩

theorem nodup_regList (regs : BitVec 16) : (regList regs).Nodup := by
  unfold regList
  apply List.Nodup.map_on
  · intro x hx y hy e
    have hx' := (List.mem_filter.1 hx).1; have hy' := (List.mem_filter.1 hy).1
    rw [List.mem_range] at hx' hy'
    have := congrArg BitVec.toNat e
    rwa [BitVec.toNat_ofNat, BitVec.toNat_ofNat, Nat.mod_eq_of_lt hx', Nat.mod_eq_of_lt hy'] at this
  · exact (List.nodup_range).filter _

def loadedList (s : State) : List (BitVec 4) → Word → List (BitVec 4 × Word)
  | [], _ => []
  | r :: rs, a => (r, loadAt s a 4) :: loadedList s rs (a + 4)

theorem arrivedLate_idem (s t : State) (h : t.late = arrivedLate s) : arrivedLate t = arrivedLate s := by
  unfold arrivedLate at *
  rw [h, List.map_map]
  refine List.map_congr_left fun l _ => ?_
  rcases l with ⟨_, stage, _, _, _⟩
  cases stage <;> rfl

theorem loadWords_direct (s0 : State) (q : Req) (hq : q.size = 4 ∧ q.align = 4) : ∀ (rs : List (BitVec 4)) (a : Word) (s : State), Direct s →
    (∀ va, loadAt s va 4 = loadAt s0 va 4) → a.toNat % 4 = 0 →
    loadWords q rs a s = (loadedList s0 rs a, .ok () (if rs = [] then s else { s.note 6 with late := arrivedLate s }))
  | [], a, s, _, _, _ => rfl
  | r :: rs, a, s, hD, hl, h => by
    have h4 : (a + 4).toNat % 4 = 0 := by rw [BitVec.toNat_add]; have : (4 : Word).toNat = 4 := rfl; omega
    rw [loadWords, readData_direct hD q (Or.inr (Or.inr (Or.inl hq.1))) (by rw [hq.1]; exact h) (by rw [hq.2]; exact h), hq.1]
    dsimp only
    rw [gap_nil (s := { s.note 6 with late := arrivedLate s }) hD.alone, ite_self,
      loadWords_direct s0 q hq rs (a + 4) { s.note 6 with late := arrivedLate s } (direct_late (direct_note hD 6) _)
        (fun va => (loadAt_congr rfl rfl rfl rfl rfl va 4).trans (hl va)) h4]
    simp only [loadedList, hl, reduceCtorEq, if_false]
    split
    · rfl
    · rw [arrivedLate_idem s { s.note 6 with late := arrivedLate s } rfl]
      have e := note_note s 6
      congr 2
      show { (s.note 6).note 6 with late := arrivedLate s } = _
      rw [e]

theorem physReg_inj (m : Mode) (a b : BitVec 4) (ha : a ≠ 15) (hb : b ≠ 15) (h : physReg m a = physReg m b) : a = b := by
  revert a b; cases m <;> decide

theorem setLoaded_spec (m : Mode) (s0 : State) : ∀ (rs : List (BitVec 4)) (a : Word) (s : State), rs.Nodup →
    ∃ g, setLoaded m (loadedList s0 rs a) s = { s with gpr := g } ∧ ∀ j : Fin 32,
      (∀ k r, rs[k]? = some r → r ≠ 15 → physReg m r = j → g[j] = loadAt s0 (a + BitVec.ofNat 32 (4 * k)) 4) ∧
      ((∀ r ∈ rs, r ≠ 15 → physReg m r ≠ j) → g[j] = s.gpr[j])
  | [], a, s, _ => ⟨s.gpr, rfl, fun j => ⟨fun k r h => by simp at h, fun _ => rfl⟩⟩
  | r :: rs, a, s, hn => by
    obtain ⟨hr, hn'⟩ := List.nodup_cons.1 hn
    obtain ⟨g, h1, h2⟩ := setLoaded_spec m s0 rs (a + 4) (if r = 15 then s else s.setRegOf m r (loadAt s0 a 4)) hn'
    refine ⟨g, ?_, fun j => ⟨?_, ?_⟩⟩
    · rw [loadedList, setLoaded, h1]; split <;> rfl
    · intro k r' hk h15 hj
      cases k with
      | zero =>
        have : r = r' := by simpa using hk
        subst this
        rw [(h2 j).2 (fun r'' hm h h' => hr (by rw [physReg_inj m r r'' h15 h (hj.trans h'.symm)]; exact hm)), if_neg h15]
        subst hj
        simp [State.setRegOf]
      | succ k =>
        rw [(h2 j).1 k r' (by simpa using hk) h15 hj]
        congr 1
        rw [show 4 * (k + 1) = 4 + 4 * k by omega, BitVec.ofNat_add]
        rw [← BitVec.add_assoc]; rfl
    · intro h
      rw [(h2 j).2 (fun r' hm => h r' (List.mem_cons_of_mem _ hm))]
      split
      · rfl
      · rename_i h15
        have := h r List.mem_cons_self h15
        simp only [State.setRegOf]
        show (s.gpr.set (physReg m r) _ _)[j.val] = s.gpr[j.val]
        rw [Vector.getElem_set_ne]
        exact fun e => this (Fin.ext e)

theorem loadedPC_eq (s : State) : ∀ (rs : List (BitVec 4)) (a : Word), loadedPC (loadedList s rs a) = (rs.findIdx? (· == 15)).map fun k => loadAt s (a + BitVec.ofNat 32 (4 * k)) 4
  | [], a => rfl
  | r :: rs, a => by
    have ih := loadedPC_eq s rs (a + 4)
    unfold loadedPC at ih ⊢
    rw [loadedList, List.find?_cons, List.findIdx?_cons]
    by_cases h : r = 15
    · subst h; simp
    · have hf : (r == 15) = false := by simpa using h
      simp only [hf, Bool.false_eq_true, if_false]
      rw [ih]
      cases rs.findIdx? (· == 15) with
      | none => rfl
      | some k =>
        simp only [Option.map_some]
        congr 2
        rw [show 4 * (k + 1) = 4 + 4 * k by omega, BitVec.ofNat_add]
        rw [← BitVec.add_assoc]; rfl

theorem blockStart_eq (p u : BitVec 1) (base : Word) (n : Nat) : blockStart p u base n = blockLow p u base n := by
  unfold blockStart blockLow
  rcases bit_cases u with rfl | rfl <;> rcases bit_cases p with rfl | rfl <;> simp

theorem blockEnd_eq (u : BitVec 1) (base : Word) (n : Nat) : blockEnd u base n = blockHigh u base n := rfl

theorem regList_ne {regs : BitVec 16} (h : regs ≠ 0) : regList regs ≠ [] := by
  intro e
  apply h
  apply BitVec.eq_of_getLsbD_eq
  intro i hi
  rw [BitVec.ofNat_eq_ofNat, BitVec.getLsbD_zero]
  by_contra hc
  have : regs.getLsbD i = true := by simpa using hc
  have := (mem_regList (regs := regs) (r := BitVec.ofNat 4 i)).2 (by rw [BitVec.toNat_ofNat, Nat.mod_eq_of_lt hi]; exact this)
  rw [e] at this; simp at this

theorem loadBlock_direct {s : State} (hD : Direct s) (m : Mode) (p u w : BitVec 1) (rn : BitVec 4) (regs : BitVec 16) (hne : regs ≠ 0) (hrn : rn ≠ 15)
    (hw : w = 1 → regs.getLsbD rn.toNat = false) (hwm : w = 1 → m = s.mode)
    (ha : (blockLow p u (s.reg rn) (below regs 16)).toNat % 4 = 0) (k) :
    ∃ g, LoadedFrom s m regs (blockLow p u (s.reg rn) (below regs 16)) (if w = 1 then withReg s rn (blockHigh u (s.reg rn) (below regs 16)) else s.gpr) g ∧
     loadBlock m p u w rn (regList regs) s k = k (loadedPC (loadedList s (regList regs) (blockLow p u (s.reg rn) (below regs 16)))) { s with gpr := g, late := arrivedLate s, happened := seen s 6 } := by
  have hl := regList_length regs
  have hne' := regList_ne hne
  obtain ⟨g, h1, h2⟩ := setLoaded_spec m s (regList regs) (blockLow p u (s.reg rn) (below regs 16)) { s.note 6 with late := arrivedLate s } (nodup_regList regs)
  have hcl : ¬ (regList regs = [] ∨ rn = 15 ∨ (w = 1 ∧ (regList regs).contains rn = true)) := by
    rintro (h | h | ⟨h, h'⟩)
    · exact hne' h
    · exact hrn h
    · rw [List.contains_iff_mem, mem_regList, hw h] at h'; exact absurd h' (by decide)
  have e : loadBlock m p u w rn (regList regs) s k = k (loadedPC (loadedList s (regList regs) (blockLow p u (s.reg rn) (below regs 16)))) (if w = 1 then (setLoaded m (loadedList s (regList regs) (blockLow p u (s.reg rn) (below regs 16))) { s.note 6 with late := arrivedLate s }).setReg rn (blockHigh u (s.reg rn) (below regs 16)) else setLoaded m (loadedList s (regList regs) (blockLow p u (s.reg rn) (below regs 16))) { s.note 6 with late := arrivedLate s }) := by
    rw [loadBlock, if_neg hcl]
    dsimp only
    rw [hl, blockStart_eq, loadWords_direct s _ ⟨rfl, rfl⟩ _ _ _ hD (fun _ => rfl) ha]
    simp only [if_neg hne', blockEnd_eq]
  have base : ∀ j : Fin 32, (∀ n : BitVec 4, n ≠ 15 → regs.getLsbD n.toNat → physReg m n = j → g[j] = loadAt s (blockLow p u (s.reg rn) (below regs 16) + BitVec.ofNat 32 (4 * below regs n.toNat)) 4) ∧ ((∀ n : BitVec 4, n ≠ 15 → regs.getLsbD n.toNat → physReg m n ≠ j) → g[j] = s.gpr[j]) := by
    intro j
    refine ⟨fun n h15 hn hj => (h2 j).1 _ n ?_ h15 hj, fun h => (h2 j).2 fun r hr h15 => h r h15 (mem_regList.1 hr)⟩
    rw [regList_get regs n.toNat n.isLt hn]; simp
  by_cases w1 : w = 1
  · have hm := hwm w1
    refine ⟨(({ s with gpr := g }.setReg rn (blockHigh u (s.reg rn) (below regs 16)))).gpr, ?_, ?_⟩
    · rw [State.setReg_of_ne _ _ _ hrn, if_pos w1]
      have hmode : ({ s with gpr := g } : State).mode = s.mode := rfl
      intro j
      have hset (v : Vector Word 32) (x : Word) : (v.set (physReg s.mode rn) x (physReg s.mode rn).isLt)[j] = if physReg s.mode rn = j then x else v[j] := by
        show (v.set (physReg s.mode rn).val x _)[j.val] = _
        rw [Vector.getElem_set]
        simp only [Fin.ext_iff]; rfl
      simp only [withReg, hmode, hset]
      constructor
      · intro n h15 hn hj
        rw [if_neg, (base j).1 n h15 hn hj]
        intro e
        rw [hm] at hj
        have := physReg_inj s.mode rn n hrn h15 (e.trans hj.symm)
        rw [this] at hw
        rw [hw w1] at hn; exact absurd hn (by decide)
      · intro h
        split
        · rfl
        · exact (base j).2 h
    · rw [e, if_pos w1, h1, State.setReg_of_ne _ _ _ hrn, State.setReg_of_ne _ _ _ hrn]
      rfl
  · refine ⟨g, ?_, ?_⟩
    · rw [if_neg w1]; exact base
    · rw [e, if_neg w1, h1]; rfl

theorem below_succ {k : Nat} (regs : BitVec k) (n : Nat) : below regs (n + 1) = below regs n + if regs.getLsbD n then 1 else 0 := by
  unfold below; rw [List.range_succ, List.filter_append, List.length_append]; congr 1
  by_cases h : regs.getLsbD n = true
  · rw [if_pos h, List.filter_cons_of_pos (by exact h)]; rfl
  · rw [if_neg h, List.filter_cons_of_neg (by exact h)]; rfl

theorem pc_last (regs : BitVec 16) : (regList regs).findIdx? (· == 15) = if regs.getLsbD 15 then some (below regs 16 - 1) else none := by
  split
  · rename_i h
    have hb : below regs 16 - 1 = below regs 15 := by rw [below_succ, if_pos h]; rfl
    rw [hb, List.findIdx?_eq_some_iff_getElem]
    have hg := regList_get regs 15 (by decide) h
    obtain ⟨hlt, hv⟩ := List.getElem?_eq_some_iff.1 hg
    refine ⟨hlt, by rw [hv]; rfl, ?_⟩
    intro j hj
    have := List.Nodup.getElem_inj_iff (nodup_regList regs) (hi := by omega) (hj := hlt) (i := j)
    rw [hv] at this
    simp only [beq_iff_eq]
    intro e
    have := this.1 (by rw [e]; rfl)
    omega
  · rename_i h
    rw [List.findIdx?_eq_none_iff]
    intro x hx
    rw [beq_eq_false_iff_ne]
    rintro rfl
    exact h (mem_regList.1 hx)

theorem regList_extract (regs : BitVec 16) (h : regs.getLsbD 15 = false) : regList (regs.extractLsb' 0 15) = regList regs := by
  unfold regList
  rw [show List.range 16 = List.range 15 ++ [15] from rfl, List.filter_append, List.filter_cons_of_neg (by rw [h]; decide)]
  simp only [List.filter_nil, List.append_nil]
  congr 1
  apply List.filter_congr
  intro i hi
  rw [List.mem_range] at hi
  simp [-BitVec.getLsbD_eq_getElem, hi]

theorem regs_join (regs : BitVec 16) (h : regs.getLsbD 15 = true) : (1#1 ++ regs.extractLsb' 0 15 : BitVec 16) = regs := by
  apply BitVec.eq_of_getLsbD_eq; intro i hi
  rw [show (1#1 ++ regs.extractLsb' 0 15 : BitVec 16).getLsbD i = _ from BitVec.getLsbD_append]
  by_cases h' : i < 15
  · simp [-BitVec.getLsbD_eq_getElem, h']
  · have : i = 15 := by omega
    subst this; simp [-BitVec.getLsbD_eq_getElem, h]

/-- Words stored one after another. -/
def storeWordList (s : State) : List Word → Word → List Host.Cell → List Host.Cell
  | [], _, m => m
  | v :: vs, a, m => storeWordList s vs (a + 4) (storeList m (keyAt s a) 0 (disassemble (s.cpsr.getLsbD 9) 4 v))

theorem regOf_congr {s t : State} (h : t.gpr = s.gpr) (m : Mode) (n : BitVec 4) : t.regOf m n = s.regOf m n := by unfold State.regOf; rw [h]

theorem storeWords_direct (s0 : State) (q : Req) (hq : q.size = 4 ∧ q.align = 4) (m : Mode) : ∀ (rs : List (BitVec 4)) (a : Word) (mm : List Host.Cell) (h : BitVec 16) (late : List Late), Direct s0 →
    a.toNat % 4 = 0 → (rs = [] → Arrived late) →
    ∃ late', Arrived late' ∧ storeWords q m rs a { s0 with mem := mm, late := late, happened := h } = .ok () { s0 with mem := storeWordList s0 (rs.map fun r => if r = 15 then s0.pc + 8 else s0.regOf m r) a mm, late := late', happened := if rs = [] then h else h ||| BitVec.twoPow 16 7 }
  | [], a, mm, h, late, _, _, hd => ⟨late, hd rfl, rfl⟩
  | r :: rs, a, mm, h, late, hD, ha, _ => by
    have h4 : (a + 4).toNat % 4 = 0 := by rw [BitVec.toNat_add]; have : (4 : Word).toNat = 4 := rfl; omega
    have hD' : Direct { s0 with mem := mm, late := late, happened := h } := direct_congr hD rfl rfl rfl rfl rfl
    obtain ⟨late1, hd1, hw⟩ := writeData_direct hD' q (if r = 15 then s0.pc + 8 else s0.regOf m r)
      (Or.inr (Or.inr (Or.inl hq.1))) (va := a) (by rw [hq.1]; exact ha) (by rw [hq.2]; exact ha)
    obtain ⟨late2, hd2, hr⟩ := storeWords_direct s0 q hq m rs (a + 4)
      (storeList mm (keyAt s0 a) 0 (disassemble (s0.cpsr.getLsbD 9) 4 (if r = 15 then s0.pc + 8 else s0.regOf m r)))
      (h ||| BitVec.twoPow 16 7) late1 hD h4 (fun _ => hd1)
    refine ⟨late2, hd2, ?_⟩
    have hw' : writeData q a (if r = 15 then s0.pc + 8 else ({ s0 with mem := mm, late := late, happened := h } : State).regOf m r)
      { s0 with mem := mm, late := late, happened := h } = _ := hw
    rw [storeWords, hw', hq.1]
    have hg (u : State) (hu : u.gaps = s0.gaps) : (if rs = [] then u else u.gap) = u := by
      rw [gap_nil (hu.trans hD.alone), ite_self]
    show storeWords q m rs (a + 4) (if rs = [] then _ else _) = _
    rw [hg _ (by rfl)]
    refine Eq.trans hr ?_
    simp only [List.map_cons, storeWordList, reduceCtorEq, if_false]
    have e : (if rs = [] then h ||| BitVec.twoPow 16 7 else h ||| BitVec.twoPow 16 7 ||| BitVec.twoPow 16 7) = h ||| BitVec.twoPow 16 7 := by
      split
      · rfl
      · simp [BitVec.or_assoc]
    rw [e]

theorem storeWordList_wf (s : State) : ∀ (vs : List Word) (a : Word) (m : List Host.Cell), Memory.wf m = true → Memory.wf (storeWordList s vs a m) = true
  | [], _, _, h => h
  | _ :: vs, a, _, h => storeWordList_wf s vs (a + 4) _ (storeList_wf _ _ _ _ h)

theorem storeWordList_apart (s : State) : ∀ (vs : List Word) (a : Word) (m : List Host.Cell) (k : Nat), Memory.wf m = true →
    (∀ j < vs.length, ∀ i < 4, k ≠ keyAt s (a + BitVec.ofNat 32 (4 * j)) i) → memRead (storeWordList s vs a m) k = memRead m k
  | [], _, _, _, _, _ => rfl
  | v :: vs, a, m, k, h, hk => by
    rw [storeWordList, storeWordList_apart s vs (a + 4) _ k (storeList_wf _ _ _ _ h), storeList_apart _ _ _ _ _ h]
    · intro j hj
      have := hk 0 (Nat.succ_pos _) j (by rwa [disassemble_length] at hj)
      rw [Nat.zero_add]; simpa using this
    · intro j hj i hi
      have := hk (j + 1) (Nat.succ_lt_succ hj) i hi
      rwa [show 4 * (j + 1) = 4 + 4 * j by omega, BitVec.ofNat_add, ← BitVec.add_assoc] at this

theorem mva_id {s : State} (hf : s.cur.fcse.extractLsb' 25 7 = 0) (a : Word) : mvaOf s.cur a = a := by
  unfold mvaOf
  split
  · rename_i h
    rw [hf, ← h]
    apply BitVec.eq_of_getLsbD_eq; intro i hi
    rw [show (a.extractLsb' 25 7 ++ a.extractLsb' 0 25 : BitVec 32).getLsbD i = _ from BitVec.getLsbD_append]
    by_cases h' : i < 25
    · simp [-BitVec.getLsbD_eq_getElem, h']
    · have h2 : i - 25 < 7 := by omega
      have h3 : 25 + (i - 25) = i := by omega
      simp [-BitVec.getLsbD_eq_getElem, h', h2, h3]
  · rfl

theorem key_ne {s : State} (hf : s.cur.fcse.extractLsb' 25 7 = 0) (a : Word) {x y i j : Nat} (hx : x < 16) (hy : y < 16) (hi : i < 4) (hj : j < 4)
    (h : keyAt s (a + BitVec.ofNat 32 (4 * x)) i = keyAt s (a + BitVec.ofNat 32 (4 * y)) j) : x = y ∧ i = j := by
  unfold keyAt at h
  rw [mva_id hf, mva_id hf] at h
  have := (memKey_inj h).2
  rw [BitVec.add_assoc, BitVec.add_assoc, ← BitVec.ofNat_add, ← BitVec.ofNat_add] at this
  have e : BitVec.ofNat 32 (4 * x + i) = BitVec.ofNat 32 (4 * y + j) := by
    have := congrArg (fun z => z - a) this
    simpa [BitVec.add_comm, BitVec.add_sub_cancel] using this
  have := congrArg BitVec.toNat e
  rw [BitVec.toNat_ofNat, BitVec.toNat_ofNat, Nat.mod_eq_of_lt (by omega), Nat.mod_eq_of_lt (by omega)] at this
  omega

theorem storeWordList_at (s : State) (hf : s.cur.fcse.extractLsb' 25 7 = 0) : ∀ (vs : List Word) (a0 a : Word) (n0 : Nat) (m : List Host.Cell) (k : Nat) (v : Word) (i : Nat), Memory.wf m = true →
    a = a0 + BitVec.ofNat 32 (4 * n0) → n0 + vs.length ≤ 16 → vs[k]? = some v → i < 4 → 
    memRead (storeWordList s vs a m) (keyAt s (a0 + BitVec.ofNat 32 (4 * (n0 + k))) i) = v.extractLsb' (8 * (if s.cpsr.getLsbD 9 then 3 - i else i)) 8
  | [], _, _, _, _, k, v, _, _, _, _, hv, _ => by simp at hv
  | w :: vs, a0, a, n0, m, 0, v, i, h, ha, hl, hv, hi => by
    have : w = v := by simpa using hv
    subst this
    rw [storeWordList, storeWordList_apart s vs (a + 4) _ _ (storeList_wf _ _ _ _ h)]
    · rw [Nat.add_zero, ← ha]
      have := storeList_at (keyAt s a) (disassemble (s.cpsr.getLsbD 9) 4 w) m 0 i h
        (fun x y hx hy e => by
          rw [Nat.zero_add, Nat.zero_add] at e; rw [disassemble_length] at hx hy
          exact keyAt_inj (by omega) (by omega) e) (by rw [disassemble_length]; exact hi)
      rw [Nat.zero_add] at this
      rw [this, disassemble_get]
    · intro j hj i' hi' e
      rw [ha, show a0 + BitVec.ofNat 32 (4 * n0) + 4 + BitVec.ofNat 32 (4 * j) = a0 + BitVec.ofNat 32 (4 * (n0 + 1 + j)) by
        rw [show 4 * (n0 + 1 + j) = 4 * n0 + 4 + 4 * j by omega, BitVec.ofNat_add, BitVec.ofNat_add, ← BitVec.add_assoc, ← BitVec.add_assoc]; rfl] at e
      simp only [List.length_cons] at hl
      have := key_ne hf a0 (by omega) (by omega) hi hi' e
      omega
  | w :: vs, a0, a, n0, m, k + 1, v, i, h, ha, hl, hv, hi => by
    rw [storeWordList, show n0 + (k + 1) = n0 + 1 + k by omega]
    refine storeWordList_at s hf vs a0 (a + 4) (n0 + 1) _ k v i (storeList_wf _ _ _ _ h) ?_ (by simp only [List.length_cons] at hl; omega) (by simpa using hv) hi
    rw [ha, show 4 * (n0 + 1) = 4 * n0 + 4 by omega, BitVec.ofNat_add, ← BitVec.add_assoc]; rfl

theorem storedAt (s : State) (hw : Memory.wf s.mem = true) (hf : s.cur.fcse.extractLsb' 25 7 = 0) (m : Mode) (regs : BitVec 16) (a : Word) :
    StoredAt s m regs a (storeWordList s ((regList regs).map fun r => if r = 15 then s.pc + 8 else s.regOf m r) a s.mem) := by
  have hl : ((regList regs).map fun r => if r = 15 then s.pc + 8 else s.regOf m r).length = below regs 16 := by rw [List.length_map, regList_length]
  have hle : below regs 16 ≤ 16 := by unfold below; exact (List.length_filter_le _ _).trans (by simp)
  refine ⟨?_, ?_, storeWordList_wf _ _ _ _ hw⟩
  · intro n hn i hi
    have := storeWordList_at s hf ((regList regs).map fun r => if r = 15 then s.pc + 8 else s.regOf m r) a a 0 s.mem (below regs n.toNat) (if n = 15 then s.pc + 8 else s.regOf m n) i hw (by simp) (by omega) (by rw [List.getElem?_map, regList_get regs n.toNat n.isLt hn]; simp) hi
    rwa [Nat.zero_add] at this
  · intro k hk
    exact storeWordList_apart s _ _ _ _ hw (by rw [hl]; exact hk)

theorem tail_regList (regs : BitVec 16) (rn : BitVec 4) (h : regs.getLsbD rn.toNat = true → below regs rn.toNat = 0) : (regList regs).tail.contains rn = false := by
  rw [← Bool.not_eq_true, List.contains_iff_mem]
  intro hm
  have hr := mem_regList.1 (List.mem_of_mem_tail hm)
  have hg := regList_get regs rn.toNat rn.isLt hr
  rw [h hr] at hg
  have hn := nodup_regList regs
  cases e : regList regs with
  | nil => rw [e] at hg; simp at hg
  | cons x xs =>
    rw [e] at hg hn hm
    have : x = rn := by simpa using hg
    subst this
    exact (List.nodup_cons.1 hn).1 hm

theorem mod_one_eq (n : Nat) : n % 1 = 0 := Nat.mod_one n

theorem exclTag_direct (s : State) (a : Word) (n : Nat) : exclTag s.build (directSpan s a n) = ⟨!s.secure, mvaOf s.cur a >>> s.build.exclGranule⟩ := rfl

theorem loadExclusive_direct {s : State} (hD : Direct s) (n : Nat) (hn : n = 1 ∨ n = 2 ∨ n = 4 ∨ n = 8) (a : Word) (ha : a.toNat % n = 0) :
    loadExclusive n a s = .ok (bytesAt s a n) { s with happened := seen s 6, late := arrivedLate s, excl := some ⟨!s.secure, mvaOf s.cur a >>> s.build.exclGranule⟩ } := by
  rw [loadExclusive]
  dsimp only
  rw [prepare_off hD.mmuOff (alignedReq n s.privileged false) (by decide) hn ha ha]
  show (match readBytes (alignedReq n s.privileged false) a (directSpan s a n) s with
    | .ok v s2 => _ | .abort i s2 => _ | .stop e => _) = _
  have := readBytes_direct hD (alignedReq n s.privileged false) (va := a) ha
  rw [show readBytes (alignedReq n s.privileged false) a (directSpan s a n) s = _ from this]
  rfl

theorem exclStatus_direct {s : State} (hD : Direct s) (n : Nat) (a : Word) (t : State) :
    exclStatus a (directSpan s a n) n s t = 0 := by
  unfold exclStatus
  rw [apbAccess_none hD.noPort, writeError_none hD.noError hD.noPort]
  simp

/-- A store-exclusive that the local monitor lets pass, where the global monitor does or does not refuse it. -/
theorem exclusiveWrite_direct {s : State} (hD : Direct s) (n : Nat) (a : Word) (bytes : List Byte) (hb : bytes.length = n)
    (ha : a.toNat % n = 0) :
    (s.exclRefused = false → ∃ late, Arrived late ∧
      exclusiveWrite (alignedReq n s.privileged true) a bytes (directSpan s a n) s =
        .ok 0 { s with mem := storeList s.mem (keyAt s a) 0 bytes, late := late, happened := seen s 7, excl := none }) ∧
    (s.exclRefused = true → exclusiveWrite (alignedReq n s.privileged true) a bytes (directSpan s a n) s =
      .ok 1 { s with late := arrivedLate s, excl := none }) := by
  have hs : (directSpan s a n).first.attrs.shareable = true := rfl
  refine ⟨fun h => ?_, fun h => ?_⟩
  · obtain ⟨late, hd, hw⟩ := writeBytes_direct hD (alignedReq n s.privileged true) (va := a) bytes (le_of_eq hb) ha
    have hw' : writeBytes (alignedReq n s.privileged true) a bytes (directSpan s a n) s = _ := hw
    refine ⟨late, hd, ?_⟩
    rw [exclusiveWrite, if_neg (by rw [h]; simp), hw']
    show Acc.ok (exclStatus a (directSpan s a n) n s _) _ = _
    rw [exclStatus_direct hD]
    rfl
  · rw [exclusiveWrite, if_pos (by rw [h, hs, writeError_none hD.noError hD.noPort]; rfl), watchGate_off hD.noDebug]
    rfl

theorem storeExclusive_direct {s : State} (hD : Direct s) (n : Nat) (a : Word) (bytes : List Byte) (hb : bytes.length = n) :
    (s.excl = some ⟨!s.secure, mvaOf s.cur a >>> s.build.exclGranule⟩ → a.toNat % n = 0 → s.exclRefused = false →
      ∃ late, Arrived late ∧ storeExclusive n a bytes s =
        .ok 0 { s with mem := storeList s.mem (keyAt s a) 0 bytes, late := late, happened := seen s 7, excl := none }) ∧
    (s.excl = some ⟨!s.secure, mvaOf s.cur a >>> s.build.exclGranule⟩ → a.toNat % n = 0 → s.exclRefused = true →
      storeExclusive n a bytes s = .ok 1 { s with late := arrivedLate s, excl := none }) ∧
    (s.excl ≠ some ⟨!s.secure, mvaOf s.cur a >>> s.build.exclGranule⟩ →
      storeExclusive n a bytes s = .ok 1 { s with excl := none }) := by
  have ht := translate_off hD.mmuOff s.privileged .write (mvaOf s.cur a)
  rw [show flat s s.secure .write (mvaOf s.cur a) = directPhys s a from rfl] at ht
  have pass (h : s.excl = some ⟨!s.secure, mvaOf s.cur a >>> s.build.exclGranule⟩) (ha : a.toNat % n = 0) :
      storeExclusive n a bytes s = exclusiveWrite (alignedReq n s.privileged true) a bytes (directSpan s a n) s := by
    have hm : misaligned s (alignedReq n s.privileged true) a = false := by simp [misaligned, alignedReq, ha]
    rw [storeExclusive, h]
    dsimp only
    rw [ht]
    refine (if_neg fun x => x ?_).trans ?_
    · rw [hm]; rfl
    · exact (exclTag_direct s a n).symm
  refine ⟨fun h ha hr => ?_, fun h ha hr => ?_, fun h => ?_⟩
  · obtain ⟨late, hd, he⟩ := (exclusiveWrite_direct hD n a bytes hb ha).1 hr
    exact ⟨late, hd, (pass h ha).trans he⟩
  · exact (pass h ha).trans ((exclusiveWrite_direct hD n a bytes hb ha).2 hr)
  · rw [storeExclusive]
    cases he : s.excl with
    | none => dsimp only; congr 1; cases s; simp_all
    | some t =>
      dsimp only
      rw [ht]
      exact if_pos fun e => h (by rw [he, e]; rfl)

theorem mva_add4 (b : Banked) (a : Word) (h : a.toNat % 8 = 0) : mvaOf b (a + 4) = mvaOf b a + 4 := by
  have ht : (a + 4).extractLsb' 25 7 = a.extractLsb' 25 7 := by
    apply BitVec.eq_of_toNat_eq
    rw [BitVec.extractLsb'_toNat, BitVec.extractLsb'_toNat, BitVec.toNat_add, Nat.shiftRight_eq_div_pow, Nat.shiftRight_eq_div_pow]
    have : (4 : Word).toNat = 4 := rfl
    have := a.isLt
    omega
  unfold mvaOf
  rw [ht]
  split
  · apply BitVec.eq_of_toNat_eq
    rw [BitVec.toNat_add, show (b.fcse.extractLsb' 25 7 ++ (a + 4).extractLsb' 0 25 : BitVec 32).toNat = _ from BitVec.toNat_append _ _, show (b.fcse.extractLsb' 25 7 ++ a.extractLsb' 0 25 : BitVec 32).toNat = _ from BitVec.toNat_append _ _]
    rw [← Nat.shiftLeft_add_eq_or_of_lt (BitVec.isLt _), ← Nat.shiftLeft_add_eq_or_of_lt (BitVec.isLt _)]
    have : (4 : Word).toNat = 4 := rfl
    have := (b.fcse.extractLsb' 25 7).isLt
    have := a.isLt
    generalize b.fcse.extractLsb' 25 7 = f at *
    simp only [BitVec.extractLsb'_toNat, BitVec.toNat_add, Nat.shiftRight_zero, Nat.shiftLeft_eq]
    omega
  · rfl

theorem keyAt_add4 {s : State} (a : Word) (h : a.toNat % 8 = 0) (i : Nat) : keyAt s (a + 4) i = keyAt s a (4 + i) := by
  unfold keyAt; rw [mva_add4 _ _ h, BitVec.ofNat_add, ← BitVec.add_assoc]; rfl

theorem storeList_append (key : Nat → Nat) : ∀ (xs ys : List Byte) (m : List Host.Cell) (i : Nat), storeList m key i (xs ++ ys) = storeList (storeList m key i xs) key (i + xs.length) ys
  | [], ys, m, i => rfl
  | x :: xs, ys, m, i => by
    rw [List.cons_append, storeList, storeList_append key xs ys, storeList, List.length_cons, show i + 1 + xs.length = i + (xs.length + 1) by omega]

theorem storeList_shift (key : Nat → Nat) (c : Nat) : ∀ (xs : List Byte) (m : List Host.Cell) (i : Nat), storeList m (fun j => key (c + j)) i xs = storeList m key (c + i) xs
  | [], m, i => rfl
  | x :: xs, m, i => by rw [storeList, storeList, storeList_shift key c xs]; rfl

end Sys2Proof.Machine

end
end

