-- ==== Sys2Proof/Laws/CacheOps.lean ====
section
/-! SUPPORT. What writing cache lines back and cleaning them leaves, when the bus answers no error. -/

namespace Sys2Proof.Machine

open Sys2Proof.Safety

/-- The key of byte `i` of a line. -/
def CacheLine.key (l : CacheLine) (i : Nat) : Nat := memKey l.ns (l.addr i)

theorem CacheLine.key_inj (l : CacheLine) {i j : Nat} (hi : i < 64) (hj : j < 64) (h : l.key i = l.key j) : i = j := by
  have e := (memKey_inj h).2
  unfold CacheLine.addr at e
  have e' := congrArg (fun x => x - (l.tag ++ 0#6 : Word)) e
  simp only [BitVec.add_comm (l.tag ++ 0#6 : Word), BitVec.add_sub_cancel] at e'
  have := congrArg BitVec.toNat e'
  rw [BitVec.toNat_ofNat, BitVec.toNat_ofNat] at this
  omega

/-- Bytes of a line stored in memory: nothing but memory changes. -/
theorem storeBytes_eq (l : CacheLine) : ∀ (bytes : List Nat) (s : State),
    storeBytes l bytes s = { s with mem := (storeBytes l bytes s).mem }
  | [], _ => rfl
  | b :: bytes, s => by
    show storeBytes l bytes (writeMem s l.ns (l.addr b) (l.byte b)) = _
    rw [storeBytes_eq l bytes]; rfl

theorem storeBytes_read (l : CacheLine) : ∀ (bytes : List Nat) (s : State) (k : Nat), Memory.wf s.mem = true →
    (∀ i ∈ bytes, i < 64) →
    memRead (storeBytes l bytes s).mem k = memRead s.mem k ∧ (∀ i ∈ bytes, k ≠ l.key i) ∨
      ∃ i ∈ bytes, k = l.key i ∧ memRead (storeBytes l bytes s).mem k = l.byte i
  | [], _, _, _, _ => Or.inl ⟨rfl, fun _ h => absurd h List.not_mem_nil⟩
  | b :: bytes, s, k, h, hb => by
    have ih := storeBytes_read l bytes (writeMem s l.ns (l.addr b) (l.byte b)) k (writeMem_wf h _ _ _)
      (fun i hi => hb i (List.mem_cons_of_mem _ hi))
    have hw : memRead (writeMem s l.ns (l.addr b) (l.byte b)).mem k = if k = l.key b then l.byte b else memRead s.mem k :=
      memRead_memWrite h _ _ _
    rcases ih with ⟨h1, h2⟩ | ⟨i, hi, h1, h2⟩
    · by_cases e : k = l.key b
      · refine Or.inr ⟨b, List.mem_cons_self, e, ?_⟩
        show memRead (storeBytes l bytes (writeMem s l.ns (l.addr b) (l.byte b))).mem k = _
        rw [h1, hw, if_pos e]
      · refine Or.inl ⟨?_, ?_⟩
        · show memRead (storeBytes l bytes (writeMem s l.ns (l.addr b) (l.byte b))).mem k = _
          rw [h1, hw, if_neg e]
        · intro i hi
          rcases List.mem_cons.1 hi with rfl | hi
          · exact e
          · exact h2 i hi
    · exact Or.inr ⟨i, List.mem_cons_of_mem _ hi, h1, h2⟩

/-! ## What a fetch may still find as it was (20_memory.md R1043) -/

theorem lateBeside_refl (s : State) : LateBeside s s.late := fun _ h => .inl h

theorem lateBeside_trans {s t : State} {late : List Late} (h : LateBeside s t.late) (k : LateBeside t late) :
    LateBeside s late := fun l hl => (k l hl).elim (h l) .inr

/-- What the instruction side alone may still see is drained and gathers nothing. -/
theorem lateBeside_makeLate (s : State) (bytes : List LateByte) (onBus : Bool) :
    LateBeside s (s.makeLate bytes .arrived false onBus).late := by
  intro l h
  unfold State.makeLate at h
  split at h
  · exact .inl h
  · rcases List.mem_cons.1 h with rfl | h
    · exact .inr ⟨rfl, rfl⟩
    · exact .inl h

theorem lateBeside_foldl {α : Type} {f : State → α → State} (h : ∀ s a, LateBeside s (f s a).late) :
    ∀ (l : List α) (s : State), LateBeside s (l.foldl f s).late
  | [], s => lateBeside_refl s
  | a :: l, s => lateBeside_trans (h s a) (lateBeside_foldl h l (f s a))

theorem lateBeside_fetchChanged (l : CacheLine) (before s : State) : LateBeside s (fetchChanged l before s).late :=
  lateBeside_makeLate _ _ _

theorem lateBeside_dropL1i (gone : CacheLine → Bool) (s : State) : LateBeside s (dropL1i gone s).late :=
  lateBeside_foldl (fun _ _ => lateBeside_makeLate _ _ _) _
    { s with l1i := s.l1i.filter fun l => !gone l }

/-! ## Writing lines back -/

/-- Writing quadwords of a line back, without a bus error. -/
theorem writeBack_spec (l : CacheLine) (quads : BitVec 4) {s : State} (hb : s.bus = []) (hp : NoPort s)
    (hw : Memory.wf s.mem = true) :
    ∃ m late, WrittenBack s l quads m ∧ LateBeside s late ∧ writeBack l quads s = { s with mem := m, late := late } := by
  have hne : (((List.range 64).filter fun i => quads.getLsbD (i / 16)).findSome? fun i => busError s l.ns (l.addr i) true) =
      none := by
    rw [List.findSome?_eq_none_iff]; intro i _; exact busError_none hb hp _ _ _
  have hmem (i : Nat) : i ∈ ((List.range 64).filter fun i => quads.getLsbD (i / 16)) ↔
      i < 64 ∧ quads.getLsbD (i / 16) = true := by
    rw [List.mem_filter, List.mem_range]
  have rd := fun k => storeBytes_read l ((List.range 64).filter fun i => quads.getLsbD (i / 16)) s k hw
    (fun i hi => ((hmem i).1 hi).1)
  have hs := storeBytes_eq l ((List.range 64).filter fun i => quads.getLsbD (i / 16)) s
  have hk : LateBeside s (fetchChanged l s (storeBytes l ((List.range 64).filter fun i => quads.getLsbD (i / 16)) s)).late :=
    lateBeside_trans (t := storeBytes l ((List.range 64).filter fun i => quads.getLsbD (i / 16)) s)
      (by rw [hs]; exact lateBeside_refl s) (lateBeside_fetchChanged l s _)
  refine ⟨(storeBytes l ((List.range 64).filter fun i => quads.getLsbD (i / 16)) s).mem, _,
    ⟨?_, ?_, storeBytes_wf _ _ _ hw⟩, hk, ?_⟩
  · intro i hi hq
    rcases rd (l.key i) with ⟨_, h2⟩ | ⟨j, hj, h1, h2⟩
    · exact absurd rfl (h2 i ((hmem i).2 ⟨hi, hq⟩))
    · have := l.key_inj hi ((hmem j).1 hj).1 h1
      subst this
      exact h2
  · intro k hk
    rcases rd k with ⟨h1, _⟩ | ⟨j, hj, h1, _⟩
    · exact h1
    · exact absurd h1 (hk j ((hmem j).1 hj).1 ((hmem j).1 hj).2)
  · rw [writeBack, putBack, hne]
    show fetchChanged l s (storeBytes l ((List.range 64).filter fun i => quads.getLsbD (i / 16)) s) = _
    have e := onlyLate_fetchChanged l s (storeBytes l ((List.range 64).filter fun i => quads.getLsbD (i / 16)) s)
    generalize fetchChanged l s (storeBytes l ((List.range 64).filter fun i => quads.getLsbD (i / 16)) s) = u at e ⊢
    generalize storeBytes l ((List.range 64).filter fun i => quads.getLsbD (i / 16)) s = v at e hs ⊢
    unfold OnlyLate at e
    rw [e, hs]

/-- Cleaning the L2 line in a set and way. -/
theorem cleanL2_spec {l : CacheLine} {set way : Nat} {s : State} (h : lineIn s.l2 set way = some l) (hb : s.bus = [])
    (hp : NoPort s) (hw : Memory.wf s.mem = true) : CleanedL2 s (cleanL2 set way s) l := by
  have hl : lineAt s.l2 set way = some l := h
  have hs : l.set = set ∧ l.way = way := by
    have := List.find?_some h
    simpa [Bool.and_eq_true] using this
  rw [cleanL2, hl]
  dsimp only
  by_cases hd : l.dirty = 0
  · rw [if_pos hd]
    refine ⟨s.mem, s.late, ⟨fun i _ hq => ?_, fun _ _ => rfl, hw⟩, lateBeside_refl s, ?_⟩
    · rw [hd] at hq; simp at hq
    · rw [hs.1, hs.2]; rfl
  · rw [if_neg hd]
    obtain ⟨m, late, h3, h4, h5⟩ := writeBack_spec l l.dirty hb hp hw
    exact ⟨m, late, h3, h4, by rw [h5, hs.1, hs.2]; rfl⟩

/-! ## Lines that move to L2 -/

theorem lineAt_slot {c : List CacheLine} {set way : Nat} {l : CacheLine} (h : lineIn c set way = some l) : l.set = set ∧ l.way = way := by
  have := List.find?_some h
  simpa [Bool.and_eq_true] using this

theorem lineTag_addr (l : CacheLine) : lineTag (l.addr 0) = l.tag := by
  unfold lineTag CacheLine.addr
  refine BitVec.eq_of_getLsbD_eq fun i hi => ?_
  rw [show (l.tag ++ 0#6 : Word) + 0#32 = l.tag ++ 0#6 from BitVec.add_zero _, BitVec.getLsbD_extractLsb', show (l.tag ++ 0#6 : Word).getLsbD (6 + i) = _ from BitVec.getLsbD_append]
  simp [hi]

theorem l2Set_addr (s : State) (l : CacheLine) : s.l2Set (l.addr 0) = l2SetOf s l := by
  unfold State.l2Set l2SetOf
  rw [lineTag_addr]

theorem dropLine_markClean (c : List CacheLine) (set way : Nat) : dropLine (markClean c set way) set way = dropLine c set way := by
  unfold dropLine markClean
  induction c with
  | nil => rfl
  | cons k c ih =>
    rw [List.map_cons, List.filter_cons, List.filter_cons, ih]
    by_cases h : (k.set == set && k.way == way) = true
    · rw [if_pos h]; simp only [h, Bool.not_true, Bool.false_eq_true, if_false]
    · rw [if_neg h]

theorem isWriteBack_eq (l : CacheLine) : l.outer.back = isWriteBack l := by
  unfold isWriteBack; cases l.outer <;> rfl

theorem goesToL2_eq (s : State) (l : CacheLine) :
    (!s.cur.l2en || !s.build.hasL2 || !l.outer.cacheable) = !goesToL2 s l := by
  unfold goesToL2 Build.hasL2
  cases s.cur.l2en <;> cases (s.build.l2Size != .k0) <;> cases l.outer <;> rfl

/-- The occupant of an L2 way written back, before another line takes the way. -/
theorem cleanL2_occupant {s : State} (hb : s.bus = []) (hp : NoPort s) (hw : Memory.wf s.mem = true) (set way : Nat) :
    ∃ m late, ((lineIn s.l2 set way).elim (m = s.mem) fun k => WrittenBack s k k.dirty m) ∧ Memory.wf m = true ∧
      LateBeside s late ∧ cleanL2 set way s = { s with l2 := markClean s.l2 set way, mem := m, late := late } := by
  cases h : lineIn s.l2 set way with
  | none =>
    refine ⟨s.mem, s.late, rfl, hw, lateBeside_refl s, ?_⟩
    have hm : markClean s.l2 set way = s.l2 := by
      unfold markClean
      conv => rhs; rw [← List.map_id s.l2]
      refine List.map_congr_left fun k hk => ?_
      have := List.find?_eq_none.1 h k hk
      rw [if_neg this]; rfl
    rw [cleanL2, show lineAt s.l2 set way = none from h, hm]
  | some k =>
    obtain ⟨m, late, h1, h2, h3⟩ := cleanL2_spec h hb hp hw
    refine ⟨m, late, h1, h1.2.2, h2, ?_⟩
    rw [h3, (lineAt_slot h).1, (lineAt_slot h).2]; rfl

/-- A change of the late stores alone, which the instruction side may not see yet. -/
theorem fetchChanged_eq (l : CacheLine) (before s : State) :
    fetchChanged l before s = { s with late := (fetchChanged l before s).late } := onlyLate_fetchChanged l before s

/-- A line of L2 takes the data of a line of L1. -/
theorem updateL2_spec (l : CacheLine) (s : State) : ∃ late, LateBeside s late ∧ updateL2 l s = { s with
    late := late
    l2 := s.l2.map fun k =>
      if sameAddress s l k then { k with data := l.data, dirty := if isWriteBack l then 0xF else k.dirty } else k } := by
  have hu : updateLine s.l2 (s.l2Set (l.addr 0)) l.ns (l.addr 0) (fun m => { m with data := l.data, dirty := if l.outer.back then 0xF else m.dirty }) =
      s.l2.map fun k => if sameAddress s l k then { k with data := l.data, dirty := if isWriteBack l then 0xF else k.dirty } else k := by
    unfold updateLine sameAddress; rw [lineTag_addr, l2Set_addr, isWriteBack_eq]
  unfold updateL2
  rw [hu]
  generalize s.l2.map _ = c
  exact ⟨_, lateBeside_fetchChanged l s { s with l2 := c }, fetchChanged_eq l s { s with l2 := c }⟩

/-- A line of L1 takes a way of L2, whose occupant is written back. -/
theorem installL2_spec {s : State} (hb : s.bus = []) (hp : NoPort s) (hw : Memory.wf s.mem = true) (l : CacheLine) :
    ∃ m late, ((lineIn s.l2 l.set l.way).elim (m = s.mem) fun k => WrittenBack s k k.dirty m) ∧ Memory.wf m = true ∧
      LateBeside s late ∧ installL2 l s = { s with l2 := l :: without s.l2 l.set l.way, mem := m, late := late } := by
  obtain ⟨m, late, h1, h2, h3, h4⟩ := cleanL2_occupant hb hp hw l.set l.way
  unfold installL2
  rw [h4]
  dsimp only
  rw [dropLine_markClean, show dropLine s.l2 l.set l.way = without s.l2 l.set l.way from rfl]
  generalize without s.l2 l.set l.way = c
  generalize ({ s with l2 := markClean s.l2 l.set l.way, mem := m, late := late } : State) = b
  have hk := lateBeside_fetchChanged l b { s with l2 := l :: c, mem := m, late := late }
  have he := fetchChanged_eq l b { s with l2 := l :: c, mem := m, late := late }
  exact ⟨m, _, h1, h2, lateBeside_trans (t := { s with l2 := l :: c, mem := m, late := late }) h3 hk, he⟩

/-- A dirty line of L1 that goes to L2. -/
theorem castOut_spec {l : CacheLine} {s : State} (hb : s.bus = []) (hp : NoPort s) (hw : Memory.wf s.mem = true)
    (hg : goesToL2 s l = true) :
    (castOut l s).l1d = s.l1d ∧ MovedToL2 s { castOut l s with l1d := cleaned s.l1d l.set l.way } l := by
  have hf : findLine s.l2 (s.l2Set (l.addr 0)) l.ns (l.addr 0) = s.l2.find? (sameAddress s l) := by
    unfold findLine sameAddress; rw [lineTag_addr, l2Set_addr]
  unfold castOut MovedToL2
  dsimp only
  rw [if_neg (by rw [goesToL2_eq, hg]; decide), hf, isWriteBack_eq]
  cases hk : s.l2.find? (sameAddress s l) with
  | some k =>
    have ha : s.l2.any (sameAddress s l) = true := List.any_eq_true.2 ⟨k, List.mem_of_find?_eq_some hk, List.find?_some hk⟩
    obtain ⟨late, h1, h2⟩ := updateL2_spec l s
    dsimp only
    simp only [ha, if_true]
    rw [h2]
    by_cases hback : isWriteBack l = true
    · rw [if_pos hback]
      exact ⟨rfl, s.mem, late, h1, by rw [if_pos hback], rfl⟩
    · rw [if_neg hback]
      generalize s.l2.map _ = c
      obtain ⟨m, late', h3, h4, h5⟩ := writeBack_spec l 0xF (s := { s with l2 := c, late := late }) hb hp hw
      rw [h5]
      exact ⟨rfl, m, late', lateBeside_trans (t := { s with l2 := c, late := late }) h1 h4, by rw [if_neg hback]; exact h3, rfl⟩
  | none =>
    have ha : s.l2.any (sameAddress s l) = false := by
      rw [← Bool.not_eq_true, List.any_eq_true]; rintro ⟨k, h1, h2⟩
      exact absurd h2 (List.find?_eq_none.1 hk k h1)
    dsimp only
    simp only [ha, Bool.false_eq_true, if_false]
    rw [l2Set_addr]
    split
    · rename_i hc
      have hlock : s.sys.l2lock.getLsbD (s.draw.extractLsb' 0 3).toNat = false := by
        rw [Bool.and_eq_true, Bool.not_eq_true'] at hc; exact hc.2
      obtain ⟨m0, late0, h1, h1w, h2, h3⟩ := installL2_spec (s := s.drawn) hb hp hw
        { l with set := l2SetOf s l, way := (s.draw.extractLsb' 0 3).toNat, dirty := if isWriteBack l then 0xF else 0 }
      rw [h3]
      by_cases hback : isWriteBack l = true
      · rw [if_pos hback]
        exact ⟨rfl, m0, late0, h2, .inr ⟨_, (s.draw.extractLsb' 0 3).isLt, hlock, m0, h1, by rw [if_pos hback], rfl⟩⟩
      · rw [if_neg hback]
        dsimp only
        generalize hc : _ :: without s.drawn.l2 _ _ = c
        obtain ⟨m, late, h6, h7, h8⟩ := writeBack_spec l 0xF (s := { s.drawn with l2 := c, mem := m0, late := late0 }) hb hp h1w
        rw [h8]
        refine ⟨rfl, m, late, lateBeside_trans (t := { s.drawn with l2 := c, mem := m0, late := late0 }) h2 h7,
          .inr ⟨_, (s.draw.extractLsb' 0 3).isLt, hlock, m0, h1, by rw [if_neg hback]; exact h6, ?_⟩⟩
        rw [← hc]; rfl
    · obtain ⟨m, late, h3, h4, h5⟩ := writeBack_spec l 0xF (s := s.drawn) hb hp hw
      rw [h5]
      exact ⟨rfl, m, late, h4, .inl ⟨h3, rfl⟩⟩

/-- Cleaning the L1 data line in a set and way. -/
theorem cleanL1d_spec {l : CacheLine} {set way : Nat} {s : State} (h : lineIn s.l1d set way = some l) (hb : s.bus = [])
    (hp : NoPort s) (hw : Memory.wf s.mem = true) : CleanedL1 s (cleanL1d set way s) l := by
  have hl : lineAt s.l1d set way = some l := h
  obtain ⟨hs1, hs2⟩ := lineAt_slot h
  rw [cleanL1d, hl]
  dsimp only
  refine ⟨fun hd => ?_, fun hd hg => ?_, fun hd hg => ?_⟩
  · rw [if_pos hd, hs1, hs2]; rfl
  · rw [if_neg hd, castOut]
    dsimp only
    obtain ⟨m, late, h3, h4, h5⟩ := writeBack_spec l 0xF hb hp hw
    refine ⟨m, late, h3, h4, ?_⟩
    rw [if_pos (by rw [goesToL2_eq, hg]; rfl), h5, hs1, hs2]; rfl
  · rw [if_neg hd]
    obtain ⟨he, hm⟩ := castOut_spec hb hp hw hg
    have e : ({ castOut l s with l1d := markClean (castOut l s).l1d set way } : State) =
        { castOut l s with l1d := cleaned s.l1d l.set l.way } := by
      rw [show (castOut l s).l1d = s.l1d from he, hs1, hs2]; rfl
    rw [e]; exact hm

theorem lineIn_map {f : CacheLine → CacheLine} (hf : ∀ k, (f k).set = k.set ∧ (f k).way = k.way) (c : List CacheLine) (set way : Nat) :
    lineIn (c.map f) set way = (lineIn c set way).map f := by
  unfold lineIn
  rw [List.find?_map]
  congr 2
  funext k
  show ((f k).set == set && (f k).way == way) = _
  rw [(hf k).1, (hf k).2]

theorem slots_map {f : CacheLine → CacheLine} (hf : ∀ k, (f k).set = k.set ∧ (f k).way = k.way) {c : List CacheLine} (h : Slots c) :
    Slots (c.map f) := by
  intro k hk
  obtain ⟨k', h1, rfl⟩ := List.mem_map.1 hk
  rw [lineIn_map hf, (hf k').1, (hf k').2, h k' h1]; rfl

theorem slots_cons {c : List CacheLine} (h : Slots c) (l : CacheLine) : Slots (l :: without c l.set l.way) := by
  intro k hk
  unfold lineIn
  rw [List.find?_cons]
  rcases List.mem_cons.1 hk with rfl | hk
  · simp
  · obtain ⟨h1, h2⟩ := List.mem_filter.1 hk
    have hne : (l.set == k.set && l.way == k.way) = false := by
      rw [← Bool.not_eq_true]; intro e
      rw [Bool.and_eq_true, beq_iff_eq, beq_iff_eq] at e
      rw [e.1, e.2] at h2; simp at h2
    rw [hne]
    have hl := h k h1
    unfold lineIn at hl
    unfold without
    rw [List.find?_filter]
    refine Eq.trans ?_ hl
    show List.find? _ c = _
    congr 1
    funext x
    by_cases hx : (x.set == k.set && x.way == k.way) = true
    · have e := hx
      rw [Bool.and_eq_true, beq_iff_eq, beq_iff_eq] at e
      rw [hx, e.1, e.2, h2]; rfl
    · rw [Bool.not_eq_true] at hx
      rw [hx]; simp

/-- What cleaning a line of the L1 data cache leaves, beside that. -/
theorem CleanedL1.frame {s t : State} {l : CacheLine} (h : CleanedL1 s t l) (hs : Slots s.l2) (hw : Memory.wf s.mem = true) :
    ∃ c m late d, t = { s with l1d := cleaned s.l1d l.set l.way, l2 := c, mem := m, late := late, draws := d } ∧ Slots c ∧
      Memory.wf m = true := by
  obtain ⟨h1, h2, h3⟩ := h
  by_cases hd : l.dirty = 0
  · exact ⟨s.l2, s.mem, s.late, s.draws, h1 hd, hs, hw⟩
  · cases hg : goesToL2 s l with
    | false => obtain ⟨m, late, ha, -, hb⟩ := h2 hd hg; exact ⟨s.l2, m, late, s.draws, hb, hs, ha.2.2⟩
    | true =>
      have k := h3 hd hg
      unfold MovedToL2 at k
      dsimp only at k
      obtain ⟨m, late, -, k⟩ := k
      have ht (m0 m : List Host.Cell) (h0 : Memory.wf m0 = true) (h : if isWriteBack l then m = m0 else WrittenBack { s with mem := m0 } l 0xF m) :
          Memory.wf m = true := by
        split at h
        · rw [h]; exact h0
        · exact h.2.2
      split at k
      · exact ⟨_, m, late, s.draws, k.2, slots_map (fun k => by split <;> exact ⟨rfl, rfl⟩) hs, ht _ _ hw k.1⟩
      · rcases k with ⟨ha, hb⟩ | ⟨way, -, -, m0, ha, hb, hc⟩
        · exact ⟨s.l2, m, late, _, hb, hs, ha.2.2⟩
        · refine ⟨_, m, late, _, hc, slots_cons hs { l with set := l2SetOf s l, way := way, dirty := if isWriteBack l then 0xF else 0 }, ht _ _ ?_ hb⟩
          cases e : lineIn s.l2 (l2SetOf s l) way with
          | none => rw [e] at ha; rw [show m0 = s.mem from ha]; exact hw
          | some k => rw [e] at ha; exact ha.2.2

/-- The set of a line address. -/
theorem lineTag_toNat (pa : Word) : (lineTag pa).toNat = pa.toNat / 64 := by
  unfold lineTag
  rw [BitVec.extractLsb'_toNat, Nat.shiftRight_eq_div_pow]
  have := pa.isLt
  omega

/-- The line that holds an address, in the terms of the statements. -/
theorem findLine_l1 (s : State) (c : List CacheLine) (ns : Bool) (pa : Word) :
    findLine c (s.l1Set pa) ns pa = lineOf c s.build.l1Size.sets ns pa := by
  unfold findLine lineOf State.l1Set
  rw [lineTag_toNat]; rfl

theorem findLine_l2 (s : State) (c : List CacheLine) (ns : Bool) (pa : Word) :
    findLine c (s.l2Set pa) ns pa = lineOf c s.build.l2Size.sets ns pa := by
  unfold findLine lineOf State.l2Set
  rw [lineTag_toNat]; rfl

/-- An operation by address with the MMU off. -/
theorem byAddress_off {s : State} (h : s.cur.sctlr.getLsbD 0 = false) (maint : Bool) (op : Phys → State → State) (mva : Word) :
    byAddress maint op mva s = .next (op ⟨!s.secure, mva, strongAttrs⟩ s).advance := by
  have e : maintAddress mva s = .ok ⟨!s.secure, mva, strongAttrs⟩ s := by
    rw [maintAddress, if_pos (by rw [h]; rfl)]; rfl
  rw [byAddress, e]

end Sys2Proof.Machine
end

