-- ==== Sys2Proof/Laws/Encoding.lean ====
section
/-! SUPPORT. Fields of an encoded word, and which layouts can claim a word some of whose bits are known. -/

namespace Sys2Proof

/-! ## Fields that are put into a word and read back -/

theorem getLsbD_put {n : Nat} (f : BitVec n) (lo i : Nat) :
    (put f lo).getLsbD i = (decide (i < 32) && decide (lo ≤ i) && f.getLsbD (i - lo)) := by
  unfold put
  rw [BitVec.getLsbD_shiftLeft, BitVec.getLsbD_setWidth]
  by_cases h : i < 32
  · by_cases h' : lo ≤ i
    · have h2 : ¬ i < lo := by omega
      have h3 : i - lo < 32 := by omega
      simp [h, h', h2, h3]
    · have h2 : i < lo := by omega
      simp [h, h', h2]
  · simp [h]

theorem bits_or (x y : Word) (lo n : Nat) : bits (x ||| y) lo n = bits x lo n ||| bits y lo n := by
  unfold bits
  apply BitVec.eq_of_getLsbD_eq
  intro i hi
  simp [BitVec.getLsbD_or, hi]

/-- A field read where it was put. -/
theorem bits_put_same {n : Nat} (f : BitVec n) (lo : Nat) (h : lo + n ≤ 32) : bits (put f lo) lo n = f := by
  unfold bits
  apply BitVec.eq_of_getLsbD_eq
  intro i hi
  simp only [BitVec.getLsbD_extractLsb', getLsbD_put, hi]
  have h1 : lo + i < 32 := by omega
  simp [h1]

/-- A field read elsewhere is zero. -/
theorem bits_put_apart {n : Nat} (f : BitVec n) (lo lo' n' : Nat) (h : lo + n ≤ lo' ∨ lo' + n' ≤ lo) :
    bits (put f lo) lo' n' = 0#n' := by
  unfold bits
  apply BitVec.eq_of_getLsbD_eq
  intro i hi
  simp only [BitVec.getLsbD_extractLsb', getLsbD_put, hi, BitVec.getLsbD_zero]
  by_cases h2 : lo ≤ lo' + i
  · have : n ≤ lo' + i - lo := by omega
    simp [BitVec.getLsbD_of_ge f _ this]
  · simp [h2]

/-- A field put apart from the bits of a mask. -/
theorem put_and_apart {n : Nat} (f : BitVec n) (lo : Nat) (m : Word) (h : (BitVec.allOnes n).setWidth 32 <<< lo &&& m = 0) :
    put f lo &&& m = 0 := by
  apply BitVec.eq_of_getLsbD_eq
  intro i hi
  have h' := congrArg (fun w => w.getLsbD i) h
  simp only [BitVec.getLsbD_and, BitVec.getLsbD_shiftLeft, BitVec.getLsbD_setWidth,
    BitVec.getLsbD_allOnes] at h'
  simp only [BitVec.getLsbD_and, getLsbD_put]
  by_cases h2 : lo ≤ i
  · by_cases h3 : i - lo < n
    · have h4 : ¬ i < lo := by omega
      have h5 : i - lo < 32 := by omega
      simp [hi, h2, h3, h4, h5] at h' ⊢
      simp [h']
    · simp [BitVec.getLsbD_of_ge f _ (Nat.not_lt.mp h3)]
  · simp [h2]

/-- A field put inside the bits of a mask. -/
theorem put_and_within {n : Nat} (f : BitVec n) (lo : Nat) (m : Word)
    (h : (BitVec.allOnes n).setWidth 32 <<< lo &&& ~~~m = 0) : put f lo &&& m = put f lo := by
  have h1 := put_and_apart f lo (~~~m) h
  have h2 : put f lo = put f lo &&& m ||| put f lo &&& ~~~m := by
    apply BitVec.eq_of_getLsbD_eq
    intro i hi
    simp only [BitVec.getLsbD_or, BitVec.getLsbD_and, BitVec.getLsbD_not, hi, decide_true, Bool.true_and]
    cases (put f lo).getLsbD i <;> cases m.getLsbD i <;> rfl
  rw [h1] at h2
  simpa using h2.symm

theorem or_and (x y m : Word) : (x ||| y) &&& m = x &&& m ||| y &&& m := by
  apply BitVec.eq_of_getLsbD_eq
  intro i hi
  simp only [BitVec.getLsbD_or, BitVec.getLsbD_and]
  cases x.getLsbD i <;> cases y.getLsbD i <;> cases m.getLsbD i <;> rfl

theorem not_and_eq (x m : Word) (h : x &&& m = m) : ~~~x &&& m = 0 := by
  apply BitVec.eq_of_getLsbD_eq
  intro i hi
  have h' := congrArg (fun w => w.getLsbD i) h
  simp only [BitVec.getLsbD_and, BitVec.getLsbD_not, hi] at h' ⊢
  revert h'
  cases x.getLsbD i <;> cases m.getLsbD i <;> simp

/-! ## Layouts that can claim a word -/

/-- A layout that may claim a word whose bits `km` are `kv`. -/
def Row.fits (km kv : Word) (r : Row) : Bool := kv &&& r.mask == r.pat &&& km

theorem Row.fits_of_hits (r : Row) (w km kv : Word) (h : w &&& km = kv) (hr : r.hits w = true) :
    r.fits km kv = true := by
  simp only [Row.hits, Bool.and_eq_true, beq_iff_eq] at hr
  simp only [Row.fits, beq_iff_eq]
  rw [← h, ← hr.1]
  apply BitVec.eq_of_getLsbD_eq
  intro i hi
  simp only [BitVec.getLsbD_and]
  cases w.getLsbD i <;> cases km.getLsbD i <;> cases r.mask.getLsbD i <;> rfl

/-- The layouts of a list that fit the known bits, by their places. -/
def fitPlaces (km kv : Word) (rows : List Row) : List Nat :=
  (rows.zipIdx.filter fun x => x.1.fits km kv).map (·.2)

theorem mem_fitPlaces (km kv : Word) (rows : List Row) (r : Row) (hr : r ∈ rows) (hf : r.fits km kv = true) :
    r ∈ (fitPlaces km kv rows).filterMap (rows[·]?) := by
  obtain ⟨k, hk, rfl⟩ := List.getElem_of_mem hr
  refine List.mem_filterMap.mpr ⟨k, ?_, List.getElem?_eq_getElem hk⟩
  refine List.mem_map.mpr ⟨(rows[k], k), List.mem_filter.mpr ⟨?_, hf⟩, rfl⟩
  exact List.mk_mem_zipIdx_iff_getElem?.mpr (List.getElem?_eq_getElem hk)

theorem and_of_known (w km kv m : Word) (h : w &&& km = kv) (hm : m &&& km = m) : w &&& m = kv &&& m := by
  rw [← h, ← hm]
  apply BitVec.eq_of_getLsbD_eq
  intro i hi
  simp only [BitVec.getLsbD_and]
  cases w.getLsbD i <;> cases km.getLsbD i <;> cases m.getLsbD i <;> rfl

/-- The bits `km`, with the values `kv`, settle the fixed and should-be bits of a layout, and agree with them. -/
abbrev Row.Known (km kv : Word) (r : Row) : Prop :=
  r.mask &&& km = r.mask ∧ kv &&& r.mask = r.pat ∧ r.sbz &&& km = r.sbz ∧ kv &&& r.sbz = 0 ∧
    r.sbo &&& km = r.sbo ∧ kv &&& r.sbo = r.sbo

/-- A word with known bits is read by layout `k`: no earlier layout that fits those bits claims it. -/
theorem readRows_at (rows : List Row) (w km kv : Word) (k : Nat) (r : Row) (before : List Nat) (h : w &&& km = kv)
    (hr : rows[k]? = some r) (hb : fitPlaces km kv (rows.take k) = before)
    (hno : ∀ q ∈ before.filterMap ((rows.take k)[·]?), q.hits w = false)
    (hm : r.Known km kv) (ho : r.ok w = true) : readRows rows w = .ok (r.build w) := by
  obtain ⟨h1, h2, h3, h4, h5, h6⟩ := hm
  have e1 : w &&& r.mask = r.pat := (and_of_known w km kv _ h h1).trans h2
  have e2 : w &&& r.sbz = 0 := (and_of_known w km kv _ h h3).trans h4
  have e3 : ~~~w &&& r.sbo = 0 := not_and_eq w _ ((and_of_known w km kv _ h h5).trans h6)
  have hit : r.hits w = true := by simp [Row.hits, e1, ho]
  have hfind : rows.find? (fun r => r.hits w) = some r := by
    obtain ⟨hk, rfl⟩ := List.getElem?_eq_some_iff.mp hr
    rw [List.find?_eq_some_iff_getElem]
    refine ⟨hit, k, hk, rfl, ?_⟩
    intro j hj
    have hjl : j < (rows.take k).length := by simp; omega
    have hjm : rows[j] ∈ rows.take k := by
      have := List.getElem_mem hjl
      simpa using this
    by_cases hf : (rows[j]).fits km kv = true
    · have := hno _ (hb ▸ mem_fitPlaces km kv _ _ hjm hf)
      simp [this]
    · have : ¬ (rows[j]).hits w = true := fun hh => hf (Row.fits_of_hits _ w km kv h hh)
      simpa using this
  simp [readRows, hfind, Row.read, e2, e3]

/-- A field all of whose bits are known. -/
theorem bits_of_known {w km kv : Word} (h : w &&& km = kv) (lo n : Nat) (hm : bits km lo n = BitVec.allOnes n) :
    bits w lo n = bits kv lo n := by
  rw [← h]
  unfold bits at hm ⊢
  rw [BitVec.extractLsb'_and, hm, BitVec.and_allOnes]

/-- A part of a field. -/
theorem bits_sub (w : Word) (lo n off k : Nat) (h : off + k ≤ n) : bits w (lo + off) k = (bits w lo n).extractLsb' off k := by
  unfold bits
  apply BitVec.eq_of_getLsbD_eq
  intro i hi
  have h1 : off + i < n := by omega
  simp [hi, h1, Nat.add_assoc]

/-- A layout that claims a word fixes the bits of its mask. -/
theorem bits_of_hits {q : Row} {w : Word} (h : q.hits w = true) (lo n : Nat) (hm : bits q.mask lo n = BitVec.allOnes n) :
    bits w lo n = bits q.pat lo n := by
  simp only [Row.hits, Bool.and_eq_true, beq_iff_eq] at h
  exact bits_of_known h.1 lo n hm

/-- A part of a field that was put. -/
theorem bits_put_within {n : Nat} (f : BitVec n) (lo lo' n' : Nat) (h : lo ≤ lo' ∧ lo' + n' ≤ lo + n ∧ lo + n ≤ 32) :
    bits (put f lo) lo' n' = f.extractLsb' (lo' - lo) n' := by
  unfold bits
  apply BitVec.eq_of_getLsbD_eq
  intro i hi
  simp only [BitVec.getLsbD_extractLsb', getLsbD_put, hi]
  have h1 : lo' + i < 32 := by omega
  have h2 : lo ≤ lo' + i := by omega
  have h3 : lo' + i - lo = lo' - lo + i := by omega
  simp [h1, h2, h3]

/-- Bits of a literal word. -/
theorem bits_ofNat (x lo n : Nat) : bits (BitVec.ofNat 32 x) lo n = (BitVec.ofNat 32 x).extractLsb' lo n := rfl

/-- A bit of a word of the multiplies, by its field. -/
theorem getLsbD_multiplyWord (cond : BitVec 4) (op : BitVec 8) (rd ra rm k rn : BitVec 4) (i : Nat) :
    BitVec.getLsbD (w := 32) (cond ++ op ++ rd ++ ra ++ rm ++ k ++ rn) i =
      if i < 4 then rn.getLsbD i else if i < 8 then k.getLsbD (i - 4) else if i < 12 then rm.getLsbD (i - 4 - 4)
      else if i < 16 then ra.getLsbD (i - 4 - 4 - 4) else if i < 20 then rd.getLsbD (i - 4 - 4 - 4 - 4)
      else if i < 28 then op.getLsbD (i - 4 - 4 - 4 - 4 - 4) else cond.getLsbD (i - 4 - 4 - 4 - 4 - 4 - 8) := by
  refine Eq.trans (BitVec.getLsbD_append (x := cond ++ op ++ rd ++ ra ++ rm ++ k) (y := rn)) ?_
  simp only [BitVec.getLsbD_append]
  split_ifs <;> first | rfl | omega

/-- The same with the bit S below the operation. -/
theorem getLsbD_multiplyWordS (cond : BitVec 4) (op : BitVec 7) (sf : BitVec 1) (rd ra rm k rn : BitVec 4) (i : Nat) :
    BitVec.getLsbD (w := 32) (cond ++ op ++ sf ++ rd ++ ra ++ rm ++ k ++ rn) i =
      if i < 4 then rn.getLsbD i else if i < 8 then k.getLsbD (i - 4) else if i < 12 then rm.getLsbD (i - 4 - 4)
      else if i < 16 then ra.getLsbD (i - 4 - 4 - 4) else if i < 20 then rd.getLsbD (i - 4 - 4 - 4 - 4)
      else if i < 21 then sf.getLsbD (i - 4 - 4 - 4 - 4 - 4)
      else if i < 28 then op.getLsbD (i - 4 - 4 - 4 - 4 - 4 - 1) else cond.getLsbD (i - 4 - 4 - 4 - 4 - 4 - 1 - 7) := by
  refine Eq.trans (BitVec.getLsbD_append (x := cond ++ op ++ sf ++ rd ++ ra ++ rm ++ k) (y := rn)) ?_
  simp only [BitVec.getLsbD_append]
  split_ifs <;> first | rfl | omega

end Sys2Proof
end

