-- ==== Sys2Proof/Laws/Condition.lean ====
section
/-! SUPPORT. The condition field of an encoded word. -/

noncomputable section

namespace Sys2Proof.Machine

open Safety

theorem condOf_or (x y : Word) : condOf (x ||| y) = condOf x ||| condOf y := bits_or x y 28 4

theorem condOf_put {n : Nat} (f : BitVec n) (lo : Nat) (h : lo + n ≤ 28) : condOf (put f lo) = 0#4 := bits_put_apart f lo 28 4 (Or.inl h)

theorem condOf_same (f : BitVec 4) : condOf (put f 28) = f := bits_put_same f 28 (by decide)

theorem condOf_const (n : Nat) : condOf (BitVec.ofNat 32 n) = BitVec.ofNat 4 (n / 2^28) := by
  unfold condOf; apply BitVec.eq_of_toNat_eq; simp [Nat.shiftRight_eq_div_pow]; omega

end Sys2Proof.Machine

end
end

