-- ==== Sys2Proof/Laws/System.lean ====
section
/-! SUPPORT. The shared operations of the system register instructions: a read, a write, and an effect of any kind. -/

namespace Sys2Proof.Machine

open Sys2Proof.Safety

/-- Going on, in a state that is in debug state, and has its pc, as `s` does. -/
theorem advance_of {t s : State} (h1 : t.halted = s.halted) (h2 : t.pc = s.pc) : { t with pc := nextPc s } = t.advance := by
  rw [State.advance_eq, skipped, nextPc, nextPc, h1, h2]

/-- A read of a system register (R1451, R1452). -/
theorem readSys_gives {cond rt : BitVec 4} {s : State} (hc : condPassed cond s = true) (ok : Bool) (v : Word) :
    ReadGives s rt ok v (readSys cond rt ok v s) := by
  refine ⟨fun h => ?_, fun h => ?_⟩
  · rw [readSys, onCond_pass hc, h, if_pos rfl, State.receive]
    split
    · rw [State.setNZCV_eq, State.advance_eq]; rfl
    · rename_i h'; rw [State.setReg_of_ne _ _ _ h', State.advance_eq]; rfl
  · rw [readSys, onCond_pass hc, h, if_neg (by decide)]
    exact ⟨_, rfl, takeUndefined_spec s⟩

/-- The same for a right and a value written otherwise. -/
theorem readSys_gives_of {cond rt : BitVec 4} {s : State} (hc : condPassed cond s = true) {ok ok' : Bool} {v v' : Word}
    (h : ok' = ok) (hv : v' = v) : ReadGives s rt ok v (readSys cond rt ok' v' s) := by
  subst h hv; exact readSys_gives hc _ _

/-- A read of a register whose value is fixed here. -/
theorem readSysMaybe_some {cond rt : BitVec 4} {s : State} (hc : condPassed cond s = true) (ok : Bool) {v : Option Word}
    {w : Word} (h : v = some w) : ReadGives s rt ok w (readSysMaybe cond rt ok v s) := by
  subst h; exact readSys_gives hc _ _

/-- A read of a register whose value is open: a free value. -/
theorem readSysMaybe_none {cond rt : BitVec 4} {s : State} (hc : condPassed cond s = true) (ok : Bool) {v : Option Word}
    (h : v = none) :
    (ok = true → ReadGives { s with draws := s.draws + 1 } rt true (Config.freeWord s.draws) (readSysMaybe cond rt ok v s)) ∧
    (ok = false → ∃ t, readSysMaybe cond rt ok v s = .next t ∧ Undefined s t) := by
  subst h
  refine ⟨fun h => ⟨fun _ => ?_, fun h => absurd h (by decide)⟩, fun h => ?_⟩
  · show onCond cond s _ = _
    rw [onCond_pass hc, h, if_pos rfl, State.receive]
    split
    · rw [State.setNZCV_eq, State.advance_eq]; rfl
    · rename_i h'; rw [State.setReg_of_ne _ _ _ h', State.advance_eq]; rfl
  · refine ⟨_, (onCond_pass hc _).trans ?_, takeUndefined_spec s⟩
    rw [h, if_neg (by decide)]

/-- An instruction with the right and a register below r15 has its effect. -/
theorem withSys_effect {cond rt : BitVec 4} {s : State} (hc : condPassed cond s = true) {ok : Bool} (h1 : ok = true)
    (h2 : rt ≠ 15) (eff : Word → Host.Outcome State Fault Refusal) : withSys cond rt ok s eff = eff (s.reg rt) := by
  rw [withSys, onCond_pass hc, h1, if_pos rfl, if_neg h2]

/-- An instruction with r15 as its source is Unpredictable (R1452). -/
theorem withSys_r15 {cond rt : BitVec 4} {s : State} (hc : condPassed cond s = true) {ok : Bool} (h1 : ok = true)
    (h2 : rt = 15) (eff : Word → Host.Outcome State Fault Refusal) : withSys cond rt ok s eff = .fault .operands := by
  rw [withSys, onCond_pass hc, h1, if_pos rfl, if_pos h2]

/-- An instruction without the right is Undefined (R1451). -/
theorem withSys_undefined {cond rt : BitVec 4} {s : State} (hc : condPassed cond s = true) {ok : Bool} (h1 : ok = false)
    (eff : Word → Host.Outcome State Fault Refusal) : ∃ t, withSys cond rt ok s eff = .next t ∧ Undefined s t := by
  rw [withSys, onCond_pass hc, h1, if_neg (by decide)]
  exact ⟨_, rfl, takeUndefined_spec s⟩

/-- An effect of any kind, given as the state it makes. -/
theorem withSys_gives {cond rt : BitVec 4} {s : State} (hc : condPassed cond s = true) (ok : Bool) (t : Word → State)
    (eff : Word → Host.Outcome State Fault Refusal)
    (h : ok = true → rt ≠ 15 → eff (s.reg rt) = .next { t (s.reg rt) with pc := nextPc s }) :
    WriteGives s rt ok t (withSys cond rt ok s eff) :=
  ⟨fun h1 h2 => (withSys_effect hc h1 h2 eff).trans (h h1 h2), fun h1 h2 => withSys_r15 hc h1 h2 eff,
    fun h1 => withSys_undefined hc h1 eff⟩

/-- A write of a system register (R1451, R1452). -/
theorem writeSys_gives {cond rt : BitVec 4} {s : State} (hc : condPassed cond s = true) (ok : Bool) (t t' : Word → State)
    (h : ∀ v, { t v with pc := nextPc s } = (t' v).advance) : WriteGives s rt ok t (writeSys cond rt ok s t') :=
  withSys_gives hc ok t _ fun _ _ => congrArg Host.Outcome.next (h _).symm

/-- A change of the copy that SCR.NS selects, as the model makes it. -/
theorem setCopy_withCopy (s : State) (f : Word → Banked → Banked) (v : Word) :
    { withCopy f s v with pc := nextPc s } = (s.setCopy (f v s.copy)).advance := by
  unfold withCopy State.setCopy State.setBank State.copy State.bank State.copySecure
  cases s.sys.scr.getLsbD 0 <;> exact advance_of rfl rfl

/-- A write that a running preload channel forbids (22_caches.md R1197). -/
theorem unlessPle_gives {cond rt : BitVec 4} {s : State} (hc : condPassed cond s = true) (ok : Bool) (changes changes' : Word → Bool)
    (t t' : Word → State) (hch : preloadRuns s = true → changes' (s.reg rt) = changes (s.reg rt))
    (h : ∀ v, { t v with pc := nextPc s } = (t' v).advance) :
    (¬ (preloadRuns s = true ∧ changes (s.reg rt) = true) →
      WriteGives s rt ok t (withSys cond rt ok s fun v => unlessPle (changes' v) s (.next (t' v).advance))) ∧
    (ok = true → rt ≠ 15 → preloadRuns s = true → changes (s.reg rt) = true →
      (withSys cond rt ok s fun v => unlessPle (changes' v) s (.next (t' v).advance)) = .fault .preloadReconfigured) := by
  have e : s.pleRuns = preloadRuns s := rfl
  refine ⟨fun hn => withSys_gives hc _ _ _ fun _ _ => ?_, fun h1 h2 h3 h4 => ?_⟩
  · rw [unlessPle, if_neg, ← h]
    rw [e]
    intro x
    rw [Bool.and_eq_true] at x
    exact hn ⟨x.2, by rw [← hch x.2]; exact x.1⟩
  · rw [withSys_effect hc h1 h2, unlessPle, if_pos]
    rw [e, hch h3, h3, h4]; rfl

/-! ## The performance monitor -/

/-- Adding one to the counters that a test selects (13_cp15_maint_pmu.md R410). -/
theorem addWhere_one (p : Pmu) (test : Fin 4 → Bool) :
    p.addWhere 1 test = { p with pmcnt := (p.addWhere 1 test).pmcnt, flag := (p.addWhere 1 test).flag } ∧
    (∀ n : Fin 4, (p.addWhere 1 test).pmcnt[n] = p.pmcnt[n] + (if test n then 1 else 0) ∧
      (p.addWhere 1 test).flag.getLsbD n = (p.flag.getLsbD n || (test n && p.pmcnt[n] == 0xFFFFFFFF))) ∧
    ∀ i, 4 ≤ i → (p.addWhere 1 test).flag.getLsbD i = p.flag.getLsbD i := by
  have key : ∀ (l : List (Fin 4)) (q : Pmu), l.Nodup →
      let r := l.foldl (fun p n => if test n then p.add n 1 else p) q
      r = { q with pmcnt := r.pmcnt, flag := r.flag } ∧
      (∀ n : Fin 4, r.pmcnt[n] = q.pmcnt[n] + (if n ∈ l ∧ test n then 1 else 0) ∧
        r.flag.getLsbD n = (q.flag.getLsbD n || (decide (n ∈ l) && test n && q.pmcnt[n] == 0xFFFFFFFF))) ∧
      ∀ i, 4 ≤ i → r.flag.getLsbD i = q.flag.getLsbD i := by
    intro l
    induction l with
    | nil => intro q _ r; exact ⟨rfl, fun n => ⟨by simp [r], by simp [r]⟩, fun i _ => rfl⟩
    | cons a l ih =>
      intro q hn r
      have hn' := List.nodup_cons.1 hn
      obtain ⟨i1, i2, i3⟩ := ih (if test a then q.add a 1 else q) hn'.2
      have hr : r = l.foldl (fun p n => if test n then p.add n 1 else p) (if test a then q.add a 1 else q) := rfl
      rw [← hr] at i1 i2 i3
      cases ha : test a
      · rw [ha, if_neg (by decide)] at i1 i2 i3
        refine ⟨i1, fun n => ⟨?_, ?_⟩, i3⟩
        · rw [(i2 n).1]; congr 1
          by_cases e : n = a
          · subst e; simp [ha, hn'.1]
          · simp [e]
        · rw [(i2 n).2]; congr 1
          by_cases e : n = a
          · subst e; simp [ha, hn'.1]
          · simp [e]
      · rw [ha, if_pos rfl] at i1 i2 i3
        have hflag (i : Nat) :
            (q.add a 1).flag.getLsbD i = (q.flag.getLsbD i || (decide (i = a) && q.pmcnt[a] == 0xFFFFFFFF)) := by
          unfold Pmu.add
          dsimp only
          have hlt := q.pmcnt[a].isLt
          have e1 : (2 ^ 32 ≤ q.pmcnt[a].toNat + (1 : Word).toNat) ↔ q.pmcnt[a] = 0xFFFFFFFF := by
            rw [← BitVec.toNat_inj]; show _ ≤ _ + 1 ↔ _ = 4294967295; omega
          by_cases h : q.pmcnt[a] = 0xFFFFFFFF
          · rw [if_pos (e1.2 h), getLsbD_setBit _ _ _ _ (by have := a.isLt; omega), h]
            by_cases x : i = a <;> simp [x]
          · rw [if_neg (fun y => h (e1.1 y))]
            have : (q.pmcnt[a] == 0xFFFFFFFF) = false := beq_eq_false_iff_ne.2 h
            rw [this]; simp
        have other (n : Fin 4) (e : ¬ n = a) : (q.add a 1).pmcnt[n] = q.pmcnt[n] := by
          have : (a : Nat) ≠ n := fun x => e (Fin.ext x.symm)
          simp [Pmu.add, this]
        refine ⟨i1, fun n => ⟨?_, ?_⟩, fun i hi => ?_⟩
        · rw [(i2 n).1]
          by_cases e : n = a
          · subst e
            have : (q.add n 1).pmcnt[n] = q.pmcnt[n] + 1 := by simp [Pmu.add]
            rw [this]; simp [hn'.1, ha]
          · rw [other n e]; simp [e]
        · rw [(i2 n).2, hflag]
          by_cases e : n = a
          · subst e; simp [hn'.1, ha]
          · have h2 : (n : Nat) ≠ a := fun x => e (Fin.ext x)
            rw [other n e]; simp [e, h2]
        · rw [i3 i hi, hflag]
          have : ¬ i = a := by have := a.isLt; omega
          simp [this]
  obtain ⟨k1, k2, k3⟩ := key (List.finRange 4) p (List.nodup_finRange 4)
  refine ⟨k1, fun n => ?_, k3⟩
  have := k2 n
  simp only [List.mem_finRange, true_and, decide_true, Bool.true_and] at this
  exact this

/-! ## TLB entries -/

/-- A TLB after its selected entries are removed. -/
theorem flushTlb_get (tlb : Vector (Option TlbEntry) 32) (gone : TlbEntry → Bool) (n : Fin 32) :
    (flushTlb tlb gone)[n] = if tlb[n].any gone then none else tlb[n] := by
  unfold flushTlb
  have : (Vector.map (fun e => Option.filter (fun e => !gone e) e) tlb)[n] = tlb[n].filter fun e => !gone e := by simp
  rw [this]
  cases h : tlb[n] with
  | none => rfl
  | some e => cases hg : gone e <;> simp [hg]

end Sys2Proof.Machine
end

