-- ==== Sys2Proof/Laws/SystemRegisters.lean ====
section
/-! SUPPORT. Reads and writes of the system registers. -/

noncomputable section

namespace Sys2Proof.Machine

open Safety

theorem halted_mono (s : State) : s.sysPriv = privilegedRight s := rfl

theorem cacheSize_eq (k : Build) (v : Word) : cacheSize k v = ccsidr k v := by
  unfold cacheSize ccsidr
  generalize v.extractLsb' 0 4 = x
  generalize k.l1Size = a
  generalize k.l2Size = b
  revert x
  cases a <;> cases b <;> decide

theorem actlr_eq (s : State) : (s.sys.actlr &&& 0x3FFFFFFD) ||| (if (copyOf s).l2en then 0x2 else 0) |||
      (if s.secure && s.pins.straps.l1rstdisable then 0x40000000 else 0) |||
      (if s.secure && s.pins.straps.l2rstdisable then 0x80000000 else 0) = actlrView s := by
  unfold actlrView
  rw [show s.copy = copyOf s from rfl]
  generalize s.sys.actlr &&& 0x3FFFFFFD = a
  generalize (copyOf s).l2en = l
  generalize s.pins.straps.l2rstdisable = x
  generalize s.pins.straps.l1rstdisable = y
  cases s.secure <;> cases l <;> cases x <;> cases y <;> 
  simp [bit, BitVec.or_assoc]

theorem cond_ite {p : Prop} [Decidable p] {a b c : Word} : (if p then c &&& a else c &&& b) = c &&& (if p then a else b) := by split <;> rfl

/-- A bit of words joined where a test holds. -/
theorem getLsbD_orFold (f : Nat → Bool) (g : Nat → Word) (j : Nat) : ∀ (l : List Nat) (w : Word),
    (l.foldl (fun w i => if f i then w ||| g i else w) w).getLsbD j = (w.getLsbD j || l.any fun i => f i && (g i).getLsbD j)
  | [], w => (Bool.or_false _).symm
  | i :: l, w => by
    rw [List.foldl_cons, getLsbD_orFold f g j l, List.any_cons]
    cases f i <;> simp [Bool.or_assoc, -BitVec.getLsbD_eq_getElem]

theorem getLsbD_wordOf (f : Nat → Bool) {j : Nat} (hj : j < 32) : (wordOf f).getLsbD j = f j := by
  rw [wordOf, getLsbD_orFold, show (0:Word).getLsbD j = false from BitVec.getLsbD_zero, Bool.false_or, Bool.eq_iff_iff, List.any_eq_true]
  constructor
  · rintro ⟨i, _, h⟩
    rw [Bool.and_eq_true, BitVec.getLsbD_twoPow] at h
    have : i = j := (show i < 32 ∧ i = j by simpa [hj] using h.2).2
    exact this ▸ h.1
  · intro h
    exact ⟨j, List.mem_range.2 hj, by rw [Bool.and_eq_true, BitVec.getLsbD_twoPow]; exact ⟨h, by simp [hj]⟩⟩

/-- The field for coprocessor `n` of a word of two bits for each. -/
theorem getLsbD_field (n : Nat) {j : Nat} (hj : j < 32) : (3#32 <<< (2 * n)).getLsbD j = decide (n = j / 2) := by
  have three : ∀ k < 32, (3#32).getLsbD k = decide (k < 2) := by decide
  rw [BitVec.getLsbD_shiftLeft, three _ (by omega), decide_eq_true hj, Bool.true_and, Bool.eq_iff_iff, Bool.and_eq_true,
    Bool.not_eq_true', decide_eq_false_iff_not, decide_eq_true_iff, decide_eq_true_iff]
  omega

theorem coprocessorThere_eq (s : State) (n : Nat) : s.coprocExists n = coprocessorThere s n := by
  unfold coprocessorThere State.coprocExists
  simp [bne, Bool.not_or]

theorem cpacr_eq (s : State) : cpacrFields s = cpacrMask s := by
  have e (n : Nat) : (s.coprocExists n && (s.secure || s.sys.nsacr.getLsbD n)) = cpacrField s n := by
    unfold cpacrField
    rw [coprocessorThere_eq]
  unfold cpacrFields cpacrMask
  apply BitVec.eq_of_getLsbD_eq
  intro j hj
  rw [getLsbD_wordOf _ hj, getLsbD_orFold (fun n => s.coprocExists n && (s.secure || s.sys.nsacr.getLsbD n)),
    show (0:Word).getLsbD j = false from BitVec.getLsbD_zero, Bool.false_or, Bool.eq_iff_iff, List.any_eq_true, Bool.and_eq_true, decide_eq_true_iff]
  simp only [e, Bool.and_eq_true, List.mem_range, getLsbD_field _ hj, decide_eq_true_iff]
  constructor
  · rintro ⟨h1, h2⟩
    exact ⟨j / 2, by omega, h2, rfl⟩
  · rintro ⟨n, h1, h2, rfl⟩
    exact ⟨by omega, h2⟩

theorem nsacr_eq (s : State) : nsacrBits s = nsacrMask s := by
  have one : ∀ k < 32, (1#32).getLsbD k = decide (k = 0) := by decide
  have top : ∀ k < 32, (0x00070000 : Word).getLsbD k = (decide (16 ≤ k) && decide (k < 19)) := by decide
  unfold nsacrBits nsacrMask
  apply BitVec.eq_of_getLsbD_eq
  intro j hj
  rw [getLsbD_wordOf _ hj, getLsbD_orFold (fun n => s.coprocExists n), top j hj]
  congr 1
  rw [Bool.eq_iff_iff, List.any_eq_true, Bool.and_eq_true, decide_eq_true_iff]
  have bitAt (n : Nat) (hn : n < 14) : (1#32 <<< n).getLsbD j = decide (j = n) := by
    rw [BitVec.getLsbD_shiftLeft, one _ (by omega), decide_eq_true hj, Bool.true_and, Bool.eq_iff_iff, Bool.and_eq_true,
      Bool.not_eq_true', decide_eq_false_iff_not, decide_eq_true_iff, decide_eq_true_iff]
    omega
  constructor
  · rintro ⟨h1, h2⟩
    exact ⟨j, List.mem_range.2 h1, by rw [coprocessorThere_eq, h2, bitAt j h1, decide_eq_true rfl]; rfl⟩
  · rintro ⟨n, h1, h2⟩
    rw [Bool.and_eq_true, bitAt n (List.mem_range.1 h1), decide_eq_true_iff] at h2
    obtain ⟨h2, rfl⟩ := h2
    exact ⟨List.mem_range.1 h1, by rw [← coprocessorThere_eq]; exact h2⟩

theorem isr_eq (s : State) : (0#23 ++ bit s.abortPending.isSome ++ bit s.pins.irq ++ bit s.pins.fiq ++ 0#6 : Word) = isrView s := by
  unfold isrView
  cases s.abortPending.isSome <;> cases s.pins.irq <;> cases s.pins.fiq <;> rfl

theorem par_eq (v : Word) : (v &&& if v.getLsbD 0 then 0x0000007F else 0xFFFFF3FF) = parView v := by
  unfold parView; split <;> rfl

theorem pleRuns_eq (s : State) : s.pleRuns = preloadRuns s := rfl

theorem sctlr_eq (old v : Word) : sctlrWrite old v = (old &&& 0x8DFFC7F8) ||| (v &&& 0x72003807) := rfl

theorem sctlr_M (old v : Word) : (sctlrWrite old v).getLsbD 0 = v.getLsbD 0 := by
  rw [sctlr_eq]; simp

theorem selected_some {s : State} (n : Fin 4) (h : s.pmu.pmnxsel.extractLsb' 0 5 = BitVec.ofNat 5 n) : pmuSelected s = some n := by
  unfold pmuSelected
  have : (s.pmu.pmnxsel.extractLsb' 0 5).toNat = n := by rw [h, BitVec.toNat_ofNat]; have := n.isLt; omega
  simp only [this, n.isLt, dif_pos]

theorem selected_none {s : State} (h : 4 ≤ (s.pmu.pmnxsel.extractLsb' 0 5).toNat) : pmuSelected s = none := by
  unfold pmuSelected
  exact dif_neg (by omega)

theorem match_eq (e : TlbEntry) (v : Word) (s : State) : e.matches (v &&& 0xFFFFF000) (v.extractLsb' 0 8) s.secure = ((e.mva ++ 0#12) >>> pageLog2 e.size == (v &&& 0xFFFFF000) >>> pageLog2 e.size && e.secure == s.secure &&
      (e.glob || e.asid == v.extractLsb' 0 8)) := by
  unfold TlbEntry.matches
  have : e.size.bits = pageLog2 e.size := by cases e.size <;> rfl
  rw [this]

theorem array_write {cond rt : BitVec 4} {s : State} (hc : condPassed cond s = true) : (arrayRight s = true → arrayWrite cond rt s = if rt = 15 then .fault .operands else .refused .arrayWrite) ∧
      (arrayRight s = false → ∃ t, arrayWrite cond rt s = .next t ∧ Undefined s t) := by
  refine ⟨fun h => ?_, fun h => ⟨_, ?_, takeUndefined_spec s⟩⟩
  · rw [arrayWrite, withSys, onCond_pass hc, show s.arrayOpen = true from h, if_pos rfl]
  · rw [arrayWrite, withSys, onCond_pass hc, show s.arrayOpen = false from h, if_neg (by decide)]

theorem array_read {cond rt : BitVec 4} {s : State} (hc : condPassed cond s = true) (f : SysRegs → Word → Word → Word → SysRegs) (load : Word → Word → Word → SysRegs) (hl : load = f s.sys) :
   WriteGives s rt (arrayRight s) (fun _ => { s with
        sys := f s.sys (Config.freeWord s.draws) (Config.freeWord (s.draws + 1)) (Config.freeWord (s.draws + 2))
        draws := s.draws + 3 }) (arrayRead cond rt s load) := by
  subst hl
  unfold arrayRead writeSys
  refine withSys_gives hc _ _ _ fun _ _ => ?_
  rw [State.advance_eq]; rfl

end Sys2Proof.Machine

end
end

