-- ==== Sys2Proof/Laws/DebugRegisters.lean ====
section
/-! SUPPORT. The debug registers through CP14, and PAR. -/

noncomputable section

namespace Sys2Proof.Machine

open Safety

theorem setBit9 (pa : BitVec 20) (ns x : Bool) : setBit (pa ++ 0#2 ++ bit ns ++ 0#1 ++ 1#1 ++ 0b001#3 ++ 0b00#2 ++ 0#1 ++ 0#1 : Word) 9 x = (pa ++ 0#2 ++ bit x ++ 0#1 ++ 1#1 ++ 0b001#3 ++ 0b00#2 ++ 0#1 ++ 0#1 : Word) := by
  apply BitVec.eq_of_getLsbD_eq; intro i hi
  rw [getLsbD_setBit _ _ _ _ (by decide)]
  by_cases h : i = 9
  · rw [if_pos h]; simp only [BitVec.getLsbD_append]; subst h; cases ns <;> cases x <;> simp
  · rw [if_neg h]
    simp only [BitVec.getLsbD_append]
    by_cases h9 : i < 9
    · have : i - 1 < 8 := by omega
      interval_cases i <;> simp_all
    · have h1 : ¬ (i - 1 - 1 - 2 - 3 - 1 - 1 < 1) := by omega
      simp [h1]

theorem p14Open_eq (s : State) : s.p14Open = debugRight s := rfl

theorem dscrByCp14_bits (s : State) :
    let v := dscrByCp14 s
    let d := s.dbg.dscr
    (∀ i ∈ [0, 1, 2, 3, 4, 5, 6, 7, 8, 10, 11, 12, 13, 19, 20, 21, 25, 29, 30], v.getLsbD i = d.getLsbD i) ∧
        (∀ i ∈ [14, 15], v.getLsbD i = (d.getLsbD i && s.pins.dbgen)) ∧
        v.getLsbD 16 = !(s.pins.dbgen && s.pins.spiden) ∧ v.getLsbD 18 = !s.secure ∧
        v.getLsbD 17 = !((s.pins.niden || s.pins.dbgen) && (s.pins.spniden || s.pins.spiden)) ∧
        v.getLsbD 28 = false ∧ v.getLsbD 31 = false := by
  intro v d
  have e (i : Nat) (hi : i < 32) : v.getLsbD i = (
      (if i = 16 then !(s.pins.dbgen && s.pins.spiden) else if i = 17 then !((s.pins.niden || s.pins.dbgen) && (s.pins.spniden || s.pins.spiden))
       else if i = 18 then !s.secure else (d.getLsbD i && (0x6238FDFF : Word).getLsbD i && (s.pins.dbgen || (0xFFFF3FFF : Word).getLsbD i))) ||
      (s.draw.getLsbD i && (0x0DC00200 : Word).getLsbD i)) := by
    show (dscrView s ||| (s.draw &&& 0x0DC00200)).getLsbD i = _
    rw [BitVec.getLsbD_or, BitVec.getLsbD_and]
    congr 1
    unfold dscrView
    dsimp only
    rw [getLsbD_setBit _ _ _ _ (by decide), getLsbD_setBit _ _ _ _ (by decide), getLsbD_setBit _ _ _ _ (by decide)]
    have : ∀ b, (if s.pins.dbgen = true then s.dbg.dscr &&& dscrStored else s.dbg.dscr &&& dscrStored &&& b).getLsbD i = (d.getLsbD i && (0x6238FDFF : Word).getLsbD i && (s.pins.dbgen || b.getLsbD i)) := by
      intro b; cases s.pins.dbgen <;> simp only [Bool.false_eq_true, if_true, if_false, BitVec.getLsbD_and, Bool.true_or, Bool.and_true, Bool.false_or] <;> rfl
    rw [this]; rfl
  refine ⟨?_, ?_, ?_, ?_, ?_, ?_, ?_⟩
  · intro i hi; simp only [List.mem_cons, List.not_mem_nil, or_false] at hi
    rcases hi with rfl | rfl | rfl | rfl | rfl | rfl | rfl | rfl | rfl | rfl | rfl | rfl | rfl | rfl | rfl | rfl | rfl | rfl | rfl <;>
      (rw [e _ (by decide)]; simp [-BitVec.getLsbD_eq_getElem])
  · intro i hi; simp only [List.mem_cons, List.not_mem_nil, or_false] at hi
    rcases hi with rfl | rfl <;> (rw [e _ (by decide)]; simp [-BitVec.getLsbD_eq_getElem])
  all_goals (rw [e _ (by decide)]; simp [-BitVec.getLsbD_eq_getElem])

theorem taken_eq (s : State) : ({ s with dbg := { s.dbg with dscr := s.dbg.dscr &&& 0xBFFFFFFF } } : State) = s.dtrTaken := by
  unfold State.dtrTaken
  have : setBit s.dbg.dscr 30 false = s.dbg.dscr &&& 0xBFFFFFFF := by
    apply BitVec.eq_of_getLsbD_eq; intro i hi
    rw [getLsbD_setBit _ _ _ _ (by decide), BitVec.getLsbD_and]
    interval_cases i <;> simp [-BitVec.getLsbD_eq_getElem]
  rw [this]

theorem given_eq (s : State) (v : Word) : ({ s with dbg := { s.dbg with dtrtx := v, dscr := s.dbg.dscr ||| 0x20000000 } } : State) = s.dtrGiven v := by
  unfold State.dtrGiven
  have : setBit s.dbg.dscr 29 true = s.dbg.dscr ||| 0x20000000 := by
    apply BitVec.eq_of_getLsbD_eq; intro i hi
    rw [getLsbD_setBit _ _ _ _ (by decide), BitVec.getLsbD_or]
    interval_cases i <;> simp [-BitVec.getLsbD_eq_getElem]
  rw [this]

theorem given_halted (s : State) (v : Word) : (s.dtrGiven v).halted = s.halted := by
  unfold State.halted State.dtrGiven
  dsimp only
  rw [getLsbD_setBit _ _ _ _ (by decide)]; rfl

theorem taken_halted (s : State) : s.dtrTaken.halted = s.halted := by
  unfold State.halted State.dtrTaken
  dsimp only
  rw [getLsbD_setBit _ _ _ _ (by decide)]; rfl

theorem vfpOpen_eq (s : State) : s.vfpOpen = vfpGate s := by
  rfl

end Sys2Proof.Machine

end
end

