-- ==== Sys2Proof/Laws/KeptState.lean ====
section
/-! SUPPORT. What data accesses, cache operations and the APB port never change: the relation and its plainest cases. -/

noncomputable section

namespace Sys2Proof.Machine

open Safety

/-- `t` keeps of `s` what no data access and no cache operation changes: debug state, the pc, CPSR, the SPSRs, SCR, what is
the Secure state's own when `s` is Nonsecure, and the canonical form of memory. -/
structure Kept (s t : State) : Prop where
  halted : t.halted = s.halted
  pc : t.pc = s.pc
  cpsr : t.cpsr = s.cpsr
  spsr : t.spsr = s.spsr
  scr : t.sys.scr = s.sys.scr
  only : s.secure = false → secureOnly t = secureOnly s
  mem : Memory.wf s.mem = true → Memory.wf t.mem = true

theorem Kept.mode {s t : State} (h : Kept s t) : t.mode = s.mode := State.mode_congr h.cpsr

theorem Kept.sec {s t : State} (h : Kept s t) : t.secure = s.secure := by
  unfold State.secure; rw [h.mode, h.scr]

theorem Kept.refl (s : State) : Kept s s := ⟨rfl, rfl, rfl, rfl, rfl, fun _ => rfl, id⟩

theorem Kept.trans {s t u : State} (h : Kept s t) (k : Kept t u) : Kept s u :=
  ⟨k.halted.trans h.halted, k.pc.trans h.pc, k.cpsr.trans h.cpsr, k.spsr.trans h.spsr, k.scr.trans h.scr,
    fun x => (k.only (h.sec.trans x)).trans (h.only x), fun x => k.mem (h.mem x)⟩

theorem kept_note (s : State) (e : Nat) : Kept s (s.note e) := ⟨rfl, rfl, rfl, rfl, rfl, fun _ => rfl, id⟩

theorem kept_drawn (s : State) : Kept s s.drawn := ⟨rfl, rfl, rfl, rfl, rfl, fun _ => rfl, id⟩

theorem kept_dbg {s : State} {d : Debug} (h : d.dscr.getLsbD 0 = s.dbg.dscr.getLsbD 0) : Kept s { s with dbg := d } :=
  ⟨h, rfl, rfl, rfl, rfl, fun _ => rfl, id⟩

/-- A change of the record of late stores alone. -/
theorem kept_onlyLate {s t : State} (h : OnlyLate s t) : Kept s t := by
  rw [h]; exact ⟨rfl, rfl, rfl, rfl, rfl, fun _ => rfl, id⟩

/-- Stores lost before they arrived. -/
theorem kept_loseStores (s : State) : Kept s s.loseStores := by
  obtain ⟨m, c, d, h, hw⟩ := loseStores_spec s
  rw [h]; exact ⟨rfl, rfl, rfl, rfl, rfl, fun _ => rfl, hw⟩

/-- The free choice of the late stores a fetch misses. -/
theorem kept_lateChosen (s : State) : Kept s s.lateChosen := ⟨rfl, rfl, rfl, rfl, rfl, fun _ => rfl, id⟩

theorem kept_ordered (s : State) (p : Span) : Kept s (s.ordered p) := by
  unfold State.ordered; split <;> exact ⟨rfl, rfl, rfl, rfl, rfl, fun _ => rfl, id⟩

/-- What other bus masters write between the accesses of an instruction. -/
theorem kept_gap (s : State) : Kept s s.gap := by
  have h := gap_eq s
  exact ⟨by rw [h]; rfl, by rw [h], by rw [h], by rw [h], by rw [h], fun _ => by rw [h]; rfl, gap_wf⟩

/-! Barriers -/

theorem kept_completed (s : State) : Kept s s.completed := ⟨rfl, rfl, rfl, rfl, rfl, fun _ => rfl, id⟩

theorem kept_fenceStores (s : State) : Kept s s.fenceStores := ⟨rfl, rfl, rfl, rfl, rfl, fun _ => rfl, id⟩

theorem kept_synchronized (s : State) : Kept s s.synchronized := ⟨rfl, rfl, rfl, rfl, rfl, fun _ => rfl, id⟩

theorem kept_corrupted (s : State) : Kept s s.corrupted := ⟨rfl, rfl, rfl, rfl, rfl, fun _ => rfl, id⟩

theorem kept_ite {s t u : State} {c : Prop} [Decidable c] (h : Kept s t) (k : Kept s u) : Kept s (if c then t else u) := by
  split <;> assumption

theorem physReg_mon (m : Mode) (n : BitVec 4) (hm : m ≠ .mon) (hn : n ≠ 15) : physReg m n ≠ physReg .mon 13 ∧ physReg m n ≠ physReg .mon 14 := by
  revert n; cases m <;> first | exact absurd rfl hm | decide

theorem nonsecure_mode {s : State} (h : s.secure = false) : s.mode ≠ .mon := by
  intro e; unfold State.secure at h; rw [e] at h; simp at h

theorem kept_setRegOf (s : State) (m : Mode) (n : BitVec 4) (v : Word) (hn : n ≠ 15) (hm : s.secure = false → m ≠ .mon) : Kept s (s.setRegOf m n v) := by
  refine ⟨rfl, rfl, rfl, rfl, rfl, fun h => ?_, id⟩
  obtain ⟨h1, h2⟩ := physReg_mon m n (hm h) hn
  unfold secureOnly
  rw [State.regOf_setRegOf, State.regOf_setRegOf, if_neg h1, if_neg h2]; rfl

theorem kept_setReg (s : State) (n : BitVec 4) (v : Word) : Kept s (s.setReg n v) := by
  unfold State.setReg
  split
  · exact Kept.refl s
  · rename_i h; exact kept_setRegOf s _ n v h nonsecure_mode

theorem kept_dscr (s : State) (i : Nat) (b : Bool) (h0 : 0 < i) (h : i < 32) : Kept s { s with dbg := { s.dbg with dscr := setBit s.dbg.dscr i b } } := by
  refine ⟨?_, rfl, rfl, rfl, rfl, fun _ => rfl, id⟩
  unfold State.halted
  exact getLsbD_setBit_ne _ _ _ _ h (by omega)

theorem kept_pendAbort (s : State) (k : AbortKind) : Kept s (s.pendAbort k) := by
  unfold State.pendAbort
  split
  · exact kept_dscr s 7 true (by decide) (by decide)
  · split <;> exact ⟨rfl, rfl, rfl, rfl, rfl, fun _ => rfl, id⟩

/-- What a walk that fails leaves. -/
theorem kept_walkFailed (t : TFault) (s : State) : Kept s (walkFailed t s) := by
  unfold walkFailed
  dsimp only
  exact kept_ite ((kept_corrupted s).trans ⟨rfl, rfl, rfl, rfl, rfl, fun _ => rfl, id⟩) (Kept.refl s)

theorem kept_settle (m : Option Bool) (s : State) : Kept s (settle m s).2 := by
  cases m
  · exact kept_drawn s
  · exact Kept.refl s

theorem kept_watchGate (q : Req) (va : Word) (s : State) : Kept s (watchGate q va s).2 := kept_settle _ s

theorem kept_allocateTlb (d : Bool) (e : TlbEntry) (s : State) : Kept s (allocateTlb d e s) := by
  cases d <;> exact ⟨rfl, rfl, rfl, rfl, rfl, fun _ => rfl, id⟩

theorem kept_setBank {s : State} (b : Bool) (k : Banked) (h : s.secure = false → b = false) : Kept s (s.setBank b k) := by
  cases b
  · exact ⟨rfl, rfl, rfl, rfl, rfl, fun _ => rfl, id⟩
  · exact ⟨rfl, rfl, rfl, rfl, rfl, fun x => absurd (h x) (by decide), id⟩

end Sys2Proof.Machine

end
end

