-- ==== Sys2Proof/Laws/Port.lean ====
section
/-! SUPPORT. What an access through the APB port never changes, whoever makes it. -/

noncomputable section

namespace Sys2Proof.Machine

open Safety

/-- The state an access to the port leads to, before the instruction in the ITR where it issues it, is kept. -/
def Port.Keeps (s : State) : Port → Prop
  | .next t => Kept s t
  | .issue t => Kept s t
  | .stop => True

theorem portKeeps_if {s : State} {c : Prop} [Decidable c] {a b : Port} (h : Port.Keeps s a) (k : Port.Keeps s b) :
    Port.Keeps s (if c then a else b) := by split <;> assumption

theorem portKeeps_mono {s t : State} {p : Port} (h : Kept s t) (k : Port.Keeps t p) : Port.Keeps s p := by
  cases p with
  | next u => exact h.trans k
  | issue u => exact h.trans k
  | stop => trivial

theorem portKeeps_map {s : State} {p : Port} {f : State → State} (h : Port.Keeps s p) (k : ∀ t, Kept t (f t)) :
    Port.Keeps s (p.map f) := by
  cases p with
  | next u => exact Kept.trans h (k u)
  | issue u => exact Kept.trans h (k u)
  | stop => trivial

/-- Every change of the debug registers that leaves DSCR[0]. -/
theorem portKeeps_dbg {s : State} {d : Debug} (h : d.dscr.getLsbD 0 = s.dbg.dscr.getLsbD 0) :
    Port.Keeps s (.next { s with dbg := d }) := kept_dbg h

theorem getLsbD_merge0 (old v mask : Word) (h : mask.getLsbD 0 = false) : (mergeBits old v mask).getLsbD 0 = old.getLsbD 0 := by
  rw [getLsbD_mergeBits, h]; rfl

theorem kept_dscrMerge {mask : Word} (h : mask.getLsbD 0 = false) (v : Word) (s : State) : Kept s (dscrMerge mask v s) :=
  kept_dbg (getLsbD_merge0 _ _ _ h)

theorem kept_restoreWord (k : Nat) (v : Word) (s : State) : Kept s (restoreWord k v s) := by
  unfold restoreWord
  refine kept_ite (kept_dbg rfl) (kept_ite (kept_dbg rfl) (kept_ite (kept_dbg rfl) (kept_ite (kept_dbg rfl) ?_)))
  split
  · exact kept_dbg rfl
  · exact (kept_dscrMerge (mask := 0x6030FC3C) (by decide) v s).trans (kept_dbg rfl)
  · exact kept_dbg rfl
  · exact kept_dbg rfl
  · exact kept_dbg rfl
  · exact kept_dbg rfl

theorem kept_osAt (s : State) (q : OsSaveSeq) : Kept s (s.osAt q) := kept_dbg rfl

theorem portKeeps_ossrrWrite (v : Word) (s : State) : Port.Keeps s (ossrrWrite v s) := by
  unfold ossrrWrite
  split
  · trivial
  · exact portKeeps_if ((kept_osAt s _).trans (kept_restoreWord _ _ _)) trivial
  · exact portKeeps_if ((kept_osAt s _).trans (kept_restoreWord _ _ _)) trivial

theorem kept_drcrWrite (v : Word) (s : State) : Kept s (drcrWrite v s) := by
  refine kept_dbg ?_
  dsimp only
  split <;> split <;> simp only [getLsbD_setBits_apart _ 6 (0 : BitVec 3) (by decide) 0 (Or.inl (by decide)), getLsbD_setBit_ne _ 25 false 0 (by decide) (by decide)]

theorem kept_oslarWrite (v : Word) (s : State) : Kept s (oslarWrite v s) := kept_ite (kept_dbg rfl) (kept_dbg rfl)

theorem portKeeps_fastIssue (s : State) : Port.Keeps s (fastIssue s) :=
  portKeeps_if (Kept.refl s) (portKeeps_if (kept_dbg rfl) (kept_dbg rfl))

theorem portKeeps_dtrrxWrite (v : Word) (s : State) : Port.Keeps s (dtrrxWrite v s) := by
  refine portKeeps_if trivial (portKeeps_if (Kept.refl s) (portKeeps_mono (kept_dbg ?_) (portKeeps_fastIssue _)))
  exact getLsbD_setBit_ne _ _ _ _ (by decide) (by decide)

theorem portKeeps_itrWrite (v : Word) (s : State) : Port.Keeps s (itrWrite v s) :=
  portKeeps_if trivial (portKeeps_if (Kept.refl s) (portKeeps_if (kept_dbg rfl)
    ((kept_dbg (d := { s.dbg with itr := v }) rfl).trans (kept_dbg rfl))))

theorem portKeeps_debugWrite (reg : Nat) (v : Word) (s : State) : Port.Keeps s (debugWrite reg v s) := by
  unfold debugWrite
  refine portKeeps_if (portKeeps_dbg rfl) (portKeeps_if (portKeeps_dbg rfl) (portKeeps_if (portKeeps_dbg rfl)
    (portKeeps_if (portKeeps_dbg rfl) ?_)))
  split
  · exact portKeeps_dbg rfl
  · exact portKeeps_dbg rfl
  · exact portKeeps_dbg rfl
  · exact portKeeps_dbg rfl
  · exact portKeeps_dtrrxWrite _ _
  · exact portKeeps_itrWrite _ _
  · exact kept_dscrMerge (by decide) _ _
  · exact portKeeps_dbg rfl
  · exact kept_drcrWrite _ _
  · exact kept_oslarWrite _ _
  · exact portKeeps_ossrrWrite _ _
  · exact ⟨rfl, rfl, rfl, rfl, rfl, fun _ => rfl, id⟩
  · exact portKeeps_dbg rfl
  · exact portKeeps_dbg rfl
  · exact portKeeps_dbg rfl
  · exact portKeeps_dbg rfl
  · exact portKeeps_dbg rfl
  · exact Kept.refl s

theorem portKeeps_debugReadEffect (reg : Nat) (s : State) : Port.Keeps s (debugReadEffect reg s) := by
  unfold debugReadEffect
  split
  · exact portKeeps_dbg rfl
  · refine portKeeps_if trivial (portKeeps_if (Kept.refl s) (portKeeps_mono (kept_dbg ?_) (portKeeps_fastIssue _)))
    exact getLsbD_setBit_ne _ _ _ _ (by decide) (by decide)
  · exact portKeeps_dbg rfl
  · exact Kept.refl s

theorem kept_apbDone (s : State) (d : Word) (e : Bool) : Kept s (s.apbDone d e) := kept_dbg rfl

theorem kept_apbOpen (s : State) (e : Bool) : Kept s (s.apbOpen e) := (kept_drawn s).trans (kept_apbDone _ _ _)

theorem kept_ossrrRead {s t : State} {v : Word} (h : ossrrRead s = some (v, t)) : Kept s t := by
  unfold ossrrRead at h
  split at h
  · cases h; exact kept_osAt _ _
  · split at h
    · cases h; exact kept_osAt _ _
    · cases h
  · cases h

theorem portKeeps_debugReadOk (reg : Nat) (x : Bool) (s : State) : Port.Keeps s (debugReadOk reg x s) := by
  unfold debugReadOk
  dsimp only
  refine portKeeps_if ?_ (portKeeps_map ?_ fun t => kept_apbDone _ _ _)
  · split
    · trivial
    · rename_i v t e
      exact ((kept_ite (Kept.refl s) (kept_ossrrRead e)).trans (kept_drawn _)).trans (kept_apbDone _ _ _)
  · exact portKeeps_if (kept_drawn s) (portKeeps_mono (kept_drawn s) (portKeeps_debugReadEffect _ _))

theorem portKeeps_debugRead (reg : Nat) (x : Bool) (s : State) : Port.Keeps s (debugRead reg x s) := by
  unfold debugRead
  split
  · exact portKeeps_debugReadOk _ _ _
  · exact kept_apbOpen _ _
  · exact (kept_drawn s).trans (kept_apbOpen _ _)
  · exact portKeeps_if ((kept_drawn s).trans (kept_apbOpen _ _))
      (portKeeps_map (portKeeps_mono (kept_drawn s) (portKeeps_debugReadOk _ _ _)) fun t => kept_apbOpen _ _)
  · trivial

theorem portKeeps_debugWriteOk (reg : Nat) (x : Bool) (v : Word) (s : State) : Port.Keeps s (debugWriteOk reg x v s) :=
  portKeeps_if (kept_ite (Kept.refl s) (kept_dbg rfl)) (portKeeps_if (Kept.refl s) (portKeeps_debugWrite _ _ _))

theorem portKeeps_debugStore (reg : Nat) (x : Bool) (v : Word) (s : State) : Port.Keeps s (debugStore reg x v s) := by
  unfold debugStore
  split
  · exact portKeeps_map (portKeeps_debugWriteOk _ _ _ _) fun t => kept_apbDone _ _ _
  · exact kept_apbDone _ _ _
  · exact (kept_drawn s).trans (kept_apbDone _ _ _)
  · exact portKeeps_if ((kept_drawn s).trans (kept_apbDone _ _ _))
      (portKeeps_map (portKeeps_mono (kept_drawn s) (portKeeps_debugWriteOk _ _ _ _)) fun t => kept_apbDone _ _ _)
  · trivial

theorem portKeeps_apbRead (sel : ApbSelect) (x : Bool) (reg : Nat) (s : State) : Port.Keeps s (apbRead sel x reg s) := by
  unfold apbRead
  refine portKeeps_if trivial ?_
  split
  · exact portKeeps_debugRead _ _ _
  · exact portKeeps_if (kept_apbOpen _ _) ((kept_drawn s).trans (kept_apbDone _ _ _))
  · split
    · exact kept_ite (((kept_drawn s).trans (kept_drawn _)).trans (kept_apbOpen _ _))
        (((kept_drawn s).trans (kept_drawn _)).trans (kept_apbDone _ _ _))
    · exact (kept_drawn s).trans (kept_apbOpen _ _)

theorem kept_ctiTick (p : BitVec 4) (s : State) : Kept s (ctiTick p s) := ⟨rfl, rfl, rfl, rfl, rfl, fun _ => rfl, id⟩

theorem kept_ctiWrite {reg : Nat} {x : Bool} {v : Word} {s t : State} (h : ctiWrite reg x v s = some t) : Kept s t := by
  unfold ctiWrite at h
  split at h
  · cases h; exact kept_ite (Kept.refl s) ⟨rfl, rfl, rfl, rfl, rfl, fun _ => rfl, id⟩
  · split at h
    · cases h; exact Kept.refl s
    · dsimp only at h
      split at h
      · cases h
      · cases h
        exact Kept.trans (t := { s with cti := ctiStore s.build reg v s.cti }) ⟨rfl, rfl, rfl, rfl, rfl, fun _ => rfl, id⟩
          (kept_ctiTick _ _)

theorem portKeeps_apbWrite (sel : ApbSelect) (x : Bool) (reg : Nat) (v : Word) (s : State) :
    Port.Keeps s (apbWrite sel x reg v s) := by
  unfold apbWrite
  refine portKeeps_if trivial ?_
  split
  · exact portKeeps_debugStore _ _ _ _
  · refine portKeeps_if (kept_apbDone _ _ _) ?_
    split
    · rename_i t e; exact (kept_ctiWrite e).trans (kept_apbDone _ _ _)
    · trivial
  · have k : Kept s { s with etm := etmStore reg v s.etm } := ⟨rfl, rfl, rfl, rfl, rfl, fun _ => rfl, id⟩
    exact ((kept_ite (c := etmError reg s = true) (Kept.refl s) k).trans (kept_drawn _)).trans (kept_apbDone _ _ _)

/-- A load or a store of the core that reaches the port. -/
theorem portKeeps_apbCore (sel : ApbSelect) (reg : Nat) (priv : Bool) (w : Option Word) (s : State) :
    Port.Keeps s (apbCore sel reg priv w s) := by
  unfold apbCore
  refine portKeeps_if (kept_apbOpen _ _) (portKeeps_if trivial ?_)
  cases w with
  | none =>
    have h := portKeeps_apbRead sel false reg s
    dsimp only
    split
    · rename_i e; rw [e] at h; exact h
    · trivial
  | some v =>
    have h := portKeeps_apbWrite sel false reg v s
    dsimp only
    split
    · rename_i e; rw [e] at h; exact h
    · trivial

end Sys2Proof.Machine

end
end

