-- ==== Sys2Proof/Laws/Kept.lean ====
section
/-! SUPPORT. What data accesses and cache operations never change. -/

noncomputable section

namespace Sys2Proof.Machine

open Safety

/-! Accesses -/

/-- Every state an access ends in is kept. -/
def Acc.Keeps {α : Type} (s : State) : Acc α → Prop
  | .ok _ t => Kept s t
  | .abort _ t => Kept s t
  | .stop _ => True

theorem keeps_bind {α β : Type} {s : State} {x : Acc α} {f : α → State → Acc β} (h : Acc.Keeps s x)
    (k : ∀ a t, Kept s t → Acc.Keeps s (f a t)) : Acc.Keeps s (x.bind f) := by
  cases x with
  | ok a t => exact k a t h
  | abort i t => exact h
  | stop e => trivial

theorem keeps_mono {α : Type} {s t : State} {x : Acc α} (h : Kept s t) (k : Acc.Keeps t x) : Acc.Keeps s x := by
  cases x with
  | ok a t => exact h.trans k
  | abort i t => exact h.trans k
  | stop e => trivial

theorem keeps_lookup (s : State) (sec : Bool) (k : XKind) (mva : Word) : Acc.Keeps s (lookup s sec k mva) := by
  unfold lookup
  dsimp only
  split
  · exact Kept.refl s
  · split
    · exact kept_walkFailed _ s
    · exact (kept_allocateTlb _ _ s).trans (kept_drawn _)
  · trivial

theorem keeps_translate (s : State) (sec priv : Bool) (k : XKind) (mva : Word) : Acc.Keeps s (translate s sec priv k mva) := by
  unfold translate
  split
  · exact Kept.refl s
  · refine keeps_bind (keeps_lookup _ _ _ _) fun e t h => ?_
    split <;> exact h

theorem keeps_span (s : State) (priv : Bool) (k : XKind) (va : Word) (n : Nat) : Acc.Keeps s (span s priv k va n) := by
  unfold span
  refine keeps_bind (keeps_translate _ _ _ _ _) fun p t h => ?_
  split
  · exact h
  · exact keeps_bind (keeps_mono h (keeps_translate _ _ _ _ _)) fun _ _ h => h

theorem keeps_prepare (q : Req) (k : XKind) (va : Word) (s : State) : Acc.Keeps s (prepare q k va s) := by
  unfold prepare
  dsimp only
  split
  · exact Kept.refl s
  · refine keeps_bind (keeps_span _ _ _ _ _) fun p t h => ?_
    split <;> exact h

theorem kept_noteAccess (e n : Nat) (va : Word) (s : State) : Kept s (noteAccess e n va s) := by
  unfold noteAccess
  split
  · exact kept_note s e
  · exact (kept_note s e).trans (kept_note _ _)

theorem kept_readLoose (p : Span) : ∀ (n i : Nat) (s : State), Kept s (readLoose p i n s).2
  | 0, _, s => Kept.refl s
  | n + 1, i, s => (kept_ite (Kept.refl s) (kept_gap s)).trans (kept_readLoose p n (i + 1) (if n = 0 then s else s.gap))

theorem kept_readWhole (va : Word) (p : Span) (n : Nat) (s : State) : Kept s (readWhole va p n s).2 := by
  unfold readWhole; split
  · exact Kept.refl s
  · exact kept_readLoose p n 0 s

theorem keeps_readMemory (q : Req) (va : Word) (p : Span) (s : State) : Acc.Keeps s (readMemory q va p s) := by
  unfold readMemory
  dsimp only
  split
  · split
    · exact Kept.refl s
    · rename_i slave _ _
      have h := ((kept_drawn s).trans (kept_drawn _)).trans ((kept_pendAbort _ _).trans (kept_watchGate q va (s.drawn.drawn.pendAbort (.external slave))))
      split
      · exact h
      · exact h.trans ((kept_ordered _ p).trans (kept_noteAccess _ _ _ _))
  · have h := kept_watchGate q va s
    split
    · exact h
    · exact h.trans ((kept_readWhole va p q.size _).trans ((kept_ordered _ p).trans (kept_noteAccess _ _ _ _)))

/-- A load from the debug registers. -/
theorem keeps_readApb (q : Req) (va : Word) (p : Span) (sel : ApbSelect) (reg : Nat) (s : State) :
    Acc.Keeps s (readApb q va p sel reg s) := by
  unfold readApb
  have h := portKeeps_mono (kept_watchGate q va s) (portKeeps_apbCore sel reg q.priv none (watchGate q va s).2)
  dsimp only
  generalize apbCore sel reg q.priv none (watchGate q va s).2 = r at h ⊢
  cases r with
  | next t =>
    have h : Kept s t := h
    dsimp only
    split
    · exact h
    · split
      · exact h.trans (kept_ite (kept_pendAbort _ _) (Kept.refl t))
      · split
        · exact h.trans (((kept_drawn t).trans (kept_drawn _)).trans
            ((kept_pendAbort _ _).trans ((kept_ordered _ p).trans (kept_noteAccess _ _ _ _))))
        · exact h.trans ((kept_ordered _ p).trans (kept_noteAccess _ _ _ _))
  | issue t => trivial
  | stop => trivial

theorem keeps_readBytes (q : Req) (va : Word) (p : Span) (s : State) : Acc.Keeps s (readBytes q va p s) := by
  unfold readBytes
  split
  · exact keeps_readApb _ _ _ _ _ _
  · exact keeps_readMemory _ _ _ _

theorem keeps_readAt (q : Req) (va : Word) (p : Span) (s : State) : Acc.Keeps s (readAt q va p s) :=
  keeps_bind (keeps_readBytes _ _ _ _) fun _ _ h => h

theorem keeps_readData (q : Req) (va : Word) (s : State) : Acc.Keeps s (readData q va s) :=
  keeps_bind (keeps_prepare _ _ _ _) fun _ _ h => keeps_mono h (keeps_readAt _ _ _ _)

theorem kept_writeMem (s : State) (ns : Bool) (pa : Word) (b : Byte) : Kept s (writeMem s ns pa b) :=
  ⟨rfl, rfl, rfl, rfl, rfl, fun _ => rfl, fun h => writeMem_wf h _ _ _⟩

theorem kept_writeByte (s : State) (r : Route) (ns : Bool) (pa : Word) (b : Byte) : Kept s (writeByte s r ns pa b) := by
  have h1 : Kept s (if r.l1 then writeL1 s r.l1Back ns pa b else s) :=
    kept_ite ⟨rfl, rfl, rfl, rfl, rfl, fun _ => rfl, id⟩ (Kept.refl s)
  unfold writeByte
  refine kept_ite (Kept.trans ?_ (kept_writeMem _ _ _ _)) ?_ <;>
    exact kept_ite (h1.trans ⟨rfl, rfl, rfl, rfl, rfl, fun _ => rfl, id⟩) h1

theorem kept_writeSpan (p : Span) : ∀ (bs : List Byte) (i : Nat) (s : State), Kept s (writeSpan p i bs s)
  | [], _, s => Kept.refl s
  | b :: bs, i, s => (kept_writeByte s _ _ _ b).trans (kept_writeSpan p bs (i + 1) _)

theorem kept_writeLoose (p : Span) : ∀ (bs : List Byte) (i : Nat) (s : State), Kept s (writeLoose p i bs s)
  | [], _, s => Kept.refl s
  | b :: bs, i, s =>
    (((kept_onlyLate (onlyLate_lateStore p i [b] false s)).trans (kept_writeSpan p [b] i _)).trans
      (kept_ite (Kept.refl _) (kept_gap _))).trans (kept_writeLoose p bs (i + 1) _)

theorem kept_writeWhole (va : Word) (p : Span) (n : Nat) (bs : List Byte) (s : State) : Kept s (writeWhole va p n bs s) :=
  kept_ite ((kept_onlyLate (onlyLate_lateStore p 0 bs false s)).trans (kept_writeSpan p bs 0 _)) (kept_writeLoose p bs 0 s)

theorem keeps_writeMemory (q : Req) (va : Word) (bytes : List Byte) (p : Span) (s : State) :
    Acc.Keeps s (writeMemory q va bytes p s) := by
  unfold writeMemory
  dsimp only
  split
  · split
    · exact kept_ite ((kept_drawn s).trans (kept_writeWhole _ _ _ _ _)) (kept_drawn s)
    · rename_i slave _ _
      have h := (kept_pendAbort s (.external slave)).trans (kept_watchGate q va (s.pendAbort (.external slave)))
      split
      · exact h
      · exact h.trans ((kept_ite ((kept_drawn _).trans (kept_writeWhole _ _ _ _ _))
          ((kept_drawn _).trans (kept_onlyLate (onlyLate_rejectWhole _ _ _ _ _)))).trans ((kept_ordered _ p).trans (kept_noteAccess _ _ _ _)))
  · have h := kept_watchGate q va s
    split
    · exact h
    · exact h.trans ((kept_writeWhole _ _ _ _ _).trans ((kept_ordered _ p).trans (kept_noteAccess _ _ _ _)))

/-- A store to the debug registers. -/
theorem keeps_writeApb (q : Req) (va : Word) (bytes : List Byte) (p : Span) (sel : ApbSelect) (reg : Nat) (s : State) :
    Acc.Keeps s (writeApb q va bytes p sel reg s) := by
  unfold writeApb
  have hg := kept_watchGate q va s
  have h := portKeeps_mono (hg.trans (kept_drawn _))
    (portKeeps_apbCore sel reg q.priv (some (laneWord p.first.pa bytes (watchGate q va s).2.draw)) (watchGate q va s).2.drawn)
  dsimp only
  generalize apbCore sel reg q.priv (some (laneWord p.first.pa bytes (watchGate q va s).2.draw)) (watchGate q va s).2.drawn = r at h ⊢
  cases r with
  | next t =>
    have h : Kept s t := h
    dsimp only
    split
    · exact h
    · split
      · exact hg
      · exact h.trans ((kept_ite (kept_pendAbort _ _) (Kept.refl t)).trans ((kept_ordered _ p).trans (kept_noteAccess _ _ _ _)))
  | issue t => dsimp only; split <;> first | exact hg | trivial
  | stop => dsimp only; split <;> first | exact hg | trivial

theorem keeps_writeBytes (q : Req) (va : Word) (bytes : List Byte) (p : Span) (s : State) : Acc.Keeps s (writeBytes q va bytes p s) := by
  unfold writeBytes
  split
  · exact keeps_writeApb _ _ _ _ _ _ _
  · exact keeps_writeMemory _ _ _ _ _

theorem keeps_writeAt (q : Req) (va v : Word) (p : Span) (s : State) : Acc.Keeps s (writeAt q va v p s) := keeps_writeBytes _ _ _ _ _

theorem keeps_writeData (q : Req) (va v : Word) (s : State) : Acc.Keeps s (writeData q va v s) :=
  keeps_bind (keeps_prepare _ _ _ _) fun _ _ h => keeps_mono h (keeps_writeAt _ _ _ _ _)

/-! Caches -/

theorem kept_storeBytes (l : CacheLine) (bs : List Nat) (s : State) : Kept s (storeBytes l bs s) := by
  have h := storeBytes_eq l bs s
  refine ⟨by rw [h]; rfl, by rw [h], by rw [h], by rw [h], by rw [h], fun _ => by rw [h]; rfl, storeBytes_wf l bs s⟩

theorem kept_putBack (l : CacheLine) (q : BitVec 4) (s : State) : Kept s (putBack l q s).1 := by
  unfold putBack
  dsimp only
  split
  · exact kept_storeBytes _ _ _
  · exact kept_ite ((kept_drawn s).trans (kept_storeBytes _ _ _)) (kept_drawn s)

theorem kept_writeBack (l : CacheLine) (q : BitVec 4) (s : State) : Kept s (writeBack l q s) := by
  have h := kept_putBack l q s
  unfold writeBack
  split
  · rename_i e; rw [e] at h; exact h.trans (kept_onlyLate (onlyLate_fetchChanged _ _ _))
  · rename_i e; rw [e] at h; exact (h.trans (kept_onlyLate (onlyLate_fetchChanged _ _ _))).trans (kept_pendAbort _ _)

theorem kept_cleanL2 (set way : Nat) (s : State) : Kept s (cleanL2 set way s) := by
  unfold cleanL2
  split
  · exact Kept.refl s
  · exact (kept_ite (Kept.refl s) (kept_writeBack _ _ s)).trans ⟨rfl, rfl, rfl, rfl, rfl, fun _ => rfl, id⟩

theorem kept_installL2 (l : CacheLine) (s : State) : Kept s (installL2 l s) :=
  (kept_cleanL2 l.set l.way s).trans
    (Kept.trans (t := { cleanL2 l.set l.way s with l2 := l :: dropLine (cleanL2 l.set l.way s).l2 l.set l.way })
      ⟨rfl, rfl, rfl, rfl, rfl, fun _ => rfl, id⟩ (kept_onlyLate (onlyLate_fetchChanged _ _ _)))

theorem kept_updateL2 (l : CacheLine) (s : State) : Kept s (updateL2 l s) := by
  unfold updateL2
  generalize (updateLine s.l2 (s.l2Set (l.addr 0)) l.ns (l.addr 0) fun m =>
    { m with data := l.data, dirty := if l.outer.back then 0xF else m.dirty }) = x
  exact Kept.trans (t := { s with l2 := x }) ⟨rfl, rfl, rfl, rfl, rfl, fun _ => rfl, id⟩
    (kept_onlyLate (onlyLate_fetchChanged _ _ _))

theorem kept_castOut (l : CacheLine) (s : State) : Kept s (castOut l s) := by
  unfold castOut
  dsimp only
  split
  · exact kept_writeBack _ _ _
  · split
    · exact kept_ite (kept_updateL2 l s) ((kept_updateL2 l s).trans (kept_writeBack _ _ _))
    · split
      · exact kept_ite ((kept_drawn s).trans (kept_installL2 _ _)) (((kept_drawn s).trans (kept_installL2 _ _)).trans (kept_writeBack _ _ _))
      · exact (kept_drawn s).trans (kept_writeBack _ _ _)

theorem kept_cleanL1d (set way : Nat) (s : State) : Kept s (cleanL1d set way s) := by
  unfold cleanL1d
  split
  · exact Kept.refl s
  · exact (kept_ite (Kept.refl s) (kept_castOut _ s)).trans ⟨rfl, rfl, rfl, rfl, rfl, fun _ => rfl, id⟩

theorem kept_invalidateL1d (set way : Nat) (s : State) : Kept s (invalidateL1d set way s) := ⟨rfl, rfl, rfl, rfl, rfl, fun _ => rfl, id⟩

theorem kept_invalidateL2 (set way : Nat) (s : State) : Kept s (invalidateL2 set way s) := ⟨rfl, rfl, rfl, rfl, rfl, fun _ => rfl, id⟩

theorem kept_onL1d {f : Nat → Nat → State → State} (h : ∀ a b s, Kept s (f a b s)) (p : Phys) (s : State) : Kept s (onL1d f p s) := by
  unfold onL1d; split
  · exact Kept.refl s
  · exact h _ _ _

theorem kept_onL2 {f : Nat → Nat → State → State} (h : ∀ a b s, Kept s (f a b s)) (p : Phys) (s : State) : Kept s (onL2 f p s) := by
  unfold onL2; split
  · exact Kept.refl s
  · exact h _ _ _

theorem kept_cleanToPoC (p : Phys) (s : State) : Kept s (cleanToPoC p s) := (kept_onL1d kept_cleanL1d p s).trans (kept_onL2 kept_cleanL2 p _)

theorem kept_invalidateToPoC (p : Phys) (s : State) : Kept s (invalidateToPoC p s) := (kept_onL1d kept_invalidateL1d p s).trans (kept_onL2 kept_invalidateL2 p _)

theorem kept_bySetWay (op : SetWayOp) (v : Word) (s : State) : Kept s (bySetWay op v s) := by
  unfold bySetWay
  dsimp only
  split
  · have h := kept_ite (c := op.cleans (lineAt s.l1d ((v >>> 6).toNat % s.build.l1Size.sets) (v.extractLsb' 30 2).toNat) s = true)
      (kept_cleanL1d ((v >>> 6).toNat % s.build.l1Size.sets) (v.extractLsb' 30 2).toNat s) (Kept.refl s)
    exact kept_ite (h.trans (kept_invalidateL1d _ _ _)) h
  · have h := kept_ite (c := op.cleans (lineAt s.l2 ((v >>> 6).toNat % s.build.l2Size.sets) (v.extractLsb' 29 3).toNat) s = true)
      (kept_cleanL2 ((v >>> 6).toNat % s.build.l2Size.sets) (v.extractLsb' 29 3).toNat s) (Kept.refl s)
    exact kept_ite (h.trans (kept_invalidateL2 _ _ _)) h
  · exact Kept.refl s

theorem kept_dropL1i (gone : CacheLine → Bool) (s : State) : Kept s (dropL1i gone s) := by
  rw [dropL1i_eq]; exact ⟨rfl, rfl, rfl, rfl, rfl, fun _ => rfl, id⟩

theorem keeps_maintAddress (mva : Word) (s : State) : Acc.Keeps s (maintAddress mva s) := by
  unfold maintAddress
  split
  · exact Kept.refl s
  · exact keeps_bind (keeps_lookup _ _ _ _) fun _ _ h => h

end Sys2Proof.Machine

end
end

