-- ==== Sys2Proof/Laws/Multiply.lean ====
section
/-! SUPPORT. The writes of the multiply instructions. -/

noncomputable section

namespace Sys2Proof.Machine

open Safety

theorem withNZ_eq (sf : BitVec 1) (s : State) (rd : BitVec 4) (r : Int) (h : rd ≠ 15) :
    (mulWriteS sf rd r s).advance = wroteC s rd (BitVec.ofInt 32 r)
      (withNZ sf s.cpsr (BitVec.ofInt 32 r).msb (decide (BitVec.ofInt 32 r = 0))) := by
  rw [State.advance_eq, mulWriteS, mulWrite, State.setReg_of_ne _ _ _ h]
  simp only [withNZ, State.setNZ, setBits_nz, beq_eq_decide]
  split <;> rfl

theorem mulWrite_eq (s : State) (rd : BitVec 4) (r : Int) (h : rd ≠ 15) :
    (mulWrite rd r s).advance = wrote s rd (BitVec.ofInt 32 r) := by
  rw [State.advance_eq, mulWrite, State.setReg_of_ne _ _ _ h]; rfl

theorem stickyQ_eq (s : State) (q : Bool) : s.stickyQ q = { s with cpsr := withQ s.cpsr (s.cpsr.getLsbD 27 || q) } := by
  cases q
  · have : withQ s.cpsr (s.cpsr.getLsbD 27) = s.cpsr := by
      rw [← setBits_q]; apply BitVec.eq_of_getLsbD_eq; intro i hi
      rw [getLsbD_setBit _ _ _ _ (by decide)]; split <;> simp_all
    simp only [State.stickyQ, Bool.or_false, this, Bool.false_eq_true, if_false]
  · simp only [State.stickyQ, if_true, Bool.or_true, setBits_q]

theorem mulWriteQ_eq (s : State) (rd : BitVec 4) (r : Int) (h : rd ≠ 15) :
    (mulWriteQ rd r s).advance = wroteC s rd (BitVec.ofInt 32 r) (withOverflow s.cpsr r) := by
  have e : overflows32 r = decide (r < -2 ^ 31 ∨ 2 ^ 31 ≤ r) := by
    rw [overflows32, Bool.eq_iff_iff]; simp only [Bool.or_eq_true, decide_eq_true_eq]; omega
  rw [State.advance_eq, mulWriteQ, Machine.stickyQ_eq, mulWrite, State.setReg_of_ne _ _ _ h, e]; rfl

theorem longWrite_eq (s : State) (hi lo : BitVec 4) (r : Int) (h : hi ≠ 15) (l : lo ≠ 15) :
    (longWrite hi lo r s).advance = wrotePair s hi lo (BitVec.ofInt 64 r) := by
  rw [State.advance_eq, longWrite, State.setReg_of_ne _ _ _ h, State.setReg_of_ne _ _ _ l]; rfl

theorem longWriteS_eq (sf : BitVec 1) (s : State) (hi lo : BitVec 4) (r : Int) (h : hi ≠ 15) (l : lo ≠ 15) :
    (longWriteS sf hi lo r s).advance = { wrotePair s hi lo (BitVec.ofInt 64 r) with
      cpsr := withNZ sf s.cpsr (BitVec.ofInt 64 r).msb (decide (BitVec.ofInt 64 r = 0)) } := by
  rw [State.advance_eq, longWriteS, longWrite, State.setReg_of_ne _ _ _ h, State.setReg_of_ne _ _ _ l]
  simp only [withNZ, State.setNZ, setBits_nz, beq_eq_decide]
  split <;> rfl

theorem longOp_ok {hi lo rm rn : BitVec 4} (d : hi ≠ lo) (h : 15 ∉ [hi, lo, rm, rn]) (s' : State) :
    longOp hi lo rm rn s' = .next s'.advance := by rw [longOp, if_neg d, unlessPC_ok h]

theorem longOp_bad {hi lo rm rn : BitVec 4} (h : 15 ∈ [hi, lo, rm, rn] ∨ hi = lo) (s' : State) :
    longOp hi lo rm rn s' = .fault .operands := by
  rw [longOp]; split
  · rfl
  · rename_i d; exact unlessPC_bad (h.resolve_right d) _

theorem swapped (w : Word) : w.rotateRight 16 = w.extractLsb' 0 16 ++ w.extractLsb' 16 16 := by
  apply BitVec.eq_of_getLsbD_eq; intro i hi
  rw [show (w.extractLsb' 0 16 ++ w.extractLsb' 16 16 : BitVec 32).getLsbD i = _ from BitVec.getLsbD_append]
  rw [BitVec.getLsbD_rotateRight]
  by_cases h : i < 16 <;> simp [-BitVec.getLsbD_eq_getElem, h, hi]
  omega

theorem swapped_halves (w : Word) :
    (w.extractLsb' 0 16 ++ w.extractLsb' 16 16 : BitVec 32).extractLsb' 0 16 = w.extractLsb' 16 16 ∧
    (w.extractLsb' 0 16 ++ w.extractLsb' 16 16 : BitVec 32).extractLsb' 16 16 = w.extractLsb' 0 16 := by
  constructor
  all_goals
    apply BitVec.eq_of_getLsbD_eq; intro i hi
    rw [BitVec.getLsbD_extractLsb', show (w.extractLsb' 0 16 ++ w.extractLsb' 16 16 : BitVec 32).getLsbD _ = _ from BitVec.getLsbD_append]
    simp [-BitVec.getLsbD_eq_getElem, hi]

theorem dual_halves (rm : BitVec 4) (s : State) :
    halfInt (dualOperand rm true s) false = hi16 (s.reg rm) ∧ halfInt (dualOperand rm true s) true = lo16 (s.reg rm) := by
  simp only [dualOperand, halfInt, if_true, Bool.false_eq_true, if_false, Machine.swapped, hi16, lo16, (Machine.swapped_halves _).1, (Machine.swapped_halves _).2]
  trivial

theorem pair_halves (a b : Word) : (a ++ b).extractLsb' 32 32 = a ∧ (a ++ b).extractLsb' 0 32 = b := by
  constructor
  all_goals
    apply BitVec.eq_of_getLsbD_eq; intro i hi
    rw [BitVec.getLsbD_extractLsb', show (a ++ b).getLsbD _ = _ from BitVec.getLsbD_append]
    simp [-BitVec.getLsbD_eq_getElem, hi]

end Sys2Proof.Machine

end
end

