-- ==== Sys2Proof/Laws/Media.lean ====
section
/-! SUPPORT. The writes of the media instructions: lanes, saturation, bit fields, bytes. -/

noncomputable section

namespace Sys2Proof.Machine

open Safety

theorem not_mem_one {a : BitVec 4} (h : a ≠ 15) : 15 ∉ [a] := by
  simp only [List.mem_cons, List.not_mem_nil, or_false]; exact Ne.symm h

theorem not_mem_two {a b : BitVec 4} (h : a ≠ 15) (h' : b ≠ 15) : 15 ∉ [a, b] := by
  simp only [List.mem_cons, List.not_mem_nil, or_false, not_or]; exact ⟨Ne.symm h, Ne.symm h'⟩

theorem not_mem_three {a b c : BitVec 4} (h : a ≠ 15) (h' : b ≠ 15) (h'' : c ≠ 15) : 15 ∉ [a, b, c] := by
  simp only [List.mem_cons, List.not_mem_nil, or_false, not_or]; exact ⟨Ne.symm h, Ne.symm h', Ne.symm h''⟩

theorem mediaWrite_eq {regs : List (BitVec 4)} {rd : BitVec 4} (h : 15 ∉ rd :: regs) (v : Word) (s : State) :
    mediaWrite regs rd v s = .next (wrote s rd v) := by
  have hd : rd ≠ 15 := fun e => h (by simp [e])
  rw [mediaWrite, unlessPC_ok h, State.setReg_of_ne _ _ _ hd, State.advance_eq]; rfl

theorem satWrite_eq {regs : List (BitVec 4)} {rd : BitVec 4} (h : 15 ∉ rd :: regs) (v : Word) (q : Bool) (s : State) :
    satWrite regs rd v q s = .next (wroteC s rd v (withQ s.cpsr (s.cpsr.getLsbD 27 || q))) := by
  have hd : rd ≠ 15 := fun e => h (by simp [e])
  rw [satWrite, unlessPC_ok h, State.setReg_of_ne _ _ _ hd, State.advance_eq, stickyQ_eq]; rfl

theorem signedSatQ_eq (i : Int) (n : Nat) : signedSatQ i n = (clamp (-2 ^ (n - 1)) (2 ^ (n - 1) - 1) i, decide (clamp (-2 ^ (n - 1)) (2 ^ (n - 1) - 1) i ≠ i)) := by
  have : (0:Int) < 2 ^ (n-1) := by positivity
  unfold signedSatQ clamp
  split
  · rw [min_eq_left (by omega), max_eq_right (by omega)]; congr; symm; simp; omega
  · split
    · rw [min_eq_right (by omega), max_eq_left (by omega)]; congr; symm; simp; omega
    · rw [min_eq_right (by omega), max_eq_right (by omega)]; simp

theorem unsignedSatQ_eq (i : Int) (n : Nat) : unsignedSatQ i n = (clamp 0 (2 ^ n - 1) i, decide (clamp 0 (2 ^ n - 1) i ≠ i)) := by
  have : (0:Int) < 2 ^ n := by positivity
  unfold unsignedSatQ clamp
  split
  · rw [min_eq_left (by omega), max_eq_right (by omega)]; congr; symm; simp; omega
  · split
    · rw [min_eq_right (by omega), max_eq_left (by omega)]; congr; symm; simp; omega
    · rw [min_eq_right (by omega), max_eq_right (by omega)]; simp

theorem packFields_get (n : Nat) (hn : 0 < n) : ∀ (es : List Int) (i : Nat) (e : Int), n * es.length ≤ 32 → es[i]? = some e →
    (packFields n es).extractLsb' (n * i) n = BitVec.ofInt n e
  | [], i, e, _, h => by simp at h
  | a :: es, 0, e, hl, h => by
    simp at h; subst h
    simp only [packFields]
    have hl' : n * es.length + n ≤ 32 := by simpa [Nat.mul_add] using hl
    have : n ≤ 32 := by have := Nat.zero_le (n * es.length); omega
    apply BitVec.eq_of_getLsbD_eq; intro j hj
    have : j < 32 := by omega
    simp [-BitVec.getLsbD_eq_getElem, hj, this]
  | a :: es, i+1, e, hl, h => by
    have hl' : n * es.length + n ≤ 32 := by simpa [Nat.mul_add] using hl
    rw [← packFields_get n hn es i e (by omega) (by simpa using h)]
    simp only [packFields]
    apply BitVec.eq_of_getLsbD_eq; intro j hj
    have h1 : n * (i + 1) + j - n = n * i + j := by rw [Nat.mul_add]; omega
    have h2 : ¬ n * (i+1) + j < n := by rw [Nat.mul_add]; omega
    have hi : i < es.length := by
      have := h; simp at this; exact (List.getElem?_eq_some_iff.1 this).1
    have h3 : n * (i+1) + j < 32 := by
      have := Nat.mul_le_mul_left n (Nat.succ_le_of_lt hi)
      rw [Nat.mul_add]; rw [Nat.succ_eq_add_one, Nat.mul_add] at this; omega
    have h4 : ¬ n * (i+1) + j < n := h2
    have h5 : n ≤ n * (i+1) + j := by omega
    simp [-BitVec.getLsbD_eq_getElem, hj, h1, h2, h3, h5]

theorem parElements_eq (k : ParKind) (op : ParOp) (a b : Word) :
    parElements k op a b = op.terms.map fun t => (laneExact k op.width t a b, t.2.2) := by
  unfold parElements
  apply List.map_congr_left
  intro t _
  cases k <;> rfl

theorem parStored_eq (k : ParKind) (n : Nat) (e : Int) : parStored k n e = laneStored k n e := by
  cases k <;> simp [parStored, laneStored, signedSatQ_eq, unsignedSatQ_eq]

theorem parGE_eq (k : ParKind) (h : k = .s ∨ k = .u) (n : Nat) (t : Nat × Nat × Bool) (e : Int) : parGE k n (e, t.2.2) = laneGE k n t e := by
  rcases h with rfl | rfl <;> cases h : t.2.2 <;> simp [parGE, laneGE, ParKind.signed, h]

theorem parallel_spec (k : ParKind) (op : ParOp) (rn rd rm : BitVec 4) (s : State) (h : 15 ∉ [rn, rd, rm]) :
    ∃ (v : Word) (ge : BitVec 4), parallel k op rn rd rm s = .next (wroteC s rd v (if k = .s ∨ k = .u then withGE s.cpsr ge else s.cpsr)) ∧
      ∀ (i : Nat) (t : Nat × Nat × Bool), op.terms[i]? = some t →
        let e := laneExact k op.width t (s.reg rn) (s.reg rm)
        v.extractLsb' (op.width * i) op.width = BitVec.ofInt _ (laneStored k op.width e) ∧
        (k = .s ∨ k = .u → ∀ b < 4, 8 * b / op.width = i → ge.getLsbD b = laneGE k op.width t e) := by
  have h' : 15 ∉ [rd, rn, rm] := fun x => h (by simp at x ⊢; tauto)
  have hd : rd ≠ 15 := fun e => h (by simp [e])
  by_cases hk : k = .s ∨ k = .u
  · refine ⟨packFields op.width ((parElements k op (s.reg rn) (s.reg rm)).map fun e => parStored k op.width e.1), parGEs k op (parElements k op (s.reg rn) (s.reg rm)), ?_, ?_⟩
    · rw [parallel, unlessPC_ok h', if_pos hk, if_pos hk, State.setReg_of_ne _ _ _ hd, State.advance_eq, State.setGE, setBits_ge]; rfl
    · intro i t ht
      refine ⟨?_, ?_⟩
      · apply packFields_get _ (by cases op <;> decide)
        · rw [List.length_map, parElements_eq, List.length_map]; cases op <;> decide
        · rw [parElements_eq]; simp [ht, parStored_eq]
      · intro _ b hb hi
        have hg (j : Nat) : ((parElements k op (s.reg rn) (s.reg rm))[j]?.map (parGE k op.width)) = op.terms[j]?.map fun t => laneGE k op.width t (laneExact k op.width t (s.reg rn) (s.reg rm)) := by
          rw [parElements_eq, List.getElem?_map, Option.map_map]
          congr 1; funext t; exact parGE_eq k hk _ _ _
        have key (p q r w : Bool) : (bit p ++ bit q ++ bit r ++ bit w : BitVec 4).getLsbD 0 = w ∧ (bit p ++ bit q ++ bit r ++ bit w : BitVec 4).getLsbD 1 = r ∧ (bit p ++ bit q ++ bit r ++ bit w : BitVec 4).getLsbD 2 = q ∧ (bit p ++ bit q ++ bit r ++ bit w : BitVec 4).getLsbD 3 = p := by
          revert p q r w; decide
        simp only [parGEs, hg]
        by_cases w8 : op.width = 8
        · rw [if_pos w8]
          have : i = b := by rw [w8] at hi; omega
          subst this
          obtain ⟨k0,k1,k2,k3⟩ := key (((op.terms[3]?).map fun t => laneGE k op.width t (laneExact k op.width t (s.reg rn) (s.reg rm))).getD false) (((op.terms[2]?).map fun t => laneGE k op.width t (laneExact k op.width t (s.reg rn) (s.reg rm))).getD false) (((op.terms[1]?).map fun t => laneGE k op.width t (laneExact k op.width t (s.reg rn) (s.reg rm))).getD false) (((op.terms[0]?).map fun t => laneGE k op.width t (laneExact k op.width t (s.reg rn) (s.reg rm))).getD false)
          have : i = 0 ∨ i = 1 ∨ i = 2 ∨ i = 3 := by omega
          rcases this with rfl | rfl | rfl | rfl
          · rw [k0, ht]; rfl
          · rw [k1, ht]; rfl
          · rw [k2, ht]; rfl
          · rw [k3, ht]; rfl
        · have w16 : op.width = 16 := by revert w8; cases op <;> decide
          rw [if_neg w8]
          obtain ⟨k0,k1,k2,k3⟩ := key (((op.terms[1]?).map fun t => laneGE k op.width t (laneExact k op.width t (s.reg rn) (s.reg rm))).getD false) (((op.terms[1]?).map fun t => laneGE k op.width t (laneExact k op.width t (s.reg rn) (s.reg rm))).getD false) (((op.terms[0]?).map fun t => laneGE k op.width t (laneExact k op.width t (s.reg rn) (s.reg rm))).getD false) (((op.terms[0]?).map fun t => laneGE k op.width t (laneExact k op.width t (s.reg rn) (s.reg rm))).getD false)
          rw [w16] at hi
          have : b = 0 ∨ b = 1 ∨ b = 2 ∨ b = 3 := by omega
          rcases this with rfl | rfl | rfl | rfl <;> simp at hi <;> subst hi
          · rw [k0, ht]; rfl
          · rw [k1, ht]; rfl
          · rw [k2, ht]; rfl
          · rw [k3, ht]; rfl
  · refine ⟨packFields op.width ((parElements k op (s.reg rn) (s.reg rm)).map fun e => parStored k op.width e.1), 0, ?_, ?_⟩
    · rw [parallel, unlessPC_ok h', if_neg hk, if_neg hk, State.setReg_of_ne _ _ _ hd, State.advance_eq]; rfl
    · intro i t ht
      refine ⟨?_, fun h => absurd h hk⟩
      apply packFields_get _ (by cases op <;> decide)
      · rw [List.length_map, parElements_eq, List.length_map]; cases op <;> decide
      · rw [parElements_eq]; simp [ht, parStored_eq]

theorem fieldMask_get (msb lsb : BitVec 5) (i : Nat) (hi : i < 32) : (fieldMask msb lsb).getLsbD i = decide (lsb.toNat ≤ i ∧ i ≤ msb.toNat) := by
  have := msb.isLt
  rw [fieldMask, BitVec.getLsbD_and, BitVec.getLsbD_shiftLeft, BitVec.getLsbD_ushiftRight, BitVec.getLsbD_allOnes, BitVec.getLsbD_allOnes, Bool.eq_iff_iff]
  simp only [Bool.and_eq_true, decide_eq_true_eq, Bool.not_eq_true', decide_eq_false_iff_not]; omega

theorem bytes_get (a b c d : Byte) (i : Nat) (hi : i < 32) : (a ++ b ++ c ++ d : BitVec 32).getLsbD i = if i < 8 then d.getLsbD i else if i < 16 then c.getLsbD (i - 8) else if i < 24 then b.getLsbD (i - 16) else a.getLsbD (i - 24) := by
  rw [show (a ++ b ++ c ++ d : BitVec 32).getLsbD i = _ from BitVec.getLsbD_append]
  by_cases h : i < 8
  · simp [-BitVec.getLsbD_eq_getElem, h]
  · rw [show (a ++ b ++ c : BitVec 24).getLsbD (i - 8) = _ from BitVec.getLsbD_append]
    by_cases h2 : i < 16
    · have : i - 8 < 8 := by omega
      simp [-BitVec.getLsbD_eq_getElem, h, h2, this]
    · rw [show (a ++ b : BitVec 16).getLsbD (i - 8 - 8) = _ from BitVec.getLsbD_append]
      have h3 : ¬ i - 8 < 8 := by omega
      by_cases h4 : i < 24
      · have : i - 8 - 8 < 8 := by omega
        simp only [h, h2, h3, h4, this]; simp [-BitVec.getLsbD_eq_getElem, Nat.sub_sub]
      · have : ¬ i - 8 - 8 < 8 := by omega
        simp only [h, h2, h3, h4, this]; simp [-BitVec.getLsbD_eq_getElem, Nat.sub_sub]

end Sys2Proof.Machine

end
end

