-- ==== Sys2Proof/Laws/Sound.lean ====
section
/-! SUPPORT. What the shared operations keep on the way to a next state: branches, exceptions, aborts, returns. -/

noncomputable section

namespace Sys2Proof.Machine

open Safety

theorem low2 (v : Word) : v.extractLsb' 0 2 = 0 ↔ v.toNat % 4 = 0 := by
  rw [← BitVec.toNat_inj, BitVec.extractLsb'_toNat]; simp

theorem low1 (v : Word) : v.getLsbD 0 = false ↔ v.toNat % 2 = 0 := by
  rw [BitVec.getLsbD, Nat.testBit_zero]; simp

theorem pcAligned_nat (s : State) : PcAligned s ↔ (s.halted = false → s.pc.toNat % (if s.cpsr.getLsbD 5 then 2 else 4) = 0) := by
  unfold PcAligned
  rw [low2, low1]
  refine forall_congr' fun _ => ?_
  cases s.cpsr.getLsbD 5 <;> simp

/-- What executing an instruction keeps, from `s` to `t`: memory in canonical form, a legal mode, an aligned pc, debug state; User
mode is left only by an exception; a Nonsecure state changes nothing that is Secure. -/
structure Sound (s t : State) : Prop where
  mem : Memory.wf s.mem = true → Memory.wf t.mem = true
  mode : LegalMode s → LegalMode t
  pc : s.halted = false → PcAligned s → PcAligned t
  halted : s.halted = true → t.halted = true
  user : s.mode = .usr → s.halted = false → t.mode = .usr ∨ t.spsr? = some s.cpsr
  only : s.secure = false → s.halted = false → t.secure = false → secureOnly t = secureOnly s

/-- Every next state of an outcome is sound. -/
def SoundO (s : State) (o : Host.Outcome State Fault Refusal) : Prop := ∀ t, o = .next t → Sound s t

theorem soundO_next {s t : State} (h : Sound s t) : SoundO s (.next t) := fun _ e => Host.Outcome.next.inj e ▸ h

theorem soundO_fault {s : State} (e : Fault) : SoundO s (.fault e) := fun _ h => by cases h

theorem soundO_refused {s : State} (e : Refusal) : SoundO s (.refused e) := fun _ h => by cases h

/-- A state that differs from one that keeps everything in the pc and in bits of CPSR above the mode and T. -/
theorem sound_of {s t u : State} (h : Kept s t) (hc : u.cpsr.extractLsb' 0 6 = t.cpsr.extractLsb' 0 6) (hh : u.halted = t.halted)
    (hs : u.sys.scr = t.sys.scr) (ho : secureOnly u = secureOnly t) (hm : u.mem = t.mem)
    (hp : s.halted = false → u.pc = t.pc ∨ u.pc = t.pc + 4 ∨ u.pc.toNat % 4 = 0) : Sound s u := by
  have low (i : Nat) (hi : i < 6) : u.cpsr.getLsbD i = s.cpsr.getLsbD i := by
    have := congrArg (fun x => x.getLsbD i) hc
    simp only [BitVec.getLsbD_extractLsb', hi, decide_true, Bool.true_and, Nat.zero_add] at this
    rw [this, h.cpsr]
  have m5 : u.cpsr.extractLsb' 0 5 = s.cpsr.extractLsb' 0 5 := by
    apply BitVec.eq_of_getLsbD_eq; intro i hi
    rw [BitVec.getLsbD_extractLsb', BitVec.getLsbD_extractLsb', Nat.zero_add, low i (by omega)]
  have mo : u.mode = s.mode := by unfold State.mode; rw [m5]
  have se : u.secure = s.secure := by unfold State.secure; rw [mo, hs, h.scr]
  refine ⟨fun x => hm ▸ h.mem x, fun x => by unfold LegalMode; rw [m5]; exact x, fun x y => (pcAligned_nat u).2 fun z => ?_, fun x => hh.trans (h.halted.trans x), fun x _ => Or.inl (mo.trans x), fun x _ _ => ho.trans (h.only x)⟩
  have y' := (pcAligned_nat s).1 y x
  rw [low 5 (by decide)]
  rcases hp x with e | e | e
  · rw [e, h.pc]; exact y'
  · rw [e, h.pc]
    have h4 : (4 : Word).toNat = 4 := rfl
    rw [BitVec.toNat_add, h4]
    split <;> rename_i hT
    · rw [if_pos hT] at y'; omega
    · rw [if_neg hT] at y'; omega
  · split <;> omega

theorem sound_kept {s t : State} (h : Kept s t) : Sound s t := sound_of h rfl rfl rfl rfl rfl fun _ => Or.inl rfl

theorem sound_advance {s t : State} (h : Kept s t) : Sound s t.advance := by
  by_cases hh : t.halted = true
  · rw [State.advance_halted _ hh]; exact sound_kept h
  · have hh : t.halted = false := by simpa using hh
    rw [State.advance_running _ hh]
    exact sound_of h rfl rfl rfl rfl rfl fun _ => Or.inr (Or.inl rfl)

theorem sound_flags {s t : State} (h : Kept s t) (c : Word) (hc : c.extractLsb' 0 6 = t.cpsr.extractLsb' 0 6) : Sound s { t with cpsr := c }.advance := by
  by_cases hh : t.halted = true
  · rw [State.advance_halted _ (by exact hh)]; exact sound_of h hc rfl rfl rfl rfl fun _ => Or.inl rfl
  · have hh : t.halted = false := by simpa using hh
    rw [State.advance_running _ (by exact hh)]
    exact sound_of h hc rfl rfl rfl rfl fun _ => Or.inr (Or.inl rfl)

theorem low_setBits {n : Nat} (w : Word) (lo : Nat) (v : BitVec n) (h : lo + n ≤ 32) (h6 : 6 ≤ lo) : (setBits w lo v).extractLsb' 0 6 = w.extractLsb' 0 6 :=
  extract_setBits_apart _ _ _ h _ _ (Or.inl (by omega))

theorem and_aligned (v : Word) : (v &&& 0xFFFFFFFC).toNat % 4 = 0 := by
  rw [BitVec.toNat_and]
  have : (0xFFFFFFFC : Word).toNat = 2 ^ 32 - 4 := rfl
  have h : (v.toNat &&& (0xFFFFFFFC : Word).toNat) % 2 ^ 2 = 0 := by
    rw [Nat.and_mod_two_pow]
    have : (0xFFFFFFFC : Word).toNat % 2 ^ 2 = 0 := rfl
    rw [this, Nat.and_zero]
  exact h

theorem and_even (v : Word) : (v &&& 0xFFFFFFFE).toNat % 2 = 0 := by
  rw [BitVec.toNat_and]
  have h : (v.toNat &&& (0xFFFFFFFE : Word).toNat) % 2 ^ 1 = 0 := by
    rw [Nat.and_mod_two_pow]
    have : (0xFFFFFFFE : Word).toNat % 2 ^ 1 = 0 := rfl
    rw [this, Nat.and_zero]
  exact h

theorem sound_branchTo {s t : State} (h : Kept s t) (v : Word) : Sound s (t.branchTo v) :=
  sound_of h rfl rfl rfl rfl rfl fun _ => Or.inr (Or.inr (and_aligned v))

theorem aligned_of_bits {v : Word} (h0 : v.getLsbD 0 = false) (h1 : v.getLsbD 1 = false) : v.toNat % 4 = 0 := by
  have e0 : v.toNat % 2 = 0 := by
    have := BitVec.getLsbD (x := v) (i := 0)
    rw [BitVec.getLsbD, Nat.testBit_zero] at h0; simpa using h0
  have e1 : v.toNat / 2 % 2 = 0 := by
    rw [BitVec.getLsbD, Nat.testBit_succ, Nat.testBit_zero] at h1; simpa using h1
  omega

/-- Setting T and an even pc, or keeping it and an aligned one. -/
theorem sound_thumb {s t u : State} (h : Kept s t) (hc : u.cpsr = setBit t.cpsr 5 true) (hh : u.halted = t.halted)
    (_ : u.sys.scr = t.sys.scr) (ho : secureOnly u = secureOnly t) (hm : u.mem = t.mem) (hp : s.halted = false → PcAligned s → u.pc.toNat % 2 = 0) : Sound s u := by
  have m5 : u.cpsr.extractLsb' 0 5 = s.cpsr.extractLsb' 0 5 := by
    rw [hc, extract_setBit_apart _ _ _ (by decide) _ _ (Or.inl (by decide)), h.cpsr]
  have mo : u.mode = s.mode := by unfold State.mode; rw [m5]
  refine ⟨fun x => hm ▸ h.mem x, fun x => by unfold LegalMode; rw [m5]; exact x, fun x y => (pcAligned_nat u).2 fun z => ?_, fun x => hh.trans (h.halted.trans x), fun x _ => Or.inl (mo.trans x), fun x _ _ => ho.trans (h.only x)⟩
  rw [hc, getLsbD_setBit_same _ _ _ (by decide), if_pos rfl]; exact hp x y

theorem sound_bxTo {s t : State} (h : Kept s t) (v : Word) : SoundO s (bxTo t v) := by
  unfold bxTo
  split
  · exact soundO_next (sound_thumb h rfl rfl rfl rfl rfl fun _ _ => and_even v)
  · split
    · exact soundO_fault _
    · rename_i h0 h1
      exact soundO_next (sound_of h rfl rfl rfl rfl rfl fun _ => Or.inr (Or.inr (aligned_of_bits (by simpa using h0) (by simpa using h1))))

theorem legal_bits (m : Mode) (w : Word) (h : w.extractLsb' 0 5 = m.bits) : (Mode.ofBits (w.extractLsb' 0 5)).isSome = true := by
  rw [h]; cases m <;> decide

theorem ofBits_bits {m : BitVec 5} {k : Mode} (h : Mode.ofBits m = some k) : m = k.bits := by
  revert m; cases k <;> decide

theorem exc_spsr (x : Exc) (routed : Bool) : ∃ k, (if routed then Mode.mon else x.mode).spsrNo = some k := by
  cases routed <;> cases x <;> exact ⟨_, rfl⟩

theorem secure_mon {s : State} (h : s.mode = .mon) : s.secure = true := by unfold State.secure; rw [h]; simp

theorem offset_aligned (x : Exc) : x.offset.toNat % 32 < 32 ∧ x.offset.toNat % 4 = 0 ∧ x.offset.toNat < 32 := by cases x <;> decide

theorem base_aligned (s : State) (m : Mode) : (enteredBase s m).toNat % 4 = 0 := by
  have k (v : Word) : (v &&& 0xFFFFFFE0).toNat % 4 = 0 := by
    have : v &&& 0xFFFFFFE0 = (v &&& 0xFFFFFFE0) &&& 0xFFFFFFFC := by rw [BitVec.and_assoc]; rfl
    rw [this]; exact and_aligned _
  unfold enteredBase
  split
  · exact k _
  · split
    · rfl
    · exact k _

/-- Taking an exception. -/
theorem sound_exception {s t : State} (x : Exc) (routed : Bool) (link : Word) (hh : t.halted = s.halted) (hc : t.cpsr = s.cpsr)
    (_ : t.sys.scr = s.sys.scr)
    (ho : s.secure = false → s.halted = false → (if routed then Mode.mon else x.mode) ≠ .mon → secureOnly t = secureOnly s)
    (hm : Memory.wf s.mem = true → Memory.wf t.mem = true) : Sound s (takeException x routed link t) := by
  obtain ⟨k, hk⟩ := exc_spsr x routed
  have E := entered x routed _ k link t rfl hk
  have e := takeException_eq x routed _ k link t rfl hk
  obtain ⟨_, E2, _⟩ := E
  have c : (takeException x routed link t).cpsr = entryCpsr t.cpsr (if routed then Mode.mon else x.mode) (x.setsA || ((if routed then Mode.mon else x.mode) == .mon)) (x == .fiq || ((if routed then Mode.mon else x.mode) == .mon)) (enteredBank t (if routed then Mode.mon else x.mode)).sctlr := by rw [e]
  refine ⟨fun y => ?_, fun _ => ?_, fun _ _ => (pcAligned_nat _).2 fun _ => ?_, fun y => ?_, fun _ _ => Or.inr ?_, fun y z w => ?_⟩
  · rw [e]; exact hm y
  · refine legal_bits (if routed then Mode.mon else x.mode) _ ?_
    apply BitVec.eq_of_getLsbD_eq; intro i hi
    rw [BitVec.getLsbD_extractLsb', c, entryCpsr_bit, if_pos (by omega)]; simp [-BitVec.getLsbD_eq_getElem, hi]
  · have : (takeException x routed link t).pc.toNat % 4 = 0 := by
      rw [e]
      show (enteredBase t _ + x.offset).toNat % 4 = 0
      have h1 := base_aligned t (if routed then Mode.mon else x.mode)
      have h2 := (offset_aligned x).2.1
      have : (enteredBase t (if routed then Mode.mon else x.mode) + x.offset).toNat = ((enteredBase t (if routed then Mode.mon else x.mode)).toNat + x.offset.toNat) % 2 ^ 32 := BitVec.toNat_add _ _
      omega
    split <;> omega
  · rw [State.halted_congr (s := t) (by rw [e])]; exact hh.trans y
  · rw [State.spsr?, E2, hk, e]
    show some ((t.spsr.set k t.cpsr k.isLt)[k]) = _
    simp [hc]
  · have nm : (if routed then Mode.mon else x.mode) ≠ .mon := by
      intro h; rw [h] at E2; rw [secure_mon E2] at w; cases w
    rw [← ho y z nm]
    have tm : t.mode ≠ .mon := by
      rw [State.mode_congr hc]; exact nonsecure_mode y
    have r1 := physReg_mon (if routed then Mode.mon else x.mode) 14 nm (by decide)
    have k3 : k ≠ 3 := by
      intro h; subst h; revert hk nm
      cases routed <;> cases x <;> decide
    rw [e, if_neg tm]
    unfold secureOnly State.regOf
    have g (j : Fin 32) (h : physReg (if routed then Mode.mon else x.mode) 14 ≠ j) : (t.gpr.set (physReg (if routed then Mode.mon else x.mode) 14) link (physReg (if routed then Mode.mon else x.mode) 14).isLt)[j] = t.gpr[j] := by
      exact Vector.getElem_set_ne _ _ fun y => h (Fin.ext y)
    have g3 : (t.spsr.set k t.cpsr k.isLt)[3] = t.spsr[3] := by
      exact Vector.getElem_set_ne _ _ fun y => k3 (Fin.ext y)
    dsimp only
    rw [g _ r1.1, g _ r1.2, g3]

theorem sound_exc_kept {s t : State} (h : Kept s t) (x : Exc) (routed : Bool) (link : Word) : Sound s (takeException x routed link t) :=
  sound_exception x routed link h.halted h.cpsr h.scr (fun y _ _ => h.only y) h.mem

theorem sound_undefined {s t : State} (h : Kept s t) : Sound s (takeUndefined t) := by
  unfold takeUndefined
  split
  · exact sound_kept ((h.trans (kept_note t 0x02)).trans (kept_dscr (t.note 0x02) 8 true (by decide) (by decide)))
  · exact sound_exc_kept (h.trans (kept_note t 0x02)) _ _ _

theorem sound_svc {s t : State} (h : Kept s t) : Sound s (takeSvc t) := by
  unfold takeSvc
  split
  · exact sound_kept h
  · exact sound_exc_kept h _ _ _

theorem sound_smc {s t : State} (h : Kept s t) : Sound s (takeSmc t) := by
  unfold takeSmc
  split
  · exact sound_kept h
  · exact sound_exc_kept h _ _ _

theorem enterDebug_halted (s : State) (code : BitVec 4) : (s.enterDebug code).halted = true := by
  unfold State.halted State.enterDebug
  dsimp only
  rw [getLsbD_setBit_ne _ _ _ _ (by decide) (by decide), getLsbD_setBit_same _ _ _ (by decide)]

theorem sound_enterDebug {s t : State} (h : Kept s t) (code : BitVec 4) : Sound s (t.enterDebug code) := by
  refine ⟨h.mem, fun x => ?_, fun _ _ z => ?_, fun _ => enterDebug_halted _ _, fun x _ => Or.inl ?_, fun x _ _ => h.only x⟩
  · unfold LegalMode; rw [show (t.enterDebug code).cpsr = t.cpsr from rfl, h.cpsr]; exact x
  · rw [enterDebug_halted] at z; cases z
  · exact (State.mode_congr (s := t) rfl).trans (h.mode.trans x)

theorem kept_setEntry (s : State) (code : BitVec 4) : Kept s (s.setEntry code) := by
  refine ⟨?_, rfl, rfl, rfl, rfl, fun _ => rfl, id⟩
  unfold State.halted State.setEntry
  exact getLsbD_setBits_apart _ _ _ (by decide) _ (Or.inl (by decide))

theorem setBank_own (s : State) (b : Banked) : Kept s (s.setBank s.secure b) := kept_setBank _ _ id

theorem sound_debugException {s t : State} (h : Kept s t) (code : BitVec 4) : Sound s (takeDebugException code t) := by
  unfold takeDebugException
  have k := ((kept_note t 0x01).trans (kept_setEntry _ code)).trans (kept_drawn _)
  exact sound_exc_kept (h.trans (k.trans (kept_setBank _ _ fun x => k.sec.symm.trans x))) _ _ _

theorem sound_bkpt {s t : State} (h : Kept s t) : Sound s (takeBkpt t) := by
  unfold takeBkpt
  split
  · exact sound_kept h
  · split
    · exact sound_enterDebug h _
    · exact sound_debugException h _
    · exact sound_debugException h _

theorem sound_watchpoint {s t : State} (h : Kept s t) (w : Bool) : Sound s (takeWatchpoint w t) := by
  unfold takeWatchpoint
  have h1 : Kept t { t.note 0x01 with dbg := { t.dbg with wfar := t.pc + 8 } } := ⟨rfl, rfl, rfl, rfl, rfl, fun _ => rfl, id⟩
  dsimp only
  split
  · exact sound_kept h
  · exact sound_enterDebug (h.trans h1) _
  · have h2 := ((h1.trans (kept_setEntry _ 0b1010)).trans (kept_drawn _)).trans (kept_drawn _)
    exact sound_exc_kept ((h.trans h2).trans (kept_setBank _ _ fun x => h2.sec.symm.trans x)) _ _ _

theorem setBank_keeps (t : State) (b : Bool) (k : Banked) : (t.setBank b k).halted = t.halted ∧ (t.setBank b k).cpsr = t.cpsr ∧ (t.setBank b k).sys = t.sys ∧ (t.setBank b k).mem = t.mem ∧ (t.setBank b k).pc = t.pc ∧ (t.setBank b k).dbg = t.dbg := by
  cases b <;> exact ⟨rfl, rfl, rfl, rfl, rfl, rfl⟩

theorem setBank_only (t : State) (b : Bool) (k : Banked) (h : b = false) : secureOnly (t.setBank b k) = secureOnly t := by subst h; rfl

theorem setBank_halted (t : State) (b : Bool) (k : Banked) : (t.setBank b k).halted = t.halted := by cases b <;> rfl

theorem sound_dataAbort {s t : State} (h : Kept s t) (a : Abort) : Sound s (takeDataAbort a t) := by
  unfold takeDataAbort
  split
  · exact sound_watchpoint h _
  · dsimp only
    have k1 := setBank_keeps t.drawn (t.abortRouted a || t.secure) { t.bank (t.abortRouted a || t.secure) with
      dfsr := faultStatus (if a.maint then 0b00100 else a.status) a.write (a.slave && !a.maint) (a.domain.getD (t.draw.setWidth 4))
      dfar := a.mva
      ifsr := if a.maint then faultStatus a.status false a.slave 0 else (t.bank (t.abortRouted a || t.secure)).ifsr }
    have e : recordDataFault a t = t.drawn.setBank (t.abortRouted a || t.secure) { t.bank (t.abortRouted a || t.secure) with
      dfsr := faultStatus (if a.maint then 0b00100 else a.status) a.write (a.slave && !a.maint) (a.domain.getD (t.draw.setWidth 4))
      dfar := a.mva
      ifsr := if a.maint then faultStatus a.status false a.slave 0 else (t.bank (t.abortRouted a || t.secure)).ifsr } := rfl
    rw [← e] at k1
    generalize hu : recordDataFault a t = u at k1 e ⊢
    obtain ⟨k1, k2, k3, k4, k5, k6⟩ := k1
    have only : s.secure = false → t.abortRouted a = false → secureOnly u = secureOnly s := fun x y => by
      rw [e, setBank_only _ _ _ (by rw [y, h.sec, x]; rfl)]; exact h.only x
    split
    · rename_i hh
      have d : ({ u.note 0x01 with dbg := { u.dbg with dscr := setBit u.dbg.dscr 6 true } } : State).halted = true := by
        exact (kept_dscr (u.note 0x01) 6 true (by decide) (by decide)).halted.trans (k1.trans hh)
      have hs : s.halted = true := by rw [← h.halted]; exact hh
      refine ⟨fun x => ?_, fun x => ?_, fun x => ?_, fun _ => d, fun _ x => ?_, fun _ x => ?_⟩
      · show Memory.wf u.mem = true; rw [k4]; exact h.mem x
      · unfold LegalMode; show (Mode.ofBits (u.cpsr.extractLsb' 0 5)).isSome = true; rw [k2]; show (Mode.ofBits (t.cpsr.extractLsb' 0 5)).isSome = true; rw [h.cpsr]; exact x
      all_goals (rw [hs] at x; cases x)
    · refine sound_exception _ _ _ ?_ ?_ ?_ (fun x _ y => ?_) (fun x => ?_)
      · rw [show (u.note 1).halted = u.halted from rfl, k1]; exact h.halted
      · rw [show (u.note 1).cpsr = u.cpsr from rfl, k2]; exact h.cpsr
      · rw [show (u.note 1).sys = u.sys from rfl, k3]; exact h.scr
      · rw [show secureOnly (u.note 1) = secureOnly u from rfl]
        refine only x ?_
        cases hr : t.abortRouted a
        · rfl
        · rw [hr] at y; exact absurd rfl y
      · rw [show (u.note 1).mem = u.mem from rfl, k4]; exact h.mem x

theorem newMode_sound {t : State} {b m : BitVec 5} (h : t.newModeBits b = some m) (hl : LegalMode t) (c : Word) :
    (Mode.ofBits ((setBits c 0 m).extractLsb' 0 5)).isSome = true := by
  rw [extract_setBits_same _ _ _ (by decide)]
  unfold State.newModeBits at h
  split at h
  · cases h
  · rename_i e
    split at h
    · cases h; rw [e]; rfl
    · cases h; exact hl
  · rename_i e; cases h; rw [e]; rfl

theorem returnCpsr_low (t : State) (v : Word) (m : BitVec 5) : (returnCpsr t v m).extractLsb' 0 5 = m ∧ (returnCpsr t v m).getLsbD 5 = v.getLsbD 5 := by
  have key (c d : Word) (hd : d.extractLsb' 0 5 = m ∧ d.getLsbD 5 = v.getLsbD 5) (i : Nat) (b : Bool) (hi : 5 < i) (h32 : i < 32) :
      (setBit d i b).extractLsb' 0 5 = m ∧ (setBit d i b).getLsbD 5 = v.getLsbD 5 := by
    rw [extract_setBit_apart _ _ _ h32 _ _ (Or.inl (by omega)), getLsbD_setBit_ne _ _ _ _ h32 (by omega)]; exact hd
  have h5 : (stateBits v).getLsbD 5 = v.getLsbD 5 := by
    rw [stateBits_bit v 5 (by decide)]; cases v.getLsbD 5 <;> rfl
  have h0 : (setBits (stateBits v) 0 m).extractLsb' 0 5 = m ∧ (setBits (stateBits v) 0 m).getLsbD 5 = v.getLsbD 5 :=
    ⟨extract_setBits_same _ _ _ (by decide), (getLsbD_setBits_apart _ _ _ (by decide) _ (Or.inr (by decide))).trans h5⟩
  unfold returnCpsr
  dsimp only
  have h1 : (if t.mayWriteA then setBits (stateBits v) 0 m else setBit (setBits (stateBits v) 0 m) 8 (t.cpsr.getLsbD 8)).extractLsb' 0 5 = m ∧ (if t.mayWriteA then setBits (stateBits v) 0 m else setBit (setBits (stateBits v) 0 m) 8 (t.cpsr.getLsbD 8)).getLsbD 5 = v.getLsbD 5 := by
    split
    · exact h0
    · exact key 0 _ h0 8 _ (by decide) (by decide)
  split
  · exact h1
  · exact key 0 _ h1 6 _ (by decide) (by decide)

/-- An exception return, in a privileged mode. -/
theorem sound_return {s t : State} (h : Kept s t) (hp : s.mode ≠ .usr) (v target : Word) : SoundO s (exceptionReturn t v target) := by
  unfold exceptionReturn
  split
  · exact soundO_fault _
  · rename_i m hm
    split
    · exact soundO_fault _
    · refine soundO_next ⟨h.mem, fun x => ?_, fun x y => (pcAligned_nat _).2 fun _ => ?_, fun x => h.halted.trans x, fun x => absurd x hp, fun x _ _ => h.only x⟩
      · unfold LegalMode
        rw [(returnCpsr_low t v m).1]
        have := newMode_sound hm (by unfold LegalMode; rw [h.cpsr]; exact x) 0
        rwa [extract_setBits_same _ _ _ (by decide)] at this
      · rw [(returnCpsr_low t v m).2]
        dsimp only
        split
        · exact and_even _
        · exact and_aligned _

theorem sound_finish {α : Type} {s : State} {x : Acc α} {f : α → State → Host.Outcome State Fault Refusal} (h : Acc.Keeps s x)
    (k : ∀ a t, Kept s t → SoundO s (f a t)) : SoundO s (finish x f) := by
  cases x with
  | ok a t => exact k a t h
  | abort i t => exact soundO_next (sound_dataAbort h i)
  | stop e => exact soundO_fault e

theorem sound_onCond {s : State} (cond : BitVec 4) {t : State} (h : Kept s t) {e : Host.Outcome State Fault Refusal} (k : SoundO s e) : SoundO s (onCond cond t e) := by
  unfold onCond
  split
  · exact k
  · exact soundO_next (sound_advance h)

theorem sound_unlessPC {s : State} (l : List (BitVec 4)) {e : Host.Outcome State Fault Refusal} (k : SoundO s e) : SoundO s (unlessPC l e) := by
  unfold unlessPC
  split
  · exact soundO_fault _
  · exact k

theorem sound_if {s : State} {c : Prop} [Decidable c] {a b : Host.Outcome State Fault Refusal} (h : SoundO s a) (k : SoundO s b) : SoundO s (if c then a else b) := by
  split <;> assumption

end Sys2Proof.Machine

end
end

