-- ==== Sys2Proof/Laws/SoundShapes.lean ====
section
/-! SUPPORT. What the shapes shared by the instructions keep. -/

noncomputable section

namespace Sys2Proof.Machine

open Safety

theorem sound_advance' {s t : State} (h : Kept s t) : SoundO s (.next t.advance) := soundO_next (sound_advance h)

theorem kept_backBase (p u w : BitVec 1) (rn : BitVec 4) (off : Word) (s : State) : Kept s (backBase p u w rn off s) := by
  unfold backBase; exact kept_ite (kept_setReg _ _ _) (Kept.refl s)

theorem sound_loadReg (size : Nat) (ext : Word → Word) (priv : Bool) (p u w : BitVec 1) (rn rt : BitVec 4) (off : Word) (s : State) :
    SoundO s (loadReg size ext priv p u w rn rt off s) := by
  unfold loadReg
  refine sound_if (soundO_fault _) (sound_finish (keeps_readData _ _ _) fun v t h => ?_)
  exact sound_advance' ((h.trans (kept_backBase _ _ _ _ _ _)).trans (kept_setReg _ _ _))

theorem kept_noteLoadReturn (form : Bool) (rn : BitVec 4) (s : State) : Kept s (noteLoadReturn form rn s) :=
  kept_ite (kept_note _ _) (Kept.refl s)

theorem sound_loadWord (ret : Bool) (p u w : BitVec 1) (rn rt : BitVec 4) (off : Word) (s : State) : SoundO s (loadWord ret p u w rn rt off s) := by
  unfold loadWord
  refine sound_if (sound_if (soundO_fault _) (sound_finish (keeps_readData _ _ _) fun v t h => ?_)) (sound_loadReg _ _ _ _ _ _ _ _ _ _)
  exact sound_bxTo ((h.trans (kept_backBase _ _ _ _ _ _)).trans (kept_noteLoadReturn _ _ _)) _

theorem sound_storeReg (size : Nat) (pcOk priv : Bool) (p u w : BitVec 1) (rn rt : BitVec 4) (off : Word) (s : State) :
    SoundO s (storeReg size pcOk priv p u w rn rt off s) := by
  unfold storeReg
  refine sound_if (soundO_fault _) (sound_finish (keeps_writeData _ _ _ _) fun v t h => ?_)
  exact sound_advance' (h.trans (kept_backBase _ _ _ _ _ _))

theorem kept_partialLoad (m : Mode) (base : BitVec 4) (pick : Word) : ∀ (l : List (BitVec 4 × Word)) (s : State), (s.secure = false → m ≠ .mon) → Kept s (partialLoad m base l pick s)
  | [], s, _ => Kept.refl s
  | (r, v) :: l, s, hm => by
    unfold partialLoad
    have h : Kept s (if physReg m r ≠ physReg s.mode base ∧ r ≠ 15 ∧ pick.getLsbD r.toNat then s.setRegOf m r v else s) := by
      split
      · rename_i hh; exact kept_setRegOf s m r v hh.2.1 hm
      · exact Kept.refl s
    exact h.trans (kept_partialLoad m base pick l _ fun x => hm (h.sec.symm.trans x))

theorem sound_loadPair (p u w : BitVec 1) (rn rt : BitVec 4) (off : Word) (s : State) : SoundO s (loadPair p u w rn rt off s) := by
  unfold loadPair
  refine sound_if (soundO_fault _) (sound_finish (keeps_readData _ _ _) fun v t h => ?_)
  have k := keeps_mono (h.trans (kept_gap t)) (keeps_readData (alignedReq 4 s.privileged false) (effAddress p u rn off s + 4) t.gap)
  split
  · rename_i e; rw [e] at k
    exact sound_advance' (((Kept.trans k (kept_backBase _ _ _ _ _ _)).trans (kept_setReg _ _ _)).trans (kept_setReg _ _ _))
  · rename_i a t2 e; rw [e] at k
    refine soundO_next (sound_dataAbort ((Kept.trans k (kept_drawn t2)).trans (kept_partialLoad _ _ _ _ _ fun x => ?_)) _)
    rw [(kept_drawn t2).sec] at x; exact nonsecure_mode x
  · exact soundO_fault _

theorem sound_storePair (p u w : BitVec 1) (rn rt : BitVec 4) (off : Word) (s : State) : SoundO s (storePair p u w rn rt off s) := by
  unfold storePair
  refine sound_if (soundO_fault _) (sound_finish (keeps_writeData _ _ _ _) fun v t h => ?_)
  refine sound_finish (keeps_mono (h.trans (kept_gap t)) (keeps_writeData _ _ _ _)) fun v t h => ?_
  exact sound_advance' (h.trans (kept_backBase _ _ _ _ _ _))

theorem keeps_loadWords (q : Req) : ∀ (l : List (BitVec 4)) (a : Word) (s : State), Acc.Keeps s (loadWords q l a s).2
  | [], _, s => Kept.refl s
  | r :: rs, a, s => by
    unfold loadWords
    have k := keeps_readData q a s
    split
    · rename_i v t e; rw [e] at k
      exact keeps_mono (Kept.trans k (kept_ite (Kept.refl t) (kept_gap t))) (keeps_loadWords q rs (a + 4) (if rs = [] then t else t.gap))
    · rename_i e; rw [e] at k; exact k
    · trivial

theorem keeps_storeWords (q : Req) (m : Mode) : ∀ (l : List (BitVec 4)) (a : Word) (s : State), Acc.Keeps s (storeWords q m l a s)
  | [], _, s => Kept.refl s
  | r :: rs, a, s => by
    unfold storeWords
    exact keeps_bind (keeps_writeData _ _ _ _) fun _ t h => keeps_mono (h.trans (kept_ite (Kept.refl t) (kept_gap t))) (keeps_storeWords q m rs (a + 4) _)

theorem kept_setLoaded (m : Mode) : ∀ (l : List (BitVec 4 × Word)) (s : State), (s.secure = false → m ≠ .mon) → Kept s (setLoaded m l s)
  | [], s, _ => Kept.refl s
  | (r, v) :: l, s, hm => by
    unfold setLoaded
    have h : Kept s (if r = 15 then s else s.setRegOf m r v) := by
      split
      · exact Kept.refl s
      · rename_i hh; exact kept_setRegOf s m r v hh hm
    exact h.trans (kept_setLoaded m l _ fun x => hm (h.sec.symm.trans x))

theorem sound_loadBlock (m : Mode) (p u w : BitVec 1) (rn : BitVec 4) (l : List (BitVec 4)) (s : State) (hm : s.secure = false → m ≠ .mon)
    (k : Option Word → State → Host.Outcome State Fault Refusal) (hk : ∀ v t, Kept s t → SoundO s (k v t)) : SoundO s (loadBlock m p u w rn l s k) := by
  unfold loadBlock
  refine sound_if (soundO_fault _) ?_
  have h := keeps_loadWords { alignedReq 4 s.privileged false with precise := l.contains 15 } l (blockStart p u (s.reg rn) l.length) s
  dsimp only
  split
  · rename_i t e; rw [e] at h
    have h : Kept s t := h
    have h2 := h.trans (kept_setLoaded m (loadWords { alignedReq 4 s.privileged false with precise := l.contains 15 } l (blockStart p u (s.reg rn) l.length) s).1 t fun x => hm (h.sec.symm.trans x))
    exact hk _ _ (kept_ite (h2.trans (kept_setReg _ _ _)) h2)
  · rename_i i t e; rw [e] at h
    have h : Kept s t := h
    exact soundO_next (sound_dataAbort ((h.trans (kept_drawn t)).trans (kept_partialLoad m _ _ _ _ fun x => hm ((h.trans (kept_drawn t)).sec.symm.trans x))) i)
  · exact soundO_fault _

theorem sound_loadMultiple (p u w : BitVec 1) (rn : BitVec 4) (regs : BitVec 16) (s : State) : SoundO s (loadMultiple p u w rn regs s) := by
  unfold loadMultiple
  refine sound_loadBlock _ _ _ _ _ _ _ nonsecure_mode _ fun v t h => ?_
  split
  · exact sound_bxTo (h.trans (kept_noteLoadReturn _ _ _)) _
  · exact sound_advance' h

theorem sound_storeMultiple (m : Mode) (p u w : BitVec 1) (rn : BitVec 4) (regs : BitVec 16) (s : State) : SoundO s (storeMultiple m p u w rn regs s) := by
  unfold storeMultiple
  refine sound_if (soundO_fault _) (sound_finish (keeps_storeWords _ _ _ _ _) fun _ t h => ?_)
  exact sound_advance' (kept_ite (h.trans (kept_setReg _ _ _)) h)

theorem sound_unlessUserSystem {s : State} {e : Host.Outcome State Fault Refusal} (h : SoundO s e) : SoundO s (unlessUserSystem s e) := sound_if (soundO_fault _) h

theorem sound_unlessPCOffset {s : State} (rm : BitVec 4) {e : Host.Outcome State Fault Refusal} (h : SoundO s e) : SoundO s (unlessPCOffset rm e) := sound_if (soundO_fault _) h

theorem sound_swapData (size : Nat) (rn rt rt2 : BitVec 4) (s : State) : SoundO s (swapData size rn rt rt2 s) := by
  unfold swapData
  refine sound_if (soundO_fault _) (sound_finish ?_ fun v t h => sound_advance' (h.trans (kept_setReg _ _ _)))
  refine keeps_bind (keeps_prepare _ _ _ _) fun p t h => ?_
  refine keeps_bind (keeps_mono h (keeps_prepare _ _ _ _)) fun _ t2 h2 => ?_
  refine keeps_bind (keeps_mono h2 (keeps_readAt _ _ _ _)) fun v t3 h3 => ?_
  have w := keeps_bind (keeps_mono h3 (keeps_writeAt ⟨size, size, s.privileged, false, false, false⟩ (s.reg rn) (s.reg rt2) (swapSpan p) t3)) (f := fun _ s4 => Acc.ok v s4) fun _ _ h => h
  split
  · split
    · exact h3
    · exact w
  · exact w

theorem keeps_loadExclusive (size : Nat) (a : Word) (s : State) : Acc.Keeps s (loadExclusive size a s) := by
  unfold loadExclusive
  refine keeps_bind (keeps_prepare _ _ _ _) fun p t h => ?_
  have k := keeps_mono h (keeps_readBytes (alignedReq size s.privileged false) a p t)
  split
  · rename_i e; rw [e] at k; exact Kept.trans k ⟨rfl, rfl, rfl, rfl, rfl, fun _ => rfl, id⟩
  · rename_i e; rw [e] at k
    split
    · exact Kept.trans k ⟨rfl, rfl, rfl, rfl, rfl, fun _ => rfl, id⟩
    · exact Kept.trans k (kept_drawn _)
  · trivial

theorem keeps_exclusiveWrite (q : Req) (a : Word) (b : List Byte) (p : Span) (s : State) :
    Acc.Keeps s (exclusiveWrite q a b p s) := by
  unfold exclusiveWrite
  have hg := kept_watchGate q a s
  split
  · dsimp only
    split
    · exact hg
    · exact (hg.trans (kept_ordered _ p)).trans ⟨rfl, rfl, rfl, rfl, rfl, fun _ => rfl, id⟩
  · exact keeps_bind (keeps_writeBytes _ _ _ _ _) fun _ _ h => h.trans ⟨rfl, rfl, rfl, rfl, rfl, fun _ => rfl, id⟩

theorem keeps_storeExclusive (size : Nat) (a : Word) (b : List Byte) (s : State) : Acc.Keeps s (storeExclusive size a b s) := by
  unfold storeExclusive
  split
  · exact Kept.refl s
  · have k := keeps_translate s s.secure s.privileged .write (mvaOf s.cur a)
    dsimp only
    split
    · rename_i e; rw [e] at k
      split
      · exact Kept.trans k ⟨rfl, rfl, rfl, rfl, rfl, fun _ => rfl, id⟩
      · split
        · exact Kept.refl s
        · exact keeps_mono k (keeps_exclusiveWrite _ _ _ _ _)
    · rename_i e; rw [e] at k
      split
      · exact Kept.refl s
      · exact k
    · trivial

theorem sound_loadExReg (size : Nat) (rn rt : BitVec 4) (s : State) : SoundO s (loadExReg size rn rt s) :=
  sound_unlessPC _ (sound_finish (keeps_loadExclusive _ _ _) fun _ _ h => sound_advance' (h.trans (kept_setReg _ _ _)))

/-- The result of an instruction other than a data-processing instruction or a load, written to r15. -/
theorem sound_writePC {s t : State} (h : Kept s t) (v : Word) : Sound s (t.writePC v) := by
  unfold State.writePC
  split
  · rename_i hh
    refine sound_of h rfl rfl rfl rfl rfl fun x => ?_
    rw [← h.halted, hh] at x; cases x
  · exact sound_branchTo h v

theorem sound_writeStatus {s t : State} (h : Kept s t) (rd : BitVec 4) (v : Word) : Sound s (writeStatus rd v t) := by
  unfold writeStatus
  split
  · exact sound_writePC h v
  · exact sound_advance (h.trans (kept_setReg _ _ _))

theorem sound_storeExReg (size : Nat) (rn rd rt : BitVec 4) (s : State) : SoundO s (storeExReg size rn rd rt s) :=
  sound_if (soundO_fault _) (sound_finish (keeps_storeExclusive _ _ _ _) fun _ _ h => soundO_next (sound_writeStatus h _ _))

/-! Flags, data processing -/

theorem sound_nzcv {s t : State} (h : Kept s t) (n z c v : Bool) : SoundO s (.next (t.setNZCV n z c v).advance) :=
  soundO_next (sound_flags h _ (low_setBits _ _ _ (by decide) (by decide)))

theorem sound_nz {s t : State} (h : Kept s t) (n z : Bool) : SoundO s (.next (t.setNZ n z).advance) :=
  soundO_next (sound_flags h _ (low_setBits _ _ _ (by decide) (by decide)))

theorem sound_q {s t : State} (h : Kept s t) (b : Bool) : SoundO s (.next (t.stickyQ b).advance) := by
  unfold State.stickyQ
  split
  · exact soundO_next (sound_flags h _ (extract_setBit_apart _ _ _ (by decide) _ _ (Or.inl (by decide))))
  · exact sound_advance' h

theorem sound_aluWritePC {s t : State} (h : Kept s t) (v : Word) : SoundO s (aluWritePC t v) := by
  unfold aluWritePC
  split
  · rename_i hh
    refine sound_if (soundO_next ?_) (soundO_fault _)
    refine sound_of h rfl rfl rfl rfl rfl fun x => ?_
    rw [← h.halted, hh] at x; cases x
  · exact sound_bxTo h v

theorem sound_aluReturn {s t : State} (h : Kept s t) (v : Word) : SoundO s (aluReturn t v) := by
  unfold aluReturn
  split
  · exact soundO_fault _
  · rename_i e
    refine sound_return h (fun x => ?_) _ _
    rw [State.spsr?, h.mode, x] at e; cases e

theorem sound_aluWrite (sf : BitVec 1) (rd : BitVec 4) (res : Word × Bool × Bool) {s t : State} (h : Kept s t) : SoundO s (aluWrite sf rd res t) := by
  unfold aluWrite
  refine sound_if (sound_if (sound_aluReturn h _) (sound_aluWritePC h _)) (sound_if ?_ ?_)
  · exact sound_nzcv (h.trans (kept_setReg _ _ _)) _ _ _ _
  · exact sound_advance' (h.trans (kept_setReg _ _ _))

theorem sound_aluTest (res : Word × Bool × Bool) {s t : State} (h : Kept s t) : SoundO s (aluTest res t) := sound_nzcv h _ _ _ _

/-! System -/

theorem sound_receive {s t : State} (h : Kept s t) (rt : BitVec 4) (v : Word) : SoundO s (.next (t.receive rt v).advance) := by
  unfold State.receive
  split
  · exact sound_nzcv h _ _ _ _
  · exact sound_advance' (h.trans (kept_setReg _ _ _))

theorem soundO_ite {s : State} {c : Prop} [Decidable c] {t u : State} (h : SoundO s (.next t)) (k : SoundO s (.next u)) : SoundO s (.next (if c then t else u)) := by
  split <;> assumption

theorem sound_readSys (cond rt : BitVec 4) (ok : Bool) (v : Word) (s : State) : SoundO s (readSys cond rt ok v s) :=
  sound_onCond cond (Kept.refl s) (soundO_ite (sound_receive (Kept.refl s) _ _) (soundO_next (sound_undefined (Kept.refl s))))

theorem sound_readSysMaybe (cond rt : BitVec 4) (ok : Bool) (v : Option Word) (s : State) : SoundO s (readSysMaybe cond rt ok v s) := by
  unfold readSysMaybe
  split
  · exact sound_readSys _ _ _ _ _
  · exact sound_onCond cond (Kept.refl s) (soundO_ite (sound_receive (kept_drawn s) _ _) (soundO_next (sound_undefined (Kept.refl s))))

theorem sound_withSys (cond rt : BitVec 4) (ok : Bool) (s : State) (e : Word → Host.Outcome State Fault Refusal) (h : ok = true → ∀ v, SoundO s (e v)) :
    SoundO s (withSys cond rt ok s e) := by
  refine sound_onCond cond (Kept.refl s) ?_
  split
  · rename_i hh; exact sound_if (soundO_fault _) (h hh _)
  · exact soundO_next (sound_undefined (Kept.refl s))

theorem sound_writeSys (cond rt : BitVec 4) (ok : Bool) (s : State) (e : Word → State) (h : ∀ v, Kept s (e v)) : SoundO s (writeSys cond rt ok s e) :=
  sound_withSys _ _ _ _ _ fun _ v => sound_advance' (h v)

theorem sound_unlessPle (c : Bool) {s : State} {e : Host.Outcome State Fault Refusal} (h : SoundO s e) : SoundO s (unlessPle c s e) := sound_if (soundO_fault _) h

theorem sound_onUndefined (cond : BitVec 4) (s : State) : SoundO s (onCond cond s (.next (takeUndefined s))) :=
  sound_onCond cond (Kept.refl s) (soundO_next (sound_undefined (Kept.refl s)))

theorem nonsecure_ns {s : State} (h : s.secure = false) : s.copySecure = false := by
  unfold State.secure at h; unfold State.copySecure
  simp only [Bool.or_eq_false_iff] at h; exact h.1

theorem kept_setCopy (s : State) (b : Banked) : Kept s (s.setCopy b) := kept_setBank _ _ nonsecure_ns

/-- A register that only the Secure state writes. -/
theorem sound_secure {s t : State} (hs : s.secure = true) (hh : t.halted = s.halted) (hp : t.pc = s.pc) (hc : t.cpsr = s.cpsr) (_ : t.spsr = s.spsr) (hm : t.mem = s.mem) : SoundO s (.next t.advance) := by
  have ea : t.advance.cpsr = t.cpsr ∧ t.advance.mem = t.mem ∧ t.advance.halted = t.halted := by
    unfold State.advance; split <;> exact ⟨rfl, rfl, rfl⟩
  have P : PcAligned s → PcAligned t.advance := by
    have := (sound_advance (s := s) (t := { s with pc := s.pc }) (Kept.refl s)).pc
    intro x
    by_cases y : s.halted = true
    · intro z; rw [ea.2.2, hh, y] at z; cases z
    · have y : s.halted = false := by simpa using y
      have z := (pcAligned_nat _).1 (this y x)
      rw [pcAligned_nat, ea.1, hc]
      intro w
      have e1 : t.advance.pc = s.advance.pc := by
        rw [State.advance_running _ y, State.advance_running _ (by rw [hh, y])]; show t.pc + 4 = s.pc + 4; rw [hp]
      rw [e1]
      have := z (by rw [State.advance_running _ y]; exact y)
      rw [State.advance_running _ y] at this ⊢
      exact this
  refine soundO_next ⟨fun x => ?_, fun x => ?_, fun _ => P, fun x => ?_, fun x _ => Or.inl ?_, fun x => ?_⟩
  · rw [ea.2.1, hm]; exact x
  · unfold LegalMode; rw [ea.1, hc]; exact x
  · rw [ea.2.2, hh]; exact x
  · rw [State.mode_congr (s := s) (ea.1.trans hc)]; exact x
  · rw [hs] at x; cases x

theorem secure_of {s : State} (h : s.sysSecure = true) : s.secure = true := by
  unfold State.sysSecure at h; simp only [Bool.and_eq_true] at h; exact h.2

theorem sound_byAddress (maint : Bool) (op : Phys → State → State) (mva : Word) (s : State) (h : ∀ p t, Kept t (op p t)) : SoundO s (byAddress maint op mva s) := by
  unfold byAddress
  have k := keeps_maintAddress mva s
  split
  · exact soundO_fault _
  · rename_i e; rw [e] at k
    exact soundO_next (sound_dataAbort (Kept.trans k (kept_drawn _)) _)
  · rename_i e; rw [e] at k
    exact sound_advance' (Kept.trans k (h _ _))

theorem keeps_translateForPar (s : State) (sec priv : Bool) (k : XKind) (va : Word) : Acc.Keeps s (translateForPar s sec priv k va) := by
  unfold translateForPar
  dsimp only
  split
  · exact Kept.refl s
  · have h := keeps_lookup s sec k (mvaOf (s.bank sec) va)
    split
    · trivial
    · rename_i e; rw [e] at h; split <;> exact h
    · rename_i e; rw [e] at h; split <;> exact h

theorem sound_vaToPa (other priv : Bool) (k : XKind) (va : Word) (s : State) : SoundO s (vaToPa other priv k va s) := by
  unfold vaToPa
  have h := keeps_translateForPar s (s.secure && !other) priv k va
  split
  · exact soundO_fault _
  · rename_i e; rw [e] at h; exact soundO_next (sound_dataAbort h _)
  · rename_i e; rw [e] at h
    refine sound_advance' ((Kept.trans h (kept_drawn _)).trans (kept_setBank _ _ fun x => ?_))
    rw [← (Kept.trans h (kept_drawn _)).sec]; exact x

theorem sound_preloadTlb (d : Bool) (va : Word) (s : State) : SoundO s (preloadTlb d va s) := by
  unfold preloadTlb
  refine sound_if (sound_advance' (Kept.refl s)) ?_
  have h := keeps_lookup s s.secure (if d then .read else .fetch) (mvaOf s.cur va)
  split
  · exact soundO_fault _
  · rename_i e; rw [e] at h; exact sound_advance' h
  · rename_i e; rw [e] at h
    refine soundO_ite (soundO_next (sound_dataAbort h _)) (soundO_next (sound_dataAbort (Kept.trans h (kept_drawn _)) _))

theorem kept_setPle (s : State) (c : Fin 2) (ch : PleChannel) : Kept s (s.setPle c ch) := ⟨rfl, rfl, rfl, rfl, rfl, fun _ => rfl, id⟩

theorem kept_onSelected (s : State) (f : Fin 4 → Pmu) : Kept s (onSelected s f) := by
  unfold onSelected
  split
  · exact Kept.refl s
  · exact ⟨rfl, rfl, rfl, rfl, rfl, fun _ => rfl, id⟩

theorem sound_arrayRead (cond rt : BitVec 4) (s : State) (l : Word → Word → Word → SysRegs)
    (h : ∀ a b c, (l a b c).scr = s.sys.scr ∧ (l a b c).sder = s.sys.sder ∧ (l a b c).nsacr = s.sys.nsacr ∧ (l a b c).mvbar = s.sys.mvbar ∧ (l a b c).l2aux = s.sys.l2aux ∧ (l a b c).actlr = s.sys.actlr) : SoundO s (arrayRead cond rt s l) := by
  refine sound_writeSys _ _ _ _ _ fun v => ?_
  obtain ⟨h1, h2, h3, h4, h5, h6⟩ := h s.draw s.drawn.draw s.drawn.drawn.draw
  refine ⟨rfl, rfl, rfl, rfl, h1, fun _ => ?_, id⟩
  unfold secureOnly
  dsimp only
  rw [h1, h2, h3, h4, h5, h6]; rfl

theorem sound_arrayWrite (cond rt : BitVec 4) (s : State) : SoundO s (arrayWrite cond rt s) := sound_withSys _ _ _ _ _ fun _ _ => soundO_refused _

theorem sound_neonVfp (s : State) : SoundO s (neonVfp s) := sound_if (soundO_refused _) (soundO_next (sound_undefined (Kept.refl s)))

theorem sound_readVfp (cond rt : BitVec 4) (ok : Bool) (v : Word) (s : State) : SoundO s (readVfp cond rt ok v s) :=
  sound_onCond cond (Kept.refl s) (sound_if (soundO_next (sound_undefined (Kept.refl s))) (sound_if (soundO_fault _) (sound_advance' (kept_setReg _ _ _))))

theorem sound_writeVfp (cond rt : BitVec 4) (ok : Bool) (s : State) (e : Word → State) (h : ∀ v, Kept s (e v)) : SoundO s (writeVfp cond rt ok s e) :=
  sound_onCond cond (Kept.refl s) (sound_if (soundO_next (sound_undefined (Kept.refl s))) (sound_if (soundO_fault _) (sound_advance' (h _))))

theorem sound_withDtr (cond : BitVec 4) (w : BitVec 1) (rn : BitVec 4) (s : State) (e) (h : SoundO s e) : SoundO s (withDtr cond w rn s e) :=
  sound_onCond cond (Kept.refl s) (sound_if (soundO_next (sound_undefined (Kept.refl s))) (sound_if (soundO_fault _) h))

theorem kept_dtrTaken (s : State) : Kept s s.dtrTaken := kept_dscr s 30 false (by decide) (by decide)

theorem kept_dtrGiven (s : State) (v : Word) : Kept s (s.dtrGiven v) := by
  refine ⟨?_, rfl, rfl, rfl, rfl, fun _ => rfl, id⟩
  unfold State.halted State.dtrGiven
  exact getLsbD_setBit_ne _ _ _ _ (by decide) (by decide)

theorem kept_dtrBack (u w : BitVec 1) (rn : BitVec 4) (i : BitVec 8) (s : State) : Kept s (dtrBack u w rn i s) := by
  unfold dtrBack; exact kept_ite (kept_setReg _ _ _) (Kept.refl s)

theorem allowed_low : ∀ (h p a f : Bool) (i : Fin 6), ((0xF80F0200 : Word) ||| (if h then 0x0700FC20 else 0) ||| (if p && a then 0x100 else 0) ||| (if p then 0x80 else 0) ||| (if p && f then 0x40 else 0)).getLsbD i =
   (h && decide (i.val = 5)) := by decide +kernel

theorem msrMask_low (m : BitVec 4) (v : Word) (s : State) (i : Nat) (hi : i < 6) (hh : s.halted = false ∨ i < 5) : (msrMask m v s).getLsbD i = false := by
  unfold msrMask
  rw [BitVec.getLsbD_and, allowed_low _ _ _ _ ⟨i, hi⟩]
  rcases hh with h | h
  · rw [h]; rfl
  · have : ¬ i = 5 := by omega
    simp [this]
/-! Status -/

/-- A change of mode may begin the window after Monitor mode (R2011). -/
theorem afterModeChange_eq (s u : State) :
    State.afterModeChange s u = { u with monitorLeft := (State.afterModeChange s u).monitorLeft } := by
  unfold State.afterModeChange; split <;> rfl

/-- CPSR but for M as MSR writes it: of its low bits T alone may change, in debug state. -/
theorem msrValue_low (m : BitVec 4) (v : Word) (s : State) (i : Nat) (hi : i < 6) (hh : s.halted = false ∨ i < 5) :
    (msrValue m v s).getLsbD i = s.cpsr.getLsbD i := by
  have e : (mergeBits s.cpsr v (msrMask m v s)).getLsbD i = s.cpsr.getLsbD i := by
    rw [getLsbD_mergeBits, msrMask_low _ _ _ _ hi hh]; rfl
  unfold msrValue
  dsimp only
  split
  · have t : thumbOnly i = false := by
      have : ∀ i < 6, thumbOnly i = false := by decide
      exact this i hi
    rw [stateBits_bit _ i (by omega), t, e, Bool.not_false, Bool.or_true, Bool.and_true]
  · exact e

theorem sound_writeCpsr (m : BitVec 4) (v : Word) (s : State) : SoundO s (writeCpsr m v s) := by
  have after (u : State) (hu : u.halted = s.halted) (hm : u.mem = s.mem) (hpc : u.pc = s.pc) (hs : u.sys.scr = s.sys.scr) (ho : secureOnly u = secureOnly s)
      (hl : LegalMode s → LegalMode u) (hT : s.halted = false → u.cpsr.getLsbD 5 = s.cpsr.getLsbD 5) (hus : s.mode = .usr → s.halted = false → u.mode = .usr) :
      SoundO s (.next (afterCpsrWrite u).advance) := by
    by_cases hh : s.halted = true
    · have e : afterCpsrWrite u = { u.drawn with pc := u.draw, dbg := { u.dbg with restartPc := none } } := by unfold afterCpsrWrite; rw [if_pos (hu.trans hh)]
      have e2 : (afterCpsrWrite u).halted = true := by rw [e]; exact hu.trans hh
      rw [State.advance_halted _ e2]
      refine soundO_next ⟨fun x => ?_, fun x => ?_, fun x => ?_, fun _ => e2, fun _ x => ?_, fun _ x => ?_⟩
      · rw [e]; show Memory.wf u.mem = true; rw [hm]; exact x
      · rw [e]; exact hl x
      all_goals (rw [hh] at x; cases x)
    · have hh : s.halted = false := by simpa using hh
      have e : afterCpsrWrite u = u := by unfold afterCpsrWrite; rw [if_neg (by rw [hu, hh]; decide)]
      rw [e, State.advance_running _ (hu.trans hh)]
      refine soundO_next ⟨fun x => ?_, hl, fun _ y => (pcAligned_nat _).2 fun _ => ?_, fun x => hu.trans x, fun x y => Or.inl (hus x y), fun _ _ _ => ho⟩
      · show Memory.wf u.mem = true; rw [hm]; exact x
      · show (u.pc + 4).toNat % (if u.cpsr.getLsbD 5 then 2 else 4) = 0
        have y := (pcAligned_nat _).1 y hh
        rw [hT hh, hpc]
        have h4 : (4 : Word).toNat = 4 := rfl
        rw [BitVec.toNat_add, h4]
        split <;> rename_i hT
        · rw [if_pos hT] at y; omega
        · rw [if_neg hT] at y; omega
  have hT : s.halted = false → (msrValue m v s).getLsbD 5 = s.cpsr.getLsbD 5 := fun hh =>
    msrValue_low m v s 5 (by decide) (Or.inl hh)
  have m5 : (msrValue m v s).extractLsb' 0 5 = s.cpsr.extractLsb' 0 5 := by
    apply BitVec.eq_of_getLsbD_eq; intro i hi
    rw [BitVec.getLsbD_extractLsb', BitVec.getLsbD_extractLsb', Nat.zero_add, msrValue_low m v s i (by omega) (Or.inr hi)]
  unfold writeCpsr
  dsimp only
  split
  · rename_i hp
    split
    · exact soundO_fault _
    · rename_i k hk
      rw [afterModeChange_eq]
      refine after _ rfl rfl rfl rfl rfl (fun x => newMode_sound hk x _) (fun hh => ?_) (fun x y => ?_)
      · show (setBits _ 0 k).getLsbD 5 = _
        rw [getLsbD_setBits_apart _ _ _ (by decide) _ (Or.inr (by decide))]; exact hT hh
      · rw [State.mayWritePrivileged, y, State.privileged, x] at hp; simp at hp
  · refine after _ rfl rfl rfl rfl rfl (fun x => ?_) hT (fun x _ => ?_)
    · unfold LegalMode; show (Mode.ofBits ((msrValue m v s).extractLsb' 0 5)).isSome = true; rw [m5]; exact x
    · rw [← x]; unfold State.mode; show (Mode.ofBits ((msrValue m v s).extractLsb' 0 5)).getD .usr = _; rw [m5]

theorem kept_setSpsr (s : State) (v : Word) (h : ∃ o, s.spsr? = some o) : SoundO s (.next (s.setSpsr s.mode v).advance) := by
  obtain ⟨o, h⟩ := h
  unfold State.spsr? at h
  unfold State.setSpsr
  cases hk : s.mode.spsrNo with
  | none => rw [hk] at h; cases h
  | some k =>
    dsimp only
    have e : ({ s with spsr := s.spsr.set k v k.isLt } : State).advance = { s.advance with spsr := s.spsr.set k v k.isLt } := by
      unfold State.advance
      show (if s.halted then _ else _) = _
      split <;> rfl
    have S := sound_advance (Kept.refl s)
    rw [e]
    refine soundO_next ⟨S.mem, S.mode, S.pc, S.halted, fun x _ => ?_, fun x y z => ?_⟩
    · rw [x] at hk; cases hk
    · have k3 : k ≠ 3 := by
        intro w; subst w
        have := nonsecure_mode x
        revert hk this; cases s.mode <;> decide
      have g : (s.spsr.set k v k.isLt)[3] = s.spsr[3] := Vector.getElem_set_ne _ _ fun y => k3 (Fin.ext y)
      rw [← S.only x y z]
      unfold secureOnly
      dsimp only
      rw [g]
      have : s.advance.spsr = s.spsr := by unfold State.advance; split <;> rfl
      rw [this]; rfl

theorem sound_writeSpsr (m : BitVec 4) (v : Word) (s : State) : SoundO s (writeSpsr m v s) := by
  unfold writeSpsr
  split
  · exact soundO_fault _
  · rename_i o h; exact kept_setSpsr s _ ⟨o, h⟩

theorem sound_changeState (imod : BitVec 2) (m a i f : BitVec 1) (mode : BitVec 5) (s : State) (hp : s.mode ≠ .usr) : SoundO s (changeState imod m a i f mode s) := by
  have low : (cpsFlags imod a i f s).extractLsb' 0 6 = s.cpsr.extractLsb' 0 6 := by
    unfold cpsFlags
    dsimp only
    split
    · apply BitVec.eq_of_getLsbD_eq; intro j hj
      rw [BitVec.getLsbD_extractLsb', BitVec.getLsbD_extractLsb', Nat.zero_add, getLsbD_mergeBits]
      have : ∀ (a b c : Bool) (j : Fin 6), ((if a then (0x100 : Word) else 0) ||| (if b then 0x80 else 0) ||| (if c then 0x40 else 0)).getLsbD j = false := by decide +kernel
      rw [this _ _ _ ⟨j, hj⟩]; rfl
    · rfl
  unfold changeState
  dsimp only
  split
  · split
    · exact soundO_fault _
    · rename_i k hk
      have S := sound_advance (Kept.refl s)
      have e (b : Bool) : ({ s with cpsr := setBits (cpsFlags imod a i f s) 0 k, monitorLeft := b } : State).advance =
          { s.advance with cpsr := setBits (cpsFlags imod a i f s) 0 k, monitorLeft := b } := by
        unfold State.advance
        show (if s.halted then _ else _) = _
        split <;> rfl
      have e2 : s.advance.cpsr = s.cpsr := by unfold State.advance; split <;> rfl
      rw [afterModeChange_eq, e]
      refine soundO_next ⟨S.mem, fun x => newMode_sound hk x _, fun x y => (pcAligned_nat _).2 fun z => ?_, S.halted, fun x => absurd x hp, fun x _ _ => ?_⟩
      · have w := (pcAligned_nat _).1 (S.pc x y) z
        rw [e2] at w
        have : (setBits (cpsFlags imod a i f s) 0 k).getLsbD 5 = s.cpsr.getLsbD 5 := by
          rw [getLsbD_setBits_apart _ _ _ (by decide) _ (Or.inr (by decide))]
          have := congrArg (fun x => x.getLsbD 5) low
          simpa [BitVec.getLsbD_extractLsb', -BitVec.getLsbD_eq_getElem] using this
        rw [this]; exact w
      · show secureOnly s.advance = _
        unfold State.advance; split <;> rfl
  · exact soundO_next (sound_flags (Kept.refl s) _ low)

theorem sound_storeReturnState (p u w : BitVec 1) (m : Mode) (spsr : Word) (s : State) (hm : s.secure = false → m ≠ .mon) : SoundO s (storeReturnState p u w m spsr s) := by
  unfold storeReturnState
  refine sound_finish (keeps_writeData _ _ _ _) fun _ t h => ?_
  refine sound_finish (keeps_mono (h.trans (kept_gap t)) (keeps_writeData _ _ _ _)) fun _ t h => ?_
  exact sound_advance' (kept_ite (h.trans (kept_setRegOf _ _ _ _ (by decide) fun x => hm (h.sec.symm.trans x))) h)

theorem sound_loadReturnState (p u w : BitVec 1) (rn : BitVec 4) (s : State) (hp : s.mode ≠ .usr) : SoundO s (loadReturnState p u w rn s) := by
  unfold loadReturnState
  refine sound_finish (keeps_readData _ _ _) fun _ t h => ?_
  refine sound_finish (keeps_mono (h.trans (kept_gap t)) (keeps_readData _ _ _)) fun _ t h => ?_
  exact sound_return (kept_ite (h.trans (kept_setReg _ _ _)) h) hp _ _

theorem sound_dataOp (op : AluOp) (sf : BitVec 1) (rn rd : BitVec 4) (o : Word × Bool) {s t : State} (h : Kept s t) : SoundO s (dataOp op sf rn rd o t) := sound_aluWrite _ _ _ h

theorem sound_moveOp (op : AluOp) (sf : BitVec 1) (rd : BitVec 4) (o : Word × Bool) {s t : State} (h : Kept s t) : SoundO s (moveOp op sf rd o t) := sound_aluWrite _ _ _ h

theorem sound_testOp (op : AluOp) (rn : BitVec 4) (o : Word × Bool) {s t : State} (h : Kept s t) : SoundO s (testOp op rn o t) := sound_aluTest _ h

theorem kept_movReturn (sf : BitVec 1) (rd : BitVec 4) (imm5 : BitVec 5) (typ : BitVec 2) (rm : BitVec 4) (s : State) : Kept s (noteMovReturn sf rd imm5 typ rm s) :=
  kept_ite (kept_note _ _) (Kept.refl s)

theorem kept_noteReturn (rm : BitVec 4) (s : State) : Kept s (noteReturn rm s) := kept_ite (kept_note _ _) (Kept.refl s)

theorem kept_link (s : State) : Kept s s.link := kept_setReg _ _ _

theorem sound_mulWrite (rd : BitVec 4) (r : Int) (s : State) : SoundO s (.next (mulWrite rd r s).advance) := sound_advance' (kept_setReg _ _ _)

theorem sound_mulWriteS (sf : BitVec 1) (rd : BitVec 4) (r : Int) (s : State) : SoundO s (.next (mulWriteS sf rd r s).advance) := by
  unfold mulWriteS; dsimp only
  split
  · exact sound_nz (kept_setReg _ _ _) _ _
  · exact sound_advance' (kept_setReg _ _ _)

theorem sound_mulWriteQ (rd : BitVec 4) (r : Int) (s : State) : SoundO s (.next (mulWriteQ rd r s).advance) := sound_q (kept_setReg _ _ _) _

theorem kept_longWrite (hi lo : BitVec 4) (r : Int) (s : State) : Kept s (longWrite hi lo r s) := (kept_setReg _ _ _).trans (kept_setReg _ _ _)

theorem sound_longWrite (hi lo rm rn : BitVec 4) (r : Int) (s : State) : SoundO s (longOp hi lo rm rn (longWrite hi lo r s)) :=
  sound_if (soundO_fault _) (sound_unlessPC _ (sound_advance' (kept_longWrite _ _ _ _)))

theorem sound_longWriteS (sf : BitVec 1) (hi lo rm rn : BitVec 4) (r : Int) (s : State) : SoundO s (longOp hi lo rm rn (longWriteS sf hi lo r s)) := by
  refine sound_if (soundO_fault _) (sound_unlessPC _ ?_)
  unfold longWriteS; dsimp only
  split
  · exact sound_nz (kept_longWrite _ _ _ _) _ _
  · exact sound_advance' (kept_longWrite _ _ _ _)

theorem sound_mediaWrite (l : List (BitVec 4)) (rd : BitVec 4) (v : Word) (s : State) : SoundO s (mediaWrite l rd v s) :=
  sound_unlessPC _ (sound_advance' (kept_setReg _ _ _))

theorem sound_satWrite (l : List (BitVec 4)) (rd : BitVec 4) (v : Word) (b : Bool) (s : State) : SoundO s (satWrite l rd v b s) :=
  sound_unlessPC _ (sound_q (kept_setReg _ _ _) _)

theorem sound_insertField (l : List (BitVec 4)) (msb : BitVec 5) (rd : BitVec 4) (lsb : BitVec 5) (v : Word) (s : State) : SoundO s (insertField l msb rd lsb v s) :=
  sound_if (soundO_fault _) (sound_mediaWrite _ _ _ _)

theorem sound_extractField (sg : Bool) (w : BitVec 5) (rd : BitVec 4) (lsb : BitVec 5) (rn : BitVec 4) (s : State) : SoundO s (extractField sg w rd lsb rn s) :=
  sound_if (soundO_fault _) (sound_mediaWrite _ _ _ _)

theorem sound_ge {s t : State} (h : Kept s t) (g : BitVec 4) : SoundO s (.next (t.setGE g).advance) :=
  soundO_next (sound_flags h _ (low_setBits _ _ _ (by decide) (by decide)))

theorem sound_parallel (k : ParKind) (op : ParOp) (rn rd rm : BitVec 4) (s : State) : SoundO s (parallel k op rn rd rm s) := by
  unfold parallel
  dsimp only
  refine sound_unlessPC _ ?_
  split
  · exact sound_ge (kept_setReg _ _ _) _
  · exact sound_advance' (kept_setReg _ _ _)

theorem kept_pleStart (s : State) : Kept s (pleStart s) := kept_ite (kept_setPle _ _ _) (Kept.refl s)

theorem kept_pleStop (s : State) : Kept s (pleStop s) := kept_ite (kept_setPle _ _ _) (Kept.refl s)

theorem kept_pleClear (s : State) : Kept s (pleClear s) := kept_ite (Kept.refl s) (kept_setPle _ _ _)

theorem kept_pleControl (v : Word) (s : State) : Kept s (pleControl v s) := kept_ite (Kept.refl s) (kept_setPle _ _ _)

theorem kept_actlrWrite (v : Word) (s : State) : Kept s (actlrWrite v s) := by
  have h := kept_setCopy s { s.copy with l2en := v.getLsbD 1 }
  unfold actlrWrite
  dsimp only
  generalize s.setCopy { s.copy with l2en := v.getLsbD 1 } = t at h ⊢
  split
  · rename_i hs
    exact ⟨h.halted, h.pc, h.cpsr, h.spsr, h.scr, fun x => by rw [hs] at x; exact absurd x (by decide), h.mem⟩
  · exact h

theorem blxTarget_even {s : State} {imm24 : BitVec 24} {h : BitVec 1} (hh : s.halted = false) (ha : PcAligned s) : (branchTarget imm24 h s).toNat % 2 = 0 := by
  rw [← low1]
  have hp : s.pc.getLsbD 0 = false := by
    rw [low1]
    have := (pcAligned_nat _).1 ha hh
    split at this <;> omega
  have e : ((imm24 ++ h ++ 0#1 : BitVec 26).signExtend 32).getLsbD 0 = false := by
    rw [BitVec.getLsbD_signExtend]
    have : (imm24 ++ h ++ 0#1 : BitVec 26).getLsbD 0 = false := by
      rw [show (imm24 ++ h ++ 0#1 : BitVec 26).getLsbD 0 = _ from BitVec.getLsbD_append]; rfl
    rw [this]; rfl
  rw [low1] at hp e ⊢
  unfold branchTarget
  have h8 : (8 : Word).toNat = 8 := rfl
  rw [BitVec.toNat_add, BitVec.toNat_add, h8]; omega

end Sys2Proof.Machine

end
end

