-- ==== Sys2Proof/Laws/Passes.lean ====
section
/-! SUPPORT. The invariant passes through everything around the instructions: the APB port, the debugger, the other agents, the fetch and
the step, once it passes through `exec` (the hypothesis `H`). -/

noncomputable section

namespace Sys2Proof.Machine

open Safety

/-- The invariant passes from `s` to `t`. -/
structure Passes (s t : State) : Prop where
  mem : Memory.wf s.mem = true → Memory.wf t.mem = true
  mode : LegalMode s → LegalMode t
  pc : PcAligned s → PcAligned t

/-- The invariant passes from `s` to every next state of an outcome. -/
def PassesO (s : State) (o : Host.Outcome State Fault Refusal) : Prop := ∀ t, o = .next t → Passes s t

theorem passes_sound {s t : State} (h : Sound s t) : Passes s t := by
  refine ⟨h.mem, h.mode, fun x => ?_⟩
  cases hh : s.halted
  · exact h.pc hh x
  · intro y; rw [h.halted hh] at y; cases y

theorem passes_kept {s t : State} (h : Kept s t) : Passes s t := passes_sound (sound_kept h)

theorem Passes.refl (s : State) : Passes s s := ⟨id, id, id⟩

theorem Passes.trans {s t u : State} (h : Passes s t) (k : Passes t u) : Passes s u := ⟨fun x => k.mem (h.mem x), fun x => k.mode (h.mode x), fun x => k.pc (h.pc x)⟩

theorem passesO_next {s t : State} (h : Passes s t) : PassesO s (.next t) := fun _ e => Host.Outcome.next.inj e ▸ h

theorem passesO_fault {s : State} (e : Fault) : PassesO s (.fault e) := fun _ h => by cases h

theorem passesO_refused {s : State} (e : Refusal) : PassesO s (.refused e) := fun _ h => by cases h

theorem passesO_if {s : State} {c : Prop} [Decidable c] {a b : Host.Outcome State Fault Refusal} (h : PassesO s a) (k : PassesO s b) : PassesO s (if c then a else b) := by split <;> assumption

theorem passes_if {s t u : State} {c : Prop} [Decidable c] (h : Passes s t) (k : Passes s u) : Passes s (if c then t else u) := by split <;> assumption

theorem passesO_mono {s t : State} {o : Host.Outcome State Fault Refusal} (h : Passes s t) (k : PassesO t o) : PassesO s o := fun u e => h.trans (k u e)

theorem passesO_sound {s : State} {o : Host.Outcome State Fault Refusal} (h : SoundO s o) : PassesO s o := fun t e => passes_sound (h t e)

theorem passesO_afterwards {s : State} {o : Host.Outcome State Fault Refusal} {f : State → State} (h : PassesO s o) (k : ∀ t, Passes t (f t)) : PassesO s (afterwards o f) := by
  cases o with
  | next t => exact passesO_next ((h t rfl).trans (k t))
  | fault e => exact passesO_fault e
  | refused e => exact passesO_refused e

theorem KR : ∀ s : State, Kept s s := Kept.refl

theorem countStep_shape (b : State) (i : Bool) (s : State) : ∃ p, countStep b i s = { s.drawn.drawn.drawn with pmu := p, happened := 0 } := ⟨_, rfl⟩

theorem passes_countStep (b : State) (i : Bool) (s : State) : Passes s (countStep b i s) := by
  obtain ⟨p, e⟩ := countStep_shape b i s
  rw [e]
  have h : Kept s s.drawn.drawn.drawn := (kept_drawn s).trans ((kept_drawn _).trans (kept_drawn _))
  generalize s.drawn.drawn.drawn = u at h
  exact passes_kept (h.trans ⟨rfl, rfl, rfl, rfl, rfl, fun _ => rfl, id⟩)

/-- The sticky bit of DSCR (16_debug_registers.md R660). -/
theorem kept_advanced (s : State) : Kept s s.advanced :=
  kept_ite (Kept.refl s) (kept_dscr s 25 true (by decide) (by decide))

theorem passes_retire (b s : State) : Passes s (retire b s) := by
  have h : Kept s { s.advanced with gaps := [] } := (kept_advanced s).trans ⟨rfl, rfl, rfl, rfl, rfl, fun _ => rfl, id⟩
  exact (passes_kept h).trans (passes_countStep _ _ _)

theorem passesO_runWord (H : ∀ i s, PassesO s (exec i s)) (w : Word) (s : State) : PassesO s (runWord w s) := by
  unfold runWord
  split
  · exact H _ s
  · exact passesO_sound (sound_onUndefined _ s)
  · refine passesO_sound (sound_onCond _ (Kept.refl s) ?_)
    unfold runShouldBe
    exact sound_if (soundO_next (sound_undefined (Kept.refl s))) (soundO_fault _)

theorem passesO_runItr (H : ∀ i s, PassesO s (exec i s)) (s : State) : PassesO s (runItr s) := by
  have key : PassesO s (match runWord s.dbg.itr { s with dbg := { s.dbg with instrCompl := false } } with
      | .next t => .next { t with
          happened := 0
          gaps := []
          dbg := { t.advanced.dbg with
            instrCompl := true
            apbData := s.dbg.apbData
            apbErr := s.dbg.apbErr } }
      | .fault e => .fault e
      | .refused r => .refused r) := by
    have h := passesO_mono (passes_kept (kept_dbg (s := s) (d := { s.dbg with instrCompl := false }) rfl)) ((passesO_runWord H) s.dbg.itr { s with dbg := { s.dbg with instrCompl := false } })
    split
    · rename_i t e
      exact passesO_next ((h t e).trans (passes_kept ⟨(kept_advanced t).halted, rfl, rfl, rfl, rfl, fun _ => rfl, id⟩))
    · exact passesO_fault _
    · exact passesO_refused _
  unfold runItr
  exact passesO_if (passesO_fault _) key

/-- A word under the mask of the instruction set state is a legal pc. -/
theorem pcMask_aligned (s : State) (v : Word) : (v &&& s.pcMask).toNat % (if s.cpsr.getLsbD 5 then 2 else 4) = 0 := by
  unfold State.pcMask
  split
  · exact and_even _
  · exact and_aligned _

theorem passes_leaveDebug (s : State) : Passes s (leaveDebug s) :=
  ⟨id, id, fun _ => (pcAligned_nat _).2 fun _ => pcMask_aligned s _⟩

theorem passes_enterDebug (c : BitVec 4) (s : State) : Passes s (s.enterDebug c) := passes_sound (sound_enterDebug (Kept.refl s) c)

/-- An access of the APB port, with the instruction it issues. -/
theorem passesO_servePort (H : ∀ i s, PassesO s (exec i s)) {s : State} {p : Port} (h : Port.Keeps s p) : PassesO s (servePort p) := by
  cases p with
  | next t => exact passesO_next (passes_kept h)
  | issue t => exact passesO_mono (passes_kept h) (passesO_runItr H t)
  | stop => exact passesO_fault _

theorem reset_fields (p : Straps) : (Mode.ofBits ((cpsrReset p).extractLsb' 0 5)).isSome = true ∧ (resetVector p).toNat % 4 = 0 := by
  constructor
  · unfold cpsrReset; cases p.cfgte <;> cases p.cfgend0 <;> decide
  · unfold resetVector; cases p.vinithi <;> decide

theorem passes_reset {s t : State} (p : Straps) (hm : Memory.wf s.mem = true → Memory.wf t.mem = true) (hc : t.cpsr = cpsrReset p) (hp : t.pc = resetVector p) : Passes s t := by
  obtain ⟨h1, h2⟩ := reset_fields p
  refine ⟨hm, fun _ => ?_, fun _ => (pcAligned_nat _).2 fun _ => ?_⟩
  · unfold LegalMode; rw [hc]; exact h1
  · rw [hp]; split <;> omega

theorem kept_fillL1i (set way : Nat) (p : Phys) (r : Route) (s : State) : Kept s (fillL1i set way p r s) :=
  ((kept_dropL1i (fun l => l.set == set && l.way == way) s).trans
    (u := { dropL1i (fun l => l.set == set && l.way == way) s with
      l1i := freshLine s set way p (lineFetched s r.l2 p.ns p.pa) :: (dropL1i (fun l => l.set == set && l.way == way) s).l1i })
    ⟨rfl, rfl, rfl, rfl, rfl, fun _ => rfl, id⟩)

theorem kept_fillL1d (way : Nat) (p : Phys) (r : Route) (s : State) : Kept s (fillL1d way p r s) := (kept_cleanL1d _ _ s).trans ⟨rfl, rfl, rfl, rfl, rfl, fun _ => rfl, id⟩

theorem kept_fillL2 (way : Nat) (p : Phys) (s : State) : Kept s (fillL2 way p s) := (kept_cleanL2 _ _ s).trans (kept_installL2 _ _)

theorem kept_allocateFetch (l1 : Bool) (va : Word) (way : Nat) (s : State) : Kept s (allocateFetch l1 va way s) := by
  unfold allocateFetch
  have h := keeps_translate s s.secure s.privileged .fetch (mvaOf s.cur va)
  split
  · exact Kept.refl s
  · exact Kept.refl s
  · rename_i p t e; rw [e] at h
    have h : Kept s t := h
    dsimp only
    exact kept_ite (kept_ite (h.trans (kept_fillL1i _ _ _ _ _)) h) (kept_ite (h.trans (kept_fillL2 _ _ _)) h)

theorem kept_allocateData (l1 : Bool) (va : Word) (way : Nat) (s : State) : Kept s (allocateData l1 va way s) := by
  unfold allocateData
  have h := keeps_translate s s.secure s.privileged .read (mvaOf s.cur va)
  split
  · exact Kept.refl s
  · exact Kept.refl s
  · rename_i p t e; rw [e] at h
    have h : Kept s t := h
    dsimp only
    exact kept_ite (kept_ite (h.trans (kept_fillL1d _ _ _ _)) h) (kept_ite (h.trans (kept_fillL2 _ _ _)) h)

/-- Work on the instruction side with its reads confined to the caches. -/
theorem kept_confine (va : Word) {f : State → State} (h : ∀ s, Kept s (f s)) (s : State) : Kept s (confine va f s) := by
  unfold confine
  refine kept_ite (Kept.refl s) ?_
  have c : Kept s (s.confined va) := kept_ite (Kept.refl s) ⟨rfl, rfl, rfl, rfl, rfl, fun _ => rfl, id⟩
  exact (c.trans (h _)).trans ⟨rfl, rfl, rfl, rfl, rfl, fun _ => rfl, id⟩

theorem kept_allocate (c : CacheName) (va : Word) (way : Nat) (s : State) : Kept s (allocate c va way s) := by
  cases c
  · exact kept_confine va (kept_allocateFetch true va way) s
  · exact kept_ite (Kept.refl s) (kept_allocateData true va way s)
  · exact kept_ite (Kept.refl s) (kept_allocateData false va way s)

theorem kept_allocateWalk (second : Bool) (va : Word) (way : Nat) (s : State) : Kept s (allocateWalk second va way s) := by
  unfold allocateWalk
  split
  · exact Kept.refl s
  · exact kept_ite (kept_fillL2 _ _ _) (Kept.refl s)

theorem kept_allocateL2 (c : L2Cause) (va : Word) (way : Nat) (s : State) : Kept s (allocateL2 c va way s) := by
  unfold allocateL2
  refine kept_ite (Kept.refl s) ?_
  cases c
  · exact kept_confine va (kept_allocateFetch false va way) s
  · exact kept_allocateWalk false va way s
  · exact kept_allocateWalk true va way s

theorem kept_foldl {α : Type} {f : State → α → State} (h : ∀ s a, Kept s (f s a)) : ∀ (l : List α) (s : State), Kept s (l.foldl f s)
  | [], s => Kept.refl s
  | a :: l, s => (h s a).trans (kept_foldl h l (f s a))

theorem kept_takeBack (p : Phys) (s : State) : Kept s (takeBack p s) := by
  unfold takeBack
  dsimp only
  generalize hu : (List.range 64).foldl _ s = u
  have h : Kept s u := hu ▸ kept_foldl (fun s _ => kept_writeMem s _ _ _) (List.range 64) s
  exact h.trans ⟨rfl, rfl, rfl, rfl, rfl, fun _ => rfl, id⟩

theorem kept_gatherLine (va : Word) (way : Nat) (s : State) : Kept s (gatherLine va way s) := by
  unfold gatherLine
  have h := keeps_translate s s.secure s.privileged .write (mvaOf s.cur va)
  split
  · exact Kept.refl s
  · exact Kept.refl s
  · rename_i p t e; rw [e] at h
    have h : Kept s t := h
    dsimp only
    exact kept_ite ((h.trans ((kept_takeBack p t).trans (kept_cleanL2 _ _ _))).trans ⟨rfl, rfl, rfl, rfl, rfl, fun _ => rfl, id⟩) h

theorem kept_pleRemove (set way : Nat) (s : State) : Kept s (pleRemove set way s).1 := by
  unfold pleRemove
  split
  · exact Kept.refl s
  · rename_i l _
    have : Kept s (if l.dirty = 0 then (s, none) else putBack l l.dirty s).1 := by
      split
      · exact Kept.refl s
      · exact kept_putBack _ _ _
    exact this.trans ⟨rfl, rfl, rfl, rfl, rfl, fun _ => rfl, id⟩

theorem kept_pleClean (set way : Nat) (s : State) : Kept s (pleClean set way s).1 := by
  unfold pleClean
  split
  · exact Kept.refl s
  · rename_i l _
    have : Kept s (if l.dirty = 0 then (s, none) else putBack l l.dirty s).1 := by
      split
      · exact Kept.refl s
      · exact kept_putBack _ _ _
    exact this.trans ⟨rfl, rfl, rfl, rfl, rfl, fun _ => rfl, id⟩

theorem kept_pleLine (c : PleChannel) (page : PlePage) (pa : Word) (s : State) : Kept s (pleLine c page pa s).1 := by
  unfold pleLine
  dsimp only
  split
  · split
    · exact Kept.refl s
    · split
      · exact kept_pleRemove _ _ _
      · exact kept_pleClean _ _ _
  · split
    · exact Kept.refl s
    · split
      · exact Kept.refl s
      · have h := kept_pleRemove (s.l2Set pa) (c.control.extractLsb' 0 3).toNat s
        split
        · exact h
        · exact h.trans ⟨rfl, rfl, rfl, rfl, rfl, fun _ => rfl, id⟩

theorem kept_plePageTurn (i : Fin 2) (c : PleChannel) (page : PlePage) (s : State) : Kept s (plePageTurn i c page s) := by
  unfold plePageTurn
  refine kept_ite (kept_setPle _ _ _) ?_
  dsimp only
  have h := kept_pleLine c page (page.frame ++ (c.start &&& 0xFFFFFFC0).extractLsb' 0 12) s
  split
  · exact h.trans (kept_setPle _ _ _)
  · exact h.trans (kept_setPle _ _ _)

theorem kept_pleTurn (i : Fin 2) (s : State) : Kept s (pleTurn i s) := by
  unfold pleTurn
  dsimp only
  refine kept_ite (Kept.refl s) (kept_ite (kept_setPle _ _ _) ?_)
  split
  · exact kept_plePageTurn _ _ _ _
  · split
    · exact ((kept_drawn s).trans (kept_walkFailed _ _)).trans (kept_setPle _ _ _)
    · exact (kept_drawn s).trans (kept_setPle _ _ _)
    · exact (kept_drawn s).trans (kept_plePageTurn _ _ _ _)

theorem kept_pleParity (i : Fin 2) (s : State) : Kept s (pleParity i s) :=
  kept_ite (Kept.refl s) (kept_ite ((kept_corrupted s).trans (kept_setPle _ _ _)) (kept_corrupted s))

theorem kept_fillWith (k : XKind) (va : Word) (s : State) : Kept s (fillWith k va s) := by
  unfold fillWith
  have h := keeps_translate s s.secure s.privileged k (mvaOf s.cur va)
  split
  · rename_i e; rw [e] at h; exact h
  · exact Kept.refl s
  · exact Kept.refl s

theorem kept_fillTlb (d : Bool) (va : Word) (s : State) : Kept s (fillTlb d va s) :=
  kept_ite (kept_fillWith .read va s) (kept_confine va (kept_fillWith .fetch va) s)

theorem passes_debugReset (s : State) : Passes s (debugReset s) := by
  refine passes_kept ⟨?_, rfl, rfl, rfl, rfl, fun _ => rfl, id⟩
  show (setBits (Debug.reset s.pins.straps).dscr 0 (s.dbg.dscr.extractLsb' 0 2)).getLsbD 0 = s.dbg.dscr.getLsbD 0
  rw [getLsbD_setBits _ _ _ _ (by decide), if_pos (by decide), BitVec.getLsbD_extractLsb']
  simp [-BitVec.getLsbD_eq_getElem]

theorem passes_debugHeldDown (s : State) : Passes s (debugHeldDown s) := passes_if (Passes.refl s) (passes_debugReset s)

/-- What the units around the core do at the end of a step. -/
theorem passes_settleDebug (s : State) : Passes s (settleDebug s) :=
  (passes_if (Passes.refl s) (passes_kept (kept_ctiTick 0 s))).trans (passes_debugHeldDown _)

/-- A reset of the core, before which stores on their way may be lost. -/
theorem passes_powerOnReset (s : State) : Passes s (powerOnReset s) :=
  (passes_kept (kept_loseStores s)).trans (passes_reset s.loseStores.pins.straps id rfl rfl)

theorem passes_softReset (s : State) : Passes s (softReset s) :=
  (passes_kept (kept_loseStores s)).trans (passes_reset s.loseStores.pins.straps id rfl rfl)

theorem passes_coreReset (s : State) : Passes s (coreReset s) :=
  (passes_kept (kept_loseStores s)).trans (passes_reset s.loseStores.pins.straps id rfl rfl)

/-- The core loses its power, and with it leaves debug state. -/
theorem passes_coreDown (s : State) : Passes s (coreDown s) :=
  ⟨id, id, fun _ => (pcAligned_nat _).2 fun _ => pcMask_aligned s _⟩

theorem passes_powerChange (old : Pins) (s : State) : Passes s (powerChange old s) := by
  unfold powerChange
  dsimp only
  refine passes_if (passes_if (passes_coreReset s) (passes_powerOnReset s)) ?_
  have h : Passes s (if old.coreUp && !s.pins.coreUp then coreDown s else s) := passes_if (passes_coreDown s) (Passes.refl s)
  exact passes_if (h.trans (passes_debugReset _)) h

theorem kept_injectParity (l2 : Bool) (s : State) : Kept s (injectParity l2 s) :=
  kept_ite (Kept.refl s) (kept_ite ((kept_corrupted s).trans (kept_pendAbort _ _)) (kept_corrupted s))

theorem kept_dropIfClean (c : CacheName) (set way : Nat) (s : State) : Kept s (dropIfClean c set way s) := by
  cases c
  · exact kept_dropL1i _ s
  · exact kept_ite (kept_invalidateL1d _ _ _) (Kept.refl s)
  · exact kept_ite (kept_invalidateL2 _ _ _) (Kept.refl s)

theorem kept_evict (c : CacheName) (set way : Nat) (s : State) : Kept s (evict c set way s) := by
  cases c
  · exact Kept.refl s
  · exact kept_cleanL1d _ _ _
  · exact kept_ite (Kept.refl s) (kept_cleanL2 _ _ _)

theorem kept_busWrite (s : State) (w : BusByte) : Kept s (busWrite s w) :=
  (kept_onlyLate (onlyLate_makeLate s _ _ _ _)).trans (kept_writeMem _ _ _ _)

theorem passesO_agentStep (H : ∀ i s, PassesO s (exec i s)) (e : HostEvent) (s : State) : PassesO s (agentStep e s) := by
  have plain {t : State} (h : Kept s t) : PassesO s (.next t) := passesO_next (passes_kept h)
  unfold agentStep
  refine passesO_if (passesO_fault _) ?_
  cases e with
  | run => exact plain (Kept.refl s)
  | setPins p =>
    dsimp only
    unfold setPins
    refine passesO_if (passesO_fault _) (passesO_if (passesO_fault _) (passesO_if (passesO_fault _) (passesO_next ?_)))
    refine Passes.trans ?_ (passes_powerChange _ _)
    exact passes_kept ⟨rfl, rfl, rfl, rfl, rfl, fun _ => rfl, id⟩
  | powerOnReset => exact passesO_next (passes_powerOnReset s)
  | softReset => exact passesO_next (passes_softReset s)
  | debugReset => exact passesO_next (passes_debugReset s)
  | neonReset => exact plain ⟨rfl, rfl, rfl, rfl, rfl, fun _ => rfl, id⟩
  | setNeon up => exact plain (kept_ite ⟨rfl, rfl, rfl, rfl, rfl, fun _ => rfl, id⟩ ⟨rfl, rfl, rfl, rfl, rfl, fun _ => rfl, id⟩)
  | setBus r => exact plain ⟨rfl, rfl, rfl, rfl, rfl, fun _ => rfl, id⟩
  | busWrite ns pa b => exact plain (kept_busWrite s _)
  | injectAbort k => exact plain (kept_pendAbort s _)
  | injectParity l2 => exact plain (kept_injectParity l2 s)
  | storeArrives n => exact plain ⟨rfl, rfl, rfl, rfl, rfl, fun _ => rfl, id⟩
  | globalMonitor r => exact plain ⟨rfl, rfl, rfl, rfl, rfl, fun _ => rfl, id⟩
  | abortArrives => exact plain ⟨rfl, rfl, rfl, rfl, rfl, fun _ => rfl, id⟩
  | fetchParity l2 => exact plain ⟨rfl, rfl, rfl, rfl, rfl, fun _ => rfl, id⟩
  | walkParity b => exact plain ⟨rfl, rfl, rfl, rfl, rfl, fun _ => rfl, id⟩
  | within ws => exact plain ⟨rfl, rfl, rfl, rfl, rfl, fun _ => rfl, id⟩
  | gatherLine va way => exact plain (kept_gatherLine va way s)
  | allocateL2 c va way => exact plain (kept_allocateL2 c va way s)
  | clearExclusive => exact plain ⟨rfl, rfl, rfl, rfl, rfl, fun _ => rfl, id⟩
  | dropTlb d i => exact plain (kept_ite ⟨rfl, rfl, rfl, rfl, rfl, fun _ => rfl, id⟩ ⟨rfl, rfl, rfl, rfl, rfl, fun _ => rfl, id⟩)
  | fillTlb d va => exact plain (kept_fillTlb d va s)
  | allocate c va way => exact plain (kept_allocate c va way s)
  | dropClean c set way => exact plain (kept_dropIfClean c set way s)
  | evict c set way => exact plain (kept_evict c set way s)
  | pleTurn c => exact plain (kept_pleTurn c s)
  | pleParity c => exact plain (kept_pleParity c s)
  | apbRead sel x reg => exact passesO_servePort H (portKeeps_apbRead _ _ _ _)
  | apbWrite sel x reg v => exact passesO_servePort H (portKeeps_apbWrite _ _ _ _ _)
  | countEvent e n => exact plain ⟨rfl, rfl, rfl, rfl, rfl, fun _ => rfl, id⟩

theorem passes_exc {s t : State} (h : Kept s t) (x : Exc) (r : Bool) (l : Word) : Passes s (takeException x r l t) := passes_sound (sound_exc_kept h x r l)

theorem sound_bank {s t : State} (x : Exc) (r : Bool) (l : Word) (h : Kept s t) (_ : Bool) (_ : Banked) (u : State) (_ : u.dbg = t.dbg) (hc : u.cpsr = t.cpsr) (_ : u.sys = t.sys) (hm : u.mem = t.mem) : Passes s (takeException x r l u) := by
  obtain ⟨i, hk⟩ := exc_spsr x r
  have e := takeException_eq x r _ i l u rfl hk
  have S := sound_exc_kept (Kept.refl u) x r l
  refine ⟨fun y => S.mem (by rw [hm]; exact h.mem y), fun y => S.mode (by unfold LegalMode; rw [hc, h.cpsr]; exact y), fun y => ?_⟩
  rw [pcAligned_nat]
  intro _
  have : (takeException x r l u).pc.toNat % 4 = 0 := by
    rw [e]
    show (enteredBase u _ + x.offset).toNat % 4 = 0
    have h1 := base_aligned u (if r then Mode.mon else x.mode)
    have h2 := (offset_aligned x).2.1
    rw [BitVec.toNat_add]; omega
  split <;> omega

theorem passes_prefetchAbort {s t : State} (h : Kept s t) (a : Abort) : Passes s (takePrefetchAbort a t) := by
  unfold takePrefetchAbort
  obtain ⟨_, k2, k3, k4, _, k6⟩ := setBank_keeps (t.note 0x01) (t.abortRouted a || t.secure) { t.bank (t.abortRouted a || t.secure) with ifsr := faultStatus a.status false a.slave 0, ifar := a.mva &&& 0xFFFFFFFE }
  exact sound_bank _ _ _ h true t.sec _ k6 k2 k3 k4

theorem passes_impreciseAbort {s t : State} (h : Kept s t) (k : AbortKind) : Passes s (takeImpreciseAbort k t) := by
  unfold takeImpreciseAbort
  dsimp only
  refine sound_bank _ _ _ h true t.sec _ ?_ ?_ ?_ ?_
  all_goals first
    | exact (setBank_keeps _ _ _).2.2.2.2.2
    | exact (setBank_keeps _ _ _).2.1
    | exact (setBank_keeps _ _ _).2.2.1
    | exact (setBank_keeps _ _ _).2.2.2.1

theorem kept_softCauses (s : State) : Kept s (softCauses s).2 := by
  unfold softCauses
  split
  · exact Kept.refl s
  · exact kept_settle _ s

theorem kept_chooseCause (c : BitVec 4) (l : List (BitVec 4)) (s : State) : Kept s (chooseCause c l s).2 := by
  unfold chooseCause
  split
  · exact Kept.refl s
  · exact kept_drawn s

theorem passes_debugEvent {s t : State} (h : Kept s t) (c : BitVec 4) : Passes s (takeDebugEvent c t) := by
  unfold takeDebugEvent
  refine passes_if ?_ (passes_sound (sound_enterDebug h c))
  exact (passes_sound (sound_debugException h c)).trans (passes_countStep _ _ _)

theorem kept_fetchSpoilt (l2 : Bool) (s : State) : Kept s (fetchSpoilt l2 s) := by
  have h : Kept s { s with parityNext := none } := ⟨rfl, rfl, rfl, rfl, rfl, fun _ => rfl, id⟩
  exact kept_ite (h.trans (kept_corrupted _)) h

theorem keeps_fetchChecked (va : Word) (s : State) : Acc.Keeps s (fetchChecked va s) := by
  unfold fetchChecked
  refine keeps_bind ?_ fun w t h => ?_
  · unfold fetchWord
    refine keeps_bind (keeps_translate _ _ _ _ _) fun p t h => ?_
    dsimp only
    split
    · exact h
    · exact h.trans (kept_lateChosen _)
  · split
    · exact h
    · split
      · exact h
      · split
        · exact h.trans (kept_fetchSpoilt _ _)
        · exact (h.trans (kept_drawn _)).trans (kept_fetchSpoilt _ _)

theorem passesO_execute (H : ∀ i s, PassesO s (exec i s)) {s t : State} (h : Kept s t) (w : Word) : PassesO s (execute w t) := by
  have k := passesO_mono (passes_kept h) ((passesO_runWord H) w t)
  unfold execute
  split
  · rename_i u e
    exact passesO_if (passesO_fault _) (passesO_next ((k u e).trans (passes_retire _ _)))
  · exact passesO_fault _
  · exact passesO_refused _

theorem passesO_fetchStep (H : ∀ i s, PassesO s (exec i s)) (s : State) : PassesO s (fetchStep s) := by
  unfold fetchStep
  have h0 := kept_softCauses s
  have hf := keeps_mono h0 (keeps_fetchChecked (softCauses s).2.pc (softCauses s).2)
  generalize softCauses s = sc at h0 hf
  obtain ⟨causes, s0⟩ := sc
  dsimp only at h0 hf ⊢
  generalize fetchChecked s0.pc s0 = f at hf
  cases causes with
  | nil =>
    cases f with
    | ok w t =>
      have hf : Kept s t := hf
      dsimp only
      split
      · exact passesO_next ((passes_impreciseAbort hf _).trans (passes_countStep _ _ _))
      · exact (passesO_execute H) hf w
    | abort a t => exact passesO_next ((passes_prefetchAbort hf a).trans (passes_countStep _ _ _))
    | stop e => exact passesO_fault e
  | cons c cs =>
    cases f with
    | ok w t => exact passesO_next (passes_debugEvent (h0.trans (kept_chooseCause _ _ _)) _)
    | abort a t =>
      have hf : Kept s t := hf
      exact passesO_if (passesO_next ((passes_prefetchAbort (hf.trans (kept_drawn t)) a).trans (passes_countStep _ _ _))) (passesO_next (passes_debugEvent ((hf.trans (kept_drawn t)).trans (kept_chooseCause _ _ _)) _))
    | stop e => exact passesO_next (passes_debugEvent (h0.trans (kept_chooseCause _ _ _)) _)

theorem passesO_boundary (H : ∀ i s, PassesO s (exec i s)) (s : State) : PassesO s (boundary s) := by
  unfold boundary
  split
  · rename_i c cs _
    have h : Kept s (if s.cpsr.getLsbD 5 then (([] : List (BitVec 4)), s) else softCauses s).2 := by
      split
      · exact Kept.refl s
      · exact kept_softCauses s
    exact passesO_next (passes_debugEvent (h.trans (kept_chooseCause _ _ _)) _)
  · refine passesO_if (passesO_next ((passes_exc (Kept.refl s) _ _ _).trans (passes_countStep _ _ _))) (passesO_if (passesO_next ((passes_exc (Kept.refl s) _ _ _).trans (passes_countStep _ _ _))) (passesO_if ?_ (passesO_if (passesO_fault _) ((passesO_fetchStep H) s))))
    split
    · exact passesO_next ((passes_impreciseAbort (Kept.refl s) _).trans (passes_countStep _ _ _))
    · exact passesO_refused _

theorem passesO_coreStep (H : ∀ i s, PassesO s (exec i s)) (s : State) : PassesO s (coreStep s) := by
  refine passesO_afterwards ?_ passes_settleDebug
  have RR {t : State} (h : t = { s with run := t.run }) : Passes s t := by rw [h]; exact passes_kept ⟨rfl, rfl, rfl, rfl, rfl, fun _ => rfl, id⟩
  unfold coreTurn
  refine passesO_if (passesO_next (Passes.refl s)) (passesO_if (passesO_next (RR rfl)) (passesO_if (passesO_next (passes_if (passes_leaveDebug s) (Passes.refl s))) ?_))
  split
  · exact passesO_next (passes_if (RR rfl) (Passes.refl s))
  · split
    · exact passesO_next (Passes.refl s)
    · exact passesO_next (passes_sound (sound_enterDebug (kept_chooseCause _ _ _) _))
  · refine passesO_if (passesO_fault _) (passesO_if (passesO_next (passes_kept ?_)) ((passesO_boundary H) s))
    exact (kept_completed s).trans ⟨rfl, rfl, rfl, rfl, rfl, fun _ => rfl, id⟩

theorem passesO_hostStep (H : ∀ i s, PassesO s (exec i s)) (e : HostEvent) (s : State) : PassesO s (hostStep e s) :=
  passesO_if ((passesO_coreStep H) s) (passesO_afterwards ((passesO_agentStep H) e s) passes_settleDebug)

theorem passesO_step (H : ∀ i s, PassesO s (exec i s)) (s : State) : PassesO s (step s) := by
  have sch (l : List HostEvent) : Passes s { s with schedule := l } := passes_kept ⟨rfl, rfl, rfl, rfl, rfl, fun _ => rfl, id⟩
  unfold step oneStep
  split
  · exact (passesO_coreStep H) s
  · refine passesO_if ?_ (passesO_mono (sch _) ((passesO_hostStep H) _ _))
    split
    · exact passesO_if ((passesO_coreStep H) s) (passesO_mono (sch _) ((passesO_hostStep H) _ _))
    · exact (passesO_coreStep H) s

end Sys2Proof.Machine

end
end

