-- ==== Sys2Proof/Laws/PerInstr.lean ====
section
/-! SUPPORT. The encoding of every instruction decodes back to it: one lemma per constructor. -/

namespace Sys2Proof.Laws

set_option maxRecDepth 4000
set_option linter.unusedSimpArgs false
set_option Elab.async false

/-- Decoding the word of a well-formed instruction gives that instruction, under its own name (30_encoding.md R1351 to
R1391). -/
def RoundTrip.Statement (i : Instr) : Prop := i.wf = true → decodeWord (encode i) = .ok i.canonical

/-- Words of the unconditional space, read by layout `k`. -/
theorem decodeU {x km kv : Word} (k : Nat) (before : List Nat) {r : Row} (hk : x &&& km = kv)
    (hn : bits km 28 4 = BitVec.allOnes 4 ∧ bits kv 28 4 = 15) (hr : rowsUncond[k]? = some r)
    (hb : fitPlaces km kv (rowsUncond.take k) = before)
    (hno : ∀ q ∈ before.filterMap ((rowsUncond.take k)[·]?), q.hits x = false) (hm : r.Known km kv)
    (ho : r.ok x = true) : decodeWord x = .ok (r.build x) :=
  (show decodeWord x = readRows rowsUncond x by
    unfold decodeWord
    rw [if_pos (by simpa using (bits_of_known hk 28 4 hn.1).trans hn.2)]).trans
      (readRows_at rowsUncond x km kv k r before hk hr hb hno hm ho)

/-- Words with bits [27:25] = 0, read by layout `k`. -/
theorem decode0 {x km kv : Word} (k : Nat) (before : List Nat) {r : Row} (hk : x &&& km = kv) (hc : bits x 28 4 ≠ 15)
    (hn : bits km 25 3 = BitVec.allOnes 3 ∧ bits kv 25 3 = 0) (hr : rows0[k]? = some r)
    (hb : fitPlaces km kv (rows0.take k) = before)
    (hno : ∀ q ∈ before.filterMap ((rows0.take k)[·]?), q.hits x = false) (hm : r.Known km kv) (ho : r.ok x = true) :
    decodeWord x = .ok (r.build x) :=
  (show decodeWord x = readRows rows0 x by
    unfold decodeWord
    rw [if_neg (by simpa using hc), (bits_of_known hk 25 3 hn.1).trans hn.2]
    rfl).trans (readRows_at rows0 x km kv k r before hk hr hb hno hm ho)

/-- Words with bits [27:25] = 1, read by layout `k`. -/
theorem decode1 {x km kv : Word} (k : Nat) (before : List Nat) {r : Row} (hk : x &&& km = kv) (hc : bits x 28 4 ≠ 15)
    (hn : bits km 25 3 = BitVec.allOnes 3 ∧ bits kv 25 3 = 1) (hr : rows1[k]? = some r)
    (hb : fitPlaces km kv (rows1.take k) = before)
    (hno : ∀ q ∈ before.filterMap ((rows1.take k)[·]?), q.hits x = false) (hm : r.Known km kv) (ho : r.ok x = true) :
    decodeWord x = .ok (r.build x) :=
  (show decodeWord x = readRows rows1 x by
    unfold decodeWord
    rw [if_neg (by simpa using hc), (bits_of_known hk 25 3 hn.1).trans hn.2]
    rfl).trans (readRows_at rows1 x km kv k r before hk hr hb hno hm ho)

/-- Words with bits [27:25] = 2, read by layout `k`. -/
theorem decode2 {x km kv : Word} (k : Nat) (before : List Nat) {r : Row} (hk : x &&& km = kv) (hc : bits x 28 4 ≠ 15)
    (hn : bits km 25 3 = BitVec.allOnes 3 ∧ bits kv 25 3 = 2) (hr : rows2[k]? = some r)
    (hb : fitPlaces km kv (rows2.take k) = before)
    (hno : ∀ q ∈ before.filterMap ((rows2.take k)[·]?), q.hits x = false) (hm : r.Known km kv) (ho : r.ok x = true) :
    decodeWord x = .ok (r.build x) :=
  (show decodeWord x = readRows rows2 x by
    unfold decodeWord
    rw [if_neg (by simpa using hc), (bits_of_known hk 25 3 hn.1).trans hn.2]
    rfl).trans (readRows_at rows2 x km kv k r before hk hr hb hno hm ho)

/-- Words with bits [27:25] = 3, read by layout `k`. -/
theorem decode3 {x km kv : Word} (k : Nat) (before : List Nat) {r : Row} (hk : x &&& km = kv) (hc : bits x 28 4 ≠ 15)
    (hn : bits km 25 3 = BitVec.allOnes 3 ∧ bits kv 25 3 = 3) (hr : rows3[k]? = some r)
    (hb : fitPlaces km kv (rows3.take k) = before)
    (hno : ∀ q ∈ before.filterMap ((rows3.take k)[·]?), q.hits x = false) (hm : r.Known km kv) (ho : r.ok x = true) :
    decodeWord x = .ok (r.build x) :=
  (show decodeWord x = readRows rows3 x by
    unfold decodeWord
    rw [if_neg (by simpa using hc), (bits_of_known hk 25 3 hn.1).trans hn.2]
    rfl).trans (readRows_at rows3 x km kv k r before hk hr hb hno hm ho)

/-- Words with bits [27:25] = 4, read by layout `k`. -/
theorem decode4 {x km kv : Word} (k : Nat) (before : List Nat) {r : Row} (hk : x &&& km = kv) (hc : bits x 28 4 ≠ 15)
    (hn : bits km 25 3 = BitVec.allOnes 3 ∧ bits kv 25 3 = 4) (hr : rows4[k]? = some r)
    (hb : fitPlaces km kv (rows4.take k) = before)
    (hno : ∀ q ∈ before.filterMap ((rows4.take k)[·]?), q.hits x = false) (hm : r.Known km kv) (ho : r.ok x = true) :
    decodeWord x = .ok (r.build x) :=
  (show decodeWord x = readRows rows4 x by
    unfold decodeWord
    rw [if_neg (by simpa using hc), (bits_of_known hk 25 3 hn.1).trans hn.2]
    rfl).trans (readRows_at rows4 x km kv k r before hk hr hb hno hm ho)

/-- Words with bits [27:25] = 5, read by layout `k`. -/
theorem decode5 {x km kv : Word} (k : Nat) (before : List Nat) {r : Row} (hk : x &&& km = kv) (hc : bits x 28 4 ≠ 15)
    (hn : bits km 25 3 = BitVec.allOnes 3 ∧ bits kv 25 3 = 5) (hr : rows5[k]? = some r)
    (hb : fitPlaces km kv (rows5.take k) = before)
    (hno : ∀ q ∈ before.filterMap ((rows5.take k)[·]?), q.hits x = false) (hm : r.Known km kv) (ho : r.ok x = true) :
    decodeWord x = .ok (r.build x) :=
  (show decodeWord x = readRows rows5 x by
    unfold decodeWord
    rw [if_neg (by simpa using hc), (bits_of_known hk 25 3 hn.1).trans hn.2]
    rfl).trans (readRows_at rows5 x km kv k r before hk hr hb hno hm ho)

/-- Words with bits [27:25] = 6, read by layout `k`. -/
theorem decode6 {x km kv : Word} (k : Nat) (before : List Nat) {r : Row} (hk : x &&& km = kv) (hc : bits x 28 4 ≠ 15)
    (hn : bits km 25 3 = BitVec.allOnes 3 ∧ bits kv 25 3 = 6) (hr : rows6[k]? = some r)
    (hb : fitPlaces km kv (rows6.take k) = before)
    (hno : ∀ q ∈ before.filterMap ((rows6.take k)[·]?), q.hits x = false) (hm : r.Known km kv) (ho : r.ok x = true) :
    decodeWord x = .ok (r.build x) :=
  (show decodeWord x = readRows rows6 x by
    unfold decodeWord
    rw [if_neg (by simpa using hc), (bits_of_known hk 25 3 hn.1).trans hn.2]
    rfl).trans (readRows_at rows6 x km kv k r before hk hr hb hno hm ho)

/-- Words with bits [27:24] = 1111, read by layout `k`. -/
theorem decodeS {x km kv : Word} (k : Nat) (before : List Nat) {r : Row} (hk : x &&& km = kv) (hc : bits x 28 4 ≠ 15)
    (hn : bits km 24 4 = BitVec.allOnes 4 ∧ bits kv 24 4 = 15) (hr : rowsSvc[k]? = some r)
    (hb : fitPlaces km kv (rowsSvc.take k) = before)
    (hno : ∀ q ∈ before.filterMap ((rowsSvc.take k)[·]?), q.hits x = false) (hm : r.Known km kv) (ho : r.ok x = true) :
    decodeWord x = .ok (r.build x) :=
  (show decodeWord x = readRows rowsSvc x by
    have e := (bits_of_known hk 24 4 hn.1).trans hn.2
    have e1 : bits x 25 3 = 7 := by rw [bits_sub x 24 4 1 3 (by decide), e]; rfl
    have e2 : bits x 24 1 = 1 := by rw [bits_sub x 24 4 0 1 (by decide), e]; rfl
    unfold decodeWord
    rw [if_neg (by simpa using hc), e1, e2]
    rfl).trans (readRows_at rowsSvc x km kv k r before hk hr hb hno hm ho)

/-- A word of the class [27:24] = 1110, by its bits 11 to 8 and 4. -/
theorem decodeWord_class7 {x : Word} (hc : bits x 28 4 ≠ 15) (h1 : bits x 25 3 = 7) (h2 : bits x 24 1 = 0) :
    decodeWord x = if bits x 4 1 == 1 && bits x 8 4 == 14 then .ok (readP14 x)
      else if bits x 4 1 == 1 && bits x 8 4 == 15 then .ok (readP15 x) else readRows rows7 x := by
  unfold decodeWord
  rw [if_neg (by simpa using hc), h1, h2]
  rfl

/-- Coprocessor words that are no MRC or MCR of CP14 or CP15, read by layout `k`. -/
theorem decode7 {x km kv : Word} (k : Nat) (before : List Nat) {r : Row} (hk : x &&& km = kv) (hc : bits x 28 4 ≠ 15)
    (hp : (bits x 4 1 == 1 && (bits x 8 4 == 14 || bits x 8 4 == 15)) = false)
    (hn : bits km 24 4 = BitVec.allOnes 4 ∧ bits kv 24 4 = 14) (hr : rows7[k]? = some r)
    (hb : fitPlaces km kv (rows7.take k) = before)
    (hno : ∀ q ∈ before.filterMap ((rows7.take k)[·]?), q.hits x = false) (hm : r.Known km kv) (ho : r.ok x = true) :
    decodeWord x = .ok (r.build x) :=
  (show decodeWord x = readRows rows7 x by
    have e := (bits_of_known hk 24 4 hn.1).trans hn.2
    have e1 : bits x 25 3 = 7 := by rw [bits_sub x 24 4 1 3 (by decide), e]; rfl
    have e2 : bits x 24 1 = 0 := by rw [bits_sub x 24 4 0 1 (by decide), e]; rfl
    rw [decodeWord_class7 hc e1 e2]
    revert hp
    cases bits x 4 1 == 1 <;> cases bits x 8 4 == 14 <;> cases bits x 8 4 == 15 <;> simp).trans
      (readRows_at rows7 x km kv k r before hk hr hb hno hm ho)

/-- The bits that make a word an MRC or MCR of coprocessor `c`. -/
abbrev TransferWord (c : BitVec 4) (km kv : Word) : Prop :=
  bits km 24 4 = BitVec.allOnes 4 ∧ bits kv 24 4 = 14 ∧ bits km 4 1 = BitVec.allOnes 1 ∧ bits kv 4 1 = 1 ∧
    bits km 8 4 = BitVec.allOnes 4 ∧ bits kv 8 4 = c

theorem decodeWord_p14 {x km kv : Word} (hk : x &&& km = kv) (hc : bits x 28 4 ≠ 15) (hn : TransferWord 14 km kv) :
    decodeWord x = .ok (readP14 x) := by
  obtain ⟨h1, h2, h3, h4, h5, h6⟩ := hn
  have e := (bits_of_known hk 24 4 h1).trans h2
  have e1 : bits x 25 3 = 7 := by rw [bits_sub x 24 4 1 3 (by decide), e]; rfl
  have e2 : bits x 24 1 = 0 := by rw [bits_sub x 24 4 0 1 (by decide), e]; rfl
  rw [decodeWord_class7 hc e1 e2, (bits_of_known hk 4 1 h3).trans h4, (bits_of_known hk 8 4 h5).trans h6]
  rfl

theorem decodeWord_p15 {x km kv : Word} (hk : x &&& km = kv) (hc : bits x 28 4 ≠ 15) (hn : TransferWord 15 km kv) :
    decodeWord x = .ok (readP15 x) := by
  obtain ⟨h1, h2, h3, h4, h5, h6⟩ := hn
  have e := (bits_of_known hk 24 4 h1).trans h2
  have e1 : bits x 25 3 = 7 := by rw [bits_sub x 24 4 1 3 (by decide), e]; rfl
  have e2 : bits x 24 1 = 0 := by rw [bits_sub x 24 4 0 1 (by decide), e]; rfl
  rw [decodeWord_class7 hc e1 e2, (bits_of_known hk 4 1 h3).trans h4, (bits_of_known hk 8 4 h5).trans h6]
  rfl

/-- The tuple of a word all of whose tuple bits are known. -/
theorem wordKey_known {x km kv : Word} (hk : x &&& km = kv) (hm : km &&& 0x00FF00EF = 0x00FF00EF) :
    wordKey x = wordKey kv := by
  have part (lo n : Nat) (h : bits 0x00FF00EF lo n = BitVec.allOnes n) : bits x lo n = bits kv lo n := by
    refine bits_of_known hk lo n ?_
    have h' := bits_of_known hm lo n h
    have : bits km lo n = bits (0x00FF00EF : Word) lo n := h'
    rw [this, h]
  unfold wordKey
  rw [part 21 3 rfl, part 20 1 rfl, part 16 4 rfl, part 0 4 rfl, part 5 3 rfl]

/-- A CP15 transfer with a row of its own. -/
theorem decodeP15 {x km kv : Word} {t : Transfer} (hk : x &&& km = kv) (hc : bits x 28 4 ≠ 15)
    (hm : km &&& 0x00FF00EF = 0x00FF00EF) (hn : TransferWord 15 km kv)
    (hf : p15Table.find? (fun t => t.key == wordKey kv) = some t) :
    decodeWord x = .ok (t.build (bits x 28 4) (bits x 12 4)) := by
  rw [decodeWord_p15 hk hc hn, readP15, wordKey_known hk hm, hf]

/-- A CP14 transfer with a row of its own, but for the DSCR flags. -/
theorem decodeP14 {x km kv : Word} {t : Transfer} (hk : x &&& km = kv) (hc : bits x 28 4 ≠ 15)
    (hm : km &&& 0x00FF00EF = 0x00FF00EF) (hn : TransferWord 14 km kv) (hd : x &&& 0x0FFFFFFF ≠ 0x0E10FE11)
    (hf : p14Table.find? (fun t => t.key == wordKey kv) = some t) :
    decodeWord x = .ok (t.build (bits x 28 4) (bits x 12 4)) := by
  rw [decodeWord_p14 hk hc hn, readP14, wordKey_known hk hm, hf]
  exact congrArg Except.ok (if_neg fun h => hd (eq_of_beq h))

/-- The move of DSCR to the flags. -/
theorem decodeDscrFlags {x : Word} (hk : x &&& 0x0FFFFFFF = 0x0E10FE11) (hc : bits x 28 4 ≠ 15) :
    decodeWord x = .ok (.mrcDscrFlags (bits x 28 4)) := by
  rw [decodeWord_p14 hk hc ⟨rfl, rfl, rfl, rfl, rfl, rfl⟩, readP14, wordKey_known hk (by decide), hk]
  rfl

theorem p14_keys : p14Table.map (·.key) = p14Keys := rfl
theorem p15_keys : p15Table.map (·.key) = p15Keys := rfl

/-- No transfer of a table has a key that is not among its keys. -/
theorem find_none {l : List Transfer} {keys : List (BitVec 15)} (hl : l.map (·.key) = keys) {k : BitVec 15}
    (h : keys.contains k = false) : l.find? (fun t => t.key == k) = none := by
  subst hl
  rw [List.find?_eq_none]
  intro t ht hk
  have : (l.map (·.key)).contains k = true := by
    rw [List.contains_iff_mem, List.mem_map]
    exact ⟨t, ht, by simpa using hk⟩
  rw [h] at this
  exact Bool.noConfusion this

theorem p14_none {k : BitVec 15} (h : p14Keys.contains k = false) : p14Table.find? (fun t => t.key == k) = none :=
  find_none p14_keys h

theorem p15_none {k : BitVec 15} (h : p15Keys.contains k = false) : p15Table.find? (fun t => t.key == k) = none :=
  find_none p15_keys h

/-! ## Words that other rows do not claim -/

theorem bits_two (x : Word) (lo : Nat) : bits x lo 2 = bits x (lo + 1) 1 ++ bits x lo 1 := by
  unfold bits
  apply BitVec.eq_of_getLsbD_eq
  intro i hi
  rw [show (x.extractLsb' (lo + 1) 1 ++ x.extractLsb' lo 1 : BitVec 2).getLsbD i = _ from BitVec.getLsbD_append]
  have : i = 0 ∨ i = 1 := by omega
  rcases this with rfl | rfl <;> simp [-BitVec.getLsbD_eq_getElem]

theorem append_eq_zero (p u : BitVec 1) : (p ++ u == (0 : BitVec 2)) = (p == 0 && u == 0) := by
  revert p u; decide

theorem bits_opc_l (x : Word) : bits x 20 4 = bits x 21 3 ++ bits x 20 1 := by
  unfold bits
  apply BitVec.eq_of_getLsbD_eq
  intro i hi
  rw [show (x.extractLsb' 21 3 ++ x.extractLsb' 20 1 : BitVec 4).getLsbD i = _ from BitVec.getLsbD_append]
  have : i = 0 ∨ i = 1 ∨ i = 2 ∨ i = 3 := by omega
  rcases this with rfl | rfl | rfl | rfl <;> simp [-BitVec.getLsbD_eq_getElem]

theorem opc_l_eq_one (o : BitVec 3) (l : BitVec 1) : (o ++ l == (1 : BitVec 4)) = (o == 0 && l == 1) := by
  revert o l; decide

theorem and_five (a b c d e : Bool) (h : (!(a && b && c && d && e)) = true) : (c && (a && b) && d && e) = false := by
  revert a b c d e; decide

theorem hint_dbg (h : BitVec 8) (e : h.extractLsb' 4 4 = 15) : (240#8).ule h = true := by
  revert h; decide

theorem coproc_vfp (c : BitVec 4) (e : c.extractLsb' 1 3 = 5) : vfpCoproc c = true := by
  revert c; decide

theorem coproc_system (c : BitVec 4) (e : c.extractLsb' 1 3 = 5) : systemCoproc c = true := by
  revert c; decide

theorem other_coproc (c : BitVec 4) (h : systemCoproc c = false) : (c == 14 || c == 15) = false := by
  revert c; decide

theorem vfp_no_transfer {x : Word} (h : bits x 9 3 = 5) :
    (bits x 4 1 == 1 && (bits x 8 4 == 14 || bits x 8 4 == 15)) = false := by
  rw [bits_sub x 8 4 1 3 (by decide)] at h
  have (c : BitVec 4) (h : c.extractLsb' 1 3 = 5) : (c == 14 || c == 15) = false := by revert c; decide
  rw [this _ h, Bool.and_false]

theorem vfp_hi (h : BitVec 12) (e : h.extractLsb' 9 3 = 7) : h &&& 3584#12 = 3584#12 := by
  revert h; decide +kernel

theorem vfp_mid (m : BitVec 4) (e : m.extractLsb' 3 1 = 0) : m &&& 8#4 = 0#4 := by
  revert m; decide

theorem feature_keys (m : BitVec 4) (o : BitVec 3) (h1 : BitVec.ule 3 m = true) (h2 : BitVec.ule m 7 = true) :
    p15Keys.contains (transferKey 0 1 0 m o) = false := by
  revert m o; decide +kernel

/-- A word of the unconditional space that no pattern of R1369 claims is claimed by no earlier layout. -/
theorem uncond_unclaimed {x : Word} {b : BitVec 28} (hb : bits x 0 28 = b) (h : uncondClaimed b = false) :
    ∀ q ∈ [0, 1, 2, 3, 4, 5, 6, 7, 8, 9, 10, 11, 12, 13, 14, 15, 16, 17, 18, 19, 20].filterMap
      ((rowsUncond.take 21)[·]?), q.hits x = false := by
  intro q hq
  have hmem : (bits q.mask 0 28, bits q.pat 0 28) ∈ uncondPatterns := by
    have hall : ([0, 1, 2, 3, 4, 5, 6, 7, 8, 9, 10, 11, 12, 13, 14, 15, 16, 17, 18, 19, 20].filterMap
      ((rowsUncond.take 21)[·]?)).map (fun q => (bits q.mask 0 28, bits q.pat 0 28)) = uncondPatterns := rfl
    rw [← hall]
    exact List.mem_map.mpr ⟨q, hq, rfl⟩
  rw [Bool.eq_false_iff]
  intro hh
  have e : b &&& bits q.mask 0 28 = bits q.pat 0 28 := by
    simp only [Row.hits, Bool.and_eq_true, beq_iff_eq] at hh
    rw [← hb, ← hh.1]
    unfold bits
    rw [BitVec.extractLsb'_and]
  have : uncondClaimed b = true := List.any_eq_true.mpr ⟨_, hmem, by simpa using e⟩
  rw [h] at this
  exact Bool.noConfusion this

/-! ## The instructions -/

/-- Row 0 of the opcode table. -/
theorem RoundTrip.cps (imod m a i f mode) : RoundTrip.Statement (.cps imod m a i f mode) := fun hwf => by
  suffices H : ∀ x, x = 0xF1000000#32 ||| put imod 18 ||| put m 17 ||| put a 8 ||| put i 7 ||| put f 6 ||| put mode 0 → decodeWord x = .ok (.cps imod m a i f mode) from H _ rfl
  intro x hx
  have hk : x &&& 0xFFF1FE20 = 0xF1000000 := by simp (disch := decide) only [hx, or_and, put_and_apart]; rfl
  refine (decodeU 0 [] hk ⟨rfl, rfl⟩ rfl (by decide +kernel)
    (List.forall_mem_nil _) (by decide) rfl).trans ?_
  simp (disch := decide) only [hx, bits_or, bits_put_same, bits_put_apart, bits_ofNat, BitVec.reduceExtractLsb', BitVec.zero_or, BitVec.or_zero]

/-- Row 1 of the opcode table. -/
theorem RoundTrip.setend (e) : RoundTrip.Statement (.setend e) := fun hwf => by
  suffices H : ∀ x, x = 0xF1010000#32 ||| put e 9 → decodeWord x = .ok (.setend e) from H _ rfl
  intro x hx
  have hk : x &&& 0xFFFFFDFF = 0xF1010000 := by simp (disch := decide) only [hx, or_and, put_and_apart]; rfl
  refine (decodeU 1 [] hk ⟨rfl, rfl⟩ rfl (by decide +kernel)
    (List.forall_mem_nil _) (by decide) rfl).trans ?_
  simp (disch := decide) only [hx, bits_or, bits_put_same, bits_put_apart, bits_ofNat, BitVec.reduceExtractLsb', BitVec.zero_or, BitVec.or_zero]

/-- Row 2 of the opcode table. -/
theorem RoundTrip.pliImm (u rn imm12) : RoundTrip.Statement (.pliImm u rn imm12) := fun hwf => by
  suffices H : ∀ x, x = 0xF450F000#32 ||| put u 23 ||| put rn 16 ||| put imm12 0 → decodeWord x = .ok (.pliImm u rn imm12) from H _ rfl
  intro x hx
  have hk : x &&& 0xFF70F000 = 0xF450F000 := by simp (disch := decide) only [hx, or_and, put_and_apart]; rfl
  refine (decodeU 2 [] hk ⟨rfl, rfl⟩ rfl (by decide +kernel)
    (List.forall_mem_nil _) (by decide) rfl).trans ?_
  simp (disch := decide) only [hx, bits_or, bits_put_same, bits_put_apart, bits_ofNat, BitVec.reduceExtractLsb', BitVec.zero_or, BitVec.or_zero]

/-- Row 3 of the opcode table. -/
theorem RoundTrip.pliReg (u rn imm5 typ rm) : RoundTrip.Statement (.pliReg u rn imm5 typ rm) := fun hwf => by
  suffices H : ∀ x, x = 0xF650F000#32 ||| put u 23 ||| put rn 16 ||| put imm5 7 ||| put typ 5 ||| put rm 0 → decodeWord x = .ok (.pliReg u rn imm5 typ rm) from H _ rfl
  intro x hx
  have hk : x &&& 0xFF70F010 = 0xF650F000 := by simp (disch := decide) only [hx, or_and, put_and_apart]; rfl
  refine (decodeU 3 [] hk ⟨rfl, rfl⟩ rfl (by decide +kernel)
    (List.forall_mem_nil _) (by decide) rfl).trans ?_
  simp (disch := decide) only [hx, bits_or, bits_put_same, bits_put_apart, bits_ofNat, BitVec.reduceExtractLsb', BitVec.zero_or, BitVec.or_zero]

/-- Row 4 of the opcode table. -/
theorem RoundTrip.pldImm (u rn imm12) : RoundTrip.Statement (.pldImm u rn imm12) := fun hwf => by
  suffices H : ∀ x, x = 0xF550F000#32 ||| put u 23 ||| put rn 16 ||| put imm12 0 → decodeWord x = .ok (.pldImm u rn imm12) from H _ rfl
  intro x hx
  have hk : x &&& 0xFF70F000 = 0xF550F000 := by simp (disch := decide) only [hx, or_and, put_and_apart]; rfl
  refine (decodeU 4 [] hk ⟨rfl, rfl⟩ rfl (by decide +kernel)
    (List.forall_mem_nil _) (by decide) rfl).trans ?_
  simp (disch := decide) only [hx, bits_or, bits_put_same, bits_put_apart, bits_ofNat, BitVec.reduceExtractLsb', BitVec.zero_or, BitVec.or_zero]

/-- Row 5 of the opcode table. -/
theorem RoundTrip.pldReg (u rn imm5 typ rm) : RoundTrip.Statement (.pldReg u rn imm5 typ rm) := fun hwf => by
  suffices H : ∀ x, x = 0xF750F000#32 ||| put u 23 ||| put rn 16 ||| put imm5 7 ||| put typ 5 ||| put rm 0 → decodeWord x = .ok (.pldReg u rn imm5 typ rm) from H _ rfl
  intro x hx
  have hk : x &&& 0xFF70F010 = 0xF750F000 := by simp (disch := decide) only [hx, or_and, put_and_apart]; rfl
  refine (decodeU 5 [] hk ⟨rfl, rfl⟩ rfl (by decide +kernel)
    (List.forall_mem_nil _) (by decide) rfl).trans ?_
  simp (disch := decide) only [hx, bits_or, bits_put_same, bits_put_apart, bits_ofNat, BitVec.reduceExtractLsb', BitVec.zero_or, BitVec.or_zero]

/-- Row 6 of the opcode table. -/
theorem RoundTrip.pldwImm (u rn imm12) : RoundTrip.Statement (.pldwImm u rn imm12) := fun hwf => by
  suffices H : ∀ x, x = 0xF510F000#32 ||| put u 23 ||| put rn 16 ||| put imm12 0 → decodeWord x = .ok (.pldwImm u rn imm12) from H _ rfl
  intro x hx
  have hk : x &&& 0xFF70F000 = 0xF510F000 := by simp (disch := decide) only [hx, or_and, put_and_apart]; rfl
  refine (decodeU 6 [] hk ⟨rfl, rfl⟩ rfl (by decide +kernel)
    (List.forall_mem_nil _) (by decide) rfl).trans ?_
  simp (disch := decide) only [hx, bits_or, bits_put_same, bits_put_apart, bits_ofNat, BitVec.reduceExtractLsb', BitVec.zero_or, BitVec.or_zero]

/-- Row 7 of the opcode table. -/
theorem RoundTrip.pldwReg (u rn imm5 typ rm) : RoundTrip.Statement (.pldwReg u rn imm5 typ rm) := fun hwf => by
  suffices H : ∀ x, x = 0xF710F000#32 ||| put u 23 ||| put rn 16 ||| put imm5 7 ||| put typ 5 ||| put rm 0 → decodeWord x = .ok (.pldwReg u rn imm5 typ rm) from H _ rfl
  intro x hx
  have hk : x &&& 0xFF70F010 = 0xF710F000 := by simp (disch := decide) only [hx, or_and, put_and_apart]; rfl
  refine (decodeU 7 [] hk ⟨rfl, rfl⟩ rfl (by decide +kernel)
    (List.forall_mem_nil _) (by decide) rfl).trans ?_
  simp (disch := decide) only [hx, bits_or, bits_put_same, bits_put_apart, bits_ofNat, BitVec.reduceExtractLsb', BitVec.zero_or, BitVec.or_zero]

/-- Row 8 of the opcode table. -/
theorem RoundTrip.memHintImm (u lo) : RoundTrip.Statement (.memHintImm u lo) := fun hwf => by
  suffices H : ∀ x, x = 0xF4100000#32 ||| put u 23 ||| put lo 0 → decodeWord x = .ok (.memHintImm u lo) from H _ rfl
  intro x hx
  have hk : x &&& 0xFF700000 = 0xF4100000 := by simp (disch := decide) only [hx, or_and, put_and_apart]; rfl
  refine (decodeU 8 [] hk ⟨rfl, rfl⟩ rfl (by decide +kernel)
    (List.forall_mem_nil _) (by decide) rfl).trans ?_
  simp (disch := decide) only [hx, bits_or, bits_put_same, bits_put_apart, bits_ofNat, BitVec.reduceExtractLsb', BitVec.zero_or, BitVec.or_zero]

/-- Row 9 of the opcode table. -/
theorem RoundTrip.memHintReg (u mid lo) : RoundTrip.Statement (.memHintReg u mid lo) := fun hwf => by
  suffices H : ∀ x, x = 0xF6100000#32 ||| put u 23 ||| put mid 5 ||| put lo 0 → decodeWord x = .ok (.memHintReg u mid lo) from H _ rfl
  intro x hx
  have hk : x &&& 0xFF700010 = 0xF6100000 := by simp (disch := decide) only [hx, or_and, put_and_apart]; rfl
  refine (decodeU 9 [] hk ⟨rfl, rfl⟩ rfl (by decide +kernel)
    (List.forall_mem_nil _) (by decide) rfl).trans ?_
  simp (disch := decide) only [hx, bits_or, bits_put_same, bits_put_apart, bits_ofNat, BitVec.reduceExtractLsb', BitVec.zero_or, BitVec.or_zero]

/-- Row 10 of the opcode table. -/
theorem RoundTrip.clrex : RoundTrip.Statement .clrex := fun hwf => by
  suffices H : ∀ x, x = 0xF57FF01F#32 → decodeWord x = .ok (.clrex) from H _ rfl
  intro x hx
  have hk : x &&& 0xFFFFFFFF = 0xF57FF01F := by rw [hx]; rfl
  refine (decodeU 10 [] hk ⟨rfl, rfl⟩ rfl (by decide +kernel)
    (List.forall_mem_nil _) (by decide) rfl).trans ?_
  rfl

/-- Row 11 of the opcode table. -/
theorem RoundTrip.dsb (opt) : RoundTrip.Statement (.dsb opt) := fun hwf => by
  suffices H : ∀ x, x = 0xF57FF040#32 ||| put opt 0 → decodeWord x = .ok (.dsb opt) from H _ rfl
  intro x hx
  have hk : x &&& 0xFFFFFFF0 = 0xF57FF040 := by simp (disch := decide) only [hx, or_and, put_and_apart]; rfl
  refine (decodeU 11 [] hk ⟨rfl, rfl⟩ rfl (by decide +kernel)
    (List.forall_mem_nil _) (by decide) rfl).trans ?_
  simp (disch := decide) only [hx, bits_or, bits_put_same, bits_put_apart, bits_ofNat, BitVec.reduceExtractLsb', BitVec.zero_or, BitVec.or_zero]

/-- Row 12 of the opcode table. -/
theorem RoundTrip.dmb (opt) : RoundTrip.Statement (.dmb opt) := fun hwf => by
  suffices H : ∀ x, x = 0xF57FF050#32 ||| put opt 0 → decodeWord x = .ok (.dmb opt) from H _ rfl
  intro x hx
  have hk : x &&& 0xFFFFFFF0 = 0xF57FF050 := by simp (disch := decide) only [hx, or_and, put_and_apart]; rfl
  refine (decodeU 12 [] hk ⟨rfl, rfl⟩ rfl (by decide +kernel)
    (List.forall_mem_nil _) (by decide) rfl).trans ?_
  simp (disch := decide) only [hx, bits_or, bits_put_same, bits_put_apart, bits_ofNat, BitVec.reduceExtractLsb', BitVec.zero_or, BitVec.or_zero]

/-- Row 13 of the opcode table. -/
theorem RoundTrip.isb (opt) : RoundTrip.Statement (.isb opt) := fun hwf => by
  suffices H : ∀ x, x = 0xF57FF060#32 ||| put opt 0 → decodeWord x = .ok (.isb opt) from H _ rfl
  intro x hx
  have hk : x &&& 0xFFFFFFF0 = 0xF57FF060 := by simp (disch := decide) only [hx, or_and, put_and_apart]; rfl
  refine (decodeU 13 [] hk ⟨rfl, rfl⟩ rfl (by decide +kernel)
    (List.forall_mem_nil _) (by decide) rfl).trans ?_
  simp (disch := decide) only [hx, bits_or, bits_put_same, bits_put_apart, bits_ofNat, BitVec.reduceExtractLsb', BitVec.zero_or, BitVec.or_zero]

/-- Row 14 of the opcode table. -/
theorem RoundTrip.srs (p u w mode) : RoundTrip.Statement (.srs p u w mode) := fun hwf => by
  suffices H : ∀ x, x = 0xF84D0500#32 ||| put p 24 ||| put u 23 ||| put w 21 ||| put mode 0 → decodeWord x = .ok (.srs p u w mode) from H _ rfl
  intro x hx
  have hk : x &&& 0xFE5FFFE0 = 0xF84D0500 := by simp (disch := decide) only [hx, or_and, put_and_apart]; rfl
  refine (decodeU 14 [] hk ⟨rfl, rfl⟩ rfl (by decide +kernel)
    (List.forall_mem_nil _) (by decide) rfl).trans ?_
  simp (disch := decide) only [hx, bits_or, bits_put_same, bits_put_apart, bits_ofNat, BitVec.reduceExtractLsb', BitVec.zero_or, BitVec.or_zero]

/-- Row 15 of the opcode table. -/
theorem RoundTrip.rfe (p u w rn) : RoundTrip.Statement (.rfe p u w rn) := fun hwf => by
  suffices H : ∀ x, x = 0xF8100A00#32 ||| put p 24 ||| put u 23 ||| put w 21 ||| put rn 16 → decodeWord x = .ok (.rfe p u w rn) from H _ rfl
  intro x hx
  have hk : x &&& 0xFE50FFFF = 0xF8100A00 := by simp (disch := decide) only [hx, or_and, put_and_apart]; rfl
  refine (decodeU 15 [] hk ⟨rfl, rfl⟩ rfl (by decide +kernel)
    (List.forall_mem_nil _) (by decide) rfl).trans ?_
  simp (disch := decide) only [hx, bits_or, bits_put_same, bits_put_apart, bits_ofNat, BitVec.reduceExtractLsb', BitVec.zero_or, BitVec.or_zero]

/-- Row 16 of the opcode table. -/
theorem RoundTrip.blxImm (h imm24) : RoundTrip.Statement (.blxImm h imm24) := fun hwf => by
  suffices H : ∀ x, x = 0xFA000000#32 ||| put h 24 ||| put imm24 0 → decodeWord x = .ok (.blxImm h imm24) from H _ rfl
  intro x hx
  have hk : x &&& 0xFE000000 = 0xFA000000 := by simp (disch := decide) only [hx, or_and, put_and_apart]; rfl
  refine (decodeU 16 [] hk ⟨rfl, rfl⟩ rfl (by decide +kernel)
    (List.forall_mem_nil _) (by decide) rfl).trans ?_
  simp (disch := decide) only [hx, bits_or, bits_put_same, bits_put_apart, bits_ofNat, BitVec.reduceExtractLsb', BitVec.zero_or, BitVec.or_zero]

/-- Row 17 of the opcode table. -/
theorem RoundTrip.asimdData (b) : RoundTrip.Statement (.asimdData b) := fun hwf => by
  suffices H : ∀ x, x = 0xF2000000#32 ||| put b 0 → decodeWord x = .ok (.asimdData b) from H _ rfl
  intro x hx
  have hk : x &&& 0xFE000000 = 0xF2000000 := by simp (disch := decide) only [hx, or_and, put_and_apart]; rfl
  refine (decodeU 17 [] hk ⟨rfl, rfl⟩ rfl (by decide +kernel)
    (List.forall_mem_nil _) (by decide) rfl).trans ?_
  simp (disch := decide) only [hx, bits_or, bits_put_same, bits_put_apart, bits_ofNat, BitVec.reduceExtractLsb', BitVec.zero_or, BitVec.or_zero]

/-- Row 18 of the opcode table. -/
theorem RoundTrip.asimdLoadStore (hi lo) : RoundTrip.Statement (.asimdLoadStore hi lo) := fun hwf => by
  suffices H : ∀ x, x = 0xF4000000#32 ||| put hi 21 ||| put lo 0 → decodeWord x = .ok (.asimdLoadStore hi lo) from H _ rfl
  intro x hx
  have hk : x &&& 0xFF100000 = 0xF4000000 := by simp (disch := decide) only [hx, or_and, put_and_apart]; rfl
  refine (decodeU 18 [] hk ⟨rfl, rfl⟩ rfl (by decide +kernel)
    (List.forall_mem_nil _) (by decide) rfl).trans ?_
  simp (disch := decide) only [hx, bits_or, bits_put_same, bits_put_apart, bits_ofNat, BitVec.reduceExtractLsb', BitVec.zero_or, BitVec.or_zero]

/-- Row 19 of the opcode table. -/
theorem RoundTrip.coproc2LoadStore (b) : RoundTrip.Statement (.coproc2LoadStore b) := fun hwf => by
  suffices H : ∀ x, x = 0xFC000000#32 ||| put b 0 → decodeWord x = .ok (.coproc2LoadStore b) from H _ rfl
  intro x hx
  have hk : x &&& 0xFE000000 = 0xFC000000 := by simp (disch := decide) only [hx, or_and, put_and_apart]; rfl
  refine (decodeU 19 [] hk ⟨rfl, rfl⟩ rfl (by decide +kernel)
    (List.forall_mem_nil _) (by decide) rfl).trans ?_
  simp (disch := decide) only [hx, bits_or, bits_put_same, bits_put_apart, bits_ofNat, BitVec.reduceExtractLsb', BitVec.zero_or, BitVec.or_zero]

/-- Row 20 of the opcode table. -/
theorem RoundTrip.coproc2Reg (b) : RoundTrip.Statement (.coproc2Reg b) := fun hwf => by
  suffices H : ∀ x, x = 0xFE000000#32 ||| put b 0 → decodeWord x = .ok (.coproc2Reg b) from H _ rfl
  intro x hx
  have hk : x &&& 0xFF000000 = 0xFE000000 := by simp (disch := decide) only [hx, or_and, put_and_apart]; rfl
  refine (decodeU 20 [] hk ⟨rfl, rfl⟩ rfl (by decide +kernel)
    (List.forall_mem_nil _) (by decide) rfl).trans ?_
  simp (disch := decide) only [hx, bits_or, bits_put_same, bits_put_apart, bits_ofNat, BitVec.reduceExtractLsb', BitVec.zero_or, BitVec.or_zero]

/-- Row 21 of the opcode table. -/
theorem RoundTrip.uncondOther (b) : RoundTrip.Statement (.uncondOther b) := fun hwf => by
  have h : (!uncondClaimed b) = true := hwf
  suffices H : ∀ x, x = 0xF0000000#32 ||| put b 0 → decodeWord x = .ok (.uncondOther b) from H _ rfl
  intro x hx
  have hk : x &&& 0xF0000000 = 0xF0000000 := by simp (disch := decide) only [hx, or_and, put_and_apart]; rfl
  have hb : bits x 0 28 = b := by
    simp (disch := decide) only [hx, bits_or, bits_put_same, bits_put_apart, bits_ofNat, BitVec.reduceExtractLsb', BitVec.zero_or, BitVec.or_zero]
  have hno : ∀ q ∈ [0, 1, 2, 3, 4, 5, 6, 7, 8, 9, 10, 11, 12, 13, 14, 15, 16, 17, 18, 19, 20].filterMap
      ((rowsUncond.take 21)[·]?), q.hits x = false :=
    uncond_unclaimed hb (by simpa using h)
  refine (decodeU 21 [0, 1, 2, 3, 4, 5, 6, 7, 8, 9, 10, 11, 12, 13, 14, 15, 16, 17, 18, 19, 20] hk ⟨rfl, rfl⟩ rfl (by decide +kernel)
    hno (by decide) rfl).trans ?_
  simp (disch := decide) only [hx, bits_or, bits_put_same, bits_put_apart, bits_ofNat, BitVec.reduceExtractLsb', BitVec.zero_or, BitVec.or_zero]

/-- Row 22 of the opcode table. -/
theorem RoundTrip.mrs (cond r rd) : RoundTrip.Statement (.mrs cond r rd) := fun hwf => by
  have h : (cond != 15) = true := hwf
  suffices H : ∀ x, x = 0x010F0000#32 ||| put cond 28 ||| put r 22 ||| put rd 12 → decodeWord x = .ok (.mrs cond r rd) from H _ rfl
  intro x hx
  have hk : x &&& 0x0FBF0FFF = 0x010F0000 := by simp (disch := decide) only [hx, or_and, put_and_apart]; rfl
  have hc : bits x 28 4 ≠ 15 := by
    simp (disch := decide) only [hx, bits_or, bits_put_same, bits_put_apart, bits_ofNat, BitVec.reduceExtractLsb', BitVec.zero_or, BitVec.or_zero]
    exact bne_iff_ne.mp h
  refine (decode0 0 [] hk hc ⟨rfl, rfl⟩ rfl (by decide +kernel)
    (List.forall_mem_nil _) (by decide) rfl).trans ?_
  simp (disch := decide) only [hx, bits_or, bits_put_same, bits_put_apart, bits_ofNat, BitVec.reduceExtractLsb', BitVec.zero_or, BitVec.or_zero]

/-- Row 23 of the opcode table. -/
theorem RoundTrip.msrCpsrReg (cond fieldMask rn) : RoundTrip.Statement (.msrCpsrReg cond fieldMask rn) := fun hwf => by
  have h : (cond != 15) = true := hwf
  suffices H : ∀ x, x = 0x0120F000#32 ||| put cond 28 ||| put fieldMask 16 ||| put rn 0 → decodeWord x = .ok (.msrCpsrReg cond fieldMask rn) from H _ rfl
  intro x hx
  have hk : x &&& 0x0FF0FFF0 = 0x0120F000 := by simp (disch := decide) only [hx, or_and, put_and_apart]; rfl
  have hc : bits x 28 4 ≠ 15 := by
    simp (disch := decide) only [hx, bits_or, bits_put_same, bits_put_apart, bits_ofNat, BitVec.reduceExtractLsb', BitVec.zero_or, BitVec.or_zero]
    exact bne_iff_ne.mp h
  refine (decode0 1 [] hk hc ⟨rfl, rfl⟩ rfl (by decide +kernel)
    (List.forall_mem_nil _) (by decide) rfl).trans ?_
  simp (disch := decide) only [hx, bits_or, bits_put_same, bits_put_apart, bits_ofNat, BitVec.reduceExtractLsb', BitVec.zero_or, BitVec.or_zero]

/-- Row 24 of the opcode table. -/
theorem RoundTrip.msrSpsrReg (cond fieldMask rn) : RoundTrip.Statement (.msrSpsrReg cond fieldMask rn) := fun hwf => by
  have h : (cond != 15) = true := hwf
  suffices H : ∀ x, x = 0x0160F000#32 ||| put cond 28 ||| put fieldMask 16 ||| put rn 0 → decodeWord x = .ok (.msrSpsrReg cond fieldMask rn) from H _ rfl
  intro x hx
  have hk : x &&& 0x0FF0FFF0 = 0x0160F000 := by simp (disch := decide) only [hx, or_and, put_and_apart]; rfl
  have hc : bits x 28 4 ≠ 15 := by
    simp (disch := decide) only [hx, bits_or, bits_put_same, bits_put_apart, bits_ofNat, BitVec.reduceExtractLsb', BitVec.zero_or, BitVec.or_zero]
    exact bne_iff_ne.mp h
  refine (decode0 2 [] hk hc ⟨rfl, rfl⟩ rfl (by decide +kernel)
    (List.forall_mem_nil _) (by decide) rfl).trans ?_
  simp (disch := decide) only [hx, bits_or, bits_put_same, bits_put_apart, bits_ofNat, BitVec.reduceExtractLsb', BitVec.zero_or, BitVec.or_zero]

/-- Row 25 of the opcode table. -/
theorem RoundTrip.bx (cond rm) : RoundTrip.Statement (.bx cond rm) := fun hwf => by
  have h : (cond != 15) = true := hwf
  suffices H : ∀ x, x = 0x012FFF10#32 ||| put cond 28 ||| put rm 0 → decodeWord x = .ok (.bx cond rm) from H _ rfl
  intro x hx
  have hk : x &&& 0x0FFFFFF0 = 0x012FFF10 := by simp (disch := decide) only [hx, or_and, put_and_apart]; rfl
  have hc : bits x 28 4 ≠ 15 := by
    simp (disch := decide) only [hx, bits_or, bits_put_same, bits_put_apart, bits_ofNat, BitVec.reduceExtractLsb', BitVec.zero_or, BitVec.or_zero]
    exact bne_iff_ne.mp h
  refine (decode0 3 [] hk hc ⟨rfl, rfl⟩ rfl (by decide +kernel)
    (List.forall_mem_nil _) (by decide) rfl).trans ?_
  simp (disch := decide) only [hx, bits_or, bits_put_same, bits_put_apart, bits_ofNat, BitVec.reduceExtractLsb', BitVec.zero_or, BitVec.or_zero]

/-- Row 26 of the opcode table. -/
theorem RoundTrip.bxj (cond rm) : RoundTrip.Statement (.bxj cond rm) := fun hwf => by
  have h : (cond != 15) = true := hwf
  suffices H : ∀ x, x = 0x012FFF20#32 ||| put cond 28 ||| put rm 0 → decodeWord x = .ok (.bxj cond rm) from H _ rfl
  intro x hx
  have hk : x &&& 0x0FFFFFF0 = 0x012FFF20 := by simp (disch := decide) only [hx, or_and, put_and_apart]; rfl
  have hc : bits x 28 4 ≠ 15 := by
    simp (disch := decide) only [hx, bits_or, bits_put_same, bits_put_apart, bits_ofNat, BitVec.reduceExtractLsb', BitVec.zero_or, BitVec.or_zero]
    exact bne_iff_ne.mp h
  refine (decode0 4 [] hk hc ⟨rfl, rfl⟩ rfl (by decide +kernel)
    (List.forall_mem_nil _) (by decide) rfl).trans ?_
  simp (disch := decide) only [hx, bits_or, bits_put_same, bits_put_apart, bits_ofNat, BitVec.reduceExtractLsb', BitVec.zero_or, BitVec.or_zero]

/-- Row 27 of the opcode table. -/
theorem RoundTrip.blxReg (cond rm) : RoundTrip.Statement (.blxReg cond rm) := fun hwf => by
  have h : (cond != 15) = true := hwf
  suffices H : ∀ x, x = 0x012FFF30#32 ||| put cond 28 ||| put rm 0 → decodeWord x = .ok (.blxReg cond rm) from H _ rfl
  intro x hx
  have hk : x &&& 0x0FFFFFF0 = 0x012FFF30 := by simp (disch := decide) only [hx, or_and, put_and_apart]; rfl
  have hc : bits x 28 4 ≠ 15 := by
    simp (disch := decide) only [hx, bits_or, bits_put_same, bits_put_apart, bits_ofNat, BitVec.reduceExtractLsb', BitVec.zero_or, BitVec.or_zero]
    exact bne_iff_ne.mp h
  refine (decode0 5 [] hk hc ⟨rfl, rfl⟩ rfl (by decide +kernel)
    (List.forall_mem_nil _) (by decide) rfl).trans ?_
  simp (disch := decide) only [hx, bits_or, bits_put_same, bits_put_apart, bits_ofNat, BitVec.reduceExtractLsb', BitVec.zero_or, BitVec.or_zero]

/-- Row 28 of the opcode table. -/
theorem RoundTrip.clz (cond rd rm) : RoundTrip.Statement (.clz cond rd rm) := fun hwf => by
  have h : (cond != 15) = true := hwf
  suffices H : ∀ x, x = 0x016F0F10#32 ||| put cond 28 ||| put rd 12 ||| put rm 0 → decodeWord x = .ok (.clz cond rd rm) from H _ rfl
  intro x hx
  have hk : x &&& 0x0FFF0FF0 = 0x016F0F10 := by simp (disch := decide) only [hx, or_and, put_and_apart]; rfl
  have hc : bits x 28 4 ≠ 15 := by
    simp (disch := decide) only [hx, bits_or, bits_put_same, bits_put_apart, bits_ofNat, BitVec.reduceExtractLsb', BitVec.zero_or, BitVec.or_zero]
    exact bne_iff_ne.mp h
  refine (decode0 6 [] hk hc ⟨rfl, rfl⟩ rfl (by decide +kernel)
    (List.forall_mem_nil _) (by decide) rfl).trans ?_
  simp (disch := decide) only [hx, bits_or, bits_put_same, bits_put_apart, bits_ofNat, BitVec.reduceExtractLsb', BitVec.zero_or, BitVec.or_zero]

/-- Row 29 of the opcode table. -/
theorem RoundTrip.qadd (cond rn rd rm) : RoundTrip.Statement (.qadd cond rn rd rm) := fun hwf => by
  have h : (cond != 15) = true := hwf
  suffices H : ∀ x, x = 0x01000050#32 ||| put cond 28 ||| put rn 16 ||| put rd 12 ||| put rm 0 → decodeWord x = .ok (.qadd cond rn rd rm) from H _ rfl
  intro x hx
  have hk : x &&& 0x0FF00FF0 = 0x01000050 := by simp (disch := decide) only [hx, or_and, put_and_apart]; rfl
  have hc : bits x 28 4 ≠ 15 := by
    simp (disch := decide) only [hx, bits_or, bits_put_same, bits_put_apart, bits_ofNat, BitVec.reduceExtractLsb', BitVec.zero_or, BitVec.or_zero]
    exact bne_iff_ne.mp h
  refine (decode0 7 [] hk hc ⟨rfl, rfl⟩ rfl (by decide +kernel)
    (List.forall_mem_nil _) (by decide) rfl).trans ?_
  simp (disch := decide) only [hx, bits_or, bits_put_same, bits_put_apart, bits_ofNat, BitVec.reduceExtractLsb', BitVec.zero_or, BitVec.or_zero]

/-- Row 30 of the opcode table. -/
theorem RoundTrip.qsub (cond rn rd rm) : RoundTrip.Statement (.qsub cond rn rd rm) := fun hwf => by
  have h : (cond != 15) = true := hwf
  suffices H : ∀ x, x = 0x01200050#32 ||| put cond 28 ||| put rn 16 ||| put rd 12 ||| put rm 0 → decodeWord x = .ok (.qsub cond rn rd rm) from H _ rfl
  intro x hx
  have hk : x &&& 0x0FF00FF0 = 0x01200050 := by simp (disch := decide) only [hx, or_and, put_and_apart]; rfl
  have hc : bits x 28 4 ≠ 15 := by
    simp (disch := decide) only [hx, bits_or, bits_put_same, bits_put_apart, bits_ofNat, BitVec.reduceExtractLsb', BitVec.zero_or, BitVec.or_zero]
    exact bne_iff_ne.mp h
  refine (decode0 8 [] hk hc ⟨rfl, rfl⟩ rfl (by decide +kernel)
    (List.forall_mem_nil _) (by decide) rfl).trans ?_
  simp (disch := decide) only [hx, bits_or, bits_put_same, bits_put_apart, bits_ofNat, BitVec.reduceExtractLsb', BitVec.zero_or, BitVec.or_zero]

/-- Row 31 of the opcode table. -/
theorem RoundTrip.qdadd (cond rn rd rm) : RoundTrip.Statement (.qdadd cond rn rd rm) := fun hwf => by
  have h : (cond != 15) = true := hwf
  suffices H : ∀ x, x = 0x01400050#32 ||| put cond 28 ||| put rn 16 ||| put rd 12 ||| put rm 0 → decodeWord x = .ok (.qdadd cond rn rd rm) from H _ rfl
  intro x hx
  have hk : x &&& 0x0FF00FF0 = 0x01400050 := by simp (disch := decide) only [hx, or_and, put_and_apart]; rfl
  have hc : bits x 28 4 ≠ 15 := by
    simp (disch := decide) only [hx, bits_or, bits_put_same, bits_put_apart, bits_ofNat, BitVec.reduceExtractLsb', BitVec.zero_or, BitVec.or_zero]
    exact bne_iff_ne.mp h
  refine (decode0 9 [] hk hc ⟨rfl, rfl⟩ rfl (by decide +kernel)
    (List.forall_mem_nil _) (by decide) rfl).trans ?_
  simp (disch := decide) only [hx, bits_or, bits_put_same, bits_put_apart, bits_ofNat, BitVec.reduceExtractLsb', BitVec.zero_or, BitVec.or_zero]

/-- Row 32 of the opcode table. -/
theorem RoundTrip.qdsub (cond rn rd rm) : RoundTrip.Statement (.qdsub cond rn rd rm) := fun hwf => by
  have h : (cond != 15) = true := hwf
  suffices H : ∀ x, x = 0x01600050#32 ||| put cond 28 ||| put rn 16 ||| put rd 12 ||| put rm 0 → decodeWord x = .ok (.qdsub cond rn rd rm) from H _ rfl
  intro x hx
  have hk : x &&& 0x0FF00FF0 = 0x01600050 := by simp (disch := decide) only [hx, or_and, put_and_apart]; rfl
  have hc : bits x 28 4 ≠ 15 := by
    simp (disch := decide) only [hx, bits_or, bits_put_same, bits_put_apart, bits_ofNat, BitVec.reduceExtractLsb', BitVec.zero_or, BitVec.or_zero]
    exact bne_iff_ne.mp h
  refine (decode0 10 [] hk hc ⟨rfl, rfl⟩ rfl (by decide +kernel)
    (List.forall_mem_nil _) (by decide) rfl).trans ?_
  simp (disch := decide) only [hx, bits_or, bits_put_same, bits_put_apart, bits_ofNat, BitVec.reduceExtractLsb', BitVec.zero_or, BitVec.or_zero]

/-- Row 33 of the opcode table. -/
theorem RoundTrip.bkpt (cond imm12 imm4) : RoundTrip.Statement (.bkpt cond imm12 imm4) := fun hwf => by
  have h : (cond != 15) = true := hwf
  suffices H : ∀ x, x = 0x01200070#32 ||| put cond 28 ||| put imm12 8 ||| put imm4 0 → decodeWord x = .ok (.bkpt cond imm12 imm4) from H _ rfl
  intro x hx
  have hk : x &&& 0x0FF000F0 = 0x01200070 := by simp (disch := decide) only [hx, or_and, put_and_apart]; rfl
  have hc : bits x 28 4 ≠ 15 := by
    simp (disch := decide) only [hx, bits_or, bits_put_same, bits_put_apart, bits_ofNat, BitVec.reduceExtractLsb', BitVec.zero_or, BitVec.or_zero]
    exact bne_iff_ne.mp h
  refine (decode0 11 [] hk hc ⟨rfl, rfl⟩ rfl (by decide +kernel)
    (List.forall_mem_nil _) (by decide) rfl).trans ?_
  simp (disch := decide) only [hx, bits_or, bits_put_same, bits_put_apart, bits_ofNat, BitVec.reduceExtractLsb', BitVec.zero_or, BitVec.or_zero]

/-- Row 34 of the opcode table. -/
theorem RoundTrip.smc (cond imm4) : RoundTrip.Statement (.smc cond imm4) := fun hwf => by
  have h : (cond != 15) = true := hwf
  suffices H : ∀ x, x = 0x01600070#32 ||| put cond 28 ||| put imm4 0 → decodeWord x = .ok (.smc cond imm4) from H _ rfl
  intro x hx
  have hk : x &&& 0x0FFFFFF0 = 0x01600070 := by simp (disch := decide) only [hx, or_and, put_and_apart]; rfl
  have hc : bits x 28 4 ≠ 15 := by
    simp (disch := decide) only [hx, bits_or, bits_put_same, bits_put_apart, bits_ofNat, BitVec.reduceExtractLsb', BitVec.zero_or, BitVec.or_zero]
    exact bne_iff_ne.mp h
  refine (decode0 12 [] hk hc ⟨rfl, rfl⟩ rfl (by decide +kernel)
    (List.forall_mem_nil _) (by decide) rfl).trans ?_
  simp (disch := decide) only [hx, bits_or, bits_put_same, bits_put_apart, bits_ofNat, BitVec.reduceExtractLsb', BitVec.zero_or, BitVec.or_zero]

/-- Row 35 of the opcode table. -/
theorem RoundTrip.smlabb (cond rd ra rm rn) : RoundTrip.Statement (.smlabb cond rd ra rm rn) := fun hwf => by
  have h : (cond != 15) = true := hwf
  suffices H : ∀ x, x = 0x01000080#32 ||| put cond 28 ||| put rd 16 ||| put ra 12 ||| put rm 8 ||| put rn 0 → decodeWord x = .ok (.smlabb cond rd ra rm rn) from H _ rfl
  intro x hx
  have hk : x &&& 0x0FF000F0 = 0x01000080 := by simp (disch := decide) only [hx, or_and, put_and_apart]; rfl
  have hc : bits x 28 4 ≠ 15 := by
    simp (disch := decide) only [hx, bits_or, bits_put_same, bits_put_apart, bits_ofNat, BitVec.reduceExtractLsb', BitVec.zero_or, BitVec.or_zero]
    exact bne_iff_ne.mp h
  refine (decode0 13 [] hk hc ⟨rfl, rfl⟩ rfl (by decide +kernel)
    (List.forall_mem_nil _) (by decide) rfl).trans ?_
  simp (disch := decide) only [hx, bits_or, bits_put_same, bits_put_apart, bits_ofNat, BitVec.reduceExtractLsb', BitVec.zero_or, BitVec.or_zero]

/-- Row 36 of the opcode table. -/
theorem RoundTrip.smlabt (cond rd ra rm rn) : RoundTrip.Statement (.smlabt cond rd ra rm rn) := fun hwf => by
  have h : (cond != 15) = true := hwf
  suffices H : ∀ x, x = 0x010000C0#32 ||| put cond 28 ||| put rd 16 ||| put ra 12 ||| put rm 8 ||| put rn 0 → decodeWord x = .ok (.smlabt cond rd ra rm rn) from H _ rfl
  intro x hx
  have hk : x &&& 0x0FF000F0 = 0x010000C0 := by simp (disch := decide) only [hx, or_and, put_and_apart]; rfl
  have hc : bits x 28 4 ≠ 15 := by
    simp (disch := decide) only [hx, bits_or, bits_put_same, bits_put_apart, bits_ofNat, BitVec.reduceExtractLsb', BitVec.zero_or, BitVec.or_zero]
    exact bne_iff_ne.mp h
  refine (decode0 14 [] hk hc ⟨rfl, rfl⟩ rfl (by decide +kernel)
    (List.forall_mem_nil _) (by decide) rfl).trans ?_
  simp (disch := decide) only [hx, bits_or, bits_put_same, bits_put_apart, bits_ofNat, BitVec.reduceExtractLsb', BitVec.zero_or, BitVec.or_zero]

/-- Row 37 of the opcode table. -/
theorem RoundTrip.smlatb (cond rd ra rm rn) : RoundTrip.Statement (.smlatb cond rd ra rm rn) := fun hwf => by
  have h : (cond != 15) = true := hwf
  suffices H : ∀ x, x = 0x010000A0#32 ||| put cond 28 ||| put rd 16 ||| put ra 12 ||| put rm 8 ||| put rn 0 → decodeWord x = .ok (.smlatb cond rd ra rm rn) from H _ rfl
  intro x hx
  have hk : x &&& 0x0FF000F0 = 0x010000A0 := by simp (disch := decide) only [hx, or_and, put_and_apart]; rfl
  have hc : bits x 28 4 ≠ 15 := by
    simp (disch := decide) only [hx, bits_or, bits_put_same, bits_put_apart, bits_ofNat, BitVec.reduceExtractLsb', BitVec.zero_or, BitVec.or_zero]
    exact bne_iff_ne.mp h
  refine (decode0 15 [] hk hc ⟨rfl, rfl⟩ rfl (by decide +kernel)
    (List.forall_mem_nil _) (by decide) rfl).trans ?_
  simp (disch := decide) only [hx, bits_or, bits_put_same, bits_put_apart, bits_ofNat, BitVec.reduceExtractLsb', BitVec.zero_or, BitVec.or_zero]

/-- Row 38 of the opcode table. -/
theorem RoundTrip.smlatt (cond rd ra rm rn) : RoundTrip.Statement (.smlatt cond rd ra rm rn) := fun hwf => by
  have h : (cond != 15) = true := hwf
  suffices H : ∀ x, x = 0x010000E0#32 ||| put cond 28 ||| put rd 16 ||| put ra 12 ||| put rm 8 ||| put rn 0 → decodeWord x = .ok (.smlatt cond rd ra rm rn) from H _ rfl
  intro x hx
  have hk : x &&& 0x0FF000F0 = 0x010000E0 := by simp (disch := decide) only [hx, or_and, put_and_apart]; rfl
  have hc : bits x 28 4 ≠ 15 := by
    simp (disch := decide) only [hx, bits_or, bits_put_same, bits_put_apart, bits_ofNat, BitVec.reduceExtractLsb', BitVec.zero_or, BitVec.or_zero]
    exact bne_iff_ne.mp h
  refine (decode0 16 [] hk hc ⟨rfl, rfl⟩ rfl (by decide +kernel)
    (List.forall_mem_nil _) (by decide) rfl).trans ?_
  simp (disch := decide) only [hx, bits_or, bits_put_same, bits_put_apart, bits_ofNat, BitVec.reduceExtractLsb', BitVec.zero_or, BitVec.or_zero]

/-- Row 39 of the opcode table. -/
theorem RoundTrip.smlawb (cond rd ra rm rn) : RoundTrip.Statement (.smlawb cond rd ra rm rn) := fun hwf => by
  have h : (cond != 15) = true := hwf
  suffices H : ∀ x, x = 0x01200080#32 ||| put cond 28 ||| put rd 16 ||| put ra 12 ||| put rm 8 ||| put rn 0 → decodeWord x = .ok (.smlawb cond rd ra rm rn) from H _ rfl
  intro x hx
  have hk : x &&& 0x0FF000F0 = 0x01200080 := by simp (disch := decide) only [hx, or_and, put_and_apart]; rfl
  have hc : bits x 28 4 ≠ 15 := by
    simp (disch := decide) only [hx, bits_or, bits_put_same, bits_put_apart, bits_ofNat, BitVec.reduceExtractLsb', BitVec.zero_or, BitVec.or_zero]
    exact bne_iff_ne.mp h
  refine (decode0 17 [] hk hc ⟨rfl, rfl⟩ rfl (by decide +kernel)
    (List.forall_mem_nil _) (by decide) rfl).trans ?_
  simp (disch := decide) only [hx, bits_or, bits_put_same, bits_put_apart, bits_ofNat, BitVec.reduceExtractLsb', BitVec.zero_or, BitVec.or_zero]

/-- Row 40 of the opcode table. -/
theorem RoundTrip.smlawt (cond rd ra rm rn) : RoundTrip.Statement (.smlawt cond rd ra rm rn) := fun hwf => by
  have h : (cond != 15) = true := hwf
  suffices H : ∀ x, x = 0x012000C0#32 ||| put cond 28 ||| put rd 16 ||| put ra 12 ||| put rm 8 ||| put rn 0 → decodeWord x = .ok (.smlawt cond rd ra rm rn) from H _ rfl
  intro x hx
  have hk : x &&& 0x0FF000F0 = 0x012000C0 := by simp (disch := decide) only [hx, or_and, put_and_apart]; rfl
  have hc : bits x 28 4 ≠ 15 := by
    simp (disch := decide) only [hx, bits_or, bits_put_same, bits_put_apart, bits_ofNat, BitVec.reduceExtractLsb', BitVec.zero_or, BitVec.or_zero]
    exact bne_iff_ne.mp h
  refine (decode0 18 [] hk hc ⟨rfl, rfl⟩ rfl (by decide +kernel)
    (List.forall_mem_nil _) (by decide) rfl).trans ?_
  simp (disch := decide) only [hx, bits_or, bits_put_same, bits_put_apart, bits_ofNat, BitVec.reduceExtractLsb', BitVec.zero_or, BitVec.or_zero]

/-- Row 41 of the opcode table. -/
theorem RoundTrip.smulwb (cond rd rm rn) : RoundTrip.Statement (.smulwb cond rd rm rn) := fun hwf => by
  have h : (cond != 15) = true := hwf
  suffices H : ∀ x, x = 0x012000A0#32 ||| put cond 28 ||| put rd 16 ||| put rm 8 ||| put rn 0 → decodeWord x = .ok (.smulwb cond rd rm rn) from H _ rfl
  intro x hx
  have hk : x &&& 0x0FF0F0F0 = 0x012000A0 := by simp (disch := decide) only [hx, or_and, put_and_apart]; rfl
  have hc : bits x 28 4 ≠ 15 := by
    simp (disch := decide) only [hx, bits_or, bits_put_same, bits_put_apart, bits_ofNat, BitVec.reduceExtractLsb', BitVec.zero_or, BitVec.or_zero]
    exact bne_iff_ne.mp h
  refine (decode0 19 [] hk hc ⟨rfl, rfl⟩ rfl (by decide +kernel)
    (List.forall_mem_nil _) (by decide) rfl).trans ?_
  simp (disch := decide) only [hx, bits_or, bits_put_same, bits_put_apart, bits_ofNat, BitVec.reduceExtractLsb', BitVec.zero_or, BitVec.or_zero]

/-- Row 42 of the opcode table. -/
theorem RoundTrip.smulwt (cond rd rm rn) : RoundTrip.Statement (.smulwt cond rd rm rn) := fun hwf => by
  have h : (cond != 15) = true := hwf
  suffices H : ∀ x, x = 0x012000E0#32 ||| put cond 28 ||| put rd 16 ||| put rm 8 ||| put rn 0 → decodeWord x = .ok (.smulwt cond rd rm rn) from H _ rfl
  intro x hx
  have hk : x &&& 0x0FF0F0F0 = 0x012000E0 := by simp (disch := decide) only [hx, or_and, put_and_apart]; rfl
  have hc : bits x 28 4 ≠ 15 := by
    simp (disch := decide) only [hx, bits_or, bits_put_same, bits_put_apart, bits_ofNat, BitVec.reduceExtractLsb', BitVec.zero_or, BitVec.or_zero]
    exact bne_iff_ne.mp h
  refine (decode0 20 [] hk hc ⟨rfl, rfl⟩ rfl (by decide +kernel)
    (List.forall_mem_nil _) (by decide) rfl).trans ?_
  simp (disch := decide) only [hx, bits_or, bits_put_same, bits_put_apart, bits_ofNat, BitVec.reduceExtractLsb', BitVec.zero_or, BitVec.or_zero]

/-- Row 43 of the opcode table. -/
theorem RoundTrip.smlalbb (cond rdHi rdLo rm rn) : RoundTrip.Statement (.smlalbb cond rdHi rdLo rm rn) := fun hwf => by
  have h : (cond != 15) = true := hwf
  suffices H : ∀ x, x = 0x01400080#32 ||| put cond 28 ||| put rdHi 16 ||| put rdLo 12 ||| put rm 8 ||| put rn 0 → decodeWord x = .ok (.smlalbb cond rdHi rdLo rm rn) from H _ rfl
  intro x hx
  have hk : x &&& 0x0FF000F0 = 0x01400080 := by simp (disch := decide) only [hx, or_and, put_and_apart]; rfl
  have hc : bits x 28 4 ≠ 15 := by
    simp (disch := decide) only [hx, bits_or, bits_put_same, bits_put_apart, bits_ofNat, BitVec.reduceExtractLsb', BitVec.zero_or, BitVec.or_zero]
    exact bne_iff_ne.mp h
  refine (decode0 21 [] hk hc ⟨rfl, rfl⟩ rfl (by decide +kernel)
    (List.forall_mem_nil _) (by decide) rfl).trans ?_
  simp (disch := decide) only [hx, bits_or, bits_put_same, bits_put_apart, bits_ofNat, BitVec.reduceExtractLsb', BitVec.zero_or, BitVec.or_zero]

/-- Row 44 of the opcode table. -/
theorem RoundTrip.smlalbt (cond rdHi rdLo rm rn) : RoundTrip.Statement (.smlalbt cond rdHi rdLo rm rn) := fun hwf => by
  have h : (cond != 15) = true := hwf
  suffices H : ∀ x, x = 0x014000C0#32 ||| put cond 28 ||| put rdHi 16 ||| put rdLo 12 ||| put rm 8 ||| put rn 0 → decodeWord x = .ok (.smlalbt cond rdHi rdLo rm rn) from H _ rfl
  intro x hx
  have hk : x &&& 0x0FF000F0 = 0x014000C0 := by simp (disch := decide) only [hx, or_and, put_and_apart]; rfl
  have hc : bits x 28 4 ≠ 15 := by
    simp (disch := decide) only [hx, bits_or, bits_put_same, bits_put_apart, bits_ofNat, BitVec.reduceExtractLsb', BitVec.zero_or, BitVec.or_zero]
    exact bne_iff_ne.mp h
  refine (decode0 22 [] hk hc ⟨rfl, rfl⟩ rfl (by decide +kernel)
    (List.forall_mem_nil _) (by decide) rfl).trans ?_
  simp (disch := decide) only [hx, bits_or, bits_put_same, bits_put_apart, bits_ofNat, BitVec.reduceExtractLsb', BitVec.zero_or, BitVec.or_zero]

/-- Row 45 of the opcode table. -/
theorem RoundTrip.smlaltb (cond rdHi rdLo rm rn) : RoundTrip.Statement (.smlaltb cond rdHi rdLo rm rn) := fun hwf => by
  have h : (cond != 15) = true := hwf
  suffices H : ∀ x, x = 0x014000A0#32 ||| put cond 28 ||| put rdHi 16 ||| put rdLo 12 ||| put rm 8 ||| put rn 0 → decodeWord x = .ok (.smlaltb cond rdHi rdLo rm rn) from H _ rfl
  intro x hx
  have hk : x &&& 0x0FF000F0 = 0x014000A0 := by simp (disch := decide) only [hx, or_and, put_and_apart]; rfl
  have hc : bits x 28 4 ≠ 15 := by
    simp (disch := decide) only [hx, bits_or, bits_put_same, bits_put_apart, bits_ofNat, BitVec.reduceExtractLsb', BitVec.zero_or, BitVec.or_zero]
    exact bne_iff_ne.mp h
  refine (decode0 23 [] hk hc ⟨rfl, rfl⟩ rfl (by decide +kernel)
    (List.forall_mem_nil _) (by decide) rfl).trans ?_
  simp (disch := decide) only [hx, bits_or, bits_put_same, bits_put_apart, bits_ofNat, BitVec.reduceExtractLsb', BitVec.zero_or, BitVec.or_zero]

/-- Row 46 of the opcode table. -/
theorem RoundTrip.smlaltt (cond rdHi rdLo rm rn) : RoundTrip.Statement (.smlaltt cond rdHi rdLo rm rn) := fun hwf => by
  have h : (cond != 15) = true := hwf
  suffices H : ∀ x, x = 0x014000E0#32 ||| put cond 28 ||| put rdHi 16 ||| put rdLo 12 ||| put rm 8 ||| put rn 0 → decodeWord x = .ok (.smlaltt cond rdHi rdLo rm rn) from H _ rfl
  intro x hx
  have hk : x &&& 0x0FF000F0 = 0x014000E0 := by simp (disch := decide) only [hx, or_and, put_and_apart]; rfl
  have hc : bits x 28 4 ≠ 15 := by
    simp (disch := decide) only [hx, bits_or, bits_put_same, bits_put_apart, bits_ofNat, BitVec.reduceExtractLsb', BitVec.zero_or, BitVec.or_zero]
    exact bne_iff_ne.mp h
  refine (decode0 24 [] hk hc ⟨rfl, rfl⟩ rfl (by decide +kernel)
    (List.forall_mem_nil _) (by decide) rfl).trans ?_
  simp (disch := decide) only [hx, bits_or, bits_put_same, bits_put_apart, bits_ofNat, BitVec.reduceExtractLsb', BitVec.zero_or, BitVec.or_zero]

/-- Row 47 of the opcode table. -/
theorem RoundTrip.smulbb (cond rd rm rn) : RoundTrip.Statement (.smulbb cond rd rm rn) := fun hwf => by
  have h : (cond != 15) = true := hwf
  suffices H : ∀ x, x = 0x01600080#32 ||| put cond 28 ||| put rd 16 ||| put rm 8 ||| put rn 0 → decodeWord x = .ok (.smulbb cond rd rm rn) from H _ rfl
  intro x hx
  have hk : x &&& 0x0FF0F0F0 = 0x01600080 := by simp (disch := decide) only [hx, or_and, put_and_apart]; rfl
  have hc : bits x 28 4 ≠ 15 := by
    simp (disch := decide) only [hx, bits_or, bits_put_same, bits_put_apart, bits_ofNat, BitVec.reduceExtractLsb', BitVec.zero_or, BitVec.or_zero]
    exact bne_iff_ne.mp h
  refine (decode0 25 [] hk hc ⟨rfl, rfl⟩ rfl (by decide +kernel)
    (List.forall_mem_nil _) (by decide) rfl).trans ?_
  simp (disch := decide) only [hx, bits_or, bits_put_same, bits_put_apart, bits_ofNat, BitVec.reduceExtractLsb', BitVec.zero_or, BitVec.or_zero]

/-- Row 48 of the opcode table. -/
theorem RoundTrip.smulbt (cond rd rm rn) : RoundTrip.Statement (.smulbt cond rd rm rn) := fun hwf => by
  have h : (cond != 15) = true := hwf
  suffices H : ∀ x, x = 0x016000C0#32 ||| put cond 28 ||| put rd 16 ||| put rm 8 ||| put rn 0 → decodeWord x = .ok (.smulbt cond rd rm rn) from H _ rfl
  intro x hx
  have hk : x &&& 0x0FF0F0F0 = 0x016000C0 := by simp (disch := decide) only [hx, or_and, put_and_apart]; rfl
  have hc : bits x 28 4 ≠ 15 := by
    simp (disch := decide) only [hx, bits_or, bits_put_same, bits_put_apart, bits_ofNat, BitVec.reduceExtractLsb', BitVec.zero_or, BitVec.or_zero]
    exact bne_iff_ne.mp h
  refine (decode0 26 [] hk hc ⟨rfl, rfl⟩ rfl (by decide +kernel)
    (List.forall_mem_nil _) (by decide) rfl).trans ?_
  simp (disch := decide) only [hx, bits_or, bits_put_same, bits_put_apart, bits_ofNat, BitVec.reduceExtractLsb', BitVec.zero_or, BitVec.or_zero]

/-- Row 49 of the opcode table. -/
theorem RoundTrip.smultb (cond rd rm rn) : RoundTrip.Statement (.smultb cond rd rm rn) := fun hwf => by
  have h : (cond != 15) = true := hwf
  suffices H : ∀ x, x = 0x016000A0#32 ||| put cond 28 ||| put rd 16 ||| put rm 8 ||| put rn 0 → decodeWord x = .ok (.smultb cond rd rm rn) from H _ rfl
  intro x hx
  have hk : x &&& 0x0FF0F0F0 = 0x016000A0 := by simp (disch := decide) only [hx, or_and, put_and_apart]; rfl
  have hc : bits x 28 4 ≠ 15 := by
    simp (disch := decide) only [hx, bits_or, bits_put_same, bits_put_apart, bits_ofNat, BitVec.reduceExtractLsb', BitVec.zero_or, BitVec.or_zero]
    exact bne_iff_ne.mp h
  refine (decode0 27 [] hk hc ⟨rfl, rfl⟩ rfl (by decide +kernel)
    (List.forall_mem_nil _) (by decide) rfl).trans ?_
  simp (disch := decide) only [hx, bits_or, bits_put_same, bits_put_apart, bits_ofNat, BitVec.reduceExtractLsb', BitVec.zero_or, BitVec.or_zero]

/-- Row 50 of the opcode table. -/
theorem RoundTrip.smultt (cond rd rm rn) : RoundTrip.Statement (.smultt cond rd rm rn) := fun hwf => by
  have h : (cond != 15) = true := hwf
  suffices H : ∀ x, x = 0x016000E0#32 ||| put cond 28 ||| put rd 16 ||| put rm 8 ||| put rn 0 → decodeWord x = .ok (.smultt cond rd rm rn) from H _ rfl
  intro x hx
  have hk : x &&& 0x0FF0F0F0 = 0x016000E0 := by simp (disch := decide) only [hx, or_and, put_and_apart]; rfl
  have hc : bits x 28 4 ≠ 15 := by
    simp (disch := decide) only [hx, bits_or, bits_put_same, bits_put_apart, bits_ofNat, BitVec.reduceExtractLsb', BitVec.zero_or, BitVec.or_zero]
    exact bne_iff_ne.mp h
  refine (decode0 28 [] hk hc ⟨rfl, rfl⟩ rfl (by decide +kernel)
    (List.forall_mem_nil _) (by decide) rfl).trans ?_
  simp (disch := decide) only [hx, bits_or, bits_put_same, bits_put_apart, bits_ofNat, BitVec.reduceExtractLsb', BitVec.zero_or, BitVec.or_zero]

/-- Row 51 of the opcode table. -/
theorem RoundTrip.swp (cond rn rt rt2) : RoundTrip.Statement (.swp cond rn rt rt2) := fun hwf => by
  have h : (cond != 15) = true := hwf
  suffices H : ∀ x, x = 0x01000090#32 ||| put cond 28 ||| put rn 16 ||| put rt 12 ||| put rt2 0 → decodeWord x = .ok (.swp cond rn rt rt2) from H _ rfl
  intro x hx
  have hk : x &&& 0x0FF00FF0 = 0x01000090 := by simp (disch := decide) only [hx, or_and, put_and_apart]; rfl
  have hc : bits x 28 4 ≠ 15 := by
    simp (disch := decide) only [hx, bits_or, bits_put_same, bits_put_apart, bits_ofNat, BitVec.reduceExtractLsb', BitVec.zero_or, BitVec.or_zero]
    exact bne_iff_ne.mp h
  refine (decode0 29 [] hk hc ⟨rfl, rfl⟩ rfl (by decide +kernel)
    (List.forall_mem_nil _) (by decide) rfl).trans ?_
  simp (disch := decide) only [hx, bits_or, bits_put_same, bits_put_apart, bits_ofNat, BitVec.reduceExtractLsb', BitVec.zero_or, BitVec.or_zero]

/-- Row 52 of the opcode table. -/
theorem RoundTrip.swpb (cond rn rt rt2) : RoundTrip.Statement (.swpb cond rn rt rt2) := fun hwf => by
  have h : (cond != 15) = true := hwf
  suffices H : ∀ x, x = 0x01400090#32 ||| put cond 28 ||| put rn 16 ||| put rt 12 ||| put rt2 0 → decodeWord x = .ok (.swpb cond rn rt rt2) from H _ rfl
  intro x hx
  have hk : x &&& 0x0FF00FF0 = 0x01400090 := by simp (disch := decide) only [hx, or_and, put_and_apart]; rfl
  have hc : bits x 28 4 ≠ 15 := by
    simp (disch := decide) only [hx, bits_or, bits_put_same, bits_put_apart, bits_ofNat, BitVec.reduceExtractLsb', BitVec.zero_or, BitVec.or_zero]
    exact bne_iff_ne.mp h
  refine (decode0 30 [] hk hc ⟨rfl, rfl⟩ rfl (by decide +kernel)
    (List.forall_mem_nil _) (by decide) rfl).trans ?_
  simp (disch := decide) only [hx, bits_or, bits_put_same, bits_put_apart, bits_ofNat, BitVec.reduceExtractLsb', BitVec.zero_or, BitVec.or_zero]

/-- Row 53 of the opcode table. -/
theorem RoundTrip.ldrex (cond rn rt) : RoundTrip.Statement (.ldrex cond rn rt) := fun hwf => by
  have h : (cond != 15) = true := hwf
  suffices H : ∀ x, x = 0x01900F9F#32 ||| put cond 28 ||| put rn 16 ||| put rt 12 → decodeWord x = .ok (.ldrex cond rn rt) from H _ rfl
  intro x hx
  have hk : x &&& 0x0FF00FFF = 0x01900F9F := by simp (disch := decide) only [hx, or_and, put_and_apart]; rfl
  have hc : bits x 28 4 ≠ 15 := by
    simp (disch := decide) only [hx, bits_or, bits_put_same, bits_put_apart, bits_ofNat, BitVec.reduceExtractLsb', BitVec.zero_or, BitVec.or_zero]
    exact bne_iff_ne.mp h
  refine (decode0 31 [] hk hc ⟨rfl, rfl⟩ rfl (by decide +kernel)
    (List.forall_mem_nil _) (by decide) rfl).trans ?_
  simp (disch := decide) only [hx, bits_or, bits_put_same, bits_put_apart, bits_ofNat, BitVec.reduceExtractLsb', BitVec.zero_or, BitVec.or_zero]

/-- Row 54 of the opcode table. -/
theorem RoundTrip.ldrexd (cond rn rt) : RoundTrip.Statement (.ldrexd cond rn rt) := fun hwf => by
  have h : (cond != 15) = true := hwf
  suffices H : ∀ x, x = 0x01B00F9F#32 ||| put cond 28 ||| put rn 16 ||| put rt 12 → decodeWord x = .ok (.ldrexd cond rn rt) from H _ rfl
  intro x hx
  have hk : x &&& 0x0FF00FFF = 0x01B00F9F := by simp (disch := decide) only [hx, or_and, put_and_apart]; rfl
  have hc : bits x 28 4 ≠ 15 := by
    simp (disch := decide) only [hx, bits_or, bits_put_same, bits_put_apart, bits_ofNat, BitVec.reduceExtractLsb', BitVec.zero_or, BitVec.or_zero]
    exact bne_iff_ne.mp h
  refine (decode0 32 [] hk hc ⟨rfl, rfl⟩ rfl (by decide +kernel)
    (List.forall_mem_nil _) (by decide) rfl).trans ?_
  simp (disch := decide) only [hx, bits_or, bits_put_same, bits_put_apart, bits_ofNat, BitVec.reduceExtractLsb', BitVec.zero_or, BitVec.or_zero]

/-- Row 55 of the opcode table. -/
theorem RoundTrip.ldrexb (cond rn rt) : RoundTrip.Statement (.ldrexb cond rn rt) := fun hwf => by
  have h : (cond != 15) = true := hwf
  suffices H : ∀ x, x = 0x01D00F9F#32 ||| put cond 28 ||| put rn 16 ||| put rt 12 → decodeWord x = .ok (.ldrexb cond rn rt) from H _ rfl
  intro x hx
  have hk : x &&& 0x0FF00FFF = 0x01D00F9F := by simp (disch := decide) only [hx, or_and, put_and_apart]; rfl
  have hc : bits x 28 4 ≠ 15 := by
    simp (disch := decide) only [hx, bits_or, bits_put_same, bits_put_apart, bits_ofNat, BitVec.reduceExtractLsb', BitVec.zero_or, BitVec.or_zero]
    exact bne_iff_ne.mp h
  refine (decode0 33 [] hk hc ⟨rfl, rfl⟩ rfl (by decide +kernel)
    (List.forall_mem_nil _) (by decide) rfl).trans ?_
  simp (disch := decide) only [hx, bits_or, bits_put_same, bits_put_apart, bits_ofNat, BitVec.reduceExtractLsb', BitVec.zero_or, BitVec.or_zero]

/-- Row 56 of the opcode table. -/
theorem RoundTrip.ldrexh (cond rn rt) : RoundTrip.Statement (.ldrexh cond rn rt) := fun hwf => by
  have h : (cond != 15) = true := hwf
  suffices H : ∀ x, x = 0x01F00F9F#32 ||| put cond 28 ||| put rn 16 ||| put rt 12 → decodeWord x = .ok (.ldrexh cond rn rt) from H _ rfl
  intro x hx
  have hk : x &&& 0x0FF00FFF = 0x01F00F9F := by simp (disch := decide) only [hx, or_and, put_and_apart]; rfl
  have hc : bits x 28 4 ≠ 15 := by
    simp (disch := decide) only [hx, bits_or, bits_put_same, bits_put_apart, bits_ofNat, BitVec.reduceExtractLsb', BitVec.zero_or, BitVec.or_zero]
    exact bne_iff_ne.mp h
  refine (decode0 34 [] hk hc ⟨rfl, rfl⟩ rfl (by decide +kernel)
    (List.forall_mem_nil _) (by decide) rfl).trans ?_
  simp (disch := decide) only [hx, bits_or, bits_put_same, bits_put_apart, bits_ofNat, BitVec.reduceExtractLsb', BitVec.zero_or, BitVec.or_zero]

/-- Row 57 of the opcode table. -/
theorem RoundTrip.strex (cond rn rd rt) : RoundTrip.Statement (.strex cond rn rd rt) := fun hwf => by
  have h : (cond != 15) = true := hwf
  suffices H : ∀ x, x = 0x01800F90#32 ||| put cond 28 ||| put rn 16 ||| put rd 12 ||| put rt 0 → decodeWord x = .ok (.strex cond rn rd rt) from H _ rfl
  intro x hx
  have hk : x &&& 0x0FF00FF0 = 0x01800F90 := by simp (disch := decide) only [hx, or_and, put_and_apart]; rfl
  have hc : bits x 28 4 ≠ 15 := by
    simp (disch := decide) only [hx, bits_or, bits_put_same, bits_put_apart, bits_ofNat, BitVec.reduceExtractLsb', BitVec.zero_or, BitVec.or_zero]
    exact bne_iff_ne.mp h
  refine (decode0 35 [] hk hc ⟨rfl, rfl⟩ rfl (by decide +kernel)
    (List.forall_mem_nil _) (by decide) rfl).trans ?_
  simp (disch := decide) only [hx, bits_or, bits_put_same, bits_put_apart, bits_ofNat, BitVec.reduceExtractLsb', BitVec.zero_or, BitVec.or_zero]

/-- Row 58 of the opcode table. -/
theorem RoundTrip.strexd (cond rn rd rt) : RoundTrip.Statement (.strexd cond rn rd rt) := fun hwf => by
  have h : (cond != 15) = true := hwf
  suffices H : ∀ x, x = 0x01A00F90#32 ||| put cond 28 ||| put rn 16 ||| put rd 12 ||| put rt 0 → decodeWord x = .ok (.strexd cond rn rd rt) from H _ rfl
  intro x hx
  have hk : x &&& 0x0FF00FF0 = 0x01A00F90 := by simp (disch := decide) only [hx, or_and, put_and_apart]; rfl
  have hc : bits x 28 4 ≠ 15 := by
    simp (disch := decide) only [hx, bits_or, bits_put_same, bits_put_apart, bits_ofNat, BitVec.reduceExtractLsb', BitVec.zero_or, BitVec.or_zero]
    exact bne_iff_ne.mp h
  refine (decode0 36 [] hk hc ⟨rfl, rfl⟩ rfl (by decide +kernel)
    (List.forall_mem_nil _) (by decide) rfl).trans ?_
  simp (disch := decide) only [hx, bits_or, bits_put_same, bits_put_apart, bits_ofNat, BitVec.reduceExtractLsb', BitVec.zero_or, BitVec.or_zero]

/-- Row 59 of the opcode table. -/
theorem RoundTrip.strexb (cond rn rd rt) : RoundTrip.Statement (.strexb cond rn rd rt) := fun hwf => by
  have h : (cond != 15) = true := hwf
  suffices H : ∀ x, x = 0x01C00F90#32 ||| put cond 28 ||| put rn 16 ||| put rd 12 ||| put rt 0 → decodeWord x = .ok (.strexb cond rn rd rt) from H _ rfl
  intro x hx
  have hk : x &&& 0x0FF00FF0 = 0x01C00F90 := by simp (disch := decide) only [hx, or_and, put_and_apart]; rfl
  have hc : bits x 28 4 ≠ 15 := by
    simp (disch := decide) only [hx, bits_or, bits_put_same, bits_put_apart, bits_ofNat, BitVec.reduceExtractLsb', BitVec.zero_or, BitVec.or_zero]
    exact bne_iff_ne.mp h
  refine (decode0 37 [] hk hc ⟨rfl, rfl⟩ rfl (by decide +kernel)
    (List.forall_mem_nil _) (by decide) rfl).trans ?_
  simp (disch := decide) only [hx, bits_or, bits_put_same, bits_put_apart, bits_ofNat, BitVec.reduceExtractLsb', BitVec.zero_or, BitVec.or_zero]

/-- Row 60 of the opcode table. -/
theorem RoundTrip.strexh (cond rn rd rt) : RoundTrip.Statement (.strexh cond rn rd rt) := fun hwf => by
  have h : (cond != 15) = true := hwf
  suffices H : ∀ x, x = 0x01E00F90#32 ||| put cond 28 ||| put rn 16 ||| put rd 12 ||| put rt 0 → decodeWord x = .ok (.strexh cond rn rd rt) from H _ rfl
  intro x hx
  have hk : x &&& 0x0FF00FF0 = 0x01E00F90 := by simp (disch := decide) only [hx, or_and, put_and_apart]; rfl
  have hc : bits x 28 4 ≠ 15 := by
    simp (disch := decide) only [hx, bits_or, bits_put_same, bits_put_apart, bits_ofNat, BitVec.reduceExtractLsb', BitVec.zero_or, BitVec.or_zero]
    exact bne_iff_ne.mp h
  refine (decode0 38 [] hk hc ⟨rfl, rfl⟩ rfl (by decide +kernel)
    (List.forall_mem_nil _) (by decide) rfl).trans ?_
  simp (disch := decide) only [hx, bits_or, bits_put_same, bits_put_apart, bits_ofNat, BitVec.reduceExtractLsb', BitVec.zero_or, BitVec.or_zero]

/-- Row 61 of the opcode table. -/
theorem RoundTrip.mul (cond sf rd rm rn) : RoundTrip.Statement (.mul cond sf rd rm rn) := fun hwf => by
  have h : (cond != 15) = true := hwf
  suffices H : ∀ x, x = 0x00000090#32 ||| put cond 28 ||| put sf 20 ||| put rd 16 ||| put rm 8 ||| put rn 0 → decodeWord x = .ok (.mul cond sf rd rm rn) from H _ rfl
  intro x hx
  have hk : x &&& 0x0FE0F0F0 = 0x00000090 := by simp (disch := decide) only [hx, or_and, put_and_apart]; rfl
  have hc : bits x 28 4 ≠ 15 := by
    simp (disch := decide) only [hx, bits_or, bits_put_same, bits_put_apart, bits_ofNat, BitVec.reduceExtractLsb', BitVec.zero_or, BitVec.or_zero]
    exact bne_iff_ne.mp h
  refine (decode0 39 [] hk hc ⟨rfl, rfl⟩ rfl (by decide +kernel)
    (List.forall_mem_nil _) (by decide) rfl).trans ?_
  simp (disch := decide) only [hx, bits_or, bits_put_same, bits_put_apart, bits_ofNat, BitVec.reduceExtractLsb', BitVec.zero_or, BitVec.or_zero]

/-- Row 62 of the opcode table. -/
theorem RoundTrip.mla (cond sf rd ra rm rn) : RoundTrip.Statement (.mla cond sf rd ra rm rn) := fun hwf => by
  have h : (cond != 15) = true := hwf
  suffices H : ∀ x, x = 0x00200090#32 ||| put cond 28 ||| put sf 20 ||| put rd 16 ||| put ra 12 ||| put rm 8 ||| put rn 0 → decodeWord x = .ok (.mla cond sf rd ra rm rn) from H _ rfl
  intro x hx
  have hk : x &&& 0x0FE000F0 = 0x00200090 := by simp (disch := decide) only [hx, or_and, put_and_apart]; rfl
  have hc : bits x 28 4 ≠ 15 := by
    simp (disch := decide) only [hx, bits_or, bits_put_same, bits_put_apart, bits_ofNat, BitVec.reduceExtractLsb', BitVec.zero_or, BitVec.or_zero]
    exact bne_iff_ne.mp h
  refine (decode0 40 [] hk hc ⟨rfl, rfl⟩ rfl (by decide +kernel)
    (List.forall_mem_nil _) (by decide) rfl).trans ?_
  simp (disch := decide) only [hx, bits_or, bits_put_same, bits_put_apart, bits_ofNat, BitVec.reduceExtractLsb', BitVec.zero_or, BitVec.or_zero]

/-- Row 63 of the opcode table. -/
theorem RoundTrip.umaal (cond rdHi rdLo rm rn) : RoundTrip.Statement (.umaal cond rdHi rdLo rm rn) := fun hwf => by
  have h : (cond != 15) = true := hwf
  suffices H : ∀ x, x = 0x00400090#32 ||| put cond 28 ||| put rdHi 16 ||| put rdLo 12 ||| put rm 8 ||| put rn 0 → decodeWord x = .ok (.umaal cond rdHi rdLo rm rn) from H _ rfl
  intro x hx
  have hk : x &&& 0x0FF000F0 = 0x00400090 := by simp (disch := decide) only [hx, or_and, put_and_apart]; rfl
  have hc : bits x 28 4 ≠ 15 := by
    simp (disch := decide) only [hx, bits_or, bits_put_same, bits_put_apart, bits_ofNat, BitVec.reduceExtractLsb', BitVec.zero_or, BitVec.or_zero]
    exact bne_iff_ne.mp h
  refine (decode0 41 [] hk hc ⟨rfl, rfl⟩ rfl (by decide +kernel)
    (List.forall_mem_nil _) (by decide) rfl).trans ?_
  simp (disch := decide) only [hx, bits_or, bits_put_same, bits_put_apart, bits_ofNat, BitVec.reduceExtractLsb', BitVec.zero_or, BitVec.or_zero]

/-- Row 64 of the opcode table. -/
theorem RoundTrip.mls (cond rd ra rm rn) : RoundTrip.Statement (.mls cond rd ra rm rn) := fun hwf => by
  have h : (cond != 15) = true := hwf
  suffices H : ∀ x, x = 0x00600090#32 ||| put cond 28 ||| put rd 16 ||| put ra 12 ||| put rm 8 ||| put rn 0 → decodeWord x = .ok (.mls cond rd ra rm rn) from H _ rfl
  intro x hx
  have hk : x &&& 0x0FF000F0 = 0x00600090 := by simp (disch := decide) only [hx, or_and, put_and_apart]; rfl
  have hc : bits x 28 4 ≠ 15 := by
    simp (disch := decide) only [hx, bits_or, bits_put_same, bits_put_apart, bits_ofNat, BitVec.reduceExtractLsb', BitVec.zero_or, BitVec.or_zero]
    exact bne_iff_ne.mp h
  refine (decode0 42 [] hk hc ⟨rfl, rfl⟩ rfl (by decide +kernel)
    (List.forall_mem_nil _) (by decide) rfl).trans ?_
  simp (disch := decide) only [hx, bits_or, bits_put_same, bits_put_apart, bits_ofNat, BitVec.reduceExtractLsb', BitVec.zero_or, BitVec.or_zero]

/-- Row 65 of the opcode table. -/
theorem RoundTrip.umull (cond sf rdHi rdLo rm rn) : RoundTrip.Statement (.umull cond sf rdHi rdLo rm rn) := fun hwf => by
  have h : (cond != 15) = true := hwf
  suffices H : ∀ x, x = 0x00800090#32 ||| put cond 28 ||| put sf 20 ||| put rdHi 16 ||| put rdLo 12 ||| put rm 8 ||| put rn 0 → decodeWord x = .ok (.umull cond sf rdHi rdLo rm rn) from H _ rfl
  intro x hx
  have hk : x &&& 0x0FE000F0 = 0x00800090 := by simp (disch := decide) only [hx, or_and, put_and_apart]; rfl
  have hc : bits x 28 4 ≠ 15 := by
    simp (disch := decide) only [hx, bits_or, bits_put_same, bits_put_apart, bits_ofNat, BitVec.reduceExtractLsb', BitVec.zero_or, BitVec.or_zero]
    exact bne_iff_ne.mp h
  refine (decode0 43 [] hk hc ⟨rfl, rfl⟩ rfl (by decide +kernel)
    (List.forall_mem_nil _) (by decide) rfl).trans ?_
  simp (disch := decide) only [hx, bits_or, bits_put_same, bits_put_apart, bits_ofNat, BitVec.reduceExtractLsb', BitVec.zero_or, BitVec.or_zero]

/-- Row 66 of the opcode table. -/
theorem RoundTrip.umlal (cond sf rdHi rdLo rm rn) : RoundTrip.Statement (.umlal cond sf rdHi rdLo rm rn) := fun hwf => by
  have h : (cond != 15) = true := hwf
  suffices H : ∀ x, x = 0x00A00090#32 ||| put cond 28 ||| put sf 20 ||| put rdHi 16 ||| put rdLo 12 ||| put rm 8 ||| put rn 0 → decodeWord x = .ok (.umlal cond sf rdHi rdLo rm rn) from H _ rfl
  intro x hx
  have hk : x &&& 0x0FE000F0 = 0x00A00090 := by simp (disch := decide) only [hx, or_and, put_and_apart]; rfl
  have hc : bits x 28 4 ≠ 15 := by
    simp (disch := decide) only [hx, bits_or, bits_put_same, bits_put_apart, bits_ofNat, BitVec.reduceExtractLsb', BitVec.zero_or, BitVec.or_zero]
    exact bne_iff_ne.mp h
  refine (decode0 44 [] hk hc ⟨rfl, rfl⟩ rfl (by decide +kernel)
    (List.forall_mem_nil _) (by decide) rfl).trans ?_
  simp (disch := decide) only [hx, bits_or, bits_put_same, bits_put_apart, bits_ofNat, BitVec.reduceExtractLsb', BitVec.zero_or, BitVec.or_zero]

/-- Row 67 of the opcode table. -/
theorem RoundTrip.smull (cond sf rdHi rdLo rm rn) : RoundTrip.Statement (.smull cond sf rdHi rdLo rm rn) := fun hwf => by
  have h : (cond != 15) = true := hwf
  suffices H : ∀ x, x = 0x00C00090#32 ||| put cond 28 ||| put sf 20 ||| put rdHi 16 ||| put rdLo 12 ||| put rm 8 ||| put rn 0 → decodeWord x = .ok (.smull cond sf rdHi rdLo rm rn) from H _ rfl
  intro x hx
  have hk : x &&& 0x0FE000F0 = 0x00C00090 := by simp (disch := decide) only [hx, or_and, put_and_apart]; rfl
  have hc : bits x 28 4 ≠ 15 := by
    simp (disch := decide) only [hx, bits_or, bits_put_same, bits_put_apart, bits_ofNat, BitVec.reduceExtractLsb', BitVec.zero_or, BitVec.or_zero]
    exact bne_iff_ne.mp h
  refine (decode0 45 [] hk hc ⟨rfl, rfl⟩ rfl (by decide +kernel)
    (List.forall_mem_nil _) (by decide) rfl).trans ?_
  simp (disch := decide) only [hx, bits_or, bits_put_same, bits_put_apart, bits_ofNat, BitVec.reduceExtractLsb', BitVec.zero_or, BitVec.or_zero]

/-- Row 68 of the opcode table. -/
theorem RoundTrip.smlal (cond sf rdHi rdLo rm rn) : RoundTrip.Statement (.smlal cond sf rdHi rdLo rm rn) := fun hwf => by
  have h : (cond != 15) = true := hwf
  suffices H : ∀ x, x = 0x00E00090#32 ||| put cond 28 ||| put sf 20 ||| put rdHi 16 ||| put rdLo 12 ||| put rm 8 ||| put rn 0 → decodeWord x = .ok (.smlal cond sf rdHi rdLo rm rn) from H _ rfl
  intro x hx
  have hk : x &&& 0x0FE000F0 = 0x00E00090 := by simp (disch := decide) only [hx, or_and, put_and_apart]; rfl
  have hc : bits x 28 4 ≠ 15 := by
    simp (disch := decide) only [hx, bits_or, bits_put_same, bits_put_apart, bits_ofNat, BitVec.reduceExtractLsb', BitVec.zero_or, BitVec.or_zero]
    exact bne_iff_ne.mp h
  refine (decode0 46 [] hk hc ⟨rfl, rfl⟩ rfl (by decide +kernel)
    (List.forall_mem_nil _) (by decide) rfl).trans ?_
  simp (disch := decide) only [hx, bits_or, bits_put_same, bits_put_apart, bits_ofNat, BitVec.reduceExtractLsb', BitVec.zero_or, BitVec.or_zero]

/-- Row 69 of the opcode table. -/
theorem RoundTrip.strhtImm (cond u rn rt imm4H imm4L) : RoundTrip.Statement (.strhtImm cond u rn rt imm4H imm4L) := fun hwf => by
  have h : (cond != 15) = true := hwf
  suffices H : ∀ x, x = 0x006000B0#32 ||| put cond 28 ||| put u 23 ||| put rn 16 ||| put rt 12 ||| put imm4H 8 ||| put imm4L 0 → decodeWord x = .ok (.strhtImm cond u rn rt imm4H imm4L) from H _ rfl
  intro x hx
  have hk : x &&& 0x0F7000F0 = 0x006000B0 := by simp (disch := decide) only [hx, or_and, put_and_apart]; rfl
  have hc : bits x 28 4 ≠ 15 := by
    simp (disch := decide) only [hx, bits_or, bits_put_same, bits_put_apart, bits_ofNat, BitVec.reduceExtractLsb', BitVec.zero_or, BitVec.or_zero]
    exact bne_iff_ne.mp h
  refine (decode0 47 [] hk hc ⟨rfl, rfl⟩ rfl (by decide +kernel)
    (List.forall_mem_nil _) (by decide) rfl).trans ?_
  simp (disch := decide) only [hx, bits_or, bits_put_same, bits_put_apart, bits_ofNat, BitVec.reduceExtractLsb', BitVec.zero_or, BitVec.or_zero]

/-- Row 70 of the opcode table. -/
theorem RoundTrip.strhtReg (cond u rn rt rm) : RoundTrip.Statement (.strhtReg cond u rn rt rm) := fun hwf => by
  have h : (cond != 15) = true := hwf
  suffices H : ∀ x, x = 0x002000B0#32 ||| put cond 28 ||| put u 23 ||| put rn 16 ||| put rt 12 ||| put rm 0 → decodeWord x = .ok (.strhtReg cond u rn rt rm) from H _ rfl
  intro x hx
  have hk : x &&& 0x0F700FF0 = 0x002000B0 := by simp (disch := decide) only [hx, or_and, put_and_apart]; rfl
  have hc : bits x 28 4 ≠ 15 := by
    simp (disch := decide) only [hx, bits_or, bits_put_same, bits_put_apart, bits_ofNat, BitVec.reduceExtractLsb', BitVec.zero_or, BitVec.or_zero]
    exact bne_iff_ne.mp h
  refine (decode0 48 [] hk hc ⟨rfl, rfl⟩ rfl (by decide +kernel)
    (List.forall_mem_nil _) (by decide) rfl).trans ?_
  simp (disch := decide) only [hx, bits_or, bits_put_same, bits_put_apart, bits_ofNat, BitVec.reduceExtractLsb', BitVec.zero_or, BitVec.or_zero]

/-- Row 71 of the opcode table. -/
theorem RoundTrip.ldrhtImm (cond u rn rt imm4H imm4L) : RoundTrip.Statement (.ldrhtImm cond u rn rt imm4H imm4L) := fun hwf => by
  have h : (cond != 15) = true := hwf
  suffices H : ∀ x, x = 0x007000B0#32 ||| put cond 28 ||| put u 23 ||| put rn 16 ||| put rt 12 ||| put imm4H 8 ||| put imm4L 0 → decodeWord x = .ok (.ldrhtImm cond u rn rt imm4H imm4L) from H _ rfl
  intro x hx
  have hk : x &&& 0x0F7000F0 = 0x007000B0 := by simp (disch := decide) only [hx, or_and, put_and_apart]; rfl
  have hc : bits x 28 4 ≠ 15 := by
    simp (disch := decide) only [hx, bits_or, bits_put_same, bits_put_apart, bits_ofNat, BitVec.reduceExtractLsb', BitVec.zero_or, BitVec.or_zero]
    exact bne_iff_ne.mp h
  refine (decode0 49 [] hk hc ⟨rfl, rfl⟩ rfl (by decide +kernel)
    (List.forall_mem_nil _) (by decide) rfl).trans ?_
  simp (disch := decide) only [hx, bits_or, bits_put_same, bits_put_apart, bits_ofNat, BitVec.reduceExtractLsb', BitVec.zero_or, BitVec.or_zero]

/-- Row 72 of the opcode table. -/
theorem RoundTrip.ldrhtReg (cond u rn rt rm) : RoundTrip.Statement (.ldrhtReg cond u rn rt rm) := fun hwf => by
  have h : (cond != 15) = true := hwf
  suffices H : ∀ x, x = 0x003000B0#32 ||| put cond 28 ||| put u 23 ||| put rn 16 ||| put rt 12 ||| put rm 0 → decodeWord x = .ok (.ldrhtReg cond u rn rt rm) from H _ rfl
  intro x hx
  have hk : x &&& 0x0F700FF0 = 0x003000B0 := by simp (disch := decide) only [hx, or_and, put_and_apart]; rfl
  have hc : bits x 28 4 ≠ 15 := by
    simp (disch := decide) only [hx, bits_or, bits_put_same, bits_put_apart, bits_ofNat, BitVec.reduceExtractLsb', BitVec.zero_or, BitVec.or_zero]
    exact bne_iff_ne.mp h
  refine (decode0 50 [] hk hc ⟨rfl, rfl⟩ rfl (by decide +kernel)
    (List.forall_mem_nil _) (by decide) rfl).trans ?_
  simp (disch := decide) only [hx, bits_or, bits_put_same, bits_put_apart, bits_ofNat, BitVec.reduceExtractLsb', BitVec.zero_or, BitVec.or_zero]

/-- Row 73 of the opcode table. -/
theorem RoundTrip.ldrsbtImm (cond u rn rt imm4H imm4L) : RoundTrip.Statement (.ldrsbtImm cond u rn rt imm4H imm4L) := fun hwf => by
  have h : (cond != 15) = true := hwf
  suffices H : ∀ x, x = 0x007000D0#32 ||| put cond 28 ||| put u 23 ||| put rn 16 ||| put rt 12 ||| put imm4H 8 ||| put imm4L 0 → decodeWord x = .ok (.ldrsbtImm cond u rn rt imm4H imm4L) from H _ rfl
  intro x hx
  have hk : x &&& 0x0F7000F0 = 0x007000D0 := by simp (disch := decide) only [hx, or_and, put_and_apart]; rfl
  have hc : bits x 28 4 ≠ 15 := by
    simp (disch := decide) only [hx, bits_or, bits_put_same, bits_put_apart, bits_ofNat, BitVec.reduceExtractLsb', BitVec.zero_or, BitVec.or_zero]
    exact bne_iff_ne.mp h
  refine (decode0 51 [] hk hc ⟨rfl, rfl⟩ rfl (by decide +kernel)
    (List.forall_mem_nil _) (by decide) rfl).trans ?_
  simp (disch := decide) only [hx, bits_or, bits_put_same, bits_put_apart, bits_ofNat, BitVec.reduceExtractLsb', BitVec.zero_or, BitVec.or_zero]

/-- Row 74 of the opcode table. -/
theorem RoundTrip.ldrsbtReg (cond u rn rt rm) : RoundTrip.Statement (.ldrsbtReg cond u rn rt rm) := fun hwf => by
  have h : (cond != 15) = true := hwf
  suffices H : ∀ x, x = 0x003000D0#32 ||| put cond 28 ||| put u 23 ||| put rn 16 ||| put rt 12 ||| put rm 0 → decodeWord x = .ok (.ldrsbtReg cond u rn rt rm) from H _ rfl
  intro x hx
  have hk : x &&& 0x0F700FF0 = 0x003000D0 := by simp (disch := decide) only [hx, or_and, put_and_apart]; rfl
  have hc : bits x 28 4 ≠ 15 := by
    simp (disch := decide) only [hx, bits_or, bits_put_same, bits_put_apart, bits_ofNat, BitVec.reduceExtractLsb', BitVec.zero_or, BitVec.or_zero]
    exact bne_iff_ne.mp h
  refine (decode0 52 [] hk hc ⟨rfl, rfl⟩ rfl (by decide +kernel)
    (List.forall_mem_nil _) (by decide) rfl).trans ?_
  simp (disch := decide) only [hx, bits_or, bits_put_same, bits_put_apart, bits_ofNat, BitVec.reduceExtractLsb', BitVec.zero_or, BitVec.or_zero]

/-- Row 75 of the opcode table. -/
theorem RoundTrip.ldrshtImm (cond u rn rt imm4H imm4L) : RoundTrip.Statement (.ldrshtImm cond u rn rt imm4H imm4L) := fun hwf => by
  have h : (cond != 15) = true := hwf
  suffices H : ∀ x, x = 0x007000F0#32 ||| put cond 28 ||| put u 23 ||| put rn 16 ||| put rt 12 ||| put imm4H 8 ||| put imm4L 0 → decodeWord x = .ok (.ldrshtImm cond u rn rt imm4H imm4L) from H _ rfl
  intro x hx
  have hk : x &&& 0x0F7000F0 = 0x007000F0 := by simp (disch := decide) only [hx, or_and, put_and_apart]; rfl
  have hc : bits x 28 4 ≠ 15 := by
    simp (disch := decide) only [hx, bits_or, bits_put_same, bits_put_apart, bits_ofNat, BitVec.reduceExtractLsb', BitVec.zero_or, BitVec.or_zero]
    exact bne_iff_ne.mp h
  refine (decode0 53 [] hk hc ⟨rfl, rfl⟩ rfl (by decide +kernel)
    (List.forall_mem_nil _) (by decide) rfl).trans ?_
  simp (disch := decide) only [hx, bits_or, bits_put_same, bits_put_apart, bits_ofNat, BitVec.reduceExtractLsb', BitVec.zero_or, BitVec.or_zero]

/-- Row 76 of the opcode table. -/
theorem RoundTrip.ldrshtReg (cond u rn rt rm) : RoundTrip.Statement (.ldrshtReg cond u rn rt rm) := fun hwf => by
  have h : (cond != 15) = true := hwf
  suffices H : ∀ x, x = 0x003000F0#32 ||| put cond 28 ||| put u 23 ||| put rn 16 ||| put rt 12 ||| put rm 0 → decodeWord x = .ok (.ldrshtReg cond u rn rt rm) from H _ rfl
  intro x hx
  have hk : x &&& 0x0F700FF0 = 0x003000F0 := by simp (disch := decide) only [hx, or_and, put_and_apart]; rfl
  have hc : bits x 28 4 ≠ 15 := by
    simp (disch := decide) only [hx, bits_or, bits_put_same, bits_put_apart, bits_ofNat, BitVec.reduceExtractLsb', BitVec.zero_or, BitVec.or_zero]
    exact bne_iff_ne.mp h
  refine (decode0 54 [] hk hc ⟨rfl, rfl⟩ rfl (by decide +kernel)
    (List.forall_mem_nil _) (by decide) rfl).trans ?_
  simp (disch := decide) only [hx, bits_or, bits_put_same, bits_put_apart, bits_ofNat, BitVec.reduceExtractLsb', BitVec.zero_or, BitVec.or_zero]

/-- Row 77 of the opcode table. -/
theorem RoundTrip.strhImm (cond p u w rn rt imm4H imm4L) : RoundTrip.Statement (.strhImm cond p u w rn rt imm4H imm4L) := fun hwf => by
  have h : (cond != 15 && !(p == 0 && w == 1)) = true := hwf
  suffices H : ∀ x, x = 0x004000B0#32 ||| put cond 28 ||| put p 24 ||| put u 23 ||| put w 21 ||| put rn 16 ||| put rt 12 ||| put imm4H 8 ||| put imm4L 0 → decodeWord x = .ok (.strhImm cond p u w rn rt imm4H imm4L) from H _ rfl
  intro x hx
  have hk : x &&& 0x0E5000F0 = 0x004000B0 := by simp (disch := decide) only [hx, or_and, put_and_apart]; rfl
  have hc : bits x 28 4 ≠ 15 := by
    simp (disch := decide) only [hx, bits_or, bits_put_same, bits_put_apart, bits_ofNat, BitVec.reduceExtractLsb', BitVec.zero_or, BitVec.or_zero]
    exact fun hh => by simp [hh] at h
  have e_p : bits x 24 1 = p := by
    simp (disch := decide) only [hx, bits_or, bits_put_same, bits_put_apart, bits_ofNat, BitVec.reduceExtractLsb', BitVec.zero_or, BitVec.or_zero]
  have e_w : bits x 21 1 = w := by
    simp (disch := decide) only [hx, bits_or, bits_put_same, bits_put_apart, bits_ofNat, BitVec.reduceExtractLsb', BitVec.zero_or, BitVec.or_zero]
  refine (decode0 55 [47] hk hc ⟨rfl, rfl⟩ rfl (by decide +kernel)
    (List.forall_mem_cons.2 ⟨Bool.eq_false_iff.2 fun hq => by simp [(e_p.symm.trans (bits_of_hits hq 24 1 rfl) : p = 0), (e_w.symm.trans (bits_of_hits hq 21 1 rfl) : w = 1)] at h,
    (List.forall_mem_nil _)⟩) (by decide) (by show (!(bits x 24 1 == 0 && bits x 21 1 == 1)) = true; rw [e_p, e_w]; exact (Bool.and_eq_true_iff.mp h).2)).trans ?_
  simp (disch := decide) only [hx, bits_or, bits_put_same, bits_put_apart, bits_ofNat, BitVec.reduceExtractLsb', BitVec.zero_or, BitVec.or_zero]

/-- Row 78 of the opcode table. -/
theorem RoundTrip.strhReg (cond p u w rn rt rm) : RoundTrip.Statement (.strhReg cond p u w rn rt rm) := fun hwf => by
  have h : (cond != 15 && !(p == 0 && w == 1)) = true := hwf
  suffices H : ∀ x, x = 0x000000B0#32 ||| put cond 28 ||| put p 24 ||| put u 23 ||| put w 21 ||| put rn 16 ||| put rt 12 ||| put rm 0 → decodeWord x = .ok (.strhReg cond p u w rn rt rm) from H _ rfl
  intro x hx
  have hk : x &&& 0x0E500FF0 = 0x000000B0 := by simp (disch := decide) only [hx, or_and, put_and_apart]; rfl
  have hc : bits x 28 4 ≠ 15 := by
    simp (disch := decide) only [hx, bits_or, bits_put_same, bits_put_apart, bits_ofNat, BitVec.reduceExtractLsb', BitVec.zero_or, BitVec.or_zero]
    exact fun hh => by simp [hh] at h
  have e_p : bits x 24 1 = p := by
    simp (disch := decide) only [hx, bits_or, bits_put_same, bits_put_apart, bits_ofNat, BitVec.reduceExtractLsb', BitVec.zero_or, BitVec.or_zero]
  have e_w : bits x 21 1 = w := by
    simp (disch := decide) only [hx, bits_or, bits_put_same, bits_put_apart, bits_ofNat, BitVec.reduceExtractLsb', BitVec.zero_or, BitVec.or_zero]
  refine (decode0 56 [48] hk hc ⟨rfl, rfl⟩ rfl (by decide +kernel)
    (List.forall_mem_cons.2 ⟨Bool.eq_false_iff.2 fun hq => by simp [(e_p.symm.trans (bits_of_hits hq 24 1 rfl) : p = 0), (e_w.symm.trans (bits_of_hits hq 21 1 rfl) : w = 1)] at h,
    (List.forall_mem_nil _)⟩) (by decide) (by show (!(bits x 24 1 == 0 && bits x 21 1 == 1)) = true; rw [e_p, e_w]; exact (Bool.and_eq_true_iff.mp h).2)).trans ?_
  simp (disch := decide) only [hx, bits_or, bits_put_same, bits_put_apart, bits_ofNat, BitVec.reduceExtractLsb', BitVec.zero_or, BitVec.or_zero]

/-- Row 79 of the opcode table. -/
theorem RoundTrip.ldrhImm (cond p u w rn rt imm4H imm4L) : RoundTrip.Statement (.ldrhImm cond p u w rn rt imm4H imm4L) := fun hwf => by
  have h : (cond != 15 && !(p == 0 && w == 1)) = true := hwf
  suffices H : ∀ x, x = 0x005000B0#32 ||| put cond 28 ||| put p 24 ||| put u 23 ||| put w 21 ||| put rn 16 ||| put rt 12 ||| put imm4H 8 ||| put imm4L 0 → decodeWord x = .ok (.ldrhImm cond p u w rn rt imm4H imm4L) from H _ rfl
  intro x hx
  have hk : x &&& 0x0E5000F0 = 0x005000B0 := by simp (disch := decide) only [hx, or_and, put_and_apart]; rfl
  have hc : bits x 28 4 ≠ 15 := by
    simp (disch := decide) only [hx, bits_or, bits_put_same, bits_put_apart, bits_ofNat, BitVec.reduceExtractLsb', BitVec.zero_or, BitVec.or_zero]
    exact fun hh => by simp [hh] at h
  have e_p : bits x 24 1 = p := by
    simp (disch := decide) only [hx, bits_or, bits_put_same, bits_put_apart, bits_ofNat, BitVec.reduceExtractLsb', BitVec.zero_or, BitVec.or_zero]
  have e_w : bits x 21 1 = w := by
    simp (disch := decide) only [hx, bits_or, bits_put_same, bits_put_apart, bits_ofNat, BitVec.reduceExtractLsb', BitVec.zero_or, BitVec.or_zero]
  refine (decode0 57 [49] hk hc ⟨rfl, rfl⟩ rfl (by decide +kernel)
    (List.forall_mem_cons.2 ⟨Bool.eq_false_iff.2 fun hq => by simp [(e_p.symm.trans (bits_of_hits hq 24 1 rfl) : p = 0), (e_w.symm.trans (bits_of_hits hq 21 1 rfl) : w = 1)] at h,
    (List.forall_mem_nil _)⟩) (by decide) (by show (!(bits x 24 1 == 0 && bits x 21 1 == 1)) = true; rw [e_p, e_w]; exact (Bool.and_eq_true_iff.mp h).2)).trans ?_
  simp (disch := decide) only [hx, bits_or, bits_put_same, bits_put_apart, bits_ofNat, BitVec.reduceExtractLsb', BitVec.zero_or, BitVec.or_zero]

/-- Row 80 of the opcode table. -/
theorem RoundTrip.ldrhReg (cond p u w rn rt rm) : RoundTrip.Statement (.ldrhReg cond p u w rn rt rm) := fun hwf => by
  have h : (cond != 15 && !(p == 0 && w == 1)) = true := hwf
  suffices H : ∀ x, x = 0x001000B0#32 ||| put cond 28 ||| put p 24 ||| put u 23 ||| put w 21 ||| put rn 16 ||| put rt 12 ||| put rm 0 → decodeWord x = .ok (.ldrhReg cond p u w rn rt rm) from H _ rfl
  intro x hx
  have hk : x &&& 0x0E500FF0 = 0x001000B0 := by simp (disch := decide) only [hx, or_and, put_and_apart]; rfl
  have hc : bits x 28 4 ≠ 15 := by
    simp (disch := decide) only [hx, bits_or, bits_put_same, bits_put_apart, bits_ofNat, BitVec.reduceExtractLsb', BitVec.zero_or, BitVec.or_zero]
    exact fun hh => by simp [hh] at h
  have e_p : bits x 24 1 = p := by
    simp (disch := decide) only [hx, bits_or, bits_put_same, bits_put_apart, bits_ofNat, BitVec.reduceExtractLsb', BitVec.zero_or, BitVec.or_zero]
  have e_w : bits x 21 1 = w := by
    simp (disch := decide) only [hx, bits_or, bits_put_same, bits_put_apart, bits_ofNat, BitVec.reduceExtractLsb', BitVec.zero_or, BitVec.or_zero]
  refine (decode0 58 [50] hk hc ⟨rfl, rfl⟩ rfl (by decide +kernel)
    (List.forall_mem_cons.2 ⟨Bool.eq_false_iff.2 fun hq => by simp [(e_p.symm.trans (bits_of_hits hq 24 1 rfl) : p = 0), (e_w.symm.trans (bits_of_hits hq 21 1 rfl) : w = 1)] at h,
    (List.forall_mem_nil _)⟩) (by decide) (by show (!(bits x 24 1 == 0 && bits x 21 1 == 1)) = true; rw [e_p, e_w]; exact (Bool.and_eq_true_iff.mp h).2)).trans ?_
  simp (disch := decide) only [hx, bits_or, bits_put_same, bits_put_apart, bits_ofNat, BitVec.reduceExtractLsb', BitVec.zero_or, BitVec.or_zero]

/-- Row 81 of the opcode table. -/
theorem RoundTrip.ldrsbImm (cond p u w rn rt imm4H imm4L) : RoundTrip.Statement (.ldrsbImm cond p u w rn rt imm4H imm4L) := fun hwf => by
  have h : (cond != 15 && !(p == 0 && w == 1)) = true := hwf
  suffices H : ∀ x, x = 0x005000D0#32 ||| put cond 28 ||| put p 24 ||| put u 23 ||| put w 21 ||| put rn 16 ||| put rt 12 ||| put imm4H 8 ||| put imm4L 0 → decodeWord x = .ok (.ldrsbImm cond p u w rn rt imm4H imm4L) from H _ rfl
  intro x hx
  have hk : x &&& 0x0E5000F0 = 0x005000D0 := by simp (disch := decide) only [hx, or_and, put_and_apart]; rfl
  have hc : bits x 28 4 ≠ 15 := by
    simp (disch := decide) only [hx, bits_or, bits_put_same, bits_put_apart, bits_ofNat, BitVec.reduceExtractLsb', BitVec.zero_or, BitVec.or_zero]
    exact fun hh => by simp [hh] at h
  have e_p : bits x 24 1 = p := by
    simp (disch := decide) only [hx, bits_or, bits_put_same, bits_put_apart, bits_ofNat, BitVec.reduceExtractLsb', BitVec.zero_or, BitVec.or_zero]
  have e_w : bits x 21 1 = w := by
    simp (disch := decide) only [hx, bits_or, bits_put_same, bits_put_apart, bits_ofNat, BitVec.reduceExtractLsb', BitVec.zero_or, BitVec.or_zero]
  refine (decode0 59 [51] hk hc ⟨rfl, rfl⟩ rfl (by decide +kernel)
    (List.forall_mem_cons.2 ⟨Bool.eq_false_iff.2 fun hq => by simp [(e_p.symm.trans (bits_of_hits hq 24 1 rfl) : p = 0), (e_w.symm.trans (bits_of_hits hq 21 1 rfl) : w = 1)] at h,
    (List.forall_mem_nil _)⟩) (by decide) (by show (!(bits x 24 1 == 0 && bits x 21 1 == 1)) = true; rw [e_p, e_w]; exact (Bool.and_eq_true_iff.mp h).2)).trans ?_
  simp (disch := decide) only [hx, bits_or, bits_put_same, bits_put_apart, bits_ofNat, BitVec.reduceExtractLsb', BitVec.zero_or, BitVec.or_zero]

/-- Row 82 of the opcode table. -/
theorem RoundTrip.ldrsbReg (cond p u w rn rt rm) : RoundTrip.Statement (.ldrsbReg cond p u w rn rt rm) := fun hwf => by
  have h : (cond != 15 && !(p == 0 && w == 1)) = true := hwf
  suffices H : ∀ x, x = 0x001000D0#32 ||| put cond 28 ||| put p 24 ||| put u 23 ||| put w 21 ||| put rn 16 ||| put rt 12 ||| put rm 0 → decodeWord x = .ok (.ldrsbReg cond p u w rn rt rm) from H _ rfl
  intro x hx
  have hk : x &&& 0x0E500FF0 = 0x001000D0 := by simp (disch := decide) only [hx, or_and, put_and_apart]; rfl
  have hc : bits x 28 4 ≠ 15 := by
    simp (disch := decide) only [hx, bits_or, bits_put_same, bits_put_apart, bits_ofNat, BitVec.reduceExtractLsb', BitVec.zero_or, BitVec.or_zero]
    exact fun hh => by simp [hh] at h
  have e_p : bits x 24 1 = p := by
    simp (disch := decide) only [hx, bits_or, bits_put_same, bits_put_apart, bits_ofNat, BitVec.reduceExtractLsb', BitVec.zero_or, BitVec.or_zero]
  have e_w : bits x 21 1 = w := by
    simp (disch := decide) only [hx, bits_or, bits_put_same, bits_put_apart, bits_ofNat, BitVec.reduceExtractLsb', BitVec.zero_or, BitVec.or_zero]
  refine (decode0 60 [52] hk hc ⟨rfl, rfl⟩ rfl (by decide +kernel)
    (List.forall_mem_cons.2 ⟨Bool.eq_false_iff.2 fun hq => by simp [(e_p.symm.trans (bits_of_hits hq 24 1 rfl) : p = 0), (e_w.symm.trans (bits_of_hits hq 21 1 rfl) : w = 1)] at h,
    (List.forall_mem_nil _)⟩) (by decide) (by show (!(bits x 24 1 == 0 && bits x 21 1 == 1)) = true; rw [e_p, e_w]; exact (Bool.and_eq_true_iff.mp h).2)).trans ?_
  simp (disch := decide) only [hx, bits_or, bits_put_same, bits_put_apart, bits_ofNat, BitVec.reduceExtractLsb', BitVec.zero_or, BitVec.or_zero]

/-- Row 83 of the opcode table. -/
theorem RoundTrip.ldrshImm (cond p u w rn rt imm4H imm4L) : RoundTrip.Statement (.ldrshImm cond p u w rn rt imm4H imm4L) := fun hwf => by
  have h : (cond != 15 && !(p == 0 && w == 1)) = true := hwf
  suffices H : ∀ x, x = 0x005000F0#32 ||| put cond 28 ||| put p 24 ||| put u 23 ||| put w 21 ||| put rn 16 ||| put rt 12 ||| put imm4H 8 ||| put imm4L 0 → decodeWord x = .ok (.ldrshImm cond p u w rn rt imm4H imm4L) from H _ rfl
  intro x hx
  have hk : x &&& 0x0E5000F0 = 0x005000F0 := by simp (disch := decide) only [hx, or_and, put_and_apart]; rfl
  have hc : bits x 28 4 ≠ 15 := by
    simp (disch := decide) only [hx, bits_or, bits_put_same, bits_put_apart, bits_ofNat, BitVec.reduceExtractLsb', BitVec.zero_or, BitVec.or_zero]
    exact fun hh => by simp [hh] at h
  have e_p : bits x 24 1 = p := by
    simp (disch := decide) only [hx, bits_or, bits_put_same, bits_put_apart, bits_ofNat, BitVec.reduceExtractLsb', BitVec.zero_or, BitVec.or_zero]
  have e_w : bits x 21 1 = w := by
    simp (disch := decide) only [hx, bits_or, bits_put_same, bits_put_apart, bits_ofNat, BitVec.reduceExtractLsb', BitVec.zero_or, BitVec.or_zero]
  refine (decode0 61 [53] hk hc ⟨rfl, rfl⟩ rfl (by decide +kernel)
    (List.forall_mem_cons.2 ⟨Bool.eq_false_iff.2 fun hq => by simp [(e_p.symm.trans (bits_of_hits hq 24 1 rfl) : p = 0), (e_w.symm.trans (bits_of_hits hq 21 1 rfl) : w = 1)] at h,
    (List.forall_mem_nil _)⟩) (by decide) (by show (!(bits x 24 1 == 0 && bits x 21 1 == 1)) = true; rw [e_p, e_w]; exact (Bool.and_eq_true_iff.mp h).2)).trans ?_
  simp (disch := decide) only [hx, bits_or, bits_put_same, bits_put_apart, bits_ofNat, BitVec.reduceExtractLsb', BitVec.zero_or, BitVec.or_zero]

/-- Row 84 of the opcode table. -/
theorem RoundTrip.ldrshReg (cond p u w rn rt rm) : RoundTrip.Statement (.ldrshReg cond p u w rn rt rm) := fun hwf => by
  have h : (cond != 15 && !(p == 0 && w == 1)) = true := hwf
  suffices H : ∀ x, x = 0x001000F0#32 ||| put cond 28 ||| put p 24 ||| put u 23 ||| put w 21 ||| put rn 16 ||| put rt 12 ||| put rm 0 → decodeWord x = .ok (.ldrshReg cond p u w rn rt rm) from H _ rfl
  intro x hx
  have hk : x &&& 0x0E500FF0 = 0x001000F0 := by simp (disch := decide) only [hx, or_and, put_and_apart]; rfl
  have hc : bits x 28 4 ≠ 15 := by
    simp (disch := decide) only [hx, bits_or, bits_put_same, bits_put_apart, bits_ofNat, BitVec.reduceExtractLsb', BitVec.zero_or, BitVec.or_zero]
    exact fun hh => by simp [hh] at h
  have e_p : bits x 24 1 = p := by
    simp (disch := decide) only [hx, bits_or, bits_put_same, bits_put_apart, bits_ofNat, BitVec.reduceExtractLsb', BitVec.zero_or, BitVec.or_zero]
  have e_w : bits x 21 1 = w := by
    simp (disch := decide) only [hx, bits_or, bits_put_same, bits_put_apart, bits_ofNat, BitVec.reduceExtractLsb', BitVec.zero_or, BitVec.or_zero]
  refine (decode0 62 [54] hk hc ⟨rfl, rfl⟩ rfl (by decide +kernel)
    (List.forall_mem_cons.2 ⟨Bool.eq_false_iff.2 fun hq => by simp [(e_p.symm.trans (bits_of_hits hq 24 1 rfl) : p = 0), (e_w.symm.trans (bits_of_hits hq 21 1 rfl) : w = 1)] at h,
    (List.forall_mem_nil _)⟩) (by decide) (by show (!(bits x 24 1 == 0 && bits x 21 1 == 1)) = true; rw [e_p, e_w]; exact (Bool.and_eq_true_iff.mp h).2)).trans ?_
  simp (disch := decide) only [hx, bits_or, bits_put_same, bits_put_apart, bits_ofNat, BitVec.reduceExtractLsb', BitVec.zero_or, BitVec.or_zero]

/-- Row 85 of the opcode table. -/
theorem RoundTrip.ldrdImm (cond p u w rn rt imm4H imm4L) : RoundTrip.Statement (.ldrdImm cond p u w rn rt imm4H imm4L) := fun hwf => by
  have h : (cond != 15 && !(p == 0 && w == 1)) = true := hwf
  suffices H : ∀ x, x = 0x004000D0#32 ||| put cond 28 ||| put p 24 ||| put u 23 ||| put w 21 ||| put rn 16 ||| put rt 12 ||| put imm4H 8 ||| put imm4L 0 → decodeWord x = .ok (.ldrdImm cond p u w rn rt imm4H imm4L) from H _ rfl
  intro x hx
  have hk : x &&& 0x0E5000F0 = 0x004000D0 := by simp (disch := decide) only [hx, or_and, put_and_apart]; rfl
  have hc : bits x 28 4 ≠ 15 := by
    simp (disch := decide) only [hx, bits_or, bits_put_same, bits_put_apart, bits_ofNat, BitVec.reduceExtractLsb', BitVec.zero_or, BitVec.or_zero]
    exact fun hh => by simp [hh] at h
  have e_p : bits x 24 1 = p := by
    simp (disch := decide) only [hx, bits_or, bits_put_same, bits_put_apart, bits_ofNat, BitVec.reduceExtractLsb', BitVec.zero_or, BitVec.or_zero]
  have e_w : bits x 21 1 = w := by
    simp (disch := decide) only [hx, bits_or, bits_put_same, bits_put_apart, bits_ofNat, BitVec.reduceExtractLsb', BitVec.zero_or, BitVec.or_zero]
  refine (decode0 63 [] hk hc ⟨rfl, rfl⟩ rfl (by decide +kernel)
    (List.forall_mem_nil _) (by decide) (by show (!(bits x 24 1 == 0 && bits x 21 1 == 1)) = true; rw [e_p, e_w]; exact (Bool.and_eq_true_iff.mp h).2)).trans ?_
  simp (disch := decide) only [hx, bits_or, bits_put_same, bits_put_apart, bits_ofNat, BitVec.reduceExtractLsb', BitVec.zero_or, BitVec.or_zero]

/-- Row 86 of the opcode table. -/
theorem RoundTrip.ldrdReg (cond p u w rn rt rm) : RoundTrip.Statement (.ldrdReg cond p u w rn rt rm) := fun hwf => by
  have h : (cond != 15 && !(p == 0 && w == 1)) = true := hwf
  suffices H : ∀ x, x = 0x000000D0#32 ||| put cond 28 ||| put p 24 ||| put u 23 ||| put w 21 ||| put rn 16 ||| put rt 12 ||| put rm 0 → decodeWord x = .ok (.ldrdReg cond p u w rn rt rm) from H _ rfl
  intro x hx
  have hk : x &&& 0x0E500FF0 = 0x000000D0 := by simp (disch := decide) only [hx, or_and, put_and_apart]; rfl
  have hc : bits x 28 4 ≠ 15 := by
    simp (disch := decide) only [hx, bits_or, bits_put_same, bits_put_apart, bits_ofNat, BitVec.reduceExtractLsb', BitVec.zero_or, BitVec.or_zero]
    exact fun hh => by simp [hh] at h
  have e_p : bits x 24 1 = p := by
    simp (disch := decide) only [hx, bits_or, bits_put_same, bits_put_apart, bits_ofNat, BitVec.reduceExtractLsb', BitVec.zero_or, BitVec.or_zero]
  have e_w : bits x 21 1 = w := by
    simp (disch := decide) only [hx, bits_or, bits_put_same, bits_put_apart, bits_ofNat, BitVec.reduceExtractLsb', BitVec.zero_or, BitVec.or_zero]
  refine (decode0 64 [] hk hc ⟨rfl, rfl⟩ rfl (by decide +kernel)
    (List.forall_mem_nil _) (by decide) (by show (!(bits x 24 1 == 0 && bits x 21 1 == 1)) = true; rw [e_p, e_w]; exact (Bool.and_eq_true_iff.mp h).2)).trans ?_
  simp (disch := decide) only [hx, bits_or, bits_put_same, bits_put_apart, bits_ofNat, BitVec.reduceExtractLsb', BitVec.zero_or, BitVec.or_zero]

/-- Row 87 of the opcode table. -/
theorem RoundTrip.strdImm (cond p u w rn rt imm4H imm4L) : RoundTrip.Statement (.strdImm cond p u w rn rt imm4H imm4L) := fun hwf => by
  have h : (cond != 15 && !(p == 0 && w == 1)) = true := hwf
  suffices H : ∀ x, x = 0x004000F0#32 ||| put cond 28 ||| put p 24 ||| put u 23 ||| put w 21 ||| put rn 16 ||| put rt 12 ||| put imm4H 8 ||| put imm4L 0 → decodeWord x = .ok (.strdImm cond p u w rn rt imm4H imm4L) from H _ rfl
  intro x hx
  have hk : x &&& 0x0E5000F0 = 0x004000F0 := by simp (disch := decide) only [hx, or_and, put_and_apart]; rfl
  have hc : bits x 28 4 ≠ 15 := by
    simp (disch := decide) only [hx, bits_or, bits_put_same, bits_put_apart, bits_ofNat, BitVec.reduceExtractLsb', BitVec.zero_or, BitVec.or_zero]
    exact fun hh => by simp [hh] at h
  have e_p : bits x 24 1 = p := by
    simp (disch := decide) only [hx, bits_or, bits_put_same, bits_put_apart, bits_ofNat, BitVec.reduceExtractLsb', BitVec.zero_or, BitVec.or_zero]
  have e_w : bits x 21 1 = w := by
    simp (disch := decide) only [hx, bits_or, bits_put_same, bits_put_apart, bits_ofNat, BitVec.reduceExtractLsb', BitVec.zero_or, BitVec.or_zero]
  refine (decode0 65 [] hk hc ⟨rfl, rfl⟩ rfl (by decide +kernel)
    (List.forall_mem_nil _) (by decide) (by show (!(bits x 24 1 == 0 && bits x 21 1 == 1)) = true; rw [e_p, e_w]; exact (Bool.and_eq_true_iff.mp h).2)).trans ?_
  simp (disch := decide) only [hx, bits_or, bits_put_same, bits_put_apart, bits_ofNat, BitVec.reduceExtractLsb', BitVec.zero_or, BitVec.or_zero]

/-- Row 88 of the opcode table. -/
theorem RoundTrip.strdReg (cond p u w rn rt rm) : RoundTrip.Statement (.strdReg cond p u w rn rt rm) := fun hwf => by
  have h : (cond != 15 && !(p == 0 && w == 1)) = true := hwf
  suffices H : ∀ x, x = 0x000000F0#32 ||| put cond 28 ||| put p 24 ||| put u 23 ||| put w 21 ||| put rn 16 ||| put rt 12 ||| put rm 0 → decodeWord x = .ok (.strdReg cond p u w rn rt rm) from H _ rfl
  intro x hx
  have hk : x &&& 0x0E500FF0 = 0x000000F0 := by simp (disch := decide) only [hx, or_and, put_and_apart]; rfl
  have hc : bits x 28 4 ≠ 15 := by
    simp (disch := decide) only [hx, bits_or, bits_put_same, bits_put_apart, bits_ofNat, BitVec.reduceExtractLsb', BitVec.zero_or, BitVec.or_zero]
    exact fun hh => by simp [hh] at h
  have e_p : bits x 24 1 = p := by
    simp (disch := decide) only [hx, bits_or, bits_put_same, bits_put_apart, bits_ofNat, BitVec.reduceExtractLsb', BitVec.zero_or, BitVec.or_zero]
  have e_w : bits x 21 1 = w := by
    simp (disch := decide) only [hx, bits_or, bits_put_same, bits_put_apart, bits_ofNat, BitVec.reduceExtractLsb', BitVec.zero_or, BitVec.or_zero]
  refine (decode0 66 [] hk hc ⟨rfl, rfl⟩ rfl (by decide +kernel)
    (List.forall_mem_nil _) (by decide) (by show (!(bits x 24 1 == 0 && bits x 21 1 == 1)) = true; rw [e_p, e_w]; exact (Bool.and_eq_true_iff.mp h).2)).trans ?_
  simp (disch := decide) only [hx, bits_or, bits_put_same, bits_put_apart, bits_ofNat, BitVec.reduceExtractLsb', BitVec.zero_or, BitVec.or_zero]

/-- Row 89 of the opcode table. -/
theorem RoundTrip.movw (cond imm4 rd imm12) : RoundTrip.Statement (.movw cond imm4 rd imm12) := fun hwf => by
  have h : (cond != 15) = true := hwf
  suffices H : ∀ x, x = 0x03000000#32 ||| put cond 28 ||| put imm4 16 ||| put rd 12 ||| put imm12 0 → decodeWord x = .ok (.movw cond imm4 rd imm12) from H _ rfl
  intro x hx
  have hk : x &&& 0x0FF00000 = 0x03000000 := by simp (disch := decide) only [hx, or_and, put_and_apart]; rfl
  have hc : bits x 28 4 ≠ 15 := by
    simp (disch := decide) only [hx, bits_or, bits_put_same, bits_put_apart, bits_ofNat, BitVec.reduceExtractLsb', BitVec.zero_or, BitVec.or_zero]
    exact bne_iff_ne.mp h
  refine (decode1 0 [] hk hc ⟨rfl, rfl⟩ rfl (by decide +kernel)
    (List.forall_mem_nil _) (by decide) rfl).trans ?_
  simp (disch := decide) only [hx, bits_or, bits_put_same, bits_put_apart, bits_ofNat, BitVec.reduceExtractLsb', BitVec.zero_or, BitVec.or_zero]

/-- Row 90 of the opcode table. -/
theorem RoundTrip.movt (cond imm4 rd imm12) : RoundTrip.Statement (.movt cond imm4 rd imm12) := fun hwf => by
  have h : (cond != 15) = true := hwf
  suffices H : ∀ x, x = 0x03400000#32 ||| put cond 28 ||| put imm4 16 ||| put rd 12 ||| put imm12 0 → decodeWord x = .ok (.movt cond imm4 rd imm12) from H _ rfl
  intro x hx
  have hk : x &&& 0x0FF00000 = 0x03400000 := by simp (disch := decide) only [hx, or_and, put_and_apart]; rfl
  have hc : bits x 28 4 ≠ 15 := by
    simp (disch := decide) only [hx, bits_or, bits_put_same, bits_put_apart, bits_ofNat, BitVec.reduceExtractLsb', BitVec.zero_or, BitVec.or_zero]
    exact bne_iff_ne.mp h
  refine (decode1 1 [] hk hc ⟨rfl, rfl⟩ rfl (by decide +kernel)
    (List.forall_mem_nil _) (by decide) rfl).trans ?_
  simp (disch := decide) only [hx, bits_or, bits_put_same, bits_put_apart, bits_ofNat, BitVec.reduceExtractLsb', BitVec.zero_or, BitVec.or_zero]

/-- Row 91 of the opcode table. -/
theorem RoundTrip.nop (cond) : RoundTrip.Statement (.nop cond) := fun hwf => by
  have h : (cond != 15) = true := hwf
  suffices H : ∀ x, x = 0x0320F000#32 ||| put cond 28 → decodeWord x = .ok (.nop cond) from H _ rfl
  intro x hx
  have hk : x &&& 0x0FFFFFFF = 0x0320F000 := by simp (disch := decide) only [hx, or_and, put_and_apart]; rfl
  have hc : bits x 28 4 ≠ 15 := by
    simp (disch := decide) only [hx, bits_or, bits_put_same, bits_put_apart, bits_ofNat, BitVec.reduceExtractLsb', BitVec.zero_or, BitVec.or_zero]
    exact bne_iff_ne.mp h
  refine (decode1 2 [] hk hc ⟨rfl, rfl⟩ rfl (by decide +kernel)
    (List.forall_mem_nil _) (by decide) rfl).trans ?_
  simp (disch := decide) only [hx, bits_or, bits_put_same, bits_put_apart, bits_ofNat, BitVec.reduceExtractLsb', BitVec.zero_or, BitVec.or_zero]

/-- Row 92 of the opcode table. -/
theorem RoundTrip.yield (cond) : RoundTrip.Statement (.yield cond) := fun hwf => by
  have h : (cond != 15) = true := hwf
  suffices H : ∀ x, x = 0x0320F001#32 ||| put cond 28 → decodeWord x = .ok (.yield cond) from H _ rfl
  intro x hx
  have hk : x &&& 0x0FFFFFFF = 0x0320F001 := by simp (disch := decide) only [hx, or_and, put_and_apart]; rfl
  have hc : bits x 28 4 ≠ 15 := by
    simp (disch := decide) only [hx, bits_or, bits_put_same, bits_put_apart, bits_ofNat, BitVec.reduceExtractLsb', BitVec.zero_or, BitVec.or_zero]
    exact bne_iff_ne.mp h
  refine (decode1 3 [] hk hc ⟨rfl, rfl⟩ rfl (by decide +kernel)
    (List.forall_mem_nil _) (by decide) rfl).trans ?_
  simp (disch := decide) only [hx, bits_or, bits_put_same, bits_put_apart, bits_ofNat, BitVec.reduceExtractLsb', BitVec.zero_or, BitVec.or_zero]

/-- Row 93 of the opcode table. -/
theorem RoundTrip.wfe (cond) : RoundTrip.Statement (.wfe cond) := fun hwf => by
  have h : (cond != 15) = true := hwf
  suffices H : ∀ x, x = 0x0320F002#32 ||| put cond 28 → decodeWord x = .ok (.wfe cond) from H _ rfl
  intro x hx
  have hk : x &&& 0x0FFFFFFF = 0x0320F002 := by simp (disch := decide) only [hx, or_and, put_and_apart]; rfl
  have hc : bits x 28 4 ≠ 15 := by
    simp (disch := decide) only [hx, bits_or, bits_put_same, bits_put_apart, bits_ofNat, BitVec.reduceExtractLsb', BitVec.zero_or, BitVec.or_zero]
    exact bne_iff_ne.mp h
  refine (decode1 4 [] hk hc ⟨rfl, rfl⟩ rfl (by decide +kernel)
    (List.forall_mem_nil _) (by decide) rfl).trans ?_
  simp (disch := decide) only [hx, bits_or, bits_put_same, bits_put_apart, bits_ofNat, BitVec.reduceExtractLsb', BitVec.zero_or, BitVec.or_zero]

/-- Row 94 of the opcode table. -/
theorem RoundTrip.wfi (cond) : RoundTrip.Statement (.wfi cond) := fun hwf => by
  have h : (cond != 15) = true := hwf
  suffices H : ∀ x, x = 0x0320F003#32 ||| put cond 28 → decodeWord x = .ok (.wfi cond) from H _ rfl
  intro x hx
  have hk : x &&& 0x0FFFFFFF = 0x0320F003 := by simp (disch := decide) only [hx, or_and, put_and_apart]; rfl
  have hc : bits x 28 4 ≠ 15 := by
    simp (disch := decide) only [hx, bits_or, bits_put_same, bits_put_apart, bits_ofNat, BitVec.reduceExtractLsb', BitVec.zero_or, BitVec.or_zero]
    exact bne_iff_ne.mp h
  refine (decode1 5 [] hk hc ⟨rfl, rfl⟩ rfl (by decide +kernel)
    (List.forall_mem_nil _) (by decide) rfl).trans ?_
  simp (disch := decide) only [hx, bits_or, bits_put_same, bits_put_apart, bits_ofNat, BitVec.reduceExtractLsb', BitVec.zero_or, BitVec.or_zero]

/-- Row 95 of the opcode table. -/
theorem RoundTrip.sev (cond) : RoundTrip.Statement (.sev cond) := fun hwf => by
  have h : (cond != 15) = true := hwf
  suffices H : ∀ x, x = 0x0320F004#32 ||| put cond 28 → decodeWord x = .ok (.sev cond) from H _ rfl
  intro x hx
  have hk : x &&& 0x0FFFFFFF = 0x0320F004 := by simp (disch := decide) only [hx, or_and, put_and_apart]; rfl
  have hc : bits x 28 4 ≠ 15 := by
    simp (disch := decide) only [hx, bits_or, bits_put_same, bits_put_apart, bits_ofNat, BitVec.reduceExtractLsb', BitVec.zero_or, BitVec.or_zero]
    exact bne_iff_ne.mp h
  refine (decode1 6 [] hk hc ⟨rfl, rfl⟩ rfl (by decide +kernel)
    (List.forall_mem_nil _) (by decide) rfl).trans ?_
  simp (disch := decide) only [hx, bits_or, bits_put_same, bits_put_apart, bits_ofNat, BitVec.reduceExtractLsb', BitVec.zero_or, BitVec.or_zero]

/-- Row 96 of the opcode table. -/
theorem RoundTrip.dbg (cond opt) : RoundTrip.Statement (.dbg cond opt) := fun hwf => by
  have h : (cond != 15) = true := hwf
  suffices H : ∀ x, x = 0x0320F0F0#32 ||| put cond 28 ||| put opt 0 → decodeWord x = .ok (.dbg cond opt) from H _ rfl
  intro x hx
  have hk : x &&& 0x0FFFFFF0 = 0x0320F0F0 := by simp (disch := decide) only [hx, or_and, put_and_apart]; rfl
  have hc : bits x 28 4 ≠ 15 := by
    simp (disch := decide) only [hx, bits_or, bits_put_same, bits_put_apart, bits_ofNat, BitVec.reduceExtractLsb', BitVec.zero_or, BitVec.or_zero]
    exact bne_iff_ne.mp h
  refine (decode1 7 [] hk hc ⟨rfl, rfl⟩ rfl (by decide +kernel)
    (List.forall_mem_nil _) (by decide) rfl).trans ?_
  simp (disch := decide) only [hx, bits_or, bits_put_same, bits_put_apart, bits_ofNat, BitVec.reduceExtractLsb', BitVec.zero_or, BitVec.or_zero]

/-- Row 97 of the opcode table. -/
theorem RoundTrip.hintOther (cond hint8) : RoundTrip.Statement (.hintOther cond hint8) := fun hwf => by
  have h : (cond != 15 && !(hint8 == 0 || hint8 == 1 || hint8 == 2 || hint8 == 3 || hint8 == 4 || BitVec.ule 0xF0 hint8)) = true := hwf
  suffices H : ∀ x, x = 0x0320F000#32 ||| put cond 28 ||| put hint8 0 → decodeWord x = .ok (.hintOther cond hint8) from H _ rfl
  intro x hx
  have hk : x &&& 0x0FFFFF00 = 0x0320F000 := by simp (disch := decide) only [hx, or_and, put_and_apart]; rfl
  have hc : bits x 28 4 ≠ 15 := by
    simp (disch := decide) only [hx, bits_or, bits_put_same, bits_put_apart, bits_ofNat, BitVec.reduceExtractLsb', BitVec.zero_or, BitVec.or_zero]
    exact fun hh => by simp [hh] at h
  have e_hint8_part : bits x 4 4 = hint8.extractLsb' 4 4 := by
    simp (disch := decide) only [hx, bits_or, bits_put_same, bits_put_within, bits_put_apart, bits_ofNat, BitVec.reduceExtractLsb', BitVec.zero_or, BitVec.or_zero]
  have e_hint8 : bits x 0 8 = hint8 := by
    simp (disch := decide) only [hx, bits_or, bits_put_same, bits_put_apart, bits_ofNat, BitVec.reduceExtractLsb', BitVec.zero_or, BitVec.or_zero]
  refine (decode1 8 [2, 3, 4, 5, 6, 7] hk hc ⟨rfl, rfl⟩ rfl (by decide +kernel)
    (List.forall_mem_cons.2 ⟨Bool.eq_false_iff.2 fun hq => by simp [(e_hint8.symm.trans (bits_of_hits hq 0 8 rfl) : hint8 = 0)] at h,
    (List.forall_mem_cons.2 ⟨Bool.eq_false_iff.2 fun hq => by simp [(e_hint8.symm.trans (bits_of_hits hq 0 8 rfl) : hint8 = 1)] at h,
    (List.forall_mem_cons.2 ⟨Bool.eq_false_iff.2 fun hq => by simp [(e_hint8.symm.trans (bits_of_hits hq 0 8 rfl) : hint8 = 2)] at h,
    (List.forall_mem_cons.2 ⟨Bool.eq_false_iff.2 fun hq => by simp [(e_hint8.symm.trans (bits_of_hits hq 0 8 rfl) : hint8 = 3)] at h,
    (List.forall_mem_cons.2 ⟨Bool.eq_false_iff.2 fun hq => by simp [(e_hint8.symm.trans (bits_of_hits hq 0 8 rfl) : hint8 = 4)] at h,
    (List.forall_mem_cons.2 ⟨Bool.eq_false_iff.2 fun hq => by simp [hint_dbg _ (e_hint8_part.symm.trans (bits_of_hits hq 4 4 rfl))] at h,
    (List.forall_mem_nil _)⟩)⟩)⟩)⟩)⟩)⟩) (by decide) rfl).trans ?_
  simp (disch := decide) only [hx, bits_or, bits_put_same, bits_put_apart, bits_ofNat, BitVec.reduceExtractLsb', BitVec.zero_or, BitVec.or_zero]

/-- Row 98 of the opcode table. -/
theorem RoundTrip.msrCpsrImm (cond fieldMask imm12) : RoundTrip.Statement (.msrCpsrImm cond fieldMask imm12) := fun hwf => by
  have h : (cond != 15 && fieldMask != 0) = true := hwf
  suffices H : ∀ x, x = 0x0320F000#32 ||| put cond 28 ||| put fieldMask 16 ||| put imm12 0 → decodeWord x = .ok (.msrCpsrImm cond fieldMask imm12) from H _ rfl
  intro x hx
  have hk : x &&& 0x0FF0F000 = 0x0320F000 := by simp (disch := decide) only [hx, or_and, put_and_apart]; rfl
  have hc : bits x 28 4 ≠ 15 := by
    simp (disch := decide) only [hx, bits_or, bits_put_same, bits_put_apart, bits_ofNat, BitVec.reduceExtractLsb', BitVec.zero_or, BitVec.or_zero]
    exact fun hh => by simp [hh] at h
  have e_fieldMask : bits x 16 4 = fieldMask := by
    simp (disch := decide) only [hx, bits_or, bits_put_same, bits_put_apart, bits_ofNat, BitVec.reduceExtractLsb', BitVec.zero_or, BitVec.or_zero]
  refine (decode1 9 [2, 3, 4, 5, 6, 7, 8] hk hc ⟨rfl, rfl⟩ rfl (by decide +kernel)
    (List.forall_mem_cons.2 ⟨Bool.eq_false_iff.2 fun hq => by simp [(e_fieldMask.symm.trans (bits_of_hits hq 16 4 rfl) : fieldMask = 0)] at h,
    (List.forall_mem_cons.2 ⟨Bool.eq_false_iff.2 fun hq => by simp [(e_fieldMask.symm.trans (bits_of_hits hq 16 4 rfl) : fieldMask = 0)] at h,
    (List.forall_mem_cons.2 ⟨Bool.eq_false_iff.2 fun hq => by simp [(e_fieldMask.symm.trans (bits_of_hits hq 16 4 rfl) : fieldMask = 0)] at h,
    (List.forall_mem_cons.2 ⟨Bool.eq_false_iff.2 fun hq => by simp [(e_fieldMask.symm.trans (bits_of_hits hq 16 4 rfl) : fieldMask = 0)] at h,
    (List.forall_mem_cons.2 ⟨Bool.eq_false_iff.2 fun hq => by simp [(e_fieldMask.symm.trans (bits_of_hits hq 16 4 rfl) : fieldMask = 0)] at h,
    (List.forall_mem_cons.2 ⟨Bool.eq_false_iff.2 fun hq => by simp [(e_fieldMask.symm.trans (bits_of_hits hq 16 4 rfl) : fieldMask = 0)] at h,
    (List.forall_mem_cons.2 ⟨Bool.eq_false_iff.2 fun hq => by simp [(e_fieldMask.symm.trans (bits_of_hits hq 16 4 rfl) : fieldMask = 0)] at h,
    (List.forall_mem_nil _)⟩)⟩)⟩)⟩)⟩)⟩)⟩) (by decide) (by show (bits x 16 4 != 0) = true; rw [e_fieldMask]; exact (Bool.and_eq_true_iff.mp h).2)).trans ?_
  simp (disch := decide) only [hx, bits_or, bits_put_same, bits_put_apart, bits_ofNat, BitVec.reduceExtractLsb', BitVec.zero_or, BitVec.or_zero]

/-- Row 99 of the opcode table. -/
theorem RoundTrip.msrSpsrImm (cond fieldMask imm12) : RoundTrip.Statement (.msrSpsrImm cond fieldMask imm12) := fun hwf => by
  have h : (cond != 15) = true := hwf
  suffices H : ∀ x, x = 0x0360F000#32 ||| put cond 28 ||| put fieldMask 16 ||| put imm12 0 → decodeWord x = .ok (.msrSpsrImm cond fieldMask imm12) from H _ rfl
  intro x hx
  have hk : x &&& 0x0FF0F000 = 0x0360F000 := by simp (disch := decide) only [hx, or_and, put_and_apart]; rfl
  have hc : bits x 28 4 ≠ 15 := by
    simp (disch := decide) only [hx, bits_or, bits_put_same, bits_put_apart, bits_ofNat, BitVec.reduceExtractLsb', BitVec.zero_or, BitVec.or_zero]
    exact bne_iff_ne.mp h
  refine (decode1 10 [] hk hc ⟨rfl, rfl⟩ rfl (by decide +kernel)
    (List.forall_mem_nil _) (by decide) rfl).trans ?_
  simp (disch := decide) only [hx, bits_or, bits_put_same, bits_put_apart, bits_ofNat, BitVec.reduceExtractLsb', BitVec.zero_or, BitVec.or_zero]

/-- Row 100 of the opcode table. -/
theorem RoundTrip.andImm (cond sf rn rd imm12) : RoundTrip.Statement (.andImm cond sf rn rd imm12) := fun hwf => by
  have h : (cond != 15) = true := hwf
  suffices H : ∀ x, x = 0x02000000#32 ||| put cond 28 ||| put sf 20 ||| put rn 16 ||| put rd 12 ||| put imm12 0 → decodeWord x = .ok (.andImm cond sf rn rd imm12) from H _ rfl
  intro x hx
  have hk : x &&& 0x0FE00000 = 0x02000000 := by simp (disch := decide) only [hx, or_and, put_and_apart]; rfl
  have hc : bits x 28 4 ≠ 15 := by
    simp (disch := decide) only [hx, bits_or, bits_put_same, bits_put_apart, bits_ofNat, BitVec.reduceExtractLsb', BitVec.zero_or, BitVec.or_zero]
    exact bne_iff_ne.mp h
  refine (decode1 11 [] hk hc ⟨rfl, rfl⟩ rfl (by decide +kernel)
    (List.forall_mem_nil _) (by decide) rfl).trans ?_
  simp (disch := decide) only [hx, bits_or, bits_put_same, bits_put_apart, bits_ofNat, BitVec.reduceExtractLsb', BitVec.zero_or, BitVec.or_zero]

/-- Row 101 of the opcode table. -/
theorem RoundTrip.andReg (cond sf rn rd imm5 typ rm) : RoundTrip.Statement (.andReg cond sf rn rd imm5 typ rm) := fun hwf => by
  have h : (cond != 15) = true := hwf
  suffices H : ∀ x, x = 0x00000000#32 ||| put cond 28 ||| put sf 20 ||| put rn 16 ||| put rd 12 ||| put imm5 7 ||| put typ 5 ||| put rm 0 → decodeWord x = .ok (.andReg cond sf rn rd imm5 typ rm) from H _ rfl
  intro x hx
  have hk : x &&& 0x0FE00010 = 0x00000000 := by simp (disch := decide) only [hx, or_and, put_and_apart]; rfl
  have hc : bits x 28 4 ≠ 15 := by
    simp (disch := decide) only [hx, bits_or, bits_put_same, bits_put_apart, bits_ofNat, BitVec.reduceExtractLsb', BitVec.zero_or, BitVec.or_zero]
    exact bne_iff_ne.mp h
  refine (decode0 67 [] hk hc ⟨rfl, rfl⟩ rfl (by decide +kernel)
    (List.forall_mem_nil _) (by decide) rfl).trans ?_
  simp (disch := decide) only [hx, bits_or, bits_put_same, bits_put_apart, bits_ofNat, BitVec.reduceExtractLsb', BitVec.zero_or, BitVec.or_zero]

/-- Row 102 of the opcode table. -/
theorem RoundTrip.andRsr (cond sf rn rd rs typ rm) : RoundTrip.Statement (.andRsr cond sf rn rd rs typ rm) := fun hwf => by
  have h : (cond != 15) = true := hwf
  suffices H : ∀ x, x = 0x00000010#32 ||| put cond 28 ||| put sf 20 ||| put rn 16 ||| put rd 12 ||| put rs 8 ||| put typ 5 ||| put rm 0 → decodeWord x = .ok (.andRsr cond sf rn rd rs typ rm) from H _ rfl
  intro x hx
  have hk : x &&& 0x0FE00090 = 0x00000010 := by simp (disch := decide) only [hx, or_and, put_and_apart]; rfl
  have hc : bits x 28 4 ≠ 15 := by
    simp (disch := decide) only [hx, bits_or, bits_put_same, bits_put_apart, bits_ofNat, BitVec.reduceExtractLsb', BitVec.zero_or, BitVec.or_zero]
    exact bne_iff_ne.mp h
  refine (decode0 68 [] hk hc ⟨rfl, rfl⟩ rfl (by decide +kernel)
    (List.forall_mem_nil _) (by decide) rfl).trans ?_
  simp (disch := decide) only [hx, bits_or, bits_put_same, bits_put_apart, bits_ofNat, BitVec.reduceExtractLsb', BitVec.zero_or, BitVec.or_zero]

/-- Row 103 of the opcode table. -/
theorem RoundTrip.eorImm (cond sf rn rd imm12) : RoundTrip.Statement (.eorImm cond sf rn rd imm12) := fun hwf => by
  have h : (cond != 15) = true := hwf
  suffices H : ∀ x, x = 0x02200000#32 ||| put cond 28 ||| put sf 20 ||| put rn 16 ||| put rd 12 ||| put imm12 0 → decodeWord x = .ok (.eorImm cond sf rn rd imm12) from H _ rfl
  intro x hx
  have hk : x &&& 0x0FE00000 = 0x02200000 := by simp (disch := decide) only [hx, or_and, put_and_apart]; rfl
  have hc : bits x 28 4 ≠ 15 := by
    simp (disch := decide) only [hx, bits_or, bits_put_same, bits_put_apart, bits_ofNat, BitVec.reduceExtractLsb', BitVec.zero_or, BitVec.or_zero]
    exact bne_iff_ne.mp h
  refine (decode1 12 [] hk hc ⟨rfl, rfl⟩ rfl (by decide +kernel)
    (List.forall_mem_nil _) (by decide) rfl).trans ?_
  simp (disch := decide) only [hx, bits_or, bits_put_same, bits_put_apart, bits_ofNat, BitVec.reduceExtractLsb', BitVec.zero_or, BitVec.or_zero]

/-- Row 104 of the opcode table. -/
theorem RoundTrip.eorReg (cond sf rn rd imm5 typ rm) : RoundTrip.Statement (.eorReg cond sf rn rd imm5 typ rm) := fun hwf => by
  have h : (cond != 15) = true := hwf
  suffices H : ∀ x, x = 0x00200000#32 ||| put cond 28 ||| put sf 20 ||| put rn 16 ||| put rd 12 ||| put imm5 7 ||| put typ 5 ||| put rm 0 → decodeWord x = .ok (.eorReg cond sf rn rd imm5 typ rm) from H _ rfl
  intro x hx
  have hk : x &&& 0x0FE00010 = 0x00200000 := by simp (disch := decide) only [hx, or_and, put_and_apart]; rfl
  have hc : bits x 28 4 ≠ 15 := by
    simp (disch := decide) only [hx, bits_or, bits_put_same, bits_put_apart, bits_ofNat, BitVec.reduceExtractLsb', BitVec.zero_or, BitVec.or_zero]
    exact bne_iff_ne.mp h
  refine (decode0 69 [] hk hc ⟨rfl, rfl⟩ rfl (by decide +kernel)
    (List.forall_mem_nil _) (by decide) rfl).trans ?_
  simp (disch := decide) only [hx, bits_or, bits_put_same, bits_put_apart, bits_ofNat, BitVec.reduceExtractLsb', BitVec.zero_or, BitVec.or_zero]

/-- Row 105 of the opcode table. -/
theorem RoundTrip.eorRsr (cond sf rn rd rs typ rm) : RoundTrip.Statement (.eorRsr cond sf rn rd rs typ rm) := fun hwf => by
  have h : (cond != 15) = true := hwf
  suffices H : ∀ x, x = 0x00200010#32 ||| put cond 28 ||| put sf 20 ||| put rn 16 ||| put rd 12 ||| put rs 8 ||| put typ 5 ||| put rm 0 → decodeWord x = .ok (.eorRsr cond sf rn rd rs typ rm) from H _ rfl
  intro x hx
  have hk : x &&& 0x0FE00090 = 0x00200010 := by simp (disch := decide) only [hx, or_and, put_and_apart]; rfl
  have hc : bits x 28 4 ≠ 15 := by
    simp (disch := decide) only [hx, bits_or, bits_put_same, bits_put_apart, bits_ofNat, BitVec.reduceExtractLsb', BitVec.zero_or, BitVec.or_zero]
    exact bne_iff_ne.mp h
  refine (decode0 70 [] hk hc ⟨rfl, rfl⟩ rfl (by decide +kernel)
    (List.forall_mem_nil _) (by decide) rfl).trans ?_
  simp (disch := decide) only [hx, bits_or, bits_put_same, bits_put_apart, bits_ofNat, BitVec.reduceExtractLsb', BitVec.zero_or, BitVec.or_zero]

/-- Row 106 of the opcode table. -/
theorem RoundTrip.subImm (cond sf rn rd imm12) : RoundTrip.Statement (.subImm cond sf rn rd imm12) := fun hwf => by
  have h : (cond != 15) = true := hwf
  suffices H : ∀ x, x = 0x02400000#32 ||| put cond 28 ||| put sf 20 ||| put rn 16 ||| put rd 12 ||| put imm12 0 → decodeWord x = .ok (.subImm cond sf rn rd imm12) from H _ rfl
  intro x hx
  have hk : x &&& 0x0FE00000 = 0x02400000 := by simp (disch := decide) only [hx, or_and, put_and_apart]; rfl
  have hc : bits x 28 4 ≠ 15 := by
    simp (disch := decide) only [hx, bits_or, bits_put_same, bits_put_apart, bits_ofNat, BitVec.reduceExtractLsb', BitVec.zero_or, BitVec.or_zero]
    exact bne_iff_ne.mp h
  refine (decode1 13 [] hk hc ⟨rfl, rfl⟩ rfl (by decide +kernel)
    (List.forall_mem_nil _) (by decide) rfl).trans ?_
  simp (disch := decide) only [hx, bits_or, bits_put_same, bits_put_apart, bits_ofNat, BitVec.reduceExtractLsb', BitVec.zero_or, BitVec.or_zero]

/-- Row 107 of the opcode table. -/
theorem RoundTrip.subReg (cond sf rn rd imm5 typ rm) : RoundTrip.Statement (.subReg cond sf rn rd imm5 typ rm) := fun hwf => by
  have h : (cond != 15) = true := hwf
  suffices H : ∀ x, x = 0x00400000#32 ||| put cond 28 ||| put sf 20 ||| put rn 16 ||| put rd 12 ||| put imm5 7 ||| put typ 5 ||| put rm 0 → decodeWord x = .ok (.subReg cond sf rn rd imm5 typ rm) from H _ rfl
  intro x hx
  have hk : x &&& 0x0FE00010 = 0x00400000 := by simp (disch := decide) only [hx, or_and, put_and_apart]; rfl
  have hc : bits x 28 4 ≠ 15 := by
    simp (disch := decide) only [hx, bits_or, bits_put_same, bits_put_apart, bits_ofNat, BitVec.reduceExtractLsb', BitVec.zero_or, BitVec.or_zero]
    exact bne_iff_ne.mp h
  refine (decode0 71 [] hk hc ⟨rfl, rfl⟩ rfl (by decide +kernel)
    (List.forall_mem_nil _) (by decide) rfl).trans ?_
  simp (disch := decide) only [hx, bits_or, bits_put_same, bits_put_apart, bits_ofNat, BitVec.reduceExtractLsb', BitVec.zero_or, BitVec.or_zero]

/-- Row 108 of the opcode table. -/
theorem RoundTrip.subRsr (cond sf rn rd rs typ rm) : RoundTrip.Statement (.subRsr cond sf rn rd rs typ rm) := fun hwf => by
  have h : (cond != 15) = true := hwf
  suffices H : ∀ x, x = 0x00400010#32 ||| put cond 28 ||| put sf 20 ||| put rn 16 ||| put rd 12 ||| put rs 8 ||| put typ 5 ||| put rm 0 → decodeWord x = .ok (.subRsr cond sf rn rd rs typ rm) from H _ rfl
  intro x hx
  have hk : x &&& 0x0FE00090 = 0x00400010 := by simp (disch := decide) only [hx, or_and, put_and_apart]; rfl
  have hc : bits x 28 4 ≠ 15 := by
    simp (disch := decide) only [hx, bits_or, bits_put_same, bits_put_apart, bits_ofNat, BitVec.reduceExtractLsb', BitVec.zero_or, BitVec.or_zero]
    exact bne_iff_ne.mp h
  refine (decode0 72 [] hk hc ⟨rfl, rfl⟩ rfl (by decide +kernel)
    (List.forall_mem_nil _) (by decide) rfl).trans ?_
  simp (disch := decide) only [hx, bits_or, bits_put_same, bits_put_apart, bits_ofNat, BitVec.reduceExtractLsb', BitVec.zero_or, BitVec.or_zero]

/-- Row 109 of the opcode table. -/
theorem RoundTrip.rsbImm (cond sf rn rd imm12) : RoundTrip.Statement (.rsbImm cond sf rn rd imm12) := fun hwf => by
  have h : (cond != 15) = true := hwf
  suffices H : ∀ x, x = 0x02600000#32 ||| put cond 28 ||| put sf 20 ||| put rn 16 ||| put rd 12 ||| put imm12 0 → decodeWord x = .ok (.rsbImm cond sf rn rd imm12) from H _ rfl
  intro x hx
  have hk : x &&& 0x0FE00000 = 0x02600000 := by simp (disch := decide) only [hx, or_and, put_and_apart]; rfl
  have hc : bits x 28 4 ≠ 15 := by
    simp (disch := decide) only [hx, bits_or, bits_put_same, bits_put_apart, bits_ofNat, BitVec.reduceExtractLsb', BitVec.zero_or, BitVec.or_zero]
    exact bne_iff_ne.mp h
  refine (decode1 14 [] hk hc ⟨rfl, rfl⟩ rfl (by decide +kernel)
    (List.forall_mem_nil _) (by decide) rfl).trans ?_
  simp (disch := decide) only [hx, bits_or, bits_put_same, bits_put_apart, bits_ofNat, BitVec.reduceExtractLsb', BitVec.zero_or, BitVec.or_zero]

/-- Row 110 of the opcode table. -/
theorem RoundTrip.rsbReg (cond sf rn rd imm5 typ rm) : RoundTrip.Statement (.rsbReg cond sf rn rd imm5 typ rm) := fun hwf => by
  have h : (cond != 15) = true := hwf
  suffices H : ∀ x, x = 0x00600000#32 ||| put cond 28 ||| put sf 20 ||| put rn 16 ||| put rd 12 ||| put imm5 7 ||| put typ 5 ||| put rm 0 → decodeWord x = .ok (.rsbReg cond sf rn rd imm5 typ rm) from H _ rfl
  intro x hx
  have hk : x &&& 0x0FE00010 = 0x00600000 := by simp (disch := decide) only [hx, or_and, put_and_apart]; rfl
  have hc : bits x 28 4 ≠ 15 := by
    simp (disch := decide) only [hx, bits_or, bits_put_same, bits_put_apart, bits_ofNat, BitVec.reduceExtractLsb', BitVec.zero_or, BitVec.or_zero]
    exact bne_iff_ne.mp h
  refine (decode0 73 [] hk hc ⟨rfl, rfl⟩ rfl (by decide +kernel)
    (List.forall_mem_nil _) (by decide) rfl).trans ?_
  simp (disch := decide) only [hx, bits_or, bits_put_same, bits_put_apart, bits_ofNat, BitVec.reduceExtractLsb', BitVec.zero_or, BitVec.or_zero]

/-- Row 111 of the opcode table. -/
theorem RoundTrip.rsbRsr (cond sf rn rd rs typ rm) : RoundTrip.Statement (.rsbRsr cond sf rn rd rs typ rm) := fun hwf => by
  have h : (cond != 15) = true := hwf
  suffices H : ∀ x, x = 0x00600010#32 ||| put cond 28 ||| put sf 20 ||| put rn 16 ||| put rd 12 ||| put rs 8 ||| put typ 5 ||| put rm 0 → decodeWord x = .ok (.rsbRsr cond sf rn rd rs typ rm) from H _ rfl
  intro x hx
  have hk : x &&& 0x0FE00090 = 0x00600010 := by simp (disch := decide) only [hx, or_and, put_and_apart]; rfl
  have hc : bits x 28 4 ≠ 15 := by
    simp (disch := decide) only [hx, bits_or, bits_put_same, bits_put_apart, bits_ofNat, BitVec.reduceExtractLsb', BitVec.zero_or, BitVec.or_zero]
    exact bne_iff_ne.mp h
  refine (decode0 74 [] hk hc ⟨rfl, rfl⟩ rfl (by decide +kernel)
    (List.forall_mem_nil _) (by decide) rfl).trans ?_
  simp (disch := decide) only [hx, bits_or, bits_put_same, bits_put_apart, bits_ofNat, BitVec.reduceExtractLsb', BitVec.zero_or, BitVec.or_zero]

/-- Row 112 of the opcode table. -/
theorem RoundTrip.addImm (cond sf rn rd imm12) : RoundTrip.Statement (.addImm cond sf rn rd imm12) := fun hwf => by
  have h : (cond != 15) = true := hwf
  suffices H : ∀ x, x = 0x02800000#32 ||| put cond 28 ||| put sf 20 ||| put rn 16 ||| put rd 12 ||| put imm12 0 → decodeWord x = .ok (.addImm cond sf rn rd imm12) from H _ rfl
  intro x hx
  have hk : x &&& 0x0FE00000 = 0x02800000 := by simp (disch := decide) only [hx, or_and, put_and_apart]; rfl
  have hc : bits x 28 4 ≠ 15 := by
    simp (disch := decide) only [hx, bits_or, bits_put_same, bits_put_apart, bits_ofNat, BitVec.reduceExtractLsb', BitVec.zero_or, BitVec.or_zero]
    exact bne_iff_ne.mp h
  refine (decode1 15 [] hk hc ⟨rfl, rfl⟩ rfl (by decide +kernel)
    (List.forall_mem_nil _) (by decide) rfl).trans ?_
  simp (disch := decide) only [hx, bits_or, bits_put_same, bits_put_apart, bits_ofNat, BitVec.reduceExtractLsb', BitVec.zero_or, BitVec.or_zero]

/-- Row 113 of the opcode table. -/
theorem RoundTrip.addReg (cond sf rn rd imm5 typ rm) : RoundTrip.Statement (.addReg cond sf rn rd imm5 typ rm) := fun hwf => by
  have h : (cond != 15) = true := hwf
  suffices H : ∀ x, x = 0x00800000#32 ||| put cond 28 ||| put sf 20 ||| put rn 16 ||| put rd 12 ||| put imm5 7 ||| put typ 5 ||| put rm 0 → decodeWord x = .ok (.addReg cond sf rn rd imm5 typ rm) from H _ rfl
  intro x hx
  have hk : x &&& 0x0FE00010 = 0x00800000 := by simp (disch := decide) only [hx, or_and, put_and_apart]; rfl
  have hc : bits x 28 4 ≠ 15 := by
    simp (disch := decide) only [hx, bits_or, bits_put_same, bits_put_apart, bits_ofNat, BitVec.reduceExtractLsb', BitVec.zero_or, BitVec.or_zero]
    exact bne_iff_ne.mp h
  refine (decode0 75 [] hk hc ⟨rfl, rfl⟩ rfl (by decide +kernel)
    (List.forall_mem_nil _) (by decide) rfl).trans ?_
  simp (disch := decide) only [hx, bits_or, bits_put_same, bits_put_apart, bits_ofNat, BitVec.reduceExtractLsb', BitVec.zero_or, BitVec.or_zero]

/-- Row 114 of the opcode table. -/
theorem RoundTrip.addRsr (cond sf rn rd rs typ rm) : RoundTrip.Statement (.addRsr cond sf rn rd rs typ rm) := fun hwf => by
  have h : (cond != 15) = true := hwf
  suffices H : ∀ x, x = 0x00800010#32 ||| put cond 28 ||| put sf 20 ||| put rn 16 ||| put rd 12 ||| put rs 8 ||| put typ 5 ||| put rm 0 → decodeWord x = .ok (.addRsr cond sf rn rd rs typ rm) from H _ rfl
  intro x hx
  have hk : x &&& 0x0FE00090 = 0x00800010 := by simp (disch := decide) only [hx, or_and, put_and_apart]; rfl
  have hc : bits x 28 4 ≠ 15 := by
    simp (disch := decide) only [hx, bits_or, bits_put_same, bits_put_apart, bits_ofNat, BitVec.reduceExtractLsb', BitVec.zero_or, BitVec.or_zero]
    exact bne_iff_ne.mp h
  refine (decode0 76 [] hk hc ⟨rfl, rfl⟩ rfl (by decide +kernel)
    (List.forall_mem_nil _) (by decide) rfl).trans ?_
  simp (disch := decide) only [hx, bits_or, bits_put_same, bits_put_apart, bits_ofNat, BitVec.reduceExtractLsb', BitVec.zero_or, BitVec.or_zero]

/-- Row 115 of the opcode table. -/
theorem RoundTrip.adcImm (cond sf rn rd imm12) : RoundTrip.Statement (.adcImm cond sf rn rd imm12) := fun hwf => by
  have h : (cond != 15) = true := hwf
  suffices H : ∀ x, x = 0x02A00000#32 ||| put cond 28 ||| put sf 20 ||| put rn 16 ||| put rd 12 ||| put imm12 0 → decodeWord x = .ok (.adcImm cond sf rn rd imm12) from H _ rfl
  intro x hx
  have hk : x &&& 0x0FE00000 = 0x02A00000 := by simp (disch := decide) only [hx, or_and, put_and_apart]; rfl
  have hc : bits x 28 4 ≠ 15 := by
    simp (disch := decide) only [hx, bits_or, bits_put_same, bits_put_apart, bits_ofNat, BitVec.reduceExtractLsb', BitVec.zero_or, BitVec.or_zero]
    exact bne_iff_ne.mp h
  refine (decode1 16 [] hk hc ⟨rfl, rfl⟩ rfl (by decide +kernel)
    (List.forall_mem_nil _) (by decide) rfl).trans ?_
  simp (disch := decide) only [hx, bits_or, bits_put_same, bits_put_apart, bits_ofNat, BitVec.reduceExtractLsb', BitVec.zero_or, BitVec.or_zero]

/-- Row 116 of the opcode table. -/
theorem RoundTrip.adcReg (cond sf rn rd imm5 typ rm) : RoundTrip.Statement (.adcReg cond sf rn rd imm5 typ rm) := fun hwf => by
  have h : (cond != 15) = true := hwf
  suffices H : ∀ x, x = 0x00A00000#32 ||| put cond 28 ||| put sf 20 ||| put rn 16 ||| put rd 12 ||| put imm5 7 ||| put typ 5 ||| put rm 0 → decodeWord x = .ok (.adcReg cond sf rn rd imm5 typ rm) from H _ rfl
  intro x hx
  have hk : x &&& 0x0FE00010 = 0x00A00000 := by simp (disch := decide) only [hx, or_and, put_and_apart]; rfl
  have hc : bits x 28 4 ≠ 15 := by
    simp (disch := decide) only [hx, bits_or, bits_put_same, bits_put_apart, bits_ofNat, BitVec.reduceExtractLsb', BitVec.zero_or, BitVec.or_zero]
    exact bne_iff_ne.mp h
  refine (decode0 77 [] hk hc ⟨rfl, rfl⟩ rfl (by decide +kernel)
    (List.forall_mem_nil _) (by decide) rfl).trans ?_
  simp (disch := decide) only [hx, bits_or, bits_put_same, bits_put_apart, bits_ofNat, BitVec.reduceExtractLsb', BitVec.zero_or, BitVec.or_zero]

/-- Row 117 of the opcode table. -/
theorem RoundTrip.adcRsr (cond sf rn rd rs typ rm) : RoundTrip.Statement (.adcRsr cond sf rn rd rs typ rm) := fun hwf => by
  have h : (cond != 15) = true := hwf
  suffices H : ∀ x, x = 0x00A00010#32 ||| put cond 28 ||| put sf 20 ||| put rn 16 ||| put rd 12 ||| put rs 8 ||| put typ 5 ||| put rm 0 → decodeWord x = .ok (.adcRsr cond sf rn rd rs typ rm) from H _ rfl
  intro x hx
  have hk : x &&& 0x0FE00090 = 0x00A00010 := by simp (disch := decide) only [hx, or_and, put_and_apart]; rfl
  have hc : bits x 28 4 ≠ 15 := by
    simp (disch := decide) only [hx, bits_or, bits_put_same, bits_put_apart, bits_ofNat, BitVec.reduceExtractLsb', BitVec.zero_or, BitVec.or_zero]
    exact bne_iff_ne.mp h
  refine (decode0 78 [] hk hc ⟨rfl, rfl⟩ rfl (by decide +kernel)
    (List.forall_mem_nil _) (by decide) rfl).trans ?_
  simp (disch := decide) only [hx, bits_or, bits_put_same, bits_put_apart, bits_ofNat, BitVec.reduceExtractLsb', BitVec.zero_or, BitVec.or_zero]

/-- Row 118 of the opcode table. -/
theorem RoundTrip.sbcImm (cond sf rn rd imm12) : RoundTrip.Statement (.sbcImm cond sf rn rd imm12) := fun hwf => by
  have h : (cond != 15) = true := hwf
  suffices H : ∀ x, x = 0x02C00000#32 ||| put cond 28 ||| put sf 20 ||| put rn 16 ||| put rd 12 ||| put imm12 0 → decodeWord x = .ok (.sbcImm cond sf rn rd imm12) from H _ rfl
  intro x hx
  have hk : x &&& 0x0FE00000 = 0x02C00000 := by simp (disch := decide) only [hx, or_and, put_and_apart]; rfl
  have hc : bits x 28 4 ≠ 15 := by
    simp (disch := decide) only [hx, bits_or, bits_put_same, bits_put_apart, bits_ofNat, BitVec.reduceExtractLsb', BitVec.zero_or, BitVec.or_zero]
    exact bne_iff_ne.mp h
  refine (decode1 17 [] hk hc ⟨rfl, rfl⟩ rfl (by decide +kernel)
    (List.forall_mem_nil _) (by decide) rfl).trans ?_
  simp (disch := decide) only [hx, bits_or, bits_put_same, bits_put_apart, bits_ofNat, BitVec.reduceExtractLsb', BitVec.zero_or, BitVec.or_zero]

/-- Row 119 of the opcode table. -/
theorem RoundTrip.sbcReg (cond sf rn rd imm5 typ rm) : RoundTrip.Statement (.sbcReg cond sf rn rd imm5 typ rm) := fun hwf => by
  have h : (cond != 15) = true := hwf
  suffices H : ∀ x, x = 0x00C00000#32 ||| put cond 28 ||| put sf 20 ||| put rn 16 ||| put rd 12 ||| put imm5 7 ||| put typ 5 ||| put rm 0 → decodeWord x = .ok (.sbcReg cond sf rn rd imm5 typ rm) from H _ rfl
  intro x hx
  have hk : x &&& 0x0FE00010 = 0x00C00000 := by simp (disch := decide) only [hx, or_and, put_and_apart]; rfl
  have hc : bits x 28 4 ≠ 15 := by
    simp (disch := decide) only [hx, bits_or, bits_put_same, bits_put_apart, bits_ofNat, BitVec.reduceExtractLsb', BitVec.zero_or, BitVec.or_zero]
    exact bne_iff_ne.mp h
  refine (decode0 79 [] hk hc ⟨rfl, rfl⟩ rfl (by decide +kernel)
    (List.forall_mem_nil _) (by decide) rfl).trans ?_
  simp (disch := decide) only [hx, bits_or, bits_put_same, bits_put_apart, bits_ofNat, BitVec.reduceExtractLsb', BitVec.zero_or, BitVec.or_zero]

/-- Row 120 of the opcode table. -/
theorem RoundTrip.sbcRsr (cond sf rn rd rs typ rm) : RoundTrip.Statement (.sbcRsr cond sf rn rd rs typ rm) := fun hwf => by
  have h : (cond != 15) = true := hwf
  suffices H : ∀ x, x = 0x00C00010#32 ||| put cond 28 ||| put sf 20 ||| put rn 16 ||| put rd 12 ||| put rs 8 ||| put typ 5 ||| put rm 0 → decodeWord x = .ok (.sbcRsr cond sf rn rd rs typ rm) from H _ rfl
  intro x hx
  have hk : x &&& 0x0FE00090 = 0x00C00010 := by simp (disch := decide) only [hx, or_and, put_and_apart]; rfl
  have hc : bits x 28 4 ≠ 15 := by
    simp (disch := decide) only [hx, bits_or, bits_put_same, bits_put_apart, bits_ofNat, BitVec.reduceExtractLsb', BitVec.zero_or, BitVec.or_zero]
    exact bne_iff_ne.mp h
  refine (decode0 80 [] hk hc ⟨rfl, rfl⟩ rfl (by decide +kernel)
    (List.forall_mem_nil _) (by decide) rfl).trans ?_
  simp (disch := decide) only [hx, bits_or, bits_put_same, bits_put_apart, bits_ofNat, BitVec.reduceExtractLsb', BitVec.zero_or, BitVec.or_zero]

/-- Row 121 of the opcode table. -/
theorem RoundTrip.rscImm (cond sf rn rd imm12) : RoundTrip.Statement (.rscImm cond sf rn rd imm12) := fun hwf => by
  have h : (cond != 15) = true := hwf
  suffices H : ∀ x, x = 0x02E00000#32 ||| put cond 28 ||| put sf 20 ||| put rn 16 ||| put rd 12 ||| put imm12 0 → decodeWord x = .ok (.rscImm cond sf rn rd imm12) from H _ rfl
  intro x hx
  have hk : x &&& 0x0FE00000 = 0x02E00000 := by simp (disch := decide) only [hx, or_and, put_and_apart]; rfl
  have hc : bits x 28 4 ≠ 15 := by
    simp (disch := decide) only [hx, bits_or, bits_put_same, bits_put_apart, bits_ofNat, BitVec.reduceExtractLsb', BitVec.zero_or, BitVec.or_zero]
    exact bne_iff_ne.mp h
  refine (decode1 18 [] hk hc ⟨rfl, rfl⟩ rfl (by decide +kernel)
    (List.forall_mem_nil _) (by decide) rfl).trans ?_
  simp (disch := decide) only [hx, bits_or, bits_put_same, bits_put_apart, bits_ofNat, BitVec.reduceExtractLsb', BitVec.zero_or, BitVec.or_zero]

/-- Row 122 of the opcode table. -/
theorem RoundTrip.rscReg (cond sf rn rd imm5 typ rm) : RoundTrip.Statement (.rscReg cond sf rn rd imm5 typ rm) := fun hwf => by
  have h : (cond != 15) = true := hwf
  suffices H : ∀ x, x = 0x00E00000#32 ||| put cond 28 ||| put sf 20 ||| put rn 16 ||| put rd 12 ||| put imm5 7 ||| put typ 5 ||| put rm 0 → decodeWord x = .ok (.rscReg cond sf rn rd imm5 typ rm) from H _ rfl
  intro x hx
  have hk : x &&& 0x0FE00010 = 0x00E00000 := by simp (disch := decide) only [hx, or_and, put_and_apart]; rfl
  have hc : bits x 28 4 ≠ 15 := by
    simp (disch := decide) only [hx, bits_or, bits_put_same, bits_put_apart, bits_ofNat, BitVec.reduceExtractLsb', BitVec.zero_or, BitVec.or_zero]
    exact bne_iff_ne.mp h
  refine (decode0 81 [] hk hc ⟨rfl, rfl⟩ rfl (by decide +kernel)
    (List.forall_mem_nil _) (by decide) rfl).trans ?_
  simp (disch := decide) only [hx, bits_or, bits_put_same, bits_put_apart, bits_ofNat, BitVec.reduceExtractLsb', BitVec.zero_or, BitVec.or_zero]

/-- Row 123 of the opcode table. -/
theorem RoundTrip.rscRsr (cond sf rn rd rs typ rm) : RoundTrip.Statement (.rscRsr cond sf rn rd rs typ rm) := fun hwf => by
  have h : (cond != 15) = true := hwf
  suffices H : ∀ x, x = 0x00E00010#32 ||| put cond 28 ||| put sf 20 ||| put rn 16 ||| put rd 12 ||| put rs 8 ||| put typ 5 ||| put rm 0 → decodeWord x = .ok (.rscRsr cond sf rn rd rs typ rm) from H _ rfl
  intro x hx
  have hk : x &&& 0x0FE00090 = 0x00E00010 := by simp (disch := decide) only [hx, or_and, put_and_apart]; rfl
  have hc : bits x 28 4 ≠ 15 := by
    simp (disch := decide) only [hx, bits_or, bits_put_same, bits_put_apart, bits_ofNat, BitVec.reduceExtractLsb', BitVec.zero_or, BitVec.or_zero]
    exact bne_iff_ne.mp h
  refine (decode0 82 [] hk hc ⟨rfl, rfl⟩ rfl (by decide +kernel)
    (List.forall_mem_nil _) (by decide) rfl).trans ?_
  simp (disch := decide) only [hx, bits_or, bits_put_same, bits_put_apart, bits_ofNat, BitVec.reduceExtractLsb', BitVec.zero_or, BitVec.or_zero]

/-- Row 124 of the opcode table. -/
theorem RoundTrip.tstImm (cond rn imm12) : RoundTrip.Statement (.tstImm cond rn imm12) := fun hwf => by
  have h : (cond != 15) = true := hwf
  suffices H : ∀ x, x = 0x03100000#32 ||| put cond 28 ||| put rn 16 ||| put imm12 0 → decodeWord x = .ok (.tstImm cond rn imm12) from H _ rfl
  intro x hx
  have hk : x &&& 0x0FF0F000 = 0x03100000 := by simp (disch := decide) only [hx, or_and, put_and_apart]; rfl
  have hc : bits x 28 4 ≠ 15 := by
    simp (disch := decide) only [hx, bits_or, bits_put_same, bits_put_apart, bits_ofNat, BitVec.reduceExtractLsb', BitVec.zero_or, BitVec.or_zero]
    exact bne_iff_ne.mp h
  refine (decode1 19 [] hk hc ⟨rfl, rfl⟩ rfl (by decide +kernel)
    (List.forall_mem_nil _) (by decide) rfl).trans ?_
  simp (disch := decide) only [hx, bits_or, bits_put_same, bits_put_apart, bits_ofNat, BitVec.reduceExtractLsb', BitVec.zero_or, BitVec.or_zero]

/-- Row 125 of the opcode table. -/
theorem RoundTrip.tstReg (cond rn imm5 typ rm) : RoundTrip.Statement (.tstReg cond rn imm5 typ rm) := fun hwf => by
  have h : (cond != 15) = true := hwf
  suffices H : ∀ x, x = 0x01100000#32 ||| put cond 28 ||| put rn 16 ||| put imm5 7 ||| put typ 5 ||| put rm 0 → decodeWord x = .ok (.tstReg cond rn imm5 typ rm) from H _ rfl
  intro x hx
  have hk : x &&& 0x0FF0F010 = 0x01100000 := by simp (disch := decide) only [hx, or_and, put_and_apart]; rfl
  have hc : bits x 28 4 ≠ 15 := by
    simp (disch := decide) only [hx, bits_or, bits_put_same, bits_put_apart, bits_ofNat, BitVec.reduceExtractLsb', BitVec.zero_or, BitVec.or_zero]
    exact bne_iff_ne.mp h
  refine (decode0 83 [] hk hc ⟨rfl, rfl⟩ rfl (by decide +kernel)
    (List.forall_mem_nil _) (by decide) rfl).trans ?_
  simp (disch := decide) only [hx, bits_or, bits_put_same, bits_put_apart, bits_ofNat, BitVec.reduceExtractLsb', BitVec.zero_or, BitVec.or_zero]

/-- Row 126 of the opcode table. -/
theorem RoundTrip.tstRsr (cond rn rs typ rm) : RoundTrip.Statement (.tstRsr cond rn rs typ rm) := fun hwf => by
  have h : (cond != 15) = true := hwf
  suffices H : ∀ x, x = 0x01100010#32 ||| put cond 28 ||| put rn 16 ||| put rs 8 ||| put typ 5 ||| put rm 0 → decodeWord x = .ok (.tstRsr cond rn rs typ rm) from H _ rfl
  intro x hx
  have hk : x &&& 0x0FF0F090 = 0x01100010 := by simp (disch := decide) only [hx, or_and, put_and_apart]; rfl
  have hc : bits x 28 4 ≠ 15 := by
    simp (disch := decide) only [hx, bits_or, bits_put_same, bits_put_apart, bits_ofNat, BitVec.reduceExtractLsb', BitVec.zero_or, BitVec.or_zero]
    exact bne_iff_ne.mp h
  refine (decode0 84 [] hk hc ⟨rfl, rfl⟩ rfl (by decide +kernel)
    (List.forall_mem_nil _) (by decide) rfl).trans ?_
  simp (disch := decide) only [hx, bits_or, bits_put_same, bits_put_apart, bits_ofNat, BitVec.reduceExtractLsb', BitVec.zero_or, BitVec.or_zero]

/-- Row 127 of the opcode table. -/
theorem RoundTrip.teqImm (cond rn imm12) : RoundTrip.Statement (.teqImm cond rn imm12) := fun hwf => by
  have h : (cond != 15) = true := hwf
  suffices H : ∀ x, x = 0x03300000#32 ||| put cond 28 ||| put rn 16 ||| put imm12 0 → decodeWord x = .ok (.teqImm cond rn imm12) from H _ rfl
  intro x hx
  have hk : x &&& 0x0FF0F000 = 0x03300000 := by simp (disch := decide) only [hx, or_and, put_and_apart]; rfl
  have hc : bits x 28 4 ≠ 15 := by
    simp (disch := decide) only [hx, bits_or, bits_put_same, bits_put_apart, bits_ofNat, BitVec.reduceExtractLsb', BitVec.zero_or, BitVec.or_zero]
    exact bne_iff_ne.mp h
  refine (decode1 20 [] hk hc ⟨rfl, rfl⟩ rfl (by decide +kernel)
    (List.forall_mem_nil _) (by decide) rfl).trans ?_
  simp (disch := decide) only [hx, bits_or, bits_put_same, bits_put_apart, bits_ofNat, BitVec.reduceExtractLsb', BitVec.zero_or, BitVec.or_zero]

/-- Row 128 of the opcode table. -/
theorem RoundTrip.teqReg (cond rn imm5 typ rm) : RoundTrip.Statement (.teqReg cond rn imm5 typ rm) := fun hwf => by
  have h : (cond != 15) = true := hwf
  suffices H : ∀ x, x = 0x01300000#32 ||| put cond 28 ||| put rn 16 ||| put imm5 7 ||| put typ 5 ||| put rm 0 → decodeWord x = .ok (.teqReg cond rn imm5 typ rm) from H _ rfl
  intro x hx
  have hk : x &&& 0x0FF0F010 = 0x01300000 := by simp (disch := decide) only [hx, or_and, put_and_apart]; rfl
  have hc : bits x 28 4 ≠ 15 := by
    simp (disch := decide) only [hx, bits_or, bits_put_same, bits_put_apart, bits_ofNat, BitVec.reduceExtractLsb', BitVec.zero_or, BitVec.or_zero]
    exact bne_iff_ne.mp h
  refine (decode0 85 [] hk hc ⟨rfl, rfl⟩ rfl (by decide +kernel)
    (List.forall_mem_nil _) (by decide) rfl).trans ?_
  simp (disch := decide) only [hx, bits_or, bits_put_same, bits_put_apart, bits_ofNat, BitVec.reduceExtractLsb', BitVec.zero_or, BitVec.or_zero]

/-- Row 129 of the opcode table. -/
theorem RoundTrip.teqRsr (cond rn rs typ rm) : RoundTrip.Statement (.teqRsr cond rn rs typ rm) := fun hwf => by
  have h : (cond != 15) = true := hwf
  suffices H : ∀ x, x = 0x01300010#32 ||| put cond 28 ||| put rn 16 ||| put rs 8 ||| put typ 5 ||| put rm 0 → decodeWord x = .ok (.teqRsr cond rn rs typ rm) from H _ rfl
  intro x hx
  have hk : x &&& 0x0FF0F090 = 0x01300010 := by simp (disch := decide) only [hx, or_and, put_and_apart]; rfl
  have hc : bits x 28 4 ≠ 15 := by
    simp (disch := decide) only [hx, bits_or, bits_put_same, bits_put_apart, bits_ofNat, BitVec.reduceExtractLsb', BitVec.zero_or, BitVec.or_zero]
    exact bne_iff_ne.mp h
  refine (decode0 86 [] hk hc ⟨rfl, rfl⟩ rfl (by decide +kernel)
    (List.forall_mem_nil _) (by decide) rfl).trans ?_
  simp (disch := decide) only [hx, bits_or, bits_put_same, bits_put_apart, bits_ofNat, BitVec.reduceExtractLsb', BitVec.zero_or, BitVec.or_zero]

/-- Row 130 of the opcode table. -/
theorem RoundTrip.cmpImm (cond rn imm12) : RoundTrip.Statement (.cmpImm cond rn imm12) := fun hwf => by
  have h : (cond != 15) = true := hwf
  suffices H : ∀ x, x = 0x03500000#32 ||| put cond 28 ||| put rn 16 ||| put imm12 0 → decodeWord x = .ok (.cmpImm cond rn imm12) from H _ rfl
  intro x hx
  have hk : x &&& 0x0FF0F000 = 0x03500000 := by simp (disch := decide) only [hx, or_and, put_and_apart]; rfl
  have hc : bits x 28 4 ≠ 15 := by
    simp (disch := decide) only [hx, bits_or, bits_put_same, bits_put_apart, bits_ofNat, BitVec.reduceExtractLsb', BitVec.zero_or, BitVec.or_zero]
    exact bne_iff_ne.mp h
  refine (decode1 21 [] hk hc ⟨rfl, rfl⟩ rfl (by decide +kernel)
    (List.forall_mem_nil _) (by decide) rfl).trans ?_
  simp (disch := decide) only [hx, bits_or, bits_put_same, bits_put_apart, bits_ofNat, BitVec.reduceExtractLsb', BitVec.zero_or, BitVec.or_zero]

/-- Row 131 of the opcode table. -/
theorem RoundTrip.cmpReg (cond rn imm5 typ rm) : RoundTrip.Statement (.cmpReg cond rn imm5 typ rm) := fun hwf => by
  have h : (cond != 15) = true := hwf
  suffices H : ∀ x, x = 0x01500000#32 ||| put cond 28 ||| put rn 16 ||| put imm5 7 ||| put typ 5 ||| put rm 0 → decodeWord x = .ok (.cmpReg cond rn imm5 typ rm) from H _ rfl
  intro x hx
  have hk : x &&& 0x0FF0F010 = 0x01500000 := by simp (disch := decide) only [hx, or_and, put_and_apart]; rfl
  have hc : bits x 28 4 ≠ 15 := by
    simp (disch := decide) only [hx, bits_or, bits_put_same, bits_put_apart, bits_ofNat, BitVec.reduceExtractLsb', BitVec.zero_or, BitVec.or_zero]
    exact bne_iff_ne.mp h
  refine (decode0 87 [] hk hc ⟨rfl, rfl⟩ rfl (by decide +kernel)
    (List.forall_mem_nil _) (by decide) rfl).trans ?_
  simp (disch := decide) only [hx, bits_or, bits_put_same, bits_put_apart, bits_ofNat, BitVec.reduceExtractLsb', BitVec.zero_or, BitVec.or_zero]

/-- Row 132 of the opcode table. -/
theorem RoundTrip.cmpRsr (cond rn rs typ rm) : RoundTrip.Statement (.cmpRsr cond rn rs typ rm) := fun hwf => by
  have h : (cond != 15) = true := hwf
  suffices H : ∀ x, x = 0x01500010#32 ||| put cond 28 ||| put rn 16 ||| put rs 8 ||| put typ 5 ||| put rm 0 → decodeWord x = .ok (.cmpRsr cond rn rs typ rm) from H _ rfl
  intro x hx
  have hk : x &&& 0x0FF0F090 = 0x01500010 := by simp (disch := decide) only [hx, or_and, put_and_apart]; rfl
  have hc : bits x 28 4 ≠ 15 := by
    simp (disch := decide) only [hx, bits_or, bits_put_same, bits_put_apart, bits_ofNat, BitVec.reduceExtractLsb', BitVec.zero_or, BitVec.or_zero]
    exact bne_iff_ne.mp h
  refine (decode0 88 [] hk hc ⟨rfl, rfl⟩ rfl (by decide +kernel)
    (List.forall_mem_nil _) (by decide) rfl).trans ?_
  simp (disch := decide) only [hx, bits_or, bits_put_same, bits_put_apart, bits_ofNat, BitVec.reduceExtractLsb', BitVec.zero_or, BitVec.or_zero]

/-- Row 133 of the opcode table. -/
theorem RoundTrip.cmnImm (cond rn imm12) : RoundTrip.Statement (.cmnImm cond rn imm12) := fun hwf => by
  have h : (cond != 15) = true := hwf
  suffices H : ∀ x, x = 0x03700000#32 ||| put cond 28 ||| put rn 16 ||| put imm12 0 → decodeWord x = .ok (.cmnImm cond rn imm12) from H _ rfl
  intro x hx
  have hk : x &&& 0x0FF0F000 = 0x03700000 := by simp (disch := decide) only [hx, or_and, put_and_apart]; rfl
  have hc : bits x 28 4 ≠ 15 := by
    simp (disch := decide) only [hx, bits_or, bits_put_same, bits_put_apart, bits_ofNat, BitVec.reduceExtractLsb', BitVec.zero_or, BitVec.or_zero]
    exact bne_iff_ne.mp h
  refine (decode1 22 [] hk hc ⟨rfl, rfl⟩ rfl (by decide +kernel)
    (List.forall_mem_nil _) (by decide) rfl).trans ?_
  simp (disch := decide) only [hx, bits_or, bits_put_same, bits_put_apart, bits_ofNat, BitVec.reduceExtractLsb', BitVec.zero_or, BitVec.or_zero]

/-- Row 134 of the opcode table. -/
theorem RoundTrip.cmnReg (cond rn imm5 typ rm) : RoundTrip.Statement (.cmnReg cond rn imm5 typ rm) := fun hwf => by
  have h : (cond != 15) = true := hwf
  suffices H : ∀ x, x = 0x01700000#32 ||| put cond 28 ||| put rn 16 ||| put imm5 7 ||| put typ 5 ||| put rm 0 → decodeWord x = .ok (.cmnReg cond rn imm5 typ rm) from H _ rfl
  intro x hx
  have hk : x &&& 0x0FF0F010 = 0x01700000 := by simp (disch := decide) only [hx, or_and, put_and_apart]; rfl
  have hc : bits x 28 4 ≠ 15 := by
    simp (disch := decide) only [hx, bits_or, bits_put_same, bits_put_apart, bits_ofNat, BitVec.reduceExtractLsb', BitVec.zero_or, BitVec.or_zero]
    exact bne_iff_ne.mp h
  refine (decode0 89 [] hk hc ⟨rfl, rfl⟩ rfl (by decide +kernel)
    (List.forall_mem_nil _) (by decide) rfl).trans ?_
  simp (disch := decide) only [hx, bits_or, bits_put_same, bits_put_apart, bits_ofNat, BitVec.reduceExtractLsb', BitVec.zero_or, BitVec.or_zero]

/-- Row 135 of the opcode table. -/
theorem RoundTrip.cmnRsr (cond rn rs typ rm) : RoundTrip.Statement (.cmnRsr cond rn rs typ rm) := fun hwf => by
  have h : (cond != 15) = true := hwf
  suffices H : ∀ x, x = 0x01700010#32 ||| put cond 28 ||| put rn 16 ||| put rs 8 ||| put typ 5 ||| put rm 0 → decodeWord x = .ok (.cmnRsr cond rn rs typ rm) from H _ rfl
  intro x hx
  have hk : x &&& 0x0FF0F090 = 0x01700010 := by simp (disch := decide) only [hx, or_and, put_and_apart]; rfl
  have hc : bits x 28 4 ≠ 15 := by
    simp (disch := decide) only [hx, bits_or, bits_put_same, bits_put_apart, bits_ofNat, BitVec.reduceExtractLsb', BitVec.zero_or, BitVec.or_zero]
    exact bne_iff_ne.mp h
  refine (decode0 90 [] hk hc ⟨rfl, rfl⟩ rfl (by decide +kernel)
    (List.forall_mem_nil _) (by decide) rfl).trans ?_
  simp (disch := decide) only [hx, bits_or, bits_put_same, bits_put_apart, bits_ofNat, BitVec.reduceExtractLsb', BitVec.zero_or, BitVec.or_zero]

/-- Row 136 of the opcode table. -/
theorem RoundTrip.orrImm (cond sf rn rd imm12) : RoundTrip.Statement (.orrImm cond sf rn rd imm12) := fun hwf => by
  have h : (cond != 15) = true := hwf
  suffices H : ∀ x, x = 0x03800000#32 ||| put cond 28 ||| put sf 20 ||| put rn 16 ||| put rd 12 ||| put imm12 0 → decodeWord x = .ok (.orrImm cond sf rn rd imm12) from H _ rfl
  intro x hx
  have hk : x &&& 0x0FE00000 = 0x03800000 := by simp (disch := decide) only [hx, or_and, put_and_apart]; rfl
  have hc : bits x 28 4 ≠ 15 := by
    simp (disch := decide) only [hx, bits_or, bits_put_same, bits_put_apart, bits_ofNat, BitVec.reduceExtractLsb', BitVec.zero_or, BitVec.or_zero]
    exact bne_iff_ne.mp h
  refine (decode1 23 [] hk hc ⟨rfl, rfl⟩ rfl (by decide +kernel)
    (List.forall_mem_nil _) (by decide) rfl).trans ?_
  simp (disch := decide) only [hx, bits_or, bits_put_same, bits_put_apart, bits_ofNat, BitVec.reduceExtractLsb', BitVec.zero_or, BitVec.or_zero]

/-- Row 137 of the opcode table. -/
theorem RoundTrip.orrReg (cond sf rn rd imm5 typ rm) : RoundTrip.Statement (.orrReg cond sf rn rd imm5 typ rm) := fun hwf => by
  have h : (cond != 15) = true := hwf
  suffices H : ∀ x, x = 0x01800000#32 ||| put cond 28 ||| put sf 20 ||| put rn 16 ||| put rd 12 ||| put imm5 7 ||| put typ 5 ||| put rm 0 → decodeWord x = .ok (.orrReg cond sf rn rd imm5 typ rm) from H _ rfl
  intro x hx
  have hk : x &&& 0x0FE00010 = 0x01800000 := by simp (disch := decide) only [hx, or_and, put_and_apart]; rfl
  have hc : bits x 28 4 ≠ 15 := by
    simp (disch := decide) only [hx, bits_or, bits_put_same, bits_put_apart, bits_ofNat, BitVec.reduceExtractLsb', BitVec.zero_or, BitVec.or_zero]
    exact bne_iff_ne.mp h
  refine (decode0 91 [] hk hc ⟨rfl, rfl⟩ rfl (by decide +kernel)
    (List.forall_mem_nil _) (by decide) rfl).trans ?_
  simp (disch := decide) only [hx, bits_or, bits_put_same, bits_put_apart, bits_ofNat, BitVec.reduceExtractLsb', BitVec.zero_or, BitVec.or_zero]

/-- Row 138 of the opcode table. -/
theorem RoundTrip.orrRsr (cond sf rn rd rs typ rm) : RoundTrip.Statement (.orrRsr cond sf rn rd rs typ rm) := fun hwf => by
  have h : (cond != 15) = true := hwf
  suffices H : ∀ x, x = 0x01800010#32 ||| put cond 28 ||| put sf 20 ||| put rn 16 ||| put rd 12 ||| put rs 8 ||| put typ 5 ||| put rm 0 → decodeWord x = .ok (.orrRsr cond sf rn rd rs typ rm) from H _ rfl
  intro x hx
  have hk : x &&& 0x0FE00090 = 0x01800010 := by simp (disch := decide) only [hx, or_and, put_and_apart]; rfl
  have hc : bits x 28 4 ≠ 15 := by
    simp (disch := decide) only [hx, bits_or, bits_put_same, bits_put_apart, bits_ofNat, BitVec.reduceExtractLsb', BitVec.zero_or, BitVec.or_zero]
    exact bne_iff_ne.mp h
  refine (decode0 92 [] hk hc ⟨rfl, rfl⟩ rfl (by decide +kernel)
    (List.forall_mem_nil _) (by decide) rfl).trans ?_
  simp (disch := decide) only [hx, bits_or, bits_put_same, bits_put_apart, bits_ofNat, BitVec.reduceExtractLsb', BitVec.zero_or, BitVec.or_zero]

/-- Row 139 of the opcode table. -/
theorem RoundTrip.movImm (cond sf rd imm12) : RoundTrip.Statement (.movImm cond sf rd imm12) := fun hwf => by
  have h : (cond != 15) = true := hwf
  suffices H : ∀ x, x = 0x03A00000#32 ||| put cond 28 ||| put sf 20 ||| put rd 12 ||| put imm12 0 → decodeWord x = .ok (.movImm cond sf rd imm12) from H _ rfl
  intro x hx
  have hk : x &&& 0x0FEF0000 = 0x03A00000 := by simp (disch := decide) only [hx, or_and, put_and_apart]; rfl
  have hc : bits x 28 4 ≠ 15 := by
    simp (disch := decide) only [hx, bits_or, bits_put_same, bits_put_apart, bits_ofNat, BitVec.reduceExtractLsb', BitVec.zero_or, BitVec.or_zero]
    exact bne_iff_ne.mp h
  refine (decode1 24 [] hk hc ⟨rfl, rfl⟩ rfl (by decide +kernel)
    (List.forall_mem_nil _) (by decide) rfl).trans ?_
  simp (disch := decide) only [hx, bits_or, bits_put_same, bits_put_apart, bits_ofNat, BitVec.reduceExtractLsb', BitVec.zero_or, BitVec.or_zero]

/-- Row 140 of the opcode table. -/
theorem RoundTrip.movReg (cond sf rd imm5 typ rm) : RoundTrip.Statement (.movReg cond sf rd imm5 typ rm) := fun hwf => by
  have h : (cond != 15) = true := hwf
  suffices H : ∀ x, x = 0x01A00000#32 ||| put cond 28 ||| put sf 20 ||| put rd 12 ||| put imm5 7 ||| put typ 5 ||| put rm 0 → decodeWord x = .ok (.movReg cond sf rd imm5 typ rm) from H _ rfl
  intro x hx
  have hk : x &&& 0x0FEF0010 = 0x01A00000 := by simp (disch := decide) only [hx, or_and, put_and_apart]; rfl
  have hc : bits x 28 4 ≠ 15 := by
    simp (disch := decide) only [hx, bits_or, bits_put_same, bits_put_apart, bits_ofNat, BitVec.reduceExtractLsb', BitVec.zero_or, BitVec.or_zero]
    exact bne_iff_ne.mp h
  refine (decode0 93 [] hk hc ⟨rfl, rfl⟩ rfl (by decide +kernel)
    (List.forall_mem_nil _) (by decide) rfl).trans ?_
  simp (disch := decide) only [hx, bits_or, bits_put_same, bits_put_apart, bits_ofNat, BitVec.reduceExtractLsb', BitVec.zero_or, BitVec.or_zero]

/-- Row 141 of the opcode table. -/
theorem RoundTrip.movRsr (cond sf rd rs typ rm) : RoundTrip.Statement (.movRsr cond sf rd rs typ rm) := fun hwf => by
  have h : (cond != 15) = true := hwf
  suffices H : ∀ x, x = 0x01A00010#32 ||| put cond 28 ||| put sf 20 ||| put rd 12 ||| put rs 8 ||| put typ 5 ||| put rm 0 → decodeWord x = .ok (.movRsr cond sf rd rs typ rm) from H _ rfl
  intro x hx
  have hk : x &&& 0x0FEF0090 = 0x01A00010 := by simp (disch := decide) only [hx, or_and, put_and_apart]; rfl
  have hc : bits x 28 4 ≠ 15 := by
    simp (disch := decide) only [hx, bits_or, bits_put_same, bits_put_apart, bits_ofNat, BitVec.reduceExtractLsb', BitVec.zero_or, BitVec.or_zero]
    exact bne_iff_ne.mp h
  refine (decode0 94 [] hk hc ⟨rfl, rfl⟩ rfl (by decide +kernel)
    (List.forall_mem_nil _) (by decide) rfl).trans ?_
  simp (disch := decide) only [hx, bits_or, bits_put_same, bits_put_apart, bits_ofNat, BitVec.reduceExtractLsb', BitVec.zero_or, BitVec.or_zero]

/-- Row 142 of the opcode table. -/
theorem RoundTrip.bicImm (cond sf rn rd imm12) : RoundTrip.Statement (.bicImm cond sf rn rd imm12) := fun hwf => by
  have h : (cond != 15) = true := hwf
  suffices H : ∀ x, x = 0x03C00000#32 ||| put cond 28 ||| put sf 20 ||| put rn 16 ||| put rd 12 ||| put imm12 0 → decodeWord x = .ok (.bicImm cond sf rn rd imm12) from H _ rfl
  intro x hx
  have hk : x &&& 0x0FE00000 = 0x03C00000 := by simp (disch := decide) only [hx, or_and, put_and_apart]; rfl
  have hc : bits x 28 4 ≠ 15 := by
    simp (disch := decide) only [hx, bits_or, bits_put_same, bits_put_apart, bits_ofNat, BitVec.reduceExtractLsb', BitVec.zero_or, BitVec.or_zero]
    exact bne_iff_ne.mp h
  refine (decode1 25 [] hk hc ⟨rfl, rfl⟩ rfl (by decide +kernel)
    (List.forall_mem_nil _) (by decide) rfl).trans ?_
  simp (disch := decide) only [hx, bits_or, bits_put_same, bits_put_apart, bits_ofNat, BitVec.reduceExtractLsb', BitVec.zero_or, BitVec.or_zero]

/-- Row 143 of the opcode table. -/
theorem RoundTrip.bicReg (cond sf rn rd imm5 typ rm) : RoundTrip.Statement (.bicReg cond sf rn rd imm5 typ rm) := fun hwf => by
  have h : (cond != 15) = true := hwf
  suffices H : ∀ x, x = 0x01C00000#32 ||| put cond 28 ||| put sf 20 ||| put rn 16 ||| put rd 12 ||| put imm5 7 ||| put typ 5 ||| put rm 0 → decodeWord x = .ok (.bicReg cond sf rn rd imm5 typ rm) from H _ rfl
  intro x hx
  have hk : x &&& 0x0FE00010 = 0x01C00000 := by simp (disch := decide) only [hx, or_and, put_and_apart]; rfl
  have hc : bits x 28 4 ≠ 15 := by
    simp (disch := decide) only [hx, bits_or, bits_put_same, bits_put_apart, bits_ofNat, BitVec.reduceExtractLsb', BitVec.zero_or, BitVec.or_zero]
    exact bne_iff_ne.mp h
  refine (decode0 95 [] hk hc ⟨rfl, rfl⟩ rfl (by decide +kernel)
    (List.forall_mem_nil _) (by decide) rfl).trans ?_
  simp (disch := decide) only [hx, bits_or, bits_put_same, bits_put_apart, bits_ofNat, BitVec.reduceExtractLsb', BitVec.zero_or, BitVec.or_zero]

/-- Row 144 of the opcode table. -/
theorem RoundTrip.bicRsr (cond sf rn rd rs typ rm) : RoundTrip.Statement (.bicRsr cond sf rn rd rs typ rm) := fun hwf => by
  have h : (cond != 15) = true := hwf
  suffices H : ∀ x, x = 0x01C00010#32 ||| put cond 28 ||| put sf 20 ||| put rn 16 ||| put rd 12 ||| put rs 8 ||| put typ 5 ||| put rm 0 → decodeWord x = .ok (.bicRsr cond sf rn rd rs typ rm) from H _ rfl
  intro x hx
  have hk : x &&& 0x0FE00090 = 0x01C00010 := by simp (disch := decide) only [hx, or_and, put_and_apart]; rfl
  have hc : bits x 28 4 ≠ 15 := by
    simp (disch := decide) only [hx, bits_or, bits_put_same, bits_put_apart, bits_ofNat, BitVec.reduceExtractLsb', BitVec.zero_or, BitVec.or_zero]
    exact bne_iff_ne.mp h
  refine (decode0 96 [] hk hc ⟨rfl, rfl⟩ rfl (by decide +kernel)
    (List.forall_mem_nil _) (by decide) rfl).trans ?_
  simp (disch := decide) only [hx, bits_or, bits_put_same, bits_put_apart, bits_ofNat, BitVec.reduceExtractLsb', BitVec.zero_or, BitVec.or_zero]

/-- Row 145 of the opcode table. -/
theorem RoundTrip.mvnImm (cond sf rd imm12) : RoundTrip.Statement (.mvnImm cond sf rd imm12) := fun hwf => by
  have h : (cond != 15) = true := hwf
  suffices H : ∀ x, x = 0x03E00000#32 ||| put cond 28 ||| put sf 20 ||| put rd 12 ||| put imm12 0 → decodeWord x = .ok (.mvnImm cond sf rd imm12) from H _ rfl
  intro x hx
  have hk : x &&& 0x0FEF0000 = 0x03E00000 := by simp (disch := decide) only [hx, or_and, put_and_apart]; rfl
  have hc : bits x 28 4 ≠ 15 := by
    simp (disch := decide) only [hx, bits_or, bits_put_same, bits_put_apart, bits_ofNat, BitVec.reduceExtractLsb', BitVec.zero_or, BitVec.or_zero]
    exact bne_iff_ne.mp h
  refine (decode1 26 [] hk hc ⟨rfl, rfl⟩ rfl (by decide +kernel)
    (List.forall_mem_nil _) (by decide) rfl).trans ?_
  simp (disch := decide) only [hx, bits_or, bits_put_same, bits_put_apart, bits_ofNat, BitVec.reduceExtractLsb', BitVec.zero_or, BitVec.or_zero]

/-- Row 146 of the opcode table. -/
theorem RoundTrip.mvnReg (cond sf rd imm5 typ rm) : RoundTrip.Statement (.mvnReg cond sf rd imm5 typ rm) := fun hwf => by
  have h : (cond != 15) = true := hwf
  suffices H : ∀ x, x = 0x01E00000#32 ||| put cond 28 ||| put sf 20 ||| put rd 12 ||| put imm5 7 ||| put typ 5 ||| put rm 0 → decodeWord x = .ok (.mvnReg cond sf rd imm5 typ rm) from H _ rfl
  intro x hx
  have hk : x &&& 0x0FEF0010 = 0x01E00000 := by simp (disch := decide) only [hx, or_and, put_and_apart]; rfl
  have hc : bits x 28 4 ≠ 15 := by
    simp (disch := decide) only [hx, bits_or, bits_put_same, bits_put_apart, bits_ofNat, BitVec.reduceExtractLsb', BitVec.zero_or, BitVec.or_zero]
    exact bne_iff_ne.mp h
  refine (decode0 97 [] hk hc ⟨rfl, rfl⟩ rfl (by decide +kernel)
    (List.forall_mem_nil _) (by decide) rfl).trans ?_
  simp (disch := decide) only [hx, bits_or, bits_put_same, bits_put_apart, bits_ofNat, BitVec.reduceExtractLsb', BitVec.zero_or, BitVec.or_zero]

/-- Row 147 of the opcode table. -/
theorem RoundTrip.mvnRsr (cond sf rd rs typ rm) : RoundTrip.Statement (.mvnRsr cond sf rd rs typ rm) := fun hwf => by
  have h : (cond != 15) = true := hwf
  suffices H : ∀ x, x = 0x01E00010#32 ||| put cond 28 ||| put sf 20 ||| put rd 12 ||| put rs 8 ||| put typ 5 ||| put rm 0 → decodeWord x = .ok (.mvnRsr cond sf rd rs typ rm) from H _ rfl
  intro x hx
  have hk : x &&& 0x0FEF0090 = 0x01E00010 := by simp (disch := decide) only [hx, or_and, put_and_apart]; rfl
  have hc : bits x 28 4 ≠ 15 := by
    simp (disch := decide) only [hx, bits_or, bits_put_same, bits_put_apart, bits_ofNat, BitVec.reduceExtractLsb', BitVec.zero_or, BitVec.or_zero]
    exact bne_iff_ne.mp h
  refine (decode0 98 [] hk hc ⟨rfl, rfl⟩ rfl (by decide +kernel)
    (List.forall_mem_nil _) (by decide) rfl).trans ?_
  simp (disch := decide) only [hx, bits_or, bits_put_same, bits_put_apart, bits_ofNat, BitVec.reduceExtractLsb', BitVec.zero_or, BitVec.or_zero]

/-- Row 148 of the opcode table. -/
theorem RoundTrip.lslImm (cond sf rd imm5 rm) : RoundTrip.Statement (.lslImm cond sf rd imm5 rm) := fun hwf => by
  have h : (cond != 15 && imm5 != 0) = true := hwf
  suffices H : ∀ x, x = 0x01A00000#32 ||| put cond 28 ||| put sf 20 ||| put rd 12 ||| put imm5 7 ||| put rm 0 → decodeWord x = .ok (.movReg cond sf rd imm5 0 rm) from H _ rfl
  intro x hx
  have hk : x &&& 0x0FEF0070 = 0x01A00000 := by simp (disch := decide) only [hx, or_and, put_and_apart]; rfl
  have hc : bits x 28 4 ≠ 15 := by
    simp (disch := decide) only [hx, bits_or, bits_put_same, bits_put_apart, bits_ofNat, BitVec.reduceExtractLsb', BitVec.zero_or, BitVec.or_zero]
    exact fun hh => by simp [hh] at h
  refine (decode0 93 [] hk hc ⟨rfl, rfl⟩ rfl (by decide +kernel)
    (List.forall_mem_nil _) (by decide) rfl).trans ?_
  simp (disch := decide) only [hx, bits_or, bits_put_same, bits_put_apart, bits_ofNat, BitVec.reduceExtractLsb', BitVec.zero_or, BitVec.or_zero]
  rfl

/-- Row 149 of the opcode table. -/
theorem RoundTrip.lslReg (cond sf rd rs rm) : RoundTrip.Statement (.lslReg cond sf rd rs rm) := fun hwf => by
  have h : (cond != 15) = true := hwf
  suffices H : ∀ x, x = 0x01A00010#32 ||| put cond 28 ||| put sf 20 ||| put rd 12 ||| put rs 8 ||| put rm 0 → decodeWord x = .ok (.movRsr cond sf rd rs 0 rm) from H _ rfl
  intro x hx
  have hk : x &&& 0x0FEF00F0 = 0x01A00010 := by simp (disch := decide) only [hx, or_and, put_and_apart]; rfl
  have hc : bits x 28 4 ≠ 15 := by
    simp (disch := decide) only [hx, bits_or, bits_put_same, bits_put_apart, bits_ofNat, BitVec.reduceExtractLsb', BitVec.zero_or, BitVec.or_zero]
    exact bne_iff_ne.mp h
  refine (decode0 94 [] hk hc ⟨rfl, rfl⟩ rfl (by decide +kernel)
    (List.forall_mem_nil _) (by decide) rfl).trans ?_
  simp (disch := decide) only [hx, bits_or, bits_put_same, bits_put_apart, bits_ofNat, BitVec.reduceExtractLsb', BitVec.zero_or, BitVec.or_zero]
  rfl

/-- Row 150 of the opcode table. -/
theorem RoundTrip.lsrImm (cond sf rd imm5 rm) : RoundTrip.Statement (.lsrImm cond sf rd imm5 rm) := fun hwf => by
  have h : (cond != 15) = true := hwf
  suffices H : ∀ x, x = 0x01A00020#32 ||| put cond 28 ||| put sf 20 ||| put rd 12 ||| put imm5 7 ||| put rm 0 → decodeWord x = .ok (.movReg cond sf rd imm5 1 rm) from H _ rfl
  intro x hx
  have hk : x &&& 0x0FEF0070 = 0x01A00020 := by simp (disch := decide) only [hx, or_and, put_and_apart]; rfl
  have hc : bits x 28 4 ≠ 15 := by
    simp (disch := decide) only [hx, bits_or, bits_put_same, bits_put_apart, bits_ofNat, BitVec.reduceExtractLsb', BitVec.zero_or, BitVec.or_zero]
    exact bne_iff_ne.mp h
  refine (decode0 93 [] hk hc ⟨rfl, rfl⟩ rfl (by decide +kernel)
    (List.forall_mem_nil _) (by decide) rfl).trans ?_
  simp (disch := decide) only [hx, bits_or, bits_put_same, bits_put_apart, bits_ofNat, BitVec.reduceExtractLsb', BitVec.zero_or, BitVec.or_zero]
  rfl

/-- Row 151 of the opcode table. -/
theorem RoundTrip.lsrReg (cond sf rd rs rm) : RoundTrip.Statement (.lsrReg cond sf rd rs rm) := fun hwf => by
  have h : (cond != 15) = true := hwf
  suffices H : ∀ x, x = 0x01A00030#32 ||| put cond 28 ||| put sf 20 ||| put rd 12 ||| put rs 8 ||| put rm 0 → decodeWord x = .ok (.movRsr cond sf rd rs 1 rm) from H _ rfl
  intro x hx
  have hk : x &&& 0x0FEF00F0 = 0x01A00030 := by simp (disch := decide) only [hx, or_and, put_and_apart]; rfl
  have hc : bits x 28 4 ≠ 15 := by
    simp (disch := decide) only [hx, bits_or, bits_put_same, bits_put_apart, bits_ofNat, BitVec.reduceExtractLsb', BitVec.zero_or, BitVec.or_zero]
    exact bne_iff_ne.mp h
  refine (decode0 94 [] hk hc ⟨rfl, rfl⟩ rfl (by decide +kernel)
    (List.forall_mem_nil _) (by decide) rfl).trans ?_
  simp (disch := decide) only [hx, bits_or, bits_put_same, bits_put_apart, bits_ofNat, BitVec.reduceExtractLsb', BitVec.zero_or, BitVec.or_zero]
  rfl

/-- Row 152 of the opcode table. -/
theorem RoundTrip.asrImm (cond sf rd imm5 rm) : RoundTrip.Statement (.asrImm cond sf rd imm5 rm) := fun hwf => by
  have h : (cond != 15) = true := hwf
  suffices H : ∀ x, x = 0x01A00040#32 ||| put cond 28 ||| put sf 20 ||| put rd 12 ||| put imm5 7 ||| put rm 0 → decodeWord x = .ok (.movReg cond sf rd imm5 2 rm) from H _ rfl
  intro x hx
  have hk : x &&& 0x0FEF0070 = 0x01A00040 := by simp (disch := decide) only [hx, or_and, put_and_apart]; rfl
  have hc : bits x 28 4 ≠ 15 := by
    simp (disch := decide) only [hx, bits_or, bits_put_same, bits_put_apart, bits_ofNat, BitVec.reduceExtractLsb', BitVec.zero_or, BitVec.or_zero]
    exact bne_iff_ne.mp h
  refine (decode0 93 [] hk hc ⟨rfl, rfl⟩ rfl (by decide +kernel)
    (List.forall_mem_nil _) (by decide) rfl).trans ?_
  simp (disch := decide) only [hx, bits_or, bits_put_same, bits_put_apart, bits_ofNat, BitVec.reduceExtractLsb', BitVec.zero_or, BitVec.or_zero]
  rfl

/-- Row 153 of the opcode table. -/
theorem RoundTrip.asrReg (cond sf rd rs rm) : RoundTrip.Statement (.asrReg cond sf rd rs rm) := fun hwf => by
  have h : (cond != 15) = true := hwf
  suffices H : ∀ x, x = 0x01A00050#32 ||| put cond 28 ||| put sf 20 ||| put rd 12 ||| put rs 8 ||| put rm 0 → decodeWord x = .ok (.movRsr cond sf rd rs 2 rm) from H _ rfl
  intro x hx
  have hk : x &&& 0x0FEF00F0 = 0x01A00050 := by simp (disch := decide) only [hx, or_and, put_and_apart]; rfl
  have hc : bits x 28 4 ≠ 15 := by
    simp (disch := decide) only [hx, bits_or, bits_put_same, bits_put_apart, bits_ofNat, BitVec.reduceExtractLsb', BitVec.zero_or, BitVec.or_zero]
    exact bne_iff_ne.mp h
  refine (decode0 94 [] hk hc ⟨rfl, rfl⟩ rfl (by decide +kernel)
    (List.forall_mem_nil _) (by decide) rfl).trans ?_
  simp (disch := decide) only [hx, bits_or, bits_put_same, bits_put_apart, bits_ofNat, BitVec.reduceExtractLsb', BitVec.zero_or, BitVec.or_zero]
  rfl

/-- Row 154 of the opcode table. -/
theorem RoundTrip.rorImm (cond sf rd imm5 rm) : RoundTrip.Statement (.rorImm cond sf rd imm5 rm) := fun hwf => by
  have h : (cond != 15 && imm5 != 0) = true := hwf
  suffices H : ∀ x, x = 0x01A00060#32 ||| put cond 28 ||| put sf 20 ||| put rd 12 ||| put imm5 7 ||| put rm 0 → decodeWord x = .ok (.movReg cond sf rd imm5 3 rm) from H _ rfl
  intro x hx
  have hk : x &&& 0x0FEF0070 = 0x01A00060 := by simp (disch := decide) only [hx, or_and, put_and_apart]; rfl
  have hc : bits x 28 4 ≠ 15 := by
    simp (disch := decide) only [hx, bits_or, bits_put_same, bits_put_apart, bits_ofNat, BitVec.reduceExtractLsb', BitVec.zero_or, BitVec.or_zero]
    exact fun hh => by simp [hh] at h
  refine (decode0 93 [] hk hc ⟨rfl, rfl⟩ rfl (by decide +kernel)
    (List.forall_mem_nil _) (by decide) rfl).trans ?_
  simp (disch := decide) only [hx, bits_or, bits_put_same, bits_put_apart, bits_ofNat, BitVec.reduceExtractLsb', BitVec.zero_or, BitVec.or_zero]
  rfl

/-- Row 155 of the opcode table. -/
theorem RoundTrip.rorReg (cond sf rd rs rm) : RoundTrip.Statement (.rorReg cond sf rd rs rm) := fun hwf => by
  have h : (cond != 15) = true := hwf
  suffices H : ∀ x, x = 0x01A00070#32 ||| put cond 28 ||| put sf 20 ||| put rd 12 ||| put rs 8 ||| put rm 0 → decodeWord x = .ok (.movRsr cond sf rd rs 3 rm) from H _ rfl
  intro x hx
  have hk : x &&& 0x0FEF00F0 = 0x01A00070 := by simp (disch := decide) only [hx, or_and, put_and_apart]; rfl
  have hc : bits x 28 4 ≠ 15 := by
    simp (disch := decide) only [hx, bits_or, bits_put_same, bits_put_apart, bits_ofNat, BitVec.reduceExtractLsb', BitVec.zero_or, BitVec.or_zero]
    exact bne_iff_ne.mp h
  refine (decode0 94 [] hk hc ⟨rfl, rfl⟩ rfl (by decide +kernel)
    (List.forall_mem_nil _) (by decide) rfl).trans ?_
  simp (disch := decide) only [hx, bits_or, bits_put_same, bits_put_apart, bits_ofNat, BitVec.reduceExtractLsb', BitVec.zero_or, BitVec.or_zero]
  rfl

/-- Row 156 of the opcode table. -/
theorem RoundTrip.rrx (cond sf rd rm) : RoundTrip.Statement (.rrx cond sf rd rm) := fun hwf => by
  have h : (cond != 15) = true := hwf
  suffices H : ∀ x, x = 0x01A00060#32 ||| put cond 28 ||| put sf 20 ||| put rd 12 ||| put rm 0 → decodeWord x = .ok (.movReg cond sf rd 0 3 rm) from H _ rfl
  intro x hx
  have hk : x &&& 0x0FEF0FF0 = 0x01A00060 := by simp (disch := decide) only [hx, or_and, put_and_apart]; rfl
  have hc : bits x 28 4 ≠ 15 := by
    simp (disch := decide) only [hx, bits_or, bits_put_same, bits_put_apart, bits_ofNat, BitVec.reduceExtractLsb', BitVec.zero_or, BitVec.or_zero]
    exact bne_iff_ne.mp h
  refine (decode0 93 [] hk hc ⟨rfl, rfl⟩ rfl (by decide +kernel)
    (List.forall_mem_nil _) (by decide) rfl).trans ?_
  simp (disch := decide) only [hx, bits_or, bits_put_same, bits_put_apart, bits_ofNat, BitVec.reduceExtractLsb', BitVec.zero_or, BitVec.or_zero]
  rfl

/-- Row 157 of the opcode table. -/
theorem RoundTrip.adrAdd (cond rd imm12) : RoundTrip.Statement (.adrAdd cond rd imm12) := fun hwf => by
  have h : (cond != 15) = true := hwf
  suffices H : ∀ x, x = 0x028F0000#32 ||| put cond 28 ||| put rd 12 ||| put imm12 0 → decodeWord x = .ok (.addImm cond 0 15 rd imm12) from H _ rfl
  intro x hx
  have hk : x &&& 0x0FFF0000 = 0x028F0000 := by simp (disch := decide) only [hx, or_and, put_and_apart]; rfl
  have hc : bits x 28 4 ≠ 15 := by
    simp (disch := decide) only [hx, bits_or, bits_put_same, bits_put_apart, bits_ofNat, BitVec.reduceExtractLsb', BitVec.zero_or, BitVec.or_zero]
    exact bne_iff_ne.mp h
  refine (decode1 15 [] hk hc ⟨rfl, rfl⟩ rfl (by decide +kernel)
    (List.forall_mem_nil _) (by decide) rfl).trans ?_
  simp (disch := decide) only [hx, bits_or, bits_put_same, bits_put_apart, bits_ofNat, BitVec.reduceExtractLsb', BitVec.zero_or, BitVec.or_zero]
  rfl

/-- Row 158 of the opcode table. -/
theorem RoundTrip.adrSub (cond rd imm12) : RoundTrip.Statement (.adrSub cond rd imm12) := fun hwf => by
  have h : (cond != 15) = true := hwf
  suffices H : ∀ x, x = 0x024F0000#32 ||| put cond 28 ||| put rd 12 ||| put imm12 0 → decodeWord x = .ok (.subImm cond 0 15 rd imm12) from H _ rfl
  intro x hx
  have hk : x &&& 0x0FFF0000 = 0x024F0000 := by simp (disch := decide) only [hx, or_and, put_and_apart]; rfl
  have hc : bits x 28 4 ≠ 15 := by
    simp (disch := decide) only [hx, bits_or, bits_put_same, bits_put_apart, bits_ofNat, BitVec.reduceExtractLsb', BitVec.zero_or, BitVec.or_zero]
    exact bne_iff_ne.mp h
  refine (decode1 13 [] hk hc ⟨rfl, rfl⟩ rfl (by decide +kernel)
    (List.forall_mem_nil _) (by decide) rfl).trans ?_
  simp (disch := decide) only [hx, bits_or, bits_put_same, bits_put_apart, bits_ofNat, BitVec.reduceExtractLsb', BitVec.zero_or, BitVec.or_zero]
  rfl

/-- Row 159 of the opcode table. -/
theorem RoundTrip.ldrtImm (cond u rn rt imm12) : RoundTrip.Statement (.ldrtImm cond u rn rt imm12) := fun hwf => by
  have h : (cond != 15) = true := hwf
  suffices H : ∀ x, x = 0x04300000#32 ||| put cond 28 ||| put u 23 ||| put rn 16 ||| put rt 12 ||| put imm12 0 → decodeWord x = .ok (.ldrtImm cond u rn rt imm12) from H _ rfl
  intro x hx
  have hk : x &&& 0x0F700000 = 0x04300000 := by simp (disch := decide) only [hx, or_and, put_and_apart]; rfl
  have hc : bits x 28 4 ≠ 15 := by
    simp (disch := decide) only [hx, bits_or, bits_put_same, bits_put_apart, bits_ofNat, BitVec.reduceExtractLsb', BitVec.zero_or, BitVec.or_zero]
    exact bne_iff_ne.mp h
  refine (decode2 0 [] hk hc ⟨rfl, rfl⟩ rfl (by decide +kernel)
    (List.forall_mem_nil _) (by decide) rfl).trans ?_
  simp (disch := decide) only [hx, bits_or, bits_put_same, bits_put_apart, bits_ofNat, BitVec.reduceExtractLsb', BitVec.zero_or, BitVec.or_zero]

/-- Row 160 of the opcode table. -/
theorem RoundTrip.ldrtReg (cond u rn rt imm5 typ rm) : RoundTrip.Statement (.ldrtReg cond u rn rt imm5 typ rm) := fun hwf => by
  have h : (cond != 15) = true := hwf
  suffices H : ∀ x, x = 0x06300000#32 ||| put cond 28 ||| put u 23 ||| put rn 16 ||| put rt 12 ||| put imm5 7 ||| put typ 5 ||| put rm 0 → decodeWord x = .ok (.ldrtReg cond u rn rt imm5 typ rm) from H _ rfl
  intro x hx
  have hk : x &&& 0x0F700010 = 0x06300000 := by simp (disch := decide) only [hx, or_and, put_and_apart]; rfl
  have hc : bits x 28 4 ≠ 15 := by
    simp (disch := decide) only [hx, bits_or, bits_put_same, bits_put_apart, bits_ofNat, BitVec.reduceExtractLsb', BitVec.zero_or, BitVec.or_zero]
    exact bne_iff_ne.mp h
  refine (decode3 0 [] hk hc ⟨rfl, rfl⟩ rfl (by decide +kernel)
    (List.forall_mem_nil _) (by decide) rfl).trans ?_
  simp (disch := decide) only [hx, bits_or, bits_put_same, bits_put_apart, bits_ofNat, BitVec.reduceExtractLsb', BitVec.zero_or, BitVec.or_zero]

/-- Row 161 of the opcode table. -/
theorem RoundTrip.strtImm (cond u rn rt imm12) : RoundTrip.Statement (.strtImm cond u rn rt imm12) := fun hwf => by
  have h : (cond != 15) = true := hwf
  suffices H : ∀ x, x = 0x04200000#32 ||| put cond 28 ||| put u 23 ||| put rn 16 ||| put rt 12 ||| put imm12 0 → decodeWord x = .ok (.strtImm cond u rn rt imm12) from H _ rfl
  intro x hx
  have hk : x &&& 0x0F700000 = 0x04200000 := by simp (disch := decide) only [hx, or_and, put_and_apart]; rfl
  have hc : bits x 28 4 ≠ 15 := by
    simp (disch := decide) only [hx, bits_or, bits_put_same, bits_put_apart, bits_ofNat, BitVec.reduceExtractLsb', BitVec.zero_or, BitVec.or_zero]
    exact bne_iff_ne.mp h
  refine (decode2 1 [] hk hc ⟨rfl, rfl⟩ rfl (by decide +kernel)
    (List.forall_mem_nil _) (by decide) rfl).trans ?_
  simp (disch := decide) only [hx, bits_or, bits_put_same, bits_put_apart, bits_ofNat, BitVec.reduceExtractLsb', BitVec.zero_or, BitVec.or_zero]

/-- Row 162 of the opcode table. -/
theorem RoundTrip.strtReg (cond u rn rt imm5 typ rm) : RoundTrip.Statement (.strtReg cond u rn rt imm5 typ rm) := fun hwf => by
  have h : (cond != 15) = true := hwf
  suffices H : ∀ x, x = 0x06200000#32 ||| put cond 28 ||| put u 23 ||| put rn 16 ||| put rt 12 ||| put imm5 7 ||| put typ 5 ||| put rm 0 → decodeWord x = .ok (.strtReg cond u rn rt imm5 typ rm) from H _ rfl
  intro x hx
  have hk : x &&& 0x0F700010 = 0x06200000 := by simp (disch := decide) only [hx, or_and, put_and_apart]; rfl
  have hc : bits x 28 4 ≠ 15 := by
    simp (disch := decide) only [hx, bits_or, bits_put_same, bits_put_apart, bits_ofNat, BitVec.reduceExtractLsb', BitVec.zero_or, BitVec.or_zero]
    exact bne_iff_ne.mp h
  refine (decode3 1 [] hk hc ⟨rfl, rfl⟩ rfl (by decide +kernel)
    (List.forall_mem_nil _) (by decide) rfl).trans ?_
  simp (disch := decide) only [hx, bits_or, bits_put_same, bits_put_apart, bits_ofNat, BitVec.reduceExtractLsb', BitVec.zero_or, BitVec.or_zero]

/-- Row 163 of the opcode table. -/
theorem RoundTrip.ldrbtImm (cond u rn rt imm12) : RoundTrip.Statement (.ldrbtImm cond u rn rt imm12) := fun hwf => by
  have h : (cond != 15) = true := hwf
  suffices H : ∀ x, x = 0x04700000#32 ||| put cond 28 ||| put u 23 ||| put rn 16 ||| put rt 12 ||| put imm12 0 → decodeWord x = .ok (.ldrbtImm cond u rn rt imm12) from H _ rfl
  intro x hx
  have hk : x &&& 0x0F700000 = 0x04700000 := by simp (disch := decide) only [hx, or_and, put_and_apart]; rfl
  have hc : bits x 28 4 ≠ 15 := by
    simp (disch := decide) only [hx, bits_or, bits_put_same, bits_put_apart, bits_ofNat, BitVec.reduceExtractLsb', BitVec.zero_or, BitVec.or_zero]
    exact bne_iff_ne.mp h
  refine (decode2 2 [] hk hc ⟨rfl, rfl⟩ rfl (by decide +kernel)
    (List.forall_mem_nil _) (by decide) rfl).trans ?_
  simp (disch := decide) only [hx, bits_or, bits_put_same, bits_put_apart, bits_ofNat, BitVec.reduceExtractLsb', BitVec.zero_or, BitVec.or_zero]

/-- Row 164 of the opcode table. -/
theorem RoundTrip.ldrbtReg (cond u rn rt imm5 typ rm) : RoundTrip.Statement (.ldrbtReg cond u rn rt imm5 typ rm) := fun hwf => by
  have h : (cond != 15) = true := hwf
  suffices H : ∀ x, x = 0x06700000#32 ||| put cond 28 ||| put u 23 ||| put rn 16 ||| put rt 12 ||| put imm5 7 ||| put typ 5 ||| put rm 0 → decodeWord x = .ok (.ldrbtReg cond u rn rt imm5 typ rm) from H _ rfl
  intro x hx
  have hk : x &&& 0x0F700010 = 0x06700000 := by simp (disch := decide) only [hx, or_and, put_and_apart]; rfl
  have hc : bits x 28 4 ≠ 15 := by
    simp (disch := decide) only [hx, bits_or, bits_put_same, bits_put_apart, bits_ofNat, BitVec.reduceExtractLsb', BitVec.zero_or, BitVec.or_zero]
    exact bne_iff_ne.mp h
  refine (decode3 2 [] hk hc ⟨rfl, rfl⟩ rfl (by decide +kernel)
    (List.forall_mem_nil _) (by decide) rfl).trans ?_
  simp (disch := decide) only [hx, bits_or, bits_put_same, bits_put_apart, bits_ofNat, BitVec.reduceExtractLsb', BitVec.zero_or, BitVec.or_zero]

/-- Row 165 of the opcode table. -/
theorem RoundTrip.strbtImm (cond u rn rt imm12) : RoundTrip.Statement (.strbtImm cond u rn rt imm12) := fun hwf => by
  have h : (cond != 15) = true := hwf
  suffices H : ∀ x, x = 0x04600000#32 ||| put cond 28 ||| put u 23 ||| put rn 16 ||| put rt 12 ||| put imm12 0 → decodeWord x = .ok (.strbtImm cond u rn rt imm12) from H _ rfl
  intro x hx
  have hk : x &&& 0x0F700000 = 0x04600000 := by simp (disch := decide) only [hx, or_and, put_and_apart]; rfl
  have hc : bits x 28 4 ≠ 15 := by
    simp (disch := decide) only [hx, bits_or, bits_put_same, bits_put_apart, bits_ofNat, BitVec.reduceExtractLsb', BitVec.zero_or, BitVec.or_zero]
    exact bne_iff_ne.mp h
  refine (decode2 3 [] hk hc ⟨rfl, rfl⟩ rfl (by decide +kernel)
    (List.forall_mem_nil _) (by decide) rfl).trans ?_
  simp (disch := decide) only [hx, bits_or, bits_put_same, bits_put_apart, bits_ofNat, BitVec.reduceExtractLsb', BitVec.zero_or, BitVec.or_zero]

/-- Row 166 of the opcode table. -/
theorem RoundTrip.strbtReg (cond u rn rt imm5 typ rm) : RoundTrip.Statement (.strbtReg cond u rn rt imm5 typ rm) := fun hwf => by
  have h : (cond != 15) = true := hwf
  suffices H : ∀ x, x = 0x06600000#32 ||| put cond 28 ||| put u 23 ||| put rn 16 ||| put rt 12 ||| put imm5 7 ||| put typ 5 ||| put rm 0 → decodeWord x = .ok (.strbtReg cond u rn rt imm5 typ rm) from H _ rfl
  intro x hx
  have hk : x &&& 0x0F700010 = 0x06600000 := by simp (disch := decide) only [hx, or_and, put_and_apart]; rfl
  have hc : bits x 28 4 ≠ 15 := by
    simp (disch := decide) only [hx, bits_or, bits_put_same, bits_put_apart, bits_ofNat, BitVec.reduceExtractLsb', BitVec.zero_or, BitVec.or_zero]
    exact bne_iff_ne.mp h
  refine (decode3 3 [] hk hc ⟨rfl, rfl⟩ rfl (by decide +kernel)
    (List.forall_mem_nil _) (by decide) rfl).trans ?_
  simp (disch := decide) only [hx, bits_or, bits_put_same, bits_put_apart, bits_ofNat, BitVec.reduceExtractLsb', BitVec.zero_or, BitVec.or_zero]

/-- Row 167 of the opcode table. -/
theorem RoundTrip.ldrImm (cond p u w rn rt imm12) : RoundTrip.Statement (.ldrImm cond p u w rn rt imm12) := fun hwf => by
  have h : (cond != 15 && !(p == 0 && w == 1)) = true := hwf
  suffices H : ∀ x, x = 0x04100000#32 ||| put cond 28 ||| put p 24 ||| put u 23 ||| put w 21 ||| put rn 16 ||| put rt 12 ||| put imm12 0 → decodeWord x = .ok (.ldrImm cond p u w rn rt imm12) from H _ rfl
  intro x hx
  have hk : x &&& 0x0E500000 = 0x04100000 := by simp (disch := decide) only [hx, or_and, put_and_apart]; rfl
  have hc : bits x 28 4 ≠ 15 := by
    simp (disch := decide) only [hx, bits_or, bits_put_same, bits_put_apart, bits_ofNat, BitVec.reduceExtractLsb', BitVec.zero_or, BitVec.or_zero]
    exact fun hh => by simp [hh] at h
  have e_p : bits x 24 1 = p := by
    simp (disch := decide) only [hx, bits_or, bits_put_same, bits_put_apart, bits_ofNat, BitVec.reduceExtractLsb', BitVec.zero_or, BitVec.or_zero]
  have e_w : bits x 21 1 = w := by
    simp (disch := decide) only [hx, bits_or, bits_put_same, bits_put_apart, bits_ofNat, BitVec.reduceExtractLsb', BitVec.zero_or, BitVec.or_zero]
  refine (decode2 4 [0] hk hc ⟨rfl, rfl⟩ rfl (by decide +kernel)
    (List.forall_mem_cons.2 ⟨Bool.eq_false_iff.2 fun hq => by simp [(e_p.symm.trans (bits_of_hits hq 24 1 rfl) : p = 0), (e_w.symm.trans (bits_of_hits hq 21 1 rfl) : w = 1)] at h,
    (List.forall_mem_nil _)⟩) (by decide) (by show (!(bits x 24 1 == 0 && bits x 21 1 == 1)) = true; rw [e_p, e_w]; exact (Bool.and_eq_true_iff.mp h).2)).trans ?_
  simp (disch := decide) only [hx, bits_or, bits_put_same, bits_put_apart, bits_ofNat, BitVec.reduceExtractLsb', BitVec.zero_or, BitVec.or_zero]

/-- Row 168 of the opcode table. -/
theorem RoundTrip.ldrReg (cond p u w rn rt imm5 typ rm) : RoundTrip.Statement (.ldrReg cond p u w rn rt imm5 typ rm) := fun hwf => by
  have h : (cond != 15 && !(p == 0 && w == 1)) = true := hwf
  suffices H : ∀ x, x = 0x06100000#32 ||| put cond 28 ||| put p 24 ||| put u 23 ||| put w 21 ||| put rn 16 ||| put rt 12 ||| put imm5 7 ||| put typ 5 ||| put rm 0 → decodeWord x = .ok (.ldrReg cond p u w rn rt imm5 typ rm) from H _ rfl
  intro x hx
  have hk : x &&& 0x0E500010 = 0x06100000 := by simp (disch := decide) only [hx, or_and, put_and_apart]; rfl
  have hc : bits x 28 4 ≠ 15 := by
    simp (disch := decide) only [hx, bits_or, bits_put_same, bits_put_apart, bits_ofNat, BitVec.reduceExtractLsb', BitVec.zero_or, BitVec.or_zero]
    exact fun hh => by simp [hh] at h
  have e_p : bits x 24 1 = p := by
    simp (disch := decide) only [hx, bits_or, bits_put_same, bits_put_apart, bits_ofNat, BitVec.reduceExtractLsb', BitVec.zero_or, BitVec.or_zero]
  have e_w : bits x 21 1 = w := by
    simp (disch := decide) only [hx, bits_or, bits_put_same, bits_put_apart, bits_ofNat, BitVec.reduceExtractLsb', BitVec.zero_or, BitVec.or_zero]
  refine (decode3 4 [0] hk hc ⟨rfl, rfl⟩ rfl (by decide +kernel)
    (List.forall_mem_cons.2 ⟨Bool.eq_false_iff.2 fun hq => by simp [(e_p.symm.trans (bits_of_hits hq 24 1 rfl) : p = 0), (e_w.symm.trans (bits_of_hits hq 21 1 rfl) : w = 1)] at h,
    (List.forall_mem_nil _)⟩) (by decide) (by show (!(bits x 24 1 == 0 && bits x 21 1 == 1)) = true; rw [e_p, e_w]; exact (Bool.and_eq_true_iff.mp h).2)).trans ?_
  simp (disch := decide) only [hx, bits_or, bits_put_same, bits_put_apart, bits_ofNat, BitVec.reduceExtractLsb', BitVec.zero_or, BitVec.or_zero]

/-- Row 169 of the opcode table. -/
theorem RoundTrip.strImm (cond p u w rn rt imm12) : RoundTrip.Statement (.strImm cond p u w rn rt imm12) := fun hwf => by
  have h : (cond != 15 && !(p == 0 && w == 1)) = true := hwf
  suffices H : ∀ x, x = 0x04000000#32 ||| put cond 28 ||| put p 24 ||| put u 23 ||| put w 21 ||| put rn 16 ||| put rt 12 ||| put imm12 0 → decodeWord x = .ok (.strImm cond p u w rn rt imm12) from H _ rfl
  intro x hx
  have hk : x &&& 0x0E500000 = 0x04000000 := by simp (disch := decide) only [hx, or_and, put_and_apart]; rfl
  have hc : bits x 28 4 ≠ 15 := by
    simp (disch := decide) only [hx, bits_or, bits_put_same, bits_put_apart, bits_ofNat, BitVec.reduceExtractLsb', BitVec.zero_or, BitVec.or_zero]
    exact fun hh => by simp [hh] at h
  have e_p : bits x 24 1 = p := by
    simp (disch := decide) only [hx, bits_or, bits_put_same, bits_put_apart, bits_ofNat, BitVec.reduceExtractLsb', BitVec.zero_or, BitVec.or_zero]
  have e_w : bits x 21 1 = w := by
    simp (disch := decide) only [hx, bits_or, bits_put_same, bits_put_apart, bits_ofNat, BitVec.reduceExtractLsb', BitVec.zero_or, BitVec.or_zero]
  refine (decode2 5 [1] hk hc ⟨rfl, rfl⟩ rfl (by decide +kernel)
    (List.forall_mem_cons.2 ⟨Bool.eq_false_iff.2 fun hq => by simp [(e_p.symm.trans (bits_of_hits hq 24 1 rfl) : p = 0), (e_w.symm.trans (bits_of_hits hq 21 1 rfl) : w = 1)] at h,
    (List.forall_mem_nil _)⟩) (by decide) (by show (!(bits x 24 1 == 0 && bits x 21 1 == 1)) = true; rw [e_p, e_w]; exact (Bool.and_eq_true_iff.mp h).2)).trans ?_
  simp (disch := decide) only [hx, bits_or, bits_put_same, bits_put_apart, bits_ofNat, BitVec.reduceExtractLsb', BitVec.zero_or, BitVec.or_zero]

/-- Row 170 of the opcode table. -/
theorem RoundTrip.strReg (cond p u w rn rt imm5 typ rm) : RoundTrip.Statement (.strReg cond p u w rn rt imm5 typ rm) := fun hwf => by
  have h : (cond != 15 && !(p == 0 && w == 1)) = true := hwf
  suffices H : ∀ x, x = 0x06000000#32 ||| put cond 28 ||| put p 24 ||| put u 23 ||| put w 21 ||| put rn 16 ||| put rt 12 ||| put imm5 7 ||| put typ 5 ||| put rm 0 → decodeWord x = .ok (.strReg cond p u w rn rt imm5 typ rm) from H _ rfl
  intro x hx
  have hk : x &&& 0x0E500010 = 0x06000000 := by simp (disch := decide) only [hx, or_and, put_and_apart]; rfl
  have hc : bits x 28 4 ≠ 15 := by
    simp (disch := decide) only [hx, bits_or, bits_put_same, bits_put_apart, bits_ofNat, BitVec.reduceExtractLsb', BitVec.zero_or, BitVec.or_zero]
    exact fun hh => by simp [hh] at h
  have e_p : bits x 24 1 = p := by
    simp (disch := decide) only [hx, bits_or, bits_put_same, bits_put_apart, bits_ofNat, BitVec.reduceExtractLsb', BitVec.zero_or, BitVec.or_zero]
  have e_w : bits x 21 1 = w := by
    simp (disch := decide) only [hx, bits_or, bits_put_same, bits_put_apart, bits_ofNat, BitVec.reduceExtractLsb', BitVec.zero_or, BitVec.or_zero]
  refine (decode3 5 [1] hk hc ⟨rfl, rfl⟩ rfl (by decide +kernel)
    (List.forall_mem_cons.2 ⟨Bool.eq_false_iff.2 fun hq => by simp [(e_p.symm.trans (bits_of_hits hq 24 1 rfl) : p = 0), (e_w.symm.trans (bits_of_hits hq 21 1 rfl) : w = 1)] at h,
    (List.forall_mem_nil _)⟩) (by decide) (by show (!(bits x 24 1 == 0 && bits x 21 1 == 1)) = true; rw [e_p, e_w]; exact (Bool.and_eq_true_iff.mp h).2)).trans ?_
  simp (disch := decide) only [hx, bits_or, bits_put_same, bits_put_apart, bits_ofNat, BitVec.reduceExtractLsb', BitVec.zero_or, BitVec.or_zero]

/-- Row 171 of the opcode table. -/
theorem RoundTrip.ldrbImm (cond p u w rn rt imm12) : RoundTrip.Statement (.ldrbImm cond p u w rn rt imm12) := fun hwf => by
  have h : (cond != 15 && !(p == 0 && w == 1)) = true := hwf
  suffices H : ∀ x, x = 0x04500000#32 ||| put cond 28 ||| put p 24 ||| put u 23 ||| put w 21 ||| put rn 16 ||| put rt 12 ||| put imm12 0 → decodeWord x = .ok (.ldrbImm cond p u w rn rt imm12) from H _ rfl
  intro x hx
  have hk : x &&& 0x0E500000 = 0x04500000 := by simp (disch := decide) only [hx, or_and, put_and_apart]; rfl
  have hc : bits x 28 4 ≠ 15 := by
    simp (disch := decide) only [hx, bits_or, bits_put_same, bits_put_apart, bits_ofNat, BitVec.reduceExtractLsb', BitVec.zero_or, BitVec.or_zero]
    exact fun hh => by simp [hh] at h
  have e_p : bits x 24 1 = p := by
    simp (disch := decide) only [hx, bits_or, bits_put_same, bits_put_apart, bits_ofNat, BitVec.reduceExtractLsb', BitVec.zero_or, BitVec.or_zero]
  have e_w : bits x 21 1 = w := by
    simp (disch := decide) only [hx, bits_or, bits_put_same, bits_put_apart, bits_ofNat, BitVec.reduceExtractLsb', BitVec.zero_or, BitVec.or_zero]
  refine (decode2 6 [2] hk hc ⟨rfl, rfl⟩ rfl (by decide +kernel)
    (List.forall_mem_cons.2 ⟨Bool.eq_false_iff.2 fun hq => by simp [(e_p.symm.trans (bits_of_hits hq 24 1 rfl) : p = 0), (e_w.symm.trans (bits_of_hits hq 21 1 rfl) : w = 1)] at h,
    (List.forall_mem_nil _)⟩) (by decide) (by show (!(bits x 24 1 == 0 && bits x 21 1 == 1)) = true; rw [e_p, e_w]; exact (Bool.and_eq_true_iff.mp h).2)).trans ?_
  simp (disch := decide) only [hx, bits_or, bits_put_same, bits_put_apart, bits_ofNat, BitVec.reduceExtractLsb', BitVec.zero_or, BitVec.or_zero]

/-- Row 172 of the opcode table. -/
theorem RoundTrip.ldrbReg (cond p u w rn rt imm5 typ rm) : RoundTrip.Statement (.ldrbReg cond p u w rn rt imm5 typ rm) := fun hwf => by
  have h : (cond != 15 && !(p == 0 && w == 1)) = true := hwf
  suffices H : ∀ x, x = 0x06500000#32 ||| put cond 28 ||| put p 24 ||| put u 23 ||| put w 21 ||| put rn 16 ||| put rt 12 ||| put imm5 7 ||| put typ 5 ||| put rm 0 → decodeWord x = .ok (.ldrbReg cond p u w rn rt imm5 typ rm) from H _ rfl
  intro x hx
  have hk : x &&& 0x0E500010 = 0x06500000 := by simp (disch := decide) only [hx, or_and, put_and_apart]; rfl
  have hc : bits x 28 4 ≠ 15 := by
    simp (disch := decide) only [hx, bits_or, bits_put_same, bits_put_apart, bits_ofNat, BitVec.reduceExtractLsb', BitVec.zero_or, BitVec.or_zero]
    exact fun hh => by simp [hh] at h
  have e_p : bits x 24 1 = p := by
    simp (disch := decide) only [hx, bits_or, bits_put_same, bits_put_apart, bits_ofNat, BitVec.reduceExtractLsb', BitVec.zero_or, BitVec.or_zero]
  have e_w : bits x 21 1 = w := by
    simp (disch := decide) only [hx, bits_or, bits_put_same, bits_put_apart, bits_ofNat, BitVec.reduceExtractLsb', BitVec.zero_or, BitVec.or_zero]
  refine (decode3 6 [2] hk hc ⟨rfl, rfl⟩ rfl (by decide +kernel)
    (List.forall_mem_cons.2 ⟨Bool.eq_false_iff.2 fun hq => by simp [(e_p.symm.trans (bits_of_hits hq 24 1 rfl) : p = 0), (e_w.symm.trans (bits_of_hits hq 21 1 rfl) : w = 1)] at h,
    (List.forall_mem_nil _)⟩) (by decide) (by show (!(bits x 24 1 == 0 && bits x 21 1 == 1)) = true; rw [e_p, e_w]; exact (Bool.and_eq_true_iff.mp h).2)).trans ?_
  simp (disch := decide) only [hx, bits_or, bits_put_same, bits_put_apart, bits_ofNat, BitVec.reduceExtractLsb', BitVec.zero_or, BitVec.or_zero]

/-- Row 173 of the opcode table. -/
theorem RoundTrip.strbImm (cond p u w rn rt imm12) : RoundTrip.Statement (.strbImm cond p u w rn rt imm12) := fun hwf => by
  have h : (cond != 15 && !(p == 0 && w == 1)) = true := hwf
  suffices H : ∀ x, x = 0x04400000#32 ||| put cond 28 ||| put p 24 ||| put u 23 ||| put w 21 ||| put rn 16 ||| put rt 12 ||| put imm12 0 → decodeWord x = .ok (.strbImm cond p u w rn rt imm12) from H _ rfl
  intro x hx
  have hk : x &&& 0x0E500000 = 0x04400000 := by simp (disch := decide) only [hx, or_and, put_and_apart]; rfl
  have hc : bits x 28 4 ≠ 15 := by
    simp (disch := decide) only [hx, bits_or, bits_put_same, bits_put_apart, bits_ofNat, BitVec.reduceExtractLsb', BitVec.zero_or, BitVec.or_zero]
    exact fun hh => by simp [hh] at h
  have e_p : bits x 24 1 = p := by
    simp (disch := decide) only [hx, bits_or, bits_put_same, bits_put_apart, bits_ofNat, BitVec.reduceExtractLsb', BitVec.zero_or, BitVec.or_zero]
  have e_w : bits x 21 1 = w := by
    simp (disch := decide) only [hx, bits_or, bits_put_same, bits_put_apart, bits_ofNat, BitVec.reduceExtractLsb', BitVec.zero_or, BitVec.or_zero]
  refine (decode2 7 [3] hk hc ⟨rfl, rfl⟩ rfl (by decide +kernel)
    (List.forall_mem_cons.2 ⟨Bool.eq_false_iff.2 fun hq => by simp [(e_p.symm.trans (bits_of_hits hq 24 1 rfl) : p = 0), (e_w.symm.trans (bits_of_hits hq 21 1 rfl) : w = 1)] at h,
    (List.forall_mem_nil _)⟩) (by decide) (by show (!(bits x 24 1 == 0 && bits x 21 1 == 1)) = true; rw [e_p, e_w]; exact (Bool.and_eq_true_iff.mp h).2)).trans ?_
  simp (disch := decide) only [hx, bits_or, bits_put_same, bits_put_apart, bits_ofNat, BitVec.reduceExtractLsb', BitVec.zero_or, BitVec.or_zero]

/-- Row 174 of the opcode table. -/
theorem RoundTrip.strbReg (cond p u w rn rt imm5 typ rm) : RoundTrip.Statement (.strbReg cond p u w rn rt imm5 typ rm) := fun hwf => by
  have h : (cond != 15 && !(p == 0 && w == 1)) = true := hwf
  suffices H : ∀ x, x = 0x06400000#32 ||| put cond 28 ||| put p 24 ||| put u 23 ||| put w 21 ||| put rn 16 ||| put rt 12 ||| put imm5 7 ||| put typ 5 ||| put rm 0 → decodeWord x = .ok (.strbReg cond p u w rn rt imm5 typ rm) from H _ rfl
  intro x hx
  have hk : x &&& 0x0E500010 = 0x06400000 := by simp (disch := decide) only [hx, or_and, put_and_apart]; rfl
  have hc : bits x 28 4 ≠ 15 := by
    simp (disch := decide) only [hx, bits_or, bits_put_same, bits_put_apart, bits_ofNat, BitVec.reduceExtractLsb', BitVec.zero_or, BitVec.or_zero]
    exact fun hh => by simp [hh] at h
  have e_p : bits x 24 1 = p := by
    simp (disch := decide) only [hx, bits_or, bits_put_same, bits_put_apart, bits_ofNat, BitVec.reduceExtractLsb', BitVec.zero_or, BitVec.or_zero]
  have e_w : bits x 21 1 = w := by
    simp (disch := decide) only [hx, bits_or, bits_put_same, bits_put_apart, bits_ofNat, BitVec.reduceExtractLsb', BitVec.zero_or, BitVec.or_zero]
  refine (decode3 7 [3] hk hc ⟨rfl, rfl⟩ rfl (by decide +kernel)
    (List.forall_mem_cons.2 ⟨Bool.eq_false_iff.2 fun hq => by simp [(e_p.symm.trans (bits_of_hits hq 24 1 rfl) : p = 0), (e_w.symm.trans (bits_of_hits hq 21 1 rfl) : w = 1)] at h,
    (List.forall_mem_nil _)⟩) (by decide) (by show (!(bits x 24 1 == 0 && bits x 21 1 == 1)) = true; rw [e_p, e_w]; exact (Bool.and_eq_true_iff.mp h).2)).trans ?_
  simp (disch := decide) only [hx, bits_or, bits_put_same, bits_put_apart, bits_ofNat, BitVec.reduceExtractLsb', BitVec.zero_or, BitVec.or_zero]

/-- Row 175 of the opcode table. -/
theorem RoundTrip.sadd16 (cond rn rd rm) : RoundTrip.Statement (.sadd16 cond rn rd rm) := fun hwf => by
  have h : (cond != 15) = true := hwf
  suffices H : ∀ x, x = 0x06100F10#32 ||| put cond 28 ||| put rn 16 ||| put rd 12 ||| put rm 0 → decodeWord x = .ok (.sadd16 cond rn rd rm) from H _ rfl
  intro x hx
  have hk : x &&& 0x0FF00FF0 = 0x06100F10 := by simp (disch := decide) only [hx, or_and, put_and_apart]; rfl
  have hc : bits x 28 4 ≠ 15 := by
    simp (disch := decide) only [hx, bits_or, bits_put_same, bits_put_apart, bits_ofNat, BitVec.reduceExtractLsb', BitVec.zero_or, BitVec.or_zero]
    exact bne_iff_ne.mp h
  refine (decode3 8 [] hk hc ⟨rfl, rfl⟩ rfl (by decide +kernel)
    (List.forall_mem_nil _) (by decide) rfl).trans ?_
  simp (disch := decide) only [hx, bits_or, bits_put_same, bits_put_apart, bits_ofNat, BitVec.reduceExtractLsb', BitVec.zero_or, BitVec.or_zero]

/-- Row 176 of the opcode table. -/
theorem RoundTrip.sasx (cond rn rd rm) : RoundTrip.Statement (.sasx cond rn rd rm) := fun hwf => by
  have h : (cond != 15) = true := hwf
  suffices H : ∀ x, x = 0x06100F30#32 ||| put cond 28 ||| put rn 16 ||| put rd 12 ||| put rm 0 → decodeWord x = .ok (.sasx cond rn rd rm) from H _ rfl
  intro x hx
  have hk : x &&& 0x0FF00FF0 = 0x06100F30 := by simp (disch := decide) only [hx, or_and, put_and_apart]; rfl
  have hc : bits x 28 4 ≠ 15 := by
    simp (disch := decide) only [hx, bits_or, bits_put_same, bits_put_apart, bits_ofNat, BitVec.reduceExtractLsb', BitVec.zero_or, BitVec.or_zero]
    exact bne_iff_ne.mp h
  refine (decode3 9 [] hk hc ⟨rfl, rfl⟩ rfl (by decide +kernel)
    (List.forall_mem_nil _) (by decide) rfl).trans ?_
  simp (disch := decide) only [hx, bits_or, bits_put_same, bits_put_apart, bits_ofNat, BitVec.reduceExtractLsb', BitVec.zero_or, BitVec.or_zero]

/-- Row 177 of the opcode table. -/
theorem RoundTrip.ssax (cond rn rd rm) : RoundTrip.Statement (.ssax cond rn rd rm) := fun hwf => by
  have h : (cond != 15) = true := hwf
  suffices H : ∀ x, x = 0x06100F50#32 ||| put cond 28 ||| put rn 16 ||| put rd 12 ||| put rm 0 → decodeWord x = .ok (.ssax cond rn rd rm) from H _ rfl
  intro x hx
  have hk : x &&& 0x0FF00FF0 = 0x06100F50 := by simp (disch := decide) only [hx, or_and, put_and_apart]; rfl
  have hc : bits x 28 4 ≠ 15 := by
    simp (disch := decide) only [hx, bits_or, bits_put_same, bits_put_apart, bits_ofNat, BitVec.reduceExtractLsb', BitVec.zero_or, BitVec.or_zero]
    exact bne_iff_ne.mp h
  refine (decode3 10 [] hk hc ⟨rfl, rfl⟩ rfl (by decide +kernel)
    (List.forall_mem_nil _) (by decide) rfl).trans ?_
  simp (disch := decide) only [hx, bits_or, bits_put_same, bits_put_apart, bits_ofNat, BitVec.reduceExtractLsb', BitVec.zero_or, BitVec.or_zero]

/-- Row 178 of the opcode table. -/
theorem RoundTrip.ssub16 (cond rn rd rm) : RoundTrip.Statement (.ssub16 cond rn rd rm) := fun hwf => by
  have h : (cond != 15) = true := hwf
  suffices H : ∀ x, x = 0x06100F70#32 ||| put cond 28 ||| put rn 16 ||| put rd 12 ||| put rm 0 → decodeWord x = .ok (.ssub16 cond rn rd rm) from H _ rfl
  intro x hx
  have hk : x &&& 0x0FF00FF0 = 0x06100F70 := by simp (disch := decide) only [hx, or_and, put_and_apart]; rfl
  have hc : bits x 28 4 ≠ 15 := by
    simp (disch := decide) only [hx, bits_or, bits_put_same, bits_put_apart, bits_ofNat, BitVec.reduceExtractLsb', BitVec.zero_or, BitVec.or_zero]
    exact bne_iff_ne.mp h
  refine (decode3 11 [] hk hc ⟨rfl, rfl⟩ rfl (by decide +kernel)
    (List.forall_mem_nil _) (by decide) rfl).trans ?_
  simp (disch := decide) only [hx, bits_or, bits_put_same, bits_put_apart, bits_ofNat, BitVec.reduceExtractLsb', BitVec.zero_or, BitVec.or_zero]

/-- Row 179 of the opcode table. -/
theorem RoundTrip.sadd8 (cond rn rd rm) : RoundTrip.Statement (.sadd8 cond rn rd rm) := fun hwf => by
  have h : (cond != 15) = true := hwf
  suffices H : ∀ x, x = 0x06100F90#32 ||| put cond 28 ||| put rn 16 ||| put rd 12 ||| put rm 0 → decodeWord x = .ok (.sadd8 cond rn rd rm) from H _ rfl
  intro x hx
  have hk : x &&& 0x0FF00FF0 = 0x06100F90 := by simp (disch := decide) only [hx, or_and, put_and_apart]; rfl
  have hc : bits x 28 4 ≠ 15 := by
    simp (disch := decide) only [hx, bits_or, bits_put_same, bits_put_apart, bits_ofNat, BitVec.reduceExtractLsb', BitVec.zero_or, BitVec.or_zero]
    exact bne_iff_ne.mp h
  refine (decode3 12 [] hk hc ⟨rfl, rfl⟩ rfl (by decide +kernel)
    (List.forall_mem_nil _) (by decide) rfl).trans ?_
  simp (disch := decide) only [hx, bits_or, bits_put_same, bits_put_apart, bits_ofNat, BitVec.reduceExtractLsb', BitVec.zero_or, BitVec.or_zero]

/-- Row 180 of the opcode table. -/
theorem RoundTrip.ssub8 (cond rn rd rm) : RoundTrip.Statement (.ssub8 cond rn rd rm) := fun hwf => by
  have h : (cond != 15) = true := hwf
  suffices H : ∀ x, x = 0x06100FF0#32 ||| put cond 28 ||| put rn 16 ||| put rd 12 ||| put rm 0 → decodeWord x = .ok (.ssub8 cond rn rd rm) from H _ rfl
  intro x hx
  have hk : x &&& 0x0FF00FF0 = 0x06100FF0 := by simp (disch := decide) only [hx, or_and, put_and_apart]; rfl
  have hc : bits x 28 4 ≠ 15 := by
    simp (disch := decide) only [hx, bits_or, bits_put_same, bits_put_apart, bits_ofNat, BitVec.reduceExtractLsb', BitVec.zero_or, BitVec.or_zero]
    exact bne_iff_ne.mp h
  refine (decode3 13 [] hk hc ⟨rfl, rfl⟩ rfl (by decide +kernel)
    (List.forall_mem_nil _) (by decide) rfl).trans ?_
  simp (disch := decide) only [hx, bits_or, bits_put_same, bits_put_apart, bits_ofNat, BitVec.reduceExtractLsb', BitVec.zero_or, BitVec.or_zero]

/-- Row 181 of the opcode table. -/
theorem RoundTrip.qadd16 (cond rn rd rm) : RoundTrip.Statement (.qadd16 cond rn rd rm) := fun hwf => by
  have h : (cond != 15) = true := hwf
  suffices H : ∀ x, x = 0x06200F10#32 ||| put cond 28 ||| put rn 16 ||| put rd 12 ||| put rm 0 → decodeWord x = .ok (.qadd16 cond rn rd rm) from H _ rfl
  intro x hx
  have hk : x &&& 0x0FF00FF0 = 0x06200F10 := by simp (disch := decide) only [hx, or_and, put_and_apart]; rfl
  have hc : bits x 28 4 ≠ 15 := by
    simp (disch := decide) only [hx, bits_or, bits_put_same, bits_put_apart, bits_ofNat, BitVec.reduceExtractLsb', BitVec.zero_or, BitVec.or_zero]
    exact bne_iff_ne.mp h
  refine (decode3 14 [] hk hc ⟨rfl, rfl⟩ rfl (by decide +kernel)
    (List.forall_mem_nil _) (by decide) rfl).trans ?_
  simp (disch := decide) only [hx, bits_or, bits_put_same, bits_put_apart, bits_ofNat, BitVec.reduceExtractLsb', BitVec.zero_or, BitVec.or_zero]

/-- Row 182 of the opcode table. -/
theorem RoundTrip.qasx (cond rn rd rm) : RoundTrip.Statement (.qasx cond rn rd rm) := fun hwf => by
  have h : (cond != 15) = true := hwf
  suffices H : ∀ x, x = 0x06200F30#32 ||| put cond 28 ||| put rn 16 ||| put rd 12 ||| put rm 0 → decodeWord x = .ok (.qasx cond rn rd rm) from H _ rfl
  intro x hx
  have hk : x &&& 0x0FF00FF0 = 0x06200F30 := by simp (disch := decide) only [hx, or_and, put_and_apart]; rfl
  have hc : bits x 28 4 ≠ 15 := by
    simp (disch := decide) only [hx, bits_or, bits_put_same, bits_put_apart, bits_ofNat, BitVec.reduceExtractLsb', BitVec.zero_or, BitVec.or_zero]
    exact bne_iff_ne.mp h
  refine (decode3 15 [] hk hc ⟨rfl, rfl⟩ rfl (by decide +kernel)
    (List.forall_mem_nil _) (by decide) rfl).trans ?_
  simp (disch := decide) only [hx, bits_or, bits_put_same, bits_put_apart, bits_ofNat, BitVec.reduceExtractLsb', BitVec.zero_or, BitVec.or_zero]

/-- Row 183 of the opcode table. -/
theorem RoundTrip.qsax (cond rn rd rm) : RoundTrip.Statement (.qsax cond rn rd rm) := fun hwf => by
  have h : (cond != 15) = true := hwf
  suffices H : ∀ x, x = 0x06200F50#32 ||| put cond 28 ||| put rn 16 ||| put rd 12 ||| put rm 0 → decodeWord x = .ok (.qsax cond rn rd rm) from H _ rfl
  intro x hx
  have hk : x &&& 0x0FF00FF0 = 0x06200F50 := by simp (disch := decide) only [hx, or_and, put_and_apart]; rfl
  have hc : bits x 28 4 ≠ 15 := by
    simp (disch := decide) only [hx, bits_or, bits_put_same, bits_put_apart, bits_ofNat, BitVec.reduceExtractLsb', BitVec.zero_or, BitVec.or_zero]
    exact bne_iff_ne.mp h
  refine (decode3 16 [] hk hc ⟨rfl, rfl⟩ rfl (by decide +kernel)
    (List.forall_mem_nil _) (by decide) rfl).trans ?_
  simp (disch := decide) only [hx, bits_or, bits_put_same, bits_put_apart, bits_ofNat, BitVec.reduceExtractLsb', BitVec.zero_or, BitVec.or_zero]

/-- Row 184 of the opcode table. -/
theorem RoundTrip.qsub16 (cond rn rd rm) : RoundTrip.Statement (.qsub16 cond rn rd rm) := fun hwf => by
  have h : (cond != 15) = true := hwf
  suffices H : ∀ x, x = 0x06200F70#32 ||| put cond 28 ||| put rn 16 ||| put rd 12 ||| put rm 0 → decodeWord x = .ok (.qsub16 cond rn rd rm) from H _ rfl
  intro x hx
  have hk : x &&& 0x0FF00FF0 = 0x06200F70 := by simp (disch := decide) only [hx, or_and, put_and_apart]; rfl
  have hc : bits x 28 4 ≠ 15 := by
    simp (disch := decide) only [hx, bits_or, bits_put_same, bits_put_apart, bits_ofNat, BitVec.reduceExtractLsb', BitVec.zero_or, BitVec.or_zero]
    exact bne_iff_ne.mp h
  refine (decode3 17 [] hk hc ⟨rfl, rfl⟩ rfl (by decide +kernel)
    (List.forall_mem_nil _) (by decide) rfl).trans ?_
  simp (disch := decide) only [hx, bits_or, bits_put_same, bits_put_apart, bits_ofNat, BitVec.reduceExtractLsb', BitVec.zero_or, BitVec.or_zero]

/-- Row 185 of the opcode table. -/
theorem RoundTrip.qadd8 (cond rn rd rm) : RoundTrip.Statement (.qadd8 cond rn rd rm) := fun hwf => by
  have h : (cond != 15) = true := hwf
  suffices H : ∀ x, x = 0x06200F90#32 ||| put cond 28 ||| put rn 16 ||| put rd 12 ||| put rm 0 → decodeWord x = .ok (.qadd8 cond rn rd rm) from H _ rfl
  intro x hx
  have hk : x &&& 0x0FF00FF0 = 0x06200F90 := by simp (disch := decide) only [hx, or_and, put_and_apart]; rfl
  have hc : bits x 28 4 ≠ 15 := by
    simp (disch := decide) only [hx, bits_or, bits_put_same, bits_put_apart, bits_ofNat, BitVec.reduceExtractLsb', BitVec.zero_or, BitVec.or_zero]
    exact bne_iff_ne.mp h
  refine (decode3 18 [] hk hc ⟨rfl, rfl⟩ rfl (by decide +kernel)
    (List.forall_mem_nil _) (by decide) rfl).trans ?_
  simp (disch := decide) only [hx, bits_or, bits_put_same, bits_put_apart, bits_ofNat, BitVec.reduceExtractLsb', BitVec.zero_or, BitVec.or_zero]

/-- Row 186 of the opcode table. -/
theorem RoundTrip.qsub8 (cond rn rd rm) : RoundTrip.Statement (.qsub8 cond rn rd rm) := fun hwf => by
  have h : (cond != 15) = true := hwf
  suffices H : ∀ x, x = 0x06200FF0#32 ||| put cond 28 ||| put rn 16 ||| put rd 12 ||| put rm 0 → decodeWord x = .ok (.qsub8 cond rn rd rm) from H _ rfl
  intro x hx
  have hk : x &&& 0x0FF00FF0 = 0x06200FF0 := by simp (disch := decide) only [hx, or_and, put_and_apart]; rfl
  have hc : bits x 28 4 ≠ 15 := by
    simp (disch := decide) only [hx, bits_or, bits_put_same, bits_put_apart, bits_ofNat, BitVec.reduceExtractLsb', BitVec.zero_or, BitVec.or_zero]
    exact bne_iff_ne.mp h
  refine (decode3 19 [] hk hc ⟨rfl, rfl⟩ rfl (by decide +kernel)
    (List.forall_mem_nil _) (by decide) rfl).trans ?_
  simp (disch := decide) only [hx, bits_or, bits_put_same, bits_put_apart, bits_ofNat, BitVec.reduceExtractLsb', BitVec.zero_or, BitVec.or_zero]

/-- Row 187 of the opcode table. -/
theorem RoundTrip.shadd16 (cond rn rd rm) : RoundTrip.Statement (.shadd16 cond rn rd rm) := fun hwf => by
  have h : (cond != 15) = true := hwf
  suffices H : ∀ x, x = 0x06300F10#32 ||| put cond 28 ||| put rn 16 ||| put rd 12 ||| put rm 0 → decodeWord x = .ok (.shadd16 cond rn rd rm) from H _ rfl
  intro x hx
  have hk : x &&& 0x0FF00FF0 = 0x06300F10 := by simp (disch := decide) only [hx, or_and, put_and_apart]; rfl
  have hc : bits x 28 4 ≠ 15 := by
    simp (disch := decide) only [hx, bits_or, bits_put_same, bits_put_apart, bits_ofNat, BitVec.reduceExtractLsb', BitVec.zero_or, BitVec.or_zero]
    exact bne_iff_ne.mp h
  refine (decode3 20 [] hk hc ⟨rfl, rfl⟩ rfl (by decide +kernel)
    (List.forall_mem_nil _) (by decide) rfl).trans ?_
  simp (disch := decide) only [hx, bits_or, bits_put_same, bits_put_apart, bits_ofNat, BitVec.reduceExtractLsb', BitVec.zero_or, BitVec.or_zero]

/-- Row 188 of the opcode table. -/
theorem RoundTrip.shasx (cond rn rd rm) : RoundTrip.Statement (.shasx cond rn rd rm) := fun hwf => by
  have h : (cond != 15) = true := hwf
  suffices H : ∀ x, x = 0x06300F30#32 ||| put cond 28 ||| put rn 16 ||| put rd 12 ||| put rm 0 → decodeWord x = .ok (.shasx cond rn rd rm) from H _ rfl
  intro x hx
  have hk : x &&& 0x0FF00FF0 = 0x06300F30 := by simp (disch := decide) only [hx, or_and, put_and_apart]; rfl
  have hc : bits x 28 4 ≠ 15 := by
    simp (disch := decide) only [hx, bits_or, bits_put_same, bits_put_apart, bits_ofNat, BitVec.reduceExtractLsb', BitVec.zero_or, BitVec.or_zero]
    exact bne_iff_ne.mp h
  refine (decode3 21 [] hk hc ⟨rfl, rfl⟩ rfl (by decide +kernel)
    (List.forall_mem_nil _) (by decide) rfl).trans ?_
  simp (disch := decide) only [hx, bits_or, bits_put_same, bits_put_apart, bits_ofNat, BitVec.reduceExtractLsb', BitVec.zero_or, BitVec.or_zero]

/-- Row 189 of the opcode table. -/
theorem RoundTrip.shsax (cond rn rd rm) : RoundTrip.Statement (.shsax cond rn rd rm) := fun hwf => by
  have h : (cond != 15) = true := hwf
  suffices H : ∀ x, x = 0x06300F50#32 ||| put cond 28 ||| put rn 16 ||| put rd 12 ||| put rm 0 → decodeWord x = .ok (.shsax cond rn rd rm) from H _ rfl
  intro x hx
  have hk : x &&& 0x0FF00FF0 = 0x06300F50 := by simp (disch := decide) only [hx, or_and, put_and_apart]; rfl
  have hc : bits x 28 4 ≠ 15 := by
    simp (disch := decide) only [hx, bits_or, bits_put_same, bits_put_apart, bits_ofNat, BitVec.reduceExtractLsb', BitVec.zero_or, BitVec.or_zero]
    exact bne_iff_ne.mp h
  refine (decode3 22 [] hk hc ⟨rfl, rfl⟩ rfl (by decide +kernel)
    (List.forall_mem_nil _) (by decide) rfl).trans ?_
  simp (disch := decide) only [hx, bits_or, bits_put_same, bits_put_apart, bits_ofNat, BitVec.reduceExtractLsb', BitVec.zero_or, BitVec.or_zero]

/-- Row 190 of the opcode table. -/
theorem RoundTrip.shsub16 (cond rn rd rm) : RoundTrip.Statement (.shsub16 cond rn rd rm) := fun hwf => by
  have h : (cond != 15) = true := hwf
  suffices H : ∀ x, x = 0x06300F70#32 ||| put cond 28 ||| put rn 16 ||| put rd 12 ||| put rm 0 → decodeWord x = .ok (.shsub16 cond rn rd rm) from H _ rfl
  intro x hx
  have hk : x &&& 0x0FF00FF0 = 0x06300F70 := by simp (disch := decide) only [hx, or_and, put_and_apart]; rfl
  have hc : bits x 28 4 ≠ 15 := by
    simp (disch := decide) only [hx, bits_or, bits_put_same, bits_put_apart, bits_ofNat, BitVec.reduceExtractLsb', BitVec.zero_or, BitVec.or_zero]
    exact bne_iff_ne.mp h
  refine (decode3 23 [] hk hc ⟨rfl, rfl⟩ rfl (by decide +kernel)
    (List.forall_mem_nil _) (by decide) rfl).trans ?_
  simp (disch := decide) only [hx, bits_or, bits_put_same, bits_put_apart, bits_ofNat, BitVec.reduceExtractLsb', BitVec.zero_or, BitVec.or_zero]

/-- Row 191 of the opcode table. -/
theorem RoundTrip.shadd8 (cond rn rd rm) : RoundTrip.Statement (.shadd8 cond rn rd rm) := fun hwf => by
  have h : (cond != 15) = true := hwf
  suffices H : ∀ x, x = 0x06300F90#32 ||| put cond 28 ||| put rn 16 ||| put rd 12 ||| put rm 0 → decodeWord x = .ok (.shadd8 cond rn rd rm) from H _ rfl
  intro x hx
  have hk : x &&& 0x0FF00FF0 = 0x06300F90 := by simp (disch := decide) only [hx, or_and, put_and_apart]; rfl
  have hc : bits x 28 4 ≠ 15 := by
    simp (disch := decide) only [hx, bits_or, bits_put_same, bits_put_apart, bits_ofNat, BitVec.reduceExtractLsb', BitVec.zero_or, BitVec.or_zero]
    exact bne_iff_ne.mp h
  refine (decode3 24 [] hk hc ⟨rfl, rfl⟩ rfl (by decide +kernel)
    (List.forall_mem_nil _) (by decide) rfl).trans ?_
  simp (disch := decide) only [hx, bits_or, bits_put_same, bits_put_apart, bits_ofNat, BitVec.reduceExtractLsb', BitVec.zero_or, BitVec.or_zero]

/-- Row 192 of the opcode table. -/
theorem RoundTrip.shsub8 (cond rn rd rm) : RoundTrip.Statement (.shsub8 cond rn rd rm) := fun hwf => by
  have h : (cond != 15) = true := hwf
  suffices H : ∀ x, x = 0x06300FF0#32 ||| put cond 28 ||| put rn 16 ||| put rd 12 ||| put rm 0 → decodeWord x = .ok (.shsub8 cond rn rd rm) from H _ rfl
  intro x hx
  have hk : x &&& 0x0FF00FF0 = 0x06300FF0 := by simp (disch := decide) only [hx, or_and, put_and_apart]; rfl
  have hc : bits x 28 4 ≠ 15 := by
    simp (disch := decide) only [hx, bits_or, bits_put_same, bits_put_apart, bits_ofNat, BitVec.reduceExtractLsb', BitVec.zero_or, BitVec.or_zero]
    exact bne_iff_ne.mp h
  refine (decode3 25 [] hk hc ⟨rfl, rfl⟩ rfl (by decide +kernel)
    (List.forall_mem_nil _) (by decide) rfl).trans ?_
  simp (disch := decide) only [hx, bits_or, bits_put_same, bits_put_apart, bits_ofNat, BitVec.reduceExtractLsb', BitVec.zero_or, BitVec.or_zero]

/-- Row 193 of the opcode table. -/
theorem RoundTrip.uadd16 (cond rn rd rm) : RoundTrip.Statement (.uadd16 cond rn rd rm) := fun hwf => by
  have h : (cond != 15) = true := hwf
  suffices H : ∀ x, x = 0x06500F10#32 ||| put cond 28 ||| put rn 16 ||| put rd 12 ||| put rm 0 → decodeWord x = .ok (.uadd16 cond rn rd rm) from H _ rfl
  intro x hx
  have hk : x &&& 0x0FF00FF0 = 0x06500F10 := by simp (disch := decide) only [hx, or_and, put_and_apart]; rfl
  have hc : bits x 28 4 ≠ 15 := by
    simp (disch := decide) only [hx, bits_or, bits_put_same, bits_put_apart, bits_ofNat, BitVec.reduceExtractLsb', BitVec.zero_or, BitVec.or_zero]
    exact bne_iff_ne.mp h
  refine (decode3 26 [] hk hc ⟨rfl, rfl⟩ rfl (by decide +kernel)
    (List.forall_mem_nil _) (by decide) rfl).trans ?_
  simp (disch := decide) only [hx, bits_or, bits_put_same, bits_put_apart, bits_ofNat, BitVec.reduceExtractLsb', BitVec.zero_or, BitVec.or_zero]

/-- Row 194 of the opcode table. -/
theorem RoundTrip.uasx (cond rn rd rm) : RoundTrip.Statement (.uasx cond rn rd rm) := fun hwf => by
  have h : (cond != 15) = true := hwf
  suffices H : ∀ x, x = 0x06500F30#32 ||| put cond 28 ||| put rn 16 ||| put rd 12 ||| put rm 0 → decodeWord x = .ok (.uasx cond rn rd rm) from H _ rfl
  intro x hx
  have hk : x &&& 0x0FF00FF0 = 0x06500F30 := by simp (disch := decide) only [hx, or_and, put_and_apart]; rfl
  have hc : bits x 28 4 ≠ 15 := by
    simp (disch := decide) only [hx, bits_or, bits_put_same, bits_put_apart, bits_ofNat, BitVec.reduceExtractLsb', BitVec.zero_or, BitVec.or_zero]
    exact bne_iff_ne.mp h
  refine (decode3 27 [] hk hc ⟨rfl, rfl⟩ rfl (by decide +kernel)
    (List.forall_mem_nil _) (by decide) rfl).trans ?_
  simp (disch := decide) only [hx, bits_or, bits_put_same, bits_put_apart, bits_ofNat, BitVec.reduceExtractLsb', BitVec.zero_or, BitVec.or_zero]

/-- Row 195 of the opcode table. -/
theorem RoundTrip.usax (cond rn rd rm) : RoundTrip.Statement (.usax cond rn rd rm) := fun hwf => by
  have h : (cond != 15) = true := hwf
  suffices H : ∀ x, x = 0x06500F50#32 ||| put cond 28 ||| put rn 16 ||| put rd 12 ||| put rm 0 → decodeWord x = .ok (.usax cond rn rd rm) from H _ rfl
  intro x hx
  have hk : x &&& 0x0FF00FF0 = 0x06500F50 := by simp (disch := decide) only [hx, or_and, put_and_apart]; rfl
  have hc : bits x 28 4 ≠ 15 := by
    simp (disch := decide) only [hx, bits_or, bits_put_same, bits_put_apart, bits_ofNat, BitVec.reduceExtractLsb', BitVec.zero_or, BitVec.or_zero]
    exact bne_iff_ne.mp h
  refine (decode3 28 [] hk hc ⟨rfl, rfl⟩ rfl (by decide +kernel)
    (List.forall_mem_nil _) (by decide) rfl).trans ?_
  simp (disch := decide) only [hx, bits_or, bits_put_same, bits_put_apart, bits_ofNat, BitVec.reduceExtractLsb', BitVec.zero_or, BitVec.or_zero]

/-- Row 196 of the opcode table. -/
theorem RoundTrip.usub16 (cond rn rd rm) : RoundTrip.Statement (.usub16 cond rn rd rm) := fun hwf => by
  have h : (cond != 15) = true := hwf
  suffices H : ∀ x, x = 0x06500F70#32 ||| put cond 28 ||| put rn 16 ||| put rd 12 ||| put rm 0 → decodeWord x = .ok (.usub16 cond rn rd rm) from H _ rfl
  intro x hx
  have hk : x &&& 0x0FF00FF0 = 0x06500F70 := by simp (disch := decide) only [hx, or_and, put_and_apart]; rfl
  have hc : bits x 28 4 ≠ 15 := by
    simp (disch := decide) only [hx, bits_or, bits_put_same, bits_put_apart, bits_ofNat, BitVec.reduceExtractLsb', BitVec.zero_or, BitVec.or_zero]
    exact bne_iff_ne.mp h
  refine (decode3 29 [] hk hc ⟨rfl, rfl⟩ rfl (by decide +kernel)
    (List.forall_mem_nil _) (by decide) rfl).trans ?_
  simp (disch := decide) only [hx, bits_or, bits_put_same, bits_put_apart, bits_ofNat, BitVec.reduceExtractLsb', BitVec.zero_or, BitVec.or_zero]

/-- Row 197 of the opcode table. -/
theorem RoundTrip.uadd8 (cond rn rd rm) : RoundTrip.Statement (.uadd8 cond rn rd rm) := fun hwf => by
  have h : (cond != 15) = true := hwf
  suffices H : ∀ x, x = 0x06500F90#32 ||| put cond 28 ||| put rn 16 ||| put rd 12 ||| put rm 0 → decodeWord x = .ok (.uadd8 cond rn rd rm) from H _ rfl
  intro x hx
  have hk : x &&& 0x0FF00FF0 = 0x06500F90 := by simp (disch := decide) only [hx, or_and, put_and_apart]; rfl
  have hc : bits x 28 4 ≠ 15 := by
    simp (disch := decide) only [hx, bits_or, bits_put_same, bits_put_apart, bits_ofNat, BitVec.reduceExtractLsb', BitVec.zero_or, BitVec.or_zero]
    exact bne_iff_ne.mp h
  refine (decode3 30 [] hk hc ⟨rfl, rfl⟩ rfl (by decide +kernel)
    (List.forall_mem_nil _) (by decide) rfl).trans ?_
  simp (disch := decide) only [hx, bits_or, bits_put_same, bits_put_apart, bits_ofNat, BitVec.reduceExtractLsb', BitVec.zero_or, BitVec.or_zero]

/-- Row 198 of the opcode table. -/
theorem RoundTrip.usub8 (cond rn rd rm) : RoundTrip.Statement (.usub8 cond rn rd rm) := fun hwf => by
  have h : (cond != 15) = true := hwf
  suffices H : ∀ x, x = 0x06500FF0#32 ||| put cond 28 ||| put rn 16 ||| put rd 12 ||| put rm 0 → decodeWord x = .ok (.usub8 cond rn rd rm) from H _ rfl
  intro x hx
  have hk : x &&& 0x0FF00FF0 = 0x06500FF0 := by simp (disch := decide) only [hx, or_and, put_and_apart]; rfl
  have hc : bits x 28 4 ≠ 15 := by
    simp (disch := decide) only [hx, bits_or, bits_put_same, bits_put_apart, bits_ofNat, BitVec.reduceExtractLsb', BitVec.zero_or, BitVec.or_zero]
    exact bne_iff_ne.mp h
  refine (decode3 31 [] hk hc ⟨rfl, rfl⟩ rfl (by decide +kernel)
    (List.forall_mem_nil _) (by decide) rfl).trans ?_
  simp (disch := decide) only [hx, bits_or, bits_put_same, bits_put_apart, bits_ofNat, BitVec.reduceExtractLsb', BitVec.zero_or, BitVec.or_zero]

/-- Row 199 of the opcode table. -/
theorem RoundTrip.uqadd16 (cond rn rd rm) : RoundTrip.Statement (.uqadd16 cond rn rd rm) := fun hwf => by
  have h : (cond != 15) = true := hwf
  suffices H : ∀ x, x = 0x06600F10#32 ||| put cond 28 ||| put rn 16 ||| put rd 12 ||| put rm 0 → decodeWord x = .ok (.uqadd16 cond rn rd rm) from H _ rfl
  intro x hx
  have hk : x &&& 0x0FF00FF0 = 0x06600F10 := by simp (disch := decide) only [hx, or_and, put_and_apart]; rfl
  have hc : bits x 28 4 ≠ 15 := by
    simp (disch := decide) only [hx, bits_or, bits_put_same, bits_put_apart, bits_ofNat, BitVec.reduceExtractLsb', BitVec.zero_or, BitVec.or_zero]
    exact bne_iff_ne.mp h
  refine (decode3 32 [] hk hc ⟨rfl, rfl⟩ rfl (by decide +kernel)
    (List.forall_mem_nil _) (by decide) rfl).trans ?_
  simp (disch := decide) only [hx, bits_or, bits_put_same, bits_put_apart, bits_ofNat, BitVec.reduceExtractLsb', BitVec.zero_or, BitVec.or_zero]

/-- Row 200 of the opcode table. -/
theorem RoundTrip.uqasx (cond rn rd rm) : RoundTrip.Statement (.uqasx cond rn rd rm) := fun hwf => by
  have h : (cond != 15) = true := hwf
  suffices H : ∀ x, x = 0x06600F30#32 ||| put cond 28 ||| put rn 16 ||| put rd 12 ||| put rm 0 → decodeWord x = .ok (.uqasx cond rn rd rm) from H _ rfl
  intro x hx
  have hk : x &&& 0x0FF00FF0 = 0x06600F30 := by simp (disch := decide) only [hx, or_and, put_and_apart]; rfl
  have hc : bits x 28 4 ≠ 15 := by
    simp (disch := decide) only [hx, bits_or, bits_put_same, bits_put_apart, bits_ofNat, BitVec.reduceExtractLsb', BitVec.zero_or, BitVec.or_zero]
    exact bne_iff_ne.mp h
  refine (decode3 33 [] hk hc ⟨rfl, rfl⟩ rfl (by decide +kernel)
    (List.forall_mem_nil _) (by decide) rfl).trans ?_
  simp (disch := decide) only [hx, bits_or, bits_put_same, bits_put_apart, bits_ofNat, BitVec.reduceExtractLsb', BitVec.zero_or, BitVec.or_zero]

/-- Row 201 of the opcode table. -/
theorem RoundTrip.uqsax (cond rn rd rm) : RoundTrip.Statement (.uqsax cond rn rd rm) := fun hwf => by
  have h : (cond != 15) = true := hwf
  suffices H : ∀ x, x = 0x06600F50#32 ||| put cond 28 ||| put rn 16 ||| put rd 12 ||| put rm 0 → decodeWord x = .ok (.uqsax cond rn rd rm) from H _ rfl
  intro x hx
  have hk : x &&& 0x0FF00FF0 = 0x06600F50 := by simp (disch := decide) only [hx, or_and, put_and_apart]; rfl
  have hc : bits x 28 4 ≠ 15 := by
    simp (disch := decide) only [hx, bits_or, bits_put_same, bits_put_apart, bits_ofNat, BitVec.reduceExtractLsb', BitVec.zero_or, BitVec.or_zero]
    exact bne_iff_ne.mp h
  refine (decode3 34 [] hk hc ⟨rfl, rfl⟩ rfl (by decide +kernel)
    (List.forall_mem_nil _) (by decide) rfl).trans ?_
  simp (disch := decide) only [hx, bits_or, bits_put_same, bits_put_apart, bits_ofNat, BitVec.reduceExtractLsb', BitVec.zero_or, BitVec.or_zero]

/-- Row 202 of the opcode table. -/
theorem RoundTrip.uqsub16 (cond rn rd rm) : RoundTrip.Statement (.uqsub16 cond rn rd rm) := fun hwf => by
  have h : (cond != 15) = true := hwf
  suffices H : ∀ x, x = 0x06600F70#32 ||| put cond 28 ||| put rn 16 ||| put rd 12 ||| put rm 0 → decodeWord x = .ok (.uqsub16 cond rn rd rm) from H _ rfl
  intro x hx
  have hk : x &&& 0x0FF00FF0 = 0x06600F70 := by simp (disch := decide) only [hx, or_and, put_and_apart]; rfl
  have hc : bits x 28 4 ≠ 15 := by
    simp (disch := decide) only [hx, bits_or, bits_put_same, bits_put_apart, bits_ofNat, BitVec.reduceExtractLsb', BitVec.zero_or, BitVec.or_zero]
    exact bne_iff_ne.mp h
  refine (decode3 35 [] hk hc ⟨rfl, rfl⟩ rfl (by decide +kernel)
    (List.forall_mem_nil _) (by decide) rfl).trans ?_
  simp (disch := decide) only [hx, bits_or, bits_put_same, bits_put_apart, bits_ofNat, BitVec.reduceExtractLsb', BitVec.zero_or, BitVec.or_zero]

/-- Row 203 of the opcode table. -/
theorem RoundTrip.uqadd8 (cond rn rd rm) : RoundTrip.Statement (.uqadd8 cond rn rd rm) := fun hwf => by
  have h : (cond != 15) = true := hwf
  suffices H : ∀ x, x = 0x06600F90#32 ||| put cond 28 ||| put rn 16 ||| put rd 12 ||| put rm 0 → decodeWord x = .ok (.uqadd8 cond rn rd rm) from H _ rfl
  intro x hx
  have hk : x &&& 0x0FF00FF0 = 0x06600F90 := by simp (disch := decide) only [hx, or_and, put_and_apart]; rfl
  have hc : bits x 28 4 ≠ 15 := by
    simp (disch := decide) only [hx, bits_or, bits_put_same, bits_put_apart, bits_ofNat, BitVec.reduceExtractLsb', BitVec.zero_or, BitVec.or_zero]
    exact bne_iff_ne.mp h
  refine (decode3 36 [] hk hc ⟨rfl, rfl⟩ rfl (by decide +kernel)
    (List.forall_mem_nil _) (by decide) rfl).trans ?_
  simp (disch := decide) only [hx, bits_or, bits_put_same, bits_put_apart, bits_ofNat, BitVec.reduceExtractLsb', BitVec.zero_or, BitVec.or_zero]

/-- Row 204 of the opcode table. -/
theorem RoundTrip.uqsub8 (cond rn rd rm) : RoundTrip.Statement (.uqsub8 cond rn rd rm) := fun hwf => by
  have h : (cond != 15) = true := hwf
  suffices H : ∀ x, x = 0x06600FF0#32 ||| put cond 28 ||| put rn 16 ||| put rd 12 ||| put rm 0 → decodeWord x = .ok (.uqsub8 cond rn rd rm) from H _ rfl
  intro x hx
  have hk : x &&& 0x0FF00FF0 = 0x06600FF0 := by simp (disch := decide) only [hx, or_and, put_and_apart]; rfl
  have hc : bits x 28 4 ≠ 15 := by
    simp (disch := decide) only [hx, bits_or, bits_put_same, bits_put_apart, bits_ofNat, BitVec.reduceExtractLsb', BitVec.zero_or, BitVec.or_zero]
    exact bne_iff_ne.mp h
  refine (decode3 37 [] hk hc ⟨rfl, rfl⟩ rfl (by decide +kernel)
    (List.forall_mem_nil _) (by decide) rfl).trans ?_
  simp (disch := decide) only [hx, bits_or, bits_put_same, bits_put_apart, bits_ofNat, BitVec.reduceExtractLsb', BitVec.zero_or, BitVec.or_zero]

/-- Row 205 of the opcode table. -/
theorem RoundTrip.uhadd16 (cond rn rd rm) : RoundTrip.Statement (.uhadd16 cond rn rd rm) := fun hwf => by
  have h : (cond != 15) = true := hwf
  suffices H : ∀ x, x = 0x06700F10#32 ||| put cond 28 ||| put rn 16 ||| put rd 12 ||| put rm 0 → decodeWord x = .ok (.uhadd16 cond rn rd rm) from H _ rfl
  intro x hx
  have hk : x &&& 0x0FF00FF0 = 0x06700F10 := by simp (disch := decide) only [hx, or_and, put_and_apart]; rfl
  have hc : bits x 28 4 ≠ 15 := by
    simp (disch := decide) only [hx, bits_or, bits_put_same, bits_put_apart, bits_ofNat, BitVec.reduceExtractLsb', BitVec.zero_or, BitVec.or_zero]
    exact bne_iff_ne.mp h
  refine (decode3 38 [] hk hc ⟨rfl, rfl⟩ rfl (by decide +kernel)
    (List.forall_mem_nil _) (by decide) rfl).trans ?_
  simp (disch := decide) only [hx, bits_or, bits_put_same, bits_put_apart, bits_ofNat, BitVec.reduceExtractLsb', BitVec.zero_or, BitVec.or_zero]

/-- Row 206 of the opcode table. -/
theorem RoundTrip.uhasx (cond rn rd rm) : RoundTrip.Statement (.uhasx cond rn rd rm) := fun hwf => by
  have h : (cond != 15) = true := hwf
  suffices H : ∀ x, x = 0x06700F30#32 ||| put cond 28 ||| put rn 16 ||| put rd 12 ||| put rm 0 → decodeWord x = .ok (.uhasx cond rn rd rm) from H _ rfl
  intro x hx
  have hk : x &&& 0x0FF00FF0 = 0x06700F30 := by simp (disch := decide) only [hx, or_and, put_and_apart]; rfl
  have hc : bits x 28 4 ≠ 15 := by
    simp (disch := decide) only [hx, bits_or, bits_put_same, bits_put_apart, bits_ofNat, BitVec.reduceExtractLsb', BitVec.zero_or, BitVec.or_zero]
    exact bne_iff_ne.mp h
  refine (decode3 39 [] hk hc ⟨rfl, rfl⟩ rfl (by decide +kernel)
    (List.forall_mem_nil _) (by decide) rfl).trans ?_
  simp (disch := decide) only [hx, bits_or, bits_put_same, bits_put_apart, bits_ofNat, BitVec.reduceExtractLsb', BitVec.zero_or, BitVec.or_zero]

/-- Row 207 of the opcode table. -/
theorem RoundTrip.uhsax (cond rn rd rm) : RoundTrip.Statement (.uhsax cond rn rd rm) := fun hwf => by
  have h : (cond != 15) = true := hwf
  suffices H : ∀ x, x = 0x06700F50#32 ||| put cond 28 ||| put rn 16 ||| put rd 12 ||| put rm 0 → decodeWord x = .ok (.uhsax cond rn rd rm) from H _ rfl
  intro x hx
  have hk : x &&& 0x0FF00FF0 = 0x06700F50 := by simp (disch := decide) only [hx, or_and, put_and_apart]; rfl
  have hc : bits x 28 4 ≠ 15 := by
    simp (disch := decide) only [hx, bits_or, bits_put_same, bits_put_apart, bits_ofNat, BitVec.reduceExtractLsb', BitVec.zero_or, BitVec.or_zero]
    exact bne_iff_ne.mp h
  refine (decode3 40 [] hk hc ⟨rfl, rfl⟩ rfl (by decide +kernel)
    (List.forall_mem_nil _) (by decide) rfl).trans ?_
  simp (disch := decide) only [hx, bits_or, bits_put_same, bits_put_apart, bits_ofNat, BitVec.reduceExtractLsb', BitVec.zero_or, BitVec.or_zero]

/-- Row 208 of the opcode table. -/
theorem RoundTrip.uhsub16 (cond rn rd rm) : RoundTrip.Statement (.uhsub16 cond rn rd rm) := fun hwf => by
  have h : (cond != 15) = true := hwf
  suffices H : ∀ x, x = 0x06700F70#32 ||| put cond 28 ||| put rn 16 ||| put rd 12 ||| put rm 0 → decodeWord x = .ok (.uhsub16 cond rn rd rm) from H _ rfl
  intro x hx
  have hk : x &&& 0x0FF00FF0 = 0x06700F70 := by simp (disch := decide) only [hx, or_and, put_and_apart]; rfl
  have hc : bits x 28 4 ≠ 15 := by
    simp (disch := decide) only [hx, bits_or, bits_put_same, bits_put_apart, bits_ofNat, BitVec.reduceExtractLsb', BitVec.zero_or, BitVec.or_zero]
    exact bne_iff_ne.mp h
  refine (decode3 41 [] hk hc ⟨rfl, rfl⟩ rfl (by decide +kernel)
    (List.forall_mem_nil _) (by decide) rfl).trans ?_
  simp (disch := decide) only [hx, bits_or, bits_put_same, bits_put_apart, bits_ofNat, BitVec.reduceExtractLsb', BitVec.zero_or, BitVec.or_zero]

/-- Row 209 of the opcode table. -/
theorem RoundTrip.uhadd8 (cond rn rd rm) : RoundTrip.Statement (.uhadd8 cond rn rd rm) := fun hwf => by
  have h : (cond != 15) = true := hwf
  suffices H : ∀ x, x = 0x06700F90#32 ||| put cond 28 ||| put rn 16 ||| put rd 12 ||| put rm 0 → decodeWord x = .ok (.uhadd8 cond rn rd rm) from H _ rfl
  intro x hx
  have hk : x &&& 0x0FF00FF0 = 0x06700F90 := by simp (disch := decide) only [hx, or_and, put_and_apart]; rfl
  have hc : bits x 28 4 ≠ 15 := by
    simp (disch := decide) only [hx, bits_or, bits_put_same, bits_put_apart, bits_ofNat, BitVec.reduceExtractLsb', BitVec.zero_or, BitVec.or_zero]
    exact bne_iff_ne.mp h
  refine (decode3 42 [] hk hc ⟨rfl, rfl⟩ rfl (by decide +kernel)
    (List.forall_mem_nil _) (by decide) rfl).trans ?_
  simp (disch := decide) only [hx, bits_or, bits_put_same, bits_put_apart, bits_ofNat, BitVec.reduceExtractLsb', BitVec.zero_or, BitVec.or_zero]

/-- Row 210 of the opcode table. -/
theorem RoundTrip.uhsub8 (cond rn rd rm) : RoundTrip.Statement (.uhsub8 cond rn rd rm) := fun hwf => by
  have h : (cond != 15) = true := hwf
  suffices H : ∀ x, x = 0x06700FF0#32 ||| put cond 28 ||| put rn 16 ||| put rd 12 ||| put rm 0 → decodeWord x = .ok (.uhsub8 cond rn rd rm) from H _ rfl
  intro x hx
  have hk : x &&& 0x0FF00FF0 = 0x06700FF0 := by simp (disch := decide) only [hx, or_and, put_and_apart]; rfl
  have hc : bits x 28 4 ≠ 15 := by
    simp (disch := decide) only [hx, bits_or, bits_put_same, bits_put_apart, bits_ofNat, BitVec.reduceExtractLsb', BitVec.zero_or, BitVec.or_zero]
    exact bne_iff_ne.mp h
  refine (decode3 43 [] hk hc ⟨rfl, rfl⟩ rfl (by decide +kernel)
    (List.forall_mem_nil _) (by decide) rfl).trans ?_
  simp (disch := decide) only [hx, bits_or, bits_put_same, bits_put_apart, bits_ofNat, BitVec.reduceExtractLsb', BitVec.zero_or, BitVec.or_zero]

/-- Row 211 of the opcode table. -/
theorem RoundTrip.pkhbt (cond rn rd imm5 rm) : RoundTrip.Statement (.pkhbt cond rn rd imm5 rm) := fun hwf => by
  have h : (cond != 15) = true := hwf
  suffices H : ∀ x, x = 0x06800010#32 ||| put cond 28 ||| put rn 16 ||| put rd 12 ||| put imm5 7 ||| put rm 0 → decodeWord x = .ok (.pkhbt cond rn rd imm5 rm) from H _ rfl
  intro x hx
  have hk : x &&& 0x0FF00070 = 0x06800010 := by simp (disch := decide) only [hx, or_and, put_and_apart]; rfl
  have hc : bits x 28 4 ≠ 15 := by
    simp (disch := decide) only [hx, bits_or, bits_put_same, bits_put_apart, bits_ofNat, BitVec.reduceExtractLsb', BitVec.zero_or, BitVec.or_zero]
    exact bne_iff_ne.mp h
  refine (decode3 44 [] hk hc ⟨rfl, rfl⟩ rfl (by decide +kernel)
    (List.forall_mem_nil _) (by decide) rfl).trans ?_
  simp (disch := decide) only [hx, bits_or, bits_put_same, bits_put_apart, bits_ofNat, BitVec.reduceExtractLsb', BitVec.zero_or, BitVec.or_zero]

/-- Row 212 of the opcode table. -/
theorem RoundTrip.pkhtb (cond rn rd imm5 rm) : RoundTrip.Statement (.pkhtb cond rn rd imm5 rm) := fun hwf => by
  have h : (cond != 15) = true := hwf
  suffices H : ∀ x, x = 0x06800050#32 ||| put cond 28 ||| put rn 16 ||| put rd 12 ||| put imm5 7 ||| put rm 0 → decodeWord x = .ok (.pkhtb cond rn rd imm5 rm) from H _ rfl
  intro x hx
  have hk : x &&& 0x0FF00070 = 0x06800050 := by simp (disch := decide) only [hx, or_and, put_and_apart]; rfl
  have hc : bits x 28 4 ≠ 15 := by
    simp (disch := decide) only [hx, bits_or, bits_put_same, bits_put_apart, bits_ofNat, BitVec.reduceExtractLsb', BitVec.zero_or, BitVec.or_zero]
    exact bne_iff_ne.mp h
  refine (decode3 45 [] hk hc ⟨rfl, rfl⟩ rfl (by decide +kernel)
    (List.forall_mem_nil _) (by decide) rfl).trans ?_
  simp (disch := decide) only [hx, bits_or, bits_put_same, bits_put_apart, bits_ofNat, BitVec.reduceExtractLsb', BitVec.zero_or, BitVec.or_zero]

/-- Row 213 of the opcode table. -/
theorem RoundTrip.sel (cond rn rd rm) : RoundTrip.Statement (.sel cond rn rd rm) := fun hwf => by
  have h : (cond != 15) = true := hwf
  suffices H : ∀ x, x = 0x06800FB0#32 ||| put cond 28 ||| put rn 16 ||| put rd 12 ||| put rm 0 → decodeWord x = .ok (.sel cond rn rd rm) from H _ rfl
  intro x hx
  have hk : x &&& 0x0FF00FF0 = 0x06800FB0 := by simp (disch := decide) only [hx, or_and, put_and_apart]; rfl
  have hc : bits x 28 4 ≠ 15 := by
    simp (disch := decide) only [hx, bits_or, bits_put_same, bits_put_apart, bits_ofNat, BitVec.reduceExtractLsb', BitVec.zero_or, BitVec.or_zero]
    exact bne_iff_ne.mp h
  refine (decode3 46 [] hk hc ⟨rfl, rfl⟩ rfl (by decide +kernel)
    (List.forall_mem_nil _) (by decide) rfl).trans ?_
  simp (disch := decide) only [hx, bits_or, bits_put_same, bits_put_apart, bits_ofNat, BitVec.reduceExtractLsb', BitVec.zero_or, BitVec.or_zero]

/-- Row 214 of the opcode table. -/
theorem RoundTrip.ssat (cond satImm rd imm5 sh rn) : RoundTrip.Statement (.ssat cond satImm rd imm5 sh rn) := fun hwf => by
  have h : (cond != 15) = true := hwf
  suffices H : ∀ x, x = 0x06A00010#32 ||| put cond 28 ||| put satImm 16 ||| put rd 12 ||| put imm5 7 ||| put sh 6 ||| put rn 0 → decodeWord x = .ok (.ssat cond satImm rd imm5 sh rn) from H _ rfl
  intro x hx
  have hk : x &&& 0x0FE00030 = 0x06A00010 := by simp (disch := decide) only [hx, or_and, put_and_apart]; rfl
  have hc : bits x 28 4 ≠ 15 := by
    simp (disch := decide) only [hx, bits_or, bits_put_same, bits_put_apart, bits_ofNat, BitVec.reduceExtractLsb', BitVec.zero_or, BitVec.or_zero]
    exact bne_iff_ne.mp h
  refine (decode3 47 [] hk hc ⟨rfl, rfl⟩ rfl (by decide +kernel)
    (List.forall_mem_nil _) (by decide) rfl).trans ?_
  simp (disch := decide) only [hx, bits_or, bits_put_same, bits_put_apart, bits_ofNat, BitVec.reduceExtractLsb', BitVec.zero_or, BitVec.or_zero]

/-- Row 215 of the opcode table. -/
theorem RoundTrip.usat (cond satImm rd imm5 sh rn) : RoundTrip.Statement (.usat cond satImm rd imm5 sh rn) := fun hwf => by
  have h : (cond != 15) = true := hwf
  suffices H : ∀ x, x = 0x06E00010#32 ||| put cond 28 ||| put satImm 16 ||| put rd 12 ||| put imm5 7 ||| put sh 6 ||| put rn 0 → decodeWord x = .ok (.usat cond satImm rd imm5 sh rn) from H _ rfl
  intro x hx
  have hk : x &&& 0x0FE00030 = 0x06E00010 := by simp (disch := decide) only [hx, or_and, put_and_apart]; rfl
  have hc : bits x 28 4 ≠ 15 := by
    simp (disch := decide) only [hx, bits_or, bits_put_same, bits_put_apart, bits_ofNat, BitVec.reduceExtractLsb', BitVec.zero_or, BitVec.or_zero]
    exact bne_iff_ne.mp h
  refine (decode3 48 [] hk hc ⟨rfl, rfl⟩ rfl (by decide +kernel)
    (List.forall_mem_nil _) (by decide) rfl).trans ?_
  simp (disch := decide) only [hx, bits_or, bits_put_same, bits_put_apart, bits_ofNat, BitVec.reduceExtractLsb', BitVec.zero_or, BitVec.or_zero]

/-- Row 216 of the opcode table. -/
theorem RoundTrip.ssat16 (cond satImm rd rn) : RoundTrip.Statement (.ssat16 cond satImm rd rn) := fun hwf => by
  have h : (cond != 15) = true := hwf
  suffices H : ∀ x, x = 0x06A00F30#32 ||| put cond 28 ||| put satImm 16 ||| put rd 12 ||| put rn 0 → decodeWord x = .ok (.ssat16 cond satImm rd rn) from H _ rfl
  intro x hx
  have hk : x &&& 0x0FF00FF0 = 0x06A00F30 := by simp (disch := decide) only [hx, or_and, put_and_apart]; rfl
  have hc : bits x 28 4 ≠ 15 := by
    simp (disch := decide) only [hx, bits_or, bits_put_same, bits_put_apart, bits_ofNat, BitVec.reduceExtractLsb', BitVec.zero_or, BitVec.or_zero]
    exact bne_iff_ne.mp h
  refine (decode3 49 [] hk hc ⟨rfl, rfl⟩ rfl (by decide +kernel)
    (List.forall_mem_nil _) (by decide) rfl).trans ?_
  simp (disch := decide) only [hx, bits_or, bits_put_same, bits_put_apart, bits_ofNat, BitVec.reduceExtractLsb', BitVec.zero_or, BitVec.or_zero]

/-- Row 217 of the opcode table. -/
theorem RoundTrip.usat16 (cond satImm rd rn) : RoundTrip.Statement (.usat16 cond satImm rd rn) := fun hwf => by
  have h : (cond != 15) = true := hwf
  suffices H : ∀ x, x = 0x06E00F30#32 ||| put cond 28 ||| put satImm 16 ||| put rd 12 ||| put rn 0 → decodeWord x = .ok (.usat16 cond satImm rd rn) from H _ rfl
  intro x hx
  have hk : x &&& 0x0FF00FF0 = 0x06E00F30 := by simp (disch := decide) only [hx, or_and, put_and_apart]; rfl
  have hc : bits x 28 4 ≠ 15 := by
    simp (disch := decide) only [hx, bits_or, bits_put_same, bits_put_apart, bits_ofNat, BitVec.reduceExtractLsb', BitVec.zero_or, BitVec.or_zero]
    exact bne_iff_ne.mp h
  refine (decode3 50 [] hk hc ⟨rfl, rfl⟩ rfl (by decide +kernel)
    (List.forall_mem_nil _) (by decide) rfl).trans ?_
  simp (disch := decide) only [hx, bits_or, bits_put_same, bits_put_apart, bits_ofNat, BitVec.reduceExtractLsb', BitVec.zero_or, BitVec.or_zero]

/-- Row 218 of the opcode table. -/
theorem RoundTrip.sxtb16 (cond rd rotate rm) : RoundTrip.Statement (.sxtb16 cond rd rotate rm) := fun hwf => by
  have h : (cond != 15) = true := hwf
  suffices H : ∀ x, x = 0x068F0070#32 ||| put cond 28 ||| put rd 12 ||| put rotate 10 ||| put rm 0 → decodeWord x = .ok (.sxtb16 cond rd rotate rm) from H _ rfl
  intro x hx
  have hk : x &&& 0x0FFF03F0 = 0x068F0070 := by simp (disch := decide) only [hx, or_and, put_and_apart]; rfl
  have hc : bits x 28 4 ≠ 15 := by
    simp (disch := decide) only [hx, bits_or, bits_put_same, bits_put_apart, bits_ofNat, BitVec.reduceExtractLsb', BitVec.zero_or, BitVec.or_zero]
    exact bne_iff_ne.mp h
  refine (decode3 51 [] hk hc ⟨rfl, rfl⟩ rfl (by decide +kernel)
    (List.forall_mem_nil _) (by decide) rfl).trans ?_
  simp (disch := decide) only [hx, bits_or, bits_put_same, bits_put_apart, bits_ofNat, BitVec.reduceExtractLsb', BitVec.zero_or, BitVec.or_zero]

/-- Row 219 of the opcode table. -/
theorem RoundTrip.sxtab16 (cond rn rd rotate rm) : RoundTrip.Statement (.sxtab16 cond rn rd rotate rm) := fun hwf => by
  have h : (cond != 15 && rn != 15) = true := hwf
  suffices H : ∀ x, x = 0x06800070#32 ||| put cond 28 ||| put rn 16 ||| put rd 12 ||| put rotate 10 ||| put rm 0 → decodeWord x = .ok (.sxtab16 cond rn rd rotate rm) from H _ rfl
  intro x hx
  have hk : x &&& 0x0FF003F0 = 0x06800070 := by simp (disch := decide) only [hx, or_and, put_and_apart]; rfl
  have hc : bits x 28 4 ≠ 15 := by
    simp (disch := decide) only [hx, bits_or, bits_put_same, bits_put_apart, bits_ofNat, BitVec.reduceExtractLsb', BitVec.zero_or, BitVec.or_zero]
    exact fun hh => by simp [hh] at h
  have e_rn : bits x 16 4 = rn := by
    simp (disch := decide) only [hx, bits_or, bits_put_same, bits_put_apart, bits_ofNat, BitVec.reduceExtractLsb', BitVec.zero_or, BitVec.or_zero]
  refine (decode3 52 [51] hk hc ⟨rfl, rfl⟩ rfl (by decide +kernel)
    (List.forall_mem_cons.2 ⟨Bool.eq_false_iff.2 fun hq => by simp [(e_rn.symm.trans (bits_of_hits hq 16 4 rfl) : rn = 15)] at h,
    (List.forall_mem_nil _)⟩) (by decide) (by show (bits x 16 4 != 15) = true; rw [e_rn]; exact (Bool.and_eq_true_iff.mp h).2)).trans ?_
  simp (disch := decide) only [hx, bits_or, bits_put_same, bits_put_apart, bits_ofNat, BitVec.reduceExtractLsb', BitVec.zero_or, BitVec.or_zero]

/-- Row 220 of the opcode table. -/
theorem RoundTrip.sxtb (cond rd rotate rm) : RoundTrip.Statement (.sxtb cond rd rotate rm) := fun hwf => by
  have h : (cond != 15) = true := hwf
  suffices H : ∀ x, x = 0x06AF0070#32 ||| put cond 28 ||| put rd 12 ||| put rotate 10 ||| put rm 0 → decodeWord x = .ok (.sxtb cond rd rotate rm) from H _ rfl
  intro x hx
  have hk : x &&& 0x0FFF03F0 = 0x06AF0070 := by simp (disch := decide) only [hx, or_and, put_and_apart]; rfl
  have hc : bits x 28 4 ≠ 15 := by
    simp (disch := decide) only [hx, bits_or, bits_put_same, bits_put_apart, bits_ofNat, BitVec.reduceExtractLsb', BitVec.zero_or, BitVec.or_zero]
    exact bne_iff_ne.mp h
  refine (decode3 53 [] hk hc ⟨rfl, rfl⟩ rfl (by decide +kernel)
    (List.forall_mem_nil _) (by decide) rfl).trans ?_
  simp (disch := decide) only [hx, bits_or, bits_put_same, bits_put_apart, bits_ofNat, BitVec.reduceExtractLsb', BitVec.zero_or, BitVec.or_zero]

/-- Row 221 of the opcode table. -/
theorem RoundTrip.sxtab (cond rn rd rotate rm) : RoundTrip.Statement (.sxtab cond rn rd rotate rm) := fun hwf => by
  have h : (cond != 15 && rn != 15) = true := hwf
  suffices H : ∀ x, x = 0x06A00070#32 ||| put cond 28 ||| put rn 16 ||| put rd 12 ||| put rotate 10 ||| put rm 0 → decodeWord x = .ok (.sxtab cond rn rd rotate rm) from H _ rfl
  intro x hx
  have hk : x &&& 0x0FF003F0 = 0x06A00070 := by simp (disch := decide) only [hx, or_and, put_and_apart]; rfl
  have hc : bits x 28 4 ≠ 15 := by
    simp (disch := decide) only [hx, bits_or, bits_put_same, bits_put_apart, bits_ofNat, BitVec.reduceExtractLsb', BitVec.zero_or, BitVec.or_zero]
    exact fun hh => by simp [hh] at h
  have e_rn : bits x 16 4 = rn := by
    simp (disch := decide) only [hx, bits_or, bits_put_same, bits_put_apart, bits_ofNat, BitVec.reduceExtractLsb', BitVec.zero_or, BitVec.or_zero]
  refine (decode3 54 [53] hk hc ⟨rfl, rfl⟩ rfl (by decide +kernel)
    (List.forall_mem_cons.2 ⟨Bool.eq_false_iff.2 fun hq => by simp [(e_rn.symm.trans (bits_of_hits hq 16 4 rfl) : rn = 15)] at h,
    (List.forall_mem_nil _)⟩) (by decide) (by show (bits x 16 4 != 15) = true; rw [e_rn]; exact (Bool.and_eq_true_iff.mp h).2)).trans ?_
  simp (disch := decide) only [hx, bits_or, bits_put_same, bits_put_apart, bits_ofNat, BitVec.reduceExtractLsb', BitVec.zero_or, BitVec.or_zero]

/-- Row 222 of the opcode table. -/
theorem RoundTrip.sxth (cond rd rotate rm) : RoundTrip.Statement (.sxth cond rd rotate rm) := fun hwf => by
  have h : (cond != 15) = true := hwf
  suffices H : ∀ x, x = 0x06BF0070#32 ||| put cond 28 ||| put rd 12 ||| put rotate 10 ||| put rm 0 → decodeWord x = .ok (.sxth cond rd rotate rm) from H _ rfl
  intro x hx
  have hk : x &&& 0x0FFF03F0 = 0x06BF0070 := by simp (disch := decide) only [hx, or_and, put_and_apart]; rfl
  have hc : bits x 28 4 ≠ 15 := by
    simp (disch := decide) only [hx, bits_or, bits_put_same, bits_put_apart, bits_ofNat, BitVec.reduceExtractLsb', BitVec.zero_or, BitVec.or_zero]
    exact bne_iff_ne.mp h
  refine (decode3 55 [] hk hc ⟨rfl, rfl⟩ rfl (by decide +kernel)
    (List.forall_mem_nil _) (by decide) rfl).trans ?_
  simp (disch := decide) only [hx, bits_or, bits_put_same, bits_put_apart, bits_ofNat, BitVec.reduceExtractLsb', BitVec.zero_or, BitVec.or_zero]

/-- Row 223 of the opcode table. -/
theorem RoundTrip.sxtah (cond rn rd rotate rm) : RoundTrip.Statement (.sxtah cond rn rd rotate rm) := fun hwf => by
  have h : (cond != 15 && rn != 15) = true := hwf
  suffices H : ∀ x, x = 0x06B00070#32 ||| put cond 28 ||| put rn 16 ||| put rd 12 ||| put rotate 10 ||| put rm 0 → decodeWord x = .ok (.sxtah cond rn rd rotate rm) from H _ rfl
  intro x hx
  have hk : x &&& 0x0FF003F0 = 0x06B00070 := by simp (disch := decide) only [hx, or_and, put_and_apart]; rfl
  have hc : bits x 28 4 ≠ 15 := by
    simp (disch := decide) only [hx, bits_or, bits_put_same, bits_put_apart, bits_ofNat, BitVec.reduceExtractLsb', BitVec.zero_or, BitVec.or_zero]
    exact fun hh => by simp [hh] at h
  have e_rn : bits x 16 4 = rn := by
    simp (disch := decide) only [hx, bits_or, bits_put_same, bits_put_apart, bits_ofNat, BitVec.reduceExtractLsb', BitVec.zero_or, BitVec.or_zero]
  refine (decode3 56 [55] hk hc ⟨rfl, rfl⟩ rfl (by decide +kernel)
    (List.forall_mem_cons.2 ⟨Bool.eq_false_iff.2 fun hq => by simp [(e_rn.symm.trans (bits_of_hits hq 16 4 rfl) : rn = 15)] at h,
    (List.forall_mem_nil _)⟩) (by decide) (by show (bits x 16 4 != 15) = true; rw [e_rn]; exact (Bool.and_eq_true_iff.mp h).2)).trans ?_
  simp (disch := decide) only [hx, bits_or, bits_put_same, bits_put_apart, bits_ofNat, BitVec.reduceExtractLsb', BitVec.zero_or, BitVec.or_zero]

/-- Row 224 of the opcode table. -/
theorem RoundTrip.uxtb16 (cond rd rotate rm) : RoundTrip.Statement (.uxtb16 cond rd rotate rm) := fun hwf => by
  have h : (cond != 15) = true := hwf
  suffices H : ∀ x, x = 0x06CF0070#32 ||| put cond 28 ||| put rd 12 ||| put rotate 10 ||| put rm 0 → decodeWord x = .ok (.uxtb16 cond rd rotate rm) from H _ rfl
  intro x hx
  have hk : x &&& 0x0FFF03F0 = 0x06CF0070 := by simp (disch := decide) only [hx, or_and, put_and_apart]; rfl
  have hc : bits x 28 4 ≠ 15 := by
    simp (disch := decide) only [hx, bits_or, bits_put_same, bits_put_apart, bits_ofNat, BitVec.reduceExtractLsb', BitVec.zero_or, BitVec.or_zero]
    exact bne_iff_ne.mp h
  refine (decode3 57 [] hk hc ⟨rfl, rfl⟩ rfl (by decide +kernel)
    (List.forall_mem_nil _) (by decide) rfl).trans ?_
  simp (disch := decide) only [hx, bits_or, bits_put_same, bits_put_apart, bits_ofNat, BitVec.reduceExtractLsb', BitVec.zero_or, BitVec.or_zero]

/-- Row 225 of the opcode table. -/
theorem RoundTrip.uxtab16 (cond rn rd rotate rm) : RoundTrip.Statement (.uxtab16 cond rn rd rotate rm) := fun hwf => by
  have h : (cond != 15 && rn != 15) = true := hwf
  suffices H : ∀ x, x = 0x06C00070#32 ||| put cond 28 ||| put rn 16 ||| put rd 12 ||| put rotate 10 ||| put rm 0 → decodeWord x = .ok (.uxtab16 cond rn rd rotate rm) from H _ rfl
  intro x hx
  have hk : x &&& 0x0FF003F0 = 0x06C00070 := by simp (disch := decide) only [hx, or_and, put_and_apart]; rfl
  have hc : bits x 28 4 ≠ 15 := by
    simp (disch := decide) only [hx, bits_or, bits_put_same, bits_put_apart, bits_ofNat, BitVec.reduceExtractLsb', BitVec.zero_or, BitVec.or_zero]
    exact fun hh => by simp [hh] at h
  have e_rn : bits x 16 4 = rn := by
    simp (disch := decide) only [hx, bits_or, bits_put_same, bits_put_apart, bits_ofNat, BitVec.reduceExtractLsb', BitVec.zero_or, BitVec.or_zero]
  refine (decode3 58 [57] hk hc ⟨rfl, rfl⟩ rfl (by decide +kernel)
    (List.forall_mem_cons.2 ⟨Bool.eq_false_iff.2 fun hq => by simp [(e_rn.symm.trans (bits_of_hits hq 16 4 rfl) : rn = 15)] at h,
    (List.forall_mem_nil _)⟩) (by decide) (by show (bits x 16 4 != 15) = true; rw [e_rn]; exact (Bool.and_eq_true_iff.mp h).2)).trans ?_
  simp (disch := decide) only [hx, bits_or, bits_put_same, bits_put_apart, bits_ofNat, BitVec.reduceExtractLsb', BitVec.zero_or, BitVec.or_zero]

/-- Row 226 of the opcode table. -/
theorem RoundTrip.uxtb (cond rd rotate rm) : RoundTrip.Statement (.uxtb cond rd rotate rm) := fun hwf => by
  have h : (cond != 15) = true := hwf
  suffices H : ∀ x, x = 0x06EF0070#32 ||| put cond 28 ||| put rd 12 ||| put rotate 10 ||| put rm 0 → decodeWord x = .ok (.uxtb cond rd rotate rm) from H _ rfl
  intro x hx
  have hk : x &&& 0x0FFF03F0 = 0x06EF0070 := by simp (disch := decide) only [hx, or_and, put_and_apart]; rfl
  have hc : bits x 28 4 ≠ 15 := by
    simp (disch := decide) only [hx, bits_or, bits_put_same, bits_put_apart, bits_ofNat, BitVec.reduceExtractLsb', BitVec.zero_or, BitVec.or_zero]
    exact bne_iff_ne.mp h
  refine (decode3 59 [] hk hc ⟨rfl, rfl⟩ rfl (by decide +kernel)
    (List.forall_mem_nil _) (by decide) rfl).trans ?_
  simp (disch := decide) only [hx, bits_or, bits_put_same, bits_put_apart, bits_ofNat, BitVec.reduceExtractLsb', BitVec.zero_or, BitVec.or_zero]

/-- Row 227 of the opcode table. -/
theorem RoundTrip.uxtab (cond rn rd rotate rm) : RoundTrip.Statement (.uxtab cond rn rd rotate rm) := fun hwf => by
  have h : (cond != 15 && rn != 15) = true := hwf
  suffices H : ∀ x, x = 0x06E00070#32 ||| put cond 28 ||| put rn 16 ||| put rd 12 ||| put rotate 10 ||| put rm 0 → decodeWord x = .ok (.uxtab cond rn rd rotate rm) from H _ rfl
  intro x hx
  have hk : x &&& 0x0FF003F0 = 0x06E00070 := by simp (disch := decide) only [hx, or_and, put_and_apart]; rfl
  have hc : bits x 28 4 ≠ 15 := by
    simp (disch := decide) only [hx, bits_or, bits_put_same, bits_put_apart, bits_ofNat, BitVec.reduceExtractLsb', BitVec.zero_or, BitVec.or_zero]
    exact fun hh => by simp [hh] at h
  have e_rn : bits x 16 4 = rn := by
    simp (disch := decide) only [hx, bits_or, bits_put_same, bits_put_apart, bits_ofNat, BitVec.reduceExtractLsb', BitVec.zero_or, BitVec.or_zero]
  refine (decode3 60 [59] hk hc ⟨rfl, rfl⟩ rfl (by decide +kernel)
    (List.forall_mem_cons.2 ⟨Bool.eq_false_iff.2 fun hq => by simp [(e_rn.symm.trans (bits_of_hits hq 16 4 rfl) : rn = 15)] at h,
    (List.forall_mem_nil _)⟩) (by decide) (by show (bits x 16 4 != 15) = true; rw [e_rn]; exact (Bool.and_eq_true_iff.mp h).2)).trans ?_
  simp (disch := decide) only [hx, bits_or, bits_put_same, bits_put_apart, bits_ofNat, BitVec.reduceExtractLsb', BitVec.zero_or, BitVec.or_zero]

/-- Row 228 of the opcode table. -/
theorem RoundTrip.uxth (cond rd rotate rm) : RoundTrip.Statement (.uxth cond rd rotate rm) := fun hwf => by
  have h : (cond != 15) = true := hwf
  suffices H : ∀ x, x = 0x06FF0070#32 ||| put cond 28 ||| put rd 12 ||| put rotate 10 ||| put rm 0 → decodeWord x = .ok (.uxth cond rd rotate rm) from H _ rfl
  intro x hx
  have hk : x &&& 0x0FFF03F0 = 0x06FF0070 := by simp (disch := decide) only [hx, or_and, put_and_apart]; rfl
  have hc : bits x 28 4 ≠ 15 := by
    simp (disch := decide) only [hx, bits_or, bits_put_same, bits_put_apart, bits_ofNat, BitVec.reduceExtractLsb', BitVec.zero_or, BitVec.or_zero]
    exact bne_iff_ne.mp h
  refine (decode3 61 [] hk hc ⟨rfl, rfl⟩ rfl (by decide +kernel)
    (List.forall_mem_nil _) (by decide) rfl).trans ?_
  simp (disch := decide) only [hx, bits_or, bits_put_same, bits_put_apart, bits_ofNat, BitVec.reduceExtractLsb', BitVec.zero_or, BitVec.or_zero]

/-- Row 229 of the opcode table. -/
theorem RoundTrip.uxtah (cond rn rd rotate rm) : RoundTrip.Statement (.uxtah cond rn rd rotate rm) := fun hwf => by
  have h : (cond != 15 && rn != 15) = true := hwf
  suffices H : ∀ x, x = 0x06F00070#32 ||| put cond 28 ||| put rn 16 ||| put rd 12 ||| put rotate 10 ||| put rm 0 → decodeWord x = .ok (.uxtah cond rn rd rotate rm) from H _ rfl
  intro x hx
  have hk : x &&& 0x0FF003F0 = 0x06F00070 := by simp (disch := decide) only [hx, or_and, put_and_apart]; rfl
  have hc : bits x 28 4 ≠ 15 := by
    simp (disch := decide) only [hx, bits_or, bits_put_same, bits_put_apart, bits_ofNat, BitVec.reduceExtractLsb', BitVec.zero_or, BitVec.or_zero]
    exact fun hh => by simp [hh] at h
  have e_rn : bits x 16 4 = rn := by
    simp (disch := decide) only [hx, bits_or, bits_put_same, bits_put_apart, bits_ofNat, BitVec.reduceExtractLsb', BitVec.zero_or, BitVec.or_zero]
  refine (decode3 62 [61] hk hc ⟨rfl, rfl⟩ rfl (by decide +kernel)
    (List.forall_mem_cons.2 ⟨Bool.eq_false_iff.2 fun hq => by simp [(e_rn.symm.trans (bits_of_hits hq 16 4 rfl) : rn = 15)] at h,
    (List.forall_mem_nil _)⟩) (by decide) (by show (bits x 16 4 != 15) = true; rw [e_rn]; exact (Bool.and_eq_true_iff.mp h).2)).trans ?_
  simp (disch := decide) only [hx, bits_or, bits_put_same, bits_put_apart, bits_ofNat, BitVec.reduceExtractLsb', BitVec.zero_or, BitVec.or_zero]

/-- Row 230 of the opcode table. -/
theorem RoundTrip.rev (cond rd rm) : RoundTrip.Statement (.rev cond rd rm) := fun hwf => by
  have h : (cond != 15) = true := hwf
  suffices H : ∀ x, x = 0x06BF0F30#32 ||| put cond 28 ||| put rd 12 ||| put rm 0 → decodeWord x = .ok (.rev cond rd rm) from H _ rfl
  intro x hx
  have hk : x &&& 0x0FFF0FF0 = 0x06BF0F30 := by simp (disch := decide) only [hx, or_and, put_and_apart]; rfl
  have hc : bits x 28 4 ≠ 15 := by
    simp (disch := decide) only [hx, bits_or, bits_put_same, bits_put_apart, bits_ofNat, BitVec.reduceExtractLsb', BitVec.zero_or, BitVec.or_zero]
    exact bne_iff_ne.mp h
  refine (decode3 63 [] hk hc ⟨rfl, rfl⟩ rfl (by decide +kernel)
    (List.forall_mem_nil _) (by decide) rfl).trans ?_
  simp (disch := decide) only [hx, bits_or, bits_put_same, bits_put_apart, bits_ofNat, BitVec.reduceExtractLsb', BitVec.zero_or, BitVec.or_zero]

/-- Row 231 of the opcode table. -/
theorem RoundTrip.rev16 (cond rd rm) : RoundTrip.Statement (.rev16 cond rd rm) := fun hwf => by
  have h : (cond != 15) = true := hwf
  suffices H : ∀ x, x = 0x06BF0FB0#32 ||| put cond 28 ||| put rd 12 ||| put rm 0 → decodeWord x = .ok (.rev16 cond rd rm) from H _ rfl
  intro x hx
  have hk : x &&& 0x0FFF0FF0 = 0x06BF0FB0 := by simp (disch := decide) only [hx, or_and, put_and_apart]; rfl
  have hc : bits x 28 4 ≠ 15 := by
    simp (disch := decide) only [hx, bits_or, bits_put_same, bits_put_apart, bits_ofNat, BitVec.reduceExtractLsb', BitVec.zero_or, BitVec.or_zero]
    exact bne_iff_ne.mp h
  refine (decode3 64 [] hk hc ⟨rfl, rfl⟩ rfl (by decide +kernel)
    (List.forall_mem_nil _) (by decide) rfl).trans ?_
  simp (disch := decide) only [hx, bits_or, bits_put_same, bits_put_apart, bits_ofNat, BitVec.reduceExtractLsb', BitVec.zero_or, BitVec.or_zero]

/-- Row 232 of the opcode table. -/
theorem RoundTrip.rbit (cond rd rm) : RoundTrip.Statement (.rbit cond rd rm) := fun hwf => by
  have h : (cond != 15) = true := hwf
  suffices H : ∀ x, x = 0x06FF0F30#32 ||| put cond 28 ||| put rd 12 ||| put rm 0 → decodeWord x = .ok (.rbit cond rd rm) from H _ rfl
  intro x hx
  have hk : x &&& 0x0FFF0FF0 = 0x06FF0F30 := by simp (disch := decide) only [hx, or_and, put_and_apart]; rfl
  have hc : bits x 28 4 ≠ 15 := by
    simp (disch := decide) only [hx, bits_or, bits_put_same, bits_put_apart, bits_ofNat, BitVec.reduceExtractLsb', BitVec.zero_or, BitVec.or_zero]
    exact bne_iff_ne.mp h
  refine (decode3 65 [] hk hc ⟨rfl, rfl⟩ rfl (by decide +kernel)
    (List.forall_mem_nil _) (by decide) rfl).trans ?_
  simp (disch := decide) only [hx, bits_or, bits_put_same, bits_put_apart, bits_ofNat, BitVec.reduceExtractLsb', BitVec.zero_or, BitVec.or_zero]

/-- Row 233 of the opcode table. -/
theorem RoundTrip.revsh (cond rd rm) : RoundTrip.Statement (.revsh cond rd rm) := fun hwf => by
  have h : (cond != 15) = true := hwf
  suffices H : ∀ x, x = 0x06FF0FB0#32 ||| put cond 28 ||| put rd 12 ||| put rm 0 → decodeWord x = .ok (.revsh cond rd rm) from H _ rfl
  intro x hx
  have hk : x &&& 0x0FFF0FF0 = 0x06FF0FB0 := by simp (disch := decide) only [hx, or_and, put_and_apart]; rfl
  have hc : bits x 28 4 ≠ 15 := by
    simp (disch := decide) only [hx, bits_or, bits_put_same, bits_put_apart, bits_ofNat, BitVec.reduceExtractLsb', BitVec.zero_or, BitVec.or_zero]
    exact bne_iff_ne.mp h
  refine (decode3 66 [] hk hc ⟨rfl, rfl⟩ rfl (by decide +kernel)
    (List.forall_mem_nil _) (by decide) rfl).trans ?_
  simp (disch := decide) only [hx, bits_or, bits_put_same, bits_put_apart, bits_ofNat, BitVec.reduceExtractLsb', BitVec.zero_or, BitVec.or_zero]

/-- Row 234 of the opcode table. -/
theorem RoundTrip.smuad (cond rd rm rn) : RoundTrip.Statement (.smuad cond rd rm rn) := fun hwf => by
  have h : (cond != 15) = true := hwf
  suffices H : ∀ x, x = 0x0700F010#32 ||| put cond 28 ||| put rd 16 ||| put rm 8 ||| put rn 0 → decodeWord x = .ok (.smuad cond rd rm rn) from H _ rfl
  intro x hx
  have hk : x &&& 0x0FF0F0F0 = 0x0700F010 := by simp (disch := decide) only [hx, or_and, put_and_apart]; rfl
  have hc : bits x 28 4 ≠ 15 := by
    simp (disch := decide) only [hx, bits_or, bits_put_same, bits_put_apart, bits_ofNat, BitVec.reduceExtractLsb', BitVec.zero_or, BitVec.or_zero]
    exact bne_iff_ne.mp h
  refine (decode3 67 [] hk hc ⟨rfl, rfl⟩ rfl (by decide +kernel)
    (List.forall_mem_nil _) (by decide) rfl).trans ?_
  simp (disch := decide) only [hx, bits_or, bits_put_same, bits_put_apart, bits_ofNat, BitVec.reduceExtractLsb', BitVec.zero_or, BitVec.or_zero]

/-- Row 235 of the opcode table. -/
theorem RoundTrip.smusd (cond rd rm rn) : RoundTrip.Statement (.smusd cond rd rm rn) := fun hwf => by
  have h : (cond != 15) = true := hwf
  suffices H : ∀ x, x = 0x0700F050#32 ||| put cond 28 ||| put rd 16 ||| put rm 8 ||| put rn 0 → decodeWord x = .ok (.smusd cond rd rm rn) from H _ rfl
  intro x hx
  have hk : x &&& 0x0FF0F0F0 = 0x0700F050 := by simp (disch := decide) only [hx, or_and, put_and_apart]; rfl
  have hc : bits x 28 4 ≠ 15 := by
    simp (disch := decide) only [hx, bits_or, bits_put_same, bits_put_apart, bits_ofNat, BitVec.reduceExtractLsb', BitVec.zero_or, BitVec.or_zero]
    exact bne_iff_ne.mp h
  refine (decode3 68 [] hk hc ⟨rfl, rfl⟩ rfl (by decide +kernel)
    (List.forall_mem_nil _) (by decide) rfl).trans ?_
  simp (disch := decide) only [hx, bits_or, bits_put_same, bits_put_apart, bits_ofNat, BitVec.reduceExtractLsb', BitVec.zero_or, BitVec.or_zero]

/-- Row 236 of the opcode table. -/
theorem RoundTrip.smuadx (cond rd rm rn) : RoundTrip.Statement (.smuadx cond rd rm rn) := fun hwf => by
  have h : (cond != 15) = true := hwf
  suffices H : ∀ x, x = 0x0700F030#32 ||| put cond 28 ||| put rd 16 ||| put rm 8 ||| put rn 0 → decodeWord x = .ok (.smuadx cond rd rm rn) from H _ rfl
  intro x hx
  have hk : x &&& 0x0FF0F0F0 = 0x0700F030 := by simp (disch := decide) only [hx, or_and, put_and_apart]; rfl
  have hc : bits x 28 4 ≠ 15 := by
    simp (disch := decide) only [hx, bits_or, bits_put_same, bits_put_apart, bits_ofNat, BitVec.reduceExtractLsb', BitVec.zero_or, BitVec.or_zero]
    exact bne_iff_ne.mp h
  refine (decode3 69 [] hk hc ⟨rfl, rfl⟩ rfl (by decide +kernel)
    (List.forall_mem_nil _) (by decide) rfl).trans ?_
  simp (disch := decide) only [hx, bits_or, bits_put_same, bits_put_apart, bits_ofNat, BitVec.reduceExtractLsb', BitVec.zero_or, BitVec.or_zero]

/-- Row 237 of the opcode table. -/
theorem RoundTrip.smusdx (cond rd rm rn) : RoundTrip.Statement (.smusdx cond rd rm rn) := fun hwf => by
  have h : (cond != 15) = true := hwf
  suffices H : ∀ x, x = 0x0700F070#32 ||| put cond 28 ||| put rd 16 ||| put rm 8 ||| put rn 0 → decodeWord x = .ok (.smusdx cond rd rm rn) from H _ rfl
  intro x hx
  have hk : x &&& 0x0FF0F0F0 = 0x0700F070 := by simp (disch := decide) only [hx, or_and, put_and_apart]; rfl
  have hc : bits x 28 4 ≠ 15 := by
    simp (disch := decide) only [hx, bits_or, bits_put_same, bits_put_apart, bits_ofNat, BitVec.reduceExtractLsb', BitVec.zero_or, BitVec.or_zero]
    exact bne_iff_ne.mp h
  refine (decode3 70 [] hk hc ⟨rfl, rfl⟩ rfl (by decide +kernel)
    (List.forall_mem_nil _) (by decide) rfl).trans ?_
  simp (disch := decide) only [hx, bits_or, bits_put_same, bits_put_apart, bits_ofNat, BitVec.reduceExtractLsb', BitVec.zero_or, BitVec.or_zero]

/-- Row 238 of the opcode table. -/
theorem RoundTrip.smlad (cond rd ra rm rn) : RoundTrip.Statement (.smlad cond rd ra rm rn) := fun hwf => by
  have h : (cond != 15 && ra != 15) = true := hwf
  suffices H : ∀ x, x = 0x07000010#32 ||| put cond 28 ||| put rd 16 ||| put ra 12 ||| put rm 8 ||| put rn 0 → decodeWord x = .ok (.smlad cond rd ra rm rn) from H _ rfl
  intro x hx
  have hk : x &&& 0x0FF000F0 = 0x07000010 := by simp (disch := decide) only [hx, or_and, put_and_apart]; rfl
  have hc : bits x 28 4 ≠ 15 := by
    simp (disch := decide) only [hx, bits_or, bits_put_same, bits_put_apart, bits_ofNat, BitVec.reduceExtractLsb', BitVec.zero_or, BitVec.or_zero]
    exact fun hh => by simp [hh] at h
  have e_ra : bits x 12 4 = ra := by
    simp (disch := decide) only [hx, bits_or, bits_put_same, bits_put_apart, bits_ofNat, BitVec.reduceExtractLsb', BitVec.zero_or, BitVec.or_zero]
  refine (decode3 71 [67] hk hc ⟨rfl, rfl⟩ rfl (by decide +kernel)
    (List.forall_mem_cons.2 ⟨Bool.eq_false_iff.2 fun hq => by simp [(e_ra.symm.trans (bits_of_hits hq 12 4 rfl) : ra = 15)] at h,
    (List.forall_mem_nil _)⟩) (by decide) (by show (bits x 12 4 != 15) = true; rw [e_ra]; exact (Bool.and_eq_true_iff.mp h).2)).trans ?_
  simp (disch := decide) only [hx, bits_or, bits_put_same, bits_put_apart, bits_ofNat, BitVec.reduceExtractLsb', BitVec.zero_or, BitVec.or_zero]

/-- Row 239 of the opcode table. -/
theorem RoundTrip.smlsd (cond rd ra rm rn) : RoundTrip.Statement (.smlsd cond rd ra rm rn) := fun hwf => by
  have h : (cond != 15 && ra != 15) = true := hwf
  suffices H : ∀ x, x = 0x07000050#32 ||| put cond 28 ||| put rd 16 ||| put ra 12 ||| put rm 8 ||| put rn 0 → decodeWord x = .ok (.smlsd cond rd ra rm rn) from H _ rfl
  intro x hx
  have hk : x &&& 0x0FF000F0 = 0x07000050 := by simp (disch := decide) only [hx, or_and, put_and_apart]; rfl
  have hc : bits x 28 4 ≠ 15 := by
    simp (disch := decide) only [hx, bits_or, bits_put_same, bits_put_apart, bits_ofNat, BitVec.reduceExtractLsb', BitVec.zero_or, BitVec.or_zero]
    exact fun hh => by simp [hh] at h
  have e_ra : bits x 12 4 = ra := by
    simp (disch := decide) only [hx, bits_or, bits_put_same, bits_put_apart, bits_ofNat, BitVec.reduceExtractLsb', BitVec.zero_or, BitVec.or_zero]
  refine (decode3 72 [68] hk hc ⟨rfl, rfl⟩ rfl (by decide +kernel)
    (List.forall_mem_cons.2 ⟨Bool.eq_false_iff.2 fun hq => by simp [(e_ra.symm.trans (bits_of_hits hq 12 4 rfl) : ra = 15)] at h,
    (List.forall_mem_nil _)⟩) (by decide) (by show (bits x 12 4 != 15) = true; rw [e_ra]; exact (Bool.and_eq_true_iff.mp h).2)).trans ?_
  simp (disch := decide) only [hx, bits_or, bits_put_same, bits_put_apart, bits_ofNat, BitVec.reduceExtractLsb', BitVec.zero_or, BitVec.or_zero]

/-- Row 240 of the opcode table. -/
theorem RoundTrip.smlald (cond rdHi rdLo rm rn) : RoundTrip.Statement (.smlald cond rdHi rdLo rm rn) := fun hwf => by
  have h : (cond != 15) = true := hwf
  suffices H : ∀ x, x = 0x07400010#32 ||| put cond 28 ||| put rdHi 16 ||| put rdLo 12 ||| put rm 8 ||| put rn 0 → decodeWord x = .ok (.smlald cond rdHi rdLo rm rn) from H _ rfl
  intro x hx
  have hk : x &&& 0x0FF000F0 = 0x07400010 := by simp (disch := decide) only [hx, or_and, put_and_apart]; rfl
  have hc : bits x 28 4 ≠ 15 := by
    simp (disch := decide) only [hx, bits_or, bits_put_same, bits_put_apart, bits_ofNat, BitVec.reduceExtractLsb', BitVec.zero_or, BitVec.or_zero]
    exact bne_iff_ne.mp h
  refine (decode3 73 [] hk hc ⟨rfl, rfl⟩ rfl (by decide +kernel)
    (List.forall_mem_nil _) (by decide) rfl).trans ?_
  simp (disch := decide) only [hx, bits_or, bits_put_same, bits_put_apart, bits_ofNat, BitVec.reduceExtractLsb', BitVec.zero_or, BitVec.or_zero]

/-- Row 241 of the opcode table. -/
theorem RoundTrip.smlsld (cond rdHi rdLo rm rn) : RoundTrip.Statement (.smlsld cond rdHi rdLo rm rn) := fun hwf => by
  have h : (cond != 15) = true := hwf
  suffices H : ∀ x, x = 0x07400050#32 ||| put cond 28 ||| put rdHi 16 ||| put rdLo 12 ||| put rm 8 ||| put rn 0 → decodeWord x = .ok (.smlsld cond rdHi rdLo rm rn) from H _ rfl
  intro x hx
  have hk : x &&& 0x0FF000F0 = 0x07400050 := by simp (disch := decide) only [hx, or_and, put_and_apart]; rfl
  have hc : bits x 28 4 ≠ 15 := by
    simp (disch := decide) only [hx, bits_or, bits_put_same, bits_put_apart, bits_ofNat, BitVec.reduceExtractLsb', BitVec.zero_or, BitVec.or_zero]
    exact bne_iff_ne.mp h
  refine (decode3 74 [] hk hc ⟨rfl, rfl⟩ rfl (by decide +kernel)
    (List.forall_mem_nil _) (by decide) rfl).trans ?_
  simp (disch := decide) only [hx, bits_or, bits_put_same, bits_put_apart, bits_ofNat, BitVec.reduceExtractLsb', BitVec.zero_or, BitVec.or_zero]

/-- Row 242 of the opcode table. -/
theorem RoundTrip.smladx (cond rd ra rm rn) : RoundTrip.Statement (.smladx cond rd ra rm rn) := fun hwf => by
  have h : (cond != 15 && ra != 15) = true := hwf
  suffices H : ∀ x, x = 0x07000030#32 ||| put cond 28 ||| put rd 16 ||| put ra 12 ||| put rm 8 ||| put rn 0 → decodeWord x = .ok (.smladx cond rd ra rm rn) from H _ rfl
  intro x hx
  have hk : x &&& 0x0FF000F0 = 0x07000030 := by simp (disch := decide) only [hx, or_and, put_and_apart]; rfl
  have hc : bits x 28 4 ≠ 15 := by
    simp (disch := decide) only [hx, bits_or, bits_put_same, bits_put_apart, bits_ofNat, BitVec.reduceExtractLsb', BitVec.zero_or, BitVec.or_zero]
    exact fun hh => by simp [hh] at h
  have e_ra : bits x 12 4 = ra := by
    simp (disch := decide) only [hx, bits_or, bits_put_same, bits_put_apart, bits_ofNat, BitVec.reduceExtractLsb', BitVec.zero_or, BitVec.or_zero]
  refine (decode3 75 [69] hk hc ⟨rfl, rfl⟩ rfl (by decide +kernel)
    (List.forall_mem_cons.2 ⟨Bool.eq_false_iff.2 fun hq => by simp [(e_ra.symm.trans (bits_of_hits hq 12 4 rfl) : ra = 15)] at h,
    (List.forall_mem_nil _)⟩) (by decide) (by show (bits x 12 4 != 15) = true; rw [e_ra]; exact (Bool.and_eq_true_iff.mp h).2)).trans ?_
  simp (disch := decide) only [hx, bits_or, bits_put_same, bits_put_apart, bits_ofNat, BitVec.reduceExtractLsb', BitVec.zero_or, BitVec.or_zero]

/-- Row 243 of the opcode table. -/
theorem RoundTrip.smlsdx (cond rd ra rm rn) : RoundTrip.Statement (.smlsdx cond rd ra rm rn) := fun hwf => by
  have h : (cond != 15 && ra != 15) = true := hwf
  suffices H : ∀ x, x = 0x07000070#32 ||| put cond 28 ||| put rd 16 ||| put ra 12 ||| put rm 8 ||| put rn 0 → decodeWord x = .ok (.smlsdx cond rd ra rm rn) from H _ rfl
  intro x hx
  have hk : x &&& 0x0FF000F0 = 0x07000070 := by simp (disch := decide) only [hx, or_and, put_and_apart]; rfl
  have hc : bits x 28 4 ≠ 15 := by
    simp (disch := decide) only [hx, bits_or, bits_put_same, bits_put_apart, bits_ofNat, BitVec.reduceExtractLsb', BitVec.zero_or, BitVec.or_zero]
    exact fun hh => by simp [hh] at h
  have e_ra : bits x 12 4 = ra := by
    simp (disch := decide) only [hx, bits_or, bits_put_same, bits_put_apart, bits_ofNat, BitVec.reduceExtractLsb', BitVec.zero_or, BitVec.or_zero]
  refine (decode3 76 [70] hk hc ⟨rfl, rfl⟩ rfl (by decide +kernel)
    (List.forall_mem_cons.2 ⟨Bool.eq_false_iff.2 fun hq => by simp [(e_ra.symm.trans (bits_of_hits hq 12 4 rfl) : ra = 15)] at h,
    (List.forall_mem_nil _)⟩) (by decide) (by show (bits x 12 4 != 15) = true; rw [e_ra]; exact (Bool.and_eq_true_iff.mp h).2)).trans ?_
  simp (disch := decide) only [hx, bits_or, bits_put_same, bits_put_apart, bits_ofNat, BitVec.reduceExtractLsb', BitVec.zero_or, BitVec.or_zero]

/-- Row 244 of the opcode table. -/
theorem RoundTrip.smlaldx (cond rdHi rdLo rm rn) : RoundTrip.Statement (.smlaldx cond rdHi rdLo rm rn) := fun hwf => by
  have h : (cond != 15) = true := hwf
  suffices H : ∀ x, x = 0x07400030#32 ||| put cond 28 ||| put rdHi 16 ||| put rdLo 12 ||| put rm 8 ||| put rn 0 → decodeWord x = .ok (.smlaldx cond rdHi rdLo rm rn) from H _ rfl
  intro x hx
  have hk : x &&& 0x0FF000F0 = 0x07400030 := by simp (disch := decide) only [hx, or_and, put_and_apart]; rfl
  have hc : bits x 28 4 ≠ 15 := by
    simp (disch := decide) only [hx, bits_or, bits_put_same, bits_put_apart, bits_ofNat, BitVec.reduceExtractLsb', BitVec.zero_or, BitVec.or_zero]
    exact bne_iff_ne.mp h
  refine (decode3 77 [] hk hc ⟨rfl, rfl⟩ rfl (by decide +kernel)
    (List.forall_mem_nil _) (by decide) rfl).trans ?_
  simp (disch := decide) only [hx, bits_or, bits_put_same, bits_put_apart, bits_ofNat, BitVec.reduceExtractLsb', BitVec.zero_or, BitVec.or_zero]

/-- Row 245 of the opcode table. -/
theorem RoundTrip.smlsldx (cond rdHi rdLo rm rn) : RoundTrip.Statement (.smlsldx cond rdHi rdLo rm rn) := fun hwf => by
  have h : (cond != 15) = true := hwf
  suffices H : ∀ x, x = 0x07400070#32 ||| put cond 28 ||| put rdHi 16 ||| put rdLo 12 ||| put rm 8 ||| put rn 0 → decodeWord x = .ok (.smlsldx cond rdHi rdLo rm rn) from H _ rfl
  intro x hx
  have hk : x &&& 0x0FF000F0 = 0x07400070 := by simp (disch := decide) only [hx, or_and, put_and_apart]; rfl
  have hc : bits x 28 4 ≠ 15 := by
    simp (disch := decide) only [hx, bits_or, bits_put_same, bits_put_apart, bits_ofNat, BitVec.reduceExtractLsb', BitVec.zero_or, BitVec.or_zero]
    exact bne_iff_ne.mp h
  refine (decode3 78 [] hk hc ⟨rfl, rfl⟩ rfl (by decide +kernel)
    (List.forall_mem_nil _) (by decide) rfl).trans ?_
  simp (disch := decide) only [hx, bits_or, bits_put_same, bits_put_apart, bits_ofNat, BitVec.reduceExtractLsb', BitVec.zero_or, BitVec.or_zero]

/-- Row 246 of the opcode table. -/
theorem RoundTrip.smmul (cond rd rm rn) : RoundTrip.Statement (.smmul cond rd rm rn) := fun hwf => by
  have h : (cond != 15) = true := hwf
  suffices H : ∀ x, x = 0x0750F010#32 ||| put cond 28 ||| put rd 16 ||| put rm 8 ||| put rn 0 → decodeWord x = .ok (.smmul cond rd rm rn) from H _ rfl
  intro x hx
  have hk : x &&& 0x0FF0F0F0 = 0x0750F010 := by simp (disch := decide) only [hx, or_and, put_and_apart]; rfl
  have hc : bits x 28 4 ≠ 15 := by
    simp (disch := decide) only [hx, bits_or, bits_put_same, bits_put_apart, bits_ofNat, BitVec.reduceExtractLsb', BitVec.zero_or, BitVec.or_zero]
    exact bne_iff_ne.mp h
  refine (decode3 79 [] hk hc ⟨rfl, rfl⟩ rfl (by decide +kernel)
    (List.forall_mem_nil _) (by decide) rfl).trans ?_
  simp (disch := decide) only [hx, bits_or, bits_put_same, bits_put_apart, bits_ofNat, BitVec.reduceExtractLsb', BitVec.zero_or, BitVec.or_zero]

/-- Row 247 of the opcode table. -/
theorem RoundTrip.smmulr (cond rd rm rn) : RoundTrip.Statement (.smmulr cond rd rm rn) := fun hwf => by
  have h : (cond != 15) = true := hwf
  suffices H : ∀ x, x = 0x0750F030#32 ||| put cond 28 ||| put rd 16 ||| put rm 8 ||| put rn 0 → decodeWord x = .ok (.smmulr cond rd rm rn) from H _ rfl
  intro x hx
  have hk : x &&& 0x0FF0F0F0 = 0x0750F030 := by simp (disch := decide) only [hx, or_and, put_and_apart]; rfl
  have hc : bits x 28 4 ≠ 15 := by
    simp (disch := decide) only [hx, bits_or, bits_put_same, bits_put_apart, bits_ofNat, BitVec.reduceExtractLsb', BitVec.zero_or, BitVec.or_zero]
    exact bne_iff_ne.mp h
  refine (decode3 80 [] hk hc ⟨rfl, rfl⟩ rfl (by decide +kernel)
    (List.forall_mem_nil _) (by decide) rfl).trans ?_
  simp (disch := decide) only [hx, bits_or, bits_put_same, bits_put_apart, bits_ofNat, BitVec.reduceExtractLsb', BitVec.zero_or, BitVec.or_zero]

/-- Row 248 of the opcode table. -/
theorem RoundTrip.smmla (cond rd ra rm rn) : RoundTrip.Statement (.smmla cond rd ra rm rn) := fun hwf => by
  have h : (cond != 15 && ra != 15) = true := hwf
  suffices H : ∀ x, x = 0x07500010#32 ||| put cond 28 ||| put rd 16 ||| put ra 12 ||| put rm 8 ||| put rn 0 → decodeWord x = .ok (.smmla cond rd ra rm rn) from H _ rfl
  intro x hx
  have hk : x &&& 0x0FF000F0 = 0x07500010 := by simp (disch := decide) only [hx, or_and, put_and_apart]; rfl
  have hc : bits x 28 4 ≠ 15 := by
    simp (disch := decide) only [hx, bits_or, bits_put_same, bits_put_apart, bits_ofNat, BitVec.reduceExtractLsb', BitVec.zero_or, BitVec.or_zero]
    exact fun hh => by simp [hh] at h
  have e_ra : bits x 12 4 = ra := by
    simp (disch := decide) only [hx, bits_or, bits_put_same, bits_put_apart, bits_ofNat, BitVec.reduceExtractLsb', BitVec.zero_or, BitVec.or_zero]
  refine (decode3 81 [79] hk hc ⟨rfl, rfl⟩ rfl (by decide +kernel)
    (List.forall_mem_cons.2 ⟨Bool.eq_false_iff.2 fun hq => by simp [(e_ra.symm.trans (bits_of_hits hq 12 4 rfl) : ra = 15)] at h,
    (List.forall_mem_nil _)⟩) (by decide) (by show (bits x 12 4 != 15) = true; rw [e_ra]; exact (Bool.and_eq_true_iff.mp h).2)).trans ?_
  simp (disch := decide) only [hx, bits_or, bits_put_same, bits_put_apart, bits_ofNat, BitVec.reduceExtractLsb', BitVec.zero_or, BitVec.or_zero]

/-- Row 249 of the opcode table. -/
theorem RoundTrip.smmls (cond rd ra rm rn) : RoundTrip.Statement (.smmls cond rd ra rm rn) := fun hwf => by
  have h : (cond != 15) = true := hwf
  suffices H : ∀ x, x = 0x075000D0#32 ||| put cond 28 ||| put rd 16 ||| put ra 12 ||| put rm 8 ||| put rn 0 → decodeWord x = .ok (.smmls cond rd ra rm rn) from H _ rfl
  intro x hx
  have hk : x &&& 0x0FF000F0 = 0x075000D0 := by simp (disch := decide) only [hx, or_and, put_and_apart]; rfl
  have hc : bits x 28 4 ≠ 15 := by
    simp (disch := decide) only [hx, bits_or, bits_put_same, bits_put_apart, bits_ofNat, BitVec.reduceExtractLsb', BitVec.zero_or, BitVec.or_zero]
    exact bne_iff_ne.mp h
  refine (decode3 82 [] hk hc ⟨rfl, rfl⟩ rfl (by decide +kernel)
    (List.forall_mem_nil _) (by decide) rfl).trans ?_
  simp (disch := decide) only [hx, bits_or, bits_put_same, bits_put_apart, bits_ofNat, BitVec.reduceExtractLsb', BitVec.zero_or, BitVec.or_zero]

/-- Row 250 of the opcode table. -/
theorem RoundTrip.smmlar (cond rd ra rm rn) : RoundTrip.Statement (.smmlar cond rd ra rm rn) := fun hwf => by
  have h : (cond != 15 && ra != 15) = true := hwf
  suffices H : ∀ x, x = 0x07500030#32 ||| put cond 28 ||| put rd 16 ||| put ra 12 ||| put rm 8 ||| put rn 0 → decodeWord x = .ok (.smmlar cond rd ra rm rn) from H _ rfl
  intro x hx
  have hk : x &&& 0x0FF000F0 = 0x07500030 := by simp (disch := decide) only [hx, or_and, put_and_apart]; rfl
  have hc : bits x 28 4 ≠ 15 := by
    simp (disch := decide) only [hx, bits_or, bits_put_same, bits_put_apart, bits_ofNat, BitVec.reduceExtractLsb', BitVec.zero_or, BitVec.or_zero]
    exact fun hh => by simp [hh] at h
  have e_ra : bits x 12 4 = ra := by
    simp (disch := decide) only [hx, bits_or, bits_put_same, bits_put_apart, bits_ofNat, BitVec.reduceExtractLsb', BitVec.zero_or, BitVec.or_zero]
  refine (decode3 83 [80] hk hc ⟨rfl, rfl⟩ rfl (by decide +kernel)
    (List.forall_mem_cons.2 ⟨Bool.eq_false_iff.2 fun hq => by simp [(e_ra.symm.trans (bits_of_hits hq 12 4 rfl) : ra = 15)] at h,
    (List.forall_mem_nil _)⟩) (by decide) (by show (bits x 12 4 != 15) = true; rw [e_ra]; exact (Bool.and_eq_true_iff.mp h).2)).trans ?_
  simp (disch := decide) only [hx, bits_or, bits_put_same, bits_put_apart, bits_ofNat, BitVec.reduceExtractLsb', BitVec.zero_or, BitVec.or_zero]

/-- Row 251 of the opcode table. -/
theorem RoundTrip.smmlsr (cond rd ra rm rn) : RoundTrip.Statement (.smmlsr cond rd ra rm rn) := fun hwf => by
  have h : (cond != 15) = true := hwf
  suffices H : ∀ x, x = 0x075000F0#32 ||| put cond 28 ||| put rd 16 ||| put ra 12 ||| put rm 8 ||| put rn 0 → decodeWord x = .ok (.smmlsr cond rd ra rm rn) from H _ rfl
  intro x hx
  have hk : x &&& 0x0FF000F0 = 0x075000F0 := by simp (disch := decide) only [hx, or_and, put_and_apart]; rfl
  have hc : bits x 28 4 ≠ 15 := by
    simp (disch := decide) only [hx, bits_or, bits_put_same, bits_put_apart, bits_ofNat, BitVec.reduceExtractLsb', BitVec.zero_or, BitVec.or_zero]
    exact bne_iff_ne.mp h
  refine (decode3 84 [] hk hc ⟨rfl, rfl⟩ rfl (by decide +kernel)
    (List.forall_mem_nil _) (by decide) rfl).trans ?_
  simp (disch := decide) only [hx, bits_or, bits_put_same, bits_put_apart, bits_ofNat, BitVec.reduceExtractLsb', BitVec.zero_or, BitVec.or_zero]

/-- Row 252 of the opcode table. -/
theorem RoundTrip.usad8 (cond rd rm rn) : RoundTrip.Statement (.usad8 cond rd rm rn) := fun hwf => by
  have h : (cond != 15) = true := hwf
  suffices H : ∀ x, x = 0x0780F010#32 ||| put cond 28 ||| put rd 16 ||| put rm 8 ||| put rn 0 → decodeWord x = .ok (.usad8 cond rd rm rn) from H _ rfl
  intro x hx
  have hk : x &&& 0x0FF0F0F0 = 0x0780F010 := by simp (disch := decide) only [hx, or_and, put_and_apart]; rfl
  have hc : bits x 28 4 ≠ 15 := by
    simp (disch := decide) only [hx, bits_or, bits_put_same, bits_put_apart, bits_ofNat, BitVec.reduceExtractLsb', BitVec.zero_or, BitVec.or_zero]
    exact bne_iff_ne.mp h
  refine (decode3 85 [] hk hc ⟨rfl, rfl⟩ rfl (by decide +kernel)
    (List.forall_mem_nil _) (by decide) rfl).trans ?_
  simp (disch := decide) only [hx, bits_or, bits_put_same, bits_put_apart, bits_ofNat, BitVec.reduceExtractLsb', BitVec.zero_or, BitVec.or_zero]

/-- Row 253 of the opcode table. -/
theorem RoundTrip.usada8 (cond rd ra rm rn) : RoundTrip.Statement (.usada8 cond rd ra rm rn) := fun hwf => by
  have h : (cond != 15 && ra != 15) = true := hwf
  suffices H : ∀ x, x = 0x07800010#32 ||| put cond 28 ||| put rd 16 ||| put ra 12 ||| put rm 8 ||| put rn 0 → decodeWord x = .ok (.usada8 cond rd ra rm rn) from H _ rfl
  intro x hx
  have hk : x &&& 0x0FF000F0 = 0x07800010 := by simp (disch := decide) only [hx, or_and, put_and_apart]; rfl
  have hc : bits x 28 4 ≠ 15 := by
    simp (disch := decide) only [hx, bits_or, bits_put_same, bits_put_apart, bits_ofNat, BitVec.reduceExtractLsb', BitVec.zero_or, BitVec.or_zero]
    exact fun hh => by simp [hh] at h
  have e_ra : bits x 12 4 = ra := by
    simp (disch := decide) only [hx, bits_or, bits_put_same, bits_put_apart, bits_ofNat, BitVec.reduceExtractLsb', BitVec.zero_or, BitVec.or_zero]
  refine (decode3 86 [85] hk hc ⟨rfl, rfl⟩ rfl (by decide +kernel)
    (List.forall_mem_cons.2 ⟨Bool.eq_false_iff.2 fun hq => by simp [(e_ra.symm.trans (bits_of_hits hq 12 4 rfl) : ra = 15)] at h,
    (List.forall_mem_nil _)⟩) (by decide) (by show (bits x 12 4 != 15) = true; rw [e_ra]; exact (Bool.and_eq_true_iff.mp h).2)).trans ?_
  simp (disch := decide) only [hx, bits_or, bits_put_same, bits_put_apart, bits_ofNat, BitVec.reduceExtractLsb', BitVec.zero_or, BitVec.or_zero]

/-- Row 254 of the opcode table. -/
theorem RoundTrip.sbfx (cond widthm1 rd lsb rn) : RoundTrip.Statement (.sbfx cond widthm1 rd lsb rn) := fun hwf => by
  have h : (cond != 15) = true := hwf
  suffices H : ∀ x, x = 0x07A00050#32 ||| put cond 28 ||| put widthm1 16 ||| put rd 12 ||| put lsb 7 ||| put rn 0 → decodeWord x = .ok (.sbfx cond widthm1 rd lsb rn) from H _ rfl
  intro x hx
  have hk : x &&& 0x0FE00070 = 0x07A00050 := by simp (disch := decide) only [hx, or_and, put_and_apart]; rfl
  have hc : bits x 28 4 ≠ 15 := by
    simp (disch := decide) only [hx, bits_or, bits_put_same, bits_put_apart, bits_ofNat, BitVec.reduceExtractLsb', BitVec.zero_or, BitVec.or_zero]
    exact bne_iff_ne.mp h
  refine (decode3 87 [] hk hc ⟨rfl, rfl⟩ rfl (by decide +kernel)
    (List.forall_mem_nil _) (by decide) rfl).trans ?_
  simp (disch := decide) only [hx, bits_or, bits_put_same, bits_put_apart, bits_ofNat, BitVec.reduceExtractLsb', BitVec.zero_or, BitVec.or_zero]

/-- Row 255 of the opcode table. -/
theorem RoundTrip.ubfx (cond widthm1 rd lsb rn) : RoundTrip.Statement (.ubfx cond widthm1 rd lsb rn) := fun hwf => by
  have h : (cond != 15) = true := hwf
  suffices H : ∀ x, x = 0x07E00050#32 ||| put cond 28 ||| put widthm1 16 ||| put rd 12 ||| put lsb 7 ||| put rn 0 → decodeWord x = .ok (.ubfx cond widthm1 rd lsb rn) from H _ rfl
  intro x hx
  have hk : x &&& 0x0FE00070 = 0x07E00050 := by simp (disch := decide) only [hx, or_and, put_and_apart]; rfl
  have hc : bits x 28 4 ≠ 15 := by
    simp (disch := decide) only [hx, bits_or, bits_put_same, bits_put_apart, bits_ofNat, BitVec.reduceExtractLsb', BitVec.zero_or, BitVec.or_zero]
    exact bne_iff_ne.mp h
  refine (decode3 88 [] hk hc ⟨rfl, rfl⟩ rfl (by decide +kernel)
    (List.forall_mem_nil _) (by decide) rfl).trans ?_
  simp (disch := decide) only [hx, bits_or, bits_put_same, bits_put_apart, bits_ofNat, BitVec.reduceExtractLsb', BitVec.zero_or, BitVec.or_zero]

/-- Row 256 of the opcode table. -/
theorem RoundTrip.bfc (cond msb rd lsb) : RoundTrip.Statement (.bfc cond msb rd lsb) := fun hwf => by
  have h : (cond != 15) = true := hwf
  suffices H : ∀ x, x = 0x07C0001F#32 ||| put cond 28 ||| put msb 16 ||| put rd 12 ||| put lsb 7 → decodeWord x = .ok (.bfc cond msb rd lsb) from H _ rfl
  intro x hx
  have hk : x &&& 0x0FE0007F = 0x07C0001F := by simp (disch := decide) only [hx, or_and, put_and_apart]; rfl
  have hc : bits x 28 4 ≠ 15 := by
    simp (disch := decide) only [hx, bits_or, bits_put_same, bits_put_apart, bits_ofNat, BitVec.reduceExtractLsb', BitVec.zero_or, BitVec.or_zero]
    exact bne_iff_ne.mp h
  refine (decode3 89 [] hk hc ⟨rfl, rfl⟩ rfl (by decide +kernel)
    (List.forall_mem_nil _) (by decide) rfl).trans ?_
  simp (disch := decide) only [hx, bits_or, bits_put_same, bits_put_apart, bits_ofNat, BitVec.reduceExtractLsb', BitVec.zero_or, BitVec.or_zero]

/-- Row 257 of the opcode table. -/
theorem RoundTrip.bfi (cond msb rd lsb rn) : RoundTrip.Statement (.bfi cond msb rd lsb rn) := fun hwf => by
  have h : (cond != 15 && rn != 15) = true := hwf
  suffices H : ∀ x, x = 0x07C00010#32 ||| put cond 28 ||| put msb 16 ||| put rd 12 ||| put lsb 7 ||| put rn 0 → decodeWord x = .ok (.bfi cond msb rd lsb rn) from H _ rfl
  intro x hx
  have hk : x &&& 0x0FE00070 = 0x07C00010 := by simp (disch := decide) only [hx, or_and, put_and_apart]; rfl
  have hc : bits x 28 4 ≠ 15 := by
    simp (disch := decide) only [hx, bits_or, bits_put_same, bits_put_apart, bits_ofNat, BitVec.reduceExtractLsb', BitVec.zero_or, BitVec.or_zero]
    exact fun hh => by simp [hh] at h
  have e_rn : bits x 0 4 = rn := by
    simp (disch := decide) only [hx, bits_or, bits_put_same, bits_put_apart, bits_ofNat, BitVec.reduceExtractLsb', BitVec.zero_or, BitVec.or_zero]
  refine (decode3 90 [89] hk hc ⟨rfl, rfl⟩ rfl (by decide +kernel)
    (List.forall_mem_cons.2 ⟨Bool.eq_false_iff.2 fun hq => by simp [(e_rn.symm.trans (bits_of_hits hq 0 4 rfl) : rn = 15)] at h,
    (List.forall_mem_nil _)⟩) (by decide) (by show (bits x 0 4 != 15) = true; rw [e_rn]; exact (Bool.and_eq_true_iff.mp h).2)).trans ?_
  simp (disch := decide) only [hx, bits_or, bits_put_same, bits_put_apart, bits_ofNat, BitVec.reduceExtractLsb', BitVec.zero_or, BitVec.or_zero]

/-- Row 258 of the opcode table. -/
theorem RoundTrip.udf (cond imm12 imm4) : RoundTrip.Statement (.udf cond imm12 imm4) := fun hwf => by
  have h : (cond != 15) = true := hwf
  suffices H : ∀ x, x = 0x07F000F0#32 ||| put cond 28 ||| put imm12 8 ||| put imm4 0 → decodeWord x = .ok (.udf cond imm12 imm4) from H _ rfl
  intro x hx
  have hk : x &&& 0x0FF000F0 = 0x07F000F0 := by simp (disch := decide) only [hx, or_and, put_and_apart]; rfl
  have hc : bits x 28 4 ≠ 15 := by
    simp (disch := decide) only [hx, bits_or, bits_put_same, bits_put_apart, bits_ofNat, BitVec.reduceExtractLsb', BitVec.zero_or, BitVec.or_zero]
    exact bne_iff_ne.mp h
  refine (decode3 91 [] hk hc ⟨rfl, rfl⟩ rfl (by decide +kernel)
    (List.forall_mem_nil _) (by decide) rfl).trans ?_
  simp (disch := decide) only [hx, bits_or, bits_put_same, bits_put_apart, bits_ofNat, BitVec.reduceExtractLsb', BitVec.zero_or, BitVec.or_zero]

/-- Row 259 of the opcode table. -/
theorem RoundTrip.popMulti (cond regs) : RoundTrip.Statement (.popMulti cond regs) := fun hwf => by
  have h : (cond != 15) = true := hwf
  suffices H : ∀ x, x = 0x08BD0000#32 ||| put cond 28 ||| put regs 0 → decodeWord x = .ok (.ldm cond 0 1 1 13 regs) from H _ rfl
  intro x hx
  have hk : x &&& 0x0FFF0000 = 0x08BD0000 := by simp (disch := decide) only [hx, or_and, put_and_apart]; rfl
  have hc : bits x 28 4 ≠ 15 := by
    simp (disch := decide) only [hx, bits_or, bits_put_same, bits_put_apart, bits_ofNat, BitVec.reduceExtractLsb', BitVec.zero_or, BitVec.or_zero]
    exact bne_iff_ne.mp h
  refine (decode4 0 [] hk hc ⟨rfl, rfl⟩ rfl (by decide +kernel)
    (List.forall_mem_nil _) (by decide) rfl).trans ?_
  simp (disch := decide) only [hx, bits_or, bits_put_same, bits_put_apart, bits_ofNat, BitVec.reduceExtractLsb', BitVec.zero_or, BitVec.or_zero]
  rfl

/-- Row 260 of the opcode table. -/
theorem RoundTrip.pushMulti (cond regs) : RoundTrip.Statement (.pushMulti cond regs) := fun hwf => by
  have h : (cond != 15) = true := hwf
  suffices H : ∀ x, x = 0x092D0000#32 ||| put cond 28 ||| put regs 0 → decodeWord x = .ok (.stm cond 1 0 1 13 regs) from H _ rfl
  intro x hx
  have hk : x &&& 0x0FFF0000 = 0x092D0000 := by simp (disch := decide) only [hx, or_and, put_and_apart]; rfl
  have hc : bits x 28 4 ≠ 15 := by
    simp (disch := decide) only [hx, bits_or, bits_put_same, bits_put_apart, bits_ofNat, BitVec.reduceExtractLsb', BitVec.zero_or, BitVec.or_zero]
    exact bne_iff_ne.mp h
  refine (decode4 1 [] hk hc ⟨rfl, rfl⟩ rfl (by decide +kernel)
    (List.forall_mem_nil _) (by decide) rfl).trans ?_
  simp (disch := decide) only [hx, bits_or, bits_put_same, bits_put_apart, bits_ofNat, BitVec.reduceExtractLsb', BitVec.zero_or, BitVec.or_zero]
  rfl

/-- Row 261 of the opcode table. -/
theorem RoundTrip.ldm (cond p u w rn regs) : RoundTrip.Statement (.ldm cond p u w rn regs) := fun hwf => by
  have h : (cond != 15) = true := hwf
  suffices H : ∀ x, x = 0x08100000#32 ||| put cond 28 ||| put p 24 ||| put u 23 ||| put w 21 ||| put rn 16 ||| put regs 0 → decodeWord x = .ok (.ldm cond p u w rn regs) from H _ rfl
  intro x hx
  have hk : x &&& 0x0E500000 = 0x08100000 := by simp (disch := decide) only [hx, or_and, put_and_apart]; rfl
  have hc : bits x 28 4 ≠ 15 := by
    simp (disch := decide) only [hx, bits_or, bits_put_same, bits_put_apart, bits_ofNat, BitVec.reduceExtractLsb', BitVec.zero_or, BitVec.or_zero]
    exact bne_iff_ne.mp h
  refine (decode4 0 [] hk hc ⟨rfl, rfl⟩ rfl (by decide +kernel)
    (List.forall_mem_nil _) (by decide) rfl).trans ?_
  simp (disch := decide) only [hx, bits_or, bits_put_same, bits_put_apart, bits_ofNat, BitVec.reduceExtractLsb', BitVec.zero_or, BitVec.or_zero]

/-- Row 262 of the opcode table. -/
theorem RoundTrip.stm (cond p u w rn regs) : RoundTrip.Statement (.stm cond p u w rn regs) := fun hwf => by
  have h : (cond != 15) = true := hwf
  suffices H : ∀ x, x = 0x08000000#32 ||| put cond 28 ||| put p 24 ||| put u 23 ||| put w 21 ||| put rn 16 ||| put regs 0 → decodeWord x = .ok (.stm cond p u w rn regs) from H _ rfl
  intro x hx
  have hk : x &&& 0x0E500000 = 0x08000000 := by simp (disch := decide) only [hx, or_and, put_and_apart]; rfl
  have hc : bits x 28 4 ≠ 15 := by
    simp (disch := decide) only [hx, bits_or, bits_put_same, bits_put_apart, bits_ofNat, BitVec.reduceExtractLsb', BitVec.zero_or, BitVec.or_zero]
    exact bne_iff_ne.mp h
  refine (decode4 1 [] hk hc ⟨rfl, rfl⟩ rfl (by decide +kernel)
    (List.forall_mem_nil _) (by decide) rfl).trans ?_
  simp (disch := decide) only [hx, bits_or, bits_put_same, bits_put_apart, bits_ofNat, BitVec.reduceExtractLsb', BitVec.zero_or, BitVec.or_zero]

/-- Row 263 of the opcode table. -/
theorem RoundTrip.ldmExcRet (cond p u w rn regs) : RoundTrip.Statement (.ldmExcRet cond p u w rn regs) := fun hwf => by
  have h : (cond != 15) = true := hwf
  suffices H : ∀ x, x = 0x08508000#32 ||| put cond 28 ||| put p 24 ||| put u 23 ||| put w 21 ||| put rn 16 ||| put regs 0 → decodeWord x = .ok (.ldmExcRet cond p u w rn regs) from H _ rfl
  intro x hx
  have hk : x &&& 0x0E508000 = 0x08508000 := by simp (disch := decide) only [hx, or_and, put_and_apart]; rfl
  have hc : bits x 28 4 ≠ 15 := by
    simp (disch := decide) only [hx, bits_or, bits_put_same, bits_put_apart, bits_ofNat, BitVec.reduceExtractLsb', BitVec.zero_or, BitVec.or_zero]
    exact bne_iff_ne.mp h
  refine (decode4 2 [] hk hc ⟨rfl, rfl⟩ rfl (by decide +kernel)
    (List.forall_mem_nil _) (by decide) rfl).trans ?_
  simp (disch := decide) only [hx, bits_or, bits_put_same, bits_put_apart, bits_ofNat, BitVec.reduceExtractLsb', BitVec.zero_or, BitVec.or_zero]

/-- Row 264 of the opcode table. -/
theorem RoundTrip.ldmUser (cond p u rn regs) : RoundTrip.Statement (.ldmUser cond p u rn regs) := fun hwf => by
  have h : (cond != 15) = true := hwf
  suffices H : ∀ x, x = 0x08500000#32 ||| put cond 28 ||| put p 24 ||| put u 23 ||| put rn 16 ||| put regs 0 → decodeWord x = .ok (.ldmUser cond p u rn regs) from H _ rfl
  intro x hx
  have hk : x &&& 0x0E708000 = 0x08500000 := by simp (disch := decide) only [hx, or_and, put_and_apart]; rfl
  have hc : bits x 28 4 ≠ 15 := by
    simp (disch := decide) only [hx, bits_or, bits_put_same, bits_put_apart, bits_ofNat, BitVec.reduceExtractLsb', BitVec.zero_or, BitVec.or_zero]
    exact bne_iff_ne.mp h
  refine (decode4 3 [] hk hc ⟨rfl, rfl⟩ rfl (by decide +kernel)
    (List.forall_mem_nil _) (by decide) rfl).trans ?_
  simp (disch := decide) only [hx, bits_or, bits_put_same, bits_put_apart, bits_ofNat, BitVec.reduceExtractLsb', BitVec.zero_or, BitVec.or_zero]

/-- Row 265 of the opcode table. -/
theorem RoundTrip.stmUser (cond p u rn regs) : RoundTrip.Statement (.stmUser cond p u rn regs) := fun hwf => by
  have h : (cond != 15) = true := hwf
  suffices H : ∀ x, x = 0x08400000#32 ||| put cond 28 ||| put p 24 ||| put u 23 ||| put rn 16 ||| put regs 0 → decodeWord x = .ok (.stmUser cond p u rn regs) from H _ rfl
  intro x hx
  have hk : x &&& 0x0E700000 = 0x08400000 := by simp (disch := decide) only [hx, or_and, put_and_apart]; rfl
  have hc : bits x 28 4 ≠ 15 := by
    simp (disch := decide) only [hx, bits_or, bits_put_same, bits_put_apart, bits_ofNat, BitVec.reduceExtractLsb', BitVec.zero_or, BitVec.or_zero]
    exact bne_iff_ne.mp h
  refine (decode4 4 [] hk hc ⟨rfl, rfl⟩ rfl (by decide +kernel)
    (List.forall_mem_nil _) (by decide) rfl).trans ?_
  simp (disch := decide) only [hx, bits_or, bits_put_same, bits_put_apart, bits_ofNat, BitVec.reduceExtractLsb', BitVec.zero_or, BitVec.or_zero]

/-- Row 266 of the opcode table. -/
theorem RoundTrip.b (cond imm24) : RoundTrip.Statement (.b cond imm24) := fun hwf => by
  have h : (cond != 15) = true := hwf
  suffices H : ∀ x, x = 0x0A000000#32 ||| put cond 28 ||| put imm24 0 → decodeWord x = .ok (.b cond imm24) from H _ rfl
  intro x hx
  have hk : x &&& 0x0F000000 = 0x0A000000 := by simp (disch := decide) only [hx, or_and, put_and_apart]; rfl
  have hc : bits x 28 4 ≠ 15 := by
    simp (disch := decide) only [hx, bits_or, bits_put_same, bits_put_apart, bits_ofNat, BitVec.reduceExtractLsb', BitVec.zero_or, BitVec.or_zero]
    exact bne_iff_ne.mp h
  refine (decode5 0 [] hk hc ⟨rfl, rfl⟩ rfl (by decide +kernel)
    (List.forall_mem_nil _) (by decide) rfl).trans ?_
  simp (disch := decide) only [hx, bits_or, bits_put_same, bits_put_apart, bits_ofNat, BitVec.reduceExtractLsb', BitVec.zero_or, BitVec.or_zero]

/-- Row 267 of the opcode table. -/
theorem RoundTrip.bl (cond imm24) : RoundTrip.Statement (.bl cond imm24) := fun hwf => by
  have h : (cond != 15) = true := hwf
  suffices H : ∀ x, x = 0x0B000000#32 ||| put cond 28 ||| put imm24 0 → decodeWord x = .ok (.bl cond imm24) from H _ rfl
  intro x hx
  have hk : x &&& 0x0F000000 = 0x0B000000 := by simp (disch := decide) only [hx, or_and, put_and_apart]; rfl
  have hc : bits x 28 4 ≠ 15 := by
    simp (disch := decide) only [hx, bits_or, bits_put_same, bits_put_apart, bits_ofNat, BitVec.reduceExtractLsb', BitVec.zero_or, BitVec.or_zero]
    exact bne_iff_ne.mp h
  refine (decode5 1 [] hk hc ⟨rfl, rfl⟩ rfl (by decide +kernel)
    (List.forall_mem_nil _) (by decide) rfl).trans ?_
  simp (disch := decide) only [hx, bits_or, bits_put_same, bits_put_apart, bits_ofNat, BitVec.reduceExtractLsb', BitVec.zero_or, BitVec.or_zero]

/-- Row 268 of the opcode table. -/
theorem RoundTrip.svc (cond imm24) : RoundTrip.Statement (.svc cond imm24) := fun hwf => by
  have h : (cond != 15) = true := hwf
  suffices H : ∀ x, x = 0x0F000000#32 ||| put cond 28 ||| put imm24 0 → decodeWord x = .ok (.svc cond imm24) from H _ rfl
  intro x hx
  have hk : x &&& 0x0F000000 = 0x0F000000 := by simp (disch := decide) only [hx, or_and, put_and_apart]; rfl
  have hc : bits x 28 4 ≠ 15 := by
    simp (disch := decide) only [hx, bits_or, bits_put_same, bits_put_apart, bits_ofNat, BitVec.reduceExtractLsb', BitVec.zero_or, BitVec.or_zero]
    exact bne_iff_ne.mp h
  refine (decodeS 0 [] hk hc ⟨rfl, rfl⟩ rfl (by decide +kernel)
    (List.forall_mem_nil _) (by decide) rfl).trans ?_
  simp (disch := decide) only [hx, bits_or, bits_put_same, bits_put_apart, bits_ofNat, BitVec.reduceExtractLsb', BitVec.zero_or, BitVec.or_zero]

/-- Row 269 of the opcode table. -/
theorem RoundTrip.mrcDscrFlags (cond) : RoundTrip.Statement (.mrcDscrFlags cond) := fun hwf => by
  have h : (cond != 15) = true := hwf
  suffices H : ∀ x, x = 0x0E10FE11#32 ||| put cond 28 → decodeWord x = .ok (.mrcDscrFlags cond) from H _ rfl
  intro x hx
  have hk : x &&& 0x0FFFFFFF = 0x0E10FE11 := by simp (disch := decide) only [hx, or_and, put_and_apart]; rfl
  have hc : bits x 28 4 ≠ 15 := by
    simp (disch := decide) only [hx, bits_or, bits_put_same, bits_put_apart, bits_ofNat, BitVec.reduceExtractLsb', BitVec.zero_or, BitVec.or_zero]
    exact bne_iff_ne.mp h
  refine (decodeDscrFlags hk hc).trans ?_
  simp (disch := decide) only [hx, bits_or, bits_put_same, bits_put_apart, bits_ofNat, BitVec.reduceExtractLsb', BitVec.zero_or, BitVec.or_zero]

/-- Row 270 of the opcode table. -/
theorem RoundTrip.mrcDidr (cond rt) : RoundTrip.Statement (.mrcDidr cond rt) := fun hwf => by
  have h : (cond != 15) = true := hwf
  suffices H : ∀ x, x = 0x0E100E10#32 ||| put cond 28 ||| put rt 12 → decodeWord x = .ok (.mrcDidr cond rt) from H _ rfl
  intro x hx
  have hk : x &&& 0x0FFF0FFF = 0x0E100E10 := by simp (disch := decide) only [hx, or_and, put_and_apart]; rfl
  have hc : bits x 28 4 ≠ 15 := by
    simp (disch := decide) only [hx, bits_or, bits_put_same, bits_put_apart, bits_ofNat, BitVec.reduceExtractLsb', BitVec.zero_or, BitVec.or_zero]
    exact bne_iff_ne.mp h
  refine (decodeP14 hk hc (by decide) (by decide +kernel)
    (fun hh => absurd ((wordKey_known hh (by decide)).symm.trans (wordKey_known hk (by decide))) (by decide)) rfl).trans ?_
  simp (disch := decide) only [hx, bits_or, bits_put_same, bits_put_apart, bits_ofNat, BitVec.reduceExtractLsb', BitVec.zero_or, BitVec.or_zero]

/-- Row 271 of the opcode table. -/
theorem RoundTrip.mrcDrar (cond rt) : RoundTrip.Statement (.mrcDrar cond rt) := fun hwf => by
  have h : (cond != 15) = true := hwf
  suffices H : ∀ x, x = 0x0E110E10#32 ||| put cond 28 ||| put rt 12 → decodeWord x = .ok (.mrcDrar cond rt) from H _ rfl
  intro x hx
  have hk : x &&& 0x0FFF0FFF = 0x0E110E10 := by simp (disch := decide) only [hx, or_and, put_and_apart]; rfl
  have hc : bits x 28 4 ≠ 15 := by
    simp (disch := decide) only [hx, bits_or, bits_put_same, bits_put_apart, bits_ofNat, BitVec.reduceExtractLsb', BitVec.zero_or, BitVec.or_zero]
    exact bne_iff_ne.mp h
  refine (decodeP14 hk hc (by decide) (by decide +kernel)
    (fun hh => absurd ((wordKey_known hh (by decide)).symm.trans (wordKey_known hk (by decide))) (by decide)) rfl).trans ?_
  simp (disch := decide) only [hx, bits_or, bits_put_same, bits_put_apart, bits_ofNat, BitVec.reduceExtractLsb', BitVec.zero_or, BitVec.or_zero]

/-- Row 272 of the opcode table. -/
theorem RoundTrip.mrcDsar (cond rt) : RoundTrip.Statement (.mrcDsar cond rt) := fun hwf => by
  have h : (cond != 15) = true := hwf
  suffices H : ∀ x, x = 0x0E120E10#32 ||| put cond 28 ||| put rt 12 → decodeWord x = .ok (.mrcDsar cond rt) from H _ rfl
  intro x hx
  have hk : x &&& 0x0FFF0FFF = 0x0E120E10 := by simp (disch := decide) only [hx, or_and, put_and_apart]; rfl
  have hc : bits x 28 4 ≠ 15 := by
    simp (disch := decide) only [hx, bits_or, bits_put_same, bits_put_apart, bits_ofNat, BitVec.reduceExtractLsb', BitVec.zero_or, BitVec.or_zero]
    exact bne_iff_ne.mp h
  refine (decodeP14 hk hc (by decide) (by decide +kernel)
    (fun hh => absurd ((wordKey_known hh (by decide)).symm.trans (wordKey_known hk (by decide))) (by decide)) rfl).trans ?_
  simp (disch := decide) only [hx, bits_or, bits_put_same, bits_put_apart, bits_ofNat, BitVec.reduceExtractLsb', BitVec.zero_or, BitVec.or_zero]

/-- Row 273 of the opcode table. -/
theorem RoundTrip.mrcDscr (cond rt) : RoundTrip.Statement (.mrcDscr cond rt) := fun hwf => by
  have h : (cond != 15 && rt != 15) = true := hwf
  suffices H : ∀ x, x = 0x0E100E11#32 ||| put cond 28 ||| put rt 12 → decodeWord x = .ok (.mrcDscr cond rt) from H _ rfl
  intro x hx
  have hk : x &&& 0x0FFF0FFF = 0x0E100E11 := by simp (disch := decide) only [hx, or_and, put_and_apart]; rfl
  have hc : bits x 28 4 ≠ 15 := by
    simp (disch := decide) only [hx, bits_or, bits_put_same, bits_put_apart, bits_ofNat, BitVec.reduceExtractLsb', BitVec.zero_or, BitVec.or_zero]
    exact fun hh => by simp [hh] at h
  have e_rt : bits x 12 4 = rt := by
    simp (disch := decide) only [hx, bits_or, bits_put_same, bits_put_apart, bits_ofNat, BitVec.reduceExtractLsb', BitVec.zero_or, BitVec.or_zero]
  refine (decodeP14 hk hc (by decide) (by decide +kernel)
    (fun hh => by simp [(e_rt.symm.trans (bits_of_known hh 12 4 rfl) : rt = 15)] at h) rfl).trans ?_
  simp (disch := decide) only [hx, bits_or, bits_put_same, bits_put_apart, bits_ofNat, BitVec.reduceExtractLsb', BitVec.zero_or, BitVec.or_zero]

/-- Row 274 of the opcode table. -/
theorem RoundTrip.mrcDtr (cond rt) : RoundTrip.Statement (.mrcDtr cond rt) := fun hwf => by
  have h : (cond != 15) = true := hwf
  suffices H : ∀ x, x = 0x0E100E15#32 ||| put cond 28 ||| put rt 12 → decodeWord x = .ok (.mrcDtr cond rt) from H _ rfl
  intro x hx
  have hk : x &&& 0x0FFF0FFF = 0x0E100E15 := by simp (disch := decide) only [hx, or_and, put_and_apart]; rfl
  have hc : bits x 28 4 ≠ 15 := by
    simp (disch := decide) only [hx, bits_or, bits_put_same, bits_put_apart, bits_ofNat, BitVec.reduceExtractLsb', BitVec.zero_or, BitVec.or_zero]
    exact bne_iff_ne.mp h
  refine (decodeP14 hk hc (by decide) (by decide +kernel)
    (fun hh => absurd ((wordKey_known hh (by decide)).symm.trans (wordKey_known hk (by decide))) (by decide)) rfl).trans ?_
  simp (disch := decide) only [hx, bits_or, bits_put_same, bits_put_apart, bits_ofNat, BitVec.reduceExtractLsb', BitVec.zero_or, BitVec.or_zero]

/-- Row 275 of the opcode table. -/
theorem RoundTrip.mcrDtr (cond rt) : RoundTrip.Statement (.mcrDtr cond rt) := fun hwf => by
  have h : (cond != 15) = true := hwf
  suffices H : ∀ x, x = 0x0E000E15#32 ||| put cond 28 ||| put rt 12 → decodeWord x = .ok (.mcrDtr cond rt) from H _ rfl
  intro x hx
  have hk : x &&& 0x0FFF0FFF = 0x0E000E15 := by simp (disch := decide) only [hx, or_and, put_and_apart]; rfl
  have hc : bits x 28 4 ≠ 15 := by
    simp (disch := decide) only [hx, bits_or, bits_put_same, bits_put_apart, bits_ofNat, BitVec.reduceExtractLsb', BitVec.zero_or, BitVec.or_zero]
    exact bne_iff_ne.mp h
  refine (decodeP14 hk hc (by decide) (by decide +kernel)
    (fun hh => absurd ((wordKey_known hh (by decide)).symm.trans (wordKey_known hk (by decide))) (by decide)) rfl).trans ?_
  simp (disch := decide) only [hx, bits_or, bits_put_same, bits_put_apart, bits_ofNat, BitVec.reduceExtractLsb', BitVec.zero_or, BitVec.or_zero]

/-- Row 276 of the opcode table. -/
theorem RoundTrip.mrcTeecr (cond rt) : RoundTrip.Statement (.mrcTeecr cond rt) := fun hwf => by
  have h : (cond != 15) = true := hwf
  suffices H : ∀ x, x = 0x0ED00E10#32 ||| put cond 28 ||| put rt 12 → decodeWord x = .ok (.mrcTeecr cond rt) from H _ rfl
  intro x hx
  have hk : x &&& 0x0FFF0FFF = 0x0ED00E10 := by simp (disch := decide) only [hx, or_and, put_and_apart]; rfl
  have hc : bits x 28 4 ≠ 15 := by
    simp (disch := decide) only [hx, bits_or, bits_put_same, bits_put_apart, bits_ofNat, BitVec.reduceExtractLsb', BitVec.zero_or, BitVec.or_zero]
    exact bne_iff_ne.mp h
  refine (decodeP14 hk hc (by decide) (by decide +kernel)
    (fun hh => absurd ((wordKey_known hh (by decide)).symm.trans (wordKey_known hk (by decide))) (by decide)) rfl).trans ?_
  simp (disch := decide) only [hx, bits_or, bits_put_same, bits_put_apart, bits_ofNat, BitVec.reduceExtractLsb', BitVec.zero_or, BitVec.or_zero]

/-- Row 277 of the opcode table. -/
theorem RoundTrip.mcrTeecr (cond rt) : RoundTrip.Statement (.mcrTeecr cond rt) := fun hwf => by
  have h : (cond != 15) = true := hwf
  suffices H : ∀ x, x = 0x0EC00E10#32 ||| put cond 28 ||| put rt 12 → decodeWord x = .ok (.mcrTeecr cond rt) from H _ rfl
  intro x hx
  have hk : x &&& 0x0FFF0FFF = 0x0EC00E10 := by simp (disch := decide) only [hx, or_and, put_and_apart]; rfl
  have hc : bits x 28 4 ≠ 15 := by
    simp (disch := decide) only [hx, bits_or, bits_put_same, bits_put_apart, bits_ofNat, BitVec.reduceExtractLsb', BitVec.zero_or, BitVec.or_zero]
    exact bne_iff_ne.mp h
  refine (decodeP14 hk hc (by decide) (by decide +kernel)
    (fun hh => absurd ((wordKey_known hh (by decide)).symm.trans (wordKey_known hk (by decide))) (by decide)) rfl).trans ?_
  simp (disch := decide) only [hx, bits_or, bits_put_same, bits_put_apart, bits_ofNat, BitVec.reduceExtractLsb', BitVec.zero_or, BitVec.or_zero]

/-- Row 278 of the opcode table. -/
theorem RoundTrip.mrcTeehbr (cond rt) : RoundTrip.Statement (.mrcTeehbr cond rt) := fun hwf => by
  have h : (cond != 15) = true := hwf
  suffices H : ∀ x, x = 0x0ED10E10#32 ||| put cond 28 ||| put rt 12 → decodeWord x = .ok (.mrcTeehbr cond rt) from H _ rfl
  intro x hx
  have hk : x &&& 0x0FFF0FFF = 0x0ED10E10 := by simp (disch := decide) only [hx, or_and, put_and_apart]; rfl
  have hc : bits x 28 4 ≠ 15 := by
    simp (disch := decide) only [hx, bits_or, bits_put_same, bits_put_apart, bits_ofNat, BitVec.reduceExtractLsb', BitVec.zero_or, BitVec.or_zero]
    exact bne_iff_ne.mp h
  refine (decodeP14 hk hc (by decide) (by decide +kernel)
    (fun hh => absurd ((wordKey_known hh (by decide)).symm.trans (wordKey_known hk (by decide))) (by decide)) rfl).trans ?_
  simp (disch := decide) only [hx, bits_or, bits_put_same, bits_put_apart, bits_ofNat, BitVec.reduceExtractLsb', BitVec.zero_or, BitVec.or_zero]

/-- Row 279 of the opcode table. -/
theorem RoundTrip.mcrTeehbr (cond rt) : RoundTrip.Statement (.mcrTeehbr cond rt) := fun hwf => by
  have h : (cond != 15) = true := hwf
  suffices H : ∀ x, x = 0x0EC10E10#32 ||| put cond 28 ||| put rt 12 → decodeWord x = .ok (.mcrTeehbr cond rt) from H _ rfl
  intro x hx
  have hk : x &&& 0x0FFF0FFF = 0x0EC10E10 := by simp (disch := decide) only [hx, or_and, put_and_apart]; rfl
  have hc : bits x 28 4 ≠ 15 := by
    simp (disch := decide) only [hx, bits_or, bits_put_same, bits_put_apart, bits_ofNat, BitVec.reduceExtractLsb', BitVec.zero_or, BitVec.or_zero]
    exact bne_iff_ne.mp h
  refine (decodeP14 hk hc (by decide) (by decide +kernel)
    (fun hh => absurd ((wordKey_known hh (by decide)).symm.trans (wordKey_known hk (by decide))) (by decide)) rfl).trans ?_
  simp (disch := decide) only [hx, bits_or, bits_put_same, bits_put_apart, bits_ofNat, BitVec.reduceExtractLsb', BitVec.zero_or, BitVec.or_zero]

/-- Row 280 of the opcode table. -/
theorem RoundTrip.mrcJidr (cond rt) : RoundTrip.Statement (.mrcJidr cond rt) := fun hwf => by
  have h : (cond != 15) = true := hwf
  suffices H : ∀ x, x = 0x0EF00E10#32 ||| put cond 28 ||| put rt 12 → decodeWord x = .ok (.mrcJidr cond rt) from H _ rfl
  intro x hx
  have hk : x &&& 0x0FFF0FFF = 0x0EF00E10 := by simp (disch := decide) only [hx, or_and, put_and_apart]; rfl
  have hc : bits x 28 4 ≠ 15 := by
    simp (disch := decide) only [hx, bits_or, bits_put_same, bits_put_apart, bits_ofNat, BitVec.reduceExtractLsb', BitVec.zero_or, BitVec.or_zero]
    exact bne_iff_ne.mp h
  refine (decodeP14 hk hc (by decide) (by decide +kernel)
    (fun hh => absurd ((wordKey_known hh (by decide)).symm.trans (wordKey_known hk (by decide))) (by decide)) rfl).trans ?_
  simp (disch := decide) only [hx, bits_or, bits_put_same, bits_put_apart, bits_ofNat, BitVec.reduceExtractLsb', BitVec.zero_or, BitVec.or_zero]

/-- Row 281 of the opcode table. -/
theorem RoundTrip.mrcJoscr (cond rt) : RoundTrip.Statement (.mrcJoscr cond rt) := fun hwf => by
  have h : (cond != 15) = true := hwf
  suffices H : ∀ x, x = 0x0EF10E10#32 ||| put cond 28 ||| put rt 12 → decodeWord x = .ok (.mrcJoscr cond rt) from H _ rfl
  intro x hx
  have hk : x &&& 0x0FFF0FFF = 0x0EF10E10 := by simp (disch := decide) only [hx, or_and, put_and_apart]; rfl
  have hc : bits x 28 4 ≠ 15 := by
    simp (disch := decide) only [hx, bits_or, bits_put_same, bits_put_apart, bits_ofNat, BitVec.reduceExtractLsb', BitVec.zero_or, BitVec.or_zero]
    exact bne_iff_ne.mp h
  refine (decodeP14 hk hc (by decide) (by decide +kernel)
    (fun hh => absurd ((wordKey_known hh (by decide)).symm.trans (wordKey_known hk (by decide))) (by decide)) rfl).trans ?_
  simp (disch := decide) only [hx, bits_or, bits_put_same, bits_put_apart, bits_ofNat, BitVec.reduceExtractLsb', BitVec.zero_or, BitVec.or_zero]

/-- Row 282 of the opcode table. -/
theorem RoundTrip.mcrJoscr (cond rt) : RoundTrip.Statement (.mcrJoscr cond rt) := fun hwf => by
  have h : (cond != 15) = true := hwf
  suffices H : ∀ x, x = 0x0EE10E10#32 ||| put cond 28 ||| put rt 12 → decodeWord x = .ok (.mcrJoscr cond rt) from H _ rfl
  intro x hx
  have hk : x &&& 0x0FFF0FFF = 0x0EE10E10 := by simp (disch := decide) only [hx, or_and, put_and_apart]; rfl
  have hc : bits x 28 4 ≠ 15 := by
    simp (disch := decide) only [hx, bits_or, bits_put_same, bits_put_apart, bits_ofNat, BitVec.reduceExtractLsb', BitVec.zero_or, BitVec.or_zero]
    exact bne_iff_ne.mp h
  refine (decodeP14 hk hc (by decide) (by decide +kernel)
    (fun hh => absurd ((wordKey_known hh (by decide)).symm.trans (wordKey_known hk (by decide))) (by decide)) rfl).trans ?_
  simp (disch := decide) only [hx, bits_or, bits_put_same, bits_put_apart, bits_ofNat, BitVec.reduceExtractLsb', BitVec.zero_or, BitVec.or_zero]

/-- Row 283 of the opcode table. -/
theorem RoundTrip.mrcJmcr (cond rt) : RoundTrip.Statement (.mrcJmcr cond rt) := fun hwf => by
  have h : (cond != 15) = true := hwf
  suffices H : ∀ x, x = 0x0EF20E10#32 ||| put cond 28 ||| put rt 12 → decodeWord x = .ok (.mrcJmcr cond rt) from H _ rfl
  intro x hx
  have hk : x &&& 0x0FFF0FFF = 0x0EF20E10 := by simp (disch := decide) only [hx, or_and, put_and_apart]; rfl
  have hc : bits x 28 4 ≠ 15 := by
    simp (disch := decide) only [hx, bits_or, bits_put_same, bits_put_apart, bits_ofNat, BitVec.reduceExtractLsb', BitVec.zero_or, BitVec.or_zero]
    exact bne_iff_ne.mp h
  refine (decodeP14 hk hc (by decide) (by decide +kernel)
    (fun hh => absurd ((wordKey_known hh (by decide)).symm.trans (wordKey_known hk (by decide))) (by decide)) rfl).trans ?_
  simp (disch := decide) only [hx, bits_or, bits_put_same, bits_put_apart, bits_ofNat, BitVec.reduceExtractLsb', BitVec.zero_or, BitVec.or_zero]

/-- Row 284 of the opcode table. -/
theorem RoundTrip.mcrJmcr (cond rt) : RoundTrip.Statement (.mcrJmcr cond rt) := fun hwf => by
  have h : (cond != 15) = true := hwf
  suffices H : ∀ x, x = 0x0EE20E10#32 ||| put cond 28 ||| put rt 12 → decodeWord x = .ok (.mcrJmcr cond rt) from H _ rfl
  intro x hx
  have hk : x &&& 0x0FFF0FFF = 0x0EE20E10 := by simp (disch := decide) only [hx, or_and, put_and_apart]; rfl
  have hc : bits x 28 4 ≠ 15 := by
    simp (disch := decide) only [hx, bits_or, bits_put_same, bits_put_apart, bits_ofNat, BitVec.reduceExtractLsb', BitVec.zero_or, BitVec.or_zero]
    exact bne_iff_ne.mp h
  refine (decodeP14 hk hc (by decide) (by decide +kernel)
    (fun hh => absurd ((wordKey_known hh (by decide)).symm.trans (wordKey_known hk (by decide))) (by decide)) rfl).trans ?_
  simp (disch := decide) only [hx, bits_or, bits_put_same, bits_put_apart, bits_ofNat, BitVec.reduceExtractLsb', BitVec.zero_or, BitVec.or_zero]

/-- Row 285 of the opcode table. -/
theorem RoundTrip.ldcDtr (cond p u w rn imm8) : RoundTrip.Statement (.ldcDtr cond p u w rn imm8) := fun hwf => by
  have h : (cond != 15 && !(p == 0 && u == 0 && w == 0)) = true := hwf
  suffices H : ∀ x, x = 0x0C105E00#32 ||| put cond 28 ||| put p 24 ||| put u 23 ||| put w 21 ||| put rn 16 ||| put imm8 0 → decodeWord x = .ok (.ldcDtr cond p u w rn imm8) from H _ rfl
  intro x hx
  have hk : x &&& 0x0E50FF00 = 0x0C105E00 := by simp (disch := decide) only [hx, or_and, put_and_apart]; rfl
  have hc : bits x 28 4 ≠ 15 := by
    simp (disch := decide) only [hx, bits_or, bits_put_same, bits_put_apart, bits_ofNat, BitVec.reduceExtractLsb', BitVec.zero_or, BitVec.or_zero]
    exact fun hh => by simp [hh] at h
  have e_p : bits x 24 1 = p := by
    simp (disch := decide) only [hx, bits_or, bits_put_same, bits_put_apart, bits_ofNat, BitVec.reduceExtractLsb', BitVec.zero_or, BitVec.or_zero]
  have e_u : bits x 23 1 = u := by
    simp (disch := decide) only [hx, bits_or, bits_put_same, bits_put_apart, bits_ofNat, BitVec.reduceExtractLsb', BitVec.zero_or, BitVec.or_zero]
  have e_w : bits x 21 1 = w := by
    simp (disch := decide) only [hx, bits_or, bits_put_same, bits_put_apart, bits_ofNat, BitVec.reduceExtractLsb', BitVec.zero_or, BitVec.or_zero]
  have hok : (!(bits x 23 2 == 0 && bits x 21 1 == 0)) = true := by
    rw [bits_two x 23, e_p, e_u, e_w, append_eq_zero]; exact (Bool.and_eq_true_iff.mp h).2
  refine (decode6 0 [] hk hc ⟨rfl, rfl⟩ rfl (by decide +kernel)
    (List.forall_mem_nil _) (by decide) hok).trans ?_
  simp (disch := decide) only [hx, bits_or, bits_put_same, bits_put_apart, bits_ofNat, BitVec.reduceExtractLsb', BitVec.zero_or, BitVec.or_zero]

/-- Row 286 of the opcode table. -/
theorem RoundTrip.stcDtr (cond p u w rn imm8) : RoundTrip.Statement (.stcDtr cond p u w rn imm8) := fun hwf => by
  have h : (cond != 15 && !(p == 0 && u == 0 && w == 0)) = true := hwf
  suffices H : ∀ x, x = 0x0C005E00#32 ||| put cond 28 ||| put p 24 ||| put u 23 ||| put w 21 ||| put rn 16 ||| put imm8 0 → decodeWord x = .ok (.stcDtr cond p u w rn imm8) from H _ rfl
  intro x hx
  have hk : x &&& 0x0E50FF00 = 0x0C005E00 := by simp (disch := decide) only [hx, or_and, put_and_apart]; rfl
  have hc : bits x 28 4 ≠ 15 := by
    simp (disch := decide) only [hx, bits_or, bits_put_same, bits_put_apart, bits_ofNat, BitVec.reduceExtractLsb', BitVec.zero_or, BitVec.or_zero]
    exact fun hh => by simp [hh] at h
  have e_p : bits x 24 1 = p := by
    simp (disch := decide) only [hx, bits_or, bits_put_same, bits_put_apart, bits_ofNat, BitVec.reduceExtractLsb', BitVec.zero_or, BitVec.or_zero]
  have e_u : bits x 23 1 = u := by
    simp (disch := decide) only [hx, bits_or, bits_put_same, bits_put_apart, bits_ofNat, BitVec.reduceExtractLsb', BitVec.zero_or, BitVec.or_zero]
  have e_w : bits x 21 1 = w := by
    simp (disch := decide) only [hx, bits_or, bits_put_same, bits_put_apart, bits_ofNat, BitVec.reduceExtractLsb', BitVec.zero_or, BitVec.or_zero]
  have hok : (!(bits x 23 2 == 0 && bits x 21 1 == 0)) = true := by
    rw [bits_two x 23, e_p, e_u, e_w, append_eq_zero]; exact (Bool.and_eq_true_iff.mp h).2
  refine (decode6 1 [] hk hc ⟨rfl, rfl⟩ rfl (by decide +kernel)
    (List.forall_mem_nil _) (by decide) hok).trans ?_
  simp (disch := decide) only [hx, bits_or, bits_put_same, bits_put_apart, bits_ofNat, BitVec.reduceExtractLsb', BitVec.zero_or, BitVec.or_zero]

/-- Row 287 of the opcode table. -/
theorem RoundTrip.p14DebugOther (cond l cRn rt opc2 cRm) : RoundTrip.Statement (.p14DebugOther cond l cRn rt opc2 cRm) := fun hwf => by
  have h : (cond != 15 && !p14Keys.contains (transferKey 0 l cRn cRm opc2)) = true := hwf
  suffices H : ∀ x, x = 0x0E000E10#32 ||| put cond 28 ||| put l 20 ||| put cRn 16 ||| put rt 12 ||| put opc2 5 ||| put cRm 0 → decodeWord x = .ok (.p14DebugOther cond l cRn rt opc2 cRm) from H _ rfl
  intro x hx
  have hk : x &&& 0x0FE00F10 = 0x0E000E10 := by simp (disch := decide) only [hx, or_and, put_and_apart]; rfl
  have hc : bits x 28 4 ≠ 15 := by
    simp (disch := decide) only [hx, bits_or, bits_put_same, bits_put_apart, bits_ofNat, BitVec.reduceExtractLsb', BitVec.zero_or, BitVec.or_zero]
    exact fun hh => by simp [hh] at h
  have e_l : bits x 20 1 = l := by
    simp (disch := decide) only [hx, bits_or, bits_put_same, bits_put_apart, bits_ofNat, BitVec.reduceExtractLsb', BitVec.zero_or, BitVec.or_zero]
  have e_cRn : bits x 16 4 = cRn := by
    simp (disch := decide) only [hx, bits_or, bits_put_same, bits_put_apart, bits_ofNat, BitVec.reduceExtractLsb', BitVec.zero_or, BitVec.or_zero]
  have e_cRm : bits x 0 4 = cRm := by
    simp (disch := decide) only [hx, bits_or, bits_put_same, bits_put_apart, bits_ofNat, BitVec.reduceExtractLsb', BitVec.zero_or, BitVec.or_zero]
  have e_opc2 : bits x 5 3 = opc2 := by
    simp (disch := decide) only [hx, bits_or, bits_put_same, bits_put_apart, bits_ofNat, BitVec.reduceExtractLsb', BitVec.zero_or, BitVec.or_zero]
  have e_o : bits x 21 3 = 0 := bits_of_known hk 21 3 rfl
  have hn : p14Table.find? (fun t => t.key == wordKey x) = none := p14_none (by
    simpa [wordKey, e_o, e_l, e_cRn, e_cRm, e_opc2] using (Bool.and_eq_true_iff.mp h).2)
  rw [decodeWord_p14 hk hc (by decide), readP14, hn]
  simp only [e_o]
  show Except.ok (Instr.p14DebugOther (bits x 28 4) (bits x 20 1) (bits x 16 4) (bits x 12 4) (bits x 5 3) (bits x 0 4)) = _
  simp (disch := decide) only [hx, bits_or, bits_put_same, bits_put_apart, bits_ofNat, BitVec.reduceExtractLsb', BitVec.zero_or, BitVec.or_zero]

/-- Row 288 of the opcode table. -/
theorem RoundTrip.p14TeeOther (cond l cRn rt opc2 cRm) : RoundTrip.Statement (.p14TeeOther cond l cRn rt opc2 cRm) := fun hwf => by
  have h : (cond != 15 && !p14Keys.contains (transferKey 6 l cRn cRm opc2)) = true := hwf
  suffices H : ∀ x, x = 0x0EC00E10#32 ||| put cond 28 ||| put l 20 ||| put cRn 16 ||| put rt 12 ||| put opc2 5 ||| put cRm 0 → decodeWord x = .ok (.p14TeeOther cond l cRn rt opc2 cRm) from H _ rfl
  intro x hx
  have hk : x &&& 0x0FE00F10 = 0x0EC00E10 := by simp (disch := decide) only [hx, or_and, put_and_apart]; rfl
  have hc : bits x 28 4 ≠ 15 := by
    simp (disch := decide) only [hx, bits_or, bits_put_same, bits_put_apart, bits_ofNat, BitVec.reduceExtractLsb', BitVec.zero_or, BitVec.or_zero]
    exact fun hh => by simp [hh] at h
  have e_l : bits x 20 1 = l := by
    simp (disch := decide) only [hx, bits_or, bits_put_same, bits_put_apart, bits_ofNat, BitVec.reduceExtractLsb', BitVec.zero_or, BitVec.or_zero]
  have e_cRn : bits x 16 4 = cRn := by
    simp (disch := decide) only [hx, bits_or, bits_put_same, bits_put_apart, bits_ofNat, BitVec.reduceExtractLsb', BitVec.zero_or, BitVec.or_zero]
  have e_cRm : bits x 0 4 = cRm := by
    simp (disch := decide) only [hx, bits_or, bits_put_same, bits_put_apart, bits_ofNat, BitVec.reduceExtractLsb', BitVec.zero_or, BitVec.or_zero]
  have e_opc2 : bits x 5 3 = opc2 := by
    simp (disch := decide) only [hx, bits_or, bits_put_same, bits_put_apart, bits_ofNat, BitVec.reduceExtractLsb', BitVec.zero_or, BitVec.or_zero]
  have e_o : bits x 21 3 = 6 := bits_of_known hk 21 3 rfl
  have hn : p14Table.find? (fun t => t.key == wordKey x) = none := p14_none (by
    simpa [wordKey, e_o, e_l, e_cRn, e_cRm, e_opc2] using (Bool.and_eq_true_iff.mp h).2)
  rw [decodeWord_p14 hk hc (by decide), readP14, hn]
  simp only [e_o]
  show Except.ok (Instr.p14TeeOther (bits x 28 4) (bits x 20 1) (bits x 16 4) (bits x 12 4) (bits x 5 3) (bits x 0 4)) = _
  simp (disch := decide) only [hx, bits_or, bits_put_same, bits_put_apart, bits_ofNat, BitVec.reduceExtractLsb', BitVec.zero_or, BitVec.or_zero]

/-- Row 289 of the opcode table. -/
theorem RoundTrip.p14Other (cond opc1 l cRn rt opc2 cRm) : RoundTrip.Statement (.p14Other cond opc1 l cRn rt opc2 cRm) := fun hwf => by
  have h : (cond != 15 && opc1 != 0 && opc1 != 6 && !p14Keys.contains (transferKey opc1 l cRn cRm opc2)) = true := hwf
  suffices H : ∀ x, x = 0x0E000E10#32 ||| put cond 28 ||| put opc1 21 ||| put l 20 ||| put cRn 16 ||| put rt 12 ||| put opc2 5 ||| put cRm 0 → decodeWord x = .ok (.p14Other cond opc1 l cRn rt opc2 cRm) from H _ rfl
  intro x hx
  have hk : x &&& 0x0F000F10 = 0x0E000E10 := by simp (disch := decide) only [hx, or_and, put_and_apart]; rfl
  have hc : bits x 28 4 ≠ 15 := by
    simp (disch := decide) only [hx, bits_or, bits_put_same, bits_put_apart, bits_ofNat, BitVec.reduceExtractLsb', BitVec.zero_or, BitVec.or_zero]
    exact fun hh => by simp [hh] at h
  have e_opc1 : bits x 21 3 = opc1 := by
    simp (disch := decide) only [hx, bits_or, bits_put_same, bits_put_apart, bits_ofNat, BitVec.reduceExtractLsb', BitVec.zero_or, BitVec.or_zero]
  have e_l : bits x 20 1 = l := by
    simp (disch := decide) only [hx, bits_or, bits_put_same, bits_put_apart, bits_ofNat, BitVec.reduceExtractLsb', BitVec.zero_or, BitVec.or_zero]
  have e_cRn : bits x 16 4 = cRn := by
    simp (disch := decide) only [hx, bits_or, bits_put_same, bits_put_apart, bits_ofNat, BitVec.reduceExtractLsb', BitVec.zero_or, BitVec.or_zero]
  have e_cRm : bits x 0 4 = cRm := by
    simp (disch := decide) only [hx, bits_or, bits_put_same, bits_put_apart, bits_ofNat, BitVec.reduceExtractLsb', BitVec.zero_or, BitVec.or_zero]
  have e_opc2 : bits x 5 3 = opc2 := by
    simp (disch := decide) only [hx, bits_or, bits_put_same, bits_put_apart, bits_ofNat, BitVec.reduceExtractLsb', BitVec.zero_or, BitVec.or_zero]
  have hn : p14Table.find? (fun t => t.key == wordKey x) = none := p14_none (by
    simpa [wordKey, e_opc1, e_l, e_cRn, e_cRm, e_opc2] using (Bool.and_eq_true_iff.mp h).2)
  have h0 : opc1 ≠ 0 := fun hh => by simp [hh] at h
  have h6 : opc1 ≠ 6 := fun hh => by simp [hh] at h
  rw [decodeWord_p14 hk hc (by decide), readP14, hn]
  simp only [e_opc1, beq_eq_false_iff_ne.mpr h0, beq_eq_false_iff_ne.mpr h6, Bool.false_eq_true, if_false]
  simp (disch := decide) only [hx, bits_or, bits_put_same, bits_put_apart, bits_ofNat, BitVec.reduceExtractLsb', BitVec.zero_or, BitVec.or_zero]

/-- Row 290 of the opcode table. -/
theorem RoundTrip.fmstat (cond) : RoundTrip.Statement (.fmstat cond) := fun hwf => by
  have h : (cond != 15) = true := hwf
  suffices H : ∀ x, x = 0x0EF1FA10#32 ||| put cond 28 → decodeWord x = .ok (.fmstat cond) from H _ rfl
  intro x hx
  have hk : x &&& 0x0FFFFFFF = 0x0EF1FA10 := by simp (disch := decide) only [hx, or_and, put_and_apart]; rfl
  have hc : bits x 28 4 ≠ 15 := by
    simp (disch := decide) only [hx, bits_or, bits_put_same, bits_put_apart, bits_ofNat, BitVec.reduceExtractLsb', BitVec.zero_or, BitVec.or_zero]
    exact bne_iff_ne.mp h
  refine (decode7 0 [] hk hc (by rw [bits_of_known hk 8 4 rfl, bits_of_known hk 4 1 rfl]; rfl) ⟨rfl, rfl⟩ rfl (by decide +kernel)
    (List.forall_mem_nil _) (by decide) rfl).trans ?_
  simp (disch := decide) only [hx, bits_or, bits_put_same, bits_put_apart, bits_ofNat, BitVec.reduceExtractLsb', BitVec.zero_or, BitVec.or_zero]

/-- Row 291 of the opcode table. -/
theorem RoundTrip.vmrsFpsid (cond rt) : RoundTrip.Statement (.vmrsFpsid cond rt) := fun hwf => by
  have h : (cond != 15) = true := hwf
  suffices H : ∀ x, x = 0x0EF00A10#32 ||| put cond 28 ||| put rt 12 → decodeWord x = .ok (.vmrsFpsid cond rt) from H _ rfl
  intro x hx
  have hk : x &&& 0x0FFF0FFF = 0x0EF00A10 := by simp (disch := decide) only [hx, or_and, put_and_apart]; rfl
  have hc : bits x 28 4 ≠ 15 := by
    simp (disch := decide) only [hx, bits_or, bits_put_same, bits_put_apart, bits_ofNat, BitVec.reduceExtractLsb', BitVec.zero_or, BitVec.or_zero]
    exact bne_iff_ne.mp h
  refine (decode7 1 [] hk hc (by rw [bits_of_known hk 8 4 rfl, bits_of_known hk 4 1 rfl]; rfl) ⟨rfl, rfl⟩ rfl (by decide +kernel)
    (List.forall_mem_nil _) (by decide) rfl).trans ?_
  simp (disch := decide) only [hx, bits_or, bits_put_same, bits_put_apart, bits_ofNat, BitVec.reduceExtractLsb', BitVec.zero_or, BitVec.or_zero]

/-- Row 292 of the opcode table. -/
theorem RoundTrip.vmsrFpsid (cond rt) : RoundTrip.Statement (.vmsrFpsid cond rt) := fun hwf => by
  have h : (cond != 15) = true := hwf
  suffices H : ∀ x, x = 0x0EE00A10#32 ||| put cond 28 ||| put rt 12 → decodeWord x = .ok (.vmsrFpsid cond rt) from H _ rfl
  intro x hx
  have hk : x &&& 0x0FFF0FFF = 0x0EE00A10 := by simp (disch := decide) only [hx, or_and, put_and_apart]; rfl
  have hc : bits x 28 4 ≠ 15 := by
    simp (disch := decide) only [hx, bits_or, bits_put_same, bits_put_apart, bits_ofNat, BitVec.reduceExtractLsb', BitVec.zero_or, BitVec.or_zero]
    exact bne_iff_ne.mp h
  refine (decode7 2 [] hk hc (by rw [bits_of_known hk 8 4 rfl, bits_of_known hk 4 1 rfl]; rfl) ⟨rfl, rfl⟩ rfl (by decide +kernel)
    (List.forall_mem_nil _) (by decide) rfl).trans ?_
  simp (disch := decide) only [hx, bits_or, bits_put_same, bits_put_apart, bits_ofNat, BitVec.reduceExtractLsb', BitVec.zero_or, BitVec.or_zero]

/-- Row 293 of the opcode table. -/
theorem RoundTrip.vmrsFpscr (cond rt) : RoundTrip.Statement (.vmrsFpscr cond rt) := fun hwf => by
  have h : (cond != 15 && rt != 15) = true := hwf
  suffices H : ∀ x, x = 0x0EF10A10#32 ||| put cond 28 ||| put rt 12 → decodeWord x = .ok (.vmrsFpscr cond rt) from H _ rfl
  intro x hx
  have hk : x &&& 0x0FFF0FFF = 0x0EF10A10 := by simp (disch := decide) only [hx, or_and, put_and_apart]; rfl
  have hc : bits x 28 4 ≠ 15 := by
    simp (disch := decide) only [hx, bits_or, bits_put_same, bits_put_apart, bits_ofNat, BitVec.reduceExtractLsb', BitVec.zero_or, BitVec.or_zero]
    exact fun hh => by simp [hh] at h
  have e_rt : bits x 12 4 = rt := by
    simp (disch := decide) only [hx, bits_or, bits_put_same, bits_put_apart, bits_ofNat, BitVec.reduceExtractLsb', BitVec.zero_or, BitVec.or_zero]
  refine (decode7 3 [0] hk hc (by rw [bits_of_known hk 8 4 rfl, bits_of_known hk 4 1 rfl]; rfl) ⟨rfl, rfl⟩ rfl (by decide +kernel)
    (List.forall_mem_cons.2 ⟨Bool.eq_false_iff.2 fun hq => by simp [(e_rt.symm.trans (bits_of_hits hq 12 4 rfl) : rt = 15)] at h,
    (List.forall_mem_nil _)⟩) (by decide) rfl).trans ?_
  simp (disch := decide) only [hx, bits_or, bits_put_same, bits_put_apart, bits_ofNat, BitVec.reduceExtractLsb', BitVec.zero_or, BitVec.or_zero]

/-- Row 294 of the opcode table. -/
theorem RoundTrip.vmsrFpscr (cond rt) : RoundTrip.Statement (.vmsrFpscr cond rt) := fun hwf => by
  have h : (cond != 15) = true := hwf
  suffices H : ∀ x, x = 0x0EE10A10#32 ||| put cond 28 ||| put rt 12 → decodeWord x = .ok (.vmsrFpscr cond rt) from H _ rfl
  intro x hx
  have hk : x &&& 0x0FFF0FFF = 0x0EE10A10 := by simp (disch := decide) only [hx, or_and, put_and_apart]; rfl
  have hc : bits x 28 4 ≠ 15 := by
    simp (disch := decide) only [hx, bits_or, bits_put_same, bits_put_apart, bits_ofNat, BitVec.reduceExtractLsb', BitVec.zero_or, BitVec.or_zero]
    exact bne_iff_ne.mp h
  refine (decode7 4 [] hk hc (by rw [bits_of_known hk 8 4 rfl, bits_of_known hk 4 1 rfl]; rfl) ⟨rfl, rfl⟩ rfl (by decide +kernel)
    (List.forall_mem_nil _) (by decide) rfl).trans ?_
  simp (disch := decide) only [hx, bits_or, bits_put_same, bits_put_apart, bits_ofNat, BitVec.reduceExtractLsb', BitVec.zero_or, BitVec.or_zero]

/-- Row 295 of the opcode table. -/
theorem RoundTrip.vmrsMvfr1 (cond rt) : RoundTrip.Statement (.vmrsMvfr1 cond rt) := fun hwf => by
  have h : (cond != 15) = true := hwf
  suffices H : ∀ x, x = 0x0EF60A10#32 ||| put cond 28 ||| put rt 12 → decodeWord x = .ok (.vmrsMvfr1 cond rt) from H _ rfl
  intro x hx
  have hk : x &&& 0x0FFF0FFF = 0x0EF60A10 := by simp (disch := decide) only [hx, or_and, put_and_apart]; rfl
  have hc : bits x 28 4 ≠ 15 := by
    simp (disch := decide) only [hx, bits_or, bits_put_same, bits_put_apart, bits_ofNat, BitVec.reduceExtractLsb', BitVec.zero_or, BitVec.or_zero]
    exact bne_iff_ne.mp h
  refine (decode7 5 [] hk hc (by rw [bits_of_known hk 8 4 rfl, bits_of_known hk 4 1 rfl]; rfl) ⟨rfl, rfl⟩ rfl (by decide +kernel)
    (List.forall_mem_nil _) (by decide) rfl).trans ?_
  simp (disch := decide) only [hx, bits_or, bits_put_same, bits_put_apart, bits_ofNat, BitVec.reduceExtractLsb', BitVec.zero_or, BitVec.or_zero]

/-- Row 296 of the opcode table. -/
theorem RoundTrip.vmsrMvfr1 (cond rt) : RoundTrip.Statement (.vmsrMvfr1 cond rt) := fun hwf => by
  have h : (cond != 15) = true := hwf
  suffices H : ∀ x, x = 0x0EE60A10#32 ||| put cond 28 ||| put rt 12 → decodeWord x = .ok (.vmsrMvfr1 cond rt) from H _ rfl
  intro x hx
  have hk : x &&& 0x0FFF0FFF = 0x0EE60A10 := by simp (disch := decide) only [hx, or_and, put_and_apart]; rfl
  have hc : bits x 28 4 ≠ 15 := by
    simp (disch := decide) only [hx, bits_or, bits_put_same, bits_put_apart, bits_ofNat, BitVec.reduceExtractLsb', BitVec.zero_or, BitVec.or_zero]
    exact bne_iff_ne.mp h
  refine (decode7 6 [] hk hc (by rw [bits_of_known hk 8 4 rfl, bits_of_known hk 4 1 rfl]; rfl) ⟨rfl, rfl⟩ rfl (by decide +kernel)
    (List.forall_mem_nil _) (by decide) rfl).trans ?_
  simp (disch := decide) only [hx, bits_or, bits_put_same, bits_put_apart, bits_ofNat, BitVec.reduceExtractLsb', BitVec.zero_or, BitVec.or_zero]

/-- Row 297 of the opcode table. -/
theorem RoundTrip.vmrsMvfr0 (cond rt) : RoundTrip.Statement (.vmrsMvfr0 cond rt) := fun hwf => by
  have h : (cond != 15) = true := hwf
  suffices H : ∀ x, x = 0x0EF70A10#32 ||| put cond 28 ||| put rt 12 → decodeWord x = .ok (.vmrsMvfr0 cond rt) from H _ rfl
  intro x hx
  have hk : x &&& 0x0FFF0FFF = 0x0EF70A10 := by simp (disch := decide) only [hx, or_and, put_and_apart]; rfl
  have hc : bits x 28 4 ≠ 15 := by
    simp (disch := decide) only [hx, bits_or, bits_put_same, bits_put_apart, bits_ofNat, BitVec.reduceExtractLsb', BitVec.zero_or, BitVec.or_zero]
    exact bne_iff_ne.mp h
  refine (decode7 7 [] hk hc (by rw [bits_of_known hk 8 4 rfl, bits_of_known hk 4 1 rfl]; rfl) ⟨rfl, rfl⟩ rfl (by decide +kernel)
    (List.forall_mem_nil _) (by decide) rfl).trans ?_
  simp (disch := decide) only [hx, bits_or, bits_put_same, bits_put_apart, bits_ofNat, BitVec.reduceExtractLsb', BitVec.zero_or, BitVec.or_zero]

/-- Row 298 of the opcode table. -/
theorem RoundTrip.vmsrMvfr0 (cond rt) : RoundTrip.Statement (.vmsrMvfr0 cond rt) := fun hwf => by
  have h : (cond != 15) = true := hwf
  suffices H : ∀ x, x = 0x0EE70A10#32 ||| put cond 28 ||| put rt 12 → decodeWord x = .ok (.vmsrMvfr0 cond rt) from H _ rfl
  intro x hx
  have hk : x &&& 0x0FFF0FFF = 0x0EE70A10 := by simp (disch := decide) only [hx, or_and, put_and_apart]; rfl
  have hc : bits x 28 4 ≠ 15 := by
    simp (disch := decide) only [hx, bits_or, bits_put_same, bits_put_apart, bits_ofNat, BitVec.reduceExtractLsb', BitVec.zero_or, BitVec.or_zero]
    exact bne_iff_ne.mp h
  refine (decode7 8 [] hk hc (by rw [bits_of_known hk 8 4 rfl, bits_of_known hk 4 1 rfl]; rfl) ⟨rfl, rfl⟩ rfl (by decide +kernel)
    (List.forall_mem_nil _) (by decide) rfl).trans ?_
  simp (disch := decide) only [hx, bits_or, bits_put_same, bits_put_apart, bits_ofNat, BitVec.reduceExtractLsb', BitVec.zero_or, BitVec.or_zero]

/-- Row 299 of the opcode table. -/
theorem RoundTrip.vmrsFpexc (cond rt) : RoundTrip.Statement (.vmrsFpexc cond rt) := fun hwf => by
  have h : (cond != 15) = true := hwf
  suffices H : ∀ x, x = 0x0EF80A10#32 ||| put cond 28 ||| put rt 12 → decodeWord x = .ok (.vmrsFpexc cond rt) from H _ rfl
  intro x hx
  have hk : x &&& 0x0FFF0FFF = 0x0EF80A10 := by simp (disch := decide) only [hx, or_and, put_and_apart]; rfl
  have hc : bits x 28 4 ≠ 15 := by
    simp (disch := decide) only [hx, bits_or, bits_put_same, bits_put_apart, bits_ofNat, BitVec.reduceExtractLsb', BitVec.zero_or, BitVec.or_zero]
    exact bne_iff_ne.mp h
  refine (decode7 9 [] hk hc (by rw [bits_of_known hk 8 4 rfl, bits_of_known hk 4 1 rfl]; rfl) ⟨rfl, rfl⟩ rfl (by decide +kernel)
    (List.forall_mem_nil _) (by decide) rfl).trans ?_
  simp (disch := decide) only [hx, bits_or, bits_put_same, bits_put_apart, bits_ofNat, BitVec.reduceExtractLsb', BitVec.zero_or, BitVec.or_zero]

/-- Row 300 of the opcode table. -/
theorem RoundTrip.vmsrFpexc (cond rt) : RoundTrip.Statement (.vmsrFpexc cond rt) := fun hwf => by
  have h : (cond != 15) = true := hwf
  suffices H : ∀ x, x = 0x0EE80A10#32 ||| put cond 28 ||| put rt 12 → decodeWord x = .ok (.vmsrFpexc cond rt) from H _ rfl
  intro x hx
  have hk : x &&& 0x0FFF0FFF = 0x0EE80A10 := by simp (disch := decide) only [hx, or_and, put_and_apart]; rfl
  have hc : bits x 28 4 ≠ 15 := by
    simp (disch := decide) only [hx, bits_or, bits_put_same, bits_put_apart, bits_ofNat, BitVec.reduceExtractLsb', BitVec.zero_or, BitVec.or_zero]
    exact bne_iff_ne.mp h
  refine (decode7 10 [] hk hc (by rw [bits_of_known hk 8 4 rfl, bits_of_known hk 4 1 rfl]; rfl) ⟨rfl, rfl⟩ rfl (by decide +kernel)
    (List.forall_mem_nil _) (by decide) rfl).trans ?_
  simp (disch := decide) only [hx, bits_or, bits_put_same, bits_put_apart, bits_ofNat, BitVec.reduceExtractLsb', BitVec.zero_or, BitVec.or_zero]

/-- Row 301 of the opcode table. -/
theorem RoundTrip.vfpSysOther (cond l reg rt) : RoundTrip.Statement (.vfpSysOther cond l reg rt) := fun hwf => by
  have h : (cond != 15 && !(reg == 0 || reg == 1 || reg == 6 || reg == 7 || reg == 8)) = true := hwf
  suffices H : ∀ x, x = 0x0EE00A10#32 ||| put cond 28 ||| put l 20 ||| put reg 16 ||| put rt 12 → decodeWord x = .ok (.vfpSysOther cond l reg rt) from H _ rfl
  intro x hx
  have hk : x &&& 0x0FE00FFF = 0x0EE00A10 := by simp (disch := decide) only [hx, or_and, put_and_apart]; rfl
  have hc : bits x 28 4 ≠ 15 := by
    simp (disch := decide) only [hx, bits_or, bits_put_same, bits_put_apart, bits_ofNat, BitVec.reduceExtractLsb', BitVec.zero_or, BitVec.or_zero]
    exact fun hh => by simp [hh] at h
  have e_reg : bits x 16 4 = reg := by
    simp (disch := decide) only [hx, bits_or, bits_put_same, bits_put_apart, bits_ofNat, BitVec.reduceExtractLsb', BitVec.zero_or, BitVec.or_zero]
  have e_rt : bits x 12 4 = rt := by
    simp (disch := decide) only [hx, bits_or, bits_put_same, bits_put_apart, bits_ofNat, BitVec.reduceExtractLsb', BitVec.zero_or, BitVec.or_zero]
  refine (decode7 11 [0, 1, 2, 3, 4, 5, 6, 7, 8, 9, 10] hk hc (by rw [bits_of_known hk 8 4 rfl, bits_of_known hk 4 1 rfl]; rfl) ⟨rfl, rfl⟩ rfl (by decide +kernel)
    (List.forall_mem_cons.2 ⟨Bool.eq_false_iff.2 fun hq => by simp [(e_reg.symm.trans (bits_of_hits hq 16 4 rfl) : reg = 1), (e_rt.symm.trans (bits_of_hits hq 12 4 rfl) : rt = 15)] at h,
    (List.forall_mem_cons.2 ⟨Bool.eq_false_iff.2 fun hq => by simp [(e_reg.symm.trans (bits_of_hits hq 16 4 rfl) : reg = 0)] at h,
    (List.forall_mem_cons.2 ⟨Bool.eq_false_iff.2 fun hq => by simp [(e_reg.symm.trans (bits_of_hits hq 16 4 rfl) : reg = 0)] at h,
    (List.forall_mem_cons.2 ⟨Bool.eq_false_iff.2 fun hq => by simp [(e_reg.symm.trans (bits_of_hits hq 16 4 rfl) : reg = 1)] at h,
    (List.forall_mem_cons.2 ⟨Bool.eq_false_iff.2 fun hq => by simp [(e_reg.symm.trans (bits_of_hits hq 16 4 rfl) : reg = 1)] at h,
    (List.forall_mem_cons.2 ⟨Bool.eq_false_iff.2 fun hq => by simp [(e_reg.symm.trans (bits_of_hits hq 16 4 rfl) : reg = 6)] at h,
    (List.forall_mem_cons.2 ⟨Bool.eq_false_iff.2 fun hq => by simp [(e_reg.symm.trans (bits_of_hits hq 16 4 rfl) : reg = 6)] at h,
    (List.forall_mem_cons.2 ⟨Bool.eq_false_iff.2 fun hq => by simp [(e_reg.symm.trans (bits_of_hits hq 16 4 rfl) : reg = 7)] at h,
    (List.forall_mem_cons.2 ⟨Bool.eq_false_iff.2 fun hq => by simp [(e_reg.symm.trans (bits_of_hits hq 16 4 rfl) : reg = 7)] at h,
    (List.forall_mem_cons.2 ⟨Bool.eq_false_iff.2 fun hq => by simp [(e_reg.symm.trans (bits_of_hits hq 16 4 rfl) : reg = 8)] at h,
    (List.forall_mem_cons.2 ⟨Bool.eq_false_iff.2 fun hq => by simp [(e_reg.symm.trans (bits_of_hits hq 16 4 rfl) : reg = 8)] at h,
    (List.forall_mem_nil _)⟩)⟩)⟩)⟩)⟩)⟩)⟩)⟩)⟩)⟩)⟩) (by decide) rfl).trans ?_
  simp (disch := decide) only [hx, bits_or, bits_put_same, bits_put_apart, bits_ofNat, BitVec.reduceExtractLsb', BitVec.zero_or, BitVec.or_zero]

/-- Row 302 of the opcode table. -/
theorem RoundTrip.vfpData (cond hi mid lo) : RoundTrip.Statement (.vfpData cond hi mid lo) := fun hwf => by
  have h : (cond != 15) = true := hwf
  suffices H : ∀ x, x = 0x0E000A00#32 ||| put cond 28 ||| put hi 12 ||| put mid 5 ||| put lo 0 → decodeWord x = .ok (.vfpData cond hi mid lo) from H _ rfl
  intro x hx
  have hk : x &&& 0x0F000E10 = 0x0E000A00 := by simp (disch := decide) only [hx, or_and, put_and_apart]; rfl
  have hc : bits x 28 4 ≠ 15 := by
    simp (disch := decide) only [hx, bits_or, bits_put_same, bits_put_apart, bits_ofNat, BitVec.reduceExtractLsb', BitVec.zero_or, BitVec.or_zero]
    exact bne_iff_ne.mp h
  refine (decode7 12 [] hk hc (by rw [bits_of_known hk 4 1 rfl]; rfl) ⟨rfl, rfl⟩ rfl (by decide +kernel)
    (List.forall_mem_nil _) (by decide) rfl).trans ?_
  simp (disch := decide) only [hx, bits_or, bits_put_same, bits_put_apart, bits_ofNat, BitVec.reduceExtractLsb', BitVec.zero_or, BitVec.or_zero]

/-- Row 303 of the opcode table. -/
theorem RoundTrip.vfpTransfer (cond hi mid lo) : RoundTrip.Statement (.vfpTransfer cond hi mid lo) := fun hwf => by
  have h : (cond != 15 && !((hi &&& 0xE00) == 0xE00 && (mid &&& 8) == 0)) = true := hwf
  suffices H : ∀ x, x = 0x0E000A10#32 ||| put cond 28 ||| put hi 12 ||| put mid 5 ||| put lo 0 → decodeWord x = .ok (.vfpTransfer cond hi mid lo) from H _ rfl
  intro x hx
  have hk : x &&& 0x0F000E10 = 0x0E000A10 := by simp (disch := decide) only [hx, or_and, put_and_apart]; rfl
  have hc : bits x 28 4 ≠ 15 := by
    simp (disch := decide) only [hx, bits_or, bits_put_same, bits_put_apart, bits_ofNat, BitVec.reduceExtractLsb', BitVec.zero_or, BitVec.or_zero]
    exact fun hh => by simp [hh] at h
  have e_hi : bits x 21 3 = hi.extractLsb' 9 3 := by
    simp (disch := decide) only [hx, bits_or, bits_put_same, bits_put_within, bits_put_apart, bits_ofNat, BitVec.reduceExtractLsb', BitVec.zero_or, BitVec.or_zero]
  have e_mid : bits x 8 1 = mid.extractLsb' 3 1 := by
    simp (disch := decide) only [hx, bits_or, bits_put_same, bits_put_within, bits_put_apart, bits_ofNat, BitVec.reduceExtractLsb', BitVec.zero_or, BitVec.or_zero]
  refine (decode7 13 [0, 1, 2, 3, 4, 5, 6, 7, 8, 9, 10, 11] hk hc (vfp_no_transfer (bits_of_known hk 9 3 rfl)) ⟨rfl, rfl⟩ rfl (by decide +kernel)
    (List.forall_mem_cons.2 ⟨Bool.eq_false_iff.2 fun hq => by simp [vfp_hi _ (e_hi.symm.trans (bits_of_hits hq 21 3 rfl)), vfp_mid _ (e_mid.symm.trans (bits_of_hits hq 8 1 rfl))] at h,
    (List.forall_mem_cons.2 ⟨Bool.eq_false_iff.2 fun hq => by simp [vfp_hi _ (e_hi.symm.trans (bits_of_hits hq 21 3 rfl)), vfp_mid _ (e_mid.symm.trans (bits_of_hits hq 8 1 rfl))] at h,
    (List.forall_mem_cons.2 ⟨Bool.eq_false_iff.2 fun hq => by simp [vfp_hi _ (e_hi.symm.trans (bits_of_hits hq 21 3 rfl)), vfp_mid _ (e_mid.symm.trans (bits_of_hits hq 8 1 rfl))] at h,
    (List.forall_mem_cons.2 ⟨Bool.eq_false_iff.2 fun hq => by simp [vfp_hi _ (e_hi.symm.trans (bits_of_hits hq 21 3 rfl)), vfp_mid _ (e_mid.symm.trans (bits_of_hits hq 8 1 rfl))] at h,
    (List.forall_mem_cons.2 ⟨Bool.eq_false_iff.2 fun hq => by simp [vfp_hi _ (e_hi.symm.trans (bits_of_hits hq 21 3 rfl)), vfp_mid _ (e_mid.symm.trans (bits_of_hits hq 8 1 rfl))] at h,
    (List.forall_mem_cons.2 ⟨Bool.eq_false_iff.2 fun hq => by simp [vfp_hi _ (e_hi.symm.trans (bits_of_hits hq 21 3 rfl)), vfp_mid _ (e_mid.symm.trans (bits_of_hits hq 8 1 rfl))] at h,
    (List.forall_mem_cons.2 ⟨Bool.eq_false_iff.2 fun hq => by simp [vfp_hi _ (e_hi.symm.trans (bits_of_hits hq 21 3 rfl)), vfp_mid _ (e_mid.symm.trans (bits_of_hits hq 8 1 rfl))] at h,
    (List.forall_mem_cons.2 ⟨Bool.eq_false_iff.2 fun hq => by simp [vfp_hi _ (e_hi.symm.trans (bits_of_hits hq 21 3 rfl)), vfp_mid _ (e_mid.symm.trans (bits_of_hits hq 8 1 rfl))] at h,
    (List.forall_mem_cons.2 ⟨Bool.eq_false_iff.2 fun hq => by simp [vfp_hi _ (e_hi.symm.trans (bits_of_hits hq 21 3 rfl)), vfp_mid _ (e_mid.symm.trans (bits_of_hits hq 8 1 rfl))] at h,
    (List.forall_mem_cons.2 ⟨Bool.eq_false_iff.2 fun hq => by simp [vfp_hi _ (e_hi.symm.trans (bits_of_hits hq 21 3 rfl)), vfp_mid _ (e_mid.symm.trans (bits_of_hits hq 8 1 rfl))] at h,
    (List.forall_mem_cons.2 ⟨Bool.eq_false_iff.2 fun hq => by simp [vfp_hi _ (e_hi.symm.trans (bits_of_hits hq 21 3 rfl)), vfp_mid _ (e_mid.symm.trans (bits_of_hits hq 8 1 rfl))] at h,
    (List.forall_mem_cons.2 ⟨Bool.eq_false_iff.2 fun hq => by simp [vfp_hi _ (e_hi.symm.trans (bits_of_hits hq 21 3 rfl)), vfp_mid _ (e_mid.symm.trans (bits_of_hits hq 8 1 rfl))] at h,
    (List.forall_mem_nil _)⟩)⟩)⟩)⟩)⟩)⟩)⟩)⟩)⟩)⟩)⟩)⟩) (by decide) rfl).trans ?_
  simp (disch := decide) only [hx, bits_or, bits_put_same, bits_put_apart, bits_ofNat, BitVec.reduceExtractLsb', BitVec.zero_or, BitVec.or_zero]

/-- Row 304 of the opcode table. -/
theorem RoundTrip.vfpLoadStore (cond hi lo) : RoundTrip.Statement (.vfpLoadStore cond hi lo) := fun hwf => by
  have h : (cond != 15) = true := hwf
  suffices H : ∀ x, x = 0x0C000A00#32 ||| put cond 28 ||| put hi 12 ||| put lo 0 → decodeWord x = .ok (.vfpLoadStore cond hi lo) from H _ rfl
  intro x hx
  have hk : x &&& 0x0E000E00 = 0x0C000A00 := by simp (disch := decide) only [hx, or_and, put_and_apart]; rfl
  have hc : bits x 28 4 ≠ 15 := by
    simp (disch := decide) only [hx, bits_or, bits_put_same, bits_put_apart, bits_ofNat, BitVec.reduceExtractLsb', BitVec.zero_or, BitVec.or_zero]
    exact bne_iff_ne.mp h
  refine (decode6 2 [] hk hc ⟨rfl, rfl⟩ rfl (by decide +kernel)
    (List.forall_mem_nil _) (by decide) rfl).trans ?_
  simp (disch := decide) only [hx, bits_or, bits_put_same, bits_put_apart, bits_ofNat, BitVec.reduceExtractLsb', BitVec.zero_or, BitVec.or_zero]

/-- Row 305 of the opcode table. -/
theorem RoundTrip.mrcMidr (cond rt) : RoundTrip.Statement (.mrcMidr cond rt) := fun hwf => by
  have h : (cond != 15) = true := hwf
  suffices H : ∀ x, x = 0x0E100F10#32 ||| put cond 28 ||| put rt 12 → decodeWord x = .ok (.mrcMidr cond rt) from H _ rfl
  intro x hx
  have hk : x &&& 0x0FFF0FFF = 0x0E100F10 := by simp (disch := decide) only [hx, or_and, put_and_apart]; rfl
  have hc : bits x 28 4 ≠ 15 := by
    simp (disch := decide) only [hx, bits_or, bits_put_same, bits_put_apart, bits_ofNat, BitVec.reduceExtractLsb', BitVec.zero_or, BitVec.or_zero]
    exact bne_iff_ne.mp h
  refine (decodeP15 hk hc (by decide) (by decide +kernel) rfl).trans ?_
  simp (disch := decide) only [hx, bits_or, bits_put_same, bits_put_apart, bits_ofNat, BitVec.reduceExtractLsb', BitVec.zero_or, BitVec.or_zero]

/-- Row 306 of the opcode table. -/
theorem RoundTrip.mrcMidr4 (cond rt) : RoundTrip.Statement (.mrcMidr4 cond rt) := fun hwf => by
  have h : (cond != 15) = true := hwf
  suffices H : ∀ x, x = 0x0E100F90#32 ||| put cond 28 ||| put rt 12 → decodeWord x = .ok (.mrcMidr4 cond rt) from H _ rfl
  intro x hx
  have hk : x &&& 0x0FFF0FFF = 0x0E100F90 := by simp (disch := decide) only [hx, or_and, put_and_apart]; rfl
  have hc : bits x 28 4 ≠ 15 := by
    simp (disch := decide) only [hx, bits_or, bits_put_same, bits_put_apart, bits_ofNat, BitVec.reduceExtractLsb', BitVec.zero_or, BitVec.or_zero]
    exact bne_iff_ne.mp h
  refine (decodeP15 hk hc (by decide) (by decide +kernel) rfl).trans ?_
  simp (disch := decide) only [hx, bits_or, bits_put_same, bits_put_apart, bits_ofNat, BitVec.reduceExtractLsb', BitVec.zero_or, BitVec.or_zero]

/-- Row 307 of the opcode table. -/
theorem RoundTrip.mrcMidr6 (cond rt) : RoundTrip.Statement (.mrcMidr6 cond rt) := fun hwf => by
  have h : (cond != 15) = true := hwf
  suffices H : ∀ x, x = 0x0E100FD0#32 ||| put cond 28 ||| put rt 12 → decodeWord x = .ok (.mrcMidr6 cond rt) from H _ rfl
  intro x hx
  have hk : x &&& 0x0FFF0FFF = 0x0E100FD0 := by simp (disch := decide) only [hx, or_and, put_and_apart]; rfl
  have hc : bits x 28 4 ≠ 15 := by
    simp (disch := decide) only [hx, bits_or, bits_put_same, bits_put_apart, bits_ofNat, BitVec.reduceExtractLsb', BitVec.zero_or, BitVec.or_zero]
    exact bne_iff_ne.mp h
  refine (decodeP15 hk hc (by decide) (by decide +kernel) rfl).trans ?_
  simp (disch := decide) only [hx, bits_or, bits_put_same, bits_put_apart, bits_ofNat, BitVec.reduceExtractLsb', BitVec.zero_or, BitVec.or_zero]

/-- Row 308 of the opcode table. -/
theorem RoundTrip.mrcMidr7 (cond rt) : RoundTrip.Statement (.mrcMidr7 cond rt) := fun hwf => by
  have h : (cond != 15) = true := hwf
  suffices H : ∀ x, x = 0x0E100FF0#32 ||| put cond 28 ||| put rt 12 → decodeWord x = .ok (.mrcMidr7 cond rt) from H _ rfl
  intro x hx
  have hk : x &&& 0x0FFF0FFF = 0x0E100FF0 := by simp (disch := decide) only [hx, or_and, put_and_apart]; rfl
  have hc : bits x 28 4 ≠ 15 := by
    simp (disch := decide) only [hx, bits_or, bits_put_same, bits_put_apart, bits_ofNat, BitVec.reduceExtractLsb', BitVec.zero_or, BitVec.or_zero]
    exact bne_iff_ne.mp h
  refine (decodeP15 hk hc (by decide) (by decide +kernel) rfl).trans ?_
  simp (disch := decide) only [hx, bits_or, bits_put_same, bits_put_apart, bits_ofNat, BitVec.reduceExtractLsb', BitVec.zero_or, BitVec.or_zero]

/-- Row 309 of the opcode table. -/
theorem RoundTrip.mrcCtr (cond rt) : RoundTrip.Statement (.mrcCtr cond rt) := fun hwf => by
  have h : (cond != 15) = true := hwf
  suffices H : ∀ x, x = 0x0E100F30#32 ||| put cond 28 ||| put rt 12 → decodeWord x = .ok (.mrcCtr cond rt) from H _ rfl
  intro x hx
  have hk : x &&& 0x0FFF0FFF = 0x0E100F30 := by simp (disch := decide) only [hx, or_and, put_and_apart]; rfl
  have hc : bits x 28 4 ≠ 15 := by
    simp (disch := decide) only [hx, bits_or, bits_put_same, bits_put_apart, bits_ofNat, BitVec.reduceExtractLsb', BitVec.zero_or, BitVec.or_zero]
    exact bne_iff_ne.mp h
  refine (decodeP15 hk hc (by decide) (by decide +kernel) rfl).trans ?_
  simp (disch := decide) only [hx, bits_or, bits_put_same, bits_put_apart, bits_ofNat, BitVec.reduceExtractLsb', BitVec.zero_or, BitVec.or_zero]

/-- Row 310 of the opcode table. -/
theorem RoundTrip.mrcTcmtr (cond rt) : RoundTrip.Statement (.mrcTcmtr cond rt) := fun hwf => by
  have h : (cond != 15) = true := hwf
  suffices H : ∀ x, x = 0x0E100F50#32 ||| put cond 28 ||| put rt 12 → decodeWord x = .ok (.mrcTcmtr cond rt) from H _ rfl
  intro x hx
  have hk : x &&& 0x0FFF0FFF = 0x0E100F50 := by simp (disch := decide) only [hx, or_and, put_and_apart]; rfl
  have hc : bits x 28 4 ≠ 15 := by
    simp (disch := decide) only [hx, bits_or, bits_put_same, bits_put_apart, bits_ofNat, BitVec.reduceExtractLsb', BitVec.zero_or, BitVec.or_zero]
    exact bne_iff_ne.mp h
  refine (decodeP15 hk hc (by decide) (by decide +kernel) rfl).trans ?_
  simp (disch := decide) only [hx, bits_or, bits_put_same, bits_put_apart, bits_ofNat, BitVec.reduceExtractLsb', BitVec.zero_or, BitVec.or_zero]

/-- Row 311 of the opcode table. -/
theorem RoundTrip.mrcTlbtr (cond rt) : RoundTrip.Statement (.mrcTlbtr cond rt) := fun hwf => by
  have h : (cond != 15) = true := hwf
  suffices H : ∀ x, x = 0x0E100F70#32 ||| put cond 28 ||| put rt 12 → decodeWord x = .ok (.mrcTlbtr cond rt) from H _ rfl
  intro x hx
  have hk : x &&& 0x0FFF0FFF = 0x0E100F70 := by simp (disch := decide) only [hx, or_and, put_and_apart]; rfl
  have hc : bits x 28 4 ≠ 15 := by
    simp (disch := decide) only [hx, bits_or, bits_put_same, bits_put_apart, bits_ofNat, BitVec.reduceExtractLsb', BitVec.zero_or, BitVec.or_zero]
    exact bne_iff_ne.mp h
  refine (decodeP15 hk hc (by decide) (by decide +kernel) rfl).trans ?_
  simp (disch := decide) only [hx, bits_or, bits_put_same, bits_put_apart, bits_ofNat, BitVec.reduceExtractLsb', BitVec.zero_or, BitVec.or_zero]

/-- Row 312 of the opcode table. -/
theorem RoundTrip.mrcMpidr (cond rt) : RoundTrip.Statement (.mrcMpidr cond rt) := fun hwf => by
  have h : (cond != 15) = true := hwf
  suffices H : ∀ x, x = 0x0E100FB0#32 ||| put cond 28 ||| put rt 12 → decodeWord x = .ok (.mrcMpidr cond rt) from H _ rfl
  intro x hx
  have hk : x &&& 0x0FFF0FFF = 0x0E100FB0 := by simp (disch := decide) only [hx, or_and, put_and_apart]; rfl
  have hc : bits x 28 4 ≠ 15 := by
    simp (disch := decide) only [hx, bits_or, bits_put_same, bits_put_apart, bits_ofNat, BitVec.reduceExtractLsb', BitVec.zero_or, BitVec.or_zero]
    exact bne_iff_ne.mp h
  refine (decodeP15 hk hc (by decide) (by decide +kernel) rfl).trans ?_
  simp (disch := decide) only [hx, bits_or, bits_put_same, bits_put_apart, bits_ofNat, BitVec.reduceExtractLsb', BitVec.zero_or, BitVec.or_zero]

/-- Row 313 of the opcode table. -/
theorem RoundTrip.mrcIdPfr0 (cond rt) : RoundTrip.Statement (.mrcIdPfr0 cond rt) := fun hwf => by
  have h : (cond != 15) = true := hwf
  suffices H : ∀ x, x = 0x0E100F11#32 ||| put cond 28 ||| put rt 12 → decodeWord x = .ok (.mrcIdPfr0 cond rt) from H _ rfl
  intro x hx
  have hk : x &&& 0x0FFF0FFF = 0x0E100F11 := by simp (disch := decide) only [hx, or_and, put_and_apart]; rfl
  have hc : bits x 28 4 ≠ 15 := by
    simp (disch := decide) only [hx, bits_or, bits_put_same, bits_put_apart, bits_ofNat, BitVec.reduceExtractLsb', BitVec.zero_or, BitVec.or_zero]
    exact bne_iff_ne.mp h
  refine (decodeP15 hk hc (by decide) (by decide +kernel) rfl).trans ?_
  simp (disch := decide) only [hx, bits_or, bits_put_same, bits_put_apart, bits_ofNat, BitVec.reduceExtractLsb', BitVec.zero_or, BitVec.or_zero]

/-- Row 314 of the opcode table. -/
theorem RoundTrip.mrcIdPfr1 (cond rt) : RoundTrip.Statement (.mrcIdPfr1 cond rt) := fun hwf => by
  have h : (cond != 15) = true := hwf
  suffices H : ∀ x, x = 0x0E100F31#32 ||| put cond 28 ||| put rt 12 → decodeWord x = .ok (.mrcIdPfr1 cond rt) from H _ rfl
  intro x hx
  have hk : x &&& 0x0FFF0FFF = 0x0E100F31 := by simp (disch := decide) only [hx, or_and, put_and_apart]; rfl
  have hc : bits x 28 4 ≠ 15 := by
    simp (disch := decide) only [hx, bits_or, bits_put_same, bits_put_apart, bits_ofNat, BitVec.reduceExtractLsb', BitVec.zero_or, BitVec.or_zero]
    exact bne_iff_ne.mp h
  refine (decodeP15 hk hc (by decide) (by decide +kernel) rfl).trans ?_
  simp (disch := decide) only [hx, bits_or, bits_put_same, bits_put_apart, bits_ofNat, BitVec.reduceExtractLsb', BitVec.zero_or, BitVec.or_zero]

/-- Row 315 of the opcode table. -/
theorem RoundTrip.mrcIdDfr0 (cond rt) : RoundTrip.Statement (.mrcIdDfr0 cond rt) := fun hwf => by
  have h : (cond != 15) = true := hwf
  suffices H : ∀ x, x = 0x0E100F51#32 ||| put cond 28 ||| put rt 12 → decodeWord x = .ok (.mrcIdDfr0 cond rt) from H _ rfl
  intro x hx
  have hk : x &&& 0x0FFF0FFF = 0x0E100F51 := by simp (disch := decide) only [hx, or_and, put_and_apart]; rfl
  have hc : bits x 28 4 ≠ 15 := by
    simp (disch := decide) only [hx, bits_or, bits_put_same, bits_put_apart, bits_ofNat, BitVec.reduceExtractLsb', BitVec.zero_or, BitVec.or_zero]
    exact bne_iff_ne.mp h
  refine (decodeP15 hk hc (by decide) (by decide +kernel) rfl).trans ?_
  simp (disch := decide) only [hx, bits_or, bits_put_same, bits_put_apart, bits_ofNat, BitVec.reduceExtractLsb', BitVec.zero_or, BitVec.or_zero]

/-- Row 316 of the opcode table. -/
theorem RoundTrip.mrcIdAfr0 (cond rt) : RoundTrip.Statement (.mrcIdAfr0 cond rt) := fun hwf => by
  have h : (cond != 15) = true := hwf
  suffices H : ∀ x, x = 0x0E100F71#32 ||| put cond 28 ||| put rt 12 → decodeWord x = .ok (.mrcIdAfr0 cond rt) from H _ rfl
  intro x hx
  have hk : x &&& 0x0FFF0FFF = 0x0E100F71 := by simp (disch := decide) only [hx, or_and, put_and_apart]; rfl
  have hc : bits x 28 4 ≠ 15 := by
    simp (disch := decide) only [hx, bits_or, bits_put_same, bits_put_apart, bits_ofNat, BitVec.reduceExtractLsb', BitVec.zero_or, BitVec.or_zero]
    exact bne_iff_ne.mp h
  refine (decodeP15 hk hc (by decide) (by decide +kernel) rfl).trans ?_
  simp (disch := decide) only [hx, bits_or, bits_put_same, bits_put_apart, bits_ofNat, BitVec.reduceExtractLsb', BitVec.zero_or, BitVec.or_zero]

/-- Row 317 of the opcode table. -/
theorem RoundTrip.mrcIdMmfr0 (cond rt) : RoundTrip.Statement (.mrcIdMmfr0 cond rt) := fun hwf => by
  have h : (cond != 15) = true := hwf
  suffices H : ∀ x, x = 0x0E100F91#32 ||| put cond 28 ||| put rt 12 → decodeWord x = .ok (.mrcIdMmfr0 cond rt) from H _ rfl
  intro x hx
  have hk : x &&& 0x0FFF0FFF = 0x0E100F91 := by simp (disch := decide) only [hx, or_and, put_and_apart]; rfl
  have hc : bits x 28 4 ≠ 15 := by
    simp (disch := decide) only [hx, bits_or, bits_put_same, bits_put_apart, bits_ofNat, BitVec.reduceExtractLsb', BitVec.zero_or, BitVec.or_zero]
    exact bne_iff_ne.mp h
  refine (decodeP15 hk hc (by decide) (by decide +kernel) rfl).trans ?_
  simp (disch := decide) only [hx, bits_or, bits_put_same, bits_put_apart, bits_ofNat, BitVec.reduceExtractLsb', BitVec.zero_or, BitVec.or_zero]

/-- Row 318 of the opcode table. -/
theorem RoundTrip.mrcIdMmfr1 (cond rt) : RoundTrip.Statement (.mrcIdMmfr1 cond rt) := fun hwf => by
  have h : (cond != 15) = true := hwf
  suffices H : ∀ x, x = 0x0E100FB1#32 ||| put cond 28 ||| put rt 12 → decodeWord x = .ok (.mrcIdMmfr1 cond rt) from H _ rfl
  intro x hx
  have hk : x &&& 0x0FFF0FFF = 0x0E100FB1 := by simp (disch := decide) only [hx, or_and, put_and_apart]; rfl
  have hc : bits x 28 4 ≠ 15 := by
    simp (disch := decide) only [hx, bits_or, bits_put_same, bits_put_apart, bits_ofNat, BitVec.reduceExtractLsb', BitVec.zero_or, BitVec.or_zero]
    exact bne_iff_ne.mp h
  refine (decodeP15 hk hc (by decide) (by decide +kernel) rfl).trans ?_
  simp (disch := decide) only [hx, bits_or, bits_put_same, bits_put_apart, bits_ofNat, BitVec.reduceExtractLsb', BitVec.zero_or, BitVec.or_zero]

/-- Row 319 of the opcode table. -/
theorem RoundTrip.mrcIdMmfr2 (cond rt) : RoundTrip.Statement (.mrcIdMmfr2 cond rt) := fun hwf => by
  have h : (cond != 15) = true := hwf
  suffices H : ∀ x, x = 0x0E100FD1#32 ||| put cond 28 ||| put rt 12 → decodeWord x = .ok (.mrcIdMmfr2 cond rt) from H _ rfl
  intro x hx
  have hk : x &&& 0x0FFF0FFF = 0x0E100FD1 := by simp (disch := decide) only [hx, or_and, put_and_apart]; rfl
  have hc : bits x 28 4 ≠ 15 := by
    simp (disch := decide) only [hx, bits_or, bits_put_same, bits_put_apart, bits_ofNat, BitVec.reduceExtractLsb', BitVec.zero_or, BitVec.or_zero]
    exact bne_iff_ne.mp h
  refine (decodeP15 hk hc (by decide) (by decide +kernel) rfl).trans ?_
  simp (disch := decide) only [hx, bits_or, bits_put_same, bits_put_apart, bits_ofNat, BitVec.reduceExtractLsb', BitVec.zero_or, BitVec.or_zero]

/-- Row 320 of the opcode table. -/
theorem RoundTrip.mrcIdMmfr3 (cond rt) : RoundTrip.Statement (.mrcIdMmfr3 cond rt) := fun hwf => by
  have h : (cond != 15) = true := hwf
  suffices H : ∀ x, x = 0x0E100FF1#32 ||| put cond 28 ||| put rt 12 → decodeWord x = .ok (.mrcIdMmfr3 cond rt) from H _ rfl
  intro x hx
  have hk : x &&& 0x0FFF0FFF = 0x0E100FF1 := by simp (disch := decide) only [hx, or_and, put_and_apart]; rfl
  have hc : bits x 28 4 ≠ 15 := by
    simp (disch := decide) only [hx, bits_or, bits_put_same, bits_put_apart, bits_ofNat, BitVec.reduceExtractLsb', BitVec.zero_or, BitVec.or_zero]
    exact bne_iff_ne.mp h
  refine (decodeP15 hk hc (by decide) (by decide +kernel) rfl).trans ?_
  simp (disch := decide) only [hx, bits_or, bits_put_same, bits_put_apart, bits_ofNat, BitVec.reduceExtractLsb', BitVec.zero_or, BitVec.or_zero]

/-- Row 321 of the opcode table. -/
theorem RoundTrip.mrcIdIsar0 (cond rt) : RoundTrip.Statement (.mrcIdIsar0 cond rt) := fun hwf => by
  have h : (cond != 15) = true := hwf
  suffices H : ∀ x, x = 0x0E100F12#32 ||| put cond 28 ||| put rt 12 → decodeWord x = .ok (.mrcIdIsar0 cond rt) from H _ rfl
  intro x hx
  have hk : x &&& 0x0FFF0FFF = 0x0E100F12 := by simp (disch := decide) only [hx, or_and, put_and_apart]; rfl
  have hc : bits x 28 4 ≠ 15 := by
    simp (disch := decide) only [hx, bits_or, bits_put_same, bits_put_apart, bits_ofNat, BitVec.reduceExtractLsb', BitVec.zero_or, BitVec.or_zero]
    exact bne_iff_ne.mp h
  refine (decodeP15 hk hc (by decide) (by decide +kernel) rfl).trans ?_
  simp (disch := decide) only [hx, bits_or, bits_put_same, bits_put_apart, bits_ofNat, BitVec.reduceExtractLsb', BitVec.zero_or, BitVec.or_zero]

/-- Row 322 of the opcode table. -/
theorem RoundTrip.mrcIdIsar1 (cond rt) : RoundTrip.Statement (.mrcIdIsar1 cond rt) := fun hwf => by
  have h : (cond != 15) = true := hwf
  suffices H : ∀ x, x = 0x0E100F32#32 ||| put cond 28 ||| put rt 12 → decodeWord x = .ok (.mrcIdIsar1 cond rt) from H _ rfl
  intro x hx
  have hk : x &&& 0x0FFF0FFF = 0x0E100F32 := by simp (disch := decide) only [hx, or_and, put_and_apart]; rfl
  have hc : bits x 28 4 ≠ 15 := by
    simp (disch := decide) only [hx, bits_or, bits_put_same, bits_put_apart, bits_ofNat, BitVec.reduceExtractLsb', BitVec.zero_or, BitVec.or_zero]
    exact bne_iff_ne.mp h
  refine (decodeP15 hk hc (by decide) (by decide +kernel) rfl).trans ?_
  simp (disch := decide) only [hx, bits_or, bits_put_same, bits_put_apart, bits_ofNat, BitVec.reduceExtractLsb', BitVec.zero_or, BitVec.or_zero]

/-- Row 323 of the opcode table. -/
theorem RoundTrip.mrcIdIsar2 (cond rt) : RoundTrip.Statement (.mrcIdIsar2 cond rt) := fun hwf => by
  have h : (cond != 15) = true := hwf
  suffices H : ∀ x, x = 0x0E100F52#32 ||| put cond 28 ||| put rt 12 → decodeWord x = .ok (.mrcIdIsar2 cond rt) from H _ rfl
  intro x hx
  have hk : x &&& 0x0FFF0FFF = 0x0E100F52 := by simp (disch := decide) only [hx, or_and, put_and_apart]; rfl
  have hc : bits x 28 4 ≠ 15 := by
    simp (disch := decide) only [hx, bits_or, bits_put_same, bits_put_apart, bits_ofNat, BitVec.reduceExtractLsb', BitVec.zero_or, BitVec.or_zero]
    exact bne_iff_ne.mp h
  refine (decodeP15 hk hc (by decide) (by decide +kernel) rfl).trans ?_
  simp (disch := decide) only [hx, bits_or, bits_put_same, bits_put_apart, bits_ofNat, BitVec.reduceExtractLsb', BitVec.zero_or, BitVec.or_zero]

/-- Row 324 of the opcode table. -/
theorem RoundTrip.mrcIdIsar3 (cond rt) : RoundTrip.Statement (.mrcIdIsar3 cond rt) := fun hwf => by
  have h : (cond != 15) = true := hwf
  suffices H : ∀ x, x = 0x0E100F72#32 ||| put cond 28 ||| put rt 12 → decodeWord x = .ok (.mrcIdIsar3 cond rt) from H _ rfl
  intro x hx
  have hk : x &&& 0x0FFF0FFF = 0x0E100F72 := by simp (disch := decide) only [hx, or_and, put_and_apart]; rfl
  have hc : bits x 28 4 ≠ 15 := by
    simp (disch := decide) only [hx, bits_or, bits_put_same, bits_put_apart, bits_ofNat, BitVec.reduceExtractLsb', BitVec.zero_or, BitVec.or_zero]
    exact bne_iff_ne.mp h
  refine (decodeP15 hk hc (by decide) (by decide +kernel) rfl).trans ?_
  simp (disch := decide) only [hx, bits_or, bits_put_same, bits_put_apart, bits_ofNat, BitVec.reduceExtractLsb', BitVec.zero_or, BitVec.or_zero]

/-- Row 325 of the opcode table. -/
theorem RoundTrip.mrcIdIsar4 (cond rt) : RoundTrip.Statement (.mrcIdIsar4 cond rt) := fun hwf => by
  have h : (cond != 15) = true := hwf
  suffices H : ∀ x, x = 0x0E100F92#32 ||| put cond 28 ||| put rt 12 → decodeWord x = .ok (.mrcIdIsar4 cond rt) from H _ rfl
  intro x hx
  have hk : x &&& 0x0FFF0FFF = 0x0E100F92 := by simp (disch := decide) only [hx, or_and, put_and_apart]; rfl
  have hc : bits x 28 4 ≠ 15 := by
    simp (disch := decide) only [hx, bits_or, bits_put_same, bits_put_apart, bits_ofNat, BitVec.reduceExtractLsb', BitVec.zero_or, BitVec.or_zero]
    exact bne_iff_ne.mp h
  refine (decodeP15 hk hc (by decide) (by decide +kernel) rfl).trans ?_
  simp (disch := decide) only [hx, bits_or, bits_put_same, bits_put_apart, bits_ofNat, BitVec.reduceExtractLsb', BitVec.zero_or, BitVec.or_zero]

/-- Row 326 of the opcode table. -/
theorem RoundTrip.mrcIdIsar5 (cond rt) : RoundTrip.Statement (.mrcIdIsar5 cond rt) := fun hwf => by
  have h : (cond != 15) = true := hwf
  suffices H : ∀ x, x = 0x0E100FB2#32 ||| put cond 28 ||| put rt 12 → decodeWord x = .ok (.mrcIdIsar5 cond rt) from H _ rfl
  intro x hx
  have hk : x &&& 0x0FFF0FFF = 0x0E100FB2 := by simp (disch := decide) only [hx, or_and, put_and_apart]; rfl
  have hc : bits x 28 4 ≠ 15 := by
    simp (disch := decide) only [hx, bits_or, bits_put_same, bits_put_apart, bits_ofNat, BitVec.reduceExtractLsb', BitVec.zero_or, BitVec.or_zero]
    exact bne_iff_ne.mp h
  refine (decodeP15 hk hc (by decide) (by decide +kernel) rfl).trans ?_
  simp (disch := decide) only [hx, bits_or, bits_put_same, bits_put_apart, bits_ofNat, BitVec.reduceExtractLsb', BitVec.zero_or, BitVec.or_zero]

/-- Row 327 of the opcode table. -/
theorem RoundTrip.mrcIdIsar6 (cond rt) : RoundTrip.Statement (.mrcIdIsar6 cond rt) := fun hwf => by
  have h : (cond != 15) = true := hwf
  suffices H : ∀ x, x = 0x0E100FD2#32 ||| put cond 28 ||| put rt 12 → decodeWord x = .ok (.mrcIdIsar6 cond rt) from H _ rfl
  intro x hx
  have hk : x &&& 0x0FFF0FFF = 0x0E100FD2 := by simp (disch := decide) only [hx, or_and, put_and_apart]; rfl
  have hc : bits x 28 4 ≠ 15 := by
    simp (disch := decide) only [hx, bits_or, bits_put_same, bits_put_apart, bits_ofNat, BitVec.reduceExtractLsb', BitVec.zero_or, BitVec.or_zero]
    exact bne_iff_ne.mp h
  refine (decodeP15 hk hc (by decide) (by decide +kernel) rfl).trans ?_
  simp (disch := decide) only [hx, bits_or, bits_put_same, bits_put_apart, bits_ofNat, BitVec.reduceExtractLsb', BitVec.zero_or, BitVec.or_zero]

/-- Row 328 of the opcode table. -/
theorem RoundTrip.mrcIdIsar7 (cond rt) : RoundTrip.Statement (.mrcIdIsar7 cond rt) := fun hwf => by
  have h : (cond != 15) = true := hwf
  suffices H : ∀ x, x = 0x0E100FF2#32 ||| put cond 28 ||| put rt 12 → decodeWord x = .ok (.mrcIdIsar7 cond rt) from H _ rfl
  intro x hx
  have hk : x &&& 0x0FFF0FFF = 0x0E100FF2 := by simp (disch := decide) only [hx, or_and, put_and_apart]; rfl
  have hc : bits x 28 4 ≠ 15 := by
    simp (disch := decide) only [hx, bits_or, bits_put_same, bits_put_apart, bits_ofNat, BitVec.reduceExtractLsb', BitVec.zero_or, BitVec.or_zero]
    exact bne_iff_ne.mp h
  refine (decodeP15 hk hc (by decide) (by decide +kernel) rfl).trans ?_
  simp (disch := decide) only [hx, bits_or, bits_put_same, bits_put_apart, bits_ofNat, BitVec.reduceExtractLsb', BitVec.zero_or, BitVec.or_zero]

/-- Row 329 of the opcode table. -/
theorem RoundTrip.mrcFeatureReserved (cond rt opc2 cRm) : RoundTrip.Statement (.mrcFeatureReserved cond rt opc2 cRm) := fun hwf => by
  have h : (cond != 15 && BitVec.ule 3 cRm && BitVec.ule cRm 7) = true := hwf
  suffices H : ∀ x, x = 0x0E100F10#32 ||| put cond 28 ||| put rt 12 ||| put opc2 5 ||| put cRm 0 → decodeWord x = .ok (.mrcFeatureReserved cond rt opc2 cRm) from H _ rfl
  intro x hx
  have hk : x &&& 0x0FFF0F10 = 0x0E100F10 := by simp (disch := decide) only [hx, or_and, put_and_apart]; rfl
  have hc : bits x 28 4 ≠ 15 := by
    simp (disch := decide) only [hx, bits_or, bits_put_same, bits_put_apart, bits_ofNat, BitVec.reduceExtractLsb', BitVec.zero_or, BitVec.or_zero]
    exact fun hh => by simp [hh] at h
  have e_cRm : bits x 0 4 = cRm := by
    simp (disch := decide) only [hx, bits_or, bits_put_same, bits_put_apart, bits_ofNat, BitVec.reduceExtractLsb', BitVec.zero_or, BitVec.or_zero]
  have e_opc2 : bits x 5 3 = opc2 := by
    simp (disch := decide) only [hx, bits_or, bits_put_same, bits_put_apart, bits_ofNat, BitVec.reduceExtractLsb', BitVec.zero_or, BitVec.or_zero]
  have e_o : bits x 21 3 = 0 := bits_of_known hk 21 3 rfl
  have e_l : bits x 20 1 = 1 := bits_of_known hk 20 1 rfl
  have e_n : bits x 16 4 = 0 := bits_of_known hk 16 4 rfl
  have e_q : bits x 20 4 = 1 := bits_of_known hk 20 4 rfl
  have h2 : BitVec.ule 3 cRm = true := by simp at h; exact by simpa using h.1.2
  have h3 : BitVec.ule cRm 7 = true := by simp at h; exact by simpa using h.2
  have hn : p15Table.find? (fun t => t.key == wordKey x) = none := p15_none (by
    simpa [wordKey, e_o, e_l, e_n, e_cRm, e_opc2] using feature_keys cRm opc2 h2 h3)
  rw [decodeWord_p15 hk hc (by decide), readP15, hn]
  simp only [e_n, e_q, e_cRm, h2, h3, beq_self_eq_true, Bool.and_self, if_true]
  simp (disch := decide) only [hx, bits_or, bits_put_same, bits_put_apart, bits_ofNat, BitVec.reduceExtractLsb', BitVec.zero_or, BitVec.or_zero]

/-- Row 330 of the opcode table. -/
theorem RoundTrip.mrcCcsidr (cond rt) : RoundTrip.Statement (.mrcCcsidr cond rt) := fun hwf => by
  have h : (cond != 15) = true := hwf
  suffices H : ∀ x, x = 0x0E300F10#32 ||| put cond 28 ||| put rt 12 → decodeWord x = .ok (.mrcCcsidr cond rt) from H _ rfl
  intro x hx
  have hk : x &&& 0x0FFF0FFF = 0x0E300F10 := by simp (disch := decide) only [hx, or_and, put_and_apart]; rfl
  have hc : bits x 28 4 ≠ 15 := by
    simp (disch := decide) only [hx, bits_or, bits_put_same, bits_put_apart, bits_ofNat, BitVec.reduceExtractLsb', BitVec.zero_or, BitVec.or_zero]
    exact bne_iff_ne.mp h
  refine (decodeP15 hk hc (by decide) (by decide +kernel) rfl).trans ?_
  simp (disch := decide) only [hx, bits_or, bits_put_same, bits_put_apart, bits_ofNat, BitVec.reduceExtractLsb', BitVec.zero_or, BitVec.or_zero]

/-- Row 331 of the opcode table. -/
theorem RoundTrip.mrcClidr (cond rt) : RoundTrip.Statement (.mrcClidr cond rt) := fun hwf => by
  have h : (cond != 15) = true := hwf
  suffices H : ∀ x, x = 0x0E300F30#32 ||| put cond 28 ||| put rt 12 → decodeWord x = .ok (.mrcClidr cond rt) from H _ rfl
  intro x hx
  have hk : x &&& 0x0FFF0FFF = 0x0E300F30 := by simp (disch := decide) only [hx, or_and, put_and_apart]; rfl
  have hc : bits x 28 4 ≠ 15 := by
    simp (disch := decide) only [hx, bits_or, bits_put_same, bits_put_apart, bits_ofNat, BitVec.reduceExtractLsb', BitVec.zero_or, BitVec.or_zero]
    exact bne_iff_ne.mp h
  refine (decodeP15 hk hc (by decide) (by decide +kernel) rfl).trans ?_
  simp (disch := decide) only [hx, bits_or, bits_put_same, bits_put_apart, bits_ofNat, BitVec.reduceExtractLsb', BitVec.zero_or, BitVec.or_zero]

/-- Row 332 of the opcode table. -/
theorem RoundTrip.mrcSiliconId (cond rt) : RoundTrip.Statement (.mrcSiliconId cond rt) := fun hwf => by
  have h : (cond != 15) = true := hwf
  suffices H : ∀ x, x = 0x0E300FF0#32 ||| put cond 28 ||| put rt 12 → decodeWord x = .ok (.mrcSiliconId cond rt) from H _ rfl
  intro x hx
  have hk : x &&& 0x0FFF0FFF = 0x0E300FF0 := by simp (disch := decide) only [hx, or_and, put_and_apart]; rfl
  have hc : bits x 28 4 ≠ 15 := by
    simp (disch := decide) only [hx, bits_or, bits_put_same, bits_put_apart, bits_ofNat, BitVec.reduceExtractLsb', BitVec.zero_or, BitVec.or_zero]
    exact bne_iff_ne.mp h
  refine (decodeP15 hk hc (by decide) (by decide +kernel) rfl).trans ?_
  simp (disch := decide) only [hx, bits_or, bits_put_same, bits_put_apart, bits_ofNat, BitVec.reduceExtractLsb', BitVec.zero_or, BitVec.or_zero]

/-- Row 333 of the opcode table. -/
theorem RoundTrip.mrcCsselr (cond rt) : RoundTrip.Statement (.mrcCsselr cond rt) := fun hwf => by
  have h : (cond != 15) = true := hwf
  suffices H : ∀ x, x = 0x0E500F10#32 ||| put cond 28 ||| put rt 12 → decodeWord x = .ok (.mrcCsselr cond rt) from H _ rfl
  intro x hx
  have hk : x &&& 0x0FFF0FFF = 0x0E500F10 := by simp (disch := decide) only [hx, or_and, put_and_apart]; rfl
  have hc : bits x 28 4 ≠ 15 := by
    simp (disch := decide) only [hx, bits_or, bits_put_same, bits_put_apart, bits_ofNat, BitVec.reduceExtractLsb', BitVec.zero_or, BitVec.or_zero]
    exact bne_iff_ne.mp h
  refine (decodeP15 hk hc (by decide) (by decide +kernel) rfl).trans ?_
  simp (disch := decide) only [hx, bits_or, bits_put_same, bits_put_apart, bits_ofNat, BitVec.reduceExtractLsb', BitVec.zero_or, BitVec.or_zero]

/-- Row 334 of the opcode table. -/
theorem RoundTrip.mcrCsselr (cond rt) : RoundTrip.Statement (.mcrCsselr cond rt) := fun hwf => by
  have h : (cond != 15) = true := hwf
  suffices H : ∀ x, x = 0x0E400F10#32 ||| put cond 28 ||| put rt 12 → decodeWord x = .ok (.mcrCsselr cond rt) from H _ rfl
  intro x hx
  have hk : x &&& 0x0FFF0FFF = 0x0E400F10 := by simp (disch := decide) only [hx, or_and, put_and_apart]; rfl
  have hc : bits x 28 4 ≠ 15 := by
    simp (disch := decide) only [hx, bits_or, bits_put_same, bits_put_apart, bits_ofNat, BitVec.reduceExtractLsb', BitVec.zero_or, BitVec.or_zero]
    exact bne_iff_ne.mp h
  refine (decodeP15 hk hc (by decide) (by decide +kernel) rfl).trans ?_
  simp (disch := decide) only [hx, bits_or, bits_put_same, bits_put_apart, bits_ofNat, BitVec.reduceExtractLsb', BitVec.zero_or, BitVec.or_zero]

/-- Row 335 of the opcode table. -/
theorem RoundTrip.mrcSctlr (cond rt) : RoundTrip.Statement (.mrcSctlr cond rt) := fun hwf => by
  have h : (cond != 15) = true := hwf
  suffices H : ∀ x, x = 0x0E110F10#32 ||| put cond 28 ||| put rt 12 → decodeWord x = .ok (.mrcSctlr cond rt) from H _ rfl
  intro x hx
  have hk : x &&& 0x0FFF0FFF = 0x0E110F10 := by simp (disch := decide) only [hx, or_and, put_and_apart]; rfl
  have hc : bits x 28 4 ≠ 15 := by
    simp (disch := decide) only [hx, bits_or, bits_put_same, bits_put_apart, bits_ofNat, BitVec.reduceExtractLsb', BitVec.zero_or, BitVec.or_zero]
    exact bne_iff_ne.mp h
  refine (decodeP15 hk hc (by decide) (by decide +kernel) rfl).trans ?_
  simp (disch := decide) only [hx, bits_or, bits_put_same, bits_put_apart, bits_ofNat, BitVec.reduceExtractLsb', BitVec.zero_or, BitVec.or_zero]

/-- Row 336 of the opcode table. -/
theorem RoundTrip.mcrSctlr (cond rt) : RoundTrip.Statement (.mcrSctlr cond rt) := fun hwf => by
  have h : (cond != 15) = true := hwf
  suffices H : ∀ x, x = 0x0E010F10#32 ||| put cond 28 ||| put rt 12 → decodeWord x = .ok (.mcrSctlr cond rt) from H _ rfl
  intro x hx
  have hk : x &&& 0x0FFF0FFF = 0x0E010F10 := by simp (disch := decide) only [hx, or_and, put_and_apart]; rfl
  have hc : bits x 28 4 ≠ 15 := by
    simp (disch := decide) only [hx, bits_or, bits_put_same, bits_put_apart, bits_ofNat, BitVec.reduceExtractLsb', BitVec.zero_or, BitVec.or_zero]
    exact bne_iff_ne.mp h
  refine (decodeP15 hk hc (by decide) (by decide +kernel) rfl).trans ?_
  simp (disch := decide) only [hx, bits_or, bits_put_same, bits_put_apart, bits_ofNat, BitVec.reduceExtractLsb', BitVec.zero_or, BitVec.or_zero]

/-- Row 337 of the opcode table. -/
theorem RoundTrip.mrcActlr (cond rt) : RoundTrip.Statement (.mrcActlr cond rt) := fun hwf => by
  have h : (cond != 15) = true := hwf
  suffices H : ∀ x, x = 0x0E110F30#32 ||| put cond 28 ||| put rt 12 → decodeWord x = .ok (.mrcActlr cond rt) from H _ rfl
  intro x hx
  have hk : x &&& 0x0FFF0FFF = 0x0E110F30 := by simp (disch := decide) only [hx, or_and, put_and_apart]; rfl
  have hc : bits x 28 4 ≠ 15 := by
    simp (disch := decide) only [hx, bits_or, bits_put_same, bits_put_apart, bits_ofNat, BitVec.reduceExtractLsb', BitVec.zero_or, BitVec.or_zero]
    exact bne_iff_ne.mp h
  refine (decodeP15 hk hc (by decide) (by decide +kernel) rfl).trans ?_
  simp (disch := decide) only [hx, bits_or, bits_put_same, bits_put_apart, bits_ofNat, BitVec.reduceExtractLsb', BitVec.zero_or, BitVec.or_zero]

/-- Row 338 of the opcode table. -/
theorem RoundTrip.mcrActlr (cond rt) : RoundTrip.Statement (.mcrActlr cond rt) := fun hwf => by
  have h : (cond != 15) = true := hwf
  suffices H : ∀ x, x = 0x0E010F30#32 ||| put cond 28 ||| put rt 12 → decodeWord x = .ok (.mcrActlr cond rt) from H _ rfl
  intro x hx
  have hk : x &&& 0x0FFF0FFF = 0x0E010F30 := by simp (disch := decide) only [hx, or_and, put_and_apart]; rfl
  have hc : bits x 28 4 ≠ 15 := by
    simp (disch := decide) only [hx, bits_or, bits_put_same, bits_put_apart, bits_ofNat, BitVec.reduceExtractLsb', BitVec.zero_or, BitVec.or_zero]
    exact bne_iff_ne.mp h
  refine (decodeP15 hk hc (by decide) (by decide +kernel) rfl).trans ?_
  simp (disch := decide) only [hx, bits_or, bits_put_same, bits_put_apart, bits_ofNat, BitVec.reduceExtractLsb', BitVec.zero_or, BitVec.or_zero]

/-- Row 339 of the opcode table. -/
theorem RoundTrip.mrcCpacr (cond rt) : RoundTrip.Statement (.mrcCpacr cond rt) := fun hwf => by
  have h : (cond != 15) = true := hwf
  suffices H : ∀ x, x = 0x0E110F50#32 ||| put cond 28 ||| put rt 12 → decodeWord x = .ok (.mrcCpacr cond rt) from H _ rfl
  intro x hx
  have hk : x &&& 0x0FFF0FFF = 0x0E110F50 := by simp (disch := decide) only [hx, or_and, put_and_apart]; rfl
  have hc : bits x 28 4 ≠ 15 := by
    simp (disch := decide) only [hx, bits_or, bits_put_same, bits_put_apart, bits_ofNat, BitVec.reduceExtractLsb', BitVec.zero_or, BitVec.or_zero]
    exact bne_iff_ne.mp h
  refine (decodeP15 hk hc (by decide) (by decide +kernel) rfl).trans ?_
  simp (disch := decide) only [hx, bits_or, bits_put_same, bits_put_apart, bits_ofNat, BitVec.reduceExtractLsb', BitVec.zero_or, BitVec.or_zero]

/-- Row 340 of the opcode table. -/
theorem RoundTrip.mcrCpacr (cond rt) : RoundTrip.Statement (.mcrCpacr cond rt) := fun hwf => by
  have h : (cond != 15) = true := hwf
  suffices H : ∀ x, x = 0x0E010F50#32 ||| put cond 28 ||| put rt 12 → decodeWord x = .ok (.mcrCpacr cond rt) from H _ rfl
  intro x hx
  have hk : x &&& 0x0FFF0FFF = 0x0E010F50 := by simp (disch := decide) only [hx, or_and, put_and_apart]; rfl
  have hc : bits x 28 4 ≠ 15 := by
    simp (disch := decide) only [hx, bits_or, bits_put_same, bits_put_apart, bits_ofNat, BitVec.reduceExtractLsb', BitVec.zero_or, BitVec.or_zero]
    exact bne_iff_ne.mp h
  refine (decodeP15 hk hc (by decide) (by decide +kernel) rfl).trans ?_
  simp (disch := decide) only [hx, bits_or, bits_put_same, bits_put_apart, bits_ofNat, BitVec.reduceExtractLsb', BitVec.zero_or, BitVec.or_zero]

/-- Row 341 of the opcode table. -/
theorem RoundTrip.mrcScr (cond rt) : RoundTrip.Statement (.mrcScr cond rt) := fun hwf => by
  have h : (cond != 15) = true := hwf
  suffices H : ∀ x, x = 0x0E110F11#32 ||| put cond 28 ||| put rt 12 → decodeWord x = .ok (.mrcScr cond rt) from H _ rfl
  intro x hx
  have hk : x &&& 0x0FFF0FFF = 0x0E110F11 := by simp (disch := decide) only [hx, or_and, put_and_apart]; rfl
  have hc : bits x 28 4 ≠ 15 := by
    simp (disch := decide) only [hx, bits_or, bits_put_same, bits_put_apart, bits_ofNat, BitVec.reduceExtractLsb', BitVec.zero_or, BitVec.or_zero]
    exact bne_iff_ne.mp h
  refine (decodeP15 hk hc (by decide) (by decide +kernel) rfl).trans ?_
  simp (disch := decide) only [hx, bits_or, bits_put_same, bits_put_apart, bits_ofNat, BitVec.reduceExtractLsb', BitVec.zero_or, BitVec.or_zero]

/-- Row 342 of the opcode table. -/
theorem RoundTrip.mcrScr (cond rt) : RoundTrip.Statement (.mcrScr cond rt) := fun hwf => by
  have h : (cond != 15) = true := hwf
  suffices H : ∀ x, x = 0x0E010F11#32 ||| put cond 28 ||| put rt 12 → decodeWord x = .ok (.mcrScr cond rt) from H _ rfl
  intro x hx
  have hk : x &&& 0x0FFF0FFF = 0x0E010F11 := by simp (disch := decide) only [hx, or_and, put_and_apart]; rfl
  have hc : bits x 28 4 ≠ 15 := by
    simp (disch := decide) only [hx, bits_or, bits_put_same, bits_put_apart, bits_ofNat, BitVec.reduceExtractLsb', BitVec.zero_or, BitVec.or_zero]
    exact bne_iff_ne.mp h
  refine (decodeP15 hk hc (by decide) (by decide +kernel) rfl).trans ?_
  simp (disch := decide) only [hx, bits_or, bits_put_same, bits_put_apart, bits_ofNat, BitVec.reduceExtractLsb', BitVec.zero_or, BitVec.or_zero]

/-- Row 343 of the opcode table. -/
theorem RoundTrip.mrcSder (cond rt) : RoundTrip.Statement (.mrcSder cond rt) := fun hwf => by
  have h : (cond != 15) = true := hwf
  suffices H : ∀ x, x = 0x0E110F31#32 ||| put cond 28 ||| put rt 12 → decodeWord x = .ok (.mrcSder cond rt) from H _ rfl
  intro x hx
  have hk : x &&& 0x0FFF0FFF = 0x0E110F31 := by simp (disch := decide) only [hx, or_and, put_and_apart]; rfl
  have hc : bits x 28 4 ≠ 15 := by
    simp (disch := decide) only [hx, bits_or, bits_put_same, bits_put_apart, bits_ofNat, BitVec.reduceExtractLsb', BitVec.zero_or, BitVec.or_zero]
    exact bne_iff_ne.mp h
  refine (decodeP15 hk hc (by decide) (by decide +kernel) rfl).trans ?_
  simp (disch := decide) only [hx, bits_or, bits_put_same, bits_put_apart, bits_ofNat, BitVec.reduceExtractLsb', BitVec.zero_or, BitVec.or_zero]

/-- Row 344 of the opcode table. -/
theorem RoundTrip.mcrSder (cond rt) : RoundTrip.Statement (.mcrSder cond rt) := fun hwf => by
  have h : (cond != 15) = true := hwf
  suffices H : ∀ x, x = 0x0E010F31#32 ||| put cond 28 ||| put rt 12 → decodeWord x = .ok (.mcrSder cond rt) from H _ rfl
  intro x hx
  have hk : x &&& 0x0FFF0FFF = 0x0E010F31 := by simp (disch := decide) only [hx, or_and, put_and_apart]; rfl
  have hc : bits x 28 4 ≠ 15 := by
    simp (disch := decide) only [hx, bits_or, bits_put_same, bits_put_apart, bits_ofNat, BitVec.reduceExtractLsb', BitVec.zero_or, BitVec.or_zero]
    exact bne_iff_ne.mp h
  refine (decodeP15 hk hc (by decide) (by decide +kernel) rfl).trans ?_
  simp (disch := decide) only [hx, bits_or, bits_put_same, bits_put_apart, bits_ofNat, BitVec.reduceExtractLsb', BitVec.zero_or, BitVec.or_zero]

/-- Row 345 of the opcode table. -/
theorem RoundTrip.mrcNsacr (cond rt) : RoundTrip.Statement (.mrcNsacr cond rt) := fun hwf => by
  have h : (cond != 15) = true := hwf
  suffices H : ∀ x, x = 0x0E110F51#32 ||| put cond 28 ||| put rt 12 → decodeWord x = .ok (.mrcNsacr cond rt) from H _ rfl
  intro x hx
  have hk : x &&& 0x0FFF0FFF = 0x0E110F51 := by simp (disch := decide) only [hx, or_and, put_and_apart]; rfl
  have hc : bits x 28 4 ≠ 15 := by
    simp (disch := decide) only [hx, bits_or, bits_put_same, bits_put_apart, bits_ofNat, BitVec.reduceExtractLsb', BitVec.zero_or, BitVec.or_zero]
    exact bne_iff_ne.mp h
  refine (decodeP15 hk hc (by decide) (by decide +kernel) rfl).trans ?_
  simp (disch := decide) only [hx, bits_or, bits_put_same, bits_put_apart, bits_ofNat, BitVec.reduceExtractLsb', BitVec.zero_or, BitVec.or_zero]

/-- Row 346 of the opcode table. -/
theorem RoundTrip.mcrNsacr (cond rt) : RoundTrip.Statement (.mcrNsacr cond rt) := fun hwf => by
  have h : (cond != 15) = true := hwf
  suffices H : ∀ x, x = 0x0E010F51#32 ||| put cond 28 ||| put rt 12 → decodeWord x = .ok (.mcrNsacr cond rt) from H _ rfl
  intro x hx
  have hk : x &&& 0x0FFF0FFF = 0x0E010F51 := by simp (disch := decide) only [hx, or_and, put_and_apart]; rfl
  have hc : bits x 28 4 ≠ 15 := by
    simp (disch := decide) only [hx, bits_or, bits_put_same, bits_put_apart, bits_ofNat, BitVec.reduceExtractLsb', BitVec.zero_or, BitVec.or_zero]
    exact bne_iff_ne.mp h
  refine (decodeP15 hk hc (by decide) (by decide +kernel) rfl).trans ?_
  simp (disch := decide) only [hx, bits_or, bits_put_same, bits_put_apart, bits_ofNat, BitVec.reduceExtractLsb', BitVec.zero_or, BitVec.or_zero]

/-- Row 347 of the opcode table. -/
theorem RoundTrip.mrcTtbr0 (cond rt) : RoundTrip.Statement (.mrcTtbr0 cond rt) := fun hwf => by
  have h : (cond != 15) = true := hwf
  suffices H : ∀ x, x = 0x0E120F10#32 ||| put cond 28 ||| put rt 12 → decodeWord x = .ok (.mrcTtbr0 cond rt) from H _ rfl
  intro x hx
  have hk : x &&& 0x0FFF0FFF = 0x0E120F10 := by simp (disch := decide) only [hx, or_and, put_and_apart]; rfl
  have hc : bits x 28 4 ≠ 15 := by
    simp (disch := decide) only [hx, bits_or, bits_put_same, bits_put_apart, bits_ofNat, BitVec.reduceExtractLsb', BitVec.zero_or, BitVec.or_zero]
    exact bne_iff_ne.mp h
  refine (decodeP15 hk hc (by decide) (by decide +kernel) rfl).trans ?_
  simp (disch := decide) only [hx, bits_or, bits_put_same, bits_put_apart, bits_ofNat, BitVec.reduceExtractLsb', BitVec.zero_or, BitVec.or_zero]

/-- Row 348 of the opcode table. -/
theorem RoundTrip.mcrTtbr0 (cond rt) : RoundTrip.Statement (.mcrTtbr0 cond rt) := fun hwf => by
  have h : (cond != 15) = true := hwf
  suffices H : ∀ x, x = 0x0E020F10#32 ||| put cond 28 ||| put rt 12 → decodeWord x = .ok (.mcrTtbr0 cond rt) from H _ rfl
  intro x hx
  have hk : x &&& 0x0FFF0FFF = 0x0E020F10 := by simp (disch := decide) only [hx, or_and, put_and_apart]; rfl
  have hc : bits x 28 4 ≠ 15 := by
    simp (disch := decide) only [hx, bits_or, bits_put_same, bits_put_apart, bits_ofNat, BitVec.reduceExtractLsb', BitVec.zero_or, BitVec.or_zero]
    exact bne_iff_ne.mp h
  refine (decodeP15 hk hc (by decide) (by decide +kernel) rfl).trans ?_
  simp (disch := decide) only [hx, bits_or, bits_put_same, bits_put_apart, bits_ofNat, BitVec.reduceExtractLsb', BitVec.zero_or, BitVec.or_zero]

/-- Row 349 of the opcode table. -/
theorem RoundTrip.mrcTtbr1 (cond rt) : RoundTrip.Statement (.mrcTtbr1 cond rt) := fun hwf => by
  have h : (cond != 15) = true := hwf
  suffices H : ∀ x, x = 0x0E120F30#32 ||| put cond 28 ||| put rt 12 → decodeWord x = .ok (.mrcTtbr1 cond rt) from H _ rfl
  intro x hx
  have hk : x &&& 0x0FFF0FFF = 0x0E120F30 := by simp (disch := decide) only [hx, or_and, put_and_apart]; rfl
  have hc : bits x 28 4 ≠ 15 := by
    simp (disch := decide) only [hx, bits_or, bits_put_same, bits_put_apart, bits_ofNat, BitVec.reduceExtractLsb', BitVec.zero_or, BitVec.or_zero]
    exact bne_iff_ne.mp h
  refine (decodeP15 hk hc (by decide) (by decide +kernel) rfl).trans ?_
  simp (disch := decide) only [hx, bits_or, bits_put_same, bits_put_apart, bits_ofNat, BitVec.reduceExtractLsb', BitVec.zero_or, BitVec.or_zero]

/-- Row 350 of the opcode table. -/
theorem RoundTrip.mcrTtbr1 (cond rt) : RoundTrip.Statement (.mcrTtbr1 cond rt) := fun hwf => by
  have h : (cond != 15) = true := hwf
  suffices H : ∀ x, x = 0x0E020F30#32 ||| put cond 28 ||| put rt 12 → decodeWord x = .ok (.mcrTtbr1 cond rt) from H _ rfl
  intro x hx
  have hk : x &&& 0x0FFF0FFF = 0x0E020F30 := by simp (disch := decide) only [hx, or_and, put_and_apart]; rfl
  have hc : bits x 28 4 ≠ 15 := by
    simp (disch := decide) only [hx, bits_or, bits_put_same, bits_put_apart, bits_ofNat, BitVec.reduceExtractLsb', BitVec.zero_or, BitVec.or_zero]
    exact bne_iff_ne.mp h
  refine (decodeP15 hk hc (by decide) (by decide +kernel) rfl).trans ?_
  simp (disch := decide) only [hx, bits_or, bits_put_same, bits_put_apart, bits_ofNat, BitVec.reduceExtractLsb', BitVec.zero_or, BitVec.or_zero]

/-- Row 351 of the opcode table. -/
theorem RoundTrip.mrcTtbcr (cond rt) : RoundTrip.Statement (.mrcTtbcr cond rt) := fun hwf => by
  have h : (cond != 15) = true := hwf
  suffices H : ∀ x, x = 0x0E120F50#32 ||| put cond 28 ||| put rt 12 → decodeWord x = .ok (.mrcTtbcr cond rt) from H _ rfl
  intro x hx
  have hk : x &&& 0x0FFF0FFF = 0x0E120F50 := by simp (disch := decide) only [hx, or_and, put_and_apart]; rfl
  have hc : bits x 28 4 ≠ 15 := by
    simp (disch := decide) only [hx, bits_or, bits_put_same, bits_put_apart, bits_ofNat, BitVec.reduceExtractLsb', BitVec.zero_or, BitVec.or_zero]
    exact bne_iff_ne.mp h
  refine (decodeP15 hk hc (by decide) (by decide +kernel) rfl).trans ?_
  simp (disch := decide) only [hx, bits_or, bits_put_same, bits_put_apart, bits_ofNat, BitVec.reduceExtractLsb', BitVec.zero_or, BitVec.or_zero]

/-- Row 352 of the opcode table. -/
theorem RoundTrip.mcrTtbcr (cond rt) : RoundTrip.Statement (.mcrTtbcr cond rt) := fun hwf => by
  have h : (cond != 15) = true := hwf
  suffices H : ∀ x, x = 0x0E020F50#32 ||| put cond 28 ||| put rt 12 → decodeWord x = .ok (.mcrTtbcr cond rt) from H _ rfl
  intro x hx
  have hk : x &&& 0x0FFF0FFF = 0x0E020F50 := by simp (disch := decide) only [hx, or_and, put_and_apart]; rfl
  have hc : bits x 28 4 ≠ 15 := by
    simp (disch := decide) only [hx, bits_or, bits_put_same, bits_put_apart, bits_ofNat, BitVec.reduceExtractLsb', BitVec.zero_or, BitVec.or_zero]
    exact bne_iff_ne.mp h
  refine (decodeP15 hk hc (by decide) (by decide +kernel) rfl).trans ?_
  simp (disch := decide) only [hx, bits_or, bits_put_same, bits_put_apart, bits_ofNat, BitVec.reduceExtractLsb', BitVec.zero_or, BitVec.or_zero]

/-- Row 353 of the opcode table. -/
theorem RoundTrip.mrcDacr (cond rt) : RoundTrip.Statement (.mrcDacr cond rt) := fun hwf => by
  have h : (cond != 15) = true := hwf
  suffices H : ∀ x, x = 0x0E130F10#32 ||| put cond 28 ||| put rt 12 → decodeWord x = .ok (.mrcDacr cond rt) from H _ rfl
  intro x hx
  have hk : x &&& 0x0FFF0FFF = 0x0E130F10 := by simp (disch := decide) only [hx, or_and, put_and_apart]; rfl
  have hc : bits x 28 4 ≠ 15 := by
    simp (disch := decide) only [hx, bits_or, bits_put_same, bits_put_apart, bits_ofNat, BitVec.reduceExtractLsb', BitVec.zero_or, BitVec.or_zero]
    exact bne_iff_ne.mp h
  refine (decodeP15 hk hc (by decide) (by decide +kernel) rfl).trans ?_
  simp (disch := decide) only [hx, bits_or, bits_put_same, bits_put_apart, bits_ofNat, BitVec.reduceExtractLsb', BitVec.zero_or, BitVec.or_zero]

/-- Row 354 of the opcode table. -/
theorem RoundTrip.mcrDacr (cond rt) : RoundTrip.Statement (.mcrDacr cond rt) := fun hwf => by
  have h : (cond != 15) = true := hwf
  suffices H : ∀ x, x = 0x0E030F10#32 ||| put cond 28 ||| put rt 12 → decodeWord x = .ok (.mcrDacr cond rt) from H _ rfl
  intro x hx
  have hk : x &&& 0x0FFF0FFF = 0x0E030F10 := by simp (disch := decide) only [hx, or_and, put_and_apart]; rfl
  have hc : bits x 28 4 ≠ 15 := by
    simp (disch := decide) only [hx, bits_or, bits_put_same, bits_put_apart, bits_ofNat, BitVec.reduceExtractLsb', BitVec.zero_or, BitVec.or_zero]
    exact bne_iff_ne.mp h
  refine (decodeP15 hk hc (by decide) (by decide +kernel) rfl).trans ?_
  simp (disch := decide) only [hx, bits_or, bits_put_same, bits_put_apart, bits_ofNat, BitVec.reduceExtractLsb', BitVec.zero_or, BitVec.or_zero]

/-- Row 355 of the opcode table. -/
theorem RoundTrip.mrcDfsr (cond rt) : RoundTrip.Statement (.mrcDfsr cond rt) := fun hwf => by
  have h : (cond != 15) = true := hwf
  suffices H : ∀ x, x = 0x0E150F10#32 ||| put cond 28 ||| put rt 12 → decodeWord x = .ok (.mrcDfsr cond rt) from H _ rfl
  intro x hx
  have hk : x &&& 0x0FFF0FFF = 0x0E150F10 := by simp (disch := decide) only [hx, or_and, put_and_apart]; rfl
  have hc : bits x 28 4 ≠ 15 := by
    simp (disch := decide) only [hx, bits_or, bits_put_same, bits_put_apart, bits_ofNat, BitVec.reduceExtractLsb', BitVec.zero_or, BitVec.or_zero]
    exact bne_iff_ne.mp h
  refine (decodeP15 hk hc (by decide) (by decide +kernel) rfl).trans ?_
  simp (disch := decide) only [hx, bits_or, bits_put_same, bits_put_apart, bits_ofNat, BitVec.reduceExtractLsb', BitVec.zero_or, BitVec.or_zero]

/-- Row 356 of the opcode table. -/
theorem RoundTrip.mcrDfsr (cond rt) : RoundTrip.Statement (.mcrDfsr cond rt) := fun hwf => by
  have h : (cond != 15) = true := hwf
  suffices H : ∀ x, x = 0x0E050F10#32 ||| put cond 28 ||| put rt 12 → decodeWord x = .ok (.mcrDfsr cond rt) from H _ rfl
  intro x hx
  have hk : x &&& 0x0FFF0FFF = 0x0E050F10 := by simp (disch := decide) only [hx, or_and, put_and_apart]; rfl
  have hc : bits x 28 4 ≠ 15 := by
    simp (disch := decide) only [hx, bits_or, bits_put_same, bits_put_apart, bits_ofNat, BitVec.reduceExtractLsb', BitVec.zero_or, BitVec.or_zero]
    exact bne_iff_ne.mp h
  refine (decodeP15 hk hc (by decide) (by decide +kernel) rfl).trans ?_
  simp (disch := decide) only [hx, bits_or, bits_put_same, bits_put_apart, bits_ofNat, BitVec.reduceExtractLsb', BitVec.zero_or, BitVec.or_zero]

/-- Row 357 of the opcode table. -/
theorem RoundTrip.mrcIfsr (cond rt) : RoundTrip.Statement (.mrcIfsr cond rt) := fun hwf => by
  have h : (cond != 15) = true := hwf
  suffices H : ∀ x, x = 0x0E150F30#32 ||| put cond 28 ||| put rt 12 → decodeWord x = .ok (.mrcIfsr cond rt) from H _ rfl
  intro x hx
  have hk : x &&& 0x0FFF0FFF = 0x0E150F30 := by simp (disch := decide) only [hx, or_and, put_and_apart]; rfl
  have hc : bits x 28 4 ≠ 15 := by
    simp (disch := decide) only [hx, bits_or, bits_put_same, bits_put_apart, bits_ofNat, BitVec.reduceExtractLsb', BitVec.zero_or, BitVec.or_zero]
    exact bne_iff_ne.mp h
  refine (decodeP15 hk hc (by decide) (by decide +kernel) rfl).trans ?_
  simp (disch := decide) only [hx, bits_or, bits_put_same, bits_put_apart, bits_ofNat, BitVec.reduceExtractLsb', BitVec.zero_or, BitVec.or_zero]

/-- Row 358 of the opcode table. -/
theorem RoundTrip.mcrIfsr (cond rt) : RoundTrip.Statement (.mcrIfsr cond rt) := fun hwf => by
  have h : (cond != 15) = true := hwf
  suffices H : ∀ x, x = 0x0E050F30#32 ||| put cond 28 ||| put rt 12 → decodeWord x = .ok (.mcrIfsr cond rt) from H _ rfl
  intro x hx
  have hk : x &&& 0x0FFF0FFF = 0x0E050F30 := by simp (disch := decide) only [hx, or_and, put_and_apart]; rfl
  have hc : bits x 28 4 ≠ 15 := by
    simp (disch := decide) only [hx, bits_or, bits_put_same, bits_put_apart, bits_ofNat, BitVec.reduceExtractLsb', BitVec.zero_or, BitVec.or_zero]
    exact bne_iff_ne.mp h
  refine (decodeP15 hk hc (by decide) (by decide +kernel) rfl).trans ?_
  simp (disch := decide) only [hx, bits_or, bits_put_same, bits_put_apart, bits_ofNat, BitVec.reduceExtractLsb', BitVec.zero_or, BitVec.or_zero]

/-- Row 359 of the opcode table. -/
theorem RoundTrip.mrcAdfsr (cond rt) : RoundTrip.Statement (.mrcAdfsr cond rt) := fun hwf => by
  have h : (cond != 15) = true := hwf
  suffices H : ∀ x, x = 0x0E150F11#32 ||| put cond 28 ||| put rt 12 → decodeWord x = .ok (.mrcAdfsr cond rt) from H _ rfl
  intro x hx
  have hk : x &&& 0x0FFF0FFF = 0x0E150F11 := by simp (disch := decide) only [hx, or_and, put_and_apart]; rfl
  have hc : bits x 28 4 ≠ 15 := by
    simp (disch := decide) only [hx, bits_or, bits_put_same, bits_put_apart, bits_ofNat, BitVec.reduceExtractLsb', BitVec.zero_or, BitVec.or_zero]
    exact bne_iff_ne.mp h
  refine (decodeP15 hk hc (by decide) (by decide +kernel) rfl).trans ?_
  simp (disch := decide) only [hx, bits_or, bits_put_same, bits_put_apart, bits_ofNat, BitVec.reduceExtractLsb', BitVec.zero_or, BitVec.or_zero]

/-- Row 360 of the opcode table. -/
theorem RoundTrip.mcrAdfsr (cond rt) : RoundTrip.Statement (.mcrAdfsr cond rt) := fun hwf => by
  have h : (cond != 15) = true := hwf
  suffices H : ∀ x, x = 0x0E050F11#32 ||| put cond 28 ||| put rt 12 → decodeWord x = .ok (.mcrAdfsr cond rt) from H _ rfl
  intro x hx
  have hk : x &&& 0x0FFF0FFF = 0x0E050F11 := by simp (disch := decide) only [hx, or_and, put_and_apart]; rfl
  have hc : bits x 28 4 ≠ 15 := by
    simp (disch := decide) only [hx, bits_or, bits_put_same, bits_put_apart, bits_ofNat, BitVec.reduceExtractLsb', BitVec.zero_or, BitVec.or_zero]
    exact bne_iff_ne.mp h
  refine (decodeP15 hk hc (by decide) (by decide +kernel) rfl).trans ?_
  simp (disch := decide) only [hx, bits_or, bits_put_same, bits_put_apart, bits_ofNat, BitVec.reduceExtractLsb', BitVec.zero_or, BitVec.or_zero]

/-- Row 361 of the opcode table. -/
theorem RoundTrip.mrcAifsr (cond rt) : RoundTrip.Statement (.mrcAifsr cond rt) := fun hwf => by
  have h : (cond != 15) = true := hwf
  suffices H : ∀ x, x = 0x0E150F31#32 ||| put cond 28 ||| put rt 12 → decodeWord x = .ok (.mrcAifsr cond rt) from H _ rfl
  intro x hx
  have hk : x &&& 0x0FFF0FFF = 0x0E150F31 := by simp (disch := decide) only [hx, or_and, put_and_apart]; rfl
  have hc : bits x 28 4 ≠ 15 := by
    simp (disch := decide) only [hx, bits_or, bits_put_same, bits_put_apart, bits_ofNat, BitVec.reduceExtractLsb', BitVec.zero_or, BitVec.or_zero]
    exact bne_iff_ne.mp h
  refine (decodeP15 hk hc (by decide) (by decide +kernel) rfl).trans ?_
  simp (disch := decide) only [hx, bits_or, bits_put_same, bits_put_apart, bits_ofNat, BitVec.reduceExtractLsb', BitVec.zero_or, BitVec.or_zero]

/-- Row 362 of the opcode table. -/
theorem RoundTrip.mcrAifsr (cond rt) : RoundTrip.Statement (.mcrAifsr cond rt) := fun hwf => by
  have h : (cond != 15) = true := hwf
  suffices H : ∀ x, x = 0x0E050F31#32 ||| put cond 28 ||| put rt 12 → decodeWord x = .ok (.mcrAifsr cond rt) from H _ rfl
  intro x hx
  have hk : x &&& 0x0FFF0FFF = 0x0E050F31 := by simp (disch := decide) only [hx, or_and, put_and_apart]; rfl
  have hc : bits x 28 4 ≠ 15 := by
    simp (disch := decide) only [hx, bits_or, bits_put_same, bits_put_apart, bits_ofNat, BitVec.reduceExtractLsb', BitVec.zero_or, BitVec.or_zero]
    exact bne_iff_ne.mp h
  refine (decodeP15 hk hc (by decide) (by decide +kernel) rfl).trans ?_
  simp (disch := decide) only [hx, bits_or, bits_put_same, bits_put_apart, bits_ofNat, BitVec.reduceExtractLsb', BitVec.zero_or, BitVec.or_zero]

/-- Row 363 of the opcode table. -/
theorem RoundTrip.mrcDfar (cond rt) : RoundTrip.Statement (.mrcDfar cond rt) := fun hwf => by
  have h : (cond != 15) = true := hwf
  suffices H : ∀ x, x = 0x0E160F10#32 ||| put cond 28 ||| put rt 12 → decodeWord x = .ok (.mrcDfar cond rt) from H _ rfl
  intro x hx
  have hk : x &&& 0x0FFF0FFF = 0x0E160F10 := by simp (disch := decide) only [hx, or_and, put_and_apart]; rfl
  have hc : bits x 28 4 ≠ 15 := by
    simp (disch := decide) only [hx, bits_or, bits_put_same, bits_put_apart, bits_ofNat, BitVec.reduceExtractLsb', BitVec.zero_or, BitVec.or_zero]
    exact bne_iff_ne.mp h
  refine (decodeP15 hk hc (by decide) (by decide +kernel) rfl).trans ?_
  simp (disch := decide) only [hx, bits_or, bits_put_same, bits_put_apart, bits_ofNat, BitVec.reduceExtractLsb', BitVec.zero_or, BitVec.or_zero]

/-- Row 364 of the opcode table. -/
theorem RoundTrip.mcrDfar (cond rt) : RoundTrip.Statement (.mcrDfar cond rt) := fun hwf => by
  have h : (cond != 15) = true := hwf
  suffices H : ∀ x, x = 0x0E060F10#32 ||| put cond 28 ||| put rt 12 → decodeWord x = .ok (.mcrDfar cond rt) from H _ rfl
  intro x hx
  have hk : x &&& 0x0FFF0FFF = 0x0E060F10 := by simp (disch := decide) only [hx, or_and, put_and_apart]; rfl
  have hc : bits x 28 4 ≠ 15 := by
    simp (disch := decide) only [hx, bits_or, bits_put_same, bits_put_apart, bits_ofNat, BitVec.reduceExtractLsb', BitVec.zero_or, BitVec.or_zero]
    exact bne_iff_ne.mp h
  refine (decodeP15 hk hc (by decide) (by decide +kernel) rfl).trans ?_
  simp (disch := decide) only [hx, bits_or, bits_put_same, bits_put_apart, bits_ofNat, BitVec.reduceExtractLsb', BitVec.zero_or, BitVec.or_zero]

/-- Row 365 of the opcode table. -/
theorem RoundTrip.mrcIfar (cond rt) : RoundTrip.Statement (.mrcIfar cond rt) := fun hwf => by
  have h : (cond != 15) = true := hwf
  suffices H : ∀ x, x = 0x0E160F50#32 ||| put cond 28 ||| put rt 12 → decodeWord x = .ok (.mrcIfar cond rt) from H _ rfl
  intro x hx
  have hk : x &&& 0x0FFF0FFF = 0x0E160F50 := by simp (disch := decide) only [hx, or_and, put_and_apart]; rfl
  have hc : bits x 28 4 ≠ 15 := by
    simp (disch := decide) only [hx, bits_or, bits_put_same, bits_put_apart, bits_ofNat, BitVec.reduceExtractLsb', BitVec.zero_or, BitVec.or_zero]
    exact bne_iff_ne.mp h
  refine (decodeP15 hk hc (by decide) (by decide +kernel) rfl).trans ?_
  simp (disch := decide) only [hx, bits_or, bits_put_same, bits_put_apart, bits_ofNat, BitVec.reduceExtractLsb', BitVec.zero_or, BitVec.or_zero]

/-- Row 366 of the opcode table. -/
theorem RoundTrip.mcrIfar (cond rt) : RoundTrip.Statement (.mcrIfar cond rt) := fun hwf => by
  have h : (cond != 15) = true := hwf
  suffices H : ∀ x, x = 0x0E060F50#32 ||| put cond 28 ||| put rt 12 → decodeWord x = .ok (.mcrIfar cond rt) from H _ rfl
  intro x hx
  have hk : x &&& 0x0FFF0FFF = 0x0E060F50 := by simp (disch := decide) only [hx, or_and, put_and_apart]; rfl
  have hc : bits x 28 4 ≠ 15 := by
    simp (disch := decide) only [hx, bits_or, bits_put_same, bits_put_apart, bits_ofNat, BitVec.reduceExtractLsb', BitVec.zero_or, BitVec.or_zero]
    exact bne_iff_ne.mp h
  refine (decodeP15 hk hc (by decide) (by decide +kernel) rfl).trans ?_
  simp (disch := decide) only [hx, bits_or, bits_put_same, bits_put_apart, bits_ofNat, BitVec.reduceExtractLsb', BitVec.zero_or, BitVec.or_zero]

/-- Row 367 of the opcode table. -/
theorem RoundTrip.mcrWfiNop (cond rt) : RoundTrip.Statement (.mcrWfiNop cond rt) := fun hwf => by
  have h : (cond != 15) = true := hwf
  suffices H : ∀ x, x = 0x0E070F90#32 ||| put cond 28 ||| put rt 12 → decodeWord x = .ok (.mcrWfiNop cond rt) from H _ rfl
  intro x hx
  have hk : x &&& 0x0FFF0FFF = 0x0E070F90 := by simp (disch := decide) only [hx, or_and, put_and_apart]; rfl
  have hc : bits x 28 4 ≠ 15 := by
    simp (disch := decide) only [hx, bits_or, bits_put_same, bits_put_apart, bits_ofNat, BitVec.reduceExtractLsb', BitVec.zero_or, BitVec.or_zero]
    exact bne_iff_ne.mp h
  refine (decodeP15 hk hc (by decide) (by decide +kernel) rfl).trans ?_
  simp (disch := decide) only [hx, bits_or, bits_put_same, bits_put_apart, bits_ofNat, BitVec.reduceExtractLsb', BitVec.zero_or, BitVec.or_zero]

/-- Row 368 of the opcode table. -/
theorem RoundTrip.mrcPar (cond rt) : RoundTrip.Statement (.mrcPar cond rt) := fun hwf => by
  have h : (cond != 15) = true := hwf
  suffices H : ∀ x, x = 0x0E170F14#32 ||| put cond 28 ||| put rt 12 → decodeWord x = .ok (.mrcPar cond rt) from H _ rfl
  intro x hx
  have hk : x &&& 0x0FFF0FFF = 0x0E170F14 := by simp (disch := decide) only [hx, or_and, put_and_apart]; rfl
  have hc : bits x 28 4 ≠ 15 := by
    simp (disch := decide) only [hx, bits_or, bits_put_same, bits_put_apart, bits_ofNat, BitVec.reduceExtractLsb', BitVec.zero_or, BitVec.or_zero]
    exact bne_iff_ne.mp h
  refine (decodeP15 hk hc (by decide) (by decide +kernel) rfl).trans ?_
  simp (disch := decide) only [hx, bits_or, bits_put_same, bits_put_apart, bits_ofNat, BitVec.reduceExtractLsb', BitVec.zero_or, BitVec.or_zero]

/-- Row 369 of the opcode table. -/
theorem RoundTrip.mcrPar (cond rt) : RoundTrip.Statement (.mcrPar cond rt) := fun hwf => by
  have h : (cond != 15) = true := hwf
  suffices H : ∀ x, x = 0x0E070F14#32 ||| put cond 28 ||| put rt 12 → decodeWord x = .ok (.mcrPar cond rt) from H _ rfl
  intro x hx
  have hk : x &&& 0x0FFF0FFF = 0x0E070F14 := by simp (disch := decide) only [hx, or_and, put_and_apart]; rfl
  have hc : bits x 28 4 ≠ 15 := by
    simp (disch := decide) only [hx, bits_or, bits_put_same, bits_put_apart, bits_ofNat, BitVec.reduceExtractLsb', BitVec.zero_or, BitVec.or_zero]
    exact bne_iff_ne.mp h
  refine (decodeP15 hk hc (by decide) (by decide +kernel) rfl).trans ?_
  simp (disch := decide) only [hx, bits_or, bits_put_same, bits_put_apart, bits_ofNat, BitVec.reduceExtractLsb', BitVec.zero_or, BitVec.or_zero]

/-- Row 370 of the opcode table. -/
theorem RoundTrip.mcrIciallu (cond rt) : RoundTrip.Statement (.mcrIciallu cond rt) := fun hwf => by
  have h : (cond != 15) = true := hwf
  suffices H : ∀ x, x = 0x0E070F15#32 ||| put cond 28 ||| put rt 12 → decodeWord x = .ok (.mcrIciallu cond rt) from H _ rfl
  intro x hx
  have hk : x &&& 0x0FFF0FFF = 0x0E070F15 := by simp (disch := decide) only [hx, or_and, put_and_apart]; rfl
  have hc : bits x 28 4 ≠ 15 := by
    simp (disch := decide) only [hx, bits_or, bits_put_same, bits_put_apart, bits_ofNat, BitVec.reduceExtractLsb', BitVec.zero_or, BitVec.or_zero]
    exact bne_iff_ne.mp h
  refine (decodeP15 hk hc (by decide) (by decide +kernel) rfl).trans ?_
  simp (disch := decide) only [hx, bits_or, bits_put_same, bits_put_apart, bits_ofNat, BitVec.reduceExtractLsb', BitVec.zero_or, BitVec.or_zero]

/-- Row 371 of the opcode table. -/
theorem RoundTrip.mcrIcimvau (cond rt) : RoundTrip.Statement (.mcrIcimvau cond rt) := fun hwf => by
  have h : (cond != 15) = true := hwf
  suffices H : ∀ x, x = 0x0E070F35#32 ||| put cond 28 ||| put rt 12 → decodeWord x = .ok (.mcrIcimvau cond rt) from H _ rfl
  intro x hx
  have hk : x &&& 0x0FFF0FFF = 0x0E070F35 := by simp (disch := decide) only [hx, or_and, put_and_apart]; rfl
  have hc : bits x 28 4 ≠ 15 := by
    simp (disch := decide) only [hx, bits_or, bits_put_same, bits_put_apart, bits_ofNat, BitVec.reduceExtractLsb', BitVec.zero_or, BitVec.or_zero]
    exact bne_iff_ne.mp h
  refine (decodeP15 hk hc (by decide) (by decide +kernel) rfl).trans ?_
  simp (disch := decide) only [hx, bits_or, bits_put_same, bits_put_apart, bits_ofNat, BitVec.reduceExtractLsb', BitVec.zero_or, BitVec.or_zero]

/-- Row 372 of the opcode table. -/
theorem RoundTrip.mcrIsb (cond rt) : RoundTrip.Statement (.mcrIsb cond rt) := fun hwf => by
  have h : (cond != 15) = true := hwf
  suffices H : ∀ x, x = 0x0E070F95#32 ||| put cond 28 ||| put rt 12 → decodeWord x = .ok (.mcrIsb cond rt) from H _ rfl
  intro x hx
  have hk : x &&& 0x0FFF0FFF = 0x0E070F95 := by simp (disch := decide) only [hx, or_and, put_and_apart]; rfl
  have hc : bits x 28 4 ≠ 15 := by
    simp (disch := decide) only [hx, bits_or, bits_put_same, bits_put_apart, bits_ofNat, BitVec.reduceExtractLsb', BitVec.zero_or, BitVec.or_zero]
    exact bne_iff_ne.mp h
  refine (decodeP15 hk hc (by decide) (by decide +kernel) rfl).trans ?_
  simp (disch := decide) only [hx, bits_or, bits_put_same, bits_put_apart, bits_ofNat, BitVec.reduceExtractLsb', BitVec.zero_or, BitVec.or_zero]

/-- Row 373 of the opcode table. -/
theorem RoundTrip.mcrBpiall (cond rt) : RoundTrip.Statement (.mcrBpiall cond rt) := fun hwf => by
  have h : (cond != 15) = true := hwf
  suffices H : ∀ x, x = 0x0E070FD5#32 ||| put cond 28 ||| put rt 12 → decodeWord x = .ok (.mcrBpiall cond rt) from H _ rfl
  intro x hx
  have hk : x &&& 0x0FFF0FFF = 0x0E070FD5 := by simp (disch := decide) only [hx, or_and, put_and_apart]; rfl
  have hc : bits x 28 4 ≠ 15 := by
    simp (disch := decide) only [hx, bits_or, bits_put_same, bits_put_apart, bits_ofNat, BitVec.reduceExtractLsb', BitVec.zero_or, BitVec.or_zero]
    exact bne_iff_ne.mp h
  refine (decodeP15 hk hc (by decide) (by decide +kernel) rfl).trans ?_
  simp (disch := decide) only [hx, bits_or, bits_put_same, bits_put_apart, bits_ofNat, BitVec.reduceExtractLsb', BitVec.zero_or, BitVec.or_zero]

/-- Row 374 of the opcode table. -/
theorem RoundTrip.mcrBpimva (cond rt) : RoundTrip.Statement (.mcrBpimva cond rt) := fun hwf => by
  have h : (cond != 15) = true := hwf
  suffices H : ∀ x, x = 0x0E070FF5#32 ||| put cond 28 ||| put rt 12 → decodeWord x = .ok (.mcrBpimva cond rt) from H _ rfl
  intro x hx
  have hk : x &&& 0x0FFF0FFF = 0x0E070FF5 := by simp (disch := decide) only [hx, or_and, put_and_apart]; rfl
  have hc : bits x 28 4 ≠ 15 := by
    simp (disch := decide) only [hx, bits_or, bits_put_same, bits_put_apart, bits_ofNat, BitVec.reduceExtractLsb', BitVec.zero_or, BitVec.or_zero]
    exact bne_iff_ne.mp h
  refine (decodeP15 hk hc (by decide) (by decide +kernel) rfl).trans ?_
  simp (disch := decide) only [hx, bits_or, bits_put_same, bits_put_apart, bits_ofNat, BitVec.reduceExtractLsb', BitVec.zero_or, BitVec.or_zero]

/-- Row 375 of the opcode table. -/
theorem RoundTrip.mcrDcimvac (cond rt) : RoundTrip.Statement (.mcrDcimvac cond rt) := fun hwf => by
  have h : (cond != 15) = true := hwf
  suffices H : ∀ x, x = 0x0E070F36#32 ||| put cond 28 ||| put rt 12 → decodeWord x = .ok (.mcrDcimvac cond rt) from H _ rfl
  intro x hx
  have hk : x &&& 0x0FFF0FFF = 0x0E070F36 := by simp (disch := decide) only [hx, or_and, put_and_apart]; rfl
  have hc : bits x 28 4 ≠ 15 := by
    simp (disch := decide) only [hx, bits_or, bits_put_same, bits_put_apart, bits_ofNat, BitVec.reduceExtractLsb', BitVec.zero_or, BitVec.or_zero]
    exact bne_iff_ne.mp h
  refine (decodeP15 hk hc (by decide) (by decide +kernel) rfl).trans ?_
  simp (disch := decide) only [hx, bits_or, bits_put_same, bits_put_apart, bits_ofNat, BitVec.reduceExtractLsb', BitVec.zero_or, BitVec.or_zero]

/-- Row 376 of the opcode table. -/
theorem RoundTrip.mcrDcisw (cond rt) : RoundTrip.Statement (.mcrDcisw cond rt) := fun hwf => by
  have h : (cond != 15) = true := hwf
  suffices H : ∀ x, x = 0x0E070F56#32 ||| put cond 28 ||| put rt 12 → decodeWord x = .ok (.mcrDcisw cond rt) from H _ rfl
  intro x hx
  have hk : x &&& 0x0FFF0FFF = 0x0E070F56 := by simp (disch := decide) only [hx, or_and, put_and_apart]; rfl
  have hc : bits x 28 4 ≠ 15 := by
    simp (disch := decide) only [hx, bits_or, bits_put_same, bits_put_apart, bits_ofNat, BitVec.reduceExtractLsb', BitVec.zero_or, BitVec.or_zero]
    exact bne_iff_ne.mp h
  refine (decodeP15 hk hc (by decide) (by decide +kernel) rfl).trans ?_
  simp (disch := decide) only [hx, bits_or, bits_put_same, bits_put_apart, bits_ofNat, BitVec.reduceExtractLsb', BitVec.zero_or, BitVec.or_zero]

/-- Row 377 of the opcode table. -/
theorem RoundTrip.mcrVaPaCurPrivRead (cond rt) : RoundTrip.Statement (.mcrVaPaCurPrivRead cond rt) := fun hwf => by
  have h : (cond != 15) = true := hwf
  suffices H : ∀ x, x = 0x0E070F18#32 ||| put cond 28 ||| put rt 12 → decodeWord x = .ok (.mcrVaPaCurPrivRead cond rt) from H _ rfl
  intro x hx
  have hk : x &&& 0x0FFF0FFF = 0x0E070F18 := by simp (disch := decide) only [hx, or_and, put_and_apart]; rfl
  have hc : bits x 28 4 ≠ 15 := by
    simp (disch := decide) only [hx, bits_or, bits_put_same, bits_put_apart, bits_ofNat, BitVec.reduceExtractLsb', BitVec.zero_or, BitVec.or_zero]
    exact bne_iff_ne.mp h
  refine (decodeP15 hk hc (by decide) (by decide +kernel) rfl).trans ?_
  simp (disch := decide) only [hx, bits_or, bits_put_same, bits_put_apart, bits_ofNat, BitVec.reduceExtractLsb', BitVec.zero_or, BitVec.or_zero]

/-- Row 378 of the opcode table. -/
theorem RoundTrip.mcrVaPaCurPrivWrite (cond rt) : RoundTrip.Statement (.mcrVaPaCurPrivWrite cond rt) := fun hwf => by
  have h : (cond != 15) = true := hwf
  suffices H : ∀ x, x = 0x0E070F38#32 ||| put cond 28 ||| put rt 12 → decodeWord x = .ok (.mcrVaPaCurPrivWrite cond rt) from H _ rfl
  intro x hx
  have hk : x &&& 0x0FFF0FFF = 0x0E070F38 := by simp (disch := decide) only [hx, or_and, put_and_apart]; rfl
  have hc : bits x 28 4 ≠ 15 := by
    simp (disch := decide) only [hx, bits_or, bits_put_same, bits_put_apart, bits_ofNat, BitVec.reduceExtractLsb', BitVec.zero_or, BitVec.or_zero]
    exact bne_iff_ne.mp h
  refine (decodeP15 hk hc (by decide) (by decide +kernel) rfl).trans ?_
  simp (disch := decide) only [hx, bits_or, bits_put_same, bits_put_apart, bits_ofNat, BitVec.reduceExtractLsb', BitVec.zero_or, BitVec.or_zero]

/-- Row 379 of the opcode table. -/
theorem RoundTrip.mcrVaPaCurUserRead (cond rt) : RoundTrip.Statement (.mcrVaPaCurUserRead cond rt) := fun hwf => by
  have h : (cond != 15) = true := hwf
  suffices H : ∀ x, x = 0x0E070F58#32 ||| put cond 28 ||| put rt 12 → decodeWord x = .ok (.mcrVaPaCurUserRead cond rt) from H _ rfl
  intro x hx
  have hk : x &&& 0x0FFF0FFF = 0x0E070F58 := by simp (disch := decide) only [hx, or_and, put_and_apart]; rfl
  have hc : bits x 28 4 ≠ 15 := by
    simp (disch := decide) only [hx, bits_or, bits_put_same, bits_put_apart, bits_ofNat, BitVec.reduceExtractLsb', BitVec.zero_or, BitVec.or_zero]
    exact bne_iff_ne.mp h
  refine (decodeP15 hk hc (by decide) (by decide +kernel) rfl).trans ?_
  simp (disch := decide) only [hx, bits_or, bits_put_same, bits_put_apart, bits_ofNat, BitVec.reduceExtractLsb', BitVec.zero_or, BitVec.or_zero]

/-- Row 380 of the opcode table. -/
theorem RoundTrip.mcrVaPaCurUserWrite (cond rt) : RoundTrip.Statement (.mcrVaPaCurUserWrite cond rt) := fun hwf => by
  have h : (cond != 15) = true := hwf
  suffices H : ∀ x, x = 0x0E070F78#32 ||| put cond 28 ||| put rt 12 → decodeWord x = .ok (.mcrVaPaCurUserWrite cond rt) from H _ rfl
  intro x hx
  have hk : x &&& 0x0FFF0FFF = 0x0E070F78 := by simp (disch := decide) only [hx, or_and, put_and_apart]; rfl
  have hc : bits x 28 4 ≠ 15 := by
    simp (disch := decide) only [hx, bits_or, bits_put_same, bits_put_apart, bits_ofNat, BitVec.reduceExtractLsb', BitVec.zero_or, BitVec.or_zero]
    exact bne_iff_ne.mp h
  refine (decodeP15 hk hc (by decide) (by decide +kernel) rfl).trans ?_
  simp (disch := decide) only [hx, bits_or, bits_put_same, bits_put_apart, bits_ofNat, BitVec.reduceExtractLsb', BitVec.zero_or, BitVec.or_zero]

/-- Row 381 of the opcode table. -/
theorem RoundTrip.mcrVaPaOthPrivRead (cond rt) : RoundTrip.Statement (.mcrVaPaOthPrivRead cond rt) := fun hwf => by
  have h : (cond != 15) = true := hwf
  suffices H : ∀ x, x = 0x0E070F98#32 ||| put cond 28 ||| put rt 12 → decodeWord x = .ok (.mcrVaPaOthPrivRead cond rt) from H _ rfl
  intro x hx
  have hk : x &&& 0x0FFF0FFF = 0x0E070F98 := by simp (disch := decide) only [hx, or_and, put_and_apart]; rfl
  have hc : bits x 28 4 ≠ 15 := by
    simp (disch := decide) only [hx, bits_or, bits_put_same, bits_put_apart, bits_ofNat, BitVec.reduceExtractLsb', BitVec.zero_or, BitVec.or_zero]
    exact bne_iff_ne.mp h
  refine (decodeP15 hk hc (by decide) (by decide +kernel) rfl).trans ?_
  simp (disch := decide) only [hx, bits_or, bits_put_same, bits_put_apart, bits_ofNat, BitVec.reduceExtractLsb', BitVec.zero_or, BitVec.or_zero]

/-- Row 382 of the opcode table. -/
theorem RoundTrip.mcrVaPaOthPrivWrite (cond rt) : RoundTrip.Statement (.mcrVaPaOthPrivWrite cond rt) := fun hwf => by
  have h : (cond != 15) = true := hwf
  suffices H : ∀ x, x = 0x0E070FB8#32 ||| put cond 28 ||| put rt 12 → decodeWord x = .ok (.mcrVaPaOthPrivWrite cond rt) from H _ rfl
  intro x hx
  have hk : x &&& 0x0FFF0FFF = 0x0E070FB8 := by simp (disch := decide) only [hx, or_and, put_and_apart]; rfl
  have hc : bits x 28 4 ≠ 15 := by
    simp (disch := decide) only [hx, bits_or, bits_put_same, bits_put_apart, bits_ofNat, BitVec.reduceExtractLsb', BitVec.zero_or, BitVec.or_zero]
    exact bne_iff_ne.mp h
  refine (decodeP15 hk hc (by decide) (by decide +kernel) rfl).trans ?_
  simp (disch := decide) only [hx, bits_or, bits_put_same, bits_put_apart, bits_ofNat, BitVec.reduceExtractLsb', BitVec.zero_or, BitVec.or_zero]

/-- Row 383 of the opcode table. -/
theorem RoundTrip.mcrVaPaOthUserRead (cond rt) : RoundTrip.Statement (.mcrVaPaOthUserRead cond rt) := fun hwf => by
  have h : (cond != 15) = true := hwf
  suffices H : ∀ x, x = 0x0E070FD8#32 ||| put cond 28 ||| put rt 12 → decodeWord x = .ok (.mcrVaPaOthUserRead cond rt) from H _ rfl
  intro x hx
  have hk : x &&& 0x0FFF0FFF = 0x0E070FD8 := by simp (disch := decide) only [hx, or_and, put_and_apart]; rfl
  have hc : bits x 28 4 ≠ 15 := by
    simp (disch := decide) only [hx, bits_or, bits_put_same, bits_put_apart, bits_ofNat, BitVec.reduceExtractLsb', BitVec.zero_or, BitVec.or_zero]
    exact bne_iff_ne.mp h
  refine (decodeP15 hk hc (by decide) (by decide +kernel) rfl).trans ?_
  simp (disch := decide) only [hx, bits_or, bits_put_same, bits_put_apart, bits_ofNat, BitVec.reduceExtractLsb', BitVec.zero_or, BitVec.or_zero]

/-- Row 384 of the opcode table. -/
theorem RoundTrip.mcrVaPaOthUserWrite (cond rt) : RoundTrip.Statement (.mcrVaPaOthUserWrite cond rt) := fun hwf => by
  have h : (cond != 15) = true := hwf
  suffices H : ∀ x, x = 0x0E070FF8#32 ||| put cond 28 ||| put rt 12 → decodeWord x = .ok (.mcrVaPaOthUserWrite cond rt) from H _ rfl
  intro x hx
  have hk : x &&& 0x0FFF0FFF = 0x0E070FF8 := by simp (disch := decide) only [hx, or_and, put_and_apart]; rfl
  have hc : bits x 28 4 ≠ 15 := by
    simp (disch := decide) only [hx, bits_or, bits_put_same, bits_put_apart, bits_ofNat, BitVec.reduceExtractLsb', BitVec.zero_or, BitVec.or_zero]
    exact bne_iff_ne.mp h
  refine (decodeP15 hk hc (by decide) (by decide +kernel) rfl).trans ?_
  simp (disch := decide) only [hx, bits_or, bits_put_same, bits_put_apart, bits_ofNat, BitVec.reduceExtractLsb', BitVec.zero_or, BitVec.or_zero]

/-- Row 385 of the opcode table. -/
theorem RoundTrip.mcrDccmvac (cond rt) : RoundTrip.Statement (.mcrDccmvac cond rt) := fun hwf => by
  have h : (cond != 15) = true := hwf
  suffices H : ∀ x, x = 0x0E070F3A#32 ||| put cond 28 ||| put rt 12 → decodeWord x = .ok (.mcrDccmvac cond rt) from H _ rfl
  intro x hx
  have hk : x &&& 0x0FFF0FFF = 0x0E070F3A := by simp (disch := decide) only [hx, or_and, put_and_apart]; rfl
  have hc : bits x 28 4 ≠ 15 := by
    simp (disch := decide) only [hx, bits_or, bits_put_same, bits_put_apart, bits_ofNat, BitVec.reduceExtractLsb', BitVec.zero_or, BitVec.or_zero]
    exact bne_iff_ne.mp h
  refine (decodeP15 hk hc (by decide) (by decide +kernel) rfl).trans ?_
  simp (disch := decide) only [hx, bits_or, bits_put_same, bits_put_apart, bits_ofNat, BitVec.reduceExtractLsb', BitVec.zero_or, BitVec.or_zero]

/-- Row 386 of the opcode table. -/
theorem RoundTrip.mcrDccsw (cond rt) : RoundTrip.Statement (.mcrDccsw cond rt) := fun hwf => by
  have h : (cond != 15) = true := hwf
  suffices H : ∀ x, x = 0x0E070F5A#32 ||| put cond 28 ||| put rt 12 → decodeWord x = .ok (.mcrDccsw cond rt) from H _ rfl
  intro x hx
  have hk : x &&& 0x0FFF0FFF = 0x0E070F5A := by simp (disch := decide) only [hx, or_and, put_and_apart]; rfl
  have hc : bits x 28 4 ≠ 15 := by
    simp (disch := decide) only [hx, bits_or, bits_put_same, bits_put_apart, bits_ofNat, BitVec.reduceExtractLsb', BitVec.zero_or, BitVec.or_zero]
    exact bne_iff_ne.mp h
  refine (decodeP15 hk hc (by decide) (by decide +kernel) rfl).trans ?_
  simp (disch := decide) only [hx, bits_or, bits_put_same, bits_put_apart, bits_ofNat, BitVec.reduceExtractLsb', BitVec.zero_or, BitVec.or_zero]

/-- Row 387 of the opcode table. -/
theorem RoundTrip.mcrDsb (cond rt) : RoundTrip.Statement (.mcrDsb cond rt) := fun hwf => by
  have h : (cond != 15) = true := hwf
  suffices H : ∀ x, x = 0x0E070F9A#32 ||| put cond 28 ||| put rt 12 → decodeWord x = .ok (.mcrDsb cond rt) from H _ rfl
  intro x hx
  have hk : x &&& 0x0FFF0FFF = 0x0E070F9A := by simp (disch := decide) only [hx, or_and, put_and_apart]; rfl
  have hc : bits x 28 4 ≠ 15 := by
    simp (disch := decide) only [hx, bits_or, bits_put_same, bits_put_apart, bits_ofNat, BitVec.reduceExtractLsb', BitVec.zero_or, BitVec.or_zero]
    exact bne_iff_ne.mp h
  refine (decodeP15 hk hc (by decide) (by decide +kernel) rfl).trans ?_
  simp (disch := decide) only [hx, bits_or, bits_put_same, bits_put_apart, bits_ofNat, BitVec.reduceExtractLsb', BitVec.zero_or, BitVec.or_zero]

/-- Row 388 of the opcode table. -/
theorem RoundTrip.mcrDmb (cond rt) : RoundTrip.Statement (.mcrDmb cond rt) := fun hwf => by
  have h : (cond != 15) = true := hwf
  suffices H : ∀ x, x = 0x0E070FBA#32 ||| put cond 28 ||| put rt 12 → decodeWord x = .ok (.mcrDmb cond rt) from H _ rfl
  intro x hx
  have hk : x &&& 0x0FFF0FFF = 0x0E070FBA := by simp (disch := decide) only [hx, or_and, put_and_apart]; rfl
  have hc : bits x 28 4 ≠ 15 := by
    simp (disch := decide) only [hx, bits_or, bits_put_same, bits_put_apart, bits_ofNat, BitVec.reduceExtractLsb', BitVec.zero_or, BitVec.or_zero]
    exact bne_iff_ne.mp h
  refine (decodeP15 hk hc (by decide) (by decide +kernel) rfl).trans ?_
  simp (disch := decide) only [hx, bits_or, bits_put_same, bits_put_apart, bits_ofNat, BitVec.reduceExtractLsb', BitVec.zero_or, BitVec.or_zero]

/-- Row 389 of the opcode table. -/
theorem RoundTrip.mcrDccmvau (cond rt) : RoundTrip.Statement (.mcrDccmvau cond rt) := fun hwf => by
  have h : (cond != 15) = true := hwf
  suffices H : ∀ x, x = 0x0E070F3B#32 ||| put cond 28 ||| put rt 12 → decodeWord x = .ok (.mcrDccmvau cond rt) from H _ rfl
  intro x hx
  have hk : x &&& 0x0FFF0FFF = 0x0E070F3B := by simp (disch := decide) only [hx, or_and, put_and_apart]; rfl
  have hc : bits x 28 4 ≠ 15 := by
    simp (disch := decide) only [hx, bits_or, bits_put_same, bits_put_apart, bits_ofNat, BitVec.reduceExtractLsb', BitVec.zero_or, BitVec.or_zero]
    exact bne_iff_ne.mp h
  refine (decodeP15 hk hc (by decide) (by decide +kernel) rfl).trans ?_
  simp (disch := decide) only [hx, bits_or, bits_put_same, bits_put_apart, bits_ofNat, BitVec.reduceExtractLsb', BitVec.zero_or, BitVec.or_zero]

/-- Row 390 of the opcode table. -/
theorem RoundTrip.mcrDccimvac (cond rt) : RoundTrip.Statement (.mcrDccimvac cond rt) := fun hwf => by
  have h : (cond != 15) = true := hwf
  suffices H : ∀ x, x = 0x0E070F3E#32 ||| put cond 28 ||| put rt 12 → decodeWord x = .ok (.mcrDccimvac cond rt) from H _ rfl
  intro x hx
  have hk : x &&& 0x0FFF0FFF = 0x0E070F3E := by simp (disch := decide) only [hx, or_and, put_and_apart]; rfl
  have hc : bits x 28 4 ≠ 15 := by
    simp (disch := decide) only [hx, bits_or, bits_put_same, bits_put_apart, bits_ofNat, BitVec.reduceExtractLsb', BitVec.zero_or, BitVec.or_zero]
    exact bne_iff_ne.mp h
  refine (decodeP15 hk hc (by decide) (by decide +kernel) rfl).trans ?_
  simp (disch := decide) only [hx, bits_or, bits_put_same, bits_put_apart, bits_ofNat, BitVec.reduceExtractLsb', BitVec.zero_or, BitVec.or_zero]

/-- Row 391 of the opcode table. -/
theorem RoundTrip.mcrDccisw (cond rt) : RoundTrip.Statement (.mcrDccisw cond rt) := fun hwf => by
  have h : (cond != 15) = true := hwf
  suffices H : ∀ x, x = 0x0E070F5E#32 ||| put cond 28 ||| put rt 12 → decodeWord x = .ok (.mcrDccisw cond rt) from H _ rfl
  intro x hx
  have hk : x &&& 0x0FFF0FFF = 0x0E070F5E := by simp (disch := decide) only [hx, or_and, put_and_apart]; rfl
  have hc : bits x 28 4 ≠ 15 := by
    simp (disch := decide) only [hx, bits_or, bits_put_same, bits_put_apart, bits_ofNat, BitVec.reduceExtractLsb', BitVec.zero_or, BitVec.or_zero]
    exact bne_iff_ne.mp h
  refine (decodeP15 hk hc (by decide) (by decide +kernel) rfl).trans ?_
  simp (disch := decide) only [hx, bits_or, bits_put_same, bits_put_apart, bits_ofNat, BitVec.reduceExtractLsb', BitVec.zero_or, BitVec.or_zero]

/-- Row 392 of the opcode table. -/
theorem RoundTrip.mcrItlbiall (cond rt) : RoundTrip.Statement (.mcrItlbiall cond rt) := fun hwf => by
  have h : (cond != 15) = true := hwf
  suffices H : ∀ x, x = 0x0E080F15#32 ||| put cond 28 ||| put rt 12 → decodeWord x = .ok (.mcrItlbiall cond rt) from H _ rfl
  intro x hx
  have hk : x &&& 0x0FFF0FFF = 0x0E080F15 := by simp (disch := decide) only [hx, or_and, put_and_apart]; rfl
  have hc : bits x 28 4 ≠ 15 := by
    simp (disch := decide) only [hx, bits_or, bits_put_same, bits_put_apart, bits_ofNat, BitVec.reduceExtractLsb', BitVec.zero_or, BitVec.or_zero]
    exact bne_iff_ne.mp h
  refine (decodeP15 hk hc (by decide) (by decide +kernel) rfl).trans ?_
  simp (disch := decide) only [hx, bits_or, bits_put_same, bits_put_apart, bits_ofNat, BitVec.reduceExtractLsb', BitVec.zero_or, BitVec.or_zero]

/-- Row 393 of the opcode table. -/
theorem RoundTrip.mcrItlbimva (cond rt) : RoundTrip.Statement (.mcrItlbimva cond rt) := fun hwf => by
  have h : (cond != 15) = true := hwf
  suffices H : ∀ x, x = 0x0E080F35#32 ||| put cond 28 ||| put rt 12 → decodeWord x = .ok (.mcrItlbimva cond rt) from H _ rfl
  intro x hx
  have hk : x &&& 0x0FFF0FFF = 0x0E080F35 := by simp (disch := decide) only [hx, or_and, put_and_apart]; rfl
  have hc : bits x 28 4 ≠ 15 := by
    simp (disch := decide) only [hx, bits_or, bits_put_same, bits_put_apart, bits_ofNat, BitVec.reduceExtractLsb', BitVec.zero_or, BitVec.or_zero]
    exact bne_iff_ne.mp h
  refine (decodeP15 hk hc (by decide) (by decide +kernel) rfl).trans ?_
  simp (disch := decide) only [hx, bits_or, bits_put_same, bits_put_apart, bits_ofNat, BitVec.reduceExtractLsb', BitVec.zero_or, BitVec.or_zero]

/-- Row 394 of the opcode table. -/
theorem RoundTrip.mcrItlbiasid (cond rt) : RoundTrip.Statement (.mcrItlbiasid cond rt) := fun hwf => by
  have h : (cond != 15) = true := hwf
  suffices H : ∀ x, x = 0x0E080F55#32 ||| put cond 28 ||| put rt 12 → decodeWord x = .ok (.mcrItlbiasid cond rt) from H _ rfl
  intro x hx
  have hk : x &&& 0x0FFF0FFF = 0x0E080F55 := by simp (disch := decide) only [hx, or_and, put_and_apart]; rfl
  have hc : bits x 28 4 ≠ 15 := by
    simp (disch := decide) only [hx, bits_or, bits_put_same, bits_put_apart, bits_ofNat, BitVec.reduceExtractLsb', BitVec.zero_or, BitVec.or_zero]
    exact bne_iff_ne.mp h
  refine (decodeP15 hk hc (by decide) (by decide +kernel) rfl).trans ?_
  simp (disch := decide) only [hx, bits_or, bits_put_same, bits_put_apart, bits_ofNat, BitVec.reduceExtractLsb', BitVec.zero_or, BitVec.or_zero]

/-- Row 395 of the opcode table. -/
theorem RoundTrip.mcrDtlbiall (cond rt) : RoundTrip.Statement (.mcrDtlbiall cond rt) := fun hwf => by
  have h : (cond != 15) = true := hwf
  suffices H : ∀ x, x = 0x0E080F16#32 ||| put cond 28 ||| put rt 12 → decodeWord x = .ok (.mcrDtlbiall cond rt) from H _ rfl
  intro x hx
  have hk : x &&& 0x0FFF0FFF = 0x0E080F16 := by simp (disch := decide) only [hx, or_and, put_and_apart]; rfl
  have hc : bits x 28 4 ≠ 15 := by
    simp (disch := decide) only [hx, bits_or, bits_put_same, bits_put_apart, bits_ofNat, BitVec.reduceExtractLsb', BitVec.zero_or, BitVec.or_zero]
    exact bne_iff_ne.mp h
  refine (decodeP15 hk hc (by decide) (by decide +kernel) rfl).trans ?_
  simp (disch := decide) only [hx, bits_or, bits_put_same, bits_put_apart, bits_ofNat, BitVec.reduceExtractLsb', BitVec.zero_or, BitVec.or_zero]

/-- Row 396 of the opcode table. -/
theorem RoundTrip.mcrDtlbimva (cond rt) : RoundTrip.Statement (.mcrDtlbimva cond rt) := fun hwf => by
  have h : (cond != 15) = true := hwf
  suffices H : ∀ x, x = 0x0E080F36#32 ||| put cond 28 ||| put rt 12 → decodeWord x = .ok (.mcrDtlbimva cond rt) from H _ rfl
  intro x hx
  have hk : x &&& 0x0FFF0FFF = 0x0E080F36 := by simp (disch := decide) only [hx, or_and, put_and_apart]; rfl
  have hc : bits x 28 4 ≠ 15 := by
    simp (disch := decide) only [hx, bits_or, bits_put_same, bits_put_apart, bits_ofNat, BitVec.reduceExtractLsb', BitVec.zero_or, BitVec.or_zero]
    exact bne_iff_ne.mp h
  refine (decodeP15 hk hc (by decide) (by decide +kernel) rfl).trans ?_
  simp (disch := decide) only [hx, bits_or, bits_put_same, bits_put_apart, bits_ofNat, BitVec.reduceExtractLsb', BitVec.zero_or, BitVec.or_zero]

/-- Row 397 of the opcode table. -/
theorem RoundTrip.mcrDtlbiasid (cond rt) : RoundTrip.Statement (.mcrDtlbiasid cond rt) := fun hwf => by
  have h : (cond != 15) = true := hwf
  suffices H : ∀ x, x = 0x0E080F56#32 ||| put cond 28 ||| put rt 12 → decodeWord x = .ok (.mcrDtlbiasid cond rt) from H _ rfl
  intro x hx
  have hk : x &&& 0x0FFF0FFF = 0x0E080F56 := by simp (disch := decide) only [hx, or_and, put_and_apart]; rfl
  have hc : bits x 28 4 ≠ 15 := by
    simp (disch := decide) only [hx, bits_or, bits_put_same, bits_put_apart, bits_ofNat, BitVec.reduceExtractLsb', BitVec.zero_or, BitVec.or_zero]
    exact bne_iff_ne.mp h
  refine (decodeP15 hk hc (by decide) (by decide +kernel) rfl).trans ?_
  simp (disch := decide) only [hx, bits_or, bits_put_same, bits_put_apart, bits_ofNat, BitVec.reduceExtractLsb', BitVec.zero_or, BitVec.or_zero]

/-- Row 398 of the opcode table. -/
theorem RoundTrip.mcrTlbiall (cond rt) : RoundTrip.Statement (.mcrTlbiall cond rt) := fun hwf => by
  have h : (cond != 15) = true := hwf
  suffices H : ∀ x, x = 0x0E080F17#32 ||| put cond 28 ||| put rt 12 → decodeWord x = .ok (.mcrTlbiall cond rt) from H _ rfl
  intro x hx
  have hk : x &&& 0x0FFF0FFF = 0x0E080F17 := by simp (disch := decide) only [hx, or_and, put_and_apart]; rfl
  have hc : bits x 28 4 ≠ 15 := by
    simp (disch := decide) only [hx, bits_or, bits_put_same, bits_put_apart, bits_ofNat, BitVec.reduceExtractLsb', BitVec.zero_or, BitVec.or_zero]
    exact bne_iff_ne.mp h
  refine (decodeP15 hk hc (by decide) (by decide +kernel) rfl).trans ?_
  simp (disch := decide) only [hx, bits_or, bits_put_same, bits_put_apart, bits_ofNat, BitVec.reduceExtractLsb', BitVec.zero_or, BitVec.or_zero]

/-- Row 399 of the opcode table. -/
theorem RoundTrip.mcrTlbimva (cond rt) : RoundTrip.Statement (.mcrTlbimva cond rt) := fun hwf => by
  have h : (cond != 15) = true := hwf
  suffices H : ∀ x, x = 0x0E080F37#32 ||| put cond 28 ||| put rt 12 → decodeWord x = .ok (.mcrTlbimva cond rt) from H _ rfl
  intro x hx
  have hk : x &&& 0x0FFF0FFF = 0x0E080F37 := by simp (disch := decide) only [hx, or_and, put_and_apart]; rfl
  have hc : bits x 28 4 ≠ 15 := by
    simp (disch := decide) only [hx, bits_or, bits_put_same, bits_put_apart, bits_ofNat, BitVec.reduceExtractLsb', BitVec.zero_or, BitVec.or_zero]
    exact bne_iff_ne.mp h
  refine (decodeP15 hk hc (by decide) (by decide +kernel) rfl).trans ?_
  simp (disch := decide) only [hx, bits_or, bits_put_same, bits_put_apart, bits_ofNat, BitVec.reduceExtractLsb', BitVec.zero_or, BitVec.or_zero]

/-- Row 400 of the opcode table. -/
theorem RoundTrip.mcrTlbiasid (cond rt) : RoundTrip.Statement (.mcrTlbiasid cond rt) := fun hwf => by
  have h : (cond != 15) = true := hwf
  suffices H : ∀ x, x = 0x0E080F57#32 ||| put cond 28 ||| put rt 12 → decodeWord x = .ok (.mcrTlbiasid cond rt) from H _ rfl
  intro x hx
  have hk : x &&& 0x0FFF0FFF = 0x0E080F57 := by simp (disch := decide) only [hx, or_and, put_and_apart]; rfl
  have hc : bits x 28 4 ≠ 15 := by
    simp (disch := decide) only [hx, bits_or, bits_put_same, bits_put_apart, bits_ofNat, BitVec.reduceExtractLsb', BitVec.zero_or, BitVec.or_zero]
    exact bne_iff_ne.mp h
  refine (decodeP15 hk hc (by decide) (by decide +kernel) rfl).trans ?_
  simp (disch := decide) only [hx, bits_or, bits_put_same, bits_put_apart, bits_ofNat, BitVec.reduceExtractLsb', BitVec.zero_or, BitVec.or_zero]

/-- Row 401 of the opcode table. -/
theorem RoundTrip.mrcPmnc (cond rt) : RoundTrip.Statement (.mrcPmnc cond rt) := fun hwf => by
  have h : (cond != 15) = true := hwf
  suffices H : ∀ x, x = 0x0E190F1C#32 ||| put cond 28 ||| put rt 12 → decodeWord x = .ok (.mrcPmnc cond rt) from H _ rfl
  intro x hx
  have hk : x &&& 0x0FFF0FFF = 0x0E190F1C := by simp (disch := decide) only [hx, or_and, put_and_apart]; rfl
  have hc : bits x 28 4 ≠ 15 := by
    simp (disch := decide) only [hx, bits_or, bits_put_same, bits_put_apart, bits_ofNat, BitVec.reduceExtractLsb', BitVec.zero_or, BitVec.or_zero]
    exact bne_iff_ne.mp h
  refine (decodeP15 hk hc (by decide) (by decide +kernel) rfl).trans ?_
  simp (disch := decide) only [hx, bits_or, bits_put_same, bits_put_apart, bits_ofNat, BitVec.reduceExtractLsb', BitVec.zero_or, BitVec.or_zero]

/-- Row 402 of the opcode table. -/
theorem RoundTrip.mcrPmnc (cond rt) : RoundTrip.Statement (.mcrPmnc cond rt) := fun hwf => by
  have h : (cond != 15) = true := hwf
  suffices H : ∀ x, x = 0x0E090F1C#32 ||| put cond 28 ||| put rt 12 → decodeWord x = .ok (.mcrPmnc cond rt) from H _ rfl
  intro x hx
  have hk : x &&& 0x0FFF0FFF = 0x0E090F1C := by simp (disch := decide) only [hx, or_and, put_and_apart]; rfl
  have hc : bits x 28 4 ≠ 15 := by
    simp (disch := decide) only [hx, bits_or, bits_put_same, bits_put_apart, bits_ofNat, BitVec.reduceExtractLsb', BitVec.zero_or, BitVec.or_zero]
    exact bne_iff_ne.mp h
  refine (decodeP15 hk hc (by decide) (by decide +kernel) rfl).trans ?_
  simp (disch := decide) only [hx, bits_or, bits_put_same, bits_put_apart, bits_ofNat, BitVec.reduceExtractLsb', BitVec.zero_or, BitVec.or_zero]

/-- Row 403 of the opcode table. -/
theorem RoundTrip.mrcCntens (cond rt) : RoundTrip.Statement (.mrcCntens cond rt) := fun hwf => by
  have h : (cond != 15) = true := hwf
  suffices H : ∀ x, x = 0x0E190F3C#32 ||| put cond 28 ||| put rt 12 → decodeWord x = .ok (.mrcCntens cond rt) from H _ rfl
  intro x hx
  have hk : x &&& 0x0FFF0FFF = 0x0E190F3C := by simp (disch := decide) only [hx, or_and, put_and_apart]; rfl
  have hc : bits x 28 4 ≠ 15 := by
    simp (disch := decide) only [hx, bits_or, bits_put_same, bits_put_apart, bits_ofNat, BitVec.reduceExtractLsb', BitVec.zero_or, BitVec.or_zero]
    exact bne_iff_ne.mp h
  refine (decodeP15 hk hc (by decide) (by decide +kernel) rfl).trans ?_
  simp (disch := decide) only [hx, bits_or, bits_put_same, bits_put_apart, bits_ofNat, BitVec.reduceExtractLsb', BitVec.zero_or, BitVec.or_zero]

/-- Row 404 of the opcode table. -/
theorem RoundTrip.mcrCntens (cond rt) : RoundTrip.Statement (.mcrCntens cond rt) := fun hwf => by
  have h : (cond != 15) = true := hwf
  suffices H : ∀ x, x = 0x0E090F3C#32 ||| put cond 28 ||| put rt 12 → decodeWord x = .ok (.mcrCntens cond rt) from H _ rfl
  intro x hx
  have hk : x &&& 0x0FFF0FFF = 0x0E090F3C := by simp (disch := decide) only [hx, or_and, put_and_apart]; rfl
  have hc : bits x 28 4 ≠ 15 := by
    simp (disch := decide) only [hx, bits_or, bits_put_same, bits_put_apart, bits_ofNat, BitVec.reduceExtractLsb', BitVec.zero_or, BitVec.or_zero]
    exact bne_iff_ne.mp h
  refine (decodeP15 hk hc (by decide) (by decide +kernel) rfl).trans ?_
  simp (disch := decide) only [hx, bits_or, bits_put_same, bits_put_apart, bits_ofNat, BitVec.reduceExtractLsb', BitVec.zero_or, BitVec.or_zero]

/-- Row 405 of the opcode table. -/
theorem RoundTrip.mrcCntenc (cond rt) : RoundTrip.Statement (.mrcCntenc cond rt) := fun hwf => by
  have h : (cond != 15) = true := hwf
  suffices H : ∀ x, x = 0x0E190F5C#32 ||| put cond 28 ||| put rt 12 → decodeWord x = .ok (.mrcCntenc cond rt) from H _ rfl
  intro x hx
  have hk : x &&& 0x0FFF0FFF = 0x0E190F5C := by simp (disch := decide) only [hx, or_and, put_and_apart]; rfl
  have hc : bits x 28 4 ≠ 15 := by
    simp (disch := decide) only [hx, bits_or, bits_put_same, bits_put_apart, bits_ofNat, BitVec.reduceExtractLsb', BitVec.zero_or, BitVec.or_zero]
    exact bne_iff_ne.mp h
  refine (decodeP15 hk hc (by decide) (by decide +kernel) rfl).trans ?_
  simp (disch := decide) only [hx, bits_or, bits_put_same, bits_put_apart, bits_ofNat, BitVec.reduceExtractLsb', BitVec.zero_or, BitVec.or_zero]

/-- Row 406 of the opcode table. -/
theorem RoundTrip.mcrCntenc (cond rt) : RoundTrip.Statement (.mcrCntenc cond rt) := fun hwf => by
  have h : (cond != 15) = true := hwf
  suffices H : ∀ x, x = 0x0E090F5C#32 ||| put cond 28 ||| put rt 12 → decodeWord x = .ok (.mcrCntenc cond rt) from H _ rfl
  intro x hx
  have hk : x &&& 0x0FFF0FFF = 0x0E090F5C := by simp (disch := decide) only [hx, or_and, put_and_apart]; rfl
  have hc : bits x 28 4 ≠ 15 := by
    simp (disch := decide) only [hx, bits_or, bits_put_same, bits_put_apart, bits_ofNat, BitVec.reduceExtractLsb', BitVec.zero_or, BitVec.or_zero]
    exact bne_iff_ne.mp h
  refine (decodeP15 hk hc (by decide) (by decide +kernel) rfl).trans ?_
  simp (disch := decide) only [hx, bits_or, bits_put_same, bits_put_apart, bits_ofNat, BitVec.reduceExtractLsb', BitVec.zero_or, BitVec.or_zero]

/-- Row 407 of the opcode table. -/
theorem RoundTrip.mrcFlag (cond rt) : RoundTrip.Statement (.mrcFlag cond rt) := fun hwf => by
  have h : (cond != 15) = true := hwf
  suffices H : ∀ x, x = 0x0E190F7C#32 ||| put cond 28 ||| put rt 12 → decodeWord x = .ok (.mrcFlag cond rt) from H _ rfl
  intro x hx
  have hk : x &&& 0x0FFF0FFF = 0x0E190F7C := by simp (disch := decide) only [hx, or_and, put_and_apart]; rfl
  have hc : bits x 28 4 ≠ 15 := by
    simp (disch := decide) only [hx, bits_or, bits_put_same, bits_put_apart, bits_ofNat, BitVec.reduceExtractLsb', BitVec.zero_or, BitVec.or_zero]
    exact bne_iff_ne.mp h
  refine (decodeP15 hk hc (by decide) (by decide +kernel) rfl).trans ?_
  simp (disch := decide) only [hx, bits_or, bits_put_same, bits_put_apart, bits_ofNat, BitVec.reduceExtractLsb', BitVec.zero_or, BitVec.or_zero]

/-- Row 408 of the opcode table. -/
theorem RoundTrip.mcrFlag (cond rt) : RoundTrip.Statement (.mcrFlag cond rt) := fun hwf => by
  have h : (cond != 15) = true := hwf
  suffices H : ∀ x, x = 0x0E090F7C#32 ||| put cond 28 ||| put rt 12 → decodeWord x = .ok (.mcrFlag cond rt) from H _ rfl
  intro x hx
  have hk : x &&& 0x0FFF0FFF = 0x0E090F7C := by simp (disch := decide) only [hx, or_and, put_and_apart]; rfl
  have hc : bits x 28 4 ≠ 15 := by
    simp (disch := decide) only [hx, bits_or, bits_put_same, bits_put_apart, bits_ofNat, BitVec.reduceExtractLsb', BitVec.zero_or, BitVec.or_zero]
    exact bne_iff_ne.mp h
  refine (decodeP15 hk hc (by decide) (by decide +kernel) rfl).trans ?_
  simp (disch := decide) only [hx, bits_or, bits_put_same, bits_put_apart, bits_ofNat, BitVec.reduceExtractLsb', BitVec.zero_or, BitVec.or_zero]

/-- Row 409 of the opcode table. -/
theorem RoundTrip.mrcSwincr (cond rt) : RoundTrip.Statement (.mrcSwincr cond rt) := fun hwf => by
  have h : (cond != 15) = true := hwf
  suffices H : ∀ x, x = 0x0E190F9C#32 ||| put cond 28 ||| put rt 12 → decodeWord x = .ok (.mrcSwincr cond rt) from H _ rfl
  intro x hx
  have hk : x &&& 0x0FFF0FFF = 0x0E190F9C := by simp (disch := decide) only [hx, or_and, put_and_apart]; rfl
  have hc : bits x 28 4 ≠ 15 := by
    simp (disch := decide) only [hx, bits_or, bits_put_same, bits_put_apart, bits_ofNat, BitVec.reduceExtractLsb', BitVec.zero_or, BitVec.or_zero]
    exact bne_iff_ne.mp h
  refine (decodeP15 hk hc (by decide) (by decide +kernel) rfl).trans ?_
  simp (disch := decide) only [hx, bits_or, bits_put_same, bits_put_apart, bits_ofNat, BitVec.reduceExtractLsb', BitVec.zero_or, BitVec.or_zero]

/-- Row 410 of the opcode table. -/
theorem RoundTrip.mcrSwincr (cond rt) : RoundTrip.Statement (.mcrSwincr cond rt) := fun hwf => by
  have h : (cond != 15) = true := hwf
  suffices H : ∀ x, x = 0x0E090F9C#32 ||| put cond 28 ||| put rt 12 → decodeWord x = .ok (.mcrSwincr cond rt) from H _ rfl
  intro x hx
  have hk : x &&& 0x0FFF0FFF = 0x0E090F9C := by simp (disch := decide) only [hx, or_and, put_and_apart]; rfl
  have hc : bits x 28 4 ≠ 15 := by
    simp (disch := decide) only [hx, bits_or, bits_put_same, bits_put_apart, bits_ofNat, BitVec.reduceExtractLsb', BitVec.zero_or, BitVec.or_zero]
    exact bne_iff_ne.mp h
  refine (decodeP15 hk hc (by decide) (by decide +kernel) rfl).trans ?_
  simp (disch := decide) only [hx, bits_or, bits_put_same, bits_put_apart, bits_ofNat, BitVec.reduceExtractLsb', BitVec.zero_or, BitVec.or_zero]

/-- Row 411 of the opcode table. -/
theorem RoundTrip.mrcPmnxsel (cond rt) : RoundTrip.Statement (.mrcPmnxsel cond rt) := fun hwf => by
  have h : (cond != 15) = true := hwf
  suffices H : ∀ x, x = 0x0E190FBC#32 ||| put cond 28 ||| put rt 12 → decodeWord x = .ok (.mrcPmnxsel cond rt) from H _ rfl
  intro x hx
  have hk : x &&& 0x0FFF0FFF = 0x0E190FBC := by simp (disch := decide) only [hx, or_and, put_and_apart]; rfl
  have hc : bits x 28 4 ≠ 15 := by
    simp (disch := decide) only [hx, bits_or, bits_put_same, bits_put_apart, bits_ofNat, BitVec.reduceExtractLsb', BitVec.zero_or, BitVec.or_zero]
    exact bne_iff_ne.mp h
  refine (decodeP15 hk hc (by decide) (by decide +kernel) rfl).trans ?_
  simp (disch := decide) only [hx, bits_or, bits_put_same, bits_put_apart, bits_ofNat, BitVec.reduceExtractLsb', BitVec.zero_or, BitVec.or_zero]

/-- Row 412 of the opcode table. -/
theorem RoundTrip.mcrPmnxsel (cond rt) : RoundTrip.Statement (.mcrPmnxsel cond rt) := fun hwf => by
  have h : (cond != 15) = true := hwf
  suffices H : ∀ x, x = 0x0E090FBC#32 ||| put cond 28 ||| put rt 12 → decodeWord x = .ok (.mcrPmnxsel cond rt) from H _ rfl
  intro x hx
  have hk : x &&& 0x0FFF0FFF = 0x0E090FBC := by simp (disch := decide) only [hx, or_and, put_and_apart]; rfl
  have hc : bits x 28 4 ≠ 15 := by
    simp (disch := decide) only [hx, bits_or, bits_put_same, bits_put_apart, bits_ofNat, BitVec.reduceExtractLsb', BitVec.zero_or, BitVec.or_zero]
    exact bne_iff_ne.mp h
  refine (decodeP15 hk hc (by decide) (by decide +kernel) rfl).trans ?_
  simp (disch := decide) only [hx, bits_or, bits_put_same, bits_put_apart, bits_ofNat, BitVec.reduceExtractLsb', BitVec.zero_or, BitVec.or_zero]

/-- Row 413 of the opcode table. -/
theorem RoundTrip.mrcCcnt (cond rt) : RoundTrip.Statement (.mrcCcnt cond rt) := fun hwf => by
  have h : (cond != 15) = true := hwf
  suffices H : ∀ x, x = 0x0E190F1D#32 ||| put cond 28 ||| put rt 12 → decodeWord x = .ok (.mrcCcnt cond rt) from H _ rfl
  intro x hx
  have hk : x &&& 0x0FFF0FFF = 0x0E190F1D := by simp (disch := decide) only [hx, or_and, put_and_apart]; rfl
  have hc : bits x 28 4 ≠ 15 := by
    simp (disch := decide) only [hx, bits_or, bits_put_same, bits_put_apart, bits_ofNat, BitVec.reduceExtractLsb', BitVec.zero_or, BitVec.or_zero]
    exact bne_iff_ne.mp h
  refine (decodeP15 hk hc (by decide) (by decide +kernel) rfl).trans ?_
  simp (disch := decide) only [hx, bits_or, bits_put_same, bits_put_apart, bits_ofNat, BitVec.reduceExtractLsb', BitVec.zero_or, BitVec.or_zero]

/-- Row 414 of the opcode table. -/
theorem RoundTrip.mcrCcnt (cond rt) : RoundTrip.Statement (.mcrCcnt cond rt) := fun hwf => by
  have h : (cond != 15) = true := hwf
  suffices H : ∀ x, x = 0x0E090F1D#32 ||| put cond 28 ||| put rt 12 → decodeWord x = .ok (.mcrCcnt cond rt) from H _ rfl
  intro x hx
  have hk : x &&& 0x0FFF0FFF = 0x0E090F1D := by simp (disch := decide) only [hx, or_and, put_and_apart]; rfl
  have hc : bits x 28 4 ≠ 15 := by
    simp (disch := decide) only [hx, bits_or, bits_put_same, bits_put_apart, bits_ofNat, BitVec.reduceExtractLsb', BitVec.zero_or, BitVec.or_zero]
    exact bne_iff_ne.mp h
  refine (decodeP15 hk hc (by decide) (by decide +kernel) rfl).trans ?_
  simp (disch := decide) only [hx, bits_or, bits_put_same, bits_put_apart, bits_ofNat, BitVec.reduceExtractLsb', BitVec.zero_or, BitVec.or_zero]

/-- Row 415 of the opcode table. -/
theorem RoundTrip.mrcEvtsel (cond rt) : RoundTrip.Statement (.mrcEvtsel cond rt) := fun hwf => by
  have h : (cond != 15) = true := hwf
  suffices H : ∀ x, x = 0x0E190F3D#32 ||| put cond 28 ||| put rt 12 → decodeWord x = .ok (.mrcEvtsel cond rt) from H _ rfl
  intro x hx
  have hk : x &&& 0x0FFF0FFF = 0x0E190F3D := by simp (disch := decide) only [hx, or_and, put_and_apart]; rfl
  have hc : bits x 28 4 ≠ 15 := by
    simp (disch := decide) only [hx, bits_or, bits_put_same, bits_put_apart, bits_ofNat, BitVec.reduceExtractLsb', BitVec.zero_or, BitVec.or_zero]
    exact bne_iff_ne.mp h
  refine (decodeP15 hk hc (by decide) (by decide +kernel) rfl).trans ?_
  simp (disch := decide) only [hx, bits_or, bits_put_same, bits_put_apart, bits_ofNat, BitVec.reduceExtractLsb', BitVec.zero_or, BitVec.or_zero]

/-- Row 416 of the opcode table. -/
theorem RoundTrip.mcrEvtsel (cond rt) : RoundTrip.Statement (.mcrEvtsel cond rt) := fun hwf => by
  have h : (cond != 15) = true := hwf
  suffices H : ∀ x, x = 0x0E090F3D#32 ||| put cond 28 ||| put rt 12 → decodeWord x = .ok (.mcrEvtsel cond rt) from H _ rfl
  intro x hx
  have hk : x &&& 0x0FFF0FFF = 0x0E090F3D := by simp (disch := decide) only [hx, or_and, put_and_apart]; rfl
  have hc : bits x 28 4 ≠ 15 := by
    simp (disch := decide) only [hx, bits_or, bits_put_same, bits_put_apart, bits_ofNat, BitVec.reduceExtractLsb', BitVec.zero_or, BitVec.or_zero]
    exact bne_iff_ne.mp h
  refine (decodeP15 hk hc (by decide) (by decide +kernel) rfl).trans ?_
  simp (disch := decide) only [hx, bits_or, bits_put_same, bits_put_apart, bits_ofNat, BitVec.reduceExtractLsb', BitVec.zero_or, BitVec.or_zero]

/-- Row 417 of the opcode table. -/
theorem RoundTrip.mrcPmcnt (cond rt) : RoundTrip.Statement (.mrcPmcnt cond rt) := fun hwf => by
  have h : (cond != 15) = true := hwf
  suffices H : ∀ x, x = 0x0E190F5D#32 ||| put cond 28 ||| put rt 12 → decodeWord x = .ok (.mrcPmcnt cond rt) from H _ rfl
  intro x hx
  have hk : x &&& 0x0FFF0FFF = 0x0E190F5D := by simp (disch := decide) only [hx, or_and, put_and_apart]; rfl
  have hc : bits x 28 4 ≠ 15 := by
    simp (disch := decide) only [hx, bits_or, bits_put_same, bits_put_apart, bits_ofNat, BitVec.reduceExtractLsb', BitVec.zero_or, BitVec.or_zero]
    exact bne_iff_ne.mp h
  refine (decodeP15 hk hc (by decide) (by decide +kernel) rfl).trans ?_
  simp (disch := decide) only [hx, bits_or, bits_put_same, bits_put_apart, bits_ofNat, BitVec.reduceExtractLsb', BitVec.zero_or, BitVec.or_zero]

/-- Row 418 of the opcode table. -/
theorem RoundTrip.mcrPmcnt (cond rt) : RoundTrip.Statement (.mcrPmcnt cond rt) := fun hwf => by
  have h : (cond != 15) = true := hwf
  suffices H : ∀ x, x = 0x0E090F5D#32 ||| put cond 28 ||| put rt 12 → decodeWord x = .ok (.mcrPmcnt cond rt) from H _ rfl
  intro x hx
  have hk : x &&& 0x0FFF0FFF = 0x0E090F5D := by simp (disch := decide) only [hx, or_and, put_and_apart]; rfl
  have hc : bits x 28 4 ≠ 15 := by
    simp (disch := decide) only [hx, bits_or, bits_put_same, bits_put_apart, bits_ofNat, BitVec.reduceExtractLsb', BitVec.zero_or, BitVec.or_zero]
    exact bne_iff_ne.mp h
  refine (decodeP15 hk hc (by decide) (by decide +kernel) rfl).trans ?_
  simp (disch := decide) only [hx, bits_or, bits_put_same, bits_put_apart, bits_ofNat, BitVec.reduceExtractLsb', BitVec.zero_or, BitVec.or_zero]

/-- Row 419 of the opcode table. -/
theorem RoundTrip.mrcUseren (cond rt) : RoundTrip.Statement (.mrcUseren cond rt) := fun hwf => by
  have h : (cond != 15) = true := hwf
  suffices H : ∀ x, x = 0x0E190F1E#32 ||| put cond 28 ||| put rt 12 → decodeWord x = .ok (.mrcUseren cond rt) from H _ rfl
  intro x hx
  have hk : x &&& 0x0FFF0FFF = 0x0E190F1E := by simp (disch := decide) only [hx, or_and, put_and_apart]; rfl
  have hc : bits x 28 4 ≠ 15 := by
    simp (disch := decide) only [hx, bits_or, bits_put_same, bits_put_apart, bits_ofNat, BitVec.reduceExtractLsb', BitVec.zero_or, BitVec.or_zero]
    exact bne_iff_ne.mp h
  refine (decodeP15 hk hc (by decide) (by decide +kernel) rfl).trans ?_
  simp (disch := decide) only [hx, bits_or, bits_put_same, bits_put_apart, bits_ofNat, BitVec.reduceExtractLsb', BitVec.zero_or, BitVec.or_zero]

/-- Row 420 of the opcode table. -/
theorem RoundTrip.mcrUseren (cond rt) : RoundTrip.Statement (.mcrUseren cond rt) := fun hwf => by
  have h : (cond != 15) = true := hwf
  suffices H : ∀ x, x = 0x0E090F1E#32 ||| put cond 28 ||| put rt 12 → decodeWord x = .ok (.mcrUseren cond rt) from H _ rfl
  intro x hx
  have hk : x &&& 0x0FFF0FFF = 0x0E090F1E := by simp (disch := decide) only [hx, or_and, put_and_apart]; rfl
  have hc : bits x 28 4 ≠ 15 := by
    simp (disch := decide) only [hx, bits_or, bits_put_same, bits_put_apart, bits_ofNat, BitVec.reduceExtractLsb', BitVec.zero_or, BitVec.or_zero]
    exact bne_iff_ne.mp h
  refine (decodeP15 hk hc (by decide) (by decide +kernel) rfl).trans ?_
  simp (disch := decide) only [hx, bits_or, bits_put_same, bits_put_apart, bits_ofNat, BitVec.reduceExtractLsb', BitVec.zero_or, BitVec.or_zero]

/-- Row 421 of the opcode table. -/
theorem RoundTrip.mrcIntens (cond rt) : RoundTrip.Statement (.mrcIntens cond rt) := fun hwf => by
  have h : (cond != 15) = true := hwf
  suffices H : ∀ x, x = 0x0E190F3E#32 ||| put cond 28 ||| put rt 12 → decodeWord x = .ok (.mrcIntens cond rt) from H _ rfl
  intro x hx
  have hk : x &&& 0x0FFF0FFF = 0x0E190F3E := by simp (disch := decide) only [hx, or_and, put_and_apart]; rfl
  have hc : bits x 28 4 ≠ 15 := by
    simp (disch := decide) only [hx, bits_or, bits_put_same, bits_put_apart, bits_ofNat, BitVec.reduceExtractLsb', BitVec.zero_or, BitVec.or_zero]
    exact bne_iff_ne.mp h
  refine (decodeP15 hk hc (by decide) (by decide +kernel) rfl).trans ?_
  simp (disch := decide) only [hx, bits_or, bits_put_same, bits_put_apart, bits_ofNat, BitVec.reduceExtractLsb', BitVec.zero_or, BitVec.or_zero]

/-- Row 422 of the opcode table. -/
theorem RoundTrip.mcrIntens (cond rt) : RoundTrip.Statement (.mcrIntens cond rt) := fun hwf => by
  have h : (cond != 15) = true := hwf
  suffices H : ∀ x, x = 0x0E090F3E#32 ||| put cond 28 ||| put rt 12 → decodeWord x = .ok (.mcrIntens cond rt) from H _ rfl
  intro x hx
  have hk : x &&& 0x0FFF0FFF = 0x0E090F3E := by simp (disch := decide) only [hx, or_and, put_and_apart]; rfl
  have hc : bits x 28 4 ≠ 15 := by
    simp (disch := decide) only [hx, bits_or, bits_put_same, bits_put_apart, bits_ofNat, BitVec.reduceExtractLsb', BitVec.zero_or, BitVec.or_zero]
    exact bne_iff_ne.mp h
  refine (decodeP15 hk hc (by decide) (by decide +kernel) rfl).trans ?_
  simp (disch := decide) only [hx, bits_or, bits_put_same, bits_put_apart, bits_ofNat, BitVec.reduceExtractLsb', BitVec.zero_or, BitVec.or_zero]

/-- Row 423 of the opcode table. -/
theorem RoundTrip.mrcIntenc (cond rt) : RoundTrip.Statement (.mrcIntenc cond rt) := fun hwf => by
  have h : (cond != 15) = true := hwf
  suffices H : ∀ x, x = 0x0E190F5E#32 ||| put cond 28 ||| put rt 12 → decodeWord x = .ok (.mrcIntenc cond rt) from H _ rfl
  intro x hx
  have hk : x &&& 0x0FFF0FFF = 0x0E190F5E := by simp (disch := decide) only [hx, or_and, put_and_apart]; rfl
  have hc : bits x 28 4 ≠ 15 := by
    simp (disch := decide) only [hx, bits_or, bits_put_same, bits_put_apart, bits_ofNat, BitVec.reduceExtractLsb', BitVec.zero_or, BitVec.or_zero]
    exact bne_iff_ne.mp h
  refine (decodeP15 hk hc (by decide) (by decide +kernel) rfl).trans ?_
  simp (disch := decide) only [hx, bits_or, bits_put_same, bits_put_apart, bits_ofNat, BitVec.reduceExtractLsb', BitVec.zero_or, BitVec.or_zero]

/-- Row 424 of the opcode table. -/
theorem RoundTrip.mcrIntenc (cond rt) : RoundTrip.Statement (.mcrIntenc cond rt) := fun hwf => by
  have h : (cond != 15) = true := hwf
  suffices H : ∀ x, x = 0x0E090F5E#32 ||| put cond 28 ||| put rt 12 → decodeWord x = .ok (.mcrIntenc cond rt) from H _ rfl
  intro x hx
  have hk : x &&& 0x0FFF0FFF = 0x0E090F5E := by simp (disch := decide) only [hx, or_and, put_and_apart]; rfl
  have hc : bits x 28 4 ≠ 15 := by
    simp (disch := decide) only [hx, bits_or, bits_put_same, bits_put_apart, bits_ofNat, BitVec.reduceExtractLsb', BitVec.zero_or, BitVec.or_zero]
    exact bne_iff_ne.mp h
  refine (decodeP15 hk hc (by decide) (by decide +kernel) rfl).trans ?_
  simp (disch := decide) only [hx, bits_or, bits_put_same, bits_put_apart, bits_ofNat, BitVec.reduceExtractLsb', BitVec.zero_or, BitVec.or_zero]

/-- Row 425 of the opcode table. -/
theorem RoundTrip.mrcL2Lock (cond rt) : RoundTrip.Statement (.mrcL2Lock cond rt) := fun hwf => by
  have h : (cond != 15) = true := hwf
  suffices H : ∀ x, x = 0x0E390F10#32 ||| put cond 28 ||| put rt 12 → decodeWord x = .ok (.mrcL2Lock cond rt) from H _ rfl
  intro x hx
  have hk : x &&& 0x0FFF0FFF = 0x0E390F10 := by simp (disch := decide) only [hx, or_and, put_and_apart]; rfl
  have hc : bits x 28 4 ≠ 15 := by
    simp (disch := decide) only [hx, bits_or, bits_put_same, bits_put_apart, bits_ofNat, BitVec.reduceExtractLsb', BitVec.zero_or, BitVec.or_zero]
    exact bne_iff_ne.mp h
  refine (decodeP15 hk hc (by decide) (by decide +kernel) rfl).trans ?_
  simp (disch := decide) only [hx, bits_or, bits_put_same, bits_put_apart, bits_ofNat, BitVec.reduceExtractLsb', BitVec.zero_or, BitVec.or_zero]

/-- Row 426 of the opcode table. -/
theorem RoundTrip.mcrL2Lock (cond rt) : RoundTrip.Statement (.mcrL2Lock cond rt) := fun hwf => by
  have h : (cond != 15) = true := hwf
  suffices H : ∀ x, x = 0x0E290F10#32 ||| put cond 28 ||| put rt 12 → decodeWord x = .ok (.mcrL2Lock cond rt) from H _ rfl
  intro x hx
  have hk : x &&& 0x0FFF0FFF = 0x0E290F10 := by simp (disch := decide) only [hx, or_and, put_and_apart]; rfl
  have hc : bits x 28 4 ≠ 15 := by
    simp (disch := decide) only [hx, bits_or, bits_put_same, bits_put_apart, bits_ofNat, BitVec.reduceExtractLsb', BitVec.zero_or, BitVec.or_zero]
    exact bne_iff_ne.mp h
  refine (decodeP15 hk hc (by decide) (by decide +kernel) rfl).trans ?_
  simp (disch := decide) only [hx, bits_or, bits_put_same, bits_put_apart, bits_ofNat, BitVec.reduceExtractLsb', BitVec.zero_or, BitVec.or_zero]

/-- Row 427 of the opcode table. -/
theorem RoundTrip.mrcL2Aux (cond rt) : RoundTrip.Statement (.mrcL2Aux cond rt) := fun hwf => by
  have h : (cond != 15) = true := hwf
  suffices H : ∀ x, x = 0x0E390F50#32 ||| put cond 28 ||| put rt 12 → decodeWord x = .ok (.mrcL2Aux cond rt) from H _ rfl
  intro x hx
  have hk : x &&& 0x0FFF0FFF = 0x0E390F50 := by simp (disch := decide) only [hx, or_and, put_and_apart]; rfl
  have hc : bits x 28 4 ≠ 15 := by
    simp (disch := decide) only [hx, bits_or, bits_put_same, bits_put_apart, bits_ofNat, BitVec.reduceExtractLsb', BitVec.zero_or, BitVec.or_zero]
    exact bne_iff_ne.mp h
  refine (decodeP15 hk hc (by decide) (by decide +kernel) rfl).trans ?_
  simp (disch := decide) only [hx, bits_or, bits_put_same, bits_put_apart, bits_ofNat, BitVec.reduceExtractLsb', BitVec.zero_or, BitVec.or_zero]

/-- Row 428 of the opcode table. -/
theorem RoundTrip.mcrL2Aux (cond rt) : RoundTrip.Statement (.mcrL2Aux cond rt) := fun hwf => by
  have h : (cond != 15) = true := hwf
  suffices H : ∀ x, x = 0x0E290F50#32 ||| put cond 28 ||| put rt 12 → decodeWord x = .ok (.mcrL2Aux cond rt) from H _ rfl
  intro x hx
  have hk : x &&& 0x0FFF0FFF = 0x0E290F50 := by simp (disch := decide) only [hx, or_and, put_and_apart]; rfl
  have hc : bits x 28 4 ≠ 15 := by
    simp (disch := decide) only [hx, bits_or, bits_put_same, bits_put_apart, bits_ofNat, BitVec.reduceExtractLsb', BitVec.zero_or, BitVec.or_zero]
    exact bne_iff_ne.mp h
  refine (decodeP15 hk hc (by decide) (by decide +kernel) rfl).trans ?_
  simp (disch := decide) only [hx, bits_or, bits_put_same, bits_put_apart, bits_ofNat, BitVec.reduceExtractLsb', BitVec.zero_or, BitVec.or_zero]

/-- Row 429 of the opcode table. -/
theorem RoundTrip.mrcDtlbLock (cond rt) : RoundTrip.Statement (.mrcDtlbLock cond rt) := fun hwf => by
  have h : (cond != 15) = true := hwf
  suffices H : ∀ x, x = 0x0E1A0F10#32 ||| put cond 28 ||| put rt 12 → decodeWord x = .ok (.mrcDtlbLock cond rt) from H _ rfl
  intro x hx
  have hk : x &&& 0x0FFF0FFF = 0x0E1A0F10 := by simp (disch := decide) only [hx, or_and, put_and_apart]; rfl
  have hc : bits x 28 4 ≠ 15 := by
    simp (disch := decide) only [hx, bits_or, bits_put_same, bits_put_apart, bits_ofNat, BitVec.reduceExtractLsb', BitVec.zero_or, BitVec.or_zero]
    exact bne_iff_ne.mp h
  refine (decodeP15 hk hc (by decide) (by decide +kernel) rfl).trans ?_
  simp (disch := decide) only [hx, bits_or, bits_put_same, bits_put_apart, bits_ofNat, BitVec.reduceExtractLsb', BitVec.zero_or, BitVec.or_zero]

/-- Row 430 of the opcode table. -/
theorem RoundTrip.mcrDtlbLock (cond rt) : RoundTrip.Statement (.mcrDtlbLock cond rt) := fun hwf => by
  have h : (cond != 15) = true := hwf
  suffices H : ∀ x, x = 0x0E0A0F10#32 ||| put cond 28 ||| put rt 12 → decodeWord x = .ok (.mcrDtlbLock cond rt) from H _ rfl
  intro x hx
  have hk : x &&& 0x0FFF0FFF = 0x0E0A0F10 := by simp (disch := decide) only [hx, or_and, put_and_apart]; rfl
  have hc : bits x 28 4 ≠ 15 := by
    simp (disch := decide) only [hx, bits_or, bits_put_same, bits_put_apart, bits_ofNat, BitVec.reduceExtractLsb', BitVec.zero_or, BitVec.or_zero]
    exact bne_iff_ne.mp h
  refine (decodeP15 hk hc (by decide) (by decide +kernel) rfl).trans ?_
  simp (disch := decide) only [hx, bits_or, bits_put_same, bits_put_apart, bits_ofNat, BitVec.reduceExtractLsb', BitVec.zero_or, BitVec.or_zero]

/-- Row 431 of the opcode table. -/
theorem RoundTrip.mrcItlbLock (cond rt) : RoundTrip.Statement (.mrcItlbLock cond rt) := fun hwf => by
  have h : (cond != 15) = true := hwf
  suffices H : ∀ x, x = 0x0E1A0F30#32 ||| put cond 28 ||| put rt 12 → decodeWord x = .ok (.mrcItlbLock cond rt) from H _ rfl
  intro x hx
  have hk : x &&& 0x0FFF0FFF = 0x0E1A0F30 := by simp (disch := decide) only [hx, or_and, put_and_apart]; rfl
  have hc : bits x 28 4 ≠ 15 := by
    simp (disch := decide) only [hx, bits_or, bits_put_same, bits_put_apart, bits_ofNat, BitVec.reduceExtractLsb', BitVec.zero_or, BitVec.or_zero]
    exact bne_iff_ne.mp h
  refine (decodeP15 hk hc (by decide) (by decide +kernel) rfl).trans ?_
  simp (disch := decide) only [hx, bits_or, bits_put_same, bits_put_apart, bits_ofNat, BitVec.reduceExtractLsb', BitVec.zero_or, BitVec.or_zero]

/-- Row 432 of the opcode table. -/
theorem RoundTrip.mcrItlbLock (cond rt) : RoundTrip.Statement (.mcrItlbLock cond rt) := fun hwf => by
  have h : (cond != 15) = true := hwf
  suffices H : ∀ x, x = 0x0E0A0F30#32 ||| put cond 28 ||| put rt 12 → decodeWord x = .ok (.mcrItlbLock cond rt) from H _ rfl
  intro x hx
  have hk : x &&& 0x0FFF0FFF = 0x0E0A0F30 := by simp (disch := decide) only [hx, or_and, put_and_apart]; rfl
  have hc : bits x 28 4 ≠ 15 := by
    simp (disch := decide) only [hx, bits_or, bits_put_same, bits_put_apart, bits_ofNat, BitVec.reduceExtractLsb', BitVec.zero_or, BitVec.or_zero]
    exact bne_iff_ne.mp h
  refine (decodeP15 hk hc (by decide) (by decide +kernel) rfl).trans ?_
  simp (disch := decide) only [hx, bits_or, bits_put_same, bits_put_apart, bits_ofNat, BitVec.reduceExtractLsb', BitVec.zero_or, BitVec.or_zero]

/-- Row 433 of the opcode table. -/
theorem RoundTrip.mcrDtlbPreload (cond rt) : RoundTrip.Statement (.mcrDtlbPreload cond rt) := fun hwf => by
  have h : (cond != 15) = true := hwf
  suffices H : ∀ x, x = 0x0E0A0F11#32 ||| put cond 28 ||| put rt 12 → decodeWord x = .ok (.mcrDtlbPreload cond rt) from H _ rfl
  intro x hx
  have hk : x &&& 0x0FFF0FFF = 0x0E0A0F11 := by simp (disch := decide) only [hx, or_and, put_and_apart]; rfl
  have hc : bits x 28 4 ≠ 15 := by
    simp (disch := decide) only [hx, bits_or, bits_put_same, bits_put_apart, bits_ofNat, BitVec.reduceExtractLsb', BitVec.zero_or, BitVec.or_zero]
    exact bne_iff_ne.mp h
  refine (decodeP15 hk hc (by decide) (by decide +kernel) rfl).trans ?_
  simp (disch := decide) only [hx, bits_or, bits_put_same, bits_put_apart, bits_ofNat, BitVec.reduceExtractLsb', BitVec.zero_or, BitVec.or_zero]

/-- Row 434 of the opcode table. -/
theorem RoundTrip.mcrItlbPreload (cond rt) : RoundTrip.Statement (.mcrItlbPreload cond rt) := fun hwf => by
  have h : (cond != 15) = true := hwf
  suffices H : ∀ x, x = 0x0E0A0F31#32 ||| put cond 28 ||| put rt 12 → decodeWord x = .ok (.mcrItlbPreload cond rt) from H _ rfl
  intro x hx
  have hk : x &&& 0x0FFF0FFF = 0x0E0A0F31 := by simp (disch := decide) only [hx, or_and, put_and_apart]; rfl
  have hc : bits x 28 4 ≠ 15 := by
    simp (disch := decide) only [hx, bits_or, bits_put_same, bits_put_apart, bits_ofNat, BitVec.reduceExtractLsb', BitVec.zero_or, BitVec.or_zero]
    exact bne_iff_ne.mp h
  refine (decodeP15 hk hc (by decide) (by decide +kernel) rfl).trans ?_
  simp (disch := decide) only [hx, bits_or, bits_put_same, bits_put_apart, bits_ofNat, BitVec.reduceExtractLsb', BitVec.zero_or, BitVec.or_zero]

/-- Row 435 of the opcode table. -/
theorem RoundTrip.mrcPrrr (cond rt) : RoundTrip.Statement (.mrcPrrr cond rt) := fun hwf => by
  have h : (cond != 15) = true := hwf
  suffices H : ∀ x, x = 0x0E1A0F12#32 ||| put cond 28 ||| put rt 12 → decodeWord x = .ok (.mrcPrrr cond rt) from H _ rfl
  intro x hx
  have hk : x &&& 0x0FFF0FFF = 0x0E1A0F12 := by simp (disch := decide) only [hx, or_and, put_and_apart]; rfl
  have hc : bits x 28 4 ≠ 15 := by
    simp (disch := decide) only [hx, bits_or, bits_put_same, bits_put_apart, bits_ofNat, BitVec.reduceExtractLsb', BitVec.zero_or, BitVec.or_zero]
    exact bne_iff_ne.mp h
  refine (decodeP15 hk hc (by decide) (by decide +kernel) rfl).trans ?_
  simp (disch := decide) only [hx, bits_or, bits_put_same, bits_put_apart, bits_ofNat, BitVec.reduceExtractLsb', BitVec.zero_or, BitVec.or_zero]

/-- Row 436 of the opcode table. -/
theorem RoundTrip.mcrPrrr (cond rt) : RoundTrip.Statement (.mcrPrrr cond rt) := fun hwf => by
  have h : (cond != 15) = true := hwf
  suffices H : ∀ x, x = 0x0E0A0F12#32 ||| put cond 28 ||| put rt 12 → decodeWord x = .ok (.mcrPrrr cond rt) from H _ rfl
  intro x hx
  have hk : x &&& 0x0FFF0FFF = 0x0E0A0F12 := by simp (disch := decide) only [hx, or_and, put_and_apart]; rfl
  have hc : bits x 28 4 ≠ 15 := by
    simp (disch := decide) only [hx, bits_or, bits_put_same, bits_put_apart, bits_ofNat, BitVec.reduceExtractLsb', BitVec.zero_or, BitVec.or_zero]
    exact bne_iff_ne.mp h
  refine (decodeP15 hk hc (by decide) (by decide +kernel) rfl).trans ?_
  simp (disch := decide) only [hx, bits_or, bits_put_same, bits_put_apart, bits_ofNat, BitVec.reduceExtractLsb', BitVec.zero_or, BitVec.or_zero]

/-- Row 437 of the opcode table. -/
theorem RoundTrip.mrcNmrr (cond rt) : RoundTrip.Statement (.mrcNmrr cond rt) := fun hwf => by
  have h : (cond != 15) = true := hwf
  suffices H : ∀ x, x = 0x0E1A0F32#32 ||| put cond 28 ||| put rt 12 → decodeWord x = .ok (.mrcNmrr cond rt) from H _ rfl
  intro x hx
  have hk : x &&& 0x0FFF0FFF = 0x0E1A0F32 := by simp (disch := decide) only [hx, or_and, put_and_apart]; rfl
  have hc : bits x 28 4 ≠ 15 := by
    simp (disch := decide) only [hx, bits_or, bits_put_same, bits_put_apart, bits_ofNat, BitVec.reduceExtractLsb', BitVec.zero_or, BitVec.or_zero]
    exact bne_iff_ne.mp h
  refine (decodeP15 hk hc (by decide) (by decide +kernel) rfl).trans ?_
  simp (disch := decide) only [hx, bits_or, bits_put_same, bits_put_apart, bits_ofNat, BitVec.reduceExtractLsb', BitVec.zero_or, BitVec.or_zero]

/-- Row 438 of the opcode table. -/
theorem RoundTrip.mcrNmrr (cond rt) : RoundTrip.Statement (.mcrNmrr cond rt) := fun hwf => by
  have h : (cond != 15) = true := hwf
  suffices H : ∀ x, x = 0x0E0A0F32#32 ||| put cond 28 ||| put rt 12 → decodeWord x = .ok (.mcrNmrr cond rt) from H _ rfl
  intro x hx
  have hk : x &&& 0x0FFF0FFF = 0x0E0A0F32 := by simp (disch := decide) only [hx, or_and, put_and_apart]; rfl
  have hc : bits x 28 4 ≠ 15 := by
    simp (disch := decide) only [hx, bits_or, bits_put_same, bits_put_apart, bits_ofNat, BitVec.reduceExtractLsb', BitVec.zero_or, BitVec.or_zero]
    exact bne_iff_ne.mp h
  refine (decodeP15 hk hc (by decide) (by decide +kernel) rfl).trans ?_
  simp (disch := decide) only [hx, bits_or, bits_put_same, bits_put_apart, bits_ofNat, BitVec.reduceExtractLsb', BitVec.zero_or, BitVec.or_zero]

/-- Row 439 of the opcode table. -/
theorem RoundTrip.mrcPleIdPresent (cond rt) : RoundTrip.Statement (.mrcPleIdPresent cond rt) := fun hwf => by
  have h : (cond != 15) = true := hwf
  suffices H : ∀ x, x = 0x0E1B0F10#32 ||| put cond 28 ||| put rt 12 → decodeWord x = .ok (.mrcPleIdPresent cond rt) from H _ rfl
  intro x hx
  have hk : x &&& 0x0FFF0FFF = 0x0E1B0F10 := by simp (disch := decide) only [hx, or_and, put_and_apart]; rfl
  have hc : bits x 28 4 ≠ 15 := by
    simp (disch := decide) only [hx, bits_or, bits_put_same, bits_put_apart, bits_ofNat, BitVec.reduceExtractLsb', BitVec.zero_or, BitVec.or_zero]
    exact bne_iff_ne.mp h
  refine (decodeP15 hk hc (by decide) (by decide +kernel) rfl).trans ?_
  simp (disch := decide) only [hx, bits_or, bits_put_same, bits_put_apart, bits_ofNat, BitVec.reduceExtractLsb', BitVec.zero_or, BitVec.or_zero]

/-- Row 440 of the opcode table. -/
theorem RoundTrip.mrcPleIdReserved (cond rt) : RoundTrip.Statement (.mrcPleIdReserved cond rt) := fun hwf => by
  have h : (cond != 15) = true := hwf
  suffices H : ∀ x, x = 0x0E1B0F30#32 ||| put cond 28 ||| put rt 12 → decodeWord x = .ok (.mrcPleIdReserved cond rt) from H _ rfl
  intro x hx
  have hk : x &&& 0x0FFF0FFF = 0x0E1B0F30 := by simp (disch := decide) only [hx, or_and, put_and_apart]; rfl
  have hc : bits x 28 4 ≠ 15 := by
    simp (disch := decide) only [hx, bits_or, bits_put_same, bits_put_apart, bits_ofNat, BitVec.reduceExtractLsb', BitVec.zero_or, BitVec.or_zero]
    exact bne_iff_ne.mp h
  refine (decodeP15 hk hc (by decide) (by decide +kernel) rfl).trans ?_
  simp (disch := decide) only [hx, bits_or, bits_put_same, bits_put_apart, bits_ofNat, BitVec.reduceExtractLsb', BitVec.zero_or, BitVec.or_zero]

/-- Row 441 of the opcode table. -/
theorem RoundTrip.mrcPleIdRunning (cond rt) : RoundTrip.Statement (.mrcPleIdRunning cond rt) := fun hwf => by
  have h : (cond != 15) = true := hwf
  suffices H : ∀ x, x = 0x0E1B0F50#32 ||| put cond 28 ||| put rt 12 → decodeWord x = .ok (.mrcPleIdRunning cond rt) from H _ rfl
  intro x hx
  have hk : x &&& 0x0FFF0FFF = 0x0E1B0F50 := by simp (disch := decide) only [hx, or_and, put_and_apart]; rfl
  have hc : bits x 28 4 ≠ 15 := by
    simp (disch := decide) only [hx, bits_or, bits_put_same, bits_put_apart, bits_ofNat, BitVec.reduceExtractLsb', BitVec.zero_or, BitVec.or_zero]
    exact bne_iff_ne.mp h
  refine (decodeP15 hk hc (by decide) (by decide +kernel) rfl).trans ?_
  simp (disch := decide) only [hx, bits_or, bits_put_same, bits_put_apart, bits_ofNat, BitVec.reduceExtractLsb', BitVec.zero_or, BitVec.or_zero]

/-- Row 442 of the opcode table. -/
theorem RoundTrip.mrcPleIdInterrupting (cond rt) : RoundTrip.Statement (.mrcPleIdInterrupting cond rt) := fun hwf => by
  have h : (cond != 15) = true := hwf
  suffices H : ∀ x, x = 0x0E1B0F70#32 ||| put cond 28 ||| put rt 12 → decodeWord x = .ok (.mrcPleIdInterrupting cond rt) from H _ rfl
  intro x hx
  have hk : x &&& 0x0FFF0FFF = 0x0E1B0F70 := by simp (disch := decide) only [hx, or_and, put_and_apart]; rfl
  have hc : bits x 28 4 ≠ 15 := by
    simp (disch := decide) only [hx, bits_or, bits_put_same, bits_put_apart, bits_ofNat, BitVec.reduceExtractLsb', BitVec.zero_or, BitVec.or_zero]
    exact bne_iff_ne.mp h
  refine (decodeP15 hk hc (by decide) (by decide +kernel) rfl).trans ?_
  simp (disch := decide) only [hx, bits_or, bits_put_same, bits_put_apart, bits_ofNat, BitVec.reduceExtractLsb', BitVec.zero_or, BitVec.or_zero]

/-- Row 443 of the opcode table. -/
theorem RoundTrip.mrcPleUser (cond rt) : RoundTrip.Statement (.mrcPleUser cond rt) := fun hwf => by
  have h : (cond != 15) = true := hwf
  suffices H : ∀ x, x = 0x0E1B0F11#32 ||| put cond 28 ||| put rt 12 → decodeWord x = .ok (.mrcPleUser cond rt) from H _ rfl
  intro x hx
  have hk : x &&& 0x0FFF0FFF = 0x0E1B0F11 := by simp (disch := decide) only [hx, or_and, put_and_apart]; rfl
  have hc : bits x 28 4 ≠ 15 := by
    simp (disch := decide) only [hx, bits_or, bits_put_same, bits_put_apart, bits_ofNat, BitVec.reduceExtractLsb', BitVec.zero_or, BitVec.or_zero]
    exact bne_iff_ne.mp h
  refine (decodeP15 hk hc (by decide) (by decide +kernel) rfl).trans ?_
  simp (disch := decide) only [hx, bits_or, bits_put_same, bits_put_apart, bits_ofNat, BitVec.reduceExtractLsb', BitVec.zero_or, BitVec.or_zero]

/-- Row 444 of the opcode table. -/
theorem RoundTrip.mcrPleUser (cond rt) : RoundTrip.Statement (.mcrPleUser cond rt) := fun hwf => by
  have h : (cond != 15) = true := hwf
  suffices H : ∀ x, x = 0x0E0B0F11#32 ||| put cond 28 ||| put rt 12 → decodeWord x = .ok (.mcrPleUser cond rt) from H _ rfl
  intro x hx
  have hk : x &&& 0x0FFF0FFF = 0x0E0B0F11 := by simp (disch := decide) only [hx, or_and, put_and_apart]; rfl
  have hc : bits x 28 4 ≠ 15 := by
    simp (disch := decide) only [hx, bits_or, bits_put_same, bits_put_apart, bits_ofNat, BitVec.reduceExtractLsb', BitVec.zero_or, BitVec.or_zero]
    exact bne_iff_ne.mp h
  refine (decodeP15 hk hc (by decide) (by decide +kernel) rfl).trans ?_
  simp (disch := decide) only [hx, bits_or, bits_put_same, bits_put_apart, bits_ofNat, BitVec.reduceExtractLsb', BitVec.zero_or, BitVec.or_zero]

/-- Row 445 of the opcode table. -/
theorem RoundTrip.mrcPleChannel (cond rt) : RoundTrip.Statement (.mrcPleChannel cond rt) := fun hwf => by
  have h : (cond != 15) = true := hwf
  suffices H : ∀ x, x = 0x0E1B0F12#32 ||| put cond 28 ||| put rt 12 → decodeWord x = .ok (.mrcPleChannel cond rt) from H _ rfl
  intro x hx
  have hk : x &&& 0x0FFF0FFF = 0x0E1B0F12 := by simp (disch := decide) only [hx, or_and, put_and_apart]; rfl
  have hc : bits x 28 4 ≠ 15 := by
    simp (disch := decide) only [hx, bits_or, bits_put_same, bits_put_apart, bits_ofNat, BitVec.reduceExtractLsb', BitVec.zero_or, BitVec.or_zero]
    exact bne_iff_ne.mp h
  refine (decodeP15 hk hc (by decide) (by decide +kernel) rfl).trans ?_
  simp (disch := decide) only [hx, bits_or, bits_put_same, bits_put_apart, bits_ofNat, BitVec.reduceExtractLsb', BitVec.zero_or, BitVec.or_zero]

/-- Row 446 of the opcode table. -/
theorem RoundTrip.mcrPleChannel (cond rt) : RoundTrip.Statement (.mcrPleChannel cond rt) := fun hwf => by
  have h : (cond != 15) = true := hwf
  suffices H : ∀ x, x = 0x0E0B0F12#32 ||| put cond 28 ||| put rt 12 → decodeWord x = .ok (.mcrPleChannel cond rt) from H _ rfl
  intro x hx
  have hk : x &&& 0x0FFF0FFF = 0x0E0B0F12 := by simp (disch := decide) only [hx, or_and, put_and_apart]; rfl
  have hc : bits x 28 4 ≠ 15 := by
    simp (disch := decide) only [hx, bits_or, bits_put_same, bits_put_apart, bits_ofNat, BitVec.reduceExtractLsb', BitVec.zero_or, BitVec.or_zero]
    exact bne_iff_ne.mp h
  refine (decodeP15 hk hc (by decide) (by decide +kernel) rfl).trans ?_
  simp (disch := decide) only [hx, bits_or, bits_put_same, bits_put_apart, bits_ofNat, BitVec.reduceExtractLsb', BitVec.zero_or, BitVec.or_zero]

/-- Row 447 of the opcode table. -/
theorem RoundTrip.mcrPleStop (cond rt) : RoundTrip.Statement (.mcrPleStop cond rt) := fun hwf => by
  have h : (cond != 15) = true := hwf
  suffices H : ∀ x, x = 0x0E0B0F13#32 ||| put cond 28 ||| put rt 12 → decodeWord x = .ok (.mcrPleStop cond rt) from H _ rfl
  intro x hx
  have hk : x &&& 0x0FFF0FFF = 0x0E0B0F13 := by simp (disch := decide) only [hx, or_and, put_and_apart]; rfl
  have hc : bits x 28 4 ≠ 15 := by
    simp (disch := decide) only [hx, bits_or, bits_put_same, bits_put_apart, bits_ofNat, BitVec.reduceExtractLsb', BitVec.zero_or, BitVec.or_zero]
    exact bne_iff_ne.mp h
  refine (decodeP15 hk hc (by decide) (by decide +kernel) rfl).trans ?_
  simp (disch := decide) only [hx, bits_or, bits_put_same, bits_put_apart, bits_ofNat, BitVec.reduceExtractLsb', BitVec.zero_or, BitVec.or_zero]

/-- Row 448 of the opcode table. -/
theorem RoundTrip.mcrPleStart (cond rt) : RoundTrip.Statement (.mcrPleStart cond rt) := fun hwf => by
  have h : (cond != 15) = true := hwf
  suffices H : ∀ x, x = 0x0E0B0F33#32 ||| put cond 28 ||| put rt 12 → decodeWord x = .ok (.mcrPleStart cond rt) from H _ rfl
  intro x hx
  have hk : x &&& 0x0FFF0FFF = 0x0E0B0F33 := by simp (disch := decide) only [hx, or_and, put_and_apart]; rfl
  have hc : bits x 28 4 ≠ 15 := by
    simp (disch := decide) only [hx, bits_or, bits_put_same, bits_put_apart, bits_ofNat, BitVec.reduceExtractLsb', BitVec.zero_or, BitVec.or_zero]
    exact bne_iff_ne.mp h
  refine (decodeP15 hk hc (by decide) (by decide +kernel) rfl).trans ?_
  simp (disch := decide) only [hx, bits_or, bits_put_same, bits_put_apart, bits_ofNat, BitVec.reduceExtractLsb', BitVec.zero_or, BitVec.or_zero]

/-- Row 449 of the opcode table. -/
theorem RoundTrip.mcrPleClear (cond rt) : RoundTrip.Statement (.mcrPleClear cond rt) := fun hwf => by
  have h : (cond != 15) = true := hwf
  suffices H : ∀ x, x = 0x0E0B0F53#32 ||| put cond 28 ||| put rt 12 → decodeWord x = .ok (.mcrPleClear cond rt) from H _ rfl
  intro x hx
  have hk : x &&& 0x0FFF0FFF = 0x0E0B0F53 := by simp (disch := decide) only [hx, or_and, put_and_apart]; rfl
  have hc : bits x 28 4 ≠ 15 := by
    simp (disch := decide) only [hx, bits_or, bits_put_same, bits_put_apart, bits_ofNat, BitVec.reduceExtractLsb', BitVec.zero_or, BitVec.or_zero]
    exact bne_iff_ne.mp h
  refine (decodeP15 hk hc (by decide) (by decide +kernel) rfl).trans ?_
  simp (disch := decide) only [hx, bits_or, bits_put_same, bits_put_apart, bits_ofNat, BitVec.reduceExtractLsb', BitVec.zero_or, BitVec.or_zero]

/-- Row 450 of the opcode table. -/
theorem RoundTrip.mrcPleControl (cond rt) : RoundTrip.Statement (.mrcPleControl cond rt) := fun hwf => by
  have h : (cond != 15) = true := hwf
  suffices H : ∀ x, x = 0x0E1B0F14#32 ||| put cond 28 ||| put rt 12 → decodeWord x = .ok (.mrcPleControl cond rt) from H _ rfl
  intro x hx
  have hk : x &&& 0x0FFF0FFF = 0x0E1B0F14 := by simp (disch := decide) only [hx, or_and, put_and_apart]; rfl
  have hc : bits x 28 4 ≠ 15 := by
    simp (disch := decide) only [hx, bits_or, bits_put_same, bits_put_apart, bits_ofNat, BitVec.reduceExtractLsb', BitVec.zero_or, BitVec.or_zero]
    exact bne_iff_ne.mp h
  refine (decodeP15 hk hc (by decide) (by decide +kernel) rfl).trans ?_
  simp (disch := decide) only [hx, bits_or, bits_put_same, bits_put_apart, bits_ofNat, BitVec.reduceExtractLsb', BitVec.zero_or, BitVec.or_zero]

/-- Row 451 of the opcode table. -/
theorem RoundTrip.mcrPleControl (cond rt) : RoundTrip.Statement (.mcrPleControl cond rt) := fun hwf => by
  have h : (cond != 15) = true := hwf
  suffices H : ∀ x, x = 0x0E0B0F14#32 ||| put cond 28 ||| put rt 12 → decodeWord x = .ok (.mcrPleControl cond rt) from H _ rfl
  intro x hx
  have hk : x &&& 0x0FFF0FFF = 0x0E0B0F14 := by simp (disch := decide) only [hx, or_and, put_and_apart]; rfl
  have hc : bits x 28 4 ≠ 15 := by
    simp (disch := decide) only [hx, bits_or, bits_put_same, bits_put_apart, bits_ofNat, BitVec.reduceExtractLsb', BitVec.zero_or, BitVec.or_zero]
    exact bne_iff_ne.mp h
  refine (decodeP15 hk hc (by decide) (by decide +kernel) rfl).trans ?_
  simp (disch := decide) only [hx, bits_or, bits_put_same, bits_put_apart, bits_ofNat, BitVec.reduceExtractLsb', BitVec.zero_or, BitVec.or_zero]

/-- Row 452 of the opcode table. -/
theorem RoundTrip.mrcPleStartAddr (cond rt) : RoundTrip.Statement (.mrcPleStartAddr cond rt) := fun hwf => by
  have h : (cond != 15) = true := hwf
  suffices H : ∀ x, x = 0x0E1B0F15#32 ||| put cond 28 ||| put rt 12 → decodeWord x = .ok (.mrcPleStartAddr cond rt) from H _ rfl
  intro x hx
  have hk : x &&& 0x0FFF0FFF = 0x0E1B0F15 := by simp (disch := decide) only [hx, or_and, put_and_apart]; rfl
  have hc : bits x 28 4 ≠ 15 := by
    simp (disch := decide) only [hx, bits_or, bits_put_same, bits_put_apart, bits_ofNat, BitVec.reduceExtractLsb', BitVec.zero_or, BitVec.or_zero]
    exact bne_iff_ne.mp h
  refine (decodeP15 hk hc (by decide) (by decide +kernel) rfl).trans ?_
  simp (disch := decide) only [hx, bits_or, bits_put_same, bits_put_apart, bits_ofNat, BitVec.reduceExtractLsb', BitVec.zero_or, BitVec.or_zero]

/-- Row 453 of the opcode table. -/
theorem RoundTrip.mcrPleStartAddr (cond rt) : RoundTrip.Statement (.mcrPleStartAddr cond rt) := fun hwf => by
  have h : (cond != 15) = true := hwf
  suffices H : ∀ x, x = 0x0E0B0F15#32 ||| put cond 28 ||| put rt 12 → decodeWord x = .ok (.mcrPleStartAddr cond rt) from H _ rfl
  intro x hx
  have hk : x &&& 0x0FFF0FFF = 0x0E0B0F15 := by simp (disch := decide) only [hx, or_and, put_and_apart]; rfl
  have hc : bits x 28 4 ≠ 15 := by
    simp (disch := decide) only [hx, bits_or, bits_put_same, bits_put_apart, bits_ofNat, BitVec.reduceExtractLsb', BitVec.zero_or, BitVec.or_zero]
    exact bne_iff_ne.mp h
  refine (decodeP15 hk hc (by decide) (by decide +kernel) rfl).trans ?_
  simp (disch := decide) only [hx, bits_or, bits_put_same, bits_put_apart, bits_ofNat, BitVec.reduceExtractLsb', BitVec.zero_or, BitVec.or_zero]

/-- Row 454 of the opcode table. -/
theorem RoundTrip.mrcPleEndAddr (cond rt) : RoundTrip.Statement (.mrcPleEndAddr cond rt) := fun hwf => by
  have h : (cond != 15) = true := hwf
  suffices H : ∀ x, x = 0x0E1B0F17#32 ||| put cond 28 ||| put rt 12 → decodeWord x = .ok (.mrcPleEndAddr cond rt) from H _ rfl
  intro x hx
  have hk : x &&& 0x0FFF0FFF = 0x0E1B0F17 := by simp (disch := decide) only [hx, or_and, put_and_apart]; rfl
  have hc : bits x 28 4 ≠ 15 := by
    simp (disch := decide) only [hx, bits_or, bits_put_same, bits_put_apart, bits_ofNat, BitVec.reduceExtractLsb', BitVec.zero_or, BitVec.or_zero]
    exact bne_iff_ne.mp h
  refine (decodeP15 hk hc (by decide) (by decide +kernel) rfl).trans ?_
  simp (disch := decide) only [hx, bits_or, bits_put_same, bits_put_apart, bits_ofNat, BitVec.reduceExtractLsb', BitVec.zero_or, BitVec.or_zero]

/-- Row 455 of the opcode table. -/
theorem RoundTrip.mcrPleEndAddr (cond rt) : RoundTrip.Statement (.mcrPleEndAddr cond rt) := fun hwf => by
  have h : (cond != 15) = true := hwf
  suffices H : ∀ x, x = 0x0E0B0F17#32 ||| put cond 28 ||| put rt 12 → decodeWord x = .ok (.mcrPleEndAddr cond rt) from H _ rfl
  intro x hx
  have hk : x &&& 0x0FFF0FFF = 0x0E0B0F17 := by simp (disch := decide) only [hx, or_and, put_and_apart]; rfl
  have hc : bits x 28 4 ≠ 15 := by
    simp (disch := decide) only [hx, bits_or, bits_put_same, bits_put_apart, bits_ofNat, BitVec.reduceExtractLsb', BitVec.zero_or, BitVec.or_zero]
    exact bne_iff_ne.mp h
  refine (decodeP15 hk hc (by decide) (by decide +kernel) rfl).trans ?_
  simp (disch := decide) only [hx, bits_or, bits_put_same, bits_put_apart, bits_ofNat, BitVec.reduceExtractLsb', BitVec.zero_or, BitVec.or_zero]

/-- Row 456 of the opcode table. -/
theorem RoundTrip.mrcPleStatus (cond rt) : RoundTrip.Statement (.mrcPleStatus cond rt) := fun hwf => by
  have h : (cond != 15) = true := hwf
  suffices H : ∀ x, x = 0x0E1B0F18#32 ||| put cond 28 ||| put rt 12 → decodeWord x = .ok (.mrcPleStatus cond rt) from H _ rfl
  intro x hx
  have hk : x &&& 0x0FFF0FFF = 0x0E1B0F18 := by simp (disch := decide) only [hx, or_and, put_and_apart]; rfl
  have hc : bits x 28 4 ≠ 15 := by
    simp (disch := decide) only [hx, bits_or, bits_put_same, bits_put_apart, bits_ofNat, BitVec.reduceExtractLsb', BitVec.zero_or, BitVec.or_zero]
    exact bne_iff_ne.mp h
  refine (decodeP15 hk hc (by decide) (by decide +kernel) rfl).trans ?_
  simp (disch := decide) only [hx, bits_or, bits_put_same, bits_put_apart, bits_ofNat, BitVec.reduceExtractLsb', BitVec.zero_or, BitVec.or_zero]

/-- Row 457 of the opcode table. -/
theorem RoundTrip.mrcPleContext (cond rt) : RoundTrip.Statement (.mrcPleContext cond rt) := fun hwf => by
  have h : (cond != 15) = true := hwf
  suffices H : ∀ x, x = 0x0E1B0F1F#32 ||| put cond 28 ||| put rt 12 → decodeWord x = .ok (.mrcPleContext cond rt) from H _ rfl
  intro x hx
  have hk : x &&& 0x0FFF0FFF = 0x0E1B0F1F := by simp (disch := decide) only [hx, or_and, put_and_apart]; rfl
  have hc : bits x 28 4 ≠ 15 := by
    simp (disch := decide) only [hx, bits_or, bits_put_same, bits_put_apart, bits_ofNat, BitVec.reduceExtractLsb', BitVec.zero_or, BitVec.or_zero]
    exact bne_iff_ne.mp h
  refine (decodeP15 hk hc (by decide) (by decide +kernel) rfl).trans ?_
  simp (disch := decide) only [hx, bits_or, bits_put_same, bits_put_apart, bits_ofNat, BitVec.reduceExtractLsb', BitVec.zero_or, BitVec.or_zero]

/-- Row 458 of the opcode table. -/
theorem RoundTrip.mcrPleContext (cond rt) : RoundTrip.Statement (.mcrPleContext cond rt) := fun hwf => by
  have h : (cond != 15) = true := hwf
  suffices H : ∀ x, x = 0x0E0B0F1F#32 ||| put cond 28 ||| put rt 12 → decodeWord x = .ok (.mcrPleContext cond rt) from H _ rfl
  intro x hx
  have hk : x &&& 0x0FFF0FFF = 0x0E0B0F1F := by simp (disch := decide) only [hx, or_and, put_and_apart]; rfl
  have hc : bits x 28 4 ≠ 15 := by
    simp (disch := decide) only [hx, bits_or, bits_put_same, bits_put_apart, bits_ofNat, BitVec.reduceExtractLsb', BitVec.zero_or, BitVec.or_zero]
    exact bne_iff_ne.mp h
  refine (decodeP15 hk hc (by decide) (by decide +kernel) rfl).trans ?_
  simp (disch := decide) only [hx, bits_or, bits_put_same, bits_put_apart, bits_ofNat, BitVec.reduceExtractLsb', BitVec.zero_or, BitVec.or_zero]

/-- Row 459 of the opcode table. -/
theorem RoundTrip.mrcVbar (cond rt) : RoundTrip.Statement (.mrcVbar cond rt) := fun hwf => by
  have h : (cond != 15) = true := hwf
  suffices H : ∀ x, x = 0x0E1C0F10#32 ||| put cond 28 ||| put rt 12 → decodeWord x = .ok (.mrcVbar cond rt) from H _ rfl
  intro x hx
  have hk : x &&& 0x0FFF0FFF = 0x0E1C0F10 := by simp (disch := decide) only [hx, or_and, put_and_apart]; rfl
  have hc : bits x 28 4 ≠ 15 := by
    simp (disch := decide) only [hx, bits_or, bits_put_same, bits_put_apart, bits_ofNat, BitVec.reduceExtractLsb', BitVec.zero_or, BitVec.or_zero]
    exact bne_iff_ne.mp h
  refine (decodeP15 hk hc (by decide) (by decide +kernel) rfl).trans ?_
  simp (disch := decide) only [hx, bits_or, bits_put_same, bits_put_apart, bits_ofNat, BitVec.reduceExtractLsb', BitVec.zero_or, BitVec.or_zero]

/-- Row 460 of the opcode table. -/
theorem RoundTrip.mcrVbar (cond rt) : RoundTrip.Statement (.mcrVbar cond rt) := fun hwf => by
  have h : (cond != 15) = true := hwf
  suffices H : ∀ x, x = 0x0E0C0F10#32 ||| put cond 28 ||| put rt 12 → decodeWord x = .ok (.mcrVbar cond rt) from H _ rfl
  intro x hx
  have hk : x &&& 0x0FFF0FFF = 0x0E0C0F10 := by simp (disch := decide) only [hx, or_and, put_and_apart]; rfl
  have hc : bits x 28 4 ≠ 15 := by
    simp (disch := decide) only [hx, bits_or, bits_put_same, bits_put_apart, bits_ofNat, BitVec.reduceExtractLsb', BitVec.zero_or, BitVec.or_zero]
    exact bne_iff_ne.mp h
  refine (decodeP15 hk hc (by decide) (by decide +kernel) rfl).trans ?_
  simp (disch := decide) only [hx, bits_or, bits_put_same, bits_put_apart, bits_ofNat, BitVec.reduceExtractLsb', BitVec.zero_or, BitVec.or_zero]

/-- Row 461 of the opcode table. -/
theorem RoundTrip.mrcMvbar (cond rt) : RoundTrip.Statement (.mrcMvbar cond rt) := fun hwf => by
  have h : (cond != 15) = true := hwf
  suffices H : ∀ x, x = 0x0E1C0F30#32 ||| put cond 28 ||| put rt 12 → decodeWord x = .ok (.mrcMvbar cond rt) from H _ rfl
  intro x hx
  have hk : x &&& 0x0FFF0FFF = 0x0E1C0F30 := by simp (disch := decide) only [hx, or_and, put_and_apart]; rfl
  have hc : bits x 28 4 ≠ 15 := by
    simp (disch := decide) only [hx, bits_or, bits_put_same, bits_put_apart, bits_ofNat, BitVec.reduceExtractLsb', BitVec.zero_or, BitVec.or_zero]
    exact bne_iff_ne.mp h
  refine (decodeP15 hk hc (by decide) (by decide +kernel) rfl).trans ?_
  simp (disch := decide) only [hx, bits_or, bits_put_same, bits_put_apart, bits_ofNat, BitVec.reduceExtractLsb', BitVec.zero_or, BitVec.or_zero]

/-- Row 462 of the opcode table. -/
theorem RoundTrip.mcrMvbar (cond rt) : RoundTrip.Statement (.mcrMvbar cond rt) := fun hwf => by
  have h : (cond != 15) = true := hwf
  suffices H : ∀ x, x = 0x0E0C0F30#32 ||| put cond 28 ||| put rt 12 → decodeWord x = .ok (.mcrMvbar cond rt) from H _ rfl
  intro x hx
  have hk : x &&& 0x0FFF0FFF = 0x0E0C0F30 := by simp (disch := decide) only [hx, or_and, put_and_apart]; rfl
  have hc : bits x 28 4 ≠ 15 := by
    simp (disch := decide) only [hx, bits_or, bits_put_same, bits_put_apart, bits_ofNat, BitVec.reduceExtractLsb', BitVec.zero_or, BitVec.or_zero]
    exact bne_iff_ne.mp h
  refine (decodeP15 hk hc (by decide) (by decide +kernel) rfl).trans ?_
  simp (disch := decide) only [hx, bits_or, bits_put_same, bits_put_apart, bits_ofNat, BitVec.reduceExtractLsb', BitVec.zero_or, BitVec.or_zero]

/-- Row 463 of the opcode table. -/
theorem RoundTrip.mrcIsr (cond rt) : RoundTrip.Statement (.mrcIsr cond rt) := fun hwf => by
  have h : (cond != 15) = true := hwf
  suffices H : ∀ x, x = 0x0E1C0F11#32 ||| put cond 28 ||| put rt 12 → decodeWord x = .ok (.mrcIsr cond rt) from H _ rfl
  intro x hx
  have hk : x &&& 0x0FFF0FFF = 0x0E1C0F11 := by simp (disch := decide) only [hx, or_and, put_and_apart]; rfl
  have hc : bits x 28 4 ≠ 15 := by
    simp (disch := decide) only [hx, bits_or, bits_put_same, bits_put_apart, bits_ofNat, BitVec.reduceExtractLsb', BitVec.zero_or, BitVec.or_zero]
    exact bne_iff_ne.mp h
  refine (decodeP15 hk hc (by decide) (by decide +kernel) rfl).trans ?_
  simp (disch := decide) only [hx, bits_or, bits_put_same, bits_put_apart, bits_ofNat, BitVec.reduceExtractLsb', BitVec.zero_or, BitVec.or_zero]

/-- Row 464 of the opcode table. -/
theorem RoundTrip.mrcFcse (cond rt) : RoundTrip.Statement (.mrcFcse cond rt) := fun hwf => by
  have h : (cond != 15) = true := hwf
  suffices H : ∀ x, x = 0x0E1D0F10#32 ||| put cond 28 ||| put rt 12 → decodeWord x = .ok (.mrcFcse cond rt) from H _ rfl
  intro x hx
  have hk : x &&& 0x0FFF0FFF = 0x0E1D0F10 := by simp (disch := decide) only [hx, or_and, put_and_apart]; rfl
  have hc : bits x 28 4 ≠ 15 := by
    simp (disch := decide) only [hx, bits_or, bits_put_same, bits_put_apart, bits_ofNat, BitVec.reduceExtractLsb', BitVec.zero_or, BitVec.or_zero]
    exact bne_iff_ne.mp h
  refine (decodeP15 hk hc (by decide) (by decide +kernel) rfl).trans ?_
  simp (disch := decide) only [hx, bits_or, bits_put_same, bits_put_apart, bits_ofNat, BitVec.reduceExtractLsb', BitVec.zero_or, BitVec.or_zero]

/-- Row 465 of the opcode table. -/
theorem RoundTrip.mcrFcse (cond rt) : RoundTrip.Statement (.mcrFcse cond rt) := fun hwf => by
  have h : (cond != 15) = true := hwf
  suffices H : ∀ x, x = 0x0E0D0F10#32 ||| put cond 28 ||| put rt 12 → decodeWord x = .ok (.mcrFcse cond rt) from H _ rfl
  intro x hx
  have hk : x &&& 0x0FFF0FFF = 0x0E0D0F10 := by simp (disch := decide) only [hx, or_and, put_and_apart]; rfl
  have hc : bits x 28 4 ≠ 15 := by
    simp (disch := decide) only [hx, bits_or, bits_put_same, bits_put_apart, bits_ofNat, BitVec.reduceExtractLsb', BitVec.zero_or, BitVec.or_zero]
    exact bne_iff_ne.mp h
  refine (decodeP15 hk hc (by decide) (by decide +kernel) rfl).trans ?_
  simp (disch := decide) only [hx, bits_or, bits_put_same, bits_put_apart, bits_ofNat, BitVec.reduceExtractLsb', BitVec.zero_or, BitVec.or_zero]

/-- Row 466 of the opcode table. -/
theorem RoundTrip.mrcContextidr (cond rt) : RoundTrip.Statement (.mrcContextidr cond rt) := fun hwf => by
  have h : (cond != 15) = true := hwf
  suffices H : ∀ x, x = 0x0E1D0F30#32 ||| put cond 28 ||| put rt 12 → decodeWord x = .ok (.mrcContextidr cond rt) from H _ rfl
  intro x hx
  have hk : x &&& 0x0FFF0FFF = 0x0E1D0F30 := by simp (disch := decide) only [hx, or_and, put_and_apart]; rfl
  have hc : bits x 28 4 ≠ 15 := by
    simp (disch := decide) only [hx, bits_or, bits_put_same, bits_put_apart, bits_ofNat, BitVec.reduceExtractLsb', BitVec.zero_or, BitVec.or_zero]
    exact bne_iff_ne.mp h
  refine (decodeP15 hk hc (by decide) (by decide +kernel) rfl).trans ?_
  simp (disch := decide) only [hx, bits_or, bits_put_same, bits_put_apart, bits_ofNat, BitVec.reduceExtractLsb', BitVec.zero_or, BitVec.or_zero]

/-- Row 467 of the opcode table. -/
theorem RoundTrip.mcrContextidr (cond rt) : RoundTrip.Statement (.mcrContextidr cond rt) := fun hwf => by
  have h : (cond != 15) = true := hwf
  suffices H : ∀ x, x = 0x0E0D0F30#32 ||| put cond 28 ||| put rt 12 → decodeWord x = .ok (.mcrContextidr cond rt) from H _ rfl
  intro x hx
  have hk : x &&& 0x0FFF0FFF = 0x0E0D0F30 := by simp (disch := decide) only [hx, or_and, put_and_apart]; rfl
  have hc : bits x 28 4 ≠ 15 := by
    simp (disch := decide) only [hx, bits_or, bits_put_same, bits_put_apart, bits_ofNat, BitVec.reduceExtractLsb', BitVec.zero_or, BitVec.or_zero]
    exact bne_iff_ne.mp h
  refine (decodeP15 hk hc (by decide) (by decide +kernel) rfl).trans ?_
  simp (disch := decide) only [hx, bits_or, bits_put_same, bits_put_apart, bits_ofNat, BitVec.reduceExtractLsb', BitVec.zero_or, BitVec.or_zero]

/-- Row 468 of the opcode table. -/
theorem RoundTrip.mrcTpidrurw (cond rt) : RoundTrip.Statement (.mrcTpidrurw cond rt) := fun hwf => by
  have h : (cond != 15) = true := hwf
  suffices H : ∀ x, x = 0x0E1D0F50#32 ||| put cond 28 ||| put rt 12 → decodeWord x = .ok (.mrcTpidrurw cond rt) from H _ rfl
  intro x hx
  have hk : x &&& 0x0FFF0FFF = 0x0E1D0F50 := by simp (disch := decide) only [hx, or_and, put_and_apart]; rfl
  have hc : bits x 28 4 ≠ 15 := by
    simp (disch := decide) only [hx, bits_or, bits_put_same, bits_put_apart, bits_ofNat, BitVec.reduceExtractLsb', BitVec.zero_or, BitVec.or_zero]
    exact bne_iff_ne.mp h
  refine (decodeP15 hk hc (by decide) (by decide +kernel) rfl).trans ?_
  simp (disch := decide) only [hx, bits_or, bits_put_same, bits_put_apart, bits_ofNat, BitVec.reduceExtractLsb', BitVec.zero_or, BitVec.or_zero]

/-- Row 469 of the opcode table. -/
theorem RoundTrip.mcrTpidrurw (cond rt) : RoundTrip.Statement (.mcrTpidrurw cond rt) := fun hwf => by
  have h : (cond != 15) = true := hwf
  suffices H : ∀ x, x = 0x0E0D0F50#32 ||| put cond 28 ||| put rt 12 → decodeWord x = .ok (.mcrTpidrurw cond rt) from H _ rfl
  intro x hx
  have hk : x &&& 0x0FFF0FFF = 0x0E0D0F50 := by simp (disch := decide) only [hx, or_and, put_and_apart]; rfl
  have hc : bits x 28 4 ≠ 15 := by
    simp (disch := decide) only [hx, bits_or, bits_put_same, bits_put_apart, bits_ofNat, BitVec.reduceExtractLsb', BitVec.zero_or, BitVec.or_zero]
    exact bne_iff_ne.mp h
  refine (decodeP15 hk hc (by decide) (by decide +kernel) rfl).trans ?_
  simp (disch := decide) only [hx, bits_or, bits_put_same, bits_put_apart, bits_ofNat, BitVec.reduceExtractLsb', BitVec.zero_or, BitVec.or_zero]

/-- Row 470 of the opcode table. -/
theorem RoundTrip.mrcTpidruro (cond rt) : RoundTrip.Statement (.mrcTpidruro cond rt) := fun hwf => by
  have h : (cond != 15) = true := hwf
  suffices H : ∀ x, x = 0x0E1D0F70#32 ||| put cond 28 ||| put rt 12 → decodeWord x = .ok (.mrcTpidruro cond rt) from H _ rfl
  intro x hx
  have hk : x &&& 0x0FFF0FFF = 0x0E1D0F70 := by simp (disch := decide) only [hx, or_and, put_and_apart]; rfl
  have hc : bits x 28 4 ≠ 15 := by
    simp (disch := decide) only [hx, bits_or, bits_put_same, bits_put_apart, bits_ofNat, BitVec.reduceExtractLsb', BitVec.zero_or, BitVec.or_zero]
    exact bne_iff_ne.mp h
  refine (decodeP15 hk hc (by decide) (by decide +kernel) rfl).trans ?_
  simp (disch := decide) only [hx, bits_or, bits_put_same, bits_put_apart, bits_ofNat, BitVec.reduceExtractLsb', BitVec.zero_or, BitVec.or_zero]

/-- Row 471 of the opcode table. -/
theorem RoundTrip.mcrTpidruro (cond rt) : RoundTrip.Statement (.mcrTpidruro cond rt) := fun hwf => by
  have h : (cond != 15) = true := hwf
  suffices H : ∀ x, x = 0x0E0D0F70#32 ||| put cond 28 ||| put rt 12 → decodeWord x = .ok (.mcrTpidruro cond rt) from H _ rfl
  intro x hx
  have hk : x &&& 0x0FFF0FFF = 0x0E0D0F70 := by simp (disch := decide) only [hx, or_and, put_and_apart]; rfl
  have hc : bits x 28 4 ≠ 15 := by
    simp (disch := decide) only [hx, bits_or, bits_put_same, bits_put_apart, bits_ofNat, BitVec.reduceExtractLsb', BitVec.zero_or, BitVec.or_zero]
    exact bne_iff_ne.mp h
  refine (decodeP15 hk hc (by decide) (by decide +kernel) rfl).trans ?_
  simp (disch := decide) only [hx, bits_or, bits_put_same, bits_put_apart, bits_ofNat, BitVec.reduceExtractLsb', BitVec.zero_or, BitVec.or_zero]

/-- Row 472 of the opcode table. -/
theorem RoundTrip.mrcTpidrprw (cond rt) : RoundTrip.Statement (.mrcTpidrprw cond rt) := fun hwf => by
  have h : (cond != 15) = true := hwf
  suffices H : ∀ x, x = 0x0E1D0F90#32 ||| put cond 28 ||| put rt 12 → decodeWord x = .ok (.mrcTpidrprw cond rt) from H _ rfl
  intro x hx
  have hk : x &&& 0x0FFF0FFF = 0x0E1D0F90 := by simp (disch := decide) only [hx, or_and, put_and_apart]; rfl
  have hc : bits x 28 4 ≠ 15 := by
    simp (disch := decide) only [hx, bits_or, bits_put_same, bits_put_apart, bits_ofNat, BitVec.reduceExtractLsb', BitVec.zero_or, BitVec.or_zero]
    exact bne_iff_ne.mp h
  refine (decodeP15 hk hc (by decide) (by decide +kernel) rfl).trans ?_
  simp (disch := decide) only [hx, bits_or, bits_put_same, bits_put_apart, bits_ofNat, BitVec.reduceExtractLsb', BitVec.zero_or, BitVec.or_zero]

/-- Row 473 of the opcode table. -/
theorem RoundTrip.mcrTpidrprw (cond rt) : RoundTrip.Statement (.mcrTpidrprw cond rt) := fun hwf => by
  have h : (cond != 15) = true := hwf
  suffices H : ∀ x, x = 0x0E0D0F90#32 ||| put cond 28 ||| put rt 12 → decodeWord x = .ok (.mcrTpidrprw cond rt) from H _ rfl
  intro x hx
  have hk : x &&& 0x0FFF0FFF = 0x0E0D0F90 := by simp (disch := decide) only [hx, or_and, put_and_apart]; rfl
  have hc : bits x 28 4 ≠ 15 := by
    simp (disch := decide) only [hx, bits_or, bits_put_same, bits_put_apart, bits_ofNat, BitVec.reduceExtractLsb', BitVec.zero_or, BitVec.or_zero]
    exact bne_iff_ne.mp h
  refine (decodeP15 hk hc (by decide) (by decide +kernel) rfl).trans ?_
  simp (disch := decide) only [hx, bits_or, bits_put_same, bits_put_apart, bits_ofNat, BitVec.reduceExtractLsb', BitVec.zero_or, BitVec.or_zero]

/-- Row 474 of the opcode table. -/
theorem RoundTrip.mrcDl1Data0 (cond rt) : RoundTrip.Statement (.mrcDl1Data0 cond rt) := fun hwf => by
  have h : (cond != 15) = true := hwf
  suffices H : ∀ x, x = 0x0E1F0F10#32 ||| put cond 28 ||| put rt 12 → decodeWord x = .ok (.mrcDl1Data0 cond rt) from H _ rfl
  intro x hx
  have hk : x &&& 0x0FFF0FFF = 0x0E1F0F10 := by simp (disch := decide) only [hx, or_and, put_and_apart]; rfl
  have hc : bits x 28 4 ≠ 15 := by
    simp (disch := decide) only [hx, bits_or, bits_put_same, bits_put_apart, bits_ofNat, BitVec.reduceExtractLsb', BitVec.zero_or, BitVec.or_zero]
    exact bne_iff_ne.mp h
  refine (decodeP15 hk hc (by decide) (by decide +kernel) rfl).trans ?_
  simp (disch := decide) only [hx, bits_or, bits_put_same, bits_put_apart, bits_ofNat, BitVec.reduceExtractLsb', BitVec.zero_or, BitVec.or_zero]

/-- Row 475 of the opcode table. -/
theorem RoundTrip.mcrDl1Data0 (cond rt) : RoundTrip.Statement (.mcrDl1Data0 cond rt) := fun hwf => by
  have h : (cond != 15) = true := hwf
  suffices H : ∀ x, x = 0x0E0F0F10#32 ||| put cond 28 ||| put rt 12 → decodeWord x = .ok (.mcrDl1Data0 cond rt) from H _ rfl
  intro x hx
  have hk : x &&& 0x0FFF0FFF = 0x0E0F0F10 := by simp (disch := decide) only [hx, or_and, put_and_apart]; rfl
  have hc : bits x 28 4 ≠ 15 := by
    simp (disch := decide) only [hx, bits_or, bits_put_same, bits_put_apart, bits_ofNat, BitVec.reduceExtractLsb', BitVec.zero_or, BitVec.or_zero]
    exact bne_iff_ne.mp h
  refine (decodeP15 hk hc (by decide) (by decide +kernel) rfl).trans ?_
  simp (disch := decide) only [hx, bits_or, bits_put_same, bits_put_apart, bits_ofNat, BitVec.reduceExtractLsb', BitVec.zero_or, BitVec.or_zero]

/-- Row 476 of the opcode table. -/
theorem RoundTrip.mrcDl1Data1 (cond rt) : RoundTrip.Statement (.mrcDl1Data1 cond rt) := fun hwf => by
  have h : (cond != 15) = true := hwf
  suffices H : ∀ x, x = 0x0E1F0F30#32 ||| put cond 28 ||| put rt 12 → decodeWord x = .ok (.mrcDl1Data1 cond rt) from H _ rfl
  intro x hx
  have hk : x &&& 0x0FFF0FFF = 0x0E1F0F30 := by simp (disch := decide) only [hx, or_and, put_and_apart]; rfl
  have hc : bits x 28 4 ≠ 15 := by
    simp (disch := decide) only [hx, bits_or, bits_put_same, bits_put_apart, bits_ofNat, BitVec.reduceExtractLsb', BitVec.zero_or, BitVec.or_zero]
    exact bne_iff_ne.mp h
  refine (decodeP15 hk hc (by decide) (by decide +kernel) rfl).trans ?_
  simp (disch := decide) only [hx, bits_or, bits_put_same, bits_put_apart, bits_ofNat, BitVec.reduceExtractLsb', BitVec.zero_or, BitVec.or_zero]

/-- Row 477 of the opcode table. -/
theorem RoundTrip.mcrDl1Data1 (cond rt) : RoundTrip.Statement (.mcrDl1Data1 cond rt) := fun hwf => by
  have h : (cond != 15) = true := hwf
  suffices H : ∀ x, x = 0x0E0F0F30#32 ||| put cond 28 ||| put rt 12 → decodeWord x = .ok (.mcrDl1Data1 cond rt) from H _ rfl
  intro x hx
  have hk : x &&& 0x0FFF0FFF = 0x0E0F0F30 := by simp (disch := decide) only [hx, or_and, put_and_apart]; rfl
  have hc : bits x 28 4 ≠ 15 := by
    simp (disch := decide) only [hx, bits_or, bits_put_same, bits_put_apart, bits_ofNat, BitVec.reduceExtractLsb', BitVec.zero_or, BitVec.or_zero]
    exact bne_iff_ne.mp h
  refine (decodeP15 hk hc (by decide) (by decide +kernel) rfl).trans ?_
  simp (disch := decide) only [hx, bits_or, bits_put_same, bits_put_apart, bits_ofNat, BitVec.reduceExtractLsb', BitVec.zero_or, BitVec.or_zero]

/-- Row 478 of the opcode table. -/
theorem RoundTrip.mcrDtlbCamWrite (cond rt) : RoundTrip.Statement (.mcrDtlbCamWrite cond rt) := fun hwf => by
  have h : (cond != 15) = true := hwf
  suffices H : ∀ x, x = 0x0E0F0F50#32 ||| put cond 28 ||| put rt 12 → decodeWord x = .ok (.mcrDtlbCamWrite cond rt) from H _ rfl
  intro x hx
  have hk : x &&& 0x0FFF0FFF = 0x0E0F0F50 := by simp (disch := decide) only [hx, or_and, put_and_apart]; rfl
  have hc : bits x 28 4 ≠ 15 := by
    simp (disch := decide) only [hx, bits_or, bits_put_same, bits_put_apart, bits_ofNat, BitVec.reduceExtractLsb', BitVec.zero_or, BitVec.or_zero]
    exact bne_iff_ne.mp h
  refine (decodeP15 hk hc (by decide) (by decide +kernel) rfl).trans ?_
  simp (disch := decide) only [hx, bits_or, bits_put_same, bits_put_apart, bits_ofNat, BitVec.reduceExtractLsb', BitVec.zero_or, BitVec.or_zero]

/-- Row 479 of the opcode table. -/
theorem RoundTrip.mcrDtlbAttrWrite (cond rt) : RoundTrip.Statement (.mcrDtlbAttrWrite cond rt) := fun hwf => by
  have h : (cond != 15) = true := hwf
  suffices H : ∀ x, x = 0x0E0F0F70#32 ||| put cond 28 ||| put rt 12 → decodeWord x = .ok (.mcrDtlbAttrWrite cond rt) from H _ rfl
  intro x hx
  have hk : x &&& 0x0FFF0FFF = 0x0E0F0F70 := by simp (disch := decide) only [hx, or_and, put_and_apart]; rfl
  have hc : bits x 28 4 ≠ 15 := by
    simp (disch := decide) only [hx, bits_or, bits_put_same, bits_put_apart, bits_ofNat, BitVec.reduceExtractLsb', BitVec.zero_or, BitVec.or_zero]
    exact bne_iff_ne.mp h
  refine (decodeP15 hk hc (by decide) (by decide +kernel) rfl).trans ?_
  simp (disch := decide) only [hx, bits_or, bits_put_same, bits_put_apart, bits_ofNat, BitVec.reduceExtractLsb', BitVec.zero_or, BitVec.or_zero]

/-- Row 480 of the opcode table. -/
theorem RoundTrip.mcrDtlbPaWrite (cond rt) : RoundTrip.Statement (.mcrDtlbPaWrite cond rt) := fun hwf => by
  have h : (cond != 15) = true := hwf
  suffices H : ∀ x, x = 0x0E0F0F90#32 ||| put cond 28 ||| put rt 12 → decodeWord x = .ok (.mcrDtlbPaWrite cond rt) from H _ rfl
  intro x hx
  have hk : x &&& 0x0FFF0FFF = 0x0E0F0F90 := by simp (disch := decide) only [hx, or_and, put_and_apart]; rfl
  have hc : bits x 28 4 ≠ 15 := by
    simp (disch := decide) only [hx, bits_or, bits_put_same, bits_put_apart, bits_ofNat, BitVec.reduceExtractLsb', BitVec.zero_or, BitVec.or_zero]
    exact bne_iff_ne.mp h
  refine (decodeP15 hk hc (by decide) (by decide +kernel) rfl).trans ?_
  simp (disch := decide) only [hx, bits_or, bits_put_same, bits_put_apart, bits_ofNat, BitVec.reduceExtractLsb', BitVec.zero_or, BitVec.or_zero]

/-- Row 481 of the opcode table. -/
theorem RoundTrip.mcrDhvabWrite (cond rt) : RoundTrip.Statement (.mcrDhvabWrite cond rt) := fun hwf => by
  have h : (cond != 15) = true := hwf
  suffices H : ∀ x, x = 0x0E0F0FB0#32 ||| put cond 28 ||| put rt 12 → decodeWord x = .ok (.mcrDhvabWrite cond rt) from H _ rfl
  intro x hx
  have hk : x &&& 0x0FFF0FFF = 0x0E0F0FB0 := by simp (disch := decide) only [hx, or_and, put_and_apart]; rfl
  have hc : bits x 28 4 ≠ 15 := by
    simp (disch := decide) only [hx, bits_or, bits_put_same, bits_put_apart, bits_ofNat, BitVec.reduceExtractLsb', BitVec.zero_or, BitVec.or_zero]
    exact bne_iff_ne.mp h
  refine (decodeP15 hk hc (by decide) (by decide +kernel) rfl).trans ?_
  simp (disch := decide) only [hx, bits_or, bits_put_same, bits_put_apart, bits_ofNat, BitVec.reduceExtractLsb', BitVec.zero_or, BitVec.or_zero]

/-- Row 482 of the opcode table. -/
theorem RoundTrip.mcrDtagWrite (cond rt) : RoundTrip.Statement (.mcrDtagWrite cond rt) := fun hwf => by
  have h : (cond != 15) = true := hwf
  suffices H : ∀ x, x = 0x0E0F0FD0#32 ||| put cond 28 ||| put rt 12 → decodeWord x = .ok (.mcrDtagWrite cond rt) from H _ rfl
  intro x hx
  have hk : x &&& 0x0FFF0FFF = 0x0E0F0FD0 := by simp (disch := decide) only [hx, or_and, put_and_apart]; rfl
  have hc : bits x 28 4 ≠ 15 := by
    simp (disch := decide) only [hx, bits_or, bits_put_same, bits_put_apart, bits_ofNat, BitVec.reduceExtractLsb', BitVec.zero_or, BitVec.or_zero]
    exact bne_iff_ne.mp h
  refine (decodeP15 hk hc (by decide) (by decide +kernel) rfl).trans ?_
  simp (disch := decide) only [hx, bits_or, bits_put_same, bits_put_apart, bits_ofNat, BitVec.reduceExtractLsb', BitVec.zero_or, BitVec.or_zero]

/-- Row 483 of the opcode table. -/
theorem RoundTrip.mcrDdataWrite (cond rt) : RoundTrip.Statement (.mcrDdataWrite cond rt) := fun hwf => by
  have h : (cond != 15) = true := hwf
  suffices H : ∀ x, x = 0x0E0F0FF0#32 ||| put cond 28 ||| put rt 12 → decodeWord x = .ok (.mcrDdataWrite cond rt) from H _ rfl
  intro x hx
  have hk : x &&& 0x0FFF0FFF = 0x0E0F0FF0 := by simp (disch := decide) only [hx, or_and, put_and_apart]; rfl
  have hc : bits x 28 4 ≠ 15 := by
    simp (disch := decide) only [hx, bits_or, bits_put_same, bits_put_apart, bits_ofNat, BitVec.reduceExtractLsb', BitVec.zero_or, BitVec.or_zero]
    exact bne_iff_ne.mp h
  refine (decodeP15 hk hc (by decide) (by decide +kernel) rfl).trans ?_
  simp (disch := decide) only [hx, bits_or, bits_put_same, bits_put_apart, bits_ofNat, BitVec.reduceExtractLsb', BitVec.zero_or, BitVec.or_zero]

/-- Row 484 of the opcode table. -/
theorem RoundTrip.mcrDtlbCamRead (cond rt) : RoundTrip.Statement (.mcrDtlbCamRead cond rt) := fun hwf => by
  have h : (cond != 15) = true := hwf
  suffices H : ∀ x, x = 0x0E0F0F52#32 ||| put cond 28 ||| put rt 12 → decodeWord x = .ok (.mcrDtlbCamRead cond rt) from H _ rfl
  intro x hx
  have hk : x &&& 0x0FFF0FFF = 0x0E0F0F52 := by simp (disch := decide) only [hx, or_and, put_and_apart]; rfl
  have hc : bits x 28 4 ≠ 15 := by
    simp (disch := decide) only [hx, bits_or, bits_put_same, bits_put_apart, bits_ofNat, BitVec.reduceExtractLsb', BitVec.zero_or, BitVec.or_zero]
    exact bne_iff_ne.mp h
  refine (decodeP15 hk hc (by decide) (by decide +kernel) rfl).trans ?_
  simp (disch := decide) only [hx, bits_or, bits_put_same, bits_put_apart, bits_ofNat, BitVec.reduceExtractLsb', BitVec.zero_or, BitVec.or_zero]

/-- Row 485 of the opcode table. -/
theorem RoundTrip.mcrDtlbAttrRead (cond rt) : RoundTrip.Statement (.mcrDtlbAttrRead cond rt) := fun hwf => by
  have h : (cond != 15) = true := hwf
  suffices H : ∀ x, x = 0x0E0F0F72#32 ||| put cond 28 ||| put rt 12 → decodeWord x = .ok (.mcrDtlbAttrRead cond rt) from H _ rfl
  intro x hx
  have hk : x &&& 0x0FFF0FFF = 0x0E0F0F72 := by simp (disch := decide) only [hx, or_and, put_and_apart]; rfl
  have hc : bits x 28 4 ≠ 15 := by
    simp (disch := decide) only [hx, bits_or, bits_put_same, bits_put_apart, bits_ofNat, BitVec.reduceExtractLsb', BitVec.zero_or, BitVec.or_zero]
    exact bne_iff_ne.mp h
  refine (decodeP15 hk hc (by decide) (by decide +kernel) rfl).trans ?_
  simp (disch := decide) only [hx, bits_or, bits_put_same, bits_put_apart, bits_ofNat, BitVec.reduceExtractLsb', BitVec.zero_or, BitVec.or_zero]

/-- Row 486 of the opcode table. -/
theorem RoundTrip.mcrDtlbPaRead (cond rt) : RoundTrip.Statement (.mcrDtlbPaRead cond rt) := fun hwf => by
  have h : (cond != 15) = true := hwf
  suffices H : ∀ x, x = 0x0E0F0F92#32 ||| put cond 28 ||| put rt 12 → decodeWord x = .ok (.mcrDtlbPaRead cond rt) from H _ rfl
  intro x hx
  have hk : x &&& 0x0FFF0FFF = 0x0E0F0F92 := by simp (disch := decide) only [hx, or_and, put_and_apart]; rfl
  have hc : bits x 28 4 ≠ 15 := by
    simp (disch := decide) only [hx, bits_or, bits_put_same, bits_put_apart, bits_ofNat, BitVec.reduceExtractLsb', BitVec.zero_or, BitVec.or_zero]
    exact bne_iff_ne.mp h
  refine (decodeP15 hk hc (by decide) (by decide +kernel) rfl).trans ?_
  simp (disch := decide) only [hx, bits_or, bits_put_same, bits_put_apart, bits_ofNat, BitVec.reduceExtractLsb', BitVec.zero_or, BitVec.or_zero]

/-- Row 487 of the opcode table. -/
theorem RoundTrip.mcrDhvabRead (cond rt) : RoundTrip.Statement (.mcrDhvabRead cond rt) := fun hwf => by
  have h : (cond != 15) = true := hwf
  suffices H : ∀ x, x = 0x0E0F0FB2#32 ||| put cond 28 ||| put rt 12 → decodeWord x = .ok (.mcrDhvabRead cond rt) from H _ rfl
  intro x hx
  have hk : x &&& 0x0FFF0FFF = 0x0E0F0FB2 := by simp (disch := decide) only [hx, or_and, put_and_apart]; rfl
  have hc : bits x 28 4 ≠ 15 := by
    simp (disch := decide) only [hx, bits_or, bits_put_same, bits_put_apart, bits_ofNat, BitVec.reduceExtractLsb', BitVec.zero_or, BitVec.or_zero]
    exact bne_iff_ne.mp h
  refine (decodeP15 hk hc (by decide) (by decide +kernel) rfl).trans ?_
  simp (disch := decide) only [hx, bits_or, bits_put_same, bits_put_apart, bits_ofNat, BitVec.reduceExtractLsb', BitVec.zero_or, BitVec.or_zero]

/-- Row 488 of the opcode table. -/
theorem RoundTrip.mcrDtagRead (cond rt) : RoundTrip.Statement (.mcrDtagRead cond rt) := fun hwf => by
  have h : (cond != 15) = true := hwf
  suffices H : ∀ x, x = 0x0E0F0FD2#32 ||| put cond 28 ||| put rt 12 → decodeWord x = .ok (.mcrDtagRead cond rt) from H _ rfl
  intro x hx
  have hk : x &&& 0x0FFF0FFF = 0x0E0F0FD2 := by simp (disch := decide) only [hx, or_and, put_and_apart]; rfl
  have hc : bits x 28 4 ≠ 15 := by
    simp (disch := decide) only [hx, bits_or, bits_put_same, bits_put_apart, bits_ofNat, BitVec.reduceExtractLsb', BitVec.zero_or, BitVec.or_zero]
    exact bne_iff_ne.mp h
  refine (decodeP15 hk hc (by decide) (by decide +kernel) rfl).trans ?_
  simp (disch := decide) only [hx, bits_or, bits_put_same, bits_put_apart, bits_ofNat, BitVec.reduceExtractLsb', BitVec.zero_or, BitVec.or_zero]

/-- Row 489 of the opcode table. -/
theorem RoundTrip.mcrDdataRead (cond rt) : RoundTrip.Statement (.mcrDdataRead cond rt) := fun hwf => by
  have h : (cond != 15) = true := hwf
  suffices H : ∀ x, x = 0x0E0F0FF2#32 ||| put cond 28 ||| put rt 12 → decodeWord x = .ok (.mcrDdataRead cond rt) from H _ rfl
  intro x hx
  have hk : x &&& 0x0FFF0FFF = 0x0E0F0FF2 := by simp (disch := decide) only [hx, or_and, put_and_apart]; rfl
  have hc : bits x 28 4 ≠ 15 := by
    simp (disch := decide) only [hx, bits_or, bits_put_same, bits_put_apart, bits_ofNat, BitVec.reduceExtractLsb', BitVec.zero_or, BitVec.or_zero]
    exact bne_iff_ne.mp h
  refine (decodeP15 hk hc (by decide) (by decide +kernel) rfl).trans ?_
  simp (disch := decide) only [hx, bits_or, bits_put_same, bits_put_apart, bits_ofNat, BitVec.reduceExtractLsb', BitVec.zero_or, BitVec.or_zero]

/-- Row 490 of the opcode table. -/
theorem RoundTrip.mrcIl1Data0 (cond rt) : RoundTrip.Statement (.mrcIl1Data0 cond rt) := fun hwf => by
  have h : (cond != 15) = true := hwf
  suffices H : ∀ x, x = 0x0E1F0F11#32 ||| put cond 28 ||| put rt 12 → decodeWord x = .ok (.mrcIl1Data0 cond rt) from H _ rfl
  intro x hx
  have hk : x &&& 0x0FFF0FFF = 0x0E1F0F11 := by simp (disch := decide) only [hx, or_and, put_and_apart]; rfl
  have hc : bits x 28 4 ≠ 15 := by
    simp (disch := decide) only [hx, bits_or, bits_put_same, bits_put_apart, bits_ofNat, BitVec.reduceExtractLsb', BitVec.zero_or, BitVec.or_zero]
    exact bne_iff_ne.mp h
  refine (decodeP15 hk hc (by decide) (by decide +kernel) rfl).trans ?_
  simp (disch := decide) only [hx, bits_or, bits_put_same, bits_put_apart, bits_ofNat, BitVec.reduceExtractLsb', BitVec.zero_or, BitVec.or_zero]

/-- Row 491 of the opcode table. -/
theorem RoundTrip.mcrIl1Data0 (cond rt) : RoundTrip.Statement (.mcrIl1Data0 cond rt) := fun hwf => by
  have h : (cond != 15) = true := hwf
  suffices H : ∀ x, x = 0x0E0F0F11#32 ||| put cond 28 ||| put rt 12 → decodeWord x = .ok (.mcrIl1Data0 cond rt) from H _ rfl
  intro x hx
  have hk : x &&& 0x0FFF0FFF = 0x0E0F0F11 := by simp (disch := decide) only [hx, or_and, put_and_apart]; rfl
  have hc : bits x 28 4 ≠ 15 := by
    simp (disch := decide) only [hx, bits_or, bits_put_same, bits_put_apart, bits_ofNat, BitVec.reduceExtractLsb', BitVec.zero_or, BitVec.or_zero]
    exact bne_iff_ne.mp h
  refine (decodeP15 hk hc (by decide) (by decide +kernel) rfl).trans ?_
  simp (disch := decide) only [hx, bits_or, bits_put_same, bits_put_apart, bits_ofNat, BitVec.reduceExtractLsb', BitVec.zero_or, BitVec.or_zero]

/-- Row 492 of the opcode table. -/
theorem RoundTrip.mrcIl1Data1 (cond rt) : RoundTrip.Statement (.mrcIl1Data1 cond rt) := fun hwf => by
  have h : (cond != 15) = true := hwf
  suffices H : ∀ x, x = 0x0E1F0F31#32 ||| put cond 28 ||| put rt 12 → decodeWord x = .ok (.mrcIl1Data1 cond rt) from H _ rfl
  intro x hx
  have hk : x &&& 0x0FFF0FFF = 0x0E1F0F31 := by simp (disch := decide) only [hx, or_and, put_and_apart]; rfl
  have hc : bits x 28 4 ≠ 15 := by
    simp (disch := decide) only [hx, bits_or, bits_put_same, bits_put_apart, bits_ofNat, BitVec.reduceExtractLsb', BitVec.zero_or, BitVec.or_zero]
    exact bne_iff_ne.mp h
  refine (decodeP15 hk hc (by decide) (by decide +kernel) rfl).trans ?_
  simp (disch := decide) only [hx, bits_or, bits_put_same, bits_put_apart, bits_ofNat, BitVec.reduceExtractLsb', BitVec.zero_or, BitVec.or_zero]

/-- Row 493 of the opcode table. -/
theorem RoundTrip.mcrIl1Data1 (cond rt) : RoundTrip.Statement (.mcrIl1Data1 cond rt) := fun hwf => by
  have h : (cond != 15) = true := hwf
  suffices H : ∀ x, x = 0x0E0F0F31#32 ||| put cond 28 ||| put rt 12 → decodeWord x = .ok (.mcrIl1Data1 cond rt) from H _ rfl
  intro x hx
  have hk : x &&& 0x0FFF0FFF = 0x0E0F0F31 := by simp (disch := decide) only [hx, or_and, put_and_apart]; rfl
  have hc : bits x 28 4 ≠ 15 := by
    simp (disch := decide) only [hx, bits_or, bits_put_same, bits_put_apart, bits_ofNat, BitVec.reduceExtractLsb', BitVec.zero_or, BitVec.or_zero]
    exact bne_iff_ne.mp h
  refine (decodeP15 hk hc (by decide) (by decide +kernel) rfl).trans ?_
  simp (disch := decide) only [hx, bits_or, bits_put_same, bits_put_apart, bits_ofNat, BitVec.reduceExtractLsb', BitVec.zero_or, BitVec.or_zero]

/-- Row 494 of the opcode table. -/
theorem RoundTrip.mcrItlbCamWrite (cond rt) : RoundTrip.Statement (.mcrItlbCamWrite cond rt) := fun hwf => by
  have h : (cond != 15) = true := hwf
  suffices H : ∀ x, x = 0x0E0F0F51#32 ||| put cond 28 ||| put rt 12 → decodeWord x = .ok (.mcrItlbCamWrite cond rt) from H _ rfl
  intro x hx
  have hk : x &&& 0x0FFF0FFF = 0x0E0F0F51 := by simp (disch := decide) only [hx, or_and, put_and_apart]; rfl
  have hc : bits x 28 4 ≠ 15 := by
    simp (disch := decide) only [hx, bits_or, bits_put_same, bits_put_apart, bits_ofNat, BitVec.reduceExtractLsb', BitVec.zero_or, BitVec.or_zero]
    exact bne_iff_ne.mp h
  refine (decodeP15 hk hc (by decide) (by decide +kernel) rfl).trans ?_
  simp (disch := decide) only [hx, bits_or, bits_put_same, bits_put_apart, bits_ofNat, BitVec.reduceExtractLsb', BitVec.zero_or, BitVec.or_zero]

/-- Row 495 of the opcode table. -/
theorem RoundTrip.mcrItlbAttrWrite (cond rt) : RoundTrip.Statement (.mcrItlbAttrWrite cond rt) := fun hwf => by
  have h : (cond != 15) = true := hwf
  suffices H : ∀ x, x = 0x0E0F0F71#32 ||| put cond 28 ||| put rt 12 → decodeWord x = .ok (.mcrItlbAttrWrite cond rt) from H _ rfl
  intro x hx
  have hk : x &&& 0x0FFF0FFF = 0x0E0F0F71 := by simp (disch := decide) only [hx, or_and, put_and_apart]; rfl
  have hc : bits x 28 4 ≠ 15 := by
    simp (disch := decide) only [hx, bits_or, bits_put_same, bits_put_apart, bits_ofNat, BitVec.reduceExtractLsb', BitVec.zero_or, BitVec.or_zero]
    exact bne_iff_ne.mp h
  refine (decodeP15 hk hc (by decide) (by decide +kernel) rfl).trans ?_
  simp (disch := decide) only [hx, bits_or, bits_put_same, bits_put_apart, bits_ofNat, BitVec.reduceExtractLsb', BitVec.zero_or, BitVec.or_zero]

/-- Row 496 of the opcode table. -/
theorem RoundTrip.mcrItlbPaWrite (cond rt) : RoundTrip.Statement (.mcrItlbPaWrite cond rt) := fun hwf => by
  have h : (cond != 15) = true := hwf
  suffices H : ∀ x, x = 0x0E0F0F91#32 ||| put cond 28 ||| put rt 12 → decodeWord x = .ok (.mcrItlbPaWrite cond rt) from H _ rfl
  intro x hx
  have hk : x &&& 0x0FFF0FFF = 0x0E0F0F91 := by simp (disch := decide) only [hx, or_and, put_and_apart]; rfl
  have hc : bits x 28 4 ≠ 15 := by
    simp (disch := decide) only [hx, bits_or, bits_put_same, bits_put_apart, bits_ofNat, BitVec.reduceExtractLsb', BitVec.zero_or, BitVec.or_zero]
    exact bne_iff_ne.mp h
  refine (decodeP15 hk hc (by decide) (by decide +kernel) rfl).trans ?_
  simp (disch := decide) only [hx, bits_or, bits_put_same, bits_put_apart, bits_ofNat, BitVec.reduceExtractLsb', BitVec.zero_or, BitVec.or_zero]

/-- Row 497 of the opcode table. -/
theorem RoundTrip.mcrIhvabWrite (cond rt) : RoundTrip.Statement (.mcrIhvabWrite cond rt) := fun hwf => by
  have h : (cond != 15) = true := hwf
  suffices H : ∀ x, x = 0x0E0F0FB1#32 ||| put cond 28 ||| put rt 12 → decodeWord x = .ok (.mcrIhvabWrite cond rt) from H _ rfl
  intro x hx
  have hk : x &&& 0x0FFF0FFF = 0x0E0F0FB1 := by simp (disch := decide) only [hx, or_and, put_and_apart]; rfl
  have hc : bits x 28 4 ≠ 15 := by
    simp (disch := decide) only [hx, bits_or, bits_put_same, bits_put_apart, bits_ofNat, BitVec.reduceExtractLsb', BitVec.zero_or, BitVec.or_zero]
    exact bne_iff_ne.mp h
  refine (decodeP15 hk hc (by decide) (by decide +kernel) rfl).trans ?_
  simp (disch := decide) only [hx, bits_or, bits_put_same, bits_put_apart, bits_ofNat, BitVec.reduceExtractLsb', BitVec.zero_or, BitVec.or_zero]

/-- Row 498 of the opcode table. -/
theorem RoundTrip.mcrItagWrite (cond rt) : RoundTrip.Statement (.mcrItagWrite cond rt) := fun hwf => by
  have h : (cond != 15) = true := hwf
  suffices H : ∀ x, x = 0x0E0F0FD1#32 ||| put cond 28 ||| put rt 12 → decodeWord x = .ok (.mcrItagWrite cond rt) from H _ rfl
  intro x hx
  have hk : x &&& 0x0FFF0FFF = 0x0E0F0FD1 := by simp (disch := decide) only [hx, or_and, put_and_apart]; rfl
  have hc : bits x 28 4 ≠ 15 := by
    simp (disch := decide) only [hx, bits_or, bits_put_same, bits_put_apart, bits_ofNat, BitVec.reduceExtractLsb', BitVec.zero_or, BitVec.or_zero]
    exact bne_iff_ne.mp h
  refine (decodeP15 hk hc (by decide) (by decide +kernel) rfl).trans ?_
  simp (disch := decide) only [hx, bits_or, bits_put_same, bits_put_apart, bits_ofNat, BitVec.reduceExtractLsb', BitVec.zero_or, BitVec.or_zero]

/-- Row 499 of the opcode table. -/
theorem RoundTrip.mcrIdataWrite (cond rt) : RoundTrip.Statement (.mcrIdataWrite cond rt) := fun hwf => by
  have h : (cond != 15) = true := hwf
  suffices H : ∀ x, x = 0x0E0F0FF1#32 ||| put cond 28 ||| put rt 12 → decodeWord x = .ok (.mcrIdataWrite cond rt) from H _ rfl
  intro x hx
  have hk : x &&& 0x0FFF0FFF = 0x0E0F0FF1 := by simp (disch := decide) only [hx, or_and, put_and_apart]; rfl
  have hc : bits x 28 4 ≠ 15 := by
    simp (disch := decide) only [hx, bits_or, bits_put_same, bits_put_apart, bits_ofNat, BitVec.reduceExtractLsb', BitVec.zero_or, BitVec.or_zero]
    exact bne_iff_ne.mp h
  refine (decodeP15 hk hc (by decide) (by decide +kernel) rfl).trans ?_
  simp (disch := decide) only [hx, bits_or, bits_put_same, bits_put_apart, bits_ofNat, BitVec.reduceExtractLsb', BitVec.zero_or, BitVec.or_zero]

/-- Row 500 of the opcode table. -/
theorem RoundTrip.mcrItlbCamRead (cond rt) : RoundTrip.Statement (.mcrItlbCamRead cond rt) := fun hwf => by
  have h : (cond != 15) = true := hwf
  suffices H : ∀ x, x = 0x0E0F0F53#32 ||| put cond 28 ||| put rt 12 → decodeWord x = .ok (.mcrItlbCamRead cond rt) from H _ rfl
  intro x hx
  have hk : x &&& 0x0FFF0FFF = 0x0E0F0F53 := by simp (disch := decide) only [hx, or_and, put_and_apart]; rfl
  have hc : bits x 28 4 ≠ 15 := by
    simp (disch := decide) only [hx, bits_or, bits_put_same, bits_put_apart, bits_ofNat, BitVec.reduceExtractLsb', BitVec.zero_or, BitVec.or_zero]
    exact bne_iff_ne.mp h
  refine (decodeP15 hk hc (by decide) (by decide +kernel) rfl).trans ?_
  simp (disch := decide) only [hx, bits_or, bits_put_same, bits_put_apart, bits_ofNat, BitVec.reduceExtractLsb', BitVec.zero_or, BitVec.or_zero]

/-- Row 501 of the opcode table. -/
theorem RoundTrip.mcrItlbAttrRead (cond rt) : RoundTrip.Statement (.mcrItlbAttrRead cond rt) := fun hwf => by
  have h : (cond != 15) = true := hwf
  suffices H : ∀ x, x = 0x0E0F0F73#32 ||| put cond 28 ||| put rt 12 → decodeWord x = .ok (.mcrItlbAttrRead cond rt) from H _ rfl
  intro x hx
  have hk : x &&& 0x0FFF0FFF = 0x0E0F0F73 := by simp (disch := decide) only [hx, or_and, put_and_apart]; rfl
  have hc : bits x 28 4 ≠ 15 := by
    simp (disch := decide) only [hx, bits_or, bits_put_same, bits_put_apart, bits_ofNat, BitVec.reduceExtractLsb', BitVec.zero_or, BitVec.or_zero]
    exact bne_iff_ne.mp h
  refine (decodeP15 hk hc (by decide) (by decide +kernel) rfl).trans ?_
  simp (disch := decide) only [hx, bits_or, bits_put_same, bits_put_apart, bits_ofNat, BitVec.reduceExtractLsb', BitVec.zero_or, BitVec.or_zero]

/-- Row 502 of the opcode table. -/
theorem RoundTrip.mcrItlbPaRead (cond rt) : RoundTrip.Statement (.mcrItlbPaRead cond rt) := fun hwf => by
  have h : (cond != 15) = true := hwf
  suffices H : ∀ x, x = 0x0E0F0F93#32 ||| put cond 28 ||| put rt 12 → decodeWord x = .ok (.mcrItlbPaRead cond rt) from H _ rfl
  intro x hx
  have hk : x &&& 0x0FFF0FFF = 0x0E0F0F93 := by simp (disch := decide) only [hx, or_and, put_and_apart]; rfl
  have hc : bits x 28 4 ≠ 15 := by
    simp (disch := decide) only [hx, bits_or, bits_put_same, bits_put_apart, bits_ofNat, BitVec.reduceExtractLsb', BitVec.zero_or, BitVec.or_zero]
    exact bne_iff_ne.mp h
  refine (decodeP15 hk hc (by decide) (by decide +kernel) rfl).trans ?_
  simp (disch := decide) only [hx, bits_or, bits_put_same, bits_put_apart, bits_ofNat, BitVec.reduceExtractLsb', BitVec.zero_or, BitVec.or_zero]

/-- Row 503 of the opcode table. -/
theorem RoundTrip.mcrIhvabRead (cond rt) : RoundTrip.Statement (.mcrIhvabRead cond rt) := fun hwf => by
  have h : (cond != 15) = true := hwf
  suffices H : ∀ x, x = 0x0E0F0FB3#32 ||| put cond 28 ||| put rt 12 → decodeWord x = .ok (.mcrIhvabRead cond rt) from H _ rfl
  intro x hx
  have hk : x &&& 0x0FFF0FFF = 0x0E0F0FB3 := by simp (disch := decide) only [hx, or_and, put_and_apart]; rfl
  have hc : bits x 28 4 ≠ 15 := by
    simp (disch := decide) only [hx, bits_or, bits_put_same, bits_put_apart, bits_ofNat, BitVec.reduceExtractLsb', BitVec.zero_or, BitVec.or_zero]
    exact bne_iff_ne.mp h
  refine (decodeP15 hk hc (by decide) (by decide +kernel) rfl).trans ?_
  simp (disch := decide) only [hx, bits_or, bits_put_same, bits_put_apart, bits_ofNat, BitVec.reduceExtractLsb', BitVec.zero_or, BitVec.or_zero]

/-- Row 504 of the opcode table. -/
theorem RoundTrip.mcrItagRead (cond rt) : RoundTrip.Statement (.mcrItagRead cond rt) := fun hwf => by
  have h : (cond != 15) = true := hwf
  suffices H : ∀ x, x = 0x0E0F0FD3#32 ||| put cond 28 ||| put rt 12 → decodeWord x = .ok (.mcrItagRead cond rt) from H _ rfl
  intro x hx
  have hk : x &&& 0x0FFF0FFF = 0x0E0F0FD3 := by simp (disch := decide) only [hx, or_and, put_and_apart]; rfl
  have hc : bits x 28 4 ≠ 15 := by
    simp (disch := decide) only [hx, bits_or, bits_put_same, bits_put_apart, bits_ofNat, BitVec.reduceExtractLsb', BitVec.zero_or, BitVec.or_zero]
    exact bne_iff_ne.mp h
  refine (decodeP15 hk hc (by decide) (by decide +kernel) rfl).trans ?_
  simp (disch := decide) only [hx, bits_or, bits_put_same, bits_put_apart, bits_ofNat, BitVec.reduceExtractLsb', BitVec.zero_or, BitVec.or_zero]

/-- Row 505 of the opcode table. -/
theorem RoundTrip.mcrIdataRead (cond rt) : RoundTrip.Statement (.mcrIdataRead cond rt) := fun hwf => by
  have h : (cond != 15) = true := hwf
  suffices H : ∀ x, x = 0x0E0F0FF3#32 ||| put cond 28 ||| put rt 12 → decodeWord x = .ok (.mcrIdataRead cond rt) from H _ rfl
  intro x hx
  have hk : x &&& 0x0FFF0FFF = 0x0E0F0FF3 := by simp (disch := decide) only [hx, or_and, put_and_apart]; rfl
  have hc : bits x 28 4 ≠ 15 := by
    simp (disch := decide) only [hx, bits_or, bits_put_same, bits_put_apart, bits_ofNat, BitVec.reduceExtractLsb', BitVec.zero_or, BitVec.or_zero]
    exact bne_iff_ne.mp h
  refine (decodeP15 hk hc (by decide) (by decide +kernel) rfl).trans ?_
  simp (disch := decide) only [hx, bits_or, bits_put_same, bits_put_apart, bits_ofNat, BitVec.reduceExtractLsb', BitVec.zero_or, BitVec.or_zero]

/-- Row 506 of the opcode table. -/
theorem RoundTrip.mcrGhbWrite (cond rt) : RoundTrip.Statement (.mcrGhbWrite cond rt) := fun hwf => by
  have h : (cond != 15) = true := hwf
  suffices H : ∀ x, x = 0x0E0F0F55#32 ||| put cond 28 ||| put rt 12 → decodeWord x = .ok (.mcrGhbWrite cond rt) from H _ rfl
  intro x hx
  have hk : x &&& 0x0FFF0FFF = 0x0E0F0F55 := by simp (disch := decide) only [hx, or_and, put_and_apart]; rfl
  have hc : bits x 28 4 ≠ 15 := by
    simp (disch := decide) only [hx, bits_or, bits_put_same, bits_put_apart, bits_ofNat, BitVec.reduceExtractLsb', BitVec.zero_or, BitVec.or_zero]
    exact bne_iff_ne.mp h
  refine (decodeP15 hk hc (by decide) (by decide +kernel) rfl).trans ?_
  simp (disch := decide) only [hx, bits_or, bits_put_same, bits_put_apart, bits_ofNat, BitVec.reduceExtractLsb', BitVec.zero_or, BitVec.or_zero]

/-- Row 507 of the opcode table. -/
theorem RoundTrip.mcrBtbWrite (cond rt) : RoundTrip.Statement (.mcrBtbWrite cond rt) := fun hwf => by
  have h : (cond != 15) = true := hwf
  suffices H : ∀ x, x = 0x0E0F0F75#32 ||| put cond 28 ||| put rt 12 → decodeWord x = .ok (.mcrBtbWrite cond rt) from H _ rfl
  intro x hx
  have hk : x &&& 0x0FFF0FFF = 0x0E0F0F75 := by simp (disch := decide) only [hx, or_and, put_and_apart]; rfl
  have hc : bits x 28 4 ≠ 15 := by
    simp (disch := decide) only [hx, bits_or, bits_put_same, bits_put_apart, bits_ofNat, BitVec.reduceExtractLsb', BitVec.zero_or, BitVec.or_zero]
    exact bne_iff_ne.mp h
  refine (decodeP15 hk hc (by decide) (by decide +kernel) rfl).trans ?_
  simp (disch := decide) only [hx, bits_or, bits_put_same, bits_put_apart, bits_ofNat, BitVec.reduceExtractLsb', BitVec.zero_or, BitVec.or_zero]

/-- Row 508 of the opcode table. -/
theorem RoundTrip.mcrGhbRead (cond rt) : RoundTrip.Statement (.mcrGhbRead cond rt) := fun hwf => by
  have h : (cond != 15) = true := hwf
  suffices H : ∀ x, x = 0x0E0F0F57#32 ||| put cond 28 ||| put rt 12 → decodeWord x = .ok (.mcrGhbRead cond rt) from H _ rfl
  intro x hx
  have hk : x &&& 0x0FFF0FFF = 0x0E0F0F57 := by simp (disch := decide) only [hx, or_and, put_and_apart]; rfl
  have hc : bits x 28 4 ≠ 15 := by
    simp (disch := decide) only [hx, bits_or, bits_put_same, bits_put_apart, bits_ofNat, BitVec.reduceExtractLsb', BitVec.zero_or, BitVec.or_zero]
    exact bne_iff_ne.mp h
  refine (decodeP15 hk hc (by decide) (by decide +kernel) rfl).trans ?_
  simp (disch := decide) only [hx, bits_or, bits_put_same, bits_put_apart, bits_ofNat, BitVec.reduceExtractLsb', BitVec.zero_or, BitVec.or_zero]

/-- Row 509 of the opcode table. -/
theorem RoundTrip.mcrBtbRead (cond rt) : RoundTrip.Statement (.mcrBtbRead cond rt) := fun hwf => by
  have h : (cond != 15) = true := hwf
  suffices H : ∀ x, x = 0x0E0F0F77#32 ||| put cond 28 ||| put rt 12 → decodeWord x = .ok (.mcrBtbRead cond rt) from H _ rfl
  intro x hx
  have hk : x &&& 0x0FFF0FFF = 0x0E0F0F77 := by simp (disch := decide) only [hx, or_and, put_and_apart]; rfl
  have hc : bits x 28 4 ≠ 15 := by
    simp (disch := decide) only [hx, bits_or, bits_put_same, bits_put_apart, bits_ofNat, BitVec.reduceExtractLsb', BitVec.zero_or, BitVec.or_zero]
    exact bne_iff_ne.mp h
  refine (decodeP15 hk hc (by decide) (by decide +kernel) rfl).trans ?_
  simp (disch := decide) only [hx, bits_or, bits_put_same, bits_put_apart, bits_ofNat, BitVec.reduceExtractLsb', BitVec.zero_or, BitVec.or_zero]

/-- Row 510 of the opcode table. -/
theorem RoundTrip.mrcL2Data0 (cond rt) : RoundTrip.Statement (.mrcL2Data0 cond rt) := fun hwf => by
  have h : (cond != 15) = true := hwf
  suffices H : ∀ x, x = 0x0E1F0F18#32 ||| put cond 28 ||| put rt 12 → decodeWord x = .ok (.mrcL2Data0 cond rt) from H _ rfl
  intro x hx
  have hk : x &&& 0x0FFF0FFF = 0x0E1F0F18 := by simp (disch := decide) only [hx, or_and, put_and_apart]; rfl
  have hc : bits x 28 4 ≠ 15 := by
    simp (disch := decide) only [hx, bits_or, bits_put_same, bits_put_apart, bits_ofNat, BitVec.reduceExtractLsb', BitVec.zero_or, BitVec.or_zero]
    exact bne_iff_ne.mp h
  refine (decodeP15 hk hc (by decide) (by decide +kernel) rfl).trans ?_
  simp (disch := decide) only [hx, bits_or, bits_put_same, bits_put_apart, bits_ofNat, BitVec.reduceExtractLsb', BitVec.zero_or, BitVec.or_zero]

/-- Row 511 of the opcode table. -/
theorem RoundTrip.mcrL2Data0 (cond rt) : RoundTrip.Statement (.mcrL2Data0 cond rt) := fun hwf => by
  have h : (cond != 15) = true := hwf
  suffices H : ∀ x, x = 0x0E0F0F18#32 ||| put cond 28 ||| put rt 12 → decodeWord x = .ok (.mcrL2Data0 cond rt) from H _ rfl
  intro x hx
  have hk : x &&& 0x0FFF0FFF = 0x0E0F0F18 := by simp (disch := decide) only [hx, or_and, put_and_apart]; rfl
  have hc : bits x 28 4 ≠ 15 := by
    simp (disch := decide) only [hx, bits_or, bits_put_same, bits_put_apart, bits_ofNat, BitVec.reduceExtractLsb', BitVec.zero_or, BitVec.or_zero]
    exact bne_iff_ne.mp h
  refine (decodeP15 hk hc (by decide) (by decide +kernel) rfl).trans ?_
  simp (disch := decide) only [hx, bits_or, bits_put_same, bits_put_apart, bits_ofNat, BitVec.reduceExtractLsb', BitVec.zero_or, BitVec.or_zero]

/-- Row 512 of the opcode table. -/
theorem RoundTrip.mrcL2Data1 (cond rt) : RoundTrip.Statement (.mrcL2Data1 cond rt) := fun hwf => by
  have h : (cond != 15) = true := hwf
  suffices H : ∀ x, x = 0x0E1F0F38#32 ||| put cond 28 ||| put rt 12 → decodeWord x = .ok (.mrcL2Data1 cond rt) from H _ rfl
  intro x hx
  have hk : x &&& 0x0FFF0FFF = 0x0E1F0F38 := by simp (disch := decide) only [hx, or_and, put_and_apart]; rfl
  have hc : bits x 28 4 ≠ 15 := by
    simp (disch := decide) only [hx, bits_or, bits_put_same, bits_put_apart, bits_ofNat, BitVec.reduceExtractLsb', BitVec.zero_or, BitVec.or_zero]
    exact bne_iff_ne.mp h
  refine (decodeP15 hk hc (by decide) (by decide +kernel) rfl).trans ?_
  simp (disch := decide) only [hx, bits_or, bits_put_same, bits_put_apart, bits_ofNat, BitVec.reduceExtractLsb', BitVec.zero_or, BitVec.or_zero]

/-- Row 513 of the opcode table. -/
theorem RoundTrip.mcrL2Data1 (cond rt) : RoundTrip.Statement (.mcrL2Data1 cond rt) := fun hwf => by
  have h : (cond != 15) = true := hwf
  suffices H : ∀ x, x = 0x0E0F0F38#32 ||| put cond 28 ||| put rt 12 → decodeWord x = .ok (.mcrL2Data1 cond rt) from H _ rfl
  intro x hx
  have hk : x &&& 0x0FFF0FFF = 0x0E0F0F38 := by simp (disch := decide) only [hx, or_and, put_and_apart]; rfl
  have hc : bits x 28 4 ≠ 15 := by
    simp (disch := decide) only [hx, bits_or, bits_put_same, bits_put_apart, bits_ofNat, BitVec.reduceExtractLsb', BitVec.zero_or, BitVec.or_zero]
    exact bne_iff_ne.mp h
  refine (decodeP15 hk hc (by decide) (by decide +kernel) rfl).trans ?_
  simp (disch := decide) only [hx, bits_or, bits_put_same, bits_put_apart, bits_ofNat, BitVec.reduceExtractLsb', BitVec.zero_or, BitVec.or_zero]

/-- Row 514 of the opcode table. -/
theorem RoundTrip.mcrL2TagWrite (cond rt) : RoundTrip.Statement (.mcrL2TagWrite cond rt) := fun hwf => by
  have h : (cond != 15) = true := hwf
  suffices H : ∀ x, x = 0x0E0F0F58#32 ||| put cond 28 ||| put rt 12 → decodeWord x = .ok (.mcrL2TagWrite cond rt) from H _ rfl
  intro x hx
  have hk : x &&& 0x0FFF0FFF = 0x0E0F0F58 := by simp (disch := decide) only [hx, or_and, put_and_apart]; rfl
  have hc : bits x 28 4 ≠ 15 := by
    simp (disch := decide) only [hx, bits_or, bits_put_same, bits_put_apart, bits_ofNat, BitVec.reduceExtractLsb', BitVec.zero_or, BitVec.or_zero]
    exact bne_iff_ne.mp h
  refine (decodeP15 hk hc (by decide) (by decide +kernel) rfl).trans ?_
  simp (disch := decide) only [hx, bits_or, bits_put_same, bits_put_apart, bits_ofNat, BitVec.reduceExtractLsb', BitVec.zero_or, BitVec.or_zero]

/-- Row 515 of the opcode table. -/
theorem RoundTrip.mcrL2DataWrite (cond rt) : RoundTrip.Statement (.mcrL2DataWrite cond rt) := fun hwf => by
  have h : (cond != 15) = true := hwf
  suffices H : ∀ x, x = 0x0E0F0F78#32 ||| put cond 28 ||| put rt 12 → decodeWord x = .ok (.mcrL2DataWrite cond rt) from H _ rfl
  intro x hx
  have hk : x &&& 0x0FFF0FFF = 0x0E0F0F78 := by simp (disch := decide) only [hx, or_and, put_and_apart]; rfl
  have hc : bits x 28 4 ≠ 15 := by
    simp (disch := decide) only [hx, bits_or, bits_put_same, bits_put_apart, bits_ofNat, BitVec.reduceExtractLsb', BitVec.zero_or, BitVec.or_zero]
    exact bne_iff_ne.mp h
  refine (decodeP15 hk hc (by decide) (by decide +kernel) rfl).trans ?_
  simp (disch := decide) only [hx, bits_or, bits_put_same, bits_put_apart, bits_ofNat, BitVec.reduceExtractLsb', BitVec.zero_or, BitVec.or_zero]

/-- Row 516 of the opcode table. -/
theorem RoundTrip.mcrL2ParityWrite (cond rt) : RoundTrip.Statement (.mcrL2ParityWrite cond rt) := fun hwf => by
  have h : (cond != 15) = true := hwf
  suffices H : ∀ x, x = 0x0E0F0F98#32 ||| put cond 28 ||| put rt 12 → decodeWord x = .ok (.mcrL2ParityWrite cond rt) from H _ rfl
  intro x hx
  have hk : x &&& 0x0FFF0FFF = 0x0E0F0F98 := by simp (disch := decide) only [hx, or_and, put_and_apart]; rfl
  have hc : bits x 28 4 ≠ 15 := by
    simp (disch := decide) only [hx, bits_or, bits_put_same, bits_put_apart, bits_ofNat, BitVec.reduceExtractLsb', BitVec.zero_or, BitVec.or_zero]
    exact bne_iff_ne.mp h
  refine (decodeP15 hk hc (by decide) (by decide +kernel) rfl).trans ?_
  simp (disch := decide) only [hx, bits_or, bits_put_same, bits_put_apart, bits_ofNat, BitVec.reduceExtractLsb', BitVec.zero_or, BitVec.or_zero]

/-- Row 517 of the opcode table. -/
theorem RoundTrip.mrcL2Data2 (cond rt) : RoundTrip.Statement (.mrcL2Data2 cond rt) := fun hwf => by
  have h : (cond != 15) = true := hwf
  suffices H : ∀ x, x = 0x0E1F0FB8#32 ||| put cond 28 ||| put rt 12 → decodeWord x = .ok (.mrcL2Data2 cond rt) from H _ rfl
  intro x hx
  have hk : x &&& 0x0FFF0FFF = 0x0E1F0FB8 := by simp (disch := decide) only [hx, or_and, put_and_apart]; rfl
  have hc : bits x 28 4 ≠ 15 := by
    simp (disch := decide) only [hx, bits_or, bits_put_same, bits_put_apart, bits_ofNat, BitVec.reduceExtractLsb', BitVec.zero_or, BitVec.or_zero]
    exact bne_iff_ne.mp h
  refine (decodeP15 hk hc (by decide) (by decide +kernel) rfl).trans ?_
  simp (disch := decide) only [hx, bits_or, bits_put_same, bits_put_apart, bits_ofNat, BitVec.reduceExtractLsb', BitVec.zero_or, BitVec.or_zero]

/-- Row 518 of the opcode table. -/
theorem RoundTrip.mcrL2Data2 (cond rt) : RoundTrip.Statement (.mcrL2Data2 cond rt) := fun hwf => by
  have h : (cond != 15) = true := hwf
  suffices H : ∀ x, x = 0x0E0F0FB8#32 ||| put cond 28 ||| put rt 12 → decodeWord x = .ok (.mcrL2Data2 cond rt) from H _ rfl
  intro x hx
  have hk : x &&& 0x0FFF0FFF = 0x0E0F0FB8 := by simp (disch := decide) only [hx, or_and, put_and_apart]; rfl
  have hc : bits x 28 4 ≠ 15 := by
    simp (disch := decide) only [hx, bits_or, bits_put_same, bits_put_apart, bits_ofNat, BitVec.reduceExtractLsb', BitVec.zero_or, BitVec.or_zero]
    exact bne_iff_ne.mp h
  refine (decodeP15 hk hc (by decide) (by decide +kernel) rfl).trans ?_
  simp (disch := decide) only [hx, bits_or, bits_put_same, bits_put_apart, bits_ofNat, BitVec.reduceExtractLsb', BitVec.zero_or, BitVec.or_zero]

/-- Row 519 of the opcode table. -/
theorem RoundTrip.mcrL2TagRead (cond rt) : RoundTrip.Statement (.mcrL2TagRead cond rt) := fun hwf => by
  have h : (cond != 15) = true := hwf
  suffices H : ∀ x, x = 0x0E0F0F59#32 ||| put cond 28 ||| put rt 12 → decodeWord x = .ok (.mcrL2TagRead cond rt) from H _ rfl
  intro x hx
  have hk : x &&& 0x0FFF0FFF = 0x0E0F0F59 := by simp (disch := decide) only [hx, or_and, put_and_apart]; rfl
  have hc : bits x 28 4 ≠ 15 := by
    simp (disch := decide) only [hx, bits_or, bits_put_same, bits_put_apart, bits_ofNat, BitVec.reduceExtractLsb', BitVec.zero_or, BitVec.or_zero]
    exact bne_iff_ne.mp h
  refine (decodeP15 hk hc (by decide) (by decide +kernel) rfl).trans ?_
  simp (disch := decide) only [hx, bits_or, bits_put_same, bits_put_apart, bits_ofNat, BitVec.reduceExtractLsb', BitVec.zero_or, BitVec.or_zero]

/-- Row 520 of the opcode table. -/
theorem RoundTrip.mcrL2DataRead (cond rt) : RoundTrip.Statement (.mcrL2DataRead cond rt) := fun hwf => by
  have h : (cond != 15) = true := hwf
  suffices H : ∀ x, x = 0x0E0F0F79#32 ||| put cond 28 ||| put rt 12 → decodeWord x = .ok (.mcrL2DataRead cond rt) from H _ rfl
  intro x hx
  have hk : x &&& 0x0FFF0FFF = 0x0E0F0F79 := by simp (disch := decide) only [hx, or_and, put_and_apart]; rfl
  have hc : bits x 28 4 ≠ 15 := by
    simp (disch := decide) only [hx, bits_or, bits_put_same, bits_put_apart, bits_ofNat, BitVec.reduceExtractLsb', BitVec.zero_or, BitVec.or_zero]
    exact bne_iff_ne.mp h
  refine (decodeP15 hk hc (by decide) (by decide +kernel) rfl).trans ?_
  simp (disch := decide) only [hx, bits_or, bits_put_same, bits_put_apart, bits_ofNat, BitVec.reduceExtractLsb', BitVec.zero_or, BitVec.or_zero]

/-- Row 521 of the opcode table. -/
theorem RoundTrip.mcrL2ParityRead (cond rt) : RoundTrip.Statement (.mcrL2ParityRead cond rt) := fun hwf => by
  have h : (cond != 15) = true := hwf
  suffices H : ∀ x, x = 0x0E0F0F99#32 ||| put cond 28 ||| put rt 12 → decodeWord x = .ok (.mcrL2ParityRead cond rt) from H _ rfl
  intro x hx
  have hk : x &&& 0x0FFF0FFF = 0x0E0F0F99 := by simp (disch := decide) only [hx, or_and, put_and_apart]; rfl
  have hc : bits x 28 4 ≠ 15 := by
    simp (disch := decide) only [hx, bits_or, bits_put_same, bits_put_apart, bits_ofNat, BitVec.reduceExtractLsb', BitVec.zero_or, BitVec.or_zero]
    exact bne_iff_ne.mp h
  refine (decodeP15 hk hc (by decide) (by decide +kernel) rfl).trans ?_
  simp (disch := decide) only [hx, bits_or, bits_put_same, bits_put_apart, bits_ofNat, BitVec.reduceExtractLsb', BitVec.zero_or, BitVec.or_zero]

/-- Row 522 of the opcode table. -/
theorem RoundTrip.p15Other (cond opc1 l cRn rt opc2 cRm) : RoundTrip.Statement (.p15Other cond opc1 l cRn rt opc2 cRm) := fun hwf => by
  have h : (cond != 15 && !p15Keys.contains (transferKey opc1 l cRn cRm opc2) && !(opc1 == 0 && l == 1 && cRn == 0 && BitVec.ule 3 cRm && BitVec.ule cRm 7)) = true := hwf
  suffices H : ∀ x, x = 0x0E000F10#32 ||| put cond 28 ||| put opc1 21 ||| put l 20 ||| put cRn 16 ||| put rt 12 ||| put opc2 5 ||| put cRm 0 → decodeWord x = .ok (.p15Other cond opc1 l cRn rt opc2 cRm) from H _ rfl
  intro x hx
  have hk : x &&& 0x0F000F10 = 0x0E000F10 := by simp (disch := decide) only [hx, or_and, put_and_apart]; rfl
  have hc : bits x 28 4 ≠ 15 := by
    simp (disch := decide) only [hx, bits_or, bits_put_same, bits_put_apart, bits_ofNat, BitVec.reduceExtractLsb', BitVec.zero_or, BitVec.or_zero]
    exact fun hh => by simp [hh] at h
  have e_opc1 : bits x 21 3 = opc1 := by
    simp (disch := decide) only [hx, bits_or, bits_put_same, bits_put_apart, bits_ofNat, BitVec.reduceExtractLsb', BitVec.zero_or, BitVec.or_zero]
  have e_l : bits x 20 1 = l := by
    simp (disch := decide) only [hx, bits_or, bits_put_same, bits_put_apart, bits_ofNat, BitVec.reduceExtractLsb', BitVec.zero_or, BitVec.or_zero]
  have e_cRn : bits x 16 4 = cRn := by
    simp (disch := decide) only [hx, bits_or, bits_put_same, bits_put_apart, bits_ofNat, BitVec.reduceExtractLsb', BitVec.zero_or, BitVec.or_zero]
  have e_cRm : bits x 0 4 = cRm := by
    simp (disch := decide) only [hx, bits_or, bits_put_same, bits_put_apart, bits_ofNat, BitVec.reduceExtractLsb', BitVec.zero_or, BitVec.or_zero]
  have e_opc2 : bits x 5 3 = opc2 := by
    simp (disch := decide) only [hx, bits_or, bits_put_same, bits_put_apart, bits_ofNat, BitVec.reduceExtractLsb', BitVec.zero_or, BitVec.or_zero]
  have hn : p15Table.find? (fun t => t.key == wordKey x) = none := p15_none (by
    have := (Bool.and_eq_true_iff.mp (Bool.and_eq_true_iff.mp h).1).2
    simpa [wordKey, e_opc1, e_l, e_cRn, e_cRm, e_opc2] using this)
  have h4 : (bits x 16 4 == 0 && bits x 20 4 == 1 && BitVec.ule 3 (bits x 0 4) && BitVec.ule (bits x 0 4) 7) = false := by
    have h5 := (Bool.and_eq_true_iff.mp h).2
    rw [bits_opc_l x, e_opc1, e_l, e_cRn, e_cRm, opc_l_eq_one]
    exact and_five _ _ _ _ _ h5
  rw [decodeWord_p15 hk hc (by decide), readP15, hn]
  simp only [h4, Bool.false_eq_true, if_false]
  simp (disch := decide) only [hx, bits_or, bits_put_same, bits_put_apart, bits_ofNat, BitVec.reduceExtractLsb', BitVec.zero_or, BitVec.or_zero]

/-- Row 523 of the opcode table. -/
theorem RoundTrip.mcrOther (cond opc1 cRn rt coproc opc2 cRm) : RoundTrip.Statement (.mcrOther cond opc1 cRn rt coproc opc2 cRm) := fun hwf => by
  have h : (cond != 15 && !systemCoproc coproc) = true := hwf
  suffices H : ∀ x, x = 0x0E000010#32 ||| put cond 28 ||| put opc1 21 ||| put cRn 16 ||| put rt 12 ||| put coproc 8 ||| put opc2 5 ||| put cRm 0 → decodeWord x = .ok (.mcrOther cond opc1 cRn rt coproc opc2 cRm) from H _ rfl
  intro x hx
  have hk : x &&& 0x0F100010 = 0x0E000010 := by simp (disch := decide) only [hx, or_and, put_and_apart]; rfl
  have hc : bits x 28 4 ≠ 15 := by
    simp (disch := decide) only [hx, bits_or, bits_put_same, bits_put_apart, bits_ofNat, BitVec.reduceExtractLsb', BitVec.zero_or, BitVec.or_zero]
    exact fun hh => by simp [hh] at h
  have e_coproc_part : bits x 9 3 = coproc.extractLsb' 1 3 := by
    simp (disch := decide) only [hx, bits_or, bits_put_same, bits_put_within, bits_put_apart, bits_ofNat, BitVec.reduceExtractLsb', BitVec.zero_or, BitVec.or_zero]
  have e_coproc : bits x 8 4 = coproc := by
    simp (disch := decide) only [hx, bits_or, bits_put_same, bits_put_apart, bits_ofNat, BitVec.reduceExtractLsb', BitVec.zero_or, BitVec.or_zero]
  refine (decode7 14 [2, 4, 6, 8, 10, 11, 13] hk hc (by rw [e_coproc, other_coproc coproc (by simpa using (Bool.and_eq_true_iff.mp h).2), Bool.and_false]) ⟨rfl, rfl⟩ rfl (by decide +kernel)
    (List.forall_mem_cons.2 ⟨Bool.eq_false_iff.2 fun hq => by simp [coproc_system _ (e_coproc_part.symm.trans (bits_of_hits hq 9 3 rfl))] at h,
    (List.forall_mem_cons.2 ⟨Bool.eq_false_iff.2 fun hq => by simp [coproc_system _ (e_coproc_part.symm.trans (bits_of_hits hq 9 3 rfl))] at h,
    (List.forall_mem_cons.2 ⟨Bool.eq_false_iff.2 fun hq => by simp [coproc_system _ (e_coproc_part.symm.trans (bits_of_hits hq 9 3 rfl))] at h,
    (List.forall_mem_cons.2 ⟨Bool.eq_false_iff.2 fun hq => by simp [coproc_system _ (e_coproc_part.symm.trans (bits_of_hits hq 9 3 rfl))] at h,
    (List.forall_mem_cons.2 ⟨Bool.eq_false_iff.2 fun hq => by simp [coproc_system _ (e_coproc_part.symm.trans (bits_of_hits hq 9 3 rfl))] at h,
    (List.forall_mem_cons.2 ⟨Bool.eq_false_iff.2 fun hq => by simp [coproc_system _ (e_coproc_part.symm.trans (bits_of_hits hq 9 3 rfl))] at h,
    (List.forall_mem_cons.2 ⟨Bool.eq_false_iff.2 fun hq => by simp [coproc_system _ (e_coproc_part.symm.trans (bits_of_hits hq 9 3 rfl))] at h,
    (List.forall_mem_nil _)⟩)⟩)⟩)⟩)⟩)⟩)⟩) (by decide) rfl).trans ?_
  simp (disch := decide) only [hx, bits_or, bits_put_same, bits_put_apart, bits_ofNat, BitVec.reduceExtractLsb', BitVec.zero_or, BitVec.or_zero]

/-- Row 524 of the opcode table. -/
theorem RoundTrip.mrcOther (cond opc1 cRn rt coproc opc2 cRm) : RoundTrip.Statement (.mrcOther cond opc1 cRn rt coproc opc2 cRm) := fun hwf => by
  have h : (cond != 15 && !systemCoproc coproc) = true := hwf
  suffices H : ∀ x, x = 0x0E100010#32 ||| put cond 28 ||| put opc1 21 ||| put cRn 16 ||| put rt 12 ||| put coproc 8 ||| put opc2 5 ||| put cRm 0 → decodeWord x = .ok (.mrcOther cond opc1 cRn rt coproc opc2 cRm) from H _ rfl
  intro x hx
  have hk : x &&& 0x0F100010 = 0x0E100010 := by simp (disch := decide) only [hx, or_and, put_and_apart]; rfl
  have hc : bits x 28 4 ≠ 15 := by
    simp (disch := decide) only [hx, bits_or, bits_put_same, bits_put_apart, bits_ofNat, BitVec.reduceExtractLsb', BitVec.zero_or, BitVec.or_zero]
    exact fun hh => by simp [hh] at h
  have e_coproc_part : bits x 9 3 = coproc.extractLsb' 1 3 := by
    simp (disch := decide) only [hx, bits_or, bits_put_same, bits_put_within, bits_put_apart, bits_ofNat, BitVec.reduceExtractLsb', BitVec.zero_or, BitVec.or_zero]
  have e_coproc : bits x 8 4 = coproc := by
    simp (disch := decide) only [hx, bits_or, bits_put_same, bits_put_apart, bits_ofNat, BitVec.reduceExtractLsb', BitVec.zero_or, BitVec.or_zero]
  refine (decode7 15 [0, 1, 3, 5, 7, 9, 11, 13] hk hc (by rw [e_coproc, other_coproc coproc (by simpa using (Bool.and_eq_true_iff.mp h).2), Bool.and_false]) ⟨rfl, rfl⟩ rfl (by decide +kernel)
    (List.forall_mem_cons.2 ⟨Bool.eq_false_iff.2 fun hq => by simp [coproc_system _ (e_coproc_part.symm.trans (bits_of_hits hq 9 3 rfl))] at h,
    (List.forall_mem_cons.2 ⟨Bool.eq_false_iff.2 fun hq => by simp [coproc_system _ (e_coproc_part.symm.trans (bits_of_hits hq 9 3 rfl))] at h,
    (List.forall_mem_cons.2 ⟨Bool.eq_false_iff.2 fun hq => by simp [coproc_system _ (e_coproc_part.symm.trans (bits_of_hits hq 9 3 rfl))] at h,
    (List.forall_mem_cons.2 ⟨Bool.eq_false_iff.2 fun hq => by simp [coproc_system _ (e_coproc_part.symm.trans (bits_of_hits hq 9 3 rfl))] at h,
    (List.forall_mem_cons.2 ⟨Bool.eq_false_iff.2 fun hq => by simp [coproc_system _ (e_coproc_part.symm.trans (bits_of_hits hq 9 3 rfl))] at h,
    (List.forall_mem_cons.2 ⟨Bool.eq_false_iff.2 fun hq => by simp [coproc_system _ (e_coproc_part.symm.trans (bits_of_hits hq 9 3 rfl))] at h,
    (List.forall_mem_cons.2 ⟨Bool.eq_false_iff.2 fun hq => by simp [coproc_system _ (e_coproc_part.symm.trans (bits_of_hits hq 9 3 rfl))] at h,
    (List.forall_mem_cons.2 ⟨Bool.eq_false_iff.2 fun hq => by simp [coproc_system _ (e_coproc_part.symm.trans (bits_of_hits hq 9 3 rfl))] at h,
    (List.forall_mem_nil _)⟩)⟩)⟩)⟩)⟩)⟩)⟩)⟩) (by decide) rfl).trans ?_
  simp (disch := decide) only [hx, bits_or, bits_put_same, bits_put_apart, bits_ofNat, BitVec.reduceExtractLsb', BitVec.zero_or, BitVec.or_zero]

/-- Row 525 of the opcode table. -/
theorem RoundTrip.cdpAny (cond opc1 cRn cRd coproc opc2 cRm) : RoundTrip.Statement (.cdpAny cond opc1 cRn cRd coproc opc2 cRm) := fun hwf => by
  have h : (cond != 15 && !vfpCoproc coproc) = true := hwf
  suffices H : ∀ x, x = 0x0E000000#32 ||| put cond 28 ||| put opc1 20 ||| put cRn 16 ||| put cRd 12 ||| put coproc 8 ||| put opc2 5 ||| put cRm 0 → decodeWord x = .ok (.cdpAny cond opc1 cRn cRd coproc opc2 cRm) from H _ rfl
  intro x hx
  have hk : x &&& 0x0F000010 = 0x0E000000 := by simp (disch := decide) only [hx, or_and, put_and_apart]; rfl
  have hc : bits x 28 4 ≠ 15 := by
    simp (disch := decide) only [hx, bits_or, bits_put_same, bits_put_apart, bits_ofNat, BitVec.reduceExtractLsb', BitVec.zero_or, BitVec.or_zero]
    exact fun hh => by simp [hh] at h
  have e_coproc_part : bits x 9 3 = coproc.extractLsb' 1 3 := by
    simp (disch := decide) only [hx, bits_or, bits_put_same, bits_put_within, bits_put_apart, bits_ofNat, BitVec.reduceExtractLsb', BitVec.zero_or, BitVec.or_zero]
  refine (decode7 16 [12] hk hc (by rw [bits_of_known hk 4 1 rfl]; rfl) ⟨rfl, rfl⟩ rfl (by decide +kernel)
    (List.forall_mem_cons.2 ⟨Bool.eq_false_iff.2 fun hq => by simp [coproc_vfp _ (e_coproc_part.symm.trans (bits_of_hits hq 9 3 rfl))] at h,
    (List.forall_mem_nil _)⟩) (by decide) rfl).trans ?_
  simp (disch := decide) only [hx, bits_or, bits_put_same, bits_put_apart, bits_ofNat, BitVec.reduceExtractLsb', BitVec.zero_or, BitVec.or_zero]

/-- Row 526 of the opcode table. -/
theorem RoundTrip.mcrrAny (cond rt2 rt coproc opc1 cRm) : RoundTrip.Statement (.mcrrAny cond rt2 rt coproc opc1 cRm) := fun hwf => by
  have h : (cond != 15 && !vfpCoproc coproc) = true := hwf
  suffices H : ∀ x, x = 0x0C400000#32 ||| put cond 28 ||| put rt2 16 ||| put rt 12 ||| put coproc 8 ||| put opc1 4 ||| put cRm 0 → decodeWord x = .ok (.mcrrAny cond rt2 rt coproc opc1 cRm) from H _ rfl
  intro x hx
  have hk : x &&& 0x0FF00000 = 0x0C400000 := by simp (disch := decide) only [hx, or_and, put_and_apart]; rfl
  have hc : bits x 28 4 ≠ 15 := by
    simp (disch := decide) only [hx, bits_or, bits_put_same, bits_put_apart, bits_ofNat, BitVec.reduceExtractLsb', BitVec.zero_or, BitVec.or_zero]
    exact fun hh => by simp [hh] at h
  have e_coproc_part : bits x 9 3 = coproc.extractLsb' 1 3 := by
    simp (disch := decide) only [hx, bits_or, bits_put_same, bits_put_within, bits_put_apart, bits_ofNat, BitVec.reduceExtractLsb', BitVec.zero_or, BitVec.or_zero]
  refine (decode6 3 [2] hk hc ⟨rfl, rfl⟩ rfl (by decide +kernel)
    (List.forall_mem_cons.2 ⟨Bool.eq_false_iff.2 fun hq => by simp [coproc_vfp _ (e_coproc_part.symm.trans (bits_of_hits hq 9 3 rfl))] at h,
    (List.forall_mem_nil _)⟩) (by decide) rfl).trans ?_
  simp (disch := decide) only [hx, bits_or, bits_put_same, bits_put_apart, bits_ofNat, BitVec.reduceExtractLsb', BitVec.zero_or, BitVec.or_zero]

/-- Row 527 of the opcode table. -/
theorem RoundTrip.mrrcAny (cond rt2 rt coproc opc1 cRm) : RoundTrip.Statement (.mrrcAny cond rt2 rt coproc opc1 cRm) := fun hwf => by
  have h : (cond != 15 && !vfpCoproc coproc) = true := hwf
  suffices H : ∀ x, x = 0x0C500000#32 ||| put cond 28 ||| put rt2 16 ||| put rt 12 ||| put coproc 8 ||| put opc1 4 ||| put cRm 0 → decodeWord x = .ok (.mrrcAny cond rt2 rt coproc opc1 cRm) from H _ rfl
  intro x hx
  have hk : x &&& 0x0FF00000 = 0x0C500000 := by simp (disch := decide) only [hx, or_and, put_and_apart]; rfl
  have hc : bits x 28 4 ≠ 15 := by
    simp (disch := decide) only [hx, bits_or, bits_put_same, bits_put_apart, bits_ofNat, BitVec.reduceExtractLsb', BitVec.zero_or, BitVec.or_zero]
    exact fun hh => by simp [hh] at h
  have e_coproc_part : bits x 9 3 = coproc.extractLsb' 1 3 := by
    simp (disch := decide) only [hx, bits_or, bits_put_same, bits_put_within, bits_put_apart, bits_ofNat, BitVec.reduceExtractLsb', BitVec.zero_or, BitVec.or_zero]
  refine (decode6 4 [2] hk hc ⟨rfl, rfl⟩ rfl (by decide +kernel)
    (List.forall_mem_cons.2 ⟨Bool.eq_false_iff.2 fun hq => by simp [coproc_vfp _ (e_coproc_part.symm.trans (bits_of_hits hq 9 3 rfl))] at h,
    (List.forall_mem_nil _)⟩) (by decide) rfl).trans ?_
  simp (disch := decide) only [hx, bits_or, bits_put_same, bits_put_apart, bits_ofNat, BitVec.reduceExtractLsb', BitVec.zero_or, BitVec.or_zero]

/-- Row 528 of the opcode table. -/
theorem RoundTrip.ldcStcOther (cond p u d w l rn cRd coproc imm8) : RoundTrip.Statement (.ldcStcOther cond p u d w l rn cRd coproc imm8) := fun hwf => by
  have h : (cond != 15 && !vfpCoproc coproc && !(p == 0 && u == 0 && d == 1 && w == 0) && !(coproc == 14 && cRd == 5 && d == 0 && !(p == 0 && u == 0 && w == 0))) = true := hwf
  suffices H : ∀ x, x = 0x0C000000#32 ||| put cond 28 ||| put p 24 ||| put u 23 ||| put d 22 ||| put w 21 ||| put l 20 ||| put rn 16 ||| put cRd 12 ||| put coproc 8 ||| put imm8 0 → decodeWord x = .ok (.ldcStcOther cond p u d w l rn cRd coproc imm8) from H _ rfl
  intro x hx
  have hk : x &&& 0x0E000000 = 0x0C000000 := by simp (disch := decide) only [hx, or_and, put_and_apart]; rfl
  have hc : bits x 28 4 ≠ 15 := by
    simp (disch := decide) only [hx, bits_or, bits_put_same, bits_put_apart, bits_ofNat, BitVec.reduceExtractLsb', BitVec.zero_or, BitVec.or_zero]
    exact fun hh => by simp [hh] at h
  have e_coproc_part : bits x 9 3 = coproc.extractLsb' 1 3 := by
    simp (disch := decide) only [hx, bits_or, bits_put_same, bits_put_within, bits_put_apart, bits_ofNat, BitVec.reduceExtractLsb', BitVec.zero_or, BitVec.or_zero]
  have e_p : bits x 24 1 = p := by
    simp (disch := decide) only [hx, bits_or, bits_put_same, bits_put_apart, bits_ofNat, BitVec.reduceExtractLsb', BitVec.zero_or, BitVec.or_zero]
  have e_u : bits x 23 1 = u := by
    simp (disch := decide) only [hx, bits_or, bits_put_same, bits_put_apart, bits_ofNat, BitVec.reduceExtractLsb', BitVec.zero_or, BitVec.or_zero]
  have e_d : bits x 22 1 = d := by
    simp (disch := decide) only [hx, bits_or, bits_put_same, bits_put_apart, bits_ofNat, BitVec.reduceExtractLsb', BitVec.zero_or, BitVec.or_zero]
  have e_w : bits x 21 1 = w := by
    simp (disch := decide) only [hx, bits_or, bits_put_same, bits_put_apart, bits_ofNat, BitVec.reduceExtractLsb', BitVec.zero_or, BitVec.or_zero]
  have e_cRd : bits x 12 4 = cRd := by
    simp (disch := decide) only [hx, bits_or, bits_put_same, bits_put_apart, bits_ofNat, BitVec.reduceExtractLsb', BitVec.zero_or, BitVec.or_zero]
  have e_coproc : bits x 8 4 = coproc := by
    simp (disch := decide) only [hx, bits_or, bits_put_same, bits_put_apart, bits_ofNat, BitVec.reduceExtractLsb', BitVec.zero_or, BitVec.or_zero]
  refine (decode6 5 [0, 1, 2, 3, 4] hk hc ⟨rfl, rfl⟩ rfl (by decide +kernel)
    (List.forall_mem_cons.2 ⟨Bool.eq_false_iff.2 fun hq => by
      have ho := (Bool.and_eq_true_iff.mp hq).2
      replace ho : (!(bits x 23 2 == 0 && bits x 21 1 == 0)) = true := ho
      rw [bits_two x 23, e_p, e_u, e_w, append_eq_zero] at ho
      simp [(e_coproc.symm.trans (bits_of_hits hq 8 4 rfl) : coproc = 14), (e_cRd.symm.trans (bits_of_hits hq 12 4 rfl) : cRd = 5), (e_d.symm.trans (bits_of_hits hq 22 1 rfl) : d = 0)] at h
      simp [h.1.2, h.2] at ho,
    (List.forall_mem_cons.2 ⟨Bool.eq_false_iff.2 fun hq => by
      have ho := (Bool.and_eq_true_iff.mp hq).2
      replace ho : (!(bits x 23 2 == 0 && bits x 21 1 == 0)) = true := ho
      rw [bits_two x 23, e_p, e_u, e_w, append_eq_zero] at ho
      simp [(e_coproc.symm.trans (bits_of_hits hq 8 4 rfl) : coproc = 14), (e_cRd.symm.trans (bits_of_hits hq 12 4 rfl) : cRd = 5), (e_d.symm.trans (bits_of_hits hq 22 1 rfl) : d = 0)] at h
      simp [h.1.2, h.2] at ho,
    (List.forall_mem_cons.2 ⟨Bool.eq_false_iff.2 fun hq => by simp [coproc_vfp _ (e_coproc_part.symm.trans (bits_of_hits hq 9 3 rfl))] at h,
    (List.forall_mem_cons.2 ⟨Bool.eq_false_iff.2 fun hq => by simp [(e_p.symm.trans (bits_of_hits hq 24 1 rfl) : p = 0), (e_u.symm.trans (bits_of_hits hq 23 1 rfl) : u = 0), (e_d.symm.trans (bits_of_hits hq 22 1 rfl) : d = 1), (e_w.symm.trans (bits_of_hits hq 21 1 rfl) : w = 0)] at h,
    (List.forall_mem_cons.2 ⟨Bool.eq_false_iff.2 fun hq => by simp [(e_p.symm.trans (bits_of_hits hq 24 1 rfl) : p = 0), (e_u.symm.trans (bits_of_hits hq 23 1 rfl) : u = 0), (e_d.symm.trans (bits_of_hits hq 22 1 rfl) : d = 1), (e_w.symm.trans (bits_of_hits hq 21 1 rfl) : w = 0)] at h,
    (List.forall_mem_nil _)⟩)⟩)⟩)⟩)⟩) (by decide) rfl).trans ?_
  simp (disch := decide) only [hx, bits_or, bits_put_same, bits_put_apart, bits_ofNat, BitVec.reduceExtractLsb', BitVec.zero_or, BitVec.or_zero]

end Sys2Proof.Laws
end

