-- ==== Sys2Proof/Laws/Shifts.lean ====
section
/-! SUPPORT. The shifter operand, and small facts about branches. -/

noncomputable section

namespace Sys2Proof.Machine

open Safety

theorem lsl_ok (x : Word) (n : Nat) (_ : n ≠ 0) : lslC x n = (BitVec.ofNat 32 (x.toNat * 2 ^ n), decide (x.toNat * 2 ^ n / 2 ^ 32 % 2 = 1)) := by
  unfold lslC
  refine Prod.ext ?_ ?_
  · apply BitVec.eq_of_toNat_eq; rw [BitVec.toNat_shiftLeft, BitVec.toNat_ofNat, Nat.shiftLeft_eq]
  · show (decide (n ≤ 32) && x.getLsbD (32 - n)) = _
    by_cases hn : n ≤ 32
    · rw [decide_eq_true hn, Bool.true_and, BitVec.getLsbD, Nat.testBit_eq_decide_div_mod_eq]
      have : 2 ^ 32 = 2 ^ (32 - n) * 2 ^ n := by rw [← Nat.pow_add]; congr 1; omega
      rw [this, Nat.mul_div_mul_right _ _ (by positivity)]
    · have : 2 ^ n = 2 ^ 32 * (2 * 2 ^ (n - 33)) := by rw [← Nat.pow_succ', ← Nat.pow_add]; congr 1; omega
      rw [this, show x.toNat * (2 ^ 32 * (2 * 2 ^ (n - 33))) = 2 ^ 32 * (2 * (x.toNat * 2 ^ (n - 33))) by ring, Nat.mul_div_cancel_left _ (by decide)]
      simp [hn]

theorem lsr_ok (x : Word) (n : Nat) : lsrC x n = (BitVec.ofNat 32 (x.toNat / 2 ^ n), decide (x.toNat / 2 ^ (n - 1) % 2 = 1)) := by
  unfold lsrC
  refine Prod.ext ?_ ?_
  · apply BitVec.eq_of_toNat_eq; rw [BitVec.toNat_ushiftRight, BitVec.toNat_ofNat, Nat.shiftRight_eq_div_pow, Nat.mod_eq_of_lt]
    exact lt_of_le_of_lt (Nat.div_le_self _ _) x.isLt
  · rw [BitVec.getLsbD, Nat.testBit_eq_decide_div_mod_eq]

theorem asr_ok (x : Word) (n : Nat) (_ : n ≠ 0) : asrC x n = (BitVec.ofInt 32 (x.toInt / 2 ^ n), decide (x.toInt / 2 ^ (n - 1) % 2 = 1)) := by
  unfold asrC
  have bit (k : Nat) : decide (x.toInt / 2 ^ k % 2 = 1) = if k < 32 then x.getLsbD k else x.msb := by
    have := BitVec.toInt_sshiftRight (x := x) (n := k)
    rw [Int.shiftRight_eq_div_pow] at this
    rw [show (x.toInt / 2 ^ k) = (x.sshiftRight k).toInt by rw [this]; norm_cast]
    have o (y : Word) : decide (y.toInt % 2 = 1) = y.getLsbD 0 := by
      rw [BitVec.getLsbD, Nat.testBit_zero, BitVec.toInt_eq_toNat_cond]; rw [decide_eq_decide]; split <;> omega
    rw [o, BitVec.getLsbD_sshiftRight]; simp
  refine Prod.ext ?_ ?_
  · apply BitVec.eq_of_toInt_eq; rw [BitVec.toInt_sshiftRight, BitVec.toInt_ofInt, Int.shiftRight_eq_div_pow]
    have : (x.toInt / ((2 ^ n : Nat) : Int)) = (x.sshiftRight n).toInt := by rw [BitVec.toInt_sshiftRight, Int.shiftRight_eq_div_pow]
    rw [show ((2:Int) ^ n) = ((2 ^ n : Nat) : Int) by push_cast; rfl, this, BitVec.toInt_bmod_cancel]
  · rw [bit]; show (if n ≤ 32 then _ else _) = _
    by_cases hn : n ≤ 32
    · rw [if_pos hn, if_pos (by omega)]
    · rw [if_neg hn, if_neg (by omega)]

theorem shiftC_ok (x : Word) (typ : BitVec 2) (n : Nat) (c : Bool) : Shifted x typ n c (shiftC x typ n c) := by
  unfold Shifted shiftC
  by_cases hn : n = 0
  · rw [if_pos hn, if_pos hn]
  · rw [if_neg hn, if_neg hn]
    have ht : typ = 0 ∨ typ = 1 ∨ typ = 2 ∨ typ = 3 := by revert typ; decide
    rcases ht with rfl | rfl | rfl | rfl
    · exact lsl_ok x n hn
    · exact lsr_ok x n
    · exact asr_ok x n hn
    · refine ⟨?_, rfl⟩
      intro i hi
      show (x.rotateRight n).getLsbD i = _
      rw [BitVec.getLsbD_rotateRight, rotatedBit]
      have := Nat.mod_lt n (show 0 < 32 by decide)
      by_cases hw : i < 32 - n % 32
      · rw [decide_eq_true hw, cond_true]; congr 1; omega
      · rw [decide_eq_false hw, cond_false, decide_eq_true hi, Bool.true_and]; congr 1; omega

theorem noteMovReturn_of (sf rd imm5 typ rm) (s : State) (h : ¬ (sf = 0 ∧ rd = 15 ∧ imm5 = 0 ∧ typ = 0 ∧ rm = 14)) : noteMovReturn sf rd imm5 typ rm s = s := by
  unfold noteMovReturn; rw [if_neg h]

theorem leadingZeros_spec : ∀ (n : Nat) (w : Word), leadingZeros n w ≤ n ∧ (∀ i < leadingZeros n w, w.getLsbD (n - 1 - i) = false) ∧ (leadingZeros n w < n → w.getLsbD (n - 1 - leadingZeros n w) = true)
  | 0, w => by simp [leadingZeros]
  | n + 1, w => by
    obtain ⟨h1, h2, h3⟩ := leadingZeros_spec n w
    unfold leadingZeros
    cases h : w.getLsbD n
    · simp only [Bool.false_eq_true, if_false]
      refine ⟨by omega, ?_, ?_⟩
      · intro i hi
        cases i with
        | zero => simpa using h
        | succ i => rw [show n + 1 - 1 - (i + 1) = n - 1 - i by omega]; exact h2 i (by omega)
      · intro hl
        rw [show n + 1 - 1 - (leadingZeros n w + 1) = n - 1 - leadingZeros n w by omega]; exact h3 (by omega)
    · simp only [if_true]
      refine ⟨by omega, by simp, fun _ => by simpa using h⟩

theorem wrote_ok (s : State) (rd : BitVec 4) (v : Word) (h : rd ≠ 15) : (s.setReg rd v).advance = wrote s rd v := by
  rw [State.setReg_of_ne _ _ _ h, State.advance_eq]; rfl

theorem setBits_self (w : Word) : setBits w 2 (w.extractLsb' 2 4) = w := by
  apply BitVec.eq_of_getLsbD_eq; intro i hi
  rw [getLsbD_setBits _ _ _ _ (by decide)]
  split
  · rw [BitVec.getLsbD_extractLsb', decide_eq_true (by omega), Bool.true_and]; congr 1; omega
  · rfl

theorem noteMovReturn_ne (sf : BitVec 1) (rd : BitVec 4) (imm5 : BitVec 5) (typ : BitVec 2) (rm : BitVec 4) (s : State) (h : rd ≠ 15) :
    noteMovReturn sf rd imm5 typ rm s = s := by
  unfold noteMovReturn; rw [if_neg (fun hh => h hh.2.1)]

end Sys2Proof.Machine

end
end

