-- ==== Sys2Proof/Laws/SoundMeanings.lean ====
section
/-! SUPPORT. Each meaning keeps what `Sound` says. -/

noncomputable section

namespace Sys2Proof.Machine

open Safety

theorem sound_execMrs (cond : BitVec 4) (r : BitVec 1) (rd : BitVec 4) (s : State) : SoundO s (execMrs cond r rd s) := by
  unfold execMrs
  exact sound_onCond _ (Kept.refl s) (sound_if (soundO_fault _) (sound_if (sound_advance' (kept_setReg _ _ _)) (by split; exacts [soundO_fault _, sound_advance' (kept_setReg _ _ _)])))

theorem sound_execMsrCpsrReg (cond : BitVec 4) (fieldMask : BitVec 4) (rn : BitVec 4) (s : State) : SoundO s (execMsrCpsrReg cond fieldMask rn s) := by
  unfold execMsrCpsrReg
  exact (sound_onCond _ (Kept.refl s) (sound_if (soundO_fault _) (sound_writeCpsr _ _ _)))

theorem sound_execMsrSpsrReg (cond : BitVec 4) (fieldMask : BitVec 4) (rn : BitVec 4) (s : State) : SoundO s (execMsrSpsrReg cond fieldMask rn s) := by
  unfold execMsrSpsrReg
  exact (sound_onCond _ (Kept.refl s) (sound_writeSpsr _ _ _))

theorem sound_execMsrCpsrImm (cond : BitVec 4) (fieldMask : BitVec 4) (imm12 : BitVec 12) (s : State) : SoundO s (execMsrCpsrImm cond fieldMask imm12 s) := by
  unfold execMsrCpsrImm
  exact (sound_onCond _ (Kept.refl s) (sound_writeCpsr _ _ _))

theorem sound_execMsrSpsrImm (cond : BitVec 4) (fieldMask : BitVec 4) (imm12 : BitVec 12) (s : State) : SoundO s (execMsrSpsrImm cond fieldMask imm12 s) := by
  unfold execMsrSpsrImm
  exact (sound_onCond _ (Kept.refl s) (sound_writeSpsr _ _ _))

theorem sound_execCps (imod : BitVec 2) (m : BitVec 1) (a : BitVec 1) (i : BitVec 1) (f : BitVec 1) (mode : BitVec 5) (s : State) : SoundO s (execCps imod m a i f mode s) := by
  unfold execCps
  exact sound_if (soundO_fault _) (by split; exacts [sound_changeState _ _ _ _ _ _ _ (by rename_i h; simpa [State.privileged] using h), sound_advance' (Kept.refl s)])

theorem sound_execSetend (e : BitVec 1) (s : State) : SoundO s (execSetend e s) := by
  unfold execSetend
  exact (soundO_next (sound_flags (Kept.refl s) _ (extract_setBit_apart _ _ _ (by decide) _ _ (Or.inl (by decide)))))

theorem sound_execSrs (p : BitVec 1) (u : BitVec 1) (w : BitVec 1) (mode : BitVec 5) (s : State) : SoundO s (execSrs p u w mode s) := by
  unfold execSrs
  split
  · rename_i spsr m _ h2
    by_cases hc : m = Mode.mon ∧ (!s.secure) = true
    · rw [if_pos hc]; exact soundO_fault _
    · rw [if_neg hc]; exact sound_storeReturnState _ _ _ _ _ _ fun x y => hc ⟨y, by rw [x]; rfl⟩
  · exact soundO_fault _

theorem sound_execRfe (p : BitVec 1) (u : BitVec 1) (w : BitVec 1) (rn : BitVec 4) (s : State) : SoundO s (execRfe p u w rn s) := by
  unfold execRfe
  split
  · exact soundO_fault _
  · rename_i h
    exact sound_loadReturnState _ _ _ _ _ (by simpa [State.privileged] using (not_or.1 h).2)

theorem sound_execNop (cond : BitVec 4) (s : State) : SoundO s (execNop cond s) := by
  unfold execNop
  exact (sound_onCond _ (Kept.refl s) (sound_advance' (Kept.refl s)))

theorem sound_execYield (cond : BitVec 4) (s : State) : SoundO s (execYield cond s) := by
  unfold execYield
  exact (sound_onCond _ (Kept.refl s) (sound_advance' (Kept.refl s)))

theorem sound_execWfe (cond : BitVec 4) (s : State) : SoundO s (execWfe cond s) := by
  unfold execWfe
  exact (sound_onCond _ (Kept.refl s) (sound_advance' (Kept.refl s)))

theorem sound_execSev (cond : BitVec 4) (s : State) : SoundO s (execSev cond s) := by
  unfold execSev
  exact (sound_onCond _ (Kept.refl s) (sound_advance' (Kept.refl s)))

theorem sound_execDbg (cond : BitVec 4) (_opt : BitVec 4) (s : State) : SoundO s (execDbg cond _opt s) := by
  unfold execDbg
  exact (sound_onCond _ (Kept.refl s) (sound_advance' (Kept.refl s)))

theorem sound_execHintOther (cond : BitVec 4) (_hint8 : BitVec 8) (s : State) : SoundO s (execHintOther cond _hint8 s) := by
  unfold execHintOther
  exact (sound_onCond _ (Kept.refl s) (sound_advance' (Kept.refl s)))

theorem sound_execWfi (cond : BitVec 4) (s : State) : SoundO s (execWfi cond s) := by
  unfold execWfi
  exact sound_onCond _ (Kept.refl s) (sound_if (sound_advance' (Kept.refl s)) (sound_advance' ((kept_completed s).trans ⟨rfl, rfl, rfl, rfl, rfl, fun _ => rfl, id⟩)))

theorem sound_execDsb (_opt : BitVec 4) (s : State) : SoundO s (execDsb _opt s) := by
  unfold execDsb
  exact (sound_advance' (kept_completed s))

theorem sound_execDmb (_opt : BitVec 4) (s : State) : SoundO s (execDmb _opt s) := by
  unfold execDmb
  exact (sound_advance' (kept_fenceStores s))

theorem sound_execIsb (_opt : BitVec 4) (s : State) : SoundO s (execIsb _opt s) := by
  unfold execIsb
  exact (sound_advance' (kept_synchronized s))

theorem sound_execMrcPleIdPresent (cond : BitVec 4) (rt : BitVec 4) (s : State) : SoundO s (execMrcPleIdPresent cond rt s) := by
  unfold execMrcPleIdPresent
  exact (sound_readSys _ _ _ _ _)

theorem sound_execMrcPleIdReserved (cond : BitVec 4) (rt : BitVec 4) (s : State) : SoundO s (execMrcPleIdReserved cond rt s) := by
  unfold execMrcPleIdReserved
  exact (sound_readSys _ _ _ _ _)

theorem sound_execMrcPleIdRunning (cond : BitVec 4) (rt : BitVec 4) (s : State) : SoundO s (execMrcPleIdRunning cond rt s) := by
  unfold execMrcPleIdRunning
  exact (sound_readSys _ _ _ _ _)

theorem sound_execMrcPleIdInterrupting (cond : BitVec 4) (rt : BitVec 4) (s : State) : SoundO s (execMrcPleIdInterrupting cond rt s) := by
  unfold execMrcPleIdInterrupting
  exact (sound_readSys _ _ _ _ _)

theorem sound_execMrcPleUser (cond : BitVec 4) (rt : BitVec 4) (s : State) : SoundO s (execMrcPleUser cond rt s) := by
  unfold execMrcPleUser
  exact (sound_readSys _ _ _ _ _)

theorem sound_execMcrPleUser (cond : BitVec 4) (rt : BitVec 4) (s : State) : SoundO s (execMcrPleUser cond rt s) := by
  unfold execMcrPleUser
  exact (sound_writeSys _ _ _ _ _ fun _ => ⟨rfl, rfl, rfl, rfl, rfl, fun _ => rfl, id⟩)

theorem sound_execMrcPleChannel (cond : BitVec 4) (rt : BitVec 4) (s : State) : SoundO s (execMrcPleChannel cond rt s) := by
  unfold execMrcPleChannel
  exact (sound_readSys _ _ _ _ _)

theorem sound_execMcrPleChannel (cond : BitVec 4) (rt : BitVec 4) (s : State) : SoundO s (execMcrPleChannel cond rt s) := by
  unfold execMcrPleChannel
  exact (sound_writeSys _ _ _ _ _ fun _ => ⟨rfl, rfl, rfl, rfl, rfl, fun _ => rfl, id⟩)

theorem sound_execMcrPleStop (cond : BitVec 4) (rt : BitVec 4) (s : State) : SoundO s (execMcrPleStop cond rt s) := by
  unfold execMcrPleStop
  exact (sound_writeSys _ _ _ _ _ fun _ => (kept_pleStop s))

theorem sound_execMcrPleStart (cond : BitVec 4) (rt : BitVec 4) (s : State) : SoundO s (execMcrPleStart cond rt s) := by
  unfold execMcrPleStart
  exact (sound_writeSys _ _ _ _ _ fun _ => (kept_pleStart s))

theorem sound_execMcrPleClear (cond : BitVec 4) (rt : BitVec 4) (s : State) : SoundO s (execMcrPleClear cond rt s) := by
  unfold execMcrPleClear
  exact (sound_writeSys _ _ _ _ _ fun _ => (kept_pleClear s))

theorem sound_execMrcPleControl (cond : BitVec 4) (rt : BitVec 4) (s : State) : SoundO s (execMrcPleControl cond rt s) := by
  unfold execMrcPleControl
  exact (sound_readSys _ _ _ _ _)

theorem sound_execMcrPleControl (cond : BitVec 4) (rt : BitVec 4) (s : State) : SoundO s (execMcrPleControl cond rt s) := by
  unfold execMcrPleControl
  exact (sound_writeSys _ _ _ _ _ fun _ => (kept_pleControl _ s))

theorem sound_execMrcPleStartAddr (cond : BitVec 4) (rt : BitVec 4) (s : State) : SoundO s (execMrcPleStartAddr cond rt s) := by
  unfold execMrcPleStartAddr
  exact (sound_readSysMaybe _ _ _ _ _)

theorem sound_execMcrPleStartAddr (cond : BitVec 4) (rt : BitVec 4) (s : State) : SoundO s (execMcrPleStartAddr cond rt s) := by
  unfold execMcrPleStartAddr
  exact (sound_writeSys _ _ _ _ _ fun _ => ((kept_drawn s).trans (kept_setPle _ _ _)))

theorem sound_execMrcPleEndAddr (cond : BitVec 4) (rt : BitVec 4) (s : State) : SoundO s (execMrcPleEndAddr cond rt s) := by
  unfold execMrcPleEndAddr
  exact (sound_readSysMaybe _ _ _ _ _)

theorem sound_execMcrPleEndAddr (cond : BitVec 4) (rt : BitVec 4) (s : State) : SoundO s (execMcrPleEndAddr cond rt s) := by
  unfold execMcrPleEndAddr
  exact (sound_writeSys _ _ _ _ _ fun _ => ((kept_drawn s).trans (kept_setPle _ _ _)))

theorem sound_execMrcPleStatus (cond : BitVec 4) (rt : BitVec 4) (s : State) : SoundO s (execMrcPleStatus cond rt s) := by
  unfold execMrcPleStatus
  exact (sound_readSys _ _ _ _ _)

theorem sound_execMrcPleContext (cond : BitVec 4) (rt : BitVec 4) (s : State) : SoundO s (execMrcPleContext cond rt s) := by
  unfold execMrcPleContext
  exact (sound_readSys _ _ _ _ _)

theorem sound_execMcrPleContext (cond : BitVec 4) (rt : BitVec 4) (s : State) : SoundO s (execMcrPleContext cond rt s) := by
  unfold execMcrPleContext
  exact (sound_withSys _ _ _ _ _ fun _ _ => (sound_unlessPle _ (sound_advance' (kept_setPle _ _ _))))

theorem sound_execLdrImm (cond : BitVec 4) (p : BitVec 1) (u : BitVec 1) (w : BitVec 1) (rn : BitVec 4) (rt : BitVec 4) (imm12 : BitVec 12) (s : State) : SoundO s (execLdrImm cond p u w rn rt imm12 s) := by
  unfold execLdrImm
  exact (sound_onCond _ (Kept.refl s) (sound_loadWord _ _ _ _ _ _ _ _))

theorem sound_execLdrReg (cond : BitVec 4) (p : BitVec 1) (u : BitVec 1) (w : BitVec 1) (rn : BitVec 4) (rt : BitVec 4) (imm5 : BitVec 5) (typ : BitVec 2) (rm : BitVec 4) (s : State) : SoundO s (execLdrReg cond p u w rn rt imm5 typ rm s) := by
  unfold execLdrReg
  exact (sound_onCond _ (Kept.refl s) (sound_unlessPCOffset _ (sound_loadWord _ _ _ _ _ _ _ _)))

theorem sound_execStrImm (cond : BitVec 4) (p : BitVec 1) (u : BitVec 1) (w : BitVec 1) (rn : BitVec 4) (rt : BitVec 4) (imm12 : BitVec 12) (s : State) : SoundO s (execStrImm cond p u w rn rt imm12 s) := by
  unfold execStrImm
  exact (sound_onCond _ (Kept.refl s) (sound_storeReg _ _ _ _ _ _ _ _ _ _))

theorem sound_execStrReg (cond : BitVec 4) (p : BitVec 1) (u : BitVec 1) (w : BitVec 1) (rn : BitVec 4) (rt : BitVec 4) (imm5 : BitVec 5) (typ : BitVec 2) (rm : BitVec 4) (s : State) : SoundO s (execStrReg cond p u w rn rt imm5 typ rm s) := by
  unfold execStrReg
  exact (sound_onCond _ (Kept.refl s) (sound_unlessPCOffset _ (sound_storeReg _ _ _ _ _ _ _ _ _ _)))

theorem sound_execLdrbImm (cond : BitVec 4) (p : BitVec 1) (u : BitVec 1) (w : BitVec 1) (rn : BitVec 4) (rt : BitVec 4) (imm12 : BitVec 12) (s : State) : SoundO s (execLdrbImm cond p u w rn rt imm12 s) := by
  unfold execLdrbImm
  exact (sound_onCond _ (Kept.refl s) (sound_loadReg _ _ _ _ _ _ _ _ _ _))

theorem sound_execLdrbReg (cond : BitVec 4) (p : BitVec 1) (u : BitVec 1) (w : BitVec 1) (rn : BitVec 4) (rt : BitVec 4) (imm5 : BitVec 5) (typ : BitVec 2) (rm : BitVec 4) (s : State) : SoundO s (execLdrbReg cond p u w rn rt imm5 typ rm s) := by
  unfold execLdrbReg
  exact (sound_onCond _ (Kept.refl s) (sound_unlessPCOffset _ (sound_loadReg _ _ _ _ _ _ _ _ _ _)))

theorem sound_execStrbImm (cond : BitVec 4) (p : BitVec 1) (u : BitVec 1) (w : BitVec 1) (rn : BitVec 4) (rt : BitVec 4) (imm12 : BitVec 12) (s : State) : SoundO s (execStrbImm cond p u w rn rt imm12 s) := by
  unfold execStrbImm
  exact (sound_onCond _ (Kept.refl s) (sound_storeReg _ _ _ _ _ _ _ _ _ _))

theorem sound_execStrbReg (cond : BitVec 4) (p : BitVec 1) (u : BitVec 1) (w : BitVec 1) (rn : BitVec 4) (rt : BitVec 4) (imm5 : BitVec 5) (typ : BitVec 2) (rm : BitVec 4) (s : State) : SoundO s (execStrbReg cond p u w rn rt imm5 typ rm s) := by
  unfold execStrbReg
  exact (sound_onCond _ (Kept.refl s) (sound_unlessPCOffset _ (sound_storeReg _ _ _ _ _ _ _ _ _ _)))

theorem sound_execLdrtImm (cond : BitVec 4) (u : BitVec 1) (rn : BitVec 4) (rt : BitVec 4) (imm12 : BitVec 12) (s : State) : SoundO s (execLdrtImm cond u rn rt imm12 s) := by
  unfold execLdrtImm
  exact (sound_onCond _ (Kept.refl s) (sound_loadReg _ _ _ _ _ _ _ _ _ _))

theorem sound_execLdrtReg (cond : BitVec 4) (u : BitVec 1) (rn : BitVec 4) (rt : BitVec 4) (imm5 : BitVec 5) (typ : BitVec 2) (rm : BitVec 4) (s : State) : SoundO s (execLdrtReg cond u rn rt imm5 typ rm s) := by
  unfold execLdrtReg
  exact (sound_onCond _ (Kept.refl s) (sound_unlessPCOffset _ (sound_loadReg _ _ _ _ _ _ _ _ _ _)))

theorem sound_execStrtImm (cond : BitVec 4) (u : BitVec 1) (rn : BitVec 4) (rt : BitVec 4) (imm12 : BitVec 12) (s : State) : SoundO s (execStrtImm cond u rn rt imm12 s) := by
  unfold execStrtImm
  exact (sound_onCond _ (Kept.refl s) (sound_storeReg _ _ _ _ _ _ _ _ _ _))

theorem sound_execStrtReg (cond : BitVec 4) (u : BitVec 1) (rn : BitVec 4) (rt : BitVec 4) (imm5 : BitVec 5) (typ : BitVec 2) (rm : BitVec 4) (s : State) : SoundO s (execStrtReg cond u rn rt imm5 typ rm s) := by
  unfold execStrtReg
  exact (sound_onCond _ (Kept.refl s) (sound_unlessPCOffset _ (sound_storeReg _ _ _ _ _ _ _ _ _ _)))

theorem sound_execLdrbtImm (cond : BitVec 4) (u : BitVec 1) (rn : BitVec 4) (rt : BitVec 4) (imm12 : BitVec 12) (s : State) : SoundO s (execLdrbtImm cond u rn rt imm12 s) := by
  unfold execLdrbtImm
  exact (sound_onCond _ (Kept.refl s) (sound_loadReg _ _ _ _ _ _ _ _ _ _))

theorem sound_execLdrbtReg (cond : BitVec 4) (u : BitVec 1) (rn : BitVec 4) (rt : BitVec 4) (imm5 : BitVec 5) (typ : BitVec 2) (rm : BitVec 4) (s : State) : SoundO s (execLdrbtReg cond u rn rt imm5 typ rm s) := by
  unfold execLdrbtReg
  exact (sound_onCond _ (Kept.refl s) (sound_unlessPCOffset _ (sound_loadReg _ _ _ _ _ _ _ _ _ _)))

theorem sound_execStrbtImm (cond : BitVec 4) (u : BitVec 1) (rn : BitVec 4) (rt : BitVec 4) (imm12 : BitVec 12) (s : State) : SoundO s (execStrbtImm cond u rn rt imm12 s) := by
  unfold execStrbtImm
  exact (sound_onCond _ (Kept.refl s) (sound_storeReg _ _ _ _ _ _ _ _ _ _))

theorem sound_execStrbtReg (cond : BitVec 4) (u : BitVec 1) (rn : BitVec 4) (rt : BitVec 4) (imm5 : BitVec 5) (typ : BitVec 2) (rm : BitVec 4) (s : State) : SoundO s (execStrbtReg cond u rn rt imm5 typ rm s) := by
  unfold execStrbtReg
  exact (sound_onCond _ (Kept.refl s) (sound_unlessPCOffset _ (sound_storeReg _ _ _ _ _ _ _ _ _ _)))

theorem sound_execLdrhImm (cond : BitVec 4) (p : BitVec 1) (u : BitVec 1) (w : BitVec 1) (rn : BitVec 4) (rt : BitVec 4) (imm4H : BitVec 4) (imm4L : BitVec 4) (s : State) : SoundO s (execLdrhImm cond p u w rn rt imm4H imm4L s) := by
  unfold execLdrhImm
  exact (sound_onCond _ (Kept.refl s) (sound_loadReg _ _ _ _ _ _ _ _ _ _))

theorem sound_execLdrhReg (cond : BitVec 4) (p : BitVec 1) (u : BitVec 1) (w : BitVec 1) (rn : BitVec 4) (rt : BitVec 4) (rm : BitVec 4) (s : State) : SoundO s (execLdrhReg cond p u w rn rt rm s) := by
  unfold execLdrhReg
  exact (sound_onCond _ (Kept.refl s) (sound_unlessPCOffset _ (sound_loadReg _ _ _ _ _ _ _ _ _ _)))

theorem sound_execStrhImm (cond : BitVec 4) (p : BitVec 1) (u : BitVec 1) (w : BitVec 1) (rn : BitVec 4) (rt : BitVec 4) (imm4H : BitVec 4) (imm4L : BitVec 4) (s : State) : SoundO s (execStrhImm cond p u w rn rt imm4H imm4L s) := by
  unfold execStrhImm
  exact (sound_onCond _ (Kept.refl s) (sound_storeReg _ _ _ _ _ _ _ _ _ _))

theorem sound_execStrhReg (cond : BitVec 4) (p : BitVec 1) (u : BitVec 1) (w : BitVec 1) (rn : BitVec 4) (rt : BitVec 4) (rm : BitVec 4) (s : State) : SoundO s (execStrhReg cond p u w rn rt rm s) := by
  unfold execStrhReg
  exact (sound_onCond _ (Kept.refl s) (sound_unlessPCOffset _ (sound_storeReg _ _ _ _ _ _ _ _ _ _)))

theorem sound_execLdrsbImm (cond : BitVec 4) (p : BitVec 1) (u : BitVec 1) (w : BitVec 1) (rn : BitVec 4) (rt : BitVec 4) (imm4H : BitVec 4) (imm4L : BitVec 4) (s : State) : SoundO s (execLdrsbImm cond p u w rn rt imm4H imm4L s) := by
  unfold execLdrsbImm
  exact (sound_onCond _ (Kept.refl s) (sound_loadReg _ _ _ _ _ _ _ _ _ _))

theorem sound_execLdrsbReg (cond : BitVec 4) (p : BitVec 1) (u : BitVec 1) (w : BitVec 1) (rn : BitVec 4) (rt : BitVec 4) (rm : BitVec 4) (s : State) : SoundO s (execLdrsbReg cond p u w rn rt rm s) := by
  unfold execLdrsbReg
  exact (sound_onCond _ (Kept.refl s) (sound_unlessPCOffset _ (sound_loadReg _ _ _ _ _ _ _ _ _ _)))

theorem sound_execLdrshImm (cond : BitVec 4) (p : BitVec 1) (u : BitVec 1) (w : BitVec 1) (rn : BitVec 4) (rt : BitVec 4) (imm4H : BitVec 4) (imm4L : BitVec 4) (s : State) : SoundO s (execLdrshImm cond p u w rn rt imm4H imm4L s) := by
  unfold execLdrshImm
  exact (sound_onCond _ (Kept.refl s) (sound_loadReg _ _ _ _ _ _ _ _ _ _))

theorem sound_execLdrshReg (cond : BitVec 4) (p : BitVec 1) (u : BitVec 1) (w : BitVec 1) (rn : BitVec 4) (rt : BitVec 4) (rm : BitVec 4) (s : State) : SoundO s (execLdrshReg cond p u w rn rt rm s) := by
  unfold execLdrshReg
  exact (sound_onCond _ (Kept.refl s) (sound_unlessPCOffset _ (sound_loadReg _ _ _ _ _ _ _ _ _ _)))

theorem sound_execLdrdImm (cond : BitVec 4) (p : BitVec 1) (u : BitVec 1) (w : BitVec 1) (rn : BitVec 4) (rt : BitVec 4) (imm4H : BitVec 4) (imm4L : BitVec 4) (s : State) : SoundO s (execLdrdImm cond p u w rn rt imm4H imm4L s) := by
  unfold execLdrdImm
  exact (sound_onCond _ (Kept.refl s) (sound_loadPair _ _ _ _ _ _ _))

theorem sound_execLdrdReg (cond : BitVec 4) (p : BitVec 1) (u : BitVec 1) (w : BitVec 1) (rn : BitVec 4) (rt : BitVec 4) (rm : BitVec 4) (s : State) : SoundO s (execLdrdReg cond p u w rn rt rm s) := by
  unfold execLdrdReg
  exact (sound_onCond _ (Kept.refl s) (sound_if (soundO_fault _) (sound_loadPair _ _ _ _ _ _ _)))

theorem sound_execStrdImm (cond : BitVec 4) (p : BitVec 1) (u : BitVec 1) (w : BitVec 1) (rn : BitVec 4) (rt : BitVec 4) (imm4H : BitVec 4) (imm4L : BitVec 4) (s : State) : SoundO s (execStrdImm cond p u w rn rt imm4H imm4L s) := by
  unfold execStrdImm
  exact (sound_onCond _ (Kept.refl s) (sound_storePair _ _ _ _ _ _ _))

theorem sound_execStrdReg (cond : BitVec 4) (p : BitVec 1) (u : BitVec 1) (w : BitVec 1) (rn : BitVec 4) (rt : BitVec 4) (rm : BitVec 4) (s : State) : SoundO s (execStrdReg cond p u w rn rt rm s) := by
  unfold execStrdReg
  exact (sound_onCond _ (Kept.refl s) (sound_unlessPCOffset _ (sound_storePair _ _ _ _ _ _ _)))

theorem sound_execLdrhtImm (cond : BitVec 4) (u : BitVec 1) (rn : BitVec 4) (rt : BitVec 4) (imm4H : BitVec 4) (imm4L : BitVec 4) (s : State) : SoundO s (execLdrhtImm cond u rn rt imm4H imm4L s) := by
  unfold execLdrhtImm
  exact (sound_onCond _ (Kept.refl s) (sound_loadReg _ _ _ _ _ _ _ _ _ _))

theorem sound_execLdrhtReg (cond : BitVec 4) (u : BitVec 1) (rn : BitVec 4) (rt : BitVec 4) (rm : BitVec 4) (s : State) : SoundO s (execLdrhtReg cond u rn rt rm s) := by
  unfold execLdrhtReg
  exact (sound_onCond _ (Kept.refl s) (sound_unlessPCOffset _ (sound_loadReg _ _ _ _ _ _ _ _ _ _)))

theorem sound_execStrhtImm (cond : BitVec 4) (u : BitVec 1) (rn : BitVec 4) (rt : BitVec 4) (imm4H : BitVec 4) (imm4L : BitVec 4) (s : State) : SoundO s (execStrhtImm cond u rn rt imm4H imm4L s) := by
  unfold execStrhtImm
  exact (sound_onCond _ (Kept.refl s) (sound_storeReg _ _ _ _ _ _ _ _ _ _))

theorem sound_execStrhtReg (cond : BitVec 4) (u : BitVec 1) (rn : BitVec 4) (rt : BitVec 4) (rm : BitVec 4) (s : State) : SoundO s (execStrhtReg cond u rn rt rm s) := by
  unfold execStrhtReg
  exact (sound_onCond _ (Kept.refl s) (sound_unlessPCOffset _ (sound_storeReg _ _ _ _ _ _ _ _ _ _)))

theorem sound_execLdrsbtImm (cond : BitVec 4) (u : BitVec 1) (rn : BitVec 4) (rt : BitVec 4) (imm4H : BitVec 4) (imm4L : BitVec 4) (s : State) : SoundO s (execLdrsbtImm cond u rn rt imm4H imm4L s) := by
  unfold execLdrsbtImm
  exact (sound_onCond _ (Kept.refl s) (sound_loadReg _ _ _ _ _ _ _ _ _ _))

theorem sound_execLdrsbtReg (cond : BitVec 4) (u : BitVec 1) (rn : BitVec 4) (rt : BitVec 4) (rm : BitVec 4) (s : State) : SoundO s (execLdrsbtReg cond u rn rt rm s) := by
  unfold execLdrsbtReg
  exact (sound_onCond _ (Kept.refl s) (sound_unlessPCOffset _ (sound_loadReg _ _ _ _ _ _ _ _ _ _)))

theorem sound_execLdrshtImm (cond : BitVec 4) (u : BitVec 1) (rn : BitVec 4) (rt : BitVec 4) (imm4H : BitVec 4) (imm4L : BitVec 4) (s : State) : SoundO s (execLdrshtImm cond u rn rt imm4H imm4L s) := by
  unfold execLdrshtImm
  exact (sound_onCond _ (Kept.refl s) (sound_loadReg _ _ _ _ _ _ _ _ _ _))

theorem sound_execLdrshtReg (cond : BitVec 4) (u : BitVec 1) (rn : BitVec 4) (rt : BitVec 4) (rm : BitVec 4) (s : State) : SoundO s (execLdrshtReg cond u rn rt rm s) := by
  unfold execLdrshtReg
  exact (sound_onCond _ (Kept.refl s) (sound_unlessPCOffset _ (sound_loadReg _ _ _ _ _ _ _ _ _ _)))

theorem sound_execLdm (cond : BitVec 4) (p : BitVec 1) (u : BitVec 1) (w : BitVec 1) (rn : BitVec 4) (regs : BitVec 16) (s : State) : SoundO s (execLdm cond p u w rn regs s) := by
  unfold execLdm
  exact (sound_onCond _ (Kept.refl s) (sound_loadMultiple _ _ _ _ _ _))

theorem sound_execStm (cond : BitVec 4) (p : BitVec 1) (u : BitVec 1) (w : BitVec 1) (rn : BitVec 4) (regs : BitVec 16) (s : State) : SoundO s (execStm cond p u w rn regs s) := by
  unfold execStm
  exact (sound_onCond _ (Kept.refl s) (sound_storeMultiple _ _ _ _ _ _ _))

theorem sound_execPopMulti (cond : BitVec 4) (regs : BitVec 16) (s : State) : SoundO s (execPopMulti cond regs s) := by
  unfold execPopMulti
  exact (sound_onCond _ (Kept.refl s) (sound_loadMultiple _ _ _ _ _ _))

theorem sound_execPushMulti (cond : BitVec 4) (regs : BitVec 16) (s : State) : SoundO s (execPushMulti cond regs s) := by
  unfold execPushMulti
  exact (sound_onCond _ (Kept.refl s) (sound_storeMultiple _ _ _ _ _ _ _))

theorem sound_execLdmUser (cond : BitVec 4) (p : BitVec 1) (u : BitVec 1) (rn : BitVec 4) (regs : BitVec 15) (s : State) : SoundO s (execLdmUser cond p u rn regs s) := by
  unfold execLdmUser
  exact sound_onCond _ (Kept.refl s) (sound_unlessUserSystem (sound_loadBlock _ _ _ _ _ _ _ (fun _ => by decide) _ fun _ _ h => sound_advance' h))

theorem sound_execLdmExcRet (cond : BitVec 4) (p : BitVec 1) (u : BitVec 1) (w : BitVec 1) (rn : BitVec 4) (regs : BitVec 15) (s : State) : SoundO s (execLdmExcRet cond p u w rn regs s) := by
  unfold execLdmExcRet
  exact sound_onCond _ (Kept.refl s) (by
    split
    · exact soundO_fault _
    · rename_i v hv
      refine sound_loadBlock _ _ _ _ _ _ _ nonsecure_mode _ fun _ _ h => sound_return h (fun x => ?_) _ _
      rw [State.spsr?, x] at hv; cases hv)

theorem sound_execStmUser (cond : BitVec 4) (p : BitVec 1) (u : BitVec 1) (rn : BitVec 4) (regs : BitVec 16) (s : State) : SoundO s (execStmUser cond p u rn regs s) := by
  unfold execStmUser
  exact (sound_onCond _ (Kept.refl s) (sound_unlessUserSystem (sound_storeMultiple _ _ _ _ _ _ _)))

theorem sound_execSwp (cond : BitVec 4) (rn : BitVec 4) (rt : BitVec 4) (rt2 : BitVec 4) (s : State) : SoundO s (execSwp cond rn rt rt2 s) := by
  unfold execSwp
  exact (sound_onCond _ (Kept.refl s) (sound_swapData _ _ _ _ _))

theorem sound_execSwpb (cond : BitVec 4) (rn : BitVec 4) (rt : BitVec 4) (rt2 : BitVec 4) (s : State) : SoundO s (execSwpb cond rn rt rt2 s) := by
  unfold execSwpb
  exact (sound_onCond _ (Kept.refl s) (sound_swapData _ _ _ _ _))

theorem sound_execLdrex (cond : BitVec 4) (rn : BitVec 4) (rt : BitVec 4) (s : State) : SoundO s (execLdrex cond rn rt s) := by
  unfold execLdrex
  exact (sound_onCond _ (Kept.refl s) (sound_loadExReg _ _ _ _))

theorem sound_execLdrexb (cond : BitVec 4) (rn : BitVec 4) (rt : BitVec 4) (s : State) : SoundO s (execLdrexb cond rn rt s) := by
  unfold execLdrexb
  exact (sound_onCond _ (Kept.refl s) (sound_loadExReg _ _ _ _))

theorem sound_execLdrexh (cond : BitVec 4) (rn : BitVec 4) (rt : BitVec 4) (s : State) : SoundO s (execLdrexh cond rn rt s) := by
  unfold execLdrexh
  exact (sound_onCond _ (Kept.refl s) (sound_loadExReg _ _ _ _))

theorem sound_execLdrexd (cond : BitVec 4) (rn : BitVec 4) (rt : BitVec 4) (s : State) : SoundO s (execLdrexd cond rn rt s) := by
  unfold execLdrexd
  exact sound_onCond _ (Kept.refl s) (sound_if (soundO_fault _) (sound_finish (keeps_loadExclusive _ _ _) fun _ _ h => sound_advance' ((h.trans (kept_setReg _ _ _)).trans (kept_setReg _ _ _))))

theorem sound_execStrex (cond : BitVec 4) (rn : BitVec 4) (rd : BitVec 4) (rt : BitVec 4) (s : State) : SoundO s (execStrex cond rn rd rt s) := by
  unfold execStrex
  exact (sound_onCond _ (Kept.refl s) (sound_storeExReg _ _ _ _ _))

theorem sound_execStrexb (cond : BitVec 4) (rn : BitVec 4) (rd : BitVec 4) (rt : BitVec 4) (s : State) : SoundO s (execStrexb cond rn rd rt s) := by
  unfold execStrexb
  exact (sound_onCond _ (Kept.refl s) (sound_storeExReg _ _ _ _ _))

theorem sound_execStrexh (cond : BitVec 4) (rn : BitVec 4) (rd : BitVec 4) (rt : BitVec 4) (s : State) : SoundO s (execStrexh cond rn rd rt s) := by
  unfold execStrexh
  exact (sound_onCond _ (Kept.refl s) (sound_storeExReg _ _ _ _ _))

theorem sound_execStrexd (cond : BitVec 4) (rn : BitVec 4) (rd : BitVec 4) (rt : BitVec 4) (s : State) : SoundO s (execStrexd cond rn rd rt s) := by
  unfold execStrexd
  exact sound_onCond _ (Kept.refl s) (sound_if (soundO_fault _) (sound_finish (keeps_storeExclusive _ _ _ _) fun _ _ h => soundO_next (sound_writeStatus h _ _)))

theorem sound_execClrex (s : State) : SoundO s (execClrex s) := by
  unfold execClrex
  exact (sound_advance' ⟨rfl, rfl, rfl, rfl, rfl, fun _ => rfl, id⟩)

theorem sound_execPliImm (_u : BitVec 1) (_rn : BitVec 4) (_imm12 : BitVec 12) (s : State) : SoundO s (execPliImm _u _rn _imm12 s) := by
  unfold execPliImm
  exact (sound_advance' (Kept.refl s))

theorem sound_execPliReg (_u : BitVec 1) (_rn : BitVec 4) (_imm5 : BitVec 5) (_typ : BitVec 2) (_rm : BitVec 4) (s : State) : SoundO s (execPliReg _u _rn _imm5 _typ _rm s) := by
  unfold execPliReg
  exact (sound_advance' (Kept.refl s))

theorem sound_execPldImm (_u : BitVec 1) (_rn : BitVec 4) (_imm12 : BitVec 12) (s : State) : SoundO s (execPldImm _u _rn _imm12 s) := by
  unfold execPldImm
  exact (sound_advance' (Kept.refl s))

theorem sound_execPldReg (_u : BitVec 1) (_rn : BitVec 4) (_imm5 : BitVec 5) (_typ : BitVec 2) (_rm : BitVec 4) (s : State) : SoundO s (execPldReg _u _rn _imm5 _typ _rm s) := by
  unfold execPldReg
  exact (sound_advance' (Kept.refl s))

theorem sound_execPldwImm (_u : BitVec 1) (_rn : BitVec 4) (_imm12 : BitVec 12) (s : State) : SoundO s (execPldwImm _u _rn _imm12 s) := by
  unfold execPldwImm
  exact (sound_advance' (Kept.refl s))

theorem sound_execPldwReg (_u : BitVec 1) (_rn : BitVec 4) (_imm5 : BitVec 5) (_typ : BitVec 2) (_rm : BitVec 4) (s : State) : SoundO s (execPldwReg _u _rn _imm5 _typ _rm s) := by
  unfold execPldwReg
  exact (sound_advance' (Kept.refl s))

theorem sound_execMemHintImm (_u : BitVec 1) (_lo : BitVec 20) (s : State) : SoundO s (execMemHintImm _u _lo s) := by
  unfold execMemHintImm
  exact (sound_advance' (Kept.refl s))

theorem sound_execMemHintReg (_u : BitVec 1) (_mid : BitVec 15) (_lo : BitVec 4) (s : State) : SoundO s (execMemHintReg _u _mid _lo s) := by
  unfold execMemHintReg
  exact (sound_advance' (Kept.refl s))

theorem sound_execMrcDscrFlags (cond : BitVec 4) (s : State) : SoundO s (execMrcDscrFlags cond s) := by
  unfold execMrcDscrFlags
  exact (sound_readSys _ _ _ _ _)

theorem sound_execMrcDidr (cond : BitVec 4) (rt : BitVec 4) (s : State) : SoundO s (execMrcDidr cond rt s) := by
  unfold execMrcDidr
  exact (sound_readSys _ _ _ _ _)

theorem sound_execMrcDrar (cond : BitVec 4) (rt : BitVec 4) (s : State) : SoundO s (execMrcDrar cond rt s) := by
  unfold execMrcDrar
  exact (sound_readSys _ _ _ _ _)

theorem sound_execMrcDsar (cond : BitVec 4) (rt : BitVec 4) (s : State) : SoundO s (execMrcDsar cond rt s) := by
  unfold execMrcDsar
  exact (sound_readSys _ _ _ _ _)

theorem sound_execMrcDscr (cond : BitVec 4) (rt : BitVec 4) (s : State) : SoundO s (execMrcDscr cond rt s) := by
  unfold execMrcDscr
  exact sound_onCond _ (Kept.refl s) (soundO_ite (sound_receive (kept_drawn s) _ _) (soundO_next (sound_undefined (Kept.refl s))))

theorem sound_execMrcDtr (cond : BitVec 4) (rt : BitVec 4) (s : State) : SoundO s (execMrcDtr cond rt s) := by
  unfold execMrcDtr
  exact sound_onCond _ (Kept.refl s) (soundO_ite (sound_receive ((kept_drawn s).trans (kept_dtrTaken _)) _ _) (soundO_next (sound_undefined (Kept.refl s))))

theorem sound_execMcrDtr (cond : BitVec 4) (rt : BitVec 4) (s : State) : SoundO s (execMcrDtr cond rt s) := by
  unfold execMcrDtr
  exact (sound_writeSys _ _ _ _ _ fun _ => (kept_dtrGiven s _))

theorem sound_execMrcTeecr (cond : BitVec 4) (rt : BitVec 4) (s : State) : SoundO s (execMrcTeecr cond rt s) := by
  unfold execMrcTeecr
  exact (sound_readSys _ _ _ _ _)

theorem sound_execMcrTeecr (cond : BitVec 4) (rt : BitVec 4) (s : State) : SoundO s (execMcrTeecr cond rt s) := by
  unfold execMcrTeecr
  exact (sound_writeSys _ _ _ _ _ fun _ => ⟨rfl, rfl, rfl, rfl, rfl, fun _ => rfl, id⟩)

theorem sound_execMrcTeehbr (cond : BitVec 4) (rt : BitVec 4) (s : State) : SoundO s (execMrcTeehbr cond rt s) := by
  unfold execMrcTeehbr
  exact (sound_readSys _ _ _ _ _)

theorem sound_execMcrTeehbr (cond : BitVec 4) (rt : BitVec 4) (s : State) : SoundO s (execMcrTeehbr cond rt s) := by
  unfold execMcrTeehbr
  exact (sound_writeSys _ _ _ _ _ fun _ => ⟨rfl, rfl, rfl, rfl, rfl, fun _ => rfl, id⟩)

theorem sound_execMrcJidr (cond : BitVec 4) (rt : BitVec 4) (s : State) : SoundO s (execMrcJidr cond rt s) := by
  unfold execMrcJidr
  exact (sound_readSys _ _ _ _ _)

theorem sound_execMrcJoscr (cond : BitVec 4) (rt : BitVec 4) (s : State) : SoundO s (execMrcJoscr cond rt s) := by
  unfold execMrcJoscr
  exact (sound_readSys _ _ _ _ _)

theorem sound_execMcrJoscr (cond : BitVec 4) (rt : BitVec 4) (s : State) : SoundO s (execMcrJoscr cond rt s) := by
  unfold execMcrJoscr
  exact (sound_writeSys _ _ _ _ _ fun _ => (Kept.refl s))

theorem sound_execMrcJmcr (cond : BitVec 4) (rt : BitVec 4) (s : State) : SoundO s (execMrcJmcr cond rt s) := by
  unfold execMrcJmcr
  exact (sound_readSys _ _ _ _ _)

theorem sound_execMcrJmcr (cond : BitVec 4) (rt : BitVec 4) (s : State) : SoundO s (execMcrJmcr cond rt s) := by
  unfold execMcrJmcr
  exact (sound_writeSys _ _ _ _ _ fun _ => (Kept.refl s))

theorem sound_execLdcDtr (cond : BitVec 4) (p : BitVec 1) (u : BitVec 1) (w : BitVec 1) (rn : BitVec 4) (imm8 : BitVec 8) (s : State) : SoundO s (execLdcDtr cond p u w rn imm8 s) := by
  unfold execLdcDtr
  exact sound_withDtr _ _ _ _ _ (sound_finish (keeps_readData _ _ _) fun _ _ h => sound_advance' ((h.trans (kept_dtrBack _ _ _ _ _)).trans (kept_dtrGiven _ _)))

theorem sound_execStcDtr (cond : BitVec 4) (p : BitVec 1) (u : BitVec 1) (w : BitVec 1) (rn : BitVec 4) (imm8 : BitVec 8) (s : State) : SoundO s (execStcDtr cond p u w rn imm8 s) := by
  unfold execStcDtr
  exact sound_withDtr _ _ _ _ _ (sound_finish (keeps_mono (kept_drawn s) (keeps_writeData _ _ _ _)) fun _ _ h => sound_advance' ((h.trans (kept_dtrBack _ _ _ _ _)).trans (kept_dtrTaken _)))

theorem sound_execP14DebugOther (cond : BitVec 4) (_l : BitVec 1) (_cRn : BitVec 4) (_rt : BitVec 4) (_opc2 : BitVec 3) (_cRm : BitVec 4) (s : State) : SoundO s (execP14DebugOther cond _l _cRn _rt _opc2 _cRm s) := by
  unfold execP14DebugOther
  exact (sound_onUndefined _ s)

theorem sound_execP14TeeOther (cond : BitVec 4) (_l : BitVec 1) (_cRn : BitVec 4) (_rt : BitVec 4) (_opc2 : BitVec 3) (_cRm : BitVec 4) (s : State) : SoundO s (execP14TeeOther cond _l _cRn _rt _opc2 _cRm s) := by
  unfold execP14TeeOther
  exact (sound_onUndefined _ s)

theorem sound_execP14Other (cond : BitVec 4) (_opc1 : BitVec 3) (_l : BitVec 1) (_cRn : BitVec 4) (_rt : BitVec 4) (_opc2 : BitVec 3) (_cRm : BitVec 4) (s : State) : SoundO s (execP14Other cond _opc1 _l _cRn _rt _opc2 _cRm s) := by
  unfold execP14Other
  exact (sound_onUndefined _ s)

theorem sound_execFmstat (cond : BitVec 4) (s : State) : SoundO s (execFmstat cond s) := by
  unfold execFmstat
  exact sound_onCond _ (Kept.refl s) (soundO_ite (sound_receive (Kept.refl s) _ _) (soundO_next (sound_undefined (Kept.refl s))))

theorem sound_execVmrsFpsid (cond : BitVec 4) (rt : BitVec 4) (s : State) : SoundO s (execVmrsFpsid cond rt s) := by
  unfold execVmrsFpsid
  exact (sound_readVfp _ _ _ _ _)

theorem sound_execVmsrFpsid (cond : BitVec 4) (rt : BitVec 4) (s : State) : SoundO s (execVmsrFpsid cond rt s) := by
  unfold execVmsrFpsid
  exact (sound_writeVfp _ _ _ _ _ fun _ => (Kept.refl s))

theorem sound_execVmrsFpscr (cond : BitVec 4) (rt : BitVec 4) (s : State) : SoundO s (execVmrsFpscr cond rt s) := by
  unfold execVmrsFpscr
  exact (sound_readVfp _ _ _ _ _)

theorem sound_execVmsrFpscr (cond : BitVec 4) (rt : BitVec 4) (s : State) : SoundO s (execVmsrFpscr cond rt s) := by
  unfold execVmsrFpscr
  exact (sound_writeVfp _ _ _ _ _ fun _ => ⟨rfl, rfl, rfl, rfl, rfl, fun _ => rfl, id⟩)

theorem sound_execVmrsMvfr1 (cond : BitVec 4) (rt : BitVec 4) (s : State) : SoundO s (execVmrsMvfr1 cond rt s) := by
  unfold execVmrsMvfr1
  exact (sound_readVfp _ _ _ _ _)

theorem sound_execVmsrMvfr1 (cond : BitVec 4) (rt : BitVec 4) (s : State) : SoundO s (execVmsrMvfr1 cond rt s) := by
  unfold execVmsrMvfr1
  exact (sound_writeVfp _ _ _ _ _ fun _ => (Kept.refl s))

theorem sound_execVmrsMvfr0 (cond : BitVec 4) (rt : BitVec 4) (s : State) : SoundO s (execVmrsMvfr0 cond rt s) := by
  unfold execVmrsMvfr0
  exact (sound_readVfp _ _ _ _ _)

theorem sound_execVmsrMvfr0 (cond : BitVec 4) (rt : BitVec 4) (s : State) : SoundO s (execVmsrMvfr0 cond rt s) := by
  unfold execVmsrMvfr0
  exact (sound_writeVfp _ _ _ _ _ fun _ => (Kept.refl s))

theorem sound_execVmrsFpexc (cond : BitVec 4) (rt : BitVec 4) (s : State) : SoundO s (execVmrsFpexc cond rt s) := by
  unfold execVmrsFpexc
  exact (sound_readVfp _ _ _ _ _)

theorem sound_execVmsrFpexc (cond : BitVec 4) (rt : BitVec 4) (s : State) : SoundO s (execVmsrFpexc cond rt s) := by
  unfold execVmsrFpexc
  exact (sound_writeVfp _ _ _ _ _ fun _ => ⟨rfl, rfl, rfl, rfl, rfl, fun _ => rfl, id⟩)

theorem sound_execVfpSysOther (cond : BitVec 4) (_l : BitVec 1) (_reg : BitVec 4) (_rt : BitVec 4) (s : State) : SoundO s (execVfpSysOther cond _l _reg _rt s) := by
  unfold execVfpSysOther
  exact (sound_onUndefined _ s)

theorem sound_execAsimdData (_bits : BitVec 25) (s : State) : SoundO s (execAsimdData _bits s) := by
  unfold execAsimdData
  exact (sound_neonVfp _)

theorem sound_execAsimdLoadStore (_hi : BitVec 3) (_lo : BitVec 20) (s : State) : SoundO s (execAsimdLoadStore _hi _lo s) := by
  unfold execAsimdLoadStore
  exact (sound_neonVfp _)

theorem sound_execVfpData (cond : BitVec 4) (_hi : BitVec 12) (_mid : BitVec 4) (_lo : BitVec 4) (s : State) : SoundO s (execVfpData cond _hi _mid _lo s) := by
  unfold execVfpData
  exact (sound_onCond _ (Kept.refl s) (sound_neonVfp _))

theorem sound_execVfpTransfer (cond : BitVec 4) (_hi : BitVec 12) (_mid : BitVec 4) (_lo : BitVec 4) (s : State) : SoundO s (execVfpTransfer cond _hi _mid _lo s) := by
  unfold execVfpTransfer
  exact (sound_onCond _ (Kept.refl s) (sound_neonVfp _))

theorem sound_execVfpLoadStore (cond : BitVec 4) (_hi : BitVec 13) (_lo : BitVec 9) (s : State) : SoundO s (execVfpLoadStore cond _hi _lo s) := by
  unfold execVfpLoadStore
  exact (sound_onCond _ (Kept.refl s) (sound_neonVfp _))

theorem sound_execCoproc2LoadStore (_bits : BitVec 25) (s : State) : SoundO s (execCoproc2LoadStore _bits s) := by
  unfold execCoproc2LoadStore
  exact (soundO_next (sound_undefined (Kept.refl s)))

theorem sound_execCoproc2Reg (_bits : BitVec 24) (s : State) : SoundO s (execCoproc2Reg _bits s) := by
  unfold execCoproc2Reg
  exact (soundO_next (sound_undefined (Kept.refl s)))

theorem sound_execUncondOther (_bits : BitVec 28) (s : State) : SoundO s (execUncondOther _bits s) := by
  unfold execUncondOther
  exact (soundO_next (sound_undefined (Kept.refl s)))

theorem sound_execMcrOther (cond : BitVec 4) (_opc1 : BitVec 3) (_cRn : BitVec 4) (_rt : BitVec 4) (_coproc : BitVec 4) (_opc2 : BitVec 3) (_cRm : BitVec 4) (s : State) : SoundO s (execMcrOther cond _opc1 _cRn _rt _coproc _opc2 _cRm s) := by
  unfold execMcrOther
  exact (sound_onUndefined _ s)

theorem sound_execMrcOther (cond : BitVec 4) (_opc1 : BitVec 3) (_cRn : BitVec 4) (_rt : BitVec 4) (_coproc : BitVec 4) (_opc2 : BitVec 3) (_cRm : BitVec 4) (s : State) : SoundO s (execMrcOther cond _opc1 _cRn _rt _coproc _opc2 _cRm s) := by
  unfold execMrcOther
  exact (sound_onUndefined _ s)

theorem sound_execCdpAny (cond : BitVec 4) (_opc1 : BitVec 4) (_cRn : BitVec 4) (_cRd : BitVec 4) (_coproc : BitVec 4) (_opc2 : BitVec 3) (_cRm : BitVec 4) (s : State) : SoundO s (execCdpAny cond _opc1 _cRn _cRd _coproc _opc2 _cRm s) := by
  unfold execCdpAny
  exact (sound_onUndefined _ s)

theorem sound_execMcrrAny (cond : BitVec 4) (_rt2 : BitVec 4) (_rt : BitVec 4) (_coproc : BitVec 4) (_opc1 : BitVec 4) (_cRm : BitVec 4) (s : State) : SoundO s (execMcrrAny cond _rt2 _rt _coproc _opc1 _cRm s) := by
  unfold execMcrrAny
  exact (sound_onUndefined _ s)

theorem sound_execMrrcAny (cond : BitVec 4) (_rt2 : BitVec 4) (_rt : BitVec 4) (_coproc : BitVec 4) (_opc1 : BitVec 4) (_cRm : BitVec 4) (s : State) : SoundO s (execMrrcAny cond _rt2 _rt _coproc _opc1 _cRm s) := by
  unfold execMrrcAny
  exact (sound_onUndefined _ s)

theorem sound_execLdcStcOther (cond : BitVec 4) (_p : BitVec 1) (_u : BitVec 1) (_d : BitVec 1) (_w : BitVec 1) (_l : BitVec 1) (_rn : BitVec 4) (_cRd : BitVec 4) (_coproc : BitVec 4) (_imm8 : BitVec 8) (s : State) : SoundO s (execLdcStcOther cond _p _u _d _w _l _rn _cRd _coproc _imm8 s) := by
  unfold execLdcStcOther
  exact (sound_onUndefined _ s)

theorem sound_execMrcMidr (cond : BitVec 4) (rt : BitVec 4) (s : State) : SoundO s (execMrcMidr cond rt s) := by
  unfold execMrcMidr
  exact (sound_readSys _ _ _ _ _)

theorem sound_execMrcMidr4 (cond : BitVec 4) (rt : BitVec 4) (s : State) : SoundO s (execMrcMidr4 cond rt s) := by
  unfold execMrcMidr4
  exact (sound_readSys _ _ _ _ _)

theorem sound_execMrcMidr6 (cond : BitVec 4) (rt : BitVec 4) (s : State) : SoundO s (execMrcMidr6 cond rt s) := by
  unfold execMrcMidr6
  exact (sound_readSys _ _ _ _ _)

theorem sound_execMrcMidr7 (cond : BitVec 4) (rt : BitVec 4) (s : State) : SoundO s (execMrcMidr7 cond rt s) := by
  unfold execMrcMidr7
  exact (sound_readSys _ _ _ _ _)

theorem sound_execMrcCtr (cond : BitVec 4) (rt : BitVec 4) (s : State) : SoundO s (execMrcCtr cond rt s) := by
  unfold execMrcCtr
  exact (sound_readSys _ _ _ _ _)

theorem sound_execMrcTcmtr (cond : BitVec 4) (rt : BitVec 4) (s : State) : SoundO s (execMrcTcmtr cond rt s) := by
  unfold execMrcTcmtr
  exact (sound_readSys _ _ _ _ _)

theorem sound_execMrcTlbtr (cond : BitVec 4) (rt : BitVec 4) (s : State) : SoundO s (execMrcTlbtr cond rt s) := by
  unfold execMrcTlbtr
  exact (sound_readSys _ _ _ _ _)

theorem sound_execMrcMpidr (cond : BitVec 4) (rt : BitVec 4) (s : State) : SoundO s (execMrcMpidr cond rt s) := by
  unfold execMrcMpidr
  exact (sound_readSys _ _ _ _ _)

theorem sound_execMrcIdPfr0 (cond : BitVec 4) (rt : BitVec 4) (s : State) : SoundO s (execMrcIdPfr0 cond rt s) := by
  unfold execMrcIdPfr0
  exact (sound_readSys _ _ _ _ _)

theorem sound_execMrcIdPfr1 (cond : BitVec 4) (rt : BitVec 4) (s : State) : SoundO s (execMrcIdPfr1 cond rt s) := by
  unfold execMrcIdPfr1
  exact (sound_readSys _ _ _ _ _)

theorem sound_execMrcIdDfr0 (cond : BitVec 4) (rt : BitVec 4) (s : State) : SoundO s (execMrcIdDfr0 cond rt s) := by
  unfold execMrcIdDfr0
  exact (sound_readSys _ _ _ _ _)

theorem sound_execMrcIdAfr0 (cond : BitVec 4) (rt : BitVec 4) (s : State) : SoundO s (execMrcIdAfr0 cond rt s) := by
  unfold execMrcIdAfr0
  exact (sound_readSys _ _ _ _ _)

theorem sound_execMrcIdMmfr0 (cond : BitVec 4) (rt : BitVec 4) (s : State) : SoundO s (execMrcIdMmfr0 cond rt s) := by
  unfold execMrcIdMmfr0
  exact (sound_readSys _ _ _ _ _)

theorem sound_execMrcIdMmfr1 (cond : BitVec 4) (rt : BitVec 4) (s : State) : SoundO s (execMrcIdMmfr1 cond rt s) := by
  unfold execMrcIdMmfr1
  exact (sound_readSys _ _ _ _ _)

theorem sound_execMrcIdMmfr2 (cond : BitVec 4) (rt : BitVec 4) (s : State) : SoundO s (execMrcIdMmfr2 cond rt s) := by
  unfold execMrcIdMmfr2
  exact (sound_readSys _ _ _ _ _)

theorem sound_execMrcIdMmfr3 (cond : BitVec 4) (rt : BitVec 4) (s : State) : SoundO s (execMrcIdMmfr3 cond rt s) := by
  unfold execMrcIdMmfr3
  exact (sound_readSys _ _ _ _ _)

theorem sound_execMrcIdIsar0 (cond : BitVec 4) (rt : BitVec 4) (s : State) : SoundO s (execMrcIdIsar0 cond rt s) := by
  unfold execMrcIdIsar0
  exact (sound_readSys _ _ _ _ _)

theorem sound_execMrcIdIsar1 (cond : BitVec 4) (rt : BitVec 4) (s : State) : SoundO s (execMrcIdIsar1 cond rt s) := by
  unfold execMrcIdIsar1
  exact (sound_readSys _ _ _ _ _)

theorem sound_execMrcIdIsar2 (cond : BitVec 4) (rt : BitVec 4) (s : State) : SoundO s (execMrcIdIsar2 cond rt s) := by
  unfold execMrcIdIsar2
  exact (sound_readSys _ _ _ _ _)

theorem sound_execMrcIdIsar3 (cond : BitVec 4) (rt : BitVec 4) (s : State) : SoundO s (execMrcIdIsar3 cond rt s) := by
  unfold execMrcIdIsar3
  exact (sound_readSys _ _ _ _ _)

theorem sound_execMrcIdIsar4 (cond : BitVec 4) (rt : BitVec 4) (s : State) : SoundO s (execMrcIdIsar4 cond rt s) := by
  unfold execMrcIdIsar4
  exact (sound_readSys _ _ _ _ _)

theorem sound_execMrcIdIsar5 (cond : BitVec 4) (rt : BitVec 4) (s : State) : SoundO s (execMrcIdIsar5 cond rt s) := by
  unfold execMrcIdIsar5
  exact (sound_readSys _ _ _ _ _)

theorem sound_execMrcIdIsar6 (cond : BitVec 4) (rt : BitVec 4) (s : State) : SoundO s (execMrcIdIsar6 cond rt s) := by
  unfold execMrcIdIsar6
  exact (sound_readSys _ _ _ _ _)

theorem sound_execMrcIdIsar7 (cond : BitVec 4) (rt : BitVec 4) (s : State) : SoundO s (execMrcIdIsar7 cond rt s) := by
  unfold execMrcIdIsar7
  exact (sound_readSys _ _ _ _ _)

theorem sound_execMrcFeatureReserved (cond : BitVec 4) (rt : BitVec 4) (_opc2 : BitVec 3) (_cRm : BitVec 4) (s : State) : SoundO s (execMrcFeatureReserved cond rt _opc2 _cRm s) := by
  unfold execMrcFeatureReserved
  exact (sound_readSys _ _ _ _ _)

theorem sound_execMrcCcsidr (cond : BitVec 4) (rt : BitVec 4) (s : State) : SoundO s (execMrcCcsidr cond rt s) := by
  unfold execMrcCcsidr
  exact (sound_readSys _ _ _ _ _)

theorem sound_execMrcClidr (cond : BitVec 4) (rt : BitVec 4) (s : State) : SoundO s (execMrcClidr cond rt s) := by
  unfold execMrcClidr
  exact (sound_readSys _ _ _ _ _)

theorem sound_execMrcSiliconId (cond : BitVec 4) (rt : BitVec 4) (s : State) : SoundO s (execMrcSiliconId cond rt s) := by
  unfold execMrcSiliconId
  exact (sound_readSys _ _ _ _ _)

theorem sound_execMrcCsselr (cond : BitVec 4) (rt : BitVec 4) (s : State) : SoundO s (execMrcCsselr cond rt s) := by
  unfold execMrcCsselr
  exact (sound_readSys _ _ _ _ _)

theorem sound_execMcrCsselr (cond : BitVec 4) (rt : BitVec 4) (s : State) : SoundO s (execMcrCsselr cond rt s) := by
  unfold execMcrCsselr
  exact (sound_writeSys _ _ _ _ _ fun _ => (kept_setCopy _ _))

theorem sound_execMrcSctlr (cond : BitVec 4) (rt : BitVec 4) (s : State) : SoundO s (execMrcSctlr cond rt s) := by
  unfold execMrcSctlr
  exact (sound_readSys _ _ _ _ _)

theorem sound_execMcrSctlr (cond : BitVec 4) (rt : BitVec 4) (s : State) : SoundO s (execMcrSctlr cond rt s) := by
  unfold execMcrSctlr
  exact (sound_withSys _ _ _ _ _ fun _ _ => (sound_unlessPle _ (sound_advance' (kept_setCopy _ _))))

theorem sound_execMrcActlr (cond : BitVec 4) (rt : BitVec 4) (s : State) : SoundO s (execMrcActlr cond rt s) := by
  unfold execMrcActlr
  exact (sound_readSys _ _ _ _ _)

theorem sound_execMcrActlr (cond : BitVec 4) (rt : BitVec 4) (s : State) : SoundO s (execMcrActlr cond rt s) := by
  unfold execMcrActlr
  exact (sound_withSys _ _ _ _ _ fun _ _ => (sound_unlessPle _ (sound_advance' (kept_actlrWrite _ s))))

theorem sound_execMrcCpacr (cond : BitVec 4) (rt : BitVec 4) (s : State) : SoundO s (execMrcCpacr cond rt s) := by
  unfold execMrcCpacr
  exact (sound_readSys _ _ _ _ _)

theorem sound_execMcrCpacr (cond : BitVec 4) (rt : BitVec 4) (s : State) : SoundO s (execMcrCpacr cond rt s) := by
  unfold execMcrCpacr
  exact (sound_writeSys _ _ _ _ _ fun _ => ⟨rfl, rfl, rfl, rfl, rfl, fun _ => rfl, id⟩)

theorem sound_execMrcScr (cond : BitVec 4) (rt : BitVec 4) (s : State) : SoundO s (execMrcScr cond rt s) := by
  unfold execMrcScr
  exact (sound_readSys _ _ _ _ _)

theorem sound_execMcrScr (cond : BitVec 4) (rt : BitVec 4) (s : State) : SoundO s (execMcrScr cond rt s) := by
  unfold execMcrScr
  exact (sound_withSys _ _ _ _ _ fun h v => sound_secure (secure_of h) rfl rfl rfl rfl rfl)

theorem sound_execMrcSder (cond : BitVec 4) (rt : BitVec 4) (s : State) : SoundO s (execMrcSder cond rt s) := by
  unfold execMrcSder
  exact (sound_readSys _ _ _ _ _)

theorem sound_execMcrSder (cond : BitVec 4) (rt : BitVec 4) (s : State) : SoundO s (execMcrSder cond rt s) := by
  unfold execMcrSder
  exact (sound_withSys _ _ _ _ _ fun h v => sound_secure (secure_of h) rfl rfl rfl rfl rfl)

theorem sound_execMrcNsacr (cond : BitVec 4) (rt : BitVec 4) (s : State) : SoundO s (execMrcNsacr cond rt s) := by
  unfold execMrcNsacr
  exact (sound_readSys _ _ _ _ _)

theorem sound_execMcrNsacr (cond : BitVec 4) (rt : BitVec 4) (s : State) : SoundO s (execMcrNsacr cond rt s) := by
  unfold execMcrNsacr
  exact (sound_withSys _ _ _ _ _ fun h v => sound_secure (secure_of h) rfl rfl rfl rfl rfl)

theorem sound_execMrcTtbr0 (cond : BitVec 4) (rt : BitVec 4) (s : State) : SoundO s (execMrcTtbr0 cond rt s) := by
  unfold execMrcTtbr0
  exact (sound_readSys _ _ _ _ _)

theorem sound_execMcrTtbr0 (cond : BitVec 4) (rt : BitVec 4) (s : State) : SoundO s (execMcrTtbr0 cond rt s) := by
  unfold execMcrTtbr0
  exact (sound_writeSys _ _ _ _ _ fun _ => (kept_setCopy _ _))

theorem sound_execMrcTtbr1 (cond : BitVec 4) (rt : BitVec 4) (s : State) : SoundO s (execMrcTtbr1 cond rt s) := by
  unfold execMrcTtbr1
  exact (sound_readSys _ _ _ _ _)

theorem sound_execMcrTtbr1 (cond : BitVec 4) (rt : BitVec 4) (s : State) : SoundO s (execMcrTtbr1 cond rt s) := by
  unfold execMcrTtbr1
  exact (sound_writeSys _ _ _ _ _ fun _ => (kept_setCopy _ _))

theorem sound_execMrcTtbcr (cond : BitVec 4) (rt : BitVec 4) (s : State) : SoundO s (execMrcTtbcr cond rt s) := by
  unfold execMrcTtbcr
  exact (sound_readSys _ _ _ _ _)

theorem sound_execMcrTtbcr (cond : BitVec 4) (rt : BitVec 4) (s : State) : SoundO s (execMcrTtbcr cond rt s) := by
  unfold execMcrTtbcr
  exact (sound_writeSys _ _ _ _ _ fun _ => (kept_setCopy _ _))

theorem sound_execMrcDacr (cond : BitVec 4) (rt : BitVec 4) (s : State) : SoundO s (execMrcDacr cond rt s) := by
  unfold execMrcDacr
  exact (sound_readSys _ _ _ _ _)

theorem sound_execMcrDacr (cond : BitVec 4) (rt : BitVec 4) (s : State) : SoundO s (execMcrDacr cond rt s) := by
  unfold execMcrDacr
  exact (sound_writeSys _ _ _ _ _ fun _ => (kept_setCopy _ _))

theorem sound_execMrcDfsr (cond : BitVec 4) (rt : BitVec 4) (s : State) : SoundO s (execMrcDfsr cond rt s) := by
  unfold execMrcDfsr
  exact (sound_readSys _ _ _ _ _)

theorem sound_execMcrDfsr (cond : BitVec 4) (rt : BitVec 4) (s : State) : SoundO s (execMcrDfsr cond rt s) := by
  unfold execMcrDfsr
  exact (sound_writeSys _ _ _ _ _ fun _ => (kept_setCopy _ _))

theorem sound_execMrcIfsr (cond : BitVec 4) (rt : BitVec 4) (s : State) : SoundO s (execMrcIfsr cond rt s) := by
  unfold execMrcIfsr
  exact (sound_readSys _ _ _ _ _)

theorem sound_execMcrIfsr (cond : BitVec 4) (rt : BitVec 4) (s : State) : SoundO s (execMcrIfsr cond rt s) := by
  unfold execMcrIfsr
  exact (sound_writeSys _ _ _ _ _ fun _ => (kept_setCopy _ _))

theorem sound_execMrcAdfsr (cond : BitVec 4) (rt : BitVec 4) (s : State) : SoundO s (execMrcAdfsr cond rt s) := by
  unfold execMrcAdfsr
  exact (sound_readSys _ _ _ _ _)

theorem sound_execMcrAdfsr (cond : BitVec 4) (rt : BitVec 4) (s : State) : SoundO s (execMcrAdfsr cond rt s) := by
  unfold execMcrAdfsr
  exact (sound_writeSys _ _ _ _ _ fun _ => (Kept.refl s))

theorem sound_execMrcAifsr (cond : BitVec 4) (rt : BitVec 4) (s : State) : SoundO s (execMrcAifsr cond rt s) := by
  unfold execMrcAifsr
  exact (sound_readSys _ _ _ _ _)

theorem sound_execMcrAifsr (cond : BitVec 4) (rt : BitVec 4) (s : State) : SoundO s (execMcrAifsr cond rt s) := by
  unfold execMcrAifsr
  exact (sound_writeSys _ _ _ _ _ fun _ => (Kept.refl s))

theorem sound_execMrcDfar (cond : BitVec 4) (rt : BitVec 4) (s : State) : SoundO s (execMrcDfar cond rt s) := by
  unfold execMrcDfar
  exact (sound_readSys _ _ _ _ _)

theorem sound_execMcrDfar (cond : BitVec 4) (rt : BitVec 4) (s : State) : SoundO s (execMcrDfar cond rt s) := by
  unfold execMcrDfar
  exact (sound_writeSys _ _ _ _ _ fun _ => (kept_setCopy _ _))

theorem sound_execMrcIfar (cond : BitVec 4) (rt : BitVec 4) (s : State) : SoundO s (execMrcIfar cond rt s) := by
  unfold execMrcIfar
  exact (sound_readSys _ _ _ _ _)

theorem sound_execMcrIfar (cond : BitVec 4) (rt : BitVec 4) (s : State) : SoundO s (execMcrIfar cond rt s) := by
  unfold execMcrIfar
  exact (sound_writeSys _ _ _ _ _ fun _ => (kept_setCopy _ _))

theorem sound_execMrcPar (cond : BitVec 4) (rt : BitVec 4) (s : State) : SoundO s (execMrcPar cond rt s) := by
  unfold execMrcPar
  exact (sound_readSys _ _ _ _ _)

theorem sound_execMcrPar (cond : BitVec 4) (rt : BitVec 4) (s : State) : SoundO s (execMcrPar cond rt s) := by
  unfold execMcrPar
  exact (sound_writeSys _ _ _ _ _ fun _ => (kept_setCopy _ _))

theorem sound_execMrcL2Lock (cond : BitVec 4) (rt : BitVec 4) (s : State) : SoundO s (execMrcL2Lock cond rt s) := by
  unfold execMrcL2Lock
  exact (sound_readSys _ _ _ _ _)

theorem sound_execMcrL2Lock (cond : BitVec 4) (rt : BitVec 4) (s : State) : SoundO s (execMcrL2Lock cond rt s) := by
  unfold execMcrL2Lock
  exact (sound_writeSys _ _ _ _ _ fun _ => ⟨rfl, rfl, rfl, rfl, rfl, fun _ => rfl, id⟩)

theorem sound_execMrcL2Aux (cond : BitVec 4) (rt : BitVec 4) (s : State) : SoundO s (execMrcL2Aux cond rt s) := by
  unfold execMrcL2Aux
  exact (sound_readSys _ _ _ _ _)

theorem sound_execMcrL2Aux (cond : BitVec 4) (rt : BitVec 4) (s : State) : SoundO s (execMcrL2Aux cond rt s) := by
  unfold execMcrL2Aux
  exact (sound_withSys _ _ _ _ _ fun h v => sound_secure (secure_of h) rfl rfl rfl rfl rfl)

theorem sound_execMrcDtlbLock (cond : BitVec 4) (rt : BitVec 4) (s : State) : SoundO s (execMrcDtlbLock cond rt s) := by
  unfold execMrcDtlbLock
  exact (sound_readSys _ _ _ _ _)

theorem sound_execMcrDtlbLock (cond : BitVec 4) (rt : BitVec 4) (s : State) : SoundO s (execMcrDtlbLock cond rt s) := by
  unfold execMcrDtlbLock
  exact (sound_writeSys _ _ _ _ _ fun _ => ⟨rfl, rfl, rfl, rfl, rfl, fun _ => rfl, id⟩)

theorem sound_execMrcItlbLock (cond : BitVec 4) (rt : BitVec 4) (s : State) : SoundO s (execMrcItlbLock cond rt s) := by
  unfold execMrcItlbLock
  exact (sound_readSys _ _ _ _ _)

theorem sound_execMcrItlbLock (cond : BitVec 4) (rt : BitVec 4) (s : State) : SoundO s (execMcrItlbLock cond rt s) := by
  unfold execMcrItlbLock
  exact (sound_writeSys _ _ _ _ _ fun _ => ⟨rfl, rfl, rfl, rfl, rfl, fun _ => rfl, id⟩)

theorem sound_execMrcPrrr (cond : BitVec 4) (rt : BitVec 4) (s : State) : SoundO s (execMrcPrrr cond rt s) := by
  unfold execMrcPrrr
  exact (sound_readSys _ _ _ _ _)

theorem sound_execMcrPrrr (cond : BitVec 4) (rt : BitVec 4) (s : State) : SoundO s (execMcrPrrr cond rt s) := by
  unfold execMcrPrrr
  exact (sound_withSys _ _ _ _ _ fun _ _ => (sound_unlessPle _ (sound_advance' (kept_setCopy _ _))))

theorem sound_execMrcNmrr (cond : BitVec 4) (rt : BitVec 4) (s : State) : SoundO s (execMrcNmrr cond rt s) := by
  unfold execMrcNmrr
  exact (sound_readSys _ _ _ _ _)

theorem sound_execMcrNmrr (cond : BitVec 4) (rt : BitVec 4) (s : State) : SoundO s (execMcrNmrr cond rt s) := by
  unfold execMcrNmrr
  exact (sound_withSys _ _ _ _ _ fun _ _ => (sound_unlessPle _ (sound_advance' (kept_setCopy _ _))))

theorem sound_execMrcVbar (cond : BitVec 4) (rt : BitVec 4) (s : State) : SoundO s (execMrcVbar cond rt s) := by
  unfold execMrcVbar
  exact (sound_readSys _ _ _ _ _)

theorem sound_execMcrVbar (cond : BitVec 4) (rt : BitVec 4) (s : State) : SoundO s (execMcrVbar cond rt s) := by
  unfold execMcrVbar
  exact (sound_writeSys _ _ _ _ _ fun _ => (kept_setCopy _ _))

theorem sound_execMrcMvbar (cond : BitVec 4) (rt : BitVec 4) (s : State) : SoundO s (execMrcMvbar cond rt s) := by
  unfold execMrcMvbar
  exact (sound_readSys _ _ _ _ _)

theorem sound_execMcrMvbar (cond : BitVec 4) (rt : BitVec 4) (s : State) : SoundO s (execMcrMvbar cond rt s) := by
  unfold execMcrMvbar
  exact (sound_withSys _ _ _ _ _ fun h v => sound_secure (secure_of (Bool.and_eq_true _ _ ▸ h : _ ∧ _).1) rfl rfl rfl rfl rfl)

theorem sound_execMrcIsr (cond : BitVec 4) (rt : BitVec 4) (s : State) : SoundO s (execMrcIsr cond rt s) := by
  unfold execMrcIsr
  exact (sound_readSys _ _ _ _ _)

theorem sound_execMrcFcse (cond : BitVec 4) (rt : BitVec 4) (s : State) : SoundO s (execMrcFcse cond rt s) := by
  unfold execMrcFcse
  exact (sound_readSys _ _ _ _ _)

theorem sound_execMcrFcse (cond : BitVec 4) (rt : BitVec 4) (s : State) : SoundO s (execMcrFcse cond rt s) := by
  unfold execMcrFcse
  exact (sound_writeSys _ _ _ _ _ fun _ => (kept_setCopy _ _))

theorem sound_execMrcContextidr (cond : BitVec 4) (rt : BitVec 4) (s : State) : SoundO s (execMrcContextidr cond rt s) := by
  unfold execMrcContextidr
  exact (sound_readSys _ _ _ _ _)

theorem sound_execMcrContextidr (cond : BitVec 4) (rt : BitVec 4) (s : State) : SoundO s (execMcrContextidr cond rt s) := by
  unfold execMcrContextidr
  exact (sound_withSys _ _ _ _ _ fun _ _ => (sound_unlessPle _ (sound_advance' ((kept_note _ _).trans (by exact kept_setCopy (s.note 0x0B) _)))))

theorem sound_execMrcTpidrurw (cond : BitVec 4) (rt : BitVec 4) (s : State) : SoundO s (execMrcTpidrurw cond rt s) := by
  unfold execMrcTpidrurw
  exact (sound_readSys _ _ _ _ _)

theorem sound_execMcrTpidrurw (cond : BitVec 4) (rt : BitVec 4) (s : State) : SoundO s (execMcrTpidrurw cond rt s) := by
  unfold execMcrTpidrurw
  exact (sound_writeSys _ _ _ _ _ fun _ => (kept_setCopy _ _))

theorem sound_execMrcTpidruro (cond : BitVec 4) (rt : BitVec 4) (s : State) : SoundO s (execMrcTpidruro cond rt s) := by
  unfold execMrcTpidruro
  exact (sound_readSys _ _ _ _ _)

theorem sound_execMcrTpidruro (cond : BitVec 4) (rt : BitVec 4) (s : State) : SoundO s (execMcrTpidruro cond rt s) := by
  unfold execMcrTpidruro
  exact (sound_writeSys _ _ _ _ _ fun _ => (kept_setCopy _ _))

theorem sound_execMrcTpidrprw (cond : BitVec 4) (rt : BitVec 4) (s : State) : SoundO s (execMrcTpidrprw cond rt s) := by
  unfold execMrcTpidrprw
  exact (sound_readSys _ _ _ _ _)

theorem sound_execMcrTpidrprw (cond : BitVec 4) (rt : BitVec 4) (s : State) : SoundO s (execMcrTpidrprw cond rt s) := by
  unfold execMcrTpidrprw
  exact (sound_writeSys _ _ _ _ _ fun _ => (kept_setCopy _ _))

theorem sound_execP15Other (cond : BitVec 4) (_opc1 : BitVec 3) (_l : BitVec 1) (_cRn : BitVec 4) (_rt : BitVec 4) (_opc2 : BitVec 3) (_cRm : BitVec 4) (s : State) : SoundO s (execP15Other cond _opc1 _l _cRn _rt _opc2 _cRm s) := by
  unfold execP15Other
  exact (sound_onUndefined _ s)

theorem sound_execRev (cond : BitVec 4) (rd : BitVec 4) (rm : BitVec 4) (s : State) : SoundO s (execRev cond rd rm s) := by
  unfold execRev
  exact (sound_onCond _ (Kept.refl s) (sound_mediaWrite _ _ _ _))

theorem sound_execRev16 (cond : BitVec 4) (rd : BitVec 4) (rm : BitVec 4) (s : State) : SoundO s (execRev16 cond rd rm s) := by
  unfold execRev16
  exact (sound_onCond _ (Kept.refl s) (sound_mediaWrite _ _ _ _))

theorem sound_execRevsh (cond : BitVec 4) (rd : BitVec 4) (rm : BitVec 4) (s : State) : SoundO s (execRevsh cond rd rm s) := by
  unfold execRevsh
  exact (sound_onCond _ (Kept.refl s) (sound_mediaWrite _ _ _ _))

theorem sound_execRbit (cond : BitVec 4) (rd : BitVec 4) (rm : BitVec 4) (s : State) : SoundO s (execRbit cond rd rm s) := by
  unfold execRbit
  exact (sound_onCond _ (Kept.refl s) (sound_mediaWrite _ _ _ _))

theorem sound_execBfc (cond : BitVec 4) (msb : BitVec 5) (rd : BitVec 4) (lsb : BitVec 5) (s : State) : SoundO s (execBfc cond msb rd lsb s) := by
  unfold execBfc
  exact (sound_onCond _ (Kept.refl s) (sound_insertField _ _ _ _ _ _))

theorem sound_execBfi (cond : BitVec 4) (msb : BitVec 5) (rd : BitVec 4) (lsb : BitVec 5) (rn : BitVec 4) (s : State) : SoundO s (execBfi cond msb rd lsb rn s) := by
  unfold execBfi
  exact (sound_onCond _ (Kept.refl s) (sound_insertField _ _ _ _ _ _))

theorem sound_execSbfx (cond : BitVec 4) (widthm1 : BitVec 5) (rd : BitVec 4) (lsb : BitVec 5) (rn : BitVec 4) (s : State) : SoundO s (execSbfx cond widthm1 rd lsb rn s) := by
  unfold execSbfx
  exact (sound_onCond _ (Kept.refl s) (sound_extractField _ _ _ _ _ _))

theorem sound_execUbfx (cond : BitVec 4) (widthm1 : BitVec 5) (rd : BitVec 4) (lsb : BitVec 5) (rn : BitVec 4) (s : State) : SoundO s (execUbfx cond widthm1 rd lsb rn s) := by
  unfold execUbfx
  exact (sound_onCond _ (Kept.refl s) (sound_extractField _ _ _ _ _ _))

theorem sound_execSel (cond : BitVec 4) (rn : BitVec 4) (rd : BitVec 4) (rm : BitVec 4) (s : State) : SoundO s (execSel cond rn rd rm s) := by
  unfold execSel
  exact (sound_onCond _ (Kept.refl s) (sound_mediaWrite _ _ _ _))

theorem sound_execSsat (cond : BitVec 4) (satImm : BitVec 5) (rd : BitVec 4) (imm5 : BitVec 5) (sh : BitVec 1) (rn : BitVec 4) (s : State) : SoundO s (execSsat cond satImm rd imm5 sh rn s) := by
  unfold execSsat
  exact (sound_onCond _ (Kept.refl s) (sound_satWrite _ _ _ _ _))

theorem sound_execUsat (cond : BitVec 4) (satImm : BitVec 5) (rd : BitVec 4) (imm5 : BitVec 5) (sh : BitVec 1) (rn : BitVec 4) (s : State) : SoundO s (execUsat cond satImm rd imm5 sh rn s) := by
  unfold execUsat
  exact (sound_onCond _ (Kept.refl s) (sound_satWrite _ _ _ _ _))

theorem sound_execSsat16 (cond : BitVec 4) (satImm : BitVec 4) (rd : BitVec 4) (rn : BitVec 4) (s : State) : SoundO s (execSsat16 cond satImm rd rn s) := by
  unfold execSsat16
  exact (sound_onCond _ (Kept.refl s) (sound_satWrite _ _ _ _ _))

theorem sound_execUsat16 (cond : BitVec 4) (satImm : BitVec 4) (rd : BitVec 4) (rn : BitVec 4) (s : State) : SoundO s (execUsat16 cond satImm rd rn s) := by
  unfold execUsat16
  exact (sound_onCond _ (Kept.refl s) (sound_satWrite _ _ _ _ _))

theorem sound_execPkhbt (cond : BitVec 4) (rn : BitVec 4) (rd : BitVec 4) (imm5 : BitVec 5) (rm : BitVec 4) (s : State) : SoundO s (execPkhbt cond rn rd imm5 rm s) := by
  unfold execPkhbt
  exact (sound_onCond _ (Kept.refl s) (sound_mediaWrite _ _ _ _))

theorem sound_execPkhtb (cond : BitVec 4) (rn : BitVec 4) (rd : BitVec 4) (imm5 : BitVec 5) (rm : BitVec 4) (s : State) : SoundO s (execPkhtb cond rn rd imm5 rm s) := by
  unfold execPkhtb
  exact (sound_onCond _ (Kept.refl s) (sound_mediaWrite _ _ _ _))

theorem sound_execSxtb (cond : BitVec 4) (rd : BitVec 4) (rotate : BitVec 2) (rm : BitVec 4) (s : State) : SoundO s (execSxtb cond rd rotate rm s) := by
  unfold execSxtb
  exact (sound_onCond _ (Kept.refl s) (sound_mediaWrite _ _ _ _))

theorem sound_execSxth (cond : BitVec 4) (rd : BitVec 4) (rotate : BitVec 2) (rm : BitVec 4) (s : State) : SoundO s (execSxth cond rd rotate rm s) := by
  unfold execSxth
  exact (sound_onCond _ (Kept.refl s) (sound_mediaWrite _ _ _ _))

theorem sound_execSxtb16 (cond : BitVec 4) (rd : BitVec 4) (rotate : BitVec 2) (rm : BitVec 4) (s : State) : SoundO s (execSxtb16 cond rd rotate rm s) := by
  unfold execSxtb16
  exact (sound_onCond _ (Kept.refl s) (sound_mediaWrite _ _ _ _))

theorem sound_execSxtab (cond : BitVec 4) (rn : BitVec 4) (rd : BitVec 4) (rotate : BitVec 2) (rm : BitVec 4) (s : State) : SoundO s (execSxtab cond rn rd rotate rm s) := by
  unfold execSxtab
  exact (sound_onCond _ (Kept.refl s) (sound_mediaWrite _ _ _ _))

theorem sound_execSxtah (cond : BitVec 4) (rn : BitVec 4) (rd : BitVec 4) (rotate : BitVec 2) (rm : BitVec 4) (s : State) : SoundO s (execSxtah cond rn rd rotate rm s) := by
  unfold execSxtah
  exact (sound_onCond _ (Kept.refl s) (sound_mediaWrite _ _ _ _))

theorem sound_execSxtab16 (cond : BitVec 4) (rn : BitVec 4) (rd : BitVec 4) (rotate : BitVec 2) (rm : BitVec 4) (s : State) : SoundO s (execSxtab16 cond rn rd rotate rm s) := by
  unfold execSxtab16
  exact (sound_onCond _ (Kept.refl s) (sound_mediaWrite _ _ _ _))

theorem sound_execUxtb (cond : BitVec 4) (rd : BitVec 4) (rotate : BitVec 2) (rm : BitVec 4) (s : State) : SoundO s (execUxtb cond rd rotate rm s) := by
  unfold execUxtb
  exact (sound_onCond _ (Kept.refl s) (sound_mediaWrite _ _ _ _))

theorem sound_execUxth (cond : BitVec 4) (rd : BitVec 4) (rotate : BitVec 2) (rm : BitVec 4) (s : State) : SoundO s (execUxth cond rd rotate rm s) := by
  unfold execUxth
  exact (sound_onCond _ (Kept.refl s) (sound_mediaWrite _ _ _ _))

theorem sound_execUxtb16 (cond : BitVec 4) (rd : BitVec 4) (rotate : BitVec 2) (rm : BitVec 4) (s : State) : SoundO s (execUxtb16 cond rd rotate rm s) := by
  unfold execUxtb16
  exact (sound_onCond _ (Kept.refl s) (sound_mediaWrite _ _ _ _))

theorem sound_execUxtab (cond : BitVec 4) (rn : BitVec 4) (rd : BitVec 4) (rotate : BitVec 2) (rm : BitVec 4) (s : State) : SoundO s (execUxtab cond rn rd rotate rm s) := by
  unfold execUxtab
  exact (sound_onCond _ (Kept.refl s) (sound_mediaWrite _ _ _ _))

theorem sound_execUxtah (cond : BitVec 4) (rn : BitVec 4) (rd : BitVec 4) (rotate : BitVec 2) (rm : BitVec 4) (s : State) : SoundO s (execUxtah cond rn rd rotate rm s) := by
  unfold execUxtah
  exact (sound_onCond _ (Kept.refl s) (sound_mediaWrite _ _ _ _))

theorem sound_execUxtab16 (cond : BitVec 4) (rn : BitVec 4) (rd : BitVec 4) (rotate : BitVec 2) (rm : BitVec 4) (s : State) : SoundO s (execUxtab16 cond rn rd rotate rm s) := by
  unfold execUxtab16
  exact (sound_onCond _ (Kept.refl s) (sound_mediaWrite _ _ _ _))

theorem sound_execQadd (cond : BitVec 4) (rn : BitVec 4) (rd : BitVec 4) (rm : BitVec 4) (s : State) : SoundO s (execQadd cond rn rd rm s) := by
  unfold execQadd
  exact (sound_onCond _ (Kept.refl s) (sound_satWrite _ _ _ _ _))

theorem sound_execQsub (cond : BitVec 4) (rn : BitVec 4) (rd : BitVec 4) (rm : BitVec 4) (s : State) : SoundO s (execQsub cond rn rd rm s) := by
  unfold execQsub
  exact (sound_onCond _ (Kept.refl s) (sound_satWrite _ _ _ _ _))

theorem sound_execQdadd (cond : BitVec 4) (rn : BitVec 4) (rd : BitVec 4) (rm : BitVec 4) (s : State) : SoundO s (execQdadd cond rn rd rm s) := by
  unfold execQdadd
  exact (sound_onCond _ (Kept.refl s) (sound_satWrite _ _ _ _ _))

theorem sound_execQdsub (cond : BitVec 4) (rn : BitVec 4) (rd : BitVec 4) (rm : BitVec 4) (s : State) : SoundO s (execQdsub cond rn rd rm s) := by
  unfold execQdsub
  exact (sound_onCond _ (Kept.refl s) (sound_satWrite _ _ _ _ _))

theorem sound_execSadd16 (cond : BitVec 4) (rn : BitVec 4) (rd : BitVec 4) (rm : BitVec 4) (s : State) : SoundO s (execSadd16 cond rn rd rm s) := by
  unfold execSadd16
  exact (sound_onCond _ (Kept.refl s) (sound_parallel _ _ _ _ _ _))

theorem sound_execSasx (cond : BitVec 4) (rn : BitVec 4) (rd : BitVec 4) (rm : BitVec 4) (s : State) : SoundO s (execSasx cond rn rd rm s) := by
  unfold execSasx
  exact (sound_onCond _ (Kept.refl s) (sound_parallel _ _ _ _ _ _))

theorem sound_execSsax (cond : BitVec 4) (rn : BitVec 4) (rd : BitVec 4) (rm : BitVec 4) (s : State) : SoundO s (execSsax cond rn rd rm s) := by
  unfold execSsax
  exact (sound_onCond _ (Kept.refl s) (sound_parallel _ _ _ _ _ _))

theorem sound_execSsub16 (cond : BitVec 4) (rn : BitVec 4) (rd : BitVec 4) (rm : BitVec 4) (s : State) : SoundO s (execSsub16 cond rn rd rm s) := by
  unfold execSsub16
  exact (sound_onCond _ (Kept.refl s) (sound_parallel _ _ _ _ _ _))

theorem sound_execSadd8 (cond : BitVec 4) (rn : BitVec 4) (rd : BitVec 4) (rm : BitVec 4) (s : State) : SoundO s (execSadd8 cond rn rd rm s) := by
  unfold execSadd8
  exact (sound_onCond _ (Kept.refl s) (sound_parallel _ _ _ _ _ _))

theorem sound_execSsub8 (cond : BitVec 4) (rn : BitVec 4) (rd : BitVec 4) (rm : BitVec 4) (s : State) : SoundO s (execSsub8 cond rn rd rm s) := by
  unfold execSsub8
  exact (sound_onCond _ (Kept.refl s) (sound_parallel _ _ _ _ _ _))

theorem sound_execQadd16 (cond : BitVec 4) (rn : BitVec 4) (rd : BitVec 4) (rm : BitVec 4) (s : State) : SoundO s (execQadd16 cond rn rd rm s) := by
  unfold execQadd16
  exact (sound_onCond _ (Kept.refl s) (sound_parallel _ _ _ _ _ _))

theorem sound_execQasx (cond : BitVec 4) (rn : BitVec 4) (rd : BitVec 4) (rm : BitVec 4) (s : State) : SoundO s (execQasx cond rn rd rm s) := by
  unfold execQasx
  exact (sound_onCond _ (Kept.refl s) (sound_parallel _ _ _ _ _ _))

theorem sound_execQsax (cond : BitVec 4) (rn : BitVec 4) (rd : BitVec 4) (rm : BitVec 4) (s : State) : SoundO s (execQsax cond rn rd rm s) := by
  unfold execQsax
  exact (sound_onCond _ (Kept.refl s) (sound_parallel _ _ _ _ _ _))

theorem sound_execQsub16 (cond : BitVec 4) (rn : BitVec 4) (rd : BitVec 4) (rm : BitVec 4) (s : State) : SoundO s (execQsub16 cond rn rd rm s) := by
  unfold execQsub16
  exact (sound_onCond _ (Kept.refl s) (sound_parallel _ _ _ _ _ _))

theorem sound_execQadd8 (cond : BitVec 4) (rn : BitVec 4) (rd : BitVec 4) (rm : BitVec 4) (s : State) : SoundO s (execQadd8 cond rn rd rm s) := by
  unfold execQadd8
  exact (sound_onCond _ (Kept.refl s) (sound_parallel _ _ _ _ _ _))

theorem sound_execQsub8 (cond : BitVec 4) (rn : BitVec 4) (rd : BitVec 4) (rm : BitVec 4) (s : State) : SoundO s (execQsub8 cond rn rd rm s) := by
  unfold execQsub8
  exact (sound_onCond _ (Kept.refl s) (sound_parallel _ _ _ _ _ _))

theorem sound_execShadd16 (cond : BitVec 4) (rn : BitVec 4) (rd : BitVec 4) (rm : BitVec 4) (s : State) : SoundO s (execShadd16 cond rn rd rm s) := by
  unfold execShadd16
  exact (sound_onCond _ (Kept.refl s) (sound_parallel _ _ _ _ _ _))

theorem sound_execShasx (cond : BitVec 4) (rn : BitVec 4) (rd : BitVec 4) (rm : BitVec 4) (s : State) : SoundO s (execShasx cond rn rd rm s) := by
  unfold execShasx
  exact (sound_onCond _ (Kept.refl s) (sound_parallel _ _ _ _ _ _))

theorem sound_execShsax (cond : BitVec 4) (rn : BitVec 4) (rd : BitVec 4) (rm : BitVec 4) (s : State) : SoundO s (execShsax cond rn rd rm s) := by
  unfold execShsax
  exact (sound_onCond _ (Kept.refl s) (sound_parallel _ _ _ _ _ _))

theorem sound_execShsub16 (cond : BitVec 4) (rn : BitVec 4) (rd : BitVec 4) (rm : BitVec 4) (s : State) : SoundO s (execShsub16 cond rn rd rm s) := by
  unfold execShsub16
  exact (sound_onCond _ (Kept.refl s) (sound_parallel _ _ _ _ _ _))

theorem sound_execShadd8 (cond : BitVec 4) (rn : BitVec 4) (rd : BitVec 4) (rm : BitVec 4) (s : State) : SoundO s (execShadd8 cond rn rd rm s) := by
  unfold execShadd8
  exact (sound_onCond _ (Kept.refl s) (sound_parallel _ _ _ _ _ _))

theorem sound_execShsub8 (cond : BitVec 4) (rn : BitVec 4) (rd : BitVec 4) (rm : BitVec 4) (s : State) : SoundO s (execShsub8 cond rn rd rm s) := by
  unfold execShsub8
  exact (sound_onCond _ (Kept.refl s) (sound_parallel _ _ _ _ _ _))

theorem sound_execUadd16 (cond : BitVec 4) (rn : BitVec 4) (rd : BitVec 4) (rm : BitVec 4) (s : State) : SoundO s (execUadd16 cond rn rd rm s) := by
  unfold execUadd16
  exact (sound_onCond _ (Kept.refl s) (sound_parallel _ _ _ _ _ _))

theorem sound_execUasx (cond : BitVec 4) (rn : BitVec 4) (rd : BitVec 4) (rm : BitVec 4) (s : State) : SoundO s (execUasx cond rn rd rm s) := by
  unfold execUasx
  exact (sound_onCond _ (Kept.refl s) (sound_parallel _ _ _ _ _ _))

theorem sound_execUsax (cond : BitVec 4) (rn : BitVec 4) (rd : BitVec 4) (rm : BitVec 4) (s : State) : SoundO s (execUsax cond rn rd rm s) := by
  unfold execUsax
  exact (sound_onCond _ (Kept.refl s) (sound_parallel _ _ _ _ _ _))

theorem sound_execUsub16 (cond : BitVec 4) (rn : BitVec 4) (rd : BitVec 4) (rm : BitVec 4) (s : State) : SoundO s (execUsub16 cond rn rd rm s) := by
  unfold execUsub16
  exact (sound_onCond _ (Kept.refl s) (sound_parallel _ _ _ _ _ _))

theorem sound_execUadd8 (cond : BitVec 4) (rn : BitVec 4) (rd : BitVec 4) (rm : BitVec 4) (s : State) : SoundO s (execUadd8 cond rn rd rm s) := by
  unfold execUadd8
  exact (sound_onCond _ (Kept.refl s) (sound_parallel _ _ _ _ _ _))

theorem sound_execUsub8 (cond : BitVec 4) (rn : BitVec 4) (rd : BitVec 4) (rm : BitVec 4) (s : State) : SoundO s (execUsub8 cond rn rd rm s) := by
  unfold execUsub8
  exact (sound_onCond _ (Kept.refl s) (sound_parallel _ _ _ _ _ _))

theorem sound_execUqadd16 (cond : BitVec 4) (rn : BitVec 4) (rd : BitVec 4) (rm : BitVec 4) (s : State) : SoundO s (execUqadd16 cond rn rd rm s) := by
  unfold execUqadd16
  exact (sound_onCond _ (Kept.refl s) (sound_parallel _ _ _ _ _ _))

theorem sound_execUqasx (cond : BitVec 4) (rn : BitVec 4) (rd : BitVec 4) (rm : BitVec 4) (s : State) : SoundO s (execUqasx cond rn rd rm s) := by
  unfold execUqasx
  exact (sound_onCond _ (Kept.refl s) (sound_parallel _ _ _ _ _ _))

theorem sound_execUqsax (cond : BitVec 4) (rn : BitVec 4) (rd : BitVec 4) (rm : BitVec 4) (s : State) : SoundO s (execUqsax cond rn rd rm s) := by
  unfold execUqsax
  exact (sound_onCond _ (Kept.refl s) (sound_parallel _ _ _ _ _ _))

theorem sound_execUqsub16 (cond : BitVec 4) (rn : BitVec 4) (rd : BitVec 4) (rm : BitVec 4) (s : State) : SoundO s (execUqsub16 cond rn rd rm s) := by
  unfold execUqsub16
  exact (sound_onCond _ (Kept.refl s) (sound_parallel _ _ _ _ _ _))

theorem sound_execUqadd8 (cond : BitVec 4) (rn : BitVec 4) (rd : BitVec 4) (rm : BitVec 4) (s : State) : SoundO s (execUqadd8 cond rn rd rm s) := by
  unfold execUqadd8
  exact (sound_onCond _ (Kept.refl s) (sound_parallel _ _ _ _ _ _))

theorem sound_execUqsub8 (cond : BitVec 4) (rn : BitVec 4) (rd : BitVec 4) (rm : BitVec 4) (s : State) : SoundO s (execUqsub8 cond rn rd rm s) := by
  unfold execUqsub8
  exact (sound_onCond _ (Kept.refl s) (sound_parallel _ _ _ _ _ _))

theorem sound_execUhadd16 (cond : BitVec 4) (rn : BitVec 4) (rd : BitVec 4) (rm : BitVec 4) (s : State) : SoundO s (execUhadd16 cond rn rd rm s) := by
  unfold execUhadd16
  exact (sound_onCond _ (Kept.refl s) (sound_parallel _ _ _ _ _ _))

theorem sound_execUhasx (cond : BitVec 4) (rn : BitVec 4) (rd : BitVec 4) (rm : BitVec 4) (s : State) : SoundO s (execUhasx cond rn rd rm s) := by
  unfold execUhasx
  exact (sound_onCond _ (Kept.refl s) (sound_parallel _ _ _ _ _ _))

theorem sound_execUhsax (cond : BitVec 4) (rn : BitVec 4) (rd : BitVec 4) (rm : BitVec 4) (s : State) : SoundO s (execUhsax cond rn rd rm s) := by
  unfold execUhsax
  exact (sound_onCond _ (Kept.refl s) (sound_parallel _ _ _ _ _ _))

theorem sound_execUhsub16 (cond : BitVec 4) (rn : BitVec 4) (rd : BitVec 4) (rm : BitVec 4) (s : State) : SoundO s (execUhsub16 cond rn rd rm s) := by
  unfold execUhsub16
  exact (sound_onCond _ (Kept.refl s) (sound_parallel _ _ _ _ _ _))

theorem sound_execUhadd8 (cond : BitVec 4) (rn : BitVec 4) (rd : BitVec 4) (rm : BitVec 4) (s : State) : SoundO s (execUhadd8 cond rn rd rm s) := by
  unfold execUhadd8
  exact (sound_onCond _ (Kept.refl s) (sound_parallel _ _ _ _ _ _))

theorem sound_execUhsub8 (cond : BitVec 4) (rn : BitVec 4) (rd : BitVec 4) (rm : BitVec 4) (s : State) : SoundO s (execUhsub8 cond rn rd rm s) := by
  unfold execUhsub8
  exact (sound_onCond _ (Kept.refl s) (sound_parallel _ _ _ _ _ _))

theorem sound_execUsad8 (cond : BitVec 4) (rd : BitVec 4) (rm : BitVec 4) (rn : BitVec 4) (s : State) : SoundO s (execUsad8 cond rd rm rn s) := by
  unfold execUsad8
  exact (sound_onCond _ (Kept.refl s) (sound_mediaWrite _ _ _ _))

theorem sound_execUsada8 (cond : BitVec 4) (rd : BitVec 4) (ra : BitVec 4) (rm : BitVec 4) (rn : BitVec 4) (s : State) : SoundO s (execUsada8 cond rd ra rm rn s) := by
  unfold execUsada8
  exact (sound_onCond _ (Kept.refl s) (sound_mediaWrite _ _ _ _))

theorem sound_execAndImm (cond : BitVec 4) (sf : BitVec 1) (rn : BitVec 4) (rd : BitVec 4) (imm12 : BitVec 12) (s : State) : SoundO s (execAndImm cond sf rn rd imm12 s) := by
  unfold execAndImm
  exact (sound_onCond _ (Kept.refl s) (sound_dataOp _ _ _ _ _ (Kept.refl s)))

theorem sound_execAndReg (cond : BitVec 4) (sf : BitVec 1) (rn : BitVec 4) (rd : BitVec 4) (imm5 : BitVec 5) (typ : BitVec 2) (rm : BitVec 4) (s : State) : SoundO s (execAndReg cond sf rn rd imm5 typ rm s) := by
  unfold execAndReg
  exact (sound_onCond _ (Kept.refl s) (sound_dataOp _ _ _ _ _ (Kept.refl s)))

theorem sound_execAndRsr (cond : BitVec 4) (sf : BitVec 1) (rn : BitVec 4) (rd : BitVec 4) (rs : BitVec 4) (typ : BitVec 2) (rm : BitVec 4) (s : State) : SoundO s (execAndRsr cond sf rn rd rs typ rm s) := by
  unfold execAndRsr
  exact (sound_onCond _ (Kept.refl s) (sound_unlessPC _ (sound_dataOp _ _ _ _ _ (Kept.refl s))))

theorem sound_execEorImm (cond : BitVec 4) (sf : BitVec 1) (rn : BitVec 4) (rd : BitVec 4) (imm12 : BitVec 12) (s : State) : SoundO s (execEorImm cond sf rn rd imm12 s) := by
  unfold execEorImm
  exact (sound_onCond _ (Kept.refl s) (sound_dataOp _ _ _ _ _ (Kept.refl s)))

theorem sound_execEorReg (cond : BitVec 4) (sf : BitVec 1) (rn : BitVec 4) (rd : BitVec 4) (imm5 : BitVec 5) (typ : BitVec 2) (rm : BitVec 4) (s : State) : SoundO s (execEorReg cond sf rn rd imm5 typ rm s) := by
  unfold execEorReg
  exact (sound_onCond _ (Kept.refl s) (sound_dataOp _ _ _ _ _ (Kept.refl s)))

theorem sound_execEorRsr (cond : BitVec 4) (sf : BitVec 1) (rn : BitVec 4) (rd : BitVec 4) (rs : BitVec 4) (typ : BitVec 2) (rm : BitVec 4) (s : State) : SoundO s (execEorRsr cond sf rn rd rs typ rm s) := by
  unfold execEorRsr
  exact (sound_onCond _ (Kept.refl s) (sound_unlessPC _ (sound_dataOp _ _ _ _ _ (Kept.refl s))))

theorem sound_execSubImm (cond : BitVec 4) (sf : BitVec 1) (rn : BitVec 4) (rd : BitVec 4) (imm12 : BitVec 12) (s : State) : SoundO s (execSubImm cond sf rn rd imm12 s) := by
  unfold execSubImm
  exact (sound_onCond _ (Kept.refl s) (sound_dataOp _ _ _ _ _ (Kept.refl s)))

theorem sound_execSubReg (cond : BitVec 4) (sf : BitVec 1) (rn : BitVec 4) (rd : BitVec 4) (imm5 : BitVec 5) (typ : BitVec 2) (rm : BitVec 4) (s : State) : SoundO s (execSubReg cond sf rn rd imm5 typ rm s) := by
  unfold execSubReg
  exact (sound_onCond _ (Kept.refl s) (sound_dataOp _ _ _ _ _ (Kept.refl s)))

theorem sound_execSubRsr (cond : BitVec 4) (sf : BitVec 1) (rn : BitVec 4) (rd : BitVec 4) (rs : BitVec 4) (typ : BitVec 2) (rm : BitVec 4) (s : State) : SoundO s (execSubRsr cond sf rn rd rs typ rm s) := by
  unfold execSubRsr
  exact (sound_onCond _ (Kept.refl s) (sound_unlessPC _ (sound_dataOp _ _ _ _ _ (Kept.refl s))))

theorem sound_execRsbImm (cond : BitVec 4) (sf : BitVec 1) (rn : BitVec 4) (rd : BitVec 4) (imm12 : BitVec 12) (s : State) : SoundO s (execRsbImm cond sf rn rd imm12 s) := by
  unfold execRsbImm
  exact (sound_onCond _ (Kept.refl s) (sound_dataOp _ _ _ _ _ (Kept.refl s)))

theorem sound_execRsbReg (cond : BitVec 4) (sf : BitVec 1) (rn : BitVec 4) (rd : BitVec 4) (imm5 : BitVec 5) (typ : BitVec 2) (rm : BitVec 4) (s : State) : SoundO s (execRsbReg cond sf rn rd imm5 typ rm s) := by
  unfold execRsbReg
  exact (sound_onCond _ (Kept.refl s) (sound_dataOp _ _ _ _ _ (Kept.refl s)))

theorem sound_execRsbRsr (cond : BitVec 4) (sf : BitVec 1) (rn : BitVec 4) (rd : BitVec 4) (rs : BitVec 4) (typ : BitVec 2) (rm : BitVec 4) (s : State) : SoundO s (execRsbRsr cond sf rn rd rs typ rm s) := by
  unfold execRsbRsr
  exact (sound_onCond _ (Kept.refl s) (sound_unlessPC _ (sound_dataOp _ _ _ _ _ (Kept.refl s))))

theorem sound_execAddImm (cond : BitVec 4) (sf : BitVec 1) (rn : BitVec 4) (rd : BitVec 4) (imm12 : BitVec 12) (s : State) : SoundO s (execAddImm cond sf rn rd imm12 s) := by
  unfold execAddImm
  exact (sound_onCond _ (Kept.refl s) (sound_dataOp _ _ _ _ _ (Kept.refl s)))

theorem sound_execAddReg (cond : BitVec 4) (sf : BitVec 1) (rn : BitVec 4) (rd : BitVec 4) (imm5 : BitVec 5) (typ : BitVec 2) (rm : BitVec 4) (s : State) : SoundO s (execAddReg cond sf rn rd imm5 typ rm s) := by
  unfold execAddReg
  exact (sound_onCond _ (Kept.refl s) (sound_dataOp _ _ _ _ _ (Kept.refl s)))

theorem sound_execAddRsr (cond : BitVec 4) (sf : BitVec 1) (rn : BitVec 4) (rd : BitVec 4) (rs : BitVec 4) (typ : BitVec 2) (rm : BitVec 4) (s : State) : SoundO s (execAddRsr cond sf rn rd rs typ rm s) := by
  unfold execAddRsr
  exact (sound_onCond _ (Kept.refl s) (sound_unlessPC _ (sound_dataOp _ _ _ _ _ (Kept.refl s))))

theorem sound_execAdcImm (cond : BitVec 4) (sf : BitVec 1) (rn : BitVec 4) (rd : BitVec 4) (imm12 : BitVec 12) (s : State) : SoundO s (execAdcImm cond sf rn rd imm12 s) := by
  unfold execAdcImm
  exact (sound_onCond _ (Kept.refl s) (sound_dataOp _ _ _ _ _ (Kept.refl s)))

theorem sound_execAdcReg (cond : BitVec 4) (sf : BitVec 1) (rn : BitVec 4) (rd : BitVec 4) (imm5 : BitVec 5) (typ : BitVec 2) (rm : BitVec 4) (s : State) : SoundO s (execAdcReg cond sf rn rd imm5 typ rm s) := by
  unfold execAdcReg
  exact (sound_onCond _ (Kept.refl s) (sound_dataOp _ _ _ _ _ (Kept.refl s)))

theorem sound_execAdcRsr (cond : BitVec 4) (sf : BitVec 1) (rn : BitVec 4) (rd : BitVec 4) (rs : BitVec 4) (typ : BitVec 2) (rm : BitVec 4) (s : State) : SoundO s (execAdcRsr cond sf rn rd rs typ rm s) := by
  unfold execAdcRsr
  exact (sound_onCond _ (Kept.refl s) (sound_unlessPC _ (sound_dataOp _ _ _ _ _ (Kept.refl s))))

theorem sound_execSbcImm (cond : BitVec 4) (sf : BitVec 1) (rn : BitVec 4) (rd : BitVec 4) (imm12 : BitVec 12) (s : State) : SoundO s (execSbcImm cond sf rn rd imm12 s) := by
  unfold execSbcImm
  exact (sound_onCond _ (Kept.refl s) (sound_dataOp _ _ _ _ _ (Kept.refl s)))

theorem sound_execSbcReg (cond : BitVec 4) (sf : BitVec 1) (rn : BitVec 4) (rd : BitVec 4) (imm5 : BitVec 5) (typ : BitVec 2) (rm : BitVec 4) (s : State) : SoundO s (execSbcReg cond sf rn rd imm5 typ rm s) := by
  unfold execSbcReg
  exact (sound_onCond _ (Kept.refl s) (sound_dataOp _ _ _ _ _ (Kept.refl s)))

theorem sound_execSbcRsr (cond : BitVec 4) (sf : BitVec 1) (rn : BitVec 4) (rd : BitVec 4) (rs : BitVec 4) (typ : BitVec 2) (rm : BitVec 4) (s : State) : SoundO s (execSbcRsr cond sf rn rd rs typ rm s) := by
  unfold execSbcRsr
  exact (sound_onCond _ (Kept.refl s) (sound_unlessPC _ (sound_dataOp _ _ _ _ _ (Kept.refl s))))

theorem sound_execRscImm (cond : BitVec 4) (sf : BitVec 1) (rn : BitVec 4) (rd : BitVec 4) (imm12 : BitVec 12) (s : State) : SoundO s (execRscImm cond sf rn rd imm12 s) := by
  unfold execRscImm
  exact (sound_onCond _ (Kept.refl s) (sound_dataOp _ _ _ _ _ (Kept.refl s)))

theorem sound_execRscReg (cond : BitVec 4) (sf : BitVec 1) (rn : BitVec 4) (rd : BitVec 4) (imm5 : BitVec 5) (typ : BitVec 2) (rm : BitVec 4) (s : State) : SoundO s (execRscReg cond sf rn rd imm5 typ rm s) := by
  unfold execRscReg
  exact (sound_onCond _ (Kept.refl s) (sound_dataOp _ _ _ _ _ (Kept.refl s)))

theorem sound_execRscRsr (cond : BitVec 4) (sf : BitVec 1) (rn : BitVec 4) (rd : BitVec 4) (rs : BitVec 4) (typ : BitVec 2) (rm : BitVec 4) (s : State) : SoundO s (execRscRsr cond sf rn rd rs typ rm s) := by
  unfold execRscRsr
  exact (sound_onCond _ (Kept.refl s) (sound_unlessPC _ (sound_dataOp _ _ _ _ _ (Kept.refl s))))

theorem sound_execTstImm (cond : BitVec 4) (rn : BitVec 4) (imm12 : BitVec 12) (s : State) : SoundO s (execTstImm cond rn imm12 s) := by
  unfold execTstImm
  exact (sound_onCond _ (Kept.refl s) (sound_testOp _ _ _ (Kept.refl s)))

theorem sound_execTstReg (cond : BitVec 4) (rn : BitVec 4) (imm5 : BitVec 5) (typ : BitVec 2) (rm : BitVec 4) (s : State) : SoundO s (execTstReg cond rn imm5 typ rm s) := by
  unfold execTstReg
  exact (sound_onCond _ (Kept.refl s) (sound_testOp _ _ _ (Kept.refl s)))

theorem sound_execTstRsr (cond : BitVec 4) (rn : BitVec 4) (rs : BitVec 4) (typ : BitVec 2) (rm : BitVec 4) (s : State) : SoundO s (execTstRsr cond rn rs typ rm s) := by
  unfold execTstRsr
  exact (sound_onCond _ (Kept.refl s) (sound_unlessPC _ (sound_testOp _ _ _ (Kept.refl s))))

theorem sound_execTeqImm (cond : BitVec 4) (rn : BitVec 4) (imm12 : BitVec 12) (s : State) : SoundO s (execTeqImm cond rn imm12 s) := by
  unfold execTeqImm
  exact (sound_onCond _ (Kept.refl s) (sound_testOp _ _ _ (Kept.refl s)))

theorem sound_execTeqReg (cond : BitVec 4) (rn : BitVec 4) (imm5 : BitVec 5) (typ : BitVec 2) (rm : BitVec 4) (s : State) : SoundO s (execTeqReg cond rn imm5 typ rm s) := by
  unfold execTeqReg
  exact (sound_onCond _ (Kept.refl s) (sound_testOp _ _ _ (Kept.refl s)))

theorem sound_execTeqRsr (cond : BitVec 4) (rn : BitVec 4) (rs : BitVec 4) (typ : BitVec 2) (rm : BitVec 4) (s : State) : SoundO s (execTeqRsr cond rn rs typ rm s) := by
  unfold execTeqRsr
  exact (sound_onCond _ (Kept.refl s) (sound_unlessPC _ (sound_testOp _ _ _ (Kept.refl s))))

theorem sound_execCmpImm (cond : BitVec 4) (rn : BitVec 4) (imm12 : BitVec 12) (s : State) : SoundO s (execCmpImm cond rn imm12 s) := by
  unfold execCmpImm
  exact (sound_onCond _ (Kept.refl s) (sound_testOp _ _ _ (Kept.refl s)))

theorem sound_execCmpReg (cond : BitVec 4) (rn : BitVec 4) (imm5 : BitVec 5) (typ : BitVec 2) (rm : BitVec 4) (s : State) : SoundO s (execCmpReg cond rn imm5 typ rm s) := by
  unfold execCmpReg
  exact (sound_onCond _ (Kept.refl s) (sound_testOp _ _ _ (Kept.refl s)))

theorem sound_execCmpRsr (cond : BitVec 4) (rn : BitVec 4) (rs : BitVec 4) (typ : BitVec 2) (rm : BitVec 4) (s : State) : SoundO s (execCmpRsr cond rn rs typ rm s) := by
  unfold execCmpRsr
  exact (sound_onCond _ (Kept.refl s) (sound_unlessPC _ (sound_testOp _ _ _ (Kept.refl s))))

theorem sound_execCmnImm (cond : BitVec 4) (rn : BitVec 4) (imm12 : BitVec 12) (s : State) : SoundO s (execCmnImm cond rn imm12 s) := by
  unfold execCmnImm
  exact (sound_onCond _ (Kept.refl s) (sound_testOp _ _ _ (Kept.refl s)))

theorem sound_execCmnReg (cond : BitVec 4) (rn : BitVec 4) (imm5 : BitVec 5) (typ : BitVec 2) (rm : BitVec 4) (s : State) : SoundO s (execCmnReg cond rn imm5 typ rm s) := by
  unfold execCmnReg
  exact (sound_onCond _ (Kept.refl s) (sound_testOp _ _ _ (Kept.refl s)))

theorem sound_execCmnRsr (cond : BitVec 4) (rn : BitVec 4) (rs : BitVec 4) (typ : BitVec 2) (rm : BitVec 4) (s : State) : SoundO s (execCmnRsr cond rn rs typ rm s) := by
  unfold execCmnRsr
  exact (sound_onCond _ (Kept.refl s) (sound_unlessPC _ (sound_testOp _ _ _ (Kept.refl s))))

theorem sound_execOrrImm (cond : BitVec 4) (sf : BitVec 1) (rn : BitVec 4) (rd : BitVec 4) (imm12 : BitVec 12) (s : State) : SoundO s (execOrrImm cond sf rn rd imm12 s) := by
  unfold execOrrImm
  exact (sound_onCond _ (Kept.refl s) (sound_dataOp _ _ _ _ _ (Kept.refl s)))

theorem sound_execOrrReg (cond : BitVec 4) (sf : BitVec 1) (rn : BitVec 4) (rd : BitVec 4) (imm5 : BitVec 5) (typ : BitVec 2) (rm : BitVec 4) (s : State) : SoundO s (execOrrReg cond sf rn rd imm5 typ rm s) := by
  unfold execOrrReg
  exact (sound_onCond _ (Kept.refl s) (sound_dataOp _ _ _ _ _ (Kept.refl s)))

theorem sound_execOrrRsr (cond : BitVec 4) (sf : BitVec 1) (rn : BitVec 4) (rd : BitVec 4) (rs : BitVec 4) (typ : BitVec 2) (rm : BitVec 4) (s : State) : SoundO s (execOrrRsr cond sf rn rd rs typ rm s) := by
  unfold execOrrRsr
  exact (sound_onCond _ (Kept.refl s) (sound_unlessPC _ (sound_dataOp _ _ _ _ _ (Kept.refl s))))

theorem sound_execMovImm (cond : BitVec 4) (sf : BitVec 1) (rd : BitVec 4) (imm12 : BitVec 12) (s : State) : SoundO s (execMovImm cond sf rd imm12 s) := by
  unfold execMovImm
  exact (sound_onCond _ (Kept.refl s) (sound_moveOp _ _ _ _ (Kept.refl s)))

theorem sound_execMovReg (cond : BitVec 4) (sf : BitVec 1) (rd : BitVec 4) (imm5 : BitVec 5) (typ : BitVec 2) (rm : BitVec 4) (s : State) : SoundO s (execMovReg cond sf rd imm5 typ rm s) := by
  unfold execMovReg
  exact (sound_onCond _ (Kept.refl s) (sound_moveOp _ _ _ _ (kept_movReturn _ _ _ _ _ s)))

theorem sound_execMovRsr (cond : BitVec 4) (sf : BitVec 1) (rd : BitVec 4) (rs : BitVec 4) (typ : BitVec 2) (rm : BitVec 4) (s : State) : SoundO s (execMovRsr cond sf rd rs typ rm s) := by
  unfold execMovRsr
  exact (sound_onCond _ (Kept.refl s) (sound_unlessPC _ (sound_moveOp _ _ _ _ (Kept.refl s))))

theorem sound_execBicImm (cond : BitVec 4) (sf : BitVec 1) (rn : BitVec 4) (rd : BitVec 4) (imm12 : BitVec 12) (s : State) : SoundO s (execBicImm cond sf rn rd imm12 s) := by
  unfold execBicImm
  exact (sound_onCond _ (Kept.refl s) (sound_dataOp _ _ _ _ _ (Kept.refl s)))

theorem sound_execBicReg (cond : BitVec 4) (sf : BitVec 1) (rn : BitVec 4) (rd : BitVec 4) (imm5 : BitVec 5) (typ : BitVec 2) (rm : BitVec 4) (s : State) : SoundO s (execBicReg cond sf rn rd imm5 typ rm s) := by
  unfold execBicReg
  exact (sound_onCond _ (Kept.refl s) (sound_dataOp _ _ _ _ _ (Kept.refl s)))

theorem sound_execBicRsr (cond : BitVec 4) (sf : BitVec 1) (rn : BitVec 4) (rd : BitVec 4) (rs : BitVec 4) (typ : BitVec 2) (rm : BitVec 4) (s : State) : SoundO s (execBicRsr cond sf rn rd rs typ rm s) := by
  unfold execBicRsr
  exact (sound_onCond _ (Kept.refl s) (sound_unlessPC _ (sound_dataOp _ _ _ _ _ (Kept.refl s))))

theorem sound_execMvnImm (cond : BitVec 4) (sf : BitVec 1) (rd : BitVec 4) (imm12 : BitVec 12) (s : State) : SoundO s (execMvnImm cond sf rd imm12 s) := by
  unfold execMvnImm
  exact (sound_onCond _ (Kept.refl s) (sound_moveOp _ _ _ _ (Kept.refl s)))

theorem sound_execMvnReg (cond : BitVec 4) (sf : BitVec 1) (rd : BitVec 4) (imm5 : BitVec 5) (typ : BitVec 2) (rm : BitVec 4) (s : State) : SoundO s (execMvnReg cond sf rd imm5 typ rm s) := by
  unfold execMvnReg
  exact (sound_onCond _ (Kept.refl s) (sound_moveOp _ _ _ _ (Kept.refl s)))

theorem sound_execMvnRsr (cond : BitVec 4) (sf : BitVec 1) (rd : BitVec 4) (rs : BitVec 4) (typ : BitVec 2) (rm : BitVec 4) (s : State) : SoundO s (execMvnRsr cond sf rd rs typ rm s) := by
  unfold execMvnRsr
  exact (sound_onCond _ (Kept.refl s) (sound_unlessPC _ (sound_moveOp _ _ _ _ (Kept.refl s))))

theorem sound_execLslImm (cond : BitVec 4) (sf : BitVec 1) (rd : BitVec 4) (imm5 : BitVec 5) (rm : BitVec 4) (s : State) : SoundO s (execLslImm cond sf rd imm5 rm s) := by
  unfold execLslImm
  exact (sound_onCond _ (Kept.refl s) (sound_moveOp _ _ _ _ (Kept.refl s)))

theorem sound_execLslReg (cond : BitVec 4) (sf : BitVec 1) (rd : BitVec 4) (rs : BitVec 4) (rm : BitVec 4) (s : State) : SoundO s (execLslReg cond sf rd rs rm s) := by
  unfold execLslReg
  exact (sound_onCond _ (Kept.refl s) (sound_unlessPC _ (sound_moveOp _ _ _ _ (Kept.refl s))))

theorem sound_execLsrImm (cond : BitVec 4) (sf : BitVec 1) (rd : BitVec 4) (imm5 : BitVec 5) (rm : BitVec 4) (s : State) : SoundO s (execLsrImm cond sf rd imm5 rm s) := by
  unfold execLsrImm
  exact (sound_onCond _ (Kept.refl s) (sound_moveOp _ _ _ _ (Kept.refl s)))

theorem sound_execLsrReg (cond : BitVec 4) (sf : BitVec 1) (rd : BitVec 4) (rs : BitVec 4) (rm : BitVec 4) (s : State) : SoundO s (execLsrReg cond sf rd rs rm s) := by
  unfold execLsrReg
  exact (sound_onCond _ (Kept.refl s) (sound_unlessPC _ (sound_moveOp _ _ _ _ (Kept.refl s))))

theorem sound_execAsrImm (cond : BitVec 4) (sf : BitVec 1) (rd : BitVec 4) (imm5 : BitVec 5) (rm : BitVec 4) (s : State) : SoundO s (execAsrImm cond sf rd imm5 rm s) := by
  unfold execAsrImm
  exact (sound_onCond _ (Kept.refl s) (sound_moveOp _ _ _ _ (Kept.refl s)))

theorem sound_execAsrReg (cond : BitVec 4) (sf : BitVec 1) (rd : BitVec 4) (rs : BitVec 4) (rm : BitVec 4) (s : State) : SoundO s (execAsrReg cond sf rd rs rm s) := by
  unfold execAsrReg
  exact (sound_onCond _ (Kept.refl s) (sound_unlessPC _ (sound_moveOp _ _ _ _ (Kept.refl s))))

theorem sound_execRorImm (cond : BitVec 4) (sf : BitVec 1) (rd : BitVec 4) (imm5 : BitVec 5) (rm : BitVec 4) (s : State) : SoundO s (execRorImm cond sf rd imm5 rm s) := by
  unfold execRorImm
  exact (sound_onCond _ (Kept.refl s) (sound_moveOp _ _ _ _ (Kept.refl s)))

theorem sound_execRorReg (cond : BitVec 4) (sf : BitVec 1) (rd : BitVec 4) (rs : BitVec 4) (rm : BitVec 4) (s : State) : SoundO s (execRorReg cond sf rd rs rm s) := by
  unfold execRorReg
  exact (sound_onCond _ (Kept.refl s) (sound_unlessPC _ (sound_moveOp _ _ _ _ (Kept.refl s))))

theorem sound_execRrx (cond : BitVec 4) (sf : BitVec 1) (rd : BitVec 4) (rm : BitVec 4) (s : State) : SoundO s (execRrx cond sf rd rm s) := by
  unfold execRrx
  exact (sound_onCond _ (Kept.refl s) (sound_moveOp _ _ _ _ (Kept.refl s)))

theorem sound_execAdrAdd (cond : BitVec 4) (rd : BitVec 4) (imm12 : BitVec 12) (s : State) : SoundO s (execAdrAdd cond rd imm12 s) := by
  unfold execAdrAdd
  exact (sound_onCond _ (Kept.refl s) (sound_dataOp _ _ _ _ _ (Kept.refl s)))

theorem sound_execAdrSub (cond : BitVec 4) (rd : BitVec 4) (imm12 : BitVec 12) (s : State) : SoundO s (execAdrSub cond rd imm12 s) := by
  unfold execAdrSub
  exact (sound_onCond _ (Kept.refl s) (sound_dataOp _ _ _ _ _ (Kept.refl s)))

theorem sound_execMovw (cond : BitVec 4) (imm4 : BitVec 4) (rd : BitVec 4) (imm12 : BitVec 12) (s : State) : SoundO s (execMovw cond imm4 rd imm12 s) := by
  unfold execMovw
  exact (sound_onCond _ (Kept.refl s) (sound_unlessPC _ (sound_advance' (kept_setReg _ _ _))))

theorem sound_execMovt (cond : BitVec 4) (imm4 : BitVec 4) (rd : BitVec 4) (imm12 : BitVec 12) (s : State) : SoundO s (execMovt cond imm4 rd imm12 s) := by
  unfold execMovt
  exact (sound_onCond _ (Kept.refl s) (sound_unlessPC _ (sound_advance' (kept_setReg _ _ _))))

theorem sound_execClz (cond : BitVec 4) (rd : BitVec 4) (rm : BitVec 4) (s : State) : SoundO s (execClz cond rd rm s) := by
  unfold execClz
  exact (sound_onCond _ (Kept.refl s) (sound_unlessPC _ (sound_advance' (kept_setReg _ _ _))))

theorem sound_execMrcDl1Data0 (cond : BitVec 4) (rt : BitVec 4) (s : State) : SoundO s (execMrcDl1Data0 cond rt s) := by
  unfold execMrcDl1Data0
  exact (sound_readSys _ _ _ _ _)

theorem sound_execMcrDl1Data0 (cond : BitVec 4) (rt : BitVec 4) (s : State) : SoundO s (execMcrDl1Data0 cond rt s) := by
  unfold execMcrDl1Data0
  exact (sound_writeSys _ _ _ _ _ fun _ => ⟨rfl, rfl, rfl, rfl, rfl, fun _ => rfl, id⟩)

theorem sound_execMrcDl1Data1 (cond : BitVec 4) (rt : BitVec 4) (s : State) : SoundO s (execMrcDl1Data1 cond rt s) := by
  unfold execMrcDl1Data1
  exact (sound_readSys _ _ _ _ _)

theorem sound_execMcrDl1Data1 (cond : BitVec 4) (rt : BitVec 4) (s : State) : SoundO s (execMcrDl1Data1 cond rt s) := by
  unfold execMcrDl1Data1
  exact (sound_writeSys _ _ _ _ _ fun _ => ⟨rfl, rfl, rfl, rfl, rfl, fun _ => rfl, id⟩)

theorem sound_execMcrDtlbCamWrite (cond : BitVec 4) (rt : BitVec 4) (s : State) : SoundO s (execMcrDtlbCamWrite cond rt s) := by
  unfold execMcrDtlbCamWrite
  exact (sound_arrayWrite _ _ _)

theorem sound_execMcrDtlbAttrWrite (cond : BitVec 4) (rt : BitVec 4) (s : State) : SoundO s (execMcrDtlbAttrWrite cond rt s) := by
  unfold execMcrDtlbAttrWrite
  exact (sound_arrayWrite _ _ _)

theorem sound_execMcrDtlbPaWrite (cond : BitVec 4) (rt : BitVec 4) (s : State) : SoundO s (execMcrDtlbPaWrite cond rt s) := by
  unfold execMcrDtlbPaWrite
  exact (sound_arrayWrite _ _ _)

theorem sound_execMcrDhvabWrite (cond : BitVec 4) (rt : BitVec 4) (s : State) : SoundO s (execMcrDhvabWrite cond rt s) := by
  unfold execMcrDhvabWrite
  exact (sound_arrayWrite _ _ _)

theorem sound_execMcrDtagWrite (cond : BitVec 4) (rt : BitVec 4) (s : State) : SoundO s (execMcrDtagWrite cond rt s) := by
  unfold execMcrDtagWrite
  exact (sound_arrayWrite _ _ _)

theorem sound_execMcrDdataWrite (cond : BitVec 4) (rt : BitVec 4) (s : State) : SoundO s (execMcrDdataWrite cond rt s) := by
  unfold execMcrDdataWrite
  exact (sound_arrayWrite _ _ _)

theorem sound_execMcrDtlbCamRead (cond : BitVec 4) (rt : BitVec 4) (s : State) : SoundO s (execMcrDtlbCamRead cond rt s) := by
  unfold execMcrDtlbCamRead
  exact (sound_arrayRead _ _ _ _ fun _ _ _ => ⟨rfl, rfl, rfl, rfl, rfl, rfl⟩)

theorem sound_execMcrDtlbAttrRead (cond : BitVec 4) (rt : BitVec 4) (s : State) : SoundO s (execMcrDtlbAttrRead cond rt s) := by
  unfold execMcrDtlbAttrRead
  exact (sound_arrayRead _ _ _ _ fun _ _ _ => ⟨rfl, rfl, rfl, rfl, rfl, rfl⟩)

theorem sound_execMcrDtlbPaRead (cond : BitVec 4) (rt : BitVec 4) (s : State) : SoundO s (execMcrDtlbPaRead cond rt s) := by
  unfold execMcrDtlbPaRead
  exact (sound_arrayRead _ _ _ _ fun _ _ _ => ⟨rfl, rfl, rfl, rfl, rfl, rfl⟩)

theorem sound_execMcrDhvabRead (cond : BitVec 4) (rt : BitVec 4) (s : State) : SoundO s (execMcrDhvabRead cond rt s) := by
  unfold execMcrDhvabRead
  exact (sound_arrayRead _ _ _ _ fun _ _ _ => ⟨rfl, rfl, rfl, rfl, rfl, rfl⟩)

theorem sound_execMcrDtagRead (cond : BitVec 4) (rt : BitVec 4) (s : State) : SoundO s (execMcrDtagRead cond rt s) := by
  unfold execMcrDtagRead
  exact (sound_arrayRead _ _ _ _ fun _ _ _ => ⟨rfl, rfl, rfl, rfl, rfl, rfl⟩)

theorem sound_execMcrDdataRead (cond : BitVec 4) (rt : BitVec 4) (s : State) : SoundO s (execMcrDdataRead cond rt s) := by
  unfold execMcrDdataRead
  exact (sound_arrayRead _ _ _ _ fun _ _ _ => ⟨rfl, rfl, rfl, rfl, rfl, rfl⟩)

theorem sound_execMrcIl1Data0 (cond : BitVec 4) (rt : BitVec 4) (s : State) : SoundO s (execMrcIl1Data0 cond rt s) := by
  unfold execMrcIl1Data0
  exact (sound_readSys _ _ _ _ _)

theorem sound_execMcrIl1Data0 (cond : BitVec 4) (rt : BitVec 4) (s : State) : SoundO s (execMcrIl1Data0 cond rt s) := by
  unfold execMcrIl1Data0
  exact (sound_writeSys _ _ _ _ _ fun _ => ⟨rfl, rfl, rfl, rfl, rfl, fun _ => rfl, id⟩)

theorem sound_execMrcIl1Data1 (cond : BitVec 4) (rt : BitVec 4) (s : State) : SoundO s (execMrcIl1Data1 cond rt s) := by
  unfold execMrcIl1Data1
  exact (sound_readSys _ _ _ _ _)

theorem sound_execMcrIl1Data1 (cond : BitVec 4) (rt : BitVec 4) (s : State) : SoundO s (execMcrIl1Data1 cond rt s) := by
  unfold execMcrIl1Data1
  exact (sound_writeSys _ _ _ _ _ fun _ => ⟨rfl, rfl, rfl, rfl, rfl, fun _ => rfl, id⟩)

theorem sound_execMcrItlbCamWrite (cond : BitVec 4) (rt : BitVec 4) (s : State) : SoundO s (execMcrItlbCamWrite cond rt s) := by
  unfold execMcrItlbCamWrite
  exact (sound_arrayWrite _ _ _)

theorem sound_execMcrItlbAttrWrite (cond : BitVec 4) (rt : BitVec 4) (s : State) : SoundO s (execMcrItlbAttrWrite cond rt s) := by
  unfold execMcrItlbAttrWrite
  exact (sound_arrayWrite _ _ _)

theorem sound_execMcrItlbPaWrite (cond : BitVec 4) (rt : BitVec 4) (s : State) : SoundO s (execMcrItlbPaWrite cond rt s) := by
  unfold execMcrItlbPaWrite
  exact (sound_arrayWrite _ _ _)

theorem sound_execMcrIhvabWrite (cond : BitVec 4) (rt : BitVec 4) (s : State) : SoundO s (execMcrIhvabWrite cond rt s) := by
  unfold execMcrIhvabWrite
  exact (sound_arrayWrite _ _ _)

theorem sound_execMcrItagWrite (cond : BitVec 4) (rt : BitVec 4) (s : State) : SoundO s (execMcrItagWrite cond rt s) := by
  unfold execMcrItagWrite
  exact (sound_arrayWrite _ _ _)

theorem sound_execMcrIdataWrite (cond : BitVec 4) (rt : BitVec 4) (s : State) : SoundO s (execMcrIdataWrite cond rt s) := by
  unfold execMcrIdataWrite
  exact (sound_arrayWrite _ _ _)

theorem sound_execMcrItlbCamRead (cond : BitVec 4) (rt : BitVec 4) (s : State) : SoundO s (execMcrItlbCamRead cond rt s) := by
  unfold execMcrItlbCamRead
  exact (sound_arrayRead _ _ _ _ fun _ _ _ => ⟨rfl, rfl, rfl, rfl, rfl, rfl⟩)

theorem sound_execMcrItlbAttrRead (cond : BitVec 4) (rt : BitVec 4) (s : State) : SoundO s (execMcrItlbAttrRead cond rt s) := by
  unfold execMcrItlbAttrRead
  exact (sound_arrayRead _ _ _ _ fun _ _ _ => ⟨rfl, rfl, rfl, rfl, rfl, rfl⟩)

theorem sound_execMcrItlbPaRead (cond : BitVec 4) (rt : BitVec 4) (s : State) : SoundO s (execMcrItlbPaRead cond rt s) := by
  unfold execMcrItlbPaRead
  exact (sound_arrayRead _ _ _ _ fun _ _ _ => ⟨rfl, rfl, rfl, rfl, rfl, rfl⟩)

theorem sound_execMcrIhvabRead (cond : BitVec 4) (rt : BitVec 4) (s : State) : SoundO s (execMcrIhvabRead cond rt s) := by
  unfold execMcrIhvabRead
  exact (sound_arrayRead _ _ _ _ fun _ _ _ => ⟨rfl, rfl, rfl, rfl, rfl, rfl⟩)

theorem sound_execMcrItagRead (cond : BitVec 4) (rt : BitVec 4) (s : State) : SoundO s (execMcrItagRead cond rt s) := by
  unfold execMcrItagRead
  exact (sound_arrayRead _ _ _ _ fun _ _ _ => ⟨rfl, rfl, rfl, rfl, rfl, rfl⟩)

theorem sound_execMcrIdataRead (cond : BitVec 4) (rt : BitVec 4) (s : State) : SoundO s (execMcrIdataRead cond rt s) := by
  unfold execMcrIdataRead
  exact (sound_arrayRead _ _ _ _ fun _ _ _ => ⟨rfl, rfl, rfl, rfl, rfl, rfl⟩)

theorem sound_execMcrGhbWrite (cond : BitVec 4) (rt : BitVec 4) (s : State) : SoundO s (execMcrGhbWrite cond rt s) := by
  unfold execMcrGhbWrite
  exact (sound_writeSys _ _ _ _ _ fun _ => (Kept.refl s))

theorem sound_execMcrBtbWrite (cond : BitVec 4) (rt : BitVec 4) (s : State) : SoundO s (execMcrBtbWrite cond rt s) := by
  unfold execMcrBtbWrite
  exact (sound_writeSys _ _ _ _ _ fun _ => (Kept.refl s))

theorem sound_execMcrGhbRead (cond : BitVec 4) (rt : BitVec 4) (s : State) : SoundO s (execMcrGhbRead cond rt s) := by
  unfold execMcrGhbRead
  exact (sound_arrayRead _ _ _ _ fun _ _ _ => ⟨rfl, rfl, rfl, rfl, rfl, rfl⟩)

theorem sound_execMcrBtbRead (cond : BitVec 4) (rt : BitVec 4) (s : State) : SoundO s (execMcrBtbRead cond rt s) := by
  unfold execMcrBtbRead
  exact (sound_arrayRead _ _ _ _ fun _ _ _ => ⟨rfl, rfl, rfl, rfl, rfl, rfl⟩)

theorem sound_execMrcL2Data0 (cond : BitVec 4) (rt : BitVec 4) (s : State) : SoundO s (execMrcL2Data0 cond rt s) := by
  unfold execMrcL2Data0
  exact (sound_readSys _ _ _ _ _)

theorem sound_execMcrL2Data0 (cond : BitVec 4) (rt : BitVec 4) (s : State) : SoundO s (execMcrL2Data0 cond rt s) := by
  unfold execMcrL2Data0
  exact (sound_writeSys _ _ _ _ _ fun _ => ⟨rfl, rfl, rfl, rfl, rfl, fun _ => rfl, id⟩)

theorem sound_execMrcL2Data1 (cond : BitVec 4) (rt : BitVec 4) (s : State) : SoundO s (execMrcL2Data1 cond rt s) := by
  unfold execMrcL2Data1
  exact (sound_readSys _ _ _ _ _)

theorem sound_execMcrL2Data1 (cond : BitVec 4) (rt : BitVec 4) (s : State) : SoundO s (execMcrL2Data1 cond rt s) := by
  unfold execMcrL2Data1
  exact (sound_writeSys _ _ _ _ _ fun _ => ⟨rfl, rfl, rfl, rfl, rfl, fun _ => rfl, id⟩)

theorem sound_execMcrL2TagWrite (cond : BitVec 4) (rt : BitVec 4) (s : State) : SoundO s (execMcrL2TagWrite cond rt s) := by
  unfold execMcrL2TagWrite
  exact (sound_arrayWrite _ _ _)

theorem sound_execMcrL2DataWrite (cond : BitVec 4) (rt : BitVec 4) (s : State) : SoundO s (execMcrL2DataWrite cond rt s) := by
  unfold execMcrL2DataWrite
  exact (sound_arrayWrite _ _ _)

theorem sound_execMcrL2ParityWrite (cond : BitVec 4) (rt : BitVec 4) (s : State) : SoundO s (execMcrL2ParityWrite cond rt s) := by
  unfold execMcrL2ParityWrite
  exact (sound_arrayWrite _ _ _)

theorem sound_execMrcL2Data2 (cond : BitVec 4) (rt : BitVec 4) (s : State) : SoundO s (execMrcL2Data2 cond rt s) := by
  unfold execMrcL2Data2
  exact (sound_readSys _ _ _ _ _)

theorem sound_execMcrL2Data2 (cond : BitVec 4) (rt : BitVec 4) (s : State) : SoundO s (execMcrL2Data2 cond rt s) := by
  unfold execMcrL2Data2
  exact (sound_writeSys _ _ _ _ _ fun _ => ⟨rfl, rfl, rfl, rfl, rfl, fun _ => rfl, id⟩)

theorem sound_execMcrL2TagRead (cond : BitVec 4) (rt : BitVec 4) (s : State) : SoundO s (execMcrL2TagRead cond rt s) := by
  unfold execMcrL2TagRead
  exact (sound_arrayRead _ _ _ _ fun _ _ _ => ⟨rfl, rfl, rfl, rfl, rfl, rfl⟩)

theorem sound_execMcrL2DataRead (cond : BitVec 4) (rt : BitVec 4) (s : State) : SoundO s (execMcrL2DataRead cond rt s) := by
  unfold execMcrL2DataRead
  exact (sound_arrayRead _ _ _ _ fun _ _ _ => ⟨rfl, rfl, rfl, rfl, rfl, rfl⟩)

theorem sound_execMcrL2ParityRead (cond : BitVec 4) (rt : BitVec 4) (s : State) : SoundO s (execMcrL2ParityRead cond rt s) := by
  unfold execMcrL2ParityRead
  exact (sound_arrayRead _ _ _ _ fun _ _ _ => ⟨rfl, rfl, rfl, rfl, rfl, rfl⟩)

theorem sound_execMcrWfiNop (cond : BitVec 4) (rt : BitVec 4) (s : State) : SoundO s (execMcrWfiNop cond rt s) := by
  unfold execMcrWfiNop
  exact (sound_writeSys _ _ _ _ _ fun _ => (Kept.refl s))

theorem sound_execMcrIciallu (cond : BitVec 4) (rt : BitVec 4) (s : State) : SoundO s (execMcrIciallu cond rt s) := by
  unfold execMcrIciallu
  exact (sound_writeSys _ _ _ _ _ fun _ => kept_dropL1i _ s)

theorem sound_execMcrIcimvau (cond : BitVec 4) (rt : BitVec 4) (s : State) : SoundO s (execMcrIcimvau cond rt s) := by
  unfold execMcrIcimvau
  exact (sound_withSys _ _ _ _ _ fun _ _ => (sound_byAddress _ _ _ _ fun _ _ => kept_dropL1i _ _))

theorem sound_execMcrIsb (cond : BitVec 4) (rt : BitVec 4) (s : State) : SoundO s (execMcrIsb cond rt s) := by
  unfold execMcrIsb
  exact (sound_writeSys _ _ _ _ _ fun _ => (kept_synchronized s))

theorem sound_execMcrBpiall (cond : BitVec 4) (rt : BitVec 4) (s : State) : SoundO s (execMcrBpiall cond rt s) := by
  unfold execMcrBpiall
  exact (sound_writeSys _ _ _ _ _ fun _ => (Kept.refl s))

theorem sound_execMcrBpimva (cond : BitVec 4) (rt : BitVec 4) (s : State) : SoundO s (execMcrBpimva cond rt s) := by
  unfold execMcrBpimva
  exact (sound_writeSys _ _ _ _ _ fun _ => (Kept.refl s))

theorem sound_execMcrDcimvac (cond : BitVec 4) (rt : BitVec 4) (s : State) : SoundO s (execMcrDcimvac cond rt s) := by
  unfold execMcrDcimvac
  exact (sound_withSys _ _ _ _ _ fun _ _ => (sound_byAddress _ _ _ _ fun _ _ => kept_invalidateToPoC _ _))

theorem sound_execMcrDcisw (cond : BitVec 4) (rt : BitVec 4) (s : State) : SoundO s (execMcrDcisw cond rt s) := by
  unfold execMcrDcisw
  exact (sound_writeSys _ _ _ _ _ fun _ => (kept_bySetWay _ _ s))

theorem sound_execMcrVaPaCurPrivRead (cond : BitVec 4) (rt : BitVec 4) (s : State) : SoundO s (execMcrVaPaCurPrivRead cond rt s) := by
  unfold execMcrVaPaCurPrivRead
  exact (sound_withSys _ _ _ _ _ fun _ _ => (sound_vaToPa _ _ _ _ _))

theorem sound_execMcrVaPaCurPrivWrite (cond : BitVec 4) (rt : BitVec 4) (s : State) : SoundO s (execMcrVaPaCurPrivWrite cond rt s) := by
  unfold execMcrVaPaCurPrivWrite
  exact (sound_withSys _ _ _ _ _ fun _ _ => (sound_vaToPa _ _ _ _ _))

theorem sound_execMcrVaPaCurUserRead (cond : BitVec 4) (rt : BitVec 4) (s : State) : SoundO s (execMcrVaPaCurUserRead cond rt s) := by
  unfold execMcrVaPaCurUserRead
  exact (sound_withSys _ _ _ _ _ fun _ _ => (sound_vaToPa _ _ _ _ _))

theorem sound_execMcrVaPaCurUserWrite (cond : BitVec 4) (rt : BitVec 4) (s : State) : SoundO s (execMcrVaPaCurUserWrite cond rt s) := by
  unfold execMcrVaPaCurUserWrite
  exact (sound_withSys _ _ _ _ _ fun _ _ => (sound_vaToPa _ _ _ _ _))

theorem sound_execMcrVaPaOthPrivRead (cond : BitVec 4) (rt : BitVec 4) (s : State) : SoundO s (execMcrVaPaOthPrivRead cond rt s) := by
  unfold execMcrVaPaOthPrivRead
  exact (sound_withSys _ _ _ _ _ fun _ _ => (sound_vaToPa _ _ _ _ _))

theorem sound_execMcrVaPaOthPrivWrite (cond : BitVec 4) (rt : BitVec 4) (s : State) : SoundO s (execMcrVaPaOthPrivWrite cond rt s) := by
  unfold execMcrVaPaOthPrivWrite
  exact (sound_withSys _ _ _ _ _ fun _ _ => (sound_vaToPa _ _ _ _ _))

theorem sound_execMcrVaPaOthUserRead (cond : BitVec 4) (rt : BitVec 4) (s : State) : SoundO s (execMcrVaPaOthUserRead cond rt s) := by
  unfold execMcrVaPaOthUserRead
  exact (sound_withSys _ _ _ _ _ fun _ _ => (sound_vaToPa _ _ _ _ _))

theorem sound_execMcrVaPaOthUserWrite (cond : BitVec 4) (rt : BitVec 4) (s : State) : SoundO s (execMcrVaPaOthUserWrite cond rt s) := by
  unfold execMcrVaPaOthUserWrite
  exact (sound_withSys _ _ _ _ _ fun _ _ => (sound_vaToPa _ _ _ _ _))

theorem sound_execMcrDccmvac (cond : BitVec 4) (rt : BitVec 4) (s : State) : SoundO s (execMcrDccmvac cond rt s) := by
  unfold execMcrDccmvac
  exact (sound_withSys _ _ _ _ _ fun _ _ => (sound_byAddress _ _ _ _ fun _ _ => kept_cleanToPoC _ _))

theorem sound_execMcrDccsw (cond : BitVec 4) (rt : BitVec 4) (s : State) : SoundO s (execMcrDccsw cond rt s) := by
  unfold execMcrDccsw
  exact (sound_writeSys _ _ _ _ _ fun _ => (kept_bySetWay _ _ s))

theorem sound_execMcrDsb (cond : BitVec 4) (rt : BitVec 4) (s : State) : SoundO s (execMcrDsb cond rt s) := by
  unfold execMcrDsb
  exact (sound_writeSys _ _ _ _ _ fun _ => (kept_completed s))

theorem sound_execMcrDmb (cond : BitVec 4) (rt : BitVec 4) (s : State) : SoundO s (execMcrDmb cond rt s) := by
  unfold execMcrDmb
  exact (sound_writeSys _ _ _ _ _ fun _ => (kept_fenceStores s))

theorem sound_execMcrDccmvau (cond : BitVec 4) (rt : BitVec 4) (s : State) : SoundO s (execMcrDccmvau cond rt s) := by
  unfold execMcrDccmvau
  exact (sound_withSys _ _ _ _ _ fun _ _ => (sound_byAddress _ _ _ _ fun _ _ => kept_onL1d kept_cleanL1d _ _))

theorem sound_execMcrDccimvac (cond : BitVec 4) (rt : BitVec 4) (s : State) : SoundO s (execMcrDccimvac cond rt s) := by
  unfold execMcrDccimvac
  exact (sound_withSys _ _ _ _ _ fun _ _ => (sound_byAddress _ _ _ _ fun _ _ => (kept_cleanToPoC _ _).trans (kept_invalidateToPoC _ _)))

theorem sound_execMcrDccisw (cond : BitVec 4) (rt : BitVec 4) (s : State) : SoundO s (execMcrDccisw cond rt s) := by
  unfold execMcrDccisw
  exact (sound_writeSys _ _ _ _ _ fun _ => (kept_bySetWay _ _ s))

theorem sound_execMcrItlbiall (cond : BitVec 4) (rt : BitVec 4) (s : State) : SoundO s (execMcrItlbiall cond rt s) := by
  unfold execMcrItlbiall
  exact (sound_writeSys _ _ _ _ _ fun _ => ⟨rfl, rfl, rfl, rfl, rfl, fun _ => rfl, id⟩)

theorem sound_execMcrItlbimva (cond : BitVec 4) (rt : BitVec 4) (s : State) : SoundO s (execMcrItlbimva cond rt s) := by
  unfold execMcrItlbimva
  exact (sound_writeSys _ _ _ _ _ fun _ => ⟨rfl, rfl, rfl, rfl, rfl, fun _ => rfl, id⟩)

theorem sound_execMcrItlbiasid (cond : BitVec 4) (rt : BitVec 4) (s : State) : SoundO s (execMcrItlbiasid cond rt s) := by
  unfold execMcrItlbiasid
  exact (sound_writeSys _ _ _ _ _ fun _ => ⟨rfl, rfl, rfl, rfl, rfl, fun _ => rfl, id⟩)

theorem sound_execMcrDtlbiall (cond : BitVec 4) (rt : BitVec 4) (s : State) : SoundO s (execMcrDtlbiall cond rt s) := by
  unfold execMcrDtlbiall
  exact (sound_writeSys _ _ _ _ _ fun _ => ⟨rfl, rfl, rfl, rfl, rfl, fun _ => rfl, id⟩)

theorem sound_execMcrDtlbimva (cond : BitVec 4) (rt : BitVec 4) (s : State) : SoundO s (execMcrDtlbimva cond rt s) := by
  unfold execMcrDtlbimva
  exact (sound_writeSys _ _ _ _ _ fun _ => ⟨rfl, rfl, rfl, rfl, rfl, fun _ => rfl, id⟩)

theorem sound_execMcrDtlbiasid (cond : BitVec 4) (rt : BitVec 4) (s : State) : SoundO s (execMcrDtlbiasid cond rt s) := by
  unfold execMcrDtlbiasid
  exact (sound_writeSys _ _ _ _ _ fun _ => ⟨rfl, rfl, rfl, rfl, rfl, fun _ => rfl, id⟩)

theorem sound_execMcrTlbiall (cond : BitVec 4) (rt : BitVec 4) (s : State) : SoundO s (execMcrTlbiall cond rt s) := by
  unfold execMcrTlbiall
  exact (sound_writeSys _ _ _ _ _ fun _ => ⟨rfl, rfl, rfl, rfl, rfl, fun _ => rfl, id⟩)

theorem sound_execMcrTlbimva (cond : BitVec 4) (rt : BitVec 4) (s : State) : SoundO s (execMcrTlbimva cond rt s) := by
  unfold execMcrTlbimva
  exact (sound_writeSys _ _ _ _ _ fun _ => ⟨rfl, rfl, rfl, rfl, rfl, fun _ => rfl, id⟩)

theorem sound_execMcrTlbiasid (cond : BitVec 4) (rt : BitVec 4) (s : State) : SoundO s (execMcrTlbiasid cond rt s) := by
  unfold execMcrTlbiasid
  exact (sound_writeSys _ _ _ _ _ fun _ => ⟨rfl, rfl, rfl, rfl, rfl, fun _ => rfl, id⟩)

theorem sound_execMcrDtlbPreload (cond : BitVec 4) (rt : BitVec 4) (s : State) : SoundO s (execMcrDtlbPreload cond rt s) := by
  unfold execMcrDtlbPreload
  exact (sound_withSys _ _ _ _ _ fun _ _ => (sound_preloadTlb _ _ _))

theorem sound_execMcrItlbPreload (cond : BitVec 4) (rt : BitVec 4) (s : State) : SoundO s (execMcrItlbPreload cond rt s) := by
  unfold execMcrItlbPreload
  exact (sound_withSys _ _ _ _ _ fun _ _ => (sound_preloadTlb _ _ _))

theorem sound_execB (cond : BitVec 4) (imm24 : BitVec 24) (s : State) : SoundO s (execB cond imm24 s) := by
  unfold execB
  exact sound_onCond _ (kept_note _ _) (soundO_next (sound_branchTo (kept_note _ _) _))

theorem sound_execBl (cond : BitVec 4) (imm24 : BitVec 24) (s : State) : SoundO s (execBl cond imm24 s) := by
  unfold execBl
  exact sound_onCond _ (kept_note _ _) (soundO_next (sound_branchTo ((kept_note _ _).trans (kept_link _)) _))

theorem sound_execBlxImm (h : BitVec 1) (imm24 : BitVec 24) (s : State) : SoundO s (execBlxImm h imm24 s) := by
  unfold execBlxImm
  exact soundO_next (sound_thumb (((kept_note s 0x0D).trans (kept_note _ 0x0C)).trans (kept_link _)) (by rw [State.link_cpsr]; rfl) rfl rfl rfl rfl fun x y => blxTarget_even x y)

theorem sound_execBx (cond : BitVec 4) (rm : BitVec 4) (s : State) : SoundO s (execBx cond rm s) := by
  unfold execBx
  exact (sound_onCond _ (Kept.refl s) (sound_bxTo (kept_noteReturn _ s) _))

theorem sound_execBxj (cond : BitVec 4) (rm : BitVec 4) (s : State) : SoundO s (execBxj cond rm s) := by
  unfold execBxj
  exact (sound_onCond _ (Kept.refl s) (sound_unlessPC _ (sound_bxTo (kept_noteReturn _ s) _)))

theorem sound_execBlxReg (cond : BitVec 4) (rm : BitVec 4) (s : State) : SoundO s (execBlxReg cond rm s) := by
  unfold execBlxReg
  exact (sound_onCond _ (Kept.refl s) (sound_unlessPC _ (sound_bxTo (kept_link s) _)))

theorem sound_execSvc (cond : BitVec 4) (_imm24 : BitVec 24) (s : State) : SoundO s (execSvc cond _imm24 s) := by
  unfold execSvc
  exact (sound_onCond _ (Kept.refl s) (soundO_next (sound_svc (Kept.refl s))))

theorem sound_execSmc (cond : BitVec 4) (_imm4 : BitVec 4) (s : State) : SoundO s (execSmc cond _imm4 s) := by
  unfold execSmc
  exact (sound_onCond _ (Kept.refl s) (soundO_ite (soundO_next (sound_smc (Kept.refl s))) (soundO_next (sound_undefined (Kept.refl s)))))

theorem sound_execBkpt (cond : BitVec 4) (_imm12 : BitVec 12) (_imm4 : BitVec 4) (s : State) : SoundO s (execBkpt cond _imm12 _imm4 s) := by
  unfold execBkpt
  exact sound_if (soundO_next (sound_bkpt (Kept.refl s))) (soundO_fault _)

theorem sound_execUdf (cond : BitVec 4) (_imm12 : BitVec 12) (_imm4 : BitVec 4) (s : State) : SoundO s (execUdf cond _imm12 _imm4 s) := by
  unfold execUdf
  exact (sound_onUndefined _ s)

theorem sound_execMul (cond : BitVec 4) (sf : BitVec 1) (rd : BitVec 4) (rm : BitVec 4) (rn : BitVec 4) (s : State) : SoundO s (execMul cond sf rd rm rn s) := by
  unfold execMul
  exact (sound_onCond _ (Kept.refl s) (sound_unlessPC _ (sound_mulWriteS _ _ _ _)))

theorem sound_execMla (cond : BitVec 4) (sf : BitVec 1) (rd : BitVec 4) (ra : BitVec 4) (rm : BitVec 4) (rn : BitVec 4) (s : State) : SoundO s (execMla cond sf rd ra rm rn s) := by
  unfold execMla
  exact (sound_onCond _ (Kept.refl s) (sound_unlessPC _ (sound_mulWriteS _ _ _ _)))

theorem sound_execMls (cond : BitVec 4) (rd : BitVec 4) (ra : BitVec 4) (rm : BitVec 4) (rn : BitVec 4) (s : State) : SoundO s (execMls cond rd ra rm rn s) := by
  unfold execMls
  exact (sound_onCond _ (Kept.refl s) (sound_unlessPC _ (sound_mulWrite _ _ _)))

theorem sound_execUmull (cond : BitVec 4) (sf : BitVec 1) (rdHi : BitVec 4) (rdLo : BitVec 4) (rm : BitVec 4) (rn : BitVec 4) (s : State) : SoundO s (execUmull cond sf rdHi rdLo rm rn s) := by
  unfold execUmull
  exact (sound_onCond _ (Kept.refl s) (sound_longWriteS _ _ _ _ _ _ _))

theorem sound_execUmlal (cond : BitVec 4) (sf : BitVec 1) (rdHi : BitVec 4) (rdLo : BitVec 4) (rm : BitVec 4) (rn : BitVec 4) (s : State) : SoundO s (execUmlal cond sf rdHi rdLo rm rn s) := by
  unfold execUmlal
  exact (sound_onCond _ (Kept.refl s) (sound_longWriteS _ _ _ _ _ _ _))

theorem sound_execUmaal (cond : BitVec 4) (rdHi : BitVec 4) (rdLo : BitVec 4) (rm : BitVec 4) (rn : BitVec 4) (s : State) : SoundO s (execUmaal cond rdHi rdLo rm rn s) := by
  unfold execUmaal
  exact (sound_onCond _ (Kept.refl s) (sound_longWrite _ _ _ _ _ _))

theorem sound_execSmull (cond : BitVec 4) (sf : BitVec 1) (rdHi : BitVec 4) (rdLo : BitVec 4) (rm : BitVec 4) (rn : BitVec 4) (s : State) : SoundO s (execSmull cond sf rdHi rdLo rm rn s) := by
  unfold execSmull
  exact (sound_onCond _ (Kept.refl s) (sound_longWriteS _ _ _ _ _ _ _))

theorem sound_execSmlal (cond : BitVec 4) (sf : BitVec 1) (rdHi : BitVec 4) (rdLo : BitVec 4) (rm : BitVec 4) (rn : BitVec 4) (s : State) : SoundO s (execSmlal cond sf rdHi rdLo rm rn s) := by
  unfold execSmlal
  exact (sound_onCond _ (Kept.refl s) (sound_longWriteS _ _ _ _ _ _ _))

theorem sound_execSmulbb (cond : BitVec 4) (rd : BitVec 4) (rm : BitVec 4) (rn : BitVec 4) (s : State) : SoundO s (execSmulbb cond rd rm rn s) := by
  unfold execSmulbb
  exact (sound_onCond _ (Kept.refl s) (sound_unlessPC _ (sound_mulWrite _ _ _)))

theorem sound_execSmlabb (cond : BitVec 4) (rd : BitVec 4) (ra : BitVec 4) (rm : BitVec 4) (rn : BitVec 4) (s : State) : SoundO s (execSmlabb cond rd ra rm rn s) := by
  unfold execSmlabb
  exact (sound_onCond _ (Kept.refl s) (sound_unlessPC _ (sound_mulWriteQ _ _ _)))

theorem sound_execSmlalbb (cond : BitVec 4) (rdHi : BitVec 4) (rdLo : BitVec 4) (rm : BitVec 4) (rn : BitVec 4) (s : State) : SoundO s (execSmlalbb cond rdHi rdLo rm rn s) := by
  unfold execSmlalbb
  exact (sound_onCond _ (Kept.refl s) (sound_longWrite _ _ _ _ _ _))

theorem sound_execSmulbt (cond : BitVec 4) (rd : BitVec 4) (rm : BitVec 4) (rn : BitVec 4) (s : State) : SoundO s (execSmulbt cond rd rm rn s) := by
  unfold execSmulbt
  exact (sound_onCond _ (Kept.refl s) (sound_unlessPC _ (sound_mulWrite _ _ _)))

theorem sound_execSmlabt (cond : BitVec 4) (rd : BitVec 4) (ra : BitVec 4) (rm : BitVec 4) (rn : BitVec 4) (s : State) : SoundO s (execSmlabt cond rd ra rm rn s) := by
  unfold execSmlabt
  exact (sound_onCond _ (Kept.refl s) (sound_unlessPC _ (sound_mulWriteQ _ _ _)))

theorem sound_execSmlalbt (cond : BitVec 4) (rdHi : BitVec 4) (rdLo : BitVec 4) (rm : BitVec 4) (rn : BitVec 4) (s : State) : SoundO s (execSmlalbt cond rdHi rdLo rm rn s) := by
  unfold execSmlalbt
  exact (sound_onCond _ (Kept.refl s) (sound_longWrite _ _ _ _ _ _))

theorem sound_execSmultb (cond : BitVec 4) (rd : BitVec 4) (rm : BitVec 4) (rn : BitVec 4) (s : State) : SoundO s (execSmultb cond rd rm rn s) := by
  unfold execSmultb
  exact (sound_onCond _ (Kept.refl s) (sound_unlessPC _ (sound_mulWrite _ _ _)))

theorem sound_execSmlatb (cond : BitVec 4) (rd : BitVec 4) (ra : BitVec 4) (rm : BitVec 4) (rn : BitVec 4) (s : State) : SoundO s (execSmlatb cond rd ra rm rn s) := by
  unfold execSmlatb
  exact (sound_onCond _ (Kept.refl s) (sound_unlessPC _ (sound_mulWriteQ _ _ _)))

theorem sound_execSmlaltb (cond : BitVec 4) (rdHi : BitVec 4) (rdLo : BitVec 4) (rm : BitVec 4) (rn : BitVec 4) (s : State) : SoundO s (execSmlaltb cond rdHi rdLo rm rn s) := by
  unfold execSmlaltb
  exact (sound_onCond _ (Kept.refl s) (sound_longWrite _ _ _ _ _ _))

theorem sound_execSmultt (cond : BitVec 4) (rd : BitVec 4) (rm : BitVec 4) (rn : BitVec 4) (s : State) : SoundO s (execSmultt cond rd rm rn s) := by
  unfold execSmultt
  exact (sound_onCond _ (Kept.refl s) (sound_unlessPC _ (sound_mulWrite _ _ _)))

theorem sound_execSmlatt (cond : BitVec 4) (rd : BitVec 4) (ra : BitVec 4) (rm : BitVec 4) (rn : BitVec 4) (s : State) : SoundO s (execSmlatt cond rd ra rm rn s) := by
  unfold execSmlatt
  exact (sound_onCond _ (Kept.refl s) (sound_unlessPC _ (sound_mulWriteQ _ _ _)))

theorem sound_execSmlaltt (cond : BitVec 4) (rdHi : BitVec 4) (rdLo : BitVec 4) (rm : BitVec 4) (rn : BitVec 4) (s : State) : SoundO s (execSmlaltt cond rdHi rdLo rm rn s) := by
  unfold execSmlaltt
  exact (sound_onCond _ (Kept.refl s) (sound_longWrite _ _ _ _ _ _))

theorem sound_execSmulwb (cond : BitVec 4) (rd : BitVec 4) (rm : BitVec 4) (rn : BitVec 4) (s : State) : SoundO s (execSmulwb cond rd rm rn s) := by
  unfold execSmulwb
  exact (sound_onCond _ (Kept.refl s) (sound_unlessPC _ (sound_mulWrite _ _ _)))

theorem sound_execSmlawb (cond : BitVec 4) (rd : BitVec 4) (ra : BitVec 4) (rm : BitVec 4) (rn : BitVec 4) (s : State) : SoundO s (execSmlawb cond rd ra rm rn s) := by
  unfold execSmlawb
  exact (sound_onCond _ (Kept.refl s) (sound_unlessPC _ (sound_mulWriteQ _ _ _)))

theorem sound_execSmulwt (cond : BitVec 4) (rd : BitVec 4) (rm : BitVec 4) (rn : BitVec 4) (s : State) : SoundO s (execSmulwt cond rd rm rn s) := by
  unfold execSmulwt
  exact (sound_onCond _ (Kept.refl s) (sound_unlessPC _ (sound_mulWrite _ _ _)))

theorem sound_execSmlawt (cond : BitVec 4) (rd : BitVec 4) (ra : BitVec 4) (rm : BitVec 4) (rn : BitVec 4) (s : State) : SoundO s (execSmlawt cond rd ra rm rn s) := by
  unfold execSmlawt
  exact (sound_onCond _ (Kept.refl s) (sound_unlessPC _ (sound_mulWriteQ _ _ _)))

theorem sound_execSmuad (cond : BitVec 4) (rd : BitVec 4) (rm : BitVec 4) (rn : BitVec 4) (s : State) : SoundO s (execSmuad cond rd rm rn s) := by
  unfold execSmuad
  exact (sound_onCond _ (Kept.refl s) (sound_unlessPC _ (sound_mulWriteQ _ _ _)))

theorem sound_execSmusd (cond : BitVec 4) (rd : BitVec 4) (rm : BitVec 4) (rn : BitVec 4) (s : State) : SoundO s (execSmusd cond rd rm rn s) := by
  unfold execSmusd
  exact (sound_onCond _ (Kept.refl s) (sound_unlessPC _ (sound_mulWrite _ _ _)))

theorem sound_execSmlad (cond : BitVec 4) (rd : BitVec 4) (ra : BitVec 4) (rm : BitVec 4) (rn : BitVec 4) (s : State) : SoundO s (execSmlad cond rd ra rm rn s) := by
  unfold execSmlad
  exact (sound_onCond _ (Kept.refl s) (sound_unlessPC _ (sound_mulWriteQ _ _ _)))

theorem sound_execSmlsd (cond : BitVec 4) (rd : BitVec 4) (ra : BitVec 4) (rm : BitVec 4) (rn : BitVec 4) (s : State) : SoundO s (execSmlsd cond rd ra rm rn s) := by
  unfold execSmlsd
  exact (sound_onCond _ (Kept.refl s) (sound_unlessPC _ (sound_mulWriteQ _ _ _)))

theorem sound_execSmlald (cond : BitVec 4) (rdHi : BitVec 4) (rdLo : BitVec 4) (rm : BitVec 4) (rn : BitVec 4) (s : State) : SoundO s (execSmlald cond rdHi rdLo rm rn s) := by
  unfold execSmlald
  exact (sound_onCond _ (Kept.refl s) (sound_longWrite _ _ _ _ _ _))

theorem sound_execSmlsld (cond : BitVec 4) (rdHi : BitVec 4) (rdLo : BitVec 4) (rm : BitVec 4) (rn : BitVec 4) (s : State) : SoundO s (execSmlsld cond rdHi rdLo rm rn s) := by
  unfold execSmlsld
  exact (sound_onCond _ (Kept.refl s) (sound_longWrite _ _ _ _ _ _))

theorem sound_execSmuadx (cond : BitVec 4) (rd : BitVec 4) (rm : BitVec 4) (rn : BitVec 4) (s : State) : SoundO s (execSmuadx cond rd rm rn s) := by
  unfold execSmuadx
  exact (sound_onCond _ (Kept.refl s) (sound_unlessPC _ (sound_mulWriteQ _ _ _)))

theorem sound_execSmusdx (cond : BitVec 4) (rd : BitVec 4) (rm : BitVec 4) (rn : BitVec 4) (s : State) : SoundO s (execSmusdx cond rd rm rn s) := by
  unfold execSmusdx
  exact (sound_onCond _ (Kept.refl s) (sound_unlessPC _ (sound_mulWrite _ _ _)))

theorem sound_execSmladx (cond : BitVec 4) (rd : BitVec 4) (ra : BitVec 4) (rm : BitVec 4) (rn : BitVec 4) (s : State) : SoundO s (execSmladx cond rd ra rm rn s) := by
  unfold execSmladx
  exact (sound_onCond _ (Kept.refl s) (sound_unlessPC _ (sound_mulWriteQ _ _ _)))

theorem sound_execSmlsdx (cond : BitVec 4) (rd : BitVec 4) (ra : BitVec 4) (rm : BitVec 4) (rn : BitVec 4) (s : State) : SoundO s (execSmlsdx cond rd ra rm rn s) := by
  unfold execSmlsdx
  exact (sound_onCond _ (Kept.refl s) (sound_unlessPC _ (sound_mulWriteQ _ _ _)))

theorem sound_execSmlaldx (cond : BitVec 4) (rdHi : BitVec 4) (rdLo : BitVec 4) (rm : BitVec 4) (rn : BitVec 4) (s : State) : SoundO s (execSmlaldx cond rdHi rdLo rm rn s) := by
  unfold execSmlaldx
  exact (sound_onCond _ (Kept.refl s) (sound_longWrite _ _ _ _ _ _))

theorem sound_execSmlsldx (cond : BitVec 4) (rdHi : BitVec 4) (rdLo : BitVec 4) (rm : BitVec 4) (rn : BitVec 4) (s : State) : SoundO s (execSmlsldx cond rdHi rdLo rm rn s) := by
  unfold execSmlsldx
  exact (sound_onCond _ (Kept.refl s) (sound_longWrite _ _ _ _ _ _))

theorem sound_execSmmul (cond : BitVec 4) (rd : BitVec 4) (rm : BitVec 4) (rn : BitVec 4) (s : State) : SoundO s (execSmmul cond rd rm rn s) := by
  unfold execSmmul
  exact (sound_onCond _ (Kept.refl s) (sound_unlessPC _ (sound_mulWrite _ _ _)))

theorem sound_execSmmla (cond : BitVec 4) (rd : BitVec 4) (ra : BitVec 4) (rm : BitVec 4) (rn : BitVec 4) (s : State) : SoundO s (execSmmla cond rd ra rm rn s) := by
  unfold execSmmla
  exact (sound_onCond _ (Kept.refl s) (sound_unlessPC _ (sound_mulWrite _ _ _)))

theorem sound_execSmmls (cond : BitVec 4) (rd : BitVec 4) (ra : BitVec 4) (rm : BitVec 4) (rn : BitVec 4) (s : State) : SoundO s (execSmmls cond rd ra rm rn s) := by
  unfold execSmmls
  exact (sound_onCond _ (Kept.refl s) (sound_unlessPC _ (sound_mulWrite _ _ _)))

theorem sound_execSmmulr (cond : BitVec 4) (rd : BitVec 4) (rm : BitVec 4) (rn : BitVec 4) (s : State) : SoundO s (execSmmulr cond rd rm rn s) := by
  unfold execSmmulr
  exact (sound_onCond _ (Kept.refl s) (sound_unlessPC _ (sound_mulWrite _ _ _)))

theorem sound_execSmmlar (cond : BitVec 4) (rd : BitVec 4) (ra : BitVec 4) (rm : BitVec 4) (rn : BitVec 4) (s : State) : SoundO s (execSmmlar cond rd ra rm rn s) := by
  unfold execSmmlar
  exact (sound_onCond _ (Kept.refl s) (sound_unlessPC _ (sound_mulWrite _ _ _)))

theorem sound_execSmmlsr (cond : BitVec 4) (rd : BitVec 4) (ra : BitVec 4) (rm : BitVec 4) (rn : BitVec 4) (s : State) : SoundO s (execSmmlsr cond rd ra rm rn s) := by
  unfold execSmmlsr
  exact (sound_onCond _ (Kept.refl s) (sound_unlessPC _ (sound_mulWrite _ _ _)))

theorem sound_execMrcPmnc (cond : BitVec 4) (rt : BitVec 4) (s : State) : SoundO s (execMrcPmnc cond rt s) := by
  unfold execMrcPmnc
  exact (sound_readSys _ _ _ _ _)

theorem sound_execMcrPmnc (cond : BitVec 4) (rt : BitVec 4) (s : State) : SoundO s (execMcrPmnc cond rt s) := by
  unfold execMcrPmnc
  exact (sound_writeSys _ _ _ _ _ fun _ => ⟨rfl, rfl, rfl, rfl, rfl, fun _ => rfl, id⟩)

theorem sound_execMrcCntens (cond : BitVec 4) (rt : BitVec 4) (s : State) : SoundO s (execMrcCntens cond rt s) := by
  unfold execMrcCntens
  exact (sound_readSys _ _ _ _ _)

theorem sound_execMcrCntens (cond : BitVec 4) (rt : BitVec 4) (s : State) : SoundO s (execMcrCntens cond rt s) := by
  unfold execMcrCntens
  exact (sound_writeSys _ _ _ _ _ fun _ => ⟨rfl, rfl, rfl, rfl, rfl, fun _ => rfl, id⟩)

theorem sound_execMrcCntenc (cond : BitVec 4) (rt : BitVec 4) (s : State) : SoundO s (execMrcCntenc cond rt s) := by
  unfold execMrcCntenc
  exact (sound_readSys _ _ _ _ _)

theorem sound_execMcrCntenc (cond : BitVec 4) (rt : BitVec 4) (s : State) : SoundO s (execMcrCntenc cond rt s) := by
  unfold execMcrCntenc
  exact (sound_writeSys _ _ _ _ _ fun _ => ⟨rfl, rfl, rfl, rfl, rfl, fun _ => rfl, id⟩)

theorem sound_execMrcFlag (cond : BitVec 4) (rt : BitVec 4) (s : State) : SoundO s (execMrcFlag cond rt s) := by
  unfold execMrcFlag
  exact (sound_readSys _ _ _ _ _)

theorem sound_execMcrFlag (cond : BitVec 4) (rt : BitVec 4) (s : State) : SoundO s (execMcrFlag cond rt s) := by
  unfold execMcrFlag
  exact (sound_writeSys _ _ _ _ _ fun _ => ⟨rfl, rfl, rfl, rfl, rfl, fun _ => rfl, id⟩)

theorem sound_execMrcSwincr (cond : BitVec 4) (rt : BitVec 4) (s : State) : SoundO s (execMrcSwincr cond rt s) := by
  unfold execMrcSwincr
  exact (sound_readSys _ _ _ _ _)

theorem sound_execMcrSwincr (cond : BitVec 4) (rt : BitVec 4) (s : State) : SoundO s (execMcrSwincr cond rt s) := by
  unfold execMcrSwincr
  exact (sound_writeSys _ _ _ _ _ fun _ => ⟨rfl, rfl, rfl, rfl, rfl, fun _ => rfl, id⟩)

theorem sound_execMrcPmnxsel (cond : BitVec 4) (rt : BitVec 4) (s : State) : SoundO s (execMrcPmnxsel cond rt s) := by
  unfold execMrcPmnxsel
  exact (sound_readSys _ _ _ _ _)

theorem sound_execMcrPmnxsel (cond : BitVec 4) (rt : BitVec 4) (s : State) : SoundO s (execMcrPmnxsel cond rt s) := by
  unfold execMcrPmnxsel
  exact (sound_writeSys _ _ _ _ _ fun _ => ⟨rfl, rfl, rfl, rfl, rfl, fun _ => rfl, id⟩)

theorem sound_execMrcCcnt (cond : BitVec 4) (rt : BitVec 4) (s : State) : SoundO s (execMrcCcnt cond rt s) := by
  unfold execMrcCcnt
  exact (sound_readSys _ _ _ _ _)

theorem sound_execMcrCcnt (cond : BitVec 4) (rt : BitVec 4) (s : State) : SoundO s (execMcrCcnt cond rt s) := by
  unfold execMcrCcnt
  exact sound_withSys _ _ _ _ _ fun _ _ => sound_if (soundO_fault _) (sound_advance' ⟨rfl, rfl, rfl, rfl, rfl, fun _ => rfl, id⟩)

theorem sound_execMrcEvtsel (cond : BitVec 4) (rt : BitVec 4) (s : State) : SoundO s (execMrcEvtsel cond rt s) := by
  unfold execMrcEvtsel
  exact (sound_readSysMaybe _ _ _ _ _)

theorem sound_execMcrEvtsel (cond : BitVec 4) (rt : BitVec 4) (s : State) : SoundO s (execMcrEvtsel cond rt s) := by
  unfold execMcrEvtsel
  exact (sound_writeSys _ _ _ _ _ fun _ => (kept_onSelected s _))

theorem sound_execMrcPmcnt (cond : BitVec 4) (rt : BitVec 4) (s : State) : SoundO s (execMrcPmcnt cond rt s) := by
  unfold execMrcPmcnt
  exact (sound_readSysMaybe _ _ _ _ _)

theorem sound_execMcrPmcnt (cond : BitVec 4) (rt : BitVec 4) (s : State) : SoundO s (execMcrPmcnt cond rt s) := by
  unfold execMcrPmcnt
  exact (sound_writeSys _ _ _ _ _ fun _ => (kept_onSelected s _))

theorem sound_execMrcUseren (cond : BitVec 4) (rt : BitVec 4) (s : State) : SoundO s (execMrcUseren cond rt s) := by
  unfold execMrcUseren
  exact (sound_readSys _ _ _ _ _)

theorem sound_execMcrUseren (cond : BitVec 4) (rt : BitVec 4) (s : State) : SoundO s (execMcrUseren cond rt s) := by
  unfold execMcrUseren
  exact (sound_writeSys _ _ _ _ _ fun _ => ⟨rfl, rfl, rfl, rfl, rfl, fun _ => rfl, id⟩)

theorem sound_execMrcIntens (cond : BitVec 4) (rt : BitVec 4) (s : State) : SoundO s (execMrcIntens cond rt s) := by
  unfold execMrcIntens
  exact (sound_readSys _ _ _ _ _)

theorem sound_execMcrIntens (cond : BitVec 4) (rt : BitVec 4) (s : State) : SoundO s (execMcrIntens cond rt s) := by
  unfold execMcrIntens
  exact (sound_writeSys _ _ _ _ _ fun _ => ⟨rfl, rfl, rfl, rfl, rfl, fun _ => rfl, id⟩)

theorem sound_execMrcIntenc (cond : BitVec 4) (rt : BitVec 4) (s : State) : SoundO s (execMrcIntenc cond rt s) := by
  unfold execMrcIntenc
  exact (sound_readSys _ _ _ _ _)

theorem sound_execMcrIntenc (cond : BitVec 4) (rt : BitVec 4) (s : State) : SoundO s (execMcrIntenc cond rt s) := by
  unfold execMcrIntenc
  exact (sound_writeSys _ _ _ _ _ fun _ => ⟨rfl, rfl, rfl, rfl, rfl, fun _ => rfl, id⟩)

end Sys2Proof.Machine

end
end

