-- ==== Sys2Proof/Laws/StatusRegisters.lean ====
section
/-! SUPPORT. Reads and writes of CPSR and the SPSRs. -/

noncomputable section

namespace Sys2Proof.Machine

open Safety

theorem exec_onCond_skip {cond : BitVec 4} {s : State} (h : condPassed cond s = true) : onCond cond s (.next s.advance) = .next (skipped s) := by
  rw [onCond_pass h, State.advance_eq]

theorem setReg_wrote {s : State} {rd : BitVec 4} (h : rd ≠ 15) (v : Word) : (s.setReg rd v).advance = wrote s rd v := by
  rw [State.setReg_of_ne _ _ _ h, State.advance_eq]; rfl

theorem byteMask_bit : ∀ (m : BitVec 4) (i : Fin 32), (byteMask m).getLsbD i = m.getLsbD (i / 8) := by decide +kernel

theorem msrMask_bit0 : ∀ (p a f : Bool) (i : Fin 32), ((0xF80F0200 : Word) ||| 0 ||| (if p && a then 0x100 else 0) ||| (if p then 0x80 else 0) ||| (if p && f then 0x40 else 0)).getLsbD i = 
   (decide (27 ≤ i.val ∨ (16 ≤ i.val ∧ i.val < 20) ∨ i.val = 9) || (decide (i.val = 8) && p && a) || (decide (i.val = 7) && p) || (decide (i.val = 6) && p && f)) := by decide +kernel

theorem msrMask_bit (m : BitVec 4) (v : Word) (s : State) (hh : s.halted = false) (i : Nat) (hi : i < 32) : (msrMask m v s).getLsbD i = 
   ((decide (27 ≤ i ∨ (16 ≤ i ∧ i < 20) ∨ i = 9) || (decide (i = 8) && s.privileged && (s.secure || s.sys.scr.getLsbD 5)) || (decide (i = 7) && s.privileged) || (decide (i = 6) && s.privileged && s.mayWriteF (v.getLsbD 6))) && m.getLsbD (i / 8)) := by
  unfold msrMask
  have hp : s.mayWritePrivileged = s.privileged := by simp [State.mayWritePrivileged, hh]
  have ha : s.mayWriteA = (s.secure || s.sys.scr.getLsbD 5) := by simp [State.mayWriteA, hh]
  simp only [hp, ha, hh, Bool.false_eq_true, if_false]
  rw [BitVec.getLsbD_and, byteMask_bit m ⟨i, hi⟩, msrMask_bit0 s.privileged _ _ ⟨i, hi⟩]

theorem mayWriteF_iff {s : State} (hh : s.halted = false) (v : Bool) : s.mayWriteF v = true ↔ maskWritable s 6 v = true := by
  unfold State.mayWriteF maskWritable
  rw [if_neg (by decide), hh]
  cases s.secure <;> cases s.sys.scr.getLsbD 4 <;> cases s.cur.sctlr.getLsbD 27 <;> cases v <;> simp

theorem mayWriteA_iff {s : State} (hh : s.halted = false) (v : Bool) : s.mayWriteA = true ↔ maskWritable s 8 v = true := by
  unfold State.mayWriteA maskWritable
  rw [if_pos rfl, hh]
  cases s.secure <;> cases s.sys.scr.getLsbD 5 <;> simp

theorem priv_iff {s : State} : s.privileged = true ↔ s.mode ≠ .usr := by simp [State.privileged]

theorem afterCpsrWrite_run {s : State} (h : s.halted = false) (c : Word) (l : Bool) : (afterCpsrWrite { s with cpsr := c, monitorLeft := l }).advance = { s with cpsr := c, pc := nextPc s, monitorLeft := l } := by
  rw [afterCpsrWrite, if_neg (by show ¬ s.halted = true; rw [h]; decide), State.advance_eq]; rfl

/-- A change of mode outside debug state. -/
theorem afterModeChange_run {s : State} (h : s.halted = false) (c : Word) :
    State.afterModeChange s { s with cpsr := c } = { s with cpsr := c, monitorLeft := leavesMonitor s c } := by
  have hm : ({ s with cpsr := c } : State).mode ≠ .mon ↔ Mode.ofBits (c.extractLsb' 0 5) ≠ some .mon := by
    unfold State.mode
    dsimp only
    cases Mode.ofBits (c.extractLsb' 0 5) <;> simp
  unfold State.afterModeChange leavesMonitor
  have hh : ({ s with cpsr := c } : State).halted = false := h
  simp only [hm, hh]
  by_cases h1 : s.mode = .mon <;> by_cases h2 : Mode.ofBits (c.extractLsb' 0 5) = some .mon <;>
    cases h3 : s.sys.scr.getLsbD 0 <;> simp [h1, h2]

/-- Without a change of mode nothing begins. -/
theorem leavesMonitor_same {s : State} {c : Word} (h : c.extractLsb' 0 5 = s.cpsr.extractLsb' 0 5) :
    leavesMonitor s c = s.monitorLeft := by
  unfold leavesMonitor
  rw [h]
  cases hm : Mode.ofBits (s.cpsr.extractLsb' 0 5) with
  | none => simp [State.mode, hm]
  | some m => cases m <;> simp [State.mode, hm]

/-- Outside debug state MSR writes CPSR under its mask. -/
theorem msrValue_run {s : State} (h : s.halted = false) (m : BitVec 4) (v : Word) :
    msrValue m v s = mergeBits s.cpsr v (msrMask m v s) := by
  unfold msrValue
  rw [h]; rfl

theorem newMode_run {s : State} (h : s.halted = false) (m : BitVec 5) : s.newModeBits m = if Mode.ofBits m = none then none else some (if Mode.ofBits m = some .mon ∧ s.secure = false then s.cpsr.extractLsb' 0 5 else m) := by
  have hmon : s.mayEnterMonitor = s.secure := by simp [State.mayEnterMonitor, h]
  unfold State.newModeBits
  cases hm : Mode.ofBits m with
  | none => rfl
  | some x =>
    rw [if_neg (by simp : ¬ some x = none), hmon]
    cases x <;> simp
    split <;> simp_all

theorem statusWritten (s : State) (hh : s.halted = false) (m : BitVec 4) (v : Word) (c : Word)
   (hc : ∀ i, 5 ≤ i → i < 32 → c.getLsbD i = if (msrMask m v s).getLsbD i then v.getLsbD i else s.cpsr.getLsbD i)
   (hm : c.extractLsb' 0 5 =
    if m.getLsbD 0 = true ∧ s.mode ≠ .usr ∧ ¬ (Mode.ofBits (v.extractLsb' 0 5) = some .mon ∧ s.secure = false)
    then v.extractLsb' 0 5 else s.cpsr.extractLsb' 0 5) : StatusWritten s m v c := by
  have hb (i : Nat) (h : i < 32) := msrMask_bit m v s hh i h
  refine ⟨?_, ?_, ?_, ?_, ?_, ?_, hm, ?_⟩
  · intro i h1 h2
    rw [hc i (by omega) h2, hb i h2]
    have : i / 8 = 3 := by omega
    rw [this, decide_eq_true (Or.inl h1)]; simp
  · intro i h1 h2
    rw [hc i (by omega) (by omega), hb i (by omega)]
    have : i / 8 = 2 := by omega
    rw [this, decide_eq_true (Or.inr (Or.inl ⟨h1, h2⟩))]; simp
  · rw [hc 9 (by omega) (by omega), hb 9 (by omega)]; simp
  · rw [hc 8 (by omega) (by omega), hb 8 (by omega), ← mayWriteA_iff hh, ← priv_iff]
    have ha : s.mayWriteA = (s.secure || s.sys.scr.getLsbD 5) := by simp [State.mayWriteA, hh]
    rw [← ha]
    cases m.getLsbD 1 <;> cases s.privileged <;> cases s.mayWriteA <;> simp_all
  · rw [hc 7 (by omega) (by omega), hb 7 (by omega), ← priv_iff]
    cases m.getLsbD 0 <;> cases s.privileged <;> simp_all
  · rw [hc 6 (by omega) (by omega), hb 6 (by omega), ← mayWriteF_iff hh, ← priv_iff]
    cases m.getLsbD 0 <;> cases s.privileged <;> cases s.mayWriteF (v.getLsbD 6) <;> simp_all
  · intro i hi h
    rw [hc i (by omega) hi, hb i hi]
    rw [decide_eq_false (by omega : ¬ (27 ≤ i ∨ (16 ≤ i ∧ i < 20) ∨ i = 9)), decide_eq_false (by omega : ¬ i = 8), decide_eq_false (by omega : ¬ i = 7), decide_eq_false (by omega : ¬ i = 6)]
    simp

theorem extract_bits (w : Word) : (∀ i, i < 5 → w.getLsbD i = (w.extractLsb' 0 5).getLsbD i) := by
  intro i hi; rw [BitVec.getLsbD_extractLsb']; simp [-BitVec.getLsbD_eq_getElem, hi]

theorem writeCpsr_spec (s : State) (hh : s.halted = false) (m : BitVec 4) (v : Word) :
    if m.getLsbD 0 = true ∧ s.mode ≠ .usr ∧ Mode.ofBits (v.extractLsb' 0 5) = none then writeCpsr m v s = .fault .illegalMode
      else ∃ c, writeCpsr m v s = .next { s with cpsr := c, pc := nextPc s, monitorLeft := leavesMonitor s c } ∧ StatusWritten s m v c := by
  have hp : s.mayWritePrivileged = s.privileged := by simp [State.mayWritePrivileged, hh]
  unfold writeCpsr
  simp only [hp, Bool.and_eq_true, priv_iff, newMode_run hh, msrValue_run hh, afterModeChange_run hh]
  by_cases h : m.getLsbD 0 = true ∧ s.mode ≠ .usr
  · rw [if_pos h]
    by_cases hn : Mode.ofBits (v.extractLsb' 0 5) = none
    · rw [if_pos ⟨h.1, h.2, hn⟩, if_pos hn]
    · rw [if_neg (fun x => hn x.2.2), if_neg hn]
      refine ⟨_, congrArg Host.Outcome.next (afterCpsrWrite_run hh _ _), statusWritten s hh m v _ ?_ ?_⟩
      · intro i h5 hi
        rw [getLsbD_setBits _ _ _ _ (by decide), if_neg (by omega), getLsbD_mergeBits]
      · rw [extract_setBits_same _ _ _ (by decide)]
        by_cases hm : Mode.ofBits (v.extractLsb' 0 5) = some .mon ∧ s.secure = false
        · rw [if_pos hm, if_neg (fun x => x.2.2 hm)]
        · rw [if_neg hm, if_pos ⟨h.1, h.2, hm⟩]
  · rw [if_neg h, if_neg (fun x => h ⟨x.1, x.2.1⟩)]
    have hm : (mergeBits s.cpsr v (msrMask m v s)).extractLsb' 0 5 = s.cpsr.extractLsb' 0 5 := by
      apply BitVec.eq_of_getLsbD_eq
      intro i hi
      rw [BitVec.getLsbD_extractLsb', BitVec.getLsbD_extractLsb', getLsbD_mergeBits, msrMask_bit m v s hh _ (by omega)]
      have : decide (27 ≤ 0 + i ∨ 16 ≤ 0 + i ∧ 0 + i < 20 ∨ 0 + i = 9) = false := by simp; omega
      rw [this, decide_eq_false (by omega : ¬ 0 + i = 8), decide_eq_false (by omega : ¬ 0 + i = 7), decide_eq_false (by omega : ¬ 0 + i = 6)]
      simp
    refine ⟨_, ?_, statusWritten s hh m v (mergeBits s.cpsr v (msrMask m v s)) ?_ ?_⟩
    · rw [leavesMonitor_same hm]
      exact congrArg Host.Outcome.next (afterCpsrWrite_run hh _ s.monitorLeft)
    · intro i h5 hi
      rw [getLsbD_mergeBits]
    · rw [if_neg (fun x => h ⟨x.1, x.2.1⟩)]
      exact hm

theorem writeSpsr_spec (s : State) (m : BitVec 4) (v : Word) : (s.spsr? = none → writeSpsr m v s = .fault .operands) ∧
      (∀ k, s.mode.spsrNo = some k → ∃ x : Word, writeSpsr m v s = .next { s with spsr := s.spsr.set k x k.isLt, pc := nextPc s } ∧
        ∀ i < 32, x.getLsbD i = if m.getLsbD (i / 8) then v.getLsbD i else s.spsr[k].getLsbD i) := by
  refine ⟨fun h => by rw [writeSpsr, h], fun k hk => ⟨mergeBits s.spsr[k] v (byteMask m), ?_, ?_⟩⟩
  · have : s.spsr? = some s.spsr[k] := by rw [State.spsr?, hk]; rfl
    rw [writeSpsr, this]
    show Host.Outcome.next _ = _
    rw [State.advance_eq, State.setSpsr, hk]; rfl
  · intro i hi
    rw [getLsbD_mergeBits, byteMask_bit m ⟨i, hi⟩]

theorem expandImm_fst (imm12 : BitVec 12) (c d : Bool) : (expandImmC imm12 c).1 = (expandImmC imm12 d).1 := rfl

theorem isSet_iff (b : BitVec 1) : isSet b = true ↔ b = 1 := by revert b; decide

theorem alignedReq_size (p wr : Bool) : (alignedReq 4 p wr).size = 4 ∧ (alignedReq 4 p wr).align = 4 := ⟨rfl, rfl⟩

theorem add4_mod {a : Word} (h : a.toNat % 4 = 0) : (a + 4).toNat % 4 = 0 := by
  rw [BitVec.toNat_add]; have : (4 : Word).toNat = 4 := rfl; omega

theorem finish_of {α : Type} {x : Acc α} {v : α} {s' : State} {k : α → State → Host.Outcome State Fault Refusal} (h : x = .ok v s') : finish x k = k v s' := by rw [h]; rfl

end Sys2Proof.Machine

end
end

