-- ==== Sys2Proof/Laws/Turns.lean ====
section
/-! SUPPORT. The turn of the core, the fetch, and the walk through a section. -/

noncomputable section

namespace Sys2Proof.Machine

open Safety

theorem afterwards_next (s : State) (f : State → State) : afterwards (.next s) f = .next (f s) := rfl

theorem haltCauses_quiet {s : State} (h : s.pins.dbgen = false) : haltCauses s = [] := by
  unfold haltCauses State.invasivePermitted
  rw [h]; rfl

theorem softCauses_quiet {s : State} (h : s.pins.dbgen = false) : softCauses s = ([], s) := by
  unfold softCauses State.debugResponse State.invasivePermitted
  rw [h]; rfl

theorem step_turn {s : State} (h : Turn s) : step s = afterwards (boundary s) settleDebug := by
  unfold step oneStep
  rw [h.alone]
  unfold coreStep coreTurn
  simp only [h.notHeld, h.powered, h.notHalted, Bool.not_true, Bool.or_false, h.running, h.noItr, h.clock, Bool.false_eq_true, if_false, Bool.false_and, reduceCtorEq, false_and]

theorem fiqDue_eq (s : State) : s.fiqDue = due s s.pins.fiq 6 := rfl

theorem irqDue_eq (s : State) : s.irqDue = due s s.pins.irq 7 := rfl

theorem step_fetch {s : State} (h : Turn s) (hf : due s s.pins.fiq 6 = false) (hi : due s s.pins.irq 7 = false)
    (ht : s.cpsr.getLsbD 5 = false) (hj : s.cpsr.getLsbD 24 = false) : step s = afterwards (fetchStep s) settleDebug := by
  rw [step_turn h]
  unfold boundary
  rw [haltCauses_quiet h.noDebug, fiqDue_eq, irqDue_eq, hf, hi, ht, hj]
  rfl

theorem fetchStep_quiet {s : State} (h : s.pins.dbgen = false) : fetchStep s =
    match fetchChecked s.pc s with
    | .stop e => .fault e
    | .abort a s1 => .next (countStep s1 false (takePrefetchAbort a s1))
    | .ok w s1 =>
      match s1.abortDue with
      | some k => .next (countStep s1 false (takeImpreciseAbort k s1))
      | none => execute w s1 := by
  unfold fetchStep
  rw [softCauses_quiet h]
  dsimp only
  generalize fetchChecked s.pc s = a
  cases a <;> rfl

theorem fetchByte_direct {s : State} (hl : s.l1i = []) (h2 : s.l2 = []) (r : Route) (va : Word) (ns : Bool) (pa : Word) :
    fetchByte s r va ns pa = ⟨memRead s.mem (memKey ns pa), true⟩ := by
  unfold fetchByte belowL1
  rw [hl, h2]
  cases r.l1 <;> cases r.l2 <;> rfl

/-- With no store late a byte for execution or for the walker is what memory and the caches hold. -/
theorem prefetched_nil {s : State} (h : s.late = []) (r : Route) (va : Word) (ns : Bool) (pa : Word) :
    prefetched s r va ns pa = fetchByte s r va ns pa := by
  unfold prefetched
  rw [h]; rfl

theorem walkByte_nil {s : State} (h : s.late = []) (l2 ns : Bool) (pa : Word) : walkByte s l2 ns pa = belowL1 s l2 ns pa := by
  unfold walkByte
  rw [h]; rfl

theorem fetch_direct {s : State} (h : Direct s) (hl : s.l1i = []) (h2 : s.l2 = []) (hn : s.late = []) :
    fetchChecked s.pc s = .ok (BitVec.ofNat 32 (numberLE (bytesAt s s.pc 4))) s := by
  have tr : translate s s.secure s.privileged .fetch (mvaOf s.cur s.pc) = .ok (flat s s.secure .fetch (mvaOf s.cur s.pc)) s := by
    unfold translate
    rw [if_pos (by rw [show (s.bank s.secure) = s.cur from rfl, h.mmuOff]; rfl)]
  have hits : fetchHits s.pc s = none := by
    unfold fetchHits findLine
    rw [tr]
    simp only [hl, h2]
    simp
  unfold fetchChecked fetchWord
  rw [tr, hits]
  simp only [Acc.bind, prefetched_nil hn, lateChosen_nil hn, fetchByte_direct hl h2]
  rw [show busError s (flat s s.secure .fetch (mvaOf s.cur s.pc)).ns (flat s s.secure .fetch (mvaOf s.cur s.pc)).pa false = none from
    busError_none h.noError h.noPort _ _ _]
  have e (o : Option Bool) (x : Word) (l r : Bool → Acc Word) : (match o with
      | none => Acc.ok x s
      | some c => if (none : Option Bool) ≠ some c ∨ (c && !s.build.l2Parity) = true then .ok x s
          else if s.parityReported c = true then l c else r c) = .ok x s := by
    cases o with
    | none => rfl
    | some c => exact if_pos (.inl (by simp))
  simp only [ite_self, List.map_map]
  refine (e _ _ _ _).trans ?_
  rw [fromLE_eq]
  rfl

theorem sectionEntry_plain (s : State) (secure : Bool) (mva d : Word) (h18 : d.getLsbD 18 = false)
    (ha : (s.bank secure).sctlr.getLsbD 29 = false) : ∃ e, sectionEntry s secure mva d = .ok e ∧
      e.size = .sec ∧ e.pa = d.extractLsb' 12 20 ∧ e.ns = (!secure || d.getLsbD 19) ∧ e.domain = d.extractLsb' 5 4 ∧
      e.ap = d.extractLsb' 15 1 ++ d.extractLsb' 10 2 ∧ e.xn = d.getLsbD 4 ∧ e.sectionLevel = true := by
  unfold sectionEntry accessFlagFault
  simp only [h18, ha, Bool.false_and, Bool.false_eq_true, if_false]
  exact ⟨_, rfl, rfl, rfl, rfl, rfl, rfl, rfl, rfl⟩

theorem l1Address_plain (b : Banked) (mva : Word) (h : b.ttbcr = 0) :
    l1Address b mva = b.ttbr0.extractLsb' 14 18 ++ mva.extractLsb' 20 12 ++ 0#2 := by
  unfold l1Address usesTtbr1
  rw [h]
  show (if false = true then _ else _) = _
  rw [if_neg (by decide)]
  show ((b.ttbr0 >>> 14 <<< 14) ||| ((mva >>> 20) <<< 2)) = _
  refine BitVec.eq_of_getLsbD_eq fun i hi => ?_
  simp only [BitVec.getLsbD_or, BitVec.getLsbD_shiftLeft, BitVec.getLsbD_ushiftRight, BitVec.getLsbD_append, BitVec.getLsbD_extractLsb', BitVec.getLsbD_zero]
  by_cases h1 : i < 2
  · simp [h1, show i < 14 by omega]
  · by_cases h2 : i < 14
    · simp [h1, h2, hi, show i - 2 < 12 by omega]
    · have e1 : 14 + (i - 14) = i := by omega
      have e2 : 14 + (i - 2 - 12) = i := by omega
      have e3 : mva.getLsbD (20 + (i - 2)) = false := BitVec.getLsbD_of_ge _ _ (by omega)
      simp [h1, h2, hi, show ¬ (i - 2 < 12) by omega, show i - 2 - 12 < 18 by omega, e1, e2, e3]

theorem fromLE_four (a b c d : Byte) : fromLE [a, b, c, d] = d ++ c ++ b ++ a := by
  simp only [fromLE]
  refine BitVec.eq_of_getLsbD_eq fun i hi => ?_
  simp only [BitVec.getLsbD_or, BitVec.getLsbD_shiftLeft, BitVec.getLsbD_setWidth, BitVec.getLsbD_append]
  have g (x : Byte) (k : Nat) (h : 8 ≤ k) : x.getLsbD k = false := BitVec.getLsbD_of_ge _ _ h
  by_cases h1 : i < 8
  · simp [h1, hi]
  · by_cases h2 : i < 16
    · simp [h1, hi, g a i (by omega), show i - 8 < 8 by omega, show i - 8 < 32 by omega]
    · by_cases h3 : i < 24
      · simp [h1, hi, g a i (by omega), g b (i - 8) (by omega), show ¬ i - 8 < 8 by omega, show i - 8 - 8 < 8 by omega, show i - 8 < 32 by omega, show i - 8 - 8 < 32 by omega]
      · simp [h1, hi, g a i (by omega), g b (i - 8) (by omega), g c (i - 8 - 8) (by omega), show ¬ i - 8 < 8 by omega, show ¬ i - 8 - 8 < 8 by omega, show i - 8 < 32 by omega, show i - 8 - 8 < 32 by omega, show i - 8 - 8 - 8 < 32 by omega]

theorem permits_eq : ∀ (ap : BitVec 3) (xn priv : Bool) (k : XKind),
    permits ap xn priv k = !(match k with
      | .write => permOf false ap priv != .readWrite
      | .read => permOf false ap priv == .none
      | .fetch => permOf false ap priv == .none || xn) := by
  intro ap xn priv k; cases k <;> cases xn <;> cases priv <;> revert ap <;> decide

theorem belowL1_off (s : State) (ns : Bool) (pa : Word) : belowL1 s false ns pa = ⟨memRead s.mem (memKey ns pa), true⟩ := rfl

theorem walkRead_plain {s : State} {secure ns : Bool} (ttbr : Word) (second : Bool) (pa : Word) (hn : s.late = []) (hp : NoPort s) (hc : (s.bank secure).sctlr.getLsbD 2 = false)
    (he : (s.bank secure).sctlr.getLsbD 25 = false) (hb : s.bus = []) :
    let m (i : Nat) : Byte := memRead s.mem (memKey ns (pa + BitVec.ofNat 32 i))
    walkRead s secure ttbr second ns pa = .ok (m 3 ++ m 2 ++ m 1 ++ m 0) := by
  have hr : walkRoute s secure ttbr = false := by unfold walkRoute State.l2OnIn; rw [hc]; simp only [Bool.false_and, Bool.and_false]
  intro m
  unfold walkRead
  rw [hr, he]
  dsimp only
  rw [show (List.range 4).map (fun i => walkByte s false ns (pa + BitVec.ofNat 32 i)) =
    (List.range 4).map fun i => ⟨m i, true⟩ from List.map_congr_left fun i _ => walkByte_nil hn _ _ _]
  rw [busError_none hb hp, if_pos (by rfl)]
  dsimp only
  rw [← fromLE_four]
  rfl

theorem walk_plain {s : State} {secure : Bool} {mva : Word} (hp : (s.bank secure).ttbcr = 0)
    (hc : (s.bank secure).sctlr.getLsbD 2 = false) (he : (s.bank secure).sctlr.getLsbD 25 = false) (hb : s.bus = []) (hn : s.late = []) (ho : NoPort s) :
    let at' (i : Nat) : Byte := memRead s.mem (memKey (!secure)
      (((s.bank secure).ttbr0.extractLsb' 14 18 ++ mva.extractLsb' 20 12 ++ 0#2) + BitVec.ofNat 32 i))
    let d : Word := at' 3 ++ at' 2 ++ at' 1 ++ at' 0
    (d.extractLsb' 0 2 = 0 ∨ d.extractLsb' 0 2 = 3 → walk s secure mva = .error (.mmu 0b00101 none)) ∧
    (d.extractLsb' 0 2 = 2 → walk s secure mva = sectionEntry s secure mva d) := by
  intro at' d
  have w := walkRead_plain (s := s) (secure := secure) (ns := !secure) (ttbrOf (s.bank secure) mva) false
    (l1Address (s.bank secure) mva) hn ho hc he hb
  rw [l1Address_plain _ _ hp] at w
  have e : walk s secure mva = match (d.extractLsb' 0 2).toNat with
      | 1 =>
        match walkRead s secure (ttbrOf (s.bank secure) mva) true (!secure || d.getLsbD 3) (l2Address d mva) with
        | .error e => .error (e.fault true)
        | .ok d2 => pageEntry s secure mva d d2
      | 2 => sectionEntry s secure mva d
      | _ => .error (.mmu 0b00101 none) := by
    unfold walk
    dsimp only
    rw [if_neg (by unfold walkOff; rw [hp]; split <;> simp), l1Address_plain _ _ hp, w] <;> rfl
  refine ⟨fun h => ?_, fun h => ?_⟩
  · rw [e]
    rcases h with h | h <;> rw [h] <;> rfl
  · rw [e, h]; rfl

theorem output_section {e : TlbEntry} {d mva : Word} (hs : e.size = .sec) (hp : e.pa = d.extractLsb' 12 20) :
    e.output mva = d.extractLsb' 20 12 ++ mva.extractLsb' 0 20 := by
  unfold TlbEntry.output
  rw [hs, hp]
  show ((d.extractLsb' 12 20 ++ 0#12) >>> 20 <<< 20) ||| (mva &&& 0xFFFFF#32) = _
  refine BitVec.eq_of_getLsbD_eq fun i hi => ?_
  have m : (0xFFFFF#32).getLsbD i = decide (i < 20) := by
    interval_cases i <;> rfl
  simp only [BitVec.getLsbD_or, BitVec.getLsbD_and, BitVec.getLsbD_shiftLeft, BitVec.getLsbD_ushiftRight, BitVec.getLsbD_append, BitVec.getLsbD_extractLsb', BitVec.getLsbD_zero, m]
  by_cases h : i < 20
  · simp [h]
  · have e1 : 20 + (i - 20) = i := by omega
    simp [h, hi, e1, show ¬ i < 12 by omega, show 12 + (i - 12) = i by omega, show i - 12 < 20 by omega, show i - 20 < 12 by omega]

theorem filled (data : Bool) (e : TlbEntry) (s : State) : FilledTlb s (allocateTlb data e s).drawn := by
  unfold FilledTlb allocateTlb State.drawn
  cases data <;> rfl

end Sys2Proof.Machine

end
end

