-- ==== Sys2Proof/Tests/Slice0.lean ====
section
/-! SUPPORT. Tests: ill-formed instructions, a word for every constructor written from its encoding, single steps from
the vectors of the spec, and witnesses for the hypotheses of the statements. -/

set_option Elab.async false
set_option maxRecDepth 20000

noncomputable section

namespace Sys2Proof.Tests

open Sys2Proof.Machine Sys2Proof.Safety

/-! ## Ill-formed instructions

Every constructor with a condition refuses the condition 0b1111 (R1353); then each other check of `Instr.wf`. -/

theorem test_ill_formed_condition_1 :
    ∀ i ∈ ([.mrs 15 0 8, .msrCpsrReg 15 11 9, .msrSpsrReg 15 4 11, .bx 15 3, .bxj 15 2, .blxReg 15 1,
      .clz 15 12 4, .qadd 15 10 8 12, .qsub 15 8 5 11, .qdadd 15 7 3 4, .qdsub 15 10 2 11, .bkpt 15 0x506 12,
      .smc 15 11, .smlabb 15 8 10 12 4, .smlabt 15 3 7 11 6, .smlatb 15 11 2 10 12, .smlatt 15 6 4 1 8, .smlawb 15 4 6 1 10,
      .smlawt 15 7 5 9 3, .smulwb 15 7 2 4, .smulwt 15 11 1 5, .smlalbb 15 3 6 2 1, .smlalbt 15 13 7 6 3, .smlaltb 15 7 4 3 10,
      .smlaltt 15 8 7 9 2, .smulbb 15 2 6 3] : List Instr) ++
     ([.smulbt 15 2 12 3, .smultb 15 9 10 6, .smultt 15 13 9 8, .swp 15 3 11 2, .swpb 15 1 4 8, .ldrex 15 11 10,
      .ldrexd 15 12 5, .ldrexb 15 6 7, .ldrexh 15 11 8, .strex 15 1 11 2, .strexd 15 13 10 3, .strexb 15 6 8 10,
      .strexh 15 2 5 12, .mul 15 1 13 8 3, .mla 15 0 2 11 9 4, .umaal 15 8 10 2 11, .mls 15 7 6 10 4, .umull 15 0 1 9 3 4,
      .umlal 15 0 12 10 11 1, .smull 15 1 7 10 2 13, .smlal 15 0 9 4 7 12, .strhtImm 15 0 1 6 12 7, .strhtReg 15 0 12 6 8, .ldrhtImm 15 1 2 10 8 7,
      .ldrhtReg 15 1 9 5 13, .ldrsbtImm 15 1 13 5 12 2] : List Instr) ++
     ([.ldrsbtReg 15 1 6 8 12, .ldrshtImm 15 1 4 6 9 13, .ldrshtReg 15 1 11 10 12, .strhImm 15 1 0 1 9 10 2 6, .strhReg 15 1 1 1 7 2 12, .ldrhImm 15 1 1 1 11 7 4 8,
      .ldrhReg 15 0 1 0 4 11 10, .ldrsbImm 15 1 1 1 13 2 3 9, .ldrsbReg 15 0 0 0 10 4 13, .ldrshImm 15 1 0 1 8 12 5 13, .ldrshReg 15 0 1 0 2 4 13, .ldrdImm 15 1 0 0 12 1 11 7,
      .ldrdReg 15 1 1 1 2 10 3, .strdImm 15 1 1 0 3 6 9 4, .strdReg 15 0 0 0 2 6 4, .movw 15 12 4 0x1bf, .movt 15 1 10 0xc96, .nop 15,
      .yield 15, .wfe 15, .wfi 15, .sev 15, .dbg 15 6, .hintOther 15 0x5a,
      .msrCpsrImm 15 4 0xbc8, .msrSpsrImm 15 8 0x1c7] : List Instr) ++
     ([.andImm 15 0 3 13 0x220, .andReg 15 1 4 8 6 1 3, .andRsr 15 1 1 13 9 3 12, .eorImm 15 1 7 11 0xafd, .eorReg 15 1 12 10 0x17 2 6, .eorRsr 15 0 5 6 13 2 3,
      .subImm 15 1 8 12 0xf8c, .subReg 15 1 13 4 0x13 3 8, .subRsr 15 0 8 12 9 1 5, .rsbImm 15 0 1 7 0x81c, .rsbReg 15 1 7 13 1 3 3, .rsbRsr 15 0 2 4 10 3 5,
      .addImm 15 1 10 12 0x943, .addReg 15 0 6 10 2 3 13, .addRsr 15 1 2 7 13 1 10, .adcImm 15 0 11 4 0x7a2, .adcReg 15 1 6 8 12 3 13, .adcRsr 15 0 12 3 13 3 7,
      .sbcImm 15 0 4 10 0x5c5, .sbcReg 15 1 8 10 6 2 3, .sbcRsr 15 1 13 1 9 3 6, .rscImm 15 1 8 5 0x4a3, .rscReg 15 1 8 12 0x15 1 9, .rscRsr 15 1 6 3 12 3 2,
      .tstImm 15 12 0x99c, .tstReg 15 8 12 2 11] : List Instr) ++
     ([.tstRsr 15 4 10 3 12, .teqImm 15 13 0x257, .teqReg 15 1 3 3 12, .teqRsr 15 5 4 1 13, .cmpImm 15 5 0xf2a, .cmpReg 15 13 7 1 1,
      .cmpRsr 15 8 13 1 6, .cmnImm 15 1 0xfa2, .cmnReg 15 12 1 3 3, .cmnRsr 15 5 12 2 1, .orrImm 15 0 6 7 0xdad, .orrReg 15 1 4 1 0x1c 3 3,
      .orrRsr 15 0 8 13 7 1 9, .movImm 15 0 2 0x256, .movReg 15 1 10 14 3 1, .movRsr 15 1 12 11 1 1, .bicImm 15 0 13 8 0x50b, .bicReg 15 0 4 1 13 3 7,
      .bicRsr 15 1 9 5 12 1 8, .mvnImm 15 0 12 0xb16, .mvnReg 15 0 4 4 3 9, .mvnRsr 15 1 4 12 1 8, .lslImm 15 1 8 0x1c 11, .lslReg 15 0 10 3 9,
      .lsrImm 15 0 9 0x1a 6, .lsrReg 15 0 9 4 5] : List Instr), i.wf = false := by decide +kernel

theorem test_ill_formed_condition_2 :
    ∀ i ∈ ([.asrImm 15 0 6 0x17 3, .asrReg 15 1 2 9 7, .rorImm 15 0 11 8 13, .rorReg 15 1 1 7 9, .rrx 15 1 2 3, .adrAdd 15 11 0xdb6,
      .adrSub 15 11 0xdbb, .ldrtImm 15 1 10 1 0x7cd, .ldrtReg 15 0 1 2 0x1f 3 12, .strtImm 15 1 6 13 0x7bf, .strtReg 15 0 10 3 4 1 9, .ldrbtImm 15 0 9 1 0x32d,
      .ldrbtReg 15 0 1 7 12 2 8, .strbtImm 15 1 10 3 0xf6f, .strbtReg 15 1 11 1 0x10 2 12, .ldrImm 15 1 0 1 8 10 0x796, .ldrReg 15 1 1 0 8 10 6 2 3, .strImm 15 1 1 0 11 7 0x9b6,
      .strReg 15 1 0 1 8 5 0x17 1 10, .ldrbImm 15 0 1 0 9 2 0x2ea, .ldrbReg 15 1 1 0 12 4 15 1 8, .strbImm 15 1 1 0 9 10 0x7dc, .strbReg 15 1 0 1 12 6 9 2 2, .sadd16 15 10 8 2,
      .sasx 15 3 1 8, .ssax 15 7 9 6] : List Instr) ++
     ([.ssub16 15 9 13 7, .sadd8 15 2 8 10, .ssub8 15 11 7 3, .qadd16 15 2 13 4, .qasx 15 8 4 6, .qsax 15 9 12 3,
      .qsub16 15 9 1 7, .qadd8 15 6 2 4, .qsub8 15 6 10 8, .shadd16 15 5 3 6, .shasx 15 1 11 3, .shsax 15 3 5 2,
      .shsub16 15 13 3 12, .shadd8 15 8 5 11, .shsub8 15 2 9 6, .uadd16 15 7 9 10, .uasx 15 6 9 4, .usax 15 1 11 13,
      .usub16 15 1 10 12, .uadd8 15 11 13 7, .usub8 15 12 5 7, .uqadd16 15 11 12 3, .uqasx 15 2 10 9, .uqsax 15 9 1 2,
      .uqsub16 15 2 7 4, .uqadd8 15 6 7 11] : List Instr) ++
     ([.uqsub8 15 9 6 2, .uhadd16 15 11 4 10, .uhasx 15 5 2 13, .uhsax 15 7 1 5, .uhsub16 15 2 8 7, .uhadd8 15 9 5 4,
      .uhsub8 15 6 7 11, .pkhbt 15 13 9 6 11, .pkhtb 15 13 11 0x15 5, .sel 15 1 13 6, .ssat 15 0x1b 1 0x11 0 11, .usat 15 0x1a 5 0x12 0 6,
      .ssat16 15 9 11 4, .usat16 15 3 13 1, .sxtb16 15 9 3 3, .sxtab16 15 5 9 3 13, .sxtb 15 6 3 5, .sxtab 15 11 3 2 9,
      .sxth 15 10 3 4, .sxtah 15 9 12 3 10, .uxtb16 15 2 3 6, .uxtab16 15 13 11 1 5, .uxtb 15 9 1 5, .uxtab 15 1 11 2 8,
      .uxth 15 11 3 10, .uxtah 15 4 1 3 2] : List Instr) ++
     ([.rev 15 13 11, .rev16 15 1 7, .rbit 15 6 10, .revsh 15 11 4, .smuad 15 7 10 12, .smusd 15 8 9 5,
      .smuadx 15 12 9 11, .smusdx 15 7 9 2, .smlad 15 7 10 6 9, .smlsd 15 8 10 7 13, .smlald 15 1 10 13 5, .smlsld 15 4 10 3 9,
      .smladx 15 6 4 7 12, .smlsdx 15 13 9 1 6, .smlaldx 15 7 8 11 5, .smlsldx 15 8 6 1 11, .smmul 15 4 11 3, .smmulr 15 3 13 4,
      .smmla 15 4 5 1 10, .smmls 15 9 4 12 2, .smmlar 15 11 5 6 1, .smmlsr 15 12 8 2 7, .usad8 15 2 11 10, .usada8 15 5 12 2 13,
      .sbfx 15 0x1b 3 0x16 13, .ubfx 15 0x15 2 12 6] : List Instr) ++
     ([.bfc 15 0x18 5 5, .bfi 15 0x1f 11 0x1d 10, .udf 15 0xe08 11, .popMulti 15 0xb35f, .pushMulti 15 0xc117, .ldm 15 0 0 1 8 0xfd3f,
      .stm 15 1 0 0 6 0x9737, .ldmExcRet 15 1 1 1 9 0x3483, .ldmUser 15 1 1 2 0x99f, .stmUser 15 1 0 12 0x8773, .b 15 0xe07b7, .bl 15 0x4b09ba,
      .svc 15 0x4ef310, .mrcDscrFlags 15, .mrcDidr 15 5, .mrcDrar 15 1, .mrcDsar 15 1, .mrcDscr 15 13,
      .mrcDtr 15 1, .mcrDtr 15 4, .mrcTeecr 15 9, .mcrTeecr 15 13, .mrcTeehbr 15 2, .mcrTeehbr 15 10,
      .mrcJidr 15 10, .mrcJoscr 15 3] : List Instr), i.wf = false := by decide +kernel

theorem test_ill_formed_condition_3 :
    ∀ i ∈ ([.mcrJoscr 15 8, .mrcJmcr 15 12, .mcrJmcr 15 2, .ldcDtr 15 1 0 1 1 0x8e, .stcDtr 15 0 1 0 5 13, .p14DebugOther 15 1 3 6 5 6,
      .p14TeeOther 15 0 2 5 3 1, .p14Other 15 3 1 9 9 2 4, .fmstat 15, .vmrsFpsid 15 8, .vmsrFpsid 15 4, .vmrsFpscr 15 1,
      .vmsrFpscr 15 4, .vmrsMvfr1 15 5, .vmsrMvfr1 15 2, .vmrsMvfr0 15 9, .vmsrMvfr0 15 5, .vmrsFpexc 15 7,
      .vmsrFpexc 15 11, .vfpSysOther 15 1 9 3, .vfpData 15 0x3a5 10 3, .vfpTransfer 15 0xa5 12 0, .vfpLoadStore 15 0x1d31 0xa4, .mrcMidr 15 7,
      .mrcMidr4 15 12, .mrcMidr6 15 6] : List Instr) ++
     ([.mrcMidr7 15 8, .mrcCtr 15 8, .mrcTcmtr 15 8, .mrcTlbtr 15 2, .mrcMpidr 15 7, .mrcIdPfr0 15 7,
      .mrcIdPfr1 15 7, .mrcIdDfr0 15 5, .mrcIdAfr0 15 8, .mrcIdMmfr0 15 12, .mrcIdMmfr1 15 2, .mrcIdMmfr2 15 2,
      .mrcIdMmfr3 15 9, .mrcIdIsar0 15 10, .mrcIdIsar1 15 13, .mrcIdIsar2 15 1, .mrcIdIsar3 15 1, .mrcIdIsar4 15 10,
      .mrcIdIsar5 15 4, .mrcIdIsar6 15 8, .mrcIdIsar7 15 5, .mrcFeatureReserved 15 2 6 5, .mrcCcsidr 15 9, .mrcClidr 15 6,
      .mrcSiliconId 15 8, .mrcCsselr 15 10] : List Instr) ++
     ([.mcrCsselr 15 6, .mrcSctlr 15 5, .mcrSctlr 15 3, .mrcActlr 15 13, .mcrActlr 15 1, .mrcCpacr 15 12,
      .mcrCpacr 15 1, .mrcScr 15 4, .mcrScr 15 7, .mrcSder 15 4, .mcrSder 15 3, .mrcNsacr 15 3,
      .mcrNsacr 15 10, .mrcTtbr0 15 3, .mcrTtbr0 15 5, .mrcTtbr1 15 8, .mcrTtbr1 15 3, .mrcTtbcr 15 10,
      .mcrTtbcr 15 11, .mrcDacr 15 5, .mcrDacr 15 10, .mrcDfsr 15 7, .mcrDfsr 15 1, .mrcIfsr 15 10,
      .mcrIfsr 15 13, .mrcAdfsr 15 8] : List Instr) ++
     ([.mcrAdfsr 15 3, .mrcAifsr 15 12, .mcrAifsr 15 2, .mrcDfar 15 5, .mcrDfar 15 1, .mrcIfar 15 5,
      .mcrIfar 15 13, .mcrWfiNop 15 3, .mrcPar 15 7, .mcrPar 15 1, .mcrIciallu 15 6, .mcrIcimvau 15 9,
      .mcrIsb 15 10, .mcrBpiall 15 8, .mcrBpimva 15 3, .mcrDcimvac 15 11, .mcrDcisw 15 3, .mcrVaPaCurPrivRead 15 8,
      .mcrVaPaCurPrivWrite 15 12, .mcrVaPaCurUserRead 15 7, .mcrVaPaCurUserWrite 15 6, .mcrVaPaOthPrivRead 15 6, .mcrVaPaOthPrivWrite 15 5, .mcrVaPaOthUserRead 15 1,
      .mcrVaPaOthUserWrite 15 12, .mcrDccmvac 15 7] : List Instr) ++
     ([.mcrDccsw 15 3, .mcrDsb 15 5, .mcrDmb 15 1, .mcrDccmvau 15 8, .mcrDccimvac 15 10, .mcrDccisw 15 10,
      .mcrItlbiall 15 8, .mcrItlbimva 15 3, .mcrItlbiasid 15 4, .mcrDtlbiall 15 9, .mcrDtlbimva 15 7, .mcrDtlbiasid 15 5,
      .mcrTlbiall 15 12, .mcrTlbimva 15 9, .mcrTlbiasid 15 10, .mrcPmnc 15 7, .mcrPmnc 15 9, .mrcCntens 15 13,
      .mcrCntens 15 13, .mrcCntenc 15 2, .mcrCntenc 15 4, .mrcFlag 15 2, .mcrFlag 15 2, .mrcSwincr 15 5,
      .mcrSwincr 15 11, .mrcPmnxsel 15 4] : List Instr), i.wf = false := by decide +kernel

theorem test_ill_formed_condition_4 :
    ∀ i ∈ ([.mcrPmnxsel 15 1, .mrcCcnt 15 3, .mcrCcnt 15 11, .mrcEvtsel 15 13, .mcrEvtsel 15 10, .mrcPmcnt 15 7,
      .mcrPmcnt 15 1, .mrcUseren 15 7, .mcrUseren 15 9, .mrcIntens 15 5, .mcrIntens 15 7, .mrcIntenc 15 6,
      .mcrIntenc 15 5, .mrcL2Lock 15 8, .mcrL2Lock 15 2, .mrcL2Aux 15 10, .mcrL2Aux 15 13, .mrcDtlbLock 15 3,
      .mcrDtlbLock 15 4, .mrcItlbLock 15 12, .mcrItlbLock 15 3, .mcrDtlbPreload 15 5, .mcrItlbPreload 15 11, .mrcPrrr 15 13,
      .mcrPrrr 15 2, .mrcNmrr 15 9] : List Instr) ++
     ([.mcrNmrr 15 13, .mrcPleIdPresent 15 2, .mrcPleIdReserved 15 10, .mrcPleIdRunning 15 1, .mrcPleIdInterrupting 15 1, .mrcPleUser 15 8,
      .mcrPleUser 15 11, .mrcPleChannel 15 12, .mcrPleChannel 15 11, .mcrPleStop 15 13, .mcrPleStart 15 9, .mcrPleClear 15 13,
      .mrcPleControl 15 6, .mcrPleControl 15 1, .mrcPleStartAddr 15 9, .mcrPleStartAddr 15 2, .mrcPleEndAddr 15 10, .mcrPleEndAddr 15 8,
      .mrcPleStatus 15 9, .mrcPleContext 15 12, .mcrPleContext 15 3, .mrcVbar 15 12, .mcrVbar 15 13, .mrcMvbar 15 7,
      .mcrMvbar 15 4, .mrcIsr 15 12] : List Instr) ++
     ([.mrcFcse 15 7, .mcrFcse 15 10, .mrcContextidr 15 6, .mcrContextidr 15 6, .mrcTpidrurw 15 2, .mcrTpidrurw 15 9,
      .mrcTpidruro 15 9, .mcrTpidruro 15 12, .mrcTpidrprw 15 7, .mcrTpidrprw 15 2, .mrcDl1Data0 15 1, .mcrDl1Data0 15 3,
      .mrcDl1Data1 15 7, .mcrDl1Data1 15 5, .mcrDtlbCamWrite 15 10, .mcrDtlbAttrWrite 15 1, .mcrDtlbPaWrite 15 12, .mcrDhvabWrite 15 12,
      .mcrDtagWrite 15 9, .mcrDdataWrite 15 13, .mcrDtlbCamRead 15 3, .mcrDtlbAttrRead 15 10, .mcrDtlbPaRead 15 1, .mcrDhvabRead 15 2,
      .mcrDtagRead 15 10, .mcrDdataRead 15 7] : List Instr) ++
     ([.mrcIl1Data0 15 5, .mcrIl1Data0 15 11, .mrcIl1Data1 15 10, .mcrIl1Data1 15 6, .mcrItlbCamWrite 15 9, .mcrItlbAttrWrite 15 3,
      .mcrItlbPaWrite 15 7, .mcrIhvabWrite 15 9, .mcrItagWrite 15 1, .mcrIdataWrite 15 2, .mcrItlbCamRead 15 8, .mcrItlbAttrRead 15 11,
      .mcrItlbPaRead 15 7, .mcrIhvabRead 15 6, .mcrItagRead 15 3, .mcrIdataRead 15 1, .mcrGhbWrite 15 3, .mcrBtbWrite 15 9,
      .mcrGhbRead 15 5, .mcrBtbRead 15 10, .mrcL2Data0 15 2, .mcrL2Data0 15 3, .mrcL2Data1 15 8, .mcrL2Data1 15 6,
      .mcrL2TagWrite 15 11, .mcrL2DataWrite 15 13] : List Instr) ++
     ([.mcrL2ParityWrite 15 4, .mrcL2Data2 15 4, .mcrL2Data2 15 11, .mcrL2TagRead 15 5, .mcrL2DataRead 15 4, .mcrL2ParityRead 15 3,
      .p15Other 15 5 0 3 2 6 9, .mcrOther 15 2 9 6 5 1 13, .mrcOther 15 2 1 11 6 4 3, .cdpAny 15 13 11 5 4 7 3, .mcrrAny 15 13 10 3 3 8, .mrrcAny 15 2 3 7 13 7,
      .ldcStcOther 15 1 0 1 0 1 9 12 9 0x65] : List Instr), i.wf = false := by decide +kernel

theorem test_ill_formed_post_indexed_writeback : ∀ i ∈ ([.strhImm 5 0 0 1 9 10 2 6, .strhReg 2 0 1 1 7 2 12, .ldrhImm 4 0 1 1 11 7 4 8, .ldrhReg 3 0 1 1 4 11 10,
      .ldrsbImm 13 0 1 1 13 2 3 9, .ldrsbReg 14 0 0 1 10 4 13, .ldrshImm 4 0 0 1 8 12 5 13, .ldrshReg 13 0 1 1 2 4 13,
      .ldrdImm 12 0 0 1 12 1 11 7, .ldrdReg 3 0 1 1 2 10 3, .strdImm 14 0 1 1 3 6 9 4, .strdReg 6 0 0 1 2 6 4,
      .ldrImm 12 0 0 1 8 10 0x796, .ldrReg 11 0 1 1 8 10 6 2 3, .strImm 11 0 1 1 11 7 0x9b6, .strReg 4 0 0 1 8 5 0x17 1 10,
      .ldrbImm 1 0 1 1 9 2 0x2ea, .ldrbReg 2 0 1 1 12 4 15 1 8, .strbImm 0 0 1 1 9 10 0x7dc, .strbReg 9 0 0 1 12 6 9 2 2] : List Instr), i.wf = false := by decide +kernel

theorem test_ill_formed_shift_of_zero : ∀ i ∈ ([.lslImm 5 1 8 0 11, .rorImm 9 0 11 0 13] : List Instr), i.wf = false := by decide +kernel

theorem test_ill_formed_empty_field_mask : ∀ i ∈ ([.msrCpsrImm 14 0 0xbc8] : List Instr), i.wf = false := by decide +kernel

theorem test_ill_formed_extend_and_add : ∀ i ∈ ([.sxtab16 5 15 9 3 13, .sxtab 11 15 3 2 9, .sxtah 12 15 12 3 10, .uxtab16 9 15 11 1 5,
      .uxtab 0 15 11 2 8, .uxtah 8 15 1 3 2] : List Instr), i.wf = false := by decide +kernel

theorem test_ill_formed_multiply_and_add : ∀ i ∈ ([.smlad 13 7 15 6 9, .smlsd 14 8 15 7 13, .smladx 6 6 15 7 12, .smlsdx 5 13 15 1 6,
      .smmla 12 4 15 1 10, .smmlar 2 11 15 6 1, .usada8 8 5 15 2 13] : List Instr), i.wf = false := by decide +kernel

theorem test_ill_formed_insert_from_r15 : ∀ i ∈ ([.bfi 12 0x1f 11 0x1d 15] : List Instr), i.wf = false := by decide +kernel

theorem test_ill_formed_allocated_hint : ∀ i ∈ ([.hintOther 4 0, .hintOther 4 1, .hintOther 4 2, .hintOther 4 3,
      .hintOther 4 4, .hintOther 4 0xf0, .hintOther 4 0xff] : List Instr), i.wf = false := by decide +kernel

theorem test_ill_formed_flags_read_to_r15 : ∀ i ∈ ([.mrcDscr 6 15, .vmrsFpscr 3 15] : List Instr), i.wf = false := by decide +kernel

theorem test_ill_formed_debug_transfer_index : ∀ i ∈ ([.ldcDtr 12 0 0 0 1 0x8e, .stcDtr 4 0 0 0 5 13] : List Instr), i.wf = false := by decide +kernel

theorem test_ill_formed_claimed_cp14_register : ∀ i ∈ ([.p14DebugOther 8 1 0 6 0 0, .p14TeeOther 1 1 0 5 0 0, .p14Other 5 0 1 9 9 2 4, .p14Other 5 6 1 9 9 2 4,
      .p14Other 5 7 1 0 9 0 0] : List Instr), i.wf = false := by decide +kernel

theorem test_ill_formed_claimed_cp15_register : ∀ i ∈ ([.p15Other 6 0 1 0 2 0 0, .p15Other 6 0 1 0 2 0 3, .p15Other 6 0 1 0 2 7 7] : List Instr), i.wf = false := by decide +kernel

theorem test_ill_formed_feature_register_range : ∀ i ∈ ([.mrcFeatureReserved 3 2 6 2, .mrcFeatureReserved 3 2 6 8] : List Instr), i.wf = false := by decide +kernel

theorem test_ill_formed_claimed_vfp_register : ∀ i ∈ ([.vfpSysOther 1 1 0 3, .vfpSysOther 1 1 1 3, .vfpSysOther 1 1 6 3, .vfpSysOther 1 1 7 3,
      .vfpSysOther 1 1 8 3, .vfpTransfer 12 0xef1 0 0] : List Instr), i.wf = false := by decide +kernel

theorem test_ill_formed_system_coprocessor : ∀ i ∈ ([.mcrOther 5 2 9 6 10 1 13, .mcrOther 5 2 9 6 11 1 13, .mcrOther 5 2 9 6 14 1 13, .mcrOther 5 2 9 6 15 1 13,
      .mrcOther 6 2 1 11 10 4 3, .mrcOther 6 2 1 11 11 4 3, .mrcOther 6 2 1 11 14 4 3, .mrcOther 6 2 1 11 15 4 3,
      .cdpAny 3 13 11 5 10 7 3, .cdpAny 3 13 11 5 11 7 3, .mcrrAny 5 13 10 10 3 8, .mcrrAny 5 13 10 11 3 8,
      .mrrcAny 6 2 3 10 13 7, .mrrcAny 6 2 3 11 13 7] : List Instr), i.wf = false := by decide +kernel

theorem test_ill_formed_coprocessor_load_store : ∀ i ∈ ([.ldcStcOther 14 1 0 1 0 1 9 12 10 0x65, .ldcStcOther 14 1 0 1 0 1 9 12 11 0x65, .ldcStcOther 14 0 0 1 0 1 9 12 9 0x65, .ldcStcOther 14 1 0 0 0 1 9 5 14 0x65] : List Instr), i.wf = false := by decide +kernel

theorem test_ill_formed_claimed_unconditional : ∀ i ∈ ([.uncondOther 0x1000000, .uncondOther 0x1010000, .uncondOther 0x4500000, .uncondOther 0x6500000,
      .uncondOther 0x5500000, .uncondOther 0x7500000, .uncondOther 0x5100000, .uncondOther 0x7100000,
      .uncondOther 0x4100000, .uncondOther 0x6100000, .uncondOther 0x5700010, .uncondOther 0x5700040,
      .uncondOther 0x5700050, .uncondOther 0x5700060, .uncondOther 0x8400000, .uncondOther 0x8100000,
      .uncondOther 0xa000000, .uncondOther 0x2000000, .uncondOther 0x4000000, .uncondOther 0xc000000] : List Instr) ++
     ([.uncondOther 0xe000000] : List Instr), i.wf = false := by decide +kernel

/-! ## Decoding

For every constructor one word, put together bit by bit from its row of spec/opcode_table.json; the rows that are another
name of a core instruction decode to the core instruction (log 16). -/

theorem test_decode_unconditional :
    ∀ e ∈ ([(0xF1060117, .cps 1 1 1 0 0 0x17), (0xF1010000, .setend 0), (0xF453F3F6, .pliImm 0 3 0x3f6),
      (0xF657FAA9, .pliReg 0 7 0x15 1 9), (0xF5D8F640, .pldImm 1 8 0x640), (0xF7DAF3C2, .pldReg 1 10 7 2 2),
      (0xF594FC25, .pldwImm 1 4 0xc25), (0xF71CF4E7, .pldwReg 0 12 9 3 7), (0xF4935A2C, .memHintImm 1 0x35a2c),
      (0xF6156A29, .memHintReg 0 0x2b51 9), (0xF57FF01F, .clrex), (0xF57FF048, .dsb 8),
      (0xF57FF057, .dmb 7), (0xF57FF06C, .isb 12), (0xF8CD051B, .srs 0 1 0 0x1b),
      (0xF8B20A00, .rfe 0 1 1 2), (0xFA56A3EA, .blxImm 0 0x56a3ea), (0xF2A2B4D6, .asimdData 0xa2b4d6)] : List (Word × Instr)) ++
     ([(0xF4A1C70F, .asimdLoadStore 5 0x1c70f), (0xFCC5A3E1, .coproc2LoadStore 0xc5a3e1), (0xFEA5C3E7, .coproc2Reg 0xa5c3e7),
      (0xF0300123, .uncondOther 0x300123)] : List (Word × Instr)), decodeWord e.1 = .ok e.2 := by decide +kernel

theorem test_decode_status_and_saturation :
    ∀ e ∈ ([(0x310F8000, .mrs 3 0 8), (0xE12BF009, .msrCpsrReg 14 11 9), (0xE164F00B, .msrSpsrReg 14 4 11),
      (0xC12FFF13, .bx 12 3), (0x912FFF22, .bxj 9 2), (0x812FFF31, .blxReg 8 1),
      (0x716FCF14, .clz 7 12 4), (0x210A805C, .qadd 2 10 8 12), (0xE128505B, .qsub 14 8 5 11),
      (0x51473054, .qdadd 5 7 3 4), (0xC16A205B, .qdsub 12 10 2 11), (0xE125067C, .bkpt 14 0x506 12),
      (0x5160007B, .smc 5 11)] : List (Word × Instr)), decodeWord e.1 = .ok e.2 := by decide +kernel

theorem test_decode_halfword_multiplies :
    ∀ e ∈ ([(0xD108AC84, .smlabb 13 8 10 12 4), (0x41037BC6, .smlabt 4 3 7 11 6), (0x810B2AAC, .smlatb 8 11 2 10 12),
      (0x310641E8, .smlatt 3 6 4 1 8), (0x5124618A, .smlawb 5 4 6 1 10), (0x412759C3, .smlawt 4 7 5 9 3),
      (0xA12702A4, .smulwb 10 7 2 4), (0xE12B01E5, .smulwt 14 11 1 5), (0xC1436281, .smlalbb 12 3 6 2 1),
      (0xC14D76C3, .smlalbt 12 13 7 6 3), (0x914743AA, .smlaltb 9 7 4 3 10), (0x914879E2, .smlaltt 9 8 7 9 2),
      (0x91620683, .smulbb 9 2 6 3), (0x01620CC3, .smulbt 0 2 12 3), (0xC1690AA6, .smultb 12 9 10 6),
      (0x216D09E8, .smultt 2 13 9 8)] : List (Word × Instr)), decodeWord e.1 = .ok e.2 := by decide +kernel

theorem test_decode_swap_and_exclusive :
    ∀ e ∈ ([(0xB103B092, .swp 11 3 11 2), (0x31414098, .swpb 3 1 4 8), (0x619BAF9F, .ldrex 6 11 10),
      (0x11BC5F9F, .ldrexd 1 12 5), (0x51D67F9F, .ldrexb 5 6 7), (0x01FB8F9F, .ldrexh 0 11 8),
      (0x3181BF92, .strex 3 1 11 2), (0xE1ADAF93, .strexd 14 13 10 3), (0x21C68F9A, .strexb 2 6 8 10),
      (0x11E25F9C, .strexh 1 2 5 12)] : List (Word × Instr)), decodeWord e.1 = .ok e.2 := by decide +kernel

theorem test_decode_multiplies :
    ∀ e ∈ ([(0x301D0893, .mul 3 1 13 8 3), (0x6022B994, .mla 6 0 2 11 9 4), (0xB048A29B, .umaal 11 8 10 2 11),
      (0x90676A94, .mls 9 7 6 10 4), (0x00819394, .umull 0 0 1 9 3 4), (0x30ACAB91, .umlal 3 0 12 10 11 1),
      (0xA0D7A29D, .smull 10 1 7 10 2 13), (0x80E9479C, .smlal 8 0 9 4 7 12)] : List (Word × Instr)), decodeWord e.1 = .ok e.2 := by decide +kernel

theorem test_decode_extra_loads_and_stores :
    ∀ e ∈ ([(0x60616CB7, .strhtImm 6 0 1 6 12 7), (0xE02C60B8, .strhtReg 14 0 12 6 8), (0x30F2A8B7, .ldrhtImm 3 1 2 10 8 7),
      (0xC0B950BD, .ldrhtReg 12 1 9 5 13), (0xD0FD5CD2, .ldrsbtImm 13 1 13 5 12 2), (0x30B680DC, .ldrsbtReg 3 1 6 8 12),
      (0xD0F469FD, .ldrshtImm 13 1 4 6 9 13), (0x60BBA0FC, .ldrshtReg 6 1 11 10 12), (0x5169A2B6, .strhImm 5 1 0 1 9 10 2 6),
      (0x21A720BC, .strhReg 2 1 1 1 7 2 12), (0x41FB74B8, .ldrhImm 4 1 1 1 11 7 4 8), (0x3094B0BA, .ldrhReg 3 0 1 0 4 11 10),
      (0xD1FD23D9, .ldrsbImm 13 1 1 1 13 2 3 9), (0xE01A40DD, .ldrsbReg 14 0 0 0 10 4 13), (0x4178C5FD, .ldrshImm 4 1 0 1 8 12 5 13),
      (0xD09240FD, .ldrshReg 13 0 1 0 2 4 13), (0xC14C1BD7, .ldrdImm 12 1 0 0 12 1 11 7), (0x31A2A0D3, .ldrdReg 3 1 1 1 2 10 3)] : List (Word × Instr)) ++
     ([(0xE1C369F4, .strdImm 14 1 1 0 3 6 9 4), (0x600260F4, .strdReg 6 0 0 0 2 6 4)] : List (Word × Instr)), decodeWord e.1 = .ok e.2 := by decide +kernel

theorem test_decode_hints_and_status_immediates :
    ∀ e ∈ ([(0x530C41BF, .movw 5 12 4 0x1bf), (0x0341AC96, .movt 0 1 10 0xc96), (0xB320F000, .nop 11),
      (0x2320F001, .yield 2), (0xD320F002, .wfe 13), (0x2320F003, .wfi 2),
      (0x8320F004, .sev 8), (0xA320F0F6, .dbg 10 6), (0x4320F05A, .hintOther 4 0x5a),
      (0xE324FBC8, .msrCpsrImm 14 4 0xbc8), (0x8368F1C7, .msrSpsrImm 8 8 0x1c7)] : List (Word × Instr)), decodeWord e.1 = .ok e.2 := by decide +kernel

theorem test_decode_data_processing_and_to_cmn :
    ∀ e ∈ ([(0x9203D220, .andImm 9 0 3 13 0x220), (0x30148323, .andReg 3 1 4 8 6 1 3), (0xC011D97C, .andRsr 12 1 1 13 9 3 12),
      (0x4237BAFD, .eorImm 4 1 7 11 0xafd), (0xE03CABC6, .eorReg 14 1 12 10 0x17 2 6), (0xB0256D53, .eorRsr 11 0 5 6 13 2 3),
      (0xD258CF8C, .subImm 13 1 8 12 0xf8c), (0x805D49E8, .subReg 8 1 13 4 0x13 3 8), (0xC048C935, .subRsr 12 0 8 12 9 1 5),
      (0x6261781C, .rsbImm 6 0 1 7 0x81c), (0x4077D0E3, .rsbReg 4 1 7 13 1 3 3), (0xD0624A75, .rsbRsr 13 0 2 4 10 3 5),
      (0xC29AC943, .addImm 12 1 10 12 0x943), (0xE086A16D, .addReg 14 0 6 10 2 3 13), (0x50927D3A, .addRsr 5 1 2 7 13 1 10),
      (0xD2AB47A2, .adcImm 13 0 11 4 0x7a2), (0x50B6866D, .adcReg 5 1 6 8 12 3 13), (0xA0AC3D77, .adcRsr 10 0 12 3 13 3 7)] : List (Word × Instr)) ++
     ([(0x02C4A5C5, .sbcImm 0 0 4 10 0x5c5), (0x70D8A343, .sbcReg 7 1 8 10 6 2 3), (0xA0DD1976, .sbcRsr 10 1 13 1 9 3 6),
      (0x92F854A3, .rscImm 9 1 8 5 0x4a3), (0x60F8CAA9, .rscReg 6 1 8 12 0x15 1 9), (0xE0F63C72, .rscRsr 14 1 6 3 12 3 2),
      (0x531C099C, .tstImm 5 12 0x99c), (0xA118064B, .tstReg 10 8 12 2 11), (0x61140A7C, .tstRsr 6 4 10 3 12),
      (0x233D0257, .teqImm 2 13 0x257), (0x813101EC, .teqReg 8 1 3 3 12), (0xC135043D, .teqRsr 12 5 4 1 13),
      (0x63550F2A, .cmpImm 6 5 0xf2a), (0xE15D03A1, .cmpReg 14 13 7 1 1), (0x01580D36, .cmpRsr 0 8 13 1 6),
      (0x53710FA2, .cmnImm 5 1 0xfa2), (0x017C00E3, .cmnReg 0 12 1 3 3), (0x91750C51, .cmnRsr 9 5 12 2 1)] : List (Word × Instr)), decodeWord e.1 = .ok e.2 := by decide +kernel

theorem test_decode_data_processing_orr_to_mvn :
    ∀ e ∈ ([(0x03867DAD, .orrImm 0 0 6 7 0xdad), (0x11941E63, .orrReg 1 1 4 1 0x1c 3 3), (0x8188D739, .orrRsr 8 0 8 13 7 1 9),
      (0x83A02256, .movImm 8 0 2 0x256), (0xA1B0A761, .movReg 10 1 10 14 3 1), (0x41B0CB31, .movRsr 4 1 12 11 1 1),
      (0x43CD850B, .bicImm 4 0 13 8 0x50b), (0xB1C416E7, .bicReg 11 0 4 1 13 3 7), (0x41D95C38, .bicRsr 4 1 9 5 12 1 8),
      (0xC3E0CB16, .mvnImm 12 0 12 0xb16), (0xB1E04269, .mvnReg 11 0 4 4 3 9), (0x21F04C38, .mvnRsr 2 1 4 12 1 8)] : List (Word × Instr)), decodeWord e.1 = .ok e.2 := by decide +kernel

theorem test_decode_aliases :
    ∀ e ∈ ([(0x51B08E0B, .movReg 5 1 8 0x1c 0 11), (0x51A0A319, .movRsr 5 0 10 3 0 9), (0x11A09D26, .movReg 1 0 9 0x1a 1 6),
      (0x91A09435, .movRsr 9 0 9 4 1 5), (0x61A06BC3, .movReg 6 0 6 0x17 2 3), (0x91B02957, .movRsr 9 1 2 9 2 7),
      (0x91A0B46D, .movReg 9 0 11 8 3 13), (0x91B01779, .movRsr 9 1 1 7 3 9), (0x51B02063, .movReg 5 1 2 0 3 3),
      (0x628FBDB6, .addImm 6 0 15 11 0xdb6), (0xE24FBDBB, .subImm 14 0 15 11 0xdbb)] : List (Word × Instr)), decodeWord e.1 = .ok e.2 := by decide +kernel

theorem test_decode_loads_and_stores :
    ∀ e ∈ ([(0x74BA17CD, .ldrtImm 7 1 10 1 0x7cd), (0x56312FEC, .ldrtReg 5 0 1 2 0x1f 3 12), (0xB4A6D7BF, .strtImm 11 1 6 13 0x7bf),
      (0xE62A3229, .strtReg 14 0 10 3 4 1 9), (0x4479132D, .ldrbtImm 4 0 9 1 0x32d), (0x36717648, .ldrbtReg 3 0 1 7 12 2 8),
      (0xE4EA3F6F, .strbtImm 14 1 10 3 0xf6f), (0x76EB184C, .strbtReg 7 1 11 1 0x10 2 12), (0xC538A796, .ldrImm 12 1 0 1 8 10 0x796),
      (0xB798A343, .ldrReg 11 1 1 0 8 10 6 2 3), (0xB58B79B6, .strImm 11 1 1 0 11 7 0x9b6), (0x47285BAA, .strReg 4 1 0 1 8 5 0x17 1 10),
      (0x14D922EA, .ldrbImm 1 0 1 0 9 2 0x2ea), (0x27DC47A8, .ldrbReg 2 1 1 0 12 4 15 1 8), (0x05C9A7DC, .strbImm 0 1 1 0 9 10 0x7dc),
      (0x976C64C2, .strbReg 9 1 0 1 12 6 9 2 2)] : List (Word × Instr)), decodeWord e.1 = .ok e.2 := by decide +kernel

theorem test_decode_parallel_arithmetic :
    ∀ e ∈ ([(0x661A8F12, .sadd16 6 10 8 2), (0xB6131F38, .sasx 11 3 1 8), (0x26179F56, .ssax 2 7 9 6),
      (0xA619DF77, .ssub16 10 9 13 7), (0x96128F9A, .sadd8 9 2 8 10), (0xA61B7FF3, .ssub8 10 11 7 3),
      (0xC622DF14, .qadd16 12 2 13 4), (0x36284F36, .qasx 3 8 4 6), (0x9629CF53, .qsax 9 9 12 3),
      (0x36291F77, .qsub16 3 9 1 7), (0xE6262F94, .qadd8 14 6 2 4), (0x8626AFF8, .qsub8 8 6 10 8),
      (0xB6353F16, .shadd16 11 5 3 6), (0x6631BF33, .shasx 6 1 11 3), (0xE6335F52, .shsax 14 3 5 2),
      (0xD63D3F7C, .shsub16 13 13 3 12), (0x26385F9B, .shadd8 2 8 5 11), (0x66329FF6, .shsub8 6 2 9 6)] : List (Word × Instr)) ++
     ([(0x16579F1A, .uadd16 1 7 9 10), (0x66569F34, .uasx 6 6 9 4), (0x4651BF5D, .usax 4 1 11 13),
      (0x1651AF7C, .usub16 1 1 10 12), (0x565BDF97, .uadd8 5 11 13 7), (0x065C5FF7, .usub8 0 12 5 7),
      (0x066BCF13, .uqadd16 0 11 12 3), (0x9662AF39, .uqasx 9 2 10 9), (0x06691F52, .uqsax 0 9 1 2),
      (0xB6627F74, .uqsub16 11 2 7 4), (0x36667F9B, .uqadd8 3 6 7 11), (0xA6696FF2, .uqsub8 10 9 6 2),
      (0x367B4F1A, .uhadd16 3 11 4 10), (0x36752F3D, .uhasx 3 5 2 13), (0xE6771F55, .uhsax 14 7 1 5),
      (0x06728F77, .uhsub16 0 2 8 7), (0x26795F94, .uhadd8 2 9 5 4), (0x06767FFB, .uhsub8 0 6 7 11)] : List (Word × Instr)), decodeWord e.1 = .ok e.2 := by decide +kernel

theorem test_decode_packing_and_extension :
    ∀ e ∈ ([(0x668D931B, .pkhbt 6 13 9 6 11), (0x568DBAD5, .pkhtb 5 13 11 0x15 5), (0x2681DFB6, .sel 2 1 13 6),
      (0xB6BB189B, .ssat 11 0x1b 1 0x11 0 11), (0x96FA5916, .usat 9 0x1a 5 0x12 0 6), (0xE6A9BF34, .ssat16 14 9 11 4),
      (0x06E3DF31, .usat16 0 3 13 1), (0xB68F9C73, .sxtb16 11 9 3 3), (0x56859C7D, .sxtab16 5 5 9 3 13),
      (0x46AF6C75, .sxtb 4 6 3 5), (0xB6AB3879, .sxtab 11 11 3 2 9), (0x76BFAC74, .sxth 7 10 3 4),
      (0xC6B9CC7A, .sxtah 12 9 12 3 10), (0x56CF2C76, .uxtb16 5 2 3 6), (0x96CDB475, .uxtab16 9 13 11 1 5),
      (0x56EF9475, .uxtb 5 9 1 5), (0x06E1B878, .uxtab 0 1 11 2 8), (0xE6FFBC7A, .uxth 14 11 3 10)] : List (Word × Instr)) ++
     ([(0x86F41C72, .uxtah 8 4 1 3 2), (0x26BFDF3B, .rev 2 13 11), (0x86BF1FB7, .rev16 8 1 7),
      (0xD6FF6F3A, .rbit 13 6 10), (0xE6FFBFB4, .revsh 14 11 4)] : List (Word × Instr)), decodeWord e.1 = .ok e.2 := by decide +kernel

theorem test_decode_dual_multiplies :
    ∀ e ∈ ([(0xC707FA1C, .smuad 12 7 10 12), (0x3708F955, .smusd 3 8 9 5), (0x670CF93B, .smuadx 6 12 9 11),
      (0xE707F972, .smusdx 14 7 9 2), (0xD707A619, .smlad 13 7 10 6 9), (0xE708A75D, .smlsd 14 8 10 7 13),
      (0xA741AD15, .smlald 10 1 10 13 5), (0xC744A359, .smlsld 12 4 10 3 9), (0x6706473C, .smladx 6 6 4 7 12),
      (0x570D9176, .smlsdx 5 13 9 1 6), (0x37478B35, .smlaldx 3 7 8 11 5), (0xD748617B, .smlsldx 13 8 6 1 11),
      (0x9754FB13, .smmul 9 4 11 3), (0x5753FD34, .smmulr 5 3 13 4), (0xC754511A, .smmla 12 4 5 1 10),
      (0x97594CD2, .smmls 9 9 4 12 2), (0x275B5631, .smmlar 2 11 5 6 1), (0x275C82F7, .smmlsr 2 12 8 2 7)] : List (Word × Instr)) ++
     ([(0xD782FB1A, .usad8 13 2 11 10), (0x8785C21D, .usada8 8 5 12 2 13)] : List (Word × Instr)), decodeWord e.1 = .ok e.2 := by decide +kernel

theorem test_decode_bit_fields_and_udf :
    ∀ e ∈ ([(0xA7BB3B5D, .sbfx 10 0x1b 3 0x16 13), (0x07F52656, .ubfx 0 0x15 2 12 6), (0x57D8529F, .bfc 5 0x18 5 5),
      (0xC7DFBE9A, .bfi 12 0x1f 11 0x1d 10), (0x07FE08FB, .udf 0 0xe08 11)] : List (Word × Instr)), decodeWord e.1 = .ok e.2 := by decide +kernel

theorem test_decode_blocks_and_branches :
    ∀ e ∈ ([(0xA8BDB35F, .ldm 10 0 1 1 13 0xb35f), (0x292DC117, .stm 2 1 0 1 13 0xc117), (0x6838FD3F, .ldm 6 0 0 1 8 0xfd3f),
      (0x59069737, .stm 5 1 0 0 6 0x9737), (0xA9F9B483, .ldmExcRet 10 1 1 1 9 0x3483), (0x29D2099F, .ldmUser 2 1 1 2 0x99f),
      (0x394C8773, .stmUser 3 1 0 12 0x8773), (0x6A0E07B7, .b 6 0xe07b7), (0x7B4B09BA, .bl 7 0x4b09ba),
      (0x3F4EF310, .svc 3 0x4ef310)] : List (Word × Instr)), decodeWord e.1 = .ok e.2 := by decide +kernel

theorem test_decode_debug_registers :
    ∀ e ∈ ([(0xDE10FE11, .mrcDscrFlags 13), (0x5E105E10, .mrcDidr 5 5), (0x6E111E10, .mrcDrar 6 1),
      (0x0E121E10, .mrcDsar 0 1), (0x6E10DE11, .mrcDscr 6 13), (0xDE101E15, .mrcDtr 13 1),
      (0xAE004E15, .mcrDtr 10 4), (0x3ED09E10, .mrcTeecr 3 9), (0x1EC0DE10, .mcrTeecr 1 13),
      (0xEED12E10, .mrcTeehbr 14 2), (0x7EC1AE10, .mcrTeehbr 7 10), (0x9EF0AE10, .mrcJidr 9 10),
      (0x2EF13E10, .mrcJoscr 2 3), (0x7EE18E10, .mcrJoscr 7 8), (0xDEF2CE10, .mrcJmcr 13 12),
      (0xAEE22E10, .mcrJmcr 10 2), (0xCD315E8E, .ldcDtr 12 1 0 1 1 0x8e), (0x4C855E0D, .stcDtr 4 0 1 0 5 13)] : List (Word × Instr)) ++
     ([(0x8E136EB6, .p14DebugOther 8 1 3 6 5 6), (0x1EC25E71, .p14TeeOther 1 0 2 5 3 1), (0x5E799E54, .p14Other 5 3 1 9 9 2 4)] : List (Word × Instr)), decodeWord e.1 = .ok e.2 := by decide +kernel

theorem test_decode_vfp_registers :
    ∀ e ∈ ([(0xDEF1FA10, .fmstat 13), (0x4EF08A10, .vmrsFpsid 4 8), (0x8EE04A10, .vmsrFpsid 8 4),
      (0x3EF11A10, .vmrsFpscr 3 1), (0x1EE14A10, .vmsrFpscr 1 4), (0x7EF65A10, .vmrsMvfr1 7 5),
      (0x0EE62A10, .vmsrMvfr1 0 2), (0x6EF79A10, .vmrsMvfr0 6 9), (0xEEE75A10, .vmsrMvfr0 14 5),
      (0xDEF87A10, .vmrsFpexc 13 7), (0xBEE8BA10, .vmsrFpexc 11 11), (0x1EF93A10, .vfpSysOther 1 1 9 3),
      (0xBE3A5B43, .vfpData 11 0x3a5 10 3), (0xCE0A5B90, .vfpTransfer 12 0xa5 12 0), (0x5DD31AA4, .vfpLoadStore 5 0x1d31 0xa4)] : List (Word × Instr)), decodeWord e.1 = .ok e.2 := by decide +kernel

theorem test_decode_cp15_c0 :
    ∀ e ∈ ([(0xDE107F10, .mrcMidr 13 7), (0xAE10CF90, .mrcMidr4 10 12), (0xDE106FD0, .mrcMidr6 13 6),
      (0xCE108FF0, .mrcMidr7 12 8), (0x6E108F30, .mrcCtr 6 8), (0xAE108F50, .mrcTcmtr 10 8),
      (0x8E102F70, .mrcTlbtr 8 2), (0xDE107FB0, .mrcMpidr 13 7), (0x5E107F11, .mrcIdPfr0 5 7),
      (0x5E107F31, .mrcIdPfr1 5 7), (0x4E105F51, .mrcIdDfr0 4 5), (0x7E108F71, .mrcIdAfr0 7 8),
      (0x0E10CF91, .mrcIdMmfr0 0 12), (0x3E102FB1, .mrcIdMmfr1 3 2), (0x4E102FD1, .mrcIdMmfr2 4 2),
      (0xAE109FF1, .mrcIdMmfr3 10 9), (0xEE10AF12, .mrcIdIsar0 14 10), (0x0E10DF32, .mrcIdIsar1 0 13)] : List (Word × Instr)) ++
     ([(0x2E101F52, .mrcIdIsar2 2 1), (0xEE101F72, .mrcIdIsar3 14 1), (0x1E10AF92, .mrcIdIsar4 1 10),
      (0xEE104FB2, .mrcIdIsar5 14 4), (0x8E108FD2, .mrcIdIsar6 8 8), (0x7E105FF2, .mrcIdIsar7 7 5),
      (0x3E102FD5, .mrcFeatureReserved 3 2 6 5), (0x4E309F10, .mrcCcsidr 4 9), (0xDE306F30, .mrcClidr 13 6),
      (0x4E308FF0, .mrcSiliconId 4 8), (0x2E50AF10, .mrcCsselr 2 10), (0x7E406F10, .mcrCsselr 7 6)] : List (Word × Instr)), decodeWord e.1 = .ok e.2 := by decide +kernel

theorem test_decode_cp15_c1_to_c6 :
    ∀ e ∈ ([(0xDE115F10, .mrcSctlr 13 5), (0x4E013F10, .mcrSctlr 4 3), (0x6E11DF30, .mrcActlr 6 13),
      (0x4E011F30, .mcrActlr 4 1), (0xBE11CF50, .mrcCpacr 11 12), (0x1E011F50, .mcrCpacr 1 1),
      (0xBE114F11, .mrcScr 11 4), (0xBE017F11, .mcrScr 11 7), (0x8E114F31, .mrcSder 8 4),
      (0x9E013F31, .mcrSder 9 3), (0xDE113F51, .mrcNsacr 13 3), (0xDE01AF51, .mcrNsacr 13 10),
      (0x1E123F10, .mrcTtbr0 1 3), (0xEE025F10, .mcrTtbr0 14 5), (0x7E128F30, .mrcTtbr1 7 8),
      (0xEE023F30, .mcrTtbr1 14 3), (0xEE12AF50, .mrcTtbcr 14 10), (0x3E02BF50, .mcrTtbcr 3 11)] : List (Word × Instr)) ++
     ([(0x6E135F10, .mrcDacr 6 5), (0x6E03AF10, .mcrDacr 6 10), (0xDE157F10, .mrcDfsr 13 7),
      (0xBE051F10, .mcrDfsr 11 1), (0x2E15AF30, .mrcIfsr 2 10), (0x0E05DF30, .mcrIfsr 0 13),
      (0xBE158F11, .mrcAdfsr 11 8), (0x1E053F11, .mcrAdfsr 1 3), (0x5E15CF31, .mrcAifsr 5 12),
      (0x7E052F31, .mcrAifsr 7 2), (0x6E165F10, .mrcDfar 6 5), (0x1E061F10, .mcrDfar 1 1),
      (0x1E165F50, .mrcIfar 1 5), (0xAE06DF50, .mcrIfar 10 13)] : List (Word × Instr)), decodeWord e.1 = .ok e.2 := by decide +kernel

theorem test_decode_cp15_c7 :
    ∀ e ∈ ([(0xEE073F90, .mcrWfiNop 14 3), (0xCE177F14, .mrcPar 12 7), (0x5E071F14, .mcrPar 5 1),
      (0x6E076F15, .mcrIciallu 6 6), (0x0E079F35, .mcrIcimvau 0 9), (0x0E07AF95, .mcrIsb 0 10),
      (0x2E078FD5, .mcrBpiall 2 8), (0xAE073FF5, .mcrBpimva 10 3), (0xBE07BF36, .mcrDcimvac 11 11),
      (0x7E073F56, .mcrDcisw 7 3), (0x4E078F18, .mcrVaPaCurPrivRead 4 8), (0x8E07CF38, .mcrVaPaCurPrivWrite 8 12),
      (0xEE077F58, .mcrVaPaCurUserRead 14 7), (0x4E076F78, .mcrVaPaCurUserWrite 4 6), (0xDE076F98, .mcrVaPaOthPrivRead 13 6),
      (0x9E075FB8, .mcrVaPaOthPrivWrite 9 5), (0x5E071FD8, .mcrVaPaOthUserRead 5 1), (0x3E07CFF8, .mcrVaPaOthUserWrite 3 12)] : List (Word × Instr)) ++
     ([(0x2E077F3A, .mcrDccmvac 2 7), (0x4E073F5A, .mcrDccsw 4 3), (0x1E075F9A, .mcrDsb 1 5),
      (0x4E071FBA, .mcrDmb 4 1), (0x2E078F3B, .mcrDccmvau 2 8), (0x4E07AF3E, .mcrDccimvac 4 10),
      (0x2E07AF5E, .mcrDccisw 2 10)] : List (Word × Instr)), decodeWord e.1 = .ok e.2 := by decide +kernel

theorem test_decode_cp15_c8 :
    ∀ e ∈ ([(0x9E088F15, .mcrItlbiall 9 8), (0x6E083F35, .mcrItlbimva 6 3), (0xAE084F55, .mcrItlbiasid 10 4),
      (0xEE089F16, .mcrDtlbiall 14 9), (0xDE087F36, .mcrDtlbimva 13 7), (0x5E085F56, .mcrDtlbiasid 5 5),
      (0x0E08CF17, .mcrTlbiall 0 12), (0x4E089F37, .mcrTlbimva 4 9), (0x3E08AF57, .mcrTlbiasid 3 10)] : List (Word × Instr)), decodeWord e.1 = .ok e.2 := by decide +kernel

theorem test_decode_cp15_c9 :
    ∀ e ∈ ([(0xBE197F1C, .mrcPmnc 11 7), (0xEE099F1C, .mcrPmnc 14 9), (0xCE19DF3C, .mrcCntens 12 13),
      (0x2E09DF3C, .mcrCntens 2 13), (0x7E192F5C, .mrcCntenc 7 2), (0x9E094F5C, .mcrCntenc 9 4),
      (0xCE192F7C, .mrcFlag 12 2), (0x0E092F7C, .mcrFlag 0 2), (0x2E195F9C, .mrcSwincr 2 5),
      (0x8E09BF9C, .mcrSwincr 8 11), (0xCE194FBC, .mrcPmnxsel 12 4), (0xAE091FBC, .mcrPmnxsel 10 1),
      (0x6E193F1D, .mrcCcnt 6 3), (0x7E09BF1D, .mcrCcnt 7 11), (0xCE19DF3D, .mrcEvtsel 12 13),
      (0x5E09AF3D, .mcrEvtsel 5 10), (0x4E197F5D, .mrcPmcnt 4 7), (0x3E091F5D, .mcrPmcnt 3 1)] : List (Word × Instr)) ++
     ([(0x6E197F1E, .mrcUseren 6 7), (0x6E099F1E, .mcrUseren 6 9), (0xCE195F3E, .mrcIntens 12 5),
      (0x0E097F3E, .mcrIntens 0 7), (0x3E196F5E, .mrcIntenc 3 6), (0x7E095F5E, .mcrIntenc 7 5),
      (0x1E398F10, .mrcL2Lock 1 8), (0xEE292F10, .mcrL2Lock 14 2), (0x0E39AF50, .mrcL2Aux 0 10),
      (0x7E29DF50, .mcrL2Aux 7 13)] : List (Word × Instr)), decodeWord e.1 = .ok e.2 := by decide +kernel

theorem test_decode_cp15_c10_c11 :
    ∀ e ∈ ([(0x8E1A3F10, .mrcDtlbLock 8 3), (0x5E0A4F10, .mcrDtlbLock 5 4), (0x5E1ACF30, .mrcItlbLock 5 12),
      (0x2E0A3F30, .mcrItlbLock 2 3), (0x5E0A5F11, .mcrDtlbPreload 5 5), (0xBE0ABF31, .mcrItlbPreload 11 11),
      (0xEE1ADF12, .mrcPrrr 14 13), (0x2E0A2F12, .mcrPrrr 2 2), (0x0E1A9F32, .mrcNmrr 0 9),
      (0x5E0ADF32, .mcrNmrr 5 13), (0x7E1B2F10, .mrcPleIdPresent 7 2), (0x8E1BAF30, .mrcPleIdReserved 8 10),
      (0xBE1B1F50, .mrcPleIdRunning 11 1), (0x5E1B1F70, .mrcPleIdInterrupting 5 1), (0x2E1B8F11, .mrcPleUser 2 8),
      (0x2E0BBF11, .mcrPleUser 2 11), (0x2E1BCF12, .mrcPleChannel 2 12), (0x6E0BBF12, .mcrPleChannel 6 11)] : List (Word × Instr)) ++
     ([(0x2E0BDF13, .mcrPleStop 2 13), (0xBE0B9F33, .mcrPleStart 11 9), (0x5E0BDF53, .mcrPleClear 5 13),
      (0x2E1B6F14, .mrcPleControl 2 6), (0x5E0B1F14, .mcrPleControl 5 1), (0xDE1B9F15, .mrcPleStartAddr 13 9),
      (0x5E0B2F15, .mcrPleStartAddr 5 2), (0x3E1BAF17, .mrcPleEndAddr 3 10), (0x7E0B8F17, .mcrPleEndAddr 7 8),
      (0x5E1B9F18, .mrcPleStatus 5 9), (0x2E1BCF1F, .mrcPleContext 2 12), (0xCE0B3F1F, .mcrPleContext 12 3)] : List (Word × Instr)), decodeWord e.1 = .ok e.2 := by decide +kernel

theorem test_decode_cp15_c12_c13 :
    ∀ e ∈ ([(0x9E1CCF10, .mrcVbar 9 12), (0x9E0CDF10, .mcrVbar 9 13), (0x9E1C7F30, .mrcMvbar 9 7),
      (0x7E0C4F30, .mcrMvbar 7 4), (0x8E1CCF11, .mrcIsr 8 12), (0xAE1D7F10, .mrcFcse 10 7),
      (0x0E0DAF10, .mcrFcse 0 10), (0x9E1D6F30, .mrcContextidr 9 6), (0xEE0D6F30, .mcrContextidr 14 6),
      (0x2E1D2F50, .mrcTpidrurw 2 2), (0xAE0D9F50, .mcrTpidrurw 10 9), (0xDE1D9F70, .mrcTpidruro 13 9),
      (0x1E0DCF70, .mcrTpidruro 1 12), (0xAE1D7F90, .mrcTpidrprw 10 7), (0xBE0D2F90, .mcrTpidrprw 11 2)] : List (Word × Instr)), decodeWord e.1 = .ok e.2 := by decide +kernel

theorem test_decode_cp15_c15 :
    ∀ e ∈ ([(0x3E1F1F10, .mrcDl1Data0 3 1), (0xAE0F3F10, .mcrDl1Data0 10 3), (0x2E1F7F30, .mrcDl1Data1 2 7),
      (0x2E0F5F30, .mcrDl1Data1 2 5), (0x1E0FAF50, .mcrDtlbCamWrite 1 10), (0x5E0F1F70, .mcrDtlbAttrWrite 5 1),
      (0xEE0FCF90, .mcrDtlbPaWrite 14 12), (0xDE0FCFB0, .mcrDhvabWrite 13 12), (0xDE0F9FD0, .mcrDtagWrite 13 9),
      (0x0E0FDFF0, .mcrDdataWrite 0 13), (0x7E0F3F52, .mcrDtlbCamRead 7 3), (0x4E0FAF72, .mcrDtlbAttrRead 4 10),
      (0xCE0F1F92, .mcrDtlbPaRead 12 1), (0xAE0F2FB2, .mcrDhvabRead 10 2), (0x7E0FAFD2, .mcrDtagRead 7 10),
      (0x2E0F7FF2, .mcrDdataRead 2 7), (0x4E1F5F11, .mrcIl1Data0 4 5), (0x7E0FBF11, .mcrIl1Data0 7 11)] : List (Word × Instr)) ++
     ([(0x6E1FAF31, .mrcIl1Data1 6 10), (0x5E0F6F31, .mcrIl1Data1 5 6), (0x1E0F9F51, .mcrItlbCamWrite 1 9),
      (0x7E0F3F71, .mcrItlbAttrWrite 7 3), (0x5E0F7F91, .mcrItlbPaWrite 5 7), (0x6E0F9FB1, .mcrIhvabWrite 6 9),
      (0x2E0F1FD1, .mcrItagWrite 2 1), (0xEE0F2FF1, .mcrIdataWrite 14 2), (0xCE0F8F53, .mcrItlbCamRead 12 8),
      (0x6E0FBF73, .mcrItlbAttrRead 6 11), (0x3E0F7F93, .mcrItlbPaRead 3 7), (0x8E0F6FB3, .mcrIhvabRead 8 6),
      (0x8E0F3FD3, .mcrItagRead 8 3), (0xBE0F1FF3, .mcrIdataRead 11 1), (0x2E0F3F55, .mcrGhbWrite 2 3),
      (0xDE0F9F75, .mcrBtbWrite 13 9), (0x1E0F5F57, .mcrGhbRead 1 5), (0x0E0FAF77, .mcrBtbRead 0 10)] : List (Word × Instr)) ++
     ([(0x5E1F2F18, .mrcL2Data0 5 2), (0x8E0F3F18, .mcrL2Data0 8 3), (0x8E1F8F38, .mrcL2Data1 8 8),
      (0x3E0F6F38, .mcrL2Data1 3 6), (0x0E0FBF58, .mcrL2TagWrite 0 11), (0x8E0FDF78, .mcrL2DataWrite 8 13),
      (0xCE0F4F98, .mcrL2ParityWrite 12 4), (0x3E1F4FB8, .mrcL2Data2 3 4), (0x9E0FBFB8, .mcrL2Data2 9 11),
      (0x8E0F5F59, .mcrL2TagRead 8 5), (0x5E0F4F79, .mcrL2DataRead 5 4), (0xBE0F3F99, .mcrL2ParityRead 11 3)] : List (Word × Instr)), decodeWord e.1 = .ok e.2 := by decide +kernel

theorem test_decode_coprocessor_classes :
    ∀ e ∈ ([(0x6EA32FD9, .p15Other 6 5 0 3 2 6 9), (0x5E49653D, .mcrOther 5 2 9 6 5 1 13), (0x6E51B693, .mrcOther 6 2 1 11 6 4 3),
      (0x3EDB54E3, .cdpAny 3 13 11 5 4 7 3), (0x5C4DA338, .mcrrAny 5 13 10 3 3 8), (0x6C5237D7, .mrrcAny 6 2 3 7 13 7),
      (0xED59C965, .ldcStcOther 14 1 0 1 0 1 9 12 9 0x65)] : List (Word × Instr)), decodeWord e.1 = .ok e.2 := by decide +kernel

/-- The bits of a table row are numbered from the first byte in memory. -/
theorem test_table_word : decodeTableWord 32 0xE3A03003 = some (.movImm 14 0 3 3) ∧
    decodeBytes [0x03, 0x30, 0xA0, 0xE3, 0x55] = .ok (.movImm 14 0 3 3, [0x55]) := by decide +kernel

/-- A word that no layout claims (R1385): a hole among the media instructions. -/
theorem test_decode_undefined : decodeWord 0xE6000010 = .error .undefined := by decide +kernel

/-- Broken should-be fields (R1386): MOV with Rn = 1, BX with a clear should-be-one bit. -/
theorem test_decode_should_be :
    decodeWord 0xE1A10002 = .error .shouldBe ∧ decodeWord 0xE12FFE1E = .error .shouldBe := by decide +kernel

/-! ## Single steps

The expected results are those of the spec: 95_test_vectors.md, and the examples of the instruction files. -/

/-- A state after reset but for its pc, CPSR and registers, given by their physical numbers. -/
def started (cpsr : Word) (regs : List (Nat × Word)) : State :=
  { State.reset with
    pc := 0x100, cpsr := cpsr
    gpr := Vector.ofFn fun (i : Fin 32) => ((regs.find? fun x => x.1 == i.val).map (·.2)).getD 0 }

/-- A state with its pc, CPSR, registers by physical number, and words in memory. -/
def placed (cpsr pc : Word) (regs : List (Nat × Word)) (mem : List (Nat × Word)) : State :=
  { started cpsr regs with
    pc := pc
    mem := mem.foldl (fun m x => (List.range 4).foldl (fun m i => memWrite m (x.1 + i) (x.2.extractLsb' (8 * i) 8)) m) [] }

/-- The word at an address, least significant byte first. -/
def wordAt (s : State) (a : Nat) : Word :=
  memRead s.mem (a + 3) ++ memRead s.mem (a + 2) ++ memRead s.mem (a + 1) ++ memRead s.mem a

/-- The step of the instruction word `w` goes on to a state with `p`; or it is a fault. -/
def gives (s : State) (w : Nat) (p : State → Bool) : Bool :=
  match step (s.withFetchWord 32 w) with
  | .next t => p t
  | _ => false

def faults (s : State) (w : Nat) : Bool :=
  match step (s.withFetchWord 32 w) with
  | .fault _ => true
  | _ => false

/-- Registers, by physical number, hold values. -/
def holds (t : State) (l : List (Nat × Word)) : Bool := l.all fun x => t.gpr.toList.getD x.1 0 == x.2

/-- `regs` with some of them replaced. -/
def changed (regs new : List (Nat × Word)) : List (Nat × Word) :=
  new ++ regs.filter fun r => !new.any fun n => n.1 == r.1

/-- A vector without memory: the word at 0x100, CPSR and the registers before, CPSR after, the registers that change. -/
abbrev Vector1 := Nat × Word × List (Nat × Word) × Word × List (Nat × Word)

def Vector1.ok : Vector1 → Bool
  | (w, c, regs, c', new) =>
    gives (started c regs) w fun t =>
      t.cpsr == c' && t.pc == 0x104 && t.gpr == (started c (changed regs new)).gpr

/-- The memories of the load and store vectors: bytes from 0x1000 and words from 0x3000. -/
def vectorBytes : List (Nat × Byte) :=
  [(0x1000, 0x80), (0x1001, 0x91), (0x1002, 0xA2), (0x1003, 0xB3), (0x1004, 0xC4), (0x1005, 0xD5), (0x1006, 0xE6),
   (0x1007, 0xF7), (0x1008, 0x08), (0x1009, 0x19), (0x100A, 0x2A), (0x100B, 0x3B), (0x100C, 0x4C), (0x100D, 0x5D),
   (0x100E, 0x6E), (0x100F, 0x7F)]

def vectorWords : List (Nat × Byte) :=
  [(0x3000, 0xA0), (0x3004, 0xA1), (0x3008, 0xA2), (0x300C, 0xA3), (0x3010, 0xA4), (0x3014, 0xA5), (0x3018, 0xA6),
   (0x301C, 0xA7)]

/-- A vector with memory: the word, CPSR, the registers, a memory and bytes beside it; then CPSR, the pc, the registers
and the bytes that change. -/
abbrev Vector2 := Nat × Word × List (Nat × Word) × List (Nat × Byte) × List (Nat × Byte) × Word × Word ×
  List (Nat × Word) × List (Nat × Byte)

def Vector2.ok : Vector2 → Bool
  | (w, c, regs, base, extra, c', pc, new, bytes) =>
    let mem := (base ++ extra).foldl (fun m x => memWrite m x.1 x.2) []
    let s : State := { started c regs with mem := mem }
    gives s w fun t =>
      t.cpsr == c' && t.pc == pc && t.gpr == (started c (changed regs new)).gpr &&
        t.mem == bytes.foldl (fun m x => memWrite m x.1 x.2) (s.withFetchWord 32 w).mem

theorem test_vectors_data_processing_1 : ([(0xE0010002, 0x1d3, [(1, 0xff00ff00), (2, 0xff00ff0)], 0x1d3, [(0, 0xf000f00)]),
    (0xE0310002, 0x300001d3, [(1, 0xffffffff), (2, 0x7fffffff)], 0xb00001d3, [(0, 0x80000000)]),
    (0xE38102FF, 0x1d3, [(1, 0xff0)], 0x1d3, [(0, 0xf0000fff)]),
    (0xE3D104FF, 0x1d3, [(1, 0x12345678)], 0x200001d3, [(0, 0x345678)]),
    (0xE3F00000, 0x600001d3, [], 0xa00001d3, [(0, 0xffffffff)]),
    (0xE2610C01, 0x1d3, [(1, 1)], 0x1d3, [(0, 0xff)]),
    (0xE0F10002, 0x1d3, [(1, 1), (2, 0)], 0x800001d3, [(0, 0xfffffffe)]),
    (0xE0F10002, 0x200001d3, [(1, 1), (2, 1)], 0x600001d3, [(0, 0)]),
    (0xE0B10002, 0x200001d3, [(1, 0x7fffffff), (2, 0)], 0x900001d3, [(0, 0x80000000)]),
    (0xE0D10002, 0x1d3, [(1, 0x80000000), (2, 0)], 0x300001d3, [(0, 0x7fffffff)]),
    (0xE0910F81, 0x1d3, [(1, 1)], 0x800001d3, [(0, 0x80000001)]),
    (0xE05100A2, 0x1d3, [(1, 0), (2, 3)], 0x800001d3, [(0, 0xffffffff)]),
    (0xE0110022, 0x1d3, [(1, 0xffffffff), (2, 0x80000000)], 0x600001d3, [(0, 0)]),
    (0xE1B00041, 0x1d3, [(1, 0x80000000)], 0xa00001d3, [(0, 0xffffffff)])] : List Vector1).all Vector1.ok = true := by decide +kernel

theorem test_vectors_data_processing_2 : ([(0xE1B00041, 0x200001d3, [(1, 0x7fffffff)], 0x400001d3, [(0, 0)]),
    (0xE1B00061, 0x200001d3, [(1, 1)], 0xa00001d3, [(0, 0x80000000)]),
    (0xE1B00061, 0x1d3, [(1, 2)], 0x1d3, [(0, 1)]),
    (0xE1B00231, 0x1d3, [(1, 0x80000000), (2, 0x20)], 0x600001d3, [(0, 0)]),
    (0xE1B00231, 0x200001d3, [(1, 0x80000000), (2, 0x21)], 0x400001d3, [(0, 0)]),
    (0xE1B00251, 0x1d3, [(1, 0x80000000), (2, 0xff)], 0xa00001d3, [(0, 0xffffffff)]),
    (0xE1B00271, 0x1d3, [(1, 0x80000000), (2, 0x120)], 0xa00001d3, [(0, 0x80000000)]),
    (0xE1B00211, 0x200001d3, [(1, 0xffffffff), (2, 0x1ff)], 0x400001d3, [(0, 0)]),
    (0xE30A0BCD, 0x1d3, [(0, 0xffffffff)], 0x1d3, [(0, 0xabcd)]),
    (0xE3410234, 0x1d3, [(0, 0xffffabcd)], 0x1d3, [(0, 0x1234abcd)]),
    (0xE3510102, 0x1d3, [(1, 0)], 0x900001d3, [(0, 0)]),
    (0xE3710001, 0x1d3, [(1, 0xffffffff)], 0x600001d3, [(0, 0)]),
    (0xE1110082, 0x1d3, [(1, 1), (2, 0x80000000)], 0x600001d3, [(0, 0)]),
    (0xE3310BFF, 0xa00001d3, [(1, 0x3fc00)], 0x400001d3, [(0, 0)])] : List Vector1).all Vector1.ok = true := by decide +kernel

theorem test_vectors_data_processing_3 : ([(0xE24F0008, 0x1d3, [], 0x1d3, [(0, 0x100)]),
    (0x12800001, 0x400001d3, [(0, 5)], 0x400001d3, [(0, 5)]),
    (0xE16F0F11, 0x1d3, [(1, 0)], 0x1d3, [(0, 0x20)])] : List Vector1).all Vector1.ok = true := by decide +kernel

theorem test_vectors_multiplies_1 : ([(0xE0000291, 0x1d3, [(1, 0xffffffff), (2, 0xffffffff)], 0x1d3, [(0, 1)]),
    (0xE0100291, 0xb00001d3, [(1, 0x10000), (2, 0x10000)], 0x700001d3, [(0, 0)]),
    (0xE0100291, 0x1d3, [(1, 0x8000), (2, 0x10000)], 0x800001d3, [(0, 0x80000000)]),
    (0xE0203291, 0x1d3, [(1, 0x10000), (2, 0x10000), (3, 5)], 0x1d3, [(0, 5)]),
    (0xE0603291, 0x1d3, [(1, 3), (2, 4), (3, 0xa)], 0x1d3, [(0, 0xfffffffe)]),
    (0xE0810392, 0x1d3, [(2, 0xffffffff), (3, 0xffffffff)], 0x1d3, [(0, 1), (1, 0xfffffffe)]),
    (0xE0C10392, 0x1d3, [(2, 0xffffffff), (3, 0xffffffff)], 0x1d3, [(0, 1)]),
    (0xE0D10392, 0xf00001d3, [(2, 0x80000000), (3, 0x80000000)], 0x300001d3, [(1, 0x40000000)]),
    (0xE0B10392, 0x1d3, [(0, 0xffffffff), (1, 0xffffffff), (2, 1), (3, 1)], 0x400001d3, [(0, 0), (1, 0)]),
    (0xE0E10392, 0x1d3, [(0, 1), (1, 0), (2, 0xffffffff), (3, 2)], 0x1d3, [(0, 0xffffffff), (1, 0xffffffff)]),
    (0xE0410392, 0x1d3, [(0, 0xffffffff), (1, 0xffffffff), (2, 0xffffffff), (3, 0xffffffff)], 0x1d3, [(0, 0xffffffff)]),
    (0xE1600281, 0x1d3, [(1, 0x7fff8000), (2, 0x28000)], 0x1d3, [(0, 0x40000000)]),
    (0xE16002C1, 0x1d3, [(1, 0x7fff8000), (2, 0x28000)], 0x1d3, [(0, 0xffff0000)]),
    (0xE16002A1, 0x1d3, [(1, 0x7fff8000), (2, 0x28000)], 0x1d3, [(0, 0xc0008000)])] : List Vector1).all Vector1.ok = true := by decide +kernel

theorem test_vectors_multiplies_2 : ([(0xE16002E1, 0x1d3, [(1, 0x7fff8000), (2, 0x28000)], 0x1d3, [(0, 0xfffe)]),
    (0xE1003281, 0x1d3, [(1, 0x8000), (2, 0x8000), (3, 0x7fffffff)], 0x80001d3, [(0, 0xbfffffff)]),
    (0xE1003281, 0x80001d3, [(1, 2), (2, 3), (3, 4)], 0x80001d3, [(0, 0xa)]),
    (0xE12002A1, 0x1d3, [(1, 0x12345678), (2, 0xffff)], 0x1d3, [(0, 0xffffedcb)]),
    (0xE12032C1, 0x1d3, [(1, 0x40000000), (2, 0x40000000), (3, 0x7fffffff)], 0x80001d3, [(0, 0x8fffffff)]),
    (0xE1410382, 0x1d3, [(0, 0xffffffff), (1, 0x7fffffff), (2, 0x7fff), (3, 0x7fff)], 0x1d3, [(0, 0x3fff0000), (1, 0x80000000)]),
    (0xE700F211, 0x1d3, [(1, 0x30002), (2, 0x50004)], 0x1d3, [(0, 0x17)]),
    (0xE700F231, 0x1d3, [(1, 0x30002), (2, 0x50004)], 0x1d3, [(0, 0x16)]),
    (0xE700F251, 0x1d3, [(1, 0x30002), (2, 0x50004)], 0x1d3, [(0, 0xfffffff9)]),
    (0xE700F211, 0x1d3, [(1, 0x80008000), (2, 0x80008000)], 0x80001d3, [(0, 0x80000000)]),
    (0xE7410312, 0x1d3, [(0, 0xffffffff), (1, 0), (2, 0x30002), (3, 0x50004)], 0x1d3, [(0, 0x16), (1, 1)]),
    (0xE750F211, 0x1d3, [(1, 0x80000000), (2, 0x80000000)], 0x1d3, [(0, 0x40000000)]),
    (0xE750F211, 0x1d3, [(1, 0x18000), (2, 0x10000)], 0x1d3, [(0, 1)]),
    (0xE750F231, 0x1d3, [(1, 0x18000), (2, 0x10000)], 0x1d3, [(0, 2)])] : List Vector1).all Vector1.ok = true := by decide +kernel

theorem test_vectors_multiplies_3 : ([(0xE75032D1, 0x1d3, [(1, 0xffffffff), (2, 1), (3, 5)], 0x1d3, [(0, 5)])] : List Vector1).all Vector1.ok = true := by decide +kernel

theorem test_vectors_flags_1 : ([(0xE2710000, 0x1d3, [(1, 0x80000000)], 0x900001d3, [(0, 0x80000000)]),
    (0xE0B10002, 0x200001d3, [(1, 0xffffffff), (2, 0)], 0x600001d3, [(0, 0)]),
    (0xE0D10002, 0x1d3, [(1, 0), (2, 0)], 0x800001d3, [(0, 0xffffffff)]),
    (0xE1B00001, 0x300001d3, [(1, 0)], 0x700001d3, [(0, 0)]),
    (0xE1B000A1, 0x1d3, [(1, 3)], 0x200001d3, [(0, 1)]),
    (0xE1B00FC1, 0x1d3, [(1, 0xc0000000)], 0xa00001d3, [(0, 0xffffffff)]),
    (0xE1B00211, 0x1d3, [(1, 1), (2, 0x20)], 0x600001d3, [(0, 0)]),
    (0xE1B00271, 0x1d3, [(1, 0x80000001), (2, 0x24)], 0x1d3, [(0, 0x18000000)]),
    (0xE3B00102, 0x1d3, [], 0xa00001d3, [(0, 0x80000000)]),
    (0xE3B000FF, 0x200001d3, [], 0x200001d3, [(0, 0xff)]),
    (0xE1300001, 0x1d3, [(0, 0x80000000), (1, 0)], 0x800001d3, [(0, 0x80000000)])] : List Vector1).all Vector1.ok = true := by decide +kernel

theorem test_vectors_parallel_1 : ([(0xE6110F12, 0xa01d3, [(1, 0x7fff8000), (2, 0x18001)], 0xc01d3, [(0, 0x80000001)]),
    (0xE6110F32, 0xa01d3, [(1, 0x7fff8000), (2, 0x18001)], 0xc01d3, [(0, 0x7fff)]),
    (0xE6110F52, 0xa01d3, [(1, 0x7fff8000), (2, 0x18001)], 0xc01d3, [(0, 0xfffe8001)]),
    (0xE6110F72, 0xa01d3, [(1, 0x7fff8000), (2, 0x18001)], 0xc01d3, [(0, 0x7ffeffff)]),
    (0xE6110F92, 0xa01d3, [(1, 0x7f80ff01), (2, 0x180017f)], 0xb01d3, [(0, 0x80000080)]),
    (0xE6110FF2, 0xa01d3, [(1, 0x7f80ff01), (2, 0x180017f)], 0xc01d3, [(0, 0x7e00fe82)]),
    (0xE6210F12, 0xa01d3, [(1, 0x7fff8000), (2, 0x18001)], 0xa01d3, [(0, 0x7fff8000)]),
    (0xE6210F32, 0xa01d3, [(1, 0x7fff8000), (2, 0x18001)], 0xa01d3, [(0, 0x8000)]),
    (0xE6210F52, 0xa01d3, [(1, 0x7fff8000), (2, 0x18001)], 0xa01d3, [(0, 0x7fff8001)]),
    (0xE6210F72, 0xa01d3, [(1, 0x7fff8000), (2, 0x18001)], 0xa01d3, [(0, 0x7ffeffff)]),
    (0xE6210F92, 0xa01d3, [(1, 0x7f80ff01), (2, 0x180017f)], 0xa01d3, [(0, 0x7f80007f)]),
    (0xE6210FF2, 0xa01d3, [(1, 0x7f80ff01), (2, 0x180017f)], 0xa01d3, [(0, 0x7e00fe82)]),
    (0xE6310F12, 0xa01d3, [(1, 0x7fff8000), (2, 0x18001)], 0xa01d3, [(0, 0x40008000)]),
    (0xE6310F32, 0xa01d3, [(1, 0x7fff8000), (2, 0x18001)], 0xa01d3, [(0, 0xbfff)])] : List Vector1).all Vector1.ok = true := by decide +kernel

theorem test_vectors_parallel_2 : ([(0xE6310F52, 0xa01d3, [(1, 0x7fff8000), (2, 0x18001)], 0xa01d3, [(0, 0x7fffc000)]),
    (0xE6310F72, 0xa01d3, [(1, 0x7fff8000), (2, 0x18001)], 0xa01d3, [(0, 0x3fffffff)]),
    (0xE6310F92, 0xa01d3, [(1, 0x7f80ff01), (2, 0x180017f)], 0xa01d3, [(0, 0x40800040)]),
    (0xE6310FF2, 0xa01d3, [(1, 0x7f80ff01), (2, 0x180017f)], 0xa01d3, [(0, 0x3f00ffc1)]),
    (0xE6510F12, 0xa01d3, [(1, 0x7fff8000), (2, 0x18001)], 0x301d3, [(0, 0x80000001)]),
    (0xE6510F32, 0xa01d3, [(1, 0x7fff8000), (2, 0x18001)], 0xf01d3, [(0, 0x7fff)]),
    (0xE6510F52, 0xa01d3, [(1, 0x7fff8000), (2, 0x18001)], 0x1d3, [(0, 0xfffe8001)]),
    (0xE6510F72, 0xa01d3, [(1, 0x7fff8000), (2, 0x18001)], 0xc01d3, [(0, 0x7ffeffff)]),
    (0xE6510F92, 0xa01d3, [(1, 0x7f80ff01), (2, 0x180017f)], 0x601d3, [(0, 0x80000080)]),
    (0xE6510FF2, 0xa01d3, [(1, 0x7f80ff01), (2, 0x180017f)], 0xe01d3, [(0, 0x7e00fe82)]),
    (0xE6610F12, 0xa01d3, [(1, 0x7fff8000), (2, 0x18001)], 0xa01d3, [(0, 0x8000ffff)]),
    (0xE6610F32, 0xa01d3, [(1, 0x7fff8000), (2, 0x18001)], 0xa01d3, [(0, 0xffff7fff)]),
    (0xE6610F52, 0xa01d3, [(1, 0x7fff8000), (2, 0x18001)], 0xa01d3, [(0, 0x8001)]),
    (0xE6610F72, 0xa01d3, [(1, 0x7fff8000), (2, 0x18001)], 0xa01d3, [(0, 0x7ffe0000)])] : List Vector1).all Vector1.ok = true := by decide +kernel

theorem test_vectors_parallel_3 : ([(0xE6610F92, 0xa01d3, [(1, 0x7f80ff01), (2, 0x180017f)], 0xa01d3, [(0, 0x80ffff80)]),
    (0xE6610FF2, 0xa01d3, [(1, 0x7f80ff01), (2, 0x180017f)], 0xa01d3, [(0, 0x7e00fe00)]),
    (0xE6710F12, 0xa01d3, [(1, 0x7fff8000), (2, 0x18001)], 0xa01d3, [(0, 0x40008000)]),
    (0xE6710F32, 0xa01d3, [(1, 0x7fff8000), (2, 0x18001)], 0xa01d3, [(0, 0x80003fff)]),
    (0xE6710F52, 0xa01d3, [(1, 0x7fff8000), (2, 0x18001)], 0xa01d3, [(0, 0xffff4000)]),
    (0xE6710F72, 0xa01d3, [(1, 0x7fff8000), (2, 0x18001)], 0xa01d3, [(0, 0x3fffffff)]),
    (0xE6710F92, 0xa01d3, [(1, 0x7f80ff01), (2, 0x180017f)], 0xa01d3, [(0, 0x40808040)]),
    (0xE6710FF2, 0xa01d3, [(1, 0x7f80ff01), (2, 0x180017f)], 0xa01d3, [(0, 0x3f007fc1)])] : List Vector1).all Vector1.ok = true := by decide +kernel

theorem test_vectors_media_1 : ([(0xE6BF0F31, 0x1d3, [(1, 0x12345678)], 0x1d3, [(0, 0x78563412)]),
    (0xE6BF0FB1, 0x1d3, [(1, 0x12345678)], 0x1d3, [(0, 0x34127856)]),
    (0xE6FF0FB1, 0x1d3, [(1, 0x1280)], 0x1d3, [(0, 0xffff8012)]),
    (0xE6FF0FB1, 0x1d3, [(1, 0xabcd8012)], 0x1d3, [(0, 0x1280)]),
    (0xE6FF0F31, 0x1d3, [(1, 0x12345678)], 0x1d3, [(0, 0x1e6a2c48)]),
    (0xE7CB021F, 0x1d3, [(0, 0xffffffff)], 0x1d3, [(0, 0xfffff00f)]),
    (0xE7CB0211, 0x1d3, [(0, 0xffffffff), (1, 0x12345678)], 0x1d3, [(0, 0xfffff78f)]),
    (0xE7A70251, 0x1d3, [(1, 0xf50)], 0x1d3, [(0, 0xfffffff5)]),
    (0xE7A00FD1, 0x1d3, [(1, 0x80000000)], 0x1d3, [(0, 0xffffffff)]),
    (0xE7E70251, 0x1d3, [(1, 0xf50)], 0x1d3, [(0, 0xf5)]),
    (0xE7FF0051, 0x1d3, [(1, 0x87654321)], 0x1d3, [(0, 0x87654321)]),
    (0xE6810012, 0x1d3, [(1, 0x11112222), (2, 0x33334444)], 0x1d3, [(0, 0x33332222)]),
    (0xE6810812, 0x1d3, [(1, 0x11112222), (2, 0x33334444)], 0x1d3, [(0, 0x44442222)]),
    (0xE6810852, 0x1d3, [(1, 0x11112222), (2, 0x33334444)], 0x1d3, [(0, 0x11113333)])] : List Vector1).all Vector1.ok = true := by decide +kernel

theorem test_vectors_media_2 : ([(0xE6810052, 0x1d3, [(1, 0x11112222), (2, 0x83334444)], 0x1d3, [(0, 0x1111ffff)]),
    (0xE6AF0071, 0x1d3, [(1, 0x8091a2f3), (2, 0x8091a2f3)], 0x1d3, [(0, 0xfffffff3)]),
    (0xE6AF0471, 0x1d3, [(1, 0x8091a2f3), (2, 0x8091a2f3)], 0x1d3, [(0, 0xffffffa2)]),
    (0xE6BF0071, 0x1d3, [(1, 0x8091a2f3), (2, 0x8091a2f3)], 0x1d3, [(0, 0xffffa2f3)]),
    (0xE6BF0C71, 0x1d3, [(1, 0x8091a2f3), (2, 0x8091a2f3)], 0x1d3, [(0, 0xfffff380)]),
    (0xE68F0071, 0x1d3, [(1, 0x8091a2f3), (2, 0x8091a2f3)], 0x1d3, [(0, 0xff91fff3)]),
    (0xE6EF0071, 0x1d3, [(1, 0x8091a2f3), (2, 0x8091a2f3)], 0x1d3, [(0, 0xf3)]),
    (0xE6FF0071, 0x1d3, [(1, 0x8091a2f3), (2, 0x8091a2f3)], 0x1d3, [(0, 0xa2f3)]),
    (0xE6CF0871, 0x1d3, [(1, 0x8091a2f3), (2, 0x8091a2f3)], 0x1d3, [(0, 0xf30091)]),
    (0xE6810072, 0x1d3, [(1, 0x10001), (2, 0x8091a2f3)], 0x1d3, [(0, 0xff92fff4)]),
    (0xE6E10472, 0x1d3, [(1, 0x100), (2, 0x8091a2f3)], 0x1d3, [(0, 0x1a2)]),
    (0xE6F10072, 0x1d3, [(1, 0xffff0000), (2, 0x8091a2f3)], 0x1d3, [(0, 0xffffa2f3)]),
    (0xE6C10072, 0x1d3, [(1, 0xffffffff), (2, 0x8091a2f3)], 0x1d3, [(0, 0x9000f2)]),
    (0xE780F211, 0x1d3, [(1, 0xff10a0), (2, 0xff0020a0)], 0x1d3, [(0, 0x20e)])] : List Vector1).all Vector1.ok = true := by decide +kernel

theorem test_vectors_media_3 : ([(0xE7803211, 0x1d3, [(1, 0xff10a0), (2, 0xff0020a0), (3, 0xffffff00)], 0x1d3, [(0, 0x10e)]),
    (0xE6810FB2, 0x501d3, [(1, 0x11223344), (2, 0xaabbccdd)], 0x501d3, [(0, 0xaa22cc44)])] : List Vector1).all Vector1.ok = true := by decide +kernel

theorem test_vectors_saturation_1 : ([(0xE6A70011, 0x1d3, [(1, 0x123)], 0x80001d3, [(0, 0x7f)]),
    (0xE6A70011, 0x1d3, [(1, 0xfffffe00)], 0x80001d3, [(0, 0xffffff80)]),
    (0xE6AF0051, 0x1d3, [(1, 0x80000000)], 0x1d3, [(0, 0xffffffff)]),
    (0xE6BF0011, 0x1d3, [(1, 0x80000000)], 0x1d3, [(0, 0x80000000)]),
    (0xE6E80011, 0x1d3, [(1, 0x123)], 0x80001d3, [(0, 0xff)]),
    (0xE6E80011, 0x1d3, [(1, 0xffffffff)], 0x80001d3, [(0, 0)]),
    (0xE6FF00D1, 0x1d3, [(1, 0x7ffffffe)], 0x1d3, [(0, 0x3fffffff)]),
    (0xE6FF00D1, 0x1d3, [(1, 0xfffffffe)], 0x80001d3, [(0, 0)]),
    (0xE6A70F31, 0x1d3, [(1, 0x123ff00)], 0x80001d3, [(0, 0x7fff80)]),
    (0xE6AF0F31, 0x1d3, [(1, 0x80017fff)], 0x1d3, [(0, 0x80017fff)]),
    (0xE6E80F31, 0x1d3, [(1, 0x123ff00)], 0x80001d3, [(0, 0xff0000)]),
    (0xE6E00F31, 0x1d3, [(1, 0x10000)], 0x80001d3, [(0, 0)]),
    (0xE1020051, 0x1d3, [(1, 0x7fffffff), (2, 1)], 0x80001d3, [(0, 0x7fffffff)]),
    (0xE1020051, 0x1d3, [(1, 0x80000000), (2, 0xffffffff)], 0x80001d3, [(0, 0x80000000)])] : List Vector1).all Vector1.ok = true := by decide +kernel

theorem test_vectors_saturation_2 : ([(0xE1220051, 0x1d3, [(1, 0x80000000), (2, 1)], 0x80001d3, [(0, 0x80000000)]),
    (0xE1220051, 0x1d3, [(1, 5), (2, 7)], 0x1d3, [(0, 0xfffffffe)]),
    (0xE1420051, 0x1d3, [(1, 0), (2, 0x40000000)], 0x80001d3, [(0, 0x7fffffff)]),
    (0xE1420051, 0x1d3, [(1, 0xffffffff), (2, 0x40000000)], 0x80001d3, [(0, 0x7ffffffe)]),
    (0xE1620051, 0x1d3, [(1, 0), (2, 0x40000000)], 0x80001d3, [(0, 0x80000001)]),
    (0xE1620051, 0x1d3, [(1, 0), (2, 0xc0000000)], 0x80001d3, [(0, 0x7fffffff)])] : List Vector1).all Vector1.ok = true := by decide +kernel

/-- `ldr r0,[r1,r2,ror #8]` -/
theorem test_ldr : Vector2.ok (0xE7910462, 0x1D3, [(1, 0), (2, 0x100400)], vectorBytes, [], 0x1D3, 0x104, [(0, 0xf7e6d5c4)], []) = true := by decide +kernel

/-- `ldr r0,[r1,r2,rrx]` -/
theorem test_ldr_2 : Vector2.ok (0xE7910062, 0x1D3, [(1, 0x1000), (2, 8)], vectorBytes, [], 0x1D3, 0x104, [(0, 0xf7e6d5c4)], []) = true := by decide +kernel

/-- `ldrsh r0,[r1,#-2]` -/
theorem test_ldrsh : Vector2.ok (0xE15100F2, 0x1D3, [(1, 0x1008)], vectorBytes, [], 0x1D3, 0x104, [(0, 0xfffff7e6)], []) = true := by decide +kernel

/-- `ldrsh r0,[r1],#2` -/
theorem test_ldrsh_2 : Vector2.ok (0xE0D100F2, 0x1D3, [(1, 0x1008)], vectorBytes, [], 0x1D3, 0x104, [(0, 0x1908), (1, 0x100a)], []) = true := by decide +kernel

/-- `ldrh r0,[r1,r2]!` -/
theorem test_ldrh : Vector2.ok (0xE1B100B2, 0x1D3, [(1, 0x1000), (2, 0xa)], vectorBytes, [], 0x1D3, 0x104, [(0, 0x3b2a), (1, 0x100a)], []) = true := by decide +kernel

/-- `ldrsb r0,[r1,#8]` -/
theorem test_ldrsb : Vector2.ok (0xE1D100D8, 0x1D3, [(1, 0x1000)], vectorBytes, [], 0x1D3, 0x104, [(0, 8)], []) = true := by decide +kernel

/-- `ldrd r2,r3,[r1],#8` -/
theorem test_ldrd : Vector2.ok (0xE0C120D8, 0x1D3, [(1, 0x1008)], vectorBytes, [], 0x1D3, 0x104, [(1, 0x1010), (2, 0x3b2a1908), (3, 0x7f6e5d4c)], []) = true := by decide +kernel

/-- `strd r2,r3,[r1,#-8]!` -/
theorem test_strd : Vector2.ok (0xE16120F8, 0x1D3, [(1, 0x2008), (2, 0x11223344), (3, 0x55667788)], vectorBytes, [], 0x1D3, 0x104, [(1, 0x2000)], [(8192, 0x44), (8193, 0x33), (8194, 0x22), (8195, 0x11), (8196, 0x88), (8197, 0x77), (8198, 0x66), (8199, 0x55)]) = true := by decide +kernel

/-- `strb r0,[r1,#-1]!` -/
theorem test_strb : Vector2.ok (0xE5610001, 0x1D3, [(0, 0x1234), (1, 0x2001)], vectorBytes, [], 0x1D3, 0x104, [(1, 0x2000)], [(8192, 0x34)]) = true := by decide +kernel

/-- `strh r0,[r1],r2` -/
theorem test_strh : Vector2.ok (0xE08100B2, 0x1D3, [(0, 0xcafebabe), (1, 0x2000), (2, 0x10)], vectorBytes, [], 0x1D3, 0x104, [(1, 0x2010)], [(8192, 0xbe), (8193, 0xba)]) = true := by decide +kernel

/-- `str pc,[r1]` -/
theorem test_str : Vector2.ok (0xE581F000, 0x1D3, [(1, 0x2000)], vectorBytes, [], 0x1D3, 0x104, [], [(8192, 8), (8193, 1)]) = true := by decide +kernel

/-- `ldmia r0,(r1,r2,r3)` -/
theorem test_ldmia : Vector2.ok (0xE890000E, 0x1D3, [(0, 0x3008)], vectorWords, [], 0x1D3, 0x104, [(1, 0xa2), (2, 0xa3), (3, 0xa4)], []) = true := by decide +kernel

/-- `ldmib r0!,(r1,r2,r3)` -/
theorem test_ldmib : Vector2.ok (0xE9B0000E, 0x1D3, [(0, 0x3008)], vectorWords, [], 0x1D3, 0x104, [(0, 0x3014), (1, 0xa3), (2, 0xa4), (3, 0xa5)], []) = true := by decide +kernel

/-- `ldmda r0!,(r1,r2,r3)` -/
theorem test_ldmda : Vector2.ok (0xE830000E, 0x1D3, [(0, 0x3010)], vectorWords, [], 0x1D3, 0x104, [(0, 0x3004), (1, 0xa2), (2, 0xa3), (3, 0xa4)], []) = true := by decide +kernel

/-- `ldmdb r0!,(r1,r2,r3)` -/
theorem test_ldmdb : Vector2.ok (0xE930000E, 0x1D3, [(0, 0x3010)], vectorWords, [], 0x1D3, 0x104, [(0, 0x3004), (1, 0xa1), (2, 0xa2), (3, 0xa3)], []) = true := by decide +kernel

/-- `push (r1,r2,lr)` -/
theorem test_push : Vector2.ok (0xE92D4006, 0x1D3, [(1, 0x11), (2, 0x22), (21, 0x4000), (28, 0x8004)], vectorWords, [], 0x1D3, 0x104, [(21, 0x3ff4)], [(16372, 0x11), (16376, 0x22), (16380, 4), (16381, 0x80)]) = true := by decide +kernel

/-- `pop (r4,pc)` -/
theorem test_pop : Vector2.ok (0xE8BD8010, 0x1D3, [(21, 0x3000)], [], [(12288, 0x77), (12293, 0x90), (12296, 0xa2), (12300, 0xa3), (12304, 0xa4), (12308, 0xa5), (12312, 0xa6), (12316, 0xa7)], 0x1D3, 0x9000, [(4, 0x77), (21, 0x3008)], []) = true := by decide +kernel

/-- `stmib r0,(r0,r1)` -/
theorem test_stmib : Vector2.ok (0xE9800003, 0x1D3, [(0, 0x2000), (1, 5)], vectorWords, [], 0x1D3, 0x104, [], [(8197, 0x20), (8200, 5)]) = true := by decide +kernel

/-- `stmia r0!,(r0,r1)` -/
theorem test_stmia : Vector2.ok (0xE8A00003, 0x1D3, [(0, 0x2000), (1, 5)], vectorWords, [], 0x1D3, 0x104, [(0, 0x2008)], [(8193, 0x20), (8196, 5)]) = true := by decide +kernel

/-- `stmda r0!,(r1,pc)` -/
theorem test_stmda : Vector2.ok (0xE8208002, 0x1D3, [(0, 0x2004), (1, 5)], vectorWords, [], 0x1D3, 0x104, [(0, 0x1ffc)], [(8192, 5), (8196, 8), (8197, 1)]) = true := by decide +kernel

/-- `ldmia r0,(r0,r1)` -/
theorem test_ldmia_2 : Vector2.ok (0xE8900003, 0x1D3, [(0, 0x3000)], vectorWords, [], 0x1D3, 0x104, [(0, 0xa0), (1, 0xa1)], []) = true := by decide +kernel

theorem test_b : gives (placed 0x1d3 0x100 [] []) 0xea00003e (fun t => t.pc == 0x200) = true := by
  decide +kernel

theorem test_b_not_taken : gives (placed 0x400001d3 0x100 [] []) 0x1a00003e (fun t => t.pc == 0x104) = true := by
  decide +kernel

theorem test_bl_backwards : gives (placed 0x1d3 0x200 [] []) 0xebffffbe (fun t => t.pc == 0x100 && holds t [(28,0x204)]) = true := by
  decide +kernel

theorem test_blx_immediate : gives (placed 0x1d3 0x100 [] []) 0xfb00003e (fun t => t.pc == 0x202 && t.cpsr == 0x1F3 && holds t [(28,0x104)]) = true := by
  decide +kernel

theorem test_bx_to_thumb : gives (placed 0x1d3 0x100 [(0, 0x3001)] []) 0xe12fff10 (fun t => t.pc == 0x3000 && t.cpsr == 0x1F3) = true := by
  decide +kernel

theorem test_bx_to_halfword_faults : faults (placed 0x1d3 0x100 [(0, 0x3002)] []) 0xe12fff10 = true := by
  decide +kernel

theorem test_blx_register : gives (placed 0x1d3 0x400 [(0, 0x3000)] []) 0xe12fff30 (fun t => t.pc == 0x3000 && holds t [(28,0x404)]) = true := by
  decide +kernel

theorem test_svc_not_taken : gives (placed 0x400001d3 0x100 [] []) 0x1f0000ff (fun t => t.pc == 0x104 && t.cpsr == 0x400001D3) = true := by
  decide +kernel

theorem test_svc : gives (placed 0x60000010 0x8000 [] []) 0xef000000 (fun t => t.pc == 8 && t.cpsr == 0x60000093 && t.spsr[2] == 0x60000010 && holds t [(28,0x8004)]) = true := by
  decide +kernel

theorem test_smc_in_user_mode : gives (placed 0x10 0x100 [] []) 0xe1600070 (fun t => t.pc == 4 && t.cpsr == 0x9b && holds t [(30,0x104)] && t.spsr[5] == 0x10) = true := by
  decide +kernel

theorem test_smc : gives { (placed 0x13 0x80002000 [] []) with sys := { SysRegs.reset Straps.low with scr := 1, mvbar := 0x8000 } } 0xe1600071 (fun t => t.pc == 0x8008 && t.cpsr == 0x1D6 && t.spsr[3] == 0x13 && holds t [(31,0x80002004)] && t.sys.scr == 1) = true := by
  decide +kernel

theorem test_mrs : gives (placed 0x600001d3 0x100 [] []) 0xe10f0000 (fun t => holds t [(0,0x600001D3)]) = true := by
  decide +kernel

theorem test_mrs_spsr_in_system_mode_faults : faults (placed 0x1df 0x100 [] []) 0xe14f0000 = true := by
  decide +kernel

theorem test_msr_immediate_flags : gives (placed 0x1d3 0x100 [] []) 0xe328f20f (fun t => t.cpsr == 0xF00001D3) = true := by
  decide +kernel

theorem test_msr_immediate_in_user_mode : gives (placed 0x10 0x100 [] []) 0xe328f20f (fun t => t.cpsr == 0xF0000010) = true := by
  decide +kernel

theorem test_msr_register_all_fields : gives (placed 0x1d3 0x100 [(0, 0xffffffff)] []) 0xe12ff000 (fun t => t.cpsr == 0xF80F03DF) = true := by
  decide +kernel

theorem test_msr_register_flags_and_status : gives (placed 0xf80501d3 0x100 [(0, 0xa0000)] []) 0xe12cf000 (fun t => t.cpsr == 0x000A01D3) = true := by
  decide +kernel

theorem test_cps_masks : gives (placed 0x113 0x100 [] []) 0xf10c00c0 (fun t => t.cpsr == 0x1D3) = true := by
  decide +kernel

theorem test_cps_nonmaskable : gives { (placed 0x113 0x100 [] []) with sec := { Banked.reset Straps.low with sctlr := 0x08C50078 } } 0xf10c0040 (fun t => t.cpsr == 0x113) = true := by
  decide +kernel

theorem test_setend : gives (placed 0x1d3 0x100 [] []) 0xf1010200 (fun t => t.cpsr == 0x3D3) = true := by
  decide +kernel

theorem test_srs : gives { (placed 0x1d2 0x100 [(21, 0x8000), (27, 0xa4)] []) with spsr := (#v[0,0x13,0,0,0,0] : Vector Word 6) } 0xf8cd0513 (fun t => wordAt t 0x8000 == 0xA4 && wordAt t 0x8004 == 0x13 && holds t [(21,0x8000)]) = true := by
  decide +kernel

theorem test_rfe : gives (placed 0x1d3 0x100 [(0, 0x8008)] [(0x8000, 0x2000), (0x8004, 0x80000010)]) 0xf9100a00 (fun t => t.pc == 0x2000 && t.cpsr == 0x80000010 && holds t [(0,0x8008)]) = true := by
  decide +kernel

theorem test_wfi : gives (placed 0xd3 0x8000 [] []) 0xe320f003 (fun t => t.run == .standby && t.pc == 0x8004) = true := by
  decide +kernel

theorem test_wfi_disabled : gives { (placed 0x1d3 0x100 [] []) with sys := { SysRegs.reset Straps.low with actlr := 0x100 } } 0xe320f003 (fun t => t.pc == 0x104 && t.run == .running) = true := by
  decide +kernel

theorem test_wfe : gives (placed 0x1d3 0x100 [] []) 0xe320f002 (fun t => t.pc == 0x104 && t.cpsr == 0x1D3 && t.gpr == State.reset.gpr) = true := by
  decide +kernel

theorem test_mrc_sctlr_in_user_mode : gives (placed 0x10 0x100 [] []) 0xee110f10 (fun t => t.pc == 4 && t.cpsr.extractLsb' 0 8 == 0x9b#8 && holds t [(30,0x104)]) = true := by
  decide +kernel

theorem test_mcr_isb_in_user_mode : gives (placed 0x10 0x100 [] []) 0xee070f95 (fun t => t.pc == 0x104) = true := by
  decide +kernel

theorem test_mrc_didr : gives (placed 0x10 0x100 [] []) 0xee100e10 (fun t => holds t [(0,0x15141032)]) = true := by
  decide +kernel

theorem test_mrc_dscr_to_flags : gives { (placed 0xf00001d3 0x100 [] []) with dbg := { Debug.reset Straps.low with dscr := 0x20000002 } } 0xee10fe11 (fun t => t.cpsr == 0x200001D3) = true := by
  decide +kernel

theorem test_mrc_dtr : gives { (placed 0x1d3 0x100 [] []) with dbg := { Debug.reset Straps.low with dscr := 0x40000002, dtrrx := 0xA5A5A5A5 } } 0xee104e15 (fun t => holds t [(4,0xA5A5A5A5)] && !t.dbg.dscr.getLsbD 30) = true := by
  decide +kernel

theorem test_mcr_dtr : gives { (placed 0x1d3 0x100 [(0, 0x2)] []) with dbg := { Debug.reset Straps.low with dscr := 0x20000002, dtrtx := 1 } } 0xee000e15 (fun t => t.dbg.dtrtx == 2 && t.dbg.dscr.getLsbD 29) = true := by
  decide +kernel

theorem test_stc_dtr : gives { (placed 0x1d3 0x100 [(0, 0x9000)] []) with dbg := { Debug.reset Straps.low with dscr := 0x40000002, dtrrx := 0x55 } } 0xeca05e01 (fun t => wordAt t 0x9000 == 0x55 && holds t [(0,0x9004)] && !t.dbg.dscr.getLsbD 30) = true := by
  decide +kernel

theorem test_mcr_teecr_in_user_mode : gives (placed 0x10 0x100 [(0, 0x1)] []) 0xeec00e10 (fun t => t.pc == 4 && t.cpsr.extractLsb' 0 8 == 0x9b#8 && holds t [(30,0x104)]) = true := by
  decide +kernel

theorem test_vmrs_fpsid_denied : gives (placed 0x1d3 0x100 [] []) 0xeef00a10 (fun t => t.pc == 4 && t.cpsr.extractLsb' 0 8 == 0xdb#8 && holds t [(30,0x104)]) = true := by
  decide +kernel

theorem test_vmsr_fpexc : gives { (placed 0x1d3 0x100 [(2, 0x40000000)] []) with sys := { SysRegs.reset Straps.low with cpacr := 0x00F00000 }, vfp := { Vfp.reset with fpexc := 0, fpscr := 0xF0000001 } } 0xeee82a10 (fun t => t.vfp.fpexc == 0x40000000) = true := by
  decide +kernel

theorem test_vmrs_fpscr : gives { (placed 0x10 0x100 [] []) with sys := { SysRegs.reset Straps.low with cpacr := 0x00F00000 }, vfp := { Vfp.reset with fpexc := 0x40000000, fpscr := 0xF0000001 } } 0xeef15a10 (fun t => holds t [(5,0xF0000001)]) = true := by
  decide +kernel

theorem test_mrc_midr : gives (placed 0x1d3 0x100 [] []) 0xee101f10 (fun t => holds t [(1,0x413FC082)]) = true := by
  decide +kernel

theorem test_mrc_midr_in_user_mode : gives (placed 0x10 0x100 [] []) 0xee101f10 (fun t => t.pc == 4 && t.cpsr.extractLsb' 0 8 == 0x9b#8 && holds t [(30,0x104)]) = true := by
  decide +kernel

theorem test_mrc_scr_in_monitor_mode : gives { (placed 0x1d6 0x100 [] []) with sys := { SysRegs.reset Straps.low with scr := 1 } } 0xee110f11 (fun t => holds t [(0,1)]) = true := by
  decide +kernel

theorem test_mrc_scr_nonsecure : gives { (placed 0x113 0x100 [] []) with sys := { SysRegs.reset Straps.low with scr := 1 } } 0xee110f11 (fun t => t.pc == 4 && t.cpsr.extractLsb' 0 8 == 0x9b#8 && holds t [(30,0x104)]) = true := by
  decide +kernel

theorem test_mcr_sctlr_locked : gives { (placed 0x1d3 0x100 [] []) with pins := { Pins.idle with cp15sdisable := true } } 0xee010f10 (fun t => t.pc == 4 && t.cpsr.extractLsb' 0 8 == 0xdb#8 && holds t [(30,0x104)]) = true := by
  decide +kernel

theorem test_mcr_sctlr_nonsecure : gives { (placed 0x113 0x100 [(0, 0x2)] []) with pins := { Pins.idle with cp15sdisable := true }, sys := { SysRegs.reset Straps.low with scr := 1 } } 0xee010f10 (fun t => t.nsec.sctlr == 0x00C5007A - 0x00000000 && t.sec.sctlr == 0xC50078) = true := by
  decide +kernel

theorem test_mrc_ccnt_enabled : gives { (placed 0x10 0x100 [] []) with pmu := { Pmu.reset with useren := 1, ccnt := 77 } } 0xee190f1d (fun t => holds t [(0,77)]) = true := by
  decide +kernel

theorem test_mrc_ccnt_denied : gives (placed 0x10 0x100 [] []) 0xee190f1d (fun t => t.pc == 4 && t.cpsr.extractLsb' 0 8 == 0x9b#8 && holds t [(30,0x104)]) = true := by
  decide +kernel

theorem test_mcr_cntens : gives (placed 0x1d3 0x100 [(0, 0xffffffff)] []) 0xee090f3c (fun t => t.pmu.cnten == 0x8000000F) = true := by
  decide +kernel

theorem test_mcr_cntenc : gives { (placed 0x1d3 0x100 [(0, 0x3)] []) with pmu := { Pmu.reset with cnten := 0x8000000F } } 0xee090f5c (fun t => t.pmu.cnten == 0x8000000C) = true := by
  decide +kernel

theorem test_mrc_tpidruro_in_user_mode : gives { (placed 0x10 0x100 [] []) with sec := { Banked.reset Straps.low with tpidruro := 9 } } 0xee1d0f70 (fun t => holds t [(0,9)]) = true := by
  decide +kernel

theorem test_mcr_tpidruro_in_user_mode : gives (placed 0x10 0x100 [] []) 0xee0d0f70 (fun t => t.pc == 4 && t.cpsr.extractLsb' 0 8 == 0x9b#8 && holds t [(30,0x104)]) = true := by
  decide +kernel

theorem test_mrc_ccsidr : gives (placed 0x1d3 0x100 [] []) 0xee300f10 (fun t => holds t [(0,0xE00FE01A)]) = true := by
  decide +kernel

theorem test_irq : gives { (placed 0x20000010 0x10020 [] []) with pins := { Pins.idle with irq := true } } 0xe1a00000 (fun t => t.pc == 0x18 && t.cpsr == 0x20000192 && t.spsr[1] == 0x20000010 && holds t [(27,0x10024)]) = true := by
  decide +kernel

theorem test_irq_to_monitor : gives { (placed 0x20000010 0x10020 [] []) with pins := { Pins.idle with irq := true }, sys := { SysRegs.reset Straps.low with scr := 2, mvbar := 0x8000 } } 0xe1a00000 (fun t => t.pc == 0x8018 && t.cpsr == 0x200001D6 && t.spsr[3] == 0x20000010 && holds t [(31,0x10024)]) = true := by
  decide +kernel

theorem test_fiq : gives { (placed 0x60000010 0x8000 [] []) with pins := { Pins.idle with fiq := true } } 0xe1a00000 (fun t => t.pc == 0x1c && t.cpsr == 0x600001D1 && t.spsr[0] == 0x60000010 && holds t [(26,0x8004)]) = true := by
  decide +kernel

theorem test_undefined_nonsecure : gives { (placed 0x13 0x80001000 [] []) with sys := { SysRegs.reset Straps.low with scr := 1 }, nsec := { Banked.reset Straps.low with vbar := 0x80000000 } } 0xee110f11 (fun t => t.pc == 0x80000004 && t.cpsr == 0x9B && t.spsr[5] == 0x13 && holds t [(30,0x80001004)] && t.sys.scr == 1) = true := by
  decide +kernel

theorem test_ldr_big_endian : gives (placed 0x3d3 0x100 [(1, 0x1000)] [(0x1000, 0xb3a29180), (0x1004, 0xf7e6d5c4)]) 0xe5910000 (fun t => holds t [(0,0x8091A2B3)]) = true := by
  decide +kernel

theorem test_ldr_unaligned_big_endian : gives { (placed 0x3d3 0x100 [(1, 0x1001)] [(0x1000, 0xb3a29180), (0x1004, 0xf7e6d5c4), (0x4000, 0xc0e)]) with sec := { Banked.reset Straps.low with sctlr := 0xC50079, ttbr0 := 0x4000, dacr := 1 } } 0xe5910000 (fun t => holds t [(0,0x91A2B3C4)]) = true := by
  decide +kernel

theorem test_str_unaligned : gives { (placed 0x1d3 0x100 [(0, 0x11223344), (1, 0x1001)] [(0x1000, 0xb3a29180), (0x1004, 0xf7e6d5c4), (0x4000, 0xc0e)]) with sec := { Banked.reset Straps.low with sctlr := 0xC50079, ttbr0 := 0x4000, dacr := 1 } } 0xe5810000 (fun t => wordAt t 0x1001 == 0x11223344) = true := by
  decide +kernel

theorem test_str_big_endian : gives { (placed 0x1d3 0x100 [(0, 0x11223344), (1, 0x1000)] []) with cpsr := 0x3D3 } 0xe5810000 (fun t => wordAt t 0x1000 == 0x44332211) = true := by
  decide +kernel

theorem test_bkpt_halting : gives { (placed 0x1d3 0x100 [] []) with dbg := { Debug.reset Straps.low with dscr := 0x4002 }, pins := { Pins.idle with dbgen := true, spiden := true } } 0xe1200070 (fun t => t.halted && t.dbg.dscr.extractLsb' 2 4 == 3 && t.pc == 0x100) = true := by
  decide +kernel

theorem test_mcr_absent_coprocessor : gives (placed 0x1d3 0x100 [] []) 0xee000510 (fun t => t.pc == 4 && t.cpsr.extractLsb' 0 8 == 0xdb#8 && holds t [(30,0x104)]) = true := by
  decide +kernel

theorem test_asimd_disabled : gives (placed 0x1d3 0x100 [] []) 0xf2000000 (fun t => t.pc == 4 && t.cpsr.extractLsb' 0 8 == 0xdb#8 && holds t [(30,0x104)]) = true := by
  decide +kernel

theorem test_mul_to_r15_faults : faults (placed 0x1d3 0x100 [] []) 0xe01f0291 = true := by
  decide +kernel

theorem test_ldm_base_in_list_faults : faults (placed 0x1d3 0x100 [(0, 0x1000)] []) 0xe8b00001 = true := by
  decide +kernel

theorem test_ldrd_odd_faults : faults (placed 0x1d3 0x100 [] []) 0xe1c110d0 = true := by
  decide +kernel

/-- LDREX tags the address; STREX stores and gives 0 with the tag, gives 1 and stores nothing without. -/
theorem test_ldrex : gives (placed 0x1D3 0x100 [(1, 0x2000)] [(0x2000, 0x55)]) 0xE1910F9F
    (fun t => holds t [(0, 0x55)] && t.excl == some ⟨false, 0x400⟩) = true := by decide +kernel

theorem test_strex_passes : gives { placed 0x1D3 0x100 [(1, 0x2000), (2, 7)] [] with excl := some ⟨false, 0x400⟩ } 0xE1810F92
    (fun t => holds t [(0, 0)] && wordAt t 0x2000 == 7 && t.excl == none) = true := by decide +kernel

theorem test_strex_fails : gives (placed 0x1D3 0x100 [(1, 0x2000), (2, 7)] []) 0xE1810F92
    (fun t => holds t [(0, 1)] && wordAt t 0x2000 == 0) = true := by decide +kernel

/-- A store-exclusive checks the alignment when the monitor passes, not before (R1736); the status in r15 is a branch (log 58). -/
theorem test_strex_fails_unaligned : gives (placed 0x1D3 0x100 [(1, 0x2001), (2, 7)] []) 0xE1810F92
    (fun t => holds t [(0, 1)] && t.pc == 0x104) = true := by decide +kernel

theorem test_strex_to_r15 : gives (placed 0x1D3 0x100 [(1, 0x2000), (2, 7)] []) 0xE181FF92 (fun t => t.pc == 0) = true := by
  decide +kernel

/-- LDREX with r15 as the base reads the literal at pc + 8. -/
theorem test_ldrex_from_r15 : gives (placed 0x1D3 0x100 [] [(0x108, 0x55)]) 0xE19F0F9F (fun t => holds t [(0, 0x55)]) = true := by
  decide +kernel

/-- MSR of the SPSR with r15 (R1777, log 58). -/
theorem test_msr_spsr_from_r15 : gives (placed 0x1D3 0x100 [] []) 0xE16FF00F (fun t => t.spsr[2] == 0x108) = true := by
  decide +kernel

/-- The identification registers follow the build (R2, R9): MIDR of r1p7, CLIDR without an L2 cache. -/
theorem test_mrc_midr_r1p7 : gives { placed 0x1D3 0x100 [] [] with build := { Build.default with revision := .r1p7 } } 0xEE101F10
    (fun t => holds t [(1, 0x411FC087)]) = true := by decide +kernel

theorem test_mrc_clidr_without_l2 : gives { placed 0x1D3 0x100 [] [] with build := { Build.default with l2Size := .k0 } }
    0xEE300F30 (fun t => holds t [(0, 0x0A000003)]) = true := by decide +kernel

theorem test_swp : gives (placed 0x1D3 0x100 [(1, 0x2000), (2, 7)] [(0x2000, 9)]) 0xE1010092
    (fun t => holds t [(0, 9)] && wordAt t 0x2000 == 7) = true := by decide +kernel

theorem test_clrex : gives { placed 0x1D3 0x100 [] [] with excl := some ⟨false, 0x400⟩ } 0xF57FF01F
    (fun t => t.excl == none && t.pc == 0x104) = true := by decide +kernel

/-! ## The statements' hypotheses are met

One theorem for each statement with hypotheses, `test_witness_<Name>`: concrete states and operands that meet them, for
each clause. -/

/-- Supervisor mode with r1 = 0x2000 and a saved status that names User mode. -/
def svc : State := { started 0x1D3 [(1, 0x2000)] with spsr := Vector.replicate 6 0x10 }

/-- User mode, Monitor mode, and the Nonsecure state in Supervisor mode. -/
def usr : State := started 0x1D0 [(1, 0x2000)]
def mon : State := started 0x1D6 [(1, 0x2000)]
def nonsecure : State := { svc with sys := { svc.sys with scr := 1 } }
def nonsecureUsr : State := { usr with sys := { usr.sys with scr := 1 } }

/-- Debug state with the invasive debug inputs LOW, in User mode. -/
def haltedUsr : State := { usr with dbg := { usr.dbg with dscr := 0x3 } }

/-- Both preload channels run. -/
def preloading : State :=
  { svc with ple := { svc.ple with chan := Vector.replicate 2 { PleChannel.reset with status := 2, ctxid := 5 } } }

/-- The NEON/VFP unit is enabled, with access for all modes. -/
def vfpEnabled : State :=
  { svc with sys := { svc.sys with cpacr := 0x00F00000 }, vfp := { svc.vfp with fpexc := 0x40000000 } }

/-- No debug register is mapped in the default build. -/
theorem noPort : NoPort svc := ⟨rfl, rfl, rfl⟩

/-- A state with the MMU off on the default platform, outside a debugger's reach. -/
theorem direct_of {s : State} (hp : NoPort s)
    (h : (!s.cur.sctlr.getLsbD 0 && s.bus.isEmpty && !s.pins.dbgen && s.gaps.isEmpty) = true) : Direct s := by
  simp only [Bool.and_eq_true, Bool.not_eq_true', List.isEmpty_iff] at h
  exact ⟨h.1.1.1, h.1.1.2, hp, h.1.2, h.2⟩

theorem test_direct : Direct svc ∧ Direct usr ∧ Direct mon ∧ Direct nonsecure := by
  refine ⟨?_, ?_, ?_, ?_⟩ <;> exact direct_of noPort (by decide +kernel)

/-- A state in which the next step is the core's own. -/
theorem turn_of {s : State} (h : (s.schedule.isEmpty && !s.held && s.pins.coreUp && !s.halted && s.run == .running &&
    !s.dbg.dscr.getLsbD 13 && !s.pins.clkstopreq && !s.pins.dbgen) = true) : Turn s := by
  simp only [Bool.and_eq_true, Bool.not_eq_true', List.isEmpty_iff, beq_iff_eq] at h
  obtain ⟨⟨⟨⟨⟨⟨⟨a, b⟩, c⟩, d⟩, e⟩, f⟩, g⟩, i⟩ := h
  exact ⟨a, b, c, d, e, f, g, i⟩

theorem test_turn : Turn svc ∧ Turn usr := ⟨turn_of (by decide +kernel), turn_of (by decide +kernel)⟩

theorem test_restorable : Restorable 0x10 ∧ Restorable 0x3F := by
  refine ⟨⟨?_, ?_⟩, ⟨?_, ?_⟩⟩ <;> decide +kernel

/-- The conditions hold and fail (R1353). -/
theorem test_condition : condPassed 14 svc = true ∧ condPassed 1 svc = true ∧ condPassed 0 svc = false := by decide +kernel

theorem test_witness_DataProcessingImmediate :
    (∃ f, f ∈ dataImm) ∧ (14 : BitVec 4) ≠ 15 ∧ condPassed 14 svc = true :=
  ⟨⟨_, .head _⟩, by decide +kernel, by decide +kernel⟩

theorem test_witness_DataProcessingShiftedImmediate :
    (∃ f, f ∈ dataReg) ∧ (14 : BitVec 4) ≠ 15 ∧ condPassed 14 svc = true :=
  ⟨⟨_, .head _⟩, by decide +kernel, by decide +kernel⟩

/-- First clause with r14 everywhere; the second with r15 as Rs, as Rm, and as Rn of an operation that reads it. -/
theorem test_witness_DataProcessingShiftedRegister :
    (∃ f, f ∈ dataRsr) ∧ condPassed 14 svc = true ∧ (14 : BitVec 4) ≠ 15 ∧
    (let stops (f : AluOp) (rs rm rn : BitVec 4) : Prop := rs = 15 ∨ rm = 15 ∨ (rn = 15 ∧ f ≠ .mov ∧ f ≠ .mvn)
     (∃ f ∈ dataRsr, stops f.1 15 0 0) ∧ (∃ f ∈ dataRsr, stops f.1 0 15 0) ∧ ∃ f ∈ dataRsr, stops f.1 0 0 15) :=
  ⟨⟨_, .head _⟩, by decide +kernel, by decide +kernel, ⟨_, .head _, by decide⟩, ⟨_, .head _, by decide⟩,
    ⟨_, .head _, by decide⟩⟩

theorem test_witness_Comparisons :
    condPassed 14 svc = true ∧ (∃ f, f ∈ testImm) ∧ (∃ f, f ∈ testReg) ∧ ∃ f, f ∈ testRsr :=
  ⟨by decide +kernel, ⟨_, .head _⟩, ⟨_, .head _⟩, ⟨_, .head _⟩⟩

theorem test_witness_ShifterOperands : (1 : BitVec 5) ≠ 0 ∧ (31 : BitVec 5) ≠ 0 := by decide

/-- The least shift of LSL, and LSR with the shift that its encoding gives as 0. -/
theorem test_witness_ShiftAliases :
    (14 : BitVec 4) ≠ 15 ∧ condPassed 14 svc = true ∧ (∃ f ∈ shiftImm, f.1 = 0 → (1 : BitVec 5) ≠ 0) ∧
    (∃ f ∈ shiftImm, f.1 = 0 → (0 : BitVec 5) ≠ 0) ∧ ∃ f, f ∈ shiftRsr :=
  ⟨by decide +kernel, by decide +kernel, ⟨_, .head _, by decide⟩, ⟨_, .tail _ (.head _), by decide⟩, ⟨_, .head _⟩⟩

/-- A mode with a saved status that can be restored, one without, and operands that are no `MOV pc, lr`. -/
theorem test_witness_DataProcessingToPc :
    condPassed 14 svc = true ∧ svc.halted = false ∧ svc.spsr? = some 0x10 ∧ Restorable 0x10 ∧
    (∃ f ∈ dataReg, ¬ (f.1 = .mov ∧ (0 : BitVec 5) = 0 ∧ (0 : BitVec 2) = 0 ∧ (14 : BitVec 4) = 14)) ∧
    (∃ f, f ∈ dataImm) ∧ (∃ f, f ∈ dataRsr) ∧ condPassed 14 usr = true ∧ usr.halted = false ∧ usr.spsr? = none :=
  ⟨by decide +kernel, by decide +kernel, by decide +kernel, test_restorable.1, ⟨_, .head _, by decide⟩, ⟨_, .head _⟩,
    ⟨_, .head _⟩, by decide +kernel, by decide +kernel, by decide +kernel⟩

theorem test_witness_MoveWideAndCount :
    condPassed 14 svc = true ∧ (14 : BitVec 4) ≠ 15 ∧
    (let stops (rd rm : BitVec 4) : Prop := rd = 15 ∨ rm = 15
     stops 15 0 ∧ stops 0 15) := ⟨by decide +kernel, by decide, .inl rfl, .inr rfl⟩

theorem test_witness_MultiplySettingFlags :
    condPassed 14 svc = true ∧ (15 : BitVec 4) ∉ [14, 13, 12, (0 : BitVec 4)] ∧ (14 : BitVec 4) ≠ 13 ∧ ∃ f, f ∈ mulLongS :=
  ⟨by decide +kernel, by decide, by decide, ⟨_, .head _⟩⟩

theorem test_witness_MultiplyLeavingFlags :
    condPassed 14 svc = true ∧ (15 : BitVec 4) ∉ [14, 13, 12, (0 : BitVec 4)] ∧ (14 : BitVec 4) ≠ 13 ∧
    (∃ f, f ∈ mulPlain) ∧ (∃ f, f ∈ mulAcc) ∧ ∃ f, f ∈ mulLong :=
  ⟨by decide +kernel, by decide, by decide, ⟨_, .head _⟩, ⟨_, .head _⟩, ⟨_, .head _⟩⟩

theorem test_witness_MultiplySettingQ :
    condPassed 14 svc = true ∧ (15 : BitVec 4) ∉ [14, 13, 12, (0 : BitVec 4)] ∧ (∃ f, f ∈ mulQ) ∧ ∃ f, f ∈ mulAccQ :=
  ⟨by decide +kernel, by decide, ⟨_, .head _⟩, ⟨_, .head _⟩⟩

theorem test_witness_MultiplyUnpredictable :
    condPassed 14 svc = true ∧ (15 : BitVec 4) ∈ [15, 1, (2 : BitVec 4)] ∧ (15 : BitVec 4) ∈ [0, 15, 1, (2 : BitVec 4)] ∧
    ((15 : BitVec 4) ∈ [0, 0, 1, (2 : BitVec 4)] ∨ (0 : BitVec 4) = 0) ∧ (∃ f, f ∈ mulPlain ++ mulQ) ∧
    (∃ f, f ∈ mulAcc ++ mulAccQ) ∧ (∃ f, f ∈ mulLong) ∧ ∃ f, f ∈ mulLongS :=
  ⟨by decide +kernel, by decide, by decide, by decide, ⟨_, .head _⟩, ⟨_, .head _⟩, ⟨_, .head _⟩, ⟨_, .head _⟩⟩

/-- The last element of a byte form and the first of a halfword form. -/
theorem test_witness_ParallelArithmetic :
    condPassed 14 svc = true ∧ (15 : BitVec 4) ∉ [14, 13, (0 : BitVec 4)] ∧
    (∃ f ∈ parallels, f.1.2.2[3]? = some (3, 3, false) ∧ f.1.1 = .s ∧ 8 * 3 / f.1.2.1 = 3) ∧
    ∃ f ∈ parallels, f.1.2.2[0]? = some (0, 0, false) ∧ 8 * 0 / f.1.2.1 = 0 :=
  ⟨by decide +kernel, by decide, ⟨_, .tail _ (.tail _ (.tail _ (.tail _ (.head _)))), rfl, rfl, rfl⟩,
    ⟨_, .head _, rfl, rfl⟩⟩

theorem test_witness_SaturatingArithmetic :
    condPassed 14 svc = true ∧ (15 : BitVec 4) ∉ [14, 13, (0 : BitVec 4)] ∧ ∃ f, f ∈ saturating :=
  ⟨by decide +kernel, by decide, ⟨_, .head _⟩⟩

theorem test_witness_Extensions :
    condPassed 14 svc = true ∧ (14 : BitVec 4) ≠ 15 ∧ (∃ f, f ∈ extends1) ∧ ∃ f, f ∈ extends2 :=
  ⟨by decide +kernel, by decide, ⟨_, .head _⟩, ⟨_, .head _⟩⟩

/-- Each clause at the ends of its range: the field 31 to 31 and 0 to 31, an empty field, and widths that just fit and
just do not. -/
theorem test_witness_BitFields :
    condPassed 14 svc = true ∧ (14 : BitVec 4) ≠ 15 ∧ (31 : BitVec 5) ≤ 31 ∧ (0 : BitVec 5) ≤ 31 ∧ (30 : BitVec 5) < 31 ∧
    (31 : BitVec 5).toNat + (0 : BitVec 5).toNat < 32 ∧ (0 : BitVec 5).toNat + (31 : BitVec 5).toNat < 32 ∧
    32 ≤ (1 : BitVec 5).toNat + (31 : BitVec 5).toNat := by decide +kernel

theorem test_witness_BytesAndHalfwords :
    condPassed 14 svc = true ∧ (15 : BitVec 4) ∉ [14, 13, 12, (0 : BitVec 4)] ∧ ∃ f, f ∈ reversals :=
  ⟨by decide +kernel, by decide, ⟨_, .head _⟩⟩

theorem test_witness_Branches : condPassed 14 svc = true ∧ svc.halted = false := by decide +kernel

/-- An instruction that is no branch, and BL; neither condition holds. -/
theorem test_witness_ConditionFails :
    (condOf (encode (.addImm 0 0 1 2 3)) ≠ 15 ∧ (∀ c x y, Instr.addImm 0 0 1 2 3 ≠ .bkpt c x y) ∧
      (¬ ∃ c x, Instr.addImm 0 0 1 2 3 = .b c x ∨ Instr.addImm 0 0 1 2 3 = .bl c x) ∧
      condPassed (condOf (encode (.addImm 0 0 1 2 3))) svc = false) ∧
    condOf (encode (.bl 0 5)) ≠ 15 ∧ (∀ c x y, Instr.bl 0 5 ≠ .bkpt c x y) ∧
    (∃ c x, Instr.bl 0 5 = .b c x ∨ Instr.bl 0 5 = .bl c x) ∧ condPassed (condOf (encode (.bl 0 5))) svc = false := by
  refine ⟨⟨by decide +kernel, ?_, ?_, by decide +kernel⟩, by decide +kernel, ?_, ⟨0, 5, .inr rfl⟩, by decide +kernel⟩
  · intro c x y h
    cases h
  · rintro ⟨c, x, h | h⟩ <;> cases h
  · intro c x y h
    cases h

theorem test_witness_ExceptionCalls :
    condPassed 14 svc = true ∧ svc.halted = false ∧ svc.mode ≠ .usr ∧
    condPassed 14 usr = true ∧ usr.halted = false ∧ usr.mode = .usr := by decide +kernel

/-- Halting debug, monitor debug, and no debug. -/
theorem test_witness_Breakpoint :
    let debugging (dscr : Word) : State :=
      { svc with pins := { svc.pins with dbgen := true, spiden := true }, dbg := { svc.dbg with dscr := dscr } }
    (debugging 0x4000).halted = false ∧ (debugging 0x4000).debugResponse = .halts ∧
    (debugging 0x4000).cpsr.getLsbD 5 = false ∧
    (debugging 0x8000).halted = false ∧ (debugging 0x8000).debugResponse = .raises ∧
    svc.halted = false ∧ svc.debugResponse = .ignored ∧ (13 : BitVec 4) ≠ 14 := by decide +kernel

/-- Operand fields: base r1, offset register r2, no offset, pre-indexed without write-back, or post-indexed. -/
def plainFields (rt : BitVec 4) : LsFields := ⟨14, 1, 1, 0, 1, rt, 0, 0, 0, 2, 0, 0⟩
def backFields (rt : BitVec 4) : LsFields := ⟨14, 0, 1, 0, 1, rt, 0, 0, 0, 2, 0, 0⟩

theorem test_witness_Loads : Direct svc ∧ condPassed 14 svc = true ∧ ∀ f ∈ loads, ∀ rt ∈ [(0 : BitVec 4), 14, 15],
    (f.2.allows (backFields rt) [rt] ∧ (f.2.address (backFields rt) svc).toNat % f.2.size = 0) ∧
    f.2.allows (plainFields rt) [rt] ∧ (f.2.address (plainFields rt) svc).toNat % f.2.size = 0 := by
  refine ⟨test_direct.1, by decide +kernel, fun f hf => ?_⟩
  simp only [loads, List.mem_cons, List.not_mem_nil, or_false] at hf
  rcases hf with rfl | rfl | rfl | rfl | rfl | rfl | rfl | rfl | rfl | rfl | rfl | rfl | rfl | rfl | rfl | rfl | rfl |
    rfl | rfl | rfl <;> unfold LsForm.allows <;> decide +kernel

theorem test_witness_Stores : Direct svc ∧ Memory.wf svc.mem = true ∧ condPassed 14 svc = true ∧
    (∃ f ∈ stores, ¬ (f.size = 4 ∧ f.user = false)) ∧ (∃ f ∈ stores, f.size = 4 ∧ f.user = false) ∧
    ∀ f ∈ stores, ∀ rt ∈ [(0 : BitVec 4), 14, 15],
    (f.allows (backFields rt) [rt] ∧ (f.address (backFields rt) svc).toNat % f.size = 0) ∧
    f.allows (plainFields rt) [rt] ∧ (f.address (plainFields rt) svc).toNat % f.size = 0 := by
  refine ⟨test_direct.1, by decide +kernel, by decide +kernel, ⟨_, .tail _ (.tail _ (.head _)), by decide⟩,
    ⟨_, .head _, by decide⟩, fun f hf => ?_⟩
  simp only [stores, List.mem_cons, List.not_mem_nil, or_false] at hf
  rcases hf with rfl | rfl | rfl | rfl | rfl | rfl | rfl | rfl | rfl | rfl | rfl | rfl <;>
    unfold LsForm.allows <;> decide +kernel

/-- r4 and r5, and r12 and r13, at an address aligned to 8. -/
theorem test_witness_Doublewords : Direct svc ∧ Memory.wf svc.mem = true ∧ condPassed 14 svc = true ∧
    ∀ f ∈ loadPairs ++ storePairs, ∀ rt ∈ [(4 : BitVec 4), 12], rt.getLsbD 0 = false ∧ rt ≠ 14 ∧
      f.allows (backFields rt) [rt, rt + 1] ∧ (backFields rt).rm ≠ rt ∧ (backFields rt).rm ≠ rt + 1 ∧
      (f.address (backFields rt) svc).toNat % (if svc.cur.sctlr.getLsbD 1 then 8 else 4) = 0 := by
  refine ⟨test_direct.1, by decide +kernel, by decide +kernel, fun f hf => ?_⟩
  simp only [loadPairs, storePairs, List.cons_append, List.nil_append, List.mem_cons, List.not_mem_nil, or_false] at hf
  rcases hf with rfl | rfl | rfl | rfl <;> unfold LsForm.allows <;> decide +kernel

/-- One register, all but the base and r15, and a list with r15 and a write-back. -/
theorem test_witness_LoadMultiple : Direct svc ∧ Restorable 0x10 ∧ condPassed 14 svc = true ∧ (1 : BitVec 4) ≠ 15 ∧
    ([0x0001, 0x7FFD, 0x8001].all fun regs : BitVec 16 => regs != 0 && regs.getLsbD 1 == false &&
      (blockLow 0 1 (svc.reg 1) (below regs 16)).toNat % 4 == 0) = true ∧
    (0x7FFD : BitVec 16).getLsbD 15 = false ∧ (0x8001 : BitVec 16).getLsbD 15 = true ∧
    svc.halted = false ∧ svc.spsr? = some 0x10 ∧ svc.mode ≠ .usr ∧ svc.mode ≠ .sys :=
  ⟨test_direct.1, test_restorable.1, by decide +kernel⟩

/-- The base first in the list, last, and not in it. -/
theorem test_witness_StoreMultiple : Direct svc ∧ Memory.wf svc.mem = true ∧ condPassed 14 svc = true ∧
    (1 : BitVec 4) ≠ 15 ∧ svc.cur.fcse.extractLsb' 25 7 = 0 ∧
    ([0x0002, 0xFFFE, 0x8001].all fun regs : BitVec 16 => regs != 0 && (!regs.getLsbD 1 || below regs 1 == 0) &&
      (blockLow 1 0 (svc.reg 1) (below regs 16)).toNat % 4 == 0) = true ∧
    svc.mode ≠ .usr ∧ svc.mode ≠ .sys :=
  ⟨test_direct.1, by decide +kernel⟩

theorem test_witness_Swap : Direct svc ∧ Memory.wf svc.mem = true ∧ condPassed 14 svc = true ∧
    (15 : BitVec 4) ∉ [1, 14, (13 : BitVec 4)] ∧ (1 : BitVec 4) ≠ 14 ∧ (1 : BitVec 4) ≠ 13 ∧ (svc.reg 1).toNat % 4 = 0 :=
  ⟨test_direct.1, by decide +kernel⟩

/-- The local monitor open, exclusive for the address, and exclusive for its neighbour, in the least and the greatest granule; the
global monitor that refuses; r12 and r13 as a pair, the status in r14 and in r15; each kind of registers the rule forbids. -/
theorem test_witness_Exclusives :
    let tagged (k : Nat) (g : Word) : State := { svc with build := { svc.build with exclGranule := k }, excl := some ⟨false, g⟩ }
    let tag (s : State) : ExclTag := ⟨!s.secure, mvaOf s.cur (s.reg 1) >>> s.build.exclGranule⟩
    let refused : State := { tagged 3 0x400 with exclRefused := true }
    Direct svc ∧ Direct (tagged 3 0x400) ∧ Direct refused ∧
    Memory.wf svc.mem = true ∧ condPassed 14 svc = true ∧ (12 : BitVec 4) ≠ 15 ∧
    (15 : BitVec 4) ≠ 1 ∧ (15 : BitVec 4) ≠ 12 ∧ svc.halted = false ∧ (15 : BitVec 4) ≠ 12 + 1 ∧
    ((1 : BitVec 4) = 1 ∨ (1 : BitVec 4) = 12) ∧ ((12 : BitVec 4) = 1 ∨ (12 : BitVec 4) = 12) ∧
    (svc.reg 1).toNat % 8 = 0 ∧ (12 : BitVec 4).getLsbD 0 = false ∧ (12 : BitVec 4) ≠ 14 ∧ (14 : BitVec 4) ≠ 1 ∧
    (14 : BitVec 4) ≠ 12 ∧ (14 : BitVec 4) ≠ 12 + 1 ∧
    (tagged 3 0x400).excl = some (tag (tagged 3 0x400)) ∧ (tagged 11 4).excl = some (tag (tagged 11 4)) ∧
    (tagged 3 0x401).excl ≠ some (tag (tagged 3 0x401)) ∧ (tagged 11 5).excl ≠ some (tag (tagged 11 5)) ∧
    svc.excl ≠ some (tag svc) ∧ (tagged 3 0x400).exclRefused = false ∧
    Memory.wf (tagged 3 0x400).mem = true ∧ condPassed 14 (tagged 3 0x400) = true ∧
    refused.excl = some (tag refused) ∧ refused.exclRefused = true ∧ condPassed 14 refused = true :=
  ⟨test_direct.1, direct_of noPort (by decide +kernel), direct_of noPort (by decide +kernel), by decide +kernel⟩

/-- A word one byte off and a halfword at the last byte before a word. -/
theorem test_witness_AlignmentFaults :
    let odd : State := started 0x1D3 [(1, 0x2001)]
    Direct odd ∧ condPassed 14 odd = true ∧ odd.halted = false ∧ (14 : BitVec 4) ≠ 15 ∧
    (∃ f ∈ loads, f.2.allows (plainFields 14) [14] ∧ (f.2.address (plainFields 14) odd).toNat % f.2.size ≠ 0) ∧
    ∃ f ∈ stores, f.allows (backFields 14) [14] ∧ (f.address (backFields 14) odd).toNat % f.size ≠ 0 := by
  refine ⟨direct_of noPort (by decide +kernel), by decide +kernel, by decide +kernel, by decide, ⟨_, .head _, ?_⟩,
    ⟨_, .tail _ (.tail _ (.tail _ (.tail _ (.head _)))), ?_⟩⟩ <;> unfold LsForm.allows <;> decide +kernel

theorem test_witness_Hints : condPassed 14 svc = true ∧ condPassed 14 haltedUsr = true := by decide +kernel

theorem test_witness_StatusRegisterReads : condPassed 14 svc = true ∧ (14 : BitVec 4) ≠ 15 ∧ svc.spsr? = some 0x10 ∧
    condPassed 14 usr = true ∧ usr.spsr? = none := by decide +kernel

/-- A value that names a mode, one that names none, and modes with and without a saved status. -/
theorem test_witness_StatusRegisterWrites : condPassed 14 svc = true ∧ svc.halted = false ∧ svc.mode ≠ .usr ∧
    Mode.ofBits (0x1F : BitVec 5) = some .sys ∧ Mode.ofBits (0x1E : BitVec 5) = none ∧ svc.mode.spsrNo = some 2 ∧
    condPassed 14 usr = true ∧ usr.halted = false ∧ usr.mode = .usr ∧ usr.spsr? = none ∧
    (14 : BitVec 4) ≠ 15 ∧ (1 : BitVec 4) ≠ 0 ∧ ((15 : BitVec 4) = 15 ∨ (1 : BitVec 4) = 0) ∧
    ((14 : BitVec 4) = 15 ∨ (0 : BitVec 4) = 0) := by decide +kernel

/-- Each kind of operands the rule forbids, allowed operands in both kinds of mode, and a mode number that is none. -/
theorem test_witness_ChangeProcessorState :
    let sets (imod : BitVec 2) : Bool := imod = 2 ∨ imod = 3
    let bad (imod : BitVec 2) (m a i f : BitVec 1) (mode : BitVec 5) : Bool :=
      imod = 1 ∨ (imod = 0 ∧ m = 0) ∨ (sets imod ∧ a = 0 ∧ i = 0 ∧ f = 0) ∨ (m = 0 ∧ mode ≠ 0) ∨
      (¬ sets imod ∧ (a = 1 ∨ i = 1 ∨ f = 1))
    bad 1 1 1 0 0 0 ∧ bad 0 0 0 0 0 0 ∧ bad 2 0 0 0 0 0 ∧ bad 3 0 1 0 0 1 ∧ bad 0 1 0 0 1 0x13 ∧
    ¬ bad 2 0 0 1 0 0 ∧ ¬ bad 0 1 0 0 0 0x1F ∧ ¬ bad 0 1 0 0 0 0x1E ∧ Mode.ofBits (0x1E : BitVec 5) = none ∧
    svc.halted = false ∧ svc.mode ≠ .usr ∧ usr.halted = false ∧ usr.mode = .usr := by
  decide +kernel

theorem test_witness_ReturnState :
    Direct svc ∧
    (∃ s : State, Direct s ∧ Restorable (loadAt s (s.reg 1 + 4) 4) ∧
      s.halted = false ∧ s.mode ≠ .usr ∧ (s.reg 1).toNat % 4 = 0) ∧
    svc.halted = false ∧ svc.spsr? = some 0x10 ∧ Mode.ofBits (0x16 : BitVec 5) = some .mon ∧
    svc.secure = true ∧ Memory.wf svc.mem = true ∧ (svc.regOf .mon 13 - 8).toNat % 4 = 0 ∧
    usr.spsr? = none ∧ Mode.ofBits (0x00 : BitVec 5) = none ∧ nonsecure.secure = false ∧
    (1 : BitVec 4) ≠ 15 ∧ svc.mode ≠ .usr ∧ (svc.reg 1 + 4).toNat % 4 = 0 ∧ usr.halted = false ∧ usr.mode = .usr := by
  refine ⟨test_direct.1, ⟨{ svc with mem := memWrite [] 0x2004 0x10 }, direct_of noPort (by decide +kernel), ?_,
    by decide +kernel⟩, by decide +kernel⟩
  unfold Restorable
  decide +kernel

/-- The rights to the system registers are given and denied: by the mode, by the security state and NSACR, by
CP15SDISABLE, by USEREN, TEECR, DSCR[12] and the preload engine's access register, and in debug state. -/
theorem test_rights :
    (privilegedRight svc ∧ ¬ privilegedRight usr) ∧ (userRight usr ∧ ¬ userRight haltedUsr) ∧
    (secureRight svc ∧ ¬ secureRight nonsecure) ∧
    (nsacrRight 18 svc ∧ ¬ nsacrRight 18 nonsecure ∧
      nsacrRight 18 { nonsecure with sys := { nonsecure.sys with nsacr := 0x40000 } }) ∧
    (pinRight svc ∧ ¬ pinRight { svc with pins := { svc.pins with cp15sdisable := true } }) ∧
    (arrayRight svc ∧ ¬ arrayRight nonsecure) ∧
    (countRight svc ∧ ¬ countRight usr ∧ countRight { usr with pmu := { usr.pmu with useren := 1 } }) ∧
    (teehbrRight usr ∧ ¬ teehbrRight { usr with sys := { usr.sys with teecr := 1 } }) ∧
    (debugRight usr ∧ ¬ debugRight { usr with dbg := { usr.dbg with dscr := 0x1000 } }) ∧
    (channelRight svc ∧ ¬ channelRight usr ∧ channelRight { usr with ple := { usr.ple with userAcc := 1 } }) ∧
    (channelsRight svc ∧ ¬ channelsRight usr) := by decide +kernel

theorem test_witness_IdentificationRegisters : condPassed 14 svc = true ∧ privilegedRight svc = true ∧
    condPassed 14 usr = true ∧ privilegedRight usr = false ∧ ∃ e, e ∈ identification := by
  refine ⟨?_, ?_, ?_, ?_, ⟨_, .head _⟩⟩ <;> decide +kernel

/-- Every register has a state in which it can be read. -/
theorem test_witness_SystemRegisterReads : condPassed 14 svc = true ∧ condPassed 14 haltedUsr = true ∧
    ∀ e ∈ systemReads ++ unitReads, e.1 svc = true := by
  refine ⟨by decide +kernel, by decide +kernel, fun e he => ?_⟩
  exact List.all_eq_true.mp (by decide +kernel : (systemReads ++ unitReads).all (fun e => e.1 svc) = true) e he

/-- Every register has a state in which it can be written; r14 and r15 as the source. -/
theorem test_witness_SystemRegisterWrites : condPassed 14 svc = true ∧ (14 : BitVec 4) ≠ 15 ∧ (15 : BitVec 4) = 15 ∧
    ∀ e ∈ systemWrites ++ unitWrites, e.1 svc = true := by
  refine ⟨by decide +kernel, by decide, rfl, fun e he => ?_⟩
  exact List.all_eq_true.mp (by decide +kernel : (systemWrites ++ unitWrites).all (fun e => e.1 svc) = true) e he

/-- A channel that runs while each of the registers changes, and an idle one. -/
theorem test_witness_MemoryConfigurationWrites : condPassed 14 svc = true ∧ preloadRuns svc = false ∧
    condPassed 14 preloading = true ∧ preloadRuns preloading = true ∧
    ∀ e ∈ guardedWrites, e.1 preloading = true ∧ e.2.1 preloading 1 = true := by
  refine ⟨?_, ?_, ?_, ?_, fun e he => ?_⟩
  iterate 4 decide +kernel
  have h := List.all_eq_true.mp
    (by decide +kernel : guardedWrites.all (fun e => e.1 preloading && e.2.1 preloading 1) = true) e he
  simpa using h

/-- The first and the last counter, a selection past the last, and a running and a stopped cycle counter. -/
theorem test_witness_PerformanceCounters :
    let selecting (n : Word) (s : State) : State := { s with pmu := { s.pmu with pmnxsel := n } }
    condPassed 14 svc = true ∧ countRight svc = true ∧ (selecting 0 svc).pmu.pmnxsel.extractLsb' 0 5 = 0#5 ∧
    (selecting 3 svc).pmu.pmnxsel.extractLsb' 0 5 = 3#5 ∧ 4 ≤ ((selecting 4 svc).pmu.pmnxsel.extractLsb' 0 5).toNat ∧
    countRight (selecting 4 svc) = true ∧ countRight (selecting 4 usr) = false ∧
    (let on (s : State) : State := { s with pmu := { s.pmu with pmnc := 0x41002001, cnten := 0x80000000 } }
     (on svc).pmu.pmnc.getLsbD 0 && (on svc).pmu.cnten.getLsbD 31) = true ∧
    (svc.pmu.pmnc.getLsbD 0 && svc.pmu.cnten.getLsbD 31) = false := by decide +kernel

theorem test_witness_PreloadChannels : condPassed 14 svc = true ∧ channelRight svc = true ∧
    svc.ple.chan[channelNo svc].status.extractLsb' 0 2 ≠ 2 ∧ condPassed 14 preloading = true ∧
    channelRight preloading = true ∧ preloading.ple.chan[channelNo preloading].status.extractLsb' 0 2 = 2 ∧
    (let denied : State := { preloading with cpsr := 0x1D0 }
     channelRight denied = false ∧ denied.ple.chan[channelNo denied].status.extractLsb' 0 2 = 2) := by decide +kernel

theorem test_witness_TlbMaintenance : condPassed 14 svc = true ∧ privilegedRight svc = true ∧ ∃ e, e ∈ tlbOperations :=
  ⟨by decide +kernel, by decide +kernel, ⟨_, .head _⟩⟩

theorem test_witness_ArrayOperations : condPassed 14 svc = true ∧ arrayRight svc = true ∧ condPassed 14 usr = true ∧
    arrayRight usr = false ∧ (∃ e, e ∈ arrayReads) ∧ ∃ i, i ∈ arrayWrites := by
  refine ⟨?_, ?_, ?_, ?_, ⟨_, .head _⟩, ⟨_, .head _⟩⟩ <;> decide +kernel

/-- A dirty line of the L1 data cache and one of the L2 cache that hold address 0x2000 (set 0 of 128, set 128 of 512). -/
def lineL1 : CacheLine := ⟨0, 3, 0x80, false, 0xF, .writeBackAllocate, 0x55⟩
def lineL2 : CacheLine := ⟨128, 7, 0x80, false, 0x9, .writeBackAllocate, 0x66⟩

/-- No line; a dirty L1 line that the L2 cache holds too, does not hold, and is off for; a line in the L2 cache alone; the
right, and none for the instruction cache in User mode outside debug state only. -/
theorem test_witness_CacheMaintenance :
    let l2on : State := { svc with l2 := [lineL2] }
    let l1on : State := { svc with l1d := [lineL1] }
    let both : State := { svc with l1d := [lineL1], l2 := [lineL2] }
    let l2off : State := { l1on with sec := { svc.sec with l2en := false } }
    NoPort svc ∧
    condPassed 14 svc = true ∧ privilegedRight svc = true ∧ privilegedRight usr = false ∧ svc.cur.sctlr.getLsbD 0 = false ∧
    (privilegedRight usr || usr.halted) = false ∧ (privilegedRight haltedUsr || haltedUsr.halted) = true ∧
    svc.bus = [] ∧ Memory.wf svc.mem = true ∧ Slots svc.l1d ∧ Slots both.l1d ∧ Slots both.l2 ∧
    svc.build.l1Size.sets = 128 ∧ svc.build.l2Size.sets = 512 ∧
    lineOf svc.l1d 128 (!svc.secure) 0x2000 = none ∧ lineOf svc.l2 512 (!svc.secure) 0x2000 = none ∧
    lineOf l2on.l1d 128 (!l2on.secure) 0x2000 = none ∧ lineOf l2on.l2 512 (!l2on.secure) 0x2000 = some lineL2 ∧
    lineOf both.l1d 128 (!both.secure) 0x203F = some lineL1 ∧ lineOf both.l2 512 (!both.secure) 0x203F = some lineL2 ∧
    lineL1.dirty ≠ 0 ∧ goesToL2 both lineL1 = true ∧ both.l2.any (sameAddress both lineL1) = true ∧
    goesToL2 l1on lineL1 = true ∧ l1on.l2.any (sameAddress l1on lineL1) = false ∧ goesToL2 l2off lineL1 = false := by
  refine ⟨noPort, ?_⟩
  unfold Slots
  decide +kernel

/-- Level 0 at set 0, way 3 and level 1 at set 128, way 7, each with a line and empty; the first level that is none; the Secure
lines seen from the Nonsecure state, and with the L2 cache off. -/
theorem test_witness_SetWayMaintenance :
    let s : State := { svc with l1d := [lineL1], l2 := [lineL2] }
    let n : State := { nonsecure with l1d := [lineL1], l2 := [lineL2], nsec := { svc.nsec with l2en := false } }
    NoPort s ∧ NoPort n ∧
    condPassed 14 s = true ∧ privilegedRight s = true ∧ privilegedRight usr = false ∧ s.bus = [] ∧ Memory.wf s.mem = true ∧ s.build.l1Size.sets = 128 ∧ s.build.l2Size.sets = 512 ∧ goesToL2 s lineL1 = true ∧
    ((0xC0000000 : Word).extractLsb' 1 3).toNat = 0 ∧ lineIn s.l1d 0 3 = some lineL1 ∧ lineIn svc.l1d 0 3 = none ∧
    ((0xE0002002 : Word).extractLsb' 1 3).toNat = 1 ∧ (0xE0002002 : Word).toNat / 64 % 512 = 128 ∧
    lineIn s.l2 128 7 = some lineL2 ∧ lineIn svc.l2 128 7 = none ∧
    2 ≤ ((0x4 : Word).extractLsb' 1 3).toNat ∧ (14 : BitVec 4) ≠ 15 ∧
    condPassed 14 n = true ∧ privilegedRight n = true ∧ n.bus = [] ∧ Memory.wf n.mem = true ∧
    (!n.secure && !lineL1.ns) = true ∧ goesToL2 n lineL1 = false :=
  ⟨noPort, noPort, by decide +kernel⟩

theorem test_witness_AddressTranslationOff : condPassed 14 svc = true ∧ svc.cur.sctlr.getLsbD 0 = false ∧
    svc.nsec.sctlr.getLsbD 0 = false ∧ privilegedRight svc = true ∧ secureRight svc = true ∧ nsacrRight 17 svc = true := by
  decide +kernel

/-- Both directions of the right, a write-back of r15, an aligned address with the offset at its greatest. -/
theorem test_witness_DebugRegisters :
    Direct svc ∧ condPassed 14 svc = true ∧ debugRight svc = true ∧ Memory.wf svc.mem = true ∧
    (svc.reg 1 + ((0xFF : BitVec 8) ++ 0#2).setWidth 32).toNat % 4 = 0 ∧
    debugRight { usr with dbg := { usr.dbg with dscr := 0x1000 } } = false ∧
    condPassed 14 { usr with dbg := { usr.dbg with dscr := 0x1000 } } = true ∧
    ((1 : BitVec 1) = 1 ∧ (15 : BitVec 4) = 15) ∧ ¬ ((0 : BitVec 1) = 1 ∧ (15 : BitVec 4) = 15) :=
  ⟨test_direct.1, by decide +kernel⟩

theorem test_witness_VfpRegisters : condPassed 14 vfpEnabled = true ∧ vfpGate vfpEnabled = true ∧ vfpOn vfpEnabled = true ∧
    (∀ e ∈ vfpReads, e.1 vfpEnabled = true) ∧ (∀ e ∈ vfpWrites, e.1 vfpEnabled = true) ∧
    vfpGate svc = false ∧ vfpOn svc = false := by
  refine ⟨by decide +kernel, by decide +kernel, by decide +kernel, fun e he => ?_, fun e he => ?_, by decide +kernel,
    by decide +kernel⟩
  · exact List.all_eq_true.mp (by decide +kernel : vfpReads.all (fun e => e.1 vfpEnabled) = true) e he
  · exact List.all_eq_true.mp (by decide +kernel : vfpWrites.all (fun e => e.1 vfpEnabled) = true) e he

theorem test_witness_CoprocessorClasses : condPassed 14 vfpEnabled = true ∧ vfpGate vfpEnabled = true ∧
    vfpOn vfpEnabled = true ∧ condPassed 14 svc = true ∧ vfpGate svc = false := by decide +kernel

theorem test_witness_UserModeEscape : usr.mode = .usr ∧ usr.halted = false ∧
    (∃ t, exec (.nop 14) usr = .next t ∧ t.mode = .usr) ∧
    (∃ t, exec (.svc 14 0) usr = .next t ∧ t.mode = .svc ∧ t.spsr? = some usr.cpsr) := by
  refine ⟨by decide +kernel, by decide +kernel, ⟨_, rfl, by decide +kernel⟩, ⟨_, rfl, by decide +kernel, by decide +kernel⟩⟩

theorem test_witness_NonsecureIsolation : nonsecure.secure = false ∧ nonsecure.halted = false ∧
    ∃ t, exec (.mcrTtbr0 14 1) nonsecure = .next t ∧ t.secure = false ∧ t.nsec.ttbr0 = 0x2000 := by
  refine ⟨by decide +kernel, by decide +kernel, ⟨_, rfl, by decide +kernel, by decide +kernel⟩⟩

theorem test_witness_StepKeepsInvariant : Inv svc ∧ ∃ t, step (svc.withFetchWord 32 0xE320F000) = .next t :=
  ⟨⟨by decide +kernel, by unfold LegalMode; decide +kernel, by unfold PcAligned; decide +kernel⟩, ⟨_, rfl⟩⟩

theorem test_witness_RoundTrip : (Instr.lslImm 14 0 1 2 3).wf = true ∧ (Instr.p15Other 14 5 0 3 2 6 9).wf = true := by
  decide +kernel

/-- A NOP is fetched and decoded at 0x100; nothing is pending. Then the same after an exit from Monitor mode, where an ISB ends
what began there and a NOP does not. -/
theorem test_witness_StepRunsDecoded :
    let s := svc.withFetchWord 32 0xE320F000
    let left : State := { s with monitorLeft := true }
    Turn s ∧ Turn left ∧ Direct s ∧
    (∃ s1, fetchChecked s.pc s = .ok 0xE320F000 s1 ∧ s1.abortDue = none ∧ s1.monitorLeft = false) ∧
    (∃ s1 t, fetchChecked left.pc left = .ok 0xE320F000 s1 ∧ s1.abortDue = none ∧ s1.monitorLeft = true ∧
      exec (.nop 14) s1 = .next t ∧ t.monitorLeft = true) ∧
    (∃ t, exec (.isb 15) left = .next t ∧ t.monitorLeft = false) ∧
    due s s.pins.fiq 6 = false ∧ due s s.pins.irq 7 = false ∧ s.cpsr.getLsbD 5 = false ∧ s.cpsr.getLsbD 24 = false ∧
    decodeWord 0xE320F000 = .ok (.nop 14) ∧ s.l1i = [] ∧ s.l2 = [] ∧ s.late = [] ∧ s.abortDue = none ∧
    s.monitorLeft = false ∧ decodeWord (BitVec.ofNat 32 (numberLE (bytesAt s s.pc 4))) = .ok (.nop 14) := by
  refine ⟨turn_of (by decide +kernel), turn_of (by decide +kernel), direct_of noPort (by decide +kernel),
    ⟨_, rfl, by decide +kernel⟩, ⟨_, _, rfl, by decide +kernel, by decide +kernel, rfl, by decide +kernel⟩,
    ⟨_, rfl, by decide +kernel⟩, by decide +kernel⟩

theorem test_witness_BankedRegisters :
    svc.cpsr.extractLsb' 0 5 = 0b10011 ∧ svc.mode = .svc ∧ (14 : BitVec 4) ≠ 15 ∧ sameBank .usr .sys 14 = true ∧
    sameBank .usr .svc 13 = false ∧ sameBank .fiq .usr 8 = false ∧ sameBank .fiq .usr 7 = true := by decide +kernel

theorem test_witness_MemoryCanonical :
    let m := memWrite [] 5 7
    Memory.wf m = true ∧ Memory.wf (memWrite m 5 0) = true ∧ memRead m 5 = 7 ∧ memWrite m 5 0 = [] := by decide +kernel

/-- A fast interrupt, an interrupt, and a Prefetch Abort of an address at which the platform answers an error. -/
theorem test_witness_InterruptsAndAborts :
    let open' : State := started 0x13 []
    let fiq : State := { open' with pins := { open'.pins with fiq := true } }
    let irq : State := { open' with pins := { open'.pins with irq := true } }
    let bad : State := { open' with bus := [⟨0x100, 0x103, false, false, true, true⟩] }
    let fiqRouted : State := { fiq with sys := { fiq.sys with scr := 4 } }
    let irqRouted : State := { irq with sys := { irq.sys with scr := 2 } }
    (∀ s ∈ [fiq, fiqRouted, irq, irqRouted, bad], Turn s) ∧
    (∃ a s1, fetchChecked bad.pc bad = .abort a s1 ∧ s1.abortRouted a = false) ∧
    due fiq fiq.pins.fiq 6 = true ∧ fiq.sys.scr.getLsbD 2 = false ∧
    due fiqRouted fiqRouted.pins.fiq 6 = true ∧ fiqRouted.sys.scr.getLsbD 2 = true ∧
    due irq irq.pins.fiq 6 = false ∧ due irq irq.pins.irq 7 = true ∧ irq.sys.scr.getLsbD 1 = false ∧
    due irqRouted irqRouted.pins.irq 7 = true ∧ irqRouted.sys.scr.getLsbD 1 = true ∧
    due bad bad.pins.fiq 6 = false ∧ due bad bad.pins.irq 7 = false ∧ bad.cpsr.getLsbD 5 = false ∧
    bad.cpsr.getLsbD 24 = false := by
  refine ⟨fun s hs => ?_, ⟨_, _, rfl, by decide +kernel⟩, by decide +kernel⟩
  simp only [List.mem_cons, List.not_mem_nil, or_false] at hs
  rcases hs with rfl | rfl | rfl | rfl | rfl <;> exact turn_of (by decide +kernel)

/-- The MMU on in one security state, with the first-level table at 0x4000 of its memory; the descriptor of the first megabyte
is `d`. -/
def translating (secure : Bool) (d dacr : Word) : State :=
  let on (b : Banked) : Banked := { b with sctlr := 0x00C50079, ttbr0 := 0x4000, dacr := dacr }
  { svc with
    sec := if secure then on svc.sec else svc.sec
    nsec := if secure then svc.nsec else on svc.nsec
    mem := (List.range 4).foldl (fun m i => memWrite m (memKey (!secure) (0x4000 + BitVec.ofNat 32 i)) (d.extractLsb' (8 * i) 8)) [] }

/-- The word of the first descriptor, put together as the statement does. -/
def descriptorOf (s : State) (secure : Bool) : Word :=
  let b := s.bank secure
  let at' (i : Nat) : Byte :=
    memRead s.mem (memKey (!secure) ((b.ttbr0.extractLsb' 14 18 ++ (0x2000 : Word).extractLsb' 20 12 ++ 0#2) + BitVec.ofNat 32 i))
  at' 3 ++ at' 2 ++ at' 1 ++ at' 0

/-- What the statement asks of the state, for the address 0x2000 in r1, and of the operations for it. -/
def translates (secure : Bool) (d dacr : Word) : Bool :=
  let s := translating secure d dacr
  let b := s.bank secure
  b.sctlr.getLsbD 0 && !b.sctlr.getLsbD 2 && !b.sctlr.getLsbD 25 && !b.sctlr.getLsbD 29 && b.ttbcr == 0 &&
    s.bus.isEmpty && s.late.isEmpty && (tlbHits s.dtlb 0x2000 (b.contextidr.extractLsb' 0 8) secure).isEmpty &&
    (tlbHits s.itlb 0x2000 (b.contextidr.extractLsb' 0 8) secure).isEmpty &&
    descriptorOf s secure == d && b.dacr == dacr && condPassed 14 s && mvaOf b (s.reg 1) == 0x2000 &&
    s.secure && nsacrRight 17 s && privilegedRight s && secureRight s

/-- In either security state: a fault descriptor of either kind; a section in a domain without access, as client with and
without permission, and as manager. -/
theorem test_witness_SectionTranslation :
    (∀ secure d dacr, NoPort (translating secure d dacr)) ∧
    ([true, false].all fun secure =>
      translates secure 0 1 && translates secure 3 1 && translates secure 0x00000C02 0 && translates secure 0x00000C02 1 &&
      translates secure 0x00000002 1 && translates secure 0x00000002 2 && translates secure 0x00000002 3) = true ∧
    permits 3 false false .write = true ∧ permits 0 false true .read = false ∧ permits 0 false false .fetch = false ∧
    (∃ e ∈ translations, e.1.2 = (true, .read) ∧ true = (svc.secure && !e.1.1)) ∧
    ∃ e ∈ translations, e.1.2 = (true, .read) ∧ false = (svc.secure && !e.1.1) :=
  ⟨fun _ _ _ => noPort, by decide +kernel, by decide, by decide, by decide, ⟨_, .head _, rfl, by decide +kernel⟩,
    ⟨_, .tail _ (.tail _ (.tail _ (.tail _ (.head _)))), rfl, by decide +kernel⟩⟩

/-- The VA to PA operations and the TLB preload with the MMU on: 0x2000 lies in a section at 0x12300000; the domain is closed
(PAR 0x13, R370); a preload makes the entry. -/
theorem test_va_to_pa : gives (translating true 0x12300C02 1) 0xee071f18 (fun t =>
    t.sec.par.extractLsb' 12 20 == 0x12302#20 && !t.sec.par.getLsbD 0) = true := by decide +kernel

theorem test_va_to_pa_fails : gives (translating false 0x12300C02 0) 0xee071f98 (fun t => t.sec.par == 0x13) = true := by
  decide +kernel

theorem test_dtlb_preload : gives (translating true 0x12300C02 1) 0xee0a1f11 (fun t =>
    (t.dtlb[0].map (·.mva)) == some 0x2#20 && t.pc == 0x104) = true := by decide +kernel

theorem test_itlb_preload : (match exec (.mcrItlbPreload 14 1) (translating true 0x12300C02 0) with
    | .next t => t.dtlb == svc.dtlb && (t.itlb[0].map (·.mva)) == some 0x2#20 && t.pc == 0x104
    | _ => false) = true := by decide +kernel

end Sys2Proof.Tests

end
end

section
/-! The identification registers (O35): what an MRC of each one executes as, and so what it gives. -/

noncomputable section

namespace Sys2Proof.Machine

open Safety

/-- MIDR as the model composes it from the numbers n and m of rnpm is the value printed for the revision (00_scope.md R2). -/
theorem midr_eq_midrOf (r : Revision) : r.midr = midrOf r := by
  cases r <;> rfl

/-- CLIDR by the size of the L2 cache (11_cp15_id.md R182). -/
theorem clidr_eq_of_l2Size (k : Build) : k.clidr = if k.l2Size = .k0 then 0x0A000003 else 0x0A000023 := by
  unfold Build.clidr Build.hasL2
  by_cases h : k.l2Size = .k0 <;> simp [h]

/-- The instructions `i` are reads of a register that holds `v`, with the privileged right (40_cp15_instructions.md R1451). -/
def ReadsPrivileged (v : State → Word) (i : BitVec 4 → BitVec 4 → Instr) : Prop :=
  ∀ cond rt s, exec (i cond rt) s = readSys cond rt s.sysPriv (v s) s

/-- What such a read gives: by `readSys_gives`, as `State.sysPriv` is the privileged right. -/
theorem ReadsPrivileged.gives {v : State → Word} {i : BitVec 4 → BitVec 4 → Instr} (h : ReadsPrivileged v i)
    {cond rt : BitVec 4} {s : State} (hc : condPassed cond s = true) :
    ReadGives s rt (privilegedRight s) (v s) (exec (i cond rt) s) := by
  rw [h cond rt s, ← halted_mono s]
  exact readSys_gives hc s.sysPriv (v s)

/-- The value may be written in any way that is equal to it in every state. -/
theorem ReadsPrivileged.congr {v w : State → Word} {i : BitVec 4 → BitVec 4 → Instr} (h : ReadsPrivileged v i)
    (hvw : ∀ s, v s = w s) : ReadsPrivileged w i :=
  funext hvw ▸ h

/-- MIDR (under each of its opcodes) and CLIDR are values of the build that the list writes otherwise than the model; the others
stand in both as they are. -/
theorem readsPrivileged_identification : ∀ e ∈ identification, ReadsPrivileged e.1 e.2 := by
  have midr {i} (h : ReadsPrivileged (fun s => s.build.revision.midr) i) :
      ReadsPrivileged (fun s => midrOf s.build.revision) i := h.congr fun s => midr_eq_midrOf s.build.revision
  have clidr : ReadsPrivileged (fun s => if s.build.l2Size = .k0 then 0x0A000003 else 0x0A000023) .mrcClidr :=
    ReadsPrivileged.congr (v := fun s => s.build.clidr) (fun _ _ _ => rfl) fun s => clidr_eq_of_l2Size s.build
  simp only [identification, List.forall_mem_cons]
  refine ⟨midr ?_, midr ?_, midr ?_, midr ?_, ?ctr, ?tcmtr, ?tlbtr, ?mpidr, ?pfr0, ?pfr1, ?dfr0, ?afr0,
    ?mmfr0, ?mmfr1, ?mmfr2, ?mmfr3, ?isar0, ?isar1, ?isar2, ?isar3, ?isar4, ?isar5, ?isar6, ?isar7,
    clidr, ?siliconId, List.forall_mem_nil _⟩
  all_goals exact fun _ _ _ => rfl

/-- The reserved feature registers read as zero, whatever their opcode and CRm (R1478). -/
theorem readsPrivileged_featureReserved (opc2 : BitVec 3) (cRm : BitVec 4) :
    ReadsPrivileged (fun _ => 0) fun cond rt => .mrcFeatureReserved cond rt opc2 cRm :=
  fun _ _ _ => rfl

/-- Settles O35: each instruction of the list is a privileged read of the value that the list gives for it. -/
theorem identificationRegisters : Obligations.IdentificationRegisters := by
  intro cond rt s hc
  exact ⟨fun e he => (readsPrivileged_identification e he).gives hc,
    fun opc2 cRm => (readsPrivileged_featureReserved opc2 cRm).gives hc⟩

end Sys2Proof.Machine

end
end

section
/-! The registers of the modes (O57; 10_state.md R53): which bank a mode sees, and which SPSR it has. -/

namespace Sys2Proof.Machine

open Safety

/-- CPSR.M selects the mode whose bits it holds. -/
theorem State.mode_of_bits {s : State} {m : Mode} (h : s.cpsr.extractLsb' 0 5 = m.bits) : s.mode = m := by
  rw [State.mode, h]; cases m <;> rfl

theorem State.privileged_iff (s : State) : s.privileged = true ↔ s.mode ≠ .usr := by simp [State.privileged]

/-- What `regOf_setRegOf` says of physical registers, said of register numbers and banks. -/
theorem State.regOf_setRegOf_bank (s : State) (m k : Mode) {n j : BitVec 4} (hn : n ≠ 15) (hj : j ≠ 15) (v : Word) :
    (s.setRegOf m n v).regOf k j = if n = j ∧ sameBank m k n then v else s.regOf k j := by
  have hreg : physReg m n = physReg k j ↔ n = j ∧ sameBank m k n = true := by
    by_cases hnj : n = j
    · subst hnj; simp [sameBank_iff m k n hn]
    · simp [hnj, physReg_ne m k n j hn hj hnj]
  rw [State.regOf_setRegOf]
  simp only [hreg]

theorem Mode.spsrNo_eq_none_iff (m : Mode) : m.spsrNo = none ↔ m = .usr ∨ m = .sys := by
  cases m <;> decide

/-- No two modes share an SPSR. -/
theorem Mode.spsrNo_injective {m k : Mode} {i : Fin 6} (hm : m.spsrNo = some i) (hk : k.spsrNo = some i) : k = m := by
  revert i; cases m <;> cases k <;> decide

@[simp] theorem State.setSpsr_mode (s : State) (m : Mode) (v : Word) : (s.setSpsr m v).mode = s.mode :=
  State.mode_congr (State.setSpsr_cpsr s m v)

theorem State.spsr?_eq_none_iff (s : State) : s.spsr? = none ↔ s.mode = .usr ∨ s.mode = .sys := by
  rw [State.spsr?, Option.map_eq_none_iff, Mode.spsrNo_eq_none_iff]

/-- A write of the current mode's SPSR is read back. -/
theorem State.spsr?_setSpsr_self (s : State) (v : Word) (h : s.spsr? ≠ none) : (s.setSpsr s.mode v).spsr? = some v := by
  rw [State.spsr?, State.setSpsr_mode]
  unfold State.setSpsr
  cases hi : s.mode.spsrNo with
  | none => exact absurd (by rw [State.spsr?, hi]; rfl) h
  | some i => exact congrArg some (Vector.getElem_set_self i.isLt)

/-- A write of another mode's SPSR does not show. -/
theorem State.spsr?_setSpsr_of_ne (s : State) {k : Mode} (v : Word) (h : k ≠ s.mode) :
    (s.setSpsr k v).spsr? = s.spsr? := by
  rw [State.spsr?, State.spsr?, State.setSpsr_mode]
  refine Option.map_congr fun i hi => ?_
  unfold State.setSpsr
  split
  · rfl
  · next j hj => exact Vector.getElem_set_ne j.isLt i.isLt fun hji => h (Mode.spsrNo_injective hi (Fin.ext hji ▸ hj))

/-- Settles O57: the table of modes row by row, registers by their banks, SPSRs by their owners. -/
theorem bankedRegisters : Obligations.BankedRegisters := by
  intro s m k n j v
  refine ⟨?modes, s.privileged_iff, fun _ => rfl, fun hn hj => s.regOf_setRegOf_bank m k hn hj v,
    ?ownSpsr, ?noSpsr, ?otherSpsr⟩
  case modes =>
    intro e he hbits
    refine State.mode_of_bits (hbits.trans ?_)
    clear hbits
    revert e
    decide
  case ownSpsr =>
    rintro husr hsys rfl
    exact s.spsr?_setSpsr_self v fun hnone => (s.spsr?_eq_none_iff.1 hnone).elim husr hsys
  case noSpsr => rintro rfl; exact s.spsr?_eq_none_iff
  case otherSpsr => rintro rfl hk; exact s.spsr?_setSpsr_of_ne v hk

end Sys2Proof.Machine

end

section
/-! The reset state (O49, O50; 70_reset_and_hazards.md R2212 to R2217). -/

namespace Sys2Proof.Machine

open Safety

theorem resetWith_secure (k : Build) (p : Straps) : (State.resetWith k p).secure = true := by
  have hscr : (State.resetWith k p).sys.scr = 0 := rfl
  simp [State.secure, hscr]

/-- Both copies of the banked registers start alike. -/
theorem resetWith_bank (k : Build) (p : Straps) (secure : Bool) : (State.resetWith k p).bank secure = Banked.reset p := by
  cases secure <;> rfl

theorem resetWith_channel (k : Build) (p : Straps) (c : Fin 2) : (State.resetWith k p).ple.chan[c] = PleChannel.reset :=
  Vector.getElem_replicate c.isLt

theorem resetWith_tlbs (k : Build) (p : Straps) (i : Fin 32) :
    (State.resetWith k p).itlb[i] = none ∧ (State.resetWith k p).dtlb[i] = none :=
  ⟨Vector.getElem_replicate i.isLt, Vector.getElem_replicate i.isLt⟩

/-- Settles O49: CPSR and SCTLR, which the straps shape, by their own lemmas; the other fields hold the constants that
`State.resetWith` writes (0x42 in the L2 Auxiliary Control Register of every build is log 4). -/
theorem resetValues : Obligations.ResetValues := by
  intro k p
  obtain ⟨_, hA, hI, hF, hJ, hT, hE⟩ := cpsrReset_spec p
  obtain ⟨hfixed, hte, hnmfi, hee, hv⟩ := sctlrReset_spec p
  refine ⟨rfl, resetWith_mode k p, resetWith_secure k p, hA, hI, hF, hJ, hT, hE, rfl, rfl, rfl, rfl, rfl,
    fun secure => ?bank, rfl, rfl, rfl, rfl, rfl, rfl, rfl, rfl, rfl, rfl, rfl, rfl, rfl, fun c => ?channel, rfl, rfl, rfl,
    resetWith_tlbs k p⟩
  case bank =>
    rw [resetWith_bank]
    exact ⟨hfixed, hte, hnmfi, hee, hv, rfl, rfl, rfl, rfl, rfl, rfl⟩
  case channel => rw [resetWith_channel]; rfl

/-- Memory is the empty list; the mode and the pc are those of `reset_fields`. -/
theorem inv_resetWith (k : Build) (p : Straps) : Inv (State.resetWith k p) := by
  obtain ⟨hmode, hpc⟩ := reset_fields p
  refine ⟨rfl, hmode, (pcAligned_nat _).2 fun _ => ?_⟩
  rw [show (State.resetWith k p).pc = resetVector p from rfl]
  split <;> omega

/-- Settles O50: `State.reset` is one of the reset states. -/
theorem resetInvariant : Obligations.ResetInvariant :=
  ⟨inv_resetWith _ _, inv_resetWith⟩

end Sys2Proof.Machine

end

section
/-! The invariant of the machine (O51): every instruction keeps it, so every step does. -/

namespace Sys2Proof.Machine

open Safety

/-- Executing any instruction keeps what `Sound` says. The split has the arms of `exec`, each closed by the lemma about the
meaning that the arm calls. -/
theorem sound_exec (i : Instr) (s : State) : SoundO s (exec i s) :=
  match i with
  | .cps imod m a ib f mode => sound_execCps imod m a ib f mode s
  | .setend e => sound_execSetend e s
  | .pliImm u rn imm12 => sound_execPliImm u rn imm12 s
  | .pliReg u rn imm5 typ rm => sound_execPliReg u rn imm5 typ rm s
  | .pldImm u rn imm12 => sound_execPldImm u rn imm12 s
  | .pldReg u rn imm5 typ rm => sound_execPldReg u rn imm5 typ rm s
  | .pldwImm u rn imm12 => sound_execPldwImm u rn imm12 s
  | .pldwReg u rn imm5 typ rm => sound_execPldwReg u rn imm5 typ rm s
  | .memHintImm u lo => sound_execMemHintImm u lo s
  | .memHintReg u mid lo => sound_execMemHintReg u mid lo s
  | .clrex => sound_execClrex s
  | .dsb opt => sound_execDsb opt s
  | .dmb opt => sound_execDmb opt s
  | .isb opt => sound_execIsb opt s
  | .srs p u w mode => sound_execSrs p u w mode s
  | .rfe p u w rn => sound_execRfe p u w rn s
  | .blxImm h imm24 => sound_execBlxImm h imm24 s
  | .asimdData bits => sound_execAsimdData bits s
  | .asimdLoadStore hi lo => sound_execAsimdLoadStore hi lo s
  | .coproc2LoadStore bits => sound_execCoproc2LoadStore bits s
  | .coproc2Reg bits => sound_execCoproc2Reg bits s
  | .uncondOther bits => sound_execUncondOther bits s
  | .mrs cond r rd => sound_execMrs cond r rd s
  | .msrCpsrReg cond fieldMask rn => sound_execMsrCpsrReg cond fieldMask rn s
  | .msrSpsrReg cond fieldMask rn => sound_execMsrSpsrReg cond fieldMask rn s
  | .bx cond rm => sound_execBx cond rm s
  | .bxj cond rm => sound_execBxj cond rm s
  | .blxReg cond rm => sound_execBlxReg cond rm s
  | .clz cond rd rm => sound_execClz cond rd rm s
  | .qadd cond rn rd rm => sound_execQadd cond rn rd rm s
  | .qsub cond rn rd rm => sound_execQsub cond rn rd rm s
  | .qdadd cond rn rd rm => sound_execQdadd cond rn rd rm s
  | .qdsub cond rn rd rm => sound_execQdsub cond rn rd rm s
  | .bkpt cond imm12 imm4 => sound_execBkpt cond imm12 imm4 s
  | .smc cond imm4 => sound_execSmc cond imm4 s
  | .smlabb cond rd ra rm rn => sound_execSmlabb cond rd ra rm rn s
  | .smlabt cond rd ra rm rn => sound_execSmlabt cond rd ra rm rn s
  | .smlatb cond rd ra rm rn => sound_execSmlatb cond rd ra rm rn s
  | .smlatt cond rd ra rm rn => sound_execSmlatt cond rd ra rm rn s
  | .smlawb cond rd ra rm rn => sound_execSmlawb cond rd ra rm rn s
  | .smlawt cond rd ra rm rn => sound_execSmlawt cond rd ra rm rn s
  | .smulwb cond rd rm rn => sound_execSmulwb cond rd rm rn s
  | .smulwt cond rd rm rn => sound_execSmulwt cond rd rm rn s
  | .smlalbb cond rdHi rdLo rm rn => sound_execSmlalbb cond rdHi rdLo rm rn s
  | .smlalbt cond rdHi rdLo rm rn => sound_execSmlalbt cond rdHi rdLo rm rn s
  | .smlaltb cond rdHi rdLo rm rn => sound_execSmlaltb cond rdHi rdLo rm rn s
  | .smlaltt cond rdHi rdLo rm rn => sound_execSmlaltt cond rdHi rdLo rm rn s
  | .smulbb cond rd rm rn => sound_execSmulbb cond rd rm rn s
  | .smulbt cond rd rm rn => sound_execSmulbt cond rd rm rn s
  | .smultb cond rd rm rn => sound_execSmultb cond rd rm rn s
  | .smultt cond rd rm rn => sound_execSmultt cond rd rm rn s
  | .swp cond rn rt rt2 => sound_execSwp cond rn rt rt2 s
  | .swpb cond rn rt rt2 => sound_execSwpb cond rn rt rt2 s
  | .ldrex cond rn rt => sound_execLdrex cond rn rt s
  | .ldrexd cond rn rt => sound_execLdrexd cond rn rt s
  | .ldrexb cond rn rt => sound_execLdrexb cond rn rt s
  | .ldrexh cond rn rt => sound_execLdrexh cond rn rt s
  | .strex cond rn rd rt => sound_execStrex cond rn rd rt s
  | .strexd cond rn rd rt => sound_execStrexd cond rn rd rt s
  | .strexb cond rn rd rt => sound_execStrexb cond rn rd rt s
  | .strexh cond rn rd rt => sound_execStrexh cond rn rd rt s
  | .mul cond sf rd rm rn => sound_execMul cond sf rd rm rn s
  | .mla cond sf rd ra rm rn => sound_execMla cond sf rd ra rm rn s
  | .umaal cond rdHi rdLo rm rn => sound_execUmaal cond rdHi rdLo rm rn s
  | .mls cond rd ra rm rn => sound_execMls cond rd ra rm rn s
  | .umull cond sf rdHi rdLo rm rn => sound_execUmull cond sf rdHi rdLo rm rn s
  | .umlal cond sf rdHi rdLo rm rn => sound_execUmlal cond sf rdHi rdLo rm rn s
  | .smull cond sf rdHi rdLo rm rn => sound_execSmull cond sf rdHi rdLo rm rn s
  | .smlal cond sf rdHi rdLo rm rn => sound_execSmlal cond sf rdHi rdLo rm rn s
  | .strhtImm cond u rn rt imm4H imm4L => sound_execStrhtImm cond u rn rt imm4H imm4L s
  | .strhtReg cond u rn rt rm => sound_execStrhtReg cond u rn rt rm s
  | .ldrhtImm cond u rn rt imm4H imm4L => sound_execLdrhtImm cond u rn rt imm4H imm4L s
  | .ldrhtReg cond u rn rt rm => sound_execLdrhtReg cond u rn rt rm s
  | .ldrsbtImm cond u rn rt imm4H imm4L => sound_execLdrsbtImm cond u rn rt imm4H imm4L s
  | .ldrsbtReg cond u rn rt rm => sound_execLdrsbtReg cond u rn rt rm s
  | .ldrshtImm cond u rn rt imm4H imm4L => sound_execLdrshtImm cond u rn rt imm4H imm4L s
  | .ldrshtReg cond u rn rt rm => sound_execLdrshtReg cond u rn rt rm s
  | .strhImm cond p u w rn rt imm4H imm4L => sound_execStrhImm cond p u w rn rt imm4H imm4L s
  | .strhReg cond p u w rn rt rm => sound_execStrhReg cond p u w rn rt rm s
  | .ldrhImm cond p u w rn rt imm4H imm4L => sound_execLdrhImm cond p u w rn rt imm4H imm4L s
  | .ldrhReg cond p u w rn rt rm => sound_execLdrhReg cond p u w rn rt rm s
  | .ldrsbImm cond p u w rn rt imm4H imm4L => sound_execLdrsbImm cond p u w rn rt imm4H imm4L s
  | .ldrsbReg cond p u w rn rt rm => sound_execLdrsbReg cond p u w rn rt rm s
  | .ldrshImm cond p u w rn rt imm4H imm4L => sound_execLdrshImm cond p u w rn rt imm4H imm4L s
  | .ldrshReg cond p u w rn rt rm => sound_execLdrshReg cond p u w rn rt rm s
  | .ldrdImm cond p u w rn rt imm4H imm4L => sound_execLdrdImm cond p u w rn rt imm4H imm4L s
  | .ldrdReg cond p u w rn rt rm => sound_execLdrdReg cond p u w rn rt rm s
  | .strdImm cond p u w rn rt imm4H imm4L => sound_execStrdImm cond p u w rn rt imm4H imm4L s
  | .strdReg cond p u w rn rt rm => sound_execStrdReg cond p u w rn rt rm s
  | .movw cond imm4 rd imm12 => sound_execMovw cond imm4 rd imm12 s
  | .movt cond imm4 rd imm12 => sound_execMovt cond imm4 rd imm12 s
  | .nop cond => sound_execNop cond s
  | .yield cond => sound_execYield cond s
  | .wfe cond => sound_execWfe cond s
  | .wfi cond => sound_execWfi cond s
  | .sev cond => sound_execSev cond s
  | .dbg cond opt => sound_execDbg cond opt s
  | .hintOther cond hint8 => sound_execHintOther cond hint8 s
  | .msrCpsrImm cond fieldMask imm12 => sound_execMsrCpsrImm cond fieldMask imm12 s
  | .msrSpsrImm cond fieldMask imm12 => sound_execMsrSpsrImm cond fieldMask imm12 s
  | .andImm cond sf rn rd imm12 => sound_execAndImm cond sf rn rd imm12 s
  | .andReg cond sf rn rd imm5 typ rm => sound_execAndReg cond sf rn rd imm5 typ rm s
  | .andRsr cond sf rn rd rs typ rm => sound_execAndRsr cond sf rn rd rs typ rm s
  | .eorImm cond sf rn rd imm12 => sound_execEorImm cond sf rn rd imm12 s
  | .eorReg cond sf rn rd imm5 typ rm => sound_execEorReg cond sf rn rd imm5 typ rm s
  | .eorRsr cond sf rn rd rs typ rm => sound_execEorRsr cond sf rn rd rs typ rm s
  | .subImm cond sf rn rd imm12 => sound_execSubImm cond sf rn rd imm12 s
  | .subReg cond sf rn rd imm5 typ rm => sound_execSubReg cond sf rn rd imm5 typ rm s
  | .subRsr cond sf rn rd rs typ rm => sound_execSubRsr cond sf rn rd rs typ rm s
  | .rsbImm cond sf rn rd imm12 => sound_execRsbImm cond sf rn rd imm12 s
  | .rsbReg cond sf rn rd imm5 typ rm => sound_execRsbReg cond sf rn rd imm5 typ rm s
  | .rsbRsr cond sf rn rd rs typ rm => sound_execRsbRsr cond sf rn rd rs typ rm s
  | .addImm cond sf rn rd imm12 => sound_execAddImm cond sf rn rd imm12 s
  | .addReg cond sf rn rd imm5 typ rm => sound_execAddReg cond sf rn rd imm5 typ rm s
  | .addRsr cond sf rn rd rs typ rm => sound_execAddRsr cond sf rn rd rs typ rm s
  | .adcImm cond sf rn rd imm12 => sound_execAdcImm cond sf rn rd imm12 s
  | .adcReg cond sf rn rd imm5 typ rm => sound_execAdcReg cond sf rn rd imm5 typ rm s
  | .adcRsr cond sf rn rd rs typ rm => sound_execAdcRsr cond sf rn rd rs typ rm s
  | .sbcImm cond sf rn rd imm12 => sound_execSbcImm cond sf rn rd imm12 s
  | .sbcReg cond sf rn rd imm5 typ rm => sound_execSbcReg cond sf rn rd imm5 typ rm s
  | .sbcRsr cond sf rn rd rs typ rm => sound_execSbcRsr cond sf rn rd rs typ rm s
  | .rscImm cond sf rn rd imm12 => sound_execRscImm cond sf rn rd imm12 s
  | .rscReg cond sf rn rd imm5 typ rm => sound_execRscReg cond sf rn rd imm5 typ rm s
  | .rscRsr cond sf rn rd rs typ rm => sound_execRscRsr cond sf rn rd rs typ rm s
  | .tstImm cond rn imm12 => sound_execTstImm cond rn imm12 s
  | .tstReg cond rn imm5 typ rm => sound_execTstReg cond rn imm5 typ rm s
  | .tstRsr cond rn rs typ rm => sound_execTstRsr cond rn rs typ rm s
  | .teqImm cond rn imm12 => sound_execTeqImm cond rn imm12 s
  | .teqReg cond rn imm5 typ rm => sound_execTeqReg cond rn imm5 typ rm s
  | .teqRsr cond rn rs typ rm => sound_execTeqRsr cond rn rs typ rm s
  | .cmpImm cond rn imm12 => sound_execCmpImm cond rn imm12 s
  | .cmpReg cond rn imm5 typ rm => sound_execCmpReg cond rn imm5 typ rm s
  | .cmpRsr cond rn rs typ rm => sound_execCmpRsr cond rn rs typ rm s
  | .cmnImm cond rn imm12 => sound_execCmnImm cond rn imm12 s
  | .cmnReg cond rn imm5 typ rm => sound_execCmnReg cond rn imm5 typ rm s
  | .cmnRsr cond rn rs typ rm => sound_execCmnRsr cond rn rs typ rm s
  | .orrImm cond sf rn rd imm12 => sound_execOrrImm cond sf rn rd imm12 s
  | .orrReg cond sf rn rd imm5 typ rm => sound_execOrrReg cond sf rn rd imm5 typ rm s
  | .orrRsr cond sf rn rd rs typ rm => sound_execOrrRsr cond sf rn rd rs typ rm s
  | .movImm cond sf rd imm12 => sound_execMovImm cond sf rd imm12 s
  | .movReg cond sf rd imm5 typ rm => sound_execMovReg cond sf rd imm5 typ rm s
  | .movRsr cond sf rd rs typ rm => sound_execMovRsr cond sf rd rs typ rm s
  | .bicImm cond sf rn rd imm12 => sound_execBicImm cond sf rn rd imm12 s
  | .bicReg cond sf rn rd imm5 typ rm => sound_execBicReg cond sf rn rd imm5 typ rm s
  | .bicRsr cond sf rn rd rs typ rm => sound_execBicRsr cond sf rn rd rs typ rm s
  | .mvnImm cond sf rd imm12 => sound_execMvnImm cond sf rd imm12 s
  | .mvnReg cond sf rd imm5 typ rm => sound_execMvnReg cond sf rd imm5 typ rm s
  | .mvnRsr cond sf rd rs typ rm => sound_execMvnRsr cond sf rd rs typ rm s
  | .lslImm cond sf rd imm5 rm => sound_execLslImm cond sf rd imm5 rm s
  | .lslReg cond sf rd rs rm => sound_execLslReg cond sf rd rs rm s
  | .lsrImm cond sf rd imm5 rm => sound_execLsrImm cond sf rd imm5 rm s
  | .lsrReg cond sf rd rs rm => sound_execLsrReg cond sf rd rs rm s
  | .asrImm cond sf rd imm5 rm => sound_execAsrImm cond sf rd imm5 rm s
  | .asrReg cond sf rd rs rm => sound_execAsrReg cond sf rd rs rm s
  | .rorImm cond sf rd imm5 rm => sound_execRorImm cond sf rd imm5 rm s
  | .rorReg cond sf rd rs rm => sound_execRorReg cond sf rd rs rm s
  | .rrx cond sf rd rm => sound_execRrx cond sf rd rm s
  | .adrAdd cond rd imm12 => sound_execAdrAdd cond rd imm12 s
  | .adrSub cond rd imm12 => sound_execAdrSub cond rd imm12 s
  | .ldrtImm cond u rn rt imm12 => sound_execLdrtImm cond u rn rt imm12 s
  | .ldrtReg cond u rn rt imm5 typ rm => sound_execLdrtReg cond u rn rt imm5 typ rm s
  | .strtImm cond u rn rt imm12 => sound_execStrtImm cond u rn rt imm12 s
  | .strtReg cond u rn rt imm5 typ rm => sound_execStrtReg cond u rn rt imm5 typ rm s
  | .ldrbtImm cond u rn rt imm12 => sound_execLdrbtImm cond u rn rt imm12 s
  | .ldrbtReg cond u rn rt imm5 typ rm => sound_execLdrbtReg cond u rn rt imm5 typ rm s
  | .strbtImm cond u rn rt imm12 => sound_execStrbtImm cond u rn rt imm12 s
  | .strbtReg cond u rn rt imm5 typ rm => sound_execStrbtReg cond u rn rt imm5 typ rm s
  | .ldrImm cond p u w rn rt imm12 => sound_execLdrImm cond p u w rn rt imm12 s
  | .ldrReg cond p u w rn rt imm5 typ rm => sound_execLdrReg cond p u w rn rt imm5 typ rm s
  | .strImm cond p u w rn rt imm12 => sound_execStrImm cond p u w rn rt imm12 s
  | .strReg cond p u w rn rt imm5 typ rm => sound_execStrReg cond p u w rn rt imm5 typ rm s
  | .ldrbImm cond p u w rn rt imm12 => sound_execLdrbImm cond p u w rn rt imm12 s
  | .ldrbReg cond p u w rn rt imm5 typ rm => sound_execLdrbReg cond p u w rn rt imm5 typ rm s
  | .strbImm cond p u w rn rt imm12 => sound_execStrbImm cond p u w rn rt imm12 s
  | .strbReg cond p u w rn rt imm5 typ rm => sound_execStrbReg cond p u w rn rt imm5 typ rm s
  | .sadd16 cond rn rd rm => sound_execSadd16 cond rn rd rm s
  | .sasx cond rn rd rm => sound_execSasx cond rn rd rm s
  | .ssax cond rn rd rm => sound_execSsax cond rn rd rm s
  | .ssub16 cond rn rd rm => sound_execSsub16 cond rn rd rm s
  | .sadd8 cond rn rd rm => sound_execSadd8 cond rn rd rm s
  | .ssub8 cond rn rd rm => sound_execSsub8 cond rn rd rm s
  | .qadd16 cond rn rd rm => sound_execQadd16 cond rn rd rm s
  | .qasx cond rn rd rm => sound_execQasx cond rn rd rm s
  | .qsax cond rn rd rm => sound_execQsax cond rn rd rm s
  | .qsub16 cond rn rd rm => sound_execQsub16 cond rn rd rm s
  | .qadd8 cond rn rd rm => sound_execQadd8 cond rn rd rm s
  | .qsub8 cond rn rd rm => sound_execQsub8 cond rn rd rm s
  | .shadd16 cond rn rd rm => sound_execShadd16 cond rn rd rm s
  | .shasx cond rn rd rm => sound_execShasx cond rn rd rm s
  | .shsax cond rn rd rm => sound_execShsax cond rn rd rm s
  | .shsub16 cond rn rd rm => sound_execShsub16 cond rn rd rm s
  | .shadd8 cond rn rd rm => sound_execShadd8 cond rn rd rm s
  | .shsub8 cond rn rd rm => sound_execShsub8 cond rn rd rm s
  | .uadd16 cond rn rd rm => sound_execUadd16 cond rn rd rm s
  | .uasx cond rn rd rm => sound_execUasx cond rn rd rm s
  | .usax cond rn rd rm => sound_execUsax cond rn rd rm s
  | .usub16 cond rn rd rm => sound_execUsub16 cond rn rd rm s
  | .uadd8 cond rn rd rm => sound_execUadd8 cond rn rd rm s
  | .usub8 cond rn rd rm => sound_execUsub8 cond rn rd rm s
  | .uqadd16 cond rn rd rm => sound_execUqadd16 cond rn rd rm s
  | .uqasx cond rn rd rm => sound_execUqasx cond rn rd rm s
  | .uqsax cond rn rd rm => sound_execUqsax cond rn rd rm s
  | .uqsub16 cond rn rd rm => sound_execUqsub16 cond rn rd rm s
  | .uqadd8 cond rn rd rm => sound_execUqadd8 cond rn rd rm s
  | .uqsub8 cond rn rd rm => sound_execUqsub8 cond rn rd rm s
  | .uhadd16 cond rn rd rm => sound_execUhadd16 cond rn rd rm s
  | .uhasx cond rn rd rm => sound_execUhasx cond rn rd rm s
  | .uhsax cond rn rd rm => sound_execUhsax cond rn rd rm s
  | .uhsub16 cond rn rd rm => sound_execUhsub16 cond rn rd rm s
  | .uhadd8 cond rn rd rm => sound_execUhadd8 cond rn rd rm s
  | .uhsub8 cond rn rd rm => sound_execUhsub8 cond rn rd rm s
  | .pkhbt cond rn rd imm5 rm => sound_execPkhbt cond rn rd imm5 rm s
  | .pkhtb cond rn rd imm5 rm => sound_execPkhtb cond rn rd imm5 rm s
  | .sel cond rn rd rm => sound_execSel cond rn rd rm s
  | .ssat cond satImm rd imm5 sh rn => sound_execSsat cond satImm rd imm5 sh rn s
  | .usat cond satImm rd imm5 sh rn => sound_execUsat cond satImm rd imm5 sh rn s
  | .ssat16 cond satImm rd rn => sound_execSsat16 cond satImm rd rn s
  | .usat16 cond satImm rd rn => sound_execUsat16 cond satImm rd rn s
  | .sxtb16 cond rd rotate rm => sound_execSxtb16 cond rd rotate rm s
  | .sxtab16 cond rn rd rotate rm => sound_execSxtab16 cond rn rd rotate rm s
  | .sxtb cond rd rotate rm => sound_execSxtb cond rd rotate rm s
  | .sxtab cond rn rd rotate rm => sound_execSxtab cond rn rd rotate rm s
  | .sxth cond rd rotate rm => sound_execSxth cond rd rotate rm s
  | .sxtah cond rn rd rotate rm => sound_execSxtah cond rn rd rotate rm s
  | .uxtb16 cond rd rotate rm => sound_execUxtb16 cond rd rotate rm s
  | .uxtab16 cond rn rd rotate rm => sound_execUxtab16 cond rn rd rotate rm s
  | .uxtb cond rd rotate rm => sound_execUxtb cond rd rotate rm s
  | .uxtab cond rn rd rotate rm => sound_execUxtab cond rn rd rotate rm s
  | .uxth cond rd rotate rm => sound_execUxth cond rd rotate rm s
  | .uxtah cond rn rd rotate rm => sound_execUxtah cond rn rd rotate rm s
  | .rev cond rd rm => sound_execRev cond rd rm s
  | .rev16 cond rd rm => sound_execRev16 cond rd rm s
  | .rbit cond rd rm => sound_execRbit cond rd rm s
  | .revsh cond rd rm => sound_execRevsh cond rd rm s
  | .smuad cond rd rm rn => sound_execSmuad cond rd rm rn s
  | .smusd cond rd rm rn => sound_execSmusd cond rd rm rn s
  | .smuadx cond rd rm rn => sound_execSmuadx cond rd rm rn s
  | .smusdx cond rd rm rn => sound_execSmusdx cond rd rm rn s
  | .smlad cond rd ra rm rn => sound_execSmlad cond rd ra rm rn s
  | .smlsd cond rd ra rm rn => sound_execSmlsd cond rd ra rm rn s
  | .smlald cond rdHi rdLo rm rn => sound_execSmlald cond rdHi rdLo rm rn s
  | .smlsld cond rdHi rdLo rm rn => sound_execSmlsld cond rdHi rdLo rm rn s
  | .smladx cond rd ra rm rn => sound_execSmladx cond rd ra rm rn s
  | .smlsdx cond rd ra rm rn => sound_execSmlsdx cond rd ra rm rn s
  | .smlaldx cond rdHi rdLo rm rn => sound_execSmlaldx cond rdHi rdLo rm rn s
  | .smlsldx cond rdHi rdLo rm rn => sound_execSmlsldx cond rdHi rdLo rm rn s
  | .smmul cond rd rm rn => sound_execSmmul cond rd rm rn s
  | .smmulr cond rd rm rn => sound_execSmmulr cond rd rm rn s
  | .smmla cond rd ra rm rn => sound_execSmmla cond rd ra rm rn s
  | .smmls cond rd ra rm rn => sound_execSmmls cond rd ra rm rn s
  | .smmlar cond rd ra rm rn => sound_execSmmlar cond rd ra rm rn s
  | .smmlsr cond rd ra rm rn => sound_execSmmlsr cond rd ra rm rn s
  | .usad8 cond rd rm rn => sound_execUsad8 cond rd rm rn s
  | .usada8 cond rd ra rm rn => sound_execUsada8 cond rd ra rm rn s
  | .sbfx cond widthm1 rd lsb rn => sound_execSbfx cond widthm1 rd lsb rn s
  | .ubfx cond widthm1 rd lsb rn => sound_execUbfx cond widthm1 rd lsb rn s
  | .bfc cond msb rd lsb => sound_execBfc cond msb rd lsb s
  | .bfi cond msb rd lsb rn => sound_execBfi cond msb rd lsb rn s
  | .udf cond imm12 imm4 => sound_execUdf cond imm12 imm4 s
  | .popMulti cond regs => sound_execPopMulti cond regs s
  | .pushMulti cond regs => sound_execPushMulti cond regs s
  | .ldm cond p u w rn regs => sound_execLdm cond p u w rn regs s
  | .stm cond p u w rn regs => sound_execStm cond p u w rn regs s
  | .ldmExcRet cond p u w rn regs => sound_execLdmExcRet cond p u w rn regs s
  | .ldmUser cond p u rn regs => sound_execLdmUser cond p u rn regs s
  | .stmUser cond p u rn regs => sound_execStmUser cond p u rn regs s
  | .b cond imm24 => sound_execB cond imm24 s
  | .bl cond imm24 => sound_execBl cond imm24 s
  | .svc cond imm24 => sound_execSvc cond imm24 s
  | .mrcDscrFlags cond => sound_execMrcDscrFlags cond s
  | .mrcDidr cond rt => sound_execMrcDidr cond rt s
  | .mrcDrar cond rt => sound_execMrcDrar cond rt s
  | .mrcDsar cond rt => sound_execMrcDsar cond rt s
  | .mrcDscr cond rt => sound_execMrcDscr cond rt s
  | .mrcDtr cond rt => sound_execMrcDtr cond rt s
  | .mcrDtr cond rt => sound_execMcrDtr cond rt s
  | .mrcTeecr cond rt => sound_execMrcTeecr cond rt s
  | .mcrTeecr cond rt => sound_execMcrTeecr cond rt s
  | .mrcTeehbr cond rt => sound_execMrcTeehbr cond rt s
  | .mcrTeehbr cond rt => sound_execMcrTeehbr cond rt s
  | .mrcJidr cond rt => sound_execMrcJidr cond rt s
  | .mrcJoscr cond rt => sound_execMrcJoscr cond rt s
  | .mcrJoscr cond rt => sound_execMcrJoscr cond rt s
  | .mrcJmcr cond rt => sound_execMrcJmcr cond rt s
  | .mcrJmcr cond rt => sound_execMcrJmcr cond rt s
  | .ldcDtr cond p u w rn imm8 => sound_execLdcDtr cond p u w rn imm8 s
  | .stcDtr cond p u w rn imm8 => sound_execStcDtr cond p u w rn imm8 s
  | .p14DebugOther cond l cRn rt opc2 cRm => sound_execP14DebugOther cond l cRn rt opc2 cRm s
  | .p14TeeOther cond l cRn rt opc2 cRm => sound_execP14TeeOther cond l cRn rt opc2 cRm s
  | .p14Other cond opc1 l cRn rt opc2 cRm => sound_execP14Other cond opc1 l cRn rt opc2 cRm s
  | .fmstat cond => sound_execFmstat cond s
  | .vmrsFpsid cond rt => sound_execVmrsFpsid cond rt s
  | .vmsrFpsid cond rt => sound_execVmsrFpsid cond rt s
  | .vmrsFpscr cond rt => sound_execVmrsFpscr cond rt s
  | .vmsrFpscr cond rt => sound_execVmsrFpscr cond rt s
  | .vmrsMvfr1 cond rt => sound_execVmrsMvfr1 cond rt s
  | .vmsrMvfr1 cond rt => sound_execVmsrMvfr1 cond rt s
  | .vmrsMvfr0 cond rt => sound_execVmrsMvfr0 cond rt s
  | .vmsrMvfr0 cond rt => sound_execVmsrMvfr0 cond rt s
  | .vmrsFpexc cond rt => sound_execVmrsFpexc cond rt s
  | .vmsrFpexc cond rt => sound_execVmsrFpexc cond rt s
  | .vfpSysOther cond l reg rt => sound_execVfpSysOther cond l reg rt s
  | .vfpData cond hi mid lo => sound_execVfpData cond hi mid lo s
  | .vfpTransfer cond hi mid lo => sound_execVfpTransfer cond hi mid lo s
  | .vfpLoadStore cond hi lo => sound_execVfpLoadStore cond hi lo s
  | .mrcMidr cond rt => sound_execMrcMidr cond rt s
  | .mrcMidr4 cond rt => sound_execMrcMidr4 cond rt s
  | .mrcMidr6 cond rt => sound_execMrcMidr6 cond rt s
  | .mrcMidr7 cond rt => sound_execMrcMidr7 cond rt s
  | .mrcCtr cond rt => sound_execMrcCtr cond rt s
  | .mrcTcmtr cond rt => sound_execMrcTcmtr cond rt s
  | .mrcTlbtr cond rt => sound_execMrcTlbtr cond rt s
  | .mrcMpidr cond rt => sound_execMrcMpidr cond rt s
  | .mrcIdPfr0 cond rt => sound_execMrcIdPfr0 cond rt s
  | .mrcIdPfr1 cond rt => sound_execMrcIdPfr1 cond rt s
  | .mrcIdDfr0 cond rt => sound_execMrcIdDfr0 cond rt s
  | .mrcIdAfr0 cond rt => sound_execMrcIdAfr0 cond rt s
  | .mrcIdMmfr0 cond rt => sound_execMrcIdMmfr0 cond rt s
  | .mrcIdMmfr1 cond rt => sound_execMrcIdMmfr1 cond rt s
  | .mrcIdMmfr2 cond rt => sound_execMrcIdMmfr2 cond rt s
  | .mrcIdMmfr3 cond rt => sound_execMrcIdMmfr3 cond rt s
  | .mrcIdIsar0 cond rt => sound_execMrcIdIsar0 cond rt s
  | .mrcIdIsar1 cond rt => sound_execMrcIdIsar1 cond rt s
  | .mrcIdIsar2 cond rt => sound_execMrcIdIsar2 cond rt s
  | .mrcIdIsar3 cond rt => sound_execMrcIdIsar3 cond rt s
  | .mrcIdIsar4 cond rt => sound_execMrcIdIsar4 cond rt s
  | .mrcIdIsar5 cond rt => sound_execMrcIdIsar5 cond rt s
  | .mrcIdIsar6 cond rt => sound_execMrcIdIsar6 cond rt s
  | .mrcIdIsar7 cond rt => sound_execMrcIdIsar7 cond rt s
  | .mrcFeatureReserved cond rt opc2 cRm => sound_execMrcFeatureReserved cond rt opc2 cRm s
  | .mrcCcsidr cond rt => sound_execMrcCcsidr cond rt s
  | .mrcClidr cond rt => sound_execMrcClidr cond rt s
  | .mrcSiliconId cond rt => sound_execMrcSiliconId cond rt s
  | .mrcCsselr cond rt => sound_execMrcCsselr cond rt s
  | .mcrCsselr cond rt => sound_execMcrCsselr cond rt s
  | .mrcSctlr cond rt => sound_execMrcSctlr cond rt s
  | .mcrSctlr cond rt => sound_execMcrSctlr cond rt s
  | .mrcActlr cond rt => sound_execMrcActlr cond rt s
  | .mcrActlr cond rt => sound_execMcrActlr cond rt s
  | .mrcCpacr cond rt => sound_execMrcCpacr cond rt s
  | .mcrCpacr cond rt => sound_execMcrCpacr cond rt s
  | .mrcScr cond rt => sound_execMrcScr cond rt s
  | .mcrScr cond rt => sound_execMcrScr cond rt s
  | .mrcSder cond rt => sound_execMrcSder cond rt s
  | .mcrSder cond rt => sound_execMcrSder cond rt s
  | .mrcNsacr cond rt => sound_execMrcNsacr cond rt s
  | .mcrNsacr cond rt => sound_execMcrNsacr cond rt s
  | .mrcTtbr0 cond rt => sound_execMrcTtbr0 cond rt s
  | .mcrTtbr0 cond rt => sound_execMcrTtbr0 cond rt s
  | .mrcTtbr1 cond rt => sound_execMrcTtbr1 cond rt s
  | .mcrTtbr1 cond rt => sound_execMcrTtbr1 cond rt s
  | .mrcTtbcr cond rt => sound_execMrcTtbcr cond rt s
  | .mcrTtbcr cond rt => sound_execMcrTtbcr cond rt s
  | .mrcDacr cond rt => sound_execMrcDacr cond rt s
  | .mcrDacr cond rt => sound_execMcrDacr cond rt s
  | .mrcDfsr cond rt => sound_execMrcDfsr cond rt s
  | .mcrDfsr cond rt => sound_execMcrDfsr cond rt s
  | .mrcIfsr cond rt => sound_execMrcIfsr cond rt s
  | .mcrIfsr cond rt => sound_execMcrIfsr cond rt s
  | .mrcAdfsr cond rt => sound_execMrcAdfsr cond rt s
  | .mcrAdfsr cond rt => sound_execMcrAdfsr cond rt s
  | .mrcAifsr cond rt => sound_execMrcAifsr cond rt s
  | .mcrAifsr cond rt => sound_execMcrAifsr cond rt s
  | .mrcDfar cond rt => sound_execMrcDfar cond rt s
  | .mcrDfar cond rt => sound_execMcrDfar cond rt s
  | .mrcIfar cond rt => sound_execMrcIfar cond rt s
  | .mcrIfar cond rt => sound_execMcrIfar cond rt s
  | .mcrWfiNop cond rt => sound_execMcrWfiNop cond rt s
  | .mrcPar cond rt => sound_execMrcPar cond rt s
  | .mcrPar cond rt => sound_execMcrPar cond rt s
  | .mcrIciallu cond rt => sound_execMcrIciallu cond rt s
  | .mcrIcimvau cond rt => sound_execMcrIcimvau cond rt s
  | .mcrIsb cond rt => sound_execMcrIsb cond rt s
  | .mcrBpiall cond rt => sound_execMcrBpiall cond rt s
  | .mcrBpimva cond rt => sound_execMcrBpimva cond rt s
  | .mcrDcimvac cond rt => sound_execMcrDcimvac cond rt s
  | .mcrDcisw cond rt => sound_execMcrDcisw cond rt s
  | .mcrVaPaCurPrivRead cond rt => sound_execMcrVaPaCurPrivRead cond rt s
  | .mcrVaPaCurPrivWrite cond rt => sound_execMcrVaPaCurPrivWrite cond rt s
  | .mcrVaPaCurUserRead cond rt => sound_execMcrVaPaCurUserRead cond rt s
  | .mcrVaPaCurUserWrite cond rt => sound_execMcrVaPaCurUserWrite cond rt s
  | .mcrVaPaOthPrivRead cond rt => sound_execMcrVaPaOthPrivRead cond rt s
  | .mcrVaPaOthPrivWrite cond rt => sound_execMcrVaPaOthPrivWrite cond rt s
  | .mcrVaPaOthUserRead cond rt => sound_execMcrVaPaOthUserRead cond rt s
  | .mcrVaPaOthUserWrite cond rt => sound_execMcrVaPaOthUserWrite cond rt s
  | .mcrDccmvac cond rt => sound_execMcrDccmvac cond rt s
  | .mcrDccsw cond rt => sound_execMcrDccsw cond rt s
  | .mcrDsb cond rt => sound_execMcrDsb cond rt s
  | .mcrDmb cond rt => sound_execMcrDmb cond rt s
  | .mcrDccmvau cond rt => sound_execMcrDccmvau cond rt s
  | .mcrDccimvac cond rt => sound_execMcrDccimvac cond rt s
  | .mcrDccisw cond rt => sound_execMcrDccisw cond rt s
  | .mcrItlbiall cond rt => sound_execMcrItlbiall cond rt s
  | .mcrItlbimva cond rt => sound_execMcrItlbimva cond rt s
  | .mcrItlbiasid cond rt => sound_execMcrItlbiasid cond rt s
  | .mcrDtlbiall cond rt => sound_execMcrDtlbiall cond rt s
  | .mcrDtlbimva cond rt => sound_execMcrDtlbimva cond rt s
  | .mcrDtlbiasid cond rt => sound_execMcrDtlbiasid cond rt s
  | .mcrTlbiall cond rt => sound_execMcrTlbiall cond rt s
  | .mcrTlbimva cond rt => sound_execMcrTlbimva cond rt s
  | .mcrTlbiasid cond rt => sound_execMcrTlbiasid cond rt s
  | .mrcPmnc cond rt => sound_execMrcPmnc cond rt s
  | .mcrPmnc cond rt => sound_execMcrPmnc cond rt s
  | .mrcCntens cond rt => sound_execMrcCntens cond rt s
  | .mcrCntens cond rt => sound_execMcrCntens cond rt s
  | .mrcCntenc cond rt => sound_execMrcCntenc cond rt s
  | .mcrCntenc cond rt => sound_execMcrCntenc cond rt s
  | .mrcFlag cond rt => sound_execMrcFlag cond rt s
  | .mcrFlag cond rt => sound_execMcrFlag cond rt s
  | .mrcSwincr cond rt => sound_execMrcSwincr cond rt s
  | .mcrSwincr cond rt => sound_execMcrSwincr cond rt s
  | .mrcPmnxsel cond rt => sound_execMrcPmnxsel cond rt s
  | .mcrPmnxsel cond rt => sound_execMcrPmnxsel cond rt s
  | .mrcCcnt cond rt => sound_execMrcCcnt cond rt s
  | .mcrCcnt cond rt => sound_execMcrCcnt cond rt s
  | .mrcEvtsel cond rt => sound_execMrcEvtsel cond rt s
  | .mcrEvtsel cond rt => sound_execMcrEvtsel cond rt s
  | .mrcPmcnt cond rt => sound_execMrcPmcnt cond rt s
  | .mcrPmcnt cond rt => sound_execMcrPmcnt cond rt s
  | .mrcUseren cond rt => sound_execMrcUseren cond rt s
  | .mcrUseren cond rt => sound_execMcrUseren cond rt s
  | .mrcIntens cond rt => sound_execMrcIntens cond rt s
  | .mcrIntens cond rt => sound_execMcrIntens cond rt s
  | .mrcIntenc cond rt => sound_execMrcIntenc cond rt s
  | .mcrIntenc cond rt => sound_execMcrIntenc cond rt s
  | .mrcL2Lock cond rt => sound_execMrcL2Lock cond rt s
  | .mcrL2Lock cond rt => sound_execMcrL2Lock cond rt s
  | .mrcL2Aux cond rt => sound_execMrcL2Aux cond rt s
  | .mcrL2Aux cond rt => sound_execMcrL2Aux cond rt s
  | .mrcDtlbLock cond rt => sound_execMrcDtlbLock cond rt s
  | .mcrDtlbLock cond rt => sound_execMcrDtlbLock cond rt s
  | .mrcItlbLock cond rt => sound_execMrcItlbLock cond rt s
  | .mcrItlbLock cond rt => sound_execMcrItlbLock cond rt s
  | .mcrDtlbPreload cond rt => sound_execMcrDtlbPreload cond rt s
  | .mcrItlbPreload cond rt => sound_execMcrItlbPreload cond rt s
  | .mrcPrrr cond rt => sound_execMrcPrrr cond rt s
  | .mcrPrrr cond rt => sound_execMcrPrrr cond rt s
  | .mrcNmrr cond rt => sound_execMrcNmrr cond rt s
  | .mcrNmrr cond rt => sound_execMcrNmrr cond rt s
  | .mrcPleIdPresent cond rt => sound_execMrcPleIdPresent cond rt s
  | .mrcPleIdReserved cond rt => sound_execMrcPleIdReserved cond rt s
  | .mrcPleIdRunning cond rt => sound_execMrcPleIdRunning cond rt s
  | .mrcPleIdInterrupting cond rt => sound_execMrcPleIdInterrupting cond rt s
  | .mrcPleUser cond rt => sound_execMrcPleUser cond rt s
  | .mcrPleUser cond rt => sound_execMcrPleUser cond rt s
  | .mrcPleChannel cond rt => sound_execMrcPleChannel cond rt s
  | .mcrPleChannel cond rt => sound_execMcrPleChannel cond rt s
  | .mcrPleStop cond rt => sound_execMcrPleStop cond rt s
  | .mcrPleStart cond rt => sound_execMcrPleStart cond rt s
  | .mcrPleClear cond rt => sound_execMcrPleClear cond rt s
  | .mrcPleControl cond rt => sound_execMrcPleControl cond rt s
  | .mcrPleControl cond rt => sound_execMcrPleControl cond rt s
  | .mrcPleStartAddr cond rt => sound_execMrcPleStartAddr cond rt s
  | .mcrPleStartAddr cond rt => sound_execMcrPleStartAddr cond rt s
  | .mrcPleEndAddr cond rt => sound_execMrcPleEndAddr cond rt s
  | .mcrPleEndAddr cond rt => sound_execMcrPleEndAddr cond rt s
  | .mrcPleStatus cond rt => sound_execMrcPleStatus cond rt s
  | .mrcPleContext cond rt => sound_execMrcPleContext cond rt s
  | .mcrPleContext cond rt => sound_execMcrPleContext cond rt s
  | .mrcVbar cond rt => sound_execMrcVbar cond rt s
  | .mcrVbar cond rt => sound_execMcrVbar cond rt s
  | .mrcMvbar cond rt => sound_execMrcMvbar cond rt s
  | .mcrMvbar cond rt => sound_execMcrMvbar cond rt s
  | .mrcIsr cond rt => sound_execMrcIsr cond rt s
  | .mrcFcse cond rt => sound_execMrcFcse cond rt s
  | .mcrFcse cond rt => sound_execMcrFcse cond rt s
  | .mrcContextidr cond rt => sound_execMrcContextidr cond rt s
  | .mcrContextidr cond rt => sound_execMcrContextidr cond rt s
  | .mrcTpidrurw cond rt => sound_execMrcTpidrurw cond rt s
  | .mcrTpidrurw cond rt => sound_execMcrTpidrurw cond rt s
  | .mrcTpidruro cond rt => sound_execMrcTpidruro cond rt s
  | .mcrTpidruro cond rt => sound_execMcrTpidruro cond rt s
  | .mrcTpidrprw cond rt => sound_execMrcTpidrprw cond rt s
  | .mcrTpidrprw cond rt => sound_execMcrTpidrprw cond rt s
  | .mrcDl1Data0 cond rt => sound_execMrcDl1Data0 cond rt s
  | .mcrDl1Data0 cond rt => sound_execMcrDl1Data0 cond rt s
  | .mrcDl1Data1 cond rt => sound_execMrcDl1Data1 cond rt s
  | .mcrDl1Data1 cond rt => sound_execMcrDl1Data1 cond rt s
  | .mcrDtlbCamWrite cond rt => sound_execMcrDtlbCamWrite cond rt s
  | .mcrDtlbAttrWrite cond rt => sound_execMcrDtlbAttrWrite cond rt s
  | .mcrDtlbPaWrite cond rt => sound_execMcrDtlbPaWrite cond rt s
  | .mcrDhvabWrite cond rt => sound_execMcrDhvabWrite cond rt s
  | .mcrDtagWrite cond rt => sound_execMcrDtagWrite cond rt s
  | .mcrDdataWrite cond rt => sound_execMcrDdataWrite cond rt s
  | .mcrDtlbCamRead cond rt => sound_execMcrDtlbCamRead cond rt s
  | .mcrDtlbAttrRead cond rt => sound_execMcrDtlbAttrRead cond rt s
  | .mcrDtlbPaRead cond rt => sound_execMcrDtlbPaRead cond rt s
  | .mcrDhvabRead cond rt => sound_execMcrDhvabRead cond rt s
  | .mcrDtagRead cond rt => sound_execMcrDtagRead cond rt s
  | .mcrDdataRead cond rt => sound_execMcrDdataRead cond rt s
  | .mrcIl1Data0 cond rt => sound_execMrcIl1Data0 cond rt s
  | .mcrIl1Data0 cond rt => sound_execMcrIl1Data0 cond rt s
  | .mrcIl1Data1 cond rt => sound_execMrcIl1Data1 cond rt s
  | .mcrIl1Data1 cond rt => sound_execMcrIl1Data1 cond rt s
  | .mcrItlbCamWrite cond rt => sound_execMcrItlbCamWrite cond rt s
  | .mcrItlbAttrWrite cond rt => sound_execMcrItlbAttrWrite cond rt s
  | .mcrItlbPaWrite cond rt => sound_execMcrItlbPaWrite cond rt s
  | .mcrIhvabWrite cond rt => sound_execMcrIhvabWrite cond rt s
  | .mcrItagWrite cond rt => sound_execMcrItagWrite cond rt s
  | .mcrIdataWrite cond rt => sound_execMcrIdataWrite cond rt s
  | .mcrItlbCamRead cond rt => sound_execMcrItlbCamRead cond rt s
  | .mcrItlbAttrRead cond rt => sound_execMcrItlbAttrRead cond rt s
  | .mcrItlbPaRead cond rt => sound_execMcrItlbPaRead cond rt s
  | .mcrIhvabRead cond rt => sound_execMcrIhvabRead cond rt s
  | .mcrItagRead cond rt => sound_execMcrItagRead cond rt s
  | .mcrIdataRead cond rt => sound_execMcrIdataRead cond rt s
  | .mcrGhbWrite cond rt => sound_execMcrGhbWrite cond rt s
  | .mcrBtbWrite cond rt => sound_execMcrBtbWrite cond rt s
  | .mcrGhbRead cond rt => sound_execMcrGhbRead cond rt s
  | .mcrBtbRead cond rt => sound_execMcrBtbRead cond rt s
  | .mrcL2Data0 cond rt => sound_execMrcL2Data0 cond rt s
  | .mcrL2Data0 cond rt => sound_execMcrL2Data0 cond rt s
  | .mrcL2Data1 cond rt => sound_execMrcL2Data1 cond rt s
  | .mcrL2Data1 cond rt => sound_execMcrL2Data1 cond rt s
  | .mcrL2TagWrite cond rt => sound_execMcrL2TagWrite cond rt s
  | .mcrL2DataWrite cond rt => sound_execMcrL2DataWrite cond rt s
  | .mcrL2ParityWrite cond rt => sound_execMcrL2ParityWrite cond rt s
  | .mrcL2Data2 cond rt => sound_execMrcL2Data2 cond rt s
  | .mcrL2Data2 cond rt => sound_execMcrL2Data2 cond rt s
  | .mcrL2TagRead cond rt => sound_execMcrL2TagRead cond rt s
  | .mcrL2DataRead cond rt => sound_execMcrL2DataRead cond rt s
  | .mcrL2ParityRead cond rt => sound_execMcrL2ParityRead cond rt s
  | .p15Other cond opc1 l cRn rt opc2 cRm => sound_execP15Other cond opc1 l cRn rt opc2 cRm s
  | .mcrOther cond opc1 cRn rt coproc opc2 cRm => sound_execMcrOther cond opc1 cRn rt coproc opc2 cRm s
  | .mrcOther cond opc1 cRn rt coproc opc2 cRm => sound_execMrcOther cond opc1 cRn rt coproc opc2 cRm s
  | .cdpAny cond opc1 cRn cRd coproc opc2 cRm => sound_execCdpAny cond opc1 cRn cRd coproc opc2 cRm s
  | .mcrrAny cond rt2 rt coproc opc1 cRm => sound_execMcrrAny cond rt2 rt coproc opc1 cRm s
  | .mrrcAny cond rt2 rt coproc opc1 cRm => sound_execMrrcAny cond rt2 rt coproc opc1 cRm s
  | .ldcStcOther cond p u d w l rn cRd coproc imm8 => sound_execLdcStcOther cond p u d w l rn cRd coproc imm8 s

theorem Passes.inv {s t : State} (h : Passes s t) (hs : Inv s) : Inv t :=
  ⟨h.mem hs.memory, h.mode hs.mode, h.pc hs.pc⟩

/-- Settles O51: what instructions keep passes through the step, whoever acts in it (`passesO_step`). -/
theorem stepKeepsInvariant : Obligations.StepKeepsInvariant := by
  intro s t hs ht
  have hexec : ∀ i u, PassesO u (exec i u) := fun i u => passesO_sound (sound_exec i u)
  exact (passesO_step hexec s t ht).inv hs

end Sys2Proof.Machine

end

section
/-! The TLB maintenance operations (O41; 13_cp15_maint_pmu.md R380 to R382). -/

noncomputable section

namespace Sys2Proof.Machine

open Safety

/-- An instruction that makes `t` and goes on gives `t` with the pc after it. -/
theorem next_advance (t : State) : (.next t.advance : Host.Outcome State Fault Refusal) = .next (skipped t) :=
  congrArg Host.Outcome.next (State.advance_eq t)

/-- The instructions `i` remove from the instruction TLB, the data TLB or both the entries that `gone` selects, with the
privileged right. -/
def FlushesTlbs (instr data : Bool) (gone : State → Word → TlbEntry → Bool) (i : BitVec 4 → BitVec 4 → Instr) : Prop :=
  ∀ cond rt s, exec (i cond rt) s = writeSys cond rt s.sysPriv s fun v => flushTlbs instr data (gone s v) s

/-- Slot by slot: what a removal leaves in a TLB that it reaches, or does not. -/
theorem flushTlb_reached_get (reached : Bool) (tlb : Vector (Option TlbEntry) 32) (gone : TlbEntry → Bool) (n : Fin 32) :
    (if reached then flushTlb tlb gone else tlb)[n] = if reached && tlb[n].any gone then none else tlb[n] := by
  cases reached
  · rfl
  · exact flushTlb_get tlb gone n

/-- A test may be written in any way that is equal to it. -/
theorem FlushesTlbs.congr {instr data : Bool} {gone gone' : State → Word → TlbEntry → Bool} {i : BitVec 4 → BitVec 4 → Instr}
    (h : FlushesTlbs instr data gone i) (hg : ∀ s v e, gone s v e = gone' s v e) : FlushesTlbs instr data gone' i :=
  (funext fun s => funext fun v => funext (hg s v) : gone = gone') ▸ h

theorem FlushesTlbs.gives {instr data : Bool} {gone : State → Word → TlbEntry → Bool} {i : BitVec 4 → BitVec 4 → Instr}
    (h : FlushesTlbs instr data gone i) {cond rt : BitVec 4} {s : State} (hc : condPassed cond s = true) : ∃ it dt,
    WriteGives s rt (privilegedRight s) (fun _ => { s with itlb := it, dtlb := dt }) (exec (i cond rt) s) ∧
    ∀ n : Fin 32,
      it[n] = (if instr && s.itlb[n].any (gone s (s.reg rt)) then none else s.itlb[n]) ∧
      dt[n] = (if data && s.dtlb[n].any (gone s (s.reg rt)) then none else s.dtlb[n]) := by
  refine ⟨_, _, ?outcome, fun n => ⟨flushTlb_reached_get instr _ _ n, flushTlb_reached_get data _ _ n⟩⟩
  rw [h cond rt s, ← halted_mono s]
  exact withSys_gives hc _ _ _ fun _ _ => next_advance _

/-- Each operation of the list: the operations by address select their entries with `TlbEntry.matches`, the others with the
test that the list writes. -/
theorem flushesTlbs_tlbOperations : ∀ e ∈ tlbOperations, FlushesTlbs e.1.1 e.1.2 e.2.1 e.2.2 := by
  have byAddress {instr data} {i} (h : FlushesTlbs instr data (fun s v => goneMva v s) i) :=
    h.congr fun s v e => match_eq e v s
  simp only [tlbOperations, List.forall_mem_cons]
  refine ⟨?iall, byAddress ?imva, ?iasid, ?dall, byAddress ?dmva, ?dasid, ?all, byAddress ?mva, ?asid, List.forall_mem_nil _⟩
  all_goals exact fun _ _ _ => rfl

/-- Settles O41: each operation of the list removes the entries that it names, slot by slot. -/
theorem tlbMaintenance : Obligations.TlbMaintenance := by
  intro cond rt s hc e he
  exact (flushesTlbs_tlbOperations e he).gives hc

end Sys2Proof.Machine

end
end

section
/-! The counters of the performance monitor (O39; 13_cp15_maint_pmu.md R404 to R411). -/

noncomputable section

namespace Sys2Proof.Machine

open Safety

/-- A write through PMNXSEL with a counter selected changes the monitor as `f` says for that counter. -/
theorem writeSelected_gives {cond rt : BitVec 4} {s : State} (hc : condPassed cond s = true) {n : Fin 4}
    (hn : pmuSelected s = some n) (f : Word → Fin 4 → Pmu) :
    WriteGives s rt (countRight s) (fun v => { s with pmu := f v n }) (writeSys cond rt s.pmuOpen s fun v => onSelected s (f v)) := by
  have selected (v : Word) : onSelected s (f v) = { s with pmu := f v n } := by rw [onSelected, hn]
  exact writeSys_gives hc _ _ _ fun v => by rw [selected]; exact advance_of rfl rfl

/-- With no counter selected the write is ignored (R406). -/
theorem writeSelected_ignored {cond rt : BitVec 4} {s : State} (hc : condPassed cond s = true) (hn : pmuSelected s = none)
    (f : Word → Fin 4 → Pmu) :
    WriteGives s rt (countRight s) (fun _ => s) (writeSys cond rt s.pmuOpen s fun v => onSelected s (f v)) := by
  have ignored (v : Word) : onSelected s (f v) = s := by rw [onSelected, hn]
  exact writeSys_gives hc _ _ _ fun v => by rw [ignored]; exact advance_of rfl rfl

/-- CCNT is enabled: a write of it is then Unpredictable (R407; log 7). -/
def ccntEnabled (s : State) : Bool := s.pmu.pmnc.getLsbD 0 && s.pmu.cnten.getLsbD 31

theorem exec_mcrCcnt (cond rt : BitVec 4) (s : State) :
    exec (.mcrCcnt cond rt) s = withSys cond rt (countRight s) s fun v =>
      if ccntEnabled s then .fault .systemRegister else .next { s with pmu := { s.pmu with ccnt := v } }.advance := rfl

/-- Outside its enabled state CCNT takes the value written. -/
theorem mcrCcnt_stopped {cond rt : BitVec 4} {s : State} (hc : condPassed cond s = true) (h : ccntEnabled s = false) :
    WriteGives s rt (countRight s) (withPmu (fun v p => { p with ccnt := v }) s) (exec (.mcrCcnt cond rt) s) := by
  rw [exec_mcrCcnt, h]
  exact withSys_gives hc _ _ _ fun _ _ => next_advance _

/-- While it is enabled a write with the right stops, for r15 because of the operand. -/
theorem mcrCcnt_counting {cond rt : BitVec 4} {s : State} (hc : condPassed cond s = true) (h : ccntEnabled s = true)
    (hr : countRight s = true) :
    exec (.mcrCcnt cond rt) s = .fault (if rt = 15 then .operands else .systemRegister) := by
  rw [exec_mcrCcnt, h]
  by_cases h15 : rt = 15
  · rw [withSys_r15 hc hr h15, if_pos h15]
  · rw [withSys_effect hc hr h15, if_neg h15]; rfl

/-- SWINCR picks the counters that are named, count, and have event 0x00: the test of the model and that of the statement. -/
theorem swincrWrite_eq (s : State) (v : Word) :
    swincrWrite v s = s.pmu.addWhere 1 fun n =>
      (s.pmu.pmnc.getLsbD 0 && s.pmu.cnten.getLsbD n && !s.halted && (s.pins.dbgen || s.pins.niden) &&
        (!s.secure || s.pins.spiden || s.pins.spniden || (s.mode == .usr && s.sys.sder.getLsbD 1)) && v.getLsbD n) &&
        s.pmu.evtsel[n].extractLsb' 0 8 == 0 := by
  refine congrArg (s.pmu.addWhere 1) (funext fun n => ?_)
  have low : s.pmu.evtsel[n].setWidth 8 = s.pmu.evtsel[n].extractLsb' 0 8 := BitVec.setWidth_eq_extractLsb' (by decide)
  rw [low, State.counterOn, State.noninvasivePermitted]
  ac_rfl

theorem exec_mcrSwincr (cond rt : BitVec 4) (s : State) :
    exec (.mcrSwincr cond rt) s = writeSys cond rt (countRight s) s fun v => { s with pmu := swincrWrite v s } := rfl

/-- SWINCR replaces the monitor by what `swincrWrite` makes of it. -/
theorem mcrSwincr_gives {cond rt : BitVec 4} {s : State} (hc : condPassed cond s = true) :
    WriteGives s rt (countRight s) (fun _ => { s with pmu := swincrWrite (s.reg rt) s }) (exec (.mcrSwincr cond rt) s) := by
  rw [exec_mcrSwincr]
  exact withSys_gives hc _ _ _ fun _ _ => next_advance _

/-- Settles O39: the registers behind PMNXSEL by whether it selects a counter, CCNT by whether it is enabled, and SWINCR by
the rule for adding one to the counters that a test picks (`addWhere_one`). -/
theorem performanceCounters : Obligations.PerformanceCounters := by
  intro cond rt s hc drawn free counts
  refine ⟨fun n hn => ?selected, fun hn => ?unselected, ⟨?stopped, ?counting, ?closed⟩,
    ⟨swincrWrite (s.reg rt) s, mcrSwincr_gives hc, ?swincr⟩⟩
  case selected =>
    have hsel := selected_some n hn
    exact ⟨readSysMaybe_some hc _ (by rw [hsel]; rfl), readSysMaybe_some hc _ (by rw [hsel]; rfl),
      writeSelected_gives hc hsel fun v n => { s.pmu with evtsel := s.pmu.evtsel.set n (v &&& 0xFF) n.isLt },
      writeSelected_gives hc hsel fun v n => { s.pmu with pmcnt := s.pmu.pmcnt.set n v n.isLt }⟩
  case unselected =>
    have hsel := selected_none hn
    obtain ⟨evtsel, evtselUndefined⟩ := readSysMaybe_none (rt := rt) hc s.pmuOpen
      (v := (pmuSelected s).map fun n => s.pmu.evtsel[n]) (by rw [hsel]; rfl)
    obtain ⟨pmcnt, pmcntUndefined⟩ := readSysMaybe_none (rt := rt) hc s.pmuOpen
      (v := (pmuSelected s).map fun n => s.pmu.pmcnt[n]) (by rw [hsel]; rfl)
    exact ⟨fun h => ⟨evtsel h, pmcnt h⟩, fun h => ⟨evtselUndefined h, pmcntUndefined h⟩,
      writeSelected_ignored hc hsel fun v n => { s.pmu with evtsel := s.pmu.evtsel.set n (v &&& 0xFF) n.isLt },
      writeSelected_ignored hc hsel fun v n => { s.pmu with pmcnt := s.pmu.pmcnt.set n v n.isLt }⟩
  case stopped => exact mcrCcnt_stopped hc
  case counting => exact mcrCcnt_counting hc
  case closed =>
    intro _ h
    rw [exec_mcrCcnt]
    exact withSys_undefined hc h _
  case swincr =>
    rw [swincrWrite_eq]
    exact addWhere_one s.pmu _

end Sys2Proof.Machine
end
end

section
/-! Cache maintenance by address and by set and way (O43, O44; 13_cp15_maint_pmu.md R353 to R365; 22_caches.md R1150, R1182). -/

noncomputable section

namespace Sys2Proof.Machine

open Safety

/-! ## Instructions behind a right -/

/-- The instruction `i` takes its operand from register `rt`, and needs the right `ok`. -/
def NeedsRight (cond rt : BitVec 4) (ok : Bool) (s : State) (i : Instr) : Prop :=
  ∃ effect, exec i s = withSys cond rt ok s effect

theorem NeedsRight.undefined {cond rt : BitVec 4} {ok : Bool} {s : State} {i : Instr} (h : NeedsRight cond rt ok s i)
    (hc : condPassed cond s = true) (hok : ok = false) : ∃ t, exec i s = .next t ∧ Undefined s t := by
  obtain ⟨effect, he⟩ := h
  rw [he]
  exact withSys_undefined hc hok effect

theorem NeedsRight.fault_of_r15 {cond rt : BitVec 4} {ok : Bool} {s : State} {i : Instr} (h : NeedsRight cond rt ok s i)
    (hc : condPassed cond s = true) (hok : ok = true) (hrt : rt = 15) : exec i s = .fault .operands := by
  obtain ⟨effect, he⟩ := h
  rw [he]
  exact withSys_r15 hc hok hrt effect

/-! ## What maintenance of the data caches leaves alone -/

/-- `t` is `s` but for the data caches, memory, the late stores and the free values used. -/
def OnlyCaches (s t : State) : Prop :=
  t = { s with l1d := t.l1d, l2 := t.l2, mem := t.mem, late := t.late, draws := t.draws }

theorem OnlyCaches.refl (s : State) : OnlyCaches s s := rfl

theorem OnlyCaches.trans {s t u : State} (h : OnlyCaches s t) (k : OnlyCaches t u) : OnlyCaches s u := by
  unfold OnlyCaches at *
  rw [k, h]

theorem OnlyCaches.build {s t : State} (h : OnlyCaches s t) : t.build = s.build := by rw [h]

theorem OnlyCaches.bus {s t : State} (h : OnlyCaches s t) : t.bus = s.bus := by rw [h]

theorem OnlyCaches.noPort {s t : State} (h : OnlyCaches s t) (hp : NoPort s) : NoPort t := by
  rw [NoPort, h.build]
  exact hp

/-- Going on after maintenance: the pc of `s` counts. -/
theorem OnlyCaches.advance {s t : State} (h : OnlyCaches s t) : t.advance = { t with pc := nextPc s } :=
  (advance_of (by rw [h]; rfl) (by rw [h])).symm

theorem MovedToL2.onlyCaches {s t : State} {l : CacheLine} (h : MovedToL2 s t l) : OnlyCaches s t := by
  obtain ⟨m, late, -, h⟩ := h
  split at h
  · obtain ⟨-, rfl⟩ := h
    rfl
  · obtain ⟨-, rfl⟩ | ⟨way, -, -, m0, -, -, rfl⟩ := h <;> rfl

theorem CleanedL1.onlyCaches {s t : State} {l : CacheLine} (h : CleanedL1 s t l) : OnlyCaches s t := by
  obtain ⟨clean, toMemory, toL2⟩ := h
  by_cases hd : l.dirty = 0
  · rw [clean hd]; rfl
  · cases hg : goesToL2 s l with
    | false => obtain ⟨m, late, -, -, rfl⟩ := toMemory hd hg; rfl
    | true => exact MovedToL2.onlyCaches (toL2 hd hg)

theorem CleanedL2.onlyCaches {s t : State} {l : CacheLine} (h : CleanedL2 s t l) : OnlyCaches s t := by
  obtain ⟨m, late, -, -, rfl⟩ := h
  rfl

/-! ## The line of an address -/

theorem onL1d_eq (f : Nat → Nat → State → State) (p : Phys) (s : State) :
    onL1d f p s = (lineOf s.l1d s.build.l1Size.sets p.ns p.pa).elim s fun l => f l.set l.way s := by
  rw [onL1d, findLine_l1]
  cases lineOf s.l1d s.build.l1Size.sets p.ns p.pa <;> rfl

theorem onL2_eq (f : Nat → Nat → State → State) (p : Phys) (s : State) :
    onL2 f p s = (lineOf s.l2 s.build.l2Size.sets p.ns p.pa).elim s fun l => f l.set l.way s := by
  rw [onL2, findLine_l2]
  cases lineOf s.l2 s.build.l2Size.sets p.ns p.pa <;> rfl

/-- The line of an address is the one in its place. -/
theorem lineIn_lineOf_of_slots {c : List CacheLine} (h : Slots c) {sets : Nat} {ns : Bool} {pa : Word} {l : CacheLine}
    (hl : lineOf c sets ns pa = some l) : lineIn c l.set l.way = some l :=
  h l (List.mem_of_find?_eq_some hl)

/-- Invalidation by address takes the line out of both data caches, and writes nothing (R353). -/
theorem invalidateToPoC_eq (p : Phys) (s : State) :
    invalidateToPoC p s = { s with
      l1d := withoutLine s.l1d (lineOf s.l1d s.build.l1Size.sets p.ns p.pa)
      l2 := withoutLine s.l2 (lineOf s.l2 s.build.l2Size.sets p.ns p.pa) } := by
  have l1 : onL1d invalidateL1d p s =
      { s with l1d := withoutLine s.l1d (lineOf s.l1d s.build.l1Size.sets p.ns p.pa) } := by
    rw [onL1d_eq]
    cases lineOf s.l1d s.build.l1Size.sets p.ns p.pa <;> rfl
  rw [invalidateToPoC, l1, onL2_eq]
  dsimp only
  cases lineOf s.l2 s.build.l2Size.sets p.ns p.pa <;> rfl

section
variable {s : State} (hb : s.bus = []) (hp : NoPort s) (hw : Memory.wf s.mem = true)
include hb hp hw

/-- Cleaning the L1 data line of an address (R356): the line is clean, or there is none and nothing happens. -/
theorem onL1d_cleanL1d (hs : Slots s.l1d) (p : Phys) :
    (lineOf s.l1d s.build.l1Size.sets p.ns p.pa).elim (onL1d cleanL1d p s = s)
      fun l => CleanedL1 s (onL1d cleanL1d p s) l := by
  rw [onL1d_eq]
  cases hl : lineOf s.l1d s.build.l1Size.sets p.ns p.pa with
  | none => rfl
  | some l => exact cleanL1d_spec (lineIn_lineOf_of_slots hs hl) hb hp hw

/-- The same for the L2 line. -/
theorem onL2_cleanL2 (hs : Slots s.l2) (p : Phys) :
    (lineOf s.l2 s.build.l2Size.sets p.ns p.pa).elim (onL2 cleanL2 p s = s)
      fun l => CleanedL2 s (onL2 cleanL2 p s) l := by
  rw [onL2_eq]
  cases hl : lineOf s.l2 s.build.l2Size.sets p.ns p.pa with
  | none => rfl
  | some l => exact cleanL2_spec (lineIn_lineOf_of_slots hs hl) hb hp hw

end

/-- What is left when the line of an address, if there is one, is clean in the L1 data cache. -/
theorem onlyCaches_of_cleanedL1 {s t : State} {o : Option CacheLine} (h : o.elim (t = s) fun l => CleanedL1 s t l)
    (hs : Slots s.l2) (hw : Memory.wf s.mem = true) : OnlyCaches s t ∧ Slots t.l2 ∧ Memory.wf t.mem = true := by
  cases o with
  | none => cases h; exact ⟨.refl s, hs, hw⟩
  | some l =>
    obtain ⟨c, m, late, d, ht, hc, hm⟩ := CleanedL1.frame h hs hw
    exact ⟨CleanedL1.onlyCaches h, ht ▸ hc, ht ▸ hm⟩

theorem onlyCaches_of_cleanedL2 {s t : State} {o : Option CacheLine} (h : o.elim (t = s) fun l => CleanedL2 s t l) :
    OnlyCaches s t := by
  cases o with
  | none => cases h; exact .refl s
  | some l => exact CleanedL2.onlyCaches h

/-! ## The operations by address -/

section
variable (cond rt : BitVec 4) (s : State)

theorem exec_mcrIciallu : exec (.mcrIciallu cond rt) s =
    withSys cond rt (privilegedRight s || s.halted) s fun _ => .next (dropL1i (fun _ => true) s).advance := rfl

theorem exec_mcrIcimvau : exec (.mcrIcimvau cond rt) s =
    withSys cond rt (privilegedRight s || s.halted) s fun v => byAddress true (invalidateL1iAt v) v s := rfl

theorem exec_mcrDcimvac : exec (.mcrDcimvac cond rt) s =
    withSys cond rt (privilegedRight s) s fun v => byAddress false invalidateToPoC v s := rfl

theorem exec_mcrDccmvau : exec (.mcrDccmvau cond rt) s =
    withSys cond rt (privilegedRight s) s fun v => byAddress false (onL1d cleanL1d) v s := rfl

theorem exec_mcrDccmvac : exec (.mcrDccmvac cond rt) s =
    withSys cond rt (privilegedRight s) s fun v => byAddress false cleanToPoC v s := rfl

theorem exec_mcrDccimvac : exec (.mcrDccimvac cond rt) s =
    withSys cond rt (privilegedRight s) s fun v =>
      byAddress false (fun p s => invalidateToPoC p (cleanToPoC p s)) v s := rfl

end

/-- An operation by address with the right, a register below r15, and the MMU off. -/
theorem withSys_byAddress {cond rt : BitVec 4} {s : State} (hc : condPassed cond s = true) {ok : Bool} (hok : ok = true)
    (hrt : rt ≠ 15) (hm : s.cur.sctlr.getLsbD 0 = false) (maint : Bool) (op : Word → Phys → State → State) :
    withSys cond rt ok s (fun v => byAddress maint (op v) v s) =
      .next (op (s.reg rt) ⟨!s.secure, s.reg rt, strongAttrs⟩ s).advance := by
  rw [withSys_effect hc hok hrt, byAddress_off hm]

/-- Dropping lines of the instruction cache and going on. -/
theorem dropL1i_gives (gone : CacheLine → Bool) (s : State) : ∃ late, LateBeside s late ∧
    (dropL1i gone s).advance = { skipped s with l1i := s.l1i.filter fun l => !gone l, late := late } := by
  refine ⟨_, lateBeside_dropL1i gone s, ?_⟩
  rw [dropL1i_eq]
  exact (State.advance_eq _)

/-- Cleaning by address with the MMU off: the L1 data line first, then the L2 line, and after both the lines go (R356 to
R361). -/
theorem cleanByAddress {cond rt : BitVec 4} {s : State} (hc : condPassed cond s = true) (hr : privilegedRight s = true)
    (hrt : rt ≠ 15) (hm : s.cur.sctlr.getLsbD 0 = false) (hb : s.bus = []) (hp : NoPort s) (hw : Memory.wf s.mem = true)
    (h1 : Slots s.l1d) (h2 : Slots s.l2) :
    let v := s.reg rt
    let ns : Bool := !s.secure
    ∃ t u, ((lineOf s.l1d s.build.l1Size.sets ns v).elim (t = s) fun l => CleanedL1 s t l) ∧
      ((lineOf t.l2 s.build.l2Size.sets ns v).elim (u = t) fun l => CleanedL2 t u l) ∧
      exec (.mcrDccmvau cond rt) s = .next { t with pc := nextPc s } ∧
      exec (.mcrDccmvac cond rt) s = .next { u with pc := nextPc s } ∧
      exec (.mcrDccimvac cond rt) s = .next { u with
        l1d := withoutLine u.l1d (lineOf u.l1d s.build.l1Size.sets ns v)
        l2 := withoutLine u.l2 (lineOf u.l2 s.build.l2Size.sets ns v), pc := nextPc s } := by
  intro v ns
  let p : Phys := ⟨ns, v, strongAttrs⟩
  have ht := onL1d_cleanL1d hb hp hw h1 p
  obtain ⟨hst, ht2, htw⟩ := onlyCaches_of_cleanedL1 ht h2 hw
  have hu := onL2_cleanL2 (hst.bus.trans hb) (hst.noPort hp) htw ht2 p
  rw [hst.build] at hu
  have hsu : OnlyCaches s (cleanToPoC p s) := hst.trans (onlyCaches_of_cleanedL2 hu)
  have outcome := withSys_byAddress hc hr hrt hm false
  refine ⟨onL1d cleanL1d p s, cleanToPoC p s, ht, hu, ?toL2, ?toMemory, ?andInvalidate⟩
  case toL2 => rw [exec_mcrDccmvau, ← hst.advance]; exact outcome fun _ => onL1d cleanL1d
  case toMemory => rw [exec_mcrDccmvac, ← hsu.advance]; exact outcome fun _ => cleanToPoC
  case andInvalidate =>
    rw [exec_mcrDccimvac, outcome fun _ p s => invalidateToPoC p (cleanToPoC p s), invalidateToPoC_eq, hsu.build]
    exact congrArg Host.Outcome.next (OnlyCaches.advance (by rw [OnlyCaches, hsu]))

/-- Settles O43: the rights by the shape of the instructions; with the MMU off the address of the register is the line's. -/
theorem cacheMaintenance : Obligations.CacheMaintenance := by
  intro cond rt s hc data instr instrRight
  have dataNeeds : ∀ i ∈ data, NeedsRight cond rt (privilegedRight s) s i := by
    simp only [data, List.forall_mem_cons]
    exact ⟨⟨_, exec_mcrDcimvac ..⟩, ⟨_, exec_mcrDccmvau ..⟩, ⟨_, exec_mcrDccmvac ..⟩, ⟨_, exec_mcrDccimvac ..⟩,
      List.forall_mem_nil _⟩
  have instrNeeds : ∀ i ∈ instr, NeedsRight cond rt instrRight s i := by
    simp only [instr, List.forall_mem_cons]
    exact ⟨⟨_, exec_mcrIciallu ..⟩, ⟨_, exec_mcrIcimvau ..⟩, List.forall_mem_nil _⟩
  refine ⟨fun h i hi => (dataNeeds i hi).undefined hc h, fun h h15 i hi => (dataNeeds i hi).fault_of_r15 hc h h15,
    fun h i hi => (instrNeeds i hi).undefined hc h, fun h h15 i hi => (instrNeeds i hi).fault_of_r15 hc h h15,
    fun hrt => ⟨fun hr => ⟨?wholeInstr, fun hm => ?instrLine⟩, fun hr hm => ⟨?invalidate, cleanByAddress hc hr hrt hm⟩⟩⟩
  case wholeInstr =>
    obtain ⟨late, hlate, h⟩ := dropL1i_gives (fun _ => true) s
    refine ⟨late, hlate, ?_⟩
    rw [exec_mcrIciallu, withSys_effect hc hr hrt, h]
    simp
  case instrLine =>
    obtain ⟨late, hlate, h⟩ := dropL1i_gives
      (fun l => l.set == s.l1Set (s.reg rt) && l.tag == lineTag (s.reg rt) && l.ns == !s.secure) s
    refine ⟨late, hlate, ?_⟩
    rw [exec_mcrIcimvau, withSys_byAddress hc hr hrt hm true invalidateL1iAt, invalidateL1iAt, h, State.l1Set, lineTag_toNat]
    rfl
  case invalidate =>
    rw [exec_mcrDcimvac, withSys_byAddress hc hr hrt hm false fun _ => invalidateToPoC, invalidateToPoC_eq]
    exact next_advance _

/-! ## The operations by set and way -/

/-- What an operation by set and way makes of the line `line` that it selects: `clean` and `drop` are those of the cache. -/
def SetWayOp.apply (op : SetWayOp) (line : Option CacheLine) (clean drop : State → State) (s : State) : State :=
  let s1 := if op.cleans line s then clean s else s
  if op.invalidate then drop s1 else s1

theorem setWay_set (v : Word) (sets : Nat) : (v >>> 6).toNat % sets = v.toNat / 64 % sets := by
  rw [BitVec.toNat_ushiftRight, Nat.shiftRight_eq_div_pow]

theorem bySetWay_l1 {v : Word} (h : (v.extractLsb' 1 3).toNat = 0) (op : SetWayOp) (s : State) :
    let set := v.toNat / 64 % s.build.l1Size.sets
    let way := (v.extractLsb' 30 2).toNat
    bySetWay op v s = op.apply (lineIn s.l1d set way) (cleanL1d set way) (invalidateL1d set way) s := by
  rw [bySetWay, h, ← setWay_set]
  rfl

theorem bySetWay_l2 {v : Word} (h : (v.extractLsb' 1 3).toNat = 1) (op : SetWayOp) (s : State) :
    let set := v.toNat / 64 % s.build.l2Size.sets
    let way := (v.extractLsb' 29 3).toNat
    bySetWay op v s = op.apply (lineIn s.l2 set way) (cleanL2 set way) (invalidateL2 set way) s := by
  rw [bySetWay, h, ← setWay_set]
  rfl

/-- At the levels from 2 on there is no cache (R365). -/
theorem bySetWay_absent {v : Word} (h : 2 ≤ (v.extractLsb' 1 3).toNat) (op : SetWayOp) (s : State) :
    bySetWay op v s = s := by
  unfold bySetWay
  split
  · omega
  · omega
  · rfl

/-- With nothing to clean and nothing to drop the operation does nothing. -/
theorem SetWayOp.apply_idle (op : SetWayOp) (line : Option CacheLine) {clean drop : State → State} {s : State}
    (hclean : clean s = s) (hdrop : drop s = s) : op.apply line clean drop s = s := by
  simp only [SetWayOp.apply, hclean, ite_self, hdrop]

theorem without_of_lineIn_none {c : List CacheLine} {set way : Nat} (h : lineIn c set way = none) : without c set way = c :=
  List.filter_eq_self.2 fun l hl => by
    rw [Bool.not_eq_true', ← Bool.not_eq_true]
    exact List.find?_eq_none.1 h l hl

section
variable {s : State} {set way : Nat}

theorem cleanL1d_of_none (h : lineIn s.l1d set way = none) : cleanL1d set way s = s := by
  rw [cleanL1d, show lineAt s.l1d set way = none from h]

theorem cleanL2_of_none (h : lineIn s.l2 set way = none) : cleanL2 set way s = s := by
  rw [cleanL2, show lineAt s.l2 set way = none from h]

theorem invalidateL1d_eq (s : State) (set way : Nat) : invalidateL1d set way s = { s with l1d := without s.l1d set way } := rfl

theorem invalidateL2_eq (s : State) (set way : Nat) : invalidateL2 set way s = { s with l2 := without s.l2 set way } := rfl

theorem onlyCaches_invalidateL1d (set way : Nat) (s : State) : OnlyCaches s (invalidateL1d set way s) := rfl

theorem onlyCaches_invalidateL2 (set way : Nat) (s : State) : OnlyCaches s (invalidateL2 set way s) := rfl

theorem invalidateL1d_of_none (h : lineIn s.l1d set way = none) : invalidateL1d set way s = s := by
  rw [invalidateL1d_eq, without_of_lineIn_none h]

theorem invalidateL2_of_none (h : lineIn s.l2 set way = none) : invalidateL2 set way s = s := by
  rw [invalidateL2_eq, without_of_lineIn_none h]

end

section
variable (cond rt : BitVec 4) (s : State)

theorem exec_mcrDcisw : exec (.mcrDcisw cond rt) s =
    withSys cond rt (privilegedRight s) s fun v => .next (bySetWay ⟨false, true⟩ v s).advance := rfl

theorem exec_mcrDccsw : exec (.mcrDccsw cond rt) s =
    withSys cond rt (privilegedRight s) s fun v => .next (bySetWay ⟨true, false⟩ v s).advance := rfl

theorem exec_mcrDccisw : exec (.mcrDccisw cond rt) s =
    withSys cond rt (privilegedRight s) s fun v => .next (bySetWay ⟨true, true⟩ v s).advance := rfl

end

section
variable {cond rt : BitVec 4} {s : State} (hc : condPassed cond s = true) (hr : privilegedRight s = true) (hrt : rt ≠ 15)
include hc hr hrt

/-- Where the operations change nothing, the instructions only go on. -/
theorem setWay_skips (h : ∀ op, bySetWay op (s.reg rt) s = s) :
    ∀ i ∈ [Instr.mcrDcisw cond rt, .mcrDccsw cond rt, .mcrDccisw cond rt], exec i s = .next (skipped s) := by
  simp only [List.forall_mem_cons, exec_mcrDcisw, exec_mcrDccsw, exec_mcrDccisw, withSys_effect hc hr hrt, h,
    State.advance_eq]
  exact ⟨trivial, trivial, trivial, List.forall_mem_nil _⟩

/-- The three instructions on a line `l` of a cache with the operations `clean` and `drop`: an invalidation from the Nonsecure
state cleans a Secure line first (22_caches.md R1150). -/
theorem setWay_gives {l : CacheLine} {clean drop : State → State}
    (h : ∀ op : SetWayOp, bySetWay op (s.reg rt) s = op.apply (some l) clean drop s)
    (hclean : OnlyCaches s (clean s)) (hdrop : ∀ u, OnlyCaches u (drop u)) :
    exec (.mcrDcisw cond rt) s = .next (if !s.secure && !l.ns then { drop (clean s) with pc := nextPc s }
      else { drop s with pc := nextPc s }) ∧
    exec (.mcrDccsw cond rt) s = .next { clean s with pc := nextPc s } ∧
    exec (.mcrDccisw cond rt) s = .next { drop (clean s) with pc := nextPc s } := by
  have hboth : OnlyCaches s (drop (clean s)) := hclean.trans (hdrop _)
  have protectsFirst : SetWayOp.apply ⟨false, true⟩ (some l) clean drop s =
      if !s.secure && !l.ns then drop (clean s) else drop s :=
    apply_ite drop _ _ _
  refine ⟨?invalidate, ?clean, ?both⟩
  case invalidate =>
    rw [exec_mcrDcisw, withSys_effect hc hr hrt, h, protectsFirst, ← hboth.advance, ← (hdrop s).advance, apply_ite State.advance]
  case clean =>
    rw [exec_mcrDccsw, withSys_effect hc hr hrt, h, ← hclean.advance]
    rfl
  case both =>
    rw [exec_mcrDccisw, withSys_effect hc hr hrt, h, ← hboth.advance]
    rfl

end

/-- Settles O44: by the level, then by whether the set and way hold a line. -/
theorem setWayMaintenance : Obligations.SetWayMaintenance := by
  intro cond rt s hc ops
  have needs : ∀ i ∈ ops, NeedsRight cond rt (privilegedRight s) s i := by
    simp only [ops, List.forall_mem_cons]
    exact ⟨⟨_, exec_mcrDcisw ..⟩, ⟨_, exec_mcrDccsw ..⟩, ⟨_, exec_mcrDccisw ..⟩, List.forall_mem_nil _⟩
  refine ⟨fun h i hi => (needs i hi).undefined hc h, fun h h15 i hi => (needs i hi).fault_of_r15 hc h h15,
    fun hr hrt hb hp hw => ⟨fun h => setWay_skips hc hr hrt fun op => bySetWay_absent h op s,
      fun h0 => ⟨fun hnone => ?emptyL1, fun l hl => ?lineL1⟩, fun h1 => ⟨fun hnone => ?emptyL2, fun l hl => ?lineL2⟩⟩⟩
  case emptyL1 =>
    refine setWay_skips hc hr hrt fun op => (bySetWay_l1 h0 op s).trans ?_
    exact op.apply_idle _ (cleanL1d_of_none hnone) (invalidateL1d_of_none hnone)
  case emptyL2 =>
    refine setWay_skips hc hr hrt fun op => (bySetWay_l2 h1 op s).trans ?_
    exact op.apply_idle _ (cleanL2_of_none hnone) (invalidateL2_of_none hnone)
  case lineL1 =>
    have hclean := cleanL1d_spec hl hb hp hw
    exact ⟨_, hclean, setWay_gives hc hr hrt (fun op => by rw [bySetWay_l1 h0, hl]) (CleanedL1.onlyCaches hclean)
      (onlyCaches_invalidateL1d _ _)⟩
  case lineL2 =>
    have hclean := cleanL2_spec hl hb hp hw
    exact ⟨_, hclean, setWay_gives hc hr hrt (fun op => by rw [bySetWay_l2 h1, hl]) (CleanedL2.onlyCaches hclean)
      (onlyCaches_invalidateL2 _ _)⟩

end Sys2Proof.Machine

end
end

section
/-! Address translation and TLB preload by instruction with the MMU off (O45; 13_cp15_maint_pmu.md R366 to R370;
21_mmu.md R1101). -/

noncomputable section

namespace Sys2Proof.Machine

open Safety

/-- PAR for a flat address: that of Strongly ordered memory in the physical space `ns`. -/
def flatPar (b : Banked) (ns : Bool) (v : Word) : Word :=
  (mvaOf b v).extractLsb' 12 20 ++ 0#2 ++ bit ns ++ 0#1 ++ 1#1 ++ 0b001#3 ++ 0b00#2 ++ 0#1 ++ 0#1

/-- Bit 0 says that the translation succeeded. -/
theorem flatPar_succeeds (b : Banked) (ns : Bool) (v : Word) : (flatPar b ns v).getLsbD 0 = false := by
  unfold flatPar
  simp only [BitVec.getLsbD_append]
  rfl

theorem setBit_flatPar (b : Banked) (ns x : Bool) (v : Word) : setBit (flatPar b ns v) 9 x = flatPar b x v :=
  setBit9 _ ns x

/-- With the MMU of a state off the translation of a data address for it is flat, and always permitted. -/
theorem translateForPar_off {s : State} {secure : Bool} (hm : (s.bank secure).sctlr.getLsbD 0 = false) (priv : Bool)
    {kind : XKind} (hk : kind ≠ .fetch) (v : Word) :
    translateForPar s secure priv kind v = .ok (flatPar (s.bank secure) (!secure) v) s := by
  rw [translateForPar]
  dsimp only
  rw [hm, if_pos (by rfl)]
  cases kind with
  | fetch => exact absurd rfl hk
  | read => rfl
  | write => rfl

section
variable {cond rt : BitVec 4} {s : State} (hc : condPassed cond s = true) (priv : Bool) {kind : XKind} (hk : kind ≠ .fetch)
include hc hk

/-- The operations of the current state (R366). -/
theorem vaToPa_current_gives (hm : s.cur.sctlr.getLsbD 0 = false) :
    WriteGives s rt (privilegedRight s)
      (fun v =>
        let s' : State := { s with draws := s.draws + 1 }
        if s.secure then { s' with sec := { s.sec with par := flatPar s.sec false v } }
        else { s' with nsec := { s.nsec with par := flatPar s.nsec true v } })
      (withSys cond rt (privilegedRight s) s fun v => vaToPa false priv kind v s) := by
  refine withSys_gives hc _ _ _ fun _ _ => ?_
  rw [vaToPa, Bool.not_false, Bool.and_true, translateForPar_off hm priv hk]
  cases hs : s.secure <;> exact next_advance _

/-- The operations of the other state, from the Secure state: PAR.NS is a free value (R370; log 18). -/
theorem vaToPa_other_gives (hm : s.nsec.sctlr.getLsbD 0 = false) :
    WriteGives s rt (secureRight s)
      (fun v => { s with
        draws := s.draws + 1
        sec := { s.sec with par := flatPar s.nsec ((Config.freeWord s.draws).getLsbD 0) v } })
      (withSys cond rt (secureRight s) s fun v => vaToPa true priv kind v s) := by
  refine withSys_gives hc _ _ _ fun hr _ => ?_
  have hs : s.secure = true := (Bool.and_eq_true_iff.1 hr).2
  rw [vaToPa, Bool.not_true, Bool.and_false, translateForPar_off (secure := false) hm priv hk]
  dsimp only
  rw [flatPar_succeeds, if_pos (by rfl), setBit_flatPar, hs]
  exact next_advance _

end

/-- A TLB preload with the MMU off does nothing (14_cp15_tlb_ple_misc.md R473). -/
theorem preloadTlb_off_gives {cond rt : BitVec 4} {s : State} (hc : condPassed cond s = true)
    (hm : s.cur.sctlr.getLsbD 0 = false) (data : Bool) :
    WriteGives s rt (nsacrRight 17 s) (fun _ => s) (withSys cond rt (nsacrRight 17 s) s fun v => preloadTlb data v s) := by
  refine withSys_gives hc _ _ _ fun _ _ => ?_
  rw [preloadTlb, hm, if_pos (by rfl), State.advance_eq]
  rfl

/-- Settles O45: each instruction is a translation for a privileged or User access to data, or a preload. -/
theorem addressTranslationOff : Obligations.AddressTranslationOff := by
  intro cond rt s hc par
  have hread : XKind.read ≠ .fetch := by decide
  have hwrite : XKind.write ≠ .fetch := by decide
  refine ⟨fun hm => ⟨?current, ?preload⟩, fun hm => ?other⟩
  case current =>
    simp only [List.forall_mem_cons]
    exact ⟨vaToPa_current_gives hc true hread hm, vaToPa_current_gives hc true hwrite hm,
      vaToPa_current_gives hc false hread hm, vaToPa_current_gives hc false hwrite hm, List.forall_mem_nil _⟩
  case preload =>
    simp only [List.forall_mem_cons]
    exact ⟨preloadTlb_off_gives hc hm true, preloadTlb_off_gives hc hm false, List.forall_mem_nil _⟩
  case other =>
    simp only [List.forall_mem_cons]
    exact ⟨vaToPa_other_gives hc true hread hm, vaToPa_other_gives hc true hwrite hm,
      vaToPa_other_gives hc false hread hm, vaToPa_other_gives hc false hwrite hm, List.forall_mem_nil _⟩

end Sys2Proof.Machine

end
end

section
/-! The preload engine channels (O40; 14_cp15_tlb_ple_misc.md R489, R497 to R502). -/

noncomputable section

namespace Sys2Proof.Machine

open Safety

/-! ## What the commands and the writes make of the selected channel -/

/-- Start needs an idle channel (R497) and an L2 cache (R502). -/
theorem pleStart_eq (s : State) (v : Word) :
    pleStart s = if s.ple.chan[channelNo s].status.extractLsb' 0 2 = 0 ∧ s.build.l2Size ≠ .k0
      then withChannel (fun _ c => { c with status := 2, secure := s.secure, page := none }) s v else s := by
  have allowed : (s.pleChan.idle && s.build.hasL2) = true ↔
      s.ple.chan[channelNo s].status.extractLsb' 0 2 = 0 ∧ s.build.l2Size ≠ .k0 := by
    rw [Bool.and_eq_true, PleChannel.idle, beq_iff_eq, Build.hasL2, bne_iff_ne]
    rfl
  exact if_congr allowed rfl rfl

/-- Stop signals the completion to the side that started the transfer (R498; log 34). -/
theorem pleStop_eq (s : State) (v : Word) :
    pleStop s = if s.pleChan.running then withChannel (fun _ c => { c with
        status := 0, page := none
        irqSecure := c.irqSecure || (c.secure && c.control.getLsbD 29)
        irqNonsecure := c.irqNonsecure || (!c.secure && c.control.getLsbD 29) }) s v
      else s := by
  rw [pleStop, PleChannel.signal, Bool.and_comm _ s.pleChan.secure, Bool.and_comm _ (!s.pleChan.secure)]
  rfl

/-- UM is none of the other bits of the Control Register that are stored (R499). -/
theorem setBit_um (v : Word) (um : Bool) :
    setBit (v &&& 0x70000007) 26 um = (v &&& 0x70000007) ||| if um then 0x04000000 else 0 := by
  rw [setBit, setBits, BitVec.and_assoc]
  cases um <;> rfl

/-- The Control Register written, with UM forced by the U bit of the channel (R499). -/
theorem pleControl_eq (v : Word) (s : State) :
    pleControl v s = if s.pleChan.running then s else withChannel (fun v c => { c with
        control := (v &&& 0x70000007) |||
          (if s.ple.userAcc.getLsbD (channelNo s) || v.getLsbD 26 then 0x04000000 else 0) }) s v := by
  rw [pleControl, setBit_um]
  rfl

/-- The Lines field, bits [N:6], with N taken from the number of sets and from the table of R502. -/
theorem pleLinesMask_eq (k : Build) : pleLinesMask k = linesField k.l2Size := by
  unfold pleLinesMask
  cases k.l2Size <;> rfl

/-! ## The instructions -/

section
variable (cond rt : BitVec 4) (s : State)

theorem exec_mcrPleStart : exec (.mcrPleStart cond rt) s = writeSys cond rt (channelRight s) s fun _ => pleStart s := rfl

theorem exec_mcrPleStop : exec (.mcrPleStop cond rt) s = writeSys cond rt (channelRight s) s fun _ => pleStop s := rfl

theorem exec_mcrPleClear : exec (.mcrPleClear cond rt) s = writeSys cond rt (channelRight s) s fun _ => pleClear s := rfl

theorem exec_mcrPleControl : exec (.mcrPleControl cond rt) s =
    writeSys cond rt (channelRight s) s fun v => pleControl v s := rfl

theorem exec_mcrPleStartAddr : exec (.mcrPleStartAddr cond rt) s = writeSys cond rt (channelRight s) s fun v =>
    s.drawn.setPleChan { s.pleChan with start := pleStored v s &&& 0xFFFFFFC0 } := rfl

theorem exec_mcrPleEndAddr : exec (.mcrPleEndAddr cond rt) s = writeSys cond rt (channelRight s) s fun v =>
    s.drawn.setPleChan { s.pleChan with endr := pleStored v s &&& pleLinesMask s.build } := rfl

theorem exec_mrcPleStartAddr : exec (.mrcPleStartAddr cond rt) s =
    readSysMaybe cond rt (channelRight s) (pleSeen s.pleChan.start s) s := rfl

theorem exec_mrcPleEndAddr : exec (.mrcPleEndAddr cond rt) s =
    readSysMaybe cond rt (channelRight s) (pleSeen s.pleChan.endr s) s := rfl

end

/-- A write with the right to the selected channel, by the state that it makes. -/
theorem channelWrite_gives {cond rt : BitVec 4} {s : State} (hc : condPassed cond s = true) {effect t : Word → State}
    (keeps : ∀ v, Kept s (effect v)) (makes : ∀ v, effect v = t v) :
    WriteGives s rt (channelRight s) t (writeSys cond rt (channelRight s) s effect) := by
  obtain rfl : effect = t := funext makes
  exact writeSys_gives hc _ _ _ fun v => advance_of (keeps v).halted (keeps v).pc

/-- A read of an address register of the selected channel: its value, or while the channel runs a free value (R497). -/
theorem readAddress_gives {cond rt : BitVec 4} {s : State} (hc : condPassed cond s = true) (v : Word) :
    let r := readSysMaybe cond rt (channelRight s) (pleSeen v s) s
    (s.pleChan.running = false → ReadGives s rt (channelRight s) v r) ∧
    (s.pleChan.running = true → channelRight s = true →
      ReadGives { s with draws := s.draws + 1 } rt true (Config.freeWord s.draws) r) ∧
    (s.pleChan.running = true → channelRight s = false → ∃ t, r = .next t ∧ Undefined s t) := by
  have seen_idle (h : s.pleChan.running = false) : pleSeen v s = some v := by rw [pleSeen, h]; rfl
  have seen_running (h : s.pleChan.running = true) : pleSeen v s = none := by rw [pleSeen, h]; rfl
  exact ⟨fun h => readSysMaybe_some hc _ (seen_idle h), fun h => (readSysMaybe_none hc _ (seen_running h)).1,
    fun h => (readSysMaybe_none hc _ (seen_running h)).2⟩

/-- Settles O40: the commands and writes by what each makes of the selected channel, the reads of the address registers by
whether it runs. -/
theorem preloadChannels : Obligations.PreloadChannels := by
  intro cond rt s hc c runs
  refine ⟨?writes, ?reads⟩
  case writes =>
    simp only [channelWrites, List.forall_mem_cons, exec_mcrPleStart, exec_mcrPleStop, exec_mcrPleClear, exec_mcrPleControl,
      exec_mcrPleStartAddr, exec_mcrPleEndAddr, ← pleLinesMask_eq]
    refine ⟨?start, ?stop, ?clear, ?control, ?startAddr, ?endAddr, List.forall_mem_nil _⟩
    case start => exact channelWrite_gives hc (fun _ => kept_pleStart s) (pleStart_eq s)
    case stop => exact channelWrite_gives hc (fun _ => kept_pleStop s) (pleStop_eq s)
    case clear => exact channelWrite_gives hc (fun _ => kept_pleClear s) fun _ => rfl
    case control => exact channelWrite_gives hc (kept_pleControl · s) (pleControl_eq · s)
    case startAddr => exact channelWrite_gives hc (fun _ => (kept_drawn s).trans (kept_setPle _ _ _)) fun _ => rfl
    case endAddr => exact channelWrite_gives hc (fun _ => (kept_drawn s).trans (kept_setPle _ _ _)) fun _ => rfl
  case reads =>
    simp only [List.forall_mem_cons, exec_mrcPleStartAddr, exec_mrcPleEndAddr]
    exact ⟨readAddress_gives hc c.start, readAddress_gives hc c.endr, List.forall_mem_nil _⟩

end Sys2Proof.Machine

end
end

section
/-! The array operations of c15 (O42; 15_cp15_c15.md R571): what each one executes as, and so what it gives. -/

noncomputable section

namespace Sys2Proof.Machine

open Safety

/-- The instructions `i` load with three free values the data registers that `load` names. -/
def LoadsFree (load : SysRegs → Word → Word → Word → SysRegs) (i : BitVec 4 → BitVec 4 → Instr) : Prop :=
  ∀ cond rt s, exec (i cond rt) s = arrayRead cond rt s (load s.sys)

/-- The instructions `i` write to an array, which the model refuses (decision D22 of the spec). -/
def WritesArray (i : BitVec 4 → BitVec 4 → Instr) : Prop :=
  ∀ cond rt s, exec (i cond rt) s = arrayWrite cond rt s

/-- Each read of the list: the data side, the instruction side (of which the GHB loads one register alone) and the L2 cache. -/
theorem loadsFree_arrayReads : ∀ e ∈ arrayReads, LoadsFree e.1 e.2 := by
  simp only [arrayReads, List.forall_mem_cons]
  refine ⟨?dtlbCam, ?dtlbAttr, ?dtlbPa, ?dhvab, ?dtag, ?ddata, ?itlbCam, ?itlbAttr, ?itlbPa, ?ihvab, ?itag, ?idata,
    ?ghb, ?btb, ?l2Tag, ?l2Data, ?l2Parity, List.forall_mem_nil _⟩
  all_goals exact fun _ _ _ => rfl

theorem writesArray_arrayWrites : ∀ i ∈ arrayWrites, WritesArray i := by
  simp only [arrayWrites, List.forall_mem_cons]
  refine ⟨?dtlbCam, ?dtlbAttr, ?dtlbPa, ?dhvab, ?dtag, ?ddata, ?itlbCam, ?itlbAttr, ?itlbPa, ?ihvab, ?itag, ?idata,
    ?l2Tag, ?l2Data, ?l2Parity, List.forall_mem_nil _⟩
  all_goals exact fun _ _ _ => rfl

/-- Settles O42: each read of the list loads its data registers, by `array_read`; each write is refused, by `array_write`. -/
theorem arrayOperations : Obligations.ArrayOperations := by
  intro cond rt s hc
  refine ⟨fun e he => ?read, fun i hi => ?write⟩
  case read =>
    rw [loadsFree_arrayReads e he cond rt s]
    exact array_read hc e.1 (e.1 s.sys) rfl
  case write =>
    rw [writesArray_arrayWrites i hi cond rt s]
    exact array_write hc

end Sys2Proof.Machine

end
end

section
/-! Memory in canonical form (O58; 20_memory.md R1000): a canonical list is determined by what it reads as. -/

namespace Sys2Proof.Machine

theorem Memory.wfFrom_cons_iff (lo k : Nat) (b : Byte) (m : List Host.Cell) :
    Memory.wfFrom lo ((k, b) :: m) = true ↔ lo ≤ k ∧ b ≠ unlistedByte ∧ Memory.wfFrom (k + 1) m = true := by
  simp [Memory.wfFrom, and_assoc]

theorem memRead_cons_self (k : Nat) (b : Byte) (m : List Host.Cell) : memRead ((k, b) :: m) k = b := if_pos rfl

theorem memRead_cons_of_ne {j k : Nat} (h : j ≠ k) (b : Byte) (m : List Host.Cell) :
    memRead ((j, b) :: m) k = memRead m k := if_neg h

/-- The first key of a canonical list is the first that does not read as an unlisted byte, so that a list which reads alike
begins at the same key or later. -/
theorem first_key_le_of_reads {lo lo' i j : Nat} {a b : Byte} {m n : List Host.Cell}
    (hm : Memory.wfFrom lo ((i, a) :: m) = true) (hn : Memory.wfFrom lo' ((j, b) :: n) = true)
    (h : ∀ k, memRead ((i, a) :: m) k = memRead ((j, b) :: n) k) : j ≤ i := by
  obtain ⟨_, ha, _⟩ := (Memory.wfFrom_cons_iff lo i a m).1 hm
  obtain ⟨_, hb, hn⟩ := (Memory.wfFrom_cons_iff lo' j b n).1 hn
  by_contra hij
  have hj : Memory.wfFrom j ((j, b) :: n) = true := (Memory.wfFrom_cons_iff j j b n).2 ⟨le_rfl, hb, hn⟩
  exact ha ((memRead_cons_self i a m).symm.trans ((h i).trans (memRead_below _ j i hj (by omega))))

/-- Canonical lists that read alike are equal: they begin with the same entry, and what follows it reads alike. -/
theorem eq_of_memRead_from : ∀ (m n : List Host.Cell) (lo lo' : Nat), Memory.wfFrom lo m = true →
    Memory.wfFrom lo' n = true → (∀ k, memRead m k = memRead n k) → m = n
  | [], [], _, _, _, _, _ => rfl
  | [], (j, b) :: n, _, lo', _, hn, h =>
    absurd ((h j).trans (memRead_cons_self j b n)).symm ((Memory.wfFrom_cons_iff lo' j b n).1 hn).2.1
  | (i, a) :: m, [], lo, _, hm, _, h =>
    absurd ((memRead_cons_self i a m).symm.trans (h i)) ((Memory.wfFrom_cons_iff lo i a m).1 hm).2.1
  | (i, a) :: m, (j, b) :: n, lo, lo', hm, hn, h => by
    have hij : i = j := le_antisymm (first_key_le_of_reads hn hm fun k => (h k).symm) (first_key_le_of_reads hm hn h)
    subst hij
    have hab : a = b := by simpa only [memRead_cons_self] using h i
    obtain ⟨_, _, hm⟩ := (Memory.wfFrom_cons_iff lo i a m).1 hm
    obtain ⟨_, _, hn⟩ := (Memory.wfFrom_cons_iff lo' i b n).1 hn
    have htail (k : Nat) : memRead m k = memRead n k := by
      by_cases hk : i = k
      · rw [memRead_below m (i + 1) k hm (by omega), memRead_below n (i + 1) k hn (by omega)]
      · simpa only [memRead_cons_of_ne hk] using h k
    rw [hab, eq_of_memRead_from m n (i + 1) (i + 1) hm hn htail]

theorem eq_of_memRead {m n : List Host.Cell} (hm : Memory.wf m = true) (hn : Memory.wf n = true)
    (h : ∀ k, memRead m k = memRead n k) : m = n := eq_of_memRead_from m n 0 0 hm hn h

/-- Settles O58: the laws of one write are those of `memWrite`; by extensionality no other canonical memory reads so. -/
theorem memoryCanonical : Obligations.MemoryCanonical := by
  intro m n hm hn
  refine ⟨eq_of_memRead hm hn, fun k v => ⟨memWrite_wf hm k v, memRead_memWrite hm k v, fun hk hother => ?unique⟩⟩
  refine eq_of_memRead hn (memWrite_wf hm k v) fun j => ?_
  rw [memRead_memWrite hm]
  split
  case isTrue hj => rw [hj, hk]
  case isFalse hj => exact hother j hj

end Sys2Proof.Machine

end

section
/-! Alignment faults (O29; 20_memory.md R1014): what each load and store of one register executes as, and what it does with an
address that is not a multiple of its size (log 18 leaves the domain free; logs 13 and 21 are in the entry). -/

noncomputable section

namespace Sys2Proof.Machine

open Safety

/-! ## Loads and stores by form -/

/-- The load `f` is `loadReg` with the operands of its form, and narrows by `ext`. -/
def LoadsByForm (ext : Word → Word) (f : LsForm) : Prop :=
  ∀ (o : LsFields) (s : State), o.rt ≠ 15 → f.allows o [o.rt] →
    exec (f.make o) s = onCond o.cond s (loadReg f.size ext (!f.user && s.privileged) (LsForm.pBit f o) o.u
      (LsForm.wBit f o) o.rn o.rt (o.offset f.offset s) s)

/-- The store `f` is `storeReg` with the operands of its form; STR alone may store r15 (44_load_store.md R1696). -/
def StoresByForm (f : LsForm) : Prop :=
  ∀ (o : LsFields) (s : State), f.allows o [o.rt] →
    exec (f.make o) s = onCond o.cond s (storeReg f.size (f.size == 4 && !f.user) (!f.user && s.privileged)
      (LsForm.pBit f o) o.u (LsForm.wBit f o) o.rn o.rt (o.offset f.offset s) s)

theorem loadWord_of_ne {rt : BitVec 4} (h : rt ≠ 15) (ret : Bool) (p u w : BitVec 1) (rn : BitVec 4) (off : Word) (s : State) :
    loadWord ret p u w rn rt off s = loadReg 4 id s.privileged p u w rn rt off s := if_neg h

theorem signByte_eq : (fun v : Word => (v.extractLsb' 0 8).signExtend 32) = signByte :=
  funext fun v => by rw [signByte, BitVec.setWidth_eq_extractLsb' (by decide)]

theorem signHalf_eq : (fun v : Word => (v.extractLsb' 0 16).signExtend 32) = signHalf :=
  funext fun v => by rw [signHalf, BitVec.setWidth_eq_extractLsb' (by decide)]

/-- Each load of the list: LDR of a register below r15 is like the others, and an offset register that the form allows is not
r15. -/
theorem loadsByForm_loads : ∀ f ∈ loads, LoadsByForm f.1 f.2 := by
  simp only [loads, signByte_eq, signHalf_eq, List.forall_mem_cons]
  refine ⟨?ldrImm, ?ldrReg, ?ldrbImm, ?ldrbReg, ?ldrhImm, ?ldrhReg, ?ldrsbImm, ?ldrsbReg, ?ldrshImm, ?ldrshReg,
    ?ldrtImm, ?ldrtReg, ?ldrbtImm, ?ldrbtReg, ?ldrhtImm, ?ldrhtReg, ?ldrsbtImm, ?ldrsbtReg, ?ldrshtImm, ?ldrshtReg,
    List.forall_mem_nil _⟩
  case ldrImm => exact fun o s hrt _ => congrArg (onCond o.cond s) (loadWord_of_ne hrt _ _ _ _ _ _ s)
  case ldrReg =>
    exact fun o s hrt ha => congrArg (onCond o.cond s)
      ((unlessOff_ok (ha.1 (.inl rfl)) _).trans (loadWord_of_ne hrt _ _ _ _ _ _ s))
  case ldrbReg | ldrtReg | ldrbtReg =>
    exact fun o s _ ha => congrArg (onCond o.cond s) (unlessOff_ok (ha.1 (.inl rfl)) _)
  case ldrhReg | ldrsbReg | ldrshReg | ldrhtReg | ldrsbtReg | ldrshtReg =>
    exact fun o s _ ha => congrArg (onCond o.cond s) (unlessOff_ok (ha.1 (.inr rfl)) _)
  all_goals exact fun _ _ _ _ => rfl

theorem storesByForm_stores : ∀ f ∈ stores, StoresByForm f := by
  simp only [stores, List.forall_mem_cons]
  refine ⟨?strImm, ?strReg, ?strbImm, ?strbReg, ?strhImm, ?strhReg, ?strtImm, ?strtReg, ?strbtImm, ?strbtReg,
    ?strhtImm, ?strhtReg, List.forall_mem_nil _⟩
  case strReg | strbReg | strtReg | strbtReg =>
    exact fun o s ha => congrArg (onCond o.cond s) (unlessOff_ok (ha.1 (.inl rfl)) _)
  case strhReg | strhtReg => exact fun o s ha => congrArg (onCond o.cond s) (unlessOff_ok (ha.1 (.inr rfl)) _)
  all_goals exact fun _ _ _ => rfl

/-! ## The alignment fault -/

/-- `s` as the alignment fault of an access at `va` is recorded in it, before the Data Abort is entered. -/
def alignmentRecorded (s : State) (write : Bool) (va : Word) : State :=
  let b := faulted s.cur (mvaOf s.cur va) write 0b00001 ((Config.freeWord s.draws).extractLsb' 0 4)
  { s with
    draws := s.draws + 1
    happened := seen s 0x01
    sec := if s.secure then b else s.sec
    nsec := if s.secure then s.nsec else b }

/-- The outcome `r` is the Data Abort for the alignment of an access at `va`. -/
def AlignmentAborts (s : State) (write : Bool) (va : Word) (r : Host.Outcome State Fault Refusal) : Prop :=
  ∃ t, r = .next t ∧ Entered (alignmentRecorded s write va) t .abt 4 (s.pc + 8) 0x10 true false

section

variable {s : State} {q : Req} {va : Word}

theorem readData_misaligned (h : Direct s) (ha : va.toNat % q.size ≠ 0) :
    readData q va s = .abort (alignmentAbort (mvaOf s.cur va) false) s := by
  rw [readData, prepare_misaligned h.mmuOff q (kind := .read) nofun ha]; rfl

theorem writeData_misaligned (h : Direct s) (ha : va.toNat % q.size ≠ 0) (v : Word) :
    writeData q va v s = .abort (alignmentAbort (mvaOf s.cur va) true) s := by
  rw [writeData, prepare_misaligned h.mmuOff q (kind := .write) nofun ha]; rfl

variable {f : LsForm} {o : LsFields}

theorem loadReg_misaligned (h : Direct s) (hh : s.halted = false) (ext : Word → Word) (priv : Bool) (hrt : o.rt ≠ 15)
    (ha : f.allows o [o.rt]) (hva : (f.address o s).toNat % f.size ≠ 0) :
    AlignmentAborts s false (f.address o s)
      (loadReg f.size ext priv (LsForm.pBit f o) o.u (LsForm.wBit f o) o.rn o.rt (o.offset f.offset s) s) := by
  rw [loadReg, if_neg (by rw [noClash ha]; simpa using hrt), ← address_eq]
  exact misaligned_read h hh _ _ false (readData_misaligned (q := plainReq f.size priv false) h hva) _

theorem storeReg_misaligned (h : Direct s) (hh : s.halted = false) (pcOk priv : Bool) (hrt : o.rt ≠ 15)
    (ha : f.allows o [o.rt]) (hva : (f.address o s).toNat % f.size ≠ 0) :
    AlignmentAborts s true (f.address o s)
      (storeReg f.size pcOk priv (LsForm.pBit f o) o.u (LsForm.wBit f o) o.rn o.rt (o.offset f.offset s) s) := by
  rw [storeReg, if_neg (by rw [noClash ha]; simpa using fun h15 => absurd h15 hrt), ← address_eq]
  exact misaligned_read h hh _ _ true (writeData_misaligned (q := plainReq f.size priv true) h hva _) _

end

/-- Settles O29: each form is `loadReg` or `storeReg`, and the access that these begin with takes the alignment fault. -/
theorem alignmentFaults : Obligations.AlignmentFaults := by
  intro o s h hc hh hrt
  refine ⟨fun f hf ha hva => ?load, fun f hf ha hva => ?store⟩
  case load =>
    rw [loadsByForm_loads f hf o s hrt ha, onCond_pass hc]
    exact loadReg_misaligned h hh f.1 _ hrt ha hva
  case store =>
    rw [storesByForm_stores f hf o s ha, onCond_pass hc]
    exact storeReg_misaligned h hh _ _ hrt ha hva

end Sys2Proof.Machine

end
end

section
/-! The exclusive accesses reached directly (O28; 44_load_store.md R1732 to R1739; 20_memory.md R1060 to R1063; logs 29 and
58). -/

noncomputable section

namespace Sys2Proof.Machine

open Safety

/-- The tag of the granule at a directly reached address. -/
def directTag (s : State) (a : Word) : ExclTag := ⟨!s.secure, mvaOf s.cur a >>> s.build.exclGranule⟩

/-! ## Load-exclusives -/

/-- What a load-exclusive at `a` leaves that gives `v` to `rt`. -/
def exclusivelyLoaded (s : State) (a : Word) (rt : BitVec 4) (v : Word) : State :=
  { s with
    gpr := withReg s rt v, pc := nextPc s, late := arrivedLate s, happened := seen s 0x06, excl := some (directTag s a) }

section

variable {s : State} {cond rn rd rt : BitVec 4} {a : Word} {n : Nat}

theorem assemble_bytesAt (s : State) (a : Word) (n : Nat) : assemble (s.cpsr.getLsbD 9) (bytesAt s a n) = loadAt s a n :=
  assemble_eq _ _

theorem bytesAt_take (s : State) (a : Word) (m n : Nat) : (bytesAt s a (m + n)).take m = bytesAt s a m := by
  rw [bytesAt, ← List.map_take, List.take_range, Nat.min_eq_left (Nat.le_add_right m n)]; rfl

/-- The second word of a doubleword is the word at the next address. -/
theorem bytesAt_drop_four (s : State) (ha : a.toNat % 8 = 0) : (bytesAt s a 8).drop 4 = bytesAt s (a + 4) 4 := by
  simp only [bytesAt, keyAt_add4 a ha]
  rfl

theorem loadExReg_direct (h : Direct s) (hrt : rt ≠ 15) (hn : n = 1 ∨ n = 2 ∨ n = 4 ∨ n = 8)
    (ha : (s.reg rn).toNat % n = 0) :
    loadExReg n rn rt s = .next (exclusivelyLoaded s (s.reg rn) rt (loadAt s (s.reg rn) n)) := by
  rw [loadExReg, unlessPC_ok (by simpa using hrt.symm), loadExclusive_direct h n hn _ ha]
  show Host.Outcome.next (State.advance (State.setReg _ rt (assemble (s.cpsr.getLsbD 9) (bytesAt s _ n)))) = _
  rw [assemble_bytesAt, State.setReg_of_ne _ _ _ hrt, State.advance_eq]
  rfl

theorem exec_ldrexd_direct (h : Direct s) (hc : condPassed cond s = true) (ha : (s.reg rn).toNat % 8 = 0)
    (heven : rt.getLsbD 0 = false) (h14 : rt ≠ 14) :
    let s1 := exclusivelyLoaded s (s.reg rn) rt (loadAt s (s.reg rn) 4)
    exec (.ldrexd cond rn rt) s = .next { s1 with gpr := withReg s1 (rt + 1) (loadAt s (s.reg rn + 4) 4) } := by
  obtain ⟨hpair, hrt, hrt1⟩ := not_mem_rt heven h14
  show onCond cond s (if badPair rt = true then _ else finish (loadExclusive 8 (s.reg rn) s) _) = _
  rw [onCond_pass hc, if_neg (by simp [hpair]), loadExclusive_direct h 8 (by decide) _ ha]
  show Host.Outcome.next (State.advance (State.setReg (State.setReg _ rt
    (assemble (s.cpsr.getLsbD 9) ((bytesAt s _ (4 + 4)).take 4))) (rt + 1)
    (assemble (s.cpsr.getLsbD 9) ((bytesAt s _ 8).drop 4)))) = _
  rw [bytesAt_take, bytesAt_drop_four s ha, assemble_bytesAt, assemble_bytesAt, State.setReg_of_ne _ _ _ hrt,
    State.setReg_of_ne _ _ _ hrt1, State.advance_eq]
  rfl

/-! ## Store-exclusives -/

/-- What a store-exclusive of `s` leaves that has led to `t` and gives the status `v` to `rd`, or branches with it
(log 58). -/
def statusGiven (s : State) (rd : BitVec 4) (t : State) (v : Word) : State :=
  if rd = 15 then { jumped t 0 with excl := none } else { t with gpr := withReg s rd v, pc := nextPc s, excl := none }

/-- The status is written in the registers that the store left as they were; as an address 0 and 1 are the same word. -/
theorem writeStatus_eq {t : State} (hg : t.gpr = s.gpr) (hc : t.cpsr = s.cpsr) (hd : t.dbg = s.dbg) (hp : t.pc = s.pc)
    (hrd : rd = 15 → s.halted = false) {v : Word} (hv : v &&& 0xFFFFFFFC = 0) :
    writeStatus rd v { t with excl := none } = statusGiven s rd t v := by
  have hh : t.halted = s.halted := State.halted_congr hd
  have hm : t.mode = s.mode := State.mode_congr hc
  unfold writeStatus statusGiven
  split
  case isTrue h15 =>
    have hrun : ({ t with excl := none } : State).halted = false := hh.trans (hrd h15)
    rw [State.writePC, hrun, if_neg (by decide), State.branchTo, hv]
    rfl
  case isFalse h15 =>
    have hregs : withReg t rd v = withReg s rd v := by simp only [withReg, hg, hm]
    have hpc : nextPc t = nextPc s := by rw [nextPc, nextPc, hh, hp]
    rw [State.setReg_of_ne _ _ _ h15, State.advance_eq, ← hregs, ← hpc]
    rfl

/-- The three ways of a store-exclusive of `n` bytes at `a`: past both monitors it leaves a memory of which `Written` holds, the
global monitor refuses it, or the local one has no tag for it. -/
structure StoresExclusive (s : State) (a : Word) (n : Nat) (Written : List Host.Cell → Prop) (rd : BitVec 4)
    (r : Host.Outcome State Fault Refusal) : Prop where
  passes : s.excl = some (directTag s a) → a.toNat % n = 0 → s.exclRefused = false → ∃ m late, Written m ∧ Arrived late ∧
    r = .next (statusGiven s rd { s with mem := m, late := late, happened := seen s 0x07 } 0)
  refused : s.excl = some (directTag s a) → a.toNat % n = 0 → s.exclRefused = true →
    r = .next (statusGiven s rd { s with late := arrivedLate s } 1)
  untagged : s.excl ≠ some (directTag s a) → r = .next (statusGiven s rd s 1)

theorem storesExclusive_finish (h : Direct s) (hrun : rd = 15 → s.halted = false) {bytes : List Byte}
    (hlength : bytes.length = n) {Written : List Host.Cell → Prop}
    (hwritten : a.toNat % n = 0 → Written (storeList s.mem (keyAt s a) 0 bytes)) :
    StoresExclusive s a n Written rd
      (finish (storeExclusive n a bytes s) fun v t => .next (writeStatus rd v t)) := by
  obtain ⟨hpasses, hrefused, huntagged⟩ := storeExclusive_direct h n a bytes hlength
  refine ⟨fun htag ha hr => ?passes, fun htag ha hr => ?refused, fun htag => ?untagged⟩
  case passes =>
    obtain ⟨late, hlate, hstore⟩ := hpasses htag ha hr
    refine ⟨_, late, hwritten ha, hlate, ?_⟩
    rw [hstore]
    exact congrArg Host.Outcome.next (writeStatus_eq
      (t := { s with mem := storeList s.mem (keyAt s a) 0 bytes, late := late, happened := seen s 0x07 })
      rfl rfl rfl rfl hrun (by decide))
  case refused =>
    rw [hrefused htag ha hr]
    exact congrArg Host.Outcome.next
      (writeStatus_eq (t := { s with late := arrivedLate s }) rfl rfl rfl rfl hrun (by decide))
  case untagged =>
    rw [huntagged htag]
    exact congrArg Host.Outcome.next (writeStatus_eq (t := s) rfl rfl rfl rfl hrun (by decide))

theorem storeExReg_direct (h : Direct s) (hw : Memory.wf s.mem = true) (hrt : rt ≠ 15) (hrn : rd ≠ rn) (hrd : rd ≠ rt)
    (hrun : rd = 15 → s.halted = false) (hn : n ≤ 8) :
    StoresExclusive s (s.reg rn) n (Stored s (s.reg rn) n (s.reg rt)) rd (storeExReg n rn rd rt s) := by
  rw [storeExReg, if_neg (by tauto)]
  exact storesExclusive_finish h hrun (disassemble_length _ n _) fun _ => storeList_stored hw _ hn _

/-- `m` is the memory of `s` with `v` stored at `a` and then `w` at the next word. -/
def StoredPair (s : State) (a v w : Word) (m : List Host.Cell) : Prop :=
  ∃ m1, Stored s a 4 v m1 ∧ Stored { s with mem := m1 } (a + 4) 4 w m

/-- The bytes of two words, stored in one access, are the first word stored and then the second. -/
theorem storeList_storedPair (hw : Memory.wf s.mem = true) (ha : a.toNat % 8 = 0) (v w : Word) :
    StoredPair s a v w (storeList s.mem (keyAt s a) 0
      (disassemble (s.cpsr.getLsbD 9) 4 v ++ disassemble (s.cpsr.getLsbD 9) 4 w)) := by
  have hfirst := storeList_stored hw a (n := 4) (by decide) v
  refine ⟨_, hfirst, ?_⟩
  obtain ⟨_, _, hm⟩ := hfirst
  have hkeys : keyAt s (a + 4) = fun i => keyAt s a (4 + i) := funext (keyAt_add4 a ha)
  have hshift (m : List Host.Cell) (bytes : List Byte) :
      storeList m (keyAt s a) 4 bytes = storeList m (keyAt s (a + 4)) 0 bytes := by
    rw [hkeys, storeList_shift]
  rw [storeList_append, disassemble_length, Nat.zero_add, hshift]
  exact storeList_stored (s := { s with mem := storeList s.mem (keyAt s a) 0 (disassemble (s.cpsr.getLsbD 9) 4 v) })
    hm (a + 4) (n := 4) (by decide) w

theorem exec_strexd_direct (h : Direct s) (hw : Memory.wf s.mem = true) (hc : condPassed cond s = true)
    (heven : rt.getLsbD 0 = false) (h14 : rt ≠ 14) (hrn : rd ≠ rn) (hrd : rd ≠ rt) (hrd1 : rd ≠ rt + 1)
    (hrun : rd = 15 → s.halted = false) :
    StoresExclusive s (s.reg rn) 8 (StoredPair s (s.reg rn) (s.reg rt) (s.reg (rt + 1))) rd
      (exec (.strexd cond rn rd rt) s) := by
  have hpair := (not_mem_rt heven h14).1
  show StoresExclusive s _ 8 _ rd (onCond cond s (if badPair rt = true ∨ rd = rn ∨ rd = rt ∨ rd = rt + 1 then _ else _))
  rw [onCond_pass hc, if_neg (by simp only [hpair, hrn, hrd, hrd1]; decide)]
  exact storesExclusive_finish h hrun (by rw [List.length_append, disassemble_length, disassemble_length])
    fun ha => storeList_storedPair hw ha _ _

/-! ## The operands that stop -/

theorem exclusive_fault_of_rt_pc (hc : condPassed cond s = true) : ∀ i ∈ [Instr.ldrex cond rn 15, .ldrexb cond rn 15,
    .ldrexh cond rn 15, .ldrexd cond rn 15, .strex cond rn rd 15, .strexb cond rn rd 15, .strexh cond rn rd 15,
    .strexd cond rn rd 15], exec i s = .fault .operands := by
  have hload (n : Nat) : loadExReg n rn 15 s = .fault .operands := unlessPC_bad (by decide) _
  have hstore (n : Nat) : storeExReg n rn rd 15 s = .fault .operands := if_pos (.inl rfl)
  simp only [List.forall_mem_cons]
  refine ⟨?ldrex, ?ldrexb, ?ldrexh, ?ldrexd, ?strex, ?strexb, ?strexh, ?strexd, List.forall_mem_nil _⟩
  case ldrexd => exact (onCond_pass hc _).trans (if_pos (by decide))
  case strexd => exact (onCond_pass hc _).trans (if_pos (.inl (by decide)))
  case ldrex | ldrexb | ldrexh => exact (onCond_pass hc _).trans (hload _)
  case strex | strexb | strexh => exact (onCond_pass hc _).trans (hstore _)

theorem storeExclusive_fault_of_status (hc : condPassed cond s = true) (hrd : rd = rn ∨ rd = rt) :
    ∀ i ∈ [Instr.strex cond rn rd rt, .strexb cond rn rd rt, .strexh cond rn rd rt, .strexd cond rn rd rt],
      exec i s = .fault .operands := by
  have hstore (n : Nat) : storeExReg n rn rd rt s = .fault .operands := if_pos (.inr hrd)
  simp only [List.forall_mem_cons]
  refine ⟨?strex, ?strexb, ?strexh, ?strexd, List.forall_mem_nil _⟩
  case strexd => exact (onCond_pass hc _).trans (if_pos (.inr (hrd.imp_right .inl)))
  all_goals exact (onCond_pass hc _).trans (hstore _)

end

/-- Settles O28: the loads and the stores by size, with the doublewords as two words; then the operands that stop. -/
theorem exclusives : Obligations.Exclusives := by
  intro cond rn rd rt s h hw hc
  refine ⟨fun hrt => ⟨fun ha => ?ldrex, ?ldrexb, fun ha => ?ldrexh⟩, exec_ldrexd_direct h hc, ?rtPc,
    storeExclusive_fault_of_status hc, fun hrt hrn hrd hrun => ?stores⟩
  case ldrex => exact (onCond_pass hc _).trans (loadExReg_direct h hrt (by decide) ha)
  case ldrexb => exact (onCond_pass hc _).trans (loadExReg_direct h hrt (by decide) (Nat.mod_one _))
  case ldrexh => exact (onCond_pass hc _).trans (loadExReg_direct h hrt (by decide) ha)
  case rtPc => rintro rfl; exact exclusive_fault_of_rt_pc hc
  case stores =>
    have hstore {n : Nat} (hn : n ≤ 8) : StoresExclusive s (s.reg rn) n (Stored s (s.reg rn) n (s.reg rt)) rd
        (onCond cond s (storeExReg n rn rd rt s)) := by
      rw [onCond_pass hc]; exact storeExReg_direct h hw hrt hrn hrd hrun hn
    obtain ⟨passes, refused, untagged⟩ := hstore (n := 4) (by decide)
    obtain ⟨passesB, refusedB, untaggedB⟩ := hstore (n := 1) (by decide)
    obtain ⟨passesH, refusedH, untaggedH⟩ := hstore (n := 2) (by decide)
    refine ⟨⟨passes, refused, untagged⟩, ⟨passesB, refusedB, untaggedB⟩, ⟨passesH, refusedH, untaggedH⟩,
      fun heven h14 hrd1 => ?strexd⟩
    obtain ⟨passesD, refusedD, untaggedD⟩ := exec_strexd_direct h hw hc heven h14 hrn hrd hrd1 hrun
    refine ⟨fun htag ha hr => ?_, refusedD, untaggedD⟩
    obtain ⟨m2, late, ⟨m1, hfirst, hsecond⟩, hlate, hout⟩ := passesD htag ha hr
    exact ⟨m1, m2, late, hfirst, hsecond, hlate, hout⟩

end Sys2Proof.Machine

end
end

section
/-! Translation through a section descriptor with the MMU on (O60; 21_mmu.md R1100 to R1135), and the operations that ask for it:
the TLB preload (14_cp15_tlb_ple_misc.md R473) and the VA to PA operations (13_cp15_maint_pmu.md R366 to R370). -/

noncomputable section

namespace Sys2Proof.Machine

open Safety

/-! ## The walk: its conditions, its descriptor, its entry -/

/-- The little-endian word in memory at the place where TTBR0, with TTBCR = 0, has the first-level descriptor of an address
(R1112). -/
def firstDescriptor (s : State) (secure : Bool) (mva : Word) : Word :=
  let at' (i : Nat) : Byte := memRead s.mem (memKey (!secure)
    (((s.bank secure).ttbr0.extractLsb' 14 18 ++ mva.extractLsb' 20 12 ++ 0#2) + BitVec.ofNat 32 i))
  at' 3 ++ at' 2 ++ at' 1 ++ at' 0

/-- No TLB entry translates the address, so that a walk does, which reads TTBR0's table directly from memory; AFE is 0. -/
structure WalksDirectly (s : State) (secure : Bool) (kind : XKind) (mva : Word) : Prop where
  mmuOn : (s.bank secure).sctlr.getLsbD 0 = true
  cachesOff : (s.bank secure).sctlr.getLsbD 2 = false
  littleEndian : (s.bank secure).sctlr.getLsbD 25 = false
  afeOff : (s.bank secure).sctlr.getLsbD 29 = false
  ttbr0Only : (s.bank secure).ttbcr = 0
  noError : s.bus = []
  noPort : NoPort s
  noLate : s.late = []
  miss : tlbHits (if kind = .fetch then s.itlb else s.dtlb) mva ((s.bank secure).contextidr.extractLsb' 0 8) secure = []

/-- The entry `e` is made of the section `d` for the address `mva`, with AFE 0 (R1115, R1120). -/
structure IsSection (e : TlbEntry) (d mva : Word) (secure : Bool) : Prop where
  size : e.size = .sec
  regime : e.secure = secure
  page : e.mva = mva.extractLsb' 12 20
  pa : e.pa = d.extractLsb' 12 20
  ns : e.ns = (!secure || d.getLsbD 19)
  domain : e.domain = d.extractLsb' 5 4
  ap : e.ap = d.extractLsb' 15 1 ++ d.extractLsb' 10 2
  xn : e.xn = d.getLsbD 4
  afe : e.afe = false
  sectionLevel : e.sectionLevel = true

theorem sectionEntry_isSection {s : State} {secure : Bool} (mva : Word) {d : Word} (h18 : d.getLsbD 18 = false)
    (ha : (s.bank secure).sctlr.getLsbD 29 = false) :
    ∃ e, sectionEntry s secure mva d = .ok e ∧ IsSection e d mva secure := by
  unfold sectionEntry accessFlagFault
  simp only [h18, ha, Bool.false_and, Bool.false_eq_true, if_false]
  exact ⟨_, rfl, ⟨rfl, rfl, rfl, rfl, rfl, rfl, rfl, rfl, rfl, rfl⟩⟩

section
variable {s : State} {secure : Bool} {kind : XKind} {mva : Word} (h : WalksDirectly s secure kind mva)
include h

/-- An address that no entry translates is walked for. -/
theorem lookup_walks :
    (∀ t, walk s secure mva = .error t →
      lookup s secure kind mva = .abort (t.abort mva (kind == .write)) (walkFailed t s)) ∧
    (∀ e, walk s secure mva = .ok e → lookup s secure kind mva = .ok e (allocateTlb (kind != .fetch) e s).drawn) := by
  have hmiss : tlbHits (if (kind != .fetch) = true then s.dtlb else s.itlb) mva
      ((s.bank secure).contextidr.extractLsb' 0 8) secure = [] := by
    cases kind <;> exact h.miss
  unfold lookup
  dsimp only
  rw [hmiss]
  exact ⟨fun t ht => by rw [ht], fun e he => by rw [he]⟩

theorem lookup_invalid (hd : (firstDescriptor s secure mva).extractLsb' 0 2 = 0 ∨
    (firstDescriptor s secure mva).extractLsb' 0 2 = 3) :
    lookup s secure kind mva = .abort ⟨mva, kind == .write, 0b00101, none, false, false, false, false⟩ s := by
  have hwalk := (walk_plain h.ttbr0Only h.cachesOff h.littleEndian h.noError h.noLate h.noPort).1 hd
  exact (lookup_walks h).1 _ hwalk

theorem lookup_section (hd : (firstDescriptor s secure mva).extractLsb' 0 2 = 2)
    (h18 : (firstDescriptor s secure mva).getLsbD 18 = false) :
    ∃ e, IsSection e (firstDescriptor s secure mva) mva secure ∧
      lookup s secure kind mva = .ok e (allocateTlb (kind != .fetch) e s).drawn := by
  have hwalk := (walk_plain h.ttbr0Only h.cachesOff h.littleEndian h.noError h.noLate h.noPort).2 hd
  obtain ⟨e, hentry, he⟩ := sectionEntry_isSection mva h18 h.afeOff
  exact ⟨e, he, (lookup_walks h).2 e (hwalk.trans hentry)⟩

end

/-! ## The checks -/

/-- The field of DACR for the domain of a section (R1130). -/
def sectionAccess (b : Banked) (d : Word) : BitVec 2 := (b.dacr >>> (2 * (d.extractLsb' 5 4).toNat)).extractLsb' 0 2

/-- The permissions of a section let the access do what it does (R1132). -/
def sectionPermits (d : Word) (priv : Bool) (kind : XKind) : Bool :=
  permits (d.extractLsb' 15 1 ++ d.extractLsb' 10 2) (d.getLsbD 4) priv kind

/-- The domain decides, then for a client the permissions (R1130, R1132). -/
theorem IsSection.checkEntry_eq {e : TlbEntry} {d mva : Word} {secure : Bool} (he : IsSection e d mva secure) (b : Banked)
    (priv : Bool) (kind : XKind) : checkEntry b e priv kind =
      if sectionAccess b d = 0 ∨ sectionAccess b d = 2 then some (.mmu 0b01001 (some (d.extractLsb' 5 4)))
      else if sectionAccess b d = 3 then none
      else if sectionPermits d priv kind then none else some (.mmu 0b01101 (some (d.extractLsb' 5 4))) := by
  unfold checkEntry
  rw [sectionPermits, permits_eq, he.domain, he.ap, he.xn, he.afe, he.sectionLevel]
  cases kind <;> simp only [sectionAccess, if_true, Bool.not_eq_true', ← Bool.not_eq_true, ite_not]

section
variable {e : TlbEntry} {d mva : Word} {secure : Bool} (he : IsSection e d mva secure) {b : Banked} {priv : Bool} {kind : XKind}
include he

theorem IsSection.checkEntry_noAccess (ha : sectionAccess b d = 0 ∨ sectionAccess b d = 2) :
    checkEntry b e priv kind = some (.mmu 0b01001 (some (d.extractLsb' 5 4))) := by
  rw [he.checkEntry_eq, if_pos ha]

theorem IsSection.checkEntry_client (ha : sectionAccess b d = 1) (hp : sectionPermits d priv kind = false) :
    checkEntry b e priv kind = some (.mmu 0b01101 (some (d.extractLsb' 5 4))) := by
  rw [he.checkEntry_eq, ha, hp]; rfl

theorem IsSection.checkEntry_permitted
    (hp : sectionAccess b d = 3 ∨ sectionAccess b d = 1 ∧ sectionPermits d priv kind = true) :
    checkEntry b e priv kind = none := by
  rw [he.checkEntry_eq]
  rcases hp with ha | ⟨ha, hp⟩
  · rw [ha]; rfl
  · rw [ha, hp]; rfl

end

/-! ## Translation for an access -/

section
variable {s : State} {secure : Bool} {kind : XKind} {mva : Word} (h : WalksDirectly s secure kind mva) (priv : Bool)
include h

theorem translate_of_lookup_abort {a : Abort} {t : State} (hl : lookup s secure kind mva = .abort a t) :
    translate s secure priv kind mva = .abort a t := by
  rw [translate, if_neg (by rw [h.mmuOn]; decide), hl]
  rfl

/-- With an entry for the address, the checks on it decide. -/
theorem translate_of_lookup_ok {e : TlbEntry} {t : State} (hl : lookup s secure kind mva = .ok e t) :
    (∀ f, checkEntry (s.bank secure) e priv kind = some f →
      translate s secure priv kind mva = .abort (f.abort mva (kind == .write)) t) ∧
    (checkEntry (s.bank secure) e priv kind = none →
      translate s secure priv kind mva = .ok ⟨e.ns, e.output mva, e.attrs⟩ t) := by
  rw [translate, if_neg (by rw [h.mmuOn]; decide), hl]
  dsimp only [Acc.bind]
  exact ⟨fun f hf => by rw [hf], fun hn => by rw [hn]⟩

theorem translate_invalid (hd : (firstDescriptor s secure mva).extractLsb' 0 2 = 0 ∨
    (firstDescriptor s secure mva).extractLsb' 0 2 = 3) :
    translate s secure priv kind mva = .abort ⟨mva, kind == .write, 0b00101, none, false, false, false, false⟩ s :=
  translate_of_lookup_abort h priv (lookup_invalid h hd)

/-- The walk of a section leaves an entry and a drawn value; what the checks on the entry say decides the rest. -/
theorem translate_section (hd : (firstDescriptor s secure mva).extractLsb' 0 2 = 2)
    (h18 : (firstDescriptor s secure mva).getLsbD 18 = false) :
    ∃ e t, IsSection e (firstDescriptor s secure mva) mva secure ∧ FilledTlb s t ∧
      (∀ f, checkEntry (s.bank secure) e priv kind = some f →
        translate s secure priv kind mva = .abort (f.abort mva (kind == .write)) t) ∧
      (checkEntry (s.bank secure) e priv kind = none →
        translate s secure priv kind mva = .ok ⟨e.ns, e.output mva, e.attrs⟩ t) := by
  obtain ⟨e, he, hlookup⟩ := lookup_section h hd h18
  exact ⟨e, _, he, filled _ e s, translate_of_lookup_ok h priv hlookup⟩

end

/-! ## The TLB preload -/

/-- An entry of a section, written where the lockdown register names the place. -/
theorem holdsSection_set (tlb : Vector (Option TlbEntry) 32) (lock : Word) {e : TlbEntry} {d mva : Word} {secure : Bool}
    (he : IsSection e d mva secure) (hi : (Fin.ofNat 32 (lock.extractLsb' 22 5).toNat).val < 32) (locked : Bool) :
    HoldsSection (tlb.set (Fin.ofNat 32 (lock.extractLsb' 22 5).toNat) (some { e with locked := locked }) hi) lock d mva
      secure := by
  have hplace : (Fin.ofNat 32 (lock.extractLsb' 22 5).toNat).val = (lock.extractLsb' 22 5).toNat :=
    Nat.mod_eq_of_lt (lock.extractLsb' 22 5).isLt
  refine ⟨{ e with locked := locked }, ?_, he.size, he.regime, he.page, ?_, he.ns, he.domain, he.ap, he.xn, he.afe⟩
  · simp only [hplace, Vector.getElem?_set_self]
  · show e.pa.extractLsb' 8 12 = _
    rw [he.pa]
    refine BitVec.eq_of_getLsbD_eq fun i hi => ?_
    simp only [BitVec.getLsbD_extractLsb', hi, decide_true, Bool.true_and, show 8 + i < 20 by omega, ← Nat.add_assoc,
      Nat.reduceAdd]

/-- A preload into the data or the instruction TLB makes the entry of the section, whatever the checks would say. -/
theorem preloadTlb_section {s : State} {va : Word} (data : Bool)
    (h : WalksDirectly s s.secure (if data then .read else .fetch) (mvaOf s.cur va))
    (hd : (firstDescriptor s s.secure (mvaOf s.cur va)).extractLsb' 0 2 = 2)
    (h18 : (firstDescriptor s s.secure (mvaOf s.cur va)).getLsbD 18 = false) :
    ∃ t, FilledTlb s t ∧
      HoldsSection (if data then t.dtlb else t.itlb) (if data then s.sys.dtlbLock else s.sys.itlbLock)
        (firstDescriptor s s.secure (mvaOf s.cur va)) (mvaOf s.cur va) s.secure ∧
      preloadTlb data va s = .next { t with pc := nextPc s } := by
  obtain ⟨e, he, hlookup⟩ := lookup_section h hd h18
  have hmmu : ¬ (!s.cur.sctlr.getLsbD 0) = true := by rw [State.cur, h.mmuOn]; decide
  have hside : ((if data then XKind.read else .fetch) != .fetch) = data := by cases data <;> rfl
  rw [hside] at hlookup
  refine ⟨(allocateTlb data e s).drawn, filled data e s, ?holds, ?next⟩
  case holds => cases data <;> exact holdsSection_set _ _ he (Fin.isLt _) _
  case next =>
    rw [preloadTlb, if_neg hmmu, hlookup]
    cases data <;> exact congrArg Host.Outcome.next (advance_of rfl rfl).symm

section
variable {cond rt : BitVec 4} {s : State} (hc : condPassed cond s = true) (hr : nsacrRight 17 s = true) (hrt : rt ≠ 15)
include hc hr hrt

theorem exec_dtlbPreload : exec (.mcrDtlbPreload cond rt) s = preloadTlb true (s.reg rt) s :=
  withSys_effect hc hr hrt fun v => preloadTlb true v s

theorem exec_itlbPreload : exec (.mcrItlbPreload cond rt) s = preloadTlb false (s.reg rt) s :=
  withSys_effect hc hr hrt fun v => preloadTlb false v s

end

/-! ## PAR -/

theorem parFail_mmu (status : BitVec 5) (domain : Option (BitVec 4)) :
    parFail (.mmu status domain) = 0#26 ++ status ++ 1#1 := by
  show 0#25 ++ bit false ++ status ++ 1#1 = _
  revert status
  decide

section
variable (pa : Word) (ns : Bool) (a : MemAttrs)

theorem parOk_page_address : (parOk pa ns false a).extractLsb' 12 20 = pa.extractLsb' 12 20 := by
  rw [parOk, if_neg (by decide)]
  iterate 8 rw [BitVec.extractLsb'_append_eq_of_le (by decide)]
  exact BitVec.extractLsb'_eq_self

theorem parOk_success : (parOk pa ns false a).extractLsb' 0 2 = 0 := by
  refine BitVec.eq_of_getLsbD_eq fun i hi => ?_
  simp only [parOk, BitVec.getLsbD_extractLsb', BitVec.getLsbD_append]
  interval_cases i <;> rfl

theorem parOk_succeeds : (parOk pa ns false a).getLsbD 0 = false := by
  simp only [parOk, BitVec.getLsbD_append]
  rfl

theorem parOk_ns : (parOk pa ns false a).getLsbD 9 = ns := by
  simp only [parOk, BitVec.getLsbD_append]
  cases ns <;> rfl

end

/-- PAR for the entry of an address, by what the checks say. -/
def entryPar (b : Banked) (e : TlbEntry) (priv : Bool) (kind : XKind) (mva : Word) : Word :=
  match checkEntry b e priv kind with
  | some t => parFail t
  | none => parOk (e.output mva) e.ns (e.size == .supersec) e.attrs

section
variable {e : TlbEntry} {d mva : Word} {secure : Bool} (he : IsSection e d mva secure) {b : Banked} {priv : Bool} {kind : XKind}
include he

theorem IsSection.entryPar_noAccess (ha : sectionAccess b d = 0 ∨ sectionAccess b d = 2) :
    entryPar b e priv kind mva = 0x13 := by
  rw [entryPar, he.checkEntry_noAccess ha]
  exact parFail_mmu 0b01001 _

theorem IsSection.entryPar_client (ha : sectionAccess b d = 1) (hp : sectionPermits d priv kind = false) :
    entryPar b e priv kind mva = 0x1B := by
  rw [entryPar, he.checkEntry_client ha hp]
  exact parFail_mmu 0b01101 _

theorem IsSection.entryPar_permitted
    (hp : sectionAccess b d = 3 ∨ sectionAccess b d = 1 ∧ sectionPermits d priv kind = true) :
    entryPar b e priv kind mva =
      parOk (d.extractLsb' 20 12 ++ mva.extractLsb' 0 20) (!secure || d.getLsbD 19) false e.attrs := by
  rw [entryPar, he.checkEntry_permitted hp, ← output_section he.size he.pa, ← he.ns]
  dsimp only
  rw [he.size]
  rfl

end

/-! ## The VA to PA operations -/

/-- PAR.NS is a free value where the translation is for the other state and succeeds (R370; log 18). -/
def freedNs (other : Bool) (par free : Word) : Word := if other && !par.getLsbD 0 then setBit par 9 (free.getLsbD 0) else par

theorem freedNs_failed (other : Bool) {par : Word} (free : Word) (h : par.getLsbD 0 = true) :
    freedNs other par free = par := by
  rw [freedNs, h, Bool.not_true, Bool.and_false]; rfl

theorem freedNs_extract (other : Bool) (par free : Word) {lo n : Nat} (h : lo + n ≤ 9 ∨ 9 < lo) :
    (freedNs other par free).extractLsb' lo n = par.extractLsb' lo n := by
  unfold freedNs
  split
  · exact extract_setBit_apart _ 9 _ (by decide) lo n h
  · rfl

theorem freedNs_ns (other : Bool) {par : Word} (free : Word) (h : par.getLsbD 0 = false) :
    (freedNs other par free).getLsbD 9 = if other then free.getLsbD 0 else par.getLsbD 9 := by
  rw [freedNs, h, Bool.not_false, Bool.and_true]
  cases other with
  | false => rfl
  | true => exact getLsbD_setBit_same _ 9 _ (by decide)

theorem withPar_eq {t : State} {secure : Bool} (h : t.secure = secure) (v : Word) :
    withPar t v = t.setBank secure { t.bank secure with par := v } := by
  subst h
  unfold withPar State.setBank State.bank
  cases t.secure <;> rfl

/-- What an operation leaves once the translation has an answer for PAR. -/
theorem vaToPa_of_ok {s t : State} {other priv : Bool} {kind : XKind} {va par : Word}
    (h : translateForPar s (s.secure && !other) priv kind va = .ok par t) (hsys : t.sys.scr = s.sys.scr)
    (hcpsr : t.cpsr = s.cpsr) (hpc : t.pc = s.pc) (hdbg : t.dbg = s.dbg) :
    vaToPa other priv kind va s =
      .next { withPar t (freedNs other par (Config.freeWord t.draws)) with draws := t.draws + 1, pc := nextPc s } := by
  have hsec : t.secure = s.secure := by simp only [State.secure, State.mode, hsys, hcpsr]
  have hhalt : t.halted = s.halted := by simp only [State.halted, hdbg]
  rw [vaToPa, h, withPar_eq hsec]
  refine congrArg Host.Outcome.next ((advance_of (s := s) ?_ ?_).symm.trans ?_)
  · rw [State.halted, State.setBank_dbg]; exact hhalt
  · rw [State.setBank_pc]; exact hpc
  · cases s.secure <;> rfl

section
variable {s : State} {secure : Bool} {kind : XKind} {va : Word}
  (h : WalksDirectly s secure kind (mvaOf (s.bank secure) va)) (priv : Bool)
include h

theorem translateForPar_invalid (hd : (firstDescriptor s secure (mvaOf (s.bank secure) va)).extractLsb' 0 2 = 0 ∨
    (firstDescriptor s secure (mvaOf (s.bank secure) va)).extractLsb' 0 2 = 3) :
    translateForPar s secure priv kind va = .ok 0x0B s := by
  rw [translateForPar]
  dsimp only
  rw [if_neg (by rw [h.mmuOn]; decide), lookup_invalid h hd]
  exact congrArg (Acc.ok · s) (parFail_mmu 0b00101 none)

theorem translateForPar_section {e : TlbEntry} {t : State}
    (hlookup : lookup s secure kind (mvaOf (s.bank secure) va) = .ok e t) :
    translateForPar s secure priv kind va = .ok (entryPar (s.bank secure) e priv kind (mvaOf (s.bank secure) va)) t := by
  rw [translateForPar]
  dsimp only
  rw [if_neg (by rw [h.mmuOn]; decide), hlookup]
  dsimp only
  rw [entryPar]
  cases checkEntry (s.bank secure) e priv kind <;> rfl

end

/-- Each operation asks for the translation that the list gives for it, with its right (R1508, R1509). -/
theorem exec_translation {cond rt : BitVec 4} {s : State} (hc : condPassed cond s = true) (hrt : rt ≠ 15) :
    ∀ o ∈ translations, (if o.1.1 then secureRight s else privilegedRight s) = true →
      exec (o.2 cond rt) s = vaToPa o.1.1 o.1.2.1 o.1.2.2 (s.reg rt) s := by
  simp only [translations, List.forall_mem_cons]
  refine ⟨?curPrivRead, ?curPrivWrite, ?curUserRead, ?curUserWrite, ?othPrivRead, ?othPrivWrite, ?othUserRead,
    ?othUserWrite, List.forall_mem_nil _⟩
  case curPrivRead | curPrivWrite | curUserRead | curUserWrite =>
    exact fun hr => withSys_effect (ok := privilegedRight s) hc hr hrt fun v => vaToPa false _ _ v s
  case othPrivRead | othPrivWrite | othUserRead | othUserWrite =>
    exact fun hr => withSys_effect (ok := secureRight s) hc hr hrt fun v => vaToPa true _ _ v s

section
variable {s : State} {secure other : Bool} {kind : XKind} {va : Word} (hs : secure = (s.secure && !other))
  (h : WalksDirectly s secure kind (mvaOf (s.bank secure) va)) (priv : Bool)
include hs h

theorem vaToPa_invalid (hd : (firstDescriptor s secure (mvaOf (s.bank secure) va)).extractLsb' 0 2 = 0 ∨
    (firstDescriptor s secure (mvaOf (s.bank secure) va)).extractLsb' 0 2 = 3) :
    vaToPa other priv kind va s = .next { withPar s 0x0B with draws := s.draws + 1, pc := nextPc s } := by
  subst hs
  rw [vaToPa_of_ok (translateForPar_invalid h priv hd) rfl rfl rfl rfl, freedNs_failed other _ (by decide)]

/-- The walk of a section leaves its entry, for which PAR has its answer. -/
theorem vaToPa_section (hd : (firstDescriptor s secure (mvaOf (s.bank secure) va)).extractLsb' 0 2 = 2)
    (h18 : (firstDescriptor s secure (mvaOf (s.bank secure) va)).getLsbD 18 = false) :
    ∃ e t, IsSection e (firstDescriptor s secure (mvaOf (s.bank secure) va)) (mvaOf (s.bank secure) va) secure ∧
      FilledTlb s t ∧ vaToPa other priv kind va s = .next { withPar t (freedNs other
        (entryPar (s.bank secure) e priv kind (mvaOf (s.bank secure) va)) (Config.freeWord (s.draws + 1))) with
        draws := t.draws + 1, pc := nextPc s } := by
  obtain ⟨e, he, hlookup⟩ := lookup_section h hd h18
  have hpar := translateForPar_section h priv hlookup
  refine ⟨e, (allocateTlb (kind != .fetch) e s).drawn, he, filled _ e s, ?_⟩
  subst hs
  cases kind <;> exact vaToPa_of_ok hpar rfl rfl rfl rfl

end

/-- Settles O60: the walk and the checks of an access; then the two preloads and the VA to PA operations, which make the same
walk. -/
theorem sectionTranslation : Obligations.SectionTranslation := by
  intro s secure priv kind mva b hm hc he ha ht hb hp hl hmiss at' d dom access permitted pa ns fails r
  have h : WalksDirectly s secure kind mva := ⟨hm, hc, he, ha, ht, hb, hp, hl, hmiss⟩
  refine ⟨translate_invalid h priv, fun hd h18 => ?access, fun cond rt hcond hrt hmva => ⟨fun hs hr hd h18 => ?preload,
    fun o ho hkind hs hr => ?par⟩⟩
  case access =>
    obtain ⟨e, t, hsec, hfill, hfail, hpass⟩ := translate_section h priv hd h18
    refine ⟨fun h0 => ⟨t, hfail _ (hsec.checkEntry_noAccess h0), hfill⟩,
      fun h1 h2 => ⟨t, hfail _ (hsec.checkEntry_client h1 h2), hfill⟩, fun hpermit => ⟨e.attrs, t, ?_, hfill⟩⟩
    exact (hpass (hsec.checkEntry_permitted hpermit)).trans (by rw [hsec.ns, output_section hsec.size hsec.pa]; rfl)
  case preload =>
    subst hs hmva
    refine ⟨?data, ?instruction⟩
    case data =>
      rintro rfl
      obtain ⟨t, hfill, hholds, hnext⟩ := preloadTlb_section true h hd h18
      exact ⟨t, hfill, hholds, (exec_dtlbPreload hcond hr hrt).trans hnext⟩
    case instruction =>
      rintro rfl
      obtain ⟨t, hfill, hholds, hnext⟩ := preloadTlb_section false h hd h18
      exact ⟨t, hfill, hholds, (exec_itlbPreload hcond hr hrt).trans hnext⟩
  case par =>
    obtain ⟨⟨other, priv', kind'⟩, i⟩ := o
    obtain ⟨rfl, rfl⟩ := Prod.mk.inj hkind
    subst hmva
    have hexec := exec_translation hcond hrt _ ho hr
    refine ⟨fun hd => hexec.trans (vaToPa_invalid hs h priv' hd), fun hd h18 => ?_⟩
    obtain ⟨e, t, hsec, hfill, hnext⟩ := vaToPa_section hs h priv' hd h18
    refine ⟨t, _, hfill, hexec.trans hnext, fun h0 => ?noAccess, fun h1 h2 => ?client, fun hpermit => ?permitted⟩
    case noAccess => rw [hsec.entryPar_noAccess h0]; exact freedNs_failed other _ (by decide)
    case client => rw [hsec.entryPar_client h1 h2]; exact freedNs_failed other _ (by decide)
    case permitted =>
      rw [hsec.entryPar_permitted hpermit]
      refine ⟨?address, ?success, ?ns⟩
      case address => exact (freedNs_extract _ _ _ (by decide)).trans (parOk_page_address _ _ _)
      case success => exact (freedNs_extract _ _ _ (by decide)).trans (parOk_success _ _ _)
      case ns => exact (freedNs_ns _ _ (parOk_succeeds _ _ _)).trans (by rw [parOk_ns]; rfl)

end Sys2Proof.Machine

end
end

section
/-! The writes that change the memory configuration (O38; 22_caches.md R1197): each one is a write that a running preload channel
forbids when it makes a change. -/

noncomputable section

namespace Sys2Proof.Machine

open Safety

/-! ## What the writes make of the state, and when they change it -/

/-- The copy that the list changes is the one that the model sets. -/
theorem withCopy_eq_setCopy (f : Word → Banked → Banked) (s : State) (v : Word) : withCopy f s v = s.setCopy (f v s.copy) := by
  unfold withCopy State.setCopy State.setBank State.copy State.bank State.copySecure
  cases s.sys.scr.getLsbD 0 <;> rfl

/-- An event recorded before a change of the copy, or after it. -/
theorem withCopy_note (f : Word → Banked → Banked) (s : State) (event : Nat) (v : Word) :
    withCopy f (s.note event) v = { withCopy f s v with happened := seen s event } := by
  unfold withCopy
  rw [State.note_sys]
  cases s.sys.scr.getLsbD 0 <;> rfl

/-- C is a bit of SCTLR that a write stores (12_cp15_control.md R251), as M is (`sctlr_M`). -/
theorem sctlrWrite_c (old v : Word) : (sctlrWrite old v).getLsbD 2 = v.getLsbD 2 := by
  rw [sctlr_eq]; simp

/-- Whether M changes or C is cleared is told from the value written. -/
theorem sctlrWrite_changes (old v : Word) :
    ((sctlrWrite old v).getLsbD 0 != old.getLsbD 0 || (old.getLsbD 2 && !(sctlrWrite old v).getLsbD 2)) =
      (old.getLsbD 0 != v.getLsbD 0 || (old.getLsbD 2 && !v.getLsbD 2)) := by
  rw [sctlr_M, sctlrWrite_c, bne_comm]

/-- The revisions from r3p0 on are those with 3 in MIDR[23:20] (00_scope.md R2). -/
theorem third_iff_midrOf (r : Revision) : r.third = true ↔ midrOf r &&& 0x00F00000 = 0x00300000 := by
  cases r <;> decide

/-- The bits of ACTLR that a Secure write stores, by MIDR (12_cp15_control.md R255; log 26). -/
theorem actlrMask_eq (k : Build) :
    actlrMask k = if midrOf k.revision &&& 0x00F00000 = 0x00300000 then 0x001FFFF9 else 0x000FFFF9 :=
  if_congr (third_iff_midrOf k.revision) rfl rfl

/-- L2EN goes to the copy, the other bits to the one ACTLR when the write is Secure (R255). -/
theorem actlrWrite_eq (v : Word) (s : State) :
    actlrWrite v s =
      let s' := withCopy (fun v b => { b with l2en := v.getLsbD 1 }) s v
      if s.secure then withSysRegs (fun v r => { r with actlr := v &&& actlrMask s.build }) s' v else s' := by
  rw [withCopy_eq_setCopy]
  rfl

/-! ## The instructions -/

section
variable (cond rt : BitVec 4) (s : State)

theorem exec_mcrSctlr : exec (.mcrSctlr cond rt) s = withSys cond rt (pinRight s) s fun v =>
    unlessPle (s.copy.sctlr.getLsbD 0 != v.getLsbD 0 || (s.copy.sctlr.getLsbD 2 && !v.getLsbD 2)) s
      (.next (s.setCopy { s.copy with sctlr := sctlrWrite s.copy.sctlr v }).advance) := by
  simp only [← sctlrWrite_changes]
  rfl

theorem exec_mcrActlr : exec (.mcrActlr cond rt) s = withSys cond rt (privilegedRight s) s fun v =>
    unlessPle (s.copy.l2en && !v.getLsbD 1) s (.next (actlrWrite v s).advance) := rfl

theorem exec_mcrPrrr : exec (.mcrPrrr cond rt) s = withSys cond rt (pinRight s) s fun v =>
    unlessPle (v &&& 0xFFFFF != s.copy.prrr) s (.next (s.setCopy { s.copy with prrr := v &&& 0xFFFFF }).advance) := rfl

theorem exec_mcrNmrr : exec (.mcrNmrr cond rt) s = withSys cond rt (pinRight s) s fun v =>
    unlessPle (v != s.copy.nmrr) s (.next (s.setCopy { s.copy with nmrr := v }).advance) := rfl

theorem exec_mcrContextidr : exec (.mcrContextidr cond rt) s = withSys cond rt (privilegedRight s) s fun v =>
    unlessPle (v != s.copy.contextidr) s (.next ((s.note 0x0B).setCopy { s.copy with contextidr := v }).advance) := rfl

theorem exec_mcrPleContext : exec (.mcrPleContext cond rt) s = withSys cond rt (nsacrRight 18 s) s fun v =>
    unlessPle (v != s.pleChan.ctxid && s.pleChan.running) s (.next (s.setPleChan { s.pleChan with ctxid := v }).advance) := rfl

end

/-- The instructions `i` make `t` of the value written and go on, with the right, unless the value `changes` the configuration
while a preload channel runs. -/
def WritesUnlessPreload (right : State → Bool) (changes : State → Word → Bool) (t : State → Word → State)
    (i : BitVec 4 → BitVec 4 → Instr) : Prop :=
  ∀ cond rt s, ∃ effect : Word → State, (∀ v, { t s v with pc := nextPc s } = (effect v).advance) ∧
    exec (i cond rt) s = withSys cond rt (right s) s fun v => unlessPle (changes s v) s (.next (effect v).advance)

/-- What such a write gives, by `unlessPle_gives`. -/
theorem WritesUnlessPreload.gives {right : State → Bool} {changes : State → Word → Bool} {t : State → Word → State}
    {i : BitVec 4 → BitVec 4 → Instr} (h : WritesUnlessPreload right changes t i) {cond rt : BitVec 4} {s : State}
    (hc : condPassed cond s = true) :
    (¬ (preloadRuns s = true ∧ changes s (s.reg rt) = true) → WriteGives s rt (right s) (t s) (exec (i cond rt) s)) ∧
    (right s = true → rt ≠ 15 → preloadRuns s = true → changes s (s.reg rt) = true →
      exec (i cond rt) s = .fault .preloadReconfigured) := by
  obtain ⟨effect, hmakes, hexec⟩ := h cond rt s
  rw [hexec]
  exact unlessPle_gives hc _ _ _ _ effect (fun _ => rfl) hmakes

/-- Each write of the list: those of a banked register set the copy that SCR.NS selects, ACTLR a register beside it, CONTEXTIDR
records its event, and the channel context id belongs to the selected channel. -/
theorem writesUnlessPreload_guardedWrites : ∀ e ∈ guardedWrites, WritesUnlessPreload e.1 e.2.1 e.2.2.1 e.2.2.2 := by
  simp only [guardedWrites, List.forall_mem_cons]
  refine ⟨fun cond rt s => ?sctlr, fun cond rt s => ?actlr, fun cond rt s => ?prrr, fun cond rt s => ?nmrr,
    fun cond rt s => ?contextidr, fun cond rt s => ?pleContext, List.forall_mem_nil _⟩
  case sctlr => exact ⟨_, setCopy_withCopy s _, exec_mcrSctlr cond rt s⟩
  case actlr =>
    refine ⟨_, fun v => ?_, exec_mcrActlr cond rt s⟩
    simp only [← actlrMask_eq, ← actlrWrite_eq]
    exact advance_of (kept_actlrWrite v s).halted (kept_actlrWrite v s).pc
  case prrr => exact ⟨_, setCopy_withCopy s _, exec_mcrPrrr cond rt s⟩
  case nmrr => exact ⟨_, setCopy_withCopy s _, exec_mcrNmrr cond rt s⟩
  case contextidr =>
    have noted (f : Word → Banked → Banked) (v : Word) :=
      congrArg (fun t : State => { t with pc := nextPc s }) (withCopy_note f s 0x0B v)
    exact ⟨_, fun v => (noted _ v).symm.trans (setCopy_withCopy (s.note 0x0B) _ v), exec_mcrContextidr cond rt s⟩
  case pleContext =>
    exact ⟨_, fun _ => advance_of rfl rfl, exec_mcrPleContext cond rt s⟩

/-- Settles O38: each write of the list is one that a running preload channel forbids when it changes the configuration. -/
theorem memoryConfigurationWrites : Obligations.MemoryConfigurationWrites := by
  intro cond rt s hc e he
  exact (writesUnlessPreload_guardedWrites e he).gives hc

end Sys2Proof.Machine

end
end

section
/-! The encoding (O54, O55; 30_encoding.md): every instruction is decoded from its word. -/

namespace Sys2Proof.Laws.RoundTrip

/-- Every instruction has its lemma, under its own name; they stand in the order of the constructors. -/
theorem statement (i : Instr) : Statement i :=
  i.casesOn (motive := Statement)
    cps setend pliImm pliReg pldImm pldReg pldwImm pldwReg memHintImm memHintReg clrex dsb dmb isb srs rfe blxImm
    asimdData asimdLoadStore coproc2LoadStore coproc2Reg uncondOther mrs msrCpsrReg msrSpsrReg bx bxj blxReg clz
    qadd qsub qdadd qdsub bkpt smc smlabb smlabt smlatb smlatt smlawb smlawt smulwb smulwt smlalbb smlalbt smlaltb
    smlaltt smulbb smulbt smultb smultt swp swpb ldrex ldrexd ldrexb ldrexh strex strexd strexb strexh mul mla umaal
    mls umull umlal smull smlal strhtImm strhtReg ldrhtImm ldrhtReg ldrsbtImm ldrsbtReg ldrshtImm ldrshtReg strhImm
    strhReg ldrhImm ldrhReg ldrsbImm ldrsbReg ldrshImm ldrshReg ldrdImm ldrdReg strdImm strdReg movw movt nop yield
    wfe wfi sev dbg hintOther msrCpsrImm msrSpsrImm andImm andReg andRsr eorImm eorReg eorRsr subImm subReg subRsr
    rsbImm rsbReg rsbRsr addImm addReg addRsr adcImm adcReg adcRsr sbcImm sbcReg sbcRsr rscImm rscReg rscRsr tstImm
    tstReg tstRsr teqImm teqReg teqRsr cmpImm cmpReg cmpRsr cmnImm cmnReg cmnRsr orrImm orrReg orrRsr movImm movReg
    movRsr bicImm bicReg bicRsr mvnImm mvnReg mvnRsr lslImm lslReg lsrImm lsrReg asrImm asrReg rorImm rorReg rrx
    adrAdd adrSub ldrtImm ldrtReg strtImm strtReg ldrbtImm ldrbtReg strbtImm strbtReg ldrImm ldrReg strImm strReg
    ldrbImm ldrbReg strbImm strbReg sadd16 sasx ssax ssub16 sadd8 ssub8 qadd16 qasx qsax qsub16 qadd8 qsub8 shadd16
    shasx shsax shsub16 shadd8 shsub8 uadd16 uasx usax usub16 uadd8 usub8 uqadd16 uqasx uqsax uqsub16 uqadd8 uqsub8
    uhadd16 uhasx uhsax uhsub16 uhadd8 uhsub8 pkhbt pkhtb sel ssat usat ssat16 usat16 sxtb16 sxtab16 sxtb sxtab sxth
    sxtah uxtb16 uxtab16 uxtb uxtab uxth uxtah rev rev16 rbit revsh smuad smusd smuadx smusdx smlad smlsd smlald
    smlsld smladx smlsdx smlaldx smlsldx smmul smmulr smmla smmls smmlar smmlsr usad8 usada8 sbfx ubfx bfc bfi udf
    popMulti pushMulti ldm stm ldmExcRet ldmUser stmUser b bl svc mrcDscrFlags mrcDidr mrcDrar mrcDsar mrcDscr
    mrcDtr mcrDtr mrcTeecr mcrTeecr mrcTeehbr mcrTeehbr mrcJidr mrcJoscr mcrJoscr mrcJmcr mcrJmcr ldcDtr stcDtr
    p14DebugOther p14TeeOther p14Other fmstat vmrsFpsid vmsrFpsid vmrsFpscr vmsrFpscr vmrsMvfr1 vmsrMvfr1 vmrsMvfr0
    vmsrMvfr0 vmrsFpexc vmsrFpexc vfpSysOther vfpData vfpTransfer vfpLoadStore mrcMidr mrcMidr4 mrcMidr6 mrcMidr7
    mrcCtr mrcTcmtr mrcTlbtr mrcMpidr mrcIdPfr0 mrcIdPfr1 mrcIdDfr0 mrcIdAfr0 mrcIdMmfr0 mrcIdMmfr1 mrcIdMmfr2
    mrcIdMmfr3 mrcIdIsar0 mrcIdIsar1 mrcIdIsar2 mrcIdIsar3 mrcIdIsar4 mrcIdIsar5 mrcIdIsar6 mrcIdIsar7
    mrcFeatureReserved mrcCcsidr mrcClidr mrcSiliconId mrcCsselr mcrCsselr mrcSctlr mcrSctlr mrcActlr mcrActlr
    mrcCpacr mcrCpacr mrcScr mcrScr mrcSder mcrSder mrcNsacr mcrNsacr mrcTtbr0 mcrTtbr0 mrcTtbr1 mcrTtbr1 mrcTtbcr
    mcrTtbcr mrcDacr mcrDacr mrcDfsr mcrDfsr mrcIfsr mcrIfsr mrcAdfsr mcrAdfsr mrcAifsr mcrAifsr mrcDfar mcrDfar
    mrcIfar mcrIfar mcrWfiNop mrcPar mcrPar mcrIciallu mcrIcimvau mcrIsb mcrBpiall mcrBpimva mcrDcimvac mcrDcisw
    mcrVaPaCurPrivRead mcrVaPaCurPrivWrite mcrVaPaCurUserRead mcrVaPaCurUserWrite mcrVaPaOthPrivRead
    mcrVaPaOthPrivWrite mcrVaPaOthUserRead mcrVaPaOthUserWrite mcrDccmvac mcrDccsw mcrDsb mcrDmb mcrDccmvau
    mcrDccimvac mcrDccisw mcrItlbiall mcrItlbimva mcrItlbiasid mcrDtlbiall mcrDtlbimva mcrDtlbiasid mcrTlbiall
    mcrTlbimva mcrTlbiasid mrcPmnc mcrPmnc mrcCntens mcrCntens mrcCntenc mcrCntenc mrcFlag mcrFlag mrcSwincr
    mcrSwincr mrcPmnxsel mcrPmnxsel mrcCcnt mcrCcnt mrcEvtsel mcrEvtsel mrcPmcnt mcrPmcnt mrcUseren mcrUseren
    mrcIntens mcrIntens mrcIntenc mcrIntenc mrcL2Lock mcrL2Lock mrcL2Aux mcrL2Aux mrcDtlbLock mcrDtlbLock
    mrcItlbLock mcrItlbLock mcrDtlbPreload mcrItlbPreload mrcPrrr mcrPrrr mrcNmrr mcrNmrr mrcPleIdPresent
    mrcPleIdReserved mrcPleIdRunning mrcPleIdInterrupting mrcPleUser mcrPleUser mrcPleChannel mcrPleChannel
    mcrPleStop mcrPleStart mcrPleClear mrcPleControl mcrPleControl mrcPleStartAddr mcrPleStartAddr mrcPleEndAddr
    mcrPleEndAddr mrcPleStatus mrcPleContext mcrPleContext mrcVbar mcrVbar mrcMvbar mcrMvbar mrcIsr mrcFcse mcrFcse
    mrcContextidr mcrContextidr mrcTpidrurw mcrTpidrurw mrcTpidruro mcrTpidruro mrcTpidrprw mcrTpidrprw mrcDl1Data0
    mcrDl1Data0 mrcDl1Data1 mcrDl1Data1 mcrDtlbCamWrite mcrDtlbAttrWrite mcrDtlbPaWrite mcrDhvabWrite mcrDtagWrite
    mcrDdataWrite mcrDtlbCamRead mcrDtlbAttrRead mcrDtlbPaRead mcrDhvabRead mcrDtagRead mcrDdataRead mrcIl1Data0
    mcrIl1Data0 mrcIl1Data1 mcrIl1Data1 mcrItlbCamWrite mcrItlbAttrWrite mcrItlbPaWrite mcrIhvabWrite mcrItagWrite
    mcrIdataWrite mcrItlbCamRead mcrItlbAttrRead mcrItlbPaRead mcrIhvabRead mcrItagRead mcrIdataRead mcrGhbWrite
    mcrBtbWrite mcrGhbRead mcrBtbRead mrcL2Data0 mcrL2Data0 mrcL2Data1 mcrL2Data1 mcrL2TagWrite mcrL2DataWrite
    mcrL2ParityWrite mrcL2Data2 mcrL2Data2 mcrL2TagRead mcrL2DataRead mcrL2ParityRead p15Other mcrOther mrcOther
    cdpAny mcrrAny mrrcAny ldcStcOther

end Sys2Proof.Laws.RoundTrip

namespace Sys2Proof.Laws

/-- Settles O54: the lemma of each constructor says it for that constructor. -/
theorem roundTrip : Obligations.RoundTrip :=
  RoundTrip.statement

/-- A word decodes to `i` when it is the encoding of `i` and `i` is no second name of another instruction. -/
theorem decodeWord_of_encode {w : Word} {i : Instr} (hw : encode i = w) (hwf : i.wf = true) (hc : i.canonical = i) :
    decodeWord w = .ok i := by
  rw [← hw, roundTrip i hwf, hc]

/-- Settles O55: each word of the list is the encoding of the instruction beside it. -/
theorem decodeWords : Obligations.DecodeWords := by
  simp only [Obligations.DecodeWords, List.forall_mem_cons]
  refine ⟨?bx, ?cmp, ?mov, ?ldr, ?str, ?ldm, ?bl, ?mrs, ?isb, ?mrcDtr, ?ldcDtr, ?smlal, List.forall_mem_nil _⟩
  all_goals exact decodeWord_of_encode rfl rfl rfl

end Sys2Proof.Laws

end

section
/-! The condition field (O19; 30_encoding.md R1353): every instruction that has one tests it before anything else. -/

namespace Sys2Proof.Machine

open Safety

theorem condOf_low (n : Nat) (h : n < 2 ^ 28) : condOf (BitVec.ofNat 32 n) = 0#4 := by
  rw [condOf_const, Nat.div_eq_of_lt h]

/-- The condition field of a word that has one other field. -/
theorem condOf_one_field (k : Nat) (cond : BitVec 4) {n : Nat} (f : BitVec n) (lo : Nat) (hk : k < 2 ^ 28)
    (hlo : lo + n ≤ 28) : condOf (BitVec.ofNat 32 k ||| put cond 28 ||| put f lo) = cond := by
  simp only [condOf_or, condOf_low k hk, condOf_same, condOf_put f lo hlo, BitVec.zero_or, BitVec.or_zero]

/-- An MRC whose value may be a free one tests its condition first, whether the value is free or not. -/
theorem readSysMaybe_onCond (cond rt : BitVec 4) (ok : Bool) (v : Option Word) (s : State) :
    ∃ effect, readSysMaybe cond rt ok v s = onCond cond s effect := by
  cases v <;> exact ⟨_, rfl⟩

/-- An instruction that tests `cond` tests its condition field when `cond` stands in that field of its word. -/
theorem exec_onCond_of_word {i : Instr} {s : State} {x y : Word} {cond : BitVec 4} (hword : encode i = x ||| y)
    (hcond : condOf (x ||| y) = cond) (hexec : ∃ effect, exec i s = onCond cond s effect) :
    ∃ effect, exec i s = onCond (condOf (encode i)) s effect := by
  rwa [hword, hcond]

/-- What every instruction with a condition field executes as, but BKPT, B and BL: `onCond` of that field. In the word of an
instruction of the first list the field is 1111; in any other it is the operand that the meaning tests. -/
theorem exec_onCond (i : Instr) (s : State) (hfield : condOf (encode i) ≠ 15) (hbkpt : ∀ c x y, i ≠ .bkpt c x y)
    (hbranch : ¬ ∃ c x, i = .b c x ∨ i = .bl c x) : ∃ effect, exec i s = onCond (condOf (encode i)) s effect := by
  cases i
  case bkpt c x y => exact absurd rfl (hbkpt c x y)
  case b c x => exact absurd ⟨c, x, .inl rfl⟩ hbranch
  case bl c x => exact absurd ⟨c, x, .inr rfl⟩ hbranch
  case clrex => exact absurd rfl hfield
  case cps | setend | pliImm | pliReg | pldImm | pldReg | pldwImm | pldwReg | memHintImm | memHintReg | dsb | dmb | isb |
      srs | rfe | blxImm | asimdData | asimdLoadStore | coproc2LoadStore | coproc2Reg | uncondOther =>
    refine absurd ?_ hfield
    change condOf (_ ||| _) = 15
    simp (disch := decide) only [condOf_or, condOf_put, condOf_const, BitVec.or_zero]
    rfl
  case mrcEvtsel | mrcPmcnt | mrcPleStartAddr | mrcPleEndAddr =>
    exact exec_onCond_of_word rfl (condOf_one_field _ _ _ _ (by decide) (by decide)) (readSysMaybe_onCond _ _ _ _ s)
  all_goals
    refine exec_onCond_of_word rfl ?_ ⟨_, rfl⟩
    simp (disch := decide) only [condOf_or, condOf_put, condOf_same, condOf_low, BitVec.zero_or, BitVec.or_zero]

theorem condOf_encode_b (c : BitVec 4) (x : BitVec 24) : condOf (encode (.b c x)) = c :=
  condOf_one_field _ c x 0 (by decide) (by decide)

theorem condOf_encode_bl (c : BitVec 4) (x : BitVec 24) : condOf (encode (.bl c x)) = c :=
  condOf_one_field _ c x 0 (by decide) (by decide)

/-- A branch notes event 0x0D before it tests the condition `c` (log 21), and the test does not see the event. -/
theorem exec_branch_fail {i : Instr} {s : State} {c : BitVec 4} {x : BitVec 24} (hi : i = .b c x ∨ i = .bl c x)
    (hfail : condPassed (condOf (encode i)) s = false) :
    exec i s = .next { skipped s with happened := seen s 0x0D } := by
  have hnoted (hc : condPassed c s = false) (effect) :
      onCond c (s.note 0x0D) effect = .next { skipped s with happened := seen s 0x0D } :=
    onCond_fail (s := s.note 0x0D) hc effect
  rcases hi with rfl | rfl
  · exact hnoted (condOf_encode_b c x ▸ hfail) _
  · exact hnoted (condOf_encode_bl c x ▸ hfail) _

/-- Settles O19: by `onCond_fail`, as every instruction with a condition field is an `onCond` of it. -/
theorem conditionFails : Obligations.ConditionFails := by
  intro i s hfield hbkpt hfail
  refine ⟨fun ⟨_, _, hi⟩ => exec_branch_fail hi hfail, fun hbranch => ?_⟩
  obtain ⟨effect, hexec⟩ := exec_onCond i s hfield hbkpt hbranch
  rw [hexec, onCond_fail hfail]

end Sys2Proof.Machine

end

section
/-! Reads and writes of the system registers (O36, O37; 40_cp15_instructions.md R1451 to R1454): what an MRC and an MCR of each
one executes as, and so what it gives. -/

noncomputable section

namespace Sys2Proof.Machine

open Safety

/-! ## Reads -/

/-- The instructions `i` are reads of a register that shows `v` to an access with the right (R1451). -/
def ReadsWithRight (right : State → Bool) (v : State → Word) (i : BitVec 4 → BitVec 4 → Instr) : Prop :=
  ∀ cond rt s, exec (i cond rt) s = readSys cond rt (right s) (v s) s

/-- What such a read gives, by `readSys_gives`. -/
theorem ReadsWithRight.gives {right : State → Bool} {v : State → Word} {i : BitVec 4 → BitVec 4 → Instr}
    (h : ReadsWithRight right v i) {cond rt : BitVec 4} {s : State} (hc : condPassed cond s = true) :
    ReadGives s rt (right s) (v s) (exec (i cond rt) s) := by
  rw [h cond rt s]
  exact readSys_gives hc (right s) (v s)

/-- The value may be written in any way that is equal to it in every state. -/
theorem ReadsWithRight.congr {right : State → Bool} {v w : State → Word} {i : BitVec 4 → BitVec 4 → Instr}
    (h : ReadsWithRight right v i) (hvw : ∀ s, v s = w s) : ReadsWithRight right w i :=
  funext hvw ▸ h

/-- DIDR as the model composes it from the numbers n and m of rnpm is its fixed part and the two fields of MIDR
(16_debug_registers.md R655). -/
theorem didr_eq_didrOf (r : Revision) : r.didr = didrOf r := by
  cases r <;> rfl

/-- A word with one bit for each preload channel (14_cp15_tlb_ple_misc.md R490). -/
theorem setWidth_bits (b0 b1 : Bool) : (bit b1 ++ bit b0).setWidth 32 = (0#30 ++ bit b1 ++ bit b0 : Word) := by
  cases b0 <;> cases b1 <;> rfl

/-- Each read of the first list. The list writes the views of CCSIDR, ACTLR, CPACR, PAR and ISR otherwise than the model; the
other registers show what they hold. -/
theorem readsWithRight_systemReads : ∀ e ∈ systemReads, ReadsWithRight e.1 e.2.1 e.2.2 := by
  simp only [systemReads, List.forall_mem_cons]
  refine ⟨?ccsidr, ?csselr, ?sctlr, ?actlr, ?cpacr, ?scr, ?sder, ?nsacr, ?ttbr0, ?ttbr1, ?ttbcr, ?dacr, ?dfsr, ?ifsr, ?adfsr,
    ?aifsr, ?dfar, ?ifar, ?par, ?prrr, ?nmrr, ?vbar, ?mvbar, ?isr, ?fcse, ?contextidr, ?tpidrurw, ?tpidruro, ?tpidrprw,
    ?l2Lock, ?l2Aux, ?dtlbLock, ?itlbLock, List.forall_mem_nil _⟩
  case ccsidr =>
    exact ReadsWithRight.congr (v := fun s => ccsidr s.build s.copy.csselr) (fun _ _ _ => rfl) fun s => (cacheSize_eq _ _).symm
  case actlr => exact ReadsWithRight.congr (v := actlrView) (fun _ _ _ => rfl) fun s => (actlr_eq s).symm
  case cpacr =>
    exact ReadsWithRight.congr (v := fun s => s.sys.cpacr &&& cpacrMask s) (fun _ _ _ => rfl) fun s => by rw [cpacr_eq]
  case par => exact ReadsWithRight.congr (v := fun s => parView s.copy.par) (fun _ _ _ => rfl) fun s => (par_eq _).symm
  case isr => exact ReadsWithRight.congr (v := isrView) (fun _ _ _ => rfl) fun s => (isr_eq s).symm
  all_goals exact fun _ _ _ => rfl

/-- Each read of the second list. Of these the list writes only DIDR otherwise than the model. -/
theorem readsWithRight_unitReads : ∀ e ∈ unitReads, ReadsWithRight e.1 e.2.1 e.2.2 := by
  simp only [unitReads, List.forall_mem_cons]
  refine ⟨?pmnc, ?cntens, ?cntenc, ?flag, ?swincr, ?pmnxsel, ?ccnt, ?useren, ?intens, ?intenc, ?plePresent, ?pleReserved,
    ?pleUser, ?pleChannel, ?pleControl, ?pleStatus, ?pleContext, ?dl1Data0, ?dl1Data1, ?il1Data0, ?il1Data1, ?l2Data0,
    ?l2Data1, ?l2Data2, ?didr, ?drar, ?dsar, ?teecr, ?teehbr, ?jidr, ?joscr, ?jmcr, List.forall_mem_nil _⟩
  case didr =>
    exact ReadsWithRight.congr (v := fun s => s.build.revision.didr) (fun _ _ _ => rfl) fun s => didr_eq_didrOf s.build.revision
  all_goals exact fun _ _ _ => rfl

/-- The identification registers of the preload engine that say which channels run, and which signal an interrupt (R2506). -/
theorem readsWithRight_pleIdRunning :
    ReadsWithRight (nsacrRight 18) (fun s => 0#30 ++ bit s.ple.chan[1].running ++ bit s.ple.chan[0].running) .mrcPleIdRunning :=
  ReadsWithRight.congr (fun _ _ _ => rfl) fun _ => setWidth_bits _ _

theorem readsWithRight_pleIdInterrupting :
    ReadsWithRight (nsacrRight 18) (fun s => 0#30 ++ bit s.ple.chan[1].interrupting ++ bit s.ple.chan[0].interrupting)
      .mrcPleIdInterrupting :=
  ReadsWithRight.congr (fun _ _ _ => rfl) fun _ => setWidth_bits _ _

/-- Settles O36: each instruction of the lists, and each of the two that report on the preload channels, is a read with the
right and the value given for it (the right of the registers that User mode may read is log 60). -/
theorem systemRegisterReads : Obligations.SystemRegisterReads := by
  intro cond rt s hc
  refine ⟨fun e he => ?_, readsWithRight_pleIdRunning.gives hc, readsWithRight_pleIdInterrupting.gives hc⟩
  rcases List.mem_append.1 he with hsys | hunit
  · exact (readsWithRight_systemReads e hsys).gives hc
  · exact (readsWithRight_unitReads e hunit).gives hc

/-! ## Writes -/

/-- The instructions `i` make `t` of the value written and go on, with the right (R1451, R1452). -/
def WritesWithRight (right : State → Bool) (t : State → Word → State) (i : BitVec 4 → BitVec 4 → Instr) : Prop :=
  ∀ cond rt s, ∃ effect : Word → State, (∀ v, { t s v with pc := nextPc s } = (effect v).advance) ∧
    exec (i cond rt) s = writeSys cond rt (right s) s effect

/-- What such a write gives, by `writeSys_gives`. -/
theorem WritesWithRight.gives {right : State → Bool} {t : State → Word → State} {i : BitVec 4 → BitVec 4 → Instr}
    (h : WritesWithRight right t i) {cond rt : BitVec 4} {s : State} (hc : condPassed cond s = true) :
    WriteGives s rt (right s) (t s) (exec (i cond rt) s) := by
  obtain ⟨effect, hmakes, hexec⟩ := h cond rt s
  rw [hexec]
  exact writeSys_gives hc _ _ effect hmakes

/-- A write of a banked register: it sets the copy that SCR.NS selects. -/
theorem WritesWithRight.copy {right : State → Bool} {f : Word → Banked → Banked} {i : BitVec 4 → BitVec 4 → Instr}
    (h : ∀ cond rt s, exec (i cond rt) s = writeSys cond rt (right s) s fun v => s.setCopy (f v s.copy)) :
    WritesWithRight right (withCopy f) i :=
  fun cond rt s => ⟨_, setCopy_withCopy s f, h cond rt s⟩

/-- A write of anything else, which leaves debug state and the pc as they are. -/
theorem WritesWithRight.state {right : State → Bool} {t : State → Word → State} {i : BitVec 4 → BitVec 4 → Instr}
    (h : ∀ cond rt s, exec (i cond rt) s = writeSys cond rt (right s) s (t s))
    (hhalted : ∀ s v, (t s v).halted = s.halted := by exact fun _ _ => rfl)
    (hpc : ∀ s v, (t s v).pc = s.pc := by exact fun _ _ => rfl) : WritesWithRight right t i :=
  fun cond rt s => ⟨_, fun v => advance_of (hhalted s v) (hpc s v), h cond rt s⟩

/-- Each write of the first list: those of a banked register, and the others. The masks of CPACR and NSACR are those of the
model by `cpacr_eq` and `nsacr_eq`. -/
theorem writesWithRight_systemWrites : ∀ e ∈ systemWrites, WritesWithRight e.1 e.2.1 e.2.2 := by
  simp only [systemWrites, List.forall_mem_cons, cpacr_eq, nsacr_eq]
  refine ⟨.copy ?csselr, .state ?cpacr, .state ?scr, .state ?sder, .state ?nsacr, .copy ?ttbr0, .copy ?ttbr1, .copy ?ttbcr,
    .copy ?dacr, .copy ?dfsr, .copy ?ifsr, .state ?adfsr, .state ?aifsr, .copy ?dfar, .copy ?ifar, .copy ?par, .copy ?vbar,
    .state ?mvbar, .copy ?fcse, .copy ?tpidrurw, .copy ?tpidruro, .copy ?tpidrprw, .state ?l2Lock, .state ?l2Aux,
    .state ?dtlbLock, .state ?itlbLock, .state ?wfiNop, .state ?isb, .state ?dsb, .state ?dmb, .state ?bpiall, .state ?bpimva,
    List.forall_mem_nil _⟩
  all_goals exact fun _ _ _ => rfl

/-- Each write of the second list; none of these registers is banked. -/
theorem writesWithRight_unitWrites : ∀ e ∈ unitWrites, WritesWithRight e.1 e.2.1 e.2.2 := by
  simp only [unitWrites, List.forall_mem_cons]
  refine ⟨.state ?pmnc, .state ?cntens, .state ?cntenc, .state ?flag, .state ?pmnxsel, .state ?useren, .state ?intens,
    .state ?intenc, .state ?pleUser, .state ?pleChannel, .state ?dl1Data0, .state ?dl1Data1, .state ?il1Data0,
    .state ?il1Data1, .state ?l2Data0, .state ?l2Data1, .state ?l2Data2, .state ?ghb, .state ?btb, .state ?teecr,
    .state ?teehbr, .state ?joscr, .state ?jmcr, List.forall_mem_nil _⟩
  all_goals exact fun _ _ _ => rfl

/-- Settles O37: each instruction of the lists is a write with the right and the new state given for it (which bits it stores
is logs 17 and 26, the right of the registers that User mode may write log 60). -/
theorem systemRegisterWrites : Obligations.SystemRegisterWrites := by
  intro cond rt s hc e he
  rcases List.mem_append.1 he with hsys | hunit
  · exact (writesWithRight_systemWrites e hsys).gives hc
  · exact (writesWithRight_unitWrites e hunit).gives hc

end Sys2Proof.Machine

end
end

section
/-! The NEON/VFP system registers (O47; 41_cp14_vfp_sysreg_instructions.md R1580 to R1590) and the coprocessor words without a
meaning of their own (O48; R1591, 45_branch_system.md R1802, R1803): all of them come behind one gate or are Undefined. -/

noncomputable section

namespace Sys2Proof.Machine

open Safety

/-- The outcome `r` is the Undefined Instruction exception. -/
def TakesUndefined (s : State) (r : Host.Outcome State Fault Refusal) : Prop := ∃ t, r = .next t ∧ Undefined s t

theorem takesUndefined_next (s : State) : TakesUndefined s (.next (takeUndefined s)) :=
  ⟨_, rfl, takeUndefined_spec s⟩

/-- Both tests that an instruction behind the gate makes, as the statements name them. -/
theorem gate_and_eq_false {s : State} {ok : Bool} (h : vfpGate s = false ∨ ok = false) : (s.vfpOpen && ok) = false :=
  Bool.and_eq_false_iff.2 h

theorem gate_and_eq_true {s : State} {ok : Bool} (hgate : vfpGate s = true) (hok : ok = true) : (s.vfpOpen && ok) = true :=
  Bool.and_eq_true_iff.2 ⟨hgate, hok⟩

/-! ## VMRS and VMSR -/

/-- `r` is the outcome of a VMRS or VMSR with the right `ok` that leaves `t`: it is behind the gate, and r15 stops (R1581). -/
structure VfpGives (s : State) (rt : BitVec 4) (ok : Bool) (t : State) (r : Host.Outcome State Fault Refusal) : Prop where
  effect : vfpGate s = true → ok = true → rt ≠ 15 → r = .next t
  stops : vfpGate s = true → ok = true → rt = 15 → r = .fault .operands
  undefined : vfpGate s = false ∨ ok = false → TakesUndefined s r

section

variable {cond rt : BitVec 4} {s : State}

/-- The tests that VMRS and VMSR share. -/
theorem vfpGives_tests (hc : condPassed cond s = true) (ok : Bool) {t t' : State} (ht : rt ≠ 15 → t' = t) :
    VfpGives s rt ok t (onCond cond s (
      if !(s.vfpOpen && ok) then .next (takeUndefined s) else if rt = 15 then .fault .operands else .next t')) := by
  rw [onCond_pass hc]
  refine ⟨fun hgate hok hrt => ?effect, fun hgate hok hrt => ?stops, fun h => ?undefined⟩
  case effect => rw [gate_and_eq_true hgate hok, if_neg (by decide), if_neg hrt, ht hrt]
  case stops => rw [gate_and_eq_true hgate hok, if_neg (by decide), if_pos hrt]
  case undefined => rw [gate_and_eq_false h, if_pos (by decide)]; exact takesUndefined_next s

theorem readVfp_gives (hc : condPassed cond s = true) (ok : Bool) (v : Word) :
    VfpGives s rt ok (wrote s rt v) (readVfp cond rt ok v s) :=
  vfpGives_tests hc ok fun hrt => setReg_wrote hrt v

theorem writeVfp_gives (hc : condPassed cond s = true) (ok : Bool) (t : Word → State)
    (hhalted : (t (s.reg rt)).halted = s.halted) (hpc : (t (s.reg rt)).pc = s.pc) :
    VfpGives s rt ok { t (s.reg rt) with pc := nextPc s } (writeVfp cond rt ok s t) :=
  vfpGives_tests hc ok fun _ => (advance_of hhalted hpc).symm

end

/-- FPSID as the model composes it from the number n of rnpm is the value of each revision (log 52). -/
theorem fpsid_eq_fpsidOf (r : Revision) : r.fpsid = fpsidOf r := by
  cases r <;> rfl

/-- Each register of the list is read with its right and its value. -/
theorem exec_vfpReads : ∀ e ∈ vfpReads, ∀ cond rt s, exec (e.2.2 cond rt) s = readVfp cond rt (e.1 s) (e.2.1 s) s := by
  simp only [vfpReads, List.forall_mem_cons]
  refine ⟨?fpsid, ?fpscr, ?mvfr1, ?mvfr0, ?fpexc, List.forall_mem_nil _⟩
  case fpsid => exact fun _ _ s => fpsid_eq_fpsidOf s.build.revision ▸ rfl
  all_goals exact fun _ _ _ => rfl

/-- The change `t` leaves debug state and the pc as they are. -/
def LeavesPc (t : State → Word → State) : Prop := ∀ s v, (t s v).halted = s.halted ∧ (t s v).pc = s.pc

/-- Each register of the list is written with its right, and no write moves the pc. -/
theorem exec_vfpWrites : ∀ e ∈ vfpWrites, LeavesPc e.2.1 ∧
    ∀ cond rt s, exec (e.2.2 cond rt) s = writeVfp cond rt (e.1 s) s (e.2.1 s) := by
  simp only [vfpWrites, List.forall_mem_cons]
  refine ⟨?fpsid, ?fpscr, ?mvfr1, ?mvfr0, ?fpexc, List.forall_mem_nil _⟩
  all_goals exact ⟨fun _ _ => ⟨rfl, rfl⟩, fun _ _ _ => rfl⟩

section

variable {cond : BitVec 4} {s : State}

theorem exec_fmstat_enabled (hc : condPassed cond s = true) (hgate : vfpGate s = true) (hon : vfpOn s = true) :
    exec (.fmstat cond) s = .next { skipped s with
      cpsr := flagged s.cpsr (s.vfp.fpscr.getLsbD 31) (s.vfp.fpscr.getLsbD 30) (s.vfp.fpscr.getLsbD 29)
        (s.vfp.fpscr.getLsbD 28) } := by
  show onCond cond s (.next (if s.vfpOpen && vfpOn s then _ else _)) = _
  rw [onCond_pass hc, gate_and_eq_true hgate hon, if_pos rfl, State.receive, if_pos rfl, State.setNZCV_eq, State.advance_eq]
  rfl

theorem exec_fmstat_disabled (hc : condPassed cond s = true) (hoff : vfpGate s = false ∨ vfpOn s = false) :
    TakesUndefined s (exec (.fmstat cond) s) := by
  show TakesUndefined s (onCond cond s (.next (if s.vfpOpen && vfpOn s then _ else _)))
  rw [onCond_pass hc, gate_and_eq_false hoff, if_neg (by decide)]
  exact takesUndefined_next s

end

/-- Settles O47: each VMRS and VMSR makes the tests of `vfpGives_tests`, FMSTAT those of the gate and FPEXC.EN (the gate comes
first by log 39). -/
theorem vfpRegisters : Obligations.VfpRegisters := by
  intro cond rt s hc outcome
  refine ⟨rfl, rfl, rfl, rfl, rfl, fun e he => ?reads, fun e he => ?writes, exec_fmstat_enabled hc, exec_fmstat_disabled hc⟩
  case reads =>
    rw [exec_vfpReads e he]
    obtain ⟨heffect, hstops, hundefined⟩ := readVfp_gives (rt := rt) hc (e.1 s) (e.2.1 s)
    exact ⟨heffect, hstops, hundefined⟩
  case writes =>
    obtain ⟨hleaves, hexec⟩ := exec_vfpWrites e he
    obtain ⟨hhalted, hpc⟩ := hleaves s (s.reg rt)
    rw [hexec]
    obtain ⟨heffect, hstops, hundefined⟩ := writeVfp_gives hc (e.1 s) (e.2.1 s) hhalted hpc
    exact ⟨heffect, hstops, hundefined⟩

/-! ## Classes of words -/

/-- A word of the NEON or VFP classes: refused by name when the unit is enabled, Undefined when it is not (log 25). -/
theorem neonVfp_gives (s : State) :
    (vfpGate s = true → vfpOn s = true → neonVfp s = .refused .neonVfpInstruction) ∧
    (vfpGate s = false ∨ vfpOn s = false → TakesUndefined s (neonVfp s)) := by
  show (_ → _ → (if s.vfpOpen && vfpOn s then _ else _) = _) ∧
    (_ → TakesUndefined s (if s.vfpOpen && vfpOn s then _ else _))
  refine ⟨fun hgate hon => ?enabled, fun hoff => ?disabled⟩
  case enabled => rw [gate_and_eq_true hgate hon, if_pos rfl]
  case disabled => rw [gate_and_eq_false hoff, if_neg (by decide)]; exact takesUndefined_next s

section

variable {cond a b c d e : BitVec 4} {o3 q3 : BitVec 3} {l p u dd w : BitVec 1} {b25 : BitVec 25} {b24 : BitVec 24}
  {b28 : BitVec 28} {b20 : BitVec 20} {b12 : BitVec 12} {b13 : BitVec 13} {b9 : BitVec 9} {b8 : BitVec 8} {s : State}

theorem exec_neonVfp_class (hc : condPassed cond s = true) : ∀ i ∈ [Instr.asimdData b25, .asimdLoadStore o3 b20,
    .vfpData cond b12 a b, .vfpTransfer cond b12 a b, .vfpLoadStore cond b13 b9], exec i s = neonVfp s := by
  simp only [List.forall_mem_cons]
  refine ⟨?asimdData, ?asimdLoadStore, ?vfpData, ?vfpTransfer, ?vfpLoadStore, List.forall_mem_nil _⟩
  case asimdData | asimdLoadStore => rfl
  all_goals exact onCond_pass hc _

theorem exec_undefined_class (hc : condPassed cond s = true) : ∀ i ∈ [Instr.vfpSysOther cond l a b,
    .p14DebugOther cond l a b o3 c, .p14TeeOther cond l a b o3 c, .p14Other cond o3 l a b q3 c, .p15Other cond o3 l a b q3 c,
    .coproc2LoadStore b25, .coproc2Reg b24, .uncondOther b28, .mcrOther cond o3 a b c q3 d, .mrcOther cond o3 a b c q3 d,
    .cdpAny cond a b c d o3 e, .mcrrAny cond a b c d e, .mrrcAny cond a b c d e, .ldcStcOther cond p u dd w l a b c b8],
    exec i s = .next (takeUndefined s) := by
  simp only [List.forall_mem_cons]
  refine ⟨?vfpSysOther, ?p14DebugOther, ?p14TeeOther, ?p14Other, ?p15Other, ?coproc2LoadStore, ?coproc2Reg, ?uncondOther,
    ?mcrOther, ?mrcOther, ?cdpAny, ?mcrrAny, ?mrrcAny, ?ldcStcOther, List.forall_mem_nil _⟩
  case coproc2LoadStore | coproc2Reg | uncondOther => rfl
  all_goals exact onCond_pass hc _

end

/-- Settles O48: by what each of the two classes executes as. -/
theorem coprocessorClasses : Obligations.CoprocessorClasses := by
  intro cond a b c d e o3 q3 l p u dd w b25 b24 b28 b20 b12 b13 b9 b8 s hc
  refine ⟨fun i hi => ?neonVfp, fun i hi => ?undefined⟩
  case neonVfp => rw [exec_neonVfp_class hc i hi]; exact neonVfp_gives s
  case undefined => rw [exec_undefined_class hc i hi]; exact takesUndefined_next s

end Sys2Proof.Machine

end
end

section
/-! The debug registers of CP14 (O46; 41_cp14_vfp_sysreg_instructions.md R1551, R1558 to R1562): DSCR, and the DTR by MRC, MCR,
LDC and STC. -/

noncomputable section

namespace Sys2Proof.Machine

open Safety

/-! ## DSCR and the DTR in a register -/

/-- The flags of the DTR are no part of what going on depends on. -/
theorem advance_dtrGiven (s : State) (v : Word) : (s.dtrGiven v).advance = { s.dtrGiven v with pc := nextPc s } :=
  (advance_of (given_halted s v) rfl).symm

theorem advance_dtrTaken (s : State) : s.dtrTaken.advance = { s.dtrTaken with pc := nextPc s } :=
  (advance_of (taken_halted s) rfl).symm

section

variable {cond rt : BitVec 4} {s : State}

/-- An instruction that only asks for the right to the debug registers, with the right. -/
theorem onCond_p14Open (hc : condPassed cond s = true) (hopen : debugRight s = true) (t : State) :
    onCond cond s (.next (if s.p14Open then t else takeUndefined s)) = .next t := by
  rw [onCond_pass hc, p14Open_eq, hopen, if_pos rfl]

/-- The same without it (R1551). -/
theorem onCond_p14Closed (hc : condPassed cond s = true) (hclosed : debugRight s = false) (t : State) :
    onCond cond s (.next (if s.p14Open then t else takeUndefined s)) = .next (takeUndefined s) := by
  rw [onCond_pass hc, p14Open_eq, hclosed, if_neg (by decide)]

/-- What an MRC that has the right leaves, in whatever state it receives the value. -/
theorem receive_gives (s : State) (rt : BitVec 4) (v : Word) : ReadGives s rt true v (.next (s.receive rt v).advance) := by
  refine ⟨fun _ => ?_, nofun⟩
  rw [State.receive]
  split
  case isTrue => rw [State.setNZCV_eq, State.advance_eq]; rfl
  case isFalse hrt => rw [setReg_wrote hrt]

theorem exec_mrcDscr_open (hc : condPassed cond s = true) (hopen : debugRight s = true) :
    ReadGives s.drawn rt true (dscrByCp14 s) (exec (.mrcDscr cond rt) s) := by
  rw [show exec (.mrcDscr cond rt) s = _ from onCond_p14Open hc hopen _]
  exact receive_gives _ rt _

/-- The free bits of DSCR are the latched flags and the unused ones; everywhere else it reads as its view (R1558). -/
theorem dscrByCp14_getLsbD (s : State) {i : Nat} (hi : (0x0DC00200 : Word).getLsbD i = false) :
    (dscrByCp14 s).getLsbD i = (dscrView s).getLsbD i := by
  rw [dscrByCp14, BitVec.getLsbD_or, BitVec.getLsbD_and, hi, Bool.and_false, Bool.or_false]

/-- The flags that DSCR gives: bits 31 and 28 read as zero, the two others as stored (R1559). -/
theorem dscrView_flags (s : State) : (dscrView s).getLsbD 31 = false ∧ (dscrView s).getLsbD 30 = s.dbg.dscr.getLsbD 30 ∧
    (dscrView s).getLsbD 29 = s.dbg.dscr.getLsbD 29 ∧ (dscrView s).getLsbD 28 = false := by
  obtain ⟨hstored, _, _, _, _, h28, h31⟩ := dscrByCp14_bits s
  have hview {i : Nat} {b : Bool} (hi : (0x0DC00200 : Word).getLsbD i = false) (h : (dscrByCp14 s).getLsbD i = b) :
      (dscrView s).getLsbD i = b := (dscrByCp14_getLsbD s hi).symm.trans h
  exact ⟨hview (by decide) h31, hview (by decide) (hstored 30 (by decide)), hview (by decide) (hstored 29 (by decide)),
    hview (by decide) h28⟩

theorem exec_mrcDscrFlags_open (hc : condPassed cond s = true) (hopen : debugRight s = true) :
    exec (.mrcDscrFlags cond) s = .next { skipped s with
      cpsr := flagged s.cpsr false (s.dbg.dscr.getLsbD 30) (s.dbg.dscr.getLsbD 29) false } := by
  obtain ⟨h31, h30, h29, h28⟩ := dscrView_flags s
  obtain ⟨hreads, _⟩ := readSys_gives (rt := 15) hc (debugRight s) (dscrView s)
  have hexec := hreads hopen
  rw [if_pos rfl, h31, h30, h29, h28] at hexec
  exact hexec

theorem exec_mrcDtr_open (hc : condPassed cond s = true) (hopen : debugRight s = true) :
    ReadGives s.drawn.dtrTaken rt true (dtrRead s) (exec (.mrcDtr cond rt) s) := by
  rw [show exec (.mrcDtr cond rt) s = _ from onCond_p14Open hc hopen _]
  exact receive_gives _ rt _

theorem exec_mcrDtr_gives (hc : condPassed cond s = true) :
    WriteGives s rt (debugRight s) s.dtrGiven (exec (.mcrDtr cond rt) s) :=
  writeSys_gives hc _ _ _ fun v => (advance_dtrGiven s v).symm

end

/-! ## The DTR in memory -/

/-- The base of LDC and STC moved by its offset. -/
def dtrMoved (u : BitVec 1) (rn : BitVec 4) (imm8 : BitVec 8) (s : State) : Word :=
  plusMinus u (s.reg rn) ((imm8 ++ 0#2).setWidth 32)

/-- The registers after the write-back of LDC and STC. -/
def dtrRegs (u w : BitVec 1) (rn : BitVec 4) (imm8 : BitVec 8) (s : State) : Vector Word 32 :=
  if w = 1 then withReg s rn (dtrMoved u rn imm8 s) else s.gpr

section

variable {cond rt rn : BitVec 4} {p u w : BitVec 1} {imm8 : BitVec 8} {s : State}

/-- The write-back in any state that has the registers, the mode and the pc of `s`. -/
theorem dtrBack_eq (hback : ¬ (w = 1 ∧ rn = 15)) {t : State} (hg : t.gpr = s.gpr) (hc : t.cpsr = s.cpsr) (hp : t.pc = s.pc) :
    dtrBack u w rn imm8 t = { t with gpr := dtrRegs u w rn imm8 s } := by
  have hmode : t.mode = s.mode := State.mode_congr hc
  have hreg : t.reg rn = s.reg rn := by simp only [State.reg, State.regOf, hg, hmode, hp]
  unfold dtrBack dtrRegs
  split
  case isTrue hw =>
    rw [State.setReg_of_ne _ _ _ fun h15 => hback ⟨hw, h15⟩, hreg]
    simp only [withReg, dtrMoved, hg, hmode]
  case isFalse => rw [← hg]

theorem withDtr_open (hc : condPassed cond s = true) (hopen : debugRight s = true) (hback : ¬ (w = 1 ∧ rn = 15))
    (effect : Host.Outcome State Fault Refusal) : withDtr cond w rn s effect = effect := by
  rw [withDtr, onCond_pass hc, p14Open_eq, hopen, if_neg (by decide), if_neg hback]

theorem withDtr_stops (hc : condPassed cond s = true) (hopen : debugRight s = true) (hback : w = 1 ∧ rn = 15)
    (effect : Host.Outcome State Fault Refusal) : withDtr cond w rn s effect = .fault .operands := by
  rw [withDtr, onCond_pass hc, p14Open_eq, hopen, if_neg (by decide), if_pos hback]

theorem withDtr_closed (hc : condPassed cond s = true) (hclosed : debugRight s = false)
    (effect : Host.Outcome State Fault Refusal) : withDtr cond w rn s effect = .next (takeUndefined s) := by
  rw [withDtr, onCond_pass hc, p14Open_eq, hclosed, if_pos (by decide)]

theorem exec_ldcDtr_direct (h : Direct s) (hc : condPassed cond s = true) (hopen : debugRight s = true)
    (hback : ¬ (w = 1 ∧ rn = 15)) (ha : (dtrAddress p u rn imm8 s).toNat % 4 = 0) :
    exec (.ldcDtr cond p u w rn imm8) s = .next { s.dtrGiven (loadAt s (dtrAddress p u rn imm8 s) 4) with
      gpr := dtrRegs u w rn imm8 s, late := arrivedLate s, pc := nextPc s, happened := seen s 0x06 } := by
  have hread := readData_direct h (alignedReq 4 s.privileged false) (.inr (.inr (.inl rfl))) ha ha
  refine (withDtr_open hc hopen hback _).trans ?_
  rw [hread]
  show Host.Outcome.next (State.advance (State.dtrGiven (dtrBack u w rn imm8 _) _)) = _
  rw [dtrBack_eq (s := s) hback (by rfl) (by rfl) (by rfl), advance_dtrGiven]
  rfl

theorem exec_stcDtr_direct (h : Direct s) (hc : condPassed cond s = true) (hopen : debugRight s = true)
    (hback : ¬ (w = 1 ∧ rn = 15)) (ha : (dtrAddress p u rn imm8 s).toNat % 4 = 0) (hm : Memory.wf s.mem = true) :
    ∃ m late, Stored s (dtrAddress p u rn imm8 s) 4 (dtrRead s) m ∧ Arrived late ∧
      exec (.stcDtr cond p u w rn imm8) s = .next { s.drawn.dtrTaken with
        gpr := dtrRegs u w rn imm8 s, mem := m, late := late, pc := nextPc s, happened := seen s 0x07 } := by
  have hdrawn : Direct s.drawn := direct_congr h rfl rfl rfl rfl rfl
  obtain ⟨late, hlate, hwrite⟩ :=
    writeData_direct hdrawn (alignedReq 4 s.privileged true) (dtrRead s) (.inr (.inr (.inl rfl))) ha ha
  refine ⟨_, late, storeList_stored hm _ (by decide) _, hlate, (withDtr_open hc hopen hback _).trans ?_⟩
  rw [hwrite]
  show Host.Outcome.next (State.advance (State.dtrTaken (dtrBack u w rn imm8 _))) = _
  rw [dtrBack_eq (s := s) hback (by rfl) (by rfl) (by rfl), advance_dtrTaken]
  rfl

/-! ## Without the right -/

theorem exec_debugRegister_closed (hc : condPassed cond s = true) (hclosed : debugRight s = false) :
    ∀ i ∈ [Instr.mrcDscr cond rt, .mrcDscrFlags cond, .mrcDtr cond rt, .mcrDtr cond rt, .ldcDtr cond p u w rn imm8,
      .stcDtr cond p u w rn imm8], TakesUndefined s (exec i s) := by
  have hreceive (t : State) :
      TakesUndefined s (onCond cond s (.next (if s.p14Open then t else takeUndefined s))) := by
    rw [onCond_p14Closed hc hclosed]
    exact takesUndefined_next s
  have hdtr (effect : Host.Outcome State Fault Refusal) : TakesUndefined s (withDtr cond w rn s effect) := by
    rw [withDtr_closed hc hclosed]
    exact takesUndefined_next s
  simp only [List.forall_mem_cons]
  refine ⟨?mrcDscr, ?mrcDscrFlags, ?mrcDtr, ?mcrDtr, ?ldcDtr, ?stcDtr, List.forall_mem_nil _⟩
  case mrcDscr | mrcDscrFlags | mrcDtr => exact hreceive _
  case mcrDtr =>
    obtain ⟨_, _, hundefined⟩ := exec_mcrDtr_gives (rt := rt) hc
    exact hundefined hclosed
  case ldcDtr | stcDtr => exact hdtr _

end

/-- Settles O46: with the right, instruction by instruction (the stop is log 7); without it all are Undefined. -/
theorem debugRegisters : Obligations.DebugRegisters := by
  intro cond rt rn p u w imm8 s hc drawn d received taken given offset moved va regs
  have htaken : s.drawn.dtrTaken = { drawn with dbg := taken } := (taken_eq s.drawn).symm
  have hgiven (v : Word) : s.dtrGiven v = { s with dbg := given v } := (given_eq s v).symm
  refine ⟨fun hopen => ⟨⟨dscrByCp14 s, exec_mrcDscr_open hc hopen, dscrByCp14_bits s⟩, exec_mrcDscrFlags_open hc hopen,
    ?mrcDtr, ?mcrDtr, fun hback => ⟨withDtr_stops hc hopen hback _, withDtr_stops hc hopen hback _⟩,
    fun hback h ha => ⟨?ldcDtr, fun hm => ?stcDtr⟩⟩, exec_debugRegister_closed hc⟩
  case mrcDtr => rw [← htaken]; exact exec_mrcDtr_open hc hopen
  case mcrDtr =>
    rw [← funext hgiven, ← hopen]
    exact exec_mcrDtr_gives hc
  case ldcDtr =>
    rw [exec_ldcDtr_direct h hc hopen hback ha, hgiven]
    rfl
  case stcDtr =>
    obtain ⟨m, late, hstored, hlate, hexec⟩ := exec_stcDtr_direct h hc hopen hback ha hm
    refine ⟨m, late, hstored, hlate, ?_⟩
    rw [hexec, htaken]
    rfl

end Sys2Proof.Machine

end
end

section
/-! What User mode and the Nonsecure state cannot do (O52, O53; 61_security_privilege.md R2000; 10_state.md R53). -/

namespace Sys2Proof.Machine

/-- Settles O52: the clause `user` of what every instruction keeps (`sound_exec`). -/
theorem userModeEscape : Obligations.UserModeEscape :=
  fun i s t husr hrun ht => (sound_exec i s t ht).user husr hrun

/-- Settles O53: the clause `only` of what every instruction keeps (`sound_exec`). -/
theorem nonsecureIsolation : Obligations.NonsecureIsolation :=
  fun i s t hns hrun ht htns => (sound_exec i s t ht).only hns hrun htns

end Sys2Proof.Machine

end

section
/-! Data processing (O1 to O8; 42_data_processing.md): what each form executes as, and what it gives for a destination below
r15 and for r15. -/

noncomputable section

namespace Sys2Proof.Machine

open Safety

/-! ## The forms -/

/-- The state in which an operation by a shifted register has its effect: MOV pc,lr is noted as a procedure return (log 21). -/
def returnNoted (op : AluOp) (sf : BitVec 1) (rd : BitVec 4) (imm5 : BitVec 5) (typ : BitVec 2) (rm : BitVec 4)
    (s : State) : State :=
  if op = .mov then noteMovReturn sf rd imm5 typ rm s else s

/-- The registers that an operation shifted by a register reads; MOV and MVN have no first operand. -/
def rsrReads (op : AluOp) (rn rs rm : BitVec 4) : List (BitVec 4) :=
  if op = .mov ∨ op = .mvn then [rs, rm] else [rn, rs, rm]

section

variable {cond rn rd rs rm : BitVec 4} {sf : BitVec 1} {typ : BitVec 2} {imm5 : BitVec 5} {imm12 : BitVec 12} {s : State}

theorem exec_dataImm (hc : condPassed cond s = true) : ∀ f ∈ dataImm,
    exec (f.2 cond sf rn rd imm12) s = aluWrite sf rd (aluResult f.1 (s.reg rn) (opImm imm12 s) s) s := by
  simp only [dataImm, List.forall_mem_cons]
  refine ⟨?and, ?eor, ?sub, ?rsb, ?add, ?adc, ?sbc, ?rsc, ?orr, ?bic, ?mov, ?mvn, List.forall_mem_nil _⟩
  all_goals exact onCond_pass hc _

theorem exec_dataReg (hc : condPassed cond s = true) : ∀ f ∈ dataReg,
    exec (f.2 cond sf rn rd imm5 typ rm) s =
      aluWrite sf rd (aluResult f.1 (s.reg rn) (opReg imm5 typ rm s) (returnNoted f.1 sf rd imm5 typ rm s))
        (returnNoted f.1 sf rd imm5 typ rm s) := by
  simp only [dataReg, List.forall_mem_cons]
  refine ⟨?and, ?eor, ?sub, ?rsb, ?add, ?adc, ?sbc, ?rsc, ?orr, ?bic, ?mov, ?mvn, List.forall_mem_nil _⟩
  all_goals exact onCond_pass hc _

theorem exec_dataRsr (hc : condPassed cond s = true) : ∀ f ∈ dataRsr,
    exec (f.2 cond sf rn rd rs typ rm) s =
      unlessPC (rsrReads f.1 rn rs rm) (aluWrite sf rd (aluResult f.1 (s.reg rn) (opRsr rs typ rm s) s) s) := by
  simp only [dataRsr, List.forall_mem_cons]
  refine ⟨?and, ?eor, ?sub, ?rsb, ?add, ?adc, ?sbc, ?rsc, ?orr, ?bic, ?mov, ?mvn, List.forall_mem_nil _⟩
  all_goals exact onCond_pass hc _

theorem returnNoted_of_ne {op : AluOp} (h : rd ≠ 15) : returnNoted op sf rd imm5 typ rm s = s := by
  rw [returnNoted, noteMovReturn_ne _ _ _ _ _ _ h, ite_self]

theorem rsrReads_safe {op : AluOp} (hn : rn ≠ 15) (hs : rs ≠ 15) (hm : rm ≠ 15) : 15 ∉ rsrReads op rn rs rm := by
  unfold rsrReads
  split
  · exact not_mem_two hs hm
  · exact not_mem_three hn hs hm

theorem mem_rsrReads {op : AluOp} (h : rs = 15 ∨ rm = 15 ∨ rn = 15 ∧ op ≠ .mov ∧ op ≠ .mvn) : 15 ∈ rsrReads op rn rs rm := by
  unfold rsrReads
  rcases h with rfl | rfl | ⟨rfl, hmov, hmvn⟩
  · split <;> simp
  · split <;> simp
  · rw [if_neg (not_or.2 ⟨hmov, hmvn⟩)]; exact List.mem_cons_self

end

/-! ## A destination below r15 -/

/-- Settles O1. -/
theorem dataProcessingImmediate : Obligations.DataProcessingImmediate := by
  intro f hf cond sf rn rd imm12 s hrd hc
  rw [exec_dataImm hc f hf, aluWrite_eq _ _ _ _ _ _ hrd]

/-- Settles O2. -/
theorem dataProcessingShiftedImmediate : Obligations.DataProcessingShiftedImmediate := by
  intro f hf cond sf rn rd imm5 typ rm s hrd hc
  rw [exec_dataReg hc f hf, returnNoted_of_ne hrd, aluWrite_eq _ _ _ _ _ _ hrd]

/-- Settles O3: no register read is r15, or one of them is. -/
theorem dataProcessingShiftedRegister : Obligations.DataProcessingShiftedRegister := by
  intro f hf cond sf rn rd rs typ rm s hc
  rw [exec_dataRsr hc f hf]
  refine ⟨fun hrd hn hs hm => ?below, fun h => ?pc⟩
  case below => rw [unlessPC_ok (rsrReads_safe hn hs hm), aluWrite_eq _ _ _ _ _ _ hrd]
  case pc => exact unlessPC_bad (mem_rsrReads h) _

/-! ## The comparisons -/

section

variable {cond rn : BitVec 4} {s : State}

theorem exec_testImm (hc : condPassed cond s = true) (imm12 : BitVec 12) : ∀ f ∈ testImm,
    exec (f.2 cond rn imm12) s = aluTest (aluResult f.1 (s.reg rn) (opImm imm12 s) s) s := by
  simp only [testImm, List.forall_mem_cons]
  refine ⟨?tst, ?teq, ?cmp, ?cmn, List.forall_mem_nil _⟩
  all_goals exact onCond_pass hc _

theorem exec_testReg (hc : condPassed cond s = true) (imm5 : BitVec 5) (typ : BitVec 2) (rm : BitVec 4) : ∀ f ∈ testReg,
    exec (f.2 cond rn imm5 typ rm) s = aluTest (aluResult f.1 (s.reg rn) (opReg imm5 typ rm s) s) s := by
  simp only [testReg, List.forall_mem_cons]
  refine ⟨?tst, ?teq, ?cmp, ?cmn, List.forall_mem_nil _⟩
  all_goals exact onCond_pass hc _

theorem exec_testRsr (hc : condPassed cond s = true) (rs : BitVec 4) (typ : BitVec 2) (rm : BitVec 4) : ∀ f ∈ testRsr,
    exec (f.2 cond rn rs typ rm) s =
      unlessPC [rn, rs, rm] (aluTest (aluResult f.1 (s.reg rn) (opRsr rs typ rm s) s) s) := by
  simp only [testRsr, List.forall_mem_cons]
  refine ⟨?tst, ?teq, ?cmp, ?cmn, List.forall_mem_nil _⟩
  all_goals exact onCond_pass hc _

end

/-- Settles O4. -/
theorem comparisons : Obligations.Comparisons := by
  intro cond rn s hc
  refine ⟨fun f hf imm12 => ?imm, fun f hf imm5 typ rm => ?reg, fun f hf rs typ rm => ?rsr⟩
  case imm => rw [exec_testImm hc imm12 f hf, aluTest_eq]
  case reg => rw [exec_testReg hc imm5 typ rm f hf, aluTest_eq]
  case rsr =>
    rw [exec_testRsr hc rs typ rm f hf, aluTest_eq]
    split
    case isTrue h => exact unlessPC_bad (by simpa [eq_comm] using h) _
    case isFalse h =>
      rw [not_or, not_or] at h
      obtain ⟨hn, hs, hm⟩ := h
      exact unlessPC_ok (not_mem_three hn hs hm) _

/-! ## The shifter operand -/

theorem immShiftC_of_ne {imm5 : BitVec 5} (h : imm5 ≠ 0) (x : Word) (typ : BitVec 2) (c : Bool) :
    immShiftC x typ imm5 c = shiftC x typ imm5.toNat c := if_neg h

/-- The immediate form is a rotation by an even amount (30_encoding.md R1358). -/
theorem expandImmC_eq (imm12 : BitVec 12) (c : Bool) :
    expandImmC imm12 c = shiftC ((imm12.extractLsb' 0 8).setWidth 32) 3 (2 * (imm12.extractLsb' 8 4).toNat) c := by
  unfold expandImmC shiftC
  split
  case isTrue h => simp only [h, BitVec.rotateRight_def]; simp
  case isFalse h => simp only [if_neg h]; rfl

/-- Settles O5: every form is the shift by its amount (`shiftC_ok`), where imm5 = 0 stands for LSL by 0, LSR and ASR by 32, and
RRX. -/
theorem shifterOperands : Obligations.ShifterOperands := by
  intro s rm rs typ imm5 imm12
  refine ⟨?rsr, fun h => ?reg, rfl, ?lsr32, ?asr32, rfl, ?imm⟩
  case rsr =>
    have hamount : ((s.reg rs).extractLsb' 0 8).toNat = (s.reg rs).toNat % 256 := by
      rw [BitVec.extractLsb'_toNat, Nat.shiftRight_zero]
    rw [opRsr, hamount]
    exact shiftC_ok _ _ _ _
  case reg => rw [opReg, immShiftC_of_ne h]; exact shiftC_ok _ _ _ _
  case lsr32 => exact shiftC_ok (s.reg rm) 1 32 s.flagC
  case asr32 => exact shiftC_ok (s.reg rm) 2 32 s.flagC
  case imm => rw [opImm, expandImmC_eq]; exact shiftC_ok _ _ _ _

/-! ## The second names -/

section

variable {cond rd rm : BitVec 4} {sf : BitVec 1} {s : State}

/-- A shift by a constant is MOV; only MOV by LSL #0, which no shift instruction is, can be noted as a procedure return. -/
theorem noteMovReturn_of_shift {typ : BitVec 2} {imm5 : BitVec 5} (h : typ = 0 → imm5 ≠ 0) :
    noteMovReturn sf rd imm5 typ rm s = s :=
  noteMovReturn_of _ _ _ _ _ _ fun ⟨_, _, himm, htyp, _⟩ => h htyp himm

theorem exec_shiftImm (imm5 : BitVec 5) : ∀ f ∈ shiftImm,
    exec (f.2 cond sf rd imm5 rm) s = onCond cond s (moveOp .mov sf rd (opReg imm5 f.1 rm s) s) := by
  simp only [shiftImm, List.forall_mem_cons]
  refine ⟨?lsl, ?lsr, ?asr, ?ror, List.forall_mem_nil _⟩
  all_goals rfl

theorem exec_shiftRsr (rs : BitVec 4) : ∀ f ∈ shiftRsr,
    exec (f.2 cond sf rd rs rm) s = exec (.movRsr cond sf rd rs f.1 rm) s := by
  simp only [shiftRsr, List.forall_mem_cons]
  refine ⟨?lsl, ?lsr, ?asr, ?ror, List.forall_mem_nil _⟩
  all_goals rfl

theorem exec_movReg_of_shift {typ : BitVec 2} {imm5 : BitVec 5} (h : typ = 0 → imm5 ≠ 0) :
    exec (.movReg cond sf rd imm5 typ rm) s = onCond cond s (moveOp .mov sf rd (opReg imm5 typ rm s) s) := by
  show onCond cond s (moveOp .mov sf rd _ (noteMovReturn sf rd imm5 typ rm s)) = _
  rw [noteMovReturn_of_shift h]

theorem moveOp_mov (hrd : rd ≠ 15) (o : Word × Bool) : moveOp .mov sf rd o s = .next (aluDone .mov sf 0 o rd s) :=
  aluWrite_eq _ _ _ _ _ _ hrd

/-- Without the flags a result is only written. -/
theorem aluDone_flagless (op : AluOp) (x : Word) (o : Word × Bool) :
    aluDone op 0 x o rd s = wrote s rd (resultOf op x o.1 s.flagC) := rfl

theorem resultOf_add (x y : Word) (c : Bool) : resultOf .add x y c = x + y := by
  show BitVec.ofInt 32 (x.toInt + y.toInt) = _
  rw [BitVec.ofInt_add, BitVec.ofInt_toInt, BitVec.ofInt_toInt]

theorem resultOf_sub (x y : Word) (c : Bool) : resultOf .sub x y c = x - y := by
  show BitVec.ofInt 32 (x.toInt - y.toInt) = _
  rw [Int.sub_eq_add_neg, BitVec.ofInt_add, BitVec.ofInt_neg, BitVec.ofInt_toInt, BitVec.ofInt_toInt, BitVec.sub_eq_add_neg]

end

/-- Settles O6: each row is the MOV, ADD or SUB that it is another name of, and so writes what that writes. -/
theorem shiftAliases : Obligations.ShiftAliases := by
  intro cond sf rd rm s
  refine ⟨fun f hf imm5 h => ?shiftImm, fun f hf rs => exec_shiftRsr rs f hf, ?rrx, fun imm12 => ⟨rfl, rfl⟩,
    fun hrd hc => ⟨fun f hf imm5 => ?shiftImmDone, fun f hf rs => ?shiftRsrDone, ?rrxDone, fun imm12 => ⟨?adrAdd, ?adrSub⟩⟩⟩
  case shiftImm => rw [exec_shiftImm imm5 f hf, exec_movReg_of_shift h]
  case rrx => exact (exec_movReg_of_shift (by decide)).symm
  case shiftImmDone => rw [exec_shiftImm imm5 f hf, onCond_pass hc, moveOp_mov hrd]
  case shiftRsrDone =>
    rw [exec_shiftRsr rs f hf]
    show onCond cond s (unlessPC [rs, rm] (moveOp .mov sf rd (opRsr rs f.1 rm s) s)) = _
    rw [onCond_pass hc, moveOp_mov hrd]
    split
    case isTrue h => exact unlessPC_bad (by simpa [eq_comm] using h) _
    case isFalse h =>
      obtain ⟨hs, hm⟩ := not_or.1 h
      exact unlessPC_ok (not_mem_two hs hm) _
  case rrxDone => exact (onCond_pass hc _).trans (moveOp_mov hrd _)
  case adrAdd =>
    refine (onCond_pass hc _).trans ((aluWrite_eq .add 0 rd _ _ s hrd).trans ?_)
    rw [aluDone_flagless, resultOf_add, State.reg_pc]
  case adrSub =>
    refine (onCond_pass hc _).trans ((aluWrite_eq .sub 0 rd _ _ s hrd).trans ?_)
    rw [aluDone_flagless, resultOf_sub, State.reg_pc]

/-! ## r15 as the destination -/

section

variable {s : State}

/-- Without S the result is the target of an interworking branch (R1640). -/
theorem aluWrite_pc (hrun : s.halted = false) (op : AluOp) (x : Word) (o : Word × Bool) :
    aluWrite 0 15 (aluResult op x o s) s = interworked s (resultOf op x o.1 s.flagC) := by
  rw [aluResult_eq, aluWrite, if_pos rfl, if_neg (by decide), aluWritePC, hrun, if_neg (by decide), bxTo_eq]

/-- With S it is the address an exception return goes to (R1645). -/
theorem aluWrite_pc_returns (hrun : s.halted = false) {p : Word} (hp : s.spsr? = some p) (hr : Restorable p) (op : AluOp)
    (x : Word) (o : Word × Bool) :
    ∃ t, aluWrite 1 15 (aluResult op x o s) s = .next t ∧ Returned s t p (resultOf op x o.1 s.flagC) := by
  rw [aluResult_eq, aluWrite, if_pos rfl, if_pos rfl, aluReturn, hp]
  exact exceptionReturn_spec s p _ hrun hr

theorem aluWrite_pc_no_spsr (hp : s.spsr? = none) (res : Word × Bool × Bool) : aluWrite 1 15 res s = .fault .operands := by
  rw [aluWrite, if_pos rfl, if_pos rfl, aluReturn, hp]

theorem returnNoted_flags {op : AluOp} {imm5 : BitVec 5} {typ : BitVec 2} {rm : BitVec 4} :
    returnNoted op 1 15 imm5 typ rm s = s := by
  rw [returnNoted, noteMovReturn_of _ _ _ _ _ _ fun h => absurd h.1 (by decide), ite_self]

theorem returnNoted_of_not {op : AluOp} {imm5 : BitVec 5} {typ : BitVec 2} {rm : BitVec 4}
    (h : ¬ (op = .mov ∧ imm5 = 0 ∧ typ = 0 ∧ rm = 14)) : returnNoted op 0 15 imm5 typ rm s = s := by
  unfold returnNoted
  split
  case isTrue hop => exact noteMovReturn_of _ _ _ _ _ _ fun ⟨_, _, hlr⟩ => h ⟨hop, hlr⟩
  case isFalse => rfl

end

/-- Settles O7: in each form, S = 0 branches and S = 1 returns; MOV pc,lr is noted first. -/
theorem dataProcessingToPc : Obligations.DataProcessingToPc := by
  intro cond rn rs rm typ imm5 imm12 s hc hrun
  refine ⟨fun f hf => ⟨?imm, fun p hp hr => ?immS⟩, fun f hf => ⟨fun h => ?reg, fun p hp hr => ?regS⟩,
    fun f hf hn hs hm => ⟨?rsr, fun p hp hr => ?rsrS⟩, ?movLr, fun hp f hf => ?noSpsr⟩
  case imm => rw [exec_dataImm hc f hf]; exact aluWrite_pc hrun _ _ _
  case immS => rw [exec_dataImm hc f hf]; exact aluWrite_pc_returns hrun hp hr _ _ _
  case reg => rw [exec_dataReg hc f hf, returnNoted_of_not h]; exact aluWrite_pc hrun _ _ _
  case regS => rw [exec_dataReg hc f hf, returnNoted_flags]; exact aluWrite_pc_returns hrun hp hr _ _ _
  case rsr =>
    rw [exec_dataRsr hc f hf, unlessPC_ok (rsrReads_safe hn hs hm)]; exact aluWrite_pc hrun _ _ _
  case rsrS =>
    rw [exec_dataRsr hc f hf, unlessPC_ok (rsrReads_safe hn hs hm)]; exact aluWrite_pc_returns hrun hp hr _ _ _
  case movLr => exact (onCond_pass hc _).trans (aluWrite_pc (s := s.note 0x0E) hrun .mov 0 (opReg 0 0 14 s))
  case noSpsr => rw [exec_dataImm hc f hf]; exact aluWrite_pc_no_spsr hp _

/-! ## MOVW, MOVT and CLZ -/

/-- Settles O8: `leadingZeros` counts as R1634 says (`leadingZeros_spec`). -/
theorem moveWideAndCount : Obligations.MoveWideAndCount := by
  intro cond rd rm imm4 imm12 s hc
  refine ⟨fun hrd => ⟨?movw, ?movt, fun hrm => ?clz⟩, fun h => ?clzPc, ?movwPc, ?movtPc⟩
  case movw | movt =>
    refine (onCond_pass hc _).trans ((unlessPC_ok (not_mem_one hrd) _).trans ?_)
    rw [wrote_ok _ _ _ hrd]
  case clz =>
    obtain ⟨hle, hzeros, hone⟩ := leadingZeros_spec 32 (s.reg rm)
    refine ⟨leadingZeros 32 (s.reg rm), ?_, hle, hzeros, hone⟩
    refine (onCond_pass hc _).trans ((unlessPC_ok (not_mem_two hrd hrm) _).trans ?_)
    rw [wrote_ok _ _ _ hrd]
  case clzPc => exact (onCond_pass hc _).trans (unlessPC_bad (by simpa [eq_comm] using h) _)
  case movwPc | movtPc => exact (onCond_pass hc _).trans (unlessPC_bad List.mem_cons_self _)

end Sys2Proof.Machine

end
end

section
/-! Branches (O18; 45_branch_system.md R1760 to R1766). -/

noncomputable section

namespace Sys2Proof.Machine

open Safety

/-- The low bits of an offset in words. -/
theorem wordOffset_eq (imm24 : BitVec 24) : (imm24 ++ (0 : BitVec 1) ++ 0#1 : BitVec 26) = imm24 ++ 0#2 := by
  apply BitVec.eq_of_getLsbD_eq
  intro i hi
  simp only [BitVec.getLsbD_append]
  by_cases h0 : i < 1
  · simp [h0, show i < 2 by omega]
  · by_cases h1 : i < 2
    · simp [h0, h1, show i - 1 < 1 by omega]
    · simp [h0, h1, show ¬ i - 1 < 1 by omega, show i - 1 - 1 = i - 2 by omega]

theorem branchTarget_word (imm24 : BitVec 24) (s : State) :
    branchTarget imm24 0 s = s.pc + 8 + (imm24 ++ 0#2).signExtend 32 := by
  rw [branchTarget, wordOffset_eq]

theorem link_eq (s : State) : s.link = { s with gpr := withReg s 14 (s.pc + 4) } :=
  State.setReg_of_ne _ _ _ (by decide)

theorem unlessPC_one (rm : BitVec 4) (effect : Host.Outcome State Fault Refusal) :
    unlessPC [rm] effect = if rm = 15 then .fault .operands else effect := by
  split
  case isTrue h => exact unlessPC_bad (by simp [h]) _
  case isFalse h => exact unlessPC_ok (not_mem_one h) _

/-- Settles O18. -/
theorem branches : Obligations.Branches := by
  intro cond rm imm24 h s hc hrun s1 linked
  refine ⟨?b, ?bl, ?blx, ?bx, ?bxj, ?blxReg⟩
  case b =>
    refine (onCond_pass (s := s.note 0x0D) hc _).trans ?_
    rw [branchTarget_word]; rfl
  case bl =>
    refine (onCond_pass (s := s.note 0x0D) hc _).trans ?_
    rw [branchTarget_word, link_eq]; rfl
  case blx =>
    have hlink : exec (.blxImm h imm24) s = .next { ((s.note 0x0D).note 0x0C).link with
        pc := branchTarget imm24 h s, cpsr := setBit s.cpsr 5 true } := rfl
    rw [hlink, link_eq, setBit_T]
    rfl
  case bx => exact (onCond_pass hc _).trans (bxTo_eq _ _)
  case bxj =>
    have hbx : exec (.bx cond rm) s = bxTo (noteReturn rm s) (s.reg rm) := onCond_pass hc _
    rw [hbx, ← unlessPC_one]
    exact onCond_pass hc _
  case blxReg =>
    rw [← unlessPC_one, ← bxTo_eq]
    exact (onCond_pass hc _).trans (by rw [link_eq])

end Sys2Proof.Machine

end
end

section
/-! The multiplies (O9 to O12; 43_multiply.md R1661 to R1683): their words, and what each row executes as. -/

noncomputable section

namespace Sys2Proof.Machine

open Safety

/-! ## Words -/

theorem put_append {m n : Nat} (x : BitVec m) (y : BitVec n) (lo : Nat) :
    put (x ++ y) lo = put x (lo + n) ||| put y lo := by
  apply BitVec.eq_of_getLsbD_eq
  intro i hi
  simp only [BitVec.getLsbD_or, getLsbD_put, BitVec.getLsbD_append, hi, decide_true, Bool.true_and]
  by_cases hlo : lo ≤ i
  · by_cases hn : i - lo < n
    · simp [hlo, hn, show ¬ lo + n ≤ i by omega]
    · simp [hlo, hn, show lo + n ≤ i by omega, show i - lo - n = i - (lo + n) by omega,
        BitVec.getLsbD_of_ge y (i - lo) (by omega)]
  · simp [hlo, show ¬ lo + n ≤ i by omega]

theorem put_word (w : Word) : put w 0 = w := by
  rw [put, BitVec.setWidth_eq, BitVec.shiftLeft_zero]

/-- The fixed bits of a word, before the fields. -/
theorem or_kind_first8 (cond op sf d a m k n : Word) : cond ||| op ||| sf ||| d ||| a ||| m ||| k ||| n =
    (op ||| k) ||| cond ||| sf ||| d ||| a ||| m ||| n := by
  ac_rfl

/-- The fixed bits of a word with no bit S, before the fields. -/
theorem or_kind_first7 (cond op d a m k n : Word) : cond ||| op ||| d ||| a ||| m ||| k ||| n =
    (op ||| k) ||| cond ||| d ||| a ||| m ||| n := by
  ac_rfl

/-- A field that is constant belongs to the fixed bits. -/
theorem or_constant_first (cond op d a m k n : Word) : (op ||| k) ||| cond ||| d ||| a ||| m ||| n =
    (op ||| a ||| k) ||| cond ||| d ||| m ||| n := by
  ac_rfl

/-- The word of a multiply with the bit S: the fixed bits, then the operand fields at their places. -/
theorem flagsWord_eq (cond : BitVec 4) (op : BitVec 7) (sf : BitVec 1) (d a m n : BitVec 4) :
    (cond ++ op ++ sf ++ d ++ a ++ m ++ 0b1001#4 ++ n : Word) =
      (put op 21 ||| put 0b1001#4 4) ||| put cond 28 ||| put sf 20 ||| put d 16 ||| put a 12 ||| put m 8 ||| put n 0 := by
  rw [← put_word (cond ++ op ++ sf ++ d ++ a ++ m ++ 0b1001#4 ++ n), put_append (m := 28) (n := 4), put_append (m := 24) (n := 4),
    put_append (m := 20) (n := 4), put_append (m := 16) (n := 4), put_append (m := 12) (n := 4), put_append (m := 11) (n := 1),
    put_append (m := 4) (n := 7)]
  show put cond 28 ||| put op 21 ||| put sf 20 ||| put d 16 ||| put a 12 ||| put m 8 ||| put 0b1001#4 4 ||| put n 0 = _
  exact or_kind_first8 _ _ _ _ _ _ _ _

/-- The word of a multiply with an eight-bit operation code and the kind `k`. -/
theorem kindWord_eq (cond : BitVec 4) (op : BitVec 8) (d a m k n : BitVec 4) :
    (cond ++ op ++ d ++ a ++ m ++ k ++ n : Word) =
      (put op 20 ||| put k 4) ||| put cond 28 ||| put d 16 ||| put a 12 ||| put m 8 ||| put n 0 := by
  rw [← put_word (cond ++ op ++ d ++ a ++ m ++ k ++ n), put_append (m := 28) (n := 4), put_append (m := 24) (n := 4),
    put_append (m := 20) (n := 4), put_append (m := 16) (n := 4), put_append (m := 12) (n := 4), put_append (m := 4) (n := 8)]
  show put cond 28 ||| put op 20 ||| put d 16 ||| put a 12 ||| put m 8 ||| put k 4 ||| put n 0 = _
  exact or_kind_first7 _ _ _ _ _ _ _

/-! ## The rows -/

section

variable {cond rd ra rm rn : BitVec 4} {sf : BitVec 1} {s : State}

theorem exec_mulPlain (hc : condPassed cond s = true) : ∀ f ∈ mulPlain,
    exec (f.2 cond rd rm rn) s = unlessPC [rd, rm, rn] (.next (mulWrite rd (f.1 (s.reg rn) (s.reg rm)) s).advance) := by
  obtain ⟨hlow, hhigh⟩ := dual_halves rm s
  simp only [mulPlain, List.forall_mem_cons]
  refine ⟨?smulbb, ?smulbt, ?smultb, ?smultt, ?smulwb, ?smulwt, ?smusd, ?smusdx, ?smmul, ?smmulr, List.forall_mem_nil _⟩
  case smusdx => rw [← hlow, ← hhigh]; exact onCond_pass hc _
  all_goals exact onCond_pass hc _

theorem exec_mulAcc (hc : condPassed cond s = true) : ∀ f ∈ mulAcc,
    exec (f.2 cond rd ra rm rn) s =
      unlessPC [rd, ra, rm, rn] (.next (mulWrite rd (f.1 (s.reg rn) (s.reg rm) (s.reg ra)) s).advance) := by
  simp only [mulAcc, List.forall_mem_cons]
  refine ⟨?mls, ?smmla, ?smmls, ?smmlar, ?smmlsr, List.forall_mem_nil _⟩
  all_goals exact onCond_pass hc _

theorem exec_mulQ (hc : condPassed cond s = true) : ∀ f ∈ mulQ,
    exec (f.2 cond rd rm rn) s = unlessPC [rd, rm, rn] (.next (mulWriteQ rd (f.1 (s.reg rn) (s.reg rm)) s).advance) := by
  obtain ⟨hlow, hhigh⟩ := dual_halves rm s
  simp only [mulQ, List.forall_mem_cons]
  refine ⟨?smuad, ?smuadx, List.forall_mem_nil _⟩
  case smuad => exact onCond_pass hc _
  case smuadx => rw [← hlow, ← hhigh]; exact onCond_pass hc _

theorem exec_mulAccQ (hc : condPassed cond s = true) : ∀ f ∈ mulAccQ,
    exec (f.2 cond rd ra rm rn) s =
      unlessPC [rd, ra, rm, rn] (.next (mulWriteQ rd (f.1 (s.reg rn) (s.reg rm) (s.reg ra)) s).advance) := by
  obtain ⟨hlow, hhigh⟩ := dual_halves rm s
  simp only [mulAccQ, List.forall_mem_cons]
  refine ⟨?smlabb, ?smlabt, ?smlatb, ?smlatt, ?smlawb, ?smlawt, ?smlad, ?smladx, ?smlsd, ?smlsdx, List.forall_mem_nil _⟩
  case smladx | smlsdx => rw [← hlow, ← hhigh]; exact onCond_pass hc _
  all_goals exact onCond_pass hc _

theorem exec_mulLong (hc : condPassed cond s = true) : ∀ f ∈ mulLong,
    exec (f.2 cond rd ra rm rn) s =
      longOp rd ra rm rn (longWrite rd ra (f.1 (s.reg rn) (s.reg rm) (s.reg rd ++ s.reg ra)) s) := by
  obtain ⟨hlow, hhigh⟩ := dual_halves rm s
  obtain ⟨hhi, hlo⟩ := pair_halves (s.reg rd) (s.reg ra)
  simp only [mulLong, List.forall_mem_cons]
  refine ⟨?umaal, ?smlalbb, ?smlalbt, ?smlaltb, ?smlaltt, ?smlald, ?smlaldx, ?smlsld, ?smlsldx, List.forall_mem_nil _⟩
  case umaal => rw [hhi, hlo]; exact onCond_pass hc _
  case smlaldx | smlsldx => rw [← hlow, ← hhigh]; exact onCond_pass hc _
  all_goals exact onCond_pass hc _

theorem exec_mulLongS (hc : condPassed cond s = true) : ∀ f ∈ mulLongS,
    exec (f.2 cond sf rd ra rm rn) s =
      longOp rd ra rm rn (longWriteS sf rd ra (f.1 (s.reg rn) (s.reg rm) (s.reg rd ++ s.reg ra)) s) := by
  simp only [mulLongS, List.forall_mem_cons]
  refine ⟨?umull, ?umlal, ?smull, ?smlal, List.forall_mem_nil _⟩
  all_goals exact onCond_pass hc _

theorem exec_mul (hc : condPassed cond s = true) : exec (.mul cond sf rd rm rn) s =
    unlessPC [rd, rm, rn] (.next (mulWriteS sf rd (((s.reg rn).toNat * (s.reg rm).toNat : Nat) : Int) s).advance) := by
  rw [Nat.cast_mul]; exact onCond_pass hc _

theorem exec_mla (hc : condPassed cond s = true) : exec (.mla cond sf rd ra rm rn) s =
    unlessPC [rd, ra, rm, rn]
      (.next (mulWriteS sf rd (((s.reg rn).toNat * (s.reg rm).toNat + (s.reg ra).toNat : Nat) : Int) s).advance) := by
  rw [Nat.cast_add, Nat.cast_mul]; exact onCond_pass hc _

/-- A natural result, with N and Z by S. -/
theorem mulWriteS_natCast (hrd : rd ≠ 15) (r : Nat) : (mulWriteS sf rd (r : Int) s).advance =
    wroteC s rd (BitVec.ofNat 32 r) (withNZ sf s.cpsr (BitVec.ofNat 32 r).msb (decide (BitVec.ofNat 32 r = 0))) := by
  rw [withNZ_eq _ _ _ _ hrd, BitVec.ofInt_natCast]

/-- Four registers none of which is r15, and the three without the accumulator. -/
theorem multiply_registers (h : 15 ∉ [rd, ra, rm, rn]) : rd ≠ 15 ∧ ra ≠ 15 ∧ 15 ∉ [rd, rm, rn] := by
  simp only [List.mem_cons, List.not_mem_nil, or_false, not_or] at h ⊢
  obtain ⟨hd, ha, hm, hn⟩ := h
  exact ⟨Ne.symm hd, Ne.symm ha, hd, hm, hn⟩

end

/-- Settles O9. -/
theorem multiplySettingFlags : Obligations.MultiplySettingFlags := by
  intro cond sf rd ra rm rn s
  refine ⟨?mulWord, ?mlaWord, ?umullWord, ?umlalWord, ?smullWord, ?smlalWord, fun hc h => ?results⟩
  case mulWord => rw [flagsWord_eq, show put 0b0000#4 12 = 0#32 from rfl, BitVec.or_zero]; rfl
  case results =>
    obtain ⟨hd, ha, h3⟩ := multiply_registers h
    refine ⟨?mul, ?mla, fun f hf hne => ?long⟩
    case mul => rw [exec_mul hc, unlessPC_ok h3, mulWriteS_natCast hd]
    case mla => rw [exec_mla hc, unlessPC_ok h, mulWriteS_natCast hd]
    case long => rw [exec_mulLongS hc f hf, longOp_ok hne h, longWriteS_eq _ _ _ _ _ hd ha]
  all_goals rw [flagsWord_eq]; rfl

/-- Settles O10. -/
theorem multiplyLeavingFlags : Obligations.MultiplyLeavingFlags := by
  intro cond rd ra rm rn s hc h
  obtain ⟨hd, ha, h3⟩ := multiply_registers h
  refine ⟨fun f hf => ?plain, fun f hf => ?acc, fun f hf hne => ?long⟩
  case plain => rw [exec_mulPlain hc f hf, unlessPC_ok h3, mulWrite_eq _ _ _ hd]
  case acc => rw [exec_mulAcc hc f hf, unlessPC_ok h, mulWrite_eq _ _ _ hd]
  case long => rw [exec_mulLong hc f hf, longOp_ok hne h, longWrite_eq _ _ _ _ hd ha]

/-- SMUAD has no accumulator: the field is fixed at 1111 (R1675). -/
theorem put_no_accumulator (cond d m k n : BitVec 4) (op : BitVec 8) :
    (cond ++ op ++ d ++ (15 : BitVec 4) ++ m ++ k ++ n : Word) =
      (put op 20 ||| 0xF000#32 ||| put k 4) ||| put cond 28 ||| put d 16 ||| put m 8 ||| put n 0 := by
  rw [kindWord_eq, show put (15 : BitVec 4) 12 = 0xF000#32 from rfl]
  exact or_constant_first _ _ _ _ _ _ _

/-- Settles O11. -/
theorem multiplySettingQ : Obligations.MultiplySettingQ := by
  intro cond rd ra rm rn s word
  have word_eq (op : BitVec 8) (a k : BitVec 4) : word op a k =
      (put op 20 ||| put k 4) ||| put cond 28 ||| put rd 16 ||| put a 12 ||| put rm 8 ||| put rn 0 := kindWord_eq _ _ _ _ _ _ _
  have word_no_accumulator (op : BitVec 8) (k : BitVec 4) : word op 15 k =
      (put op 20 ||| 0xF000#32 ||| put k 4) ||| put cond 28 ||| put rd 16 ||| put rm 8 ||| put rn 0 :=
    put_no_accumulator _ _ _ _ _ _
  refine ⟨⟨?smlabb, ?smlatb, ?smlabt, ?smlatt⟩, ⟨?smlawb, ?smlawt⟩, ⟨?smuad, ?smuadx⟩, ⟨?smlad, ?smladx⟩, ⟨?smlsd, ?smlsdx⟩,
    fun hc h => ?results⟩
  case results =>
    obtain ⟨hd, _, h3⟩ := multiply_registers h
    refine ⟨fun f hf => ?plain, fun f hf => ?acc⟩
    case plain => rw [exec_mulQ hc f hf, unlessPC_ok h3, mulWriteQ_eq _ _ _ hd]
    case acc => rw [exec_mulAccQ hc f hf, unlessPC_ok h, mulWriteQ_eq _ _ _ hd]
  case smuad | smuadx => rw [word_no_accumulator]; rfl
  all_goals rw [word_eq]; rfl

/-- Settles O12. -/
theorem multiplyUnpredictable : Obligations.MultiplyUnpredictable := by
  intro cond sf rd ra rm rn s hc
  refine ⟨fun h => ⟨?mul, fun f hf => ?plain⟩, fun h => ⟨?mla, fun f hf => ?acc⟩,
    fun h => ⟨fun f hf => ?long, fun f hf => ?longS⟩⟩
  case mul => rw [exec_mul hc, unlessPC_bad h]
  case plain =>
    rcases List.mem_append.1 hf with hf | hf
    · rw [exec_mulPlain hc f hf, unlessPC_bad h]
    · rw [exec_mulQ hc f hf, unlessPC_bad h]
  case mla => rw [exec_mla hc, unlessPC_bad h]
  case acc =>
    rcases List.mem_append.1 hf with hf | hf
    · rw [exec_mulAcc hc f hf, unlessPC_bad h]
    · rw [exec_mulAccQ hc f hf, unlessPC_bad h]
  case long => rw [exec_mulLong hc f hf, longOp_bad h]
  case longS => rw [exec_mulLongS hc f hf, longOp_bad h]

end Sys2Proof.Machine

end
end

section
/-! The media instructions (O13 to O17; 47_media_instructions.md). -/

noncomputable section

namespace Sys2Proof.Machine

open Safety

/-! ## Parallel addition and subtraction -/

/-- The row `f` of the list is the parallel operation `op`: it has its width and its terms. -/
def RunsParallel (f : (ParKind × Nat × List (Nat × Nat × Bool)) × (BitVec 4 → BitVec 4 → BitVec 4 → BitVec 4 → Instr))
    (op : ParOp) : Prop :=
  f.1.2 = (op.width, op.terms) ∧
    ∀ cond rn rd rm s, exec (f.2 cond rn rd rm) s = onCond cond s (parallel f.1.1 op rn rd rm s)

theorem runsParallel_parallels : ∀ f ∈ parallels, ∃ op, RunsParallel f op := by
  simp only [parallels, List.forall_mem_cons]
  refine ⟨⟨.add16, ?_⟩, ⟨.asx, ?_⟩, ⟨.sax, ?_⟩, ⟨.sub16, ?_⟩, ⟨.add8, ?_⟩, ⟨.sub8, ?_⟩,
    ⟨.add16, ?_⟩, ⟨.asx, ?_⟩, ⟨.sax, ?_⟩, ⟨.sub16, ?_⟩, ⟨.add8, ?_⟩, ⟨.sub8, ?_⟩,
    ⟨.add16, ?_⟩, ⟨.asx, ?_⟩, ⟨.sax, ?_⟩, ⟨.sub16, ?_⟩, ⟨.add8, ?_⟩, ⟨.sub8, ?_⟩,
    ⟨.add16, ?_⟩, ⟨.asx, ?_⟩, ⟨.sax, ?_⟩, ⟨.sub16, ?_⟩, ⟨.add8, ?_⟩, ⟨.sub8, ?_⟩,
    ⟨.add16, ?_⟩, ⟨.asx, ?_⟩, ⟨.sax, ?_⟩, ⟨.sub16, ?_⟩, ⟨.add8, ?_⟩, ⟨.sub8, ?_⟩,
    ⟨.add16, ?_⟩, ⟨.asx, ?_⟩, ⟨.sax, ?_⟩, ⟨.sub16, ?_⟩, ⟨.add8, ?_⟩, ⟨.sub8, ?_⟩, List.forall_mem_nil _⟩
  all_goals exact ⟨rfl, fun _ _ _ _ _ => rfl⟩

/-- Settles O13: each row is one of the six operations, of which `parallel_spec` says what it leaves in each lane. -/
theorem parallelArithmetic : Obligations.ParallelArithmetic := by
  intro f hf cond rn rd rm s hc h
  obtain ⟨op, hshape, hexec⟩ := runsParallel_parallels f hf
  rw [hexec, onCond_pass hc, hshape]
  exact parallel_spec f.1.1 op rn rd rm s h

/-! ## Saturation -/

theorem signedSatQ_word (i : Int) : signedSatQ i 32 = (clamp32 i, decide (clamp32 i ≠ i)) := signedSatQ_eq i 32

theorem signedSatQ_succ (i : Int) (n : Nat) :
    signedSatQ i (n + 1) = (clamp (-2 ^ n) (2 ^ n - 1) i, decide (clamp (-2 ^ n) (2 ^ n - 1) i ≠ i)) :=
  signedSatQ_eq i (n + 1)

/-- Two fields of sixteen bits are a word of two halves. -/
theorem packFields_halves (lo hi : Int) : packFields 16 [lo, hi] = BitVec.ofInt 16 hi ++ BitVec.ofInt 16 lo := by
  apply BitVec.eq_of_getLsbD_eq
  intro i hi
  simp only [packFields, BitVec.getLsbD_or, BitVec.getLsbD_setWidth, BitVec.getLsbD_shiftLeft, BitVec.ofNat_eq_ofNat,
    BitVec.zero_shiftLeft, BitVec.or_zero]
  rw [show (BitVec.ofInt 16 _ ++ BitVec.ofInt 16 _ : BitVec 32).getLsbD i = _ from BitVec.getLsbD_append]
  by_cases h : i < 16
  · simp [-BitVec.getLsbD_eq_getElem, h, hi]
  · simp [-BitVec.getLsbD_eq_getElem, h, hi, BitVec.getLsbD_of_ge (BitVec.ofInt 16 lo) i (by omega),
      show i - 16 < 32 by omega]

/-- Both halves are saturated by `g`, where `f` gives its value and whether it changed. -/
theorem sat16_eq {f : Int → Int × Bool} {g : Int → Int} (h : ∀ i, f i = (g i, decide (g i ≠ i))) (w : Word) :
    sat16 f w = (BitVec.ofInt 16 (g (hi16 w)) ++ BitVec.ofInt 16 (g (lo16 w)),
      decide (g (lo16 w) ≠ lo16 w ∨ g (hi16 w) ≠ hi16 w)) := by
  rw [sat16, h, h, Bool.decide_or]
  exact congrArg (·, _) (packFields_halves _ _)

section

variable {cond rn rd rm : BitVec 4} {s : State}

theorem exec_saturating (hc : condPassed cond s = true) : ∀ f ∈ saturating,
    let n := (s.reg rn).toInt
    let d := if f.2.1 then clamp32 (2 * n) else n
    let r := f.1 (s.reg rm).toInt d
    exec (f.2.2 cond rn rd rm) s =
      satWrite [rn, rm] rd (BitVec.ofInt 32 (clamp32 r)) (decide ((f.2.1 ∧ d ≠ 2 * n) ∨ clamp32 r ≠ r)) s := by
  simp only [saturating, List.forall_mem_cons, Bool.false_eq_true, if_false, if_true, false_and, true_and,
    Bool.decide_or]
  refine ⟨?qadd, ?qsub, ?qdadd, ?qdsub, List.forall_mem_nil _⟩
  case qadd =>
    refine (onCond_pass hc _).trans ?_
    rw [signedSatQ_word]
    simp only [decide_false, Bool.false_or]
  case qsub =>
    refine (onCond_pass hc _).trans ?_
    rw [signedSatQ_word]
    simp only [decide_false, Bool.false_or]
  case qdadd =>
    refine (onCond_pass hc _).trans ?_
    rw [signedSatQ_word, signedSatQ_word]
  case qdsub =>
    refine (onCond_pass hc _).trans ?_
    rw [signedSatQ_word, signedSatQ_word]

end

/-- Settles O14. -/
theorem saturatingArithmetic : Obligations.SaturatingArithmetic := by
  intro cond rn rd rm s hc h
  simp only [List.mem_cons, List.not_mem_nil, or_false, not_or] at h
  obtain ⟨hn, hd, hm⟩ := h
  refine ⟨fun f hf => ?adds, fun sat imm5 sh => ⟨?ssat, ?usat⟩, fun sat => ⟨?ssat16, ?usat16⟩⟩
  case adds => exact (exec_saturating hc f hf).trans (satWrite_eq (not_mem_three (Ne.symm hd) (Ne.symm hn) (Ne.symm hm)) _ _ _)
  case ssat =>
    refine (onCond_pass hc _).trans ?_
    rw [signedSatQ_succ, satWrite_eq (not_mem_two (Ne.symm hd) (Ne.symm hn))]
    rfl
  case usat =>
    refine (onCond_pass hc _).trans ?_
    rw [unsignedSatQ_eq, satWrite_eq (not_mem_two (Ne.symm hd) (Ne.symm hn))]
    rfl
  case ssat16 =>
    refine (onCond_pass hc _).trans ?_
    rw [sat16_eq fun i => signedSatQ_succ i _, satWrite_eq (not_mem_two (Ne.symm hd) (Ne.symm hn))]
  case usat16 =>
    refine (onCond_pass hc _).trans ?_
    rw [sat16_eq fun i => unsignedSatQ_eq i _, satWrite_eq (not_mem_two (Ne.symm hd) (Ne.symm hn))]

/-! ## Extension -/

/-- Settles O15. -/
theorem extensions : Obligations.Extensions := by
  intro cond rn rd rm rotate s hc hd hm
  have write1 (v : Word) : onCond cond s (mediaWrite [rm] rd v s) = .next (wrote s rd v) :=
    (onCond_pass hc _).trans (mediaWrite_eq (not_mem_two hd hm) v s)
  have write2 (hn : rn ≠ 15) (v : Word) : onCond cond s (mediaWrite [rn, rm] rd v s) = .next (wrote s rd v) :=
    (onCond_pass hc _).trans (mediaWrite_eq (not_mem_three hd hn hm) v s)
  simp only [extends1, extends2, List.forall_mem_cons]
  refine ⟨⟨?sxtb, ?sxth, ?sxtb16, ?uxtb, ?uxth, ?uxtb16, List.forall_mem_nil _⟩,
    ⟨?sxtab, ?sxtah, ?sxtab16, ?uxtab, ?uxtah, ?uxtab16, List.forall_mem_nil _⟩⟩
  case sxtb | sxth | sxtb16 | uxtb | uxth | uxtb16 => exact write1 _
  all_goals exact fun hn => write2 hn _

/-! ## Bit fields -/

/-- A bit of a word with the field from `lsb` to `msb` replaced. -/
theorem insertedField_bit (d v : Word) (msb lsb : BitVec 5) (i : Nat) (hi : i < 32) :
    ((d &&& ~~~fieldMask msb lsb) ||| ((v <<< lsb.toNat) &&& fieldMask msb lsb)).getLsbD i =
      if lsb.toNat ≤ i ∧ i ≤ msb.toNat then v.getLsbD (i - lsb.toNat) else d.getLsbD i := by
  simp only [BitVec.getLsbD_or, BitVec.getLsbD_and, BitVec.getLsbD_not, BitVec.getLsbD_shiftLeft, fieldMask_get _ _ _ hi]
  by_cases h : lsb.toNat ≤ i ∧ i ≤ msb.toNat
  · simp [-BitVec.getLsbD_eq_getElem, h, hi, show ¬ i < lsb.toNat by omega]
  · simp only [h, decide_false, hi, decide_true, Bool.not_false, Bool.and_true, Bool.and_false, Bool.or_false, if_false]

theorem extractField_toNat (x : Word) (lo n : Nat) : (x.extractLsb' lo n).toNat = x.toNat / 2 ^ lo % 2 ^ n := by
  rw [BitVec.extractLsb'_toNat, Nat.shiftRight_eq_div_pow]

theorem extractField_unsigned (x : Word) (lo n : Nat) :
    (x.extractLsb' lo n).setWidth 32 = BitVec.ofNat 32 (x.toNat / 2 ^ lo % 2 ^ n) := by
  apply BitVec.eq_of_toNat_eq
  rw [BitVec.toNat_setWidth, BitVec.toNat_ofNat, extractField_toNat]

theorem extractField_signed (x : Word) (lo n : Nat) :
    (x.extractLsb' lo (n + 1)).signExtend 32 = BitVec.ofInt 32
      (if x.toNat / 2 ^ lo % 2 ^ (n + 1) < 2 ^ n then (x.toNat / 2 ^ lo % 2 ^ (n + 1) : Nat)
        else (x.toNat / 2 ^ lo % 2 ^ (n + 1) : Nat) - 2 ^ (n + 1)) := by
  have hhalf : 2 * (x.toNat / 2 ^ lo % 2 ^ (n + 1)) < 2 ^ (n + 1) ↔ x.toNat / 2 ^ lo % 2 ^ (n + 1) < 2 ^ n := by
    rw [Nat.pow_succ']; omega
  rw [BitVec.signExtend, BitVec.toInt_eq_toNat_cond, extractField_toNat]
  simp only [hhalf]
  push_cast
  rfl

/-- Settles O16: inside its bounds a field is replaced or extracted bit by bit; outside them the instruction stops. -/
theorem bitFields : Obligations.BitFields := by
  intro cond rd rn lsb s hc hd hn
  refine ⟨fun msb h => ?insert, fun msb h => ⟨?bfiStops, ?bfcStops⟩, fun w h => ?extract, fun w h => ⟨?ubfxStops, ?sbfxStops⟩⟩
  case insert =>
    have hbounds : ¬ msb < lsb := BitVec.not_lt.2 h
    refine ⟨_, (s.reg rd &&& ~~~fieldMask msb lsb) ||| ((0 <<< lsb.toNat) &&& fieldMask msb lsb), ?bfi, ?bfc,
      fun i hi => ⟨insertedField_bit _ _ _ _ i hi, (insertedField_bit _ 0 _ _ i hi).trans ?zero⟩⟩
    case bfi => exact (onCond_pass hc _).trans ((if_neg hbounds).trans (mediaWrite_eq (not_mem_two hd hn) _ s))
    case bfc => exact (onCond_pass hc _).trans ((if_neg hbounds).trans (mediaWrite_eq (not_mem_one hd) _ s))
    case zero => simp only [BitVec.ofNat_eq_ofNat, BitVec.getLsbD_zero]
  case bfiStops | bfcStops => exact (onCond_pass hc _).trans (if_pos h)
  case extract =>
    have hbounds : ¬ 31 < lsb.toNat + w.toNat := by omega
    constructor
    · refine (onCond_pass hc _).trans ((if_neg hbounds).trans ((mediaWrite_eq (not_mem_two hd hn) _ s).trans ?_))
      rw [← extractField_unsigned]
      rfl
    · refine (onCond_pass hc _).trans ((if_neg hbounds).trans ((mediaWrite_eq (not_mem_two hd hn) _ s).trans ?_))
      rw [if_pos rfl, extractField_signed]
  case ubfxStops | sbfxStops => exact (onCond_pass hc _).trans (if_pos (by omega))

/-! ## Bytes and halfwords -/

theorem byteOf_bit (w : Word) (k j : Nat) (h : j < 8) : (byteOf w k).getLsbD j = w.getLsbD (8 * k + j) := by
  rw [byteOf, BitVec.getLsbD_extractLsb', decide_eq_true h, Bool.true_and]

/-- A bit of a word of four bytes. -/
theorem fourBytes_bit (f : Nat → Byte) (i : Nat) (hi : i < 32) :
    (f 3 ++ f 2 ++ f 1 ++ f 0 : Word).getLsbD i = (f (i / 8)).getLsbD (i % 8) := by
  rw [bytes_get _ _ _ _ i hi]
  split_ifs with h0 h1 h2
  · rw [show i / 8 = 0 by omega, show i % 8 = i by omega]
  · rw [show i / 8 = 1 by omega, show i % 8 = i - 8 by omega]
  · rw [show i / 8 = 2 by omega, show i % 8 = i - 16 by omega]
  · rw [show i / 8 = 3 by omega, show i % 8 = i - 24 by omega]

theorem revBytes_bit (w : Word) (i : Nat) (hi : i < 32) : (revBytes w).getLsbD i = w.getLsbD (8 * (3 - i / 8) + i % 8) := by
  rw [show revBytes w = byteOf w (3 - 3) ++ byteOf w (3 - 2) ++ byteOf w (3 - 1) ++ byteOf w (3 - 0) from rfl,
    fourBytes_bit (fun k => byteOf w (3 - k)) i hi, byteOf_bit _ _ _ (by omega)]

theorem revHalves_bit (w : Word) (i : Nat) (hi : i < 32) :
    (revHalves w).getLsbD i = w.getLsbD (if i / 8 % 2 = 0 then i + 8 else i - 8) := by
  refine (fourBytes_bit (fun k => byteOf w (if k % 2 = 0 then k + 1 else k - 1)) i hi).trans
    ((byteOf_bit _ _ _ (by omega)).trans (congrArg w.getLsbD ?_))
  split <;> omega

theorem reverse_bit (w : Word) (i : Nat) (hi : i < 32) : w.reverse.getLsbD i = w.getLsbD (31 - i) := by
  rw [BitVec.getLsbD_reverse, BitVec.getMsbD_eq_getLsbD, decide_eq_true hi, Bool.true_and]

theorem selectBytes_bit (s : State) (a b : Word) (i : Nat) (hi : i < 32) :
    (selectBytes s.ge a b).getLsbD i = if s.cpsr.getLsbD (16 + i / 8) then a.getLsbD i else b.getLsbD i := by
  have hge : s.ge.getLsbD (i / 8) = s.cpsr.getLsbD (16 + i / 8) := by
    rw [State.ge, BitVec.getLsbD_extractLsb', decide_eq_true (by omega), Bool.true_and]
  have hplace : 8 * (i / 8) + i % 8 = i := Nat.div_add_mod i 8
  refine (fourBytes_bit (fun k => if s.ge.getLsbD k then byteOf a k else byteOf b k) i hi).trans ?_
  simp only [hge]
  split <;> rw [byteOf_bit _ _ _ (by omega), hplace]

/-- The shift of PKHTB: ASR, where 0 stands for 32 (R2421). -/
theorem immShiftC_asr (x : Word) (imm5 : BitVec 5) (c : Bool) :
    (immShiftC x 2 imm5 c).1 = x.sshiftRight (if imm5 = 0 then 32 else imm5.toNat) := by
  unfold immShiftC shiftC
  split
  case isTrue => rfl
  case isFalse h =>
    have hn : imm5.toNat ≠ 0 := fun e => h (BitVec.eq_of_toNat_eq e)
    rw [if_neg hn]; rfl

/-- Settles O17. -/
theorem bytesAndHalfwords : Obligations.BytesAndHalfwords := by
  intro cond rn rd rm ra s hc h
  simp only [List.mem_cons, List.not_mem_nil, or_false, not_or] at h
  obtain ⟨hn, hd, hm, ha⟩ := h
  replace hn := Ne.symm hn
  replace hd := Ne.symm hd
  replace hm := Ne.symm hm
  have write1 (v : Word) : onCond cond s (mediaWrite [rm] rd v s) = .next (wrote s rd v) :=
    (onCond_pass hc _).trans (mediaWrite_eq (not_mem_two hd hm) v s)
  have write2 (v : Word) : onCond cond s (mediaWrite [rn, rm] rd v s) = .next (wrote s rd v) :=
    (onCond_pass hc _).trans (mediaWrite_eq (not_mem_three hd hn hm) v s)
  refine ⟨?reversals, write1 _, ⟨_, write2 _, selectBytes_bit s _ _⟩, fun imm5 => ⟨write2 _, ?pkhtb⟩, ?usad8, ?usada8⟩
  case reversals =>
    simp only [reversals, List.forall_mem_cons]
    exact ⟨⟨_, write1 _, revBytes_bit _⟩, ⟨_, write1 _, revHalves_bit _⟩, ⟨_, write1 _, reverse_bit _⟩,
      List.forall_mem_nil _⟩
  case pkhtb =>
    rw [← immShiftC_asr _ _ false]
    exact write2 _
  case usad8 => exact (onCond_pass hc _).trans (mediaWrite_eq (not_mem_three hd hm hn) _ s)
  case usada8 =>
    have hregs : 15 ∉ [rd, ra, rm, rn] :=
      List.not_mem_cons_of_ne_of_not_mem (Ne.symm hd) (not_mem_three (Ne.symm ha) hm hn)
    exact (onCond_pass hc _).trans (mediaWrite_eq hregs _ s)

end Sys2Proof.Machine

end
end

section
/-! Loads and stores of one register reached directly (O22, O23; 44_load_store.md R1691 to R1712). -/

noncomputable section

namespace Sys2Proof.Machine

open Safety

theorem size_of_loads : ∀ f ∈ loads, f.2.size = 1 ∨ f.2.size = 2 ∨ f.2.size = 4 := by
  simp [loads]

theorem id_of_wordLoads : ∀ f ∈ loads, f.2.size = 4 → f.1 = id := by
  simp [loads]

theorem size_of_stores : ∀ f ∈ stores, f.size = 1 ∨ f.size = 2 ∨ f.size = 4 := by
  simp [stores]

/-- A word address has its low bits clear. -/
theorem and_three_of_aligned {a : Word} (h : a.toNat % 4 = 0) : a &&& 3 = 0 := by
  apply BitVec.eq_of_toNat_eq
  rw [BitVec.toNat_and]
  exact (Nat.and_two_pow_sub_one_eq_mod a.toNat 2).trans h

/-- What a load to r15 of the form `f` executes as: LDR loads the target of a branch, which in the form with an immediate and
post-indexed may count as a procedure return (R409, log 57); the others stop. -/
theorem exec_load_pc : ∀ f ∈ loads, ∀ (o : LsFields) (s : State), o.rt = 15 → f.2.allows o [o.rt] →
    exec (f.2.make o) s = onCond o.cond s (if f.2.size = 4 ∧ f.2.user = false then
      loadWord (f.2.offset == .imm12 && o.p == 0) (LsForm.pBit f.2 o) o.u (LsForm.wBit f.2 o) o.rn o.rt
        (o.offset f.2.offset s) s
      else .fault .operands) := by
  have narrow {o : LsFields} (hrt : o.rt = 15) (size : Nat) (ext : Word → Word) (priv : Bool) (p u w : BitVec 1)
      (off : Word) (s : State) : loadReg size ext priv p u w o.rn o.rt off s = .fault .operands := if_pos (.inl hrt)
  simp only [loads, List.forall_mem_cons]
  refine ⟨?ldrImm, ?ldrReg, ?ldrbImm, ?ldrbReg, ?ldrhImm, ?ldrhReg, ?ldrsbImm, ?ldrsbReg, ?ldrshImm, ?ldrshReg,
    ?ldrtImm, ?ldrtReg, ?ldrbtImm, ?ldrbtReg, ?ldrhtImm, ?ldrhtReg, ?ldrsbtImm, ?ldrsbtReg, ?ldrshtImm, ?ldrshtReg,
    List.forall_mem_nil _⟩
  case ldrImm => exact fun _ _ _ _ => rfl
  case ldrReg => exact fun o s _ ha => congrArg (onCond o.cond s) (unlessOff_ok (ha.1 (.inl rfl)) _)
  case ldrbReg | ldrtReg | ldrbtReg =>
    exact fun o s hrt ha => congrArg (onCond o.cond s) ((unlessOff_ok (ha.1 (.inl rfl)) _).trans (narrow hrt _ _ _ _ _ _ _ s))
  case ldrhReg | ldrsbReg | ldrshReg | ldrhtReg | ldrsbtReg | ldrshtReg =>
    exact fun o s hrt ha => congrArg (onCond o.cond s) ((unlessOff_ok (ha.1 (.inr rfl)) _).trans (narrow hrt _ _ _ _ _ _ _ s))
  all_goals exact fun o s hrt _ => congrArg (onCond o.cond s) (narrow hrt _ _ _ _ _ _ _ s)

section

variable {s : State} {f : LsForm} {o : LsFields}

theorem noteLoadReturn_eq (form : Bool) (rn : BitVec 4) (t : State) : noteLoadReturn form rn t =
    if form = true ∧ (rn = 13 ∨ rn = 9) then { t with happened := t.happened ||| BitVec.twoPow 16 0x0E } else t := by
  unfold noteLoadReturn
  simp only [Bool.and_eq_true, Bool.or_eq_true, beq_iff_eq]
  rfl

/-- A direct load of the pc branches to the word it finds. -/
theorem loadWord_pc_direct (h : Direct s) (hsize : f.size = 4) (hrt : o.rt = 15) (ha : f.allows o [o.rt])
    (hva : (f.address o s).toNat % 4 = 0) (ret : Bool) :
    let s' := { s with gpr := f.regs o s, late := arrivedLate s, happened := seen s 0x06 }
    loadWord ret (LsForm.pBit f o) o.u (LsForm.wBit f o) o.rn o.rt (o.offset f.offset s) s =
      interworked (if ret = true ∧ (o.rn = 13 ∨ o.rn = 9)
        then { s' with happened := s'.happened ||| BitVec.twoPow 16 0x0E } else s') (loadAt s (f.address o s) f.size) := by
  have hread := readData_direct h { plainReq 4 s.privileged false with precise := true } (va := f.address o s)
    (.inr (.inr (.inl rfl))) hva
    (Nat.mod_one _)
  rw [loadWord, if_pos hrt, if_neg (by rw [noClash ha, ← address_eq, and_three_of_aligned hva]; simp),
    ← address_eq, hread, hsize]
  show bxTo (noteLoadReturn ret o.rn (backBase _ _ _ _ _ _)) _ = _
  rw [bxTo_eq, noteLoadReturn_eq, backBase_eq ha s { s.note 0x06 with late := arrivedLate s } rfl rfl rfl]
  rfl

end

/-- Settles O22: below r15 every form is `loadReg`; to r15 LDR branches and the others stop. -/
theorem loadsCorrect : Obligations.Loads := by
  intro f hf o s h hc ha hva
  refine ⟨fun hrt => ?below, fun hrt => ?pc⟩
  case below =>
    rw [loadsByForm_loads f hf o s hrt ha, onCond_pass hc]
    exact loadReg_direct h f.1 _ (size_of_loads f hf) hrt ha hva
  case pc =>
    rw [exec_load_pc f hf o s hrt ha, onCond_pass hc]
    by_cases hform : f.2.size = 4 ∧ f.2.user = false
    · rw [if_pos hform, if_pos hform]
      rw [hform.1] at hva
      have hid : f.1 = id := id_of_wordLoads f hf hform.1
      refine (loadWord_pc_direct h hform.1 hrt ha hva _).trans ?_
      simp only [Bool.and_eq_true, beq_iff_eq, and_assoc, hid, id]
    · rw [if_neg hform, if_neg hform]

/-- Settles O23: every form is `storeReg`; the bytes it writes are those of `Stored`. -/
theorem storesCorrect : Obligations.Stores := by
  intro f hf o s h hw hc ha hva
  have hsize := size_of_stores f hf
  rw [storesByForm_stores f hf o s ha, onCond_pass hc]
  refine ⟨fun hrt => ?stored, fun hrt hform => ?stops⟩
  case stored =>
    have hpc : o.rt = 15 → (f.size == 4 && !f.user) = true := fun h15 => by
      obtain ⟨h4, huser⟩ := hrt.resolve_left (not_not_intro h15)
      rw [h4, huser]; rfl
    obtain ⟨late, hlate, hexec⟩ := storeReg_direct h _ (!f.user && s.privileged) hsize hpc ha hva
    exact ⟨_, late, storeList_stored hw _ (by omega) _, hlate, hexec⟩
  case stops =>
    have hno : (f.size == 4 && !f.user) = false := by
      rw [Bool.eq_false_iff]
      simpa using hform
    exact if_pos (.inl ⟨hrt, by rw [hno]; rfl⟩)

end Sys2Proof.Machine

end
end

section
/-! Doublewords, swaps and blocks reached directly (O24 to O27; 44_load_store.md R1703, R1704, R1714 to R1731). -/

noncomputable section

namespace Sys2Proof.Machine

open Safety

/-! ## Several accesses of one instruction -/

/-- What a direct read leaves: the event, and the stores before it complete (20_memory.md R1041). -/
def afterRead (s : State) : State := { s.note 0x06 with late := arrivedLate s }

/-- What a direct write leaves that makes the memory `m` and the late stores `late`. -/
def afterWrite (s : State) (m : List Host.Cell) (late : List Late) : State :=
  { s with mem := m, late := late, happened := seen s 0x07 }

section

variable {s : State} {q : Req} {va : Word}

theorem direct_afterRead (h : Direct s) : Direct (afterRead s) := direct_late (direct_note h 0x06) _

theorem direct_afterWrite (h : Direct s) (m : List Host.Cell) (late : List Late) : Direct (afterWrite s m late) :=
  direct_congr h rfl rfl rfl rfl rfl

theorem afterRead_idem (s : State) : afterRead (afterRead s) = afterRead s := by
  show { (s.note 0x06).note 0x06 with late := arrivedLate (afterRead s) } = _
  rw [note_note, arrivedLate_idem s (afterRead s) rfl]
  rfl

/-- A second direct read finds what it would have found first. -/
theorem readData_afterRead (h : Direct s) (q : Req) (hn : q.size = 1 ∨ q.size = 2 ∨ q.size = 4 ∨ q.size = 8)
    (hsize : va.toNat % q.size = 0) (halign : va.toNat % q.align = 0) :
    readData q va (afterRead s).gap = .ok (loadAt s va q.size) (afterRead s) := by
  rw [gap_nil (s := afterRead s) h.alone, readData_direct (direct_afterRead h) q hn hsize halign]
  show Acc.ok (loadAt (afterRead s) va q.size) (afterRead (afterRead s)) = _
  rw [afterRead_idem, loadAt_congr (s := s) (t := afterRead s) rfl rfl rfl rfl rfl]

/-- A direct write of a word. -/
theorem writeData_stored (h : Direct s) (hw : Memory.wf s.mem = true) (hq : q.size = 4) (hsize : va.toNat % 4 = 0)
    (halign : va.toNat % q.align = 0) (v : Word) :
    ∃ m late, Stored s va 4 v m ∧ Arrived late ∧ writeData q va v s = .ok () (afterWrite s m late) := by
  obtain ⟨late, hlate, hwrite⟩ := writeData_direct h q v (by omega) (va := va) (by rw [hq]; exact hsize) halign
  rw [hq] at hwrite
  exact ⟨_, late, storeList_stored hw va (by decide) v, hlate, hwrite⟩

/-- A second direct write of a word. -/
theorem writeData_afterWrite (h : Direct s) {m : List Host.Cell} (hm : Memory.wf m = true) (late : List Late)
    (hq : q.size = 4) (hsize : va.toNat % 4 = 0) (halign : va.toNat % q.align = 0) (v : Word) :
    ∃ m2 late2, Stored { s with mem := m } va 4 v m2 ∧ Arrived late2 ∧
      writeData q va v (afterWrite s m late).gap = .ok () (afterWrite s m2 late2) := by
  rw [gap_nil (s := afterWrite s m late) h.alone]
  obtain ⟨m2, late2, hstored, hlate, hwrite⟩ :=
    writeData_stored (s := afterWrite s m late) (direct_afterWrite h m late) hm hq hsize halign v
  refine ⟨m2, late2, hstored, hlate, hwrite.trans ?_⟩
  have hseen : seen (afterWrite s m late) 0x07 = seen s 0x07 := by
    show s.happened ||| _ ||| _ = s.happened ||| _
    rw [BitVec.or_assoc, BitVec.or_self]
  rw [afterWrite, hseen]
  rfl

end

/-! ## Doublewords -/

section

variable {s : State} {f : LsForm} {o : LsFields}

theorem exec_loadPairs : ∀ f ∈ loadPairs, ∀ (o : LsFields) (s : State), f.allows o [o.rt, o.rt + 1] →
    (f.offset = .plain → o.rm ≠ o.rt ∧ o.rm ≠ o.rt + 1) →
    exec (f.make o) s = onCond o.cond s
      (loadPair (LsForm.pBit f o) o.u (LsForm.wBit f o) o.rn o.rt (o.offset f.offset s) s) := by
  simp only [loadPairs, List.forall_mem_cons]
  refine ⟨fun _ _ _ _ => rfl, fun o s ha hrm => ?ldrdReg, List.forall_mem_nil _⟩
  case ldrdReg =>
    obtain ⟨ht, ht1⟩ := hrm trivial
    have hpc : o.rm ≠ 15 := ha.1 (.inr rfl)
    exact congrArg (onCond o.cond s) (if_neg (by simp only [hpc, ht, ht1, or_self, not_false_eq_true]))

theorem exec_storePairs : ∀ f ∈ storePairs, ∀ (o : LsFields) (s : State), f.allows o [o.rt, o.rt + 1] →
    exec (f.make o) s = onCond o.cond s
      (storePair (LsForm.pBit f o) o.u (LsForm.wBit f o) o.rn o.rt (o.offset f.offset s) s) := by
  simp only [storePairs, List.forall_mem_cons]
  exact ⟨fun _ _ _ => rfl, fun o s ha => congrArg (onCond o.cond s) (unlessOff_ok (ha.1 (.inr rfl)) _), List.forall_mem_nil _⟩

/-- The address of a doubleword access is aligned as its first word must be (20_memory.md R1013). -/
def PairAligned (s : State) (a : Word) : Prop := a.toNat % (if s.cur.sctlr.getLsbD 1 then 8 else 4) = 0

theorem PairAligned.words {a : Word} (h : PairAligned s a) : a.toNat % 4 = 0 ∧ (a + 4).toNat % 4 = 0 :=
  aligned4 (by split <;> simp) h

theorem loadPair_direct (h : Direct s) (heven : o.rt.getLsbD 0 = false) (h14 : o.rt ≠ 14) (ha : f.allows o [o.rt, o.rt + 1])
    (hva : PairAligned s (f.address o s)) :
    let s1 := { s with gpr := f.regs o s }
    let s2 := { s1 with gpr := withReg s1 o.rt (loadAt s (f.address o s) 4) }
    loadPair (LsForm.pBit f o) o.u (LsForm.wBit f o) o.rn o.rt (o.offset f.offset s) s = .next { s2 with
      gpr := withReg s2 (o.rt + 1) (loadAt s (f.address o s + 4) 4)
      late := arrivedLate s, pc := nextPc s, happened := seen s 0x06 } := by
  obtain ⟨hpair, hrt, hrt1⟩ := not_mem_rt heven h14
  obtain ⟨hfirst, hsecond⟩ := hva.words
  have hread1 : readData (pairReq false s) (f.address o s) s = .ok (loadAt s (f.address o s) 4) (afterRead s) :=
    readData_direct h (pairReq false s) (.inr (.inr (.inl rfl))) hfirst hva
  have hread2 : readData (alignedReq 4 s.privileged false) (f.address o s + 4) (afterRead s).gap =
      .ok (loadAt s (f.address o s + 4) 4) (afterRead s) :=
    readData_afterRead h (alignedReq 4 s.privileged false) (.inr (.inr (.inl rfl))) hsecond hsecond
  rw [loadPair, if_neg (by rw [hpair, noClash ha]; decide), ← address_eq]
  dsimp only
  rw [hread1]
  show (match readData (alignedReq 4 s.privileged false) (f.address o s + 4) (afterRead s).gap with
    | .ok v2 s2 => Host.Outcome.next (((backBase _ _ _ _ _ s2).setReg o.rt _).setReg (o.rt + 1) v2).advance
    | .abort i s2 => _ | .stop e => _) = _
  rw [hread2]
  show Host.Outcome.next (State.advance (State.setReg (State.setReg (backBase _ _ _ _ _ (afterRead s)) _ _) _ _)) = _
  rw [backBase_eq ha s (afterRead s) rfl rfl rfl, State.setReg_of_ne _ _ _ hrt, State.setReg_of_ne _ _ _ hrt1,
    State.advance_eq]
  rfl

theorem storePair_direct (h : Direct s) (hw : Memory.wf s.mem = true) (heven : o.rt.getLsbD 0 = false) (h14 : o.rt ≠ 14)
    (ha : f.allows o [o.rt, o.rt + 1]) (hva : PairAligned s (f.address o s)) :
    ∃ m1 m2 late, Stored s (f.address o s) 4 (s.reg o.rt) m1 ∧
      Stored { s with mem := m1 } (f.address o s + 4) 4 (s.reg (o.rt + 1)) m2 ∧ Arrived late ∧
      storePair (LsForm.pBit f o) o.u (LsForm.wBit f o) o.rn o.rt (o.offset f.offset s) s = .next { s with
        gpr := f.regs o s, mem := m2, late := late, pc := nextPc s, happened := seen s 0x07 } := by
  obtain ⟨hpair, _, _⟩ := not_mem_rt heven h14
  obtain ⟨hfirst, hsecond⟩ := hva.words
  obtain ⟨m1, late1, hstored1, _, hwrite1⟩ :=
    writeData_stored (q := pairReq true s) h hw rfl hfirst hva (s.reg o.rt)
  obtain ⟨m2, late2, hstored2, hlate2, hwrite2⟩ :=
    writeData_afterWrite (q := alignedReq 4 s.privileged true) h hstored1.2.2 late1 rfl hsecond hsecond (s.reg (o.rt + 1))
  refine ⟨m1, m2, late2, hstored1, hstored2, hlate2, ?_⟩
  rw [storePair, if_neg (by rw [hpair, noClash ha]; decide), ← address_eq]
  dsimp only
  rw [finish_of hwrite1, finish_of hwrite2, backBase_eq ha s (afterWrite s m2 late2) rfl rfl rfl, State.advance_eq]
  rfl

end

/-- Settles O24. -/
theorem doublewords : Obligations.Doublewords := by
  intro o s h hc heven h14
  refine ⟨fun f hf ha hrm hva => ?load, fun f hf ha hw hva => ?store⟩
  case load =>
    rw [exec_loadPairs f hf o s ha hrm, onCond_pass hc]
    exact loadPair_direct h heven h14 ha hva
  case store =>
    rw [exec_storePairs f hf o s ha, onCond_pass hc]
    exact storePair_direct h hw heven h14 ha hva

/-! ## Block loads -/

section

variable {s : State} {m : Mode} {p u w : BitVec 1} {rn : BitVec 4} {regs : BitVec 16} {a : Word}

/-- What follows a block load in LDM: a branch, if r15 was in the list. -/
def ldmThen (ret : Bool) (rn : BitVec 4) (pc : Option Word) (s' : State) : Host.Outcome State Fault Refusal :=
  match pc with
  | some v => bxTo (noteLoadReturn ret rn s') v
  | none => .next s'.advance

theorem loadMultiple_eq : loadMultiple p u w rn regs s =
    loadBlock s.mode p u w rn (regList regs) s (ldmThen (p == 0 && u == 1 && w == 1) rn) := rfl

/-- The value for r15 is the last of the block. -/
theorem loadedPC_loadedList : loadedPC (loadedList s (regList regs) a) =
    if regs.getLsbD 15 then some (loadAt s (a + BitVec.ofNat 32 (4 * (below regs 16 - 1))) 4) else none := by
  rw [loadedPC_eq, pc_last]
  split <;> rfl

/-- What is said of the loaded registers determines them. -/
theorem loadedFrom_unique {g g1 g2 : Vector Word 32} (h1 : LoadedFrom s m regs a g g1) (h2 : LoadedFrom s m regs a g g2) :
    g1 = g2 := by
  refine Vector.ext fun i hi => ?_
  obtain ⟨hin1, hout1⟩ := h1 ⟨i, hi⟩
  obtain ⟨hin2, hout2⟩ := h2 ⟨i, hi⟩
  by_cases hlisted : ∃ n : BitVec 4, n ≠ 15 ∧ regs.getLsbD n.toNat = true ∧ physReg m n = ⟨i, hi⟩
  · obtain ⟨n, hn, hmem, hplace⟩ := hlisted
    exact (hin1 n hn hmem hplace).trans (hin2 n hn hmem hplace).symm
  · have hnot : ∀ n : BitVec 4, n ≠ 15 → regs.getLsbD n.toNat = true → physReg m n ≠ ⟨i, hi⟩ :=
      fun n hn hmem hplace => hlisted ⟨n, hn, hmem, hplace⟩
    exact (hout1 hnot).trans (hout2 hnot).symm

end

/-- Settles O25: the block is loaded by `loadBlock_direct`; what follows is a branch, an exception return, or nothing. -/
theorem loadMultipleCorrect : Obligations.LoadMultiple := by
  intro cond rn p u w regs s h hc hne hrn n a ha back hw after
  have hblock := loadBlock_direct h s.mode p u w rn regs hne hrn hw (fun _ => rfl) ha
  rw [loadedPC_loadedList] at hblock
  refine ⟨fun h15 => ?ldm, fun h15 => ?ldmPc, fun husr hsys h15 hw0 => ?ldmUser, rfl⟩
  case ldm =>
    obtain ⟨g, hg, hload⟩ := hblock (ldmThen (p == 0 && u == 1 && w == 1) rn)
    refine ⟨g, hg, (onCond_pass hc _).trans (loadMultiple_eq.trans (hload.trans ?_))⟩
    rw [h15]
    exact congrArg Host.Outcome.next (State.advance_eq _)
  case ldmPc =>
    rw [h15] at hblock
    obtain ⟨g, hg, hload⟩ := hblock (ldmThen (p == 0 && u == 1 && w == 1) rn)
    refine ⟨g, hg, (onCond_pass hc _).trans (loadMultiple_eq.trans (hload.trans ?_)), fun hrun v hv hr => ?ret⟩
    · show bxTo (noteLoadReturn _ rn (after g)) _ = _
      rw [bxTo_eq, noteLoadReturn_eq]
      simp only [Bool.and_eq_true, beq_iff_eq, and_assoc]
      rfl
    case ret =>
      obtain ⟨g', hg', hload'⟩ := hblock fun pc s' => exceptionReturn s' v (pc.getD 0)
      rw [loadedFrom_unique hg' hg] at hload'
      obtain ⟨t, ht, hreturned⟩ := exceptionReturn_spec (after g) v (loadAt s (a + BitVec.ofNat 32 (4 * (n - 1))) 4) hrun hr
      refine ⟨t, (onCond_pass hc _).trans ?_, hreturned⟩
      rw [hv, regs_join regs h15]
      exact hload'.trans ht
  case ldmUser =>
    subst hw0
    have hnoBack {p : Prop} (h01 : (0 : BitVec 1) = 1) : p := absurd h01 (by decide)
    obtain ⟨g, hg, hload⟩ := loadBlock_direct h .usr p u 0 rn regs hne hrn hnoBack hnoBack ha
      fun _ s' => .next s'.advance
    refine ⟨g, hg, (onCond_pass hc _).trans ((if_neg (by simp [husr, hsys])).trans ?_)⟩
    rw [regList_extract regs h15, hload, State.advance_eq]
    rfl

/-! ## Block stores -/

theorem storeMultiple_direct {s : State} (h : Direct s) (hw : Memory.wf s.mem = true) (m : Mode) (p u w : BitVec 1)
    {rn : BitVec 4} {regs : BitVec 16} (hne : regs ≠ 0) (hrn : rn ≠ 15) (hfcse : s.cur.fcse.extractLsb' 25 7 = 0)
    (ha : (blockLow p u (s.reg rn) (below regs 16)).toNat % 4 = 0)
    (hbase : w = 1 → regs.getLsbD rn.toNat = true → below regs rn.toNat = 0) :
    ∃ mem late, StoredAt s m regs (blockLow p u (s.reg rn) (below regs 16)) mem ∧ Arrived late ∧
      storeMultiple m p u w rn regs s = .next { s with
        gpr := if w = 1 then withReg s rn (blockHigh u (s.reg rn) (below regs 16)) else s.gpr
        mem := mem, late := late, pc := nextPc s, happened := seen s 0x07 } := by
  have hlist := regList_ne hne
  have hclash : ¬ (regList regs = [] ∨ rn = 15 ∨ (w = 1 ∧ (regList regs).tail.contains rn = true)) := by
    rintro (hnil | h15 | ⟨hw1, hmem⟩)
    · exact hlist hnil
    · exact hrn h15
    · rw [tail_regList regs rn (hbase hw1)] at hmem; exact absurd hmem (by decide)
  obtain ⟨late, hlate, hstore⟩ := storeWords_direct s (alignedReq 4 s.privileged true) ⟨rfl, rfl⟩ m (regList regs) _ s.mem
    s.happened s.late h ha fun hnil => absurd hnil hlist
  refine ⟨_, late, storedAt s hw hfcse m regs _, hlate, ?_⟩
  rw [storeMultiple, if_neg hclash]
  dsimp only
  rw [regList_length, blockStart_eq, finish_of hstore, if_neg hlist, blockEnd_eq, State.advance_eq]
  split
  · rw [State.setReg_of_ne _ _ _ hrn]; rfl
  · rfl

/-- Settles O26. -/
theorem storeMultipleCorrect : Obligations.StoreMultiple := by
  intro cond rn p u w regs s h hw hc hne hrn hfcse n a ha
  refine ⟨fun hbase => ?stm, fun husr hsys => ?stmUser, rfl⟩
  case stm =>
    obtain ⟨m, late, hstored, hlate, hexec⟩ := storeMultiple_direct h hw s.mode p u w hne hrn hfcse ha hbase
    exact ⟨m, late, hstored, hlate, (onCond_pass hc _).trans hexec⟩
  case stmUser =>
    obtain ⟨m, late, hstored, hlate, hexec⟩ := storeMultiple_direct h hw .usr p u 0 hne hrn hfcse ha
      fun h01 => absurd h01 (by decide)
    exact ⟨m, late, hstored, hlate, (onCond_pass hc _).trans ((if_neg (by simp [husr, hsys])).trans hexec)⟩

/-! ## Swaps -/

section

variable {s : State} {va : Word} {n : Nat}

theorem readAt_direct (h : Direct s) (q : Req) (hsize : va.toNat % q.size = 0) :
    readAt q va (directSpan s va q.size) s = .ok (loadAt s va q.size) (afterRead s) := by
  rw [readAt, readBytes_direct h q hsize]
  show Acc.ok (assemble _ _) _ = _
  rw [assemble_eq]; rfl

/-- Memory reached directly is Strongly ordered for a swap too. -/
theorem swapSpan_direct (s : State) (va : Word) (n : Nat) : swapSpan (directSpan s va n) = directSpan s va n := rfl

theorem swapData_direct (h : Direct s) (hw : Memory.wf s.mem = true) {rn rt rt2 : BitVec 4} (hpc : 15 ∉ [rn, rt, rt2])
    (hrt : rn ≠ rt) (hrt2 : rn ≠ rt2) (hn : n = 1 ∨ n = 4) (ha : (s.reg rn).toNat % n = 0) :
    ∃ m late, Stored s (s.reg rn) n (s.reg rt2) m ∧ Arrived late ∧ swapData n rn rt rt2 s = .next { s with
      gpr := withReg s rt (loadAt s (s.reg rn) n), mem := m, late := late, pc := nextPc s
      happened := seen s 0x06 ||| BitVec.twoPow 16 0x07 } := by
  have hd : rt ≠ 15 := fun e => hpc (by simp [e])
  have hsizes : n = 1 ∨ n = 2 ∨ n = 4 ∨ n = 8 := by omega
  have hprepare (kind : XKind) (hk : kind ≠ .fetch) (b1 b2 b3 : Bool) :
      prepare ⟨n, n, s.privileged, b1, b2, b3⟩ kind (s.reg rn) s = .ok (directSpan s (s.reg rn) n) s :=
    prepare_off h.mmuOff _ hk hsizes ha ha
  have hread := readAt_direct h ⟨n, n, s.privileged, true, true, true⟩ ha
  have hnone : writeError (afterRead s) (directSpan s (s.reg rn) n) n = none :=
    writeError_none (direct_afterRead h).noError (direct_afterRead h).noPort _ _
  obtain ⟨late, hlate, hwrite⟩ := writeBytes_direct (direct_afterRead h) ⟨n, n, s.privileged, false, false, false⟩
    (disassemble (s.cpsr.getLsbD 9) n (s.reg rt2)) (le_of_eq (disassemble_length _ n _)) ha
  have hwriteAt : writeAt ⟨n, n, s.privileged, false, false, false⟩ (s.reg rn) (s.reg rt2) (directSpan s (s.reg rn) n)
      (afterRead s) = _ := hwrite
  refine ⟨_, late, storeList_stored hw _ (by omega) _, hlate, ?_⟩
  rw [swapData, if_neg (by simp only [hrt, hrt2, or_self, or_false]; simpa using hpc)]
  simp only [hprepare .read (by decide), hprepare .write (by decide), Acc.bind, swapSpan_direct, hread, hnone, hwriteAt]
  rw [finish_of rfl, State.setReg_of_ne _ _ _ hd, State.advance_eq]
  rfl

end

/-- Settles O27. -/
theorem swap : Obligations.Swap := by
  intro cond rn rt rt2 s h hw hc hpc hrt hrt2 swapped
  refine ⟨fun ha => ?swp, ?swpb⟩
  case swp =>
    obtain ⟨m, late, hstored, hlate, hexec⟩ := swapData_direct h hw hpc hrt hrt2 (.inr rfl) ha
    exact ⟨m, late, hstored, hlate, (onCond_pass hc _).trans hexec⟩
  case swpb =>
    obtain ⟨m, late, hstored, hlate, hexec⟩ := swapData_direct h hw hpc hrt hrt2 (.inl rfl) (Nat.mod_one _)
    exact ⟨m, late, hstored, hlate, (onCond_pass hc _).trans hexec⟩

end Sys2Proof.Machine

end
end

section
/-! Hints and barriers, the status registers and the return state (O30 to O34; 45_branch_system.md R1725 to R1797). -/

noncomputable section

namespace Sys2Proof.Machine

open Safety

/-! ## Hints and barriers -/

/-- Settles O30: the hints only go on, and each barrier does to the late stores and the monitor what its name says. -/
theorem hints : Obligations.Hints := by
  intro cond rn rm opt hint8 u imm12 imm5 typ mid lo lo4 s hc
  have goes_on (t : State) : Host.Outcome.next t.advance = (.next (skipped t) : Host.Outcome State Fault Refusal) :=
    congrArg Host.Outcome.next (State.advance_eq t)
  refine ⟨?hint, goes_on s.synchronized, goes_on s.completed, goes_on s.fenceStores, goes_on { s with excl := none }, ?wfi⟩
  case hint =>
    simp only [List.forall_mem_cons]
    refine ⟨?nop, ?yield, ?wfe, ?sev, ?dbg, ?other, goes_on s, goes_on s, goes_on s, goes_on s, goes_on s, goes_on s,
      goes_on s, goes_on s, List.forall_mem_nil _⟩
    all_goals exact exec_onCond_skip hc
  case wfi =>
    refine (onCond_pass hc _).trans ?_
    by_cases hskip : s.sys.actlr.getLsbD 8 ∨ s.halted
    · rw [if_pos hskip, if_pos hskip, goes_on]
    · rw [if_neg hskip, if_neg hskip, goes_on]
      rfl

/-! ## MRS and MSR -/

/-- Settles O31. -/
theorem statusRegisterReads : Obligations.StatusRegisterReads := by
  intro cond rd s hc
  have run (r : BitVec 1) (rd : BitVec 4) : exec (.mrs cond r rd) s = if rd = 15 then .fault .operands
      else if r = 0 then .next (s.setReg rd (s.cpsr &&& mrsMask s)).advance
      else match s.spsr? with
        | none => .fault .operands
        | some v => .next (s.setReg rd v).advance :=
    onCond_pass hc _
  refine ⟨fun hrd => ?cpsr, fun v hrd hv => ?spsr, fun hnone => ?noSpsr, fun r => ?pc⟩
  case cpsr => rw [run, if_neg hrd, if_pos rfl, setReg_wrote hrd _]; rfl
  case spsr => rw [run, if_neg hrd, if_neg (by decide), hv]; exact congrArg Host.Outcome.next (setReg_wrote hrd v)
  case noSpsr => rw [run, if_neg (by decide : (1 : BitVec 1) ≠ 0), hnone, ite_self]
  case pc => rw [run, if_pos rfl]

/-- Settles O32: every form is one of the two writes, of CPSR or of the SPSR, of a register or of a constant. -/
theorem statusRegisterWrites : Obligations.StatusRegisterWrites := by
  intro cond m rn imm12 s hc hh
  refine ⟨fun hrn hm => ?register, fun hbad => ?bad, ?constant, ?spsrRegister, ?spsrConstant⟩
  case register =>
    have e : exec (.msrCpsrReg cond m rn) s = writeCpsr m (s.reg rn) s :=
      (onCond_pass hc _).trans (if_neg (not_or.2 ⟨hrn, hm⟩))
    rw [e]
    exact writeCpsr_spec s hh m _
  case bad => exact (onCond_pass hc _).trans (if_pos hbad)
  case constant =>
    have e : exec (.msrCpsrImm cond m imm12) s = writeCpsr m (opImm imm12 s).1 s := onCond_pass hc _
    rw [e]
    exact writeCpsr_spec s hh m _
  case spsrRegister =>
    have e : exec (.msrSpsrReg cond m rn) s = writeSpsr m (s.reg rn) s := onCond_pass hc _
    rw [e]
    exact writeSpsr_spec s m _
  case spsrConstant =>
    have e : exec (.msrSpsrImm cond m imm12) s = writeSpsr m (opImm imm12 s).1 s := onCond_pass hc _
    rw [e]
    exact writeSpsr_spec s m _

/-! ## CPS and SETEND -/

/-- The encodings of CPS that R1778 calls Unpredictable, as conditions on the fields. -/
theorem badCps_iff (imod : BitVec 2) (m a i f : BitVec 1) (mode : BitVec 5) : badCps imod m a i f mode = true ↔
    imod = 1 ∨ (imod = 0 ∧ m = 0) ∨ ((imod = 2 ∨ imod = 3) ∧ a = 0 ∧ i = 0 ∧ f = 0) ∨ (m = 0 ∧ mode ≠ 0) ∨
      (¬ (imod = 2 ∨ imod = 3) ∧ (a = 1 ∨ i = 1 ∨ f = 1)) := by
  have masks : ((a ++ i ++ f : BitVec 3) == 0) = true ↔ a = 0 ∧ i = 0 ∧ f = 0 := by revert a i f; decide
  have some_mask : ((a ++ i ++ f : BitVec 3) != 0) = true ↔ a = 1 ∨ i = 1 ∨ f = 1 := by revert a i f; decide
  have sets : imod.getLsbD 1 = true ↔ imod = 2 ∨ imod = 3 := by revert imod; decide
  unfold badCps
  simp only [Bool.or_eq_true, Bool.and_eq_true, masks, some_mask, sets, beq_iff_eq, bne_iff_ne, Bool.not_eq_true',
    ← Bool.not_eq_true, or_assoc]

/-- A bit of a mask that names the bit `k` when `c` holds. -/
theorem maskBit_iff {j : Nat} (hj : j < 32) (c : Prop) [Decidable c] (k : Nat) :
    (if c then BitVec.twoPow 32 k else 0 : Word).getLsbD j = true ↔ c ∧ j = k := by
  by_cases hc : c
  · rw [if_pos hc, BitVec.getLsbD_twoPow]
    simp only [hc, true_and, Bool.and_eq_true, decide_eq_true_eq]
    omega
  · simp [hc]

/-- Each bit of the status that CPS writes: a mask that is named and may be written takes the value, every other bit stays. -/
theorem cpsFlags_bit {s : State} (hh : s.halted = false) (imod : BitVec 2) (a i f : BitVec 1) {j : Nat} (hj : j < 32) :
    (cpsFlags imod a i f s).getLsbD j =
      if (j = 8 ∧ a = 1 ∧ (imod = 2 ∨ imod = 3) ∧ maskWritable s 8 (imod.getLsbD 0)) ∨ (j = 7 ∧ i = 1 ∧ (imod = 2 ∨ imod = 3)) ∨
          (j = 6 ∧ f = 1 ∧ (imod = 2 ∨ imod = 3) ∧ maskWritable s 6 (imod.getLsbD 0))
        then imod.getLsbD 0 else s.cpsr.getLsbD j := by
  have sets : imod.getLsbD 1 = true ↔ imod = 2 ∨ imod = 3 := by revert imod; decide
  unfold cpsFlags
  by_cases hsets : imod = 2 ∨ imod = 3
  · rw [if_pos (sets.2 hsets), getLsbD_mergeBits]
    have value : (if imod.getLsbD 0 then 0xFFFFFFFF else 0 : Word).getLsbD j = imod.getLsbD 0 := by
      cases imod.getLsbD 0 with
      | false => simp
      | true =>
        rw [if_pos rfl, show (0xFFFFFFFF : Word) = BitVec.allOnes 32 from rfl, BitVec.getLsbD_allOnes, decide_eq_true hj]
    rw [value]
    refine if_congr ?_ rfl rfl
    rw [BitVec.getLsbD_or, BitVec.getLsbD_or, Bool.or_eq_true, Bool.or_eq_true]
    rw [show (0x100 : Word) = BitVec.twoPow 32 8 from rfl, show (0x80 : Word) = BitVec.twoPow 32 7 from rfl,
      show (0x40 : Word) = BitVec.twoPow 32 6 from rfl, maskBit_iff hj,
      maskBit_iff hj, maskBit_iff hj]
    simp only [Bool.and_eq_true, isSet_iff, mayWriteA_iff hh (imod.getLsbD 0), mayWriteF_iff hh, hsets,
      true_and, or_assoc, and_comm]
  · rw [if_neg (fun h => hsets (sets.1 h)), if_neg (by simp only [hsets, false_and, and_false, or_self, not_false_eq_true])]

/-- The mode field of the status is not among the masks CPS writes. -/
theorem cpsFlags_mode {s : State} (hh : s.halted = false) (imod : BitVec 2) (a i f : BitVec 1) :
    (cpsFlags imod a i f s).extractLsb' 0 5 = s.cpsr.extractLsb' 0 5 := by
  apply BitVec.eq_of_getLsbD_eq
  intro j hj
  rw [BitVec.getLsbD_extractLsb', BitVec.getLsbD_extractLsb', cpsFlags_bit hh imod a i f (by omega), if_neg (by omega)]

/-- CPS in a privileged mode writes the masks, and the mode when M = 1. -/
theorem changeState_spec {s : State} (hh : s.halted = false) (imod : BitVec 2) (m a i f : BitVec 1) (mode : BitVec 5) :
    if m = 1 ∧ Mode.ofBits mode = none then changeState imod m a i f mode s = .fault .illegalMode
    else ∃ c, changeState imod m a i f mode s = .next { s with
          cpsr := c, monitorLeft := leavesMonitor s c, pc := nextPc s } ∧
      (∀ j < 32, 5 ≤ j → c.getLsbD j = (cpsFlags imod a i f s).getLsbD j) ∧
      c.extractLsb' 0 5 = if m = 1 ∧ ¬ (Mode.ofBits mode = some .mon ∧ s.secure = false) then mode
        else s.cpsr.extractLsb' 0 5 := by
  have flags_mode := cpsFlags_mode hh imod a i f
  unfold changeState
  by_cases hm : m = 1
  · rw [if_pos hm, newMode_run hh]
    by_cases hn : Mode.ofBits mode = none
    · rw [if_pos ⟨hm, hn⟩, if_pos hn]
    · rw [if_neg (fun h => hn h.2), if_neg hn]
      refine ⟨setBits (cpsFlags imod a i f s) 0
        (if Mode.ofBits mode = some .mon ∧ s.secure = false then s.cpsr.extractLsb' 0 5 else mode), ?next, ?bits, ?mode⟩
      case next =>
        show Host.Outcome.next (State.advance (State.afterModeChange s _)) = _
        rw [afterModeChange_run hh, State.advance_eq]
        rfl
      case bits =>
        intro j _ h5
        rw [getLsbD_setBits _ _ _ _ (by decide), if_neg (by omega)]
      case mode =>
        rw [extract_setBits_same _ _ _ (by decide)]
        by_cases hmon : Mode.ofBits mode = some .mon ∧ s.secure = false
        · rw [if_pos hmon, if_neg (fun h => h.2 hmon)]
        · rw [if_neg hmon, if_pos ⟨hm, hmon⟩]
  · rw [if_neg (fun h => hm h.1), if_neg hm]
    refine ⟨cpsFlags imod a i f s, ?next, fun _ _ _ => rfl, ?mode⟩
    case next =>
      rw [leavesMonitor_same flags_mode, State.advance_eq]
      rfl
    case mode => rw [if_neg (fun h => hm h.1), flags_mode]

/-- Settles O33. -/
theorem changeProcessorState : Obligations.ChangeProcessorState := by
  intro imod m a i f e mode s hh
  have run : exec (.cps imod m a i f mode) s = if badCps imod m a i f mode then .fault .operands
    else if s.privileged then changeState imod m a i f mode s else .next s.advance := rfl
  have bad_iff := badCps_iff imod m a i f mode
  refine ⟨fun hbad => ?bad, fun hgood huser => ?user, fun hgood hpriv => ?privileged, ?setend⟩
  case bad => rw [run, if_pos (bad_iff.2 hbad)]
  case user =>
    rw [run, if_neg (fun h => hgood (bad_iff.1 h)), if_neg (fun h => priv_iff.1 h huser), State.advance_eq]
  case privileged =>
    rw [run, if_neg (fun h => hgood (bad_iff.1 h)), if_pos (priv_iff.2 hpriv)]
    have spec := changeState_spec hh imod m a i f mode
    by_cases hillegal : m = 1 ∧ Mode.ofBits mode = none
    · rw [if_pos hillegal] at spec ⊢
      exact spec
    · rw [if_neg hillegal] at spec ⊢
      obtain ⟨c, hnext, hbits, hmode⟩ := spec
      exact ⟨c, hnext, fun j hj h5 => (hbits j hj h5).trans (cpsFlags_bit hh imod a i f hj), hmode⟩
  case setend =>
    refine ⟨setBit s.cpsr 9 (isSet e), congrArg Host.Outcome.next (State.advance_eq _), ?_, fun j hj => ?_⟩
    · rw [getLsbD_setBit _ _ _ _ (by decide), if_pos rfl]; rfl
    · rw [getLsbD_setBit _ _ _ _ (by decide), if_neg hj]

/-! ## SRS and RFE -/

section

variable {s : State} (h : Direct s) (p u w : BitVec 1)

include h

/-- SRS reached directly stores r14 and the SPSR on the stack of the named mode. -/
theorem storeReturnState_direct (hw : Memory.wf s.mem = true) (m : Mode) (spsr : Word)
    (hva : (pairAddress p u (s.regOf m 13)).toNat % 4 = 0) :
    ∃ m1 m2 late, Stored s (pairAddress p u (s.regOf m 13)) 4 (s.reg 14) m1 ∧
      Stored { s with mem := m1 } (pairAddress p u (s.regOf m 13) + 4) 4 spsr m2 ∧ Arrived late ∧
      storeReturnState p u w m spsr s = .next { s with
        gpr := if w = 1 then s.gpr.set (physReg m 13) (pairEnd u (s.regOf m 13)) (physReg m 13).isLt else s.gpr
        mem := m2, late := late, pc := nextPc s, happened := seen s 0x07 } := by
  have hsecond : (pairAddress p u (s.regOf m 13) + 4).toNat % 4 = 0 := add4_mod hva
  obtain ⟨m1, late1, hstored1, -, hwrite1⟩ :=
    writeData_stored (q := alignedReq 4 s.privileged true) h hw rfl hva hva (s.reg 14)
  obtain ⟨m2, late2, hstored2, hlate2, hwrite2⟩ :=
    writeData_afterWrite (q := alignedReq 4 s.privileged true) h hstored1.2.2 late1 rfl hsecond hsecond spsr
  refine ⟨m1, m2, late2, hstored1, hstored2, hlate2, ?_⟩
  unfold storeReturnState
  dsimp only
  rw [finish_of hwrite1, finish_of hwrite2, State.advance_eq]
  by_cases hwb : w = 1
  · simp only [if_pos hwb]; rfl
  · simp only [if_neg hwb]; rfl

/-- RFE reached directly returns to the address and the status it finds. -/
theorem loadReturnState_direct (hh : s.halted = false) {rn : BitVec 4} (hrn : rn ≠ 15)
    (hva : (pairAddress p u (s.reg rn)).toNat % 4 = 0)
    (hstatus : Restorable (loadAt s (pairAddress p u (s.reg rn) + 4) 4)) :
    ∃ t, loadReturnState p u w rn s = .next t ∧
      Returned { s with
        gpr := if w = 1 then withReg s rn (pairEnd u (s.reg rn)) else s.gpr
        late := arrivedLate s, happened := seen s 0x06 } t
        (loadAt s (pairAddress p u (s.reg rn) + 4) 4) (loadAt s (pairAddress p u (s.reg rn)) 4) := by
  have hsecond : (pairAddress p u (s.reg rn) + 4).toNat % 4 = 0 := add4_mod hva
  have hread1 : readData { alignedReq 4 s.privileged false with precise := true } (pairAddress p u (s.reg rn)) s =
      .ok (loadAt s (pairAddress p u (s.reg rn)) 4) (afterRead s) :=
    readData_direct h _ (.inr (.inr (.inl rfl))) hva hva
  have hread2 : readData { alignedReq 4 s.privileged false with precise := true } (pairAddress p u (s.reg rn) + 4)
      (afterRead s).gap = .ok (loadAt s (pairAddress p u (s.reg rn) + 4) 4) (afterRead s) :=
    readData_afterRead h _ (.inr (.inr (.inl rfl))) hsecond hsecond
  unfold loadReturnState
  dsimp only
  rw [finish_of hread1, finish_of hread2]
  have hbase : (if w = 1 then (afterRead s).setReg rn (pairEnd u (s.reg rn)) else afterRead s) = { s with
        gpr := if w = 1 then withReg s rn (pairEnd u (s.reg rn)) else s.gpr
        late := arrivedLate s, happened := seen s 0x06 } := by
    by_cases hwb : w = 1
    · simp only [if_pos hwb, State.setReg_of_ne _ _ _ hrn]; rfl
    · simp only [if_neg hwb]; rfl
  rw [hbase]
  exact exceptionReturn_spec _ _ _ hh hstatus

end

/-- Settles O34. -/
theorem returnState : Obligations.ReturnState := by
  intro p u w rn mode s h hh
  refine ⟨fun spsr m hspsr hm hmon hw hva => ?srs, fun hbad => ?srsBad, fun hrn hpriv hva hstatus => ?rfe, fun hbad => ?rfeBad⟩
  case srs =>
    have run : exec (.srs p u w mode) s = storeReturnState p u w m spsr s := by
      show execSrs p u w mode s = _
      rw [execSrs, hspsr, hm]
      refine if_neg fun hx => ?_
      obtain ⟨hx, hns⟩ := hx
      rw [hmon hx] at hns
      exact absurd hns (by decide)
    rw [run]
    exact storeReturnState_direct h p u w hw m spsr hva
  case srsBad =>
    show execSrs p u w mode s = _
    unfold execSrs
    rcases hbad with hnone | hnone | ⟨hmon, hns⟩
    · rw [hnone]
    · rw [hnone]; cases s.spsr? <;> rfl
    · rw [hmon, hns]; cases s.spsr? <;> rfl
  case rfe =>
    have run : exec (.rfe p u w rn) s = loadReturnState p u w rn s :=
      if_neg (not_or.2 ⟨hrn, by rw [priv_iff.2 hpriv]; decide⟩)
    rw [run]
    exact loadReturnState_direct h p u w hh hrn hva hstatus
  case rfeBad =>
    refine if_pos (hbad.imp_right fun huser => ?_)
    rw [Bool.not_eq_true', ← Bool.not_eq_true, priv_iff]
    exact fun hne => hne huser

end Sys2Proof.Machine

end
end

section
/-! Calls, the breakpoint, and what a step at the instruction boundary does (O20, O21, O56, O59; 60_exceptions.md,
62_debug_events.md). -/

noncomputable section

namespace Sys2Proof.Machine

open Safety

/-- Settles O20. -/
theorem exceptionCalls : Obligations.ExceptionCalls := by
  intro cond imm4 imm12 imm24 s hc hh
  have running (t : State) : (if s.halted then s else t) = t := if_neg (by simp [hh])
  refine ⟨?svc, fun hpriv => ?smc, fun huser => ?smcUser, ?udf⟩
  case svc =>
    refine ⟨takeException .svc false (s.pc + 4) s, ?_, entered .svc false .svc 2 _ s rfl rfl⟩
    exact (onCond_pass hc _).trans (congrArg Host.Outcome.next (running _))
  case smc =>
    refine ⟨takeException .smc true (s.pc + 4) s, ?_, entered .smc true .mon 3 _ s rfl rfl⟩
    exact (onCond_pass hc _).trans (congrArg Host.Outcome.next ((if_pos (by simp [priv_iff.2 hpriv])).trans (running _)))
  case smcUser =>
    refine ⟨takeUndefined s, ?_, takeUndefined_spec s⟩
    exact (onCond_pass hc _).trans (congrArg Host.Outcome.next (if_neg (by simp [hh, State.privileged, huser])))
  case udf => exact ⟨takeUndefined s, onCond_pass hc _, takeUndefined_spec s⟩

/-! ## The breakpoint -/

/-- Entry to debug state writes the code to DSCR[5:2]. -/
theorem enterDebug_code (s : State) (code : BitVec 4) : (s.enterDebug code).dbg.dscr.extractLsb' 2 4 = code := by
  apply BitVec.eq_of_getLsbD_eq
  intro i hi
  show (setBit (setBit (setBits s.dbg.dscr 2 code) 0 true) 19 true |>.extractLsb' 2 4).getLsbD i = _
  rw [BitVec.getLsbD_extractLsb', getLsbD_setBit _ _ _ _ (by decide), if_neg (by omega),
    getLsbD_setBit _ _ _ _ (by decide), if_neg (by omega), getLsbD_setBits _ _ _ _ (by decide), if_pos (by omega)]
  simp [-BitVec.getLsbD_eq_getElem, hi]

theorem setBank_eq (s : State) (secure : Bool) (b : Banked) : s.setBank secure b =
    { s with sec := if secure then b else s.sec, nsec := if secure then s.nsec else b } := by
  cases secure <;> rfl

theorem faultStatus_debug : faultStatus 0b00010 false false 0 = 0x2 := by decide

/-- What a debug event notes before its abort: the event, its code in DSCR[5:2], and that a free value is used. -/
theorem debugEvent_noted (code : BitVec 4) (s : State) : ((s.note 0x01).setEntry code).drawn = { s with
    draws := s.draws + 1, happened := seen s 0x01, dbg := { s.dbg with dscr := setBits s.dbg.dscr 2 code } } := rfl

/-- The Prefetch Abort of a debug event: the fault registers record it, DSCR[5:2] gets the code and nothing else of
DSCR changes. -/
theorem takeDebugException_spec (code : BitVec 4) (s : State) :
    let b := { s.cur with ifsr := 0x2, ifar := Config.freeWord s.draws &&& 0xFFFFFFFE }
    ∃ d, Entered { s with
        draws := s.draws + 1
        happened := seen s 0x01
        dbg := { s.dbg with dscr := d }
        sec := if s.secure then b else s.sec
        nsec := if s.secure then s.nsec else b } (takeDebugException code s) .abt 4 (s.pc + 4) 0x0C true false ∧
      d.extractLsb' 2 4 = code ∧
      ∀ i < 32, i < 2 ∨ 6 ≤ i → d.getLsbD i = s.dbg.dscr.getLsbD i := by
  refine ⟨setBits s.dbg.dscr 2 code, ?entered, extract_setBits_same _ _ _ (by decide), fun i _ hi => ?rest⟩
  case entered =>
    unfold takeDebugException
    dsimp only
    rw [debugEvent_noted, setBank_eq, faultStatus_debug]
    exact entered .prefetchAbort false .abt 4 _ _ rfl rfl
  case rest => rw [getLsbD_setBits _ _ _ _ (by decide), if_neg (by omega)]

/-- Settles O21. -/
theorem breakpoint : Obligations.Breakpoint := by
  intro imm4 imm12 s hh
  have run : exec (.bkpt 14 imm12 imm4) s = .next (match s.debugResponse with
      | .halts => s.enterDebug 0b0011
      | .raises => takeDebugException 0b0011 s
      | .ignored => takeDebugException 0b0011 s) :=
    congrArg Host.Outcome.next (if_neg (by simp [hh]))
  refine ⟨fun hresponse => ?enters, fun hresponse => ?aborts, fun cond hcond => ?bad⟩
  case enters =>
    refine ⟨s.enterDebug 0b0011, by rw [run, hresponse], enterDebug_halted s _, enterDebug_code s _, rfl, rfl, rfl, rfl, rfl, rfl,
      rfl, fun hthumb => ?_⟩
    show (if s.cpsr.getLsbD 5 then s.pc - 4 else s.pc) = s.pc
    rw [hthumb]
    rfl
  case aborts =>
    obtain ⟨d, habort, hcode, hrest⟩ := takeDebugException_spec 0b0011 s
    refine ⟨d, takeDebugException 0b0011 s, ?_, habort, hcode, hrest⟩
    rw [run]
    cases hr : s.debugResponse with
    | halts => exact absurd hr hresponse
    | raises => rfl
    | ignored => rfl
  case bad => exact if_neg hcond

/-! ## The step at the instruction boundary -/

/-- A step that fetches a word with no abort due executes the word. -/
theorem step_fetched {s : State} (h : Turn s) (hf : due s s.pins.fiq 6 = false) (hi : due s s.pins.irq 7 = false)
    (ht : s.cpsr.getLsbD 5 = false) (hj : s.cpsr.getLsbD 24 = false) {w : Word} {s1 : State}
    (hfetch : fetchChecked s.pc s = .ok w s1) (habort : s1.abortDue = none) :
    step s = afterwards (execute w s1) settleDebug := by
  rw [step_fetch h hf hi ht hj, fetchStep_quiet h.noDebug, hfetch]
  simp only [habort]

theorem runWord_decoded {w : Word} {i : Instr} (hdecode : decodeWord w = .ok i) (s : State) : runWord w s = exec i s := by
  rw [runWord, hdecode]

/-- With no exit from Monitor mode to complete, executing a word is executing its instruction, which then retires. -/
theorem execute_decoded {w : Word} {i : Instr} (hdecode : decodeWord w = .ok i) {s : State} (hleft : s.monitorLeft = false) :
    execute w s = afterwards (exec i s) (retire s) := by
  rw [execute, runWord_decoded hdecode]
  cases exec i s with
  | next t => exact if_neg (by simp [hleft])
  | fault e => rfl
  | refused r => rfl

/-- Between an exit from Monitor mode and its completion the instruction must complete it (R2011). -/
theorem execute_monitorLeft {w : Word} {i : Instr} (hdecode : decodeWord w = .ok i) {s t : State} (hleft : s.monitorLeft = true)
    (hnext : exec i s = .next t) : execute w s = if t.monitorLeft then .fault .monitorExit else .next (retire s t) := by
  rw [execute, runWord_decoded hdecode, hnext]
  simp only [hleft, Bool.true_and]

/-- Settles O56. -/
theorem stepRunsDecoded : Obligations.StepRunsDecoded := by
  intro i s h hf hi ht hj
  refine ⟨fun w s1 hfetch habort hdecode => ⟨fun hleft => ?runs, fun hleft t hnext => ?leaving⟩,
    fun hdirect hl1 hl2 hlate habort hleft hdecode => ?memory⟩
  case runs => rw [step_fetched h hf hi ht hj hfetch habort, execute_decoded hdecode hleft]
  case leaving =>
    rw [step_fetched h hf hi ht hj hfetch habort, execute_monitorLeft hdecode hleft hnext]
    cases t.monitorLeft <;> rfl
  case memory =>
    rw [step_fetched h hf hi ht hj (fetch_direct hdirect hl1 hl2 hlate) habort, execute_decoded hdecode hleft]

theorem step_fiq {s : State} (h : Turn s) (hf : due s s.pins.fiq 6 = true) : step s = .next (settled s (takeFiq s)) := by
  rw [step_turn h]
  unfold boundary
  rw [haltCauses_quiet h.noDebug, fiqDue_eq, hf]
  rfl

theorem step_irq {s : State} (h : Turn s) (hf : due s s.pins.fiq 6 = false) (hi : due s s.pins.irq 7 = true) :
    step s = .next (settled s (takeIrq s)) := by
  rw [step_turn h]
  unfold boundary
  rw [haltCauses_quiet h.noDebug, fiqDue_eq, irqDue_eq, hf, hi]
  rfl

/-- The entry for a Prefetch Abort that is not routed to Monitor mode. -/
theorem takePrefetchAbort_spec {a : Abort} {s : State} (hroute : s.abortRouted a = false) :
    let b := { s.cur with ifsr := faultStatus a.status false a.slave 0, ifar := a.mva &&& 0xFFFFFFFE }
    Entered { s with
      happened := seen s 0x01
      sec := if s.secure then b else s.sec
      nsec := if s.secure then s.nsec else b } (takePrefetchAbort a s) .abt 4 (s.pc + 4) 0x0C true false := by
  unfold takePrefetchAbort
  dsimp only
  rw [hroute, Bool.false_or, setBank_eq]
  exact entered .prefetchAbort false .abt 4 _ _ rfl rfl

/-- Settles O59: the boundary tests FIQ, then IRQ, then fetches. -/
theorem interruptsAndAborts : Obligations.InterruptsAndAborts := by
  intro s h
  refine ⟨fun hf => ⟨takeFiq s, step_fiq h hf, fun hroute => ?fiqHere, fun hroute => ?fiqMonitor⟩,
    fun hf hi => ⟨takeIrq s, step_irq h hf hi, fun hroute => ?irqHere, fun hroute => ?irqMonitor⟩,
    fun hf hi ht hj a s1 hfetch hroute => ⟨takePrefetchAbort a s1, ?abort, takePrefetchAbort_spec hroute⟩⟩
  case fiqHere => rw [takeFiq, hroute]; exact entered .fiq false .fiq 0 _ s rfl rfl
  case fiqMonitor => rw [takeFiq, hroute]; exact entered .fiq true .mon 3 _ s rfl rfl
  case irqHere => rw [takeIrq, hroute]; exact entered .irq false .irq 1 _ s rfl rfl
  case irqMonitor => rw [takeIrq, hroute]; exact entered .irq true .mon 3 _ s rfl rfl
  case abort => rw [step_fetch h hf hi ht hj, fetchStep_quiet h.noDebug, hfetch]; rfl

end Sys2Proof.Machine

end
end
